-- ==== Sys2Proof/Word.lean ====
section
/-! DEFINITION. The words of the machine: 64-bit scalar registers and addresses, and bytes (00_scope.md R3). -/

namespace Sys2Proof

/-- A byte of memory. -/
abbrev Byte := BitVec 8
/-- A scalar register, and a virtual address (R114, R202). -/
abbrev Word := BitVec 64

/-- The truth value of a condition as a register sees it. -/
def boolWord (b : Bool) : Word := if b then 1 else 0

end Sys2Proof
end

