-- ==== Sys2Proof/Config.lean ====
section
/-! DEFINITION. What an implementation fixes, and the free values: constants with no body, of which nothing can be
proved but that they are what they are. -/

namespace Sys2Proof.Config

/-- A free value: `freeNat n k` is the k-th draw of the n-th instruction or event that needs one. It picks the tree
and the inner formats of a free sum (R111), the bounds of a summary whose elements have none (R244), the nonce of a seal
(R275), the element at which a pre-emption stops an instruction (R50) and the control core at which a placement starts (R42). Log 3. -/
opaque freeNat : Nat → Nat → Nat

/-- The device identity public key, derived at boot from a fuse secret (R399): its 1,312 bytes. Log 8. -/
opaque identityKey : Nat → Byte
def identityPublic : List Byte := (List.range 1312).map identityKey

/-- The identity key's ML-DSA-44 signature of a report (R409), byte by byte. Log 8. -/
opaque identitySign : List Byte → Nat → Byte
def identitySignature (msg : List Byte) : List Byte := (List.range 2420).map (identitySign msg)

/-- Whether any other ML-DSA-44 signature (public key, message, signature) verifies (FIPS 204). Log 8. -/
opaque mldsaOther : List Byte → List Byte → List Byte → Bool

/-- Whether an ML-DSA-44 signature verifies (R402, R407): one that the identity key made does, under its public key. -/
def mldsaVerify (key msg sig : List Byte) : Bool :=
  (key == identityPublic && sig == identitySignature msg) || mldsaOther key msg sig

/-- The fuses of the part (R398): DEVID, the upper bits and LCS of LIFECYCLE, VKHASH and DKHASH. Log 8. -/
opaque fuseDevid : BitVec 64
opaque fuseMigGroup : BitVec 16
opaque fuseMinSvn : BitVec 8
opaque fuseLcs : BitVec 2
opaque fuseVkHash : BitVec 256
opaque fuseDkHash : BitVec 256

/-- The device migration key of a group (R399), the same on every part of the group. Log 8. -/
opaque migrationKey : BitVec 16 → BitVec 256

/-- The AES-256-GCM key of sealed images that is derived from a migration key (R275); the manual gives no derivation. Log 8. -/
opaque sealKey : BitVec 256 → BitVec 256

end Sys2Proof.Config
end

