-- ==== Sys2Proof/Operand.lean ====
section
/-! DEFINITION. The operands that instructions and events carry: register numbers, tags, the third operand of format V
(04_encoding.md R77 to R81), and the data of events that no word names. -/

namespace Sys2Proof

/-- A scalar register number, x0 to x31 (R77). -/
abbrev XReg := BitVec 5
/-- A vector register number; 0 to 47 are valid (R79). -/
abbrev VReg := BitVec 6
/-- A mask register number; 0 to 11 are valid (R79). -/
abbrev MReg := BitVec 4
/-- A tile register number, t0 to t7 (R77). -/
abbrev TReg := BitVec 3
/-- A format tag (R10); 0x00 to 0x13 are valid. -/
abbrev Tag := BitVec 5

/-- The third operand of format V, by the form field (R81). -/
inductive Third where
  /-- Form VV: a vector register. -/
  | vv (vb : VReg)
  /-- Form VX: a scalar register. -/
  | vx (xb : XReg)
  /-- Form VI: imm6. -/
  | vi (imm : BitVec 6)
  deriving DecidableEq, Repr

/-- What firmware or the host gives the scheduler beside the RCB when it launches a region (R38): the RCB's virtual
address for x3, whether it is a service region (R18), and the register values that placement writes (R371). DESIGN
CHOICE, log 12: R371 takes these values from a spawning context, which a launch has not. -/
structure Launch where
  va : BitVec 64
  service : Bool
  tvec : BitVec 64
  ptbase : BitVec 64
  asid : BitVec 16
  maxvl : BitVec 5
  preempt : BitVec 32
  deriving DecidableEq, Repr

/-- A message of a collective (R317, R395): a member's contribution, or its withdrawal, from a card that had sent its
contribution or from one that had not. -/
inductive CollMsg where
  | contribution (op : Byte) (rowBytes : BitVec 32) (nodes : List (BitVec 16)) (data : List Byte)
  | withdraw (after : Bool)
  deriving DecidableEq, Repr

/-- What a heddle arbiter finds in a cycle (R57): how many lane groups are idle, the contexts whose queue heads are ready, and
those of them that may hold several groups (R47). -/
structure Heads where
  idle   : BitVec 3
  ready  : BitVec 4
  spread : BitVec 4
  deriving DecidableEq, Repr

/-- A packet of the base-die mesh (R292): its header flit, its operand and payload flits, and whether it is poisoned. -/
structure MeshPacket where
  header   : BitVec 64
  operands : List Byte
  payload  : List Byte
  poisoned : Bool
  deriving DecidableEq, Repr

/-- A line of host memory that the host takes back (R358): an address in it, and what the host writes there. -/
structure HostLine where
  addr : BitVec 48
  data : Option (List Byte)
  deriving DecidableEq, Repr

/-- What a tiller core's instruction writes to its own registers, as RISC-V has it (R294): an integer, a floating-point or
a vector register, or the vector configuration, vl and vtype. -/
inductive TillerPut where
  | x (rd : XReg) (v : BitVec 64)
  | f (rd : XReg) (v : BitVec 64)
  | v (rd : XReg) (data : BitVec 512)
  | vset (vl vtype : BitVec 64)
  deriving DecidableEq, Repr

/-- What a tiller core does outside its own registers, and the result of an instruction that stays within them (R294 to
R299). A load and a store are at the address and of the size that the event names. -/
inductive TillerOp where
  /-- A load into an integer register, zero-extended, and one into a floating-point register, which boxes four bytes. -/
  | load (rd : XReg)
  | loadF (rd : XReg)
  | store (v : BitVec 64)
  /-- The fetch of the instruction at its pc. -/
  | fetch
  /-- An instruction that makes no access: what it writes to registers, the floating-point flags that it raises, and the next
  pc, as RISC-V has them. -/
  | compute (puts : List TillerPut) (flags : BitVec 5) (next : BitVec 64)
  /-- A write of a control register, and a read of one into a register. -/
  | csr (n : BitVec 12) (v : BitVec 64)
  | csrRead (rd : XReg) (n : BitVec 12)
  /-- An exception that RISC-V gives the instruction, and the machine external interrupt. -/
  | trap (cause tval : BitVec 64)
  | interrupt
  /-- The return from a trap. -/
  | mret
  deriving DecidableEq, Repr

/-- An access to a register: by the host through BAR0 (R384), or by a tiller core (R295). -/
inductive RegAccess where
  | write (v : BitVec 64)
  | read
  | tiller (ch : BitVec 8) (op : TillerOp)
  deriving DecidableEq, Repr

/-- What the host sets in its MSI-X table (R385): a vector unmasked or masked, or the function mask. -/
inductive MsixSet where
  | unmask (v : BitVec 6)
  | mask (v : BitVec 6)
  | function (on : Bool)
  deriving DecidableEq, Repr

/-- What the debug port writes into a halted context (R381), or arms (R380). -/
inductive DebugWrite where
  | x (n : XReg) (v : BitVec 64)
  | v (n : VReg) (data : BitVec 8192) (side : BitVec 1024) (tag : Tag)
  | m (n : MReg) (bits : BitVec 1024)
  | csr (n : BitVec 12) (v : BitVec 64)
  | armBreak (on : Bool)
  deriving DecidableEq, Repr

end Sys2Proof
end

