-- ==== Sys2Proof/Machine/Flags.lean ====
section
/-! DEFINITION. Number formats, rounding and the FCSR flags (05_numbers.md R96 to R113): exact values, the one rounding
of every operation, the special functions of R167, strict and free sums, the SX family and E8M0. -/

namespace Sys2Proof.Machine

/-! ### Tags (R10) -/

/-- Sticky flags as FCSR bits 12:8 hold them: NV, DZ, OF, UF, NX from bit 4 down (R102, R122). -/
abbrev Flags := BitVec 5

def fNV : Flags := 0b10000
def fDZ : Flags := 0b01000
def fOF : Flags := 0b00100
def fUF : Flags := 0b00010
def fNX : Flags := 0b00001

/-- A flag raised on a condition. -/
def flagIf (b : Bool) (f : Flags) : Flags := if b then f else 0

def tRAW : Tag := 0x00
def tI32 : Tag := 0x05
def tUI32 : Tag := 0x06
def tI64 : Tag := 0x07
def tUI64 : Tag := 0x08
def tFP32 : Tag := 0x09
def tBF16 : Tag := 0x0A
def tFP16 : Tag := 0x0B
def tE4M3 : Tag := 0x0C
def tE5M2 : Tag := 0x0D
def tE2M1 : Tag := 0x0E
def tE8M0 : Tag := 0x0F
def tI4 : Tag := 0x13
def tUI16 : Tag := 0x04

/-- Class INT (R156). -/
def isInt (t : Tag) : Bool := decide (1 ≤ t.toNat ∧ t.toNat ≤ 8)
/-- Class FLT (R156). -/
def isFlt (t : Tag) : Bool := decide (9 ≤ t.toNat ∧ t.toNat ≤ 0x0E)
/-- Class SX (R156). -/
def isSx (t : Tag) : Bool := decide (0x10 ≤ t.toNat ∧ t.toNat ≤ 0x12)
/-- Class NARROW (R156). -/
def isNarrow (t : Tag) : Bool :=
  t.toNat == 1 || t.toNat == 2 || t == tI4 || t == tE4M3 || t == tE5M2 || t == tE2M1
/-- Class VAL (R156). -/
def isVal (t : Tag) : Bool := isInt t || isFlt t || t == tI4 || t == tE8M0
/-- The sub-byte formats (R98). -/
def isSub (t : Tag) : Bool := t == tE2M1 || t == tI4
/-- The signed tags of R156. -/
def isSigned (t : Tag) : Bool := t.toNat == 1 || t.toNat == 3 || t.toNat == 5 || t.toNat == 7 || t == tI4
/-- A tag that some state may hold (R10). -/
def tagValid (t : Tag) : Bool := decide (t.toNat < 0x14)

/-- tag_width of R98, in bits; RAW counts as 8-bit slots (R168). -/
def tagWidth (t : Tag) : Nat :=
  match t.toNat with
  | 7 => 64 | 8 => 64
  | 5 => 32 | 6 => 32 | 9 => 32
  | 3 => 16 | 4 => 16 | 0x0A => 16 | 0x0B => 16
  | _ => 8

/-- mem_bits of R98 for a tag that is not of the SX family. -/
def memBits (t : Tag) : Nat := if isSub t then 4 else tagWidth t

/-- The mantissa width k of an SX tag (R99). -/
def sxK (t : Tag) : Nat := match t.toNat with | 0x10 => 2 | 0x11 => 4 | _ => 7
/-- Bytes of an SX block in memory (R99). -/
def sxBytes (t : Tag) : Nat := match t.toNat with | 0x10 => 8 | 0x11 => 12 | _ => 18

/-- vlmax of R155. -/
def vlmax (t : Tag) : Nat := 8192 / tagWidth t

/-- Value bits of an integer tag (R97). -/
def intBits (t : Tag) : Nat := if t == tI4 then 4 else tagWidth t
def intMin (t : Tag) : Int := if isSigned t then -(2 ^ (intBits t - 1) : Nat) else 0
def intMax (t : Tag) : Int := if isSigned t then (2 ^ (intBits t - 1) : Nat) - 1 else (2 ^ intBits t : Nat) - 1

/-- The bits of an exact integer modulo 2^w. -/
def wrapBits (w : Nat) (n : Int) : Nat := (n % (2 ^ w : Nat)).toNat

/-- The integer that w bits hold under a signedness. -/
def intOf (signed : Bool) (w n : Nat) : Int :=
  if signed && decide (2 ^ (w - 1) ≤ n) then (n : Int) - (2 ^ w : Nat) else n

/-- sat_to (R104). -/
def satTo (t : Tag) (n : Int) : Int := if n < intMin t then intMin t else if intMax t < n then intMax t else n

/-! ### Exact values -/

/-- A value before rounding: a NaN, an infinity, or the dyadic number (-1)^neg * m * 2^e. -/
inductive Val where
  | nan (sig : Bool)
  | inf (neg : Bool)
  | fin (neg : Bool) (m : Nat) (e : Int)
  deriving DecidableEq, Repr

/-- The exact value of an integer. -/
def Val.ofInt (n : Int) : Val := .fin (decide (n < 0)) n.natAbs 0

def Val.isNan : Val → Bool | .nan _ => true | _ => false
def Val.isSig : Val → Bool | .nan s => s | _ => false
def Val.isInf : Val → Bool | .inf _ => true | _ => false
def Val.isZero : Val → Bool | .fin _ m _ => m == 0 | _ => false
def Val.neg : Val → Val
  | .nan s => .nan s
  | .inf n => .inf (!n)
  | .fin n m e => .fin (!n) m e
def Val.abs : Val → Val
  | .nan s => .nan s
  | .inf _ => .inf false
  | .fin _ m e => .fin false m e
def Val.sign : Val → Bool | .nan _ => false | .inf n => n | .fin n _ _ => n

/-- The value times 2^k. -/
def Val.scale (k : Int) : Val → Val
  | .fin n m e => .fin n m (e + k)
  | v => v

/-- Signed mantissa over the exponent e0, which is no larger than the value's own. -/
def dyAt (e0 : Int) (neg : Bool) (m : Nat) (e : Int) : Int :=
  let a : Int := (m * 2 ^ (e - e0).toNat : Nat)
  if neg then -a else a

/-- floor(log2 m); 0 for 0. -/
def log2n (m : Nat) : Nat := Nat.log2 m

/-- Order of two values that are not NaN, -0 and +0 equal (R169). -/
def cmpVal : Val → Val → Ordering
  | .inf a, .inf b => if a == b then .eq else if a then .lt else .gt
  | .inf a, _ => if a then .lt else .gt
  | _, .inf b => if b then .gt else .lt
  | .fin n m e, .fin n' m' e' =>
    let e0 := min e e'
    compare (dyAt e0 n m e) (dyAt e0 n' m' e')
  | _, _ => .eq

/-- Order of two values that are not NaN with -0 below +0 (R137, R175, R176, R261, R263). -/
def cmpTotal (a b : Val) : Ordering :=
  match cmpVal a b with
  | .eq => if a.isZero && b.isZero then (if a.sign == b.sign then .eq else if a.sign then .lt else .gt) else .eq
  | o => o

def ltVal (a b : Val) : Bool := cmpVal a b == .lt
def ltTotal (a b : Val) : Bool := cmpTotal a b == .lt

/-! ### Rounding -/

/-- Whether a magnitude with quotient n, remainder r and half-unit comparison rounds up (R101). -/
def roundsUp (mode : BitVec 3) (neg : Bool) (n : Nat) (above tie inexact : Bool) : Bool :=
  match mode.toNat with
  | 0 => above || (tie && n % 2 == 1)
  | 1 => false
  | 2 => inexact && neg
  | 3 => inexact && !neg
  | _ => above || (tie && n % 2 == 1)

/-- Rounds m * 2^e to a multiple of 2^q: the multiple, and whether it differs (R101). -/
def roundMag (mode : BitVec 3) (neg : Bool) (m : Nat) (e q : Int) : Nat × Bool :=
  if q ≤ e then (m * 2 ^ (e - q).toNat, false)
  else
    let s := (q - e).toNat
    let n := m / 2 ^ s
    let r := m % 2 ^ s
    let up := roundsUp mode neg n (decide (2 ^ s < 2 * r)) (decide (2 * r = 2 ^ s)) (r != 0)
    (if up then n + 1 else n, r != 0)

/-- A floating-point layout (R96). -/
structure Fmt where
  eb : Nat
  mb : Nat
  bias : Int
  hasInf : Bool
  /-- The largest finite magnitude code. -/
  top : Nat
  /-- The canonical NaN; none for E2M1. -/
  cnan : Option Nat
  /-- Whether the format has signalling NaNs. -/
  sigs : Bool

def fmtFP32 : Fmt := ⟨8, 23, 127, true, 0x7F7FFFFF, some 0x7FC00000, true⟩
def fmtBF16 : Fmt := ⟨8, 7, 127, true, 0x7F7F, some 0x7FC0, true⟩
def fmtFP16 : Fmt := ⟨5, 10, 15, true, 0x7BFF, some 0x7E00, true⟩
def fmtE4M3 : Fmt := ⟨4, 3, 7, false, 0x7E, some 0x7F, false⟩
def fmtE5M2 : Fmt := ⟨5, 2, 15, true, 0x7B, some 0x7E, false⟩
def fmtE2M1 : Fmt := ⟨2, 1, 1, false, 0x7, none, false⟩
def fmtFP64 : Fmt := ⟨11, 52, 1023, true, 0x7FEFFFFFFFFFFFFF, some 0x7FF8000000000000, true⟩

/-- The layout of a tag of class FLT. -/
def fmtOf (t : Tag) : Fmt :=
  match t.toNat with
  | 0x0A => fmtBF16 | 0x0B => fmtFP16 | 0x0C => fmtE4M3 | 0x0D => fmtE5M2 | 0x0E => fmtE2M1 | _ => fmtFP32

/-- The value of a code of a floating-point format (R96). -/
def Fmt.decode (f : Fmt) (bits : Nat) : Val :=
  let mag := bits % 2 ^ (f.eb + f.mb)
  let neg := bits / 2 ^ (f.eb + f.mb) % 2 == 1
  let ex := mag / 2 ^ f.mb
  let man := mag % 2 ^ f.mb
  if f.hasInf && ex + 1 == 2 ^ f.eb then
    if man == 0 then .inf neg else .nan (f.sigs && man / 2 ^ (f.mb - 1) == 0)
  else if f.cnan.isSome && decide (f.top < mag) then .nan false
  else if ex == 0 then .fin neg man (1 - f.bias - f.mb)
  else .fin neg (man + 2 ^ f.mb) ((ex : Int) - f.bias - f.mb)

/-- The code of a sign and a magnitude code. -/
def Fmt.code (f : Fmt) (neg : Bool) (mag : Nat) : Nat := mag + (if neg then 2 ^ (f.eb + f.mb) else 0)

/-- The largest finite code of a sign. -/
def Fmt.maxCode (f : Fmt) (neg : Bool) : Nat := f.code neg f.top
/-- The infinity of a sign, or the largest finite code where there is none. -/
def Fmt.infCode (f : Fmt) (neg : Bool) : Nat := if f.hasInf then f.code neg (f.top + 1) else f.maxCode neg

/-- What overflow delivers (R103). -/
def Fmt.overflow (f : Fmt) (mode : BitVec 3) (neg : Bool) : Nat :=
  match mode.toNat with
  | 1 => f.maxCode neg
  | 2 => if neg then f.infCode neg else f.maxCode neg
  | 3 => if neg then f.maxCode neg else f.infCode neg
  | _ => f.infCode neg

/-- Rounding into a floating-point format (R103): the code and the flags of the rounding. -/
def Fmt.round (f : Fmt) (mode : BitVec 3) : Val → Nat × Flags
  | .nan s => match f.cnan with
    | some c => (c, flagIf s fNV)
    | none => (0, fNV)
  | .inf neg => if f.hasInf then (f.infCode neg, 0) else (f.maxCode neg, fOF ||| fNX)
  | .fin neg m e =>
    if m == 0 then (f.code neg 0, 0)
    else
      let low : Int := 1 - f.bias - f.mb
      let q0 : Int := e + log2n m - f.mb
      let q := max q0 low
      let (n0, _) := roundMag mode neg m e q0
      let tiny := decide (q0 < low) && decide (n0 < 2 ^ (low + f.mb - q0).toNat)
      let (n, inexact) := roundMag mode neg m e q
      let mag := n + (q - low).toNat * 2 ^ f.mb
      if f.top < mag then (f.overflow mode neg, fOF ||| fNX)
      else (f.code neg mag, flagIf inexact fNX ||| flagIf (tiny && inexact) fUF)

/-- Rounding into E8M0 (R103, R107). -/
def roundE8M0 (mode : BitVec 3) : Val → Nat × Flags
  | .nan s => (0xFF, flagIf s fNV)
  | .inf _ => (0xFE, fOF ||| fNX)
  | .fin neg m e =>
    if m == 0 || neg then (0xFF, fNV)
    else
      let l := log2n m
      let ex : Int := e + l
      let exact := m == 2 ^ l
      let twice := 2 * m
      let up := match mode.toNat with
        | 1 => false
        | 2 => false
        | 3 => !exact
        | _ => decide (3 * 2 ^ l < twice) || (twice == 3 * 2 ^ l && (ex + 127) % 2 != 0)
      let r := if up then ex + 1 else ex
      if 127 < r then (0xFE, fOF ||| fNX)
      else if r < -127 then (0x00, fUF ||| fNX)
      else ((r + 127).toNat, flagIf (!exact) fNX)

/-- Rounding to an integer (R101): the integer and whether it differs. -/
def roundInt (mode : BitVec 3) (neg : Bool) (m : Nat) (e : Int) : Int × Bool :=
  let (n, x) := roundMag mode neg m e 0
  (if neg then -(n : Int) else n, x)

/-- Rounding into an integer tag (R103): NaN gives 0, and what lies outside saturates, both with NV. -/
def roundIntTag (t : Tag) (mode : BitVec 3) : Val → Nat × Flags
  | .nan _ => (0, fNV)
  | .inf neg => (wrapBits (tagWidth t) (if neg then intMin t else intMax t), fNV)
  | .fin neg m e =>
    let (n, x) := roundInt mode neg m e
    if n < intMin t || intMax t < n then (wrapBits (tagWidth t) (satTo t n), fNV)
    else (wrapBits (tagWidth t) n, flagIf x fNX)

/-- round_to (R103) for the tags of class VAL: the element's slot bits and the flags. I4 fills its slot with copies of
the sign (R98). -/
def roundTo (t : Tag) (mode : BitVec 3) (v : Val) : Nat × Flags :=
  if isFlt t then (fmtOf t).round mode v
  else if t == tE8M0 then roundE8M0 mode v
  else roundIntTag t mode v

/-- The value of an element's slot bits under a tag of class VAL (R96 to R98). -/
def decodeElem (t : Tag) (bits : Nat) : Val :=
  if isFlt t then (fmtOf t).decode (if isSub t then bits % 16 else bits)
  else if t == tE8M0 then (if bits == 0xFF then .nan false else .fin false 1 ((bits : Int) - 127))
  else .ofInt (intOf (isSigned t) (intBits t) (bits % 2 ^ intBits t))

/-! ### Exact operations. Each answers the exact value and the flags that are not those of rounding (NV, DZ). -/

/-- The sign of an exact zero sum (R103). -/
def zeroSign (mode : BitVec 3) (allNeg allPos : Bool) : Bool :=
  if allNeg then true else if allPos then false else mode == 2

/-- The exact sum of any number of terms (R103). That of none is a zero whose terms have no sign: + but under RDN. -/
def sumExact (mode : BitVec 3) (ts : List Val) : Val × Flags :=
  if ts.any Val.isNan then (.nan false, flagIf (ts.any Val.isSig) fNV)
  else
    let pinf := ts.any (· == .inf false)
    let ninf := ts.any (· == .inf true)
    if pinf && ninf then (.nan false, fNV)
    else if pinf then (.inf false, 0)
    else if ninf then (.inf true, 0)
    else
      let e0 : Int := ts.foldl (fun (a : Int) t => match t with | .fin _ _ e => min a e | _ => a) 0
      let s : Int := ts.foldl (fun (a : Int) t => match t with | .fin n m e => a + dyAt e0 n m e | _ => a) 0
      if s == 0 then
        let all (sign : Bool) : Bool := !ts.isEmpty && ts.all fun t => t.isZero && t.sign == sign
        (.fin (zeroSign mode (all true) (all false)) 0 0, 0)
      else (.fin (decide (s < 0)) s.natAbs e0, 0)

def addExact (mode : BitVec 3) (a b : Val) : Val × Flags := sumExact mode [a, b]

/-- The exact product (R108): 0 times an infinity is NaN with NV. -/
def mulExact : Val → Val → Val × Flags
  | .nan s, b => (.nan false, flagIf (s || b.isSig) fNV)
  | a, .nan s => (.nan false, flagIf (a.isSig || s) fNV)
  | .inf n, .inf n' => (.inf (n != n'), 0)
  | .inf n, .fin n' m _ => if m == 0 then (.nan false, fNV) else (.inf (n != n'), 0)
  | .fin n m _, .inf n' => if m == 0 then (.nan false, fNV) else (.inf (n != n'), 0)
  | .fin n m e, .fin n' m' e' => (.fin (n != n') (m * m') (e + e'), 0)

/-- A magnitude n * 2^e with a remainder, as a value whose last bit stands for what lies below it: every rounding of
at most 100 bits treats it as the exact value. -/
def jam (neg : Bool) (n : Nat) (rest : Bool) (e : Int) : Val := .fin neg (2 * n + (if rest then 1 else 0)) (e - 1)

/-- The exact quotient (R102). -/
def divExact : Val → Val → Val × Flags
  | .nan s, b => (.nan false, flagIf (s || b.isSig) fNV)
  | a, .nan s => (.nan false, flagIf (a.isSig || s) fNV)
  | .inf _, .inf _ => (.nan false, fNV)
  | .inf n, .fin n' _ _ => (.inf (n != n'), 0)
  | .fin n _ _, .inf n' => (.fin (n != n') 0 0, 0)
  | .fin n m e, .fin n' m' e' =>
    if m' == 0 then (if m == 0 then (.nan false, fNV) else (.inf (n != n'), fDZ))
    else
      let k := 130 + log2n m'
      let a := m * 2 ^ k
      (jam (n != n') (a / m') (a % m' != 0) (e - e' - k), 0)

/-- The largest r below 2^k with r * r ≤ n. -/
def isqrtBits : Nat → Nat → Nat → Nat
  | 0, _, r => r
  | k + 1, n, r =>
    let c := r + 2 ^ k
    isqrtBits k n (if c * c ≤ n then c else r)

/-- The integer square root. -/
def isqrt (n : Nat) : Nat := isqrtBits (log2n n / 2 + 1) n 0

/-- The square root (R102, R167). -/
def sqrtExact : Val → Val × Flags
  | .nan s => (.nan false, flagIf s fNV)
  | .inf neg => if neg then (.nan false, fNV) else (.inf false, 0)
  | .fin neg m e =>
    if m == 0 then (.fin neg 0 0, 0)
    else if neg then (.nan false, fNV)
    else
      let k : Nat := if e % 2 == 0 then 200 else 201
      let a := m * 2 ^ k
      let r := isqrt a
      (jam false r (r * r != a) ((e - k) / 2), 0)

/-- The reciprocal (R167). -/
def rcpExact (v : Val) : Val × Flags := divExact (.fin false 1 0) v

/-- The reciprocal square root (R167). -/
def rsqrtExact : Val → Val × Flags
  | .nan s => (.nan false, flagIf s fNV)
  | .inf neg => if neg then (.nan false, fNV) else (.fin false 0 0, 0)
  | .fin neg m e =>
    if m == 0 then (.inf neg, fDZ)
    else if neg then (.nan false, fNV)
    else
      -- 1 / sqrt(m 2^e) = sqrt(2^k / m) * 2^(-(e + k)/2), with e + k even
      let k0 : Nat := 300 + 2 * log2n m
      let k : Nat := if (e + k0) % 2 == 0 then k0 else k0 + 1
      let r := isqrt (2 ^ k / m)
      (jam false r (r * r * m != 2 ^ k) (-((e + k) / 2)), 0)

/-- Binary places of the fixed-point evaluation of 2^a and log2 a. -/
def fxBits : Nat := 320

/-- ln 2 in fixed point, by the sum of 1 / (k 2^k). -/
def ln2Fx : Nat := (List.range 330).foldl (fun a k => a + 2 ^ fxBits / ((k + 1) * 2 ^ (k + 1))) 0

/-- The Taylor sum of e^z for z in [0, 1) in fixed point. -/
def expTaylor : Nat → Nat → Nat → Nat → Nat → Nat
  | 0, _, _, _, acc => acc
  | f + 1, k, z, term, acc =>
    let t := term * z / 2 ^ fxBits / k
    expTaylor f (k + 1) z t (acc + t)

/-- 2^a (R167). Evaluated in fixed point to 2^-300 and delivered with the last bit standing for the rest (log 13). -/
def exp2Exact : Val → Val × Flags
  | .nan s => (.nan false, flagIf s fNV)
  | .inf neg => if neg then (.fin false 0 0, 0) else (.inf false, 0)
  | .fin neg m e =>
    if m == 0 then (.fin false 1 0, 0)
    else if decide (13 < e + log2n m) then (.fin false 1 (if neg then -100000 else 100000), 0)
    else
      let fx : Int := if 0 ≤ e then m * 2 ^ e.toNat * 2 ^ fxBits
        else (m * 2 ^ fxBits / 2 ^ (-e).toNat : Nat)
      let x : Int := if neg then -fx else fx
      let i := x / (2 ^ fxBits : Nat)
      let f := (x % (2 ^ fxBits : Nat)).toNat
      if f == 0 then (.fin false 1 i, 0)
      else
        let z := f * ln2Fx / 2 ^ fxBits
        let y := expTaylor 90 1 z (2 ^ fxBits) (2 ^ fxBits)
        (jam false (y / 2 ^ 60) true (i - (fxBits - 60)), 0)

/-- The series of artanh(z) for z in [0, 1/3] in fixed point. -/
def atanhSeries : Nat → Nat → Nat → Nat → Nat → Nat
  | 0, _, _, _, acc => acc
  | f + 1, k, z2, pow, acc =>
    atanhSeries f (k + 2) z2 (pow * z2 / 2 ^ fxBits) (acc + pow / k)

/-- log2 a (R102, R167). Evaluated in fixed point as 2^a is (log 13); exact for powers of two. -/
def log2Exact : Val → Val × Flags
  | .nan s => (.nan false, flagIf s fNV)
  | .inf neg => if neg then (.nan false, fNV) else (.inf false, 0)
  | .fin neg m e =>
    if m == 0 then (.inf true, fDZ)
    else if neg then (.nan false, fNV)
    else
      let l := log2n m
      let ex : Int := e + l
      if m == 2 ^ l then (if ex == 0 then (.fin false 0 0, 0) else (Val.ofInt ex, 0))
      else
        let num := m - 2 ^ l
        let den := m + 2 ^ l
        let z := num * 2 ^ fxBits / den
        let a := 2 * atanhSeries 105 1 (z * z / 2 ^ fxBits) z 0
        let frac := a * 2 ^ fxBits / ln2Fx
        let w : Int := ex * (2 ^ fxBits : Nat) + frac
        (jam (decide (w < 0)) (w.natAbs / 2 ^ 60) true (-((fxBits : Int) - 60)), 0)

/-! ### Minimum, maximum and comparison (R137) -/

/-- minimumNumber and maximumNumber: which operand is delivered, none for the canonical NaN; NV for a signalling NaN. -/
def minMaxNum (max : Bool) (a b : Val) : Option Bool × Flags :=
  let f := flagIf (a.isSig || b.isSig) fNV
  match a.isNan, b.isNan with
  | true, true => (none, f)
  | true, false => (some true, f)
  | false, true => (some false, f)
  | false, false => (some (if max then ltTotal a b else ltTotal b a), f)

/-! ### Accumulation (R109 to R112) -/

/-- acc_round (R109). -/
def accRound (accsat : Bool) (mode : BitVec 3) (v : Val) : Nat × Flags :=
  let (r, f) := fmtFP32.round mode v
  match v with
  | .fin neg _ _ => if accsat && f &&& fOF != 0 then (fmtFP32.maxCode neg, fOF ||| fNX) else (r, f)
  | _ => (r, f)

/-- scale_value (R108). -/
def scaleValue (v : Val) (e : Byte) : Val :=
  if e == 0xFF then .nan false
  else match v with
    | .nan s => .nan s
    | v => v.scale ((e.toNat : Int) - 127)

/-- scaled_product (R108). -/
def scaledProduct (a : Val) (ea : Byte) (b : Val) (eb : Byte) : Val × Flags :=
  if ea == 0xFF || eb == 0xFF then (.nan false, 0)
  else
    let (p, f) := mulExact a b
    (p.scale (((ea.toNat : Int) - 127) + ((eb.toNat : Int) - 127)), f)

/-- One strict addition (R110) on FP32 bits. -/
def accAdd (accsat : Bool) (mode : BitVec 3) (acc : Nat × Flags) (p : Val × Flags) : Nat × Flags :=
  let (s, f) := addExact mode (fmtFP32.decode acc.1) p.1
  let (r, g) := accRound accsat mode s
  (r, acc.2 ||| p.2 ||| f ||| g)

/-- sum_strict (R110): FP32 bits and flags. -/
def sumStrict (accsat : Bool) (mode : BitVec 3) (acc : Nat) (ps : List (Val × Flags)) : Nat × Flags :=
  ps.foldl (accAdd accsat mode) (acc, 0)

/-- A node of the tree of a free sum, with its height. -/
structure SumNode where
  v : Val
  h : Nat

/-- Whether trees of these heights can still be joined into one of depth d. -/
def sumFits (d : Nat) (ns : List SumNode) : Bool := decide ((ns.map fun n => 2 ^ n.h).sum ≤ 2 ^ d)

/-- The position of a node of least height. -/
def lowest : List SumNode → Nat
  | [] => 0
  | [_] => 0
  | a :: b :: r =>
    let k := lowest (b :: r)
    match (b :: r)[k]? with
    | some c => if a.h ≤ c.h then 0 else k + 1
    | none => 0

/-- The format of an inner node of a free sum: 23 + p fraction bits, and normal exponents from -126 - lo to 127 + hi
(R111). -/
structure InnerFmt where
  p  : Nat
  lo : Nat
  hi : Nat

/-- An inner node's rounding into its format, under R103. -/
def innerRound (f : InnerFmt) (mode : BitVec 3) (v : Val) : Val × Flags :=
  match v with
  | .fin neg m e =>
    if m == 0 then (v, 0)
    else
      let low : Int := -126 - f.lo - (23 + f.p : Nat)
      let q0 : Int := e + log2n m - (23 + f.p : Nat)
      let q := max q0 low
      let (n, inexact) := roundMag mode neg m e q
      let tiny := decide (q0 < low) && decide ((roundMag mode neg m e q0).1 < 2 ^ (low + (23 + f.p : Nat) - q0).toNat)
      if decide ((127 : Int) + f.hi < q + log2n n) then
        let up := match mode.toNat with | 1 => false | 2 => neg | 3 => !neg | _ => true
        (if up then .inf neg else .fin neg (2 ^ (24 + f.p) - 1) (127 + f.hi - (23 + f.p : Nat)), fOF ||| fNX)
      else (if q ≤ e then v else .fin neg n q, flagIf inexact fNX ||| flagIf (tiny && inexact) fUF)
  | v => (v, 0)

/-- Joins two nodes of a free sum. The flags of an inner node's rounding are flags of the sum (DESIGN CHOICE, log 10). -/
def joinNodes (fmt : Option InnerFmt) (mode : BitVec 3) (a b : SumNode) : SumNode × Flags :=
  let (s, f) := addExact mode a.v b.v
  match fmt with
  | some k => let (r, g) := innerRound k mode s; (⟨r, max a.h b.h + 1⟩, f ||| g)
  | none => (⟨s, max a.h b.h + 1⟩, f)

/-- Removes the element at a position. -/
def takeAt {α : Type} (l : List α) (k : Nat) : Option (α × List α) :=
  match l[k]? with
  | some a => some (a, l.eraseIdx k)
  | none => none

/-- The joins of a free sum: free values pick the pairs and the inner formats, within the depth of R111. -/
def freeJoin : Nat → (Nat → Nat) → Nat → BitVec 3 → List SumNode → Flags → Val × Flags
  | 0, _, _, _, ns, f => ((ns.head?.map SumNode.v).getD (.fin false 0 0), f)
  | fuel + 1, draw, d, mode, ns, f =>
    match ns with
    | [] => (.fin false 0 0, f)
    | [n] => (n.v, f)
    | ns =>
      let k := 5 * fuel
      let fmt : Option InnerFmt := if ns.length == 2 then none else some ⟨draw (k + 2), draw (k + 3), draw (k + 4)⟩
      let pick (i : Nat) (j : List SumNode → Nat) : Option (SumNode × Flags × List SumNode) :=
        match takeAt ns i with
        | some (a, r) => match takeAt r (j r) with
          | some (b, r') => let (c, g) := joinNodes fmt mode a b; some (c, g, c :: r')
          | none => none
        | none => none
      let free := pick (draw k % ns.length) (fun r => draw (k + 1) % r.length)
      let low := pick (lowest ns) lowest
      match free, low with
      | some (_, g, ns'), some (_, g', ns'') =>
        if sumFits d ns' then freeJoin fuel draw d mode ns' (f ||| g) else freeJoin fuel draw d mode ns'' (f ||| g')
      | _, _ => (.fin false 0 0, f)

/-- ceil(log2 n). -/
def clog2 (n : Nat) : Nat := if n ≤ 1 then 0 else log2n (n - 1) + 1

/-- A free sum (R111) over an initial FP32 accumulator: the tree and its inner formats are free values. -/
def sumFree (draw : Nat → Nat) (accsat : Bool) (mode : BitVec 3) (acc : Nat) (ps : List (Val × Flags)) : Nat × Flags :=
  let f0 := ps.foldl (fun a p => a ||| p.2) (0 : Flags)
  let leaves : List SumNode := ⟨fmtFP32.decode acc, 0⟩ :: ps.map fun p => ⟨p.1, 0⟩
  let (v, f) := freeJoin ps.length draw (clog2 (ps.length + 1) + 2) mode leaves f0
  let (r, g) := accRound accsat mode v
  (r, f ||| g)

/-- A sum in the strict or the free form. -/
def sumForm (strict : Bool) (draw : Nat → Nat) (accsat : Bool) (mode : BitVec 3) (acc : Nat)
    (ps : List (Val × Flags)) : Nat × Flags :=
  if strict then sumStrict accsat mode acc ps else sumFree draw accsat mode acc ps

/-- A free sum (R111) of terms alone, within the depth that R111 gives so many terms (log 47). -/
def sumFreeTerms (draw : Nat → Nat) (accsat : Bool) (mode : BitVec 3) (ps : List (Val × Flags)) : Nat × Flags :=
  let f0 := ps.foldl (fun a p => a ||| p.2) (0 : Flags)
  let (v, f) := freeJoin ps.length draw (clog2 (ps.length + 1) + 2) mode (ps.map fun p => ⟨p.1, 0⟩) f0
  let (r, g) := accRound accsat mode v
  (r, f ||| g)

/-- The exact sum of an integer and any terms (R112); none where a term is no number or the sum is no integer. -/
def intTotal (n : Int) (ts : List Val) : Option Int :=
  if ts.any fun t => t.isNan || t.isInf then none
  else
    let e0 : Int := ts.foldl (fun (a : Int) t => match t with | .fin _ _ e => min a e | _ => a) 0
    let one : Int := (2 ^ (-e0).toNat : Nat)
    let s : Int := ts.foldl (fun (a : Int) t => match t with | .fin g m e => a + dyAt e0 g m e | _ => a) (n * one)
    if s % one = 0 then some (s / one) else none

/-- The delivery of an exact integer accumulation (R112): slot bits. -/
def accInt (accsat : Bool) (t : Tag) (n : Int) : Nat :=
  wrapBits (tagWidth t) (if accsat then satTo t n else n)

/-- An integer accumulation of any terms: exact where the sum is an integer; else the spec states no result and it is the
free value (log 47). -/
def accTerms (accsat : Bool) (t : Tag) (free : Nat) (n : Int) (ts : List Val) : Nat :=
  match intTotal n ts with
  | some k => accInt accsat t k
  | none => free % 2 ^ tagWidth t

/-! ### The SX family (R99, R100, R106) -/

/-- The largest finite FP32 value. -/
def maxFP32 : Val := fmtFP32.decode 0x7F7FFFFF

/-- |x| with infinities counted as the largest finite FP32 value (R106, R218). -/
def magOf (v : Val) : Nat × Int :=
  match v with
  | .fin _ m e => (m, e)
  | .inf _ => (2 ^ 24 - 1, 104)
  | .nan _ => (0, 0)

/-- Comparison of two magnitudes. -/
def magLt (a b : Nat × Int) : Bool :=
  let e0 := min a.2 b.2
  decide (a.1 * 2 ^ (a.2 - e0).toNat < b.1 * 2 ^ (b.2 - e0).toNat)

/-- The largest magnitude of a list. -/
def magMax (vs : List Val) : Nat × Int :=
  vs.foldl (fun a v => if magLt a (magOf v) then magOf v else a) (0, 0)

/-- An SX block: E, the micro-exponents, and sign and mantissa of each element (R99). -/
structure SxBlock where
  e  : Byte := 0
  mu : Byte := 0
  sm : List (Bool × Nat) := []
  deriving DecidableEq, Repr

/-- The value of element i of a block; none for the reserved code (R99, R100). -/
def sxVal (k : Nat) (e mu : Byte) (i : Nat) (s : Bool) (m : Nat) : Option Val :=
  if e == 0xFF then some (.nan false)
  else if s && m == 0 then none
  else
    let u : Int := if mu.getLsbD (i / 2) then 1 else 0
    some (.fin s m ((e.toNat : Int) - 127 - u - ((k : Int) - 1)))

/-- quantise_sx (R106) of 16 values. The pseudocode sets no flag for a block that holds a NaN; a signalling NaN sets none
here either (log 48). -/
def quantiseSx (k : Nat) (mode : BitVec 3) (xs : List Val) : SxBlock × Flags :=
  if xs.any Val.isNan then (⟨0xFF, 0, List.replicate 16 (false, 0)⟩, 0)
  else
    let a := magMax xs
    if a.1 == 0 then (⟨0, 0, List.replicate 16 (false, 0)⟩, 0)
    else
      let e : Int := min 127 (max (a.2 + log2n a.1) (-127))
      let small (v : Val) : Bool := magLt (magOf v) (1, e)
      let mus := (List.range 8).map fun j =>
        match xs[2 * j]?, xs[2 * j + 1]? with
        | some p, some q => small p && small q
        | _, _ => false
      let mu : Byte := (List.range 8).foldl (fun acc j => if mus[j]?.getD false then acc ||| (1#8 <<< j) else acc) 0
      let step (st : List (Bool × Nat) × Flags × Nat) (x : Val) : List (Bool × Nat) × Flags × Nat :=
        let (out, f, i) := st
        let u : Int := if mus[i / 2]?.getD false then 1 else 0
        let unit : Int := e - u - ((k : Int) - 1)
        let (m, ex) := magOf x
        let (q0, x0) := roundMag mode x.sign m ex unit
        let q := if 2 ^ k - 1 < q0 then 2 ^ k - 1 else q0
        let nx := x0 || q != q0 || x.isInf
        (out ++ [(x.sign && q != 0, q)], f ||| flagIf nx fNX ||| flagIf x.isInf fOF, i + 1)
      let (sm, f, _) := xs.foldl step ([], 0, 0)
      (⟨BitVec.ofInt 8 (e + 127), mu, sm⟩, f)

/-- A block as its bytes in memory, from the lowest (R99). -/
def sxToMem (t : Tag) (b : SxBlock) : List Byte :=
  let k := sxK t
  let bits := (List.range 16).foldl (fun acc i =>
    let (s, m) := b.sm[i]?.getD (false, 0)
    acc + (2 * m + (if s then 1 else 0)) * 2 ^ (16 + (k + 1) * i)) (b.e.toNat + 256 * b.mu.toNat)
  (List.range (sxBytes t)).map fun j => BitVec.ofNat 8 (bits / 2 ^ (8 * j))

/-- A block from its bytes in memory (R99). -/
def sxOfMem (t : Tag) (bs : List Byte) : SxBlock :=
  let k := sxK t
  let bits := (bs.zip (List.range bs.length)).foldl (fun acc p => acc + p.1.toNat * 2 ^ (8 * p.2)) 0
  ⟨BitVec.ofNat 8 bits, BitVec.ofNat 8 (bits / 256),
    (List.range 16).map fun i =>
      let c := bits / 2 ^ (16 + (k + 1) * i)
      (c % 2 == 1, c / 2 % 2 ^ k)⟩

end Sys2Proof.Machine
end

