-- ==== Sys2Proof/Event.lean ====
section
/-! DEFINITION. The events that the machine can have due: the rows of the opcode table that no word names, as data of
the agenda (log 2). -/

namespace Sys2Proof

/-- An event that is due. Each constructor stands for the constructor of Instr of the same name. -/
inductive Event where
  | hardPreemption (cc : BitVec 10)
  | laneShapeChange (core : BitVec 8)
  | heddleGrant (core : BitVec 8) (heads : Heads) (costs : BitVec 32)
  | regionLaunch (rcb : BitVec 48) (rec : Launch)
  | rcbCheck (rcb : BitVec 48)
  | regionPlacement (rcb : BitVec 48) (first : BitVec 10)
  | regionRetire (rcb : BitVec 48)
  | rsTerminateRegion (rcb : BitVec 48)
  | rsTerminateContext (rcb : BitVec 48) (ctx : BitVec 16)
  | rsEvict (rcb : BitVec 48)
  | terminationEnd (rcb : BitVec 48)
  | waitReturn (cc : BitVec 10)
  | barwaitReturn (cc : BitVec 10)
  | barrierStall (slot : BitVec 12)
  | idleTimeout (cc : BitVec 10)
  | uiDelivery (cc : BitVec 10)
  | loadComplete (cc : BitVec 10)
  | storePerformed (cc : BitVec 10)
  | cmStorePerformed (cc : BitVec 10)
  | queryCompletion (cc : BitVec 10) (serial : BitVec 24)
  | sheafAgeExpiry (q : BitVec 10)
  | sheafFiring (cluster : BitVec 6)
  | sheafDelivery (q : BitVec 10)
  | jobStart (cc : BitVec 10) (token : BitVec 32)
  | jobCompletion (cc : BitVec 10) (token : BitVec 32)
  | tileMacroStep (core : BitVec 8)
  | pageWalk (cc : BitVec 10) (va : BitVec 64)
  | walkComplete (cluster : BitVec 6)
  | atomicRequest (cluster : BitVec 6)
  | dieWriteArrival (die src : BitVec 2) (s0 s1 s2 s3 : BitVec 64)
  | dieWriteDeliver (die : BitVec 2)
  | cmInstall (handle : BitVec 12)
  | cmRemove (handle : BitVec 12)
  | cmRemoveDone
  | cmReadBack (handle : BitVec 12)
  | cmmovDone (handle : BitVec 12)
  | cmsealDone (handle : BitVec 12)
  | cmopenDone (handle : BitVec 12)
  | activation (bank : Option (BitVec 14)) (row : BitVec 48)
  | trackerWindowClear
  | refresh (bank : BitVec 14) (burst : Bool)
  | remapMove (region : BitVec 17)
  | remapMoveEnd (region : BitVec 17)
  | divisorChange (d : BitVec 2)
  | computeModeEntry (ch : BitVec 8)
  | nlbExpiry (ch : BitVec 8)
  | normalModeRequest (ch : BitVec 8)
  | normalModeDone (ch : BitVec 8)
  | meshPacket (router : BitVec 8) (packet : MeshPacket)
  | tillerJob (ch : BitVec 8) (cc : BitVec 10) (serial : BitVec 24)
  | tillerDmaGo (ch : BitVec 8) (row ctl : BitVec 64)
  | tillerDmaDone (ch : BitVec 8)
  | replypush (ch : BitVec 8) (data : BitVec 64)
  | replyend (ch : BitVec 8) (v : BitVec 64)
  | tillerTimeout (ch : BitVec 8)
  | tillerFwLoad (ctl : BitVec 64)
  | tillerFwLoadDone
  | flitReceive (port : BitVec 6) (flit : List Byte)
  | ackTimer (port : BitVec 6)
  | linkRetrain (port : BitVec 6)
  | linkDown (port : BitVec 6)
  | readRequest (src : BitVec 8) (tag : BitVec 24) (addr : BitVec 48) (units : BitVec 4)
  | readResponse (src : BitVec 8) (tag : BitVec 24) (data : List Byte)
  | peerWrite (src : BitVec 8) (tag : BitVec 24) (addr : BitVec 48) (data : List Byte)
  | writeAcknowledgement (src : BitVec 8) (tag : BitVec 24)
  | trainElements (src : BitVec 8) (code : BitVec 2) (data : List Byte)
  | trainTail (src : BitVec 8) (tag : BitVec 24) (counter : BitVec 64) (count : BitVec 32)
  | tailAcknowledgement (src : BitVec 8) (tag : BitVec 24)
  | collectiveData (src tag : BitVec 16) (msg : CollMsg)
  | routeWrite (node : BitVec 8) (v : BitVec 64)
  | routeApply (node : BitVec 8)
  | hostMemRead (off : BitVec 48) (n : BitVec 8)
  | hostMemWrite (off : BitVec 48) (data : List Byte)
  | cxlSnoop (die : BitVec 2) (line : HostLine)
  | powerOnReset
  | cxlPortReset
  | bootLoad (cmd : BitVec 64)
  | bootComplete
  | verify
  | keyload
  | keywipe
  | keywipeZeroise
  | dbgopen
  | extend
  | attest
  | debugHalt (cc : BitVec 10)
  | debugRegisterWrite (cc : BitVec 10) (w : DebugWrite)
  | debugResume (cc : BitVec 10)
  | debugCmRead (addr : BitVec 48)
  | registerWrite (off : BitVec 64) (size : BitVec 4) (acc : RegAccess)
  | notAnInstruction (w : BitVec 32)
  | linkUp (port : BitVec 6) (peer : BitVec 8)
  | lifecycleAdvance (lcs : BitVec 2)
  | msixUnmask (set : MsixSet)
  deriving DecidableEq, Repr

end Sys2Proof
end

