-- ==== Sys2Proof/Machine/State.lean ====
section
/-! DEFINITION. The state of the Tirdom as plain data: every item of the catalogues of 06_registers.md, 10_memories.md,
12_capacity.md, 14_stacks.md, 15_queues.md, 16_tables.md, 19_links.md and 20_trust.md, and the machine after reset.
A `Table` lists only the entries that differ from their reset value, in ascending order of key. -/

namespace Sys2Proof.Machine

/-- Entries by number, ascending, none equal to the reset value of its kind. -/
abbrev Table (α : Type) := List (Nat × α)

/-- Privilege levels (R17). -/
inductive Level where
  | user | supervisor | service
  deriving DecidableEq, Repr

/-- The two variants of the device (R29). -/
inductive Variant where
  | yl8 | yl8c
  deriving DecidableEq, Repr

/-- What a control core is doing (R48, R59). HANDLING is the running state with a trap depth above 0 (R362). -/
inductive RunState where
  /-- No resident context. -/
  | absent
  | running
  /-- In WAIT, with its five limits (R302). -/
  | waitCounts (l s c t q : BitVec 5)
  /-- In IDLE, with the core cycles left, none for no limit (R148). -/
  | waitIdle (left : Option Nat)
  /-- In BARWAIT on a physical slot, until its phase differs from p (R233). -/
  | waitBar (slot : Nat) (p : BitVec 16)
  /-- In SHWAIT on a device queue (R311). -/
  | waitSheaf (queue : Nat)
  /-- Stopped for a debugger (R380). -/
  | halted
  deriving DecidableEq, Repr

/-- A vector register: data, side band and tag (R114). -/
structure VecReg where
  data : BitVec 8192 := 0
  side : BitVec 1024 := 0
  tag  : Tag := 0
  deriving DecidableEq, Repr

/-- One row of a dense tile, laid out as a vector register is: element slots and side band (R179, R194). -/
structure Row where
  data : BitVec 8192 := 0
  side : BitVec 1024 := 0
  deriving DecidableEq, Repr

/-- A configured tile (R179, R181). The configuration is the 30-bit word of R179. -/
structure Tile where
  /-- The configuration word; none when unconfigured. -/
  cfg    : Option (BitVec 32) := none
  inUse  : Bool := false
  scaled : Bool := false
  /-- Rows of a dense tile; a row that is not listed is zero. -/
  rows   : Table Row := []
  /-- E8M0 codes of a scaled dense tile (R191). -/
  scales : List Byte := []
  /-- Factors of a factored tile, as FP32 bits: the rank is their number (R179). -/
  us     : List (List (BitVec 32)) := []
  vs     : List (List (BitVec 32)) := []
  deriving DecidableEq, Repr

/-- Outstanding operations by class (R122 OUTCNT). -/
structure OutCnt where
  l : BitVec 12 := 0
  s : BitVec 12 := 0
  c : BitVec 12 := 0
  t : BitVec 12 := 0
  q : BitVec 12 := 0
  deriving DecidableEq, Repr

/-- A translation held by a TLB (R211). -/
structure TlbEntry where
  asid  : BitVec 16
  va    : BitVec 64
  level : Nat
  entry : BitVec 64
  /-- Physical address of the table entry that this is a copy of. -/
  at_   : Nat
  deriving DecidableEq, Repr

/-- The sheaf that a context claims (R300, R311). -/
structure Claim where
  queue : Nat
  count : Nat
  done  : Nat
  deriving DecidableEq, Repr

/-- A store that is counted in S and not yet performed (R220): the nodes and packet tags of its writes to peers that no
acknowledgement has answered (R393), whether the vector stream made it, and whether atomic engines perform it (R222). -/
structure PStore where
  peers : List (BitVec 8 × BitVec 24) := []
  vec   : Bool := false
  adds  : Bool := false
  /-- It stands in S; a TSAVE's stores stand in T (R197). -/
  counted : Bool := true
  /-- The stores of a TSAVE whose last step is done: T falls once they are performed (R197, R345). -/
  tile  : Bool := false
  /-- It went to a page of device class: the next access to such a page waits for it (R207, R227). -/
  ic    : Bool := false
  deriving DecidableEq, Repr

/-- The walk that a control core's instruction, or the engine of a job card, waits for: its ASID and virtual address bits 63:16, whether a cached entry
gave rise to it (R209: walk again), and the trap in which it has ended (R212). -/
structure Miss where
  asid  : BitVec 16
  key   : BitVec 48
  again : Bool := false
  cause : Option (BitVec 8) := none
  deriving DecidableEq, Repr

/-- A tile macro-operation that has issued (R182, R197): for TMMA, A's base and strides and the bounded row count, as
its shape record gave them (R195). -/
inductive MacroOp where
  | tmma (strict : Bool) (td ts : TReg) (base : Word) (rowStride elemStride : BitVec 32) (rows : Nat)
  | tsave (td : TReg) (addr : Word)
  | tload (td : TReg) (addr : Word)
  deriving DecidableEq, Repr

/-- A control core with the register state of its resident context (R114, R119). -/
structure ControlCore where
  ctxid    : BitVec 10
  run      : RunState := .absent
  level    : Level := .user
  pc       : Word := 0
  x        : Vector Word 32 := Vector.replicate 32 0
  /-- The inactive set of x28 to x31 (R117). -/
  shadow   : Vector Word 4 := Vector.replicate 4 0
  v        : Vector VecReg 48 := Vector.replicate 48 {}
  m        : Vector (BitVec 1024) 12 := Vector.replicate 12 0
  t        : Vector Tile 8 := Vector.replicate 8 {}
  vl       : BitVec 11 := 0
  vstart   : BitVec 10 := 0
  vstr     : Word := 0
  vmsel    : BitVec 4 := 15
  mfmt     : BitVec 13 := 0
  fcsr     : BitVec 14 := 0
  ttol     : BitVec 40 := 0
  issued   : BitVec 32 := 0
  done     : BitVec 32 := 0
  /-- A strip that SETVL has begun has met no NEXT yet (R46). -/
  inStrip  : Bool := false
  /-- The trap depth at which the open loop was opened (R46, R52). -/
  loopDepth : BitVec 8 := 0
  tstep    : BitVec 32 := 0
  uivec    : Word := 0
  uiepc    : Word := 0
  uicause  : BitVec 16 := 0
  uistatus : BitVec 2 := 0
  retired  : Word := 0
  out      : OutCnt := {}
  tvec     : Word := 0
  tcause   : BitVec 8 := 0
  tepc     : Word := 0
  tval     : Word := 0
  tstatus  : BitVec 8 := 0
  vdirty   : BitVec 48 := 0
  vowner   : Word := 0
  ptbase   : Word := 0
  asid     : BitVec 16 := 0
  maxvl    : BitVec 5 := 16
  preempt  : BitVec 32 := 65536
  rcbptr   : Word := 0
  fault2   : Word := 0
  tscratch : Word := 0
  /-- Trap depth (R362). -/
  depth    : BitVec 8 := 0
  /-- The last serial given to a query or a job card (R256). -/
  serial   : BitVec 24 := 0
  /-- The pending ring and its cause (R300). -/
  ring     : Option (BitVec 16) := none
  /-- A pending pre-emption request with its deadline in core cycles (R48). -/
  request  : Option (BitVec 32) := none
  claim    : Option Claim := none
  /-- Barrier slots taken part in, each with the phase of the last arrival (R314, R326). -/
  parts    : Table (Option (BitVec 16)) := []
  /-- Physical address of the region's RCB and the context's index (R44). -/
  region   : Option Nat := none
  index    : Nat := 0
  /-- The allotment: offset in the core's scratchpad and size, in bytes (R205). -/
  spadOff  : Nat := 0
  spadLen  : Nat := 0
  /-- The context has reached a SETVL since the pending LGSET (R37). -/
  reached  : Bool := false
  /-- The debug port has armed halting on breakpoints (R380). -/
  armed    : Bool := false
  /-- A macro-operation whose next step waits in the matrix unit, with that step (R197, R199). -/
  macroOp  : Option (MacroOp × Nat) := none
  /-- Loads and stores counted in OUTCNT and not yet complete (R220, R225). -/
  loads    : Nat := 0
  stores   : List PStore := []
  tlb      : List TlbEntry := []
  /-- The walk for which the instruction at pc waits, and the leaves of those that it has waited for: every request joined to a
  walk receives its result (R212). -/
  miss     : Option Miss := none
  held     : List TlbEntry := []
  /-- A trap has been taken and its handler's first instruction has not been fetched: a trap of that fetch is the double
  fault (R365). -/
  entering : Bool := false
  /-- The fence of a pre-emption is not performed yet: the handler's first instruction waits for it (R51). -/
  fencing  : Bool := false
  /-- A VFENCE holds the vector stream's next memory access until its earlier ones are performed (R231). -/
  vfence   : Bool := false
  /-- An EXIT has begun and waits: no pre-emption request reaches the context (R150). -/
  leaving  : Bool := false
  /-- A halt request waits until the instruction that reads a device-class page of a peer has retired (R207, R361). -/
  halting  : Bool := false
  /-- Arbiter credit, and core cycles without a grant (R57, R58). -/
  credit   : Nat := 0
  starved  : Nat := 0
  /-- Credit at the core's query unit (R43). -/
  qcredit  : Nat := 0
  /-- The model's own: the element at which a pre-emption or halt stops the instruction that is being run (R50, log 50);
  none in every state that a step leaves. -/
  cut      : Option Nat := none
  deriving DecidableEq, Repr

/-- A core (R119 rows held once per core, R340). -/
structure Core where
  shape     : BitVec 2 := 0
  nextShape : BitVec 2 := 0
  pend      : Bool := false
  heddle    : BitVec 32 := 0x01010101
  pmsel     : BitVec 32 := 0
  pmc       : Vector Word 4 := Vector.replicate 4 0
  l2        : List TlbEntry := []
  /-- The control core whose macro-operation step ran last (R199). -/
  matrixRR  : BitVec 2 := 0
  deriving DecidableEq, Repr

/-- One request to an atomic engine (R228, R229). -/
structure AtomReq where
  cc   : BitVec 10
  fn   : BitVec 4
  size : BitVec 1
  addr : Nat
  b    : Word
  c    : Word
  rm   : BitVec 3
  /-- The page has compression enabled (R283). -/
  ce   : Bool := false
  deriving DecidableEq, Repr

/-- A walk in the walk table of a cluster (R212). -/
structure Walk where
  asid : BitVec 16
  key  : BitVec 48
  ptbase : Word
  ccs  : List (BitVec 10)
  deriving DecidableEq, Repr

/-- A cluster (R21, R212, R230, R308). -/
structure Cluster where
  /-- The lines that its engine holds, latest first, and the requests to it in order of arrival: the first 256 in its input
  queue, the others held back in the access units (R230). -/
  lines    : List Nat := []
  requests : List AtomReq := []
  walks    : List Walk := []
  waiting  : List (BitVec 10 × Word) := []
  walkCache : List TlbEntry := []
  /-- Queues now firing, and the queue that last fired by fill. -/
  firing   : List Nat := []
  lastFill : Nat := 0
  deriving DecidableEq, Repr

/-- A write or release from another die, held until the vector clock admits it (R334, R354). -/
structure DieWrite where
  src   : BitVec 2
  stamp : Vector Word 4
  deriving DecidableEq, Repr

/-- A compute die (R22, R334). -/
structure Die where
  vc    : Vector Word 4 := Vector.replicate 4 0
  held  : List DieWrite := []
  lines : List Nat := []
  deriving DecidableEq, Repr

/-- A barrier slot (R335) with its watchdog (R337) and the region it is bound to (R336). -/
structure Slot where
  expected : BitVec 16 := 0
  arrivals : BitVec 16 := 0
  phase    : BitVec 16 := 0
  /-- Participants that ended after they had arrived: the next phase expects so many fewer (R315). -/
  owed     : BitVec 16 := 0
  watchdog : Option Nat := none
  bound    : Option Nat := none
  deriving DecidableEq, Repr

/-- Where a sheaf record is held (R304). -/
inductive Place where
  | onDie | spill | reserve
  deriving DecidableEq, Repr

/-- A token record of a sheaf queue (R304, R333). -/
structure Rec where
  bits     : BitVec 64
  arrival  : Word
  place    : Place
  returned : Bool := false
  drain    : Bool := false
  deriving DecidableEq, Repr

/-- A context waiting in SHWAIT (R311). -/
structure Waiter where
  cc    : BitVec 10
  index : BitVec 32
  xd    : XReg
  buf   : Nat
  /-- Its buffer's page has compression enabled (R283). -/
  ce    : Bool := false
  deriving DecidableEq, Repr

/-- The configuration of a sheaf queue (R305). -/
structure ShCfg where
  threshold : Nat
  maxSheaf  : Nat
  age       : Nat
  spill     : Nat
  spillVa   : Word
  spillPa   : Nat
  region    : Option Nat
  /-- The spill ring's page has compression enabled (R283). -/
  spillCe   : Bool := false
  deriving DecidableEq, Repr

/-- A firing in progress: the records taken, their cause, and how many records have returned to the head of the queue since
it began, which stand before them (R308, R309, R315). -/
structure Firing where
  recs  : List Rec
  cause : BitVec 32
  ahead : Nat := 0
  deriving DecidableEq, Repr

/-- A sheaf queue (R300, R304). -/
structure Queue where
  cfg     : Option ShCfg := none
  recs    : List Rec := []
  /-- Records of claims not yet done, which keep their on-die entries, by RCB and index of the claiming context. -/
  claimed : List ((Nat × Nat) × Rec) := []
  /-- Slots of the spill ring written so far. -/
  spilled : Nat := 0
  waiters : List Waiter := []
  firing  : Option Firing := none
  /-- The tick at which the queue's class-1 condition began (R308). -/
  class1  : Option Word := none
  deriving DecidableEq, Repr

/-- The state of one context of a region, as the scheduler keeps it. -/
inductive CtxStatus where
  | fresh
  | resident (cc : BitVec 10)
  /-- Saved: its claim and its barrier participation stay with it (R315, R336). -/
  | saved (claim : Option Claim) (parts : Table (Option (BitVec 16)))
  | exited
  deriving DecidableEq, Repr

/-- The codes of an RCB's state word (R38). -/
inductive RegState where
  | accepted | ready | running | saved | done | faulted | terminated
  deriving DecidableEq, Repr

/-- A region as the scheduler keeps it (R38 to R45, R327, R371). -/
structure Region where
  va         : Word
  parent     : Option Nat
  service    : Bool
  state      : RegState := .accepted
  count      : Nat := 0
  maxCtx     : Nat := 0
  priority   : Nat := 0
  domain     : Nat := 0
  laneShare  : Nat := 0
  laneShape  : Nat := 0
  spadKib    : Nat := 0
  queryShare : Nat := 0
  firstQ     : Nat := 0
  queues     : Nat := 0
  firstSlot  : Nat := 0
  slots      : Nat := 0
  watchdog   : Nat := 0
  saveArea   : Word := 0
  entry      : Word := 0
  launch     : Word := 0
  tvec       : Word := 0
  ptbase     : Word := 0
  asid       : BitVec 16 := 0
  maxvl      : BitVec 5 := 0
  preempt    : BitVec 32 := 0
  ctxs       : List CtxStatus := []
  /-- The cluster (below 64) or die (64 + die) that barrier slots hold the region to (R336). -/
  home       : Option Nat := none
  placed     : Bool := false
  /-- The core cycle at which the region last became READY, which orders it within its priority (R42). -/
  readyAt    : Nat := 0
  terminating : Bool := false
  /-- Pre-emption requests of an eviction have been posted (R48). -/
  evicting : Bool := false
  pendTerm   : List Nat := []
  deriving DecidableEq, Repr

/-- An entry of the CM region table, the 64-byte descriptor of R72 field by field (R236). -/
structure CmRegion where
  base    : Nat
  rows    : Nat
  cols    : Nat
  mask    : BitVec 8
  tag     : Tag
  scale   : BitVec 2
  granule : BitVec 2
  stag    : Tag
  key     : BitVec 16
  asid    : BitVec 16
  append  : Nat
  /-- While CMMOV moves the region: the new base and mask, and the stripes that stand there already (R251). -/
  next    : Option (Nat × BitVec 8 × Nat) := none
  deriving DecidableEq, Repr

/-- What a QCUST hands to the tiller cores, and what each has ended with: fragment, status and sectors moved (R265). -/
structure Custom where
  qd    : List Byte
  vq    : VecReg
  /-- The region with the append pointer that the query read, and the key that it was checked under (R256, R406). -/
  r     : CmRegion
  key   : Option (BitVec 512)
  area  : List Nat
  chans : List Nat
  ended : List (Nat × List Byte × Byte × Nat) := []
  /-- A core pushed more than its fragment holds (R298). -/
  overran : Bool := false
  deriving DecidableEq, Repr

/-- A query in flight (R254 to R266). -/
structure Query where
  cc     : BitVec 10
  serial : BitVec 24
  handle : Nat
  qd     : Nat
  /-- The QD's page has compression enabled (R283). -/
  ce     : Bool := false
  reply  : List (Nat × Byte)
  status : BitVec 16
  notify : Bool
  tag    : Byte
  /-- Its cost, while the query unit has not started it (R43). -/
  held   : Option Nat := none
  /-- Channels with a sweep of the query queued (R288). -/
  sweeps : List Nat := []
  /-- For QCUST, until the tiller cores end. -/
  custom : Option Custom := none
  /-- A KEYWIPE waits for it: it was accepted before (R406). -/
  wiped  : Bool := false
  deriving DecidableEq, Repr

/-- What a CM store writes in one region, by row and offset: bytes, a byte of which it writes the low nibble only, and the
rows it sets. -/
structure CmPart where
  handle : Nat
  cells  : List (Nat × Nat × Byte)
  low    : Option (Nat × Nat × Byte) := none
  rows   : List Nat
  /-- The key under which its key check passed (R406). -/
  key    : Option (BitVec 512) := none
  deriving DecidableEq, Repr

/-- A CM store in flight (R270). -/
structure CmStore where
  cc     : BitVec 10
  /-- The context's last serial when it was pushed: queries of higher serials follow it (R268). -/
  serial : BitVec 24 := 0
  /-- Its context has ended: no count of it is left (R332). -/
  orphan : Bool := false
  /-- A KEYWIPE waits for it: its key check had passed before (R406). -/
  wiped  : Bool := false
  parts  : List CmPart
  /-- The channels in which it has a normal request (R288). -/
  chans  : List Nat := []
  deriving DecidableEq, Repr

/-- A run of bytes of WM: address, length, and whether its page has compression enabled (R283). -/
structure Span where
  at_ : Nat
  n   : Nat
  ce  : Bool := false
  deriving DecidableEq, Repr

/-- What a region operation in flight does (R274): a move, whose state the region's entry holds, with whether a packet of
the stripe that moves was poisoned (R293); or the pieces of the sealed image. -/
inductive CmOpKind where
  | move (spoiled : Bool)
  | seal (image : List Span)
  | open_ (image : List Span) (desc : CmRegion)
  deriving DecidableEq, Repr

/-- A region move, seal or open in flight (R274), and whether its context still counts it. -/
structure CmOp where
  cc   : BitVec 10
  live : Bool := true
  /-- The channels in which it has a normal request (R288). -/
  chans : List Nat := []
  kind : CmOpKind
  deriving DecidableEq, Repr

/-- A job card in its cluster's queue (R316 to R320). -/
structure Job where
  cc      : BitVec 10
  token   : BitVec 32
  card    : Nat
  /-- The card's page has compression enabled (R283). -/
  ce      : Bool := false
  engine  : Byte
  op      : Byte
  notify  : Bool
  tag     : Byte
  a       : Word
  b       : Word
  rowBytes : Nat
  rows    : Nat
  srcStride : Word
  dstStride : Word
  extent  : Word
  nodes   : List (BitVec 16)
  /-- The level at which the card was posted. -/
  level   : Level
  contribs : List (BitVec 16 × CollMsg) := []
  running : Bool := false
  /-- The rows done, and the writes to peers that no acknowledgement has answered (R317, R320). -/
  row     : Nat := 0
  peers   : List (BitVec 8 × BitVec 24) := []
  /-- The walk for which the engine waits, and the leaves that the walks for its present row gave it (R212). -/
  miss    : Option Miss := none
  held    : List TlbEntry := []
  /-- The translation of its completion write, which JOB made (R316, R153). -/
  entry   : Option TlbEntry := none
  /-- Set once the job has ended: its status and fault address. -/
  ended   : Option (BitVec 32 × Word) := none
  deriving DecidableEq, Repr

/-- A train whose tail is not yet acknowledged (R322), and whether its context still counts it. -/
structure Train where
  cc    : BitVec 10
  live  : Bool := true
  node  : BitVec 8
  tag   : BitVec 24
  /-- The tag of the first train of its VSEND, whose S count the last acknowledgement returns. -/
  group : BitVec 24
  /-- Its elements, and whether one goes to a page of device class (R227). -/
  count : Nat := 0
  ic    : Bool := false
  /-- While it waits for a train slot of its core: its stream bytes, element size and counter offset. -/
  wait  : Option (List (List Byte) × Nat × Word) := none
  deriving DecidableEq, Repr

/-- The six registers of a fault domain (R338). -/
structure Domain where
  base : BitVec 64 := 0
  size : BitVec 4 := 0
  head : BitVec 32 := 0
  tail : BitVec 32 := 0
  ctx  : BitVec 12 := 0
  lost : BitVec 32 := 0
  deriving DecidableEq, Repr

/-- A CM channel: CMCH (R291) and the traffic it has queued (R288 to R290): sweeps, normal requests, and whether the
management core wants normal mode. -/
structure Chan where
  mode    : Bool := false
  pending : Bool := false
  nlb     : BitVec 16 := 512
  sweeps  : Nat := 0
  normal  : Nat := 0
  wanted  : Bool := false
  deriving DecidableEq, Repr

/-- A line of a WM stack's metadata cache: its number among the 64-byte lines of the metadata region, whether it was
written, and the codes other than 0 that it holds (R276, R285). -/
structure MetaLine where
  line  : Nat
  dirty : Bool := false
  codes : Table (BitVec 4) := []
  deriving DecidableEq, Repr

/-- The RISC-V state of a tiller core (R294): registers, and the machine-mode registers that its rules need, by RISC-V's own
names and reset values (PRESUMED, log 54). -/
structure TillerCpu where
  pc      : Word := 0
  fcsr    : BitVec 8 := 0
  vl      : Word := 0
  vtype   : Word := 0x8000000000000000
  vstart  : Word := 0
  vcsr    : BitVec 3 := 0
  mscratch : Word := 0
  x       : Vector Word 32 := Vector.replicate 32 0
  f       : Vector Word 32 := Vector.replicate 32 0
  v       : Vector (BitVec 512) 32 := Vector.replicate 32 0
  mstatus : Word := 0
  mtvec   : Word := 0
  mepc    : Word := 0
  mcause  : Word := 0
  mtval   : Word := 0
  mie     : Word := 0
  deriving DecidableEq, Repr

/-- A remap-table entry (R331). -/
structure Remap where
  moving : Bool
  dest   : BitVec 17
  media  : BitVec 17
  deriving DecidableEq, Repr

/-- A tiller core's data memory, mailbox and registers (R295 to R299). Its instruction memory is the image of `TlFw`. -/
structure Tiller where
  dmem   : List Host.Cell := []
  mbox   : List Host.Cell := []
  mbstat : Bool := false
  /-- The job: issuing control core and serial of its query; and those that wait for the mailbox, in order. -/
  job    : Option (BitVec 10 × BitVec 24) := none
  queued : List (BitVec 10 × BitVec 24) := []
  /-- The core cycle at which the job arrived, and the core cycles that it may last (R287, R299). -/
  since  : Nat := 0
  limit  : Nat := 0
  dmaRow : Word := 0
  dmaCtl : Word := 0
  /-- DMAROW and DMACTL as they stood at the GO of the copy that runs. -/
  going  : Word × Word := (0, 0)
  cpu    : TillerCpu := {}
  /-- What mcycle reads above the device's count of near-bank cycles (R294). -/
  mcycle : Word := 0
  busy   : Bool := false
  err    : BitVec 3 := 0
  moved  : BitVec 32 := 0
  /-- A copy of the job met poison (R297). -/
  bad    : Bool := false
  pushed : List Byte := []
  overran : Bool := false
  deriving DecidableEq, Repr

/-- A Sarnus Link port: LKSTAT, the replay state of R391 and the streams of R393. -/
structure Port where
  state    : BitVec 2 := 0
  peer     : Byte := 0
  replays  : BitVec 16 := 0
  lost     : BitVec 32 := 0
  /-- The sequence number expected next, and flits taken since the last acknowledgement. -/
  rxNext   : BitVec 12 := 0
  rxSince  : Nat := 0
  /-- Bytes received that end no packet yet, and parts of collective messages by source. -/
  stream   : List Byte := []
  coll     : Table (List Byte) := []
  /-- The next number to send; the flits not acknowledged, each with how often it has been resent; how many of them have
  been sent. -/
  txNext   : BitVec 12 := 0
  unacked  : List (BitVec 12 × List Byte × Nat) := []
  sent     : Nat := 0
  /-- Bytes of a pad packet that the last flit cut off. -/
  txPhase  : Nat := 0
  deriving DecidableEq, Repr

/-- What the device sends out of the package or to its debugger, oldest first. -/
inductive Outgoing where
  /-- A flit on a port (R390). -/
  | flit (port : Nat) (bytes : List Byte)
  /-- A collective message toward a node over Ethernet: tag and message (R395). -/
  | ethernet (node tag : BitVec 16) (msg : CollMsg)
  /-- The data of a host read; none stands for poison or an abort (R384, R386). -/
  | hostData (data : Option (List Byte))
  /-- An MSI-X message (R385). -/
  | msix (vector : Nat)
  /-- A back-invalidate snoop of a WM line (R386). -/
  | snoop (line : Nat)
  /-- A completer abort of a host access to the register window (R384). -/
  | abort
  /-- CM bytes read through the debug port (R252). -/
  | debugData (data : Option (List Byte))
  deriving DecidableEq, Repr

/-- MSI-X state of the host port (R385). -/
structure Msix where
  /-- Every vector is masked at reset, as the PCIe specification has it (log 43). -/
  masked  : BitVec 64 := BitVec.allOnes 64
  pending : BitVec 64 := 0
  fnMask  : Bool := false
  deriving DecidableEq, Repr

/-- Boot and trust registers (R397 to R409). -/
structure Trust where
  bootSvn  : BitVec 32 := 0
  bootCode : Byte := 0
  bootState : BitVec 2 := 0
  bootAddr : Word := 0
  bootLen  : BitVec 27 := 0
  devid    : BitVec 64 := Config.fuseDevid
  migGroup : BitVec 16 := Config.fuseMigGroup
  minSvn   : Byte := Config.fuseMinSvn
  lcs      : BitVec 2 := Config.fuseLcs
  vkHash   : BitVec 256 := Config.fuseVkHash
  dkHash   : BitVec 256 := Config.fuseDkHash
  /-- The identity key has been derived (R399). -/
  derived  : Bool := false
  arg0     : Word := 0
  arg1     : Word := 0
  busy     : Bool := false
  lost     : Bool := false
  status   : BitVec 16 := 0
  /-- Operand bits 27:0 of the TUCMD write in progress. -/
  cmdLow   : BitVec 28 := 0
  wipecnt  : BitVec 9 := 0
  perm     : Byte := 0
  isOpen   : Bool := false
  tokok    : Bool := false
  tokdig   : BitVec 256 := 0
  meas     : Vector (BitVec 256) 8 := Vector.replicate 8 0
  /-- Tenant key slots; one that is not listed is empty (R236). -/
  keys     : Table (BitVec 512) := []
  loaded   : Bool := false
  /-- The core cycle at which WIPECNT last changed (R424). -/
  wipeAt   : Nat := 0
  /-- The device migration key, once boot has derived it (R397, R399). -/
  migKey   : Option (BitVec 256) := none
  deriving DecidableEq, Repr

/-- CMRTADDR, CMRTSTAT and the command in progress (R238). -/
structure CmRegs where
  addr   : Word := 0
  busy   : Bool := false
  lost   : Bool := false
  status : BitVec 16 := 0
  /-- The handle of a remove that waits for its entry's operations (R240). -/
  removing : Option Nat := none
  deriving DecidableEq, Repr

/-- RSRCB and RSSTAT (R330). -/
structure RsRegs where
  rcb    : Word := 0
  busy   : Bool := false
  lost   : Bool := false
  status : BitVec 16 := 0
  deriving DecidableEq, Repr

/-- TLFWADDR and TLFWCTL (R387). -/
structure TlFw where
  addr   : Word := 0
  busy   : Bool := false
  status : BitVec 4 := 0
  len    : BitVec 17 := 0
  /-- The image that every tiller core's instruction memory holds (R294). -/
  image  : List Host.Cell := []
  deriving DecidableEq, Repr

/-- What became of a read request to a peer (R392, R393). -/
inductive PeerData where
  | waiting
  | poisoned
  | data (bytes : List Byte)
  deriving DecidableEq, Repr

/-- A read request that a load of a control core (token 0) or a job card has sent to a peer node. It stands until the
load retires or the job ends. -/
structure PeerRead where
  cc    : BitVec 10
  token : BitVec 32 := 0
  node : BitVec 8
  tag  : BitVec 24
  pa   : Nat
  n    : Nat
  /-- It reads a page of device class (R207). -/
  ic   : Bool := false
  got  : PeerData := .waiting
  /-- The present attempt of the instruction has taken it: one response serves one element. -/
  used : Bool := false
  deriving DecidableEq, Repr

/-- A packet to a peer that no answer has met and that nothing of the machine waits for: its context has ended, or a trap has
given up its instruction. It is outstanding still (R389, R392). -/
structure Stray where
  cc    : BitVec 10
  node  : BitVec 8
  tag   : BitVec 24
  /-- A write, which an acknowledgement answers; else a read. -/
  write : Bool
  deriving DecidableEq, Repr

/-- The state of the device. -/
structure State where
  variant  : Variant := .yl8
  /-- The control core that moves next, and the others that hold anything but their reset state, by CTXID. -/
  cc       : ControlCore
  others   : Table ControlCore := []
  cores    : Table Core := []
  clusters : Table Cluster := []
  dies     : Table Die := []
  /-- Every byte of the physical map that holds anything but what an unlisted address reads as. -/
  mem      : List Host.Cell := []
  /-- Bytes that a failed write or a lost load left poisoned. -/
  poison   : List Nat := []
  regions  : Table Region := []
  rs       : RsRegs := {}
  slots    : Table Slot := []
  queues   : Table Queue := []
  jobs     : List Job := []
  trains   : List Train := []
  /-- Collective messages that no posted card has taken yet: source, tag, message (R395). -/
  collHeld : List (BitVec 16 × BitVec 16 × CollMsg) := []
  queries  : List Query := []
  cmTable  : Table CmRegion := []
  cmStores : List CmStore := []
  cmOps    : Table CmOp := []
  /-- Which key each stored sector was written under, by sector number (R249). -/
  cmKeys   : Table (BitVec 512) := []
  /-- The nonces of the seals made so far (R275). -/
  nonces   : List Nat := []
  cmRegs   : CmRegs := {}
  domains  : Table Domain := []
  remap    : Table Remap := []
  remapFree : BitVec 9 := 256
  /-- The metadata region: compression codes of WM blocks by media block number (R283); and the metadata caches of the
  four stacks, latest line first (R276, R285). -/
  codes    : Table (BitVec 4) := []
  metas    : Table (List MetaLine) := []
  /-- The 128 bytes that stand in the slot of each WM block that is stored encoded, by block; `mem` holds what the block
  decodes to (R283). A block that is not listed is stored raw. -/
  stored   : Table (List Byte) := []
  trackers : Table (List (BitVec 16 × Nat)) := []
  /-- The window in which the trackers were last cleared (R281). -/
  trackWindow : Nat := 0
  /-- Rows refreshed by directed refresh, latest first, and refreshes postponed, by bank (R281, R282). -/
  directed : List (BitVec 14 × Int) := []
  postponed : Table Nat := []
  divisor  : BitVec 2 := 0
  /-- Near-bank cycles since reset, and core cycles of the present one (R287, R294). -/
  near     : Nat := 0
  phase    : Nat := 0
  chans    : Table Chan := []
  tillers  : Table Tiller := []
  tlfw     : TlFw := {}
  tick     : Word := 0
  /-- CYCLE of every core: the cores leave reset together (R33, R119). -/
  cycles   : Word := 0
  errors   : Vector (BitVec 32) 9 := Vector.replicate 9 0
  nodeid   : BitVec 16 := 0xFFFF
  route    : Table (BitVec 36) := []
  routeHeld : Table (BitVec 36) := []
  ports    : Table Port := []
  /-- Which of the five Ethernet ports are up (R388). -/
  ethUp    : BitVec 5 := 0
  msix     : Msix := {}
  trust    : Trust := {}
  /-- Reads sent to peers, and the tag of the next packet. -/
  peerReads : List PeerRead := []
  strays   : List Stray := []
  packetTag : BitVec 24 := 0
  outbox   : List Outgoing := []
  /-- WM lines that the host may hold (R386). -/
  hostHeld : List Nat := []
  /-- The model's own: events due, in order (log 2). -/
  agenda   : List Event := []
  /-- The model's own: the number of the next free value (log 3). -/
  free     : Nat := 0
  /-- The model's own: core cycles since reset (log 4). -/
  clock    : Nat := 0
  deriving DecidableEq, Repr

/-- Reasons for which the machine stops. -/
inductive Fault where
  /-- The region scheduler is handed an RCB whose address lies outside WM (REGION_LAUNCH, a host or firmware action):
  the manual gives the scheduler no way to read it. Safe: the machine stops where the manual states nothing. -/
  | rcbOutsideWm
  deriving DecidableEq, Repr

/-- Reasons for which the model gives an instruction no meaning. -/
inductive Refusal where
  /-- Raised by `exec` alone, for an instruction that the model has not reached; safe. -/
  | notModelled (mnemonic : String)
  deriving DecidableEq, Repr

/-- A control core with no resident context, as power-on leaves it (R33, R119). -/
def ControlCore.reset (id : BitVec 10) : ControlCore := { ctxid := id }

/-- The machine right after power-on reset: the compute dies are held in reset, no context runs, the links are down
and every table is at its reset value (R33). -/
def State.reset : State := { cc := ControlCore.reset 0 }

end Sys2Proof.Machine
end

