-- ==== Sys2Proof/Machine/Base.lean ====
section
/-! DEFINITION. Tables and memory in canonical form, the control cores and units by number, the physical map
(10_memories.md R204), and the counters and outstanding operations that every instruction shares. -/

namespace Sys2Proof.Machine

/-- What a step answers. -/
abbrev Out := Host.Outcome State Fault Refusal

/-! ### Tables -/

/-- The entry of a key; one that is not listed has the value d. -/
def tget {α : Type} (d : α) : Table α → Nat → α
  | [], _ => d
  | (k', v) :: r, k => if k' == k then v else tget d r k

/-- The table without a key. -/
def tdel {α : Type} : Table α → Nat → Table α
  | [], _ => []
  | (k', v) :: r, k => if k' == k then tdel r k else (k', v) :: tdel r k

/-- The table with a key set, ascending. -/
def tins {α : Type} : Table α → Nat → α → Table α
  | [], k, v => [(k, v)]
  | (k', v') :: r, k, v =>
    if k < k' then (k, v) :: (k', v') :: r
    else if k' == k then (k, v) :: r
    else (k', v') :: tins r k v

/-- The table with a key set; setting it to d removes it. -/
def tput {α : Type} [DecidableEq α] (d : α) (t : Table α) (k : Nat) (v : α) : Table α :=
  if v = d then tdel t k else tins t k v

/-- The table with a function on every entry. -/
def tmap {α : Type} (f : α → α) (t : Table α) : Table α := t.map fun p => (p.1, f p.2)

/-- Keys ascending, every value other than d. -/
def twf {α : Type} [DecidableEq α] (d : α) : Table α → Bool
  | [] => true
  | [(_, v)] => decide (v ≠ d)
  | (k, v) :: (k', v') :: r => decide (v ≠ d) && decide (k < k') && twf d ((k', v') :: r)

/-! ### Bytes and memory -/

/-- The number that bytes hold, the first the lowest (R3). -/
def leNat : List Byte → Nat
  | [] => 0
  | b :: r => b.toNat + 256 * leNat r

/-- n bytes of a number, the first the lowest (R3). -/
def leBytes : Nat → Nat → List Byte
  | 0, _ => []
  | n + 1, v => BitVec.ofNat 8 v :: leBytes n (v / 256)

/-- What an address that memory does not list reads as (R202: WM and scratchpads; log 6 for CM, host and peers). -/
def unlisted : Byte := 0

/-- The canonical form of memory: addresses rising, no entry equal to what an unlisted address reads as. -/
abbrev Memory.wf (m : List Host.Cell) : Prop := twf unlisted m = true

/-- The byte at a physical address. -/
def Memory.read (m : List Host.Cell) (a : Nat) : Byte := tget unlisted m a
/-- Memory with one byte written. -/
def Memory.write (m : List Host.Cell) (a : Nat) (b : Byte) : List Host.Cell := tput unlisted m a b

/-- Memory with bytes written from an address up. -/
def Memory.writeAll : List Host.Cell → Nat → List Byte → List Host.Cell
  | m, _, [] => m
  | m, a, b :: r => Memory.writeAll (Memory.write m a b) (a + 1) r

/-- n bytes from an address up. -/
def Memory.readAll (m : List Host.Cell) (a n : Nat) : List Byte := (List.range n).map fun i => Memory.read m (a + i)

/-- mem_read(pa, n) of R210, as bytes. -/
def State.bytes (s : State) (pa n : Nat) : List Byte := Memory.readAll s.mem pa n
/-- mem_read(pa, n) of R210. -/
def State.peek (s : State) (pa n : Nat) : Nat := leNat (s.bytes pa n)
/-- mem_write of R210. A write replaces whatever poison its bytes had. -/
def State.putBytes (s : State) (pa : Nat) (bs : List Byte) : State :=
  { s with mem := Memory.writeAll s.mem pa bs
           poison := s.poison.filter fun a => decide (a < pa ∨ pa + bs.length ≤ a) }
/-- mem_write(pa, n, value) of R210. -/
def State.poke (s : State) (pa n v : Nat) : State := s.putBytes pa (leBytes n v)

/-- Memory with a range of bytes at zero. -/
def Memory.clear (m : List Host.Cell) (a n : Nat) : List Host.Cell :=
  m.filter fun c => decide (c.1 < a ∨ a + n ≤ c.1)

/-- Zeroes a range (R44, R387). -/
def State.zeroBytes (s : State) (pa n : Nat) : State :=
  { s with mem := Memory.clear s.mem pa n
           poison := s.poison.filter fun a => decide (a < pa ∨ pa + n ≤ a) }

/-- Whether a range holds poison. -/
def State.poisoned (s : State) (pa n : Nat) : Bool := s.poison.any fun a => decide (pa ≤ a ∧ a < pa + n)

/-- Poisons a range. -/
def State.addPoison (s : State) (pa n : Nat) : State :=
  { s with poison := (s.poison.filter fun a => decide (a < pa ∨ pa + n ≤ a)) ++ (List.range n).map (pa + ·) }

/-! ### Units by number -/

/-- The core of a control core, 0 to 255 (R122). -/
def coreOf (id : BitVec 10) : Nat := id.toNat / 4
/-- The cluster of a control core, 0 to 63 (R122, R229). -/
def clusterOf (id : BitVec 10) : Nat := id.toNat / 16
/-- The die of a control core, 0 to 3 (R122). -/
def dieOf (id : BitVec 10) : Nat := id.toNat / 256

/-- Any control core by CTXID. -/
def State.ccAt (s : State) (id : BitVec 10) : ControlCore :=
  if s.cc.ctxid = id then s.cc else tget (ControlCore.reset id) s.others id.toNat

/-- The state with another control core as the one that moves. -/
def State.focus (s : State) (id : BitVec 10) : State :=
  if s.cc.ctxid = id then s
  else
    { s with cc := tget (ControlCore.reset id) s.others id.toNat
             others := tput (ControlCore.reset s.cc.ctxid) (tdel s.others id.toNat) s.cc.ctxid.toNat s.cc }

/-- Changes the control core that moves. -/
def State.modCc (s : State) (f : ControlCore → ControlCore) : State := { s with cc := f s.cc }

/-- Changes any control core. -/
def State.modCcAt (s : State) (id : BitVec 10) (f : ControlCore → ControlCore) : State :=
  if s.cc.ctxid = id then { s with cc := f s.cc }
  else
    let c := tget (ControlCore.reset id) s.others id.toNat
    { s with others := tput (ControlCore.reset id) s.others id.toNat (f c) }

/-- Acts on another control core and comes back. -/
def State.onCc (s : State) (id : BitVec 10) (f : State → State) : State := (f (s.focus id)).focus s.cc.ctxid

def State.coreAt (s : State) (n : Nat) : Core := tget {} s.cores n
def State.modCore (s : State) (n : Nat) (f : Core → Core) : State :=
  { s with cores := tput {} s.cores n (f (tget {} s.cores n)) }
def State.clusterAt (s : State) (n : Nat) : Cluster := tget {} s.clusters n
def State.modCluster (s : State) (n : Nat) (f : Cluster → Cluster) : State :=
  { s with clusters := tput {} s.clusters n (f (tget {} s.clusters n)) }
def State.dieAt (s : State) (n : Nat) : Die := tget {} s.dies n
def State.modDie (s : State) (n : Nat) (f : Die → Die) : State :=
  { s with dies := tput {} s.dies n (f (tget {} s.dies n)) }
def State.slotAt (s : State) (n : Nat) : Slot := tget {} s.slots n
def State.modSlot (s : State) (n : Nat) (f : Slot → Slot) : State :=
  { s with slots := tput {} s.slots n (f (tget {} s.slots n)) }
def State.queueAt (s : State) (n : Nat) : Queue := tget {} s.queues n
def State.modQueue (s : State) (n : Nat) (f : Queue → Queue) : State :=
  { s with queues := tput {} s.queues n (f (tget {} s.queues n)) }
def State.domainAt (s : State) (n : Nat) : Domain := tget {} s.domains n
def State.modDomain (s : State) (n : Nat) (f : Domain → Domain) : State :=
  { s with domains := tput {} s.domains n (f (tget {} s.domains n)) }
def State.chanAt (s : State) (n : Nat) : Chan := tget {} s.chans n
def State.modChan (s : State) (n : Nat) (f : Chan → Chan) : State :=
  { s with chans := tput {} s.chans n (f (tget {} s.chans n)) }
def State.tillerAt (s : State) (n : Nat) : Tiller := tget {} s.tillers n
def State.modTiller (s : State) (n : Nat) (f : Tiller → Tiller) : State :=
  { s with tillers := tput {} s.tillers n (f (tget {} s.tillers n)) }
def State.portAt (s : State) (n : Nat) : Port := tget {} s.ports n
def State.modPort (s : State) (n : Nat) (f : Port → Port) : State :=
  { s with ports := tput {} s.ports n (f (tget {} s.ports n)) }

/-- A key of a list of pairs, or none. -/
def lookupT {α : Type} (t : Table α) (k : Nat) : Option α := (t.find? fun p => p.1 == k).map (·.2)

/-- A region that the scheduler has recorded, by RCB physical address. -/
def State.regionAt (s : State) (pa : Nat) : Option Region := lookupT s.regions pa
def State.modRegion (s : State) (pa : Nat) (f : Region → Region) : State :=
  { s with regions := s.regions.map fun p => if p.1 == pa then (p.1, f p.2) else p }
def State.putRegion (s : State) (pa : Nat) (r : Region) : State := { s with regions := tins s.regions pa r }

/-- The region of the control core that moves. -/
def State.myRegion (s : State) : Option Region := s.cc.region.bind s.regionAt

/-- Every control core that holds anything, by CTXID. -/
def State.allCcs (s : State) : List ControlCore := s.cc :: s.others.map (·.2)

/-! ### Variants (R29 to R31) -/

def Variant.slports : Variant → Nat | .yl8 => 36 | .yl8c => 24
def Variant.cmstk : Variant → Nat | .yl8 => 8 | .yl8c => 6
def Variant.tiller : Variant → Bool | .yl8 => true | .yl8c => false
def Variant.wmcomp : Variant → Bool | .yl8 => true | .yl8c => false

/-- CAPS (R31). -/
def Variant.caps (v : Variant) : Word :=
  BitVec.ofNat 64 (64 * 2 ^ 40 + v.slports * 2 ^ 32 + 5 * 2 ^ 28 + 4 * 2 ^ 24 + 4 * 2 ^ 20 + v.cmstk * 2 ^ 16 +
    (if v.wmcomp then 4 else 0) + (if v.tiller then 2 else 0))

/-! ### Physical map (R204, R277, R388) -/

/-- The end of the logical regions of WM (R277). -/
def wmLimit : Nat := 0x002FB0000000
def cmBase : Nat := 0x010000000000
/-- Bytes of a CM stack. -/
def cmStack : Nat := 0xC00000000
def spadBase : Nat := 0x020000000000
def spadAlias : Nat := 0x020100000000
def spadBytes : Nat := 0x180000
def devBase : Nat := 0x030000000000
def peerBase : Nat := 0x400000000000
def peerSpan : Nat := 0x4000000000
def hostBase : Nat := 0x800000000000

/-- Whether a range lies in WM. -/
def inWm (pa n : Nat) : Bool := decide (pa + n ≤ wmLimit)

/-- Whether a physical address lies in the populated range of CM (R30, R204). -/
def inCm (v : Variant) (pa : Nat) : Bool := decide (cmBase ≤ pa ∧ pa < cmBase + v.cmstk * cmStack)

/-- Whether a physical address lies in a core's scratchpad window (R204). -/
def inSpadWindow (pa : Nat) : Bool :=
  decide (spadBase ≤ pa ∧ pa < spadAlias ∧ (pa - spadBase) % 0x200000 < spadBytes)

/-- The physical address of a scratchpad byte of a core. -/
def spadAddr (core off : Nat) : Nat := spadBase + 0x200000 * core + off

/-- The nodes of the peer window: node and node-relative address. -/
def peerNode (pa : Nat) : Nat := (pa - peerBase) / peerSpan
def peerOff (pa : Nat) : Nat := (pa - peerBase) % peerSpan

/-- The ports of a route in ascending order (R389). -/
def routePorts (r : BitVec 36) : List Nat := (List.range 36).filter fun p => r.getLsbD p

/-- The port toward a node from a cluster; none when the route is empty (R389). -/
def State.portToward (s : State) (cluster node : Nat) : Option Nat :=
  let ps := routePorts (tget 0 s.route node)
  if ps.length == 0 then none else ps[cluster % ps.length]?

/-- Why an access to a node traps, if it does: "unit absent" for a port that the variant lacks, "protection" for no
port or a port that is down (R32, R389, R392); a port in training keeps what it is handed. -/
def State.nodeTrap (s : State) (cluster node : Nat) : Option (BitVec 8) :=
  match s.portToward cluster node with
  | none => some 0x06
  | some p =>
    if s.variant.slports ≤ p then some 0x11
    else if (s.portAt p).state = 0 ∨ (s.portAt p).state = 3 then some 0x06
    else none

/-! ### Free values -/

/-- The draws of the next free value, and the state that has used them up (log 3). -/
def State.draw (s : State) : (Nat → Nat) × State := (Config.freeNat s.free, { s with free := s.free + 1 })

/-! ### Counters -/

/-- Adds events to the performance counters of a core that select them (R340). -/
def State.count (s : State) (core : Nat) (code : BitVec 8) (k : Nat) : State :=
  let c := s.coreAt core
  let hit (i : Nat) : Bool := c.pmsel.extractLsb' (8 * i) 8 == code
  if (List.range 4).any hit then
    s.modCore core fun c => { c with pmc := Vector.ofFn fun i => if hit i.val then c.pmc[i] + BitVec.ofNat 64 k else c.pmc[i] }
  else s

/-- Sends an MSI-X vector, or marks it pending (R385). Before the firmware runs only vector 0 is raised. -/
def State.raiseMsix (s : State) (v : Nat) : State :=
  if s.trust.bootState != 2 && v != 0 then s
  else if s.msix.fnMask || s.msix.masked.getLsbD v then
    { s with msix := { s.msix with pending := s.msix.pending ||| (1#64 <<< v) } }
  else { s with outbox := s.outbox ++ [.msix v] }

/-- Adds to an error counter, saturating; counters 1, 3 and 5 raise MSI-X vector 5 (R340, R385). -/
def State.countError (s : State) (j : Fin 9) (k : Nat) : State :=
  let old := s.errors[j]
  let new := BitVec.ofNat 32 (min (old.toNat + k) 0xFFFFFFFF)
  let s' := { s with errors := s.errors.set j new }
  if (j.val == 1 || j.val == 3 || j.val == 5) && new != old then s'.raiseMsix 5 else s'

/-- Adds an event to the end of the agenda. -/
def State.later (s : State) (e : Event) : State := { s with agenda := s.agenda ++ [e] }

/-! ### Scalar registers (R114, R117) -/

/-- A scalar register; x0 reads as zero. -/
def ControlCore.getX (c : ControlCore) (n : XReg) : Word := if n = 0 then 0 else c.x[n.toNat]
/-- Writes a scalar register; a write to x0 is discarded. -/
def ControlCore.setX (c : ControlCore) (n : XReg) (v : Word) : ControlCore :=
  if n = 0 then c else { c with x := c.x.set n.toNat v }

def State.getX (s : State) (n : XReg) : Word := s.cc.getX n
def State.setX (s : State) (n : XReg) (v : Word) : State := { s with cc := s.cc.setX n v }

/-- Exchanges x28 to x31 with the inactive set (R117). -/
def ControlCore.swapShadows (c : ControlCore) : ControlCore :=
  { c with x := (((c.x.set 28 c.shadow[0]).set 29 c.shadow[1]).set 30 c.shadow[2]).set 31 c.shadow[3]
           shadow := #v[c.x[28], c.x[29], c.x[30], c.x[31]] }

/-! ### Status fields (R122) -/

def ControlCore.ppriv (c : ControlCore) : BitVec 2 := c.tstatus.extractLsb' 0 2
def ControlCore.ven (c : ControlCore) : Bool := c.tstatus.getLsbD 5
def ControlCore.loopAct (c : ControlCore) : Bool := c.tstatus.getLsbD 6
def ControlCore.loopI (c : ControlCore) : Bool := c.tstatus.getLsbD 7
def ControlCore.inui (c : ControlCore) : Bool := c.uistatus.getLsbD 1
def ControlCore.uie (c : ControlCore) : Bool := c.uistatus.getLsbD 0
def ControlCore.rm (c : ControlCore) : BitVec 3 := c.fcsr.extractLsb' 0 3
def ControlCore.accsat (c : ControlCore) : Bool := c.fcsr.getLsbD 3

/-- The code of a level (R122 PPRIV). -/
def Level.code : Level → BitVec 2 | .user => 0 | .supervisor => 1 | .service => 2
/-- The level of a code; 3 is no level and no state holds it. -/
def Level.ofCode (c : BitVec 2) : Level := if c = 0 then .user else if c = 1 then .supervisor else .service

/-- TSTATUS with PPRIV replaced. -/
def ControlCore.withPpriv (c : ControlCore) (l : Level) : ControlCore :=
  { c with tstatus := (c.tstatus &&& 0xFC#8) ||| l.code.setWidth 8 }
/-- TSTATUS with LOOPACT and LOOPI replaced. -/
def ControlCore.withLoop (c : ControlCore) (act loopi : Bool) : ControlCore :=
  { c with tstatus := (c.tstatus &&& 0x3F#8) ||| (if act then 0x40#8 else 0) ||| (if loopi then 0x80#8 else 0) }

/-- Sets sticky FCSR flags (R102). -/
def State.orFlags (s : State) (f : Flags) : State :=
  s.modCc fun c => { c with fcsr := c.fcsr ||| (f.setWidth 14 <<< 8) }

/-- Whether the context is HANDLING (R362). -/
def ControlCore.handling (c : ControlCore) : Bool := c.depth != 0

/-- Whether the control core is in a wait (R48). -/
def RunState.isWait : RunState → Bool
  | .waitCounts .. => true
  | .waitIdle _ => true
  | .waitBar .. => true
  | .waitSheaf _ => true
  | _ => false

/-! ### Outstanding operations (R122, R332) -/

/-- The classes of OUTCNT. -/
inductive OpClass where
  | l | s | c | t | q
  deriving DecidableEq, Repr

def OutCnt.get (o : OutCnt) : OpClass → BitVec 12
  | .l => o.l | .s => o.s | .c => o.c | .t => o.t | .q => o.q

def OutCnt.put (o : OutCnt) : OpClass → BitVec 12 → OutCnt
  | .l, v => { o with l := v }
  | .s, v => { o with s := v }
  | .c, v => { o with c := v }
  | .t, v => { o with t := v }
  | .q, v => { o with q := v }

/-- Whether every count is zero. -/
def OutCnt.idle (o : OutCnt) : Bool := o.l == 0 && o.s == 0 && o.c == 0 && o.t == 0 && o.q == 0

/-- Whether a push of a class would take its count above 4,095 (R122). -/
def ControlCore.full (c : ControlCore) (k : OpClass) : Bool := c.out.get k == 4095

def ControlCore.incOut (c : ControlCore) (k : OpClass) : ControlCore :=
  { c with out := c.out.put k (c.out.get k + 1) }
/-- A completion; a count that is zero stays zero. -/
def ControlCore.decOut (c : ControlCore) (k : OpClass) : ControlCore :=
  if c.out.get k == 0 then c else { c with out := c.out.put k (c.out.get k - 1) }

/-- Counts a push of the control core that moves. -/
def State.push (s : State) (k : OpClass) : State := s.modCc fun c => c.incOut k
/-- Counts a completion at any control core. -/
def State.complete (s : State) (id : BitVec 10) (k : OpClass) : State := s.modCcAt id fun c => c.decOut k

/-! ### Retirement -/

/-- The instruction retires and the next one is at an address: RETIRED counts it (R119), the strips issued in a loop that is
open at this trap depth are retired as far as they have been issued (R46; log 20), and its walks and the reads that it had
sent to peers are done with. -/
def State.retireTo (s : State) (pc : Word) : State :=
  { s with cc := { s.cc with
             pc := pc
             retired := s.cc.retired + 1
             done := if s.cc.loopAct ∧ s.cc.depth = s.cc.loopDepth then s.cc.issued else s.cc.done
             miss := none
             held := [] }
           peerReads := s.peerReads.filter fun r => r.cc != s.cc.ctxid || r.token != 0 }

/-- The instruction retires and the next one follows it. -/
def State.retire (s : State) : State := s.retireTo (s.cc.pc + 4)

/-! ### Rings (R235, R266, R320, R324, R339) -/

/-- Offers a ring or notice to a control core; it is dropped when one is pending or no context is resident. -/
def State.offerRing (s : State) (id : BitVec 10) (cause : BitVec 16) : State :=
  s.modCcAt id fun c =>
    if c.run = .absent then c
    else match c.ring with
      | some _ => c
      | none => { c with ring := some cause }

end Sys2Proof.Machine
end

