-- ==== Sys2Proof/Machine/Aes.lean ====
section
/-! DEFINITION. AES-256 (FIPS 197) with the modes that the spec names: XTS (IEEE 1619, 12_capacity.md R249) and GCM (NIST SP
800-38D, 13_queries.md R275). PRESUMED, log 8: the spec names these standards and does not print them. Blocks are lists of
16 bytes, the first first. -/

namespace Sys2Proof.Machine

/-! ### The block cipher (FIPS 197) -/

/-- The S-box, a quarter at a time, byte 0 in the lowest bits. -/
def aesSbox (b : Byte) : Byte :=
  let t : BitVec 512 :=
    if b < 64 then 0x75B227EBE28012079A059618C323C7041531D871F1E5A534CCF73F362693FDB7C072A49CAFA2D4ADF04759FA7DC982CA76ABD7FE2B670130C56F6BF27B777C63
    else if b < 128 then 0xD2F3FF1021DAB6BCF5389D928F40A351A89F3C507F02F94585334D43FBAAEFD0CF584C4A39BECB6A5BB1FC20ED00D153842FE329B3D63B52A05A6E1B1A2C8309
    else if b < 192 then 0x08AE7A65EAF4566CA94ED58D6D37C8E779E4959162ACD3C25C2406490A3A32E0DB0B5EDE14B8EE4688902A22DC4F816073195D643D7EA7C41744975FEC130CCD
    else 0x16BB54B00F2D99416842E6BF0D89A18CDF2855CEE9871E9B948ED9691198F8E19E1DC186B95735610EF6034866B53E708A8BBD4B1F74DDE8C6B4A61C2E2578BA
  t.extractLsb' (8 * (b.toNat % 64)) 8

/-- Its inverse. -/
def aesInvSbox (b : Byte) : Byte :=
  let t : BitVec 512 :=
    if b < 64 then 0x25D18B6D49A25B76B224D92866A12E084EC3FA420B954CEE3D23C2A632947B54CBE9DEC444438E3487FF2F9B8239E37CFBD7F3819EA340BF38A53630D56A0952
    else if b < 128 then 0x6B8A130103BDAFC1020F3FCA8F1E2CD00645B3B80558E4F70AD3BC8C00ABD890849D8DA75746155EDAB9EDFD5048706C92B6655DCC5CA4D41698688664F6F872
    else if b < 192 then 0xF45ACD78FEC0DB9A2079D2C64B3E56FC1BBE18AA0E62B76F89C5291D711AF1476EDF751CE837F9E28535ADE72274AC9673E6B4F0CECFF297EADC674F4111913A
    else 0x7D0C2155631469E126D677BA7E042B17619953833CBBEBC8B0F52AAE4D3BE0A0EF9CC9939F7AE52D0D4AB519A97F51605FEC8027591012B131C7078833A8DD1F
  t.extractLsb' (8 * (b.toNat % 64)) 8

/-- Exclusive-or of two lists of bytes, as long as the shorter. -/
def xorBytes (a b : List Byte) : List Byte := a.zipWith (· ^^^ ·) b

/-- Multiplication by x in GF(2^8). -/
def aesXtime (b : Byte) : Byte := (b <<< 1) ^^^ (if b.getLsbD 7 then 0x1B else 0)

/-- Multiplication in GF(2^8) by a constant of four bits. -/
def aesMul (k : Nat) (b : Byte) : Byte :=
  let part (i : Nat) (v : Byte) : Byte := if k.testBit i then v else 0
  let b2 := aesXtime b
  let b4 := aesXtime b2
  part 0 b ^^^ part 1 b2 ^^^ part 2 b4 ^^^ part 3 (aesXtime b4)

/-- MixColumns with the first row of its matrix, on the columns from the first. -/
def aesMix (k : List Nat) : List Byte → List Byte
  | a :: b :: c :: d :: r =>
    let col (w x y z : Byte) : Byte :=
      aesMul (k.getD 0 0) w ^^^ aesMul (k.getD 1 0) x ^^^ aesMul (k.getD 2 0) y ^^^ aesMul (k.getD 3 0) z
    col a b c d :: col b c d a :: col c d a b :: col d a b c :: aesMix k r
  | _ => []

/-- ShiftRows: byte i comes from byte 5i mod 16; with 13 for 5 it is the inverse. -/
def aesShift (k : Nat) (s : List Byte) : List Byte := (List.range 16).map fun i => s.getD (k * i % 16) 0

/-- The words of the key schedule from the ninth on, latest first: n more, after w words of which the last eight are given. -/
def aesExpand : Nat → Nat → Byte → List (List Byte) → List (List Byte)
  | 0, _, _, ws => ws
  | n + 1, i, rcon, ws =>
    let last := ws.headD []
    let t :=
      if i % 8 = 0 then xorBytes ((last.drop 1 ++ last.take 1).map aesSbox) [rcon, 0, 0, 0]
      else if i % 8 = 4 then last.map aesSbox
      else last
    aesExpand n (i + 1) (if i % 8 = 0 then aesXtime rcon else rcon) (xorBytes (ws.getD 7 []) t :: ws)

/-- A list cut into pieces of k. -/
def piecesOf (k : Nat) : Nat → List Byte → List (List Byte)
  | 0, _ => []
  | n + 1, l => l.take k :: piecesOf k n (l.drop k)

/-- The fifteen round keys of a 32-byte key. -/
def aesKeys (key : List Byte) : List (List Byte) :=
  let ws := aesExpand 52 8 1 (piecesOf 4 8 key).reverse
  piecesOf 16 15 ws.reverse.flatten

/-- The rounds after the first key addition; the last does not mix. -/
def aesRounds : List (List Byte) → List Byte → List Byte
  | [], s => s
  | [k], s => xorBytes (aesShift 5 (s.map aesSbox)) k
  | k :: ks, s => aesRounds ks (xorBytes (aesMix [2, 3, 1, 1] (aesShift 5 (s.map aesSbox))) k)

/-- Cipher: one block under round keys. -/
def aesEnc (keys : List (List Byte)) (block : List Byte) : List Byte :=
  aesRounds keys.tail (xorBytes block (keys.headD []))

/-- The inverse rounds, with the round keys latest first. -/
def aesInvRounds : List (List Byte) → List Byte → List Byte
  | [], s => s
  | [k], s => xorBytes ((aesShift 13 s).map aesInvSbox) k
  | k :: ks, s => aesInvRounds ks (aesMix [14, 11, 13, 9] (xorBytes ((aesShift 13 s).map aesInvSbox) k))

/-- Inverse cipher: one block under round keys. -/
def aesDec (keys : List (List Byte)) (block : List Byte) : List Byte :=
  let ks := keys.reverse
  aesInvRounds ks.tail (xorBytes block (ks.headD []))

/-! ### XTS over a sector (IEEE 1619, R249) -/

/-- The tweak of the next block of a data unit, as a number: multiplication by x in GF(2^128). -/
def xtsNext (t : Nat) : Nat := if t < 2 ^ 127 then 2 * t else (2 * t - 2 ^ 128) ^^^ 0x87

/-- A data unit of two blocks with a block operation under the first half of the key; the second half makes the tweak of the
unit's number. -/
def xtsWith (f : List (List Byte) → List Byte → List Byte) (key : BitVec 512) (unit : Nat) (data : List Byte) : List Byte :=
  let k := leBytes 64 key.toNat
  let ks := aesKeys (k.take 32)
  let t0 := leNat (aesEnc (aesKeys (k.drop 32)) (leBytes 16 unit))
  let block (t : Nat) (b : List Byte) : List Byte := xorBytes (f ks (xorBytes b (leBytes 16 t))) (leBytes 16 t)
  block t0 (data.take 16) ++ block (xtsNext t0) (data.drop 16)

/-- A 32-byte sector encrypted under a tenant key, its tweak the physical address over 32, and decrypted. -/
def xtsEnc (key : BitVec 512) (unit : Nat) (data : List Byte) : List Byte := xtsWith aesEnc key unit data
def xtsDec (key : BitVec 512) (unit : Nat) (data : List Byte) : List Byte := xtsWith aesDec key unit data

/-! ### GCM (NIST SP 800-38D, R275) -/

/-- The number of a block, its first byte the highest; and the block of a number. -/
def beNat (b : List Byte) : Nat := leNat b.reverse
def beBytes (n v : Nat) : List Byte := (leBytes n v).reverse

/-- Multiplication in GCM's GF(2^128): n bits of x from the highest down, v the running multiple of y. -/
def gcmMul : Nat → Nat → Nat → Nat → Nat
  | 0, _, _, z => z
  | n + 1, x, v, z =>
    gcmMul n x (if v % 2 = 1 then v / 2 ^^^ 0xE1 * 2 ^ 120 else v / 2) (if x.testBit n then z ^^^ v else z)

/-- GHASH of blocks under a hash key. -/
def ghash (h : Nat) (blocks : List (List Byte)) : Nat := blocks.foldl (fun y b => gcmMul 128 (y ^^^ beNat b) h 0) 0

/-- Bytes filled up with zeros to whole blocks. -/
def gcmBlocks (b : List Byte) : List (List Byte) :=
  let n := (b.length + 15) / 16
  piecesOf 16 n (b ++ List.replicate (16 * n - b.length) 0)

/-- The block of the counter for a 12-byte nonce. -/
def gcmCounter (nonce : List Byte) (i : Nat) : List Byte := nonce ++ beBytes 4 i

/-- The counter mode over bytes, which encrypts and decrypts. -/
def gcmCrypt (key : BitVec 256) (nonce bs : List Byte) : List Byte :=
  let ks := aesKeys (leBytes 32 key.toNat)
  let n := (bs.length + 15) / 16
  xorBytes bs ((List.range n).flatMap fun i => aesEnc ks (gcmCounter nonce (i + 2)))

/-- The 16-byte tag of authenticated bytes and ciphertext. -/
def gcmTag (key : BitVec 256) (nonce auth body : List Byte) : List Byte :=
  let ks := aesKeys (leBytes 32 key.toNat)
  let h := beNat (aesEnc ks (List.replicate 16 0))
  let y := ghash h (gcmBlocks auth ++ gcmBlocks body ++ [beBytes 8 (8 * auth.length) ++ beBytes 8 (8 * body.length)])
  xorBytes (aesEnc ks (gcmCounter nonce 1)) (beBytes 16 y)

end Sys2Proof.Machine
end

