-- ==== Sys2Proof/Syntax.lean ====
section
/-! DEFINITION. The syntax of the Dunat instruction set: one constructor for each row of spec/opcode_table.json,
237 of them instruction words (04_encoding.md R77 to R86) and 94 of them events of the device that no word names. -/

namespace Sys2Proof

/-- The instructions and events of the part, one constructor for each row of the opcode table. -/
inductive Instr where
  /-- ADD (R129). -/
  | add (xd xa xb : XReg)
  /-- SUB (R129). -/
  | sub (xd xa xb : XReg)
  /-- AND (R129). -/
  | and (xd xa xb : XReg)
  /-- OR (R129). -/
  | or (xd xa xb : XReg)
  /-- XOR (R129). -/
  | xor (xd xa xb : XReg)
  /-- SLL (R129). -/
  | sll (xd xa xb : XReg)
  /-- SRL (R129). -/
  | srl (xd xa xb : XReg)
  /-- SRA (R129). -/
  | sra (xd xa xb : XReg)
  /-- SLT (R129). -/
  | slt (xd xa xb : XReg)
  /-- SLTU (R129). -/
  | sltu (xd xa xb : XReg)
  /-- MIN (R129). -/
  | min (xd xa xb : XReg)
  /-- MAX (R129). -/
  | max (xd xa xb : XReg)
  /-- MINU (R129). -/
  | minu (xd xa xb : XReg)
  /-- MAXU (R129). -/
  | maxu (xd xa xb : XReg)
  /-- MUL (R129). -/
  | mul (xd xa xb : XReg)
  /-- MULH (R129). -/
  | mulh (xd xa xb : XReg)
  /-- MULHU (R129). -/
  | mulhu (xd xa xb : XReg)
  /-- DIV (R129). -/
  | div (xd xa xb : XReg)
  /-- DIVU (R129). -/
  | divu (xd xa xb : XReg)
  /-- REM (R129). -/
  | rem (xd xa xb : XReg)
  /-- REMU (R129). -/
  | remu (xd xa xb : XReg)
  /-- CSEL (R129). -/
  | csel (xd xa xb : XReg)
  /-- CLZ (R131). -/
  | clz (xd xa : XReg)
  /-- CTZ (R131). -/
  | ctz (xd xa : XReg)
  /-- POPC (R131). -/
  | popc (xd xa : XReg)
  /-- BSWAP (R131). -/
  | bswap (xd xa : XReg)
  /-- ADDI (R132). -/
  | addi (xd xa : XReg) (imm : BitVec 15)
  /-- ANDI (R132). -/
  | andi (xd xa : XReg) (imm : BitVec 15)
  /-- ORI (R132). -/
  | ori (xd xa : XReg) (imm : BitVec 15)
  /-- XORI (R132). -/
  | xori (xd xa : XReg) (imm : BitVec 15)
  /-- SLTI (R132). -/
  | slti (xd xa : XReg) (imm : BitVec 15)
  /-- SLLI (R133). -/
  | slli (xd xa : XReg) (n : BitVec 6)
  /-- SRLI (R133). -/
  | srli (xd xa : XReg) (n : BitVec 6)
  /-- SRAI (R133). -/
  | srai (xd xa : XReg) (n : BitVec 6)
  /-- SEXT (R133). -/
  | sext (xd xa : XReg) (n : BitVec 6)
  /-- ZEXT (R133). -/
  | zext (xd xa : XReg) (n : BitVec 6)
  /-- LUI (R134). -/
  | lui (xd : XReg) (imm : BitVec 20)
  /-- ADDPC (R134). -/
  | addpc (xd : XReg) (imm : BitVec 20)
  /-- FADD (R135). -/
  | fadd (p : BitVec 1) (rm : BitVec 3) (xd xa xb : XReg)
  /-- FSUB (R135). -/
  | fsub (p : BitVec 1) (rm : BitVec 3) (xd xa xb : XReg)
  /-- FMUL (R135). -/
  | fmul (p : BitVec 1) (rm : BitVec 3) (xd xa xb : XReg)
  /-- FDIV (R135). -/
  | fdiv (p : BitVec 1) (rm : BitVec 3) (xd xa xb : XReg)
  /-- FSQRT (R135). -/
  | fsqrt (p : BitVec 1) (rm : BitVec 3) (xd xa : XReg)
  /-- FMIN (R135). -/
  | fmin (p : BitVec 1) (xd xa xb : XReg)
  /-- FMAX (R135). -/
  | fmax (p : BitVec 1) (xd xa xb : XReg)
  /-- FMAC (R135). -/
  | fmac (p : BitVec 1) (rm : BitVec 3) (xd xa xb : XReg)
  /-- FEQ (R135). -/
  | feq (p : BitVec 1) (xd xa xb : XReg)
  /-- FLT (R135). -/
  | flt (p : BitVec 1) (xd xa xb : XReg)
  /-- FLE (R135). -/
  | fle (p : BitVec 1) (xd xa xb : XReg)
  /-- FCVTFI (R135). -/
  | fcvtfi (p : BitVec 1) (rm : BitVec 3) (xd xa : XReg)
  /-- FCVTIF (R135). -/
  | fcvtif (p : BitVec 1) (rm : BitVec 3) (xd xa : XReg)
  /-- FCVTSD (R135). -/
  | fcvtsd (p : BitVec 1) (rm : BitVec 3) (xd xa : XReg)
  /-- BEQ (R139). -/
  | beq (xa xb : XReg) (off : BitVec 12)
  /-- BNE (R139). -/
  | bne (xa xb : XReg) (off : BitVec 12)
  /-- BLT (R139). -/
  | blt (xa xb : XReg) (off : BitVec 12)
  /-- BGE (R139). -/
  | bge (xa xb : XReg) (off : BitVec 12)
  /-- BLTU (R139). -/
  | bltu (xa xb : XReg) (off : BitVec 12)
  /-- BGEU (R139). -/
  | bgeu (xa xb : XReg) (off : BitVec 12)
  /-- BANY (R140). -/
  | bany (ma : MReg) (off : BitVec 17)
  /-- BALL (R140). -/
  | ball (ma : MReg) (off : BitVec 17)
  /-- BNONE (R140). -/
  | bnone (ma : MReg) (off : BitVec 17)
  /-- JAL (R141). -/
  | jal (xd : XReg) (off : BitVec 20)
  /-- JALR (R142). -/
  | jalr (xd xa : XReg) (imm : BitVec 15)
  /-- LDB (R224). -/
  | ldb (xd xa : XReg) (imm : BitVec 12)
  /-- LDH (R224). -/
  | ldh (xd xa : XReg) (imm : BitVec 12)
  /-- LDW (R224). -/
  | ldw (xd xa : XReg) (imm : BitVec 12)
  /-- LDD (R224). -/
  | ldd (xd xa : XReg) (imm : BitVec 12)
  /-- LDBZ (R224). -/
  | ldbz (xd xa : XReg) (imm : BitVec 12)
  /-- LDHZ (R224). -/
  | ldhz (xd xa : XReg) (imm : BitVec 12)
  /-- LDWZ (R224). -/
  | ldwz (xd xa : XReg) (imm : BitVec 12)
  /-- LDA (R226). -/
  | lda (xd xa : XReg) (sc : BitVec 3)
  /-- STB (R224). -/
  | stb (xs xa : XReg) (imm : BitVec 12)
  /-- STH (R224). -/
  | sth (xs xa : XReg) (imm : BitVec 12)
  /-- STW (R224). -/
  | stw (xs xa : XReg) (imm : BitVec 12)
  /-- STD (R224). -/
  | std (xs xa : XReg) (imm : BitVec 12)
  /-- STREL (R226). -/
  | strel (xs xa : XReg) (sc : BitVec 3)
  /-- CSRR (R143). -/
  | csrr (xd : XReg) (csr : BitVec 12)
  /-- CSRW (R143). -/
  | csrw (xd xa : XReg) (csr : BitVec 12)
  /-- CSRS (R143). -/
  | csrs (xd xa : XReg) (csr : BitVec 12)
  /-- CSRC (R143). -/
  | csrc (xd xa : XReg) (csr : BitVec 12)
  /-- SYSCALL (R145). -/
  | syscall
  /-- TRET (R145). -/
  | tret
  /-- BRK (R145). -/
  | brk
  /-- IDLE (R145). -/
  | idle (xa : XReg)
  /-- YIELD (R145). -/
  | yield
  /-- EXIT (R145). -/
  | exit
  /-- SPAWN (R145). -/
  | spawn (xd xa : XReg)
  /-- UIRET (R145). -/
  | uiret
  /-- TLBINV (R145). -/
  | tlbinv (xa xb : XReg)
  /-- LGSET (R145). -/
  | lgset (xa : XReg)
  /-- VADD (R163). -/
  | vadd (vd va : VReg) (b : Third)
  /-- VSUB (R163). -/
  | vsub (vd va : VReg) (b : Third)
  /-- VMUL (R163). -/
  | vmul (vd va : VReg) (b : Third)
  /-- VMULH (R163). -/
  | vmulh (vd va : VReg) (b : Third)
  /-- VDIV (R163). -/
  | vdiv (vd va : VReg) (b : Third)
  /-- VMIN (R163). -/
  | vmin (vd va : VReg) (b : Third)
  /-- VMAX (R163). -/
  | vmax (vd va : VReg) (b : Third)
  /-- VAND (R163). -/
  | vand (vd va : VReg) (b : Third)
  /-- VOR (R163). -/
  | vor (vd va : VReg) (b : Third)
  /-- VXOR (R163). -/
  | vxor (vd va : VReg) (b : Third)
  /-- VSLL (R163). -/
  | vsll (vd va : VReg) (b : Third)
  /-- VSRL (R163). -/
  | vsrl (vd va : VReg) (b : Third)
  /-- VSRA (R163). -/
  | vsra (vd va : VReg) (b : Third)
  /-- VADDS (R163). -/
  | vadds (vd va : VReg) (b : Third)
  /-- VSUBS (R163). -/
  | vsubs (vd va : VReg) (b : Third)
  /-- VABSD (R163). -/
  | vabsd (vd va : VReg) (b : Third)
  /-- VMAC (R163). -/
  | vmac (vd va : VReg) (b : Third)
  /-- VNMAC (R163). -/
  | vnmac (vd va : VReg) (b : Third)
  /-- VDOT4 (R165). -/
  | vdot4 (vd va vb : VReg)
  /-- VNEG (R166). -/
  | vneg (vd va : VReg)
  /-- VABS (R166). -/
  | vabs (vd va : VReg)
  /-- VSQRT (R166). -/
  | vsqrt (vd va : VReg)
  /-- VRCP (R166). -/
  | vrcp (vd va : VReg)
  /-- VRSQRT (R166). -/
  | vrsqrt (vd va : VReg)
  /-- VEXP2 (R166). -/
  | vexp2 (vd va : VReg)
  /-- VLOG2 (R166). -/
  | vlog2 (vd va : VReg)
  /-- VCLASS (R166). -/
  | vclass (vd va : VReg)
  /-- VMOV (R166). -/
  | vmov (vd va : VReg)
  /-- VBCAST (R168). -/
  | vbcast (vd : VReg) (tag : Tag) (b : Third)
  /-- VTAG (R168). -/
  | vtag (vd va : VReg) (tag : Tag)
  /-- VSXNORM (R168). -/
  | vsxnorm (vd va : VReg)
  /-- VCMPEQ (R169). -/
  | vcmpeq (md : MReg) (va : VReg) (b : Third)
  /-- VCMPNE (R169). -/
  | vcmpne (md : MReg) (va : VReg) (b : Third)
  /-- VCMPLT (R169). -/
  | vcmplt (md : MReg) (va : VReg) (b : Third)
  /-- VCMPLE (R169). -/
  | vcmple (md : MReg) (va : VReg) (b : Third)
  /-- VCMPGT (R169). -/
  | vcmpgt (md : MReg) (va : VReg) (b : Third)
  /-- VCMPGE (R169). -/
  | vcmpge (md : MReg) (va : VReg) (b : Third)
  /-- VCMPUN (R169). -/
  | vcmpun (md : MReg) (va : VReg) (b : Third)
  /-- VCVT (R170). -/
  | vcvt (vd va : VReg) (tag : Tag) (rm : BitVec 3) (part : BitVec 2)
  /-- VCVTSC (R171). -/
  | vcvtsc (vd va vb : VReg) (rm : BitVec 3) (part : BitVec 2)
  /-- VSLUP (R173). -/
  | vslup (vd va : VReg) (b : Third)
  /-- VSLDN (R173). -/
  | vsldn (vd va : VReg) (b : Third)
  /-- VSL1UP (R173). -/
  | vsl1up (vd va : VReg) (xb : XReg)
  /-- VSL1DN (R173). -/
  | vsl1dn (vd va : VReg) (xb : XReg)
  /-- VPERM (R173). -/
  | vperm (vd va vb : VReg)
  /-- VCOMP (R174). -/
  | vcomp (vd va : VReg) (mb : MReg)
  /-- VIOTA (R174). -/
  | viota (vd : VReg) (tag : Tag) (mb : MReg)
  /-- VSEL (R173). -/
  | vsel (vd va : VReg) (b : Third)
  /-- VEXT (R173). -/
  | vext (xd : XReg) (va : VReg) (b : Third)
  /-- VINS (R173). -/
  | vins (vd : VReg) (xa : XReg) (b : Third)
  /-- VREDSUM_S (R175). -/
  | vredsumS (vd va vb : VReg)
  /-- VREDSUM_F (R175). -/
  | vredsumF (vd va vb : VReg)
  /-- VREDMAX (R175). -/
  | vredmax (vd va vb : VReg)
  /-- VREDMIN (R175). -/
  | vredmin (vd va vb : VReg)
  /-- VREDAND (R175). -/
  | vredand (vd va vb : VReg)
  /-- VREDOR (R175). -/
  | vredor (vd va vb : VReg)
  /-- VREDXOR (R175). -/
  | vredxor (vd va vb : VReg)
  /-- VARGMAX (R175). -/
  | vargmax (xd : XReg) (va : VReg)
  /-- VARGMIN (R175). -/
  | vargmin (xd : XReg) (va : VReg)
  /-- VBEST_MAX (R176). -/
  | vbestMax (vv vi vcv vci : VReg)
  /-- VBEST_MIN (R176). -/
  | vbestMin (vv vi vcv vci : VReg)
  /-- MAND (R177). -/
  | mand (md ma mb : MReg)
  /-- MOR (R177). -/
  | mor (md ma mb : MReg)
  /-- MXOR (R177). -/
  | mxor (md ma mb : MReg)
  /-- MANDN (R177). -/
  | mandn (md ma mb : MReg)
  /-- MNOT (R177). -/
  | mnot (md ma : MReg)
  /-- MMOV (R177). -/
  | mmov (md ma : MReg)
  /-- MPOPC (R177). -/
  | mpopc (xd : XReg) (ma : MReg)
  /-- MFIRST (R177). -/
  | mfirst (xd : XReg) (ma : MReg)
  /-- MSETALL (R177). -/
  | msetall (md : MReg)
  /-- MCLR (R177). -/
  | mclr (md : MReg)
  /-- LOOP (R160). -/
  | loop (xa : XReg) (off : BitVec 12)
  /-- LOOPI (R160). -/
  | loopi (xa : XReg) (off : BitVec 12)
  /-- SETVL (R161). -/
  | setvl (xd xa : XReg) (w : BitVec 2)
  /-- NEXT (R162). -/
  | next (xd : XReg) (off : BitVec 20)
  /-- TCFG (R182). -/
  | tcfg (td : TReg) (xa : XReg)
  /-- TREL (R182). -/
  | trel (td : TReg)
  /-- TZERO (R182). -/
  | tzero (td : TReg)
  /-- TOPA (R182). -/
  | topa (td : TReg) (va vb : VReg)
  /-- TOPS (R182). -/
  | tops (td : TReg) (va vb : VReg)
  /-- TMV (R182). -/
  | tmv (td : TReg) (va vd : VReg)
  /-- TMVT (R182). -/
  | tmvt (td : TReg) (va vd : VReg)
  /-- TMMA_S (R182). -/
  | tmmaS (td : TReg) (xa : XReg) (ts : TReg)
  /-- TMMA_F (R182). -/
  | tmmaF (td : TReg) (xa : XReg) (ts : TReg)
  /-- TRECOMP (R182). -/
  | trecomp (td : TReg)
  /-- TDENSE (R182). -/
  | tdense (td : TReg)
  /-- TRANK (R182). -/
  | trank (td : TReg) (xd : XReg)
  /-- TRDROW (R182). -/
  | trdrow (td : TReg) (vd : VReg) (xb : XReg)
  /-- TWRROW (R182). -/
  | twrrow (td : TReg) (va : VReg) (xb : XReg)
  /-- TSAVE (R182). -/
  | tsave (td : TReg) (xa : XReg)
  /-- TLOAD (R182). -/
  | tload (td : TReg) (xa : XReg)
  /-- TSCALE (R182). -/
  | tscale (td : TReg) (va : VReg)
  /-- TADD (R182). -/
  | tadd (td ts : TReg)
  /-- VLD (R213). -/
  | vld (vr : VReg) (xa : XReg) (sc : BitVec 3)
  /-- VLDS (R213). -/
  | vlds (vr : VReg) (xa : XReg) (sc : BitVec 3)
  /-- VLDX (R213). -/
  | vldx (vr : VReg) (xa : XReg) (vi : VReg) (sc : BitVec 3)
  /-- VLDFF (R213). -/
  | vldff (vr : VReg) (xa : XReg) (sc : BitVec 3)
  /-- VST (R213). -/
  | vst (vr : VReg) (xa : XReg) (sc : BitVec 3)
  /-- VSTS (R213). -/
  | vsts (vr : VReg) (xa : XReg) (sc : BitVec 3)
  /-- VSTX (R213). -/
  | vstx (vr : VReg) (xa : XReg) (vi : VReg) (sc : BitVec 3)
  /-- VAMOADDF (R213). -/
  | vamoaddf (vr : VReg) (xa : XReg) (vi : VReg) (sc : BitVec 3)
  /-- VSAVE (R223). -/
  | vsave (vr : VReg) (xa : XReg) (sc : BitVec 3)
  /-- VRESTORE (R223). -/
  | vrestore (vr : VReg) (xa : XReg) (sc : BitVec 3)
  /-- MSAVE (R223). -/
  | msave (mr : MReg) (xa : XReg) (sc : BitVec 3)
  /-- MRESTORE (R223). -/
  | mrestore (mr : MReg) (xa : XReg) (sc : BitVec 3)
  /-- RING (R235). -/
  | ring (xd xa xb : XReg)
  /-- AMOADD (R228). -/
  | amoadd (xd xa xb : XReg) (sz aq rl : BitVec 1) (sc : BitVec 3)
  /-- AMOADDF (R228). -/
  | amoaddf (xd xa xb : XReg) (sz aq rl : BitVec 1) (sc : BitVec 3)
  /-- AMOAND (R228). -/
  | amoand (xd xa xb : XReg) (sz aq rl : BitVec 1) (sc : BitVec 3)
  /-- AMOOR (R228). -/
  | amoor (xd xa xb : XReg) (sz aq rl : BitVec 1) (sc : BitVec 3)
  /-- AMOXOR (R228). -/
  | amoxor (xd xa xb : XReg) (sz aq rl : BitVec 1) (sc : BitVec 3)
  /-- AMOMAX (R228). -/
  | amomax (xd xa xb : XReg) (sz aq rl : BitVec 1) (sc : BitVec 3)
  /-- AMOMIN (R228). -/
  | amomin (xd xa xb : XReg) (sz aq rl : BitVec 1) (sc : BitVec 3)
  /-- AMOMAXU (R228). -/
  | amomaxu (xd xa xb : XReg) (sz aq rl : BitVec 1) (sc : BitVec 3)
  /-- AMOMINU (R228). -/
  | amominu (xd xa xb : XReg) (sz aq rl : BitVec 1) (sc : BitVec 3)
  /-- AMOSWAP (R228). -/
  | amoswap (xd xa xb : XReg) (sz aq rl : BitVec 1) (sc : BitVec 3)
  /-- AMOCAS (R228). -/
  | amocas (xd xa xb : XReg) (sz aq rl : BitVec 1) (sc : BitVec 3)
  /-- FENCE (R231). -/
  | fence (sc : BitVec 3)
  /-- VFENCE (R231). -/
  | vfence (sc : BitVec 3)
  /-- VFENCE_BAR (R232). -/
  | vfenceBar (xd xa : XReg)
  /-- BARWAIT (R233). -/
  | barwait (xa xb : XReg)
  /-- BARCFG (R234). -/
  | barcfg (xd xa xb : XReg)
  /-- CMST (R270). -/
  | cmst (vr : VReg) (xa : XReg)
  /-- CMSTX (R270). -/
  | cmstx (vr : VReg) (xa : XReg) (vi : VReg)
  /-- CMZERO (R273). -/
  | cmzero (xn xa : XReg)
  /-- QDOT (R253). -/
  | qdot (xd xdesc : XReg) (vq : VReg) (xreply : XReg)
  /-- QFSUM (R253). -/
  | qfsum (xd xdesc xreply : XReg)
  /-- QWSUM (R253). -/
  | qwsum (xd xdesc : XReg) (vq : VReg) (xreply : XReg)
  /-- QMAX (R253). -/
  | qmax (xd xdesc xreply : XReg)
  /-- QMIN (R253). -/
  | qmin (xd xdesc xreply : XReg)
  /-- QWIN (R253). -/
  | qwin (xd xdesc : XReg) (vq : VReg) (xreply : XReg)
  /-- QBSCORE (R253). -/
  | qbscore (xd xdesc : XReg) (vq : VReg) (xreply : XReg)
  /-- QCOUNT (R253). -/
  | qcount (xd xdesc xreply : XReg)
  /-- QCUST (R253). -/
  | qcust (xd xdesc : XReg) (vq : VReg) (xreply : XReg)
  /-- CMMOV (R274). -/
  | cmmov (xd xa xb : XReg)
  /-- CMSEAL (R274). -/
  | cmseal (xd xa xb : XReg)
  /-- CMOPEN (R274). -/
  | cmopen (xd xa xb : XReg)
  /-- SHPUSH (R307). -/
  | shpush (vq vs vw : VReg)
  /-- SHWAIT (R311). -/
  | shwait (xd xa xb : XReg)
  /-- SHDONE (R312). -/
  | shdone (xd xa : XReg)
  /-- SHCFG (R306). -/
  | shcfg (xd xa xb : XReg)
  /-- SHCFG_DRAIN (R306). -/
  | shcfgDrain (xd xa : XReg)
  /-- SHSTAT (R313). -/
  | shstat (xd xa : XReg)
  /-- VSEND (R322). -/
  | vsend (vs va : VReg) (xb : XReg)
  /-- JOB (R319). -/
  | job (xd xa : XReg)
  /-- JOBCHK (R321). -/
  | jobchk (xd xa : XReg)
  /-- WAIT (R302). -/
  | wait (l s c t q : BitVec 5)
  /-- Event HARD_PREEMPTION (R48). -/
  | hardPreemption (cc : BitVec 10)
  /-- Event LANE_SHAPE_CHANGE (R37). -/
  | laneShapeChange (core : BitVec 8)
  /-- Event HEDDLE_GRANT (R57). -/
  | heddleGrant (core : BitVec 8) (heads : Heads) (costs : BitVec 32)
  /-- Event REGION_LAUNCH (R38). -/
  | regionLaunch (rcb : BitVec 48) (rec : Launch)
  /-- Event RCB_CHECK (R39). -/
  | rcbCheck (rcb : BitVec 48)
  /-- Event REGION_PLACEMENT (R42). -/
  | regionPlacement (rcb : BitVec 48) (first : BitVec 10)
  /-- Event REGION_RETIRE (R45). -/
  | regionRetire (rcb : BitVec 48)
  /-- Event RS_TERMINATE_REGION (R329). -/
  | rsTerminateRegion (rcb : BitVec 48)
  /-- Event RS_TERMINATE_CONTEXT (R329). -/
  | rsTerminateContext (rcb : BitVec 48) (ctx : BitVec 16)
  /-- Event RS_EVICT (R48). -/
  | rsEvict (rcb : BitVec 48)
  /-- Event TERMINATION_END (R329). -/
  | terminationEnd (rcb : BitVec 48)
  /-- Event WAIT_RETURN (R59). -/
  | waitReturn (cc : BitVec 10)
  /-- Event BARWAIT_RETURN (R233). -/
  | barwaitReturn (cc : BitVec 10)
  /-- Event BARRIER_STALL (R337). -/
  | barrierStall (slot : BitVec 12)
  /-- Event IDLE_TIMEOUT (R148). -/
  | idleTimeout (cc : BitVec 10)
  /-- Event UI_DELIVERY (R323). -/
  | uiDelivery (cc : BitVec 10)
  /-- Event LOAD_COMPLETE (R220). -/
  | loadComplete (cc : BitVec 10)
  /-- Event STORE_PERFORMED (R220). -/
  | storePerformed (cc : BitVec 10)
  /-- Event CM_STORE_PERFORMED (R270). -/
  | cmStorePerformed (cc : BitVec 10)
  /-- Event QUERY_COMPLETION (R266). -/
  | queryCompletion (cc : BitVec 10) (serial : BitVec 24)
  /-- Event SHEAF_AGE_EXPIRY (R333). -/
  | sheafAgeExpiry (q : BitVec 10)
  /-- Event SHEAF_FIRING (R308). -/
  | sheafFiring (cluster : BitVec 6)
  /-- Event SHEAF_DELIVERY (R309). -/
  | sheafDelivery (q : BitVec 10)
  /-- Event JOB_START (R318). -/
  | jobStart (cc : BitVec 10) (token : BitVec 32)
  /-- Event JOB_COMPLETION (R320). -/
  | jobCompletion (cc : BitVec 10) (token : BitVec 32)
  /-- Event TILE_MACRO_STEP (R199). -/
  | tileMacroStep (core : BitVec 8)
  /-- Event PAGE_WALK (R212). -/
  | pageWalk (cc : BitVec 10) (va : BitVec 64)
  /-- Event WALK_COMPLETE (R212). -/
  | walkComplete (cluster : BitVec 6)
  /-- Event ATOMIC_REQUEST (R230). -/
  | atomicRequest (cluster : BitVec 6)
  /-- Event DIE_WRITE_ARRIVAL (R334). -/
  | dieWriteArrival (die src : BitVec 2) (s0 s1 s2 s3 : BitVec 64)
  /-- Event DIE_WRITE_DELIVER (R354). -/
  | dieWriteDeliver (die : BitVec 2)
  /-- Event CM_INSTALL (R239). -/
  | cmInstall (handle : BitVec 12)
  /-- Event CM_REMOVE (R240). -/
  | cmRemove (handle : BitVec 12)
  /-- Event CM_REMOVE_DONE (R240). -/
  | cmRemoveDone
  /-- Event CM_READ_BACK (R238). -/
  | cmReadBack (handle : BitVec 12)
  /-- Event CMMOV_DONE (R251). -/
  | cmmovDone (handle : BitVec 12)
  /-- Event CMSEAL_DONE (R275). -/
  | cmsealDone (handle : BitVec 12)
  /-- Event CMOPEN_DONE (R275). -/
  | cmopenDone (handle : BitVec 12)
  /-- Event ACTIVATION (R281). -/
  | activation (bank : Option (BitVec 14)) (row : BitVec 48)
  /-- Event TRACKER_WINDOW_CLEAR (R281). -/
  | trackerWindowClear
  /-- Event REFRESH (R282). -/
  | refresh (bank : BitVec 14) (burst : Bool)
  /-- Event REMAP_MOVE (R280). -/
  | remapMove (region : BitVec 17)
  /-- Event REMAP_MOVE_END (R331). -/
  | remapMoveEnd (region : BitVec 17)
  /-- Event DIVISOR_CHANGE (R25). -/
  | divisorChange (d : BitVec 2)
  /-- Event COMPUTE_MODE_ENTRY (R288). -/
  | computeModeEntry (ch : BitVec 8)
  /-- Event NLB_EXPIRY (R289). -/
  | nlbExpiry (ch : BitVec 8)
  /-- Event NORMAL_MODE_REQUEST (R290). -/
  | normalModeRequest (ch : BitVec 8)
  /-- Event NORMAL_MODE_DONE (R290). -/
  | normalModeDone (ch : BitVec 8)
  /-- Event MESH_PACKET (R292). -/
  | meshPacket (router : BitVec 8) (packet : MeshPacket)
  /-- Event TILLER_JOB (R296). -/
  | tillerJob (ch : BitVec 8) (cc : BitVec 10) (serial : BitVec 24)
  /-- Event TILLER_DMA_GO (R297). -/
  | tillerDmaGo (ch : BitVec 8) (row ctl : BitVec 64)
  /-- Event TILLER_DMA_DONE (R297). -/
  | tillerDmaDone (ch : BitVec 8)
  /-- Event REPLYPUSH (R298). -/
  | replypush (ch : BitVec 8) (data : BitVec 64)
  /-- Event REPLYEND (R298). -/
  | replyend (ch : BitVec 8) (v : BitVec 64)
  /-- Event TILLER_TIMEOUT (R299). -/
  | tillerTimeout (ch : BitVec 8)
  /-- Event TILLER_FW_LOAD (R387). -/
  | tillerFwLoad (ctl : BitVec 64)
  /-- Event TILLER_FW_LOAD_DONE (R387). -/
  | tillerFwLoadDone
  /-- Event FLIT_RECEIVE (R391). -/
  | flitReceive (port : BitVec 6) (flit : List Byte)
  /-- Event ACK_TIMER (R391). -/
  | ackTimer (port : BitVec 6)
  /-- Event LINK_RETRAIN (R392). -/
  | linkRetrain (port : BitVec 6)
  /-- Event LINK_DOWN (R392). -/
  | linkDown (port : BitVec 6)
  /-- Event READ_REQUEST (R393). -/
  | readRequest (src : BitVec 8) (tag : BitVec 24) (addr : BitVec 48) (units : BitVec 4)
  /-- Event READ_RESPONSE (R393). -/
  | readResponse (src : BitVec 8) (tag : BitVec 24) (data : List Byte)
  /-- Event PEER_WRITE (R393). -/
  | peerWrite (src : BitVec 8) (tag : BitVec 24) (addr : BitVec 48) (data : List Byte)
  /-- Event WRITE_ACKNOWLEDGEMENT (R393). -/
  | writeAcknowledgement (src : BitVec 8) (tag : BitVec 24)
  /-- Event TRAIN_ELEMENTS (R394). -/
  | trainElements (src : BitVec 8) (code : BitVec 2) (data : List Byte)
  /-- Event TRAIN_TAIL (R394). -/
  | trainTail (src : BitVec 8) (tag : BitVec 24) (counter : BitVec 64) (count : BitVec 32)
  /-- Event TAIL_ACKNOWLEDGEMENT (R394). -/
  | tailAcknowledgement (src : BitVec 8) (tag : BitVec 24)
  /-- Event COLLECTIVE_DATA (R393). -/
  | collectiveData (src tag : BitVec 16) (msg : CollMsg)
  /-- Event ROUTE_WRITE (R389). -/
  | routeWrite (node : BitVec 8) (v : BitVec 64)
  /-- Event ROUTE_APPLY (R389). -/
  | routeApply (node : BitVec 8)
  /-- Event HOST_MEM_READ (R386). -/
  | hostMemRead (off : BitVec 48) (n : BitVec 8)
  /-- Event HOST_MEM_WRITE (R386). -/
  | hostMemWrite (off : BitVec 48) (data : List Byte)
  /-- Event CXL_SNOOP (R358). -/
  | cxlSnoop (die : BitVec 2) (line : HostLine)
  /-- Event POWER_ON_RESET (R33). -/
  | powerOnReset
  /-- Event CXL_PORT_RESET (R403). -/
  | cxlPortReset
  /-- Event BOOT_LOAD (R402). -/
  | bootLoad (cmd : BitVec 64)
  /-- Event BOOT_COMPLETE (R402). -/
  | bootComplete
  /-- Event VERIFY (R407). -/
  | verify
  /-- Event KEYLOAD (R404). -/
  | keyload
  /-- Event KEYWIPE (R406). -/
  | keywipe
  /-- Event KEYWIPE_ZEROISE (R406). -/
  | keywipeZeroise
  /-- Event DBGOPEN (R408). -/
  | dbgopen
  /-- Event EXTEND (R405). -/
  | extend
  /-- Event ATTEST (R409). -/
  | attest
  /-- Event DEBUG_HALT (R380). -/
  | debugHalt (cc : BitVec 10)
  /-- Event DEBUG_REGISTER_WRITE (R381). -/
  | debugRegisterWrite (cc : BitVec 10) (w : DebugWrite)
  /-- Event DEBUG_RESUME (R382). -/
  | debugResume (cc : BitVec 10)
  /-- Event DEBUG_CM_READ (R252). -/
  | debugCmRead (addr : BitVec 48)
  /-- Event REGISTER_WRITE (R5). -/
  | registerWrite (off : BitVec 64) (size : BitVec 4) (acc : RegAccess)
  /-- Event NOT_AN_INSTRUCTION (R87). -/
  | notAnInstruction (w : BitVec 32)
  /-- Event LINK_UP (R392). -/
  | linkUp (port : BitVec 6) (peer : BitVec 8)
  /-- Event LIFECYCLE_ADVANCE (R398). -/
  | lifecycleAdvance (lcs : BitVec 2)
  /-- Event MSIX_UNMASK (R385). -/
  | msixUnmask (set : MsixSet)
  deriving DecidableEq, Repr

end Sys2Proof
end

