-- ==== Sys2Proof/WellFormed.lean ====
section
/-! DEFINITION. Which terms of `Instr` are instructions: the register numbers, tags, modes, scopes and forms that
04_encoding.md admits (R79, R81, R84, R85, R86) and the entries narrow (R168, R174, R176, R306). -/

namespace Sys2Proof

/-- R79: a vector register field holds 0 to 47. -/
def vregOk (v : VReg) : Bool := decide (v.toNat < 48)
/-- R79: a mask register field holds 0 to 11. -/
def mregOk (m : MReg) : Bool := decide (m.toNat < 12)
/-- R84, R85: a rounding field holds 0 to 4. -/
def rmOk (r : BitVec 3) : Bool := decide (r.toNat < 5)
/-- R11: a scope field holds 0 to 5. -/
def scopeOk (s : BitVec 3) : Bool := decide (s.toNat < 6)
/-- R10: tags 0x14 to 0x1F are reserved. -/
def tagOk (t : Tag) : Bool := decide (t.toNat < 0x14)
/-- R168: VBCAST takes a tag of class VAL, which leaves out RAW and the SX tags. -/
def tagValOk (t : Tag) : Bool := decide ((1 ≤ t.toNat ∧ t.toNat ≤ 0x0F) ∨ t.toNat = 0x13)
/-- R174: VIOTA takes a tag of class INT. -/
def tagIntOk (t : Tag) : Bool := decide (1 ≤ t.toNat ∧ t.toNat ≤ 8)
/-- R81: the forms an entry admits, and the register number of form VV. -/
def thirdOk (vv vx vi : Bool) : Third → Bool
  | .vv vb => vv && vregOk vb
  | .vx _ => vx
  | .vi _ => vi
/-- R176: the four registers of VBEST are distinct. -/
def distinct4 (a b c d : VReg) : Bool := a != b && a != c && a != d && b != c && b != d && c != d

/-- A term that stands for an instruction of the part. Events carry no fields that an encoding checks. -/
def Instr.wf : Instr → Bool
  | .add _ _ _ => true
  | .sub _ _ _ => true
  | .and _ _ _ => true
  | .or _ _ _ => true
  | .xor _ _ _ => true
  | .sll _ _ _ => true
  | .srl _ _ _ => true
  | .sra _ _ _ => true
  | .slt _ _ _ => true
  | .sltu _ _ _ => true
  | .min _ _ _ => true
  | .max _ _ _ => true
  | .minu _ _ _ => true
  | .maxu _ _ _ => true
  | .mul _ _ _ => true
  | .mulh _ _ _ => true
  | .mulhu _ _ _ => true
  | .div _ _ _ => true
  | .divu _ _ _ => true
  | .rem _ _ _ => true
  | .remu _ _ _ => true
  | .csel _ _ _ => true
  | .clz _ _ => true
  | .ctz _ _ => true
  | .popc _ _ => true
  | .bswap _ _ => true
  | .addi _ _ _ => true
  | .andi _ _ _ => true
  | .ori _ _ _ => true
  | .xori _ _ _ => true
  | .slti _ _ _ => true
  | .slli _ _ _ => true
  | .srli _ _ _ => true
  | .srai _ _ _ => true
  | .sext _ _ _ => true
  | .zext _ _ _ => true
  | .lui _ _ => true
  | .addpc _ _ => true
  | .fadd _ rm _ _ _ => rmOk rm
  | .fsub _ rm _ _ _ => rmOk rm
  | .fmul _ rm _ _ _ => rmOk rm
  | .fdiv _ rm _ _ _ => rmOk rm
  | .fsqrt _ rm _ _ => rmOk rm
  | .fmin _ _ _ _ => true
  | .fmax _ _ _ _ => true
  | .fmac _ rm _ _ _ => rmOk rm
  | .feq _ _ _ _ => true
  | .flt _ _ _ _ => true
  | .fle _ _ _ _ => true
  | .fcvtfi _ rm _ _ => rmOk rm
  | .fcvtif _ rm _ _ => rmOk rm
  | .fcvtsd _ rm _ _ => rmOk rm
  | .beq _ _ _ => true
  | .bne _ _ _ => true
  | .blt _ _ _ => true
  | .bge _ _ _ => true
  | .bltu _ _ _ => true
  | .bgeu _ _ _ => true
  | .bany ma _ => mregOk ma
  | .ball ma _ => mregOk ma
  | .bnone ma _ => mregOk ma
  | .jal _ _ => true
  | .jalr _ _ _ => true
  | .ldb _ _ _ => true
  | .ldh _ _ _ => true
  | .ldw _ _ _ => true
  | .ldd _ _ _ => true
  | .ldbz _ _ _ => true
  | .ldhz _ _ _ => true
  | .ldwz _ _ _ => true
  | .lda _ _ sc => scopeOk sc
  | .stb _ _ _ => true
  | .sth _ _ _ => true
  | .stw _ _ _ => true
  | .std _ _ _ => true
  | .strel _ _ sc => scopeOk sc
  | .csrr _ _ => true
  | .csrw _ _ _ => true
  | .csrs _ _ _ => true
  | .csrc _ _ _ => true
  | .syscall => true
  | .tret => true
  | .brk => true
  | .idle _ => true
  | .yield => true
  | .exit => true
  | .spawn _ _ => true
  | .uiret => true
  | .tlbinv _ _ => true
  | .lgset _ => true
  | .vadd vd va b => vregOk vd && vregOk va && thirdOk true true true b
  | .vsub vd va b => vregOk vd && vregOk va && thirdOk true true true b
  | .vmul vd va b => vregOk vd && vregOk va && thirdOk true true true b
  | .vmulh vd va b => vregOk vd && vregOk va && thirdOk true true false b
  | .vdiv vd va b => vregOk vd && vregOk va && thirdOk true true true b
  | .vmin vd va b => vregOk vd && vregOk va && thirdOk true true true b
  | .vmax vd va b => vregOk vd && vregOk va && thirdOk true true true b
  | .vand vd va b => vregOk vd && vregOk va && thirdOk true true true b
  | .vor vd va b => vregOk vd && vregOk va && thirdOk true true true b
  | .vxor vd va b => vregOk vd && vregOk va && thirdOk true true true b
  | .vsll vd va b => vregOk vd && vregOk va && thirdOk true true true b
  | .vsrl vd va b => vregOk vd && vregOk va && thirdOk true true true b
  | .vsra vd va b => vregOk vd && vregOk va && thirdOk true true true b
  | .vadds vd va b => vregOk vd && vregOk va && thirdOk true true true b
  | .vsubs vd va b => vregOk vd && vregOk va && thirdOk true true true b
  | .vabsd vd va b => vregOk vd && vregOk va && thirdOk true true true b
  | .vmac vd va b => vregOk vd && vregOk va && thirdOk true true true b
  | .vnmac vd va b => vregOk vd && vregOk va && thirdOk true true true b
  | .vdot4 vd va vb => vregOk vd && vregOk va && vregOk vb
  | .vneg vd va => vregOk vd && vregOk va
  | .vabs vd va => vregOk vd && vregOk va
  | .vsqrt vd va => vregOk vd && vregOk va
  | .vrcp vd va => vregOk vd && vregOk va
  | .vrsqrt vd va => vregOk vd && vregOk va
  | .vexp2 vd va => vregOk vd && vregOk va
  | .vlog2 vd va => vregOk vd && vregOk va
  | .vclass vd va => vregOk vd && vregOk va
  | .vmov vd va => vregOk vd && vregOk va
  | .vbcast vd tag b => vregOk vd && tagValOk tag && thirdOk false true true b
  | .vtag vd va tag => vregOk vd && vregOk va && tagOk tag
  | .vsxnorm vd va => vregOk vd && vregOk va
  | .vcmpeq md va b => mregOk md && vregOk va && thirdOk true true true b
  | .vcmpne md va b => mregOk md && vregOk va && thirdOk true true true b
  | .vcmplt md va b => mregOk md && vregOk va && thirdOk true true true b
  | .vcmple md va b => mregOk md && vregOk va && thirdOk true true true b
  | .vcmpgt md va b => mregOk md && vregOk va && thirdOk true true true b
  | .vcmpge md va b => mregOk md && vregOk va && thirdOk true true true b
  | .vcmpun md va b => mregOk md && vregOk va && thirdOk true true true b
  | .vcvt vd va tag rm _ => vregOk vd && vregOk va && tagOk tag && rmOk rm
  | .vcvtsc vd va vb rm _ => vregOk vd && vregOk va && vregOk vb && rmOk rm
  | .vslup vd va b => vregOk vd && vregOk va && thirdOk false true true b
  | .vsldn vd va b => vregOk vd && vregOk va && thirdOk false true true b
  | .vsl1up vd va _ => vregOk vd && vregOk va
  | .vsl1dn vd va _ => vregOk vd && vregOk va
  | .vperm vd va vb => vregOk vd && vregOk va && vregOk vb
  | .vcomp vd va mb => vregOk vd && vregOk va && mregOk mb
  | .viota vd tag mb => vregOk vd && tagIntOk tag && mregOk mb
  | .vsel vd va b => vregOk vd && vregOk va && thirdOk true true true b
  | .vext _ va b => vregOk va && thirdOk false true true b
  | .vins vd _ b => vregOk vd && thirdOk false true true b
  | .vredsumS vd va vb => vregOk vd && vregOk va && vregOk vb
  | .vredsumF vd va vb => vregOk vd && vregOk va && vregOk vb
  | .vredmax vd va vb => vregOk vd && vregOk va && vregOk vb
  | .vredmin vd va vb => vregOk vd && vregOk va && vregOk vb
  | .vredand vd va vb => vregOk vd && vregOk va && vregOk vb
  | .vredor vd va vb => vregOk vd && vregOk va && vregOk vb
  | .vredxor vd va vb => vregOk vd && vregOk va && vregOk vb
  | .vargmax _ va => vregOk va
  | .vargmin _ va => vregOk va
  | .vbestMax vv vi vcv vci => vregOk vv && vregOk vi && vregOk vcv && vregOk vci && distinct4 vv vi vcv vci
  | .vbestMin vv vi vcv vci => vregOk vv && vregOk vi && vregOk vcv && vregOk vci && distinct4 vv vi vcv vci
  | .mand md ma mb => mregOk md && mregOk ma && mregOk mb
  | .mor md ma mb => mregOk md && mregOk ma && mregOk mb
  | .mxor md ma mb => mregOk md && mregOk ma && mregOk mb
  | .mandn md ma mb => mregOk md && mregOk ma && mregOk mb
  | .mnot md ma => mregOk md && mregOk ma
  | .mmov md ma => mregOk md && mregOk ma
  | .mpopc _ ma => mregOk ma
  | .mfirst _ ma => mregOk ma
  | .msetall md => mregOk md
  | .mclr md => mregOk md
  | .loop _ _ => true
  | .loopi _ _ => true
  | .setvl _ _ _ => true
  | .next _ _ => true
  | .tcfg _ _ => true
  | .trel _ => true
  | .tzero _ => true
  | .topa _ va vb => vregOk va && vregOk vb
  | .tops _ va vb => vregOk va && vregOk vb
  | .tmv _ va vd => vregOk va && vregOk vd
  | .tmvt _ va vd => vregOk va && vregOk vd
  | .tmmaS _ _ _ => true
  | .tmmaF _ _ _ => true
  | .trecomp _ => true
  | .tdense _ => true
  | .trank _ _ => true
  | .trdrow _ vd _ => vregOk vd
  | .twrrow _ va _ => vregOk va
  | .tsave _ _ => true
  | .tload _ _ => true
  | .tscale _ va => vregOk va
  | .tadd _ _ => true
  | .vld vr _ sc => vregOk vr && scopeOk sc
  | .vlds vr _ sc => vregOk vr && scopeOk sc
  | .vldx vr _ vi sc => vregOk vr && vregOk vi && scopeOk sc
  | .vldff vr _ sc => vregOk vr && scopeOk sc
  | .vst vr _ sc => vregOk vr && scopeOk sc
  | .vsts vr _ sc => vregOk vr && scopeOk sc
  | .vstx vr _ vi sc => vregOk vr && vregOk vi && scopeOk sc
  | .vamoaddf vr _ vi sc => vregOk vr && vregOk vi && scopeOk sc
  | .vsave vr _ sc => vregOk vr && scopeOk sc
  | .vrestore vr _ sc => vregOk vr && scopeOk sc
  | .msave mr _ sc => mregOk mr && scopeOk sc
  | .mrestore mr _ sc => mregOk mr && scopeOk sc
  | .ring _ _ _ => true
  | .amoadd _ _ _ _ _ _ sc => scopeOk sc
  | .amoaddf _ _ _ _ _ _ sc => scopeOk sc
  | .amoand _ _ _ _ _ _ sc => scopeOk sc
  | .amoor _ _ _ _ _ _ sc => scopeOk sc
  | .amoxor _ _ _ _ _ _ sc => scopeOk sc
  | .amomax _ _ _ _ _ _ sc => scopeOk sc
  | .amomin _ _ _ _ _ _ sc => scopeOk sc
  | .amomaxu _ _ _ _ _ _ sc => scopeOk sc
  | .amominu _ _ _ _ _ _ sc => scopeOk sc
  | .amoswap _ _ _ _ _ _ sc => scopeOk sc
  | .amocas _ _ _ _ _ _ sc => scopeOk sc
  | .fence sc => scopeOk sc
  | .vfence sc => scopeOk sc
  | .vfenceBar _ _ => true
  | .barwait _ _ => true
  | .barcfg _ _ _ => true
  | .cmst vr _ => vregOk vr
  | .cmstx vr _ vi => vregOk vr && vregOk vi
  | .cmzero _ _ => true
  | .qdot _ _ vq _ => vregOk vq
  | .qfsum _ _ _ => true
  | .qwsum _ _ vq _ => vregOk vq
  | .qmax _ _ _ => true
  | .qmin _ _ _ => true
  | .qwin _ _ vq _ => vregOk vq
  | .qbscore _ _ vq _ => vregOk vq
  | .qcount _ _ _ => true
  | .qcust _ _ vq _ => vregOk vq
  | .cmmov _ _ _ => true
  | .cmseal _ _ _ => true
  | .cmopen _ _ _ => true
  | .shpush vq vs vw => vregOk vq && vregOk vs && vregOk vw
  | .shwait _ _ _ => true
  | .shdone _ _ => true
  | .shcfg _ _ xb => (xb != 0)
  | .shcfgDrain _ _ => true
  | .shstat _ _ => true
  | .vsend vs va _ => vregOk vs && vregOk va
  | .job _ _ => true
  | .jobchk _ _ => true
  | .wait _ _ _ _ _ => true
  | .hardPreemption _ => true
  | .laneShapeChange _ => true
  | .heddleGrant _ _ _ => true
  | .regionLaunch _ _ => true
  | .rcbCheck _ => true
  | .regionPlacement _ _ => true
  | .regionRetire _ => true
  | .rsTerminateRegion _ => true
  | .rsTerminateContext _ _ => true
  | .rsEvict _ => true
  | .terminationEnd _ => true
  | .waitReturn _ => true
  | .barwaitReturn _ => true
  | .barrierStall _ => true
  | .idleTimeout _ => true
  | .uiDelivery _ => true
  | .loadComplete _ => true
  | .storePerformed _ => true
  | .cmStorePerformed _ => true
  | .queryCompletion _ _ => true
  | .sheafAgeExpiry _ => true
  | .sheafFiring _ => true
  | .sheafDelivery _ => true
  | .jobStart _ _ => true
  | .jobCompletion _ _ => true
  | .tileMacroStep _ => true
  | .pageWalk _ _ => true
  | .walkComplete _ => true
  | .atomicRequest _ => true
  | .dieWriteArrival _ _ _ _ _ _ => true
  | .dieWriteDeliver _ => true
  | .cmInstall _ => true
  | .cmRemove _ => true
  | .cmRemoveDone => true
  | .cmReadBack _ => true
  | .cmmovDone _ => true
  | .cmsealDone _ => true
  | .cmopenDone _ => true
  | .activation _ _ => true
  | .trackerWindowClear => true
  | .refresh _ _ => true
  | .remapMove _ => true
  | .remapMoveEnd _ => true
  | .divisorChange _ => true
  | .computeModeEntry _ => true
  | .nlbExpiry _ => true
  | .normalModeRequest _ => true
  | .normalModeDone _ => true
  | .meshPacket _ _ => true
  | .tillerJob _ _ _ => true
  | .tillerDmaGo _ _ _ => true
  | .tillerDmaDone _ => true
  | .replypush _ _ => true
  | .replyend _ _ => true
  | .tillerTimeout _ => true
  | .tillerFwLoad _ => true
  | .tillerFwLoadDone => true
  | .flitReceive _ _ => true
  | .ackTimer _ => true
  | .linkRetrain _ => true
  | .linkDown _ => true
  | .readRequest _ _ _ _ => true
  | .readResponse _ _ _ => true
  | .peerWrite _ _ _ _ => true
  | .writeAcknowledgement _ _ => true
  | .trainElements _ _ _ => true
  | .trainTail _ _ _ _ => true
  | .tailAcknowledgement _ _ => true
  | .collectiveData _ _ _ => true
  | .routeWrite _ _ => true
  | .routeApply _ => true
  | .hostMemRead _ _ => true
  | .hostMemWrite _ _ => true
  | .cxlSnoop _ _ => true
  | .powerOnReset => true
  | .cxlPortReset => true
  | .bootLoad _ => true
  | .bootComplete => true
  | .verify => true
  | .keyload => true
  | .keywipe => true
  | .keywipeZeroise => true
  | .dbgopen => true
  | .extend => true
  | .attest => true
  | .debugHalt _ => true
  | .debugRegisterWrite _ _ => true
  | .debugResume _ => true
  | .debugCmRead _ => true
  | .registerWrite _ _ _ => true
  | .notAnInstruction _ => true
  | .linkUp _ _ => true
  | .lifecycleAdvance _ => true
  | .msixUnmask _ => true

end Sys2Proof
end

