-- ==== Sys2Proof/Decode.lean ====
section
/-! DEFINITION. The decoder of instruction words, written from the formats and the opcode map of 04_encoding.md
(R76 to R87), and the encoder written from the same tables. -/

namespace Sys2Proof

/-- The third operand by the form field (R81): bits 26:21, with bit 26 reserved in form VX; form 11 is illegal. -/
def thirdOf (w : BitVec 32) : Option Third :=
  match (w.extractLsb' 7 2).toNat with
  | 0 => some (.vv (w.extractLsb' 21 6))
  | 1 => if w.extractLsb' 26 1 == 0 then some (.vx (w.extractLsb' 21 5)) else none
  | 2 => some (.vi (w.extractLsb' 21 6))
  | _ => none

/-- Major opcode 0x01 (R83). -/
def decodeIntReg (w : BitVec 32) : Option Instr :=
  match (w.extractLsb' 22 10).toNat with
  | 0 => some (.add (w.extractLsb' 7 5) (w.extractLsb' 12 5) (w.extractLsb' 17 5))
  | 1 => some (.sub (w.extractLsb' 7 5) (w.extractLsb' 12 5) (w.extractLsb' 17 5))
  | 2 => some (.and (w.extractLsb' 7 5) (w.extractLsb' 12 5) (w.extractLsb' 17 5))
  | 3 => some (.or (w.extractLsb' 7 5) (w.extractLsb' 12 5) (w.extractLsb' 17 5))
  | 4 => some (.xor (w.extractLsb' 7 5) (w.extractLsb' 12 5) (w.extractLsb' 17 5))
  | 5 => some (.sll (w.extractLsb' 7 5) (w.extractLsb' 12 5) (w.extractLsb' 17 5))
  | 6 => some (.srl (w.extractLsb' 7 5) (w.extractLsb' 12 5) (w.extractLsb' 17 5))
  | 7 => some (.sra (w.extractLsb' 7 5) (w.extractLsb' 12 5) (w.extractLsb' 17 5))
  | 8 => some (.slt (w.extractLsb' 7 5) (w.extractLsb' 12 5) (w.extractLsb' 17 5))
  | 9 => some (.sltu (w.extractLsb' 7 5) (w.extractLsb' 12 5) (w.extractLsb' 17 5))
  | 10 => some (.min (w.extractLsb' 7 5) (w.extractLsb' 12 5) (w.extractLsb' 17 5))
  | 11 => some (.max (w.extractLsb' 7 5) (w.extractLsb' 12 5) (w.extractLsb' 17 5))
  | 12 => some (.minu (w.extractLsb' 7 5) (w.extractLsb' 12 5) (w.extractLsb' 17 5))
  | 13 => some (.maxu (w.extractLsb' 7 5) (w.extractLsb' 12 5) (w.extractLsb' 17 5))
  | 14 => some (.mul (w.extractLsb' 7 5) (w.extractLsb' 12 5) (w.extractLsb' 17 5))
  | 15 => some (.mulh (w.extractLsb' 7 5) (w.extractLsb' 12 5) (w.extractLsb' 17 5))
  | 16 => some (.mulhu (w.extractLsb' 7 5) (w.extractLsb' 12 5) (w.extractLsb' 17 5))
  | 17 => some (.div (w.extractLsb' 7 5) (w.extractLsb' 12 5) (w.extractLsb' 17 5))
  | 18 => some (.divu (w.extractLsb' 7 5) (w.extractLsb' 12 5) (w.extractLsb' 17 5))
  | 19 => some (.rem (w.extractLsb' 7 5) (w.extractLsb' 12 5) (w.extractLsb' 17 5))
  | 20 => some (.remu (w.extractLsb' 7 5) (w.extractLsb' 12 5) (w.extractLsb' 17 5))
  | 21 => some (.csel (w.extractLsb' 7 5) (w.extractLsb' 12 5) (w.extractLsb' 17 5))
  | _ => none

/-- Major opcode 0x02 (R83). -/
def decodeBits (w : BitVec 32) : Option Instr :=
  match (w.extractLsb' 22 10).toNat with
  | 0 => if w.extractLsb' 17 5 == 0 then some (.clz (w.extractLsb' 7 5) (w.extractLsb' 12 5)) else none
  | 1 => if w.extractLsb' 17 5 == 0 then some (.ctz (w.extractLsb' 7 5) (w.extractLsb' 12 5)) else none
  | 2 => if w.extractLsb' 17 5 == 0 then some (.popc (w.extractLsb' 7 5) (w.extractLsb' 12 5)) else none
  | 3 => if w.extractLsb' 17 5 == 0 then some (.bswap (w.extractLsb' 7 5) (w.extractLsb' 12 5)) else none
  | _ => none

/-- Major opcode 0x08 (R83). -/
def decodeShift (w : BitVec 32) : Option Instr :=
  match (w.extractLsb' 29 3).toNat with
  | 0 => if w.extractLsb' 23 6 == 0 then some (.slli (w.extractLsb' 7 5) (w.extractLsb' 12 5) (w.extractLsb' 17 6)) else none
  | 1 => if w.extractLsb' 23 6 == 0 then some (.srli (w.extractLsb' 7 5) (w.extractLsb' 12 5) (w.extractLsb' 17 6)) else none
  | 2 => if w.extractLsb' 23 6 == 0 then some (.srai (w.extractLsb' 7 5) (w.extractLsb' 12 5) (w.extractLsb' 17 6)) else none
  | 3 => if w.extractLsb' 23 6 == 0 then some (.sext (w.extractLsb' 7 5) (w.extractLsb' 12 5) (w.extractLsb' 17 6)) else none
  | 4 => if w.extractLsb' 23 6 == 0 then some (.zext (w.extractLsb' 7 5) (w.extractLsb' 12 5) (w.extractLsb' 17 6)) else none
  | _ => none

/-- Major opcode 0x0B (R83). -/
def decodeFp (w : BitVec 32) : Option Instr :=
  match (w.extractLsb' 22 4).toNat with
  | 0 => if w.extractLsb' 29 2 == 0 then some (.fadd (w.extractLsb' 31 1) (w.extractLsb' 26 3) (w.extractLsb' 7 5) (w.extractLsb' 12 5) (w.extractLsb' 17 5)) else none
  | 1 => if w.extractLsb' 29 2 == 0 then some (.fsub (w.extractLsb' 31 1) (w.extractLsb' 26 3) (w.extractLsb' 7 5) (w.extractLsb' 12 5) (w.extractLsb' 17 5)) else none
  | 2 => if w.extractLsb' 29 2 == 0 then some (.fmul (w.extractLsb' 31 1) (w.extractLsb' 26 3) (w.extractLsb' 7 5) (w.extractLsb' 12 5) (w.extractLsb' 17 5)) else none
  | 3 => if w.extractLsb' 29 2 == 0 then some (.fdiv (w.extractLsb' 31 1) (w.extractLsb' 26 3) (w.extractLsb' 7 5) (w.extractLsb' 12 5) (w.extractLsb' 17 5)) else none
  | 4 => if w.extractLsb' 29 2 == 0 && w.extractLsb' 17 5 == 0 then some (.fsqrt (w.extractLsb' 31 1) (w.extractLsb' 26 3) (w.extractLsb' 7 5) (w.extractLsb' 12 5)) else none
  | 5 => if w.extractLsb' 29 2 == 0 && w.extractLsb' 26 3 == 0 then some (.fmin (w.extractLsb' 31 1) (w.extractLsb' 7 5) (w.extractLsb' 12 5) (w.extractLsb' 17 5)) else none
  | 6 => if w.extractLsb' 29 2 == 0 && w.extractLsb' 26 3 == 0 then some (.fmax (w.extractLsb' 31 1) (w.extractLsb' 7 5) (w.extractLsb' 12 5) (w.extractLsb' 17 5)) else none
  | 7 => if w.extractLsb' 29 2 == 0 then some (.fmac (w.extractLsb' 31 1) (w.extractLsb' 26 3) (w.extractLsb' 7 5) (w.extractLsb' 12 5) (w.extractLsb' 17 5)) else none
  | 8 => if w.extractLsb' 29 2 == 0 && w.extractLsb' 26 3 == 0 then some (.feq (w.extractLsb' 31 1) (w.extractLsb' 7 5) (w.extractLsb' 12 5) (w.extractLsb' 17 5)) else none
  | 9 => if w.extractLsb' 29 2 == 0 && w.extractLsb' 26 3 == 0 then some (.flt (w.extractLsb' 31 1) (w.extractLsb' 7 5) (w.extractLsb' 12 5) (w.extractLsb' 17 5)) else none
  | 10 => if w.extractLsb' 29 2 == 0 && w.extractLsb' 26 3 == 0 then some (.fle (w.extractLsb' 31 1) (w.extractLsb' 7 5) (w.extractLsb' 12 5) (w.extractLsb' 17 5)) else none
  | 11 => if w.extractLsb' 29 2 == 0 && w.extractLsb' 17 5 == 0 then some (.fcvtfi (w.extractLsb' 31 1) (w.extractLsb' 26 3) (w.extractLsb' 7 5) (w.extractLsb' 12 5)) else none
  | 12 => if w.extractLsb' 29 2 == 0 && w.extractLsb' 17 5 == 0 then some (.fcvtif (w.extractLsb' 31 1) (w.extractLsb' 26 3) (w.extractLsb' 7 5) (w.extractLsb' 12 5)) else none
  | 13 => if w.extractLsb' 29 2 == 0 && w.extractLsb' 17 5 == 0 then some (.fcvtsd (w.extractLsb' 31 1) (w.extractLsb' 26 3) (w.extractLsb' 7 5) (w.extractLsb' 12 5)) else none
  | _ => none

/-- Major opcode 0x10 (R83). -/
def decodeBranch (w : BitVec 32) : Option Instr :=
  match (w.extractLsb' 7 3).toNat with
  | 0 => some (.beq (w.extractLsb' 10 5) (w.extractLsb' 15 5) (w.extractLsb' 20 12))
  | 1 => some (.bne (w.extractLsb' 10 5) (w.extractLsb' 15 5) (w.extractLsb' 20 12))
  | 2 => some (.blt (w.extractLsb' 10 5) (w.extractLsb' 15 5) (w.extractLsb' 20 12))
  | 3 => some (.bge (w.extractLsb' 10 5) (w.extractLsb' 15 5) (w.extractLsb' 20 12))
  | 4 => some (.bltu (w.extractLsb' 10 5) (w.extractLsb' 15 5) (w.extractLsb' 20 12))
  | 5 => some (.bgeu (w.extractLsb' 10 5) (w.extractLsb' 15 5) (w.extractLsb' 20 12))
  | _ => none

/-- Major opcode 0x11 (R83). -/
def decodeMaskBranch (w : BitVec 32) : Option Instr :=
  match (w.extractLsb' 7 3).toNat with
  | 0 => if w.extractLsb' 14 1 == 0 then some (.bany (w.extractLsb' 10 4) (w.extractLsb' 15 17)) else none
  | 1 => if w.extractLsb' 14 1 == 0 then some (.ball (w.extractLsb' 10 4) (w.extractLsb' 15 17)) else none
  | 2 => if w.extractLsb' 14 1 == 0 then some (.bnone (w.extractLsb' 10 4) (w.extractLsb' 15 17)) else none
  | _ => none

/-- Major opcode 0x18 (R83). -/
def decodeLoad (w : BitVec 32) : Option Instr :=
  match (w.extractLsb' 29 3).toNat with
  | 0 => some (.ldb (w.extractLsb' 7 5) (w.extractLsb' 12 5) (w.extractLsb' 17 12))
  | 1 => some (.ldh (w.extractLsb' 7 5) (w.extractLsb' 12 5) (w.extractLsb' 17 12))
  | 2 => some (.ldw (w.extractLsb' 7 5) (w.extractLsb' 12 5) (w.extractLsb' 17 12))
  | 3 => some (.ldd (w.extractLsb' 7 5) (w.extractLsb' 12 5) (w.extractLsb' 17 12))
  | 4 => some (.ldbz (w.extractLsb' 7 5) (w.extractLsb' 12 5) (w.extractLsb' 17 12))
  | 5 => some (.ldhz (w.extractLsb' 7 5) (w.extractLsb' 12 5) (w.extractLsb' 17 12))
  | 6 => some (.ldwz (w.extractLsb' 7 5) (w.extractLsb' 12 5) (w.extractLsb' 17 12))
  | 7 => if w.extractLsb' 20 9 == 0 then some (.lda (w.extractLsb' 7 5) (w.extractLsb' 12 5) (w.extractLsb' 17 3)) else none
  | _ => none

/-- Major opcode 0x19 (R83). -/
def decodeStore (w : BitVec 32) : Option Instr :=
  match (w.extractLsb' 29 3).toNat with
  | 0 => some (.stb (w.extractLsb' 7 5) (w.extractLsb' 12 5) (w.extractLsb' 17 12))
  | 1 => some (.sth (w.extractLsb' 7 5) (w.extractLsb' 12 5) (w.extractLsb' 17 12))
  | 2 => some (.stw (w.extractLsb' 7 5) (w.extractLsb' 12 5) (w.extractLsb' 17 12))
  | 3 => some (.std (w.extractLsb' 7 5) (w.extractLsb' 12 5) (w.extractLsb' 17 12))
  | 4 => if w.extractLsb' 20 9 == 0 then some (.strel (w.extractLsb' 7 5) (w.extractLsb' 12 5) (w.extractLsb' 17 3)) else none
  | _ => none

/-- Major opcode 0x1C (R83). -/
def decodeCsr (w : BitVec 32) : Option Instr :=
  match (w.extractLsb' 29 3).toNat with
  | 0 => if w.extractLsb' 12 5 == 0 then some (.csrr (w.extractLsb' 7 5) (w.extractLsb' 17 12)) else none
  | 1 => some (.csrw (w.extractLsb' 7 5) (w.extractLsb' 12 5) (w.extractLsb' 17 12))
  | 2 => some (.csrs (w.extractLsb' 7 5) (w.extractLsb' 12 5) (w.extractLsb' 17 12))
  | 3 => some (.csrc (w.extractLsb' 7 5) (w.extractLsb' 12 5) (w.extractLsb' 17 12))
  | _ => none

/-- Major opcode 0x1D (R83). -/
def decodeSystem (w : BitVec 32) : Option Instr :=
  match (w.extractLsb' 22 10).toNat with
  | 0 => if w.extractLsb' 7 5 == 0 && w.extractLsb' 12 5 == 0 && w.extractLsb' 17 5 == 0 then some (.syscall) else none
  | 1 => if w.extractLsb' 7 5 == 0 && w.extractLsb' 12 5 == 0 && w.extractLsb' 17 5 == 0 then some (.tret) else none
  | 2 => if w.extractLsb' 7 5 == 0 && w.extractLsb' 12 5 == 0 && w.extractLsb' 17 5 == 0 then some (.brk) else none
  | 3 => if w.extractLsb' 7 5 == 0 && w.extractLsb' 17 5 == 0 then some (.idle (w.extractLsb' 12 5)) else none
  | 4 => if w.extractLsb' 7 5 == 0 && w.extractLsb' 12 5 == 0 && w.extractLsb' 17 5 == 0 then some (.yield) else none
  | 5 => if w.extractLsb' 7 5 == 0 && w.extractLsb' 12 5 == 0 && w.extractLsb' 17 5 == 0 then some (.exit) else none
  | 6 => if w.extractLsb' 17 5 == 0 then some (.spawn (w.extractLsb' 7 5) (w.extractLsb' 12 5)) else none
  | 7 => if w.extractLsb' 7 5 == 0 && w.extractLsb' 12 5 == 0 && w.extractLsb' 17 5 == 0 then some (.uiret) else none
  | 8 => if w.extractLsb' 7 5 == 0 then some (.tlbinv (w.extractLsb' 12 5) (w.extractLsb' 17 5)) else none
  | 9 => if w.extractLsb' 7 5 == 0 && w.extractLsb' 17 5 == 0 then some (.lgset (w.extractLsb' 12 5)) else none
  | _ => none

/-- Major opcode 0x20 (R83). -/
def decodeVArith (w : BitVec 32) : Option Instr :=
  match (w.extractLsb' 27 5).toNat with
  | 0 => (thirdOf w).map fun third => .vadd (w.extractLsb' 9 6) (w.extractLsb' 15 6) third
  | 1 => (thirdOf w).map fun third => .vsub (w.extractLsb' 9 6) (w.extractLsb' 15 6) third
  | 2 => (thirdOf w).map fun third => .vmul (w.extractLsb' 9 6) (w.extractLsb' 15 6) third
  | 3 => (thirdOf w).map fun third => .vmulh (w.extractLsb' 9 6) (w.extractLsb' 15 6) third
  | 4 => (thirdOf w).map fun third => .vdiv (w.extractLsb' 9 6) (w.extractLsb' 15 6) third
  | 5 => (thirdOf w).map fun third => .vmin (w.extractLsb' 9 6) (w.extractLsb' 15 6) third
  | 6 => (thirdOf w).map fun third => .vmax (w.extractLsb' 9 6) (w.extractLsb' 15 6) third
  | 7 => (thirdOf w).map fun third => .vand (w.extractLsb' 9 6) (w.extractLsb' 15 6) third
  | 8 => (thirdOf w).map fun third => .vor (w.extractLsb' 9 6) (w.extractLsb' 15 6) third
  | 9 => (thirdOf w).map fun third => .vxor (w.extractLsb' 9 6) (w.extractLsb' 15 6) third
  | 10 => (thirdOf w).map fun third => .vsll (w.extractLsb' 9 6) (w.extractLsb' 15 6) third
  | 11 => (thirdOf w).map fun third => .vsrl (w.extractLsb' 9 6) (w.extractLsb' 15 6) third
  | 12 => (thirdOf w).map fun third => .vsra (w.extractLsb' 9 6) (w.extractLsb' 15 6) third
  | 13 => (thirdOf w).map fun third => .vadds (w.extractLsb' 9 6) (w.extractLsb' 15 6) third
  | 14 => (thirdOf w).map fun third => .vsubs (w.extractLsb' 9 6) (w.extractLsb' 15 6) third
  | 15 => (thirdOf w).map fun third => .vabsd (w.extractLsb' 9 6) (w.extractLsb' 15 6) third
  | 16 => (thirdOf w).map fun third => .vmac (w.extractLsb' 9 6) (w.extractLsb' 15 6) third
  | 17 => (thirdOf w).map fun third => .vnmac (w.extractLsb' 9 6) (w.extractLsb' 15 6) third
  | 18 => if w.extractLsb' 7 2 == 0 then some (.vdot4 (w.extractLsb' 9 6) (w.extractLsb' 15 6) (w.extractLsb' 21 6)) else none
  | _ => none

/-- Major opcode 0x21 (R83). -/
def decodeVUnary (w : BitVec 32) : Option Instr :=
  match (w.extractLsb' 27 5).toNat with
  | 0 => if w.extractLsb' 21 6 == 0 && w.extractLsb' 7 2 == 0 then some (.vneg (w.extractLsb' 9 6) (w.extractLsb' 15 6)) else none
  | 1 => if w.extractLsb' 21 6 == 0 && w.extractLsb' 7 2 == 0 then some (.vabs (w.extractLsb' 9 6) (w.extractLsb' 15 6)) else none
  | 2 => if w.extractLsb' 21 6 == 0 && w.extractLsb' 7 2 == 0 then some (.vsqrt (w.extractLsb' 9 6) (w.extractLsb' 15 6)) else none
  | 3 => if w.extractLsb' 21 6 == 0 && w.extractLsb' 7 2 == 0 then some (.vrcp (w.extractLsb' 9 6) (w.extractLsb' 15 6)) else none
  | 4 => if w.extractLsb' 21 6 == 0 && w.extractLsb' 7 2 == 0 then some (.vrsqrt (w.extractLsb' 9 6) (w.extractLsb' 15 6)) else none
  | 5 => if w.extractLsb' 21 6 == 0 && w.extractLsb' 7 2 == 0 then some (.vexp2 (w.extractLsb' 9 6) (w.extractLsb' 15 6)) else none
  | 6 => if w.extractLsb' 21 6 == 0 && w.extractLsb' 7 2 == 0 then some (.vlog2 (w.extractLsb' 9 6) (w.extractLsb' 15 6)) else none
  | 7 => if w.extractLsb' 21 6 == 0 && w.extractLsb' 7 2 == 0 then some (.vclass (w.extractLsb' 9 6) (w.extractLsb' 15 6)) else none
  | 8 => if w.extractLsb' 21 6 == 0 && w.extractLsb' 7 2 == 0 then some (.vmov (w.extractLsb' 9 6) (w.extractLsb' 15 6)) else none
  | 9 => if w.extractLsb' 20 1 == 0 then (thirdOf w).map fun third => .vbcast (w.extractLsb' 9 6) (w.extractLsb' 15 5) third else none
  | 10 => if w.extractLsb' 26 1 == 0 && w.extractLsb' 7 2 == 2 then some (.vtag (w.extractLsb' 9 6) (w.extractLsb' 15 6) (w.extractLsb' 21 5)) else none
  | 11 => if w.extractLsb' 21 6 == 0 && w.extractLsb' 7 2 == 0 then some (.vsxnorm (w.extractLsb' 9 6) (w.extractLsb' 15 6)) else none
  | _ => none

/-- Major opcode 0x22 (R83). -/
def decodeVCmp (w : BitVec 32) : Option Instr :=
  match (w.extractLsb' 27 5).toNat with
  | 0 => if w.extractLsb' 13 2 == 0 then (thirdOf w).map fun third => .vcmpeq (w.extractLsb' 9 4) (w.extractLsb' 15 6) third else none
  | 1 => if w.extractLsb' 13 2 == 0 then (thirdOf w).map fun third => .vcmpne (w.extractLsb' 9 4) (w.extractLsb' 15 6) third else none
  | 2 => if w.extractLsb' 13 2 == 0 then (thirdOf w).map fun third => .vcmplt (w.extractLsb' 9 4) (w.extractLsb' 15 6) third else none
  | 3 => if w.extractLsb' 13 2 == 0 then (thirdOf w).map fun third => .vcmple (w.extractLsb' 9 4) (w.extractLsb' 15 6) third else none
  | 4 => if w.extractLsb' 13 2 == 0 then (thirdOf w).map fun third => .vcmpgt (w.extractLsb' 9 4) (w.extractLsb' 15 6) third else none
  | 5 => if w.extractLsb' 13 2 == 0 then (thirdOf w).map fun third => .vcmpge (w.extractLsb' 9 4) (w.extractLsb' 15 6) third else none
  | 6 => if w.extractLsb' 13 2 == 0 then (thirdOf w).map fun third => .vcmpun (w.extractLsb' 9 4) (w.extractLsb' 15 6) third else none
  | _ => none

/-- Major opcode 0x23 (R83). -/
def decodeVCvt (w : BitVec 32) : Option Instr :=
  match (w.extractLsb' 7 2).toNat with
  | 2 => if w.extractLsb' 26 1 == 0 then some (.vcvt (w.extractLsb' 9 6) (w.extractLsb' 15 6) (w.extractLsb' 21 5) (w.extractLsb' 27 3) (w.extractLsb' 30 2)) else none
  | 0 => some (.vcvtsc (w.extractLsb' 9 6) (w.extractLsb' 15 6) (w.extractLsb' 21 6) (w.extractLsb' 27 3) (w.extractLsb' 30 2))
  | _ => none

/-- Major opcode 0x24 (R83). -/
def decodeVPerm (w : BitVec 32) : Option Instr :=
  match (w.extractLsb' 27 5).toNat with
  | 0 => (thirdOf w).map fun third => .vslup (w.extractLsb' 9 6) (w.extractLsb' 15 6) third
  | 1 => (thirdOf w).map fun third => .vsldn (w.extractLsb' 9 6) (w.extractLsb' 15 6) third
  | 2 => if w.extractLsb' 26 1 == 0 && w.extractLsb' 7 2 == 1 then some (.vsl1up (w.extractLsb' 9 6) (w.extractLsb' 15 6) (w.extractLsb' 21 5)) else none
  | 3 => if w.extractLsb' 26 1 == 0 && w.extractLsb' 7 2 == 1 then some (.vsl1dn (w.extractLsb' 9 6) (w.extractLsb' 15 6) (w.extractLsb' 21 5)) else none
  | 4 => if w.extractLsb' 7 2 == 0 then some (.vperm (w.extractLsb' 9 6) (w.extractLsb' 15 6) (w.extractLsb' 21 6)) else none
  | 5 => if w.extractLsb' 25 2 == 0 && w.extractLsb' 7 2 == 0 then some (.vcomp (w.extractLsb' 9 6) (w.extractLsb' 15 6) (w.extractLsb' 21 4)) else none
  | 6 => if w.extractLsb' 25 2 == 0 && w.extractLsb' 20 1 == 0 && w.extractLsb' 7 2 == 0 then some (.viota (w.extractLsb' 9 6) (w.extractLsb' 15 5) (w.extractLsb' 21 4)) else none
  | 7 => (thirdOf w).map fun third => .vsel (w.extractLsb' 9 6) (w.extractLsb' 15 6) third
  | 8 => if w.extractLsb' 14 1 == 0 then (thirdOf w).map fun third => .vext (w.extractLsb' 9 5) (w.extractLsb' 15 6) third else none
  | 9 => if w.extractLsb' 20 1 == 0 then (thirdOf w).map fun third => .vins (w.extractLsb' 9 6) (w.extractLsb' 15 5) third else none
  | _ => none

/-- Major opcode 0x25 (R83). -/
def decodeVRed (w : BitVec 32) : Option Instr :=
  match (w.extractLsb' 27 5).toNat with
  | 0 => if w.extractLsb' 7 2 == 0 then some (.vredsumS (w.extractLsb' 9 6) (w.extractLsb' 15 6) (w.extractLsb' 21 6)) else none
  | 1 => if w.extractLsb' 7 2 == 0 then some (.vredsumF (w.extractLsb' 9 6) (w.extractLsb' 15 6) (w.extractLsb' 21 6)) else none
  | 2 => if w.extractLsb' 7 2 == 0 then some (.vredmax (w.extractLsb' 9 6) (w.extractLsb' 15 6) (w.extractLsb' 21 6)) else none
  | 3 => if w.extractLsb' 7 2 == 0 then some (.vredmin (w.extractLsb' 9 6) (w.extractLsb' 15 6) (w.extractLsb' 21 6)) else none
  | 4 => if w.extractLsb' 7 2 == 0 then some (.vredand (w.extractLsb' 9 6) (w.extractLsb' 15 6) (w.extractLsb' 21 6)) else none
  | 5 => if w.extractLsb' 7 2 == 0 then some (.vredor (w.extractLsb' 9 6) (w.extractLsb' 15 6) (w.extractLsb' 21 6)) else none
  | 6 => if w.extractLsb' 7 2 == 0 then some (.vredxor (w.extractLsb' 9 6) (w.extractLsb' 15 6) (w.extractLsb' 21 6)) else none
  | 7 => if w.extractLsb' 21 6 == 0 && w.extractLsb' 14 1 == 0 && w.extractLsb' 7 2 == 0 then some (.vargmax (w.extractLsb' 9 5) (w.extractLsb' 15 6)) else none
  | 8 => if w.extractLsb' 21 6 == 0 && w.extractLsb' 14 1 == 0 && w.extractLsb' 7 2 == 0 then some (.vargmin (w.extractLsb' 9 5) (w.extractLsb' 15 6)) else none
  | _ => none

/-- Major opcode 0x26 (R83). -/
def decodeVBest (w : BitVec 32) : Option Instr :=
  match (w.extractLsb' 31 1).toNat with
  | 0 => some (.vbestMax (w.extractLsb' 7 6) (w.extractLsb' 13 6) (w.extractLsb' 19 6) (w.extractLsb' 25 6))
  | 1 => some (.vbestMin (w.extractLsb' 7 6) (w.extractLsb' 13 6) (w.extractLsb' 19 6) (w.extractLsb' 25 6))
  | _ => none

/-- Major opcode 0x27 (R83). -/
def decodeMask (w : BitVec 32) : Option Instr :=
  match (w.extractLsb' 27 5).toNat with
  | 0 => if w.extractLsb' 25 2 == 0 && w.extractLsb' 19 2 == 0 && w.extractLsb' 13 2 == 0 && w.extractLsb' 7 2 == 0 then some (.mand (w.extractLsb' 9 4) (w.extractLsb' 15 4) (w.extractLsb' 21 4)) else none
  | 1 => if w.extractLsb' 25 2 == 0 && w.extractLsb' 19 2 == 0 && w.extractLsb' 13 2 == 0 && w.extractLsb' 7 2 == 0 then some (.mor (w.extractLsb' 9 4) (w.extractLsb' 15 4) (w.extractLsb' 21 4)) else none
  | 2 => if w.extractLsb' 25 2 == 0 && w.extractLsb' 19 2 == 0 && w.extractLsb' 13 2 == 0 && w.extractLsb' 7 2 == 0 then some (.mxor (w.extractLsb' 9 4) (w.extractLsb' 15 4) (w.extractLsb' 21 4)) else none
  | 3 => if w.extractLsb' 25 2 == 0 && w.extractLsb' 19 2 == 0 && w.extractLsb' 13 2 == 0 && w.extractLsb' 7 2 == 0 then some (.mandn (w.extractLsb' 9 4) (w.extractLsb' 15 4) (w.extractLsb' 21 4)) else none
  | 4 => if w.extractLsb' 21 6 == 0 && w.extractLsb' 19 2 == 0 && w.extractLsb' 13 2 == 0 && w.extractLsb' 7 2 == 0 then some (.mnot (w.extractLsb' 9 4) (w.extractLsb' 15 4)) else none
  | 5 => if w.extractLsb' 21 6 == 0 && w.extractLsb' 19 2 == 0 && w.extractLsb' 13 2 == 0 && w.extractLsb' 7 2 == 0 then some (.mmov (w.extractLsb' 9 4) (w.extractLsb' 15 4)) else none
  | 6 => if w.extractLsb' 21 6 == 0 && w.extractLsb' 19 2 == 0 && w.extractLsb' 14 1 == 0 && w.extractLsb' 7 2 == 0 then some (.mpopc (w.extractLsb' 9 5) (w.extractLsb' 15 4)) else none
  | 7 => if w.extractLsb' 21 6 == 0 && w.extractLsb' 19 2 == 0 && w.extractLsb' 14 1 == 0 && w.extractLsb' 7 2 == 0 then some (.mfirst (w.extractLsb' 9 5) (w.extractLsb' 15 4)) else none
  | 8 => if w.extractLsb' 21 6 == 0 && w.extractLsb' 15 6 == 0 && w.extractLsb' 13 2 == 0 && w.extractLsb' 7 2 == 0 then some (.msetall (w.extractLsb' 9 4)) else none
  | 9 => if w.extractLsb' 21 6 == 0 && w.extractLsb' 15 6 == 0 && w.extractLsb' 13 2 == 0 && w.extractLsb' 7 2 == 0 then some (.mclr (w.extractLsb' 9 4)) else none
  | _ => none

/-- Major opcode 0x40 (R83). -/
def decodeLoop (w : BitVec 32) : Option Instr :=
  match (w.extractLsb' 29 3).toNat with
  | 0 => if w.extractLsb' 7 5 == 0 then some (.loop (w.extractLsb' 12 5) (w.extractLsb' 17 12)) else none
  | 1 => if w.extractLsb' 7 5 == 0 then some (.loopi (w.extractLsb' 12 5) (w.extractLsb' 17 12)) else none
  | 2 => if w.extractLsb' 19 10 == 0 then some (.setvl (w.extractLsb' 7 5) (w.extractLsb' 12 5) (w.extractLsb' 17 2)) else none
  | _ => none

/-- Major opcode 0x48 (R83). -/
def decodeTile (w : BitVec 32) : Option Instr :=
  match (w.extractLsb' 25 7).toNat with
  | 0 => if w.extractLsb' 15 1 == 0 && w.extractLsb' 16 6 == 0 && w.extractLsb' 22 3 == 0 then some (.tcfg (w.extractLsb' 7 3) (w.extractLsb' 10 5)) else none
  | 1 => if w.extractLsb' 10 6 == 0 && w.extractLsb' 16 6 == 0 && w.extractLsb' 22 3 == 0 then some (.trel (w.extractLsb' 7 3)) else none
  | 2 => if w.extractLsb' 10 6 == 0 && w.extractLsb' 16 6 == 0 && w.extractLsb' 22 3 == 0 then some (.tzero (w.extractLsb' 7 3)) else none
  | 3 => if w.extractLsb' 22 3 == 0 then some (.topa (w.extractLsb' 7 3) (w.extractLsb' 10 6) (w.extractLsb' 16 6)) else none
  | 4 => if w.extractLsb' 22 3 == 0 then some (.tops (w.extractLsb' 7 3) (w.extractLsb' 10 6) (w.extractLsb' 16 6)) else none
  | 5 => if w.extractLsb' 22 3 == 0 then some (.tmv (w.extractLsb' 7 3) (w.extractLsb' 10 6) (w.extractLsb' 16 6)) else none
  | 6 => if w.extractLsb' 22 3 == 0 then some (.tmvt (w.extractLsb' 7 3) (w.extractLsb' 10 6) (w.extractLsb' 16 6)) else none
  | 7 => if w.extractLsb' 15 1 == 0 && w.extractLsb' 16 6 == 0 then some (.tmmaS (w.extractLsb' 7 3) (w.extractLsb' 10 5) (w.extractLsb' 22 3)) else none
  | 8 => if w.extractLsb' 15 1 == 0 && w.extractLsb' 16 6 == 0 then some (.tmmaF (w.extractLsb' 7 3) (w.extractLsb' 10 5) (w.extractLsb' 22 3)) else none
  | 9 => if w.extractLsb' 10 6 == 0 && w.extractLsb' 16 6 == 0 && w.extractLsb' 22 3 == 0 then some (.trecomp (w.extractLsb' 7 3)) else none
  | 10 => if w.extractLsb' 10 6 == 0 && w.extractLsb' 16 6 == 0 && w.extractLsb' 22 3 == 0 then some (.tdense (w.extractLsb' 7 3)) else none
  | 11 => if w.extractLsb' 15 1 == 0 && w.extractLsb' 16 6 == 0 && w.extractLsb' 22 3 == 0 then some (.trank (w.extractLsb' 7 3) (w.extractLsb' 10 5)) else none
  | 12 => if w.extractLsb' 21 1 == 0 && w.extractLsb' 22 3 == 0 then some (.trdrow (w.extractLsb' 7 3) (w.extractLsb' 10 6) (w.extractLsb' 16 5)) else none
  | 13 => if w.extractLsb' 21 1 == 0 && w.extractLsb' 22 3 == 0 then some (.twrrow (w.extractLsb' 7 3) (w.extractLsb' 10 6) (w.extractLsb' 16 5)) else none
  | 14 => if w.extractLsb' 15 1 == 0 && w.extractLsb' 16 6 == 0 && w.extractLsb' 22 3 == 0 then some (.tsave (w.extractLsb' 7 3) (w.extractLsb' 10 5)) else none
  | 15 => if w.extractLsb' 15 1 == 0 && w.extractLsb' 16 6 == 0 && w.extractLsb' 22 3 == 0 then some (.tload (w.extractLsb' 7 3) (w.extractLsb' 10 5)) else none
  | 16 => if w.extractLsb' 16 6 == 0 && w.extractLsb' 22 3 == 0 then some (.tscale (w.extractLsb' 7 3) (w.extractLsb' 10 6)) else none
  | 17 => if w.extractLsb' 10 6 == 0 && w.extractLsb' 16 6 == 0 then some (.tadd (w.extractLsb' 7 3) (w.extractLsb' 22 3)) else none
  | _ => none

/-- Major opcode 0x50 (R83). -/
def decodeVMem (w : BitVec 32) : Option Instr :=
  match (w.extractLsb' 27 5).toNat with
  | 0 => if w.extractLsb' 18 6 == 0 then some (.vld (w.extractLsb' 7 6) (w.extractLsb' 13 5) (w.extractLsb' 24 3)) else none
  | 1 => if w.extractLsb' 18 6 == 0 then some (.vlds (w.extractLsb' 7 6) (w.extractLsb' 13 5) (w.extractLsb' 24 3)) else none
  | 2 => some (.vldx (w.extractLsb' 7 6) (w.extractLsb' 13 5) (w.extractLsb' 18 6) (w.extractLsb' 24 3))
  | 3 => if w.extractLsb' 18 6 == 0 then some (.vldff (w.extractLsb' 7 6) (w.extractLsb' 13 5) (w.extractLsb' 24 3)) else none
  | 4 => if w.extractLsb' 18 6 == 0 then some (.vst (w.extractLsb' 7 6) (w.extractLsb' 13 5) (w.extractLsb' 24 3)) else none
  | 5 => if w.extractLsb' 18 6 == 0 then some (.vsts (w.extractLsb' 7 6) (w.extractLsb' 13 5) (w.extractLsb' 24 3)) else none
  | 6 => some (.vstx (w.extractLsb' 7 6) (w.extractLsb' 13 5) (w.extractLsb' 18 6) (w.extractLsb' 24 3))
  | 7 => some (.vamoaddf (w.extractLsb' 7 6) (w.extractLsb' 13 5) (w.extractLsb' 18 6) (w.extractLsb' 24 3))
  | _ => none

/-- Major opcode 0x51 (R83). -/
def decodeVSave (w : BitVec 32) : Option Instr :=
  match (w.extractLsb' 27 5).toNat with
  | 0 => if w.extractLsb' 18 6 == 0 then some (.vsave (w.extractLsb' 7 6) (w.extractLsb' 13 5) (w.extractLsb' 24 3)) else none
  | 1 => if w.extractLsb' 18 6 == 0 then some (.vrestore (w.extractLsb' 7 6) (w.extractLsb' 13 5) (w.extractLsb' 24 3)) else none
  | 2 => if w.extractLsb' 18 6 == 0 && w.extractLsb' 11 2 == 0 then some (.msave (w.extractLsb' 7 4) (w.extractLsb' 13 5) (w.extractLsb' 24 3)) else none
  | 3 => if w.extractLsb' 18 6 == 0 && w.extractLsb' 11 2 == 0 then some (.mrestore (w.extractLsb' 7 4) (w.extractLsb' 13 5) (w.extractLsb' 24 3)) else none
  | _ => none

/-- Major opcode 0x52 (R83). -/
def decodeRing (w : BitVec 32) : Option Instr :=
  match (w.extractLsb' 22 10).toNat with
  | 0 => some (.ring (w.extractLsb' 7 5) (w.extractLsb' 12 5) (w.extractLsb' 17 5))
  | _ => none

/-- Major opcode 0x58 (R83). -/
def decodeAmo (w : BitVec 32) : Option Instr :=
  match (w.extractLsb' 22 4).toNat with
  | 0 => some (.amoadd (w.extractLsb' 7 5) (w.extractLsb' 12 5) (w.extractLsb' 17 5) (w.extractLsb' 26 1) (w.extractLsb' 27 1) (w.extractLsb' 28 1) (w.extractLsb' 29 3))
  | 1 => some (.amoaddf (w.extractLsb' 7 5) (w.extractLsb' 12 5) (w.extractLsb' 17 5) (w.extractLsb' 26 1) (w.extractLsb' 27 1) (w.extractLsb' 28 1) (w.extractLsb' 29 3))
  | 2 => some (.amoand (w.extractLsb' 7 5) (w.extractLsb' 12 5) (w.extractLsb' 17 5) (w.extractLsb' 26 1) (w.extractLsb' 27 1) (w.extractLsb' 28 1) (w.extractLsb' 29 3))
  | 3 => some (.amoor (w.extractLsb' 7 5) (w.extractLsb' 12 5) (w.extractLsb' 17 5) (w.extractLsb' 26 1) (w.extractLsb' 27 1) (w.extractLsb' 28 1) (w.extractLsb' 29 3))
  | 4 => some (.amoxor (w.extractLsb' 7 5) (w.extractLsb' 12 5) (w.extractLsb' 17 5) (w.extractLsb' 26 1) (w.extractLsb' 27 1) (w.extractLsb' 28 1) (w.extractLsb' 29 3))
  | 5 => some (.amomax (w.extractLsb' 7 5) (w.extractLsb' 12 5) (w.extractLsb' 17 5) (w.extractLsb' 26 1) (w.extractLsb' 27 1) (w.extractLsb' 28 1) (w.extractLsb' 29 3))
  | 6 => some (.amomin (w.extractLsb' 7 5) (w.extractLsb' 12 5) (w.extractLsb' 17 5) (w.extractLsb' 26 1) (w.extractLsb' 27 1) (w.extractLsb' 28 1) (w.extractLsb' 29 3))
  | 7 => some (.amomaxu (w.extractLsb' 7 5) (w.extractLsb' 12 5) (w.extractLsb' 17 5) (w.extractLsb' 26 1) (w.extractLsb' 27 1) (w.extractLsb' 28 1) (w.extractLsb' 29 3))
  | 8 => some (.amominu (w.extractLsb' 7 5) (w.extractLsb' 12 5) (w.extractLsb' 17 5) (w.extractLsb' 26 1) (w.extractLsb' 27 1) (w.extractLsb' 28 1) (w.extractLsb' 29 3))
  | 9 => some (.amoswap (w.extractLsb' 7 5) (w.extractLsb' 12 5) (w.extractLsb' 17 5) (w.extractLsb' 26 1) (w.extractLsb' 27 1) (w.extractLsb' 28 1) (w.extractLsb' 29 3))
  | 10 => some (.amocas (w.extractLsb' 7 5) (w.extractLsb' 12 5) (w.extractLsb' 17 5) (w.extractLsb' 26 1) (w.extractLsb' 27 1) (w.extractLsb' 28 1) (w.extractLsb' 29 3))
  | _ => none

/-- Major opcode 0x59 (R83). -/
def decodeFence (w : BitVec 32) : Option Instr :=
  match (w.extractLsb' 22 3).toNat with
  | 0 => if w.extractLsb' 28 4 == 0 && w.extractLsb' 17 5 == 0 && w.extractLsb' 12 5 == 0 && w.extractLsb' 7 5 == 0 then some (.fence (w.extractLsb' 25 3)) else none
  | 1 => if w.extractLsb' 28 4 == 0 && w.extractLsb' 17 5 == 0 && w.extractLsb' 12 5 == 0 && w.extractLsb' 7 5 == 0 then some (.vfence (w.extractLsb' 25 3)) else none
  | 2 => if w.extractLsb' 25 7 == 0 && w.extractLsb' 17 5 == 0 then some (.vfenceBar (w.extractLsb' 7 5) (w.extractLsb' 12 5)) else none
  | 3 => if w.extractLsb' 25 7 == 0 && w.extractLsb' 7 5 == 0 then some (.barwait (w.extractLsb' 12 5) (w.extractLsb' 17 5)) else none
  | 4 => if w.extractLsb' 25 7 == 0 then some (.barcfg (w.extractLsb' 7 5) (w.extractLsb' 12 5) (w.extractLsb' 17 5)) else none
  | _ => none

/-- Major opcode 0x5C (R83). -/
def decodeCmStore (w : BitVec 32) : Option Instr :=
  match (w.extractLsb' 27 5).toNat with
  | 0 => if w.extractLsb' 24 3 == 0 && w.extractLsb' 18 6 == 0 then some (.cmst (w.extractLsb' 7 6) (w.extractLsb' 13 5)) else none
  | 1 => if w.extractLsb' 24 3 == 0 then some (.cmstx (w.extractLsb' 7 6) (w.extractLsb' 13 5) (w.extractLsb' 18 6)) else none
  | 2 => if w.extractLsb' 24 3 == 0 && w.extractLsb' 18 6 == 0 && w.extractLsb' 12 1 == 0 then some (.cmzero (w.extractLsb' 7 5) (w.extractLsb' 13 5)) else none
  | _ => none

/-- Major opcode 0x5D (R83). -/
def decodeQuery (w : BitVec 32) : Option Instr :=
  match (w.extractLsb' 28 4).toNat with
  | 0 => some (.qdot (w.extractLsb' 7 5) (w.extractLsb' 12 5) (w.extractLsb' 17 6) (w.extractLsb' 23 5))
  | 1 => if w.extractLsb' 17 6 == 0 then some (.qfsum (w.extractLsb' 7 5) (w.extractLsb' 12 5) (w.extractLsb' 23 5)) else none
  | 2 => some (.qwsum (w.extractLsb' 7 5) (w.extractLsb' 12 5) (w.extractLsb' 17 6) (w.extractLsb' 23 5))
  | 3 => if w.extractLsb' 17 6 == 0 then some (.qmax (w.extractLsb' 7 5) (w.extractLsb' 12 5) (w.extractLsb' 23 5)) else none
  | 4 => if w.extractLsb' 17 6 == 0 then some (.qmin (w.extractLsb' 7 5) (w.extractLsb' 12 5) (w.extractLsb' 23 5)) else none
  | 5 => some (.qwin (w.extractLsb' 7 5) (w.extractLsb' 12 5) (w.extractLsb' 17 6) (w.extractLsb' 23 5))
  | 6 => some (.qbscore (w.extractLsb' 7 5) (w.extractLsb' 12 5) (w.extractLsb' 17 6) (w.extractLsb' 23 5))
  | 7 => if w.extractLsb' 17 6 == 0 then some (.qcount (w.extractLsb' 7 5) (w.extractLsb' 12 5) (w.extractLsb' 23 5)) else none
  | 8 => some (.qcust (w.extractLsb' 7 5) (w.extractLsb' 12 5) (w.extractLsb' 17 6) (w.extractLsb' 23 5))
  | _ => none

/-- Major opcode 0x5E (R83). -/
def decodeCmMove (w : BitVec 32) : Option Instr :=
  match (w.extractLsb' 22 10).toNat with
  | 0 => some (.cmmov (w.extractLsb' 7 5) (w.extractLsb' 12 5) (w.extractLsb' 17 5))
  | 1 => some (.cmseal (w.extractLsb' 7 5) (w.extractLsb' 12 5) (w.extractLsb' 17 5))
  | 2 => some (.cmopen (w.extractLsb' 7 5) (w.extractLsb' 12 5) (w.extractLsb' 17 5))
  | _ => none

/-- Major opcode 0x64 (R83). -/
def decodeSheaf (w : BitVec 32) : Option Instr :=
  match (w.extractLsb' 27 5).toNat with
  | 0 => if w.extractLsb' 7 2 == 0 then some (.shpush (w.extractLsb' 9 6) (w.extractLsb' 15 6) (w.extractLsb' 21 6)) else none
  | 1 => if w.extractLsb' 22 5 == 0 then some (.shwait (w.extractLsb' 7 5) (w.extractLsb' 12 5) (w.extractLsb' 17 5)) else none
  | 2 => if w.extractLsb' 22 5 == 0 && w.extractLsb' 17 5 == 0 then some (.shdone (w.extractLsb' 7 5) (w.extractLsb' 12 5)) else none
  | 3 => if w.extractLsb' 22 5 == 0 then
      if w.extractLsb' 17 5 == 0 then some (.shcfgDrain (w.extractLsb' 7 5) (w.extractLsb' 12 5))
      else some (.shcfg (w.extractLsb' 7 5) (w.extractLsb' 12 5) (w.extractLsb' 17 5))
    else none
  | 4 => if w.extractLsb' 22 5 == 0 && w.extractLsb' 17 5 == 0 then some (.shstat (w.extractLsb' 7 5) (w.extractLsb' 12 5)) else none
  | _ => none

/-- Major opcode 0x65 (R83). -/
def decodeVSend (w : BitVec 32) : Option Instr :=
  match (w.extractLsb' 27 5).toNat with
  | 0 => if w.extractLsb' 26 1 == 0 && w.extractLsb' 7 2 == 1 then some (.vsend (w.extractLsb' 9 6) (w.extractLsb' 15 6) (w.extractLsb' 21 5)) else none
  | _ => none

/-- Major opcode 0x66 (R83). -/
def decodeJob (w : BitVec 32) : Option Instr :=
  match (w.extractLsb' 22 10).toNat with
  | 0 => if w.extractLsb' 17 5 == 0 then some (.job (w.extractLsb' 7 5) (w.extractLsb' 12 5)) else none
  | 1 => if w.extractLsb' 17 5 == 0 then some (.jobchk (w.extractLsb' 7 5) (w.extractLsb' 12 5)) else none
  | _ => none

/-- The word's fields as the opcode map lays them out, before the checks of register numbers and codes. -/
def decodeFields (w : BitVec 32) : Option Instr :=
  match (w.extractLsb' 0 7).toNat with
  | 0x01 => decodeIntReg w
  | 0x02 => decodeBits w
  | 0x03 => some (.addi (w.extractLsb' 7 5) (w.extractLsb' 12 5) (w.extractLsb' 17 15))
  | 0x04 => some (.andi (w.extractLsb' 7 5) (w.extractLsb' 12 5) (w.extractLsb' 17 15))
  | 0x05 => some (.ori (w.extractLsb' 7 5) (w.extractLsb' 12 5) (w.extractLsb' 17 15))
  | 0x06 => some (.xori (w.extractLsb' 7 5) (w.extractLsb' 12 5) (w.extractLsb' 17 15))
  | 0x07 => some (.slti (w.extractLsb' 7 5) (w.extractLsb' 12 5) (w.extractLsb' 17 15))
  | 0x08 => decodeShift w
  | 0x09 => some (.lui (w.extractLsb' 7 5) (w.extractLsb' 12 20))
  | 0x0A => some (.addpc (w.extractLsb' 7 5) (w.extractLsb' 12 20))
  | 0x0B => decodeFp w
  | 0x10 => decodeBranch w
  | 0x11 => decodeMaskBranch w
  | 0x12 => some (.jal (w.extractLsb' 7 5) (w.extractLsb' 12 20))
  | 0x13 => some (.jalr (w.extractLsb' 7 5) (w.extractLsb' 12 5) (w.extractLsb' 17 15))
  | 0x18 => decodeLoad w
  | 0x19 => decodeStore w
  | 0x1C => decodeCsr w
  | 0x1D => decodeSystem w
  | 0x20 => decodeVArith w
  | 0x21 => decodeVUnary w
  | 0x22 => decodeVCmp w
  | 0x23 => decodeVCvt w
  | 0x24 => decodeVPerm w
  | 0x25 => decodeVRed w
  | 0x26 => decodeVBest w
  | 0x27 => decodeMask w
  | 0x40 => decodeLoop w
  | 0x41 => some (.next (w.extractLsb' 7 5) (w.extractLsb' 12 20))
  | 0x48 => decodeTile w
  | 0x50 => decodeVMem w
  | 0x51 => decodeVSave w
  | 0x52 => decodeRing w
  | 0x58 => decodeAmo w
  | 0x59 => decodeFence w
  | 0x5C => decodeCmStore w
  | 0x5D => decodeQuery w
  | 0x5E => decodeCmMove w
  | 0x64 => decodeSheaf w
  | 0x65 => decodeVSend w
  | 0x66 => decodeJob w
  | 0x68 => some (.wait (w.extractLsb' 7 5) (w.extractLsb' 12 5) (w.extractLsb' 17 5) (w.extractLsb' 22 5) (w.extractLsb' 27 5))
  | _ => none

/-- The instruction that a word stands for; none for a word that is not an instruction (R87). -/
def decode (w : BitVec 32) : Option Instr :=
  (decodeFields w).filter Instr.wf

/-- The decoder over the bytes of an instruction, lowest address first (R3, R76). -/
def decodeBytes : List Byte → Option Instr
  | [b0, b1, b2, b3] => decode (b3 ++ b2 ++ b1 ++ b0)
  | _ => none

/-- The instruction read from a word of the opcode table; its row has one word of 32 bits. -/
def decodeTableWord (_nbits w : Nat) : Option Instr :=
  let word : BitVec 32 := BitVec.ofNat 32 w
  decodeBytes [word.extractLsb' 0 8, word.extractLsb' 8 8, word.extractLsb' 16 8, word.extractLsb' 24 8]

/-- Bits 26:21 of format V for a third operand (R81). -/
def Third.bits : Third → BitVec 6
  | .vv vb => vb
  | .vx xb => (0#1 ++ xb : BitVec 6)
  | .vi imm => imm

/-- The form field of a third operand (R81). -/
def Third.form : Third → BitVec 2
  | .vv _ => 0
  | .vx _ => 1
  | .vi _ => 2

/-- The word of an instruction, field by field from bit 31 down; none for an event, which has no word. -/
def encode : Instr → Option (BitVec 32)
  | .add xd xa xb => some (0#10 ++ xb ++ xa ++ xd ++ 1#7)
  | .sub xd xa xb => some (1#10 ++ xb ++ xa ++ xd ++ 1#7)
  | .and xd xa xb => some (2#10 ++ xb ++ xa ++ xd ++ 1#7)
  | .or xd xa xb => some (3#10 ++ xb ++ xa ++ xd ++ 1#7)
  | .xor xd xa xb => some (4#10 ++ xb ++ xa ++ xd ++ 1#7)
  | .sll xd xa xb => some (5#10 ++ xb ++ xa ++ xd ++ 1#7)
  | .srl xd xa xb => some (6#10 ++ xb ++ xa ++ xd ++ 1#7)
  | .sra xd xa xb => some (7#10 ++ xb ++ xa ++ xd ++ 1#7)
  | .slt xd xa xb => some (8#10 ++ xb ++ xa ++ xd ++ 1#7)
  | .sltu xd xa xb => some (9#10 ++ xb ++ xa ++ xd ++ 1#7)
  | .min xd xa xb => some (10#10 ++ xb ++ xa ++ xd ++ 1#7)
  | .max xd xa xb => some (11#10 ++ xb ++ xa ++ xd ++ 1#7)
  | .minu xd xa xb => some (12#10 ++ xb ++ xa ++ xd ++ 1#7)
  | .maxu xd xa xb => some (13#10 ++ xb ++ xa ++ xd ++ 1#7)
  | .mul xd xa xb => some (14#10 ++ xb ++ xa ++ xd ++ 1#7)
  | .mulh xd xa xb => some (15#10 ++ xb ++ xa ++ xd ++ 1#7)
  | .mulhu xd xa xb => some (16#10 ++ xb ++ xa ++ xd ++ 1#7)
  | .div xd xa xb => some (17#10 ++ xb ++ xa ++ xd ++ 1#7)
  | .divu xd xa xb => some (18#10 ++ xb ++ xa ++ xd ++ 1#7)
  | .rem xd xa xb => some (19#10 ++ xb ++ xa ++ xd ++ 1#7)
  | .remu xd xa xb => some (20#10 ++ xb ++ xa ++ xd ++ 1#7)
  | .csel xd xa xb => some (21#10 ++ xb ++ xa ++ xd ++ 1#7)
  | .clz xd xa => some (0#10 ++ 0#5 ++ xa ++ xd ++ 2#7)
  | .ctz xd xa => some (1#10 ++ 0#5 ++ xa ++ xd ++ 2#7)
  | .popc xd xa => some (2#10 ++ 0#5 ++ xa ++ xd ++ 2#7)
  | .bswap xd xa => some (3#10 ++ 0#5 ++ xa ++ xd ++ 2#7)
  | .addi xd xa imm => some (imm ++ xa ++ xd ++ 3#7)
  | .andi xd xa imm => some (imm ++ xa ++ xd ++ 4#7)
  | .ori xd xa imm => some (imm ++ xa ++ xd ++ 5#7)
  | .xori xd xa imm => some (imm ++ xa ++ xd ++ 6#7)
  | .slti xd xa imm => some (imm ++ xa ++ xd ++ 7#7)
  | .slli xd xa n => some (0#3 ++ 0#6 ++ n ++ xa ++ xd ++ 8#7)
  | .srli xd xa n => some (1#3 ++ 0#6 ++ n ++ xa ++ xd ++ 8#7)
  | .srai xd xa n => some (2#3 ++ 0#6 ++ n ++ xa ++ xd ++ 8#7)
  | .sext xd xa n => some (3#3 ++ 0#6 ++ n ++ xa ++ xd ++ 8#7)
  | .zext xd xa n => some (4#3 ++ 0#6 ++ n ++ xa ++ xd ++ 8#7)
  | .lui xd imm => some (imm ++ xd ++ 9#7)
  | .addpc xd imm => some (imm ++ xd ++ 10#7)
  | .fadd p rm xd xa xb => some (p ++ 0#2 ++ rm ++ 0#4 ++ xb ++ xa ++ xd ++ 11#7)
  | .fsub p rm xd xa xb => some (p ++ 0#2 ++ rm ++ 1#4 ++ xb ++ xa ++ xd ++ 11#7)
  | .fmul p rm xd xa xb => some (p ++ 0#2 ++ rm ++ 2#4 ++ xb ++ xa ++ xd ++ 11#7)
  | .fdiv p rm xd xa xb => some (p ++ 0#2 ++ rm ++ 3#4 ++ xb ++ xa ++ xd ++ 11#7)
  | .fsqrt p rm xd xa => some (p ++ 0#2 ++ rm ++ 4#4 ++ 0#5 ++ xa ++ xd ++ 11#7)
  | .fmin p xd xa xb => some (p ++ 0#2 ++ 0#3 ++ 5#4 ++ xb ++ xa ++ xd ++ 11#7)
  | .fmax p xd xa xb => some (p ++ 0#2 ++ 0#3 ++ 6#4 ++ xb ++ xa ++ xd ++ 11#7)
  | .fmac p rm xd xa xb => some (p ++ 0#2 ++ rm ++ 7#4 ++ xb ++ xa ++ xd ++ 11#7)
  | .feq p xd xa xb => some (p ++ 0#2 ++ 0#3 ++ 8#4 ++ xb ++ xa ++ xd ++ 11#7)
  | .flt p xd xa xb => some (p ++ 0#2 ++ 0#3 ++ 9#4 ++ xb ++ xa ++ xd ++ 11#7)
  | .fle p xd xa xb => some (p ++ 0#2 ++ 0#3 ++ 10#4 ++ xb ++ xa ++ xd ++ 11#7)
  | .fcvtfi p rm xd xa => some (p ++ 0#2 ++ rm ++ 11#4 ++ 0#5 ++ xa ++ xd ++ 11#7)
  | .fcvtif p rm xd xa => some (p ++ 0#2 ++ rm ++ 12#4 ++ 0#5 ++ xa ++ xd ++ 11#7)
  | .fcvtsd p rm xd xa => some (p ++ 0#2 ++ rm ++ 13#4 ++ 0#5 ++ xa ++ xd ++ 11#7)
  | .beq xa xb off => some (off ++ xb ++ xa ++ 0#3 ++ 16#7)
  | .bne xa xb off => some (off ++ xb ++ xa ++ 1#3 ++ 16#7)
  | .blt xa xb off => some (off ++ xb ++ xa ++ 2#3 ++ 16#7)
  | .bge xa xb off => some (off ++ xb ++ xa ++ 3#3 ++ 16#7)
  | .bltu xa xb off => some (off ++ xb ++ xa ++ 4#3 ++ 16#7)
  | .bgeu xa xb off => some (off ++ xb ++ xa ++ 5#3 ++ 16#7)
  | .bany ma off => some (off ++ 0#1 ++ ma ++ 0#3 ++ 17#7)
  | .ball ma off => some (off ++ 0#1 ++ ma ++ 1#3 ++ 17#7)
  | .bnone ma off => some (off ++ 0#1 ++ ma ++ 2#3 ++ 17#7)
  | .jal xd off => some (off ++ xd ++ 18#7)
  | .jalr xd xa imm => some (imm ++ xa ++ xd ++ 19#7)
  | .ldb xd xa imm => some (0#3 ++ imm ++ xa ++ xd ++ 24#7)
  | .ldh xd xa imm => some (1#3 ++ imm ++ xa ++ xd ++ 24#7)
  | .ldw xd xa imm => some (2#3 ++ imm ++ xa ++ xd ++ 24#7)
  | .ldd xd xa imm => some (3#3 ++ imm ++ xa ++ xd ++ 24#7)
  | .ldbz xd xa imm => some (4#3 ++ imm ++ xa ++ xd ++ 24#7)
  | .ldhz xd xa imm => some (5#3 ++ imm ++ xa ++ xd ++ 24#7)
  | .ldwz xd xa imm => some (6#3 ++ imm ++ xa ++ xd ++ 24#7)
  | .lda xd xa sc => some (7#3 ++ 0#9 ++ sc ++ xa ++ xd ++ 24#7)
  | .stb xs xa imm => some (0#3 ++ imm ++ xa ++ xs ++ 25#7)
  | .sth xs xa imm => some (1#3 ++ imm ++ xa ++ xs ++ 25#7)
  | .stw xs xa imm => some (2#3 ++ imm ++ xa ++ xs ++ 25#7)
  | .std xs xa imm => some (3#3 ++ imm ++ xa ++ xs ++ 25#7)
  | .strel xs xa sc => some (4#3 ++ 0#9 ++ sc ++ xa ++ xs ++ 25#7)
  | .csrr xd csr => some (0#3 ++ csr ++ 0#5 ++ xd ++ 28#7)
  | .csrw xd xa csr => some (1#3 ++ csr ++ xa ++ xd ++ 28#7)
  | .csrs xd xa csr => some (2#3 ++ csr ++ xa ++ xd ++ 28#7)
  | .csrc xd xa csr => some (3#3 ++ csr ++ xa ++ xd ++ 28#7)
  | .syscall => some (0#10 ++ 0#5 ++ 0#5 ++ 0#5 ++ 29#7)
  | .tret => some (1#10 ++ 0#5 ++ 0#5 ++ 0#5 ++ 29#7)
  | .brk => some (2#10 ++ 0#5 ++ 0#5 ++ 0#5 ++ 29#7)
  | .idle xa => some (3#10 ++ 0#5 ++ xa ++ 0#5 ++ 29#7)
  | .yield => some (4#10 ++ 0#5 ++ 0#5 ++ 0#5 ++ 29#7)
  | .exit => some (5#10 ++ 0#5 ++ 0#5 ++ 0#5 ++ 29#7)
  | .spawn xd xa => some (6#10 ++ 0#5 ++ xa ++ xd ++ 29#7)
  | .uiret => some (7#10 ++ 0#5 ++ 0#5 ++ 0#5 ++ 29#7)
  | .tlbinv xa xb => some (8#10 ++ xb ++ xa ++ 0#5 ++ 29#7)
  | .lgset xa => some (9#10 ++ 0#5 ++ xa ++ 0#5 ++ 29#7)
  | .vadd vd va b => some (0#5 ++ b.bits ++ va ++ vd ++ b.form ++ 32#7)
  | .vsub vd va b => some (1#5 ++ b.bits ++ va ++ vd ++ b.form ++ 32#7)
  | .vmul vd va b => some (2#5 ++ b.bits ++ va ++ vd ++ b.form ++ 32#7)
  | .vmulh vd va b => some (3#5 ++ b.bits ++ va ++ vd ++ b.form ++ 32#7)
  | .vdiv vd va b => some (4#5 ++ b.bits ++ va ++ vd ++ b.form ++ 32#7)
  | .vmin vd va b => some (5#5 ++ b.bits ++ va ++ vd ++ b.form ++ 32#7)
  | .vmax vd va b => some (6#5 ++ b.bits ++ va ++ vd ++ b.form ++ 32#7)
  | .vand vd va b => some (7#5 ++ b.bits ++ va ++ vd ++ b.form ++ 32#7)
  | .vor vd va b => some (8#5 ++ b.bits ++ va ++ vd ++ b.form ++ 32#7)
  | .vxor vd va b => some (9#5 ++ b.bits ++ va ++ vd ++ b.form ++ 32#7)
  | .vsll vd va b => some (10#5 ++ b.bits ++ va ++ vd ++ b.form ++ 32#7)
  | .vsrl vd va b => some (11#5 ++ b.bits ++ va ++ vd ++ b.form ++ 32#7)
  | .vsra vd va b => some (12#5 ++ b.bits ++ va ++ vd ++ b.form ++ 32#7)
  | .vadds vd va b => some (13#5 ++ b.bits ++ va ++ vd ++ b.form ++ 32#7)
  | .vsubs vd va b => some (14#5 ++ b.bits ++ va ++ vd ++ b.form ++ 32#7)
  | .vabsd vd va b => some (15#5 ++ b.bits ++ va ++ vd ++ b.form ++ 32#7)
  | .vmac vd va b => some (16#5 ++ b.bits ++ va ++ vd ++ b.form ++ 32#7)
  | .vnmac vd va b => some (17#5 ++ b.bits ++ va ++ vd ++ b.form ++ 32#7)
  | .vdot4 vd va vb => some (18#5 ++ vb ++ va ++ vd ++ 0#2 ++ 32#7)
  | .vneg vd va => some (0#5 ++ 0#6 ++ va ++ vd ++ 0#2 ++ 33#7)
  | .vabs vd va => some (1#5 ++ 0#6 ++ va ++ vd ++ 0#2 ++ 33#7)
  | .vsqrt vd va => some (2#5 ++ 0#6 ++ va ++ vd ++ 0#2 ++ 33#7)
  | .vrcp vd va => some (3#5 ++ 0#6 ++ va ++ vd ++ 0#2 ++ 33#7)
  | .vrsqrt vd va => some (4#5 ++ 0#6 ++ va ++ vd ++ 0#2 ++ 33#7)
  | .vexp2 vd va => some (5#5 ++ 0#6 ++ va ++ vd ++ 0#2 ++ 33#7)
  | .vlog2 vd va => some (6#5 ++ 0#6 ++ va ++ vd ++ 0#2 ++ 33#7)
  | .vclass vd va => some (7#5 ++ 0#6 ++ va ++ vd ++ 0#2 ++ 33#7)
  | .vmov vd va => some (8#5 ++ 0#6 ++ va ++ vd ++ 0#2 ++ 33#7)
  | .vbcast vd tag b => some (9#5 ++ b.bits ++ 0#1 ++ tag ++ vd ++ b.form ++ 33#7)
  | .vtag vd va tag => some (10#5 ++ 0#1 ++ tag ++ va ++ vd ++ 2#2 ++ 33#7)
  | .vsxnorm vd va => some (11#5 ++ 0#6 ++ va ++ vd ++ 0#2 ++ 33#7)
  | .vcmpeq md va b => some (0#5 ++ b.bits ++ va ++ 0#2 ++ md ++ b.form ++ 34#7)
  | .vcmpne md va b => some (1#5 ++ b.bits ++ va ++ 0#2 ++ md ++ b.form ++ 34#7)
  | .vcmplt md va b => some (2#5 ++ b.bits ++ va ++ 0#2 ++ md ++ b.form ++ 34#7)
  | .vcmple md va b => some (3#5 ++ b.bits ++ va ++ 0#2 ++ md ++ b.form ++ 34#7)
  | .vcmpgt md va b => some (4#5 ++ b.bits ++ va ++ 0#2 ++ md ++ b.form ++ 34#7)
  | .vcmpge md va b => some (5#5 ++ b.bits ++ va ++ 0#2 ++ md ++ b.form ++ 34#7)
  | .vcmpun md va b => some (6#5 ++ b.bits ++ va ++ 0#2 ++ md ++ b.form ++ 34#7)
  | .vcvt vd va tag rm part => some (part ++ rm ++ 0#1 ++ tag ++ va ++ vd ++ 2#2 ++ 35#7)
  | .vcvtsc vd va vb rm part => some (part ++ rm ++ vb ++ va ++ vd ++ 0#2 ++ 35#7)
  | .vslup vd va b => some (0#5 ++ b.bits ++ va ++ vd ++ b.form ++ 36#7)
  | .vsldn vd va b => some (1#5 ++ b.bits ++ va ++ vd ++ b.form ++ 36#7)
  | .vsl1up vd va xb => some (2#5 ++ 0#1 ++ xb ++ va ++ vd ++ 1#2 ++ 36#7)
  | .vsl1dn vd va xb => some (3#5 ++ 0#1 ++ xb ++ va ++ vd ++ 1#2 ++ 36#7)
  | .vperm vd va vb => some (4#5 ++ vb ++ va ++ vd ++ 0#2 ++ 36#7)
  | .vcomp vd va mb => some (5#5 ++ 0#2 ++ mb ++ va ++ vd ++ 0#2 ++ 36#7)
  | .viota vd tag mb => some (6#5 ++ 0#2 ++ mb ++ 0#1 ++ tag ++ vd ++ 0#2 ++ 36#7)
  | .vsel vd va b => some (7#5 ++ b.bits ++ va ++ vd ++ b.form ++ 36#7)
  | .vext xd va b => some (8#5 ++ b.bits ++ va ++ 0#1 ++ xd ++ b.form ++ 36#7)
  | .vins vd xa b => some (9#5 ++ b.bits ++ 0#1 ++ xa ++ vd ++ b.form ++ 36#7)
  | .vredsumS vd va vb => some (0#5 ++ vb ++ va ++ vd ++ 0#2 ++ 37#7)
  | .vredsumF vd va vb => some (1#5 ++ vb ++ va ++ vd ++ 0#2 ++ 37#7)
  | .vredmax vd va vb => some (2#5 ++ vb ++ va ++ vd ++ 0#2 ++ 37#7)
  | .vredmin vd va vb => some (3#5 ++ vb ++ va ++ vd ++ 0#2 ++ 37#7)
  | .vredand vd va vb => some (4#5 ++ vb ++ va ++ vd ++ 0#2 ++ 37#7)
  | .vredor vd va vb => some (5#5 ++ vb ++ va ++ vd ++ 0#2 ++ 37#7)
  | .vredxor vd va vb => some (6#5 ++ vb ++ va ++ vd ++ 0#2 ++ 37#7)
  | .vargmax xd va => some (7#5 ++ 0#6 ++ va ++ 0#1 ++ xd ++ 0#2 ++ 37#7)
  | .vargmin xd va => some (8#5 ++ 0#6 ++ va ++ 0#1 ++ xd ++ 0#2 ++ 37#7)
  | .vbestMax vv vi vcv vci => some (0#1 ++ vci ++ vcv ++ vi ++ vv ++ 38#7)
  | .vbestMin vv vi vcv vci => some (1#1 ++ vci ++ vcv ++ vi ++ vv ++ 38#7)
  | .mand md ma mb => some (0#5 ++ 0#2 ++ mb ++ 0#2 ++ ma ++ 0#2 ++ md ++ 0#2 ++ 39#7)
  | .mor md ma mb => some (1#5 ++ 0#2 ++ mb ++ 0#2 ++ ma ++ 0#2 ++ md ++ 0#2 ++ 39#7)
  | .mxor md ma mb => some (2#5 ++ 0#2 ++ mb ++ 0#2 ++ ma ++ 0#2 ++ md ++ 0#2 ++ 39#7)
  | .mandn md ma mb => some (3#5 ++ 0#2 ++ mb ++ 0#2 ++ ma ++ 0#2 ++ md ++ 0#2 ++ 39#7)
  | .mnot md ma => some (4#5 ++ 0#6 ++ 0#2 ++ ma ++ 0#2 ++ md ++ 0#2 ++ 39#7)
  | .mmov md ma => some (5#5 ++ 0#6 ++ 0#2 ++ ma ++ 0#2 ++ md ++ 0#2 ++ 39#7)
  | .mpopc xd ma => some (6#5 ++ 0#6 ++ 0#2 ++ ma ++ 0#1 ++ xd ++ 0#2 ++ 39#7)
  | .mfirst xd ma => some (7#5 ++ 0#6 ++ 0#2 ++ ma ++ 0#1 ++ xd ++ 0#2 ++ 39#7)
  | .msetall md => some (8#5 ++ 0#6 ++ 0#6 ++ 0#2 ++ md ++ 0#2 ++ 39#7)
  | .mclr md => some (9#5 ++ 0#6 ++ 0#6 ++ 0#2 ++ md ++ 0#2 ++ 39#7)
  | .loop xa off => some (0#3 ++ off ++ xa ++ 0#5 ++ 64#7)
  | .loopi xa off => some (1#3 ++ off ++ xa ++ 0#5 ++ 64#7)
  | .setvl xd xa w => some (2#3 ++ 0#10 ++ w ++ xa ++ xd ++ 64#7)
  | .next xd off => some (off ++ xd ++ 65#7)
  | .tcfg td xa => some (0#7 ++ 0#3 ++ 0#6 ++ 0#1 ++ xa ++ td ++ 72#7)
  | .trel td => some (1#7 ++ 0#3 ++ 0#6 ++ 0#6 ++ td ++ 72#7)
  | .tzero td => some (2#7 ++ 0#3 ++ 0#6 ++ 0#6 ++ td ++ 72#7)
  | .topa td va vb => some (3#7 ++ 0#3 ++ vb ++ va ++ td ++ 72#7)
  | .tops td va vb => some (4#7 ++ 0#3 ++ vb ++ va ++ td ++ 72#7)
  | .tmv td va vd => some (5#7 ++ 0#3 ++ vd ++ va ++ td ++ 72#7)
  | .tmvt td va vd => some (6#7 ++ 0#3 ++ vd ++ va ++ td ++ 72#7)
  | .tmmaS td xa ts => some (7#7 ++ ts ++ 0#6 ++ 0#1 ++ xa ++ td ++ 72#7)
  | .tmmaF td xa ts => some (8#7 ++ ts ++ 0#6 ++ 0#1 ++ xa ++ td ++ 72#7)
  | .trecomp td => some (9#7 ++ 0#3 ++ 0#6 ++ 0#6 ++ td ++ 72#7)
  | .tdense td => some (10#7 ++ 0#3 ++ 0#6 ++ 0#6 ++ td ++ 72#7)
  | .trank td xd => some (11#7 ++ 0#3 ++ 0#6 ++ 0#1 ++ xd ++ td ++ 72#7)
  | .trdrow td vd xb => some (12#7 ++ 0#3 ++ 0#1 ++ xb ++ vd ++ td ++ 72#7)
  | .twrrow td va xb => some (13#7 ++ 0#3 ++ 0#1 ++ xb ++ va ++ td ++ 72#7)
  | .tsave td xa => some (14#7 ++ 0#3 ++ 0#6 ++ 0#1 ++ xa ++ td ++ 72#7)
  | .tload td xa => some (15#7 ++ 0#3 ++ 0#6 ++ 0#1 ++ xa ++ td ++ 72#7)
  | .tscale td va => some (16#7 ++ 0#3 ++ 0#6 ++ va ++ td ++ 72#7)
  | .tadd td ts => some (17#7 ++ ts ++ 0#6 ++ 0#6 ++ td ++ 72#7)
  | .vld vr xa sc => some (0#5 ++ sc ++ 0#6 ++ xa ++ vr ++ 80#7)
  | .vlds vr xa sc => some (1#5 ++ sc ++ 0#6 ++ xa ++ vr ++ 80#7)
  | .vldx vr xa vi sc => some (2#5 ++ sc ++ vi ++ xa ++ vr ++ 80#7)
  | .vldff vr xa sc => some (3#5 ++ sc ++ 0#6 ++ xa ++ vr ++ 80#7)
  | .vst vr xa sc => some (4#5 ++ sc ++ 0#6 ++ xa ++ vr ++ 80#7)
  | .vsts vr xa sc => some (5#5 ++ sc ++ 0#6 ++ xa ++ vr ++ 80#7)
  | .vstx vr xa vi sc => some (6#5 ++ sc ++ vi ++ xa ++ vr ++ 80#7)
  | .vamoaddf vr xa vi sc => some (7#5 ++ sc ++ vi ++ xa ++ vr ++ 80#7)
  | .vsave vr xa sc => some (0#5 ++ sc ++ 0#6 ++ xa ++ vr ++ 81#7)
  | .vrestore vr xa sc => some (1#5 ++ sc ++ 0#6 ++ xa ++ vr ++ 81#7)
  | .msave mr xa sc => some (2#5 ++ sc ++ 0#6 ++ xa ++ 0#2 ++ mr ++ 81#7)
  | .mrestore mr xa sc => some (3#5 ++ sc ++ 0#6 ++ xa ++ 0#2 ++ mr ++ 81#7)
  | .ring xd xa xb => some (0#10 ++ xb ++ xa ++ xd ++ 82#7)
  | .amoadd xd xa xb sz aq rl sc => some (sc ++ rl ++ aq ++ sz ++ 0#4 ++ xb ++ xa ++ xd ++ 88#7)
  | .amoaddf xd xa xb sz aq rl sc => some (sc ++ rl ++ aq ++ sz ++ 1#4 ++ xb ++ xa ++ xd ++ 88#7)
  | .amoand xd xa xb sz aq rl sc => some (sc ++ rl ++ aq ++ sz ++ 2#4 ++ xb ++ xa ++ xd ++ 88#7)
  | .amoor xd xa xb sz aq rl sc => some (sc ++ rl ++ aq ++ sz ++ 3#4 ++ xb ++ xa ++ xd ++ 88#7)
  | .amoxor xd xa xb sz aq rl sc => some (sc ++ rl ++ aq ++ sz ++ 4#4 ++ xb ++ xa ++ xd ++ 88#7)
  | .amomax xd xa xb sz aq rl sc => some (sc ++ rl ++ aq ++ sz ++ 5#4 ++ xb ++ xa ++ xd ++ 88#7)
  | .amomin xd xa xb sz aq rl sc => some (sc ++ rl ++ aq ++ sz ++ 6#4 ++ xb ++ xa ++ xd ++ 88#7)
  | .amomaxu xd xa xb sz aq rl sc => some (sc ++ rl ++ aq ++ sz ++ 7#4 ++ xb ++ xa ++ xd ++ 88#7)
  | .amominu xd xa xb sz aq rl sc => some (sc ++ rl ++ aq ++ sz ++ 8#4 ++ xb ++ xa ++ xd ++ 88#7)
  | .amoswap xd xa xb sz aq rl sc => some (sc ++ rl ++ aq ++ sz ++ 9#4 ++ xb ++ xa ++ xd ++ 88#7)
  | .amocas xd xa xb sz aq rl sc => some (sc ++ rl ++ aq ++ sz ++ 10#4 ++ xb ++ xa ++ xd ++ 88#7)
  | .fence sc => some (0#4 ++ sc ++ 0#3 ++ 0#5 ++ 0#5 ++ 0#5 ++ 89#7)
  | .vfence sc => some (0#4 ++ sc ++ 1#3 ++ 0#5 ++ 0#5 ++ 0#5 ++ 89#7)
  | .vfenceBar xd xa => some (0#7 ++ 2#3 ++ 0#5 ++ xa ++ xd ++ 89#7)
  | .barwait xa xb => some (0#7 ++ 3#3 ++ xb ++ xa ++ 0#5 ++ 89#7)
  | .barcfg xd xa xb => some (0#7 ++ 4#3 ++ xb ++ xa ++ xd ++ 89#7)
  | .cmst vr xa => some (0#5 ++ 0#3 ++ 0#6 ++ xa ++ vr ++ 92#7)
  | .cmstx vr xa vi => some (1#5 ++ 0#3 ++ vi ++ xa ++ vr ++ 92#7)
  | .cmzero xn xa => some (2#5 ++ 0#3 ++ 0#6 ++ xa ++ 0#1 ++ xn ++ 92#7)
  | .qdot xd xdesc vq xreply => some (0#4 ++ xreply ++ vq ++ xdesc ++ xd ++ 93#7)
  | .qfsum xd xdesc xreply => some (1#4 ++ xreply ++ 0#6 ++ xdesc ++ xd ++ 93#7)
  | .qwsum xd xdesc vq xreply => some (2#4 ++ xreply ++ vq ++ xdesc ++ xd ++ 93#7)
  | .qmax xd xdesc xreply => some (3#4 ++ xreply ++ 0#6 ++ xdesc ++ xd ++ 93#7)
  | .qmin xd xdesc xreply => some (4#4 ++ xreply ++ 0#6 ++ xdesc ++ xd ++ 93#7)
  | .qwin xd xdesc vq xreply => some (5#4 ++ xreply ++ vq ++ xdesc ++ xd ++ 93#7)
  | .qbscore xd xdesc vq xreply => some (6#4 ++ xreply ++ vq ++ xdesc ++ xd ++ 93#7)
  | .qcount xd xdesc xreply => some (7#4 ++ xreply ++ 0#6 ++ xdesc ++ xd ++ 93#7)
  | .qcust xd xdesc vq xreply => some (8#4 ++ xreply ++ vq ++ xdesc ++ xd ++ 93#7)
  | .cmmov xd xa xb => some (0#10 ++ xb ++ xa ++ xd ++ 94#7)
  | .cmseal xd xa xb => some (1#10 ++ xb ++ xa ++ xd ++ 94#7)
  | .cmopen xd xa xb => some (2#10 ++ xb ++ xa ++ xd ++ 94#7)
  | .shpush vq vs vw => some (0#5 ++ vw ++ vs ++ vq ++ 0#2 ++ 100#7)
  | .shwait xd xa xb => some (1#5 ++ 0#5 ++ xb ++ xa ++ xd ++ 100#7)
  | .shdone xd xa => some (2#5 ++ 0#5 ++ 0#5 ++ xa ++ xd ++ 100#7)
  | .shcfg xd xa xb => some (3#5 ++ 0#5 ++ xb ++ xa ++ xd ++ 100#7)
  | .shcfgDrain xd xa => some (3#5 ++ 0#5 ++ 0#5 ++ xa ++ xd ++ 100#7)
  | .shstat xd xa => some (4#5 ++ 0#5 ++ 0#5 ++ xa ++ xd ++ 100#7)
  | .vsend vs va xb => some (0#5 ++ 0#1 ++ xb ++ va ++ vs ++ 1#2 ++ 101#7)
  | .job xd xa => some (0#10 ++ 0#5 ++ xa ++ xd ++ 102#7)
  | .jobchk xd xa => some (1#10 ++ 0#5 ++ xa ++ xd ++ 102#7)
  | .wait l s c t q => some (q ++ t ++ c ++ s ++ l ++ 104#7)
  | .hardPreemption _ => none
  | .laneShapeChange _ => none
  | .heddleGrant _ _ _ => none
  | .regionLaunch _ _ => none
  | .rcbCheck _ => none
  | .regionPlacement _ _ => none
  | .regionRetire _ => none
  | .rsTerminateRegion _ => none
  | .rsTerminateContext _ _ => none
  | .rsEvict _ => none
  | .terminationEnd _ => none
  | .waitReturn _ => none
  | .barwaitReturn _ => none
  | .barrierStall _ => none
  | .idleTimeout _ => none
  | .uiDelivery _ => none
  | .loadComplete _ => none
  | .storePerformed _ => none
  | .cmStorePerformed _ => none
  | .queryCompletion _ _ => none
  | .sheafAgeExpiry _ => none
  | .sheafFiring _ => none
  | .sheafDelivery _ => none
  | .jobStart _ _ => none
  | .jobCompletion _ _ => none
  | .tileMacroStep _ => none
  | .pageWalk _ _ => none
  | .walkComplete _ => none
  | .atomicRequest _ => none
  | .dieWriteArrival _ _ _ _ _ _ => none
  | .dieWriteDeliver _ => none
  | .cmInstall _ => none
  | .cmRemove _ => none
  | .cmRemoveDone => none
  | .cmReadBack _ => none
  | .cmmovDone _ => none
  | .cmsealDone _ => none
  | .cmopenDone _ => none
  | .activation _ _ => none
  | .trackerWindowClear => none
  | .refresh _ _ => none
  | .remapMove _ => none
  | .remapMoveEnd _ => none
  | .divisorChange _ => none
  | .computeModeEntry _ => none
  | .nlbExpiry _ => none
  | .normalModeRequest _ => none
  | .normalModeDone _ => none
  | .meshPacket _ _ => none
  | .tillerJob _ _ _ => none
  | .tillerDmaGo _ _ _ => none
  | .tillerDmaDone _ => none
  | .replypush _ _ => none
  | .replyend _ _ => none
  | .tillerTimeout _ => none
  | .tillerFwLoad _ => none
  | .tillerFwLoadDone => none
  | .flitReceive _ _ => none
  | .ackTimer _ => none
  | .linkRetrain _ => none
  | .linkDown _ => none
  | .readRequest _ _ _ _ => none
  | .readResponse _ _ _ => none
  | .peerWrite _ _ _ _ => none
  | .writeAcknowledgement _ _ => none
  | .trainElements _ _ _ => none
  | .trainTail _ _ _ _ => none
  | .tailAcknowledgement _ _ => none
  | .collectiveData _ _ _ => none
  | .routeWrite _ _ => none
  | .routeApply _ => none
  | .hostMemRead _ _ => none
  | .hostMemWrite _ _ => none
  | .cxlSnoop _ _ => none
  | .powerOnReset => none
  | .cxlPortReset => none
  | .bootLoad _ => none
  | .bootComplete => none
  | .verify => none
  | .keyload => none
  | .keywipe => none
  | .keywipeZeroise => none
  | .dbgopen => none
  | .extend => none
  | .attest => none
  | .debugHalt _ => none
  | .debugRegisterWrite _ _ => none
  | .debugResume _ => none
  | .debugCmRead _ => none
  | .registerWrite _ _ _ => none
  | .notAnInstruction _ => none
  | .linkUp _ _ => none
  | .lifecycleAdvance _ => none
  | .msixUnmask _ => none

end Sys2Proof
end

