-- ==== Sys2Proof/Machine/Hash.lean ====
section
/-! DEFINITION. SHA3-256 (20_trust.md R402, R405, R407) and CRC-32C (19_links.md R390). PRESUMED: the spec names the hash
and its standard, FIPS 202, is from outside it (log 8). -/

namespace Sys2Proof.Machine

/-- Lane i of a Keccak state. -/
def lane (a : List Word) (i : Nat) : Word := a[i]?.getD 0

/-- The rotation of lane x + 5y. -/
def keccakRot : List Nat :=
  [0, 1, 62, 28, 27, 36, 44, 6, 55, 20, 3, 10, 43, 25, 39, 41, 45, 15, 21, 8, 18, 2, 61, 56, 14]

/-- The round constants. -/
def keccakRc : List Word :=
  [0x0000000000000001, 0x0000000000008082, 0x800000000000808A, 0x8000000080008000, 0x000000000000808B,
   0x0000000080000001, 0x8000000080008081, 0x8000000000008009, 0x000000000000008A, 0x0000000000000088,
   0x0000000080008009, 0x000000008000000A] ++
  [0x000000008000808B, 0x800000000000008B, 0x8000000000008089, 0x8000000000008003, 0x8000000000008002,
   0x8000000000000080, 0x000000000000800A, 0x800000008000000A, 0x8000000080008081, 0x8000000000008080,
   0x0000000080000001, 0x8000000080008008]

/-- One round of Keccak-f[1600]. -/
def keccakRound (a : List Word) (rc : Word) : List Word :=
  let c := (List.range 5).map fun x => lane a x ^^^ lane a (x + 5) ^^^ lane a (x + 10) ^^^ lane a (x + 15) ^^^ lane a (x + 20)
  let t := (List.range 25).map fun i => lane a i ^^^ lane c ((i + 4) % 5) ^^^ (lane c ((i + 1) % 5)).rotateLeft 1
  -- lane (y, 2x + 3y) takes the rotated lane (x, y)
  let b := (List.range 25).map fun i =>
    let x := (i % 5 + 3 * (i / 5)) % 5
    let y := i % 5
    (lane t (x + 5 * y)).rotateLeft (keccakRot[x + 5 * y]?.getD 0)
  let d := (List.range 25).map fun i =>
    let r := i / 5 * 5
    lane b i ^^^ (~~~(lane b (r + (i + 1) % 5)) &&& lane b (r + (i + 2) % 5))
  match d with
  | h :: r => (h ^^^ rc) :: r
  | [] => []

/-- The little-endian number of eight bytes. -/
def word8 (bs : List Byte) : Word := BitVec.ofNat 64 (bs.foldr (fun b n => b.toNat + 256 * n) 0)

/-- Absorbs blocks of 136 bytes. -/
def absorb : Nat → List Word → List Byte → List Word
  | 0, a, _ => a
  | fuel + 1, a, bs =>
    if bs.isEmpty then a
    else
      let a1 := (List.range 25).map fun i => if i < 17 then lane a i ^^^ word8 ((bs.drop (8 * i)).take 8) else lane a i
      absorb fuel (keccakRc.foldl keccakRound a1) (bs.drop 136)

/-- The padding of SHA3. -/
def sha3Pad (bs : List Byte) : List Byte :=
  let n := 136 - bs.length % 136
  if n = 1 then bs ++ [0x86] else bs ++ [0x06] ++ List.replicate (n - 2) 0 ++ [0x80]

/-- SHA3-256: 32 bytes. -/
def sha3 (bs : List Byte) : List Byte :=
  let p := sha3Pad bs
  let a := absorb (p.length / 136) (List.replicate 25 0) p
  (List.range 32).map fun i => (lane a (i / 8)).extractLsb' (8 * (i % 8)) 8

/-- One bit of CRC-32C, reflected. -/
def crcBit (c : BitVec 32) : BitVec 32 := if c.getLsbD 0 then (c >>> 1) ^^^ 0x82F63B78 else c >>> 1

/-- CRC-32C (R390). -/
def crc32c (bs : List Byte) : BitVec 32 :=
  ~~~(bs.foldl (fun c b => crcBit (crcBit (crcBit (crcBit (crcBit (crcBit (crcBit (crcBit (c ^^^ b.setWidth 32)))))))))
    0xFFFFFFFF)

end Sys2Proof.Machine
end

