-- ==== Sys2Proof/Machine/Flit.lean ====
section
/-! DEFINITION. The sending side of a Sarnus Link port: flits, the replay window and the packet stream (19_links.md R389 to
R393). -/

namespace Sys2Proof.Machine

/-- Payload bytes of a flit, and the most flits that stand unacknowledged (R390, R391). -/
def flitPayload : Nat := 244
def flitWindow : Nat := 256

/-- A flit of a header word and a payload, with its CRC (R390). -/
def flitBytes (header : Nat) (payload : List Byte) : List Byte :=
  let body := leBytes 8 header ++ payload
  body ++ leBytes 4 (crc32c body).toNat

/-- A payload flit. -/
def payloadFlit (seq : BitVec 12) (payload : List Byte) : List Byte := flitBytes (seq.toNat + 2 ^ 26) payload

/-- An idle flit that acknowledges up to a number, or refuses what follows it. -/
def ackFlit (nak : Bool) (ack : BitVec 12) : List Byte :=
  flitBytes (4096 * ack.toNat + 2 ^ 24 + if nak then 2 ^ 25 else 0) (List.replicate flitPayload 0)

/-- Flits of a port leave the device. -/
def State.sendFlits (s : State) (port : Nat) (fs : List (List Byte)) : State :=
  { s with outbox := s.outbox ++ fs.map (Outgoing.flit port) }

/-- Sends the flits that the window admits. -/
def State.pump (s : State) (port : Nat) : State :=
  let p := s.portAt port
  if p.state ≠ 2 then s
  else
    let out := (p.unacked.drop p.sent).take (flitWindow - p.sent)
    (s.sendFlits port (out.map fun f => payloadFlit f.1 f.2.1)).modPort port fun p => { p with sent := p.sent + out.length }

/-- Cuts a stream into payloads. -/
def payloads : Nat → List Byte → List (List Byte)
  | 0, _ => []
  | n + 1, bs => bs.take flitPayload :: payloads n (bs.drop flitPayload)

/-- Puts packets on a port's stream, which pads fill up to whole flits: a pad is a header of 16 zero bytes, and one that
a flit cuts off ends in the next (R393). A port that is down drops them. -/
def State.sendStream (s : State) (port : Nat) (bytes : List Byte) : State :=
  let p := s.portAt port
  if p.state = 0 ∨ p.state = 3 then s
  else
    let bs := List.replicate ((16 - p.txPhase) % 16) 0 ++ bytes
    let n := (bs.length + flitPayload - 1) / flitPayload
    let pad := n * flitPayload - bs.length
    let fs := payloads n (bs ++ List.replicate pad 0)
    let numbered := (List.range n).zip fs |>.map fun f => (p.txNext + BitVec.ofNat 12 f.1, f.2, 0)
    (s.modPort port fun p =>
      { p with unacked := p.unacked ++ numbered, txNext := p.txNext + BitVec.ofNat 12 n, txPhase := pad % 16 }).pump port

/-- The header of a packet on the payload stream (R393). -/
def packetHeader (ty units : Nat) (src dst : BitVec 8) (tag : BitVec 24) (hi : Nat) : List Byte :=
  leBytes 16 (ty + 16 * units + 256 * src.toNat + 65536 * dst.toNat + 2 ^ 24 * tag.toNat + 2 ^ 64 * hi)

/-- Sends a packet to a node of the scale-up domain, by the port of the control core's cluster (R389). -/
def State.sendPacket (s : State) (node : Nat) (ty units : Nat) (tag : BitVec 24) (hi : Nat) (payload : List Byte) : State :=
  match s.portToward (clusterOf s.cc.ctxid) node with
  | some p => s.sendStream p
      (packetHeader ty units (s.nodeid.setWidth 8) (BitVec.ofNat 8 node) tag hi ++ payload)
  | none => s

/-- Sends a read request: it has no unit behind its header, and the bits above the address say how many are wanted (log 14). -/
def State.sendRead (s : State) (node : Nat) (tag : BitVec 24) (off n : Nat) : State :=
  s.sendPacket node 1 0 tag (off + 2 ^ 48 * ((n + 15) / 16)) []

/-- Bytes padded to whole 16-byte units (R393). -/
def padUnits (bs : List Byte) : List Byte := bs ++ List.replicate ((16 - bs.length % 16) % 16) 0

/-- The most bytes that a packet carries: 15 units (R393). -/
def packetMost : Nat := 240

/-- Sends whole units in packets of a type, 15 units at most in each. -/
def State.sendChunks (s : State) (node ty : Nat) (tag : BitVec 24) : Nat → List Byte → State
  | 0, _ => s
  | fuel + 1, bs =>
    if bs.isEmpty then s
    else
      let b := bs.take packetMost
      State.sendChunks (s.sendPacket node ty (b.length / 16) tag 0 b) node ty tag fuel (bs.drop packetMost)

end Sys2Proof.Machine
end

