-- ==== Sys2Proof/Machine/Translate.lean ====
section
/-! DEFINITION. Traps as values, translation (10_memories.md R204 to R212) and the accesses made through it: loads,
stores, their pieces, and the reads and writes that go to a peer (19_links.md R388, R393). -/

namespace Sys2Proof.Machine

/-- A trap to be taken: raise(cause, tval) of R360, with the VSTART or TSTEP of an element- or step-precise stop. -/
structure Trap where
  cause  : BitVec 8
  tval   : Word := 0
  vstart : Option (BitVec 10) := none
  tstep  : Option (BitVec 32) := none
  deriving DecidableEq, Repr

/-- How an instruction ends other than by retiring: a trap taken in a state, or a stall in which it is tried again. -/
inductive Stop where
  | trap (s : State) (t : Trap)
  | wait (s : State)

/-- Makes a trap precise: nothing of the instruction takes effect (R8, R361) but the count of an error that it met (R340). -/
def precise {α : Type} (s : State) : Except Stop α → Except Stop α
  | .error (.trap u t) => .error (.trap { s with errors := u.errors } t)
  | r => r

/-- Gives a trap a TVAL. -/
def withTval {α : Type} (v : Word) : Except Stop α → Except Stop α
  | .error (.trap s t) => .error (.trap s { t with tval := v })
  | r => r

/-- A check that raises a trap. -/
def trapIf (b : Bool) (s : State) (cause : BitVec 8) (tval : Word) : Except Stop Unit :=
  if b then .error (.trap s { cause := cause, tval := tval }) else .ok ()

def cIllegal : BitVec 8 := 0x01
def cTag : BitVec 8 := 0x02
def cReserved : BitVec 8 := 0x03
def cAlign : BitVec 8 := 0x04
def cAbsent : BitVec 8 := 0x05
def cProt : BitVec 8 := 0x06
def cVector : BitVec 8 := 0x07
def cTile : BitVec 8 := 0x08
def cRank : BitVec 8 := 0x09
def cShape : BitVec 8 := 0x0A
def cQuery : BitVec 8 := 0x0B
def cSpill : BitVec 8 := 0x0C
def cSoft : BitVec 8 := 0x0D
def cHard : BitVec 8 := 0x0E
def cBreak : BitVec 8 := 0x0F
def cSyscall : BitVec 8 := 0x10
def cUnit : BitVec 8 := 0x11
def cLength : BitVec 8 := 0x12
def cCarry : BitVec 8 := 0x13
def cMachine : BitVec 8 := 0x14

/-! ### Page-table entries (R208) -/

/-- The kinds of access of R209. -/
inductive Acc where
  | fetch | load | store | atomic | cmstore
  deriving DecidableEq, Repr

def Acc.isWrite : Acc → Bool | .fetch => false | .load => false | _ => true

/-- An access: its kind, whether the vector stream makes it, and its bytes. -/
structure Access where
  kind : Acc
  vec  : Bool := false
  n    : Nat := 1

def pteV (e : BitVec 64) : Bool := e.getLsbD 0
def pteL (e : BitVec 64) : Bool := e.getLsbD 1
def pteRd (e : BitVec 64) : Bool := e.getLsbD 2
def pteW (e : BitVec 64) : Bool := e.getLsbD 3
def pteU (e : BitVec 64) : Bool := e.getLsbD 4
def pteG (e : BitVec 64) : Bool := e.getLsbD 5
def pteType (e : BitVec 64) : Nat := (e.extractLsb' 6 3).toNat
def pteIc (e : BitVec 64) : Bool := e.getLsbD 9
def pteCe (e : BitVec 64) : Bool := e.getLsbD 10
def pteA (e : BitVec 64) : Bool := e.getLsbD 11
def pteD (e : BitVec 64) : Bool := e.getLsbD 12
def ptePpn (e : BitVec 64) : Nat := (e.extractLsb' 16 32).toNat

/-- The bytes that a leaf of a level maps (R208). -/
def leafSize (lvl : Nat) : Nat := 2 ^ (16 + 13 * (3 - lvl))

/-- The index of a virtual address at a level (R208). -/
def vaIndex (va : Word) (lvl : Nat) : Nat :=
  if lvl == 0 then va.toNat / 2 ^ 55 else va.toNat / leafSize lvl % 8192

/-- Whether a valid entry is malformed (R208). -/
def pteMalformed (e : BitVec 64) (lvl : Nat) : Bool :=
  e.extractLsb' 48 16 != 0 || e.extractLsb' 13 3 != 0 ||
  if pteL e then
    lvl == 0 || ptePpn e % 2 ^ (13 * (3 - lvl)) != 0 || decide (6 ≤ pteType e) ||
    (pteType e == 3 && !pteIc e) || (pteCe e && pteType e != 0)
  else lvl == 3 || e.extractLsb' 2 11 != 0

/-! ### Walks (R209, R211) -/

/-- The result of a walk: the leaf, its level and address, and the pointer entries that it read. -/
structure WalkEnd where
  entry : BitVec 64
  level : Nat
  at_   : Nat
  ptrs  : List TlbEntry

/-- Whether a cached entry serves an ASID and address. -/
def TlbEntry.matches (t : TlbEntry) (asid : BitVec 16) (va : Word) : Bool :=
  (t.asid == asid || (pteL t.entry && pteG t.entry)) && va.toNat / leafSize t.level == t.va.toNat / leafSize t.level

/-- The levels of a walk from a table address down; it uses cached pointer entries where it finds them. -/
def walkFrom (s : State) (cache : List TlbEntry) (asid : BitVec 16) (va : Word) :
    List Nat → Nat → List TlbEntry → Except (BitVec 8) WalkEnd
  | [], _, _ => .error cProt
  | lvl :: rest, a, ptrs =>
    let pa := a + 8 * vaIndex va lvl
    match cache.find? fun t => t.level == lvl && t.matches asid va with
    | some t => walkFrom s cache asid va rest (ptePpn t.entry * 65536) ptrs
    | none =>
      if !inWm pa 8 then .error cProt
      else if s.poisoned pa 8 then .error cMachine
      else
        let e := BitVec.ofNat 64 (s.peek pa 8)
        if !pteV e then .error cAbsent
        else if pteMalformed e lvl then .error cProt
        else if pteL e then .ok ⟨e, lvl, pa, ptrs⟩
        else walkFrom s cache asid va rest (ptePpn e * 65536) (⟨asid, va, lvl, e, pa⟩ :: ptrs)

/-- A walk from a table base (R209). -/
def walk (s : State) (cache : List TlbEntry) (ptbase : Word) (asid : BitVec 16) (va : Word) :
    Except (BitVec 8) WalkEnd :=
  walkFrom s cache asid va [0, 1, 2, 3] ((ptbase.extractLsb' 16 32).toNat * 65536) []

/-! ### Checks of a leaf (R204 to R206, R209, R388, R389) -/

/-- A translated access: the physical address, the page type, the idempotence class and compression. -/
structure Xlat where
  pa : Nat
  ty : Nat
  ic : Bool
  ce : Bool
  deriving DecidableEq, Repr

/-- Whether a page type admits an access (R206). -/
def typeAdmits (ty : Nat) (a : Access) (va : Word) : Bool :=
  match ty, a.kind with
  | 0, .cmstore => false
  | 0, _ => true
  | 1, k => k == .cmstore
  | 2, k => k == .load || k == .store
  | 3, k => (k == .load || k == .store) && !a.vec && (a.n == 1 || a.n == 2 || a.n == 4 || a.n == 8) &&
      va.toNat % a.n == 0
  | 4, k => k == .load || k == .store
  | 5, k => k == .load || k == .store
  | _, _ => false

/-- The populated ranges of R204: the physical address that answers, with the own-allotment alias (R205) and the
loopback to the own node (R388) resolved, or the cause of the trap. -/
def State.place (s : State) (ty pa : Nat) : Except (BitVec 8) Nat :=
  match ty with
  | 0 => if inWm pa 1 then .ok pa else .error cProt
  | 1 => if inCm s.variant pa then .ok pa else .error cProt
  | 2 =>
    if spadAlias ≤ pa ∧ pa < spadAlias + spadBytes then
      if pa - spadAlias < s.cc.spadLen then .ok (spadAddr (coreOf s.cc.ctxid) (s.cc.spadOff + (pa - spadAlias)))
      else .error cProt
    else if inSpadWindow pa then .ok pa else .error cProt
  | 3 => if devBase ≤ pa ∧ pa < devBase + 0x100000000 then .ok pa else .error cProt
  | 4 => if hostBase ≤ pa then .ok pa else .error cProt
  | 5 =>
    if peerBase ≤ pa ∧ pa < hostBase ∧ inWm (peerOff pa) 1 = true then
      if peerNode pa == s.nodeid.toNat then .ok (peerOff pa)
      else match s.nodeTrap (clusterOf s.cc.ctxid) (peerNode pa) with
        | some c => .error c
        | none => .ok pa
    else .error cProt
  | _ => .error cProt

/-- The checks of R209 on a leaf. An atomic on a page of device class raises "protection", as one on a page that is not of
type WM does (R414; log 45). -/
def State.checkLeaf (s : State) (a : Access) (va : Word) (e : BitVec 64) (lvl : Nat) : Except (BitVec 8) Xlat :=
  if s.cc.level = .user ∧ pteU e = false then .error cProt
  else if (a.kind == .fetch || a.kind == .load) && !pteRd e then .error cProt
  else if a.kind.isWrite && !pteW e then .error cProt
  else if !typeAdmits (pteType e) a va then .error cProt
  else if a.kind == .atomic && pteIc e then .error cProt
  else
    match s.place (pteType e) (ptePpn e * 65536 + va.toNat % leafSize lvl) with
    | .error c => .error c
    | .ok pa =>
      if pteCe e && !s.variant.wmcomp then .error cUnit
      else .ok ⟨pa, pteType e, pteIc e, pteCe e⟩

/-! ### Media places (R277, R278) -/

/-- The media address of a WM physical address (R277). -/
def State.mediaOf (s : State) (pa : Nat) : Nat :=
  let i := pa / 0x200000
  match lookupT s.remap i with
  | some r => r.media.toNat * 0x200000 + pa % 0x200000
  | none => pa

/-- Where a media address lies in the WM stacks. -/
structure MediaPlace where
  channel : Nat
  bank    : Nat
  row     : Nat
  column  : Nat
  deriving DecidableEq, Repr

/-- The place of a media address (R278). -/
def mediaPlace (m : Nat) : MediaPlace :=
  let co := m / 32768 * 256 + m % 256
  ⟨(m / 256 % 128) ^^^ (m / 2 ^ 21 % 128), co / 1024 % 32, co / 32768, co % 1024⟩

/-- The stack of a channel. -/
def MediaPlace.stack (p : MediaPlace) : Nat := p.channel / 32

/-! ### Compression (R283 to R285) -/

/-- Whether every delta of words of w bits to the first lies in the signed range of k bits. -/
def deltasFit (w k : Nat) (ws : List Nat) : Bool :=
  match ws with
  | [] => true
  | w0 :: r => r.all fun x =>
      let d := (x + 2 ^ w - w0) % 2 ^ w
      decide (d < 2 ^ (k - 1)) || decide (2 ^ w - 2 ^ (k - 1) ≤ d)

/-- The little-endian words of n bytes. -/
def wordsOf (n : Nat) : Nat → List Byte → List Nat
  | 0, _ => []
  | f + 1, bs => leNat (bs.take n) :: wordsOf n f (bs.drop n)

/-- The code of a block: fewest sectors, and of equal ones the lower code (R283). -/
def blockCode (bs : List Byte) : BitVec 4 :=
  let w4 := wordsOf 4 32 bs
  let w8 := wordsOf 8 16 bs
  if bs.all (· == 0) then 1
  else if w4.all (· == w4.headD 0) then 2
  else if deltasFit 64 8 w8 then 3
  else if deltasFit 32 8 w4 then 4
  else if deltasFit 32 16 w4 then 5
  else 0

/-- Sectors that a block of a code takes (R283). -/
def codeSectors (c : BitVec 4) : Nat :=
  match c.toNat with
  | 1 => 0
  | 2 => 1
  | 3 => 1
  | 4 => 2
  | 5 => 3
  | _ => 4

/-- The deltas of words of n bytes to the first, in k bytes each (R283). -/
def blockDeltas (n k : Nat) (bs : List Byte) : List Byte :=
  let ws := wordsOf n (128 / n) bs
  (ws.drop 1).flatMap fun x => leBytes k (x + 2 ^ (8 * n) - ws.headD 0)

/-- What the sectors of a block hold under a code (R283). -/
def blockSectors (c : BitVec 4) (bs : List Byte) : List Byte :=
  let body := match c.toNat with
    | 1 => []
    | 2 => bs.take 4
    | 3 => bs.take 8 ++ blockDeltas 8 1 bs
    | 4 => bs.take 4 ++ blockDeltas 4 1 bs
    | 5 => bs.take 4 ++ blockDeltas 4 2 bs
    | _ => bs
  body ++ List.replicate (32 * codeSectors c - body.length) 0

/-- Words of n bytes from the first of them and deltas of k bytes, read as signed values (R283). -/
def undelta (n k : Nat) (st : List Byte) : List Byte :=
  let w0 := leNat (st.take n)
  leBytes n w0 ++ (wordsOf k (128 / n - 1) (st.drop n)).flatMap fun d =>
    leBytes n (w0 + (if d < 2 ^ (8 * k - 1) then d else d + 2 ^ (8 * n) - 2 ^ (8 * k)))

/-- The block that a slot decodes to under a code; the slot itself under code 0 (R283). -/
def blockPlain (c : BitVec 4) (st : List Byte) : List Byte :=
  match c.toNat with
  | 1 => List.replicate 128 0
  | 2 => (List.replicate 32 (st.take 4)).flatten
  | 3 => undelta 8 1 st
  | 4 => undelta 4 1 st
  | 5 => undelta 4 2 st
  | _ => st

/-- The blocks of a range (R283). -/
def blocksOf (pa n : Nat) : List Nat :=
  if n == 0 then [] else (List.range ((pa + n - 1) / 128 - pa / 128 + 1)).map (pa / 128 + ·)

/-- Lines of a stack's metadata cache, and blocks whose codes a line holds (R276, R283). -/
def metaLines : Nat := 1024
def metaBlocks : Nat := 128

/-- The stack of a media block. -/
def blockStack (k : Nat) : Nat := (mediaPlace (128 * k)).stack

/-- The code of a media block: that of its stack's cache where the line is held (R285). -/
def State.codeAt (s : State) (k : Nat) : BitVec 4 :=
  match (tget [] s.metas (blockStack k)).find? fun l => l.line == k / metaBlocks with
  | some l => tget 0 l.codes k
  | none => tget 0 s.codes k

/-- A dirty line is written back. -/
def MetaLine.writeBack (st : Nat) (l : MetaLine) (codes : Table (BitVec 4)) : Table (BitVec 4) :=
  if l.dirty then
    ((List.range metaBlocks).map (metaBlocks * l.line + ·)).foldl
      (fun t k => if blockStack k == st then tput 0 t k (tget 0 l.codes k) else t) codes
  else codes

/-- The stack of a media block holds its line, latest: one that is not held takes the place of the least recently used,
which is written back first if it is dirty (R276, R285). -/
def State.touchMeta (s : State) (k : Nat) : State :=
  let st := blockStack k
  let n := k / metaBlocks
  let ls := tget [] s.metas st
  match ls.find? fun l => l.line == n with
  | some l => { s with metas := tput [] s.metas st (l :: ls.filter fun l => l.line != n) }
  | none =>
    let codes := match ls[metaLines - 1]? with | some l => l.writeBack st s.codes | none => s.codes
    let mine := codes.filter fun p => p.1 / metaBlocks == n && blockStack p.1 == st
    { s with codes := codes, metas := tput [] s.metas st ({ line := n, codes := mine } :: ls.take (metaLines - 1)) }

/-- A block's code is set, in its stack's cache. -/
def State.putCode (s : State) (k : Nat) (c : BitVec 4) : State :=
  let st := blockStack k
  let s1 := s.touchMeta k
  { s1 with metas := tput [] s1.metas st ((tget [] s1.metas st).map fun l =>
      if l.line == k / metaBlocks then { l with dirty := true, codes := tput 0 l.codes k c } else l) }

/-- The media block of a block of WM. -/
def State.mediaBlock (s : State) (block : Nat) : Nat := s.mediaOf (128 * block) / 128

/-- The bytes in the slot of a block, as stored (R283). -/
def State.storedBlock (s : State) (block : Nat) : List Byte := (lookupT s.stored block).getD (s.bytes (128 * block) 128)

/-- The bytes of a range as an access through a page reads them: decoded where the page has compression enabled, else as
stored (R283, R285). -/
def State.bytesIn (s : State) (ce : Bool) (pa n : Nat) : List Byte :=
  if ce || s.stored.isEmpty then s.bytes pa n
  else (List.range n).map fun i =>
    match lookupT s.stored ((pa + i) / 128) with
    | some st => st.getD ((pa + i) % 128) 0
    | none => Memory.read s.mem (pa + i)

/-- A block takes the code and the sectors of its bytes; beyond them its slot keeps what stood there, `old` (R283, R284). -/
def State.recode (old : Nat → List Byte) (s : State) (block : Nat) : State :=
  let bs := s.bytes (128 * block) 128
  let c := blockCode bs
  { s.putCode (s.mediaBlock block) c with
    stored := if c = 0 then tdel s.stored block
              else tins s.stored block (blockSectors c bs ++ (old block).drop (32 * codeSectors c)) }

/-- Bytes reach the slot of an encoded block as they are; its code stays, and what it decodes to follows (R285). -/
def State.storeSlot (pa : Nat) (bs : List Byte) (s : State) (block : Nat) : State :=
  match lookupT s.stored block with
  | none => s
  | some st =>
    let new := (List.range 128).map fun i =>
      if pa ≤ 128 * block + i ∧ 128 * block + i < pa + bs.length then bs.getD (128 * block + i - pa) 0 else st.getD i 0
    { s with stored := tins s.stored block new
             mem := Memory.writeAll s.mem (128 * block) (blockPlain (s.codeAt (s.mediaBlock block)) new) }

/-- Whether a block of a range has a reserved code, which its reader counts (R283, R340). -/
def State.reservedBlock (s : State) (pa n : Nat) : Bool :=
  (blocksOf pa n).any fun b => decide (6 ≤ (s.codeAt (s.mediaBlock b)).toNat)

/-- A read through a page with CE = 1 looks up the codes of its blocks. -/
def State.readCodes (s : State) (pa n : Nat) : State := (blocksOf pa n).foldl (fun u b => u.touchMeta (u.mediaBlock b)) s

/-! ### Writes -/

/-- The 64-byte lines of a range. -/
def linesOf (pa n : Nat) : List Nat :=
  if n = 0 then [] else (List.range ((pa + n - 1) / 64 - pa / 64 + 1)).map (pa / 64 + ·)

/-- WM lines of a range that the host may hold are snooped, and its response is taken before the access goes on: the model
makes it at once (R386; log 40). -/
def State.snoopHost (s : State) (pa n : Nat) : State :=
  let held := s.hostHeld.filter fun l => decide (l * 64 < pa + n ∧ pa < l * 64 + 64)
  if held.isEmpty then s
  else { s with outbox := s.outbox ++ held.map Outgoing.snoop
                hostHeld := s.hostHeld.filter fun l => !held.contains l }

/-- A write through a page: its blocks are encoded anew where the page has compression enabled; where it has not, the bytes are
stored as they are and the codes left alone (R284, R285). -/
def State.storeIn (s : State) (ce : Bool) (pa : Nat) (bs : List Byte) : State :=
  let s1 := (s.snoopHost pa bs.length).putBytes pa bs
  if ce then (blocksOf pa bs.length).foldl (State.recode s.storedBlock) s1
  else if s.stored.isEmpty then s1
  else (blocksOf pa bs.length).foldl (State.storeSlot pa bs) s1

/-- A write through no page: blocks of it that are stored encoded are encoded anew (log 15). -/
def State.storeBytes (s : State) (pa : Nat) (bs : List Byte) : State :=
  let s1 := (s.snoopHost pa bs.length).putBytes pa bs
  if s.stored.isEmpty then s1
  else ((blocksOf pa bs.length).filter fun b => (lookupT s.stored b).isSome).foldl (State.recode s.storedBlock) s1

/-! ### Stamps (R22, R334) -/

/-- The arrival at die e of a write of die d. -/
def stampEvent (e d : Nat) (v : Vector Word 4) : Event :=
  .dieWriteArrival (BitVec.ofNat 2 e) (BitVec.ofNat 2 d) v[0] v[1] v[2] v[3]

/-- Whether a clock already has every component of a stamp. -/
def clockCovers (vc stamp : Vector Word 4) : Bool :=
  (List.range 4).all fun k => decide ((stamp.toList.getD k 0).toNat ≤ (vc.toList.getD k 0).toNat)

/-- A write leaves the cache of die d with its clock as a stamp. The other dies take it in; to one whose clock covers the
stamp, or that a write of the same stamp is already on its way to, it brings nothing and no event is kept. -/
def State.sendStamp (s : State) (d : Nat) : State :=
  let v := (s.dieAt d).vc
  let lacks (e : Nat) : Bool :=
    e != d && !clockCovers (s.dieAt e).vc v && !s.agenda.contains (stampEvent e d v) &&
    !(s.dieAt e).held.contains ⟨BitVec.ofNat 2 d, v⟩
  { s with agenda := s.agenda ++ ((List.range 4).filter lacks).map fun e => stampEvent e d v }

/-- A write through the cache of the die of the control core that moves: by a context through a page, and through none. -/
def State.dieBytes (s : State) (pa : Nat) (bs : List Byte) : State := (s.storeBytes pa bs).sendStamp (dieOf s.cc.ctxid)
def State.dieStore (s : State) (ce : Bool) (pa : Nat) (bs : List Byte) : State :=
  (s.storeIn ce pa bs).sendStamp (dieOf s.cc.ctxid)

/-! ### TLBs (R211) -/

/-- Puts an entry in front, in place of an older copy, within a capacity: the one filled longest ago leaves a full TLB (DESIGN
CHOICE, log 19). -/
def tlbFill (cap : Nat) (t : TlbEntry) (l : List TlbEntry) : List TlbEntry :=
  (t :: l.filter fun u => decide (u.at_ ≠ t.at_ ∨ u.asid ≠ t.asid ∨ u.va ≠ t.va)).take cap

/-- The entry with A set, and D for a write (R209). -/
def pteTouch (e : BitVec 64) (write : Bool) : BitVec 64 := e ||| (if write then 0x1800 else 0x800)

/-- Whether an access must set A or D first. -/
def pteStale (e : BitVec 64) (write : Bool) : Bool := !pteA e || (write && !pteD e)

/-- An entry of a table takes its A and D bits. -/
def State.putEntry (s : State) (at_ : Nat) (e : BitVec 64) : State := s.dieBytes at_ (leBytes 8 e.toNat)

/-- Installs a leaf in the TLBs of the control core that moves, in place of the copy that its instruction holds. -/
def State.fillTlb (s : State) (t : TlbEntry) : State :=
  { s.modCore (coreOf s.cc.ctxid) (fun c => { c with l2 := tlbFill 2048 t c.l2 }) with
    cc := { s.cc with tlb := tlbFill 32 t s.cc.tlb
                      held := s.cc.held.map fun u => if u.at_ = t.at_ ∧ u.asid = t.asid ∧ u.va = t.va then t else u } }

/-- The copies of an entry leave the TLBs of the control core that moves: the table holds it no longer. -/
def State.dropTlb (s : State) (t : TlbEntry) : State :=
  { s.modCore (coreOf s.cc.ctxid) (fun c => { c with l2 := c.l2.filter fun u => decide (u ≠ t) }) with
    cc := { s.cc with tlb := s.cc.tlb.filter fun u => decide (u ≠ t), held := s.cc.held.filter fun u => decide (u ≠ t) } }

/-- The base of the page of a leaf. -/
def pageBase (va : Word) (lvl : Nat) : Word := BitVec.ofNat 64 (va.toNat / leafSize lvl * leafSize lvl)

/-- The entry that serves an address, of the L1 TLB or of the L2 TLB, and the state in which the L1 TLB holds it; else the
leaf that a walk gave to the instruction (R212). -/
def State.tlbFind (s : State) (va : Word) : Option (State × TlbEntry) :=
  match s.cc.tlb.find? fun (t : TlbEntry) => t.matches s.cc.asid va with
  | some t => some (s, t)
  | none =>
    match (s.coreAt (coreOf s.cc.ctxid)).l2.find? fun (t : TlbEntry) => t.matches s.cc.asid va with
    | some t => some ({ s with cc := { s.cc with tlb := tlbFill 32 t s.cc.tlb } }, t)
    | none => (s.cc.held.find? fun (t : TlbEntry) => t.matches s.cc.asid va).map fun t => (s, t)

/-- How a cached entry serves an access: the checks of R209, then A and D. none where the table no longer holds the entry
and it must be walked again. -/
def State.translateHit (s : State) (a : Access) (va : Word) (t : TlbEntry) : Option (Except (BitVec 8) (State × Xlat)) :=
  match s.checkLeaf a va t.entry t.level with
  | .error c => some (.error c)
  | .ok x =>
    if pteStale t.entry a.kind.isWrite then
      if s.peek t.at_ 8 == t.entry.toNat then
        let e := pteTouch t.entry a.kind.isWrite
        some (.ok ((s.putEntry t.at_ e).fillTlb { t with entry := e }, x))
      else none
    else some (.ok (s, x))

/-- An instruction's miss: it waits for the walk of its page, which PAGE_WALK puts into the cluster's walk table (R212),
and traps when that walk has ended in a trap. -/
def State.translateMiss (s : State) (va : Word) (again : Bool) : Except Stop (State × Xlat) :=
  let key : BitVec 48 := va.extractLsb' 16 48
  let fresh : Stop := .wait ((s.modCc fun c => { c with miss := some ⟨s.cc.asid, key, again, none⟩ }).later
    (.pageWalk s.cc.ctxid va))
  match s.cc.miss with
  | some m =>
    if m.asid = s.cc.asid ∧ m.key = key then
      match m.cause with
      | some c => .error (.trap s { cause := c, tval := va })
      | none => .error (.wait s)
    else .error fresh
  | none => .error fresh

/-- Whether a store or a train of the context to a peer's page of device class has not been acknowledged: an access to such a
page waits for it (R227). -/
def State.icPending (s : State) : Bool :=
  (s.cc.stores.any fun w => w.ic && !w.peers.isEmpty) || s.trains.any fun t => t.cc == s.cc.ctxid && t.live && t.ic

/-- translate(va, access) of R209, for an instruction or a card's engine. -/
def State.translate (s : State) (a : Access) (va : Word) : Except Stop (State × Xlat) :=
  match s.tlbFind va with
  | none => s.translateMiss va false
  | some (s1, t) =>
    match s1.translateHit a va t with
    | some (.ok p) => if p.2.ic && a.kind != .fetch && s.icPending then .error (.wait s) else .ok p
    | some (.error c) => .error (.trap s { cause := c, tval := va })
    | none => (s1.dropTlb t).translateMiss va true

/-! ### Accesses of several bytes -/

/-- A run of bytes of an access that lies in one page. -/
structure Piece where
  x   : Xlat
  len : Nat
  deriving DecidableEq, Repr

/-- Translates n bytes, at most 64 KiB: both pages when they cross a page boundary (R225). An access that crosses is not
naturally aligned, so a device page does not admit it (R206). -/
def State.pieces (s : State) (kind : Acc) (vec : Bool) (va : Word) (n : Nat) : Except Stop (State × List Piece) := do
  let room := 65536 - va.toNat % 65536
  if n ≤ room then
    let (s1, x) ← s.translate ⟨kind, vec, n⟩ va
    return (s1, [⟨x, n⟩])
  else
    let (s1, x) ← s.translate ⟨kind, vec, n⟩ va
    let (s2, y) ← s1.translate ⟨kind, vec, n⟩ (va + BitVec.ofNat 64 room)
    trapIf (y.ty == 3) s cProt va
    return (s2, [⟨x, room⟩, ⟨y, n - room⟩])

/-- Translates any number of bytes, page by page. -/
def State.piecesLong (s : State) (kind : Acc) (va : Word) : Nat → Nat → Except Stop (State × List Piece)
  | 0, _ => .ok (s, [])
  | fuel + 1, n =>
    if n == 0 then .ok (s, [])
    else do
      let room := min n (65536 - va.toNat % 65536)
      let (s1, x) ← s.translate ⟨kind, true, n⟩ va
      let (s2, ps) ← State.piecesLong s1 kind (va + BitVec.ofNat 64 room) fuel (n - room)
      return (s2, ⟨x, room⟩ :: ps)

/-- The host lines that a die cache comes to hold (R358). -/
def State.holdLines (s : State) (pa n : Nat) : State :=
  let d := dieOf s.cc.ctxid
  let new := (linesOf pa n).filter fun l => !(s.dieAt d).lines.contains l
  if new.isEmpty then s else s.modDie d fun d => { d with lines := new ++ d.lines }

/-- The bytes of a peer read of a load (token 0) or of a job card: those of its response, or a stall until it comes. One
response serves one element of a load (R207). -/
def State.peerLoad (s : State) (token : BitVec 32) (x : Xlat) (n : Nat) (va : Word) : Except Stop (State × List Byte) :=
  let mine (r : PeerRead) : Bool :=
    r.cc == s.cc.ctxid && r.token == token && r.pa == x.pa && r.n == n && !r.used
  match s.peerReads.find? mine with
  | some r =>
    let take (l : List PeerRead) : List PeerRead :=
      if token = 0 then l.map fun q => if q.node == r.node && q.tag == r.tag then { q with used := true } else q else l
    match r.got with
    | .waiting => .error (.wait s)
    | .poisoned => .error (.trap s { cause := cMachine, tval := va })
    | .data bs => .ok ({ s with peerReads := take s.peerReads }, bs)
  | none =>
    let s1 := s.sendRead (peerNode x.pa) s.packetTag (peerOff x.pa) n
    .error (.wait { s1 with
      packetTag := s.packetTag + 1
      peerReads := s.peerReads ++
        [{ cc := s.cc.ctxid, token := token, node := BitVec.ofNat 8 (peerNode x.pa), tag := s.packetTag, pa := x.pa, n := n
           ic := x.ic }] })

/-- An instruction that waits will make its accesses again: the responses that have come serve them again. -/
def State.freshReads (s : State) : State :=
  { s with peerReads := s.peerReads.map fun r => if r.cc == s.cc.ctxid then { r with used := false } else r }

/-- The bytes of a piece in a load. A read of a peer waits for the response; poison raises "machine check" (R225), and so
does a block whose code is reserved (R283). -/
def State.loadPieceFor (s : State) (token : BitVec 32) (p : Piece) (va : Word) : Except Stop (State × List Byte) :=
  if p.x.ty == 5 && decide (peerBase ≤ p.x.pa) then s.peerLoad token p.x p.len va
  else if s.poisoned p.x.pa p.len then .error (.trap s { cause := cMachine, tval := va })
  else if p.x.ce && s.reservedBlock p.x.pa p.len then .error (.trap (s.countError 8 1) { cause := cMachine, tval := va })
  else
    let s1 := if p.x.ty == 4 then s.holdLines p.x.pa p.len else if p.x.ce then s.readCodes p.x.pa p.len else s
    .ok (s1, s1.bytesIn p.x.ce p.x.pa p.len)

/-- The bytes of a piece of an instruction's load. -/
def State.loadPiece (s : State) (p : Piece) (va : Word) : Except Stop (State × List Byte) := s.loadPieceFor 0 p va

/-- The bytes of an access, in address order. -/
def State.loadPieces (s : State) (va : Word) : List Piece → Except Stop (State × List Byte)
  | [] => .ok (s, [])
  | p :: r => do
    let (s1, b) ← s.loadPiece p va
    let (s2, bs) ← State.loadPieces s1 va r
    return (s2, b ++ bs)

/-! ### Stores -/

/-- Sends a write to a node, in packets of whole units (R393): their tags. Bits 51:48 beside the address count the padding
bytes (log 14). -/
def State.sendWrites (s : State) (node : Nat) : Nat → Nat → List Byte → State × List (BitVec 24)
  | 0, _, _ => (s, [])
  | fuel + 1, off, bs =>
    if bs.isEmpty then (s, [])
    else
      let b := bs.take packetMost
      let s1 := s.sendPacket node 3 ((b.length + 15) / 16) s.packetTag
        (off + 2 ^ 48 * ((16 - b.length % 16) % 16)) (padUnits b)
      let (s2, tags) := State.sendWrites { s1 with packetTag := s.packetTag + 1 } node fuel (off + packetMost) (bs.drop packetMost)
      (s2, s.packetTag :: tags)

/-- The write of a piece, with what the store has left to do. -/
def State.storePiece (s : State) (p : Piece) (bs : List Byte) : State × PStore :=
  if p.x.ty == 5 && decide (peerBase ≤ p.x.pa) then
    let node := peerNode p.x.pa
    let (s1, tags) := s.sendWrites node (bs.length + 1) (peerOff p.x.pa) bs
    (s1.putBytes p.x.pa bs, { peers := tags.map fun t => (BitVec.ofNat 8 node, t), ic := p.x.ic })
  else if p.x.ty == 2 then (s.putBytes p.x.pa bs, {})
  else
    let s1 := if p.x.ty == 4 then s.holdLines p.x.pa p.len else s
    (s1.dieStore p.x.ce p.x.pa bs, {})

/-- The writes of an access. -/
def State.storePieces (s : State) : List Piece → List Byte → State × List PStore
  | [], _ => (s, [])
  | p :: r, bs =>
    let (s1, w) := s.storePiece p (bs.take p.len)
    let (s2, ws) := State.storePieces s1 r (bs.drop p.len)
    (s2, w :: ws)

/-- Joins what the pieces of one store have left to do: it waits for every write to a peer. -/
def joinStores (ws : List PStore) : PStore := { peers := ws.flatMap PStore.peers, ic := ws.any PStore.ic }

/-- A store of the vector stream. -/
def PStore.ofVec (w : PStore) : PStore := { w with vec := true }

/-- Counts a store in S and puts its being performed on the agenda; a store to peers is performed by the last of their
acknowledgements (R220, R225, R393). -/
def State.pendStore (s : State) (w : PStore) : State :=
  let s1 := s.modCc fun c => { c.incOut .s with stores := c.stores ++ [w] }
  if w.peers.isEmpty then s1.later (.storePerformed s.cc.ctxid) else s1

/-- The vector stream's memory accesses wait at a VFENCE for its earlier ones (R231). -/
def vfenceWait (s : State) : Except Stop State :=
  if !s.cc.vfence then .ok s
  else if s.cc.loads != 0 || s.cc.stores.any PStore.vec then .error (.wait s)
  else .ok (s.modCc fun c => { c with vfence := false })

/-- Counts a vector load in L and puts its completion on the agenda (R220). -/
def State.pendLoad (s : State) : State :=
  (s.modCc fun c => { c.incOut .l with loads := c.loads + 1 }).later (.loadComplete s.cc.ctxid)

/-! ### Translation for the region scheduler (R39, R371, R372) -/

/-- The leaf at supervisor level through another space, of WM pages only, and the physical address; nothing is accessed. -/
def State.schedLeaf (s : State) (ptbase : Word) (asid : BitVec 16) (write : Bool) (va : Word) :
    Except (BitVec 8) (WalkEnd × Nat) :=
  match walk s [] ptbase asid va with
  | .error c => .error c
  | .ok w =>
    let pa := ptePpn w.entry * 65536 + va.toNat % leafSize w.level
    if pteType w.entry != 0 || !inWm pa 1 then .error cProt
    else if write && !pteW w.entry then .error cProt
    else if !write && !pteRd w.entry then .error cProt
    else .ok (w, pa)

/-- translate(va, access) of R209 for an access of the scheduler: the last check, and A and D in the table. -/
def State.schedTranslate (s : State) (ptbase : Word) (asid : BitVec 16) (write : Bool) (va : Word) :
    Except Stop (State × Xlat) :=
  match s.schedLeaf ptbase asid write va with
  | .error c => .error (.trap s { cause := c, tval := va })
  | .ok (w, pa) =>
    if pteCe w.entry && !s.variant.wmcomp then .error (.trap s { cause := cUnit, tval := va })
    else
      let s1 := if pteStale w.entry write then s.putEntry w.at_ (pteTouch w.entry write) else s
      .ok (s1, ⟨pa, 0, pteIc w.entry, pteCe w.entry⟩)

/-- Reads bytes through another space, page by page. -/
def State.schedRead (ptbase : Word) (asid : BitVec 16) : Nat → State → Word → Nat → Except Stop (State × List Byte)
  | 0, s, _, _ => .ok (s, [])
  | fuel + 1, s, va, n =>
    if n == 0 then .ok (s, [])
    else do
      let room := min n (65536 - va.toNat % 65536)
      let (s1, x) ← s.schedTranslate ptbase asid false va
      let (s2, bs) ← s1.loadPiece ⟨x, room⟩ va
      let (s3, r) ← State.schedRead ptbase asid fuel s2 (va + BitVec.ofNat 64 room) (n - room)
      return (s3, bs ++ r)

end Sys2Proof.Machine
end

