-- ==== Sys2Proof/Machine/Ending.lean ====
section
/-! DEFINITION. What ends: releases and vector clocks (16_tables.md R334), stores performed, barrier phases (R232, R315),
fault-domain events (R339), job cards, claims, contexts and regions (15_queues.md R315, 16_tables.md R327 to R329,
R336). -/

namespace Sys2Proof.Machine

/-! ### Releases (R334, R354) -/

/-- A release or fence through a die's cache: its clock advances. -/
def State.advanceDie (s : State) (d : Nat) : State :=
  s.modDie d fun c => { c with vc := Vector.ofFn fun k => if k.val == d then c.vc[k] + 1 else c.vc[k] }

/-- A release of an engine that a write follows: the clock advances, and the write carries it to the other dies. -/
def State.releaseDie (s : State) (d : Nat) : State := (s.advanceDie d).sendStamp d

/-- A release or fence of the context that moves: one at die scope or wider advances its die's clock. -/
def State.release (s : State) (scope : Nat) : State := if scope < 3 then s else s.advanceDie (dieOf s.cc.ctxid)

/-! ### Barrier slots (R232, R315, R335) -/

/-- The physical slot of a slot number of R41 for a control core: 32 for each cluster, then 16 for each die, then 8. -/
def physSlot (id : BitVec 10) (n : Nat) : Nat :=
  if n < 32 then 32 * clusterOf id + n
  else if n < 48 then 2048 + 16 * dieOf id + (n - 32)
  else 2112 + (n - 48)

/-- The scope of a physical slot (R41). -/
def slotScope (p : Nat) : Nat := if p < 2048 then 2 else if p < 2112 then 3 else 4

/-- A phase completes: BARRIER_PHASE_COMPLETE. -/
def Slot.completePhase (t : Slot) : Slot :=
  { t with phase := t.phase + 1, arrivals := 0, expected := t.expected - t.owed, owed := 0, watchdog := none }

/-- An arrival: the counts of step 2 of R232, with the watchdog loaded at the first arrival of a phase (R337). -/
def Slot.arrive (t : Slot) (budget : Nat) : Slot :=
  let a := t.arrivals + 1
  if a = t.expected then t.completePhase
  else { t with arrivals := a, watchdog := if t.arrivals = 0 ∧ budget ≠ 0 then some budget else t.watchdog }

/-- A participant ends (R315): `last` is the phase of its last arrival. -/
def Slot.withdraw (t : Slot) (last : Option (BitVec 16)) : Slot :=
  if last = some t.phase then { t with owed := t.owed + 1 }
  else
    let u := { t with expected := t.expected - 1 }
    if u.expected ≠ 0 ∧ u.arrivals = u.expected then u.completePhase else u

/-! ### Fault domains (R339) -/

/-- An event of a fault domain: FAULT_DOMAIN_EVENT. Its record is written as a release at device scope, through the die
cache of the control core that moves (log 9). -/
def State.faultEvent (s : State) (f : Nat) (code : Nat) (index rcb : Nat) (word : BitVec 32) : State :=
  let d := s.domainAt f
  let at_ := (d.base.extractLsb' 6 42).toNat * 64 + 32 * (d.head.toNat % 2 ^ d.size.toNat)
  let room := d.size ≠ 0 ∧ (d.head - d.tail).toNat < 2 ^ d.size.toNat ∧ inWm at_ 32 = true ∧ s.poisoned at_ 32 = false
  let s1 :=
    if room then
      let bs := leBytes 4 code ++ leBytes 2 index ++ leBytes 2 0 ++ leBytes 8 rcb ++ leBytes 4 word.toNat ++
        leBytes 4 0 ++ leBytes 8 s.tick.toNat
      ((s.releaseDie (dieOf s.cc.ctxid)).storeBytes at_ bs).modDomain f fun d => { d with head := d.head + 1 }
    else s.modDomain f fun d => { d with lost := d.lost + 1 }
  let s2 := if d.ctx.getLsbD 10 then s1.offerRing (d.ctx.setWidth 10) (BitVec.ofNat 16 (0x8200 + code)) else s1
  if d.ctx.getLsbD 11 then s2.raiseMsix (8 + f % 56) else s2

/-! ### Packets that nothing waits for (R389, R392) -/

/-- Reads of peers that nothing waits for any longer: those whose response has not come stay outstanding. -/
def State.leaveReads (s : State) (p : PeerRead → Bool) : State :=
  { s with
    peerReads := s.peerReads.filter fun r => !p r
    strays := s.strays ++ (s.peerReads.filter fun r => p r && r.got == .waiting).map fun r => ⟨r.cc, r.node, r.tag, false⟩ }

/-- Writes to peers that no store of a context and no card waits for any longer: they stay outstanding. -/
def State.leaveWrites (s : State) (cc : BitVec 10) (peers : List (BitVec 8 × BitVec 24)) : State :=
  { s with strays := s.strays ++ peers.map fun p => ⟨cc, p.1, p.2, true⟩ }

/-- A macro-operation has done its last step, or is stopped: T falls, for a TSAVE once the writes that it has sent to peers are
acknowledged (R197, R345). -/
def ControlCore.endMacro (c : ControlCore) : ControlCore :=
  let mine (w : PStore) : Bool := !w.counted && !w.tile
  if c.stores.any mine then
    { c with stores := (c.stores.filter fun w => !mine w) ++
        [{ peers := (c.stores.filter mine).flatMap PStore.peers, vec := true, counted := false, tile := true
           ic := (c.stores.filter mine).any PStore.ic }] }
  else c.decOut .t

/-! ### Job cards (R315, R320) -/

/-- The completion of a job card: status, and the fault address for statuses 2 and 3, as a release at device scope; then
C, then the notice. -/
def State.endJob (s : State) (j : Job) (status : BitVec 32) (fault : Word) : State :=
  let s0 := s.releaseDie (dieOf j.cc)
  let s1 := s0.storeIn j.ce (j.card + 4) (leBytes 4 status.toNat)
  let s2 := if status = 2 ∨ status = 3 then s1.storeIn j.ce (j.card + 0x38) (leBytes 8 fault.toNat) else s1
  let s3 := s2.complete j.cc .c
  let s4 := if j.notify then s3.offerRing j.cc (BitVec.ofNat 16 (0x8100 + j.tag.toNat)) else s3
  (({ s4 with jobs := s4.jobs.filter fun k => !(k.cc == j.cc && k.token == j.token) } : State).leaveReads
    fun r => r.cc == j.cc && r.token == j.token).leaveWrites j.cc j.peers

/-- The payload of a withdrawal, and of a contribution, as collective data (R395; the layout is the model's, log 14). -/
def collPayload (tag : BitVec 16) : CollMsg → List Byte
  | .withdraw after => padUnits (leBytes 2 tag.toNat ++ [if after then 2 else 1])
  | .contribution op rb nodes data =>
    padUnits (leBytes 2 tag.toNat ++ [0, op] ++ leBytes 4 rb.toNat ++ leBytes 2 nodes.length ++
      (nodes.flatMap fun n => leBytes 2 n.toNat) ++ data)

/-- Sends collective data to the other members: over Sarnus Link where a route leads to the node, else over Ethernet
(R395). -/
def State.sendColl (s : State) (nodes : List (BitVec 16)) (tag : BitVec 16) (m : CollMsg) : State :=
  let bs := collPayload tag m
  (nodes.filter (· != s.nodeid)).foldl (fun u n =>
    if n.toNat < 256 ∧ (u.portToward (clusterOf u.cc.ctxid) n.toNat).isSome = true then
      State.sendChunks u n.toNat 8 0 (bs.length + 1) bs
    else { u with outbox := u.outbox ++ [.ethernet n tag m] }) s

/-- The collective tag of a card (R316). -/
def Job.collTag (j : Job) : BitVec 16 := j.dstStride.setWidth 16

/-- A card that its context's end cancels ends with status 4: one that is running stands between two rows, of which the
ones written stand. A collective card withdraws its member (R315). -/
def State.cancelJob (s : State) (j : Job) : State :=
  let s1 := s.endJob j 4 0
  if j.engine == 2 then s1.sendColl j.nodes j.collTag (.withdraw (j.contribs.any fun c => c.1 == s.nodeid)) else s1

/-! ### The end of a context (R315) -/

/-- The sweeps of a query leave their channels' queues (R288). -/
def State.endSweeps (s : State) (chans : List Nat) : State :=
  chans.foldl (fun u n => u.modChan n fun c => { c with sweeps := c.sweeps - 1 }) s

/-- A query that its context's end cancels: length 0, then status 4 in its QD as a release at device scope (R266, R267). -/
def State.cancelQuery (s : State) (q : Query) : State :=
  (((s.endSweeps q.sweeps).storeIn q.ce (q.qd + 0x38) (leBytes 4 0)).releaseDie (dieOf q.cc)).storeIn q.ce (q.qd + 0x3C)
    (leBytes 2 4)

/-- Who claims: the region and index of the context of a control core. -/
def ControlCore.who (c : ControlCore) : Nat × Nat := (c.region.getD 0, c.index)

/-- Step 1 of R315: the records of a claim that are not done return to the head of their queue. -/
def State.returnRecords (s : State) (who : Nat × Nat) (c : Option Claim) : State :=
  match c with
  | none => s
  | some c => s.modQueue c.queue fun q =>
      let back := (q.claimed.filter fun p => p.1 == who).map fun p => { p.2 with returned := true, place := .onDie }
      { q with recs := back ++ q.recs
               firing := q.firing.map fun f => { f with ahead := f.ahead + back.length }
               claimed := q.claimed.filter fun p => p.1 != who }

/-- Step 2 of R315: withdrawal from every slot taken part in. -/
def State.withdrawAll (s : State) (parts : Table (Option (BitVec 16))) : State :=
  parts.foldl (fun s p => s.modSlot p.1 fun t => t.withdraw p.2) s

/-- Step 3 of R315: the context's cards and queries. -/
def State.cancelWork (s : State) : State :=
  let id := s.cc.ctxid
  let s1 := (s.jobs.filter fun j => j.cc == id).foldl State.cancelJob s
  let s2 := (s1.queries.filter fun q => q.cc == id).foldl State.cancelQuery s1
  { s2 with queries := s2.queries.filter fun q => q.cc != id }

/-- CLAIM_END: the context of the control core that moves ends. -/
def State.claimEnd (s : State) : State :=
  (((s.returnRecords s.cc.who s.cc.claim).withdrawAll s.cc.parts).cancelWork).modCc fun c =>
    { c with claim := none, parts := [] }

/-- Operations in flight of a context that leaves run on without a count (R332). -/
def State.orphanWork (s : State) : State :=
  let id := s.cc.ctxid
  let s1 := (s.leaveReads fun r => r.cc == id).leaveWrites id (s.cc.stores.flatMap PStore.peers)
  { s1 with
    cmStores := s.cmStores.map fun w => if w.cc == id then { w with orphan := true } else w
    cmOps := s.cmOps.map fun p => (p.1, if p.2.cc = id then { p.2 with live := false } else p.2)
    trains := s.trains.map fun t => if t.cc = id then { t with live := false } else t
    queues := s.queues.map fun p => (p.1, { p.2 with waiters := p.2.waiters.filter fun w => w.cc != id }) }

/-- The control core with its context gone: its data registers and CSRs stand until the next placement. -/
def ControlCore.release (c : ControlCore) : ControlCore :=
  { c with run := .absent, t := Vector.replicate 8 {}, out := {}, loads := 0, stores := [], depth := 0
           ring := none, request := none, claim := none, parts := [], region := none, spadLen := 0
           macroOp := none, armed := false, reached := false, miss := none, held := [], cut := none, inStrip := false
           loopDepth := 0, entering := false, fencing := false, vfence := false, leaving := false, halting := false }

/-- Whether an LGSET request of a core may take effect: every context has reached a SETVL or none is resident (R37). -/
def State.shapeReady (s : State) (core : Nat) : Bool :=
  (s.coreAt core).pend && (s.allCcs.filter fun c => coreOf c.ctxid == core).all fun c => c.run == .absent || c.reached

/-- Puts a lane-shape change that has become possible on the agenda. -/
def State.checkShape (s : State) (core : Nat) : State :=
  if s.shapeReady core then s.later (.laneShapeChange (BitVec.ofNat 8 core)) else s

/-- The context of the control core that moves leaves it, as one that is saved or one that has ended. -/
def State.leaveCore (s : State) : State :=
  let core := coreOf s.cc.ctxid
  (s.orphanWork.modCc ControlCore.release).checkShape core

/-- Marks a context of a region. -/
def State.markCtx (s : State) (rcb index : Nat) (c : CtxStatus) : State :=
  s.modRegion rcb fun r => { r with ctxs := r.ctxs.set index c }

def RegState.ended : RegState → Bool | .done => true | .faulted => true | .terminated => true | _ => false

def RegState.code : RegState → Nat
  | .accepted => 0 | .ready => 1 | .running => 2 | .saved => 3 | .done => 4 | .faulted => 5 | .terminated => 6

/-- Whether every child of a region has ended. -/
def State.childrenEnded (s : State) (rcb : Nat) : Bool :=
  s.regions.all fun p => p.2.parent != some rcb || p.2.state.ended

/-- Whether a region can retire (R45). -/
def State.canRetire (s : State) (rcb : Nat) : Bool :=
  match s.regionAt rcb with
  | some r => r.state == .running && r.ctxs.all (· == .exited) && !r.terminating && s.childrenEnded rcb
  | none => false

/-- Puts a retirement that has become possible on the agenda. -/
def State.checkRetire (s : State) (rcb : Nat) : State :=
  if s.canRetire rcb then s.later (.regionRetire (BitVec.ofNat 48 rcb)) else s

def CtxStatus.isSaved : CtxStatus → Bool | .saved .. => true | _ => false

/-- When the last context of a region that is being evicted is saved or has exited, the region is SAVED (R48). -/
def State.checkSaved (s : State) (rcb : Nat) : State :=
  match s.regionAt rcb with
  | some r =>
    if r.state == .running && r.ctxs.any CtxStatus.isSaved && r.ctxs.all (fun c => c.isSaved || c == .exited) then
      (s.modRegion rcb fun r => { r with state := .saved, placed := false, evicting := false }).storeBytes (rcb + 0x48) (leBytes 4 3)
    else s
  | none => s

/-- Ends one resident context for good: R315, then the control core is free. -/
def State.endContext (s : State) (id : BitVec 10) : State :=
  s.onCc id fun s =>
    let s1 := s.claimEnd
    match s1.cc.region with
    | some rcb => (s1.markCtx rcb s1.cc.index .exited).leaveCore
    | none => s1.leaveCore

/-- The control cores on which a region's contexts are. -/
def Region.residents (r : Region) : List (BitVec 10) :=
  r.ctxs.filterMap fun | .resident c => some c | _ => none

/-- Ends every resident context of a region. -/
def State.endContexts (s : State) (rcb : Nat) : State :=
  match s.regionAt rcb with
  | some r => r.residents.foldl State.endContext s
  | none => s

/-- Ends the claims and shares of a region's saved contexts. -/
def State.endSaved (s : State) (rcb : Nat) : State :=
  match s.regionAt rcb with
  | none => s
  | some r => (r.ctxs.zip (List.range r.ctxs.length)).foldl (fun s p =>
      match p.1 with
      | .saved claim parts => ((s.returnRecords (rcb, p.2) claim).withdrawAll parts).markCtx rcb p.2 .exited
      | _ => s) s

/-- The end of a region: its queues are unconfigured, its slots freed, the hardware area of its RCB zeroed, and its
state word written last (R315, R327, R336). -/
def State.finishRegion (s : State) (rcb : Nat) (st : RegState) : State :=
  match s.regionAt rcb with
  | none => s
  | some r =>
    let s := s.endSaved rcb
    let s1 := { s with
      queues := s.queues.filter fun p => match p.2.cfg with | some c => c.region != some rcb | none => true
      slots := s.slots.filter fun p => p.2.bound != some rcb }
    let s2 := (s1.storeBytes (rcb + 0x60) (List.replicate 160 0)).storeBytes (rcb + 0x48) (leBytes 4 st.code)
    let s3 := s2.modRegion rcb fun r =>
      { r with state := st, placed := false, terminating := false, evicting := false, pendTerm := []
               ctxs := r.ctxs.map fun _ => .exited }
    match r.parent with
    | some p => s3.checkRetire p
    | none => s3

/-- The live descendants of a region, deepest first, the region itself last. -/
def State.subtree (s : State) : Nat → Nat → List Nat
  | 0, rcb => [rcb]
  | f + 1, rcb =>
    ((s.regions.filter fun p => p.2.parent == some rcb && !p.2.state.ended).flatMap fun p => s.subtree f p.1) ++ [rcb]

/-- Ends a region's live descendants by termination, deepest first (R329). -/
def State.endChildren (s : State) (rcb : Nat) : State :=
  ((s.subtree s.regions.length rcb).filter (· != rcb)).foldl
    (fun s p => (s.endContexts p).finishRegion p .terminated) s

/-- A region becomes FAULTED: steps 4 to 6 of R365, with the fault-cause word of R328. One that is being terminated
becomes TERMINATED instead (R329). -/
def State.faultRegion (s : State) (rcb index : Nat) (cause : BitVec 8) : State :=
  match s.regionAt rcb with
  | none => s
  | some r =>
    let s1 := (s.endChildren rcb).endContexts rcb
    if r.terminating then s1.finishRegion rcb .terminated else
    let word : BitVec 32 := BitVec.ofNat 32 (65536 * index + cause.toNat)
    let s2 := (s1.storeBytes (rcb + 0x4C) (leBytes 4 word.toNat)).finishRegion rcb .faulted
    s2.faultEvent r.domain 0x20 index rcb word

end Sys2Proof.Machine
end

