-- ==== Sys2Proof/Machine/Ops.lean ====
section
/-! DEFINITION. The shared operations of every instruction: taking a trap and returning from one (18_traps.md R360 to
R366), the end of an instruction, and the checks that stand before the meanings (04_encoding.md R87). -/

namespace Sys2Proof.Machine

/-! ### Taking a trap (R360, R365) -/

/-- Steps 2 to 5 of R360: the saved registers, the level and the depth. A macro-operation that waits stops at its step
boundary (R50, R197). The strip that is open has not retired (R46; log 20). Step 6, the first fetch of the handler, is still
to come (log 18). -/
def ControlCore.trapEntry (c : ControlCore) (t : Trap) (epc : Word) : ControlCore :=
  let c0 := match c.macroOp with
    | some (_, m) => { c.endMacro with macroOp := none, tstep := BitVec.ofNat 32 m }
    | none => c
  let c1 := c0.withPpriv c.level
  { c1 with
    tepc := epc
    tcause := t.cause
    tval := t.tval
    vstart := t.vstart.getD c.vstart
    tstep := t.tstep.getD c0.tstep
    done := if c.loopAct ∧ c.depth = c.loopDepth ∧ c.inStrip = true ∧ c.issued ≠ 0 then c.issued - 1 else c.done
    level := if c.level = .service then .service else .supervisor
    depth := c.depth + 1
    run := .running
    miss := none
    held := []
    entering := true
    pc := c.tvec }

/-- Steps 2 to 6 of R365: DOUBLE_FAULT. -/
def State.doubleFault (s : State) (second : BitVec 8) : State :=
  let s1 := s.modCc fun c => { c with fault2 := (c.tvec &&& ~~~0xFF#64) ||| second.setWidth 64 }
  match s1.cc.region with
  | some rcb => s1.faultRegion rcb s1.cc.index s1.cc.tcause
  | none => s1.endContext s1.cc.ctxid

/-- The fetch of an instruction: its word, or the trap (R128, R225); a TLB miss waits for its walk. -/
def State.fetch (s : State) (pc : Word) : Except Stop (State × BitVec 32) :=
  if pc.toNat % 4 ≠ 0 then .error (.trap s { cause := cAlign, tval := pc })
  else do
    let (s1, x) ← s.translate ⟨.fetch, false, 4⟩ pc
    let (s2, bs) ← s1.loadPiece ⟨x, 4⟩ pc
    return (s2.modCc fun c => { c with entering := false }, BitVec.ofNat 32 (leNat bs))

/-- Whether the context's own loads and stores have all been performed (R226, R355). -/
def ControlCore.ownDone (c : ControlCore) : Bool := c.stores.isEmpty && c.loads == 0

/-- The fence of a pre-emption (R51): at once, or before the handler's first instruction, once the context's own loads and
stores are performed. -/
def State.preemptFence (s : State) : State :=
  if s.cc.ownDone then s.release 4 else s.modCc fun c => { c with fencing := true }

/-- TRAP_ENTRY: takes a trap with a given TEPC. Reads that its instruction had sent to peers stay outstanding (R389). -/
def State.raiseAt (s : State) (t : Trap) (epc : Word) : State :=
  let s0 := s.leaveReads fun r => r.cc == s.cc.ctxid && r.token == 0
  if s.cc.depth = 255 then s0.doubleFault t.cause
  else
    let s1 := s0.modCc fun c => c.trapEntry t epc
    if t.cause = cSoft ∨ t.cause = cHard then s1.preemptFence else s1

/-- raise(cause, tval): TEPC is the address of the instruction. A trap of the first fetch of a handler is a double fault
(R365). -/
def State.raise (s : State) (t : Trap) : State := if s.cc.entering then s.doubleFault t.cause else s.raiseAt t s.cc.pc

/-- The return from a trap: the effect of TRET (R147). At depth 0 the depth stays 0: DESIGN CHOICE, log 51. -/
def State.trapReturn (s : State) : State :=
  s.modCc fun c =>
    let d := if c.depth = 0 then 0 else c.depth - 1
    { c with level := Level.ofCode c.ppriv, pc := c.tepc, depth := d, retired := c.retired + 1
             loopDepth := if d.ult c.loopDepth then d else c.loopDepth }

/-! ### The end of an instruction -/

/-- The state in which an instruction ends: its own, that of the trap that it takes, or the stall in which it stands. -/
def settle : Except Stop State → State
  | .ok s => s
  | .error (.trap s t) => s.raise t
  | .error (.wait s) => s.freshReads

/-- An instruction ends. -/
def finish (r : Except Stop State) : Out := .next (settle r)

/-- A stall: the instruction is tried again. -/
def stallIf (b : Bool) (s : State) : Except Stop Unit := if b then .error (.wait s) else .ok ()

/-- The own loads and stores of the context that are not yet performed hold back a release (R226, R355). -/
def waitOwn (s : State) : Except Stop Unit := stallIf (!s.cc.ownDone) s

/-- The instruction word that an illegal-instruction trap reports (R87, R363). -/
def wordOf (i : Instr) : Word := ((encode i).getD 0).setWidth 64

/-- Raises "illegal instruction" for a word (R87). -/
def illegal {α : Type} (s : State) (i : Instr) : Except Stop α := .error (.trap s { cause := cIllegal, tval := wordOf i })

/-- An instruction that needs supervisor level (R17, R88). -/
def needSupervisor (s : State) (i : Instr) : Except Stop Unit :=
  if s.cc.level = .user then illegal s i else .ok ()

/-! ### Checks before a pushed instruction (R87, R123, R157) -/

/-- The code by which R364 names a vector register, a mask register and a tile. -/
def vCode (v : VReg) : Nat := v.toNat
def mCode (m : MReg) : Nat := 0x40 + m.toNat
def tCode (t : TReg) : Nat := 0x80 + t.toNat

/-- Whether a register may not be written inside a LOOPI (R47). -/
def isCarry (code : Nat) : Bool := decide (40 ≤ code ∧ code ≤ 47 ∨ 0x48 ≤ code ∧ code ≤ 0x4B ∨ 0x80 ≤ code)

/-- "vector first use" (R123). -/
def needVector (s : State) : Except Stop Unit := trapIf (!s.cc.ven) s cVector 0

/-- "vector first use", then "loop carry write" for the first destination that R47 forbids. -/
def pushGuard (s : State) (dsts : List Nat) : Except Stop Unit := do
  needVector s
  if s.cc.loopAct && s.cc.loopI then
    match dsts.find? isCarry with
    | some c => trapIf true s cCarry (BitVec.ofNat 64 c)
    | none => return ()

/-- "format tag mismatch" with the tags that R157 packs: va, vb and vd. -/
def tagMismatch {α : Type} (s : State) (a b d : Tag) : Except Stop α :=
  .error (.trap s { cause := cTag, tval := BitVec.ofNat 64 (a.toNat + 256 * b.toNat + 65536 * d.toNat) })

/-- Step 3 of R157: a condition on the tags. -/
def tagCheck (ok : Bool) (s : State) (a b d : Tag) : Except Stop Unit := if ok then .ok () else tagMismatch s a b d

/-- Step 4 of R157: "length exceeds type" for any of the tags. -/
def lenCheck (s : State) (ts : List Tag) : Except Stop Unit :=
  trapIf (ts.any fun t => decide (vlmax t < s.cc.vl.toNat)) s cLength (s.cc.vl.setWidth 64)

/-! ### Loads and stores of a few bytes, made by the control core -/

/-- Reads bytes as a precise load; device pages excepted. -/
def State.loadAt (s : State) (va : Word) (n : Nat) : Except Stop (State × List Byte) := do
  let (s1, ps) ← s.pieces .load false va n
  s1.loadPieces va ps

/-- Writes bytes that have been translated as a store, counted in S. -/
def State.storeAt (s : State) (va : Word) (bs : List Byte) : Except Stop State := do
  stallIf (s.cc.full .s) s
  let (s1, ps) ← s.pieces .store false va bs.length
  let (s2, ws) := s1.storePieces ps bs
  return s2.pendStore (joinStores ws)

end Sys2Proof.Machine
end

