-- ==== Sys2Proof/Machine/Operands.lean ====
section
/-! DEFINITION. Operand forms: elements of vector registers under a tag, the active mask, the third operand of format V,
SX blocks, masks, and the write of a vector or mask register (06_registers.md R115, 08_vector.md R155 to R159, R172). -/

namespace Sys2Proof.Machine

/-! ### Slots (R35, R98, R155) -/

/-- The w-bit field i of a number. -/
def fieldAt (n w i : Nat) : Nat := n >>> (w * i) % 2 ^ w

/-- A number with its w-bit field i replaced. -/
def setField (n w i v : Nat) : Nat := n - (fieldAt n w i) <<< (w * i) + (v % 2 ^ w) <<< (w * i)

/-- The slot of element i under a tag. -/
def slotOf (data : BitVec 8192) (t : Tag) (i : Nat) : Nat := fieldAt data.toNat (tagWidth t) i

/-- bits(v, i, t): the raw bits of an element; slot bits 3:0 for the sub-byte tags. -/
def bitsOf (data : BitVec 8192) (t : Tag) (i : Nat) : Nat :=
  if isSub t then slotOf data t i % 16 else slotOf data t i

/-- The slot contents that hold an element's bits: bits 7:4 of a sub-byte slot by R98; zero between sign and mantissa of an
SX slot (R99). -/
def fillSlot (t : Tag) (b : Nat) : Nat :=
  if t == tI4 then (if b % 16 < 8 then b % 16 else b % 16 + 0xF0) else if t == tE2M1 then b % 16
  else if isSx t then b / 128 % 2 * 128 + b % 2 ^ sxK t else b

/-- The exact value of an element of class VAL. -/
def valOf (data : BitVec 8192) (t : Tag) (i : Nat) : Val := decodeElem t (slotOf data t i)

/-- The integer of an element of class INT or I4. -/
def intAt (data : BitVec 8192) (t : Tag) (i : Nat) : Int :=
  intOf (isSigned t) (intBits t) (slotOf data t i % 2 ^ intBits t)

/-- An element read unsigned (R173). -/
def uintAt (data : BitVec 8192) (t : Tag) (i : Nat) : Nat := bitsOf data t i

/-! ### SX blocks in registers (R99, R100) -/

/-- E and μ of block b. -/
def sxE (side : BitVec 1024) (b : Nat) : Byte := BitVec.ofNat 8 (fieldAt side.toNat 16 b)
def sxMu (side : BitVec 1024) (b : Nat) : Byte := BitVec.ofNat 8 (fieldAt side.toNat 16 b / 256)

/-- The value of element i of an SX register; none for the reserved code. -/
def sxElem (v : VecReg) (t : Tag) (i : Nat) : Option Val :=
  let c := slotOf v.data t i
  sxVal (sxK t) (sxE v.side (i / 16)) (sxMu v.side (i / 16)) (i % 16) (decide (128 ≤ c)) (c % 2 ^ sxK t)

/-- The value of element i under any tag with values; none for a reserved code. -/
def elemVal (v : VecReg) (t : Tag) (i : Nat) : Option Val := if isSx t then sxElem v t i else some (valOf v.data t i)

/-- The block b of an SX register as it stands. -/
def sxBlockOf (v : VecReg) (t : Tag) (b : Nat) : SxBlock :=
  ⟨sxE v.side b, sxMu v.side b, (List.range 16).map fun j =>
    let c := slotOf v.data t (16 * b + j)
    (decide (128 ≤ c), c % 2 ^ sxK t)⟩

/-- A register with block b of an SX tag written. -/
def putSxBlock (v : VecReg) (b : Nat) (k : SxBlock) : VecReg :=
  let d := (List.range 16).foldl (fun n j =>
    let (s, m) := k.sm[j]?.getD (false, 0)
    setField n 8 (16 * b + j) (m + if s then 128 else 0)) v.data.toNat
  { v with data := BitVec.ofNat 8192 d
           side := BitVec.ofNat 1024 (setField v.side.toNat 16 b (k.e.toNat + 256 * k.mu.toNat)) }

/-! ### Registers and masks -/

/-- A vector register; the decoder admits 0 to 47 (R79). -/
def State.getV (s : State) (n : VReg) : VecReg := s.cc.v[n.toNat]?.getD {}
/-- Writes a vector register and its VDIRTY bit (R119). -/
def ControlCore.putV (c : ControlCore) (n : VReg) (r : VecReg) : ControlCore :=
  { c with v := c.v.setIfInBounds n.toNat r, vdirty := c.vdirty ||| (1#48 <<< n.toNat) }
def State.putV (s : State) (n : VReg) (r : VecReg) : State := s.modCc fun c => c.putV n r

/-- A mask register; the decoder admits 0 to 11 (R79). -/
def State.getM (s : State) (n : MReg) : BitVec 1024 := s.cc.m[n.toNat]?.getD 0
def State.putM (s : State) (n : MReg) (b : BitVec 1024) : State :=
  s.modCc fun c => { c with m := c.m.setIfInBounds n.toNat b }

/-- The bits below a number set. -/
def lowMask (n : Nat) : BitVec 1024 := BitVec.ofNat 1024 (2 ^ n - 1)

/-- The active mask: every bit when VMSEL is 15 (R122). Where a pre-emption stops the instruction at an element (R50), the
elements from there on are not reached. -/
def State.activeMask (s : State) : BitVec 1024 :=
  let m := if s.cc.vmsel = 15 then BitVec.allOnes 1024 else s.getM s.cc.vmsel
  match s.cc.cut with
  | none => m
  | some k => m &&& lowMask k

/-- The vector length as a number. -/
def State.vlN (s : State) : Nat := s.cc.vl.toNat

/-- The elements from a start to vl − 1 that are active, ascending. -/
def State.activeFrom (s : State) (start : Nat) : List Nat :=
  let m := s.activeMask
  (List.range s.vlN).filter fun i => decide (start ≤ i) && m.getLsbD i

/-- The active elements of an element-precise instruction (R158). -/
def State.actives (s : State) : List Nat := s.activeFrom s.cc.vstart.toNat

/-- The elements from vstart to vl − 1, whatever the mask, of an instruction that processes them all. -/
def State.allFrom (s : State) : List Nat :=
  (List.range s.vlN).filter fun i => decide (s.cc.vstart.toNat ≤ i) &&
    match s.cc.cut with | none => true | some k => decide (i < k)

/-- An element-precise instruction has captured VSTART (R93). -/
def State.takeVstart (s : State) : State := s.modCc fun c => { c with vstart := 0 }

/-! ### Writing a vector register (R115) -/

/-- The side band after a write: groups wholly below vstart keep it, touched groups are zero unless the new tag is SX,
and groups at or above vl are zero. -/
def sideAfter (old : BitVec 1024) (t : Tag) (vstart vl : Nat) : BitVec 1024 :=
  let epg := 512 / tagWidth t
  let keep := if vstart < vl then vstart / epg else (vl + epg - 1) / epg
  BitVec.ofNat 1024 (old.toNat % 2 ^ (64 * keep))

/-- Data with elements at index vl and above zero. -/
def tailZero (d : Nat) (w vl : Nat) : BitVec 8192 := BitVec.ofNat 8192 (d % 2 ^ (w * vl))

/-- Writes elements of a tag that is not SX: `es` lists the elements with their bits. -/
def writeElems (old : VecReg) (t : Tag) (vstart vl : Nat) (es : List (Nat × Nat)) : VecReg :=
  let w := tagWidth t
  let d := es.foldl (fun n e => setField n w e.1 (fillSlot t e.2)) old.data.toNat
  ⟨tailZero d w vl, sideAfter old.side t vstart vl, t⟩

/-- The elements with the result of a function on each, and the flags of all. -/
def mapElems (is : List Nat) (f : Nat → Nat × Flags) : List (Nat × Nat) × Flags :=
  is.foldl (fun acc i => let (b, fl) := f i; (acc.1 ++ [(i, b)], acc.2 ||| fl)) ([], 0)

/-- The end of an element-precise instruction that computes each active element of vd. -/
def State.elemwise (s : State) (vd : VReg) (t : Tag) (f : Nat → Nat × Flags) : State :=
  let (es, fl) := mapElems s.actives f
  (((s.putV vd (writeElems (s.getV vd) t s.cc.vstart.toNat s.vlN es)).orFlags fl).takeVstart).retire

/-! ### The third operand (R156) -/

/-- The tag that R157 reports for the third operand: 0 when it is no vector register. -/
def thirdTag (s : State) : Third → Tag
  | .vv vb => (s.getV vb).tag
  | _ => 0

/-- imm6 as a signed number. -/
def immInt (imm : BitVec 6) : Int := imm.toInt

/-- Whether the tag of a vector third operand equals t. -/
def thirdTagIs (s : State) (t : Tag) : Third → Bool
  | .vv vb => (s.getV vb).tag == t
  | _ => true

/-- The flags with which a VI operand is formed (R156). -/
def thirdFlags (mode : BitVec 3) (t : Tag) : Third → Flags
  | .vi imm => if isFlt t || t == tE8M0 then (roundTo t mode (.ofInt (immInt imm))).2 else 0
  | _ => 0

/-- The raw bits of the third operand for element i under tag t. -/
def thirdBits (s : State) (mode : BitVec 3) (t : Tag) : Third → Nat → Nat
  | .vv vb, i => bitsOf (s.getV vb).data t i
  | .vx xb, _ => (s.getX xb).toNat % 2 ^ memBits t
  | .vi imm, _ =>
    if isFlt t || t == tE8M0 then (roundTo t mode (.ofInt (immInt imm))).1
    else wrapBits (intBits t) (immInt imm)

/-- The value of the third operand. -/
def thirdVal (s : State) (mode : BitVec 3) (t : Tag) (b : Third) (i : Nat) : Val := decodeElem t (thirdBits s mode t b i)

/-- The integer of the third operand. -/
def thirdInt (s : State) (mode : BitVec 3) (t : Tag) (b : Third) (i : Nat) : Int :=
  intOf (isSigned t) (intBits t) (thirdBits s mode t b i % 2 ^ intBits t)

/-- A shift or index operand read unsigned: imm6 as it stands (R163, R173). -/
def thirdUnsigned (s : State) (t : Tag) : Third → Nat → Nat
  | .vv vb, i => bitsOf (s.getV vb).data t i
  | .vx xb, _ => (s.getX xb).toNat
  | .vi imm, _ => imm.toNat

/-- The flags of an instruction with a VI operand, which join only when some element is active (R156). -/
def State.joinImm (s : State) (b : Third) (t : Tag) (s' : State) : State :=
  if s.actives.isEmpty then s' else s'.orFlags (thirdFlags s.cc.rm t b)

/-! ### Writing a mask register (R115, R159) -/

/-- A mask with active bits replaced and bits from vl up zero. -/
def writeMask (old : BitVec 1024) (vl : Nat) (rs : List (Nat × Bool)) : BitVec 1024 :=
  let n := rs.foldl (fun n r => setField n 1 r.1 (if r.2 then 1 else 0)) old.toNat
  BitVec.ofNat 1024 (n % 2 ^ vl)

/-- The number of set bits below n. -/
def popBelow (m : BitVec 1024) (n : Nat) : Nat := ((List.range n).filter m.getLsbD).length

/-! ### Elements that may hold a reserved code (R100, R158) -/

/-- The elements done, their flags, and where a reserved code stopped them: its index and slot. -/
structure ElemRun where
  es    : List (Nat × Nat) := []
  flags : Flags := 0
  stop  : Option (Nat × Nat) := none

/-- Computes elements in ascending order up to the first reserved code, which `f` answers with the slot's contents. -/
def runElems (is : List Nat) (f : Nat → Except Nat (Nat × Flags)) : ElemRun :=
  is.foldl (fun r i =>
    match r.stop with
    | some _ => r
    | none => match f i with
      | .ok (b, fl) => { r with es := r.es ++ [(i, b)], flags := r.flags ||| fl }
      | .error slot => { r with stop := some (i, slot) }) {}

/-- The trap of a reserved element code (R100). -/
def reservedCode {α : Type} (s : State) (i slot : Nat) : Except Stop α :=
  .error (.trap s { cause := cReserved, tval := BitVec.ofNat 64 slot, vstart := some (BitVec.ofNat 10 i) })

/-- The end of an element-precise instruction whose elements may hold reserved codes. -/
def State.elemwiseE (s : State) (vd : VReg) (t : Tag) (f : Nat → Except Nat (Nat × Flags)) : Except Stop State :=
  let r := runElems s.actives f
  let s1 := (s.putV vd (writeElems (s.getV vd) t s.cc.vstart.toNat s.vlN r.es)).orFlags r.flags
  match r.stop with
  | some (i, slot) => reservedCode s1 i slot
  | none => .ok s1.takeVstart.retire

/-! ### SX destinations (R172) -/

/-- Whether element i belongs to what a block of R172 handles: below vl and not masked off. -/
def State.sxMember (s : State) (i : Nat) : Bool := decide (i < s.vlN) && s.activeMask.getLsbD i

/-- The blocks that hold an active element, ascending. -/
def State.sxBlocks (s : State) : List Nat :=
  (List.range ((s.vlN + 15) / 16)).filter fun b =>
    (List.range 16).any fun j => decide (s.cc.vstart.toNat ≤ 16 * b + j) && s.sxMember (16 * b + j)

/-- The source values of a block; the index and slot of the first reserved code among them. -/
def State.sxSource (s : State) (b : Nat) (src : Nat → Except Nat Val) : Except (Nat × Nat) (List Val) :=
  (List.range 16).foldlM (fun acc j =>
    let i := 16 * b + j
    if s.sxMember i then
      match src i with
      | .ok v => .ok (acc ++ [v])
      | .error slot => .error (i, slot)
    else .ok (acc ++ [.fin false 0 0])) []

/-- An SX register with its tail: elements from vl up zero in data, blocks from ceil(vl / 16) up in side band
(R115, R172). -/
def sxTail (v : VecReg) (t : Tag) (vl : Nat) : VecReg :=
  let n := (vl + 15) / 16
  ⟨tailZero v.data.toNat 8 vl, BitVec.ofNat 1024 (v.side.toNat % 2 ^ (16 * n)), t⟩

/-- Quantises and writes the blocks of an SX destination, in order, up to the first reserved code. -/
def State.sxRun (s : State) (t : Tag) (mode : BitVec 3) (src : Nat → Except Nat Val) :
    List Nat → VecReg → Flags → VecReg × Flags × Option (Nat × Nat)
  | [], v, f => (v, f, none)
  | b :: r, v, f =>
    match s.sxSource b src with
    | .error e => (v, f, some e)
    | .ok xs =>
      let (k, g) := quantiseSx (sxK t) mode xs
      s.sxRun t mode src r (putSxBlock v b k) (f ||| g)

/-- The end of an instruction that writes an SX register from values. -/
def State.sxwise (s : State) (vd : VReg) (t : Tag) (mode : BitVec 3) (src : Nat → Except Nat Val) : Except Stop State :=
  let (v, f, stop) := s.sxRun t mode src s.sxBlocks (s.getV vd) 0
  let s1 := (s.putV vd (sxTail v t s.vlN)).orFlags f
  match stop with
  | some (i, slot) => reservedCode s1 i slot
  | none => .ok s1.takeVstart.retire

/-- The value of an element, or the slot that holds a reserved code. -/
def elemOr (v : VecReg) (t : Tag) (i : Nat) : Except Nat Val :=
  match elemVal v t i with
  | some x => .ok x
  | none => .error (slotOf v.data t i)

end Sys2Proof.Machine
end

