-- ==== Sys2Proof/Machine/Scalar.lean ====
section
/-! DEFINITION. Integer instructions, branches and jumps (07_scalar.md R127 to R134, R139 to R142). -/

namespace Sys2Proof.Machine

/-- The end of a scalar instruction that writes one register. -/
def State.writeX (s : State) (xd : XReg) (v : Word) : Out := .next (s.setX xd v).retire

/-! ### Register operations (R129, R130) -/

def execAdd (xd xa xb : XReg) (s : State) : Out := s.writeX xd (s.getX xa + s.getX xb)
def execSub (xd xa xb : XReg) (s : State) : Out := s.writeX xd (s.getX xa - s.getX xb)
def execAnd (xd xa xb : XReg) (s : State) : Out := s.writeX xd (s.getX xa &&& s.getX xb)
def execOr (xd xa xb : XReg) (s : State) : Out := s.writeX xd (s.getX xa ||| s.getX xb)
def execXor (xd xa xb : XReg) (s : State) : Out := s.writeX xd (s.getX xa ^^^ s.getX xb)

/-- The shift amount of a register: b[5:0]. -/
def shamt (b : Word) : Nat := b.toNat % 64

def execSll (xd xa xb : XReg) (s : State) : Out := s.writeX xd (s.getX xa <<< shamt (s.getX xb))
def execSrl (xd xa xb : XReg) (s : State) : Out := s.writeX xd (s.getX xa >>> shamt (s.getX xb))
def execSra (xd xa xb : XReg) (s : State) : Out := s.writeX xd ((s.getX xa).sshiftRight (shamt (s.getX xb)))
def execSlt (xd xa xb : XReg) (s : State) : Out := s.writeX xd (boolWord ((s.getX xa).slt (s.getX xb)))
def execSltu (xd xa xb : XReg) (s : State) : Out := s.writeX xd (boolWord ((s.getX xa).ult (s.getX xb)))
def execMin (xd xa xb : XReg) (s : State) : Out :=
  s.writeX xd (if (s.getX xb).slt (s.getX xa) then s.getX xb else s.getX xa)
def execMax (xd xa xb : XReg) (s : State) : Out :=
  s.writeX xd (if (s.getX xa).slt (s.getX xb) then s.getX xb else s.getX xa)
def execMinu (xd xa xb : XReg) (s : State) : Out :=
  s.writeX xd (if (s.getX xb).ult (s.getX xa) then s.getX xb else s.getX xa)
def execMaxu (xd xa xb : XReg) (s : State) : Out :=
  s.writeX xd (if (s.getX xa).ult (s.getX xb) then s.getX xb else s.getX xa)
def execMul (xd xa xb : XReg) (s : State) : Out := s.writeX xd (s.getX xa * s.getX xb)
def execMulh (xd xa xb : XReg) (s : State) : Out :=
  s.writeX xd (BitVec.ofInt 64 ((s.getX xa).toInt * (s.getX xb).toInt / 2 ^ 64))
def execMulhu (xd xa xb : XReg) (s : State) : Out :=
  s.writeX xd (BitVec.ofNat 64 ((s.getX xa).toNat * (s.getX xb).toNat / 2 ^ 64))

/-- DIV of R130: truncated toward zero, all ones for a divisor of zero. -/
def divS (a b : Word) : Word := if b = 0 then BitVec.allOnes 64 else BitVec.ofInt 64 (a.toInt.tdiv b.toInt)
/-- DIVU of R130. -/
def divU (a b : Word) : Word := if b = 0 then BitVec.allOnes 64 else BitVec.ofNat 64 (a.toNat / b.toNat)
/-- REM of R130: the sign of the dividend; a for a divisor of zero. -/
def remS (a b : Word) : Word := if b = 0 then a else BitVec.ofInt 64 (a.toInt.tmod b.toInt)
/-- REMU of R130. -/
def remU (a b : Word) : Word := if b = 0 then a else BitVec.ofNat 64 (a.toNat % b.toNat)

def execDiv (xd xa xb : XReg) (s : State) : Out := s.writeX xd (divS (s.getX xa) (s.getX xb))
def execDivu (xd xa xb : XReg) (s : State) : Out := s.writeX xd (divU (s.getX xa) (s.getX xb))
def execRem (xd xa xb : XReg) (s : State) : Out := s.writeX xd (remS (s.getX xa) (s.getX xb))
def execRemu (xd xa xb : XReg) (s : State) : Out := s.writeX xd (remU (s.getX xa) (s.getX xb))
def execCsel (xd xa xb : XReg) (s : State) : Out :=
  s.writeX xd (if s.getX xd ≠ 0 then s.getX xa else s.getX xb)

/-! ### Bit counts (R131) -/

/-- Zero bits above the highest set bit. -/
def clzN (a : Word) : Nat := if a = 0 then 64 else 63 - Nat.log2 a.toNat
/-- Zero bits below the lowest set bit. -/
def ctzN (a : Word) : Nat := ((List.range 64).find? fun i => a.getLsbD i).getD 64
/-- Set bits. -/
def popcN (a : Word) : Nat := ((List.range 64).filter fun i => a.getLsbD i).length
/-- Bytes in the reverse order. -/
def bswapW (a : Word) : Word := BitVec.ofNat 64 (leNat (leBytes 8 a.toNat).reverse)

def execClz (xd xa : XReg) (s : State) : Out := s.writeX xd (BitVec.ofNat 64 (clzN (s.getX xa)))
def execCtz (xd xa : XReg) (s : State) : Out := s.writeX xd (BitVec.ofNat 64 (ctzN (s.getX xa)))
def execPopc (xd xa : XReg) (s : State) : Out := s.writeX xd (BitVec.ofNat 64 (popcN (s.getX xa)))
def execBswap (xd xa : XReg) (s : State) : Out := s.writeX xd (bswapW (s.getX xa))

/-! ### Immediates (R132 to R134) -/

def execAddi (xd xa : XReg) (imm : BitVec 15) (s : State) : Out := s.writeX xd (s.getX xa + imm.signExtend 64)
def execAndi (xd xa : XReg) (imm : BitVec 15) (s : State) : Out := s.writeX xd (s.getX xa &&& imm.signExtend 64)
def execOri (xd xa : XReg) (imm : BitVec 15) (s : State) : Out := s.writeX xd (s.getX xa ||| imm.signExtend 64)
def execXori (xd xa : XReg) (imm : BitVec 15) (s : State) : Out := s.writeX xd (s.getX xa ^^^ imm.signExtend 64)
def execSlti (xd xa : XReg) (imm : BitVec 15) (s : State) : Out :=
  s.writeX xd (boolWord ((s.getX xa).slt (imm.signExtend 64)))
def execSlli (xd xa : XReg) (n : BitVec 6) (s : State) : Out := s.writeX xd (s.getX xa <<< n.toNat)
def execSrli (xd xa : XReg) (n : BitVec 6) (s : State) : Out := s.writeX xd (s.getX xa >>> n.toNat)
def execSrai (xd xa : XReg) (n : BitVec 6) (s : State) : Out := s.writeX xd ((s.getX xa).sshiftRight n.toNat)
/-- a[n:0] with bit n copied upward. -/
def execSext (xd xa : XReg) (n : BitVec 6) (s : State) : Out :=
  s.writeX xd (((s.getX xa) <<< (63 - n.toNat)).sshiftRight (63 - n.toNat))
/-- a[n:0] with zeros above. -/
def execZext (xd xa : XReg) (n : BitVec 6) (s : State) : Out :=
  s.writeX xd (((s.getX xa) <<< (63 - n.toNat)) >>> (63 - n.toNat))

/-- k of R134: imm20 × 4,096, sign-extended. -/
def upperImm (imm : BitVec 20) : Word := (imm.signExtend 64) <<< 12

def execLui (xd : XReg) (imm : BitVec 20) (s : State) : Out := s.writeX xd (upperImm imm)
def execAddpc (xd : XReg) (imm : BitVec 20) (s : State) : Out := s.writeX xd (s.cc.pc + upperImm imm)

/-! ### Branches and jumps (R139 to R142) -/

/-- A target a signed number of words away. -/
def wordsOff {n : Nat} (off : BitVec n) : Word := (off.signExtend 64) <<< 2

/-- The end of a branch. -/
def State.branch (s : State) (taken : Bool) (off : Word) : Out :=
  .next (if taken then s.retireTo (s.cc.pc + off) else s.retire)

def execBeq (xa xb : XReg) (off : BitVec 12) (s : State) : Out := s.branch (s.getX xa == s.getX xb) (wordsOff off)
def execBne (xa xb : XReg) (off : BitVec 12) (s : State) : Out := s.branch (s.getX xa != s.getX xb) (wordsOff off)
def execBlt (xa xb : XReg) (off : BitVec 12) (s : State) : Out :=
  s.branch ((s.getX xa).slt (s.getX xb)) (wordsOff off)
def execBge (xa xb : XReg) (off : BitVec 12) (s : State) : Out :=
  s.branch (!(s.getX xa).slt (s.getX xb)) (wordsOff off)
def execBltu (xa xb : XReg) (off : BitVec 12) (s : State) : Out :=
  s.branch ((s.getX xa).ult (s.getX xb)) (wordsOff off)
def execBgeu (xa xb : XReg) (off : BitVec 12) (s : State) : Out :=
  s.branch (!(s.getX xa).ult (s.getX xb)) (wordsOff off)

/-- The number of set bits of a mask below VL (R140). -/
def State.maskCount (s : State) (ma : MReg) : Nat :=
  ((List.range s.cc.vl.toNat).filter fun i => (s.cc.m[ma.toNat]?.getD 0).getLsbD i).length

def execBany (ma : MReg) (off : BitVec 17) (s : State) : Out :=
  if s.cc.ven then s.branch (decide (0 < s.maskCount ma)) (wordsOff off) else .next (s.raise { cause := cVector })
def execBall (ma : MReg) (off : BitVec 17) (s : State) : Out :=
  if s.cc.ven then s.branch (s.maskCount ma == s.cc.vl.toNat) (wordsOff off) else .next (s.raise { cause := cVector })
def execBnone (ma : MReg) (off : BitVec 17) (s : State) : Out :=
  if s.cc.ven then s.branch (s.maskCount ma == 0) (wordsOff off) else .next (s.raise { cause := cVector })

def execJal (xd : XReg) (off : BitVec 20) (s : State) : Out :=
  .next ((s.setX xd (s.cc.pc + 4)).retireTo (s.cc.pc + wordsOff off))
def execJalr (xd xa : XReg) (imm : BitVec 15) (s : State) : Out :=
  let t := s.getX xa + imm.signExtend 64
  if t.toNat % 4 ≠ 0 then .next (s.raise { cause := cAlign, tval := t })
  else .next ((s.setX xd (s.cc.pc + 4)).retireTo t)

end Sys2Proof.Machine
end

