-- ==== Sys2Proof/Machine/ScalarFp.lean ====
section
/-! DEFINITION. Scalar floating point (07_scalar.md R135 to R138). -/

namespace Sys2Proof.Machine

/-- The format of a precision bit (R135). -/
def fmtP (p : BitVec 1) : Fmt := if p = 0 then fmtFP32 else fmtFP64

/-- The bits that fp_read takes. -/
def fpBits (p : BitVec 1) (x : Word) : Nat := if p = 0 then x.toNat % 2 ^ 32 else x.toNat

/-- fp_read of R135. -/
def fpRead (p : BitVec 1) (x : Word) : Val := (fmtP p).decode (fpBits p x)

/-- The mode of an rm field (R135). -/
def State.mode (s : State) (rm : BitVec 3) : BitVec 3 := if rm = 4 then s.cc.rm else rm

/-- fp_write of a result with the flags that it sets (R127, R135). -/
def State.fpWrite (s : State) (xd : XReg) (r : Nat × Flags) : Out :=
  .next ((s.setX xd (BitVec.ofNat 64 r.1)).orFlags r.2).retire

/-- Rounds an exact result into the format of P: the one rounding of R136. -/
def State.fpDeliver (s : State) (p : BitVec 1) (rm : BitVec 3) (xd : XReg) (e : Val × Flags) : Out :=
  let (r, f) := (fmtP p).round (s.mode rm) e.1
  s.fpWrite xd (r, e.2 ||| f)

def execFadd (p : BitVec 1) (rm : BitVec 3) (xd xa xb : XReg) (s : State) : Out :=
  s.fpDeliver p rm xd (addExact (s.mode rm) (fpRead p (s.getX xa)) (fpRead p (s.getX xb)))
def execFsub (p : BitVec 1) (rm : BitVec 3) (xd xa xb : XReg) (s : State) : Out :=
  s.fpDeliver p rm xd (addExact (s.mode rm) (fpRead p (s.getX xa)) (fpRead p (s.getX xb)).neg)
def execFmul (p : BitVec 1) (rm : BitVec 3) (xd xa xb : XReg) (s : State) : Out :=
  s.fpDeliver p rm xd (mulExact (fpRead p (s.getX xa)) (fpRead p (s.getX xb)))
def execFdiv (p : BitVec 1) (rm : BitVec 3) (xd xa xb : XReg) (s : State) : Out :=
  s.fpDeliver p rm xd (divExact (fpRead p (s.getX xa)) (fpRead p (s.getX xb)))
def execFsqrt (p : BitVec 1) (rm : BitVec 3) (xd xa : XReg) (s : State) : Out :=
  s.fpDeliver p rm xd (sqrtExact (fpRead p (s.getX xa)))

/-- a × b + c with one rounding. A signalling NaN of the addend sets NV through the sum (R102, R136). -/
def fmaExact (mode : BitVec 3) (a b c : Val) : Val × Flags :=
  let (p, f) := mulExact a b
  let (r, g) := addExact mode p c
  (r, f ||| g)

def execFmac (p : BitVec 1) (rm : BitVec 3) (xd xa xb : XReg) (s : State) : Out :=
  s.fpDeliver p rm xd
    (fmaExact (s.mode rm) (fpRead p (s.getX xa)) (fpRead p (s.getX xb)) (fpRead p (s.getX xd)))

/-- FMIN and FMAX (R137): the bits of the operand delivered, or the canonical NaN. -/
def fpMinMax (max : Bool) (p : BitVec 1) (a b : Word) : Nat × Flags :=
  let (r, f) := minMaxNum max (fpRead p a) (fpRead p b)
  (match r with
    | some false => fpBits p a
    | some true => fpBits p b
    | none => (fmtP p).cnan.getD 0, f)

def execFmin (p : BitVec 1) (xd xa xb : XReg) (s : State) : Out :=
  s.fpWrite xd (fpMinMax false p (s.getX xa) (s.getX xb))
def execFmax (p : BitVec 1) (xd xa xb : XReg) (s : State) : Out :=
  s.fpWrite xd (fpMinMax true p (s.getX xa) (s.getX xb))

/-- The comparisons of R137: any NaN gives 0; `quiet` sets NV only for a signalling NaN. -/
def fpCompare (quiet : Bool) (test : Ordering → Bool) (a b : Val) : Nat × Flags :=
  if a.isNan || b.isNan then (0, flagIf (!quiet || a.isSig || b.isSig) fNV)
  else (if test (cmpVal a b) then 1 else 0, 0)

def execFeq (p : BitVec 1) (xd xa xb : XReg) (s : State) : Out :=
  s.fpWrite xd (fpCompare true (· == .eq) (fpRead p (s.getX xa)) (fpRead p (s.getX xb)))
def execFlt (p : BitVec 1) (xd xa xb : XReg) (s : State) : Out :=
  s.fpWrite xd (fpCompare false (· == .lt) (fpRead p (s.getX xa)) (fpRead p (s.getX xb)))
def execFle (p : BitVec 1) (xd xa xb : XReg) (s : State) : Out :=
  s.fpWrite xd (fpCompare false (· != .gt) (fpRead p (s.getX xa)) (fpRead p (s.getX xb)))

def execFcvtfi (p : BitVec 1) (rm : BitVec 3) (xd xa : XReg) (s : State) : Out :=
  s.fpWrite xd (roundIntTag tI64 (s.mode rm) (fpRead p (s.getX xa)))
def execFcvtif (p : BitVec 1) (rm : BitVec 3) (xd xa : XReg) (s : State) : Out :=
  s.fpDeliver p rm xd (.ofInt (s.getX xa).toInt, 0)
/-- P names the result: FP32 to FP64 for P = 1, FP64 to FP32 for P = 0 (R138). -/
def execFcvtsd (p : BitVec 1) (rm : BitVec 3) (xd xa : XReg) (s : State) : Out :=
  s.fpDeliver p rm xd (fpRead (p ^^^ 1) (s.getX xa), 0)

end Sys2Proof.Machine
end

