-- ==== Sys2Proof/Machine/VCmp.lean ====
section
/-! DEFINITION. Compares, major opcode 0x22 (08_vector.md R169), and conversions, major opcode 0x23 (R170 to R172). -/

namespace Sys2Proof.Machine

/-- A compare: `test` on ordered values, `nan` the result where a value is NaN, `quiet` whether only a signalling NaN
sets NV. -/
def State.vecCompare (s : State) (md : MReg) (va : VReg) (b : Third) (test : Ordering → Bool) (nan quiet : Bool) : Out :=
  finish do
    pushGuard s [mCode md]
    let t := (s.getV va).tag
    tagCheck (isVal t && thirdTagIs s t b) s t (thirdTag s b) 0
    lenCheck s [t]
    let d := (s.getV va).data
    let mode := s.cc.rm
    let one (i : Nat) : Nat × Flags :=
      let x := valOf d t i
      let y := thirdVal s mode t b i
      if x.isNan || y.isNan then (if nan then 1 else 0, flagIf (!quiet || x.isSig || y.isSig) fNV)
      else (if test (cmpVal x y) then 1 else 0, 0)
    let (es, fl) := mapElems s.actives one
    let m := writeMask (s.getM md) s.vlN (es.map fun e => (e.1, e.2 == 1))
    return s.joinImm b t ((((s.putM md m).orFlags fl).takeVstart).retire)

def execVcmpeq (md : MReg) (va : VReg) (b : Third) (s : State) : Out := s.vecCompare md va b (· == .eq) false true
def execVcmpne (md : MReg) (va : VReg) (b : Third) (s : State) : Out := s.vecCompare md va b (· != .eq) true true
def execVcmplt (md : MReg) (va : VReg) (b : Third) (s : State) : Out := s.vecCompare md va b (· == .lt) false false
def execVcmple (md : MReg) (va : VReg) (b : Third) (s : State) : Out := s.vecCompare md va b (· != .gt) false false
def execVcmpgt (md : MReg) (va : VReg) (b : Third) (s : State) : Out := s.vecCompare md va b (· == .gt) false false
def execVcmpge (md : MReg) (va : VReg) (b : Third) (s : State) : Out := s.vecCompare md va b (· != .lt) false false
def execVcmpun (md : MReg) (va : VReg) (b : Third) (s : State) : Out := s.vecCompare md va b (fun _ => false) true true

/-! ### Conversions -/

/-- Whether a part lies below r of R170. -/
def partOk (src dt : Tag) (part : BitVec 2) : Bool :=
  if tagWidth src < tagWidth dt then decide (part.toNat < tagWidth dt / tagWidth src) else part == 0

/-- A conversion of the source element that `src` answers into vd under dt. -/
def State.convert (s : State) (vd : VReg) (dt : Tag) (mode : BitVec 3) (src : Nat → Except Nat Val) : Except Stop State :=
  if isSx dt then s.sxwise vd dt mode src
  else s.elemwiseE vd dt fun i =>
    match src i with
    | .ok x => .ok (roundTo dt mode x)
    | .error slot => .error slot

def execVcvt (vd va : VReg) (tag : Tag) (rm : BitVec 3) (part : BitVec 2) (s : State) : Out :=
  finish do
    pushGuard s [vCode vd]
    let src := s.getV va
    let t := src.tag
    tagCheck ((isVal t || isSx t) && (isVal tag || isSx tag) && partOk t tag part) s t 0 0
    lenCheck s [t, tag]
    s.convert vd tag (s.mode rm) fun i => elemOr src t (part.toNat * vlmax tag + i)

/-- MFMT.RTAG (R122). -/
def ControlCore.rtag (c : ControlCore) : Tag := c.mfmt.extractLsb' 5 5

def execVcvtsc (vd va vb : VReg) (rm : BitVec 3) (part : BitVec 2) (s : State) : Out :=
  finish do
    pushGuard s [vCode vd]
    let src := s.getV va
    let t := src.tag
    let sc := s.getV vb
    let dt := s.cc.rtag
    tagCheck ((isVal t || isSx t) && (isVal dt || isSx dt) && sc.tag == tE8M0 && partOk t dt part) s t sc.tag 0
    lenCheck s [t, sc.tag, dt]
    s.convert vd dt (s.mode rm) fun i =>
      let j := part.toNat * vlmax dt + i
      match elemOr src t j with
      | .ok x => .ok (scaleValue x (BitVec.ofNat 8 (slotOf sc.data tE8M0 (j / 32))))
      | .error slot => .error slot

end Sys2Proof.Machine
end

