-- ==== Sys2Proof/Machine/VMem.lean ====
section
/-! DEFINITION. Vector loads and stores, major opcode 0x50 (11_access.md R213 to R221). -/

namespace Sys2Proof.Machine

/-! ### MFMT (R122) -/

def ControlCore.mtag (c : ControlCore) : Tag := c.mfmt.extractLsb' 0 5
def ControlCore.scaleMode (c : ControlCore) : Nat := (c.mfmt.extractLsb' 10 2).toNat
def ControlCore.rawm (c : ControlCore) : Bool := c.mfmt.getLsbD 12

/-- Bytes of an element in memory, mb of R213; 0 for the sub-byte and SX tags. -/
def ControlCore.mb (c : ControlCore) : Nat :=
  if c.rawm then tagWidth c.rtag / 8 else if isSx c.mtag then 0 else memBits c.mtag / 8

/-- The address forms of R213. -/
inductive MemForm where
  | unit
  | first
  | stride
  | index (vi : VReg)
  deriving DecidableEq, Repr

/-- The byte offset of element i of a packed or strided run (R214, R195). -/
def posOf (t : Tag) (stride : Int) (i : Nat) : Int :=
  if stride ≠ 0 then stride * i
  else if isSx t then (i / 16 * sxBytes t : Nat)
  else (i * memBits t / 8 : Nat)

/-- The offsets of the scale byte of element i, where there is one, and of the element (R214). -/
def layout (t : Tag) (scale : Nat) (stride : Int) (i : Nat) : Option Int × Int :=
  match scale with
  | 1 =>
    let g : Int := (i / 32 : Nat) * (1 + posOf t stride 32)
    (some g, g + 1 + posOf t stride (i % 32))
  | 2 => (some 0, 1 + posOf t stride i)
  | _ => (none, posOf t stride i)

/-! ### Checks before any element (R157, R215) -/

/-- "format tag mismatch" as R215 lays TVAL out. -/
def memMismatch {α : Type} (s : State) (m r g : Tag) : Except Stop α :=
  .error (.trap s { cause := cTag, tval := BitVec.ofNat 64 (m.toNat + 256 * r.toNat + 65536 * g.toNat) })

/-- The pairs of MTAG and RTAG that R216 admits. -/
def pairOk (m r : Tag) : Bool :=
  m == r || (isVal m && isVal r) ||
  (isSx m && (r == tFP32 || r == tBF16 || r == tFP16)) || (isSx r && (m == tFP32 || m == tBF16 || m == tFP16))

/-- The table of R215. -/
def memTable (s : State) (form : MemForm) (vr : VReg) (base : Word) : Except Stop Unit := do
  let c := s.cc
  let m := c.mtag
  let one := match form with | .stride => true | .index _ => true | _ => false
  if !c.rawm && (!pairOk m c.rtag || (c.scaleMode != 0 && !isNarrow m)) then memMismatch s m (s.getV vr).tag c.rtag
  match form with
  | .index vi => if !isInt (s.getV vi).tag then memMismatch s m (s.getV vi).tag c.rtag
  | _ => pure ()
  trapIf (!c.rawm && c.scaleMode != 0 && form != .unit) s cAlign (c.mfmt.setWidth 64)
  trapIf (!c.rawm && (isSub m || isSx m) && one) s cAlign (if form = .stride then c.vstr else m.setWidth 64)
  trapIf (!c.rawm && isSx m && s.vlN % 16 != 0) s cAlign (c.vl.setWidth 64)
  trapIf (c.mb != 0 && base.toNat % c.mb != 0) s cAlign base
  trapIf (c.mb != 0 && form == .stride && c.vstr.toNat % c.mb != 0) s cAlign c.vstr

/-- The tags whose length the instruction must fit. -/
def memLens (s : State) : MemForm → List Tag
  | .index vi => [s.cc.rtag, (s.getV vi).tag]
  | _ => [s.cc.rtag]

/-! ### Element addresses -/

/-- The addresses and sizes of the bytes of item i, in the order in which they are read: for an SX memory tag an item is
the block that starts at element i. -/
def State.itemParts (s : State) (form : MemForm) (base : Word) (i : Nat) : List (Word × Nat) :=
  let c := s.cc
  let at_ (o : Int) : Word := base + BitVec.ofInt 64 o
  if c.rawm then
    let n := c.mb
    match form with
    | .stride => [(base + BitVec.ofNat 64 i * c.vstr, n)]
    | .index vi => [(at_ (intAt (s.getV vi).data (s.getV vi).tag i), n)]
    | _ => [(at_ (i * n : Nat), n)]
  else
    let n := if isSx c.mtag then sxBytes c.mtag else max 1 c.mb
    match form with
    | .stride => [(base + BitVec.ofNat 64 i * c.vstr, n)]
    | .index vi => [(at_ (intAt (s.getV vi).data (s.getV vi).tag i), n)]
    | .first => [(at_ (posOf c.mtag 0 i), n)]
    | .unit =>
      let (sc, o) := layout c.mtag c.scaleMode 0 i
      (match sc with | some k => [(at_ k, 1)] | none => []) ++ [(at_ o, n)]

/-! ### Loads -/

/-- How the reads of a vector load end. -/
inductive ReadEnd where
  | done
  | trap (i : Nat) (t : Trap)
  /-- A fault-only-first load reads no further (R221). -/
  | cut (i : Nat)
  | wait
  deriving DecidableEq, Repr

/-- The bytes of the parts of an item, and whether they lie on a device-class page. -/
def State.readParts (s : State) (mb : Nat) : List (Word × Nat) → Except Stop (State × List Byte × Bool)
  | [] => .ok (s, [], false)
  | (a, n) :: r => do
    trapIf (mb != 0 && a.toNat % mb != 0) s cAlign a
    let (s1, ps) ← s.pieces .load true a n
    let (s2, bs) ← s1.loadPieces a ps
    let (s3, cs, ic) ← State.readParts s2 mb r
    return (s3, bs ++ cs, ic || ps.any fun p => p.x.ic)

/-- Whether any part of an item lies on a device-class page. -/
def State.devicePart (s : State) : List (Word × Nat) → Bool
  | [] => false
  | (a, n) :: r =>
    match s.pieces .load true a n with
    | .ok (s1, ps) => (ps.any fun p => p.x.ic) || State.devicePart s1 r
    | .error _ => false

/-- Whether a later element's trap cuts a fault-only-first load (R221). -/
def cutsFirst (cause : BitVec 8) : Bool := cause == cAbsent || cause == cProt || cause == cMachine || cause == cReserved

/-- Whether a load reads elements into the blocks of an SX register (R172). -/
def ControlCore.intoSx (c : ControlCore) : Bool := isSx c.rtag && !isSx c.mtag && !c.rawm

/-- Reads items in ascending order. `first` is the first active element of a fault-only-first load, or for an SX memory tag
the first of its block: a later element on a device-class page is not accessed, and one at it there is the last (R221). The
block of an SX register is read whole, but for its elements below VSTART on a device-class page (R172, R207; log 23). -/
def State.readItems (s : State) (mb : Nat) (first : Option Nat) :
    List (Nat × List (Word × Nat)) → List (Nat × List Byte) → State × List (Nat × List Byte) × ReadEnd
  | [], got => (s, got, .done)
  | (i, ps) :: r, got =>
    let later := match first with | some f => decide (f < i) | none => false
    if later && s.devicePart ps then (s, got, .cut i)
    else if s.cc.intoSx && decide (i < s.cc.vstart.toNat) && s.devicePart ps then State.readItems s mb first r got
    else match s.readParts mb ps with
      | .ok (s1, bs, ic) =>
        let got1 := got ++ [(i, bs)]
        if ic && first == some i then
          (s1, got1, .cut (if isSx s.cc.mtag && !s.cc.rawm then i + 16 else i + 1))
        else State.readItems s1 mb first r got1
      | .error (.wait s1) => (s1, got, .wait)
      | .error (.trap s1 t) => if later && cutsFirst t.cause then (s1, got, .cut i) else (s1, got, .trap i t)

/-- Whether bytes of pieces that lie in this device cannot be read. -/
def State.unreadable (s : State) (ps : List Piece) : Bool :=
  ps.any fun p => !(p.x.ty == 5 && decide (peerBase ≤ p.x.pa)) &&
    (s.poisoned p.x.pa p.len || (p.x.ce && s.reservedBlock p.x.pa p.len))

/-- What comes before the reads of the parts of an item: alignment, translation and, in this device, poison. -/
def State.scanParts (s : State) (mb : Nat) : List (Word × Nat) → Except Stop (State × Bool)
  | [] => .ok (s, false)
  | (a, n) :: r => do
    trapIf (mb != 0 && a.toNat % mb != 0) s cAlign a
    let (s1, ps) ← s.pieces .load true a n
    trapIf (s1.unreadable ps) s1 cMachine a
    let (s2, ic) ← State.scanParts s1 mb r
    return (s2, ic || ps.any fun p => p.x.ic)

/-- Looks for an absent unit among the items that `readItems` would read, before any is read (R32): it stops where those would
stop for another reason. A device with every unit has none to look for. -/
def State.scanItems (s : State) (mb : Nat) (first : Option Nat) : List (Nat × List (Word × Nat)) → Except Stop Unit
  | [] => .ok ()
  | (i, ps) :: r =>
    let later := match first with | some f => decide (f < i) | none => false
    if s.variant.wmcomp || (later && s.devicePart ps) then .ok ()
    else match s.scanParts mb ps with
      | .ok (s1, ic) => if ic && first == some i then .ok () else State.scanItems s1 mb first r
      | .error (.wait s1) => .error (.wait s1)
      | .error (.trap s1 t) => if t.cause = cUnit then .error (.trap s1 t) else .ok ()

/-- The value of an element from the bytes read for it: a scale byte first, where the mode has one. -/
def memValue (t : Tag) (scale : Nat) (i : Nat) (bs : List Byte) : Val :=
  let (e, d) : Byte × List Byte := if scale = 0 then (127, bs) else (bs.headD 127, bs.drop 1)
  let n := leNat d
  let x := decodeElem t (if isSub t && i % 2 == 1 then n / 16 else n)
  if scale = 0 then x else scaleValue x e

/-- The element's bits under RTAG, with the flags of the conversion (R216, R217). -/
def ControlCore.loadBits (c : ControlCore) (i : Nat) (bs : List Byte) : Nat × Flags :=
  if c.mtag = c.rtag ∧ c.scaleMode = 0 then
    (if isSub c.mtag then leNat bs / (if i % 2 = 1 then 16 else 1) % 16 else leNat bs, 0)
  else roundTo c.rtag c.rm (memValue c.mtag c.scaleMode i bs)

/-- The element j of a block in memory as a value; its slot for the reserved code (R100). -/
def sxMemElem (t : Tag) (k : SxBlock) (j : Nat) : Except Nat Val :=
  let (sg, m) := k.sm[j]?.getD (false, 0)
  match sxVal (sxK t) k.e k.mu j sg m with
  | some v => .ok v
  | none => .error 128

/-- A raw copy into register slots; the side band of an SX register is not moved (R216). -/
def rawReg (old : VecReg) (t : Tag) (vstart vl : Nat) (es : List (Nat × Nat)) : VecReg :=
  let w := tagWidth t
  let d := es.foldl (fun n e => setField n w e.1 e.2) old.data.toNat
  ⟨tailZero d w vl, if isSx t then BitVec.ofNat 1024 (old.side.toNat % 2 ^ (16 * ((vl + 15) / 16)))
    else sideAfter old.side t vstart vl, t⟩

/-- Writes the register from what was read, with the flags; a reserved code in an SX block of memory stops it. A block of an SX
register is written once all of it is read: elements below VSTART that were not read, and in the block `part` those that a
trap has left unread, count with the values that the register holds (log 23). -/
def State.commitLoad (s : State) (vr : VReg) (got : List (Nat × List Byte)) (part : Option Nat := none) :
    State × Option (Nat × Nat) :=
  let c := s.cc
  let old := s.getV vr
  let t := c.rtag
  if c.rawm then
    (s.putV vr (rawReg old t c.vstart.toNat s.vlN (got.map fun p => (p.1, leNat p.2))), none)
  else if isSx c.mtag && c.mtag == t then
    let v := got.foldl (fun v p => putSxBlock v (p.1 / 16) (sxOfMem t p.2)) old
    (s.putV vr (sxTail v t s.vlN), none)
  else if isSx c.mtag then
    let blocks := got.map fun p => (p.1 / 16, sxOfMem c.mtag p.2)
    let f (i : Nat) : Except Nat (Nat × Flags) :=
      match (lookupT blocks (i / 16)).map fun k => sxMemElem c.mtag k (i % 16) with
      | some (.ok x) => .ok (roundTo t c.rm x)
      | some (.error slot) => .error slot
      | none => .ok (0, 0)
    let r := runElems (s.actives.filter fun i => (lookupT blocks (i / 16)).isSome) f
    ((s.putV vr (writeElems old t c.vstart.toNat s.vlN r.es)).orFlags r.flags, r.stop)
  else if isSx t then
    let whole := s.sxBlocks.filter fun b =>
      part == some b || (List.range 16).all fun j =>
        !s.sxMember (16 * b + j) || (lookupT got (16 * b + j)).isSome || decide (16 * b + j < c.vstart.toNat)
    let src (i : Nat) : Except Nat Val := .ok (match lookupT got i with
      | some bs => memValue c.mtag c.scaleMode i bs
      | none => (elemVal old t i).getD (.fin false 0 0))
    let (v, f, _) := s.sxRun t c.rm src whole old 0
    ((s.putV vr (sxTail v t s.vlN)).orFlags f, none)
  else
    let (es, f) := got.foldl (fun (a : List (Nat × Nat) × Flags) p =>
      let (b, g) := c.loadBits p.1 p.2
      (a.1 ++ [(p.1, b)], a.2 ||| g)) ([], 0)
    ((s.putV vr (writeElems old t c.vstart.toNat s.vlN es)).orFlags f, none)

/-- The items that a load reads: blocks for an SX memory tag, the positions of whole blocks for an SX register, else the
active elements (R172, R217). -/
def State.loadItems (s : State) (form : MemForm) (base : Word) : List (Nat × List (Word × Nat)) :=
  let c := s.cc
  let is : List Nat :=
    if c.rawm then s.actives
    else if isSx c.mtag then s.sxBlocks.map (16 * ·)
    else if isSx c.rtag then (s.sxBlocks.flatMap fun b => (List.range 16).map (16 * b + ·)).filter s.sxMember
    else s.actives
  is.map fun i => (i, s.itemParts form base i)

/-- The index that a trap of an item names: the first active element of a block (R158). -/
def State.itemIndex (s : State) (i : Nat) : Nat :=
  if isSx s.cc.mtag && !s.cc.rawm then (s.actives.find? fun j => j / 16 == i / 16).getD i else i

/-- The end of a load: the register is written from what was read; `cut` is the length that a fault-only-first load keeps.
A reserved code in a block after the first active element's cuts such a load; one in that block stops it with its length
as it was (R221). -/
def State.loadEnd (s : State) (vr : VReg) (first cut : Option Nat) (got : List (Nat × List Byte)) : Except Stop State :=
  let short (k : Nat) : State := s.modCc fun c => { c with vl := BitVec.ofNat 11 k }
  let s1 := match cut with | some k => short k | none => s
  let (s2, stop) := s1.commitLoad vr got
  match stop with
  | none => .ok (s2.takeVstart).pendLoad.retire
  | some (i, slot) =>
    match first with
    | some f =>
      if f / 16 < i / 16 then
        let k := i / 16 * 16
        .ok ((((short k).commitLoad vr (got.filter fun p => decide (p.1 < k))).1.takeVstart).pendLoad.retire)
      else reservedCode (s.commitLoad vr got).1 i slot
    | none => reservedCode s2 i slot

/-- The block of an SX register in which a trap at an element finds elements read of a device-class page: each access there is
made once, so that they are written (R207; log 23). -/
def State.partBlock (s : State) (form : MemForm) (base : Word) (got : List (Nat × List Byte)) (i : Nat) : Option Nat :=
  if s.cc.intoSx && got.any fun p => p.1 / 16 == i / 16 && s.devicePart (s.itemParts form base p.1) then some (i / 16) else none

/-- A vector load. A unit that is absent stops it with no effect, at whatever element (R32). -/
def State.vecLoad (s0 : State) (form : MemForm) (vr : VReg) (xa : XReg) : Out :=
  finish do
    pushGuard s0 [vCode vr]
    stallIf (s0.cc.full .l) s0
    let s ← vfenceWait s0
    lenCheck s (memLens s form)
    let base := s.getX xa
    memTable s form vr base
    let first := if form = .first then s.actives.head?.map (fun f => if isSx s.cc.mtag && !s.cc.rawm then f / 16 * 16 else f) else none
    let items := s.loadItems form base
    precise s0 (s.scanItems s.cc.mb first items)
    let (s1, got, e) := s.readItems s.cc.mb first items []
    match e with
    | .done => s1.loadEnd vr first none got
    | .cut k => s1.loadEnd vr first (some k) got
    | .wait => .error (.wait s1)
    | .trap i t =>
      if t.cause = cUnit then .error (.trap s0 t) else
      let (s2, stop) := s1.commitLoad vr got (s1.partBlock form base got i)
      match stop with
      | some (j, slot) => reservedCode s2 j slot
      | none => .error (.trap s2 { t with vstart := some (BitVec.ofNat 10 (s1.itemIndex i)) })

def execVld (vr : VReg) (xa : XReg) (_sc : BitVec 3) (s : State) : Out := s.vecLoad .unit vr xa
def execVlds (vr : VReg) (xa : XReg) (_sc : BitVec 3) (s : State) : Out := s.vecLoad .stride vr xa
def execVldx (vr : VReg) (xa : XReg) (vi : VReg) (_sc : BitVec 3) (s : State) : Out := s.vecLoad (.index vi) vr xa
def execVldff (vr : VReg) (xa : XReg) (_sc : BitVec 3) (s : State) : Out := s.vecLoad .first vr xa

/-! ### Stores -/

/-- One write of a vector store: the element or block, its address and size, whether it keeps a part of its byte, the
bytes from the old bytes, its flags. -/
structure StoreItem where
  i     : Nat
  addr  : Word
  n     : Nat
  keeps : Bool := false
  form  : List Byte → List Byte
  flags : Flags

/-- The bytes that pieces hold now. -/
def State.oldBytes (s : State) (ps : List Piece) : List Byte := ps.flatMap fun p => s.bytesIn p.x.ce p.x.pa p.len

/-- A byte of which a store keeps a part is read: poison and a reserved code stop it (R215, R225, R283), and a peer's byte is
asked for and put where the device keeps its copy (log 6). -/
def State.keepByte (s : State) (p : Piece) (va : Word) : Except Stop State := do
  let (s1, bs) ← s.loadPiece p va
  return if p.x.ty == 5 && decide (peerBase ≤ p.x.pa) then { s1 with mem := Memory.writeAll s1.mem p.x.pa bs } else s1

/-- The translation of one write, and the read of a byte of which a part is kept. -/
def State.planItem (s : State) (mb : Nat) (it : StoreItem) : Except Stop (State × List Piece) := do
  trapIf (mb != 0 && it.addr.toNat % mb != 0) s cAlign it.addr
  let (s1, ps) ← s.pieces .store true it.addr it.n
  if it.keeps then
    let s2 ← ps.foldlM (fun u p => u.keepByte p it.addr) s1
    return (s2, ps)
  else return (s1, ps)

/-- Translates items in ascending order, before any is written: the pieces of those that may be, and the trap that stopped
them with its item. -/
def State.planItems (s : State) (mb : Nat) :
    List StoreItem → Except Stop (State × List (StoreItem × List Piece) × Option (Nat × Trap))
  | [] => .ok (s, [], none)
  | it :: r =>
    match s.planItem mb it with
    | .error (.wait s1) => .error (.wait s1)
    | .error (.trap s1 t) => .ok (s1, [], some (it.i, t))
    | .ok (s1, ps) => do
      let (s2, l, stop) ← State.planItems s1 mb r
      return (s2, (it, ps) :: l, stop)

/-- Writes items in ascending order: the state and what is left to do. -/
def State.writeItems (s : State) : List (StoreItem × List Piece) → State × List PStore
  | [] => (s, [])
  | (it, ps) :: r =>
    let (s1, w) := s.storePieces ps (it.form (s.oldBytes ps))
    let (s2, ws) := State.writeItems (s1.orFlags it.flags) r
    (s2, w ++ ws)

/-- The nibble of a sub-byte element put into its byte. -/
def putNibble (i b : Nat) (old : List Byte) : List Byte :=
  let o := (old.headD 0).toNat
  [BitVec.ofNat 8 (if i % 2 = 1 then o % 16 + 16 * (b % 16) else o / 16 * 16 + b % 16)]

/-- An element in its memory form (R216): bits under MTAG and the flags. -/
def ControlCore.storeBits (c : ControlCore) (bits : Nat) (v : Val) : Nat × Flags :=
  if c.mtag = c.rtag then (bits, 0) else roundTo c.mtag c.rm v

/-- The item that stores one element of bits b. -/
def State.elemItem (s : State) (form : MemForm) (base : Word) (i : Nat) (bf : Nat × Flags) : StoreItem :=
  let (a, n) := (s.itemParts form base i).headD (0, 0)
  let sub := isSub s.cc.mtag && !s.cc.rawm
  ⟨i, a, n, sub, fun old => if sub then putNibble i bf.1 old else leBytes n bf.1, bf.2⟩

/-- The items of a store, and the reserved code that ends them (R218). -/
def State.storeItems (s : State) (form : MemForm) (base : Word) (v : VecReg) : List StoreItem × Option (Nat × Nat) :=
  let c := s.cc
  let t := c.rtag
  let blockItem (b : Nat) (k : SxBlock × Flags) : StoreItem :=
    let (a, n) := (s.itemParts form base (16 * b)).headD (0, 0)
    ⟨s.itemIndex (16 * b), a, n, false, fun _ => sxToMem c.mtag k.1, k.2⟩
  if c.rawm then (s.actives.map fun i => s.elemItem form base i (slotOf v.data t i, 0), none)
  else if isSx c.mtag && c.mtag == t then (s.sxBlocks.map fun b => blockItem b (sxBlockOf v t b, 0), none)
  else if isSx c.mtag then
    (s.sxBlocks.map fun b =>
      blockItem b (match s.sxSource b (fun i => elemOr v t i) with
        | .ok xs => quantiseSx (sxK c.mtag) c.rm xs
        | .error _ => ({}, 0)), none)
  else if isSx t then
    s.sxBlocks.foldl (fun acc b =>
      match acc.2 with
      | some _ => acc
      | none => match s.sxSource b (fun i => elemOr v t i) with
        | .error e => (acc.1, some e)
        | .ok _ =>
          let is := s.actives.filter fun i => i / 16 == b
          (acc.1 ++ is.map fun i => s.elemItem form base i (roundTo c.mtag c.rm ((elemVal v t i).getD (.nan false))), none))
      ([], none)
  else (s.actives.map fun i => s.elemItem form base i (c.storeBits (bitsOf v.data t i) (valOf v.data t i)), none)

/-! ### VST with a scale (R218) -/

/-- emax of R218. -/
def emaxOf (t : Tag) : Int := if t == tE4M3 then 8 else if t == tE5M2 then 15 else if t == tE2M1 || t == tI4 then 2 else 6

/-- The scale code of a group. -/
def groupScale (t : Tag) (xs : List Val) : Byte :=
  if xs.any Val.isNan then 0xFF
  else
    let a := magMax xs
    if a.1 = 0 then 127
    else
      let e := a.2 + log2n a.1 - emaxOf t + 127
      BitVec.ofInt 8 (if e < 0 then 0 else if 254 < e then 254 else e)

/-- Nibbles packed two to a byte; the last byte keeps its high nibble where no element has it. -/
def packNibbles : List Nat → List Byte → List Byte
  | [], _ => []
  | [a], old => [BitVec.ofNat 8 (a % 16 + (old.headD 0).toNat / 16 * 16)]
  | a :: b :: r, old => BitVec.ofNat 8 (a % 16 + 16 * (b % 16)) :: packNibbles r (old.drop 1)

/-- One group: the scale code, then the elements; `old` are the bytes that stand there. -/
def groupBytes (t : Tag) (mode : BitVec 3) (xs : List Val) (old : List Byte) : List Byte × Flags :=
  let e := groupScale t xs
  let rs := xs.map fun x => roundTo t mode (x.scale (127 - e.toNat))
  let bits := rs.map (·.1)
  (e :: (if isSub t then packNibbles bits (old.drop 1) else bits.map fun b => BitVec.ofNat 8 b),
    rs.foldl (fun f r => f ||| r.2) 0)

/-- The groups of a scaled store, in ascending order. -/
def groupsBytes (t : Tag) (mode : BitVec 3) : Nat → List Val → List Byte → Nat → List Byte × Flags
  | 0, _, _, _ => ([], 0)
  | fuel + 1, xs, old, per =>
    if xs.isEmpty then ([], 0)
    else
      let (b, f) := groupBytes t mode (xs.take per) old
      let (bs, g) := groupsBytes t mode fuel (xs.drop per) (old.drop b.length) per
      (b ++ bs, f ||| g)

/-- The bytes that n elements take with their scale codes. -/
def scaledBytes (t : Tag) (per n : Nat) : Nat :=
  let body (k : Nat) : Nat := (k * memBits t + 7) / 8
  if n = 0 then 0
  else n / per * (1 + body per) + (if n % per = 0 then 0 else 1 + body (n % per))

/-- A VST with SCALE ≠ 0: all of it or nothing, whatever VMSEL. -/
def State.scaledStore (s : State) (vr : VReg) (base : Word) : Except Stop State :=
  precise s do
    let c := s.cc
    let per := if c.scaleMode = 1 then 32 else max 1 s.vlN
    let n := scaledBytes c.mtag per s.vlN
    let (s1, ps) ← s.piecesLong .store base 4 n
    let s1 ← match ps.getLast? with
      | some p =>
        if isSub c.mtag && s.vlN % 2 == 1 then
          s1.keepByte ⟨{ p.x with pa := p.x.pa + p.len - 1 }, 1⟩ (base + BitVec.ofNat 64 (n - 1))
        else pure s1
      | none => pure s1
    let xs := (List.range s.vlN).map fun i => valOf (s.getV vr).data c.rtag i
    let (bs, f) := groupsBytes c.mtag c.rm (s.vlN + 1) xs (s1.oldBytes ps) per
    let (s2, ws) := s1.storePieces ps bs
    return ((s2.orFlags f).pendStore (joinStores ws).ofVec).retire

/-- A store that a trap stops: what it has sent to peers has left the core and stays counted in S until it is acknowledged
(R220, R332). -/
def State.pendSent (s : State) (ws : List PStore) : State :=
  let w := joinStores ws
  if w.peers.isEmpty then s else s.pendStore w.ofVec

/-- A vector store. A unit that is absent stops it with no effect, at whatever element (R32). -/
def State.vecStore (s0 : State) (form : MemForm) (vr : VReg) (xa : XReg) : Out :=
  finish do
    needVector s0
    stallIf (s0.cc.full .s) s0
    let s ← vfenceWait s0
    let c := s.cc
    if !c.rawm && (s.getV vr).tag != c.rtag then memMismatch s c.mtag (s.getV vr).tag c.rtag
    lenCheck s ((s.getV vr).tag :: memLens s form)
    let base := s.getX xa
    memTable s form vr base
    if !c.rawm && c.scaleMode != 0 then s.scaledStore vr base
    else
      let (items, stop) := s.storeItems form base (s.getV vr)
      if items.any StoreItem.keeps then
        precise s0 (s.scanItems c.mb none (items.map fun it => (it.i, [(it.addr, it.n)])))
      let (s1, plan, trap) ← s.planItems c.mb items
      let (s2, ws) := s1.writeItems plan
      match trap, stop with
      | some (i, t), _ =>
        if t.cause = cUnit then .error (.trap s0 t)
        else .error (.trap (s2.pendSent ws) { t with vstart := some (BitVec.ofNat 10 i) })
      | none, some (i, slot) => reservedCode (s2.pendSent ws) i slot
      | none, none => return ((s2.takeVstart).pendStore (joinStores ws).ofVec).retire

def execVst (vr : VReg) (xa : XReg) (_sc : BitVec 3) (s : State) : Out := s.vecStore .unit vr xa
def execVsts (vr : VReg) (xa : XReg) (_sc : BitVec 3) (s : State) : Out := s.vecStore .stride vr xa
def execVstx (vr : VReg) (xa : XReg) (vi : VReg) (_sc : BitVec 3) (s : State) : Out := s.vecStore (.index vi) vr xa

/-! ### Saving and restoring registers (R223) -/

/-- Translates the bytes of a save block: idempotent WM pages only. -/
def State.savePieces (s : State) (kind : Acc) (va : Word) (n : Nat) : Except Stop (State × List Piece) := do
  let (s1, ps) ← s.pieces kind true va n
  trapIf (ps.any fun p => p.x.ty != 0 || p.x.ic) s cProt va
  return (s1, ps)

def execVsave (vr : VReg) (xa : XReg) (_sc : BitVec 3) (s0 : State) : Out :=
  finish <| precise s0 do
    needVector s0
    stallIf (s0.cc.full .s) s0
    let s ← vfenceWait s0
    let base := s.getX xa
    trapIf (base.toNat % 256 != 0) s cAlign base
    let at_ (k : Nat) : Word := base + BitVec.ofNat 64 k
    let (s1, p1) ← s.savePieces .store (at_ (0x1C0 + vr.toNat)) 1
    let (s2, p2) ← s1.savePieces .store (at_ (0x800 + 1152 * vr.toNat)) 1152
    let v := s.getV vr
    let (s3, w1) := s2.storePieces p1 [v.tag.setWidth 8]
    let (s4, w2) := s3.storePieces p2 (leBytes 1024 v.data.toNat ++ leBytes 128 v.side.toNat)
    return (s4.pendStore (joinStores (w1 ++ w2)).ofVec).retire

def execVrestore (vr : VReg) (xa : XReg) (_sc : BitVec 3) (s0 : State) : Out :=
  finish <| precise s0 do
    pushGuard s0 [vCode vr]
    stallIf (s0.cc.full .l) s0
    let s ← vfenceWait s0
    let base := s.getX xa
    trapIf (base.toNat % 256 != 0) s cAlign base
    let at_ (k : Nat) : Word := base + BitVec.ofNat 64 k
    let (s1, p1) ← s.savePieces .load (at_ (0x1C0 + vr.toNat)) 1
    let (s2, p2) ← s1.savePieces .load (at_ (0x800 + 1152 * vr.toNat)) 1152
    let (s3, tb) ← s2.loadPieces (at_ (0x1C0 + vr.toNat)) p1
    let (s4, bs) ← s3.loadPieces (at_ (0x800 + 1152 * vr.toNat)) p2
    let tag := leNat tb
    trapIf (decide (0x14 ≤ tag)) s cTag (BitVec.ofNat 64 (65536 * (tag % 32)))
    let v : VecReg := ⟨BitVec.ofNat 8192 (leNat (bs.take 1024)), BitVec.ofNat 1024 (leNat (bs.drop 1024)), BitVec.ofNat 5 tag⟩
    return ((s4.putV vr v).pendLoad).retire

def execMsave (mr : MReg) (xa : XReg) (_sc : BitVec 3) (s0 : State) : Out :=
  finish <| precise s0 do
    needVector s0
    stallIf (s0.cc.full .s) s0
    let s ← vfenceWait s0
    let base := s.getX xa
    trapIf (base.toNat % 256 != 0) s cAlign base
    let (s1, ps) ← s.savePieces .store (base + BitVec.ofNat 64 (0x200 + 128 * mr.toNat)) 128
    let (s2, ws) := s1.storePieces ps (leBytes 128 (s.getM mr).toNat)
    return (s2.pendStore (joinStores ws).ofVec).retire

def execMrestore (mr : MReg) (xa : XReg) (_sc : BitVec 3) (s0 : State) : Out :=
  finish <| precise s0 do
    pushGuard s0 [mCode mr]
    stallIf (s0.cc.full .l) s0
    let s ← vfenceWait s0
    let base := s.getX xa
    trapIf (base.toNat % 256 != 0) s cAlign base
    let va := base + BitVec.ofNat 64 (0x200 + 128 * mr.toNat)
    let (s1, ps) ← s.savePieces .load va 128
    let (s2, bs) ← s1.loadPieces va ps
    return ((s2.putM mr (BitVec.ofNat 1024 (leNat bs))).pendLoad).retire

end Sys2Proof.Machine
end

