-- ==== Sys2Proof/Machine/Atomic.lean ====
section
/-! DEFINITION. The cluster atomic engines and the atomics that they perform (11_access.md R222, R228 to R230). -/

namespace Sys2Proof.Machine

/-! ### The engines -/

/-- The engine of an access by its scope: the issuing cluster's, or the home engine of the line (R229). -/
def engineOf (id : BitVec 10) (sc : BitVec 3) (pa : Nat) : Nat :=
  if sc.toNat < 3 then clusterOf id else (pa / 64 % 64) ^^^ (pa / 4096 % 64)

/-- The lines that an engine holds, and the requests of its input queue (R230). -/
def atomLines : Nat := 64
def atomQueue : Nat := 256

/-- The input queue of an engine. -/
def Cluster.input (k : Cluster) : List AtomReq := k.requests.take atomQueue

/-- Whether a request of the input queue asks for a line. -/
def Cluster.queuedTo (k : Cluster) (l : Nat) : Bool := k.input.any fun r => r.addr / 64 == l

/-- The lines that an engine holds after a fill of one, latest first: of 64, the least recently used without a queued
request is written back. None when every line has a request queued. -/
def Cluster.hold (k : Cluster) (l : Nat) : Option (List Nat) :=
  if k.lines.contains l then some (l :: k.lines.filter (· != l))
  else if k.lines.length < atomLines then some (l :: k.lines)
  else (k.lines.reverse.find? fun m => !k.queuedTo m).map fun m => l :: k.lines.filter (· != m)

/-- The request that an engine performs next: the first whose line it holds or can fill. Requests to one line keep their
order, and one that must wait is passed by requests to held lines. -/
def Cluster.nextReq (k : Cluster) : Option AtomReq := k.input.find? fun r => (k.hold (r.addr / 64)).isSome

/-- The function of an atomic on n-byte operands: the new value, none where nothing is written, and the flags (R228). -/
def atomFn (fn : Nat) (size : BitVec 1) (rm : BitVec 3) (old b c : Nat) : Option Nat × Flags :=
  let w := if size = 0 then 32 else 64
  let sg (x : Nat) : Int := intOf true w x
  match fn with
  | 0 => (some ((old + b) % 2 ^ w), 0)
  | 1 =>
    let f := if size = 0 then fmtFP32 else fmtFP64
    let (v, g) := addExact rm (f.decode old) (f.decode b)
    let (r, h) := f.round rm v
    (some r, g ||| h)
  | 2 => (some (old &&& b), 0)
  | 3 => (some (old ||| b), 0)
  | 4 => (some (old ^^^ b), 0)
  | 5 => (some (if sg old < sg b then b else old), 0)
  | 6 => (some (if sg b < sg old then b else old), 0)
  | 7 => (some (max old b), 0)
  | 8 => (some (min old b), 0)
  | 9 => (some b, 0)
  | _ => (if old = c then some b else none, 0)

/-- An engine performs one request: the state, the old value and the flags. The write leaves by the cache of the issuing
control core's die. -/
def State.serve (s : State) (cl : Nat) (r : AtomReq) : State × Nat × Flags :=
  let n := if r.size = 0 then 4 else 8
  let old := leNat (s.bytesIn r.ce r.addr n)
  let (new, f) := atomFn r.fn.toNat r.size r.rm old (r.b.toNat % 2 ^ (8 * n)) (r.c.toNat % 2 ^ (8 * n))
  let s1 := match new with
    | some v => (s.storeIn r.ce r.addr (leBytes n v)).sendStamp (dieOf r.cc)
    | none => s
  (s1.modCluster cl fun c => { c with lines := (c.hold (r.addr / 64)).getD c.lines }, old, f)

/-- ATOMIC_REQUEST: the engine performs one request (R230). -/
def State.serveHead (s : State) (cl : Nat) : State :=
  match (s.clusterAt cl).nextReq with
  | none => s
  | some r => ((s.serve cl r).1).modCluster cl fun c => { c with requests := c.requests.erase r }

def execAtomicRequest (cluster : BitVec 6) (s : State) : Out := .next (s.serveHead cluster.toNat)

/-- Every request that stands before a new one is performed. -/
def State.serveAll (s : State) (cl : Nat) : State :=
  (s.clusterAt cl).requests.foldl (fun u _ => u.serveHead cl) s

/-! ### Scalar atomics (R228) -/

/-- A scalar atomic of function `fn`. -/
def State.atomic (s : State) (fn : BitVec 4) (xd xa xb : XReg) (sz aq rl : BitVec 1) (sc : BitVec 3) : Out :=
  let _acquire := aq
  finish <| precise s do
    let n := if sz = 0 then 4 else 8
    let a := s.getX xa
    trapIf (a.toNat % n != 0) s cAlign a
    let (s1, x) ← s.translate ⟨.atomic, false, n⟩ a
    trapIf (s1.poisoned x.pa n) s1 cMachine a
    trapIf (x.ce && s1.reservedBlock x.pa n) (s1.countError 8 1) cMachine a
    if rl = 1 then waitOwn s1
    let s2 := if rl = 1 then s1.release sc.toNat else s1
    let cl := engineOf s.cc.ctxid sc x.pa
    let s3 := (s2.serveAll cl).count (coreOf s.cc.ctxid) 7 1
    let (s4, old, f) := s3.serve cl ⟨s.cc.ctxid, fn, sz, x.pa, s.getX xb, s.getX xd, s.cc.rm, x.ce⟩
    let v : Word :=
      if sz = 1 then BitVec.ofNat 64 old
      else if fn = 1 then BitVec.ofNat 64 old
      else (BitVec.ofNat 32 old).signExtend 64
    return ((s4.setX xd v).orFlags f).retire

def execAmoadd (xd xa xb : XReg) (sz aq rl : BitVec 1) (sc : BitVec 3) (s : State) : Out := s.atomic 0 xd xa xb sz aq rl sc
def execAmoaddf (xd xa xb : XReg) (sz aq rl : BitVec 1) (sc : BitVec 3) (s : State) : Out := s.atomic 1 xd xa xb sz aq rl sc
def execAmoand (xd xa xb : XReg) (sz aq rl : BitVec 1) (sc : BitVec 3) (s : State) : Out := s.atomic 2 xd xa xb sz aq rl sc
def execAmoor (xd xa xb : XReg) (sz aq rl : BitVec 1) (sc : BitVec 3) (s : State) : Out := s.atomic 3 xd xa xb sz aq rl sc
def execAmoxor (xd xa xb : XReg) (sz aq rl : BitVec 1) (sc : BitVec 3) (s : State) : Out := s.atomic 4 xd xa xb sz aq rl sc
def execAmomax (xd xa xb : XReg) (sz aq rl : BitVec 1) (sc : BitVec 3) (s : State) : Out := s.atomic 5 xd xa xb sz aq rl sc
def execAmomin (xd xa xb : XReg) (sz aq rl : BitVec 1) (sc : BitVec 3) (s : State) : Out := s.atomic 6 xd xa xb sz aq rl sc
def execAmomaxu (xd xa xb : XReg) (sz aq rl : BitVec 1) (sc : BitVec 3) (s : State) : Out := s.atomic 7 xd xa xb sz aq rl sc
def execAmominu (xd xa xb : XReg) (sz aq rl : BitVec 1) (sc : BitVec 3) (s : State) : Out := s.atomic 8 xd xa xb sz aq rl sc
def execAmoswap (xd xa xb : XReg) (sz aq rl : BitVec 1) (sc : BitVec 3) (s : State) : Out := s.atomic 9 xd xa xb sz aq rl sc
def execAmocas (xd xa xb : XReg) (sz aq rl : BitVec 1) (sc : BitVec 3) (s : State) : Out := s.atomic 10 xd xa xb sz aq rl sc

/-! ### VAMOADDF (R222) -/

/-- Sends one element to its engine. -/
def State.sendAdd (s : State) (sc : BitVec 3) (x : Xlat) (bits : Nat) : State :=
  let cl := engineOf s.cc.ctxid sc x.pa
  let req : AtomReq := ⟨s.cc.ctxid, 1, 0, x.pa, BitVec.ofNat 64 bits, 0, s.cc.rm, x.ce⟩
  ((s.modCluster cl fun c => { c with requests := c.requests ++ [req] }).count (coreOf s.cc.ctxid) 7 1).later
    (.atomicRequest (BitVec.ofNat 6 cl))

/-- The translation of one element's word; poison and a reserved code in it raise "machine check" (R215, R283). -/
def State.planAdd (s : State) (a : Word) : Except Stop (State × Xlat) := do
  trapIf (a.toNat % 4 != 0) s cAlign a
  let (s1, x) ← s.translate ⟨.atomic, true, 4⟩ a
  trapIf (s1.poisoned x.pa 4) s1 cMachine a
  trapIf (x.ce && s1.reservedBlock x.pa 4) (s1.countError 8 1) cMachine a
  return (s1, x)

/-- The elements translated in ascending order, before any is sent: those that may be, and the trap that stopped them. -/
def State.planAdds (s : State) :
    List (Nat × Word × Nat) → Except Stop (State × List (Xlat × Nat) × Option (Nat × Trap))
  | [] => .ok (s, [], none)
  | (i, a, bits) :: r =>
    match s.planAdd a with
    | .error (.wait s1) => .error (.wait s1)
    | .error (.trap s1 t) => .ok (s1, [], some (i, t))
    | .ok (s1, x) => do
      let (s2, l, stop) ← State.planAdds s1 r
      return (s2, (x, bits) :: l, stop)

/-- VAMOADDF. TVAL's layout is that of R215 with MTAG and RTAG 0, since MFMT is not read. A unit that is absent stops it
with no effect, at whatever element (R32); a trap leaves the elements that were sent before it counted in S (R332). -/
def execVamoaddf (vr : VReg) (xa : XReg) (vi : VReg) (sc : BitVec 3) (s0 : State) : Out :=
  finish do
    needVector s0
    stallIf (s0.cc.full .s) s0
    let s ← vfenceWait s0
    let v := s.getV vr
    let k := s.getV vi
    if v.tag != tFP32 then memMismatch s 0 v.tag 0
    lenCheck s [tFP32, k.tag]
    if !isInt k.tag then memMismatch s 0 k.tag 0
    let items := s.actives.map fun i => (i, s.getX xa + BitVec.ofInt 64 (intAt k.data k.tag i), slotOf v.data tFP32 i)
    let (s1, plan, trap) ← s.planAdds items
    let s2 := plan.foldl (fun u p => u.sendAdd sc p.1 p.2) s1
    match trap with
    | some (i, t) =>
      if t.cause = cUnit then .error (.trap s0 t)
      else
        let s3 := if plan.isEmpty then s2 else s2.pendStore { vec := true, adds := true }
        .error (.trap s3 { t with vstart := some (BitVec.ofNat 10 i) })
    | none => return ((s2.takeVstart).pendStore { vec := true, adds := true }).retire

end Sys2Proof.Machine
end

