-- ==== Sys2Proof/Machine/Csr.lean ====
section
/-! DEFINITION. Control and status registers: their values, the checks of a write, and CSRR, CSRW, CSRS and CSRC
(06_registers.md R119 to R122, 07_scalar.md R143, R144, 18_traps.md R374). -/

namespace Sys2Proof.Machine

/-- OUTCNT (R122). -/
def OutCnt.word (o : OutCnt) : Word := o.q.setWidth 64 <<< 48 ||| o.t.setWidth 64 <<< 36 ||| o.c.setWidth 64 <<< 24 |||
  o.s.setWidth 64 <<< 12 ||| o.l.setWidth 64

/-- LGSHAPE (R122). -/
def Core.lgshape (c : Core) : Word := (if c.pend then 0x40 else 0) ||| c.nextShape.setWidth 64 <<< 4 ||| c.shape.setWidth 64

/-- STRIP: zero when no loop is active (R122). -/
def ControlCore.strip (c : ControlCore) : Word :=
  if c.loopAct then c.issued.setWidth 64 <<< 32 ||| c.done.setWidth 64 else 0

/-- The value of a control and status register by number (R120); none for an unassigned number. -/
def State.csr (s : State) (n : BitVec 12) : Option Word :=
  let c := s.cc
  match n.toNat with
  | 0x000 => some (c.vl.setWidth 64)
  | 0x001 => some (c.vstart.setWidth 64)
  | 0x002 => some c.vstr
  | 0x003 => some (c.vmsel.setWidth 64)
  | 0x004 => some (c.mfmt.setWidth 64)
  | 0x005 => some (c.fcsr.setWidth 64)
  | 0x006 => some (c.ttol.setWidth 64)
  | 0x007 => some c.strip
  | 0x008 => some (s.coreAt (coreOf c.ctxid)).lgshape
  | 0x009 => some (c.tstep.setWidth 64)
  | 0x00A => some c.uivec
  | 0x00B => some (c.uicause.setWidth 64)
  | 0x00C => some c.uiepc
  | 0x00D => some (c.uistatus.setWidth 64)
  | 0x010 => some s.cycles
  | 0x011 => some c.retired
  | 0x012 => some (c.ctxid.setWidth 64)
  | 0x013 => some s.variant.caps
  | 0x014 => some c.out.word
  | 0x100 => some c.tvec
  | 0x101 => some (c.tcause.setWidth 64)
  | 0x102 => some c.tepc
  | 0x103 => some c.tval
  | 0x104 => some (c.tstatus.setWidth 64)
  | 0x105 => some (c.vdirty.setWidth 64)
  | 0x106 => some c.vowner
  | 0x107 => some c.ptbase
  | 0x108 => some (c.asid.setWidth 64)
  | 0x109 => some (c.maxvl.setWidth 64)
  | 0x10A => some (c.preempt.setWidth 64)
  | 0x10B => some c.rcbptr
  | 0x10C => some c.fault2
  | 0x10D => some c.tscratch
  | 0x10E => some ((s.coreAt (coreOf c.ctxid)).heddle.setWidth 64)
  | _ => none

/-- Registers that only the hardware changes: a write fails at step 3 of R121. -/
def csrHardware (n : BitVec 12) : Bool :=
  n == 0x007 || n == 0x008 || n == 0x012 || n == 0x00B || n == 0x10B

/-- Registers whose write has no effect and raises nothing (R121). -/
def csrIgnored (n : BitVec 12) : Bool := n == 0x010 || n == 0x011 || n == 0x013 || n == 0x014

/-- The registers of vector state that R374 lists. -/
def csrVector (n : BitVec 12) : Bool :=
  n == 0x000 || n == 0x001 || n == 0x002 || n == 0x003 || n == 0x004 || n == 0x006 || n == 0x009 || n == 0x007

/-- Steps 4 and 5 of R121: no reserved bit set, and no field at a value that R122 marks illegal. TCAUSE takes every code of
eight bits: R122 calls the codes from 0x16 on reserved and marks none of them illegal (DESIGN CHOICE, log 37). -/
def csrValueOk (n : BitVec 12) (v : Word) : Bool :=
  let x := v.toNat
  match n.toNat with
  | 0x000 => decide (x ≤ 1024)
  | 0x001 => decide (x < 2 ^ 10)
  | 0x003 => decide (x < 12 ∨ x = 15)
  | 0x004 => decide (x < 2 ^ 13 ∧ x / 2 ^ 10 % 4 ≠ 3 ∧ x / 32 % 32 < 0x14 ∧ x % 32 < 0x14)
  | 0x005 => decide (x < 2 ^ 14 ∧ x / 16 % 16 = 0 ∧ x % 8 < 4)
  | 0x006 => decide (x < 2 ^ 40 ∧ (x % 2 ^ 32 ≤ 0x7F800000 ∨ x % 2 ^ 32 = 0x80000000))
  | 0x009 => decide (x < 2 ^ 32)
  | 0x00A => decide (x % 256 = 0)
  | 0x00D => decide (x < 4)
  | 0x100 => decide (x % 256 = 0)
  | 0x101 => decide (x < 256)
  | 0x104 => decide (x < 256 ∧ x / 4 % 8 = 0 ∧ x % 4 ≠ 3)
  | 0x105 => decide (x < 2 ^ 48)
  | 0x106 => decide (x / 2 % 128 = 0)
  | 0x107 => decide (x < 2 ^ 48 ∧ x % 65536 = 0)
  | 0x108 => decide (x < 2 ^ 16)
  | 0x109 => decide (1 ≤ x ∧ x ≤ 16)
  | 0x10A => decide (x < 2 ^ 32)
  | 0x10E => decide (x < 2 ^ 32)
  | _ => true

/-- The write of a register. -/
def State.csrPut (s : State) (n : BitVec 12) (v : Word) : State :=
  let c := s.cc
  match n.toNat with
  | 0x000 => { s with cc := { c with vl := v.setWidth 11 } }
  | 0x001 => { s with cc := { c with vstart := v.setWidth 10 } }
  | 0x002 => { s with cc := { c with vstr := v } }
  | 0x003 => { s with cc := { c with vmsel := v.setWidth 4 } }
  | 0x004 => { s with cc := { c with mfmt := v.setWidth 13 } }
  | 0x005 => { s with cc := { c with fcsr := v.setWidth 14 } }
  | 0x006 => { s with cc := { c with ttol := v.setWidth 40 } }
  | 0x009 => { s with cc := { c with tstep := v.setWidth 32 } }
  | 0x00A => { s with cc := { c with uivec := v } }
  | 0x00C => { s with cc := { c with uiepc := v } }
  | 0x00D => { s with cc := { c with uistatus := (c.uistatus &&& 2) ||| (v.setWidth 2 &&& 1) } }
  | 0x100 => { s with cc := { c with tvec := v } }
  | 0x101 => { s with cc := { c with tcause := v.setWidth 8 } }
  | 0x102 => { s with cc := { c with tepc := v } }
  | 0x103 => { s with cc := { c with tval := v } }
  | 0x104 => { s with cc := { c with tstatus := v.setWidth 8 } }
  | 0x105 => { s with cc := { c with vdirty := v.setWidth 48 } }
  | 0x106 => { s with cc := { c with vowner := v } }
  | 0x107 => { s with cc := { c with ptbase := v } }
  | 0x108 => { s with cc := { c with asid := v.setWidth 16 } }
  | 0x109 => { s with cc := { c with maxvl := v.setWidth 5 } }
  | 0x10A => { s with cc := { c with preempt := v.setWidth 32 } }
  | 0x10C => { s with cc := { c with fault2 := v } }
  | 0x10D => { s with cc := { c with tscratch := v } }
  | 0x10E => s.modCore (coreOf c.ctxid) fun k => { k with heddle := v.setWidth 32 }
  | _ => s

/-- Steps 1 and 2 of R121 and the check of R374: the old value. -/
def csrAccess (s : State) (i : Instr) (n : BitVec 12) : Except Stop Word :=
  match s.csr n with
  | none => illegal s i
  | some v =>
    if 0x100 ≤ n.toNat ∧ s.cc.level = .user then illegal s i
    else if csrVector n && !s.cc.ven then .error (.trap s { cause := cVector })
    else .ok v

/-- Step 3 of R121. -/
def csrWritable (s : State) (n : BitVec 12) : Bool :=
  !csrHardware n && !(n == 0x000 && s.cc.level == .user)

/-- The writes of R144 with the checks of R121; `new` forms the new value from the old. -/
def csrWrite (s : State) (i : Instr) (xd : XReg) (n : BitVec 12) (reads : Bool) (new : Word → Word) : Except Stop State := do
  let old ← csrAccess s i n
  if reads then return (s.setX xd old).retire
  else if csrIgnored n then return (s.setX xd old).retire
  else if !csrWritable s n || !csrValueOk n (new old) then illegal s i
  else return ((s.csrPut n (new old)).setX xd old).retire

def execCsrr (xd : XReg) (n : BitVec 12) (s : State) : Out :=
  finish do
    let v ← csrAccess s (.csrr xd n) n
    return (s.setX xd v).retire
def execCsrw (xd xa : XReg) (n : BitVec 12) (s : State) : Out :=
  finish (csrWrite s (.csrw xd xa n) xd n false fun _ => s.getX xa)
def execCsrs (xd xa : XReg) (n : BitVec 12) (s : State) : Out :=
  finish (csrWrite s (.csrs xd xa n) xd n (xa == 0) fun old => old ||| s.getX xa)
def execCsrc (xd xa : XReg) (n : BitVec 12) (s : State) : Out :=
  finish (csrWrite s (.csrc xd xa n) xd n (xa == 0) fun old => old &&& ~~~(s.getX xa))

end Sys2Proof.Machine
end

