-- ==== Sys2Proof/Machine/System.lean ====
section
/-! DEFINITION. System instructions and WAIT (07_scalar.md R145 to R154, 15_queues.md R302), with the save that YIELD
makes (18_traps.md R367) and the acceptance of a SPAWN (R16, R38, R371). -/

namespace Sys2Proof.Machine

/-- SYSCALL. It takes its trap and is not counted as retired: DESIGN CHOICE, log 20. -/
def execSyscall (s : State) : Out := .next (s.raiseAt { cause := cSyscall } (s.cc.pc + 4))

/-- TRET: illegal when PPRIV names a level above the current one (R147). -/
def execTret (s : State) : Out :=
  finish do
    needSupervisor s .tret
    if s.cc.level.code.ult s.cc.ppriv then illegal s .tret
    else return s.trapReturn

/-- BRK: a breakpoint trap, or a halt when the debug port has armed it (R146, R380). -/
def execBrk (s : State) : Out :=
  if s.cc.armed then .next (s.modCc fun c => { c with run := .halted }) else .next (s.raise { cause := cBreak })

/-- The control core leaves the waiters of every sheaf queue (R311). -/
def State.unwait (s : State) : State :=
  { s with queues := s.queues.map fun p => (p.1, { p.2 with waiters := p.2.waiters.filter fun w => w.cc != s.cc.ctxid }) }

/-- Takes a pending pre-emption request as a trap (R48); a wait that it ends leaves no waiter behind. -/
def State.preempt (s : State) (cause : BitVec 8) : State :=
  (s.unwait.modCc fun c => { c with request := none }).raise { cause := cause }

/-- Enters a wait. A pre-emption request that is pending is taken at once (R48). -/
def State.enterWait (s : State) (w : RunState) : State :=
  if s.cc.request.isSome && !s.cc.handling then s.preempt cHard else s.modCc fun c => { c with run := w }

/-- IDLE: its register field 0 means no limit (R148). -/
def execIdle (xa : XReg) (s : State) : Out :=
  .next (s.enterWait (.waitIdle (if xa = 0 then none else some (s.getX xa).toNat)))

/-! ### YIELD (R149, R367) -/

/-- The resume block that YIELD writes: all of it but the hook. -/
def ControlCore.resume (c : ControlCore) (hook : List Byte) : List Byte :=
  leBytes 8 (if c.tcause = cSoft then 1 else 2) ++ leBytes 8 c.uivec.toNat ++ leBytes 8 c.uiepc.toNat ++
  leBytes 8 (c.uicause.toNat + 2 ^ 16 * c.uistatus.toNat +
    (match c.ring with | some r => 2 ^ 24 + 2 ^ 32 * r.toNat | none => 0)) ++
  (c.shadow.toList.flatMap fun x => leBytes 8 x.toNat) ++ leBytes 8 c.tstep.toNat ++ hook ++
  leBytes 8 c.tscratch.toNat ++ leBytes 8 c.serial.toNat

/-- The address of the CSA of a region's context (R44). -/
def Region.csa (r : Region) (index : Nat) : Word := r.saveArea + BitVec.ofNat 64 (index * 0xE000)

/-- Writes the resume block where the save area maps it; where it does not, nothing is written (DESIGN CHOICE, log 35). -/
def State.writeResume (s : State) : State :=
  match s.myRegion with
  | none => s
  | some r =>
    match s.schedTranslate r.ptbase r.asid true (r.csa s.cc.index + 0x160) with
    | .error _ => s
    | .ok (s1, x) => s1.dieStore x.ce x.pa (s.cc.resume (s1.bytesIn x.ce (x.pa + 0x48) 8))

/-- The context leaves its control core as SAVED. -/
def State.saveContext (s : State) : State :=
  let s1 := (s.writeResume).release 4
  match s1.cc.region with
  | none => s1.leaveCore
  | some rcb => ((s1.markCtx rcb s1.cc.index (.saved s1.cc.claim s1.cc.parts)).leaveCore).checkSaved rcb

def execYield (s : State) : Out :=
  finish do
    needSupervisor s .yield
    if !s.cc.handling || (s.cc.tcause != cSoft && s.cc.tcause != cHard) then illegal s .yield
    else
      stallIf (!s.cc.out.idle) s
      return s.saveContext

/-- EXIT: waits for every count, fences, ends the context and counts toward the region's retirement (R150). A pre-emption
request that is pending, or comes while it waits, is dropped. -/
def execExit (s : State) : Out :=
  finish do
    stallIf (!s.cc.out.idle) (s.modCc fun c => { c with request := none, leaving := true })
    let s1 := (s.release 4).claimEnd
    match s1.cc.region with
    | none => return s1.leaveCore
    | some rcb =>
      return (((s1.markCtx rcb s1.cc.index .exited).leaveCore).checkSaved rcb).checkRetire rcb

/-! ### SPAWN (R151) -/

/-- A region that the scheduler accepts. -/
def State.acceptRegion (s : State) (pa : Nat) (va : Word) (parent : Option Nat) : State :=
  let c := s.cc
  let word (off : Nat) : Word := BitVec.ofNat 64 (s.peek (pa + off) 8)
  s.putRegion pa
    { va := va, parent := parent, service := false, entry := word 0x18, launch := word 0x20, saveArea := word 0x40
      tvec := c.tvec, ptbase := c.ptbase, asid := c.asid, maxvl := c.maxvl, preempt := c.preempt }

/-- Links a child first among its siblings (R16). -/
def State.linkChild (s : State) (parentPa childPa : Nat) (childVa : Word) : State :=
  let first := s.bytes (parentPa + 0x08) 8
  (s.dieBytes (childPa + 0x10) first).dieBytes (parentPa + 0x08) (leBytes 8 childVa.toNat)

/-- Whether the scheduler may accept an RCB: its state word is NEW and no acceptance of it stands (R38, R151). -/
def State.rcbIsNew (s : State) (pa : Nat) : Bool :=
  s.peek (pa + 0x48) 4 == 0 && match s.regionAt pa with | some r => r.state.ended | none => true

/-- The parent that an RCB names, when it is the caller's region or a live descendant of it (R39, R151). -/
def State.spawnParent (s : State) (pa : Nat) : Option Nat :=
  match s.cc.region, s.schedLeaf s.cc.ptbase s.cc.asid false (BitVec.ofNat 64 (s.peek pa 8)) with
  | some mine, .ok (_, p) =>
    if (s.subtree s.regions.length mine).contains p && (match s.regionAt p with | some r => !r.state.ended | none => false)
    then some p else none
  | _, _ => none

/-- SPAWN. The RCB may lie on any page that admits a store of 256 bytes (R151, R206). Where the state word is not NEW and the
parent is wrong as well, the answer is 1 (DESIGN CHOICE, log 45). -/
def execSpawn (xd xa : XReg) (s : State) : Out :=
  finish <| precise s do
    let va := s.getX xa
    trapIf (va.toNat % 256 != 0) s cAlign va
    let (s1, x) ← s.translate ⟨.store, false, 256⟩ va
    waitOwn s1
    let s2 := s1.release 4
    if !s2.rcbIsNew x.pa then return (s2.setX xd 1).retire
    else match s2.spawnParent x.pa with
      | none => return (s2.setX xd 2).retire
      | some p =>
        let s3 := (s2.acceptRegion x.pa va (some p)).linkChild p x.pa va
        return ((s3.later (.rcbCheck (BitVec.ofNat 48 x.pa))).setX xd 0).retire

/-! ### UIRET, TLBINV, LGSET -/

def execUiret (s : State) : Out :=
  finish do
    if !s.cc.inui then illegal s .uiret
    else return (s.modCc fun c => { c.swapShadows with uistatus := 1 }).retireTo s.cc.uiepc

/-- Whether TLBINV removes an entry: the address and the ASID both match, where they are given (R153). -/
def TlbEntry.dropped (t : TlbEntry) (va : Option Word) (asid : Option (BitVec 16)) : Bool :=
  (match va with | none => true | some a => a.toNat / leafSize t.level == t.va.toNat / leafSize t.level) &&
  (match asid with | none => true | some n => t.asid == n || (pteL t.entry && pteG t.entry))

/-- Whether an access that has been translated is still to be made or performed: a load, a store, a queued atomic, a query's
reply, a CM store, a region operation, a train, a read sent to a peer, a card's write to a peer (R153). -/
def State.accessesPending (s : State) : Bool :=
  !(s.allCcs.all ControlCore.ownDone) || !(s.clusters.all fun p => p.2.requests.isEmpty) || !s.queries.isEmpty ||
  !s.cmStores.isEmpty || !s.cmOps.isEmpty || !s.trains.isEmpty || !s.strays.isEmpty ||
  (s.peerReads.any fun r => r.got == .waiting) || s.jobs.any fun j => !j.peers.isEmpty

/-- TLBINV. It waits for every access that has been translated, through whatever entry: a wait for more than those through
the matching entries shows in timing alone (R153). The completion writes of cards, which may be long in coming, it waits for
where they were translated through a matching entry. -/
def execTlbinv (xa xb : XReg) (s : State) : Out :=
  finish do
    needSupervisor s (.tlbinv xa xb)
    let va := if xa = 0 then none else some (s.getX xa)
    let asid : Option (BitVec 16) := if xb = 0 then none else some ((s.getX xb).setWidth 16)
    stallIf (s.accessesPending || s.jobs.any fun j => j.entry.any fun t => t.dropped va asid) s
    let keep (l : List TlbEntry) : List TlbEntry := l.filter fun t => !t.dropped va asid
    let s1 := s.release 4
    let drop (c : ControlCore) : ControlCore := { c with tlb := keep c.tlb, held := keep c.held }
    let dropJob (j : Job) : Job := { j with held := keep j.held }
    let s2 := { s1 with
      cc := drop s1.cc
      others := tmap drop s1.others
      jobs := s1.jobs.map dropJob
      cores := tmap (fun c => { c with l2 := keep c.l2 }) s1.cores
      clusters := tmap (fun c => { c with walkCache := keep c.walkCache }) s1.clusters }
    return s2.retire

/-- LANE_SHAPE_CHANGE: a pending request takes effect when it may (R37, R154). -/
def State.applyShape (s : State) (core : Nat) : State :=
  if s.shapeReady core then s.modCore core fun c => { c with shape := c.nextShape, pend := false } else s

/-- A new request: every context of the core has a SETVL to reach (R37). -/
def State.unreach (s : State) (core : Nat) : State :=
  let clear (c : ControlCore) : ControlCore := if coreOf c.ctxid = core then { c with reached := false } else c
  { s with cc := clear s.cc, others := tmap clear s.others }

def execLgset (xa : XReg) (s : State) : Out :=
  finish do
    needSupervisor s (.lgset xa)
    if 4 ≤ (s.getX xa).toNat then illegal s (.lgset xa)
    else
      let core := coreOf s.cc.ctxid
      let code : BitVec 2 := (s.getX xa).setWidth 2
      let c := s.coreAt core
      if code = c.shape then return (s.modCore core fun c => { c with pend := false }).retire
      else return ((s.modCore core fun c => { c with pend := true, nextShape := code }).unreach core).retire

/-! ### WAIT (R302) -/

/-- Whether the counts meet the limits of a WAIT; 31 is no limit. -/
def OutCnt.meets (o : OutCnt) (l s c t q : BitVec 5) : Bool :=
  let ok (lim : BitVec 5) (n : BitVec 12) : Bool := lim == 31 || decide (n.toNat ≤ lim.toNat)
  ok l o.l && ok s o.s && ok c o.c && ok t o.t && ok q o.q

def execWait (l s c t q : BitVec 5) (st : State) : Out :=
  if st.cc.out.meets l s c t q then .next st.retire else .next (st.enterWait (.waitCounts l s c t q))

end Sys2Proof.Machine
end

