-- ==== Sys2Proof/Machine/Fence.lean ====
section
/-! DEFINITION. Fences, barriers and RING (11_access.md R231 to R235). -/

namespace Sys2Proof.Machine

def execFence (sc : BitVec 3) (s : State) : Out :=
  finish do
    waitOwn s
    return (s.release sc.toNat).retire

/-- VFENCE: the control core goes on, and the vector stream's next memory access waits until its earlier ones are performed
(R231). -/
def execVfence (sc : BitVec 3) (s : State) : Out :=
  finish do
    needVector s
    return ((s.release sc.toNat).modCc fun c => { c with vfence := true }).retire

/-- The physical slot that an index names; an index at or above the slot count raises "protection" (R231). -/
def slotIndex (s : State) (v : Word) : Except Stop Nat :=
  match s.myRegion with
  | some r => if v.toNat < r.slots then .ok (physSlot s.cc.ctxid (r.firstSlot + v.toNat))
    else .error (.trap s { cause := cProt, tval := v })
  | none => .error (.trap s { cause := cProt, tval := v })

/-- The watchdog budget of the context's region. -/
def State.budget (s : State) : Nat := match s.myRegion with | some r => r.watchdog | none => 0

def execVfenceBar (xd xa : XReg) (s : State) : Out :=
  finish do
    needVector s
    let p ← slotIndex s (s.getX xa)
    trapIf ((s.slotAt p).expected == 0) s cProt (s.getX xa)
    waitOwn s
    let ph := (s.slotAt p).phase
    let s1 := (s.release (slotScope p)).modSlot p fun t => t.arrive s.budget
    let s2 := s1.modCc fun c => { c with parts := tins c.parts p (some ph) }
    return (s2.setX xd (ph.setWidth 64)).retire

def execBarwait (xa xb : XReg) (s : State) : Out :=
  finish do
    let p ← slotIndex s (s.getX xa)
    let k : BitVec 16 := (s.getX xb).setWidth 16
    if (s.slotAt p).phase != k then return s.retire
    else return s.enterWait (.waitBar p k)

def execBarcfg (xd xa xb : XReg) (s : State) : Out :=
  finish do
    let p ← slotIndex s (s.getX xa)
    let n : BitVec 16 := (s.getX xb).setWidth 16
    let t := s.slotAt p
    if t.arrivals != 0 then return (s.setX xd 1).retire
    else if n = 0 then return (s.setX xd 2).retire
    else return ((s.modSlot p fun t => { t with expected := n }).setX xd 0).retire

/-- Whether a control core runs a context of the caller's region in the caller's cluster (R235). -/
def State.ringable (s : State) (id : BitVec 10) : Bool :=
  let c := s.ccAt id
  c.run != .absent && c.region == s.cc.region && clusterOf id == clusterOf s.cc.ctxid

def execRing (xd xa xb : XReg) (s : State) : Out :=
  finish do
    waitOwn s
    let t := s.getX xa
    let id : BitVec 10 := t.setWidth 10
    if 1024 ≤ t.toNat ∨ s.ringable id = false then return (s.setX xd 2).retire
    else if (s.ccAt id).ring.isSome then return (s.setX xd 1).retire
    else return ((s.offerRing id ((s.getX xb).setWidth 16)).setX xd 0).retire

end Sys2Proof.Machine
end

