-- ==== Sys2Proof/Machine/Sheaf.lean ====
section
/-! DEFINITION. Sheaf queues: records, firing, delivery, and the instructions SHCFG, SHPUSH, SHWAIT, SHDONE and SHSTAT
(15_queues.md R303 to R313, 16_tables.md R333). -/

namespace Sys2Proof.Machine

/-! ### Records (R304, R333) -/

/-- The probe token. -/
def Rec.isProbe (r : Rec) : Bool := r.bits.setWidth 32 == 0xFFFFFFFF#32

/-- The age of a record in ticks. -/
def Rec.age (r : Rec) (tick : Word) : Nat := min (tick - r.arrival).toNat 0xFFFF

/-- Regular on-die entries in use: unclaimed, being fired, and claimed but not done. -/
def Queue.onDie (q : Queue) : Nat :=
  (q.recs.filter fun r => r.place == .onDie).length + q.claimed.length +
    match q.firing with | some f => f.recs.length | none => 0

def Queue.spillCount (q : Queue) : Nat := (q.recs.filter fun r => r.place == .spill).length
def Queue.reserveUsed (q : Queue) : Bool := q.recs.any fun r => r.place == .reserve

/-- The physical address of the k-th slot written in the spill ring. -/
def ShCfg.slotPa (c : ShCfg) (k : Nat) : Nat := c.spillPa + 8 * (k % 2 ^ c.spill)

/-- Records move on-die in order while regular entries are free; one that was in the spill ring is read from it. -/
def Queue.refill (s : State) (c : ShCfg) (q : Queue) : Queue :=
  let first := q.spilled - q.spillCount
  let (rs, _, _) := q.recs.foldl (fun (acc : List Rec × Nat × Nat) r =>
    let (out, free, k) := acc
    match r.place with
    | .onDie => (out ++ [r], free, k)
    | .spill =>
      if 0 < free then
        (out ++ [{ r with place := .onDie, bits := BitVec.ofNat 64 (leNat (s.bytesIn c.spillCe (c.slotPa k) 8)) }], free - 1, k + 1)
      else (out ++ [r], 0, k + 1)
    | .reserve => if 0 < free then (out ++ [{ r with place := .onDie }], free - 1, k) else (out ++ [r], 0, k))
    ([], 63 - q.onDie, first)
  { q with recs := rs }

/-- Refills a configured queue. -/
def State.refill (s : State) (g : Nat) : State :=
  match (s.queueAt g).cfg with
  | some c => s.modQueue g (Queue.refill s c)
  | none => s

/-! ### Firing (R308, R309) -/

/-- Whether the oldest unclaimed record has reached the age limit. -/
def Queue.expired (q : Queue) (tick : Word) : Bool :=
  match q.cfg, q.recs.head? with
  | some c, some r => c.age != 0 && decide (c.age ≤ r.age tick)
  | _, _ => false

/-- Whether a probe token or a record marked for drain is among the unclaimed. -/
def Queue.pressed (q : Queue) : Bool := q.recs.any fun r => r.drain || r.isProbe

/-- Whether a queue is in class 1. -/
def Queue.isClass1 (q : Queue) (tick : Word) : Bool := q.expired tick || q.pressed

/-- When its class-1 condition began. -/
def Queue.since (q : Queue) (tick : Word) : Nat :=
  match q.class1, q.cfg, q.recs.head? with
  | some t, _, _ => t.toNat
  | none, some c, some r => if q.expired tick then r.arrival.toNat + c.age else tick.toNat
  | _, _, _ => tick.toNat

/-- Whether a queue has reached its threshold. -/
def Queue.filled (q : Queue) : Bool := match q.cfg with | some c => decide (c.threshold ≤ q.recs.length) | none => false

/-- Whether a queue is eligible to fire. -/
def Queue.eligible (q : Queue) (tick : Word) : Bool :=
  q.cfg.isSome && q.firing.isNone && (q.recs.any fun r => r.place == .onDie) && !q.waiters.isEmpty &&
  (q.isClass1 tick || q.filled)

/-- Marks the beginning of a class-1 condition, or its end. -/
def State.noteClass1 (s : State) (g : Nat) : State :=
  s.modQueue g fun q =>
    if q.isClass1 s.tick then (match q.class1 with | some _ => q | none => { q with class1 := some (BitVec.ofNat 64 (q.since s.tick)) })
    else { q with class1 := none }

/-- The records that a firing takes: the oldest on-die ones, up to max sheaf, as far as the first probe. -/
def takeSheaf : Nat → List Rec → List Rec
  | 0, _ => []
  | _, [] => []
  | n + 1, r :: rest => if r.isProbe then [r] else r :: takeSheaf n rest

/-- The queue that a free engine of a cluster takes next. -/
def State.nextFiring (s : State) (cl : Nat) : Option Nat :=
  let el := ((List.range 16).map (16 * cl + ·)).filter fun g => (s.queueAt g).eligible s.tick
  let one := el.filter fun g => (s.queueAt g).isClass1 s.tick
  match one with
  | g :: r => some (r.foldl (fun b k => if (s.queueAt k).since s.tick < (s.queueAt b).since s.tick then k else b) g)
  | [] =>
    let last := (s.clusterAt cl).lastFill
    match el.find? fun g => decide (last < g) with
    | some g => some g
    | none => el.head?

/-- SHEAF_FIRING: a free firing engine begins on the next eligible queue. -/
def State.fire (s : State) (cl : Nat) : State :=
  if 4 ≤ (s.clusterAt cl).firing.length then s
  else match s.nextFiring cl with
  | none => s
  | some g =>
    let q := s.queueAt g
    let max := match q.cfg with | some c => c.maxSheaf | none => 0
    let recs := takeSheaf max (q.recs.filter fun r => r.place == .onDie)
    let class1 := q.isClass1 s.tick
    let cause : BitVec 32 := if q.pressed then 2 else if class1 then 1 else 0
    let rest := (q.recs.filter fun r => r.place == .onDie).drop recs.length ++ q.recs.filter fun r => r.place != .onDie
    let s1 := s.modQueue g fun q => { q with recs := rest, firing := some { recs := recs, cause := cause } }
    let s2 := s1.modCluster cl fun c =>
      { c with firing := c.firing ++ [g], lastFill := if class1 then c.lastFill else g }
    s2.later (.sheafDelivery (BitVec.ofNat 10 g))

def execSheafFiring (cluster : BitVec 6) (s : State) : Out := .next (s.fire cluster.toNat)

/-- SHEAF_AGE_EXPIRY: the class-1 condition of a queue is noted. -/
def execSheafAgeExpiry (q : BitVec 10) (s : State) : Out := .next (s.noteClass1 q.toNat)

/-- The batch buffer (R309). -/
def batchBytes (j : BitVec 32) (f : Firing) : List Byte :=
  let back := (f.recs.filter Rec.returned).length
  leBytes 4 f.recs.length ++ leBytes 4 j.toNat ++ leBytes 4 f.cause.toNat ++
    leBytes 4 ((if back = 0 then 0 else 1) + 65536 * back) ++ f.recs.flatMap fun r => leBytes 8 r.bits.toNat

/-- SHEAF_DELIVERY: the firing of a queue ends. The records go to the waiter that waits longest, or back to their places
where none is left; a queue that stays in class 1 re-enters its order now. -/
def State.deliverSheaf (s : State) (g : Nat) : State :=
  let q := s.queueAt g
  let s1 := s.modCluster (g / 16) fun c => { c with firing := c.firing.filter (· != g) }
  match q.firing with
  | none => s1
  | some f =>
    let again (u : State) : State := u.modQueue g fun q =>
      { q with class1 := if q.isClass1 u.tick then some u.tick else none }
    match q.waiters with
    | [] => again (s1.modQueue g fun q =>
        { q with firing := none, recs := q.recs.take f.ahead ++ f.recs ++ q.recs.drop f.ahead })
    | w :: rest =>
      let who := (s.ccAt w.cc).who
      let s2 := (s1.releaseDie (g / 256)).storeIn w.ce w.buf (batchBytes w.index f)
      let s3 := s2.modQueue g fun q =>
        { q with firing := none, waiters := rest, claimed := q.claimed ++ f.recs.map fun r => (who, r) }
      let s4 := s3.onCc w.cc fun u =>
        ((u.modCc fun c => { c with run := .running, claim := some ⟨g, f.recs.length, 0⟩ }).setX w.xd
          (BitVec.ofNat 64 f.recs.length)).retire
      again s4

def execSheafDelivery (q : BitVec 10) (s : State) : Out := .next (s.deliverSheaf q.toNat)

/-! ### SHCFG (R305, R306) -/

/-- The device queue that an index names (R303). -/
def queueIndex (s : State) (v : Word) : Except Stop Nat :=
  match s.myRegion with
  | some r => if v.toNat < r.queues then .ok (r.firstQ + v.toNat) else .error (.trap s { cause := cProt, tval := v })
  | none => .error (.trap s { cause := cProt, tval := v })

/-- Whether the fields of a configuration record are in range. -/
def shFieldsOk (threshold maxSheaf spill : Nat) (rsv : List Byte) (va : Nat) : Bool :=
  rsv.all (· == 0) && decide (spill ≤ 13) && decide (maxSheaf ≤ 63) &&
  (maxSheaf == 0 || (decide (1 ≤ threshold ∧ threshold ≤ maxSheaf) && (spill == 0 || va % (8 * 2 ^ spill) == 0)))

/-- Whether a queue holds nothing: no record, claim or waiter. -/
def Queue.empty (q : Queue) : Bool := q.recs.isEmpty && q.claimed.isEmpty && q.waiters.isEmpty && q.firing.isNone

/-- Whether a configuration keeps the max sheaf and the spill ring. -/
def ShCfg.keeps (c : ShCfg) (maxSheaf spill : Nat) (va : Word) : Bool :=
  c.maxSheaf == maxSheaf && c.spill == spill && (spill == 0 || c.spillVa == va)

def execShcfg (xd xa xb : XReg) (s : State) : Out :=
  finish <| precise s do
    let g ← queueIndex s (s.getX xa)
    let a := s.getX xb
    trapIf (a.toNat % 16 != 0) s cAlign a
    let (s1, bs) ← withTval a (s.loadAt a 16)
    let field (off n : Nat) : Nat := leNat ((bs.drop off).take n)
    let threshold := field 0 1
    let maxSheaf := field 1 1
    let age := field 2 2
    let spill := field 4 1
    let va : Word := BitVec.ofNat 64 (field 8 8)
    let q := s1.queueAt g
    let same := match q.cfg with | some c => c.keeps maxSheaf spill va | none => true
    if !shFieldsOk threshold maxSheaf spill ((bs.drop 5).take 3) va.toNat then return (s1.setX xd 2).retire
    else if !q.empty && (!same || maxSheaf == 0) then return (s1.setX xd 1).retire
    else if maxSheaf = 0 then return ((s1.modQueue g fun _ => {}).setX xd 0).retire
    else
      let done (u : State) (pa : Nat) (ce : Bool) : State :=
        let cfg : ShCfg := ⟨threshold, maxSheaf, age, spill, va, pa, s.cc.region, ce⟩
        ((((u.modQueue g fun q => { q with cfg := some cfg, spilled := if same then q.spilled else 0 }).noteClass1 g)).setX xd 0).retire
      if spill = 0 then return done s1 0 false
      else match s1.translate ⟨.store, false, 8⟩ va with
        | .ok (s2, x) => if x.ty = 0 then return done s2 x.pa x.ce else return (s2.setX xd 3).retire
        | .error (.trap s2 _) => return (s2.setX xd 3).retire
        | .error (.wait s2) => .error (.wait s2)

/-- SHCFG with xb = 0: drain. -/
def execShcfgDrain (xd xa : XReg) (s : State) : Out :=
  finish do
    let g ← queueIndex s (s.getX xa)
    if (s.queueAt g).cfg.isNone then return (s.setX xd 4).retire
    else
      let s1 := (s.modQueue g fun q => { q with recs := q.recs.map fun r => { r with drain := true } }).noteClass1 g
      return (s1.setX xd 0).retire

/-! ### SHPUSH (R307) -/

/-- Appends a record to a queue; none when there is no place for it. -/
def State.pushRec (s : State) (g : Nat) (bits : BitVec 64) : Option State :=
  let q := s.queueAt g
  match q.cfg with
  | none => none
  | some c =>
    let r (p : Place) : Rec := { bits := bits, arrival := s.tick, place := p }
    let put (u : State) (p : Place) (k : Nat) : State :=
      (u.modQueue g fun q => { q with recs := q.recs ++ [r p], spilled := q.spilled + k }).noteClass1 g
    if q.onDie < 63 ∧ q.spillCount = 0 then some (put s .onDie 0)
    else if c.spill ≠ 0 ∧ q.spillCount < 2 ^ c.spill then
      some (put (s.dieStore c.spillCe (c.slotPa q.spilled) (leBytes 8 bits.toNat)) .spill 1)
    else if (r .reserve).isProbe ∧ q.reserveUsed = false then some (put s .reserve 0)
    else none

/-- The records of a SHPUSH in ascending element order, and the element and queue that had no place. -/
def State.pushRecs (s : State) : List (Nat × Nat × BitVec 64) → State × Option (Nat × Nat)
  | [] => (s, none)
  | (i, g, bits) :: r =>
    match s.pushRec g bits with
    | some s1 => State.pushRecs s1 r
    | none => (s, some (i, g))

def execShpush (vq vs vw : VReg) (s : State) : Out :=
  finish do
    needVector s
    let q := s.getV vq
    let a := s.getV vs
    let b := s.getV vw
    let word (t : Tag) : Bool := t == tI32 || t == tUI32
    tagCheck (word q.tag && word a.tag && b.tag == tFP32) s a.tag b.tag q.tag
    lenCheck s [q.tag, a.tag, b.tag]
    let idx (i : Nat) : Nat := slotOf q.data tUI32 i
    let (first, n) := match s.myRegion with | some r => (r.firstQ, r.queues) | none => (0, 0)
    match s.actives.find? fun i => decide (n ≤ idx i) with
    | some i => trapIf true s cProt (BitVec.ofNat 64 (idx i))
    | none => pure ()
    waitOwn s
    let items := s.actives.map fun i =>
      (i, first + idx i, BitVec.ofNat 64 (slotOf b.data tFP32 i * 2 ^ 32 + slotOf a.data tUI32 i))
    let (s1, stop) := (s.release 4).pushRecs items
    match stop with
    | some (i, g) =>
      .error (.trap s1 { cause := cSpill, tval := BitVec.ofNat 64 g, vstart := some (BitVec.ofNat 10 i) })
    | none => return (s1.takeVstart).retire

/-! ### SHWAIT, SHDONE, SHSTAT (R311 to R313) -/

def execShwait (xd xa xb : XReg) (s : State) : Out :=
  finish <| precise s do
    let g ← queueIndex s (s.getX xa)
    let a := s.getX xb
    if s.cc.claim.isSome then illegal s (.shwait xd xa xb)
    trapIf (a.toNat % 64 != 0) s cAlign a
    let (s1, ps) ← withTval a (s.pieces .store false a 520)
    trapIf (decide (1 < ps.length) || ps.any fun p => p.x.ty != 0 || p.x.ic) s1 cProt a
    if (s1.queueAt g).cfg.isNone then return (s1.setX xd 0).retire
    else if s1.cc.request.isSome && !s1.cc.handling then return s1.preempt cHard
    else
      let w : Waiter := ⟨s.cc.ctxid, (s.getX xa).setWidth 32, xd, (ps.head?.map fun p => p.x.pa).getD 0, ps.any fun p => p.x.ce⟩
      return (s1.modQueue g fun q => { q with waiters := q.waiters ++ [w] }).modCc fun c => { c with run := .waitSheaf g }

/-- The claimed records of a context without the first n. -/
def dropClaimed (who : Nat × Nat) : Nat → List ((Nat × Nat) × Rec) → List ((Nat × Nat) × Rec)
  | 0, l => l
  | _, [] => []
  | n + 1, p :: r => if p.1 == who then dropClaimed who n r else p :: dropClaimed who (n + 1) r

def execShdone (xd xa : XReg) (s : State) : Out :=
  finish do
    match s.cc.claim with
    | none => return (s.setX xd 1).retire
    | some c =>
      let n := (s.getX xa).toNat
      if n < c.done ∨ c.count < n then return (s.setX xd 2).retire
      else
        waitOwn s
        let s1 := (s.release 4).modQueue c.queue fun q =>
          { q with claimed := dropClaimed s.cc.who (n - c.done) q.claimed }
        let s2 := (s1.refill c.queue).modCc fun k => { k with claim := if n = c.count then none else some { c with done := n } }
        return (s2.setX xd 0).retire

/-- SHSTAT's snapshot. -/
def Queue.stat (q : Queue) (tick : Word) : Word :=
  let age := match q.recs.head? with | some r => r.age tick | none => 0
  let (th, mx) := match q.cfg with | some c => (c.threshold, c.maxSheaf) | none => (0, 0)
  BitVec.ofNat 64 (min q.recs.length 65535 + 2 ^ 16 * age + 2 ^ 32 * mx + 2 ^ 38 * th + 2 ^ 44 * q.claimed.length +
    2 ^ 50 * min q.waiters.length 63 + (if q.cfg.isSome then 2 ^ 56 else 0) +
    (if q.recs.any Rec.isProbe then 2 ^ 57 else 0) + (if q.recs.any Rec.drain then 2 ^ 58 else 0))

def execShstat (xd xa : XReg) (s : State) : Out :=
  finish do
    let g ← queueIndex s (s.getX xa)
    return (s.setX xd ((s.queueAt g).stat s.tick)).retire

end Sys2Proof.Machine
end

