-- ==== Sys2Proof/Machine/CmBase.lean ====
section
/-! DEFINITION. Regions of capacity memory: placement, elements, summaries and ownership (12_capacity.md R236 to R249),
and the work of a CM store when it is performed (R243, R244, R270). -/

namespace Sys2Proof.Machine

/-! ### Placement (R241, R242, R244) -/

/-- A size rounded up to whole 32-byte sectors. -/
def toSectors (n : Nat) : Nat := (n + 31) / 32 * 32

/-- The element bytes of a row, EB (R241). -/
def CmRegion.eb (r : CmRegion) : Nat :=
  if isSx r.tag then r.cols / 16 * sxBytes r.tag else (r.cols * memBits r.tag + 7) / 8

/-- The bytes of a row that hold elements and scale codes. -/
def CmRegion.used (r : CmRegion) : Nat :=
  r.eb + (if r.scale = 1 then (r.cols + 31) / 32 else if r.scale = 2 then 1 else 0)

/-- The stored size of a row, RB (R241). -/
def CmRegion.rb (r : CmRegion) : Nat := toSectors r.used

/-- The stacks of a mask, ascending. -/
def stacksOf (mask : BitVec 8) : List Nat := (List.range 8).filter fun k => mask.getLsbD k

def CmRegion.stacks (r : CmRegion) : List Nat := stacksOf r.mask
def CmRegion.n (r : CmRegion) : Nat := r.stacks.length

/-- The first byte of a stack's slice. -/
def stackBase (k : Nat) : Nat := cmBase + k * cmStack

/-- off of R242. -/
def CmRegion.off (r : CmRegion) : Nat := r.base - stackBase (r.stacks.headD 0)

/-- Stripes that each stack reserves (R242). -/
def CmRegion.depth (r : CmRegion) : Nat := ((r.rows + 63) / 64 + r.n - 1) / r.n

/-- The bytes of rows that each stack reserves (R242). -/
def CmRegion.rowArea (r : CmRegion) : Nat := r.depth * 64 * r.rb

/-- The rows of a block; 0 for none (R72). -/
def CmRegion.g (r : CmRegion) : Nat := if r.granule = 0 then 0 else 8 * 2 ^ r.granule.toNat

/-- The bytes of a block's summary, SB (R244). -/
def CmRegion.sb (r : CmRegion) : Nat := toSectors (r.cols * 2 * memBits r.stag / 8)

/-- All the bytes that each stack reserves. -/
def CmRegion.area (r : CmRegion) : Nat := r.rowArea + (if r.g = 0 then 0 else r.depth * (64 / r.g) * r.sb)

/-- A region at another place. -/
def CmRegion.placed (r : CmRegion) (base : Nat) (mask : BitVec 8) : CmRegion := { r with base := base, mask := mask, next := none }

/-- The region as it lies for stripe p: where CMMOV has moved the stripe already, at the new place (R251). -/
def CmRegion.forStripe (r : CmRegion) (p : Nat) : CmRegion :=
  match r.next with
  | some (base, mask, k) => if p < k then r.placed base mask else r
  | none => r

/-- The physical address of row i (R242) in a region that lies at one place. -/
def CmRegion.rowAt (r : CmRegion) (i : Nat) : Nat :=
  let p := i / 64
  stackBase (r.stacks[p % r.n]?.getD 0) + r.off + p / r.n * 64 * r.rb + i % 64 * r.rb

/-- The physical address of row i. -/
def CmRegion.rowPa (r : CmRegion) (i : Nat) : Nat := (r.forStripe (i / 64)).rowAt i

/-- The physical address of the summary of block b (R244) in a region that lies at one place. -/
def CmRegion.sumAt (r : CmRegion) (b : Nat) : Nat :=
  let p := b * r.g / 64
  let per := 64 / r.g
  stackBase (r.stacks[p % r.n]?.getD 0) + r.off + r.rowArea + (p / r.n * per + b % per) * r.sb

/-- The physical address of the summary of block b. -/
def CmRegion.sumPa (r : CmRegion) (b : Nat) : Nat := (r.forStripe (b * r.g / 64)).sumAt b

/-- Stripes of a region. -/
def CmRegion.stripes (r : CmRegion) : Nat := (r.rows + 63) / 64

/-- The row of a physical address, and the offset in it; while CMMOV moves the region, of an address of its old place. -/
def CmRegion.find (r : CmRegion) (pa : Nat) : Option (Nat × Nat) :=
  match (r.stacks.zip (List.range r.n)).find? fun p => p.1 == (pa - cmBase) / cmStack with
  | none => none
  | some (st, k) =>
    let o := pa - stackBase st
    if cmBase ≤ pa ∧ r.off ≤ o ∧ o - r.off < r.rowArea then
      let q := (o - r.off) / (64 * r.rb)
      let w := (o - r.off) % (64 * r.rb)
      let row := 64 * (q * r.n + k) + w / r.rb
      if row < r.rows then some (row, w % r.rb) else none
    else none

/-- Whether a region's rows are stored as floating point or SX, so that results are FP32 (R253). -/
def CmRegion.flt (r : CmRegion) : Bool := isFlt r.tag || isSx r.tag

/-! ### Descriptors (R72) -/

/-- A descriptor as its 64 bytes. -/
def CmRegion.bytes (r : CmRegion) : List Byte :=
  leBytes 8 r.base ++ leBytes 8 r.rows ++ leBytes 4 r.cols ++
  [r.mask, BitVec.ofNat 8 (r.tag.toNat + 32 * r.scale.toNat), r.granule.setWidth 8, r.stag.setWidth 8] ++
  leBytes 2 r.key.toNat ++ leBytes 2 r.asid.toNat ++ leBytes 4 0 ++ leBytes 8 r.append ++ leBytes 24 0

/-- A field of a record of bytes. -/
def fieldOf (bs : List Byte) (off n : Nat) : Nat := leNat ((bs.drop off).take n)

/-- The fields of a descriptor. -/
def CmRegion.ofBytes (bs : List Byte) : CmRegion :=
  { base := fieldOf bs 0 8, rows := fieldOf bs 8 8, cols := fieldOf bs 0x10 4, mask := BitVec.ofNat 8 (fieldOf bs 0x14 1)
    tag := BitVec.ofNat 5 (fieldOf bs 0x15 1), scale := BitVec.ofNat 2 (fieldOf bs 0x15 1 / 32)
    granule := BitVec.ofNat 2 (fieldOf bs 0x16 1), stag := BitVec.ofNat 5 (fieldOf bs 0x17 1)
    key := BitVec.ofNat 16 (fieldOf bs 0x18 2), asid := BitVec.ofNat 16 (fieldOf bs 0x1A 2), append := fieldOf bs 0x20 8 }

/-- Whether the reserved bits and bytes of a descriptor are zero. -/
def descReservedOk (bs : List Byte) : Bool :=
  fieldOf bs 0x15 1 / 128 == 0 && fieldOf bs 0x16 1 / 4 == 0 && fieldOf bs 0x17 1 / 32 == 0 && fieldOf bs 0x1C 4 == 0 &&
  fieldOf bs 0x28 24 == 0

/-- The summary tags that R244 permits. -/
def CmRegion.stagOk (r : CmRegion) : Bool :=
  r.stag == tFP32 || r.stag == tBF16 || r.stag == tFP16 || (r.stag == r.tag && isInt r.tag && r.scale == 0)

/-- The rules of status 2 on the fields (R239); the summary tag is no reserved one whatever the granule (R10). -/
def CmRegion.fieldsOk (r : CmRegion) : Bool :=
  r.rows != 0 && decide (1 ≤ r.cols ∧ r.cols ≤ 16384) && decide (r.append ≤ r.rows) &&
  tagValid r.tag && r.tag != tRAW && r.tag != tE8M0 && r.scale != 3 &&
  (r.scale == 0 || isNarrow r.tag) && (!isSx r.tag || r.cols % 16 == 0) && tagValid r.stag && (r.granule == 0 || r.stagOk)

/-- Whether two regions share a byte: their ranges in some common stack overlap. -/
def CmRegion.overlaps (r q : CmRegion) : Bool :=
  r.stacks.any fun k => q.stacks.contains k && decide (r.off < q.off + q.area ∧ q.off < r.off + r.area)

/-- Whether a place is taken: by an installed region, by the new place of one that moves, or by one being opened. -/
def State.placeTaken (s : State) (r : CmRegion) : Bool :=
  (s.cmTable.any fun p => r.overlaps p.2 ||
    match p.2.next with | some (base, mask, _) => r.overlaps (p.2.placed base mask) | none => false) ||
  s.cmOps.any fun p => match p.2.kind with | .open_ _ d => r.overlaps d | _ => false

/-- The status of placing a region (R239): checks 5, 3 and 4. -/
def State.placeStatus (s : State) (r : CmRegion) : BitVec 16 :=
  let low := r.stacks.headD 0
  if r.mask = 0 ∨ r.stacks.any (fun k => decide (s.variant.cmstk ≤ k)) then 5
  else if r.base % 0x10000 ≠ 0 ∨ r.base < stackBase low ∨ stackBase low + cmStack ≤ r.base ∨ cmStack < r.off + r.area ∨
      s.placeTaken r = true then 3
  else if 256 ≤ r.key.toNat ∨ (lookupT s.trust.keys r.key.toNat).isNone then 4
  else 0

/-! ### Bytes under keys (R240, R249) -/

/-- A sector as a key decrypts it: memory holds what was written, and `cmKeys` the key under which it was encrypted. The
tweak is the sector's number, its physical address ÷ 32 (R249). -/
def State.sectorUnder (s : State) (key : Option (BitVec 512)) (sector : Nat) : List Byte :=
  let plain := s.bytes (32 * sector) 32
  match lookupT s.cmKeys sector, key with
  | some k, some k' =>
    if k = k' then plain
    else xtsDec k' sector (xtsEnc k sector plain)
  | _, _ => plain

/-- A byte of CM under a key. -/
def State.byteUnder (s : State) (key : Option (BitVec 512)) (pa : Nat) : Byte :=
  match lookupT s.cmKeys (pa / 32), key with
  | some k, some k' => if k = k' then Memory.read s.mem pa else (s.sectorUnder key (pa / 32))[pa % 32]?.getD 0
  | _, _ => Memory.read s.mem pa

/-- Bytes of CM under a key. -/
def State.bytesUnder (s : State) (key : Option (BitVec 512)) (pa n : Nat) : List Byte :=
  (List.range n).map fun i => s.byteUnder key (pa + i)

/-- The key of a region's slot. -/
def State.regionKey (s : State) (r : CmRegion) : Option (BitVec 512) := lookupT s.trust.keys r.key.toNat

/-- Bytes of CM as a region's key decrypts them. -/
def State.cmBytes (s : State) (r : CmRegion) (pa n : Nat) : List Byte := s.bytesUnder (s.regionKey r) pa n

/-- A sector is encrypted anew under a region's key. -/
def State.cmRekey (s : State) (r : CmRegion) (sector : Nat) : State :=
  match s.regionKey r with
  | none => s
  | some k =>
    if lookupT s.cmKeys sector = some k then s
    else { s with mem := Memory.writeAll s.mem (32 * sector) (s.cmBytes r (32 * sector) 32)
                  cmKeys := tins s.cmKeys sector k }

/-- Bytes are merged into their sectors under a region's key. -/
def State.cmWrite (s : State) (r : CmRegion) (cells : List (Nat × Byte)) : State :=
  let secs := (cells.map fun c => c.1 / 32).eraseDups
  cells.foldl (fun u c => u.putBytes c.1 [c.2]) (secs.foldl (fun u k => u.cmRekey r k) s)

/-! ### Elements and summaries (R241, R244) -/

/-- The offsets and sizes in a row of the scale byte of column c, where there is one, and of its element or SX block: each
sector of the block is one of a requested column (R245; DESIGN CHOICE, log 27). -/
def CmRegion.spans (r : CmRegion) (c : Nat) : List (Nat × Nat) :=
  let (sc, o) := layout r.tag r.scale.toNat 0 c
  (match sc with | some k => [(k.toNat, 1)] | none => []) ++
    [(o.toNat, if isSx r.tag then sxBytes r.tag else max 1 (memBits r.tag / 8))]

/-- The value of an element after scale_value; none for poison and for a reserved code. -/
def State.cmElem (s : State) (r : CmRegion) (i c : Nat) : Option Val :=
  let ps := (r.spans c).map fun p => (r.rowPa i + p.1, p.2)
  if ps.any fun p => s.poisoned p.1 p.2 then none
  else
    let bs := ps.flatMap fun p => s.cmBytes r p.1 p.2
    if isSx r.tag then (match sxMemElem r.tag (sxOfMem r.tag bs) (c % 16) with | .ok v => some v | .error _ => none)
    else some (memValue r.tag r.scale.toNat c bs)

/-- The least or the greatest of values. -/
def extreme (max : Bool) : List Val → Option Val
  | [] => none
  | v :: r =>
    match extreme max r with
    | none => some v
    | some w => some (if (if max then ltTotal v w else ltTotal w v) then w else v)

/-- A bound as bits of the summary tag. -/
def CmRegion.boundBits (r : CmRegion) (max : Bool) (vs : List Val) : Nat :=
  match extreme max (vs.filter fun v => !v.isNan) with
  | some v => (roundTo r.stag (if max then 3 else 2) v).1
  | none => if isFlt r.stag then (fmtOf r.stag).cnan.getD 0 else 0

/-- The bytes of the summary of block b. Where an element holds a reserved code or is poisoned, its column's bounds are
free values. -/
def State.summaryBytes (s : State) (r : CmRegion) (b : Nat) (draw : Nat → Nat) : List Byte :=
  let w := memBits r.stag / 8
  let rows := ((List.range r.g).map (b * r.g + ·)).filter fun i => decide (i < r.append ∧ i < r.rows)
  (List.range r.cols).flatMap fun c =>
    let vs := rows.map fun i => s.cmElem r i c
    if vs.any Option.isNone then leBytes w (draw (2 * c)) ++ leBytes w (draw (2 * c + 1))
    else
      let xs := vs.filterMap id
      leBytes w (r.boundBits false xs) ++ leBytes w (r.boundBits true xs)

/-- Bytes with their addresses. -/
def cellsFrom (pa : Nat) (bs : List Byte) : List (Nat × Byte) := (List.range bs.length).zip bs |>.map fun p => (pa + p.1, p.2)

/-- Summaries of blocks are computed anew. -/
def State.resummarise (s : State) (r : CmRegion) (blocks : List Nat) : State :=
  if r.g = 0 then s
  else
    blocks.foldl (fun u b =>
      let (d, u1) := u.draw
      u1.cmWrite r (cellsFrom (r.sumPa b) (u.summaryBytes r b d))) s

/-- The blocks of a region. -/
def CmRegion.blocks (r : CmRegion) : Nat := if r.g = 0 then 0 else (r.rows + r.g - 1) / r.g

/-! ### Ownership (R240, R248, R255) -/

/-- The entry of a handle, unless a remove of it has been accepted. -/
def State.cmEntry (s : State) (h : Nat) : Option CmRegion :=
  if s.cmRegs.removing = some h then none else lookupT s.cmTable h

/-- Whether a slot holds a key. -/
def State.keyHeld (s : State) (slot : Nat) : Bool := (lookupT s.trust.keys slot).isSome

/-- The region whose rows hold a physical address and that the context may reach (R248): its handle, the row and the
offset in the row. -/
def State.cmOwner (s : State) (pa : Nat) : Option (Nat × CmRegion × Nat × Nat) :=
  s.cmTable.findSome? fun p =>
    match s.cmEntry p.1, p.2.find pa with
    | some r, some (i, o) => if r.asid = s.cc.asid ∧ s.keyHeld r.key.toNat = true then some (p.1, r, i, o) else none
    | _, _ => none

/-- Translates one address as a CM store and finds its row. -/
def State.cmTarget (s : State) (va : Word) : Except Stop (State × Nat × CmRegion × Nat × Nat) := do
  let (s1, x) ← s.translate ⟨.cmstore, true, 1⟩ va
  match s1.cmOwner x.pa with
  | some t => return (s1, t)
  | none => .error (.trap s1 { cause := cQuery, tval := va })

/-- Whether a seal holds the stores of a region while it reads (R274). A move holds those to the stripe in motion only
(R251): a stripe moves in one action here, so a store lands at the place that its stripe then has. -/
def State.cmHeld (s : State) (h : Nat) : Bool :=
  match lookupT s.cmOps h with | some o => (match o.kind with | .seal _ => true | _ => false) | none => false

/-- Whether serial q is w or one given before it: serials run from 1 to 2^24 − 1 and back to 1, and what is compared is less
than half of them apart (R256). -/
def serialUpTo (q w : BitVec 24) : Bool := decide ((w.toNat + 0xFFFFFF - q.toNat) % 0xFFFFFF < 2 ^ 23)

/-- Whether a CM store of a context stands behind a running QCUST of it that came first (R268). -/
def State.afterCustom (s : State) (w : CmStore) : Bool :=
  s.queries.any fun q => q.cc == w.cc && q.custom.isSome && serialUpTo q.serial w.serial && !w.orphan

/-- Whether a CM store may be performed now. -/
def State.cmReady (s : State) (w : CmStore) : Bool := !(w.parts.any fun p => s.cmHeld p.handle) && !s.afterCustom w

/-! ### A CM store performed (R243, R244, R270) -/

/-- Acts while a slot holds the key under which a check has passed (R406). -/
def State.underKey (s : State) (slot : Nat) (key : Option (BitVec 512)) (f : State → State) : State :=
  match key with
  | none => f s
  | some k => { f { s with trust := { s.trust with keys := tins s.trust.keys slot k } } with trust := s.trust }

/-- One region's part of a CM store: the bytes, the append pointer, and the summaries of the blocks that it wrote or
that gained rows. -/
def State.writePart (s : State) (p : CmPart) : State :=
  match lookupT s.cmTable p.handle with
  | none => s
  | some r =>
    let at_ (c : Nat × Nat × Byte) : Nat := r.rowPa c.1 + c.2.1
    let low := match p.low with
      | some c => [(at_ c, BitVec.ofNat 8 ((s.byteUnder (s.regionKey r) (at_ c)).toNat / 16 * 16 + c.2.2.toNat % 16))]
      | none => []
    let s1 := s.cmWrite r ((p.cells.map fun c => (at_ c, c.2.2)) ++ low)
    let top := p.rows.foldl (fun a i => max a (i + 1)) r.append
    let r1 := { r with append := top }
    let gained := (List.range (top - r.append)).map (r.append + ·)
    let blocks := ((p.rows ++ gained).map (· / r.g)).eraseDups
    ({ s1 with cmTable := tins s1.cmTable p.handle r1 } : State).resummarise r1 blocks

/-- A part is performed under the key that its check found, whatever became of the slot since (R406). -/
def State.performPart (s : State) (p : CmPart) : State :=
  s.underKey ((lookupT s.cmTable p.handle).elim 0 fun r => r.key.toNat) p.key fun u => u.writePart p

def State.performCm (s : State) (w : CmStore) : State := w.parts.foldl State.performPart s

/-- The channel of a row of a region, 32 * stack + channel (R286). -/
def CmRegion.channelOf (r : CmRegion) (h row : Nat) : Nat :=
  let p := row / 64
  let q := r.forStripe p
  32 * (q.stacks[p % q.n]?.getD 0) + (p / q.n + h) % 32

/-- Normal requests are queued in channels, or have been served (R288). -/
def State.normalIn (s : State) (chans : List Nat) : State :=
  chans.foldl (fun u n => u.modChan n fun c => { c with normal := c.normal + 1 }) s
def State.normalOut (s : State) (chans : List Nat) : State :=
  chans.foldl (fun u n => u.modChan n fun c => { c with normal := c.normal - 1 }) s

/-- The channels that a CM store writes, noted when it is pushed. -/
def State.partChans (s : State) (parts : List CmPart) : List Nat :=
  (parts.flatMap fun p => match lookupT s.cmTable p.handle with
    | some r => p.rows.map (r.channelOf p.handle)
    | none => []).eraseDups

/-- One CM store of a control core is performed and leaves the S count. -/
def State.cmFinish (s : State) (w : CmStore) : State :=
  let s1 := (s.performCm w).normalOut w.chans
  let s2 := { s1 with cmStores := s1.cmStores.erase w }
  if w.orphan then s2 else s2.complete w.cc .s

/-- The oldest CM store of a control core. -/
def State.cmOldest (s : State) (id : BitVec 10) : Option CmStore := s.cmStores.find? fun w => w.cc == id

/-- CM_STORE_PERFORMED: the oldest CM store of a control core is performed, unless a seal or an earlier QCUST holds it. -/
def State.cmStoreDone (s : State) (id : BitVec 10) : State :=
  match s.cmOldest id with
  | some w => if s.cmReady w then s.cmFinish w else s
  | none => s

def execCmStorePerformed (cc : BitVec 10) (s : State) : Out := .next (s.cmStoreDone cc)

/-- Every CM store of a control core that stands is performed (R256, R268). -/
def State.cmDrain (s : State) (id : BitVec 10) : State :=
  (s.cmStores.filter fun w => w.cc == id).foldl (fun u _ => u.cmStoreDone id) s

/-- Pushes a CM store: it is due from now on. One that a running QCUST holds back enters its channels after it. -/
def State.pushCm (s : State) (parts : List CmPart) : State :=
  let keyed (p : CmPart) : CmPart := { p with key := (lookupT s.cmTable p.handle).bind s.regionKey }
  let w : CmStore := { cc := s.cc.ctxid, serial := s.cc.serial, parts := parts.map keyed }
  let chans := if s.afterCustom w then [] else s.partChans parts
  let s1 := (s.push .s).normalIn chans
  { s1 with cmStores := s1.cmStores ++ [{ w with chans := chans }] }

end Sys2Proof.Machine
end

