-- ==== Sys2Proof/Machine/CmStores.lean ====
section
/-! DEFINITION. The CM stores CMST, CMSTX and CMZERO, major opcode 0x5C (13_queries.md R270 to R273). -/

namespace Sys2Proof.Machine

/-- Step 3 of R157 for a CM store: its tag rules, with TVAL laid out as in R215. -/
def cmTagCheck (ok : Bool) (s : State) (m r : Tag) : Except Stop Unit := if ok then .ok () else memMismatch s m r 0

/-- Element i of vs in the form of a stored tag that is neither SX nor scaled, with its flags (R270). A reserved code stops
the store with VSTART at the element (R100). -/
def cmElemBits (s : State) (v : VecReg) (t : Tag) (i : Nat) : Except Stop (Nat × Flags) :=
  if v.tag = t then .ok (bitsOf v.data t i, 0)
  else match elemOr v v.tag i with
    | .ok x => .ok (roundTo t s.cc.rm x)
    | .error slot => reservedCode s i slot

/-- The blocks of an SX row. -/
def cmSxBytes (s : State) (v : VecReg) (t : Tag) : List Byte × Flags :=
  (List.range (s.vlN / 16)).foldl (fun acc b =>
    let (k, f) := if v.tag = t then (sxBlockOf v t b, 0)
      else quantiseSx (sxK t) s.cc.rm ((List.range 16).map fun j => valOf v.data v.tag (16 * b + j))
    (acc.1 ++ sxToMem t k, acc.2 ||| f)) ([], 0)

/-- The bytes that CMST writes for elements 0 to vl − 1, and the flags. -/
def cmRowBytes (s : State) (r : CmRegion) (v : VecReg) : Except Stop (List Byte × Flags) :=
  if isSx r.tag then .ok (cmSxBytes s v r.tag)
  else if r.scale ≠ 0 then
    let xs := (List.range s.vlN).map fun i => valOf v.data v.tag i
    .ok (groupsBytes r.tag s.cc.rm (s.vlN + 1) xs [] (if r.scale = 1 then 32 else max 1 s.vlN))
  else do
    let es ← (List.range s.vlN).mapM (cmElemBits s v r.tag)
    let f := es.foldl (fun f e => f ||| e.2) (0 : Flags)
    if isSub r.tag then return (packNibbles (es.map (·.1)) [], f)
    else return (es.flatMap fun e => leBytes (memBits r.tag / 8) e.1, f)

/-- The column that an offset in a row begins, by R271; none for an offset that begins none. -/
def CmRegion.colAt (r : CmRegion) (o : Nat) : Option Nat :=
  if r.used ≤ o then none
  else if isSx r.tag then (if o % sxBytes r.tag = 0 then some (o / sxBytes r.tag * 16) else none)
  else if r.scale = 1 then
    let gs := 1 + 4 * memBits r.tag
    if o % gs = 0 then some (o / gs * 32) else none
  else if r.scale = 2 then (if o = 0 then some 0 else none)
  else if 8 * o % memBits r.tag = 0 then some (8 * o / memBits r.tag) else none

/-- The length rules of R271. -/
def CmRegion.lenOk (r : CmRegion) (c0 vl : Nat) : Bool :=
  decide (c0 + vl ≤ r.cols) && (!isSx r.tag || vl % 16 == 0) &&
  (r.scale != 1 || vl % 32 == 0 || c0 + vl == r.cols) && (r.scale != 2 || vl == r.cols)

/-- Bytes of a row from an offset on. -/
def rowCells (row o : Nat) (bs : List Byte) : List (Nat × Nat × Byte) :=
  (List.range bs.length).zip bs |>.map fun p => (row, o + p.1, p.2)

/-- CMST: a run of columns of one row. -/
def execCmst (vr : VReg) (xa : XReg) (s : State) : Out :=
  finish <| precise s do
    needVector s
    stallIf (s.cc.full .s) s
    let s ← vfenceWait s
    let v := s.getV vr
    let va := s.getX xa
    cmTagCheck (isVal v.tag || isSx v.tag) s 0 v.tag
    lenCheck s [v.tag]
    let (s1, h, r, row, o) ← s.cmTarget va
    cmTagCheck (pairOk r.tag v.tag) s1 r.tag v.tag
    match r.colAt o with
    | none => trapIf true s1 cAlign va; return s1
    | some c0 =>
      trapIf (!r.lenOk c0 s.vlN) s1 cAlign va
      let (bs, f) ← cmRowBytes s1 r v
      let odd := isSub r.tag && s.vlN % 2 == 1
      let tail := if c0 + s.vlN = r.cols then r.rb - r.used else 0
      let len := bs.length + tail
      -- check 4 (R270): the bytes beyond the first page lie in the same row
      let room := 65536 - va.toNat % 65536
      let s2 ← if room < len then do
          let va2 := va + BitVec.ofNat 64 room
          let (s2, h2, _, row2, o2) ← s1.cmTarget va2
          trapIf (!(h2 == h && row2 == row && o2 == o + room)) s2 cQuery va2
          pure s2
        else pure s1
      let cells := rowCells row o (if odd then bs.dropLast else bs) ++ rowCells row r.used (List.replicate tail 0)
      let low := if odd then bs.getLast?.map fun b => (row, o + bs.length - 1, b) else none
      let parts := if s.vlN = 0 then [] else [{ handle := h, cells := cells, low := low, rows := [row] }]
      return ((s2.orFlags f).pushCm parts).retire

/-- The elements of a CMSTX after the checks: each is translated, checked and converted in ascending order. -/
def cmScatter (v : VecReg) : State → List (Nat × Word) → Except Stop (State × List CmPart × Flags)
  | s, [] => .ok (s, [], 0)
  | s, (i, a) :: rest => do
    let (s1, h, r, row, o) ← s.cmTarget a
    cmTagCheck (pairOk r.tag v.tag) s1 r.tag v.tag
    trapIf (r.scale != 0 || isSx r.tag || isSub r.tag || decide (r.eb ≤ o) || 8 * o % memBits r.tag != 0) s1 cAlign a
    let (b, f) ← cmElemBits s1 v r.tag i
    let (s2, ps, g) ← cmScatter v s1 rest
    return (s2, { handle := h, cells := rowCells row o (leBytes (memBits r.tag / 8) b), rows := [row] } :: ps, f ||| g)

/-- CMSTX: active elements, each at its own address. -/
def execCmstx (vr : VReg) (xa : XReg) (vi : VReg) (s : State) : Out :=
  finish <| precise s do
    needVector s
    stallIf (s.cc.full .s) s
    let s ← vfenceWait s
    let v := s.getV vr
    let w := s.getV vi
    cmTagCheck (isVal v.tag || isSx v.tag) s 0 v.tag
    cmTagCheck (isInt w.tag) s 0 w.tag
    lenCheck s [v.tag, w.tag]
    let at_ (i : Nat) : Nat × Word := (i, s.getX xa + BitVec.ofInt 64 (intAt w.data w.tag i))
    let (s1, ps, f) ← cmScatter v s ((s.activeFrom 0).map at_)
    return ((s1.orFlags f).pushCm ps).retire

/-- A row of zero elements: scale bytes 127, all else zero (R273). -/
def CmRegion.zeroRow (r : CmRegion) : List Byte :=
  (List.range r.rb).map fun o =>
    if r.scale = 1 ∧ o < r.used ∧ o % (1 + 4 * memBits r.tag) = 0 then 127
    else if r.scale = 2 ∧ o = 0 then 127 else 0

/-- CMZERO: whole rows from the one at x[xa]. -/
def execCmzero (xn xa : XReg) (s : State) : Out :=
  finish <| precise s do
    needVector s
    stallIf (s.cc.full .s) s
    let s ← vfenceWait s
    let va := s.getX xa
    let n := (s.getX xn).toNat
    let (s1, h, r, row, o) ← s.cmTarget va
    trapIf (o != 0) s1 cAlign va
    trapIf (decide (r.rows < row + n)) s1 cQuery va
    let rows := (List.range n).map (row + ·)
    let parts := if n = 0 then [] else
      [{ handle := h, cells := rows.flatMap fun i => rowCells i 0 r.zeroRow, rows := rows }]
    return (s1.pushCm parts).retire

end Sys2Proof.Machine
end

