-- ==== Sys2Proof/Machine/Query.lean ====
section
/-! DEFINITION. The queries of capacity memory, major opcode 0x5D, and their completion (12_capacity.md R245 to R248,
13_queries.md R253 to R268). -/

namespace Sys2Proof.Machine

/-- The queries of R253. -/
inductive QKind where
  | dot | fsum | wsum | max | min | win | bscore | count | cust
  deriving DecidableEq, Repr

/-- Whether a query reads vq (R253). -/
def QKind.hasVq : QKind → Bool
  | .dot => true | .wsum => true | .win => true | .bscore => true | .cust => true | _ => false

/-- A query descriptor as it was read (R14). -/
structure Qd where
  handle : Nat
  tag    : Byte
  k      : Nat
  op     : Nat
  opts   : Byte
  first  : Nat
  count  : Nat
  col    : Nat
  cols   : Nat
  fcol   : Nat
  rsv    : Nat
  fval   : Nat
  list   : Word
  cap    : Nat
  status : Nat

/-- The fields of a descriptor's 64 bytes (R14). -/
def Qd.ofBytes (bs : List Byte) : Qd :=
  let f := fieldOf bs
  { handle := f 0 4, tag := BitVec.ofNat 8 (f 4 1), k := f 5 1, op := f 6 1, opts := BitVec.ofNat 8 (f 7 1)
    first := f 8 8, count := f 0x10 8, col := f 0x18 4, cols := f 0x1C 4, fcol := f 0x20 4, rsv := f 0x24 4
    fval := f 0x28 8, list := BitVec.ofNat 64 (f 0x30 8), cap := f 0x38 4, status := f 0x3C 4 }

def Qd.strict (q : Qd) : Bool := q.opts.getLsbD 0
def Qd.listMode (q : Qd) : Bool := q.opts.getLsbD 1
def Qd.notify (q : Qd) : Bool := q.opts.getLsbD 2

/-- Whether the candidates are blocks: QBSCORE, and QWIN with bit 7 of k (R262, R263). -/
def Qd.overBlocks (q : Qd) (kind : QKind) : Bool := kind == .bscore || (kind == .win && decide (128 ≤ q.k))

/-! ### The checks of R254 and R255 -/

/-- Reads bytes as the query unit does: WM or scratchpad pages, with the translation of the first byte (R254). -/
def State.unitRead (s : State) (va : Word) (n : Nat) : Except Stop (State × Xlat × List Byte) := do
  let (s1, ps) ← s.piecesLong .load va 4 n
  trapIf (ps.any fun p => p.x.ty != 0 && p.x.ty != 2) s1 cProt va
  let (s2, bs) ← s1.loadPieces va ps
  return (s2, (ps.head?.map fun p => p.x).getD ⟨0, 0, false, false⟩, bs)

/-- Whether block indices rise strictly and stay below a limit. -/
def listOk (limit : Nat) : List Nat → Bool
  | [] => true
  | [b] => decide (b < limit)
  | b :: c :: r => decide (b < limit) && decide (b < c) && listOk limit (c :: r)

/-- The reason of "query region fault", by R255; 0 for none. `blocks` is the block list as far as it was read. -/
def State.queryReason (s : State) (kind : QKind) (q : Qd) (blocks : List Nat) : Nat :=
  match s.cmEntry q.handle with
  | none => 1
  | some r =>
    if 4096 ≤ q.handle then 1
    else if r.asid ≠ s.cc.asid then 2
    else if s.keyHeld r.key.toNat = false then 3
    else if q.rsv ≠ 0 ∨ 8 ≤ q.opts.toNat ∨ 65536 ≤ q.status then 4
    else if q.count = 0 ∨ (q.listMode = false ∧ r.rows < q.first + q.count) ∨ (q.listMode = true ∧ q.first ≠ 0) then 5
    else if q.cols = 0 ∨ r.cols < q.col + q.cols then 6
    else if 6 < q.op ∨ r.cols ≤ q.fcol ∨ (q.op ≠ 0 ∧ (q.overBlocks kind = true ∨ kind = .cust)) then 7
    else if (if kind = .win then q.k % 128 = 0 ∨ 64 < q.k % 128 else q.k ≠ 0) then 8
    else if (r.g = 0 ∧ (q.overBlocks kind = true ∨ q.listMode = true)) ∨
        (q.listMode = true ∧ (4096 < q.count ∨ listOk r.blocks blocks = false)) then 9
    else 0

/-- A query that has passed checks 1 to 6: its rows with their positions, its blocks, and its vq. -/
structure Ready where
  kind   : QKind
  q      : Qd
  r      : CmRegion
  /-- Examined rows with their positions (R257, R258). -/
  rows   : List (Nat × Nat)
  blocks : List Nat
  vq     : VecReg

/-- The candidate rows of a query with their positions, ascending (R257, R258). -/
def candidates (q : Qd) (r : CmRegion) (blocks : List Nat) : List (Nat × Nat) :=
  if q.listMode then
    ((List.range blocks.length).zip blocks).flatMap fun (e, b) =>
      ((List.range r.g).map fun i => (b * r.g + i, e * r.g + i)).filter fun p => decide (p.1 < r.rows)
  else (List.range q.count).map fun j => (q.first + j, j)

/-- The blocks that a query scores (R262). -/
def scored (q : Qd) (r : CmRegion) (blocks : List Nat) : List Nat :=
  if q.listMode then blocks
  else if r.g = 0 then []
  else (List.range ((q.first + q.count - 1) / r.g - q.first / r.g + 1)).map (q.first / r.g + ·)

/-- Elements of vq that a query uses (R254). -/
def usedElems (kind : QKind) (q : Qd) (r : CmRegion) (blocks : List Nat) : Nat :=
  match kind with
  | .dot => q.cols
  | .win => q.cols
  | .bscore => q.cols
  | .wsum => match (candidates q r blocks).getLast? with | some (_, j) => j + 1 | none => 0
  | _ => 0

/-! ### Touched bytes and the bound (R245) -/

/-- The sectors that spans of a row cover, each once. -/
def sectorsOf (spans : List (Nat × Nat)) : List Nat :=
  (spans.flatMap fun p => (List.range ((p.1 + p.2 - 1) / 32 - p.1 / 32 + 1)).map (p.1 / 32 + ·)).eraseDups

/-- The sectors that a query over rows or blocks touches, by address. -/
def Ready.sectors (y : Ready) : List Nat :=
  let cs := (List.range y.q.cols).map (y.q.col + ·)
  if y.q.overBlocks y.kind then
    let w := 2 * memBits y.r.stag / 8
    let ks := sectorsOf (cs.map fun c => (c * w, w))
    y.blocks.flatMap fun b => ks.map fun k => y.r.sumPa b + 32 * k
  else
    let own := cs.flatMap y.r.spans
    let filter := if y.q.op = 0 then [] else (y.r.spans y.q.fcol).getLast?.toList
    let ks := sectorsOf (own ++ filter)
    y.rows.flatMap fun p => ks.map fun k => y.r.rowPa p.1 + 32 * k

/-- Touched bytes of a query over rows or blocks. -/
def Ready.touched (y : Ready) : Nat := 32 * y.sectors.length

/-- Whether a query meets a poisoned sector (R267). -/
def Ready.meetsPoison (y : Ready) (s : State) : Bool := y.sectors.any fun a => s.poisoned a 32

/-- The reply bound (R245). -/
def replyBound (touched : Nat) : Nat := min 65536 (max 64 (touched / 8))

/-- The reply length (R253). -/
def Ready.replyLen (y : Ready) : Nat :=
  match y.kind with
  | .dot => 4 * y.rows.length
  | .fsum => 4 * y.q.cols
  | .wsum => 4 * y.q.cols
  | .max => 8 * y.q.cols
  | .min => 8 * y.q.cols
  | .win => 8 * (y.q.k % 128)
  | .bscore => 4 * y.blocks.length
  | .count => 8
  | .cust => 0

/-! ### Values (R257 to R264). None stands for a data error: a reserved code or poison, status 3 (R267). -/

/-- The filter (R257). -/
def Ready.passes (y : Ready) (x : Val) : Bool :=
  let v : Val := if y.r.flt then fmtFP32.decode (y.q.fval % 2 ^ 32)
    else .ofInt (intOf (isSigned y.r.tag) 64 y.q.fval)
  if y.q.op = 0 then true
  else if x.isNan || v.isNan then y.q.op == 2
  else match y.q.op, cmpVal x v with
    | 1, o => o == .eq
    | 2, o => o != .eq
    | 3, o => o == .lt
    | 4, o => o != .gt
    | 5, o => o == .gt
    | _, o => o != .lt

/-- The examined rows, each with its position and whether it passes the filter. -/
def Ready.filtered (y : Ready) (s : State) : Option (List (Nat × Nat × Bool)) :=
  y.rows.mapM fun (i, j) =>
    if y.q.op = 0 then some (i, j, true)
    else (s.cmElem y.r i y.q.fcol).map fun x => (i, j, y.passes x)

/-- An element of vq, as an exact value. -/
def Ready.elem (y : Ready) (j : Nat) : Val := valOf y.vq.data y.vq.tag j

/-- Draws for the n-th of several sums. -/
def subDraws (draw : Nat → Nat) (total n : Nat) : Nat → Nat := fun k => draw (k * (total + 1) + n)

/-- A sum of exact terms as it is delivered: FP32 in either form, or I32 (R247, R259; log 47). -/
def Ready.sum (y : Ready) (s : State) (draw : Nat → Nat) (ts : List Val) : Nat :=
  if y.r.flt then (sumForm y.q.strict draw s.cc.accsat s.cc.rm 0 (ts.map fun t => (t, 0))).1
  else accTerms s.cc.accsat tI32 (draw 0) 0 ts

/-- What stands for a row or column without a value: the canonical NaN or 0x8000_0000. -/
def Ready.noValue (y : Ready) : Nat := if y.r.flt then 0x7FC00000 else 0x80000000

/-- The score of a row (R259). -/
def Ready.dotScore (y : Ready) (s : State) (draw : Nat → Nat) (i : Nat) : Option Nat :=
  ((List.range y.q.cols).mapM fun c => (s.cmElem y.r i (y.q.col + c)).map fun x => (mulExact (y.elem c) x).1).map
    (y.sum s draw)

/-- A sum over rows (R247, R260). While CMMOV moves the region, every stripe of a strict sum stands in the partial of the stack
that the old mask gives it (DESIGN CHOICE, log 27). -/
def Ready.rowSum (y : Ready) (s : State) (draw : Nat → Nat) (ts : List (Nat × Val)) : Nat :=
  if ts.isEmpty then 0
  else if y.r.flt && y.q.strict then
    let one (xs : List Val) : Nat := (sumStrict s.cc.accsat s.cc.rm 0 (xs.map fun x => (x, 0))).1
    one ((List.range y.r.n).map fun k =>
      fmtFP32.decode (one ((ts.filter fun t => t.1 / 64 % y.r.n == k).map (·.2))))
  else y.sum s draw (ts.map (·.2))

/-- The best value of a column and its row (R261). An integer region delivers sat_to of it; of a scaled element that is no
integer the spec states no result, and it is a free value of its row (log 47). -/
def bestRow (max : Bool) (xs : List (Nat × Val)) : Option (Nat × Val) :=
  xs.foldl (fun b x =>
    if x.2.isNan then b
    else match b with
      | none => some x
      | some y => if (if max then ltTotal y.2 x.2 else ltTotal x.2 y.2) then some x else b) none

/-- A bound of a block's summary: low or high. -/
def State.cmBound (s : State) (r : CmRegion) (b c : Nat) (high : Bool) : Option Val :=
  let w := memBits r.stag / 8
  let pa := r.sumPa b + c * 2 * w + (if high then w else 0)
  if s.poisoned pa w then none else some (decodeElem r.stag (leNat (s.cmBytes r pa w)))

/-- max(q·lo, q·hi), a NaN where either product is one. -/
def bestTerm (q lo hi : Val) : Val :=
  let a := (mulExact q lo).1
  let b := (mulExact q hi).1
  if a.isNan || b.isNan then .nan false else if ltVal a b then b else a

/-- The score of a block (R262). -/
def Ready.blockScore (y : Ready) (s : State) (b : Nat) : Option Nat :=
  if y.r.append ≤ b * y.r.g then some 0xFF800000
  else
    ((List.range y.q.cols).mapM fun c => do
      let lo ← s.cmBound y.r b (y.q.col + c) false
      let hi ← s.cmBound y.r b (y.q.col + c) true
      return if (y.elem c).isZero then Val.fin false 0 0
        else if lo.isNan || hi.isNan then Val.nan false else bestTerm (y.elem c) lo hi).map fun ts =>
      (fmtFP32.round 3 (sumExact 3 ts).1).1

/-- Whether score a of index i ranks above score b of index j (R263). -/
def ranksAbove (fp : Bool) (a i b j : Nat) : Bool :=
  if fp then
    let x := fmtFP32.decode a
    let z := fmtFP32.decode b
    match x.isNan, z.isNan with
    | true, true => decide (i < j)
    | true, false => false
    | false, true => true
    | false, false => match cmpTotal x z with | .gt => true | .lt => false | .eq => decide (i < j)
  else
    let x := intOf true 32 a
    let z := intOf true 32 b
    decide (z < x) || (x == z && decide (i < j))

/-- Puts a candidate into a ranking. -/
def rankIn (fp : Bool) (c : Nat × Nat) : List (Nat × Nat) → List (Nat × Nat)
  | [] => [c]
  | d :: r => if ranksAbove fp c.2 c.1 d.2 d.1 then c :: d :: r else d :: rankIn fp c r

/-- The reply of QWIN from scores by index (R263). -/
def winReply (fp : Bool) (k : Nat) (xs : List (Nat × Nat)) : List Byte :=
  let ranked := (xs.foldr (rankIn fp) []).take k
  let fill := List.replicate (k - ranked.length) (0xFFFFFFFF, if fp then 0xFF800000 else 0x80000000)
  (ranked ++ fill).flatMap fun p => leBytes 4 p.2 ++ leBytes 4 p.1

/-- The reply of a query over rows (R259, R260, R261, R263, R264). -/
def Ready.rowReply (y : Ready) (s : State) (draw : Nat → Nat) : Option (List Byte) := do
  let rows ← y.filtered s
  let pass := rows.filter fun p => p.2.2
  let sub (n : Nat) : Nat → Nat := subDraws draw (rows.length + y.q.cols) n
  let cols := List.range y.q.cols
  let column (c : Nat) : Option (List (Nat × Nat × Val)) :=
    pass.mapM fun (i, j, _) => (s.cmElem y.r i (y.q.col + c)).map fun x => (i, j, x)
  match y.kind with
  | .dot =>
    let scores ← rows.mapM fun (i, _, ok) => if ok then y.dotScore s (sub i) i else some y.noValue
    return scores.flatMap (leBytes 4)
  | .win =>
    let scores ← pass.mapM fun (i, _, _) => (y.dotScore s (sub i) i).map fun v => (i, v)
    return winReply y.r.flt (y.q.k % 128) scores
  | .count => return leBytes 8 pass.length
  | .fsum =>
    let sums ← cols.mapM fun c => (column c).map fun xs => y.rowSum s (sub c) (xs.map fun (i, _, x) => (i, x))
    return sums.flatMap (leBytes 4)
  | .wsum =>
    let sums ← cols.mapM fun c => (column c).map fun xs =>
      y.rowSum s (sub c) (xs.map fun (i, j, x) => (i, (mulExact (y.elem j) x).1))
    return sums.flatMap (leBytes 4)
  | _ =>
    let best ← cols.mapM fun c => (column c).map fun xs => bestRow (y.kind == .max) (xs.map fun (i, _, x) => (i, x))
    return best.flatMap fun b =>
      match b with
      | none => leBytes 4 y.noValue ++ leBytes 4 0xFFFFFFFF
      | some (i, x) =>
        leBytes 4 (if y.r.flt then (fmtFP32.round 0 x).1 else accTerms true tI32 (draw i) 0 [x]) ++ leBytes 4 i

/-- The reply of a query. -/
def Ready.reply (y : Ready) (s : State) (draw : Nat → Nat) : Option (List Byte) :=
  if y.q.overBlocks y.kind then do
    let scores ← y.blocks.mapM fun b => (y.blockScore s b).map fun v => (b, v)
    return if y.kind == .win then winReply true (y.q.k % 128) scores else scores.flatMap fun p => leBytes 4 p.2
  else y.rowReply s draw

/-! ### Issue (R254, R256) -/

/-- Checks 3 to 6 of R254: the place of the QD, its bytes, and the query with every candidate row. -/
def State.queryChecks (s : State) (kind : QKind) (xdesc : XReg) (vq : VReg) (xreply : XReg) :
    Except Stop (State × Xlat × List Byte × Ready) := do
  let a := s.getX xdesc
  trapIf (a.toNat % 64 != 0) s cAlign a
  trapIf ((s.getX xreply).toNat % 64 != 0) s cAlign (s.getX xreply)
  let (s1, at_, bs) ← s.unitRead a 64
  let q := Qd.ofBytes bs
  trapIf (q.listMode && q.list.toNat % 4 != 0) s1 cAlign q.list
  let (s2, blocks) ← if q.listMode then do
      let (s2, _, lb) ← s1.unitRead q.list (4 * min q.count 4096)
      pure (s2, (List.range (min q.count 4096)).map fun i => fieldOf lb (4 * i) 4)
    else pure (s1, [])
  let reason := s2.queryReason kind q blocks
  trapIf (reason != 0) s2 cQuery (BitVec.ofNat 64 (q.handle * 256 + reason))
  let r := (s2.cmEntry q.handle).getD (CmRegion.ofBytes [])
  let v := s.getV vq
  if kind.hasVq then
    tagCheck (if r.flt then isFlt v.tag else isInt v.tag || v.tag == tI4) s2 v.tag 0 0
    let used := usedElems kind q r blocks
    trapIf (decide (vlmax v.tag < used)) s2 cLength (BitVec.ofNat 64 used)
  return (s2, at_, bs, { kind := kind, q := q, r := r, rows := candidates q r blocks, blocks := scored q r blocks, vq := v })

/-- Check 7 of R254: the physical addresses of the reply area, in the scratchpad of the issuing core. -/
def State.replyArea (s : State) (va : Word) (n : Nat) : Except Stop (State × List Nat) :=
  let bad : Except Stop (State × List Nat) := .error (.trap s { cause := cProt, tval := va })
  match s.piecesLong .store va (n / 65536 + 2) (max 1 n) with
  | .error (.wait u) => .error (.wait u)
  | .error (.trap _ _) => bad
  | .ok (s1, ps) =>
    if ps.all fun p => p.x.ty == 2 && decide (p.x.pa < spadAlias) &&
        (p.x.pa - spadBase) / 0x200000 == coreOf s.cc.ctxid &&
        decide ((p.x.pa - spadBase) % 0x200000 + p.len ≤ spadBytes)
    then .ok (s1, ps.flatMap fun p => (List.range p.len).map (p.x.pa + ·))
    else bad

/-- The next serial of a context (R256). -/
def ControlCore.nextSerial (c : ControlCore) : BitVec 24 := if c.serial = 0xFFFFFF then 1 else c.serial + 1

/-- Rejects a query: its status and length 0 in the QD, and 0 for the token (R256). -/
def State.rejectQuery (s : State) (xd : XReg) (qd : Xlat) (status : BitVec 16) : State :=
  (((s.dieStore qd.ce (qd.pa + 0x38) (leBytes 4 0)).dieStore qd.ce (qd.pa + 0x3C) (leBytes 2 status.toNat)).setX xd 0).retire

/-- Accepts a query: the status, the serial, the token and the Q count. It waits for the query unit (R43). -/
def State.acceptQuery (s : State) (xd : XReg) (q : Query) : State :=
  let s1 := s.dieStore q.ce (q.qd + 0x3C) (leBytes 2 0xFFFF)
  let s2 := s1.modCc fun c => { c.incOut .q with serial := q.serial }
  let token : Word := BitVec.ofNat 64 (q.serial.toNat * 256 + q.tag.toNat)
  (({ s2 with queries := s2.queries ++ [q] } : State).setX xd token).retire

/-- The stacks of a region have tiller cores of the channels that hold its stripes (R286): each with the first stripe
slot of the channel. -/
def CmRegion.channels (r : CmRegion) (h : Nat) : List (Nat × Nat × Nat) :=
  (List.range r.n).flatMap fun k =>
    ((List.range 32).filterMap fun ch =>
      let q0 := (ch + 32 - h % 32) % 32
      if q0 * r.n + k < (r.rows + 63) / 64 then some (32 * (r.stacks[k]?.getD 0) + ch, k, q0) else none)

/-- What a query costs at the query unit (R43). -/
def Ready.cost (y : Ready) : Nat := if y.kind = .cust then 1 else max 1 ((y.touched + 4095) / 4096)

/-- The parts of a query that its QD and its context give. -/
def Ready.base (y : Ready) (c : ControlCore) (qd : Xlat) : Query :=
  { cc := c.ctxid, serial := c.nextSerial, handle := y.q.handle, qd := qd.pa, ce := qd.ce, reply := [], status := 0
    notify := y.q.notify, tag := y.q.tag, held := some y.cost }

/-- A query with what it will answer: the reply over its area, or status 3 (R267). -/
def Ready.answer (y : Ready) (s : State) (draw : Nat → Nat) (area : List Nat) (q : Query) : Query :=
  if y.meetsPoison s then { q with status := 3 }
  else match y.reply s draw with
    | some rs => { q with reply := area.zip rs }
    | none => { q with status := 3 }

/-- What a QCUST hands to the tiller cores, with the key that its region was checked under (R265, R406). -/
def Ready.toCustom (y : Ready) (s : State) (bs : List Byte) (area : List Nat) : Custom :=
  { qd := bs, vq := y.vq, r := y.r, key := s.regionKey y.r, area := area, chans := (y.r.channels y.q.handle).map (·.1) }

/-- A query of any kind. It issues once the CM stores before it are performed: one that a seal or an earlier QCUST holds
holds it back (R268, R274). -/
def State.query (s : State) (kind : QKind) (xd xdesc : XReg) (vq : VReg) (xreply : XReg) : Out :=
  finish <| precise s do
    needVector s
    trapIf (kind == .cust && !s.variant.tiller) s cUnit 0
    stallIf (s.cc.full .q || (kind == .cust && s.tlfw.busy)) s
    let s ← vfenceWait s
    let (s0, qd, bs, y0) ← s.queryChecks kind xdesc vq xreply
    let s1 := s0.cmDrain s.cc.ctxid
    stallIf (s1.cmStores.any fun w => w.cc == s.cc.ctxid && !w.orphan) s0
    let r := (lookupT s1.cmTable y0.q.handle).getD y0.r
    let y : Ready := { y0 with r := r, rows := y0.rows.filter fun p => decide (p.1 < r.append) }
    let q := y.base s.cc qd
    if kind = .cust then
      let (s2, area) ← s1.replyArea (s.getX xreply) y.q.cap
      return s2.acceptQuery xd { q with custom := some (y.toCustom s2 bs area) }
    else if replyBound y.touched < y.replyLen then return (s1.rejectQuery xd qd 1).count (coreOf s.cc.ctxid) 8 1
    else if y.q.cap < y.replyLen then return s1.rejectQuery xd qd 2
    else
      let (s2, area) ← s1.replyArea (s.getX xreply) y.replyLen
      let (d, s3) := s2.draw
      return s3.acceptQuery xd (y.answer s3 d area q)

def execQdot (xd xdesc : XReg) (vq : VReg) (xreply : XReg) (s : State) : Out := s.query .dot xd xdesc vq xreply
def execQfsum (xd xdesc xreply : XReg) (s : State) : Out := s.query .fsum xd xdesc 0 xreply
def execQwsum (xd xdesc : XReg) (vq : VReg) (xreply : XReg) (s : State) : Out := s.query .wsum xd xdesc vq xreply
def execQmax (xd xdesc xreply : XReg) (s : State) : Out := s.query .max xd xdesc 0 xreply
def execQmin (xd xdesc xreply : XReg) (s : State) : Out := s.query .min xd xdesc 0 xreply
def execQwin (xd xdesc : XReg) (vq : VReg) (xreply : XReg) (s : State) : Out := s.query .win xd xdesc vq xreply
def execQbscore (xd xdesc : XReg) (vq : VReg) (xreply : XReg) (s : State) : Out := s.query .bscore xd xdesc vq xreply
def execQcount (xd xdesc xreply : XReg) (s : State) : Out := s.query .count xd xdesc 0 xreply
def execQcust (xd xdesc : XReg) (vq : VReg) (xreply : XReg) (s : State) : Out := s.query .cust xd xdesc vq xreply

/-! ### The query units (R43) -/

/-- Changes the query of a control core and serial. -/
def State.modQuery (s : State) (cc : BitVec 10) (serial : BitVec 24) (f : Query → Query) : State :=
  { s with queries := s.queries.map fun k => if k.cc == cc && k.serial == serial then f k else k }

/-- A query unit sends a query into the stacks: its sweeps are queued in the channels (R288), and a QCUST's job goes to
their tiller cores. -/
def State.startQuery (s : State) (q : Query) : State :=
  let chans := match q.custom, lookupT s.cmTable q.handle with
    | some c, _ => c.chans
    | none, some r => (r.channels q.handle).map (·.1)
    | none, none => []
  let s1 := s.modQuery q.cc q.serial fun k => { k with held := none, sweeps := chans }
  let s2 := chans.foldl (fun u n => u.modChan n fun c => { c with sweeps := c.sweeps + 1 }) s1
  if q.custom.isSome then chans.foldl (fun u n => u.later (.tillerJob (BitVec.ofNat 8 n) q.cc q.serial)) s2 else s2

/-- The credit rounds after which some party covers its cost, of credits, costs and weights (R43, R57). -/
def creditRounds (ws : List (Nat × Nat × Nat)) : Nat :=
  match ws.map fun p => (p.2.1 - p.1 + p.2.2 - 1) / p.2.2 with
  | [] => 0
  | k :: ks => ks.foldl min k

/-- The entry of the greatest weight, the first of equals. -/
def mostOf {α : Type} : List (α × Nat) → Option α
  | [] => none
  | p :: r => some ((r.foldl (fun b q => if b.2 < q.2 then q else b) p).1)

/-- The query share of a control core's context; 0 counts as 1 (R43). -/
def State.queryShare (s : State) (id : BitVec 10) : Nat :=
  max 1 (match (s.ccAt id).region.bind s.regionAt with | some r => r.queryShare | none => 0)

/-- The query unit of a core starts one query: rounds give credit to each context with a query that waits, until one
covers its next query's cost; of those that do, the one with the most credit goes (log 52). -/
def State.queryUnit (s : State) (core : Nat) : State :=
  let heads := ((List.range 4).map fun k => BitVec.ofNat 10 (4 * core + k)).filterMap fun id =>
    (s.queries.find? fun q => q.cc == id && q.held.isSome).map fun q => (id, q, q.held.getD 1)
  let n := creditRounds (heads.map fun h => ((s.ccAt h.1).qcredit, h.2.2, s.queryShare h.1))
  let s1 := heads.foldl (fun u h => u.modCcAt h.1 fun c => { c with qcredit := c.qcredit + n * s.queryShare h.1 }) s
  match mostOf ((heads.filter fun h => decide (h.2.2 ≤ (s1.ccAt h.1).qcredit)).map fun h => (h, (s1.ccAt h.1).qcredit)) with
  | some h => (s1.modCcAt h.1 fun c => { c with qcredit := c.qcredit - h.2.2 }).startQuery h.2.1
  | none => s1

/-- A query that waits for its unit is taken up. -/
def State.queryWaits (s : State) : Option Nat := (s.queries.find? fun q => q.held.isSome).map fun q => coreOf q.cc

/-! ### Completion (R266, R267) -/

/-- The CM stores that a QCUST has held back enter their channels (R268, R288). -/
def State.cmAdmit (s : State) : State :=
  (s.cmStores.filter fun w => w.chans.isEmpty && !s.afterCustom w).foldl (fun u w =>
    let chans := u.partChans w.parts
    { u.normalIn chans with cmStores := u.cmStores.map fun k => if k = w then { w with chans := chans } else k }) s

/-- The single completion of a query. -/
def State.completeQuery (s : State) (q : Query) : State :=
  let s1 := if q.status = 0 then q.reply.foldl (fun u c => u.putBytes c.1 [c.2]) s else s
  let s2 := s1.storeIn q.ce (q.qd + 0x38) (leBytes 4 (if q.status = 0 then q.reply.length else 0))
  let s3 := ((s2.releaseDie (dieOf q.cc)).storeIn q.ce (q.qd + 0x3C) (leBytes 2 q.status.toNat)).complete q.cc .q
  let s4 := { s3.endSweeps q.sweeps with queries := s3.queries.filter fun k => !(k.cc == q.cc && k.serial == q.serial) }
  if q.notify then s4.offerRing q.cc (BitVec.ofNat 16 (0x8000 + q.tag.toNat)) else s4

/-- The query of a control core by serial. -/
def State.queryOf (s : State) (cc : BitVec 10) (serial : BitVec 24) : Option Query :=
  s.queries.find? fun q => q.cc == cc && q.serial == serial

/-- Whether a query can complete: its unit has started it, its tiller cores have ended, and its channels run compute
traffic (R288). -/
def State.queryDone (s : State) (q : Query) : Bool :=
  q.held.isNone && q.custom.isNone && q.sweeps.all fun n => (s.chanAt n).mode

def execQueryCompletion (cc : BitVec 10) (serial : BitVec 24) (s : State) : Out :=
  match s.queryOf cc serial with
  | some q => if s.queryDone q then .next (s.completeQuery q) else .next s
  | none => .next s

end Sys2Proof.Machine
end

