-- ==== Sys2Proof/Machine/CmMove.lean ====
section
/-! DEFINITION. The region table engine and the moves of regions: install, remove and read back (12_capacity.md R238 to
R240), CMMOV, CMSEAL and CMOPEN with their ends (R251, 13_queries.md R274, R275). -/

namespace Sys2Proof.Machine

/-! ### The region table engine (R238 to R240) -/

/-- A command of the region table engine completes: BUSY clears, which raises MSI-X vector 2 (R385). -/
def State.cmCommandDone (s : State) (status : BitVec 16) : State :=
  ({ s with cmRegs := { s.cmRegs with busy := false, status := status, removing := none } } : State).raiseMsix 2

/-- ADDR of CMRTADDR as a physical address. -/
def CmRegs.at_ (c : CmRegs) : Nat := (c.addr.extractLsb' 6 42).toNat * 64

/-- Whether the engine can reach ADDR. -/
def State.cmAddrOk (s : State) : Bool := inWm s.cmRegs.at_ 64 && !s.poisoned s.cmRegs.at_ 64

/-- Checks 1 and 2 of R239, then those of placement. -/
def State.installStatus (s : State) (h : Nat) (bs : List Byte) : BitVec 16 :=
  let r := CmRegion.ofBytes bs
  if (lookupT s.cmTable h).isSome ∨ (lookupT s.cmOps h).isSome then 1
  else if descReservedOk bs = false ∨ r.fieldsOk = false then 2
  else s.placeStatus r

/-- An entry is written, with its summaries. -/
def State.installRegion (s : State) (h : Nat) (r : CmRegion) : State :=
  ({ s with cmTable := tins s.cmTable h r } : State).resummarise r (List.range r.blocks)

def execCmInstall (handle : BitVec 12) (s : State) : Out :=
  let bs := s.bytes s.cmRegs.at_ 64
  if s.cmAddrOk = false then .next (s.cmCommandDone 2)
  else
    let st := s.installStatus handle.toNat bs
    if st = 0 then .next ((s.installRegion handle.toNat (CmRegion.ofBytes bs)).cmCommandDone 0)
    else .next (s.cmCommandDone st)

def execCmRemove (handle : BitVec 12) (s : State) : Out :=
  if (lookupT s.cmTable handle.toNat).isNone then .next (s.cmCommandDone 1)
  else .next { s with cmRegs := { s.cmRegs with removing := some handle.toNat } }

/-- Whether nothing in flight holds the entry of a handle (R240). -/
def State.cmIdle (s : State) (h : Nat) : Bool :=
  (s.queries.all fun q => q.handle != h) && (s.cmStores.all fun w => w.parts.all fun p => p.handle != h) &&
  (lookupT s.cmOps h).isNone

/-- CM_REMOVE_DONE: the entry that a remove waits for is empty. -/
def execCmRemoveDone (s : State) : Out :=
  match s.cmRegs.removing with
  | some h => if s.cmIdle h then .next (({ s with cmTable := tdel s.cmTable h } : State).cmCommandDone 0) else .next s
  | none => .next s

def execCmReadBack (handle : BitVec 12) (s : State) : Out :=
  match lookupT s.cmTable handle.toNat with
  | none => .next (s.cmCommandDone 1)
  | some r => if s.cmAddrOk = false then .next (s.cmCommandDone 2) else .next ((s.storeBytes s.cmRegs.at_ r.bytes).cmCommandDone 0)

/-! ### Starting a move, a seal or an open (R274) -/

/-- The operation of a handle starts: it is counted in S until it ends, and it is a normal request in its channels
(R288). -/
def State.startCmOp (s : State) (h : Nat) (chans : List Nat) (k : CmOpKind) : State :=
  { (s.push .s).normalIn chans with cmOps := tins s.cmOps h { cc := s.cc.ctxid, chans := chans, kind := k } }

/-- The channels that hold the first n rows of a region of a handle. -/
def CmRegion.chansOf (r : CmRegion) (h n : Nat) : List Nat :=
  ((List.range ((n + 63) / 64)).map fun p => r.channelOf h (64 * p)).eraseDups

/-- The management core requests normal mode of channels that run compute traffic (R290). -/
def State.wantNormal (s : State) (chans : List Nat) : State :=
  chans.foldl (fun u n => if (u.chanAt n).mode then u.modChan n fun c => { c with wanted := true } else u) s

/-- A move starts: the entry notes the new place, at which no stripe stands yet (R251). -/
def State.startMove (s : State) (h : Nat) (r : CmRegion) (base : Nat) (mask : BitVec 8) : State :=
  let chans := (r.chansOf h r.rows ++ (r.placed base mask).chansOf h r.rows).eraseDups
  let s1 := (s.wantNormal chans).startCmOp h chans (.move false)
  { s1 with cmTable := tins s1.cmTable h { r with next := some (base, mask, 0) } }

/-- Codes 6 and 7 for an installed region. -/
def State.moveStatus (s : State) (h : Nat) : BitVec 16 :=
  match s.cmEntry h with
  | none => if (lookupT s.cmOps h).isSome then 7 else 6
  | some r => if r.asid ≠ s.cc.asid then 6 else if (lookupT s.cmOps h).isSome then 7 else 0

def execCmmov (xd xa xb : XReg) (s : State) : Out :=
  finish do
    needSupervisor s (.cmmov xd xa xb)
    stallIf (s.cc.full .s) s
    let h := (s.getX xa).toNat % 4096
    let b := s.getX xb
    let answer (code : BitVec 16) (u : State) : Except Stop State := .ok (u.setX xd (code.setWidth 64)).retire
    let st := s.moveStatus h
    match s.cmEntry h with
    | none => answer st s
    | some r =>
      let base := (b.extractLsb' 16 32).toNat * 65536
      let r' := r.placed base (b.setWidth 8)
      let st2 := if st ≠ 0 then st else if b &&& 0xFFFF00000000FF00 ≠ 0 then 2 else s.placeStatus r'
      if st2 ≠ 0 then answer st2 s
      else answer 0 (s.startMove h r base (b.setWidth 8))

/-- The WM pieces of a sealed image, or none when an address is no writable (or readable) WM page. A page that needs a unit that
is absent raises its trap (R32). -/
def State.imagePieces (s : State) (kind : Acc) (va : Word) (n : Nat) : Except Stop (Option (State × List Piece)) :=
  match s.piecesLong kind va (n / 65536 + 2) n with
  | .ok (u, ps) => .ok (if ps.all fun p => p.x.ty == 0 then some (u, ps) else none)
  | .error (.trap u t) => if t.cause = cUnit then .error (.trap u t) else .ok none
  | .error (.wait u) => .error (.wait u)

/-- The runs of bytes of pieces. -/
def pieceSpans (ps : List Piece) : List Span := ps.map fun p => ⟨p.x.pa, p.len, p.x.ce⟩

/-- Bytes written over spans, in order. -/
def State.writeSpans (s : State) : List Span → List Byte → State
  | [], _ => s
  | p :: r, bs => State.writeSpans (s.storeIn p.ce p.at_ (bs.take p.n)) r (bs.drop p.n)

/-- The bytes of spans. -/
def State.readSpans (s : State) (ps : List Span) : List Byte := ps.flatMap fun p => s.bytesIn p.ce p.at_ p.n

/-- Whether a span lies on a page with compression enabled and meets a block whose code is reserved (R283). -/
def State.reservedSpan (s : State) (ps : List Span) : Bool := ps.any fun p => p.ce && s.reservedBlock p.at_ p.n

/-- What reading spans does beside giving their bytes: the codes are looked up (R285), and a reserved one is counted (R340). -/
def State.lookSpans (s : State) (ps : List Span) : State :=
  let s1 := ps.foldl (fun u p => if p.ce then u.readCodes p.at_ p.n else u) s
  if s.reservedSpan ps then s1.countError 8 1 else s1

/-- The physical address of the completion word of an image; its header is 128-byte aligned and lies in one page. -/
def completionAt (image : List Span) : Nat := (image.headD ⟨0, 0, false⟩).at_ + 0x1C

/-- The completion word of an image (R275). -/
def State.putCompletion (s : State) (image : List Span) (v : Nat) : State :=
  s.storeIn (image.headD ⟨0, 0, false⟩).ce (completionAt image) (leBytes 4 v)

/-- A release at device scope of an operation that has ended, and its completion word. -/
def State.publish (s : State) (o : CmOp) (image : List Span) (v : Nat) : State :=
  (s.releaseDie (dieOf o.cc)).putCompletion image v

def execCmseal (xd xa xb : XReg) (s : State) : Out :=
  finish <| precise s do
    needSupervisor s (.cmseal xd xa xb)
    stallIf (s.cc.full .s) s
    let h := (s.getX xa).toNat % 4096
    let a := s.getX xb
    let answer (code : BitVec 16) (u : State) : Except Stop State := .ok (u.setX xd (code.setWidth 64)).retire
    let st := s.moveStatus h
    match s.cmEntry h with
    | none => answer st s
    | some r =>
      if st ≠ 0 then answer st s
      else if a.toNat % 128 ≠ 0 then answer 8 s
      else do
        match ← s.imagePieces .store a (0x80 + r.append * r.rb) with
        | none => answer 8 s
        | some (s1, ps) =>
          let image := pieceSpans ps
          let s2 := (s1.putCompletion image 0xFFFFFFFF).sendStamp (dieOf s.cc.ctxid)
          answer 0 ((s2.startCmOp h (r.chansOf h r.append) (.seal image)).later (.cmsealDone (BitVec.ofNat 12 h)))

/-! ### Images (R275) -/

/-- The header of an image: all of it but tag and completion word. -/
def imageHead (r : CmRegion) (nonce : List Byte) : List Byte :=
  leBytes 4 0x4D434C53 ++ leBytes 2 1 ++ leBytes 2 0 ++ leBytes 8 (r.append * r.rb) ++ nonce ++ leBytes 4 0 ++
  ({ r with base := 0, key := 0, asid := 0 } : CmRegion).bytes ++ leBytes 16 0 ++ leBytes 16 0

/-- The authenticated bytes of a header. -/
def imageAuth (head : List Byte) : List Byte := head.take 0x1C ++ (head.drop 0x20).take 0x40 ++ (head.drop 0x70).take 0x10

/-- The tag of a ciphertext. -/
def imageTag (key : BitVec 256) (head nonce body : List Byte) : List Byte := gcmTag key nonce (imageAuth head) body

/-- The key of sealed images, derived from the device migration key, which boot has derived before any context runs (R399). -/
def State.sealKey (s : State) : BitVec 256 := Config.sealKey (s.trust.migKey.getD 0)

/-- A nonce that no seal has had (R275): a free value, or the first number after it that is new. -/
def freshNonce (used : List Nat) (d : Nat) : Nat :=
  (((List.range (used.length + 1)).map fun k => (d + k) % 2 ^ 96).find? fun n => !used.contains n).getD 0

/-- Whether a header is that of an image of a descriptor's shape. -/
def headerOk (head : List Byte) (r : CmRegion) : Bool :=
  let q := CmRegion.ofBytes (head.drop 0x20)
  fieldOf head 0 4 == 0x4D434C53 && fieldOf head 4 2 == 1 && fieldOf head 6 2 == 0 && fieldOf head 0x70 16 == 0 &&
  descReservedOk ((head.drop 0x20).take 64) && q.base == 0 && q.key == 0 && q.asid == 0 &&
  fieldOf head 8 8 == q.append * q.rb &&
  q.rows == r.rows && q.cols == r.cols && q.tag == r.tag && q.stag == r.stag && q.scale == r.scale &&
  q.granule == r.granule && q.append == r.append

def execCmopen (xd xa xb : XReg) (s : State) : Out :=
  finish <| precise s do
    needSupervisor s (.cmopen xd xa xb)
    stallIf (s.cc.full .s) s
    let h := (s.getX xd).toNat % 4096
    let a := s.getX xa
    let (s1, bs) ← s.loadAt (s.getX xb) 64
    let r := CmRegion.ofBytes bs
    let answer (code : BitVec 16) (u : State) : Except Stop State := .ok (u.setX xd (code.setWidth 64)).retire
    let st := if (lookupT s1.cmOps h).isSome then 7 else s1.installStatus h bs
    if st ≠ 0 then answer st s1
    else if a.toNat % 128 ≠ 0 then answer 8 s1
    else
      match ← s1.imagePieces .load a 0x80 with
      | none => answer 8 s1
      | some (s2, hp) =>
        let (s3, head) ← s2.loadPieces a hp
        if headerOk head r = false then answer 8 s3
        else
          match ← s3.imagePieces .load a (0x80 + r.append * r.rb) with
          | none => answer 8 s3
          | some (s4, ps) =>
            let image := pieceSpans ps
            let s5 := (s4.putCompletion image 0xFFFFFFFF).sendStamp (dieOf s.cc.ctxid)
            answer 0 ((s5.startCmOp h (r.chansOf h r.append) (.open_ image r)).later (.cmopenDone (BitVec.ofNat 12 h)))

/-! ### The ends (R251, R274, R275) -/

/-- An operation of a handle ends: its S count is dropped. -/
def State.endCmOp (s : State) (h : Nat) (o : CmOp) : State :=
  let s1 := { s.normalOut o.chans with cmOps := tdel s.cmOps h }
  if o.live then s1.complete o.cc .s else s1

/-- Copies bytes of CM from one place of a region to the same place of another; poison goes with them. -/
def State.cmCopy (s : State) (r r' : CmRegion) (src dst n : Nat) : State :=
  let s1 := s.cmWrite r' (cellsFrom dst (s.cmBytes r src n))
  let bad := s.poison.filter fun a => decide (src ≤ a ∧ a < src + n)
  if bad.isEmpty then s1 else { s1 with poison := s1.poison ++ bad.map fun a => a - src + dst }

/-- A stripe moves to the new place of its region, with the summaries of its blocks (R251). -/
def State.moveStripe (s : State) (r r' : CmRegion) (p : Nat) : State :=
  let rows := ((List.range 64).map (64 * p + ·)).filter fun i => decide (i < r.rows)
  let s1 := rows.foldl (fun u i => u.cmCopy r r' (r.rowAt i) (r'.rowAt i) r.rb) s
  let blocks := if r.g = 0 then [] else (rows.map (· / r.g)).eraseDups
  blocks.foldl (fun u b => u.cmCopy r r' (r.sumAt b) (r'.sumAt b) r.sb) s1

/-- CMMOV_DONE: the next stripe of a move stands at the new place, and with the last one the entry takes it. A stripe of
which a packet was poisoned is sent again (R293). -/
def execCmmovDone (handle : BitVec 12) (s : State) : Out :=
  let h := handle.toNat
  match lookupT s.cmOps h, lookupT s.cmTable h with
  | some o, some r =>
    match o.kind, r.next with
    | .move true, _ => .next { s with cmOps := tins s.cmOps h { o with kind := .move false } }
    | .move false, some (base, mask, p) =>
      let r' := r.placed base mask
      let s1 := s.moveStripe r r' p
      if p + 1 < r.stripes then .next { s1 with cmTable := tins s1.cmTable h { r with next := some (base, mask, p + 1) } }
      else .next (({ s1 with cmTable := tins s1.cmTable h r' } : State).endCmOp h o)
    | _, _ => .next s
  | _, _ => .next s

/-- The body of a region: its rows below the append pointer (R275). -/
def State.cmBody (s : State) (r : CmRegion) : List Byte :=
  (List.range r.append).flatMap fun i => s.cmBytes r (r.rowPa i) r.rb

/-- CMSEAL_DONE: the image is written, its completion word last, as a release at device scope. -/
def execCmsealDone (handle : BitVec 12) (s : State) : Out :=
  let h := handle.toNat
  match lookupT s.cmOps h, lookupT s.cmTable h with
  | some o, some r =>
    match o.kind with
    | .seal image =>
      let bad := !s.keyHeld r.key.toNat || (List.range r.append).any fun i => s.poisoned (r.rowPa i) r.rb
      if bad then .next ((s.publish o image 3).endCmOp h o)
      else
        let (d, s1) := s.draw
        let n := freshNonce s.nonces (d 0)
        let nonce := leBytes 12 n
        let head := imageHead r nonce
        let body := gcmCrypt s.sealKey nonce (s1.cmBody r)
        let all := (head.take 0x1C ++ leBytes 4 0xFFFFFFFF ++ (head.drop 0x20).take 0x40 ++
          imageTag s.sealKey head nonce body ++ leBytes 16 0) ++ body
        let s2 := { s1 with nonces := n :: s1.nonces }
        .next (((s2.writeSpans image all).publish o image 0).endCmOp h o)
    | _ => .next s
  | _, _ => .next s

/-- Rows of a region from a body. -/
def State.cmFill (s : State) (r : CmRegion) (body : List Byte) : State :=
  (List.range r.append).foldl (fun u i => u.cmWrite r (cellsFrom (r.rowPa i) ((body.drop (i * r.rb)).take r.rb))) s

/-- CMOPEN_DONE: the rows are installed when the image authenticates; else they are zeroed and the handle stays empty. -/
def execCmopenDone (handle : BitVec 12) (s : State) : Out :=
  let h := handle.toNat
  match lookupT s.cmOps h with
  | some o =>
    match o.kind with
    | .open_ image r =>
      let s := s.lookSpans image
      let all := s.readSpans image
      let head := all.take 0x80
      let body := all.drop 0x80
      let nonce := (head.drop 0x10).take 12
      let good := headerOk head r && (head.drop 0x60).take 16 == imageTag s.sealKey head nonce body &&
        !(image.any fun p => s.poisoned p.at_ p.n) && !s.reservedSpan image && s.keyHeld r.key.toNat
      if good then
        let s1 := (s.cmFill r (gcmCrypt s.sealKey nonce body)).installRegion h r
        .next ((s1.publish o image 0).endCmOp h o)
      else
        let s1 := if s.keyHeld r.key.toNat then s.cmFill r (List.replicate (r.append * r.rb) 0) else s
        .next ((s1.publish o image 9).endCmOp h o)
    | _ => .next s
  | none => .next s

end Sys2Proof.Machine
end

