-- ==== Sys2Proof/Machine/JobCard.lean ====
section
/-! DEFINITION. Job cards: JOB and JOBCHK, the copy, gather and collective engines, and completions (15_queues.md R316 to
R321, 19_links.md R395). -/

namespace Sys2Proof.Machine

/-! ### Cards (R316, R319) -/

/-- The card of 64 bytes, entered by a control core under a token. -/
def Job.ofBytes (s : State) (card : Nat) (token : BitVec 32) (nodes : List (BitVec 16)) (bs : List Byte) : Job :=
  let f := fieldOf bs
  let w (off : Nat) : Word := BitVec.ofNat 64 (f off 8)
  { cc := s.cc.ctxid, token := token, card := card, engine := BitVec.ofNat 8 (f 0 1), op := BitVec.ofNat 8 (f 1 1)
    notify := f 2 1 % 2 == 1, tag := BitVec.ofNat 8 (f 3 1), a := w 8, b := w 0x10, rowBytes := f 0x18 4
    rows := f 0x1C 4, srcStride := w 0x20, dstStride := w 0x28, extent := w 0x30, nodes := nodes, level := s.cc.level }

/-- Whether node numbers rise strictly. -/
def nodesRise : List (BitVec 16) → Bool
  | [] => true
  | [_] => true
  | a :: b :: r => decide (a.toNat < b.toNat) && nodesRise (b :: r)

/-- Whether no field of a card is invalid (R317, R319). -/
def cardOk (own : BitVec 16) (j : Job) (bs : List Byte) : Bool :=
  let e := j.engine.toNat
  let op := j.op.toNat
  (match e with | 0 => decide (op ≤ 2) | 1 => op == 0 | 2 => decide (op ≤ 1) | _ => false) &&
  fieldOf bs 2 1 / 2 == 0 && (e == 1 || j.extent == 0) && j.rows != 0 && j.rowBytes != 0 &&
  (!(e == 0 && op == 0) || j.rows == 1) &&
  (e != 2 || (j.dstStride.toNat < 65536 && decide (2 ≤ j.rows ∧ j.rows ≤ 64) && nodesRise j.nodes &&
    j.nodes.contains own && !j.nodes.contains 0xFFFF && (op != 0 || j.rowBytes % 4 == 0)))

/-- Reads the peer list of a collective of an admitted count. -/
def State.peerList (s : State) (bs : List Byte) : Except Stop (State × List (BitVec 16)) :=
  let n := fieldOf bs 0x1C 4
  if fieldOf bs 0 1 = 2 ∧ 2 ≤ n ∧ n ≤ 64 then do
    let va : Word := BitVec.ofNat 64 (fieldOf bs 0x20 8)
    let (s1, ps) ← s.pieces .load false va (2 * n)
    trapIf (ps.any fun p => p.x.ic || p.x.ty == 3) s1 cProt va
    let (s2, lb) ← s1.loadPieces va ps
    return (s2, (List.range n).map fun i => BitVec.ofNat 16 (fieldOf lb (2 * i) 2))
  else .ok (s, [])

/-- Whether a listed node of the scale-up domain needs a port that the variant lacks (R32, R389). -/
def State.nodesAbsent (s : State) (nodes : List (BitVec 16)) : Bool :=
  nodes.any fun n => n != s.nodeid && decide (n.toNat < 256) &&
    match s.portToward (clusterOf s.cc.ctxid) n.toNat with
    | some p => decide (s.variant.slports ≤ p)
    | none => false

/-- Whether the job queue of a cluster is full. -/
def State.jobsFull (s : State) (cl : Nat) : Bool := decide (64 ≤ (s.jobs.filter fun j => clusterOf j.cc == cl).length)

/-- Step 1 of JOB: the card translates as a load and as a store. -/
def State.cardPlace (s : State) (a : Word) : Except Stop (State × Xlat) := do
  trapIf (a.toNat % 64 != 0) s cAlign a
  let (s1, _) ← s.translate ⟨.load, false, 64⟩ a
  let (s2, x) ← s1.translate ⟨.store, false, 64⟩ a
  trapIf (x.ty != 0 && x.ty != 2) s2 cProt a
  return (s2, x)

/-- The card and, for a collective, its peer list. -/
def State.readCard (s : State) (x : Xlat) (a : Word) : Except Stop (State × List Byte × List (BitVec 16)) := do
  let (s1, bs) ← s.loadPiece ⟨x, 64⟩ a
  let (s2, nodes) ← s1.peerList bs
  return (s2, bs, nodes)

/-- The status that JOB writes into a card. -/
def State.cardStatus (s : State) (x : Xlat) (status : Nat) : State :=
  (s.storePiece ⟨{ x with pa := x.pa + 4 }, 4⟩ (leBytes 4 status)).1

/-- JOB. A stall comes before the release, which is made once; the card is read again after it (log 20). -/
def execJob (xd xa : XReg) (s : State) : Out :=
  finish do
    let (s1, x) ← precise s (s.cardPlace (s.getX xa))
    waitOwn s
    let r := s.release 4
    let (s2, bs, nodes) ← precise r (s1.readCard x (s.getX xa))
    trapIf (s2.nodesAbsent nodes) r cUnit 0
    let serial := s2.cc.nextSerial
    let token : BitVec 32 := BitVec.ofNat 32 (serial.toNat * 256 + fieldOf bs 3 1)
    let j := { Job.ofBytes s2 x.pa token nodes bs with ce := x.ce, entry := (s1.tlbFind (s.getX xa)).map (·.2) }
    if cardOk s2.nodeid j bs = false then return (((s2.release 4).cardStatus x 7).setX xd 0).retire
    else
      stallIf (s.jobsFull (clusterOf s.cc.ctxid) || s.cc.full .c) s
      let s3 := ((s2.release 4).cardStatus x 0xFFFF).modCc fun c => { c.incOut .c with serial := serial }
      let s4 : State := { s3 with jobs := s3.jobs ++ [j] }
      return ((s4.later (.jobStart s.cc.ctxid token)).setX xd (token.setWidth 64)).retire

/-- JOBCHK; a 0 for a token of the context is an acquire, which this model gives every load. -/
def execJobchk (xd xa : XReg) (s : State) : Out :=
  let t := s.getX xa
  let v : Word := if t = 0 then 2
    else if s.jobs.any fun j => j.cc == s.cc.ctxid && j.token.setWidth 64 == t then 1 else 0
  .next (s.setX xd v).retire

/-! ### Footprints (R318) -/

/-- A byte range of a footprint: its ends, and whether it is written. -/
structure Range where
  lo : Int
  hi : Int
  w  : Bool

/-- The range of n rows of a stride from an address. -/
def rowRange (a : Word) (n bytes : Nat) (stride : Int) (w : Bool) : Range :=
  let last : Int := ((n : Int) - 1) * stride
  { lo := a.toNat + min 0 last, hi := a.toNat + max 0 last + bytes - 1, w := w }

/-- The footprint of a card; the source of a gather is its whole extent. -/
def Job.footprint (j : Job) : List Range :=
  let n := j.rows
  let b := j.rowBytes
  match j.engine.toNat, j.op.toNat with
  | 0, 0 => [rowRange j.a 1 b 0 false, rowRange j.b 1 b 0 true]
  | 0, 1 => [rowRange j.a n b j.srcStride.toInt false, rowRange j.b n b j.dstStride.toInt true]
  | 0, _ => [rowRange j.b 1 (n * b) 0 true]
  | 1, _ => [rowRange j.a 1 j.extent.toNat 0 false, rowRange j.srcStride 1 (4 * n) 0 false, rowRange j.b 1 (n * b) 0 true]
  | _, 0 => [rowRange j.a 1 b 0 false, rowRange j.srcStride 1 (2 * n) 0 false, rowRange j.b 1 b 0 true]
  | _, _ => [rowRange j.a 1 b 0 false, rowRange j.srcStride 1 (2 * n) 0 false, rowRange j.b 1 (n * b) 0 true]

/-- Whether two cards conflict. -/
def Job.conflicts (j k : Job) : Bool :=
  j.footprint.any fun r => k.footprint.any fun q => (r.w || q.w) && decide (r.lo ≤ q.hi ∧ q.lo ≤ r.hi)

/-- The earlier cards of the same context. -/
def State.earlierJobs (s : State) (j : Job) : List Job :=
  (s.jobs.takeWhile fun k => !(k.cc == j.cc && k.token == j.token)).filter fun k => k.cc == j.cc

/-! ### The engines' accesses (R317, R320) -/

/-- Idempotent pages of WM, scratchpad, host or peer. -/
def jobPage (x : Xlat) : Bool := !x.ic && (x.ty == 0 || x.ty == 2 || x.ty == 4 || x.ty == 5)

/-- The bytes from an address that an engine moves at once: within a page and a packet. -/
def chunkAt (va : Word) (n : Nat) : Nat := min n (min packetMost (65536 - va.toNat % 65536))

/-- An engine reads bytes of one page. -/
def State.jobRead (s : State) (token : BitVec 32) (va : Word) (n : Nat) : Except Stop (State × List Byte) := do
  let (s1, x) ← s.translate ⟨.load, true, n⟩ va
  trapIf (!jobPage x) s1 cProt va
  s1.loadPieceFor token ⟨x, n⟩ va

/-- An engine writes bytes of one page. The card notes the acknowledgements that a write to a peer waits for. -/
def State.jobWrite (s : State) (token : BitVec 32) (va : Word) (bs : List Byte) : Except Stop State := do
  let (s1, x) ← s.translate ⟨.store, true, bs.length⟩ va
  trapIf (!jobPage x) s1 cProt va
  let (s2, w) := s1.storePiece ⟨x, bs.length⟩ bs
  if w.peers.isEmpty then return s2
  else return { s2 with jobs := s2.jobs.map fun k =>
    if k.cc == s.cc.ctxid && k.token == token then { k with peers := k.peers ++ w.peers } else k }

/-- Reads any number of bytes. -/
def State.jobReadAll (token : BitVec 32) : Nat → State → Word → Nat → Except Stop (State × List Byte)
  | 0, s, _, _ => .ok (s, [])
  | fuel + 1, s, va, n =>
    if n == 0 then .ok (s, [])
    else do
      let k := chunkAt va n
      let (s1, b) ← s.jobRead token va k
      let (s2, bs) ← State.jobReadAll token fuel s1 (va + BitVec.ofNat 64 k) (n - k)
      return (s2, b ++ bs)

/-- Writes bytes in ascending order. -/
def State.jobWriteAll (token : BitVec 32) : Nat → State → Word → List Byte → Except Stop State
  | 0, s, _, _ => .ok s
  | fuel + 1, s, va, bs =>
    if bs.isEmpty then .ok s
    else do
      let k := chunkAt va bs.length
      let s1 ← s.jobWrite token va (bs.take k)
      State.jobWriteAll token fuel s1 (va + BitVec.ofNat 64 k) (bs.drop k)

/-- Copies a row, piece by piece. -/
def State.jobCopy (token : BitVec 32) : Nat → State → Word → Word → Nat → Except Stop State
  | 0, s, _, _, _ => .ok s
  | fuel + 1, s, src, dst, n =>
    if n == 0 then .ok s
    else do
      let k := min (chunkAt src n) (chunkAt dst n)
      let (s1, bs) ← s.jobRead token src k
      let s2 ← s1.jobWrite token dst bs
      State.jobCopy token fuel s2 (src + BitVec.ofNat 64 k) (dst + BitVec.ofNat 64 k) (n - k)

/-- Row r of a gather: its index, then the row, which must lie in the extent. The list address stands at 0x20, so that
the stride of the source rows is the one at 0x28 (log 31). -/
def State.gatherRow (s : State) (j : Job) (r : Nat) : Except Stop State := do
  let (s1, ib) ← State.jobReadAll j.token 5 s (j.srcStride + BitVec.ofNat 64 (4 * r)) 4
  let off : Int := leNat ib * j.dstStride.toInt
  let src := j.a + BitVec.ofInt 64 off
  trapIf (decide (off < 0 ∨ (j.extent.toNat : Int) < off + j.rowBytes)) s1 cProt src
  State.jobCopy j.token (j.rowBytes + 1) s1 src (j.b + BitVec.ofNat 64 (r * j.rowBytes)) j.rowBytes

/-- Row r of a copy or gather card. -/
def State.jobRow (s : State) (j : Job) (r : Nat) : Except Stop State :=
  let step (d : Word) : Word := BitVec.ofNat 64 r * d
  if j.engine = 1 then s.gatherRow j r
  else if j.op = 0 then State.jobCopy j.token (j.rowBytes + 1) s j.a j.b j.rowBytes
  else if j.op = 1 then
    State.jobCopy j.token (j.rowBytes + 1) s (j.a + step j.srcStride) (j.b + step j.dstStride) j.rowBytes
  else State.jobWriteAll j.token (j.rowBytes + 1) s (j.b + BitVec.ofNat 64 (r * j.rowBytes))
    (List.replicate j.rowBytes (j.a.setWidth 8))

/-- The completion status of a trap that an engine met, and whether a fault address goes with it (R320). -/
def jobStatus (cause : BitVec 8) : BitVec 32 := if cause = cAbsent then 2 else if cause = cMachine then 5 else 3

/-! ### Starting and ending (R318, R320) -/

/-- The card of a control core by token. -/
def State.jobOf (s : State) (cc : BitVec 10) (token : BitVec 32) : Option Job :=
  s.jobs.find? fun j => j.cc == cc && j.token == token

/-- Changes a card. -/
def State.modJob (s : State) (j : Job) (f : Job → Job) : State :=
  { s with jobs := s.jobs.map fun k => if k.cc == j.cc && k.token == j.token then f k else k }

/-- A card has done its work: its completion is due, once its writes to peers are acknowledged. -/
def State.jobFinished (s : State) (j : Job) (status : BitVec 32) (fault : Word) : State :=
  (s.modJob j fun k => { k with ended := some (status, fault) }).later (.jobCompletion j.cc j.token)

/-- Runs engine work in the context of a card, at the level at which it was posted. The engine has the walk and the leaves of
the card in the place of those of the context's instruction (R212). -/
def State.asJob (s : State) (j : Job) (f : State → State) : State :=
  s.onCc j.cc fun u =>
    let own := u.cc
    let v := f (u.modCc fun c => { c with level := j.level, miss := j.miss, held := j.held })
    (v.modJob j fun k => { k with miss := v.cc.miss, held := v.cc.held }).modCc fun c =>
      { c with level := own.level, miss := own.miss, held := own.held }

/-- The engine waits for no walk and holds no leaf. -/
def State.walksDone (s : State) : State := s.modCc fun c => { c with miss := none, held := [] }

/-- Engine work ends with a card's completion. A miss leaves nothing but its walk, which goes to the walk table (R212), and a
read of a peer that has no response yet nothing but its request. -/
def State.engineEnd (s : State) (j : Job) (r : Except Stop State) (good : State → State) : State :=
  match r with
  | .ok u => good u.walksDone
  | .error (.trap u t) => u.walksDone.jobFinished j (jobStatus t.cause) t.tval
  | .error (.wait u) =>
    match u.peerReads.find? fun q => q.cc == j.cc && q.token == j.token && q.got == .waiting with
    | none =>
      match u.cc.miss with
      | none => s
      | some m =>
        if s.cc.miss = some m then s
        else (s.modCc fun c => { c with miss := some m }).later (.pageWalk s.cc.ctxid (m.key.setWidth 64 <<< 16))
    | some q =>
      if s.peerReads.contains q then s
      else
        { (s.onCc j.cc fun u => u.sendRead q.node.toNat s.packetTag (peerOff q.pa) q.n) with
          packetTag := s.packetTag + 1
          peerReads := s.peerReads ++ [{ q with tag := s.packetTag }] }

/-! ### Collectives (R317, R395) -/

/-- Whether a message under a card's tag is one of its collective: the first of a node, or a withdrawal after the
contribution that the card has of that node. A node that is not in the list names one that differs (R317). -/
def Job.takes (j : Job) (src tag : BitVec 16) (m : CollMsg) : Bool :=
  j.collTag == tag && (m == .withdraw true) == j.contribs.any fun c => c.1 == src

/-- Takes the held messages that a card waits for. -/
def State.takeHeld (s : State) (j : Job) : State × Job :=
  s.collHeld.foldl (fun (acc : State × Job) m =>
    let (u, k) := acc
    if k.takes m.1 m.2.1 m.2.2 then
      ({ u with collHeld := u.collHeld.erase m }, { k with contribs := k.contribs ++ [(m.1, m.2.2)] })
    else (u, k)) (s, j)

/-- Whether a contribution agrees with a card (R317). -/
def Job.agrees (j : Job) : CollMsg → Bool
  | .contribution op rb nodes data => op == j.op && rb.toNat == j.rowBytes && nodes == j.nodes && data.length == j.rowBytes
  | .withdraw _ => false

/-- The data of a member. -/
def Job.dataOf (j : Job) (n : BitVec 16) : List Byte :=
  match j.contribs.find? fun c => c.1 == n with
  | some (_, .contribution _ _ _ data) => data
  | _ => []

/-- What a collective writes at B. -/
def Job.result (j : Job) : List Byte :=
  if j.op = 0 then
    (List.range (j.rowBytes / 4)).flatMap fun e =>
      leBytes 4 (sumStrict false 0 0 (j.nodes.map fun n => (fmtFP32.decode (fieldOf (j.dataOf n) (4 * e) 4), 0))).1
  else j.nodes.flatMap j.dataOf

/-- A collective whose members have all contributed writes its result; a mismatch or a withdrawal ends it, and a mismatch ends
the cards of the other members too, which a withdrawal tells of it (R317; DESIGN CHOICE, log 32). -/
def State.tryCollective (s : State) (j : Job) : State :=
  if j.ended.isSome then s
  else if j.contribs.any fun c => !j.agrees c.2 then
    let differs := j.contribs.any fun c => match c.2 with | .contribution .. => !j.agrees c.2 | .withdraw _ => false
    let s1 := s.jobFinished j 6 0
    if differs then s1.onCc j.cc fun u => u.sendColl j.nodes j.collTag (.withdraw true) else s1
  else if j.nodes.all fun n => j.contribs.any fun c => c.1 == n then
    s.asJob j fun u =>
      u.engineEnd j (State.jobWriteAll j.token (j.result.length + 1) u j.b j.result) fun v => v.jobFinished j 0 0
  else s

/-- A collective card begins: the own contribution is read and sent to the other members. One that has begun goes on with its
result, for which it may have waited. -/
def State.startCollective (s : State) (j : Job) : State :=
  let begun (k : Job) : Bool := k.contribs.any fun c => c.1 == s.nodeid
  if begun j then s.tryCollective j
  else
    let s1 := s.asJob j fun u =>
      match State.jobReadAll j.token (j.rowBytes + 1) u j.a j.rowBytes with
      | .ok (v, data) =>
        let m : CollMsg := .contribution j.op (BitVec.ofNat 32 j.rowBytes) j.nodes data
        let (v1, k) := (v.walksDone.sendColl j.nodes j.collTag m).takeHeld { j with contribs := [(u.nodeid, m)] }
        v1.modJob j fun _ => k
      | .error e => u.engineEnd j (.error e) id
    match s1.jobOf j.cc j.token with
    | some k => if begun k then s1.tryCollective k else s1
    | none => s1

/-- The rows of a copy or gather card. -/
def Job.rowCount (j : Job) : Nat := if j.engine = 0 ∧ j.op = 0 then 1 else j.rows

/-- A row of a card is written: the reads of it are done with, and after the last row the card has done its work. -/
def State.rowDone (s : State) (j : Job) : State :=
  let s1 := { s with peerReads := s.peerReads.filter fun q => !(q.cc == j.cc && q.token == j.token) }
  if j.row + 1 < j.rowCount then s1.modJob j fun k => { k with row := j.row + 1 } else s1.jobFinished j 0 0

/-- Whether the engine of a card waits for a walk that has not ended. -/
def Job.walking (j : Job) : Bool := match j.miss with | some m => m.cause.isNone | none => false

/-- The card of a running copy or gather whose next row can be written now: no walk and no read of a peer is on its way. -/
def State.rowReady (s : State) (j : Job) : Bool :=
  j.running && j.engine != 2 && j.ended.isNone && !j.walking &&
  !s.peerReads.any fun q => q.cc == j.cc && q.token == j.token && q.got == .waiting

/-- JOB_START: a card begins once no earlier card of its context conflicts with it. A copy or gather writes one row, and
the rows after it as they become due; it stops at none but a row boundary (R315). -/
def execJobStart (cc : BitVec 10) (token : BitVec 32) (s : State) : Out :=
  match s.jobOf cc token with
  | none => .next s
  | some j =>
    if j.ended.isSome || (!j.running && (s.earlierJobs j).any j.conflicts) then .next s
    else
      let k := { j with running := true }
      let s1 := s.modJob j fun _ => k
      if j.engine = 2 then .next (s1.startCollective k)
      else .next (s1.asJob k fun u => u.engineEnd k (u.jobRow k k.row) fun v => v.rowDone k)

/-- JOB_COMPLETION: the completion of a card whose work has ended and whose writes to peers have been acknowledged (R345,
R356); cards that waited for it may begin. -/
def execJobCompletion (cc : BitVec 10) (token : BitVec 32) (s : State) : Out :=
  match s.jobOf cc token with
  | none => .next s
  | some j =>
    match j.ended with
    | none => .next s
    | some (status, fault) =>
      if !j.peers.isEmpty then .next s
      else
        let s1 := s.endJob j status fault
        .next ((s1.jobs.filter fun k => k.cc == cc && !k.running).foldl (fun u k => u.later (.jobStart cc k.token)) s1)

/-- A card of a collective that waits for messages. -/
def State.awaits (s : State) (j : Job) : Bool :=
  j.engine == 2 && j.running && j.ended.isNone && j.contribs.any fun c => c.1 == s.nodeid

/-- COLLECTIVE_DATA: a message of a member reaches the card that waits for it, or is held for one to come. A withdrawal after
a contribution that a completed card has taken brings nothing. Before the firmware runs the ports are down (R33). -/
def execCollectiveData (src tag : BitVec 16) (msg : CollMsg) (s : State) : Out :=
  if s.trust.bootState ≠ 2 then .next s
  else
    let mine := s.jobs.filter fun j => s.awaits j && j.takes src tag msg
    match (mine.find? fun j => j.nodes.contains src) <|> mine.head? with
    | none =>
      if msg = .withdraw true ∧ (s.collHeld.any fun m => m.1 == src && m.2.1 == tag) = false then .next s
      else .next { s with collHeld := s.collHeld ++ [(src, tag, msg)] }
    | some j =>
      let k := { j with contribs := j.contribs ++ [(src, msg)] }
      .next ((s.modJob j fun _ => k).tryCollective k)

end Sys2Proof.Machine
end

