-- ==== Sys2Proof/Machine/VSend.lean ====
section
/-! DEFINITION. VSEND, major opcode 0x65, and element trains at both ends (15_queues.md R322, 19_links.md R394). -/

namespace Sys2Proof.Machine

/-- The node and node-relative address of a translated peer address; the own node for the loopback (R388). -/
def State.peerTarget (s : State) (x : Xlat) : Nat × Nat :=
  if peerBase ≤ x.pa then (peerNode x.pa, peerOff x.pa) else (s.nodeid.toNat, x.pa)

/-- Translates the destinations of a VSEND in element order: node, node-relative address, element, and whether the page is of
device class. -/
def sendTargets (bytes : Nat) : State → List (Nat × Word) → Except Stop (State × List (Nat × Nat × Nat × Bool))
  | s, [] => .ok (s, [])
  | s, (i, a) :: r => do
    let (s1, x) ← s.translate ⟨.store, true, bytes⟩ a
    trapIf (x.ty != 5) s1 cProt a
    trapIf (a.toNat % bytes != 0) s1 cAlign a
    let (s2, ts) ← sendTargets bytes s1 r
    return (s2, ((s1.peerTarget x).1, (s1.peerTarget x).2, i, x.ic) :: ts)

/-- The 16 stream bytes of a train element (R394). -/
def trainElem (addr bytes v : Nat) : List Byte := leBytes 8 addr ++ leBytes bytes v ++ leBytes (8 - bytes) 0

/-- The code of an element size (R393). -/
def sizeCode (bytes : Nat) : Nat := if bytes = 1 then 0 else if bytes = 2 then 1 else if bytes = 4 then 2 else 3

/-- The element packets of a train, 15 elements at most in each. -/
def State.sendElems (s : State) (node : Nat) (tag : BitVec 24) (bytes : Nat) : Nat → List (List Byte) → State
  | 0, _ => s
  | fuel + 1, es =>
    if es.isEmpty then s
    else
      let p := es.take 15
      let s1 := if node = s.nodeid.toNat then
          s.later (.trainElements (BitVec.ofNat 8 node) (BitVec.ofNat 2 (sizeCode bytes)) p.flatten)
        else s.sendPacket node 5 p.length tag (sizeCode bytes + 256 * p.length) p.flatten
      State.sendElems s1 node tag bytes fuel (es.drop 15)

/-- The train slots of a core (R322). -/
def trainSlots : Nat := 64

/-- The trains of a core that hold a slot. -/
def State.trainsOut (s : State) (core : Nat) : Nat :=
  (s.trains.filter fun t => coreOf t.cc == core && t.wait.isNone).length

/-- A train goes out: its elements, then its tail. -/
def State.sendTrain (s : State) (node : Nat) (tag : BitVec 24) (bytes : Nat) (counter : Word) (es : List (List Byte)) : State :=
  let s1 := State.sendElems s node tag bytes (es.length + 1) es
  if node = s.nodeid.toNat then s1.later (.trainTail (BitVec.ofNat 8 node) tag counter (BitVec.ofNat 32 es.length))
  else s1.sendPacket node 6 1 tag counter.toNat (padUnits (leBytes 4 es.length))

/-- One train of a VSEND of the control core that moves: it goes out while its core has a slot free, and waits otherwise. -/
def State.addTrain (s : State) (node bytes : Nat) (group : BitVec 24) (counter : Word) (ic : Bool) (es : List (List Byte)) :
    State :=
  let tag := s.packetTag
  let t : Train := { cc := s.cc.ctxid, node := BitVec.ofNat 8 node, tag := tag, group := group, count := es.length, ic := ic }
  let s1 := { s with packetTag := s.packetTag + 1 }
  if s.trainsOut (coreOf s.cc.ctxid) < trainSlots then
    { s1.sendTrain node tag bytes counter es with trains := s1.trains ++ [t] }
  else { s1 with trains := s1.trains ++ [{ t with wait := some (es, bytes, counter) }] }

/-- Whether the vector stream of the control core that moves stalls for a train slot. -/
def State.streamHeld (s : State) : Bool := s.trains.any fun t => t.cc == s.cc.ctxid && t.live && t.wait.isSome

/-- VSEND: one train to each destination node, in ascending node order. Trains for which the core has no slot wait, and the
vector stream with them. -/
def execVsend (vs va : VReg) (xb : XReg) (s : State) : Out :=
  finish <| precise s do
    needVector s
    let d := s.getV vs
    let a := s.getV va
    tagCheck (isVal d.tag && !isSub d.tag && (a.tag == tI64 || a.tag == tUI64)) s a.tag 0 d.tag
    lenCheck s [d.tag, a.tag]
    stallIf (s.cc.full .s) s
    let s ← vfenceWait s
    let bytes := tagWidth d.tag / 8
    let (s1, ts) ← sendTargets bytes s ((s.activeFrom 0).map fun i => (i, BitVec.ofNat 64 (slotOf a.data a.tag i)))
    let nodes := (List.range 256).filter fun n => ts.any fun t => t.1 == n
    if nodes.isEmpty then return s1.retire
    else
      let group := s1.packetTag
      let send (u : State) (n : Nat) : State :=
        u.addTrain n bytes group (s.getX xb) (ts.any fun t => t.1 == n && t.2.2.2) ((ts.filter fun t => t.1 == n).map fun t =>
          trainElem t.2.1 bytes (slotOf d.data d.tag t.2.2.1))
      return (nodes.foldl send (s1.push .s)).retire

/-! ### At the receiver (R394) -/

/-- Performs the elements of a packet in order; one that names no WM byte is dropped. -/
def State.performElems (s : State) (bytes : Nat) : Nat → List Byte → State
  | 0, _ => s
  | fuel + 1, bs =>
    if bs.length < 16 then s
    else
      let a := fieldOf bs 0 8
      let s1 := if inWm a bytes then s.storeBytes a ((bs.drop 8).take bytes) else s
      State.performElems s1 bytes fuel (bs.drop 16)

def execTrainElements (src : BitVec 8) (code : BitVec 2) (data : List Byte) (s : State) : Out :=
  let _from := src
  .next (s.performElems (2 ^ code.toNat) (data.length + 1) data)

/-- Answers a node: the acknowledgement goes back, through the loopback path for the own node. -/
def State.ackTo (s : State) (src : BitVec 8) (ty : Nat) (tag : BitVec 24) (own : Event) : State :=
  if src.setWidth 16 = s.nodeid then s.later own else s.sendPacket src.toNat ty 0 tag 0 []

/-- TRAIN_TAIL: the count is added to the counter as a release at system scope, and acknowledged. -/
def execTrainTail (src : BitVec 8) (tag : BitVec 24) (counter : BitVec 64) (count : BitVec 32) (s : State) : Out :=
  let s1 := s.releaseDie 0
  let s2 := if inWm counter.toNat 8 then s1.storeBytes counter.toNat (leBytes 8 (s1.peek counter.toNat 8 + count.toNat)) else s1
  .next (s2.ackTo src 7 tag (.tailAcknowledgement src tag))

/-- The oldest train of a core that waits takes a free slot. -/
def State.sendWaiting (s : State) (core : Nat) : State :=
  if trainSlots ≤ s.trainsOut core then s
  else match s.trains.find? fun t => coreOf t.cc == core && t.wait.isSome with
    | some t =>
      let es := t.wait.getD ([], 0, 0)
      { s.onCc t.cc fun u => u.sendTrain t.node.toNat t.tag es.2.1 es.2.2 es.1 with
        trains := s.trains.map fun u => if u = t then { t with wait := none } else u }
    | none => s

/-- A train ends: the last of its VSEND returns the S count, and one that waits takes its slot. -/
def State.endTrain (s : State) (t : Train) : State :=
  let s1 := { s with trains := s.trains.erase t }
  let s2 := if t.live && s1.trains.all fun u => !(u.cc == t.cc && u.live && u.group == t.group) then s1.complete t.cc .s else s1
  s2.sendWaiting (coreOf t.cc)

/-- TAIL_ACKNOWLEDGEMENT: the sender's train has ended. -/
def execTailAcknowledgement (src : BitVec 8) (tag : BitVec 24) (s : State) : Out :=
  match s.trains.find? fun t => t.node == src && t.tag == tag with
  | some t => .next (s.endTrain t)
  | none => .next s

end Sys2Proof.Machine
end

