-- ==== Sys2Proof/Machine/Trust.lean ====
section
/-! DEFINITION. Resets, boot, the trust unit's commands and the lifecycle (20_trust.md R397 to R409, 01_device.md R33). -/

namespace Sys2Proof.Machine

/-- Changes the trust state. -/
def State.modTrust (s : State) (f : Trust → Trust) : State := { s with trust := f s.trust }

/-- The fuses of a part, as they stand now. -/
def Trust.fuses (t : Trust) : Trust :=
  { devid := t.devid, migGroup := t.migGroup, minSvn := t.minSvn, lcs := t.lcs, vkHash := t.vkHash, dkHash := t.dkHash }

/-! ### Resets (R33, R403) -/

/-- POWER_ON_RESET: every item at its reset value but the fuses; what has left the device has left it. -/
def execPowerOnReset (s : State) : Out :=
  .next { State.reset with
    variant := s.variant, trust := s.trust.fuses, outbox := s.outbox, free := s.free, nonces := s.nonces }

/-- The trust state after a reset of the CXL port: a running device returns to STATE 0, and one that has failed stays in
STATE 3, from which only a reload leads (R34, R403). -/
def Trust.portReset (t : Trust) : Trust :=
  if t.bootState = 3 then { t.fuses with bootState := 3, bootCode := t.bootCode, bootSvn := t.bootSvn } else t.fuses

/-- CXL_PORT_RESET: memories and the remap table stand (log 41). -/
def execCxlPortReset (s : State) : Out :=
  .next { State.reset with
    variant := s.variant, trust := s.trust.portReset, outbox := s.outbox, free := s.free, nonces := s.nonces
    mem := s.mem, poison := s.poison, cmKeys := s.cmKeys, codes := s.codes, metas := s.metas, stored := s.stored
    remap := s.remap, remapFree := s.remapFree }

/-- LIFECYCLE_ADVANCE: the lifecycle state moves only forward (R398). -/
def execLifecycleAdvance (lcs : BitVec 2) (s : State) : Out :=
  .next (if s.trust.lcs.ult lcs then s.modTrust fun t => { t with lcs := lcs } else s)

/-! ### Registers as words -/

/-- LIFECYCLE (R398). -/
def Trust.lifecycle (t : Trust) : Word :=
  t.migGroup.setWidth 64 <<< 16 ||| t.minSvn.setWidth 64 <<< 8 ||| t.lcs.setWidth 64

/-- BOOTSTAT (R400). -/
def Trust.bootStat (t : Trust) : Word :=
  t.bootSvn.setWidth 64 <<< 32 ||| t.bootCode.setWidth 64 <<< 8 ||| t.bootState.setWidth 64

/-- DBGSTAT (R404). -/
def Trust.dbgStat (t : Trust) : Word :=
  t.perm.setWidth 64 <<< 8 ||| (if t.isOpen then 2 else 0) ||| (if t.tokok then 1 else 0)

/-- TUSTAT (R404). -/
def Trust.tuStat (t : Trust) : Word :=
  (if t.busy then 0x80000000 else 0) ||| (if t.lost then 0x40000000 else 0) ||| t.status.setWidth 64

/-- 32 bytes as the 256-bit register that holds them, and back: the byte at the lowest address in the low bits. -/
def digest (bs : List Byte) : BitVec 256 := BitVec.ofNat 256 (leNat bs)
def digestBytes (d : BitVec 256) : List Byte := leBytes 32 d.toNat

/-- IDKHASH: the digest of the identity public key (R398). -/
def idkHash : BitVec 256 := digest (sha3 Config.identityPublic)

/-- MEASi extended by 32 bytes (R405). -/
def Trust.extend (t : Trust) (i : Nat) (d : List Byte) : Trust :=
  { t with meas := t.meas.setIfInBounds i (digest (sha3 (digestBytes (t.meas[i]?.getD 0) ++ d))) }

/-! ### Boot (R401, R402) -/

/-- STATE becomes 2 or 3: MSI-X vector 0 (R385). -/
def State.bootEnds (s : State) (st : BitVec 2) : State := (s.modTrust fun t => { t with bootState := st }).raiseMsix 0

/-- The failing check of R402, by its code, or none. -/
def State.bootCheck (s : State) : Option Byte :=
  let t := s.trust
  let a := hostBase + t.bootAddr.toNat
  let len := t.bootLen.toNat
  let head := s.bytes a 0x1000
  let key := (head.drop 0x40).take 1312
  if t.lcs = 3 then some 7
  else if 0x1000000000000 < a + len ∨ s.poisoned a len = true then some 1
  else if len < 0x1000 ∨ 0x4000000 < len ∨ fieldOf head 0 4 ≠ 0x57464C59 ∨ fieldOf head 4 2 ≠ 1 ∨ fieldOf head 6 2 ≠ 0 ∨
      fieldOf head 0xC 4 ≠ 0 ∨ fieldOf head 0x10 8 ≠ len - 0x1000 ∨ fieldOf head 0x18 8 ≠ 0 ∨
      fieldOf head 0xED4 300 ≠ 0 then some 2
  else if digest (sha3 key) ≠ t.vkHash then some 3
  else if fieldOf head 8 4 < t.minSvn.toNat then some 4
  else if sha3 (s.bytes (a + 0x1000) (len - 0x1000)) ≠ (head.drop 0x20).take 32 then some 5
  else if Config.mldsaVerify key (head.take 0x40) ((head.drop 0x560).take 2420) = false then some 6
  else none

/-- BOOT_LOAD: a write of BOOTCMD with GO starts the ROM when STATE is 0 or 3 (R400). -/
def execBootLoad (cmd : BitVec 64) (s : State) : Out :=
  let s1 := s.modTrust fun t => { t with bootLen := cmd.setWidth 27 }
  if cmd.getLsbD 63 && (s.trust.bootState == 0 || s.trust.bootState == 3) then
    .next ((s1.modTrust fun t => { t with bootState := 1 }).later .bootComplete)
  else .next s1

/-- WM is written with zeros, the metadata region with it: every block is raw again (R202, R283). -/
def State.zeroWm (s : State) : State := { s.zeroBytes 0 wmLimit with codes := [], metas := [], stored := [] }

/-- BOOT_COMPLETE: the checks end. On success MEAS0 and MEAS1 are formed from zero, the keys are derived and the firmware
runs; it writes zero to WM before the first placement (R202). -/
def execBootComplete (s : State) : Out :=
  if s.trust.bootState ≠ 1 then .next s
  else match s.bootCheck with
    | some code => .next ((s.modTrust fun t => { t with bootCode := code }).bootEnds 3)
    | none =>
      let head := s.bytes (hostBase + s.trust.bootAddr.toNat) 0x40
      let form (t : Trust) : Trust :=
        let t1 : Trust :=
          { t with meas := (t.meas.set 0 0).set 1 0, bootSvn := BitVec.ofNat 32 (fieldOf head 8 4), derived := true,
                   migKey := some (Config.migrationKey t.migGroup) }
        (t1.extend 0 (sha3 head)).extend 1 (sha3 (leBytes 8 t.devid.toNat ++ leBytes 8 t.lifecycle.toNat))
      .next (((s.modTrust form).zeroWm).bootEnds 2)

/-! ### Commands (R404 to R409) -/

/-- A command completes. -/
def State.tuDone (s : State) (status : BitVec 16) : State := s.modTrust fun t => { t with busy := false, status := status }

/-- Whether an operand address reaches n bytes of WM. -/
def tuAddrOk (a : Word) (n : Nat) : Bool := a.toNat % 64 == 0 && inWm a.toNat n

/-- Whether an operand can be read: reachable and without poison. -/
def State.tuReadable (s : State) (a : Word) (n : Nat) : Bool := tuAddrOk a n && !s.poisoned a.toNat n

/-- The failing check of VERIFY on a token's bytes (R407). -/
def Trust.tokenStatus (t : Trust) (bs : List Byte) : BitVec 16 :=
  let key := (bs.drop 0x40).take 1312
  if fieldOf bs 0 4 ≠ 0x54474244 ∨ fieldOf bs 4 2 ≠ 1 ∨ fieldOf bs 6 2 ≠ 0 ∨ fieldOf bs 0x18 40 ≠ 0 ∨ 4 ≤ fieldOf bs 0x14 4 then 3
  else if digest (sha3 key) ≠ t.dkHash then 4
  else if fieldOf bs 8 8 ≠ t.devid.toNat ∨ fieldOf bs 0x10 4 ≠ t.lcs.toNat then 5
  else if Config.mldsaVerify key (bs.take 0x40) ((bs.drop 0x560).take 2420) = false then 6
  else 0

def execVerify (s : State) : Out :=
  let t := s.trust
  if t.cmdLow ≠ 0 then .next (s.tuDone 1)
  else if s.tuReadable t.arg0 0xED4 = false then .next (s.tuDone 2)
  else
    let bs := s.bytes t.arg0.toNat 0xED4
    let st := t.tokenStatus bs
    if st = 0 then
      .next ((s.modTrust fun t =>
        { t with tokok := true, perm := BitVec.ofNat 8 (fieldOf bs 0x14 1), tokdig := digest (sha3 bs) }).tuDone 0)
    else .next ((s.modTrust fun t => { t with tokok := false, perm := 0 }).tuDone st)

def execKeyload (s : State) : Out :=
  let t := s.trust
  if t.cmdLow ≠ 0 ∨ 65536 ≤ t.arg1.toNat then .next (s.tuDone 1)
  else if s.tuReadable t.arg0 64 = false then .next (s.tuDone 2)
  else if 256 ≤ t.arg1.toNat ∨ t.lcs = 0 ∨ t.lcs = 2 ∨ t.isOpen = true then .next (s.tuDone 9)
  else
    let key : BitVec 512 := BitVec.ofNat 512 (s.peek t.arg0.toNat 64)
    .next ((s.modTrust fun t => { t with keys := tins t.keys t.arg1.toNat key, loaded := true }).tuDone 0)

/-- An outcome's next state. -/
def nextOf (s : State) : Out → State
  | .next t => t
  | _ => s

/-- A region operation runs to its end. -/
def State.settleOp (s : State) (p : Nat × CmOp) : State :=
  let h : BitVec 12 := BitVec.ofNat 12 p.1
  match p.2.kind with
  | .move _ => (List.range ((lookupT s.cmTable p.1).elim 0 CmRegion.stripes + 1)).foldl
      (fun u _ => nextOf u (execCmmovDone h u)) s
  | .seal _ => nextOf s (execCmsealDone h s)
  | .open_ .. => nextOf s (execCmopenDone h s)

/-- The region operations whose key check has passed complete under their old key, and the CM stores that no QCUST holds
back (R406). -/
def State.cmSettle (s : State) : State :=
  let s1 := s.cmOps.foldl State.settleOp s
  s1.cmStores.foldl (fun u w => u.cmStoreDone w.cc) s1

/-- KEYWIPE: every slot is empty in one step. What is in flight was checked before it. -/
def execKeywipe (s : State) : Out :=
  if s.trust.cmdLow ≠ 0 then .next (s.tuDone 1)
  else
    let s1 := s.cmSettle.modTrust fun t =>
      { t with keys := [], wipecnt := 256, loaded := false, wipeAt := s.clock }
    .next (({ s1 with queries := s1.queries.map fun q => { q with wiped := true }
                      cmStores := s1.cmStores.map fun w => { w with wiped := true } } : State).tuDone 0)

/-- Core cycles of a microsecond: 1,880,000 in a millisecond, as the example after R340 has it. -/
def cyclesPerTick : Nat := 1880

/-- Whether the next key slot may be zeroised: nothing that was checked before the wipe is in flight (R406), and the times
of R424 have passed. -/
def State.wipeDue (s : State) : Bool :=
  s.trust.wipecnt != 0 && (s.queries.all fun q => !q.wiped) && (s.cmStores.all fun w => !w.wiped) &&
  decide (s.trust.wipeAt + (if s.trust.wipecnt = 256 then 10 else 1) * cyclesPerTick ≤ s.clock)

/-- KEYWIPE_ZEROISE: the next slot is zeroised, one loaded meanwhile too. -/
def execKeywipeZeroise (s : State) : Out :=
  if s.wipeDue = false then .next s
  else
    let slot := 256 - s.trust.wipecnt.toNat
    .next (s.modTrust fun t =>
      { t with keys := tdel t.keys slot, wipecnt := t.wipecnt - 1, wipeAt := s.clock })

def execDbgopen (s : State) : Out :=
  let t := s.trust
  if t.cmdLow ≠ 0 then .next (s.tuDone 1)
  else if t.isOpen then .next (s.tuDone 0)
  else if t.tokok = false ∧ t.lcs ≠ 0 then .next (s.tuDone 7)
  else if t.wipecnt ≠ 0 ∨ t.loaded = true then .next (s.tuDone 8)
  else .next ((s.modTrust fun t => { t with isOpen := true }).tuDone 0)

def execExtend (s : State) : Out :=
  let t := s.trust
  let i := t.arg1.toNat % 8
  let tok := t.arg1.getLsbD 8
  if t.cmdLow ≠ 0 ∨ t.arg1 &&& ~~~0x107#64 ≠ 0 then .next (s.tuDone 1)
  else if tok = false ∧ s.tuReadable t.arg0 32 = false then .next (s.tuDone 2)
  else if i < 2 ∨ (tok = true ∧ t.tokok = false) then .next (s.tuDone 10)
  else
    let d := if tok then digestBytes t.tokdig else s.bytes t.arg0.toNat 32
    .next ((s.modTrust fun t => t.extend i d).tuDone 0)

/-- The signed part of a report (R409). -/
def Trust.report (t : Trust) (nonce : List Byte) : List Byte :=
  leBytes 4 0x50525441 ++ leBytes 2 1 ++ leBytes 2 0 ++ leBytes 8 t.devid.toNat ++ leBytes 4 t.lifecycle.toNat ++
  leBytes 4 t.bootSvn.toNat ++ leBytes 4 t.dbgStat.toNat ++ leBytes 4 t.wipecnt.toNat ++ nonce ++
  t.meas.toList.flatMap digestBytes

def execAttest (s : State) : Out :=
  let t := s.trust
  if t.cmdLow ≠ 0 then .next (s.tuDone 1)
  else if s.tuReadable t.arg0 0xAB4 = false ∨ s.tuReadable t.arg1 32 = false then .next (s.tuDone 2)
  else
    let body := t.report (s.bytes t.arg1.toNat 32)
    .next ((s.storeBytes t.arg0.toNat (body ++ Config.identitySignature body)).tuDone 0)

end Sys2Proof.Machine
end

