-- ==== Sys2Proof/Machine/Sched.lean ====
section
/-! DEFINITION. The region scheduler and the arbiter: launches, checks, placement, restore, pre-emption, termination,
waits and user interrupts (02_execution.md R37 to R61, 15_queues.md R323, 16_tables.md R329, R330, R336, R337,
18_traps.md R371 to R373). -/

namespace Sys2Proof.Machine

/-! ### Launch and check (R38 to R41) -/

/-- A region becomes FAULTED by a launch check (R39, R328). -/
def State.failCheck (s : State) (rcb domain : Nat) (cause : BitVec 8) : State :=
  let s1 := (s.storeBytes (rcb + 0x4C) (leBytes 4 cause.toNat)).finishRegion rcb .faulted
  s1.faultEvent domain 0x20 0 rcb (cause.setWidth 32)

/-- The domain that an RCB names itself. -/
def State.rcbDomain (s : State) (rcb : Nat) : Nat := s.peek (rcb + 0x2D) 1

/-- The values of a launch as the registers hold them: reserved bits are zero (R6), and a MAXVL that R122 marks illegal is 16
(DESIGN CHOICE, log 12). -/
def legalLaunch (l : Launch) : Launch :=
  { l with va := l.va &&& ~~~0xFF#64, tvec := l.tvec &&& ~~~0xFF#64, ptbase := l.ptbase &&& 0xFFFFFFFF0000#64
           maxvl := if 1 ≤ l.maxvl.toNat ∧ l.maxvl.toNat ≤ 16 then l.maxvl else 16 }

/-- REGION_LAUNCH: firmware or the host launches an RCB; no context runs before the device has booted (R33, R38). -/
def execRegionLaunch (addr : BitVec 48) (rec : Launch) (s : State) : Out :=
  let rcb := addr.toNat / 256 * 256
  let l := legalLaunch rec
  if inWm rcb 256 = false then .fault .rcbOutsideWm
  else if s.trust.bootState ≠ 2 then .next s
  else
    let code := s.peek (rcb + 0x48) 4
    if 1 ≤ code ∧ code ≤ 6 then .next s
    else if (match s.regionAt rcb with | some r => !r.state.ended | none => false) then .next s
    else
      let s1 := s.putRegion rcb
        { va := l.va, parent := none, service := l.service, entry := BitVec.ofNat 64 (s.peek (rcb + 0x18) 8)
          launch := BitVec.ofNat 64 (s.peek (rcb + 0x20) 8), saveArea := BitVec.ofNat 64 (s.peek (rcb + 0x40) 8)
          tvec := l.tvec, ptbase := l.ptbase, asid := l.asid, maxvl := l.maxvl, preempt := l.preempt }
      if 7 ≤ code then .next (s1.failCheck rcb (s1.rcbDomain rcb) cIllegal)
      else .next (s1.later (.rcbCheck (BitVec.ofNat 48 rcb)))

/-- Whether a slot range holds a cluster slot, or a die slot and no cluster slot (R41). -/
def needsCluster (first n : Nat) : Bool := n != 0 && decide (first < 32)
def needsDie (first n : Nat) : Bool := n != 0 && decide (32 ≤ first ∧ first < 48)

/-- The fields that a region has: its own where the override mask has their bit or no parent stands above it, and
otherwise its parent's (R40). -/
def State.rcbFields (s : State) (rcb : Nat) (r : Region) (p : Option Region) : Region :=
  let w (off n : Nat) : Nat := s.peek (rcb + off) n
  let mask := w 0x2E 2
  let pick {α : Type} (bit : Nat) (own : α) (inh : Region → α) : α :=
    match p with
    | some q => if mask / 2 ^ bit % 2 = 1 then own else inh q
    | none => own
  { r with
    count := w 0x28 4
    priority := pick 0 (w 0x2C 1) Region.priority
    domain := pick 1 (w 0x2D 1) Region.domain
    maxCtx := pick 2 (w 0x30 2) Region.maxCtx
    laneShare := pick 3 (w 0x32 1) Region.laneShare
    laneShape := pick 4 (w 0x33 1) Region.laneShape
    spadKib := pick 5 (w 0x34 4) Region.spadKib
    queryShare := pick 6 (w 0x38 2) Region.queryShare
    firstQ := pick 7 (w 0x3A 2) Region.firstQ
    queues := pick 7 (w 0x3C 2) Region.queues
    firstSlot := pick 8 (w 0x50 2) Region.firstSlot
    slots := pick 8 (w 0x52 2) Region.slots
    watchdog := pick 9 (w 0x58 8) Region.watchdog }

/-- Whether a range of n lies in another. -/
def rangeIn (a n b m : Nat) : Bool := decide (b ≤ a ∧ a + n ≤ b + m)

/-- The budget rules of R40 for the fields that a child supplies itself. -/
def inBudget (mask : Nat) (c p : Region) : Bool :=
  let own (bit : Nat) (ok : Bool) : Bool := mask / 2 ^ bit % 2 == 0 || ok
  own 0 (decide (c.priority ≤ p.priority)) && own 2 (decide (c.maxCtx ≤ p.maxCtx)) &&
  own 5 (decide (c.spadKib ≤ p.spadKib)) && own 7 (rangeIn c.firstQ c.queues p.firstQ p.queues) &&
  own 8 (rangeIn c.firstSlot c.slots p.firstSlot p.slots) &&
  own 9 (decide (0 < c.watchdog ∧ c.watchdog ≤ p.watchdog))

/-- The ranges of R16. -/
def rangesOk (c : Region) : Bool :=
  decide (c.spadKib ≤ 1536 ∧ c.laneShape ≤ 3 ∧ c.firstQ + c.queues ≤ 1024 ∧ c.firstSlot + c.slots ≤ 56)

/-- Check 4 of R39 over pages from an address on. -/
def State.saveAreaOk (s : State) (r : Region) : Nat → Word → Nat → Except (BitVec 8) Unit
  | 0, _, _ => .ok ()
  | fuel + 1, va, n =>
    if n == 0 then .ok ()
    else
      match s.schedLeaf r.ptbase r.asid true va with
      | .error c => .error c
      | .ok _ =>
        let room := min n (65536 - va.toNat % 65536)
        State.saveAreaOk s r fuel (va + BitVec.ofNat 64 room) (n - room)

/-- The checks of R39 in order, on the fields of R40. -/
def State.rcbChecks (s : State) (rcb : Nat) (c : Region) (p : Option Region) : Except (BitVec 8) Unit :=
  let mask := s.peek (rcb + 0x2E) 2
  if mask / 1024 ≠ 0 ∨ s.peek (rcb + 0x3E) 2 ≠ 0 ∨ s.peek (rcb + 0x54) 4 ≠ 0 ∨
      (s.bytes (rcb + 0x60) 160).any (· != 0) = true then .error cIllegal
  else if c.count = 0 ∨ c.maxCtx < c.count ∨ (needsCluster c.firstSlot c.slots = true ∧ 16 < c.count) ∨
      (needsDie c.firstSlot c.slots = true ∧ 256 < c.count) then .error cIllegal
  else if (match p with | some q => !inBudget mask c q | none => false) || !rangesOk c then .error cProt
  else if c.saveArea.toNat % 256 ≠ 0 then .error cAlign
  else
    let n := c.maxCtx * 0xE000
    s.saveAreaOk c (n / 65536 + 2) c.saveArea n

/-- RCB_CHECK: an accepted RCB becomes READY or FAULTED (R39). -/
def execRcbCheck (addr : BitVec 48) (s : State) : Out :=
  let rcb := addr.toNat
  match s.regionAt rcb with
  | none => .next s
  | some r =>
    if r.state ≠ .accepted then .next s
    else
      let p := r.parent.bind s.regionAt
      let c := s.rcbFields rcb r p
      match s.rcbChecks rcb c p with
      | .error cause => .next (s.failCheck rcb c.domain cause)
      | .ok _ =>
        let s1 := s.modRegion rcb fun _ =>
          { c with state := .ready, ctxs := List.replicate c.count .fresh, readyAt := s.clock }
        .next (s1.storeBytes (rcb + 0x48) (leBytes 4 1))

/-! ### Fit (R41, R42, R205, R336) -/

/-- The place of one context: its index, its control core and the offset of its allotment. -/
structure Seat where
  index : Nat
  cc    : BitVec 10
  off   : Nat

/-- The allotment of a context in bytes: whole 64 KiB. -/
def Region.allot (r : Region) : Nat := (r.spadKib + 63) / 64 * 65536

/-- The lowest offset of a scratchpad, in 64 KiB steps, at which an allotment meets none of those in use: which of them an
allotment gets is the scheduler's choice (R205; DESIGN CHOICE, log 34). -/
def spadGap (used : List (Nat × Nat)) (size : Nat) : Option Nat :=
  ((List.range 25).map (65536 * ·)).find? fun off =>
    decide (off + size ≤ spadBytes) && used.all fun u => decide (off + size ≤ u.1 ∨ u.1 + u.2 ≤ off)

/-- The contexts resident on a core, those of some regions left out. -/
def State.residentsOf (s : State) (core : Nat) (without : List Nat) : List ControlCore :=
  s.allCcs.filter fun c => coreOf c.ctxid == core && c.run != .absent &&
    match c.region with | some r => !without.contains r | none => true

/-- Seats contexts on control cores in order. -/
def State.seat (s : State) (r : Region) (without : List Nat) : List (BitVec 10) → List Nat → List Seat → Option (List Seat)
  | _, [], acc => some acc.reverse
  | [], _ :: _, _ => none
  | id :: ids, i :: is, acc =>
    let core := coreOf id
    let res := s.residentsOf core without
    let taken := res.any fun c => c.ctxid == id
    let shapeOk := res.isEmpty || (s.coreAt core).shape.toNat == r.laneShape
    let used := (res.map fun c => (c.spadOff, c.spadLen)) ++
      (acc.filter fun p => coreOf p.cc == core).map fun p => (p.off, r.allot)
    if taken || !shapeOk then State.seat s r without ids (i :: is) acc
    else match spadGap used r.allot with
      | some off => State.seat s r without ids is (⟨i, id, off⟩ :: acc)
      | none => State.seat s r without ids (i :: is) acc

/-- A home's first control core: a cluster below 64, a die above. -/
def homeCore (home : Option Nat) : BitVec 10 :=
  match home with
  | none => 0
  | some h => if h < 64 then BitVec.ofNat 10 (16 * h) else BitVec.ofNat 10 (256 * (h - 64))

/-- Whether a control core belongs to a home. -/
def inHome (home : Option Nat) (id : BitVec 10) : Bool :=
  match home with
  | none => true
  | some h => if h < 64 then clusterOf id == h else dieOf id == h - 64

/-- The physical slots of a region in a home. -/
def Region.physSlots (r : Region) (home : Option Nat) : List Nat :=
  (List.range r.slots).map fun n => physSlot (homeCore home) (r.firstSlot + n)

/-- The homes that a region may take, from a control core on. -/
def Region.homes (r : Region) (first : BitVec 10) : List (Option Nat) :=
  match r.home with
  | some h => [some h]
  | none =>
    if needsCluster r.firstSlot r.slots then (List.range 64).map fun k => some ((clusterOf first + k) % 64)
    else if needsDie r.firstSlot r.slots then (List.range 4).map fun k => some (64 + (dieOf first + k) % 4)
    else [none]

/-- The indices of a region's contexts that have not exited. -/
def Region.unplaced (r : Region) : List Nat :=
  (List.range r.ctxs.length).filter fun i => match r.ctxs[i]? with | some .exited => false | none => false | _ => true

/-- A home and seats for a whole region, if it fits, with some regions left out of account. -/
def State.plan (s : State) (rcb : Nat) (r : Region) (first : BitVec 10) (without : List Nat) :
    Option (Option Nat × List Seat) :=
  (r.homes first).findSome? fun h =>
    let free := (r.physSlots h).all fun p => match (s.slotAt p).bound with | some b => b == rcb | none => true
    if free then
      let ids := ((List.range 1024).map fun k => first + BitVec.ofNat 10 k).filter (inHome h)
      (s.seat r without ids r.unplaced []).map fun seats => (h, seats)
    else none

/-! ### Placement (R43, R44, R371, R336) -/

/-- The state in which a context starts (R44, R371). TSTATUS.PPRIV, of which no rule gives a value here, stands as the control
core left it (log 34). -/
def ControlCore.start (c : ControlCore) (rcb : Nat) (r : Region) (p : Seat) : ControlCore :=
  let x : Vector Word 32 := Vector.replicate 32 0
  { c with
    run := .running, level := if r.service then .service else .user, pc := r.entry
    x := (((x.set 3 r.va).set 4 r.launch).set 5 (BitVec.ofNat 64 p.index)).set 6 (BitVec.ofNat 64 r.count)
    shadow := Vector.replicate 4 0, v := Vector.replicate 48 {}, m := Vector.replicate 12 0, t := Vector.replicate 8 {}
    vl := 0, vstart := 0, vstr := 0, vmsel := 15, mfmt := 0, fcsr := 0, ttol := 0, issued := 0, done := 0, tstep := 0
    uivec := 0, uiepc := 0, uicause := 0, uistatus := 0, retired := 0, out := {}
    tvec := r.tvec, tstatus := (c.tstatus &&& 3) ||| 0x20, vdirty := BitVec.allOnes 48, vowner := 0
    ptbase := r.ptbase, asid := r.asid, maxvl := r.maxvl, preempt := r.preempt, rcbptr := r.va, tscratch := 0
    depth := 0, serial := 0, ring := none, request := none, claim := none, parts := []
    region := some rcb, index := p.index, spadOff := p.off, spadLen := r.allot, reached := false, armed := false
    macroOp := none, loads := 0, stores := [], credit := 0, starved := 0, qcredit := 0
    inStrip := false, loopDepth := 0, miss := none, held := [], entering := false, fencing := false, vfence := false
    leaving := false, halting := false, cut := none }

/-- Seats one context in its starting state, with its core's shape and weight and a zeroed allotment. -/
def State.seatFresh (rcb : Nat) (r : Region) (s : State) (p : Seat) : State :=
  let core := coreOf p.cc
  let lane := if r.laneShare = 0 then 1 else r.laneShare
  let lo := 8 * (p.cc.toNat % 4)
  let weight (h : BitVec 32) : BitVec 32 := (h &&& ~~~(0xFF#32 <<< lo)) ||| (BitVec.ofNat 32 lane <<< lo)
  let s1 := if (s.residentsOf core []).isEmpty then s.modCore core fun c => { c with shape := BitVec.ofNat 2 r.laneShape }
    else s
  let s2 := (s1.modCore core fun c => { c with heddle := weight c.heddle }).modCcAt p.cc fun c => c.start rcb r p
  (s2.zeroBytes (spadAddr core p.off) r.allot).markCtx rcb p.index (.resident p.cc)

/-! ### Restore (R372, R373) -/

/-- The slots of the CSA that step 2 of R372 loads, with their register numbers. -/
def csaSlots : List (Nat × BitVec 12) :=
  [(0x108, 0x104), (0x110, 0x000), (0x118, 0x001), (0x120, 0x002), (0x128, 0x003), (0x130, 0x004), (0x138, 0x005),
   (0x140, 0x006), (0x168, 0x00A), (0x170, 0x00C), (0x1A0, 0x009), (0x1B0, 0x10D)]

/-- Step 1 of R372 on the first 0x200 bytes of a CSA: the kind, the restored tags, and the register slots. Without a hook a
PPRIV of 2 would raise a context to service level, which R18 gives to service regions alone: it fails (log 35). -/
def csaOk (h : List Byte) (service : Bool) : Bool :=
  let kind := fieldOf h 0x160 8
  let tags := (h.drop 0x1C0).take 48
  let w := fieldOf h 0x178 8
  (kind == 1 || kind == 2) && ((if kind == 1 then tags.drop 40 else tags).all fun t => decide (t.toNat < 0x14)) &&
  csaSlots.all (fun p => csrValueOk p.2 (BitVec.ofNat 64 (fieldOf h p.1 8))) &&
  w / 2 ^ 18 % 64 == 0 && w / 2 ^ 25 % 128 == 0 && w / 2 ^ 48 == 0 && fieldOf h 0x1B8 8 / 2 ^ 24 == 0 &&
  (service || fieldOf h 0x1A8 8 != 0 || fieldOf h 0x108 8 % 4 != 2)

/-- Steps 2 and 5 of R372, and R373: the scalar state. -/
def ControlCore.restoreScalar (c : ControlCore) (h : List Byte) (service : Bool) : ControlCore :=
  let w (off : Nat) : Word := BitVec.ofNat 64 (fieldOf h off 8)
  let ui := fieldOf h 0x178 8
  let hook := w 0x1A8
  let c1 := { c with
    x := Vector.ofFn fun n => if n.val = 0 then 0 else if n.val = 3 then c.x[3] else w (8 * n.val)
    tstatus := (w 0x108).setWidth 8, vl := (w 0x110).setWidth 11, vstart := (w 0x118).setWidth 10, vstr := w 0x120
    vmsel := (w 0x128).setWidth 4, mfmt := (w 0x130).setWidth 13, fcsr := (w 0x138).setWidth 14
    ttol := (w 0x140).setWidth 40, issued := (w 0x148).extractLsb' 32 32, done := (w 0x148).extractLsb' 0 32
    uivec := w 0x168, uiepc := w 0x170, uicause := BitVec.ofNat 16 ui, uistatus := BitVec.ofNat 2 (ui / 2 ^ 16)
    ring := if ui / 2 ^ 24 % 2 = 1 then some (BitVec.ofNat 16 (ui / 2 ^ 32)) else none
    shadow := #v[w 0x180, w 0x188, w 0x190, w 0x198], tstep := (w 0x1A0).setWidth 32
    tscratch := w 0x1B0, serial := (w 0x1B8).setWidth 24
    inStrip := (w 0x148).extractLsb' 32 32 != (w 0x148).extractLsb' 0 32 }
  if hook = 0 then { c1 with level := Level.ofCode c1.ppriv, pc := w 0x100, depth := 0 }
  else
    { c1 with level := if service then .service else .supervisor, pc := hook, depth := 1, tepc := w 0x100
              tcause := if fieldOf h 0x160 8 = 1 then cSoft else cHard, tval := 0 }

/-- Step 3 of R372: the vector and mask registers from a first number on. -/
def ControlCore.restoreVector (c : ControlCore) (v0 m0 : Nat) (tags vs ms : List Byte) : ControlCore :=
  { c with
    v := Vector.ofFn fun n =>
      if n.val < v0 then {}
      else
        let b := (vs.drop (1152 * (n.val - v0))).take 1152
        { data := BitVec.ofNat 8192 (leNat (b.take 1024)), side := BitVec.ofNat 1024 (leNat (b.drop 1024))
          tag := ((tags[n.val]?).getD 0).setWidth 5 }
    m := Vector.ofFn fun n =>
      if n.val < m0 then 0 else BitVec.ofNat 1024 (leNat ((ms.drop (128 * (n.val - m0))).take 128)) }

/-- The restore of a saved context that has been seated: the new state, or the cause that makes its region FAULTED. -/
def State.restore (s : State) (r : Region) (index : Nat) (id : BitVec 10) (claim : Option Claim)
    (parts : Table (Option (BitVec 16))) : Except Stop State := do
  let at_ := r.csa index
  let get (u : State) (off n : Nat) : Except Stop (State × List Byte) :=
    State.schedRead r.ptbase r.asid 3 u (at_ + BitVec.ofNat 64 off) n
  let (s1, h) ← get s 0 0x200
  trapIf (!csaOk h r.service) s1 cIllegal at_
  let soft := fieldOf h 0x160 8 == 1
  let v0 := if soft then 40 else 0
  let m0 := if soft then 8 else 0
  let (s2, ms) ← get s1 (0x200 + 128 * m0) (128 * (12 - m0))
  let (s3, vs) ← get s2 (0x800 + 1152 * v0) (1152 * (48 - v0))
  let (s4, kind) ← s3.schedTranslate r.ptbase r.asid true (at_ + 0x160)
  let s5 := s4.modCcAt id fun c =>
    { (c.restoreScalar h r.service).restoreVector v0 m0 ((h.drop 0x1C0).take 48) vs ms with claim := claim, parts := parts }
  return s5.storeIn kind.ce kind.pa (leBytes 8 0)

/-- Restores a seated context that had been saved, unless its region has ended in the meantime. -/
def State.restoreSeat (rcb : Nat) (r : Region) (s : State) (p : Seat) : State :=
  match s.regionAt rcb, r.ctxs[p.index]? with
  | some q, some (.saved claim parts) =>
    if q.state.ended then s
    else match s.restore r p.index p.cc claim parts with
      | .ok s1 => s1
      | .error (.trap s1 t) => s1.faultRegion rcb p.index t.cause
      | .error (.wait s1) => s1
  | _, _ => s

/-- Binds a slot to a region at its first placement (R336). -/
def State.bindSlot (rcb count : Nat) (s : State) (p : Nat) : State :=
  if (s.slotAt p).bound = some rcb then s
  else s.modSlot p fun _ => { expected := BitVec.ofNat 16 count, bound := some rcb }

/-- Ends a context whose termination waited for its placement (R329). -/
def State.endPending (rcb : Nat) (s : State) (i : Nat) : State :=
  match (s.regionAt rcb).bind fun r => r.ctxs[i]? with
  | some (.resident id) => s.endContext id
  | _ => s

/-- Places a region whole. The YIELD and SPAWN before it are acquired (R346), which this model gives every read. -/
def State.place1 (s : State) (rcb : Nat) (r : Region) (home : Option Nat) (seats : List Seat) : State :=
  let s1 := (r.physSlots home).foldl (State.bindSlot rcb r.count) s
  let s2 := s1.modRegion rcb fun q => { q with state := .running, placed := true, home := home, evicting := false, pendTerm := [] }
  let s3 := (seats.foldl (State.seatFresh rcb r) s2).storeBytes (rcb + 0x48) (leBytes 4 2)
  let s4 := seats.foldl (State.restoreSeat rcb r) s3
  (r.pendTerm.foldl (State.endPending rcb) s4).checkRetire rcb

/-! ### Pre-emption (R48) -/

/-- Posts a pre-emption request to a context. One that waits takes it at once; to one that executes EXIT it is dropped
(R150). -/
def State.postRequest (s : State) (id : BitVec 10) : State :=
  let c := s.ccAt id
  if c.request.isSome || c.leaving then s
  else if c.run.isWait && !c.handling then s.onCc id fun s => s.preempt cHard
  else s.modCcAt id fun c => { c with request := some c.preempt }

/-- Posts a request to every resident context of a region. -/
def State.evict (s : State) (rcb : Nat) : State :=
  match s.regionAt rcb with
  | some r =>
    if r.state = .running ∧ r.residents ≠ [] then
      r.residents.foldl State.postRequest (s.modRegion rcb fun q => { q with evicting := true })
    else s
  | none => s

/-- The READY regions that stand before another: a higher priority, or the same and READY earlier (R42). -/
def State.before (s : State) (rcb : Nat) (r : Region) (sameOnly : Bool) : Bool :=
  s.regions.any fun p => p.1 != rcb && p.2.state == .ready &&
    ((!sameOnly && decide (r.priority < p.2.priority)) ||
     (p.2.priority == r.priority && decide (p.2.readyAt < r.readyAt ∨ (p.2.readyAt = r.readyAt ∧ p.1 < rcb))))

/-- The RUNNING regions of strictly lower priority, and those among them that hold a control core or slot of a plan. -/
def State.lower (s : State) (r : Region) : List Nat :=
  (s.regions.filter fun p => p.2.state == .running && decide (p.2.priority < r.priority)).map (·.1)

/-- Whether a region has a context on a core of the seats. -/
def State.inTheWay (s : State) (seats : List Seat) (rcb : Nat) : Bool :=
  seats.any fun p => (s.residentsOf (coreOf p.cc) []).any fun c => c.region == some rcb

/-- What stands in the way of a READY region that does not fit: the RUNNING regions of strictly lower priority on the cores
of a plan without them, those already being evicted left out. -/
def State.toEvict (s : State) (rcb : Nat) (r : Region) (first : BitVec 10) : List Nat :=
  if s.before rcb r false then []
  else match s.plan rcb r first (s.lower r) with
    | some (_, seats) => (s.lower r).filter fun q =>
        s.inTheWay seats q && match s.regionAt q with | some x => !x.evicting | none => false
    | none => []

/-- REGION_PLACEMENT: a region that is SAVED becomes READY again; the head of its priority is placed when it fits; the
head of the highest priority evicts what stands in its way at strictly lower priority (R42, R48). -/
def execRegionPlacement (addr : BitVec 48) (first : BitVec 10) (s : State) : Out :=
  let rcb := addr.toNat
  match s.regionAt rcb with
  | none => .next s
  | some r =>
    match r.state with
    | .saved =>
      .next ((s.modRegion rcb fun q => { q with state := .ready, readyAt := s.clock }).storeBytes (rcb + 0x48) (leBytes 4 1))
    | .ready =>
      if s.before rcb r true then .next s
      else match s.plan rcb r first [] with
        | some (home, seats) => .next (s.place1 rcb r home seats)
        | none => .next ((s.toEvict rcb r first).foldl State.evict s)
    | _ => .next s

/-- REGION_RETIRE (R45). Its release is made through the cache of die 0 (DESIGN CHOICE, log 9). -/
def execRegionRetire (addr : BitVec 48) (s : State) : Out :=
  let rcb := addr.toNat
  if s.canRetire rcb then .next ((s.releaseDie 0).finishRegion rcb .done) else .next s

/-! ### The region scheduler's commands (R329, R330) -/

/-- A command is accepted or refused: STATUS is set, BUSY clears and MSI-X vector 1 is raised (R385). -/
def State.rsDone (s : State) (status : BitVec 16) : State :=
  ({ s with rs := { s.rs with busy := false, status := status } }).raiseMsix 1

/-- The status that refuses a command about a live region, and the region otherwise. -/
def State.rsLive (s : State) (rcb : Nat) : Except (BitVec 16) Region :=
  match s.regionAt rcb with
  | none => .error 1
  | some r => if r.state.ended then .error 1 else if r.terminating then .error 3 else .ok r

/-- RS_TERMINATE_REGION. -/
def execRsTerminateRegion (addr : BitVec 48) (s : State) : Out :=
  let rcb := addr.toNat
  match s.rsLive rcb with
  | .error e => .next (s.rsDone e)
  | .ok r =>
    let s1 := s.rsDone 0
    if r.state = .running then .next ((s1.modRegion rcb fun q => { q with terminating := true }).later (.terminationEnd addr))
    else .next ((s1.endChildren rcb).finishRegion rcb .terminated)

/-- Ends one context of a RUNNING region, resident or saved, as by termination. -/
def State.terminateOne (s : State) (rcb i : Nat) (c : CtxStatus) : State :=
  match c with
  | .resident id => s.endContext id
  | .saved claim parts => ((s.returnRecords (rcb, i) claim).withdrawAll parts).markCtx rcb i .exited
  | _ => s

/-- The context count of a live region; that of one not yet checked is in its RCB. -/
def State.regionCount (s : State) (rcb : Nat) (r : Region) : Nat :=
  if r.state = .accepted then s.peek (rcb + 0x28) 4 else r.count

/-- RS_TERMINATE_CONTEXT. -/
def execRsTerminateContext (addr : BitVec 48) (ctx : BitVec 16) (s : State) : Out :=
  let rcb := addr.toNat
  match s.rsLive rcb with
  | .error e => .next (s.rsDone e)
  | .ok r =>
    let i := ctx.toNat
    if s.regionCount rcb r ≤ i then .next (s.rsDone 2)
    else
      let s1 := s.rsDone 0
      if r.state = .running then
        .next (((s1.terminateOne rcb i ((r.ctxs[i]?).getD .exited)).checkSaved rcb).checkRetire rcb)
      else .next (s1.modRegion rcb fun q => { q with pendTerm := q.pendTerm ++ [i] })

/-- RS_EVICT. -/
def execRsEvict (addr : BitVec 48) (s : State) : Out :=
  match s.rsLive addr.toNat with
  | .error e => .next (s.rsDone e)
  | .ok _ => .next ((s.rsDone 0).evict addr.toNat)

/-- TERMINATION_END: the live children of a region end, deepest first, then its contexts, then the region. -/
def execTerminationEnd (addr : BitVec 48) (s : State) : Out :=
  let rcb := addr.toNat
  match s.regionAt rcb with
  | some r =>
    if r.terminating ∧ r.state = .running then .next (((s.endChildren rcb).endContexts rcb).finishRegion rcb .terminated)
    else .next s
  | none => .next s

/-- Whether the instruction of a control core has sent a read of a device-class page to a peer: it retires and is never
unwound (R207, R361). -/
def State.readsDevice (s : State) (id : BitVec 10) : Bool := s.peerReads.any fun r => r.cc == id && r.token == 0 && r.ic

/-- Whether a hard pre-emption takes place at a control core: the deadline has counted down to zero (R48), and the
instruction there can be unwound. -/
def State.hardNow (s : State) (id : BitVec 10) : Bool :=
  let c := s.ccAt id
  c.request == some 0 && !c.handling && (c.run == .running || c.run.isWait) && !s.readsDevice id

/-- HARD_PREEMPTION. -/
def execHardPreemption (cc : BitVec 10) (s : State) : Out :=
  if s.hardNow cc then .next (s.onCc cc fun s => s.preempt cHard) else .next s

/-- LANE_SHAPE_CHANGE (R37). -/
def execLaneShapeChange (core : BitVec 8) (s : State) : Out := .next (s.applyShape core.toNat)

/-! ### The heddle arbiter (R57, R58) -/

/-- The control core that a grant goes to: the one that has starved longest, else the one with the most credit among
those that cover their cost; the lower number of equals. -/
def chooseGrant (cs : List (Nat × ControlCore × Nat)) : Option Nat :=
  match mostOf ((cs.filter fun p => decide (128 ≤ p.2.1.starved)).map fun p => (p.1, p.2.1.starved)) with
  | some n => some n
  | none => mostOf ((cs.filter fun p => decide (p.2.2 ≤ p.2.1.credit)).map fun p => (p.1, p.2.1.credit))

/-- The weight of a control core of a core (R57). -/
def State.heddleWeight (s : State) (core k : Nat) : Nat := max 1 ((s.coreAt core).heddle.extractLsb' (8 * k) 8).toNat

/-- One idle lane group is granted to one of the contexts that are ready, after the credit rounds that this takes. -/
def State.grantOne (s : State) (core : Nat) (costs : BitVec 32) (ks : List Nat) : Option (Nat × State) :=
  let id (k : Nat) : BitVec 10 := BitVec.ofNat 10 (4 * core + k)
  let cost (k : Nat) : Nat := (costs.extractLsb' (8 * k) 8).toNat
  let n := creditRounds (ks.map fun k => ((s.ccAt (id k)).credit, cost k, s.heddleWeight core k))
  let s1 := ks.foldl (fun u k => u.modCcAt (id k) fun c => { c with credit := c.credit + n * s.heddleWeight core k }) s
  (chooseGrant (ks.map fun k => (k, s1.ccAt (id k), cost k))).map fun k =>
    (k, s1.modCcAt (id k) fun c => { c with credit := c.credit - cost k, starved := 0 })

/-- The idle lane groups of a core are granted one after another. A context takes part again after a grant where it may hold
several lane groups (R47, R57). -/
def State.grantAll (core : Nat) (spread : BitVec 4) (costs : BitVec 32) : Nat → List Nat → State → State
  | 0, _, s => s
  | n + 1, ks, s =>
    match s.grantOne core costs ks with
    | none => s
    | some (k, s1) => State.grantAll core spread costs n (if spread.getLsbD k then ks else ks.filter (· != k)) s1

/-- HEDDLE_GRANT: one arithmetic cycle, two core cycles, of a core: its idle lane groups, the contexts whose queue heads are
ready, those of them that may hold several groups, and the element groups that each would take. Grants move no architectural
state but the arbiter's own (R36, R43, R58). -/
def execHeddleGrant (core : BitVec 8) (heads : Heads) (costs : BitVec 32) (s : State) : Out :=
  let s1 := (List.range 4).foldl (fun u k => u.modCcAt (BitVec.ofNat 10 (4 * core.toNat + k)) fun c =>
    { c with starved := if heads.ready.getLsbD k then c.starved + 2 else 0 }) s
  .next (State.grantAll core.toNat heads.spread costs heads.idle.toNat ((List.range 4).filter fun k => heads.ready.getLsbD k) s1)

/-! ### Waits (R59, R148, R233, R302) -/

/-- A wait that ends: the instruction retires and the context runs on. -/
def State.endWait (s : State) (id : BitVec 10) : State :=
  s.onCc id fun s => (s.modCc fun c => { c with run := .running }).retire

/-- WAIT_RETURN. -/
def execWaitReturn (cc : BitVec 10) (s : State) : Out :=
  match (s.ccAt cc).run with
  | .waitCounts l st c t q => if (s.ccAt cc).out.meets l st c t q then .next (s.endWait cc) else .next s
  | _ => .next s

/-- BARWAIT_RETURN. -/
def execBarwaitReturn (cc : BitVec 10) (s : State) : Out :=
  match (s.ccAt cc).run with
  | .waitBar slot p => if (s.slotAt slot).phase ≠ p then .next (s.endWait cc) else .next s
  | _ => .next s

/-- IDLE_TIMEOUT. -/
def execIdleTimeout (cc : BitVec 10) (s : State) : Out :=
  match (s.ccAt cc).run with
  | .waitIdle (some 0) => .next (s.endWait cc)
  | _ => .next s

/-- BARRIER_STALL: the watchdog of a slot has counted down; the event names the slot's index in its region and its phase
(R60, R337, R339). -/
def execBarrierStall (slot : BitVec 12) (s : State) : Out :=
  let t := s.slotAt slot.toNat
  match t.watchdog, t.bound with
  | some 0, some rcb =>
    match s.regionAt rcb with
    | some r =>
      let s1 := s.modSlot slot.toNat fun t => { t with watchdog := none }
      let index := (r.physSlots r.home).findIdx (· == slot.toNat)
      .next (s1.faultEvent r.domain 0x15 index rcb (t.phase.setWidth 32))
    | none => .next s
  | _, _ => .next s

/-! ### User interrupts (R323) -/

/-- Whether a pending ring may be delivered: between two instructions, so neither within a macro-operation nor within an
EXIT. -/
def ControlCore.deliverable (c : ControlCore) : Bool :=
  c.ring.isSome && c.uie && !c.inui && !c.handling && c.macroOp.isNone && !c.leaving && (match c.run with | .running => true | .waitIdle _ => true | _ => false)

/-- The delivery of a ring; from IDLE, which retires. -/
def State.deliver (s : State) : State :=
  let s1 := match s.cc.run with
    | .waitIdle _ => (s.modCc fun c => { c with run := .running }).retire
    | _ => s
  s1.modCc fun c =>
    { c.swapShadows with uiepc := c.pc, uicause := c.ring.getD 0, uistatus := 2, ring := none, miss := none, pc := c.uivec }

/-- Whether a load of a control core has sent a read to a peer: it is within an instruction. -/
def State.midLoad (s : State) (id : BitVec 10) : Bool := s.peerReads.any fun r => r.cc == id && r.token == 0

/-- UI_DELIVERY. -/
def execUiDelivery (cc : BitVec 10) (s : State) : Out :=
  if (s.ccAt cc).deliverable && !s.midLoad cc then .next (s.onCc cc State.deliver) else .next s

end Sys2Proof.Machine
end

