-- ==== Sys2Proof/Machine/Complete.lean ====
section
/-! DEFINITION. What completes behind the core: loads and stores (11_access.md R220), walks of the cluster's table
(10_memories.md R212), and the writes of other dies (16_tables.md R334, 17_ordering.md R354). -/

namespace Sys2Proof.Machine

/-- LOAD_COMPLETE: the oldest load counted in L completes. -/
def execLoadComplete (cc : BitVec 10) (s : State) : Out :=
  if (s.ccAt cc).loads = 0 then .next s
  else .next (s.modCcAt cc fun c => { c.decOut .l with loads := c.loads - 1 })

/-- Takes the first store of a list that meets a condition. -/
def takeStore (p : PStore → Bool) : List PStore → Option (PStore × List PStore)
  | [] => none
  | w :: r => if p w then some (w, r) else (takeStore p r).map fun q => (q.1, w :: q.2)

/-- Whether an atomic engine of any cluster has still to serve a request of a control core (R222, R229). -/
def State.addsLeft (s : State) (id : BitVec 10) : Bool := s.clusters.any fun p => p.2.requests.any fun r => r.cc == id

/-- Whether nothing stands between a store and its being performed: no peer's acknowledgement and no atomic engine. -/
def State.storeReady (s : State) (id : BitVec 10) (w : PStore) : Bool := w.peers.isEmpty && !(w.adds && s.addsLeft id)

/-- STORE_PERFORMED: the oldest store that waits for no peer is performed; one whose adds the engine has not yet served all
is due again. -/
def execStorePerformed (cc : BitVec 10) (s : State) : Out :=
  match takeStore (s.storeReady cc) (s.ccAt cc).stores with
  | some (w, r) =>
    .next (s.modCcAt cc fun c => { (if w.counted then c.decOut .s else c) with stores := r })
  | none => .next (if (s.ccAt cc).stores.any fun w => w.peers.isEmpty then s.later (.storePerformed cc) else s)

/-! ### The walk table (R212) -/

/-- The most walks that a cluster's table holds. -/
def walkSlots : Nat := 64

/-- Whether a control core's TLBs hold a translation. -/
def State.tlbHas (s : State) (c : ControlCore) (va : Word) : Bool :=
  (c.tlb.any fun t => t.matches c.asid va) || ((s.coreAt (coreOf c.ctxid)).l2.any fun t => t.matches c.asid va)

/-- Whether a miss finds a pending walk of its key. -/
def Cluster.joins (k : Cluster) (c : ControlCore) (va : Word) : Bool :=
  k.walks.any fun w => w.asid == c.asid && w.key == va.extractLsb' 16 48

/-- A miss joins the walk of its key, starts one, or waits for a slot. -/
def Cluster.miss (k : Cluster) (c : ControlCore) (va : Word) : Cluster :=
  let key : BitVec 48 := va.extractLsb' 16 48
  if k.joins c va then
    { k with walks := k.walks.map fun w =>
        if w.asid == c.asid && w.key == key && !w.ccs.contains c.ctxid then { w with ccs := w.ccs ++ [c.ctxid] } else w }
  else if k.walks.length < walkSlots then { k with walks := k.walks ++ [⟨c.asid, key, c.ptbase, [c.ctxid]⟩] }
  else { k with waiting := k.waiting ++ [(c.ctxid, va)] }

/-- A miss of a control core in its cluster's walk table; one that joins a walk is counted (R340). -/
def State.missWalk (s : State) (id : BitVec 10) (va : Word) : State :=
  let k := s.clusterAt (clusterOf id)
  let s1 := s.modCluster (clusterOf id) fun k => k.miss (s.ccAt id) va
  if k.joins (s.ccAt id) va then s1.count (coreOf id) 6 1 else s1

/-- How a walk ends for those that joined it: with a leaf, or with the cause of its trap; with none of them where the TLBs hold
the page meanwhile. -/
structure WalkResult where
  asid  : BitVec 16
  key   : BitVec 48
  leaf  : Option TlbEntry := none
  cause : Option (BitVec 8) := none

/-- Whether a miss is that of a walk. -/
def Miss.joined (m : Miss) (w : WalkResult) : Bool := m.asid == w.asid && m.key == w.key

/-- A miss after the walk of its page: it waits no more for one that has ended well, and meets the trap of one that has not. -/
def Miss.after (m : Miss) (w : WalkResult) : Option Miss := if w.cause.isNone then none else some { m with cause := w.cause }

/-- The instruction of a control core receives a walk's result, if it waits for it. -/
def ControlCore.walked (c : ControlCore) (w : WalkResult) : ControlCore :=
  match c.miss with
  | some m => if m.joined w then { c with miss := m.after w, held := w.leaf.toList ++ c.held } else c
  | none => c

/-- The same for the engine of a card. -/
def Job.walked (j : Job) (w : WalkResult) : Job :=
  match j.miss with
  | some m => if m.joined w then { j with miss := m.after w, held := w.leaf.toList ++ j.held } else j
  | none => j

/-- A walk's result at a control core: its instruction and the cards of its context that wait for the walk go on. -/
def State.walked (s : State) (w : WalkResult) (id : BitVec 10) : State :=
  let mine := s.jobs.filter fun j => j.cc == id && j.miss.any fun m => m.joined w
  mine.foldl (fun u j => u.later (.jobStart j.cc j.token))
    { s.modCcAt id fun c => c.walked w with jobs := s.jobs.map fun j => if j.cc == id then j.walked w else j }

/-- Whether a page is walked again that the TLBs held: no miss, and not counted as one (R209, R340). -/
def State.again (s : State) (id : BitVec 10) (key : BitVec 48) : Bool :=
  let hit (m : Option Miss) : Bool := m.any fun m => m.key == key && m.again
  hit (s.ccAt id).miss || s.jobs.any fun j => j.cc == id && hit j.miss

/-- PAGE_WALK: an L2 TLB miss, which is counted (R340), goes to the walk table. One whose page another walk has brought in
meanwhile is none. -/
def execPageWalk (cc : BitVec 10) (va : Word) (s : State) : Out :=
  let c := s.ccAt cc
  let key : BitVec 48 := va.extractLsb' 16 48
  if c.run = .absent then .next s
  else if s.tlbHas c va then .next (s.walked { asid := c.asid, key := key } cc)
  else if s.again cc key then .next (s.missWalk cc va)
  else .next ((s.missWalk cc va).count (coreOf cc) 5 1)

/-- Misses that wait start their walks in order while slots are free. -/
def State.startMisses (cl : Nat) : List (BitVec 10 × Word) → State → State
  | [], s => s
  | m :: r, s =>
    if (s.clusterAt cl).walks.length < walkSlots then
      State.startMisses cl r ((s.modCluster cl fun k => { k with waiting := r }).missWalk m.1 m.2)
    else s

/-- The misses of a cluster that wait start their walks while slots are free. -/
def State.startWaiting (s : State) (cl : Nat) : State := State.startMisses cl (s.clusterAt cl).waiting s

/-- WALK_COMPLETE: the walk that began first ends, and every request that joined it receives its result: the walk cache and the L2
TLBs of their cores are filled, or each meets its trap, and nothing is installed (R211, R212). The A and D bits are left to
the accesses. -/
def execWalkComplete (cluster : BitVec 6) (s : State) : Out :=
  let cl := cluster.toNat
  match (s.clusterAt cl).walks with
  | [] => .next s
  | w :: rest =>
    let va : Word := w.key.setWidth 64 <<< 16
    let s1 := s.modCluster cl fun k => { k with walks := rest }
    let tell (r : WalkResult) (u : State) : State := w.ccs.foldl (State.walked · r) u
    match walk s (s.clusterAt cl).walkCache w.ptbase w.asid va with
    | .error c => .next ((tell { asid := w.asid, key := w.key, cause := some c } s1).startWaiting cl)
    | .ok e =>
      let t : TlbEntry := ⟨w.asid, pageBase va e.level, e.level, e.entry, e.at_⟩
      let s2 := if e.ptrs.isEmpty then s1 else s1.modCluster cl fun k => { k with walkCache := (e.ptrs ++ k.walkCache).take 512 }
      let s3 := ((w.ccs.map coreOf).eraseDups).foldl (fun s n => s.modCore n fun c => { c with l2 := tlbFill 2048 t c.l2 }) s2
      .next ((tell { asid := w.asid, key := w.key, leaf := some t } s3).startWaiting cl)

/-! ### Writes from other dies (R334, R354) -/

/-- DIE_WRITE_ARRIVAL: a stamped write is held until the vector clock admits it. -/
def execDieWriteArrival (die src : BitVec 2) (s0 s1 s2 s3 : BitVec 64) (s : State) : Out :=
  if die = src then .next s
  else
    .next ((s.modDie die.toNat fun d => { d with held := d.held ++ [⟨src, #v[s0, s1, s2, s3]⟩] }).later
      (.dieWriteDeliver die))

/-- Whether a clock admits a stamp from a die. -/
def admits (vc : Vector Word 4) (w : DieWrite) : Bool :=
  (List.range 4).all fun k => k == w.src.toNat || decide ((w.stamp.toList.getD k 0).toNat ≤ (vc.toList.getD k 0).toNat)

/-- The first held write that is admitted and has no earlier one of its die before it, with the others. -/
def takeAdmitted (vc : Vector Word 4) : List (BitVec 2) → List DieWrite → Option (DieWrite × List DieWrite)
  | _, [] => none
  | seen, w :: r =>
    if !seen.contains w.src && admits vc w then some (w, r)
    else (takeAdmitted vc (w.src :: seen) r).map fun p => (p.1, w :: p.2)

/-- The merge of a stamp. -/
def mergeClock (vc stamp : Vector Word 4) : Vector Word 4 :=
  Vector.ofFn fun k => if vc[k].toNat < stamp[k].toNat then stamp[k] else vc[k]

/-- DIE_WRITE_DELIVER: a held write becomes visible and the clock merges; another may be admitted by that. -/
def execDieWriteDeliver (die : BitVec 2) (s : State) : Out :=
  let d := s.dieAt die.toNat
  match takeAdmitted d.vc [] d.held with
  | none => .next s
  | some (w, r) =>
    let s1 := s.modDie die.toNat fun d => { d with vc := mergeClock d.vc w.stamp, held := r }
    .next (if r.isEmpty then s1 else s1.later (.dieWriteDeliver die))

end Sys2Proof.Machine
end

