-- ==== Sys2Proof/Machine/Stacks.lean ====
section
/-! DEFINITION. The stacks below the programs: trackers and refresh, region remapping, the divisor, the channels' modes and
the base-die mesh (14_stacks.md R276 to R293, 16_tables.md R331, 01_device.md R25). -/

namespace Sys2Proof.Machine

/-! ### Row disturbance and refresh (R281, R282) -/

/-- DRMT. -/
def drmt : Nat := 1024

/-- Rows of a bank: R278's for the banks of WM, numbered 32 * channel + bank below 4,096; those of CM banks have no number
in the manual and take every 16-bit row. -/
def rowsOf (bank : Nat) : Nat := if bank < 4096 then 49152 else 65536

/-- The update of a tracker by an activation of a row; the flag says that its count reached DRMT. -/
def trackRow (t : List (BitVec 16 × Nat)) (row : BitVec 16) : List (BitVec 16 × Nat) × Bool :=
  match t.find? fun e => e.1 == row with
  | some (_, n) =>
    let hit := n + 1 == drmt
    (t.map fun e => if e.1 == row then (row, if hit then 0 else n + 1) else e, hit)
  | none =>
    if t.length < 16 then (t ++ [(row, 1)], false)
    else ((t.map fun e => (e.1, e.2 - 1)).filter fun e => e.2 != 0, false)

/-- The neighbours of a row that exist. -/
def neighbours (bank : Nat) (row : BitVec 16) : List (BitVec 14 × Int) :=
  ([-2, -1, 1, 2].map fun (d : Int) => (row.toNat : Int) + d).filterMap fun (r : Int) =>
    if 0 ≤ r ∧ r < (rowsOf bank : Int) then some (BitVec.ofNat 14 bank, r) else none

/-- The bank and row of an activation: the row of a CM bank, or those that a WM media address selects (R278). -/
def bankPlace (bank : Option (BitVec 14)) (row : BitVec 48) : Nat × Nat :=
  let m := mediaPlace row.toNat
  match bank with
  | none => (32 * m.channel + m.bank, m.row)
  | some b => (b.toNat, row.toNat)

/-- ACTIVATION: of a row of a CM bank, or where no bank is named of the row of a WM media address. -/
def execActivation (bank : Option (BitVec 14)) (row : BitVec 48) (s : State) : Out :=
  let (b, r) := bankPlace bank row
  if rowsOf b ≤ r then .next s
  else
    let (t, hit) := trackRow (tget [] s.trackers b) (BitVec.ofNat 16 r)
    let s1 := { s with trackers := tput [] s.trackers b t }
    .next (if hit then { s1 with directed := neighbours b (BitVec.ofNat 16 r) } else s1)

/-- The window of 2 ms that runs (R281). -/
def State.window (s : State) : Nat := s.tick.toNat / 2000

/-- TRACKER_WINDOW_CLEAR: a window has begun. -/
def execTrackerWindowClear (s : State) : Out := .next { s with trackers := [], trackWindow := s.window }

/-- The CM channel of a bank, 32 * stack + channel: banks from 4,096 on are those of CM, 48 to a channel (DESIGN CHOICE, log 42);
none for a bank of WM. -/
def cmBankChannel (bank : Nat) : Option Nat := if bank < 4096 then none else some ((bank - 4096) / 48)

/-- A bank of a CM channel with a refresh that has been postponed: the refresh is a normal request of the channel that waits
(R288). -/
def State.refreshWaits (s : State) (ch : Nat) : Option Nat :=
  (s.postponed.find? fun p => cmBankChannel p.1 == some ch && p.2 != 0).map (·.1)

/-- REFRESH: a refresh falls due. While a burst holds the row it may be postponed, up to 8 times; then refresh wins and
makes up for those postponed. -/
def execRefresh (bank : BitVec 14) (burst : Bool) (s : State) : Out :=
  let n := tget 0 s.postponed bank.toNat
  .next { s with postponed := tput 0 s.postponed bank.toNat (if burst ∧ n < 8 then n + 1 else 0) }

/-! ### Remapping (R280, R331) -/

/-- Logical regions of WM. -/
def logicalRegions : Nat := 97664

/-- REMAP_MOVE: a move takes the lowest unused spare. One move runs at a time: a region lies in every WM stack (R278). -/
def execRemapMove (region : BitVec 17) (s : State) : Out :=
  let i := region.toNat
  if logicalRegions ≤ i ∨ s.remapFree = 0 ∨ (s.remap.any fun p => p.2.moving) = true then .next s
  else
    let spare : BitVec 17 := BitVec.ofNat 17 (logicalRegions + (256 - s.remapFree.toNat))
    let media := match lookupT s.remap i with | some r => r.media | none => region
    .next (({ s with remap := tins s.remap i ⟨true, spare, media⟩, remapFree := s.remapFree - 1 } : State).later
      (.remapMoveEnd region))

/-- Moves the compression codes of one media region to another. -/
def moveCodes (codes : Table (BitVec 4)) (src dst : Nat) : Table (BitVec 4) :=
  codes.foldl (fun t p => if p.1 / 16384 == src then tins (tdel t p.1) (dst * 16384 + p.1 % 16384) p.2 else t) codes

/-- The metadata caches give up their lines of a media region, the dirty ones written back (R285). -/
def State.flushMetas (s : State) (region : Nat) : State :=
  s.metas.foldl (fun (u : State) p =>
    let mine := p.2.filter fun l => l.line / metaBlocks == region
    { u with codes := mine.foldl (fun c l => l.writeBack p.1 c) u.codes
             metas := tput [] u.metas p.1 (p.2.filter fun l => l.line / metaBlocks != region) }) s

/-- REMAP_MOVE_END: MEDIA := DEST and MOVING := 0 in one step; blocks move as stored, with their codes. -/
def execRemapMoveEnd (region : BitVec 17) (s : State) : Out :=
  match lookupT s.remap region.toNat with
  | some r =>
    if r.moving then
      let s1 := (s.flushMetas r.media.toNat).flushMetas r.dest.toNat
      .next { s1 with remap := tins s.remap region.toNat ⟨false, 0, r.dest⟩
                      codes := moveCodes s1.codes r.media.toNat r.dest.toNat }
    else .next s
  | none => .next s

/-! ### The divisor and the channels' modes (R25, R288 to R291) -/

/-- DIVISOR_CHANGE: D - 1 takes a new value, for which the management core requests normal mode of the channels that run
compute traffic (R290). A job that runs keeps its time (R287). -/
def execDivisorChange (d : BitVec 2) (s : State) : Out :=
  .next (({ s with divisor := d } : State).wantNormal (s.chans.map (·.1)))

/-- COMPUTE_MODE_ENTRY: a sweep is queued and no normal request is pending, a postponed refresh among them. -/
def execComputeModeEntry (ch : BitVec 8) (s : State) : Out :=
  let c := s.chanAt ch.toNat
  if c.sweeps ≠ 0 ∧ c.normal = 0 ∧ c.mode = false ∧ (s.refreshWaits ch.toNat).isNone = true then
    .next (s.modChan ch.toNat fun c => { c with mode := true })
  else .next s

/-- A CM store is performed after the earlier ones of its control core. -/
def State.cmThrough (s : State) (w : CmStore) : State :=
  ((s.cmStores.filter fun k => k.cc == w.cc).takeWhile (· ≠ w) ++ [w]).foldl (fun u _ => u.cmStoreDone w.cc) s

/-- NLB_EXPIRY: the channel ends its unit and serves every queued normal request: the CM stores that are queued there, but
for those that a seal holds. A region operation's own transfers end with its event. -/
def execNlbExpiry (ch : BitVec 8) (s : State) : Out :=
  if (s.chanAt ch.toNat).mode then
    .next ((s.cmStores.filter fun w => w.chans.contains ch.toNat).foldl State.cmThrough s)
  else .next s

/-- NORMAL_MODE_REQUEST: MODE_PENDING is set and no new compute command issues. -/
def execNormalModeRequest (ch : BitVec 8) (s : State) : Out :=
  if (s.chanAt ch.toNat).mode then .next (s.modChan ch.toNat fun c => { c with pending := true }) else .next s

/-- NORMAL_MODE_DONE: MODE and MODE_PENDING clear; the normal requests that have queued can be served. -/
def execNormalModeDone (ch : BitVec 8) (s : State) : Out :=
  if (s.chanAt ch.toNat).pending then
    .next (s.modChan ch.toNat fun c => { c with mode := false, pending := false, wanted := false })
  else .next s

/-! ### The mesh (R292, R293) -/

/-- The stack at which a compute die attaches. -/
def attachStack (v : Variant) (die : Nat) : Nat :=
  match v, die with | .yl8c, 3 => 5 | _, d => 2 * d

/-- Whether a header holds no illegal or reserved field. -/
def meshOk (v : Variant) (h : BitVec 64) : Bool :=
  h.extractLsb' 26 6 == 0 && h.extractLsb' 24 2 != 3 && decide ((h.extractLsb' 16 3).toNat < v.cmstk) &&
  decide ((h.extractLsb' 8 3).toNat < v.cmstk) && decide ((h.extractLsb' 4 4).toNat ≤ 8) &&
  decide ((h.extractLsb' 0 4).toNat < 8)

/-- The next router toward a destination: the shorter way round the ring, ascending on a tie, then X, then Y. A router is
32 * stack + channel; channel c stands at x = c mod 4 and y = c / 4, and the ring joins routers of equal channel. -/
def meshNext (v : Variant) (router dst : Nat) : Nat :=
  let n := v.cmstk
  let (st, ch) := (router / 32, router % 32)
  let (dt, dc) := (dst / 32, dst % 32)
  let up := (dt + n - st) % n
  if up ≠ 0 then 32 * (if 2 * up ≤ n then (st + 1) % n else (st + n - 1) % n) + ch
  else if ch % 4 ≠ dc % 4 then 32 * st + (if ch % 4 < dc % 4 then ch + 1 else ch - 1)
  else if ch < dc then 32 * st + ch + 4
  else 32 * st + ch - 4

/-- The source and the destination router of a header. -/
def meshSource (h : BitVec 64) : Nat := 32 * (h.extractLsb' 16 3).toNat + (h.extractLsb' 19 5).toNat
def meshDest (h : BitVec 64) : Nat := 32 * (h.extractLsb' 8 3).toNat + (h.extractLsb' 11 5).toNat

/-- The query that a packet belongs to: the first in flight with its reply tag, of the die at whose stack the packet of a
request begins or that of a response ends. -/
def State.meshQuery (s : State) (h : BitVec 64) : Option Query :=
  let stack := (if h.extractLsb' 24 2 = 1 then meshDest h else meshSource h) / 32
  s.queries.find? fun q => q.tag.setWidth 16 == h.extractLsb' 48 16 && attachStack s.variant (dieOf q.cc) == stack

/-- A poisoned packet is consumed: the query that it belongs to will end with status 3, and the stripe of a move is sent
again (R293). -/
def State.meshPoison (s : State) (h : BitVec 64) : State :=
  match (h.extractLsb' 0 4).toNat with
  | 2 | 3 =>
    match lookupT s.cmOps (h.extractLsb' 48 16).toNat with
    | some o => (match o.kind with
      | .move _ => { s with cmOps := tins s.cmOps (h.extractLsb' 48 16).toNat { o with kind := .move true } }
      | _ => s)
    | none => s
  | 4 | 5 => s
  | _ => match s.meshQuery h with
    | some q => s.modQuery q.cc q.serial fun k => { k with status := 3 }
    | none => s

/-- MESH_PACKET: a router discards and counts a bad packet, keeps one that has arrived, and passes on any other. What a
whole packet carries is what the operation that sent it does (log 39); a poisoned one is counted where it arrives. -/
def execMeshPacket (router : BitVec 8) (packet : MeshPacket) (s : State) : Out :=
  let h := packet.header
  if meshOk s.variant h = false ∨ s.variant.cmstk ≤ router.toNat / 32 then .next (s.countError 4 1)
  else if router.toNat = meshDest h then .next (if packet.poisoned then (s.meshPoison h).countError 5 1 else s)
  else .next (s.later (.meshPacket (BitVec.ofNat 8 (meshNext s.variant router.toNat (meshDest h))) packet))

end Sys2Proof.Machine
end

