-- ==== Sys2Proof/Machine/TillerCore.lean ====
section
/-! DEFINITION. The tiller cores: jobs, the DMA, the reply port, the time limit, the memory map, traps and the firmware load
(14_stacks.md R294 to R299, 13_queries.md R265, 19_links.md R387). What RISC-V computes within a core's registers is given
with the event (log 42). -/

namespace Sys2Proof.Machine

/-! ### Jobs (R296) -/

/-- The mailbox of a job. -/
def mailbox (qd : List Byte) (r : CmRegion) (vq : VecReg) (k q0 : Nat) : List Host.Cell :=
  let m := Memory.writeAll [] 0x40 qd
  let m1 := Memory.writeAll m 0x80 r.bytes
  let m2 := Memory.writeAll m1 0xC0 ([vq.tag.setWidth 8, BitVec.ofNat 8 k, BitVec.ofNat 8 r.n, 0] ++ leBytes 4 0 ++ leBytes 4 q0)
  Memory.writeAll (Memory.writeAll m2 0x100 (leBytes 1024 vq.data.toNat)) 0x500 (leBytes 128 vq.side.toNat)

/-- The core cycles of 2^24 near-bank cycles: two for each at D = 1 (R287, R299). -/
def State.tillerLimit (s : State) : Nat := 2 ^ 24 * 2 * (s.divisor.toNat + 1)

/-- A job enters a free mailbox, if its query still stands. Its time is that of the present D, whatever D becomes. -/
def State.startTiller (s : State) (ch : Nat) (job : BitVec 10 × BitVec 24) : State :=
  match s.queryOf job.1 job.2 with
  | none => s
  | some q =>
    match q.custom with
    | some c =>
      match (c.r.channels q.handle).find? fun p => p.1 == ch with
      | some (_, k, q0) => s.modTiller ch fun t =>
          { t with mbox := mailbox c.qd c.r c.vq k q0, mbstat := true, job := some job, since := s.clock
                   limit := s.tillerLimit, moved := 0, err := 0, bad := false, pushed := [], overran := false }
      | none => s
    | none => s

/-- TILLER_JOB: a job arrives; it waits while another holds the mailbox. -/
def execTillerJob (ch : BitVec 8) (cc : BitVec 10) (serial : BitVec 24) (s : State) : Out :=
  if (s.tillerAt ch.toNat).job.isSome then .next (s.modTiller ch.toNat fun t => { t with queued := t.queued ++ [(cc, serial)] })
  else .next (s.startTiller ch.toNat (cc, serial))

/-! ### The end of a job (R265, R298) -/

/-- The status and reply of a QCUST whose tiller cores have all ended. -/
def Custom.result (c : Custom) : BitVec 16 × List Byte :=
  let bytes := c.chans.flatMap fun n => match c.ended.find? fun e => e.1 == n with | some e => e.2.1 | none => []
  let touched := 32 * (c.ended.map fun e => e.2.2.2).sum
  if c.ended.any fun e => e.2.2.1 != 0 then (3, [])
  else if c.overran ∨ replyBound touched < bytes.length then (1, [])
  else if c.area.length < bytes.length then (2, [])
  else (0, bytes)

/-- A tiller core of a query has ended; the last makes the query's completion due, and the CM stores that the query held back
go on (R268). One that the reply bound rejects is counted (R340). -/
def State.tillerEnded (s : State) (q : Query) (c : Custom) (ch : Nat) (frag : List Byte) (status : Byte) (moved : Nat)
    (overran : Bool) : State :=
  let c1 := { c with ended := c.ended ++ [(ch, frag, status, moved)], overran := c.overran || overran }
  if c1.ended.length < c1.chans.length then s.modQuery q.cc q.serial fun k => { k with custom := some c1 }
  else
    let (st, bytes) := c1.result
    let ended (k : Query) : Query :=
      { k with custom := none, status := if k.status = 0 then st else k.status, reply := c1.area.zip bytes }
    let s1 := (s.modQuery q.cc q.serial ended).cmAdmit
    if (ended q).status = 1 then s1.count (coreOf q.cc) 8 1 else s1

/-- A job ends: its fragment is recorded and the next job enters the mailbox. -/
def State.endTiller (s : State) (ch : Nat) (keep : Nat) (status : Byte) : State :=
  let t := s.tillerAt ch
  let s1 := match t.job with
    | none => s
    | some (cc, serial) =>
      match s.queryOf cc serial with
      | none => s
      | some q => match q.custom with
        | some c => s.tillerEnded q c ch (t.pushed.take keep) (if t.bad then 3 else status) t.moved.toNat t.overran
        | none => s
  let s2 := s1.modTiller ch fun t =>
    { t with mbstat := false, job := none, pushed := [], overran := false, bad := false, queued := t.queued.tail }
  match t.queued with
  | [] => s2
  | j :: _ => s2.startTiller ch j

/-- REPLYPUSH; bytes beyond 65,536 are dropped. -/
def execReplypush (ch : BitVec 8) (data : BitVec 64) (s : State) : Out :=
  if (s.tillerAt ch.toNat).job.isNone then .next s
  else .next (s.modTiller ch.toNat fun t =>
    if 65536 < t.pushed.length + 8 then { t with overran := true } else { t with pushed := t.pushed ++ leBytes 8 data.toNat })

/-- REPLYEND. -/
def execReplyend (ch : BitVec 8) (v : BitVec 64) (s : State) : Out :=
  if (s.tillerAt ch.toNat).job.isNone then .next s
  else .next (s.endTiller ch.toNat (v.extractLsb' 0 32).toNat (v.extractLsb' 32 8))

/-- TILLER_TIMEOUT: the channel ends an overdue job and resets its core, which restarts at 0x0. -/
def execTillerTimeout (ch : BitVec 8) (s : State) : Out :=
  let t := s.tillerAt ch.toNat
  if t.job.isNone ∨ s.clock < t.since + t.limit then .next s
  else
    let s1 := s.modTiller ch.toNat fun t => { t with busy := false, dmaRow := 0, dmaCtl := 0, err := 0, cpu := {} }
    .next ((s1.countError 7 1).endTiller ch.toNat 0 3)

/-! ### The DMA (R297) -/

/-- A write of DMACTL: GO starts a copy, which keeps DMAROW and DMACTL as they stand, unless one runs. -/
def Tiller.dmaWrite (t : Tiller) (row ctl : Word) : Tiller :=
  let t1 := { t with dmaRow := row, dmaCtl := ctl &&& ~~~0xFF#64 }
  if ctl.getLsbD 0 && !t.busy then { t1 with busy := true, going := (t1.dmaRow, t1.dmaCtl) } else t1

/-- TILLER_DMA_GO: DMAROW and DMACTL are written. -/
def execTillerDmaGo (ch : BitVec 8) (row ctl : BitVec 64) (s : State) : Out :=
  .next (s.modTiller ch.toNat fun t => t.dmaWrite row ctl)

/-- The query that a tiller core works for. -/
def State.tillerQuery (s : State) (t : Tiller) : Option (Query × Custom) :=
  t.job.bind fun j => (s.queryOf j.1 j.2).bind fun q => q.custom.map fun c => (q, c)

/-- A copy: the bytes and their place in data memory, or the error. The rows are those below the append pointer that the
query read, each where it stands now (R251, R256), under the key that the query was checked under (R406). -/
def State.tillerCopy (s : State) (ch : Nat) (t : Tiller) : Except (BitVec 3) (Nat × List Byte) :=
  let row := t.going.1.toNat
  let dst := (t.going.2.extractLsb' 32 32).toNat / 32 * 32
  let first := (t.going.2.extractLsb' 20 12).toNat
  let n := (t.going.2.extractLsb' 8 12).toNat
  match s.tillerQuery t with
  | none => .error 1
  | some (q, c) =>
    let r := c.r
    if r.append ≤ row ∨ r.channelOf q.handle row ≠ ch then .error 1
    else if n = 0 ∨ r.rb < 32 * (first + n) then .error 2
    else if 0x20000 < dst + 32 * n then .error 3
    else
      let at_ := ((lookupT s.cmTable q.handle).getD r).rowPa row + 32 * first
      if s.poisoned at_ (32 * n) ∨ c.key.isNone = true then .error 4
      else .ok (dst, s.bytesUnder c.key at_ (32 * n))

/-- TILLER_DMA_DONE: the copy ends, in compute mode (R288); nothing is copied on an error. -/
def execTillerDmaDone (ch : BitVec 8) (s : State) : Out :=
  let t := s.tillerAt ch.toNat
  if t.busy = false ∨ (s.chanAt ch.toNat).mode = false then .next s
  else match s.tillerCopy ch.toNat t with
    | .error e => .next (s.modTiller ch.toNat fun t => { t with busy := false, err := e, bad := t.bad || e == 4 })
    | .ok (dst, bs) => .next (s.modTiller ch.toNat fun t =>
        { t with busy := false, err := 0, dmem := Memory.writeAll t.dmem dst bs
                 moved := t.moved + BitVec.ofNat 32 (bs.length / 32) })

/-! ### The core (R294, R295, R296, R299) -/

/-- The word of a register of the DMA and of the reply port: GO, REPLYPUSH and REPLYEND read zero. -/
def Tiller.dmaWord (t : Tiller) (off : Nat) : Word :=
  match off with
  | 0x00 => t.dmaRow
  | 0x08 => t.dmaCtl
  | _ => t.moved.setWidth 64 <<< 32 ||| t.err.setWidth 64 <<< 1 ||| (if t.busy then 1 else 0)
def Tiller.replyWord (t : Tiller) (off : Nat) : Word := if off = 0x10 then BitVec.ofNat 64 t.pushed.length else 0

/-- Whether an access of n bytes lies in a range. -/
def inRange (a n lo hi : Nat) : Bool := decide (lo ≤ a ∧ a + n ≤ hi)

/-- Bytes of a register from an offset on. -/
def wordPart (w : Word) (off n : Nat) : Nat := w.toNat / 2 ^ (8 * off) % 2 ^ (8 * n)

/-- What a tiller core reads at an address (R295); none raises an access fault. -/
def State.tillerRead (s : State) (t : Tiller) (a n : Nat) : Option Nat :=
  if inRange a n 0 0x10000 then some (leNat (Memory.readAll s.tlfw.image a n))
  else if inRange a n 0x10000 0x30000 then some (leNat (Memory.readAll t.dmem (a - 0x10000) n))
  else if inRange a n 0x30000 0x30600 then
    some (leNat (Memory.readAll (Memory.write t.mbox 0 (if t.mbstat then 1 else 0)) (a - 0x30000) n))
  else if inRange a n 0x31000 0x31018 then some (wordPart (t.dmaWord ((a - 0x31000) / 8 * 8)) (a % 8) n)
  else if inRange a n 0x32000 0x32018 then some (wordPart (t.replyWord ((a - 0x32000) / 8 * 8)) (a % 8) n)
  else none

/-- A register after a write of n bytes from an offset on. -/
def wordPut (old : Word) (off n : Nat) (v : Word) : Word :=
  let m : Word := BitVec.ofNat 64 ((2 ^ (8 * n) - 1) * 2 ^ (8 * off))
  (old &&& ~~~m) ||| (v <<< (8 * off) &&& m)

/-- What a tiller core's store does (R295); none raises an access fault. Writes of DMASTAT and REPLYCNT have no effect. -/
def State.tillerWrite (s : State) (ch a n : Nat) (v : Word) : Option State :=
  if inRange a n 0x10000 0x30000 then
    some (s.modTiller ch fun t => { t with dmem := Memory.writeAll t.dmem (a - 0x10000) (leBytes n v.toNat) })
  else if inRange a n 0x31000 0x31008 then some (s.modTiller ch fun t => { t with dmaRow := wordPut t.dmaRow (a % 8) n v })
  else if inRange a n 0x31008 0x31010 then
    some (s.modTiller ch fun t => t.dmaWrite t.dmaRow (wordPut t.dmaCtl (a % 8) n v))
  else if inRange a n 0x31010 0x31018 then some s
  else if inRange a n 0x32000 0x32008 then some (nextOf s (execReplypush (BitVec.ofNat 8 ch) (wordPut 0 (a % 8) n v) s))
  else if inRange a n 0x32008 0x32010 then some (nextOf s (execReplyend (BitVec.ofNat 8 ch) (wordPut 0 (a % 8) n v) s))
  else if inRange a n 0x32010 0x32018 then some s
  else none

/-- A trap of a tiller core, to its own mtvec (R299): RISC-V's machine-mode entry (PRESUMED, log 54). -/
def TillerCpu.trap (c : TillerCpu) (cause tval : Word) : TillerCpu :=
  let mie := c.mstatus.getLsbD 3
  { c with mepc := c.pc, mcause := cause, mtval := tval, pc := c.mtvec &&& ~~~3#64
           mstatus := (c.mstatus &&& ~~~0x1888#64) ||| 0x1800 ||| (if mie then 0x80 else 0) }

/-- The return of a tiller core from a trap. -/
def TillerCpu.mret (c : TillerCpu) : TillerCpu :=
  { c with pc := c.mepc, mstatus := (c.mstatus &&& ~~~0x88#64) ||| 0x80 ||| (if c.mstatus.getLsbD 7 then 8 else 0) }

/-- A tiller core writes an integer register; x0 discards it. -/
def TillerCpu.setX (c : TillerCpu) (rd : XReg) (v : Word) : TillerCpu :=
  if rd = 0 then c else { c with x := c.x.set rd.toNat v }

/-- A register write of an instruction. -/
def TillerCpu.put (c : TillerCpu) : TillerPut → TillerCpu
  | .x rd v => c.setX rd v
  | .f rd v => { c with f := c.f.set rd.toNat v }
  | .v rd d => { c with v := c.v.set rd.toNat d }
  | .vset vl vtype => { c with vl := vl, vtype := vtype, vstart := 0 }

/-- The floating-point, vector and machine-mode registers by RISC-V's numbers (PRESUMED, log 54): mip has the external
interrupt pending while MBSTAT is 1 (R296), mcycle counts near-bank cycles and mtime runs at 1 MHz (R294). -/
def State.tillerCsr (s : State) (t : Tiller) (n : BitVec 12) : Word :=
  match n.toNat with
  | 0x001 => (t.cpu.fcsr &&& 0x1F).setWidth 64
  | 0x002 => (t.cpu.fcsr >>> 5).setWidth 64
  | 0x003 => t.cpu.fcsr.setWidth 64
  | 0x008 => t.cpu.vstart
  | 0x009 => (t.cpu.vcsr &&& 1).setWidth 64
  | 0x00A => (t.cpu.vcsr >>> 1).setWidth 64
  | 0x00F => t.cpu.vcsr.setWidth 64
  | 0xC20 => t.cpu.vl
  | 0xC21 => t.cpu.vtype
  | 0xC22 => 64
  | 0x340 => t.cpu.mscratch
  | 0x300 => t.cpu.mstatus
  | 0x304 => t.cpu.mie
  | 0x305 => t.cpu.mtvec
  | 0x341 => t.cpu.mepc
  | 0x342 => t.cpu.mcause
  | 0x343 => t.cpu.mtval
  | 0x344 => if t.mbstat then 0x800 else 0
  | 0xB00 => BitVec.ofNat 64 s.near + t.mcycle
  | 0xC01 => s.tick
  | _ => 0

/-- A write of a control register. -/
def State.tillerCsrPut (s : State) (t : Tiller) (n : BitVec 12) (v : Word) : Tiller :=
  match n.toNat with
  | 0x001 => { t with cpu := { t.cpu with fcsr := (t.cpu.fcsr &&& 0xE0) ||| (v.setWidth 8 &&& 0x1F) } }
  | 0x002 => { t with cpu := { t.cpu with fcsr := (t.cpu.fcsr &&& 0x1F) ||| (v.setWidth 8 <<< 5) } }
  | 0x003 => { t with cpu := { t.cpu with fcsr := v.setWidth 8 } }
  | 0x008 => { t with cpu := { t.cpu with vstart := v } }
  | 0x009 => { t with cpu := { t.cpu with vcsr := (t.cpu.vcsr &&& 6) ||| (v.setWidth 3 &&& 1) } }
  | 0x00A => { t with cpu := { t.cpu with vcsr := (t.cpu.vcsr &&& 1) ||| (v.setWidth 3 <<< 1) } }
  | 0x00F => { t with cpu := { t.cpu with vcsr := v.setWidth 3 } }
  | 0x340 => { t with cpu := { t.cpu with mscratch := v } }
  | 0x300 => { t with cpu := { t.cpu with mstatus := v } }
  | 0x304 => { t with cpu := { t.cpu with mie := v } }
  | 0x305 => { t with cpu := { t.cpu with mtvec := v } }
  | 0x341 => { t with cpu := { t.cpu with mepc := v } }
  | 0x342 => { t with cpu := { t.cpu with mcause := v } }
  | 0x343 => { t with cpu := { t.cpu with mtval := v } }
  | 0xB00 => { t with mcycle := v - BitVec.ofNat 64 s.near }
  | _ => t

/-- Changes the RISC-V state of a tiller core. -/
def State.modCpu (s : State) (ch : Nat) (f : TillerCpu → TillerCpu) : State := s.modTiller ch fun t => { t with cpu := f t.cpu }

/-- What a tiller core does next: its loads, stores and fetches go by the memory map; a misaligned data access and one outside
the map trap, with RISC-V's causes (R294, R295). -/
def State.tillerAct (s : State) (ch : Nat) (a : Word) (n : BitVec 4) (op : TillerOp) : State :=
  let t := s.tillerAt ch
  let trap (cause : Nat) (tval : Word) : State := s.modCpu ch fun c => c.trap (BitVec.ofNat 64 cause) tval
  if s.variant.tiller = false ∨ s.variant.cmstk ≤ ch / 32 then s
  else match op with
    | .load rd =>
      if a.toNat % n.toNat ≠ 0 then trap 4 a
      else match s.tillerRead t a.toNat n.toNat with
        | some v => s.modCpu ch fun c => c.setX rd (BitVec.ofNat 64 v)
        | none => trap 5 a
    | .loadF rd =>
      if a.toNat % n.toNat ≠ 0 then trap 4 a
      else match s.tillerRead t a.toNat n.toNat with
        | some v => s.modCpu ch fun c => c.put (.f rd (BitVec.ofNat 64 v ||| (if n = 4 then 0xFFFFFFFF00000000 else 0)))
        | none => trap 5 a
    | .store v =>
      if a.toNat % n.toNat ≠ 0 then trap 6 a
      else match s.tillerWrite ch a.toNat n.toNat v with
        | some u => u
        | none => trap 7 a
    | .fetch => if inRange t.cpu.pc.toNat 2 0 0x10000 then s else trap 1 t.cpu.pc
    | .compute puts flags next => s.modCpu ch fun c =>
        let d := puts.foldl TillerCpu.put c
        { d with fcsr := d.fcsr ||| flags.setWidth 8, pc := next }
    | .csr n v => s.modTiller ch fun t => s.tillerCsrPut t n v
    | .csrRead rd n => s.modCpu ch fun c => c.setX rd (s.tillerCsr t n)
    | .trap cause tval => s.modCpu ch fun c => c.trap cause tval
    | .interrupt =>
      if t.mbstat && t.cpu.mstatus.getLsbD 3 && t.cpu.mie.getLsbD 11 then s.modCpu ch fun c => c.trap (2 ^ 63 + 11) 0 else s
    | .mret => s.modCpu ch TillerCpu.mret

/-! ### Firmware (R387) -/

/-- A write of TLFWCTL: LEN is set, and GO starts a load unless one runs. -/
def State.tlfwWrite (s : State) (ctl : BitVec 64) : State :=
  { s with tlfw := { s.tlfw with len := ctl.setWidth 17, busy := s.tlfw.busy || ctl.getLsbD 63 } }

/-- TILLER_FW_LOAD. -/
def execTillerFwLoad (ctl : BitVec 64) (s : State) : Out := .next (s.tlfwWrite ctl)

/-- Whether every tiller job has ended. -/
def State.tillersIdle (s : State) : Bool := s.tillers.all fun p => p.2.job.isNone

/-- The status of a load (R387). -/
def State.tlfwStatus (s : State) : BitVec 4 :=
  let n := s.tlfw.len.toNat
  let a := (s.tlfw.addr.extractLsb' 6 42).toNat * 64
  if n % 4 ≠ 0 ∨ n < 4 ∨ 65536 < n then 1
  else if s.variant.tiller = false then 2
  else if inWm a n = false ∨ s.poisoned a n = true then 3
  else 0

/-- TILLER_FW_LOAD_DONE: once no job runs, the image is written, data memory is zeroed and the cores are released. -/
def execTillerFwLoadDone (s : State) : Out :=
  if s.tlfw.busy = false ∨ s.tillersIdle = false then .next s
  else
    let st := s.tlfwStatus
    let a := (s.tlfw.addr.extractLsb' 6 42).toNat * 64
    let s1 := if st = 0 then
        { s with tillers := [], tlfw := { s.tlfw with image := Memory.writeAll [] 0 (s.bytes a s.tlfw.len.toNat) } }
      else s
    .next (({ s1 with tlfw := { s1.tlfw with busy := false, status := st } } : State).raiseMsix 3)

end Sys2Proof.Machine
end

