-- ==== Sys2Proof/Machine/Link.lean ====
section
/-! DEFINITION. The receiving side of Sarnus Link, the state of its ports, the packets of peers and the rewriting of routes
(19_links.md R389 to R394). -/

namespace Sys2Proof.Machine

/-! ### Packets (R393) -/

/-- A collective message whole, from its stream bytes: its length in units and the message; none while it is cut off. -/
def collParse (bs : List Byte) : Option (Nat × BitVec 16 × CollMsg) :=
  if bs.length < 16 then none
  else
    let tag : BitVec 16 := BitVec.ofNat 16 (fieldOf bs 0 2)
    if fieldOf bs 2 1 ≠ 0 then some (16, tag, .withdraw (fieldOf bs 2 1 == 2))
    else
      let rb := fieldOf bs 4 4
      let n := fieldOf bs 8 2
      let len := (10 + 2 * n + rb + 15) / 16 * 16
      if bs.length < len then none
      else
        some (len, tag, .contribution (BitVec.ofNat 8 (fieldOf bs 3 1)) (BitVec.ofNat 32 rb)
          ((List.range n).map fun i => BitVec.ofNat 16 (fieldOf bs (10 + 2 * i) 2)) ((bs.drop (10 + 2 * n)).take rb))

/-- Part of a collective message from a node: the message is due once it is whole. -/
def State.collPart (s : State) (port src : Nat) (bs : List Byte) : State :=
  let all := tget [] (s.portAt port).coll src ++ bs
  match collParse all with
  | none => s.modPort port fun p => { p with coll := tput [] p.coll src all }
  | some (len, tag, m) =>
    (s.modPort port fun p => { p with coll := tput [] p.coll src (all.drop len) }).later
      (.collectiveData (BitVec.ofNat 16 src) tag m)

/-- A packet that has been received whole: its event, or its discard with a count in error counter 6. -/
def State.packet (s : State) (port : Nat) (h : List Byte) (body : List Byte) : State :=
  let w := leNat h
  let ty := w % 16
  let src : BitVec 8 := BitVec.ofNat 8 (w / 2 ^ 8)
  let tag : BitVec 24 := BitVec.ofNat 24 (w / 2 ^ 24)
  let hi := w / 2 ^ 64
  if w = 0 then s
  else if w / 2 ^ 48 % 2 ^ 16 ≠ 0 then s.countError 6 1
  else match ty with
    | 1 => s.later (.readRequest src tag (BitVec.ofNat 48 hi) (BitVec.ofNat 4 (hi / 2 ^ 48)))
    | 2 => s.later (.readResponse src tag body)
    | 3 => s.later (.peerWrite src tag (BitVec.ofNat 48 hi) (body.take (body.length - hi / 2 ^ 48 % 16)))
    | 4 => s.later (.writeAcknowledgement src tag)
    | 5 => s.later (.trainElements src (BitVec.ofNat 2 hi) (body.take (16 * (hi / 2 ^ 8 % 16))))
    | 6 => s.later (.trainTail src tag (BitVec.ofNat 64 hi) (BitVec.ofNat 32 (fieldOf body 0 4)))
    | 7 => s.later (.tailAcknowledgement src tag)
    | 8 => s.collPart port src.toNat body
    | _ => s.countError 6 1

/-- The bytes of the packet that a stream begins with: its header and L units. -/
def packetLength (bs : List Byte) : Nat := 16 + 16 * (fieldOf bs 0 1 / 16)

/-- Takes whole packets off a port's stream. -/
def State.takePackets (port : Nat) : Nat → State → State
  | 0, s => s
  | fuel + 1, s =>
    let bs := (s.portAt port).stream
    let n := packetLength bs
    if bs.length < 16 ∨ bs.length < n then s
    else
      State.takePackets port fuel
        ((s.modPort port fun p => { p with stream := p.stream.drop n }).packet port (bs.take 16) ((bs.take n).drop 16))

/-! ### Flits (R390, R391) -/

/-- Whether a flit passes its CRC and holds no reserved type or bit. -/
def flitOk (f : List Byte) : Bool :=
  let h := fieldOf f 0 8
  f.length == 256 && fieldOf f 252 4 == (crc32c (f.take 252)).toNat && h / 2 ^ 48 == 0 && h / 2 ^ 30 % 4 == 0 &&
  decide (h / 2 ^ 26 % 16 < 2) && (h / 2 ^ 26 % 16 == 1 || h % 4096 == 0)

/-- The flits up to an acknowledged number leave the window; of the others each keeps its count of resends. -/
def State.acked (s : State) (port : Nat) (ack : BitVec 12) : State :=
  let p := s.portAt port
  match (p.unacked.take p.sent).findIdx? fun f => f.1 == ack with
  | none => s
  | some i => (s.modPort port fun p =>
      { p with unacked := p.unacked.drop (i + 1), sent := p.sent - (i + 1) }).pump port

/-- Whether a flit has been resent 8 times without acknowledgement (R392). -/
def Port.worn (p : Port) : Bool := p.unacked.any fun f => decide (8 ≤ f.2.2)

/-- The flits that have been sent and not acknowledged are sent again, and counted (R340, R392). -/
def State.replay (s : State) (port : Nat) : State :=
  let n := (s.portAt port).sent
  (((s.modPort port fun p =>
    { p with sent := 0, unacked := (p.unacked.take n).map (fun f => (f.1, f.2.1, f.2.2 + 1)) ++ p.unacked.drop n
             replays := BitVec.ofNat 16 (min (p.replays.toNat + n) 0xFFFF) }).countError 6 n).pump port)

/-- A NAK: the flits sent since the last good one are sent again; once one has been resent 8 times the port retrains (R392). -/
def State.resend (s : State) (port : Nat) : State :=
  let p := s.portAt port
  if p.sent = 0 then s
  else if p.worn then s.later (.linkRetrain (BitVec.ofNat 6 port))
  else s.replay port

/-- Sends an acknowledgement of the last number taken in order. -/
def State.sendAck (s : State) (port : Nat) (nak : Bool) : State :=
  (s.sendFlits port [ackFlit nak ((s.portAt port).rxNext - 1)]).modPort port fun p => { p with rxSince := 0 }

/-- A payload flit in order is taken; one taken before, or one after an error, is discarded. -/
def State.takeFlit (s : State) (port : Nat) (seq : BitVec 12) (payload : List Byte) : State :=
  let p := s.portAt port
  if seq ≠ p.rxNext then s
  else
    let s1 := State.takePackets port 32 (s.modPort port fun p =>
      { p with rxNext := p.rxNext + 1, rxSince := p.rxSince + 1, stream := p.stream ++ payload })
    if 16 ≤ (s1.portAt port).rxSince then s1.sendAck port false else s1

/-- FLIT_RECEIVE. A NAK answers every CRC error. -/
def execFlitReceive (port : BitVec 6) (flit : List Byte) (s : State) : Out :=
  let n := port.toNat
  let p := s.portAt n
  if s.variant.slports ≤ n ∨ p.state ≠ 2 then .next s
  else if flitOk flit = false then .next (s.sendAck n true)
  else
    let h := fieldOf flit 0 8
    let s1 := if h / 2 ^ 24 % 2 = 1 then s.acked n (BitVec.ofNat 12 (h / 4096)) else s
    let s2 := if h / 2 ^ 25 % 2 = 1 then s1.resend n else s1
    .next (if h / 2 ^ 26 % 16 = 1 then s2.takeFlit n (BitVec.ofNat 12 h) ((flit.drop 8).take flitPayload) else s2)

/-- ACK_TIMER. -/
def execAckTimer (port : BitVec 6) (s : State) : Out :=
  if (s.portAt port.toNat).rxSince = 0 ∨ (s.portAt port.toNat).state ≠ 2 then .next s else .next (s.sendAck port.toNat false)

/-! ### The state of a port (R392) -/

/-- LKSTAT.STATE changes: MSI-X vector 4 (R385). -/
def State.linkState (s : State) (port : Nat) (st : BitVec 2) : State :=
  if (s.portAt port).state = st then s else (s.modPort port fun p => { p with state := st }).raiseMsix 4

/-- LINK_RETRAIN: a flit has been resent 8 times without acknowledgement. -/
def execLinkRetrain (port : BitVec 6) (s : State) : Out :=
  let p := s.portAt port.toNat
  if p.state = 2 ∧ p.worn = true then .next (s.linkState port.toNat 1) else .next s

/-- The Ethernet port that a port number names: the five stand after the 36 of Sarnus Link (R388; DESIGN CHOICE, log 39). -/
def ethPort (n : Nat) : Option Nat := if 36 ≤ n ∧ n < 41 then some (n - 36) else none

/-- An Ethernet port goes up or down. -/
def State.ethSet (s : State) (k : Nat) (up : Bool) : State :=
  let bit : BitVec 5 := 1#5 <<< k
  { s with ethUp := if up then s.ethUp ||| bit else s.ethUp &&& ~~~bit }

/-- LINK_UP: training succeeds. After a retraining the flits that stand are resent, each with no resend against it yet; a port
that was down begins anew. Before the firmware runs the ports are down (R33). -/
def execLinkUp (port : BitVec 6) (peer : BitVec 8) (s : State) : Out :=
  let n := port.toNat
  let p := s.portAt n
  if s.trust.bootState ≠ 2 then .next s
  else match ethPort n with
  | some k => .next (s.ethSet k true)
  | none =>
    if s.variant.slports ≤ n ∨ p.state = 2 then .next s
    else
      let fresh (p : Port) : Port := { p with peer := peer, unacked := p.unacked.map fun f => (f.1, f.2.1, 0) }
      if p.state = 1 then
        let s1 := ((s.linkState n 2).replay n).modPort n fresh
        .next s1
      else
        let s1 := s.modPort n fun p => { peer := peer, replays := p.replays, lost := p.lost }
        .next ((s1.linkState n 2).pump n)

/-- Whether the accesses of a control core to a node leave by a port. -/
def State.leavesBy (s : State) (port : Nat) (cc : BitVec 10) (node : BitVec 8) : Bool :=
  s.portToward (clusterOf cc) node.toNat == some port

/-- Operations that a port has lost (R392). -/
def State.lose (s : State) (port n : Nat) : State := s.modPort port fun p => { p with lost := p.lost + BitVec.ofNat 32 n }

/-- Writes to peers that are answered, or that nothing will answer, leave the stores of a control core that wait for them. A
store that waits for no other is performed, and its count in S, or that of the TSAVE which made it in T, is returned. -/
def ControlCore.answered (c : ControlCore) (hit : BitVec 8 × BitVec 24 → Bool) : ControlCore :=
  let ended (w : PStore) : Bool := w.peers.any hit && w.peers.all hit
  let back (k : OpClass) (p : PStore → Bool) (c1 : ControlCore) : ControlCore :=
    (c.stores.filter fun w => ended w && p w).foldl (fun c _ => c.decOut k) c1
  { back .t PStore.tile (back .s PStore.counted c) with
    stores := (c.stores.filter fun w => !ended w).map fun w => { w with peers := w.peers.filter fun p => !hit p } }

/-- The same for the writes of a card; one that has done its work completes when none is left. -/
def State.answerJob (s : State) (j : Job) (hit : BitVec 8 × BitVec 24 → Bool) : State :=
  let k := { j with peers := j.peers.filter fun p => !hit p }
  let s1 := s.modJob j fun _ => k
  if k.peers.isEmpty && j.ended.isSome then s1.later (.jobCompletion j.cc j.token) else s1

/-- The stores of a control core that a port carries are dropped; their S counts are returned and LOST counts them. -/
def State.dropStores (port : Nat) (s : State) (id : BitVec 10) : State :=
  let hit (p : BitVec 8 × BitVec 24) : Bool := s.leavesBy port id p.1
  let n := ((s.ccAt id).stores.filter fun w => w.peers.any hit).length
  if n = 0 then s else (s.modCcAt id fun c => c.answered hit).lose port n

/-- The writes of a card that a port carries are dropped, and LOST counts them. -/
def State.dropCard (port : Nat) (s : State) (j : Job) : State :=
  let hit (p : BitVec 8 × BitVec 24) : Bool := s.leavesBy port j.cc p.1
  let n := (j.peers.filter hit).length
  if n = 0 then s else (s.answerJob j hit).lose port n

/-- Packets of a port that nothing waits for are dropped: LOST counts the writes. -/
def State.dropStrays (s : State) (port : Nat) : State :=
  let hit (r : Stray) : Bool := s.leavesBy port r.cc r.node
  let n := (s.strays.filter fun r => hit r && r.write).length
  let s1 := { s with strays := s.strays.filter fun r => !hit r }
  if n = 0 then s1 else s1.lose port n

/-- The trains that a port carries are dropped: LOST counts their elements and tails, and the last of a VSEND returns its S
count. Trains that wait take the slots. -/
def State.dropTrains (s : State) (port : Nat) : State :=
  let hit (t : Train) : Bool := s.leavesBy port t.cc t.node
  let gone := s.trains.filter hit
  let s1 := { s with trains := s.trains.filter fun t => !hit t }
  let ended := ((gone.filter Train.live).map fun t => (t.cc, t.group)).eraseDups.filter fun g =>
    s1.trains.all fun u => !(u.cc == g.1 && u.live && u.group == g.2)
  let s2 := ended.foldl (fun u g => u.complete g.1 .s) s1
  let s3 := gone.foldl (fun u t => u.sendWaiting (coreOf t.cc)) s2
  if gone.isEmpty then s3 else s3.lose port (gone.map fun t => t.count + 1).sum

/-- The reads that a port carries return poison; a job card's work goes on with it. -/
def State.dropReads (s : State) (port : Nat) : State :=
  let hit (r : PeerRead) : Bool := r.got == .waiting && s.leavesBy port r.cc r.node
  let jobs := (s.peerReads.filter fun r => hit r && r.token != 0).map fun r => (r.cc, r.token)
  let s1 := { s with peerReads := s.peerReads.map fun r => if hit r then { r with got := .poisoned } else r }
  jobs.eraseDups.foldl (fun u j => u.later (.jobStart j.1 j.2)) s1

/-- LINK_DOWN: retraining has failed, or the port goes down. -/
def execLinkDown (port : BitVec 6) (s : State) : Out :=
  let n := port.toNat
  match ethPort n with
  | some k => .next (s.ethSet k false)
  | none =>
    if (s.portAt n).state = 0 then .next s
    else
      let s1 := (s.allCcs.map ControlCore.ctxid).foldl (State.dropStores n) s
      let s2 := (((s1.jobs.foldl (State.dropCard n) s1).dropTrains n).dropReads n).dropStrays n
      let s3 := s2.modPort n fun p => { p with rxSince := 0, stream := [], coll := [], unacked := [], sent := 0, txPhase := 0 }
      .next (s3.linkState n 0)

/-! ### Packets of peers (R393) -/

/-- READ_REQUEST: whole units from a WM address go back; bytes that cannot be read go back as none, which is poison. -/
def execReadRequest (src : BitVec 8) (tag : BitVec 24) (addr : BitVec 48) (units : BitVec 4) (s : State) : Out :=
  let n := 16 * units.toNat
  let good := inWm addr.toNat n && !s.poisoned addr.toNat n
  .next (s.sendPacket src.toNat 2 (if good then units.toNat else 0) tag 0 (if good then s.bytes addr.toNat n else []))

/-- READ_RESPONSE: the read that waits for it has its bytes. -/
def execReadResponse (src : BitVec 8) (tag : BitVec 24) (data : List Byte) (s : State) : Out :=
  let hit (r : PeerRead) : Bool := r.node == src && r.tag == tag && r.got == .waiting
  let got (r : PeerRead) : PeerData := if data.length < r.n then .poisoned else .data (data.take r.n)
  let jobs := (s.peerReads.filter fun r => hit r && r.token != 0).map fun r => (r.cc, r.token)
  let s1 := { s with
    peerReads := s.peerReads.map fun r => if hit r then { r with got := got r } else r
    strays := s.strays.filter fun r => !(r.node == src && r.tag == tag && !r.write) }
  .next (jobs.eraseDups.foldl (fun u j => u.later (.jobStart j.1 j.2)) s1)

/-- PEER_WRITE: the write is performed and acknowledged; one beyond WM is dropped. -/
def execPeerWrite (src : BitVec 8) (tag : BitVec 24) (addr : BitVec 48) (data : List Byte) (s : State) : Out :=
  let s1 := if inWm addr.toNat data.length then s.storeBytes addr.toNat data else s
  .next (s1.sendPacket src.toNat 4 0 tag 0 [])

/-- WRITE_ACKNOWLEDGEMENT: the store or card that waits for it waits for it no more. -/
def execWriteAcknowledgement (src : BitVec 8) (tag : BitVec 24) (s : State) : Out :=
  let hit (p : BitVec 8 × BitVec 24) : Bool := p == (src, tag)
  match s.allCcs.find? fun c => c.stores.any fun w => w.peers.any hit with
  | some c => .next (s.modCcAt c.ctxid fun c => c.answered hit)
  | none =>
    match s.jobs.find? fun j => j.peers.any hit with
    | some j => .next (s.answerJob j hit)
    | none => .next { s with strays := s.strays.filter fun r => !(r.write && hit (r.node, r.tag)) }

/-! ### Routes (R389) -/

/-- Whether an access already sent toward a node is not yet acknowledged. -/
def State.outstanding (s : State) (node : Nat) : Bool :=
  (s.peerReads.any fun r => r.node.toNat == node && r.got == .waiting) || (s.trains.any fun t => t.node.toNat == node) ||
  (s.jobs.any fun j => j.peers.any fun p => p.1.toNat == node) || (s.strays.any fun r => r.node.toNat == node) ||
  s.allCcs.any fun c => c.stores.any fun w => w.peers.any fun p => p.1.toNat == node

/-- ROUTE_WRITE: the write is held. -/
def execRouteWrite (node : BitVec 8) (v : BitVec 64) (s : State) : Out :=
  .next { s with routeHeld := tins s.routeHeld node.toNat (v.setWidth 36) }

/-- ROUTE_APPLY: a held write takes effect once everything sent toward the node has been acknowledged. -/
def execRouteApply (node : BitVec 8) (s : State) : Out :=
  match lookupT s.routeHeld node.toNat with
  | some v =>
    if s.outstanding node.toNat then .next s
    else .next { s with route := tput 0 s.route node.toNat v, routeHeld := tdel s.routeHeld node.toNat }
  | none => .next s

end Sys2Proof.Machine
end

