-- ==== Sys2Proof/Machine/DevRegs.lean ====
section
/-! DEFINITION. The device registers: their words, by offset in the device window and level, and their writes by access code
(00_scope.md R5, R6; 10_memories.md R204; 12_capacity.md R238; 14_stacks.md R291; 16_tables.md R326 to R340; 19_links.md R384
to R392; 20_trust.md R397 to R404). -/

namespace Sys2Proof.Machine

/-! ### Reads -/

/-- Word k of a 256-bit register. -/
def word256 (v : BitVec 256) (k : Nat) : Word := v.extractLsb' (64 * k) 64

/-- A status register with BUSY and LOST. -/
def statWord (busy lost : Bool) (status : BitVec 16) : Word :=
  (if busy then 0x80000000 else 0) ||| (if lost then 0x40000000 else 0) ||| status.setWidth 64

/-- Whether r is a register of an array of n registers every `step` bytes from a base. -/
def inArray (r base step n : Nat) : Bool := decide (base ≤ r ∧ r < base + step * n) && (r - base) % step == 0

/-- CMCH (R291). -/
def State.cmch (s : State) (n : Nat) : Word :=
  let c := s.chanAt n
  s.divisor.setWidth 64 <<< 34 ||| (if c.pending then 0x200000000 else 0) ||| (if c.mode then 0x100000000 else 0) ||| c.nlb.setWidth 64

/-- LKSTAT (R392). -/
def Port.lkstat (p : Port) : Word :=
  p.lost.setWidth 64 <<< 32 ||| p.replays.setWidth 64 <<< 16 ||| p.peer.setWidth 64 <<< 8 ||| p.state.setWidth 64

/-- A register of a fault domain (R338). -/
def Domain.word (d : Domain) (off : Nat) : Word :=
  match off with
  | 0x00 => d.base
  | 0x08 => d.size.setWidth 64
  | 0x10 => d.head.setWidth 64
  | 0x18 => d.tail.setWidth 64
  | 0x20 => d.ctx.setWidth 64
  | 0x28 => d.lost.setWidth 64
  | _ => 0

/-- PMSEL and PMC0 to PMC3 of a core (R340). -/
def Core.perfWord (c : Core) (off : Nat) : Word :=
  if off = 0 then c.pmsel.setWidth 64 else (c.pmc.toList[off / 8 - 1]?).getD 0

/-- An entry of the remap table (R331). -/
def State.remapWord (s : State) (i : Nat) : Word :=
  match lookupT s.remap i with
  | some r => (if r.moving then 2 ^ 63 ||| r.dest.setWidth 64 <<< 29 else 0) ||| r.media.setWidth 64
  | none => BitVec.ofNat 64 i

/-- The registers of trust that a supervisor reads: identity and boot status (R397 to R400). -/
def Trust.openWord (t : Trust) (off : Nat) : Word :=
  match off with
  | 0x000 => t.devid
  | 0x008 => t.lifecycle
  | 0x100 => t.bootStat
  | 0x108 => t.bootAddr
  | 0x110 => t.bootLen.setWidth 64
  | _ =>
    if off / 32 = 1 then word256 t.vkHash (off % 32 / 8)
    else if off / 32 = 2 then word256 t.dkHash (off % 32 / 8)
    else if off / 32 = 3 ∧ t.derived = true then word256 idkHash (off % 32 / 8)
    else 0

/-- The registers of trust that are reserved to service (R404). -/
def Trust.serviceWord (t : Trust) (off : Nat) : Word :=
  match off with
  | 0x208 => t.arg0
  | 0x210 => t.arg1
  | 0x218 => t.tuStat
  | 0x220 => t.wipecnt.setWidth 64
  | 0x228 => t.dbgStat
  | _ =>
    if off / 32 = 0x12 then word256 t.tokdig (off % 32 / 8)
    else if 0x400 ≤ off ∧ off < 0x500 then word256 ((t.meas.toList[(off - 0x400) / 32]?).getD 0) (off % 32 / 8)
    else 0

/-- The registers that are reserved to service. -/
def State.serviceWord (s : State) (r : Nat) : Word :=
  if inArray r 0x20000 8 (32 * s.variant.cmstk) then s.cmch ((r - 0x20000) / 8)
  else if inArray r 0x58000 8 16 then ((s.dieAt ((r - 0x58000) / 32)).vc.toList[(r - 0x58000) % 32 / 8]?).getD 0
  else if inArray r 0x100000 8 97664 then s.remapWord ((r - 0x100000) / 8)
  else if r = 0x1BEC00 then s.remapFree.setWidth 64
  else if 0x90200 ≤ r ∧ r < 0x90500 then s.trust.serviceWord (r - 0x90000)
  else 0

/-- The registers that a supervisor reaches. -/
def State.supervisorWord (s : State) (r : Nat) : Word :=
  if inArray r 0x40000 8 (256 * 8) then (s.domainAt ((r - 0x40000) / 64)).word ((r - 0x40000) % 64)
  else if inArray r 0x51000 8 (256 * 8) then
    if (r - 0x51000) % 64 < 40 then (s.coreAt ((r - 0x51000) / 64)).perfWord ((r - 0x51000) % 64) else 0
  else if inArray r 0x56000 8 9 then ((s.errors.toList[(r - 0x56000) / 8]?).getD 0).setWidth 64
  else if inArray r 0x81000 8 256 then (tget 0 s.route ((r - 0x81000) / 8)).setWidth 64
  else if inArray r 0x82000 8 s.variant.slports then (s.portAt ((r - 0x82000) / 8)).lkstat
  else if 0x90000 ≤ r ∧ r < 0x90200 then s.trust.openWord (r - 0x90000)
  else match r with
    | 0x10000 => s.cmRegs.addr
    | 0x10010 => statWord s.cmRegs.busy s.cmRegs.lost s.cmRegs.status
    | 0x30000 => s.rs.rcb
    | 0x30010 => statWord s.rs.busy s.rs.lost s.rs.status
    | 0x50000 => s.tick
    | 0x80000 => s.nodeid.setWidth 64
    | 0x83000 => s.tlfw.addr
    | 0x83008 => (if s.tlfw.busy then 2 ^ 62 else 0) ||| s.tlfw.status.setWidth 64 <<< 56 ||| s.tlfw.len.setWidth 64
    | _ => 0

/-- Whether an offset belongs to a register reserved to service. -/
def serviceReg (r : Nat) : Bool :=
  decide (0x20000 ≤ r ∧ r < 0x30000) || decide (0x58000 ≤ r ∧ r < 0x58080) || decide (0x90200 ≤ r ∧ r < 0x90500) ||
  decide (0x100000 ≤ r ∧ r < 0x200000)

/-- The 64-bit register at an offset, as a level reads it; one below its level reads zero. -/
def State.devWord (s : State) (lv : Level) (r : Nat) : Word :=
  if lv = .user then 0
  else if serviceReg r then (if lv = .service then s.serviceWord r else 0)
  else s.supervisorWord r

/-- A load of n bytes within one register. -/
def State.devRead (s : State) (lv : Level) (off n : Nat) : Nat :=
  (s.devWord lv (off / 8 * 8)).toNat / 2 ^ (8 * (off % 8)) % 2 ^ (8 * n)

/-! ### Writes. `w` holds the bytes that a write covers, zero elsewhere, and `m` has their bits set. -/

/-- A field of access RW after a write. -/
def rwField (old w m : Word) : Word := (old &&& ~~~m) ||| w

/-- Whether a write of a command register gives a command: it covers OP, bits 31:28. One that covers other bytes alone does
nothing: DESIGN CHOICE, log 37 (R5, R238, R330, R404 state no effect of it). -/
def givesCommand (m : Word) : Bool := m.extractLsb' 28 4 != 0

/-- A write of CMRTCMD (R238; log 37). -/
def State.cmCommand (s : State) (w m : Word) : State :=
  if !givesCommand m then s
  else if s.cmRegs.busy then { s with cmRegs := { s.cmRegs with lost := true } }
  else
    let h : BitVec 12 := w.setWidth 12
    let s1 := { s with cmRegs := { s.cmRegs with busy := true } }
    if w.extractLsb' 12 16 ≠ 0 then s1.cmCommandDone 2
    else match (w.extractLsb' 28 4).toNat with
      | 1 => s1.later (.cmInstall h)
      | 2 => s1.later (.cmRemove h)
      | 3 => s1.later (.cmReadBack h)
      | _ => s1.cmCommandDone 2

/-- A write of RSCMD (R330; log 37). -/
def State.rsCommand (s : State) (w m : Word) : State :=
  if !givesCommand m then s
  else if s.rs.busy then { s with rs := { s.rs with lost := true } }
  else
    let rcb : BitVec 48 := s.rs.rcb.setWidth 48 &&& ~~~0xFF#48
    let s1 := { s with rs := { s.rs with busy := true } }
    if w.extractLsb' 0 28 ≠ 0 then s1.rsDone 4
    else match (w.extractLsb' 28 4).toNat with
      | 1 => s1.later (.rsTerminateRegion rcb)
      | 2 => s1.later (.rsTerminateContext rcb (s.rs.rcb.extractLsb' 48 16))
      | 3 => s1.later (.rsEvict rcb)
      | _ => s1.rsDone 4

/-- A write of TUCMD (R404; log 37). -/
def State.tuCommand (s : State) (w m : Word) : State :=
  if !givesCommand m then s
  else if s.trust.busy then s.modTrust fun t => { t with lost := true }
  else
    let s1 := s.modTrust fun t => { t with busy := true, cmdLow := w.setWidth 28 }
    match (w.extractLsb' 28 4).toNat with
    | 1 => s1.later .verify
    | 2 => s1.later .keyload
    | 3 => s1.later .keywipe
    | 4 => s1.later .dbgopen
    | 5 => s1.later .extend
    | 6 => s1.later .attest
    | _ => s1.tuDone 1

/-- A write of a register of a fault domain (R338). -/
def Domain.put (d : Domain) (off : Nat) (w m : Word) : Domain :=
  match off with
  | 0x00 => { d with base := rwField d.base w m &&& 0xFFFFFFFFFFC0 }
  | 0x08 => { d with size := (rwField (d.size.setWidth 64) w m).setWidth 4 }
  | 0x18 => { d with tail := (rwField (d.tail.setWidth 64) w m).setWidth 32 }
  | 0x20 => { d with ctx := (rwField (d.ctx.setWidth 64) w m).setWidth 12 }
  | 0x28 => { d with lost := (rwField (d.lost.setWidth 64) w m).setWidth 32 }
  | _ => d

/-- A write of PMSEL or a counter of a core (R340). -/
def Core.perfPut (c : Core) (off : Nat) (w m : Word) : Core :=
  if off = 0 then { c with pmsel := (rwField (c.pmsel.setWidth 64) w m).setWidth 32 }
  else { c with pmc := c.pmc.setIfInBounds (off / 8 - 1) (rwField (c.perfWord off) w m) }

/-- Whether every Sarnus Link port and every Ethernet port is down (R388). -/
def State.linksDown (s : State) : Bool :=
  (s.ports.all fun p => p.2.state == 0 || p.2.state == 3) && s.ethUp == 0

/-- A write of a register that a supervisor reaches. -/
def State.supervisorPut (s : State) (host : Bool) (r : Nat) (w m : Word) : State :=
  if inArray r 0x40000 8 (256 * 8) then s.modDomain ((r - 0x40000) / 64) fun d => d.put ((r - 0x40000) % 64) w m
  else if inArray r 0x51000 8 (256 * 8) then
    if (r - 0x51000) % 64 < 40 then s.modCore ((r - 0x51000) / 64) fun c => c.perfPut ((r - 0x51000) % 64) w m else s
  else if inArray r 0x81000 8 256 then
    let n := (r - 0x81000) / 8
    let old : Word := ((lookupT s.routeHeld n).map fun v => v.setWidth 64).getD (s.supervisorWord r)
    nextOf s (execRouteWrite (BitVec.ofNat 8 n) (rwField old w m) s)
  else if inArray r 0x82000 8 s.variant.slports then
    s.modPort ((r - 0x82000) / 8) fun p => { p with lost := (rwField p.lkstat w m).extractLsb' 32 32 }
  else match r with
    | 0x10000 => { s with cmRegs := { s.cmRegs with addr := rwField s.cmRegs.addr w m &&& 0xFFFFFFFFFFC0 } }
    | 0x10008 => s.cmCommand w m
    | 0x10010 => if w.getLsbD 30 then { s with cmRegs := { s.cmRegs with lost := false } } else s
    | 0x30000 => { s with rs := { s.rs with rcb := rwField s.rs.rcb w m &&& ~~~0xFF#64 } }
    | 0x30008 => s.rsCommand w m
    | 0x30010 => if w.getLsbD 30 then { s with rs := { s.rs with lost := false } } else s
    | 0x80000 => if s.linksDown then { s with nodeid := (rwField (s.nodeid.setWidth 64) w m).setWidth 16 } else s
    | 0x83000 => { s with tlfw := { s.tlfw with addr := rwField s.tlfw.addr w m &&& 0xFFFFFFFFFFC0 } }
    | 0x83008 => s.tlfwWrite (rwField (s.tlfw.len.setWidth 64) w m)
    | 0x90108 => if host then s.modTrust fun t => { t with bootAddr := rwField t.bootAddr w m &&& ~~~0x3F#64 } else s
    | 0x90110 => if host then nextOf s (execBootLoad (rwField (s.trust.bootLen.setWidth 64) w m) s) else s
    | _ => s

/-- A write of a register reserved to service, and of the error counters, which only service sets. -/
def State.servicePut (s : State) (r : Nat) (w m : Word) : State :=
  if inArray r 0x20000 8 (32 * s.variant.cmstk) then
    let n := (r - 0x20000) / 8
    let nlb : BitVec 16 := (rwField (s.cmch n) w m).setWidth 16
    if nlb = 0 then s else s.modChan n fun c => { c with nlb := nlb }
  else match r with
    | 0x90200 => s.tuCommand w m
    | 0x90208 => s.modTrust fun t => { t with arg0 := rwField t.arg0 w m }
    | 0x90210 => s.modTrust fun t => { t with arg1 := rwField t.arg1 w m }
    | 0x90218 => if w.getLsbD 30 then s.modTrust fun t => { t with lost := false } else s
    | _ => s

/-- The error counters, which service sets. -/
def State.errorPut (s : State) (j : Nat) (w m : Word) : State :=
  let old : Word := ((s.errors.toList[j]?).getD 0).setWidth 64
  { s with errors := s.errors.setIfInBounds j ((rwField old w m).setWidth 32) }

/-- A write of the 64-bit register at an offset; one below its level, or of no register, is ignored. -/
def State.devPut (s : State) (lv : Level) (host : Bool) (r : Nat) (w m : Word) : State :=
  if lv = .user then s
  else if serviceReg r then (if lv = .service then s.servicePut r w m else s)
  else if inArray r 0x56000 8 9 then (if lv = .service then s.errorPut ((r - 0x56000) / 8) w m else s)
  else s.supervisorPut host r w m

/-- A store of n bytes within one register. -/
def State.devWrite (s : State) (lv : Level) (host : Bool) (off n v : Nat) : State :=
  let sh := 8 * (off % 8)
  let m : Word := BitVec.ofNat 64 ((2 ^ (8 * n) - 1) * 2 ^ sh)
  s.devPut lv host (off / 8 * 8) (BitVec.ofNat 64 (v % 2 ^ (8 * n) * 2 ^ sh)) m

/-! ### Accesses of the host (R33, R384) -/

/-- The registers that the host reaches before the firmware runs: identity and boot status. -/
def earlyReg (off : Nat) : Bool := decide (0x90000 ≤ off ∧ off < 0x90200)

/-- A host access is admitted when it is 4 or 8 bytes, naturally aligned. -/
def hostAccessOk (off size : Nat) : Bool := (size == 4 || size == 8) && off % size == 0

/-- Whether the host reaches a register now (R33). -/
def State.hostReaches (s : State) (off : Nat) : Bool := s.trust.bootState == 2 || earlyReg off

/-- The host writes a register. -/
def State.hostWrite (s : State) (off size v : Nat) : State :=
  if !hostAccessOk off size then { s with outbox := s.outbox ++ [.abort] }
  else if s.hostReaches off then s.devWrite .supervisor true off size v
  else s

/-- The host reads a register: its bytes go out. -/
def State.hostRead (s : State) (off size : Nat) : State :=
  if !hostAccessOk off size then { s with outbox := s.outbox ++ [.abort] }
  else
    let v := if s.hostReaches off then s.devRead .supervisor off size else 0
    { s with outbox := s.outbox ++ [.hostData (some (leBytes size v))] }

/-- REGISTER_WRITE: an access of the host through BAR0, or of a tiller core to its memory map. -/
def execRegisterWrite (off : BitVec 64) (size : BitVec 4) (acc : RegAccess) (s : State) : Out :=
  match acc with
  | .write v => .next (s.hostWrite off.toNat size.toNat v.toNat)
  | .read => .next (s.hostRead off.toNat size.toNat)
  | .tiller ch op => .next (s.tillerAct ch.toNat off size op)

end Sys2Proof.Machine
end

