-- ==== Sys2Proof/Machine/ScalarMem.lean ====
section
/-! DEFINITION. Scalar loads and stores, LDA and STREL (11_access.md R224 to R226), device pages among them. -/

namespace Sys2Proof.Machine

/-- Loads n bytes at an address: the value. -/
def State.scalarLoad (s : State) (a : Word) (n : Nat) : Except Stop (State × Nat) :=
  withTval a <| precise s do
    let (s1, ps) ← s.pieces .load false a n
    match ps with
    | [⟨x, _⟩] =>
      if x.ty = 3 then return (s1, s1.devRead s1.cc.level (x.pa - devBase) n)
      else
        let (s2, bs) ← s1.loadPieces a ps
        return (s2, leNat bs)
    | _ =>
      let (s2, bs) ← s1.loadPieces a ps
      return (s2, leNat bs)

/-- Stores the low n bytes of a value at an address, counted in S. -/
def State.scalarStore (s : State) (a : Word) (n : Nat) (v : Word) : Except Stop State :=
  withTval a <| precise s do
    stallIf (s.cc.full .s) s
    let (s1, ps) ← s.pieces .store false a n
    match ps with
    | [⟨x, _⟩] =>
      if x.ty = 3 then return (s1.devWrite s1.cc.level false (x.pa - devBase) n v.toNat).pendStore {}
      else
        let (s2, ws) := s1.storePieces ps (leBytes n v.toNat)
        return s2.pendStore (joinStores ws)
    | _ =>
      let (s2, ws) := s1.storePieces ps (leBytes n v.toNat)
      return s2.pendStore (joinStores ws)

/-- The address of a load or store: x[xa] + sext(imm12). -/
def State.memAddr (s : State) (xa : XReg) (imm : BitVec 12) : Word := s.getX xa + imm.signExtend 64

/-- A load of n bytes, sign- or zero-extended. -/
def State.load (s : State) (xd xa : XReg) (imm : BitVec 12) (n : Nat) (signed : Bool) : Out :=
  finish do
    let (s1, v) ← s.scalarLoad (s.memAddr xa imm) n
    let w : Word := if signed then (BitVec.ofNat (8 * n) v).signExtend 64 else BitVec.ofNat 64 v
    return (s1.setX xd w).retire

/-- A store of n bytes. -/
def State.store (s : State) (xs xa : XReg) (imm : BitVec 12) (n : Nat) : Out :=
  finish do
    let s1 ← s.scalarStore (s.memAddr xa imm) n (s.getX xs)
    return s1.retire

def execLdb (xd xa : XReg) (imm : BitVec 12) (s : State) : Out := s.load xd xa imm 1 true
def execLdh (xd xa : XReg) (imm : BitVec 12) (s : State) : Out := s.load xd xa imm 2 true
def execLdw (xd xa : XReg) (imm : BitVec 12) (s : State) : Out := s.load xd xa imm 4 true
def execLdd (xd xa : XReg) (imm : BitVec 12) (s : State) : Out := s.load xd xa imm 8 false
def execLdbz (xd xa : XReg) (imm : BitVec 12) (s : State) : Out := s.load xd xa imm 1 false
def execLdhz (xd xa : XReg) (imm : BitVec 12) (s : State) : Out := s.load xd xa imm 2 false
def execLdwz (xd xa : XReg) (imm : BitVec 12) (s : State) : Out := s.load xd xa imm 4 false
def execStb (xs xa : XReg) (imm : BitVec 12) (s : State) : Out := s.store xs xa imm 1
def execSth (xs xa : XReg) (imm : BitVec 12) (s : State) : Out := s.store xs xa imm 2
def execStw (xs xa : XReg) (imm : BitVec 12) (s : State) : Out := s.store xs xa imm 4
def execStd (xs xa : XReg) (imm : BitVec 12) (s : State) : Out := s.store xs xa imm 8

/-- LDA: an aligned load that is an acquire; one instruction at a time, every load of this model is one. -/
def execLda (xd xa : XReg) (sc : BitVec 3) (s : State) : Out :=
  let _scope := sc
  finish do
    let a := s.getX xa
    trapIf (a.toNat % 8 != 0) s cAlign a
    let (s1, v) ← s.scalarLoad a 8
    return (s1.setX xd (BitVec.ofNat 64 v)).retire

/-- STREL: an aligned store that is a release at its scope. -/
def execStrel (xs xa : XReg) (sc : BitVec 3) (s : State) : Out :=
  finish do
    let a := s.getX xa
    trapIf (a.toNat % 8 != 0) s cAlign a
    let _ ← s.scalarStore a 8 (s.getX xs)
    waitOwn s
    let s1 ← (s.release sc.toNat).scalarStore a 8 (s.getX xs)
    return s1.retire

end Sys2Proof.Machine
end

