-- ==== Sys2Proof/Machine/HostPort.lean ====
section
/-! DEFINITION. The host port beside BAR0: CXL.mem accesses, snoops of host lines, and MSI-X (19_links.md R383 to R386,
17_ordering.md R358). -/

namespace Sys2Proof.Machine

/-- HOST_MEM_READ: the host reads WM, and may then hold its lines; beyond the logical regions it gets poison, counted. -/
def execHostMemRead (off : BitVec 48) (n : BitVec 8) (s : State) : Out :=
  let pa := off.toNat
  let k := n.toNat
  if s.trust.bootState ≠ 2 then .next s
  else if inWm pa k = false then
    .next { s.countError 1 1 with outbox := (s.countError 1 1).outbox ++ [.hostData none] }
  else
    let data := if s.poisoned pa k then none else some (s.bytes pa k)
    .next { s with outbox := s.outbox ++ [.hostData data]
                   hostHeld := s.hostHeld ++ (linesOf pa k).filter fun l => !s.hostHeld.contains l }

/-- HOST_MEM_WRITE: the host writes WM; beyond the logical regions the write is dropped and counted. -/
def execHostMemWrite (off : BitVec 48) (data : List Byte) (s : State) : Out :=
  let pa := off.toNat
  if s.trust.bootState ≠ 2 then .next s
  else if inWm pa data.length = false then .next (s.countError 1 1)
  else .next { ({ s with hostHeld := [] } : State).storeBytes pa data with hostHeld := s.hostHeld }

/-- The die no longer holds a host line. -/
def Die.giveUp (d : Die) (line : Nat) : Die := { d with lines := d.lines.filter fun l => l != line }

/-- CXL_SNOOP: a die cache gives up a host line. Where the host writes the line, at most 64 bytes from its start, every die
has given it up before a later read (R358). -/
def execCxlSnoop (die : BitVec 2) (line : HostLine) (s : State) : Out :=
  let l := line.addr.toNat / 64
  match line.data with
  | none => .next (s.modDie die.toNat fun d => d.giveUp l)
  | some bs =>
    let s1 := (List.range 4).foldl (fun (u : State) k => u.modDie k fun d => d.giveUp l) s
    .next (if hostBase ≤ l * 64 then s1.storeBytes (l * 64) (bs.take 64) else s1)

/-- Sends the pending vectors that are not masked. -/
def State.sendPending (s : State) : State :=
  if s.msix.fnMask then s
  else
    let out := (List.range 64).filter fun n => s.msix.pending.getLsbD n && !s.msix.masked.getLsbD n
    { s with msix := { s.msix with pending := s.msix.pending &&& s.msix.masked }
             outbox := s.outbox ++ out.map Outgoing.msix }

/-- MSIX_UNMASK: the host sets its table of vectors; a pending vector that is masked no longer is sent. -/
def execMsixUnmask (set : MsixSet) (s : State) : Out :=
  match set with
  | .unmask v =>
    .next ({ s with msix := { s.msix with masked := s.msix.masked &&& ~~~(1#64 <<< v.toNat) } } : State).sendPending
  | .mask v => .next { s with msix := { s.msix with masked := s.msix.masked ||| (1#64 <<< v.toNat) } }
  | .function on => .next ({ s with msix := { s.msix with fnMask := on } } : State).sendPending

end Sys2Proof.Machine
end

