-- ==== Sys2Proof/Machine/Debug.lean ====
section
/-! DEFINITION. The debug port: halting, register writes, resumption and CM reads (18_traps.md R380 to R382, 12_capacity.md
R252, 20_trust.md R408), and a fetched word that is no instruction (04_encoding.md R87). -/

namespace Sys2Proof.Machine

/-- Whether the open port serves what a permission bit names (R408). -/
def State.debugMay (s : State) (bit : Nat) : Bool := s.trust.isOpen && s.trust.perm.getLsbD bit

/-- A context that stops for the debugger: a macro-operation that waits stops at its step boundary, as under R50. -/
def ControlCore.halt (c : ControlCore) : ControlCore :=
  let c := { c with miss := none, held := [], leaving := false, halting := false }
  match c.macroOp with
  | some (_, m) => { c.endMacro with macroOp := none, tstep := BitVec.ofNat 32 m, run := .halted }
  | none => { c with run := .halted }

/-- DEBUG_HALT: a context in a wait leaves it, and its instruction runs again on resumption. A vector instruction that is
partly done stops at an element boundary before this (R50; `State.stopAt`), and one whose reads of a device-class page of a
peer have left retires first (R207, R361). -/
def execDebugHalt (cc : BitVec 10) (s : State) : Out :=
  let c := s.ccAt cc
  if s.debugMay 0 = false ∨ c.run = .absent ∨ c.run = .halted then .next s
  else if s.readsDevice cc then .next (s.modCcAt cc fun c => { c with halting := true })
  else
    .next (s.onCc cc fun s => (s.unwait.modCc ControlCore.halt).leaveReads fun r => r.cc == cc && r.token == 0)

/-- The control and status registers that a debugger writes (R119). -/
def debugCsr (n : BitVec 12) : Bool := decide (n.toNat < 7) || n == 0x009

/-- A debugger's write to a halted context, refused when it sets a reserved tag or an illegal field. -/
def State.debugPut (s : State) : DebugWrite → State
  | .x n v => s.setX n v
  | .v n data side tag =>
    if h : n.toNat < 48 then
      if 0x14 ≤ tag.toNat then s
      else s.modCc fun c => { c with v := c.v.set n.toNat ⟨data, side, tag⟩, vdirty := c.vdirty ||| (1#48 <<< n.toNat) }
    else s
  | .m n bits => if h : n.toNat < 12 then s.modCc fun c => { c with m := c.m.set n.toNat bits } else s
  | .csr n v => if debugCsr n && csrValueOk n v then s.csrPut n v else s
  | .armBreak on => s.modCc fun c => { c with armed := on }

/-- DEBUG_REGISTER_WRITE: to a halted context; halting on breakpoints may be armed for any. -/
def execDebugRegisterWrite (cc : BitVec 10) (w : DebugWrite) (s : State) : Out :=
  let c := s.ccAt cc
  let arms := match w with | .armBreak _ => true | _ => false
  if s.debugMay 0 = false ∨ c.run = .absent ∨ (c.run ≠ .halted ∧ arms = false) then .next s
  else .next (s.onCc cc fun s => s.debugPut w)

/-- DEBUG_RESUME: the context fetches from pc again. -/
def execDebugResume (cc : BitVec 10) (s : State) : Out :=
  if s.debugMay 0 = true ∧ (s.ccAt cc).run = .halted then .next (s.modCcAt cc fun c => { c with run := .running })
  else .next s

/-- The bytes of a CM sector as stored. -/
def State.cipher (s : State) (pa : Nat) : List Byte :=
  let plain := s.bytes pa 32
  match lookupT s.cmKeys (pa / 32) with
  | some key => xtsEnc key (pa / 32) plain
  | none => plain

/-- DEBUG_CM_READ: a sector as ciphertext. -/
def execDebugCmRead (addr : BitVec 48) (s : State) : Out :=
  let pa := addr.toNat / 32 * 32
  if s.debugMay 1 = false ∨ inCm s.variant pa = false then .next s
  else
    let data := if s.poisoned pa 32 then none else some (s.cipher pa)
    .next { s with outbox := s.outbox ++ [.debugData data] }

/-- NOT_AN_INSTRUCTION: "illegal instruction" with the word (R87). -/
def execNotAnInstruction (w : BitVec 32) (s : State) : Out :=
  .next (s.raise { cause := cIllegal, tval := w.setWidth 64 })

end Sys2Proof.Machine
end

