-- ==== Sys2Proof/Machine/Loop.lean ====
section
/-! DEFINITION. Vector loops: LOOP, LOOPI, SETVL and NEXT (08_vector.md R160 to R162, 06_registers.md R124). -/

namespace Sys2Proof.Machine

/-- LOOP and LOOPI (R160). -/
def State.openLoop (s : State) (i : Instr) (loopi : Bool) (xa : XReg) (off : BitVec 12) : Except Stop State := do
  needVector s
  if s.cc.loopAct then illegal s i
  else if s.getX xa = 0 then return s.retireTo (s.cc.pc + wordsOff off)
  else
    let s1 := s.modCc fun c => { c.withLoop true loopi with issued := 0, done := 0, inStrip := false, loopDepth := c.depth }
    return s1.retire

def execLoop (xa : XReg) (off : BitVec 12) (s : State) : Out := finish (s.openLoop (.loop xa off) false xa off)
def execLoopi (xa : XReg) (off : BitVec 12) (s : State) : Out := finish (s.openLoop (.loopi xa off) true xa off)

/-- The vector length that SETVL grants: the count, the widest operand's VLMAX, and MAXEG groups (R124, R161). -/
def grantVl (n : Nat) (w : BitVec 2) (maxeg : BitVec 5) : Nat :=
  let width := 64 >>> w.toNat
  min n (min (8192 / width) (maxeg.toNat * (512 / width)))

/-- Whether a SETVL is a point of soft pre-emption: a request is pending, the context is not HANDLING (R52) and not in a
user-interrupt handler (R323). -/
def ControlCore.softPoint (c : ControlCore) : Bool := c.request.isSome && !c.handling && !c.inui

def execSetvl (xd xa : XReg) (w : BitVec 2) (s : State) : Out :=
  finish do
    needVector s
    let s0 := (s.modCc fun c => { c with reached := true }).applyShape (coreOf s.cc.ctxid)
    if s0.cc.softPoint then return s0.preempt cSoft
    else if s0.cc.loopAct && s0.cc.issued == BitVec.allOnes 32 then illegal s (.setvl xd xa w)
    else
      let vl := grantVl (s0.getX xa).toNat w s0.cc.maxvl
      let s1 := s0.modCc fun c =>
        { c with vl := BitVec.ofNat 11 vl, issued := if c.loopAct then c.issued + 1 else c.issued
                 inStrip := c.loopAct }
      return (s1.setX xd (BitVec.ofNat 64 vl)).retire

/-- What NEXT leaves in the count register (R162). -/
def nextCount (n vl : Nat) : Nat := if vl ≤ n then n - vl else 0

def execNext (xd : XReg) (off : BitVec 20) (s : State) : Out :=
  finish do
    needVector s
    if !s.cc.loopAct then illegal s (.next xd off)
    else
      let n := nextCount (s.getX xd).toNat s.cc.vl.toNat
      let s1 := (s.setX xd (BitVec.ofNat 64 n)).modCc fun c => { c with inStrip := false }
      if s1.getX xd ≠ 0 then return s1.retireTo (s.cc.pc + wordsOff off)
      else return (s1.modCc fun c => { c.withLoop false false with loopDepth := 0 }).retire

end Sys2Proof.Machine
end

