-- ==== Sys2Proof/Machine/Mask.lean ====
section
/-! DEFINITION. Mask operations, major opcode 0x27 (08_vector.md R177). -/

namespace Sys2Proof.Machine

/-- A mask operation: bits 0 to vl − 1 of a value, zero above. -/
def State.maskOp (s : State) (md : MReg) (b : BitVec 1024) : Out :=
  finish do
    pushGuard s [mCode md]
    return (s.putM md (b &&& lowMask s.vlN)).retire

def execMand (md ma mb : MReg) (s : State) : Out := s.maskOp md (s.getM ma &&& s.getM mb)
def execMor (md ma mb : MReg) (s : State) : Out := s.maskOp md (s.getM ma ||| s.getM mb)
def execMxor (md ma mb : MReg) (s : State) : Out := s.maskOp md (s.getM ma ^^^ s.getM mb)
def execMandn (md ma mb : MReg) (s : State) : Out := s.maskOp md (s.getM ma &&& ~~~(s.getM mb))
def execMnot (md ma : MReg) (s : State) : Out := s.maskOp md (~~~(s.getM ma))
def execMmov (md ma : MReg) (s : State) : Out := s.maskOp md (s.getM ma)
def execMsetall (md : MReg) (s : State) : Out := s.maskOp md (BitVec.allOnes 1024)
def execMclr (md : MReg) (s : State) : Out := s.maskOp md 0

def execMpopc (xd : XReg) (ma : MReg) (s : State) : Out :=
  finish do
    needVector s
    return (s.setX xd (BitVec.ofNat 64 (popBelow (s.getM ma) s.vlN))).retire

def execMfirst (xd : XReg) (ma : MReg) (s : State) : Out :=
  finish do
    needVector s
    let v : Word := match (List.range s.vlN).find? fun i => (s.getM ma).getLsbD i with
      | some i => BitVec.ofNat 64 i
      | none => BitVec.allOnes 64
    return (s.setX xd v).retire

end Sys2Proof.Machine
end

