-- ==== Sys2Proof/Machine/VArith.lean ====
section
/-! DEFINITION. Vector arithmetic, major opcode 0x20 (08_vector.md R163 to R165). -/

namespace Sys2Proof.Machine

/-- The checks of R157 for an instruction of vd, va and a third operand whose tags must be equal and admitted. -/
def vecChecks (s : State) (vd va : VReg) (b : Third) (ok : Tag → Bool) : Except Stop Tag := do
  pushGuard s [vCode vd]
  let t := (s.getV va).tag
  tagCheck (ok t && thirdTagIs s t b) s t (thirdTag s b) 0
  lenCheck s [t]
  return t

/-- An element operation on a tag of class FLT: the exact result, rounded once (R103, R163). -/
def fltElem (t : Tag) (mode : BitVec 3) (e : Val × Flags) : Nat × Flags :=
  let (r, f) := roundTo t mode e.1
  (r, e.2 ||| f)

/-- An instruction whose element is a function of a and b: on integers by `fi`, wrapped; on floating point by `ff`. -/
def State.vecBinary (s : State) (vd va : VReg) (b : Third) (fi : Tag → Int → Int → Int)
    (ff : Option (BitVec 3 → Val → Val → Val × Flags)) : Out :=
  finish do
    let t ← vecChecks s vd va b fun t => isInt t || (isFlt t && ff.isSome)
    let d := (s.getV va).data
    let mode := s.cc.rm
    let f (i : Nat) : Nat × Flags :=
      match isInt t, ff with
      | false, some g => fltElem t mode (g mode (valOf d t i) (thirdVal s mode t b i))
      | _, _ => (wrapBits (tagWidth t) (fi t (intAt d t i) (thirdInt s mode t b i)), 0)
    return s.joinImm b t (s.elemwise vd t f)

def execVadd (vd va : VReg) (b : Third) (s : State) : Out :=
  s.vecBinary vd va b (fun _ x y => x + y) (some fun m x y => addExact m x y)
def execVsub (vd va : VReg) (b : Third) (s : State) : Out :=
  s.vecBinary vd va b (fun _ x y => x - y) (some fun m x y => addExact m x y.neg)
def execVmul (vd va : VReg) (b : Third) (s : State) : Out :=
  s.vecBinary vd va b (fun _ x y => x * y) (some fun _ x y => mulExact x y)
def execVmulh (vd va : VReg) (b : Third) (s : State) : Out :=
  s.vecBinary vd va b (fun t x y => x * y / (2 ^ tagWidth t : Nat)) none

/-- Integer division of R164. -/
def divElem (x y : Int) : Int := if y = 0 then -1 else x.tdiv y

def execVdiv (vd va : VReg) (b : Third) (s : State) : Out :=
  s.vecBinary vd va b (fun _ x y => divElem x y) (some fun _ x y => divExact x y)

/-- VMIN and VMAX: the bits of the smaller or larger operand; floating point as FMIN and FMAX of R137. -/
def State.vecMinMax (s : State) (max : Bool) (vd va : VReg) (b : Third) : Out :=
  finish do
    let t ← vecChecks s vd va b fun t => isInt t || isFlt t
    let d := (s.getV va).data
    let mode := s.cc.rm
    let f (i : Nat) : Nat × Flags :=
      let x := bitsOf d t i
      let y := thirdBits s mode t b i
      if isInt t then
        let lt := decide (intAt d t i < thirdInt s mode t b i)
        (if lt == max then y else x, 0)
      else
        let (r, f) := minMaxNum max (valOf d t i) (thirdVal s mode t b i)
        (match r with
          | some false => x
          | some true => y
          | none => (fmtOf t).cnan.getD 0, f)
    return s.joinImm b t (s.elemwise vd t f)

def execVmin (vd va : VReg) (b : Third) (s : State) : Out := s.vecMinMax false vd va b
def execVmax (vd va : VReg) (b : Third) (s : State) : Out := s.vecMinMax true vd va b

/-- An instruction on the raw bits of integer elements. -/
def State.vecBits (s : State) (vd va : VReg) (b : Third) (g : Tag → Nat → Nat → Nat) (third : Tag → Nat → Nat) : Out :=
  finish do
    let t ← vecChecks s vd va b isInt
    let d := (s.getV va).data
    return s.elemwise vd t fun i => (g t (bitsOf d t i) (third t i), 0)

def execVand (vd va : VReg) (b : Third) (s : State) : Out :=
  s.vecBits vd va b (fun _ x y => x &&& y) fun t i => thirdBits s s.cc.rm t b i
def execVor (vd va : VReg) (b : Third) (s : State) : Out :=
  s.vecBits vd va b (fun _ x y => x ||| y) fun t i => thirdBits s s.cc.rm t b i
def execVxor (vd va : VReg) (b : Third) (s : State) : Out :=
  s.vecBits vd va b (fun _ x y => x ^^^ y) fun t i => thirdBits s s.cc.rm t b i
def execVsll (vd va : VReg) (b : Third) (s : State) : Out :=
  s.vecBits vd va b (fun t x y => x * 2 ^ (y % tagWidth t) % 2 ^ tagWidth t) fun t i => thirdUnsigned s t b i
def execVsrl (vd va : VReg) (b : Third) (s : State) : Out :=
  s.vecBits vd va b (fun t x y => x / 2 ^ (y % tagWidth t)) fun t i => thirdUnsigned s t b i
def execVsra (vd va : VReg) (b : Third) (s : State) : Out :=
  s.vecBits vd va b
    (fun t x y => wrapBits (tagWidth t) (intOf (isSigned t) (tagWidth t) x / (2 ^ (y % tagWidth t) : Nat)))
    fun t i => thirdUnsigned s t b i

/-- An integer instruction that saturates (R104). -/
def State.vecSat (s : State) (vd va : VReg) (b : Third) (g : Int → Int → Int) : Out :=
  s.vecBinary vd va b (fun t x y => satTo t (g x y)) none

def execVadds (vd va : VReg) (b : Third) (s : State) : Out := s.vecSat vd va b fun x y => x + y
def execVsubs (vd va : VReg) (b : Third) (s : State) : Out := s.vecSat vd va b fun x y => x - y
def execVabsd (vd va : VReg) (b : Third) (s : State) : Out :=
  s.vecBinary vd va b (fun t x y => satTo t (x - y).natAbs)
    (some fun m x y => let (r, f) := addExact m x y.neg; (r.abs, f))

/-! ### Multiply-accumulate (R109, R112, R165) -/

/-- The delivery of an accumulator and exact terms into the accumulator's tag: FP32 by acc_round, integers by R112. -/
def accDeliver (accsat : Bool) (mode : BitVec 3) (dt : Tag) (acc : Nat) (ps : List (Val × Flags)) : Nat × Flags :=
  let (s, f) := sumExact mode (fmtFP32.decode acc :: ps.map (·.1))
  let (r, g) := accRound accsat mode s
  if dt == tFP32 then (r, ps.foldl (fun a p => a ||| p.2) (f ||| g)) else (acc, 0)

/-- Whether an accumulator tag meets R165 for VMAC and VNMAC. -/
def macTags (t dt : Tag) : Bool :=
  if isFlt t then dt == tFP32 else isInt t && isInt dt && decide (tagWidth t ≤ tagWidth dt)

/-- VMAC and VNMAC: one product added to, or taken from, the accumulator in vd. -/
def State.vecMac (s : State) (vd va : VReg) (b : Third) (sub : Bool) : Out :=
  finish do
    pushGuard s [vCode vd]
    let t := (s.getV va).tag
    let dt := (s.getV vd).tag
    tagCheck (macTags t dt && thirdTagIs s t b) s t (thirdTag s b) dt
    lenCheck s [t, dt]
    let d := (s.getV va).data
    let e := (s.getV vd).data
    let mode := s.cc.rm
    let f (i : Nat) : Nat × Flags :=
      if isInt t then
        let p := intAt d t i * thirdInt s mode t b i
        (accInt s.cc.accsat dt (intAt e dt i + if sub then -p else p), 0)
      else
        let (p, g) := mulExact (valOf d t i) (thirdVal s mode t b i)
        accDeliver s.cc.accsat mode dt (slotOf e dt i) [(if sub then p.neg else p, g)]
    return s.joinImm b t (s.elemwise vd dt f)

def execVmac (vd va : VReg) (b : Third) (s : State) : Out := s.vecMac vd va b false
def execVnmac (vd va : VReg) (b : Third) (s : State) : Out := s.vecMac vd va b true

/-- VDOT4: four products and the accumulator with one rounding. -/
def execVdot4 (vd va vb : VReg) (s : State) : Out :=
  finish do
    pushGuard s [vCode vd]
    let t := (s.getV va).tag
    let dt := (s.getV vd).tag
    tagCheck (isNarrow t && (s.getV vb).tag == t && dt == (if isFlt t then tFP32 else tI32)) s t (s.getV vb).tag dt
    lenCheck s [t, dt]
    let d := (s.getV va).data
    let k := (s.getV vb).data
    let e := (s.getV vd).data
    let f (i : Nat) : Nat × Flags :=
      if isFlt t then
        accDeliver s.cc.accsat s.cc.rm dt (slotOf e dt i)
          ((List.range 4).map fun j => mulExact (valOf d t (4 * i + j)) (valOf k t (4 * i + j)))
      else
        let p := ((List.range 4).map fun j => intAt d t (4 * i + j) * intAt k t (4 * i + j)).sum
        (accInt s.cc.accsat dt (intAt e dt i + p), 0)
    return s.elemwise vd dt f

end Sys2Proof.Machine
end

