-- ==== Sys2Proof/Machine/VUnary.lean ====
section
/-! DEFINITION. Single-operand vector instructions, major opcode 0x21 (08_vector.md R166 to R168). -/

namespace Sys2Proof.Machine

/-- The checks of a single-operand instruction: the tag of va. -/
def unaryChecks (s : State) (vd va : VReg) (ok : Tag → Bool) : Except Stop Tag := do
  pushGuard s [vCode vd]
  let t := (s.getV va).tag
  tagCheck (ok t) s t 0 0
  lenCheck s [t]
  return t

/-- A floating-point code with its sign changed by `g`; a NaN gives the canonical NaN (R166). -/
def signElem (t : Tag) (g : Bool → Bool) (bits : Nat) : Nat × Flags :=
  let f := fmtOf t
  match f.decode bits with
  | .nan sig => (f.cnan.getD 0, flagIf sig fNV)
  | v => (f.code (g v.sign) (bits % 2 ^ (f.eb + f.mb)), 0)

/-- VNEG and VABS: on integers by `fi`, wrapped; on floating point by the sign. -/
def State.vecSign (s : State) (vd va : VReg) (fi : Int → Int) (g : Bool → Bool) : Out :=
  finish do
    let t ← unaryChecks s vd va fun t => isInt t || isFlt t
    let d := (s.getV va).data
    return s.elemwise vd t fun i =>
      if isInt t then (wrapBits (tagWidth t) (fi (intAt d t i)), 0) else signElem t g (bitsOf d t i)

def execVneg (vd va : VReg) (s : State) : Out := s.vecSign vd va (fun a => -a) (fun n => !n)
def execVabs (vd va : VReg) (s : State) : Out := s.vecSign vd va (fun a => a.natAbs) (fun _ => false)

/-- The functions of R167. -/
def State.vecFunc (s : State) (vd va : VReg) (g : Val → Val × Flags) : Out :=
  finish do
    let t ← unaryChecks s vd va isFlt
    let d := (s.getV va).data
    return s.elemwise vd t fun i => fltElem t s.cc.rm (g (valOf d t i))

def execVsqrt (vd va : VReg) (s : State) : Out := s.vecFunc vd va sqrtExact
def execVrcp (vd va : VReg) (s : State) : Out := s.vecFunc vd va rcpExact
def execVrsqrt (vd va : VReg) (s : State) : Out := s.vecFunc vd va rsqrtExact
def execVexp2 (vd va : VReg) (s : State) : Out := s.vecFunc vd va exp2Exact
def execVlog2 (vd va : VReg) (s : State) : Out := s.vecFunc vd va log2Exact

/-- The class bit of VCLASS (R166). -/
def classBit (t : Tag) (bits : Nat) : Nat :=
  let f := fmtOf t
  let normal := decide (0 < bits % 2 ^ (f.eb + f.mb) / 2 ^ f.mb)
  match f.decode bits with
  | .nan sig => if sig then 8 else 9
  | .inf n => if n then 0 else 7
  | .fin n m _ =>
    if m == 0 then (if n then 3 else 4)
    else if normal then (if n then 1 else 6)
    else if n then 2 else 5

def execVclass (vd va : VReg) (s : State) : Out :=
  finish do
    pushGuard s [vCode vd]
    let t := (s.getV va).tag
    tagCheck (isFlt t) s t 0 0
    lenCheck s [t, tUI16]
    let d := (s.getV va).data
    return s.elemwise vd tUI16 fun i => (2 ^ classBit t (bitsOf d t i), 0)

/-! ### Copies (R115, R168) -/

/-- Data with elements of a slot width copied from another register. -/
def copySlots (w : Nat) (old src : BitVec 8192) (is : List Nat) : Nat :=
  is.foldl (fun n i => setField n w i (fieldAt src.toNat w i)) old.toNat

/-- A side band with fields of n bits copied from another. -/
def copySide (n : Nat) (old src : BitVec 1024) (bs : List Nat) : Nat :=
  bs.foldl (fun a b => setField a n b (fieldAt src.toNat n b)) old.toNat

/-- The element groups that hold an element from vstart to vl − 1 (R115). -/
def touchedGroups (t : Tag) (vstart vl : Nat) : List Nat :=
  let epg := 512 / tagWidth t
  (List.range ((vl + epg - 1) / epg)).filter fun g => decide (vstart < vl ∧ vstart / epg ≤ g)

/-- The tail of a copied side band: groups at or above vl are zero. -/
def sideTail (t : Tag) (vl n : Nat) : BitVec 1024 :=
  let epg := 512 / tagWidth t
  BitVec.ofNat 1024 (n % 2 ^ (64 * ((vl + epg - 1) / epg)))

/-- VMOV: the side band of whole groups for a tag that is not SX, of blocks with an active element for one that is. -/
def State.vmovReg (s : State) (old src : VecReg) (t : Tag) : VecReg :=
  let data := tailZero (copySlots (tagWidth t) old.data src.data s.actives) (tagWidth t) s.vlN
  if isSx t then
    ⟨data, BitVec.ofNat 1024 (copySide 16 old.side src.side s.sxBlocks % 2 ^ (16 * ((s.vlN + 15) / 16))), t⟩
  else
    ⟨data, sideTail t s.vlN (copySide 64 old.side src.side (touchedGroups t s.cc.vstart.toNat s.vlN)), t⟩

def execVmov (vd va : VReg) (s : State) : Out :=
  finish do
    let t ← unaryChecks s vd va fun _ => true
    return ((s.putV vd (s.vmovReg (s.getV vd) (s.getV va) t)).takeVstart).retire

def execVbcast (vd : VReg) (tag : Tag) (b : Third) (s : State) : Out :=
  finish do
    pushGuard s [vCode vd]
    lenCheck s [tag]
    return s.joinImm b tag (s.elemwise vd tag fun i => (thirdBits s s.cc.rm tag b i, 0))

def execVtag (vd va : VReg) (tag : Tag) (s : State) : Out :=
  finish do
    pushGuard s [vCode vd]
    let t := (s.getV va).tag
    lenCheck s [t, tag]
    let is := s.allFrom
    let old := s.getV vd
    let src := s.getV va
    let v : VecReg :=
      ⟨tailZero (copySlots (tagWidth tag) old.data src.data is) (tagWidth tag) s.vlN,
       sideTail tag s.vlN (copySide 64 old.side src.side (touchedGroups tag s.cc.vstart.toNat s.vlN)), tag⟩
    return ((s.putV vd v).takeVstart).retire

/-- VSXNORM: no rounding is ever needed, so no flag is set. -/
def execVsxnorm (vd va : VReg) (s : State) : Out :=
  finish do
    let t ← unaryChecks s vd va isSx
    let src := s.getV va
    s.sxwise vd t 0 fun i => elemOr src t i

end Sys2Proof.Machine
end

