-- ==== Sys2Proof/Machine/VRed.lean ====
section
/-! DEFINITION. Reductions, major opcode 0x25 (08_vector.md R175), and best pairs, major opcode 0x26 (R176). -/

namespace Sys2Proof.Machine

/-- A vector register that holds one element of a tag; with vl = 0 that is tail too. -/
def firstOnly (t : Tag) (vl b : Nat) : VecReg := ⟨if vl = 0 then 0 else BitVec.ofNat 8192 (fillSlot t b), 0, t⟩

/-- The terms of a reduction: the active elements with vstart 0. -/
def State.terms (s : State) : List Nat := s.activeFrom 0

/-- The checks of a reduction: the tags of va and vb. -/
def redChecks (s : State) (vd va vb : VReg) (ok : Tag → Tag → Bool) : Except Stop (Tag × Tag) := do
  pushGuard s [vCode vd]
  let t := (s.getV va).tag
  let u := (s.getV vb).tag
  tagCheck (ok t u) s t u 0
  lenCheck s [t]
  return (t, u)

/-- The accumulator tag of VREDSUM for a tag of va. -/
def sumTag (t : Tag) : Tag := if isFlt t then tFP32 else if isSigned t then tI64 else tUI64

/-- VREDSUM.S and VREDSUM.F; on integers the two agree. -/
def State.vecSum (s : State) (strict : Bool) (vd va vb : VReg) : Out :=
  finish do
    let (t, u) ← redChecks s vd va vb fun t u => (isFlt t || isInt t) && u == sumTag t
    let d := (s.getV va).data
    let acc := slotOf (s.getV vb).data u 0
    if s.terms.isEmpty then return (s.putV vd (firstOnly u s.vlN acc)).retire
    else if isInt t then
      let n := intAt (s.getV vb).data u 0 + (s.terms.map fun i => intAt d t i).sum
      return (s.putV vd (firstOnly u s.vlN (accInt s.cc.accsat u n))).retire
    else
      let ps := s.terms.map fun i => (valOf d t i, flagIf (valOf d t i).isSig fNV)
      let (draw, s1) := if strict then (fun _ => 0, s) else s.draw
      let (r, f) := sumForm strict draw s.cc.accsat s.cc.rm acc ps
      return ((s1.putV vd (firstOnly u s.vlN r)).orFlags f).retire

def execVredsumS (vd va vb : VReg) (s : State) : Out := s.vecSum true vd va vb
def execVredsumF (vd va vb : VReg) (s : State) : Out := s.vecSum false vd va vb

/-- The better of two codes of a tag, as FMAX and FMIN on floating point. -/
def pickElem (t : Tag) (max : Bool) (x y : Nat) : Nat × Flags :=
  if isInt t then
    let a := intOf (isSigned t) (intBits t) x
    let b := intOf (isSigned t) (intBits t) y
    (if decide (a < b) == max then y else x, 0)
  else
    let (r, f) := minMaxNum max (decodeElem t x) (decodeElem t y)
    (match r with
      | some false => x
      | some true => y
      | none => (fmtOf t).cnan.getD 0, f)

/-- VREDMAX and VREDMIN. -/
def State.vecBest (s : State) (max : Bool) (vd va vb : VReg) : Out :=
  finish do
    let (t, _) ← redChecks s vd va vb fun t u => (isFlt t || isInt t) && u == t
    let d := (s.getV va).data
    let acc := bitsOf (s.getV vb).data t 0
    let (r, f) := s.terms.foldl (fun a i =>
      let (x, g) := pickElem t max a.1 (bitsOf d t i)
      (x, a.2 ||| g)) (acc, (0 : Flags))
    return ((s.putV vd (firstOnly t s.vlN r)).orFlags f).retire

def execVredmax (vd va vb : VReg) (s : State) : Out := s.vecBest true vd va vb
def execVredmin (vd va vb : VReg) (s : State) : Out := s.vecBest false vd va vb

/-- VREDAND, VREDOR and VREDXOR. -/
def State.vecLogic (s : State) (g : Nat → Nat → Nat) (vd va vb : VReg) : Out :=
  finish do
    let (t, _) ← redChecks s vd va vb fun t u => isInt t && u == t
    let d := (s.getV va).data
    let r := s.terms.foldl (fun a i => g a (bitsOf d t i)) (bitsOf (s.getV vb).data t 0)
    return (s.putV vd (firstOnly t s.vlN r)).retire

def execVredand (vd va vb : VReg) (s : State) : Out := s.vecLogic (fun a b => a &&& b) vd va vb
def execVredor (vd va vb : VReg) (s : State) : Out := s.vecLogic (fun a b => a ||| b) vd va vb
def execVredxor (vd va vb : VReg) (s : State) : Out := s.vecLogic (fun a b => a ^^^ b) vd va vb

/-- The lowest index of the best value of a list; NaN is passed over. -/
def argBest (max : Bool) (xs : List (Nat × Val)) : Option Nat :=
  ((xs.filter fun p => !p.2.isNan).foldl (fun (a : Option (Nat × Val)) p =>
    match a with
    | none => some p
    | some q => if (if max then ltTotal q.2 p.2 else ltTotal p.2 q.2) then some p else some q) none).map (·.1)

/-- VARGMAX and VARGMIN. -/
def State.vecArg (s : State) (max : Bool) (xd : XReg) (va : VReg) : Out :=
  finish do
    needVector s
    let t := (s.getV va).tag
    tagCheck (isInt t || isFlt t) s t 0 0
    lenCheck s [t]
    let xs := s.terms.map fun i => (i, valOf (s.getV va).data t i)
    let f : Flags := flagIf (xs.any fun p => p.2.isSig) fNV
    let r : Word := match xs with
      | [] => BitVec.allOnes 64
      | p :: _ => BitVec.ofNat 64 ((argBest max xs).getD p.1)
    return ((s.setX xd r).orFlags f).retire

def execVargmax (xd : XReg) (va : VReg) (s : State) : Out := s.vecArg true xd va
def execVargmin (xd : XReg) (va : VReg) (s : State) : Out := s.vecArg false xd va

/-! ### Best pairs -/

/-- better of R176: the candidate c with index ci against the value p with index pi. -/
def better (max : Bool) (c : Val) (ci : Int) (p : Val) (pi : Int) : Bool :=
  if c.isNan then p.isNan && decide (ci < pi)
  else if p.isNan then true
  else match cmpTotal c p with
    | .eq => decide (ci < pi)
    | .gt => max
    | .lt => !max

/-- VBEST: the elements where the candidate is better change places. -/
def State.vecPairs (s : State) (max : Bool) (vv vi vcv vci : VReg) : Out :=
  finish do
    pushGuard s [vCode vv, vCode vi, vCode vcv, vCode vci]
    let a := s.getV vv
    let ai := s.getV vi
    let c := s.getV vcv
    let ci := s.getV vci
    let tags := a.tag.toNat + 256 * c.tag.toNat + 65536 * ai.tag.toNat + 2 ^ 24 * ci.tag.toNat
    if !((isInt a.tag || isFlt a.tag) && c.tag == a.tag && isInt ai.tag && ci.tag == ai.tag) then
      .error (.trap s { cause := cTag, tval := BitVec.ofNat 64 tags })
    else
      lenCheck s [a.tag, c.tag, ai.tag, ci.tag]
      let t := a.tag
      let u := ai.tag
      let swaps := s.actives.filter fun i =>
        better max (valOf c.data t i) (intAt ci.data u i) (valOf a.data t i) (intAt ai.data u i)
      let f : Flags := flagIf (s.actives.any fun i => (valOf c.data t i).isSig || (valOf a.data t i).isSig) fNV
      let put (st : State) (r : VReg) (old src : VecReg) (k : Tag) : State :=
        st.putV r (writeElems old k s.cc.vstart.toNat s.vlN (swaps.map fun i => (i, bitsOf src.data k i)))
      let s1 := put (put (put (put s vv a c t) vi ai ci u) vcv c a t) vci ci ai u
      return ((s1.orFlags f).takeVstart).retire

def execVbestMax (vv vi vcv vci : VReg) (s : State) : Out := s.vecPairs true vv vi vcv vci
def execVbestMin (vv vi vcv vci : VReg) (s : State) : Out := s.vecPairs false vv vi vcv vci

end Sys2Proof.Machine
end

