-- ==== Sys2Proof/Machine/Tile.lean ====
section
/-! DEFINITION. Tile registers and the instructions on them that are no macro-operations, major opcode 0x48
(09_tiles.md R179 to R194). -/

namespace Sys2Proof.Machine

/-! ### Configurations (R179, R180) -/

/-- The fields of a configuration word. -/
def cfgRows (w : BitVec 32) : Nat := (w.extractLsb' 0 8).toNat + 1
def cfgCols (w : BitVec 32) : Nat := (w.extractLsb' 8 8).toNat + 1
def cfgTag (w : BitVec 32) : Tag := w.extractLsb' 16 5
def cfgFactored (w : BitVec 32) : Bool := w.getLsbD 21
def cfgMaxRank (w : BitVec 32) : Nat := (w.extractLsb' 24 6).toNat

/-- The tags that a dense tile admits. -/
def denseTag (t : Tag) : Bool :=
  t == tFP32 || t == tI32 || t == tBF16 || t == tFP16 || t == tE4M3 || t == tE5M2 || t == tE2M1 || t.toNat == 1 || t == tI4 ||
  isSx t

/-- Whether a tag has a scale array (R179). -/
def scaleTag (t : Tag) : Bool := t == tE4M3 || t == tE5M2 || t == tE2M1

/-- Whether a configuration word is valid. -/
def cfgOk (w : Word) : Bool :=
  let c : BitVec 32 := w.setWidth 32
  decide (w.toNat < 2 ^ 30) && c.extractLsb' 22 2 == 0 &&
  (if cfgFactored c then cfgTag c == tFP32 && cfgMaxRank c != 0
   else denseTag (cfgTag c) && cfgMaxRank c == 0 && (!isSx (cfgTag c) || cfgCols c % 16 == 0))

/-- Bytes of one row of a dense tile in memory (R180, R198). -/
def rowBytes (t : Tag) (cols : Nat) : Nat := if isSx t then cols / 16 * sxBytes t else (cols * memBits t + 7) / 8

/-- Elements of the scale array: one for each 32 rows of a column (R180, R191). -/
def scaleCount (w : BitVec 32) : Nat := (cfgRows w + 31) / 32 * cfgCols w

/-- Bytes of the body of an image (R198); those of R180 before they are rounded up. -/
def bodyBytes (w : BitVec 32) : Nat :=
  if cfgFactored w then (cfgRows w + cfgCols w) * cfgMaxRank w * 4
  else cfgRows w * rowBytes (cfgTag w) (cfgCols w) + (if scaleTag (cfgTag w) then scaleCount w else 0)

/-- Bytes of the tile store that a configuration occupies (R180). -/
def occupancy (w : BitVec 32) : Nat := (bodyBytes w + 2047) / 2048 * 2048

/-- Bytes that a context's tiles other than one occupy. -/
def ControlCore.othersOccupy (c : ControlCore) (td : TReg) : Nat :=
  ((List.range 8).filter (· != td.toNat)).foldl (fun a k =>
    a + match (c.t[k]?.getD {}).cfg with | some w => occupancy w | none => 0) 0

/-! ### Tiles -/

def State.getT (s : State) (n : TReg) : Tile := s.cc.t[n.toNat]
def State.putT (s : State) (n : TReg) (t : Tile) : State := s.modCc fun c => { c with t := c.t.set n.toNat t }

def Tile.word (t : Tile) : BitVec 32 := t.cfg.getD 0
def Tile.nrows (t : Tile) : Nat := cfgRows t.word
def Tile.ncols (t : Tile) : Nat := cfgCols t.word
def Tile.tag (t : Tile) : Tag := cfgTag t.word
def Tile.factored (t : Tile) : Bool := cfgFactored t.word
def Tile.rank (t : Tile) : Nat := t.us.length

/-- A row of a dense tile as a vector register holds it. -/
def Tile.row (t : Tile) (i : Nat) : VecReg := let r := tget {} t.rows i; ⟨r.data, r.side, t.tag⟩
def Tile.putRow (t : Tile) (i : Nat) (v : VecReg) : Tile := { t with rows := tput {} t.rows i ⟨v.data, v.side⟩ }

/-- The data of elements 0 to n − 1 under a tag, zero above. -/
def packElems (t : Tag) (n : Nat) (f : Nat → Nat) : BitVec 8192 :=
  BitVec.ofNat 8192 ((List.range n).foldl (fun a i => setField a (tagWidth t) i (fillSlot t (f i))) 0)

/-- FP32 bits i of a factor. -/
def factorBits (u : List (BitVec 32)) (i : Nat) : BitVec 32 := u[i]?.getD 0
/-- Its value. -/
def factorVal (u : List (BitVec 32)) (i : Nat) : Val := fmtFP32.decode (factorBits u i).toNat

/-- The exact terms u_j[i] v_j[k] of an element of a factored tile. -/
def Tile.terms (t : Tile) (i k : Nat) : List (Val × Flags) :=
  (t.us.zip t.vs).map fun p => mulExact (factorVal p.1 i) (factorVal p.2 k)

/-- An element of a factored tile with one rounding of the exact sum (R189, R194). -/
def Tile.entry (t : Tile) (mode : BitVec 3) (i k : Nat) : Nat × Flags :=
  let ps := t.terms i k
  let (v, g) := sumExact mode (ps.map (·.1))
  let (r, h) := fmtFP32.round mode v
  (r, ps.foldl (fun a p => a ||| p.2) (g ||| h))

/-- The scale code of element (k, n): 127 where none is attached (R191, R196). -/
def Tile.scaleAt (t : Tile) (k n : Nat) : Byte := if t.scaled then t.scales[k / 32 * t.ncols + n]?.getD 127 else 127

/-! ### Checks (R183) -/

/-- "tile configuration conflict". Where an instruction names two tiles and both meet reason 4 or 5, TVAL names td
(log 49). -/
def conflict {α : Type} (s : State) (reason : Nat) (td : TReg) : Except Stop α :=
  .error (.trap s { cause := cTile, tval := BitVec.ofNat 64 (256 * reason + td.toNat) })
def conflictIf (b : Bool) (s : State) (reason : Nat) (td : TReg) : Except Stop Unit := if b then conflict s reason td else .ok ()

/-- Steps 1 and 2, and reason 2 of step 3. -/
def tileGuard (s : State) (dsts : List Nat) (tiles : List TReg) : Except Stop Unit := do
  pushGuard s dsts
  match tiles.find? fun t => (s.getT t).cfg.isNone with
  | some t => conflict s 2 t
  | none => return ()

/-! ### TCFG, TREL, TZERO, TRANK -/

def execTcfg (td : TReg) (xa : XReg) (s : State) : Out :=
  finish do
    pushGuard s [tCode td]
    let w := s.getX xa
    conflictIf (s.getT td).inUse s 0 td
    conflictIf (!cfgOk w) s 3 td
    conflictIf (decide (131072 < s.cc.othersOccupy td + occupancy (w.setWidth 32))) s 1 td
    return (s.putT td { cfg := some (w.setWidth 32) }).retire

def execTrel (td : TReg) (s : State) : Out :=
  finish do
    pushGuard s [tCode td]
    return (s.putT td {}).retire

def execTzero (td : TReg) (s : State) : Out :=
  finish do
    tileGuard s [tCode td] [td]
    return (s.putT td { cfg := (s.getT td).cfg, inUse := true }).retire

/-- TRANK's word (R193). -/
def Tile.rankWord (t : Tile) : Word :=
  match t.cfg with
  | none => 0
  | some w => BitVec.ofNat 64 (t.rank + (if t.factored then 256 else 0) + (if t.inUse then 512 else 0) + 1024 +
      (if t.scaled then 2048 else 0) + 2 ^ 32 * w.toNat)

def execTrank (td : TReg) (xd : XReg) (s : State) : Out :=
  finish do
    needVector s
    return (s.setX xd (s.getT td).rankWord).retire

/-! ### Outer products (R186, R187) -/

/-- The tags of TOPA and TOPS. -/
def outerTags (t : Tile) (a b : Tag) : Bool :=
  a == b &&
  (if t.factored || t.tag == tFP32 then isFlt a
   else t.tag == tI32 && (a.toNat == 1 || a.toNat == 2 || a.toNat == 3 || a.toNat == 4 || a == tI4))

/-- A value as FP32 bits, exactly. -/
def asFP32 (v : Val) : BitVec 32 := BitVec.ofNat 32 (fmtFP32.round 0 v).1

/-- One accumulated element of a dense tile: FP32 by acc_round, I32 by R112. `free` is drawn for a sum that is no
integer, which terms without scales never give. -/
def denseAcc (c : ControlCore) (t : Tag) (free old : Nat) (ps : List (Val × Flags)) : Nat × Flags :=
  if t == tFP32 then accDeliver c.accsat c.rm tFP32 old ps
  else (accTerms c.accsat t free (intOf true 32 old) (ps.map (·.1)), 0)

/-- Rows 0 to r − 1 of a dense tile made anew: each element from its old bits. -/
def Tile.mapDense (t : Tile) (f : Nat → Nat → Nat → Nat × Flags) : Tile × Flags :=
  (List.range t.nrows).foldl (fun acc i =>
    let v := acc.1.row i
    let rs := (List.range t.ncols).map fun k => f i k (slotOf v.data t.tag k)
    (acc.1.putRow i { v with data := packElems t.tag t.ncols fun k => ((rs[k]?).getD (0, 0)).1 },
      rs.foldl (fun g r => g ||| r.2) acc.2)) (t, 0)

/-- TOPA, and TOPS with `sub`. -/
def State.outer (s : State) (sub : Bool) (td : TReg) (va vb : VReg) : Out :=
  finish do
    tileGuard s [tCode td] [td]
    let t := s.getT td
    let a := s.getV va
    let b := s.getV vb
    tagCheck (outerTags t a.tag b.tag) s a.tag b.tag t.tag
    let sg (v : Val) : Val := if sub then v.neg else v
    if t.factored then
      if t.rank = cfgMaxRank t.word then
        .error (.trap s { cause := cRank, tval := BitVec.ofNat 64 (td.toNat + 256 * t.rank) })
      else
        let u := (List.range t.nrows).map fun i => asFP32 (sg (valOf a.data a.tag i))
        let v := (List.range t.ncols).map fun k => asFP32 (valOf b.data b.tag k)
        return (s.putT td { t with us := t.us ++ [u], vs := t.vs ++ [v], inUse := true }).retire
    else
      let (t1, f) := t.mapDense fun i k old =>
        let (p, g) := mulExact (valOf a.data a.tag i) (valOf b.data b.tag k)
        denseAcc s.cc t.tag 0 old [(sg p, g)]
      return ((s.putT td { t1 with inUse := true }).orFlags f).retire

def execTopa (td : TReg) (va vb : VReg) (s : State) : Out := s.outer false td va vb
def execTops (td : TReg) (va vb : VReg) (s : State) : Out := s.outer true td va vb

/-! ### TDENSE, TADD, TSCALE (R189 to R191) -/

def execTdense (td : TReg) (s : State) : Out :=
  finish do
    tileGuard s [tCode td] [td]
    let t := s.getT td
    if !t.factored then return s.retire
    else
      let w : BitVec 32 := t.word &&& 0x001FFFFF#32
      conflictIf (decide (131072 < s.cc.othersOccupy td + occupancy w)) s 1 td
      let (d, f) := Tile.mapDense { cfg := some w, inUse := true } fun i k _ => t.entry s.cc.rm i k
      return ((s.putT td d).orFlags f).retire

/-- The elementwise sum of two dense tiles of one tag: I32 as integers, FP32 by acc_round. -/
def addDense (c : ControlCore) (t : Tag) (old other : Nat) : Nat × Flags :=
  denseAcc c t 0 old [(decodeElem t other, flagIf (decodeElem t other).isSig fNV)]

def execTadd (td ts : TReg) (s : State) : Out :=
  finish do
    tileGuard s [tCode td] [td, ts]
    let t := s.getT td
    let u := s.getT ts
    conflictIf (t.nrows != u.nrows || t.ncols != u.ncols) s 4 td
    conflictIf ((t.factored && !u.factored) || (!t.factored && u.factored && t.tag != tFP32)) s 5 td
    tagCheck (t.factored || u.factored || ((t.tag == tFP32 || t.tag == tI32) && u.tag == t.tag)) s 0 u.tag t.tag
    if t.factored then
      if cfgMaxRank t.word < t.rank + u.rank then
        .error (.trap s { cause := cRank, tval := BitVec.ofNat 64 (td.toNat + 256 * t.rank) })
      else return (s.putT td { t with us := t.us ++ u.us, vs := t.vs ++ u.vs, inUse := true }).retire
    else
      let (t1, f) := t.mapDense fun i k old =>
        if u.factored then accDeliver s.cc.accsat s.cc.rm tFP32 old (u.terms i k)
        else addDense s.cc t.tag old (slotOf (u.row i).data u.tag k)
      return ((s.putT td { t1 with inUse := true }).orFlags f).retire

def execTscale (td : TReg) (va : VReg) (s : State) : Out :=
  finish do
    tileGuard s [tCode td] [td]
    let t := s.getT td
    conflictIf (t.factored || !scaleTag t.tag) s 5 td
    let a := s.getV va
    tagCheck (a.tag == tE8M0) s a.tag 0 t.tag
    let cs := (List.range (scaleCount t.word)).map fun i => BitVec.ofNat 8 (slotOf a.data tE8M0 i)
    return (s.putT td { t with scales := cs, scaled := true, inUse := true }).retire

/-! ### Products with vectors (R192) -/

/-- The draws of the i-th of several free sums. -/
def subDraw (draw : Nat → Nat) (i : Nat) : Nat → Nat := fun k => draw (k + 2 ^ 24 * i)

/-- The value of an element that an operation uses; a reserved code traps at its index (R100). -/
def useElem (s : State) (v : VecReg) (t : Tag) (i : Nat) : Except Stop Val :=
  match elemVal v t i with
  | some x => .ok x
  | none => reservedCode s i (slotOf v.data t i)

/-- The vector destination of a tile instruction: elements 0 to m − 1, tail above. -/
def tileVec (t : Tag) (es : List Nat) : VecReg := ⟨packElems t es.length fun i => es[i]?.getD 0, 0, t⟩

/-- The products of one element of a dense TMV: row or column i of the tile against x. -/
def denseTerms (s : State) (t : Tile) (trans : Bool) (x : VecReg) (i n : Nat) : Except Stop (List (Val × Flags)) :=
  (List.range n).foldlM (fun acc k => do
    let (r, c) := if trans then (k, i) else (i, k)
    let a ← useElem s (t.row r) t.tag c
    let b ← useElem s x x.tag k
    return acc ++ [scaledProduct a (t.scaleAt r c) b 127]) []

/-- TMV, and TMVT with `trans`. -/
def State.tileVecMul (s : State) (trans : Bool) (td : TReg) (va vd : VReg) : Out :=
  finish <| precise s do
    tileGuard s [vCode vd] [td]
    let t := s.getT td
    let x := s.getV va
    tagCheck (if t.factored then isFlt x.tag else x.tag == t.tag) s x.tag 0 t.tag
    let m := if trans then t.ncols else t.nrows
    let n := if trans then t.nrows else t.ncols
    let c := s.cc
    let (draw, s1) := s.draw
    if t.factored then
      let us := if trans then t.vs else t.us
      let vs := if trans then t.us else t.vs
      let ws := (vs.zip (List.range vs.length)).map fun (p : List (BitVec 32) × Nat) =>
        sumFreeTerms (subDraw draw p.2) c.accsat c.rm
          ((List.range n).map fun k => mulExact (factorVal p.1 k) (valOf x.data x.tag k))
      let rs := (List.range m).map fun i =>
        sumFree (subDraw draw (vs.length + i)) c.accsat c.rm 0
          ((us.zip ws).map fun (p : List (BitVec 32) × (Nat × Flags)) => mulExact (factorVal p.1 i) (fmtFP32.decode p.2.1))
      let f := (ws ++ rs).foldl (fun (a : Flags) r => a ||| r.2) 0
      return ((s1.putV vd (tileVec tFP32 (rs.map (·.1)))).orFlags f).retire
    else
      let int := isInt t.tag || t.tag == tI4
      let rs ← (List.range m).foldlM (fun acc i => do
        let ps ← denseTerms s t trans x i n
        return acc ++ [if int then denseAcc c tI32 0 0 ps else sumFree (subDraw draw i) c.accsat c.rm 0 ps]) []
      let f := rs.foldl (fun (a : Flags) r => a ||| r.2) 0
      return ((s1.putV vd (tileVec (if int then tI32 else tFP32) (rs.map (·.1)))).orFlags f).retire

def execTmv (td : TReg) (va vd : VReg) (s : State) : Out := s.tileVecMul false td va vd
def execTmvt (td : TReg) (va vd : VReg) (s : State) : Out := s.tileVecMul true td va vd

/-! ### Rows (R194) -/

def execTrdrow (td : TReg) (vd : VReg) (xb : XReg) (s : State) : Out :=
  finish do
    tileGuard s [vCode vd] [td]
    let t := s.getT td
    let n := (s.getX xb).toNat
    if t.nrows ≤ n then return (s.putV vd ⟨0, 0, t.tag⟩).retire
    else if t.factored then
      let rs := (List.range t.ncols).map fun k => t.entry s.cc.rm n k
      return ((s.putV vd (tileVec tFP32 (rs.map (·.1)))).orFlags (rs.foldl (fun (a : Flags) r => a ||| r.2) 0)).retire
    else return (s.putV vd (t.row n)).retire

def execTwrrow (td : TReg) (va : VReg) (xb : XReg) (s : State) : Out :=
  finish do
    tileGuard s [tCode td] [td]
    let t := s.getT td
    conflictIf t.factored s 5 td
    let a := s.getV va
    tagCheck (a.tag == t.tag) s a.tag 0 t.tag
    let n := (s.getX xb).toNat
    if t.nrows ≤ n then return s.retire
    else
      let side : BitVec 1024 := if isSx t.tag then BitVec.ofNat 1024 (a.side.toNat % 2 ^ t.ncols) else 0
      let v : VecReg := ⟨packElems t.tag t.ncols fun i => bitsOf a.data t.tag i, side, t.tag⟩
      return (s.putT td { t.putRow n v with inUse := true, scaled := false, scales := [] }).retire

end Sys2Proof.Machine
end

