-- ==== Sys2Proof/Machine/Recomp.lean ====
section
/-! DEFINITION. TRECOMP (09_tiles.md R188), exactly: the eigenvalues of the integer matrix T^T T as roots of a monic integer
polynomial, held apart by intervals, and every sign of a number of the field that such a root spans by Tarski's query on a
Sturm sequence. The factors are never approximated: each delivered entry is the rounding of the exact entry. -/

namespace Sys2Proof.Machine

/-! ### Integer polynomials, lowest coefficient first -/

abbrev Poly := List Int

def ptrim (p : Poly) : Poly := (p.reverse.dropWhile (· == 0)).reverse
def padd : Poly → Poly → Poly
  | [], q => q
  | p, [] => p
  | a :: p, b :: q => (a + b) :: padd p q
def pscale (c : Int) (p : Poly) : Poly := p.map (c * ·)
def psub (p q : Poly) : Poly := padd p (pscale (-1) q)
def pmul : Poly → Poly → Poly
  | [], _ => []
  | a :: p, q => padd (pscale a q) (0 :: pmul p q)
def plead (p : Poly) : Int := (ptrim p).getLast?.getD 0
def pderiv (p : Poly) : Poly := (p.drop 1).zipWith (fun a (i : Nat) => a * ((i : Int) + 1)) (List.range p.length)

/-- p divided by its content. -/
def pprim (p : Poly) : Poly :=
  let g : Nat := p.foldl (fun g a => Nat.gcd g a.natAbs) 0
  if g ≤ 1 then ptrim p else ptrim (p.map (· / (g : Int)))

/-- A positive multiple of the remainder of a by b. -/
def prem : Nat → Poly → Poly → Poly
  | 0, a, _ => a
  | f + 1, a, b =>
    let a := ptrim a
    let b := ptrim b
    if b.isEmpty || decide (a.length < b.length) then a
    else
      let lb := plead b
      let la := plead a
      let k := a.length - b.length
      let t : Poly := List.replicate k 0 ++ pscale (if lb < 0 then -la else la) b
      prem f (pprim (ptrim (psub (pscale lb.natAbs a) t))) b

/-- A greatest common divisor over the rationals, primitive. -/
def pgcd : Nat → Poly → Poly → Poly
  | 0, a, _ => a
  | f + 1, a, b => if (ptrim b).isEmpty then pprim a else pgcd f (pprim b) (prem (a.length + 1) a b)

/-- The remainder of a by a monic q. -/
def pmod : Nat → Poly → Poly → Poly
  | 0, _, a => a
  | f + 1, q, a =>
    let a := ptrim a
    if a.length < q.length then a
    else pmod f q (psub a (List.replicate (a.length - q.length) 0 ++ pscale (plead a) q))

/-- The quotient of a by a monic q that divides it. -/
def pquot : Nat → Poly → Poly → Poly
  | 0, _, _ => []
  | f + 1, q, a =>
    let a := ptrim a
    if a.length < q.length then []
    else
      let t : Poly := List.replicate (a.length - q.length) 0 ++ [plead a]
      padd t (pquot f q (psub a (pmul t q)))

/-- The squarefree part of a monic polynomial, monic. -/
def psquarefree (q : Poly) : Poly :=
  let g := pgcd (q.length + 1) q (pderiv q)
  let g := if plead g < 0 then pscale (-1) g else g
  pquot (q.length + 1) g q

/-! ### Signs at a root -/

/-- A number n / 2^k. -/
structure Dyad where
  n : Int
  k : Nat
  deriving DecidableEq, Repr

/-- The value of p at a dyadic number, times a positive power of two. -/
def peval (p : Poly) (x : Dyad) : Int :=
  let d := (ptrim p).length
  ((ptrim p).zip (List.range d)).foldl (fun acc c => acc + c.1 * x.n ^ c.2 * (2 ^ (x.k * (d - 1 - c.2)) : Nat)) 0

/-- The Sturm sequence that begins with a and b. -/
def sturm : Nat → Poly → Poly → List Poly
  | 0, a, _ => [a]
  | f + 1, a, b => if (ptrim b).isEmpty then [a] else a :: sturm f b (pscale (-1) (prem (a.length + 1) a b))

/-- The variations of sign of a list, zeros passed over. -/
def variations (xs : List Int) : Nat :=
  let ys := xs.filter (· != 0)
  ((ys.zip (ys.drop 1)).filter fun p => decide (p.1 < 0) != decide (p.2 < 0)).length

def variationsAt (seq : List Poly) (x : Dyad) : Nat := variations (seq.map fun p => peval p x)

/-- An eigenvalue: the one root of p in the open interval (lo, hi), whose ends are no roots. -/
structure Root where
  p  : Poly
  lo : Dyad
  hi : Dyad
  deriving DecidableEq, Repr

/-- The sign of f at a root: Tarski's query. -/
def Root.sign (r : Root) (f : Poly) : Int :=
  let g := prem (f.length + r.p.length + 1) (pmul (pderiv r.p) f) r.p
  let seq := sturm (r.p.length + 1) r.p g
  (variationsAt seq r.lo : Int) - variationsAt seq r.hi

/-- A point of (lo, hi) near the middle that is no root of p. -/
def between (p : Poly) (lo hi : Dyad) : Dyad :=
  let k := max lo.k hi.k
  let a := lo.n * (2 ^ (k - lo.k) : Nat)
  let b := hi.n * (2 ^ (k - hi.k) : Nat)
  let s := Nat.log2 (p.length + 1) + 3
  let pt (i : Nat) : Dyad := ⟨a * (2 ^ s : Nat) + (b - a) * (i : Nat), k + s⟩
  let mid : Dyad := ⟨a + b, k + 1⟩
  if peval p mid != 0 then mid
  else ((((List.range (p.length + 1)).map fun j => pt (2 ^ (s - 1) + 1 + j)).find? fun x => peval p x != 0).getD mid)

/-- The roots of p in (lo, hi), descending, each in an interval of its own. -/
def isolate (p : Poly) (seq : List Poly) : Nat → Dyad → Dyad → List Root
  | 0, _, _ => []
  | f + 1, lo, hi =>
    let c := variationsAt seq lo - variationsAt seq hi
    if c = 0 then []
    else if c = 1 then [⟨p, lo, hi⟩]
    else
      let m := between p lo hi
      isolate p seq f m hi ++ isolate p seq f lo m

/-- The interval of a root halved so many times; its ends meet where a middle is the root. -/
def Root.narrow (r : Root) : Nat → Root
  | 0 => r
  | f + 1 =>
    let k := max r.lo.k r.hi.k
    let m : Dyad := ⟨r.lo.n * (2 ^ (k - r.lo.k) : Nat) + r.hi.n * (2 ^ (k - r.hi.k) : Nat), k + 1⟩
    let v := peval r.p m
    if v == 0 then { r with lo := m, hi := m }
    else if decide (v < 0) == decide (peval r.p r.lo < 0) then Root.narrow { r with lo := m } f
    else Root.narrow { r with hi := m } f

/-- A sum of dyadic numbers, as a multiple of 2^-k. -/
def dyadSum (k : Nat) (ds : List Dyad) : Int := ds.foldl (fun (a : Int) d => a + d.n * (2 ^ (k - d.k) : Nat)) 0

/-- Whether the sum of the roots' lower or upper ends exceeds n / 2^k, with every interval narrowed to 2^-bits. -/
def endsExceed (rs : List Root) (bits : Nat) (n : Int) (k : Nat) : Bool × Bool :=
  let ns := rs.map fun r => r.narrow (bits + Nat.log2 (r.hi.n.natAbs + 1) + 1)
  let top (ds : List Dyad) : Bool :=
    let m := ds.foldl (fun a d => max a d.k) k
    decide (n * (2 ^ (m - k) : Nat) < dyadSum m ds)
  (top (ns.map Root.lo), top (ns.map Root.hi))

/-- Bits to which roots must be known for the sum of m of the c roots of a monic integer polynomial to differ from n / 2^k
by more than their errors wherever it differs at all: 2^k times the difference is an algebraic integer with at most
`c.choose m` conjugates, none above 2^k times the trace plus |n|. -/
def separation (c m : Nat) (trace n : Int) (k : Nat) : Nat :=
  c.choose m * (Nat.log2 (trace.natAbs * 2 ^ k + n.natAbs + 1) + 1) + k + m + 1

/-- Whether the sum of some of the c roots exceeds n / 2^k, exactly: intervals of 2^-512 decide where the bound lies
outside them, else those of `separation`. -/
def sumExceeds (c : Nat) (trace : Int) (rs : List Root) (n : Int) (k : Nat) : Bool :=
  match endsExceed rs 512 n k with
  | (true, _) => true
  | (false, false) => false
  | (false, true) => (endsExceed rs (separation c rs.length trace n k) n k).1

/-! ### Matrices of integers -/

abbrev IMat := List (List Int)

def idot (a b : List Int) : Int := (a.zipWith (· * ·) b).foldl (· + ·) 0
def ientry (m : IMat) (i j : Nat) : Int := (m[i]?.getD [])[j]?.getD 0
def itrans (m : IMat) (cols : Nat) : IMat := (List.range cols).map fun j => m.map fun r => r[j]?.getD 0
def imul (a b : IMat) (cols : Nat) : IMat := let t := itrans b cols; a.map fun r => t.map fun c => idot r c
def ivec (a : IMat) (v : List Int) : List Int := a.map fun r => idot r v
def itrace (m : IMat) : Int := (List.range m.length).foldl (fun a i => a + ientry m i i) 0

/-- The characteristic polynomial of an n × n matrix, by Faddeev and LeVerrier: coefficients from the leading one down. -/
def charpolyDown (a : IMat) (n : Nat) : Nat → IMat → Int → List Int
  | 0, _, c => [c]
  | f + 1, m, c =>
    -- m is M_{k-1} and c the coefficient c_{n-k+1}
    let am := imul a m n
    let mk : IMat := (List.range n).map fun i => (List.range n).map fun j => ientry am i j + if i = j then c else 0
    let k : Int := n - f
    let c' := -(itrace (imul a mk n)) / k
    c :: charpolyDown a n f mk c'

def charpoly (a : IMat) (n : Nat) : Poly := (charpolyDown a n n (List.replicate n (List.replicate n 0)) 1).reverse

/-! ### TRECOMP -/

/-- A finite FP32 number as a multiple of 2^-149. -/
def unitsOf (b : BitVec 32) : Int :=
  match fmtFP32.decode b.toNat with
  | .fin n m e => dyAt (-149) n m e
  | _ => 0

/-- A vector of a singular subspace: P' e_k as numerators over a denominator, in the field of a root. -/
structure SVec where
  root : Root
  k    : Nat
  vec  : List Poly
  den  : Poly

/-- c_j of (m(A) − m(x)) / (A − x) for m = x q: the coefficients of m above j. -/
def upper (m : Poly) (j : Nat) : Poly := m.drop (j + 1)

/-- The columns A^1 e_k, A^2 e_k, …, A^n e_k. -/
def krylov (a : List Int → List Int) : Nat → List Int → List (List Int)
  | 0, _ => []
  | f + 1, v => let w := a v; w :: krylov a f w

/-- The projection of e_k onto the subspace of a root, times m'(root). -/
def projCol (q : Poly) (a : List Int → List Int) (cols k : Nat) : List Poly :=
  let m : Poly := 0 :: q
  let e : List Int := (List.range cols).map fun i => if i = k then 1 else 0
  let ks := krylov a (q.length - 1) e
  let zero : List Poly := List.replicate cols []
  (ks.zip (List.range ks.length)).foldl (fun acc p =>
    (acc.zip p.1).map fun x => padd x.1 (pscale x.2 (upper m (p.2 + 1)))) zero

/-- The Gram–Schmidt bases of a root's subspace (R188), vectors in the order found. -/
def subspace (q : Poly) (a : List Int → List Int) (cols : Nat) (r : Root) : List SVec :=
  let red (p : Poly) : Poly := pmod (p.length + 1) q p
  let d := red (pderiv (0 :: q))
  (List.range cols).foldl (fun basis k =>
    let start : List Poly × Poly := (projCol q a cols k, d)
    let (vec, den) := basis.foldl (fun (w : List Poly × Poly) b =>
      let bk := b.vec[k]?.getD []
      let db := red (pmul b.den (b.vec[b.k]?.getD []))
      ((w.1.zip b.vec).map fun x => red (psub (pmul x.1 db) (red (pmul (red (pmul x.2 bk)) w.2))), red (pmul w.2 db))) start
    if r.sign (vec[k]?.getD []) == 0 then basis else basis ++ [⟨r, k, vec, den⟩]) []

/-- The exact value sgn(N den) sqrt(N^2 / (den vec_k)) 2^e with the last bits standing for the rest: a value that every
rounding to FP32 treats as the exact one. An exact zero is +0 in every rounding mode (DESIGN CHOICE, log 25). -/
def rootVal (q : Poly) (w : SVec) (num : Poly) (e : Int) : Val :=
  let red (p : Poly) : Poly := pmod (p.length + 1) q p
  let sg := w.root.sign num * w.root.sign w.den
  if sg == 0 then .fin false 0 0
  else
    let n2 := red (pmul num num)
    let g := red (pmul w.den (w.vec[w.k]?.getD []))
    -- the order of N^2 2^(2e) against c^2 g for c = m 2^f
    let cmp (m : Nat) (f : Int) : Int :=
      let s := min (2 * e) (2 * f)
      w.root.sign (psub (pscale (2 ^ (2 * e - s).toNat : Nat) n2) (pscale ((m * m * 2 ^ (2 * f - s).toNat : Nat) : Int) g))
    let mag (c : Nat) : Nat × Int := match fmtFP32.decode c with | .fin _ m f => (m, f) | _ => (2 ^ 24, 104)
    -- the largest code whose value does not exceed the entry
    let code := (List.range 31).foldl (fun c i =>
      let t := c + 2 ^ (30 - i)
      if 0x7F800000 < t then c
      else let (m, f) := mag t; if cmp m f < 0 then c else t) 0
    let (m, f) := mag code
    let j := (List.range 3).foldl (fun j i => let t := j + 2 ^ (2 - i); if cmp (8 * m + t) (f - 3) < 0 then j else t) 0
    let n := 8 * m + j
    if cmp n (f - 3) == 0 then .fin (decide (sg < 0)) n (f - 3) else jam (decide (sg < 0)) n true (f - 3)

/-- The new factors of a tile and the flags (R188). -/
def recompress (mode : BitVec 3) (ttol : BitVec 40) (t : Tile) :
    List (List (BitVec 32)) × List (List (BitVec 32)) × Flags :=
  let us : IMat := t.us.map fun u => u.map unitsOf
  let vs : IMat := t.vs.map fun v => v.map unitsOf
  let n := us.length
  let gram (m : IMat) : IMat := m.map fun a => m.map fun b => idot a b
  let uu := gram us
  let p := ptrim (charpoly (imul uu (gram vs) n) n)
  let q := psquarefree (p.dropWhile (· == 0))
  -- T^T T x
  let amul (x : List Int) : List Int :=
    let c := ivec uu (ivec vs x)
    (List.range t.ncols).map fun i => idot c (vs.map fun v => v[i]?.getD 0)
  let total := itrace (imul uu (gram vs) n)
  let seq := sturm (q.length + 1) q (pderiv q)
  let bits := q.foldl (fun a c => a + Nat.log2 c.natAbs + 1) 0
  let roots := isolate q seq (3 * (bits * q.length + 64)) ⟨0, 0⟩ ⟨total + 1, 0⟩
  let list := roots.flatMap (subspace q amul t.ncols)
  let tol : Nat × Int := match fmtFP32.decode (ttol.extractLsb' 0 32).toNat with | .fin _ m e => (m, e) | _ => (1, 200)
  let rcap := (ttol.extractLsb' 32 8).toNat
  let cap := min (if rcap = 0 then cfgMaxRank t.word else rcap) (cfgMaxRank t.word)
  let enough (r : Nat) : Bool :=
    let rest := (list.drop r).map SVec.root
    let num : Int := total * (tol.1 * tol.1 : Nat) * (2 ^ (2 * tol.2).toNat : Nat)
    rest.isEmpty || (tol.1 != 0 && !sumExceeds list.length total rest num (-(2 * tol.2)).toNat)
  let r := min (((List.range (list.length + 1)).find? enough).getD list.length) cap
  let kept := list.take r
  let deliver (w : SVec) (num : Poly) (e : Int) : Nat × Flags := fmtFP32.round mode (rootVal q w num e)
  let uOf (w : SVec) : List (Nat × Flags) :=
    (List.range t.nrows).map fun i =>
      let row : List Int := (List.range t.ncols).map fun l => idot (us.map fun u => u[i]?.getD 0) (vs.map fun v => v[l]?.getD 0)
      let num := (row.zip w.vec).foldl (fun (a : Poly) x => padd a (pscale x.1 x.2)) []
      deliver w num (-298)
  let vOf (w : SVec) : List (Nat × Flags) := w.vec.map fun x => deliver w x 0
  let nu := kept.map uOf
  let nv := kept.map vOf
  let bits32 (xs : List (Nat × Flags)) : List (BitVec 32) := xs.map fun x => BitVec.ofNat 32 x.1
  let f := (nu ++ nv).foldl (fun (a : Flags) xs => xs.foldl (fun b x => b ||| x.2) a) (flagIf (decide (r < list.length)) fNX)
  (nu.map bits32, nv.map bits32, f)

/-- Whether a factor entry is an infinity or a NaN. -/
def badEntry (b : BitVec 32) : Bool := b.extractLsb' 23 8 == 0xFF

def execTrecomp (td : TReg) (s : State) : Out :=
  finish do
    tileGuard s [tCode td] [td]
    let t := s.getT td
    conflictIf (!t.factored) s 5 td
    if (t.us ++ t.vs).any fun u => u.any badEntry then
      return ((s.putT td { t with inUse := true }).orFlags fNV).retire
    else
      let (us, vs, f) := recompress s.cc.rm s.cc.ttol t
      return ((s.putT td { t with us := us, vs := vs, inUse := true }).orFlags f).retire

end Sys2Proof.Machine
end

