-- ==== Sys2Proof/Machine/TileMacro.lean ====
section
/-! DEFINITION. The tile macro-operations TMMA.S, TMMA.F, TSAVE and TLOAD and the steps in which they run
(09_tiles.md R195 to R200). -/

namespace Sys2Proof.Machine

/-! ### TMMA: the shape record (R195, R196) -/

/-- Steps 1 to 4 of R183 for TMMA. A's tag, MTAG, stands in TVAL where tag(va) does. -/
def tmmaGuard (s : State) (td ts : TReg) : Except Stop Unit := do
  tileGuard s [tCode td] [td, ts]
  let d := s.getT td
  let b := s.getT ts
  let c := s.cc
  conflictIf (d.ncols != b.ncols || (isSx c.mtag && b.nrows % 16 != 0)) s 4 td
  conflictIf d.factored s 5 td
  let eight (t : Tag) : Bool := t == tE4M3 || t == tE5M2
  let acc := if b.tag.toNat == 1 || b.tag == tI4 then tI32 else tFP32
  tagCheck (!b.factored && b.tag != tI32 && (c.mtag == b.tag || (eight c.mtag && eight b.tag)) && d.tag == acc && !c.rawm)
    s c.mtag b.tag d.tag

/-- A signed 32-bit field as the 64-bit number that TVAL holds. -/
def strideWord (n : BitVec 32) : Word := n.signExtend 64

/-- Order 5 of R195. -/
def strideCheck (s : State) (t : Tag) (e : BitVec 32) : Except Stop Unit :=
  trapIf (e != 0 && (isSub t || isSx t || e.toInt % (tagWidth t / 8 : Nat) != 0)) s cAlign (strideWord e)

/-- Orders 1 to 6 of R195: what the record gives, with the row count bounded. Orders 4 and 6 are those of a count address: a
fixed count above the bound becomes the bound, with no trap and no flag (DEDUCED, log 24). -/
def State.tmmaIssue (s : State) (strict : Bool) (td ts : TReg) (rec : Word) : Except Stop (State × MacroOp) :=
  precise s do
    tmmaGuard s td ts
    trapIf (rec.toNat % 32 != 0) s cAlign rec
    let (s1, ps) ← s.pieces .load true rec 32
    let (s2, bs) ← s1.loadPieces rec ps
    let field (off n : Nat) : Nat := leNat ((bs.drop off).take n)
    let base : Word := BitVec.ofNat 64 (field 0 8)
    let rowStride := BitVec.ofNat 32 (field 8 4)
    let elemStride := BitVec.ofNat 32 (field 12 4)
    let count : Word := BitVec.ofNat 64 (field 16 8)
    let bound := field 26 2
    let flags := field 28 2
    trapIf (decide (1 < flags) || field 30 2 != 0 || bound == 0 || decide ((s.getT td).nrows < bound)) s cShape
      (BitVec.ofNat 64 (2 ^ 32 + bound))
    trapIf (count != 0 && count.toNat % 4 != 0) s cAlign count
    strideCheck s s.cc.mtag elemStride
    let op (rows : Nat) : MacroOp := .tmma strict td ts base rowStride elemStride rows
    if count = 0 then return (s2, op (min (field 24 2) bound))
    else
      let (u, qs) ← s2.pieces .load true count 4
      let (s3, cs) ← u.loadPieces count qs
      let n := leNat cs
      if n ≤ bound then return (s3, op n)
      else if flags = 0 then .error (.trap s { cause := cShape, tval := BitVec.ofNat 64 n })
      else return (s3.modCc fun c => { c with fcsr := c.fcsr ||| 0x2000 }, op bound)

/-- The addresses and sizes of the bytes of element k of a row of A, in the order in which they are read. -/
def elemParts (row : Word) (t : Tag) (scale : Nat) (stride : Int) (k : Nat) : List (Word × Nat) :=
  let at_ (o : Int) : Word := row + BitVec.ofInt 64 o
  let (sc, o) := layout t scale stride k
  (match sc with | some q => [(at_ q, 1)] | none => []) ++
    [(at_ o, if isSx t then sxBytes t else max 1 (memBits t / 8))]

/-- The parts of a row of A. -/
def rowParts (row : Word) (t : Tag) (scale : Nat) (stride : Int) (n : Nat) : List (Word × Nat) :=
  (List.range n).flatMap (elemParts row t scale stride)

/-- A part cut at its page boundary: each run with the address of its first byte. -/
def pageRuns (p : Word × Nat) : List (Word × Nat) :=
  let room := 65536 - p.1.toNat % 65536
  if p.2 ≤ room then [p] else [(p.1, room), (p.1 + BitVec.ofNat 64 room, p.2 - room)]

/-- Order 7 of R195 for a run of bytes on one page: it must translate as a load, and the page may not be of device class. -/
def State.checkA (s : State) (p : Word × Nat) : Except Stop State := do
  let (s1, x) ← s.translate ⟨.load, true, p.2⟩ p.1
  trapIf x.ic s1 cProt p.1
  return s1

/-- Order 7 of R195 for a whole row. -/
def State.checkRow (s : State) (ps : List (Word × Nat)) : Except Stop State := (ps.flatMap pageRuns).foldlM State.checkA s

/-- Bytes of A that have passed their check. -/
def State.readA (s : State) (a : Word) (n : Nat) : Except Stop (State × List Byte) := do
  let (s1, ps) ← s.pieces .load true a n
  s1.loadPieces a ps

/-- Element k of a row of A: its value and scale code. -/
def State.readElem (s : State) (row : Word) (t : Tag) (scale : Nat) (stride : Int) (k : Nat) :
    Except Stop (State × Val × Byte) := do
  let at_ (o : Int) : Word := row + BitVec.ofInt 64 o
  let (sc, o) := layout t scale stride k
  let (s1, e) ← match sc with
    | some q => do
      let (u, bs) ← s.readA (at_ q) 1
      pure (u, bs.headD 127)
    | none => pure (s, (127 : Byte))
  if isSx t then
    let (s2, bs) ← s1.readA (at_ o) (sxBytes t)
    match sxMemElem t (sxOfMem t bs) (k % 16) with
    | .ok x => return (s2, x, e)
    | .error slot => reservedCode s2 k slot
  else
    let (s2, bs) ← s1.readA (at_ o) (max 1 (memBits t / 8))
    return (s2, memValue t 0 k bs, e)

/-- Row m of A, which has passed order 7. -/
def State.readRow (s : State) (row : Word) (t : Tag) (scale : Nat) (stride : Int) (n : Nat) :
    Except Stop (State × List (Val × Byte)) :=
  (List.range n).foldlM (fun (acc : State × List (Val × Byte)) k => do
    let (s1, x, e) ← acc.1.readElem row t scale stride k
    return (s1, acc.2 ++ [(x, e)])) (s, [])

/-- One step of TMMA: row m of A against every column of ts (R196). -/
def State.tmmaStep (s : State) (strict : Bool) (td ts : TReg) (base : Word) (rowStride elemStride : BitVec 32) (m : Nat) :
    Except Stop State := do
  let c := s.cc
  let b := s.getT ts
  let row := base + BitVec.ofInt 64 (m * rowStride.toInt)
  let s0 ← s.checkRow (rowParts row c.mtag c.scaleMode elemStride.toInt b.nrows)
  let (s1, as) ← s0.readRow row c.mtag c.scaleMode elemStride.toInt b.nrows
  let (draw, s2) := s1.draw
  let d := s1.getT td
  let v := d.row m
  let rs ← (List.range b.ncols).foldlM (fun acc n => do
    let ps ← (as.zip (List.range as.length)).foldlM (fun qs (p : (Val × Byte) × Nat) => do
      let x ← useElem s1 (b.row p.2) b.tag n
      return qs ++ [scaledProduct p.1.1 p.1.2 x (b.scaleAt p.2 n)]) []
    let old := slotOf v.data d.tag n
    let r := if d.tag = tI32 then denseAcc c tI32 (draw n) old ps else sumForm strict (subDraw draw n) c.accsat c.rm old ps
    return acc ++ [r]) ([] : List (Nat × Flags))
  let v1 : VecReg := { v with data := packElems d.tag d.ncols fun k => ((rs[k]?).getD (0, 0)).1 }
  return (s2.putT td { d.putRow m v1 with inUse := true }).orFlags (rs.foldl (fun (a : Flags) r => a ||| r.2) 0)

/-! ### Tile images (R198) -/

/-- The bytes of a row in memory. -/
def rowToMem (t : Tag) (cols : Nat) (v : VecReg) : List Byte :=
  if isSx t then (List.range (cols / 16)).flatMap fun b => sxToMem t (sxBlockOf v t b)
  else if isSub t then packNibbles ((List.range cols).map fun k => bitsOf v.data t k) []
  else (List.range cols).flatMap fun k => leBytes (tagWidth t / 8) (slotOf v.data t k)

/-- A row from its bytes in memory. -/
def rowOfMem (t : Tag) (cols : Nat) (bs : List Byte) : VecReg :=
  if isSx t then
    (List.range (cols / 16)).foldl (fun v b =>
      putSxBlock v b (sxOfMem t ((bs.drop (b * sxBytes t)).take (sxBytes t)))) { tag := t }
  else if isSub t then ⟨packElems t cols fun k => leNat ((bs.drop (k / 2)).take 1) / (if k % 2 = 1 then 16 else 1) % 16, 0, t⟩
  else
    let n := tagWidth t / 8
    ⟨packElems t cols fun k => leNat ((bs.drop (k * n)).take n), 0, t⟩

/-- A factor's bytes. -/
def factorBytes (n : Nat) (u : List (BitVec 32)) : List Byte := (List.range n).flatMap fun i => leBytes 4 (factorBits u i).toNat

/-- The body of a tile's image. -/
def Tile.body (t : Tile) : List Byte :=
  let w := t.word
  if t.factored then
    let pad (n : Nat) (us : List (List (BitVec 32))) : List Byte :=
      (List.range (cfgMaxRank w)).flatMap fun j => factorBytes n (us[j]?.getD [])
    pad t.nrows t.us ++ pad t.ncols t.vs
  else
    ((List.range t.nrows).flatMap fun i => rowToMem t.tag t.ncols (t.row i)) ++
      (if scaleTag t.tag then
        (List.range (scaleCount w)).map fun i => if t.scaled then t.scales[i]?.getD 127 else 127
       else [])

/-- The header of a tile's image. -/
def Tile.header (t : Tile) : List Byte :=
  match t.cfg with
  | none => List.replicate 64 0
  | some w => leBytes 4 w.toNat ++ leBytes 1 t.rank ++
      leBytes 1 ((if t.inUse then 1 else 0) + (if t.scaled then 2 else 0)) ++ leBytes 2 0 ++ leBytes 4 (bodyBytes w) ++
      List.replicate 52 0

/-- The image of a tile: the header alone for an unconfigured one. -/
def Tile.image (t : Tile) : List Byte := t.header ++ (if t.cfg.isSome then t.body else [])

/-- A tile with the contents that a body gives it. -/
def Tile.withBody (t : Tile) (bs : List Byte) : Tile :=
  let w := t.word
  if t.factored then
    let col (off n j : Nat) : List (BitVec 32) :=
      (List.range n).map fun i => BitVec.ofNat 32 (leNat ((bs.drop (off + (j * n + i) * 4)).take 4))
    { t with us := (List.range t.rank).map (col 0 t.nrows)
             vs := (List.range t.rank).map (col (t.nrows * cfgMaxRank w * 4) t.ncols) }
  else
    let n := rowBytes t.tag t.ncols
    let t1 := (List.range t.nrows).foldl (fun (u : Tile) i =>
      u.putRow i (rowOfMem t.tag t.ncols ((bs.drop (i * n)).take n))) t
    if t.scaled && scaleTag t.tag then { t1 with scales := (bs.drop (t.nrows * n)).take (scaleCount w) } else t1

/-- Bytes of an image. -/
def Tile.imageBytes (t : Tile) : Nat := 64 + match t.cfg with | some w => bodyBytes w | none => 0

/-- Bytes of an image that TLOAD reads: without the scale array where the image attaches no scales (R198). -/
def Tile.loadBytes (t : Tile) : Nat :=
  t.imageBytes - (if scaleTag t.tag && !t.factored && !t.scaled && t.cfg.isSome then scaleCount t.word else 0)

/-- The bytes that step s of TSAVE or TLOAD moves, within an image. -/
def stepLen (total m : Nat) : Nat := min 2048 (total - 2048 * m)

/-- One step of TSAVE. The macro-operation is counted in T alone (R197); writes to peers stand until they are acknowledged. -/
def State.tsaveStep (s : State) (td : TReg) (addr : Word) (m : Nat) : Except Stop State := do
  let img := (s.getT td).image
  let bs := (img.drop (2048 * m)).take 2048
  let va := addr + BitVec.ofNat 64 (2048 * m)
  let (s1, ps) ← s.pieces .store true va bs.length
  let (s2, ws) := s1.storePieces ps bs
  let w := { (joinStores ws).ofVec with counted := false }
  if w.peers.isEmpty then return s2
  else return s2.modCc fun c => { c with stores := c.stores ++ [w] }

/-- The tile that a header gives, with contents of zeros: unconfigured for a word of 0, without factors when not in use; none
for a header that fails its check, with reason 3 (R198). -/
def tileOfHeader (h : List Byte) : Option Tile :=
  let field (off n : Nat) : Nat := leNat ((h.drop off).take n)
  let w : Word := BitVec.ofNat 64 (field 0 4)
  let c : BitVec 32 := w.setWidth 32
  let rank := field 4 1
  let bits := field 5 1
  let scaled := decide (2 ≤ bits)
  let zero (n : Nat) : List (List (BitVec 32)) := List.replicate rank (List.replicate n 0)
  let rankOk := if cfgFactored c then decide (rank ≤ cfgMaxRank c) else rank == 0
  if 3 < bits ∨ field 6 2 ≠ 0 ∨ (h.drop 12).any (· != 0) = true then none
  else if w = 0 then some {}
  else if !cfgOk w || !rankOk || field 8 4 != bodyBytes c then none
  else if bits % 2 = 0 then some { cfg := some c, scaled := scaled }
  else some
    { cfg := some c, inUse := true, scaled := scaled, us := zero (cfgRows c), vs := zero (cfgCols c)
      scales := if scaled && scaleTag (cfgTag c) then List.replicate (scaleCount c) 0 else [] }

/-- The header of an image in memory. -/
def State.readHeader (s : State) (addr : Word) : Except Stop (State × List Byte) := do
  let (s1, ps) ← s.pieces .load true addr 64
  s1.loadPieces addr ps

/-- Step 0 of TLOAD: the header, the configuration and the first bytes of the body. -/
def State.tloadFirst (s : State) (td : TReg) (addr : Word) : Except Stop State :=
  precise s do
    let (s2, h) ← s.readHeader addr
    match tileOfHeader h with
    | none => conflict s 3 td
    | some t =>
      let c := t.word
      if t.cfg.isNone then return s2.putT td t
      conflictIf (decide (131072 < s.cc.othersOccupy td + occupancy c)) s 1 td
      conflictIf (s.getT td).inUse s 0 td
      if !t.inUse then return s2.putT td t
      else
        let n := stepLen t.loadBytes 0 - 64
        let va := addr + 64
        let (s3, qs) ← s2.pieces .load true va n
        let (s4, bs) ← s3.loadPieces va qs
        return s4.putT td (t.withBody (bs ++ t.body.drop n))

/-- A later step of TLOAD. -/
def State.tloadStep (s : State) (td : TReg) (addr : Word) (m : Nat) : Except Stop State := do
  let t := s.getT td
  let n := stepLen t.loadBytes m
  let va := addr + BitVec.ofNat 64 (2048 * m)
  let (s1, ps) ← s.pieces .load true va n
  let (s2, bs) ← s1.loadPieces va ps
  let off := 2048 * m - 64
  let old := t.body
  return s2.putT td (t.withBody (old.take off ++ bs ++ old.drop (off + n)))

/-! ### Running in steps (R197) -/

/-- The number of steps of a macro-operation. -/
def State.macroTotal (s : State) : MacroOp → Nat
  | .tmma _ _ _ _ _ _ rows => rows
  | .tsave td _ => ((s.getT td).imageBytes + 2047) / 2048
  | .tload td _ => if (s.getT td).inUse then ((s.getT td).loadBytes + 2047) / 2048 else 1

/-- One step of a macro-operation. -/
def State.macroStep (s : State) (op : MacroOp) (m : Nat) : Except Stop State :=
  match op with
  | .tmma strict td ts base rs es _ => s.tmmaStep strict td ts base rs es m
  | .tsave td addr => s.tsaveStep td addr m
  | .tload td addr => if m = 0 then s.tloadFirst td addr else s.tloadStep td addr m

/-- The macro-operation is complete: TSTEP has been consumed, and T falls. -/
def State.macroDone (s : State) : State :=
  (s.modCc fun c => { c.endMacro with macroOp := none, tstep := 0 }).retire

/-- The macro-operation stops at step m: its next step waits, or a fault is taken there. -/
def macroStop (op : MacroOp) (m : Nat) : Except Stop State → Except Stop State
  | .ok s => .ok (s.modCc fun c => { c with macroOp := some (op, m) })
  | .error (.wait s) => .error (.wait (s.modCc fun c => { c with macroOp := some (op, m) }))
  | .error (.trap s t) =>
    .error (.trap (s.modCc fun c => { c.endMacro with macroOp := none }) { t with tstep := some (BitVec.ofNat 32 m) })

/-- The steps from m on, at most so many. -/
def State.macroRun (op : MacroOp) : Nat → Nat → State → Except Stop State
  | 0, m, s => if m < s.macroTotal op then macroStop op m (.ok s) else .ok s.macroDone
  | fuel + 1, m, s =>
    if m < s.macroTotal op then
      match s.macroStep op m with
      | .ok s1 => State.macroRun op fuel (m + 1) (s1.count (coreOf s.cc.ctxid) 9 1)
      | e => macroStop op m e
    else .ok s.macroDone

/-- Whether the next step of a control core's macro-operation waits. -/
def State.macroPending (s : State) (id : BitVec 10) : Bool := (s.ccAt id).macroOp.isSome

/-- The bytes that a macro-operation touches from step m on, in order; for step 0 of TLOAD those of the header `h`. -/
def State.macroParts (s : State) (h : List Byte) (op : MacroOp) (m : Nat) : List (Word × Nat) :=
  match op with
  | .tmma _ _ ts base rs es rows =>
    let t := s.getT ts
    ((List.range rows).drop m).flatMap fun k =>
      rowParts (base + BitVec.ofInt 64 (k * rs.toInt)) s.cc.mtag s.cc.scaleMode es.toInt t.nrows
  | .tsave td a => ((List.range (s.macroTotal op)).drop m).map fun k =>
      (a + BitVec.ofNat 64 (2048 * k), stepLen (s.getT td).imageBytes k)
  | .tload td a =>
    let t := if m = 0 then (tileOfHeader h).getD {} else s.getT td
    let n := if t.inUse then t.loadBytes else 64
    ((List.range ((n + 2047) / 2048)).drop m).map fun k => (a + BitVec.ofNat 64 (2048 * k), stepLen n k)

/-- A unit that is absent stops a macro-operation before its first step (R32): its bytes are translated in order, up to the
first that would trap. A device with every unit has none to look for. -/
def State.unitsOk (s : State) (kind : Acc) : List (Word × Nat) → Except Stop State
  | [] => .ok s
  | p :: r =>
    match s.translate ⟨kind, true, p.2⟩ p.1 with
    | .ok (s1, _) => State.unitsOk s1 kind r
    | .error (.wait s1) => .error (.wait s1)
    | .error (.trap s1 t) => if t.cause = cUnit then .error (.trap s1 t) else .ok s1

/-- The header that a TLOAD reads at step 0; none where its bytes cannot be read, which that step finds. -/
def State.headerOf (s : State) (m : Nat) : MacroOp → Except Stop (List Byte)
  | .tload _ a =>
    if m ≠ 0 then .ok []
    else match s.readHeader a with
      | .ok (_, h) => .ok h
      | .error (.wait u) => .error (.wait u)
      | .error (.trap _ _) => .ok []
  | _ => .ok []

/-- The kind of access of a macro-operation. -/
def MacroOp.kind : MacroOp → Acc
  | .tsave .. => .store
  | _ => .load

/-- A macro-operation that has issued takes TSTEP and is counted in T until it completes. Its first step runs at once when
no other context of the core has a step pending, and the others in their turns (R197, R199). -/
def State.macroStart (s : State) (op : MacroOp) (m : Nat) : Except Stop State := do
  stallIf (s.cc.full .t) s
  let s1 ← if s.variant = .yl8 then pure s
    else do
      let h ← s.headerOf m op
      precise s (s.unitsOk op.kind ((s.macroParts h op m).flatMap pageRuns))
  let core := coreOf s.cc.ctxid
  let alone := (List.range 4).all fun k => !s.macroPending (BitVec.ofNat 10 (4 * core + k))
  let s2 := (s1.push .t).modCc fun c => { c with tstep := 0 }
  if alone then State.macroRun op 1 m (s2.modCore core fun k => { k with matrixRR := s.cc.ctxid.setWidth 2 })
  else State.macroRun op 0 m s2

/-- TMMA. -/
def State.tmma (s : State) (strict : Bool) (td : TReg) (xa : XReg) (ts : TReg) : Out :=
  finish do
    let s0 ← vfenceWait s
    let (s1, op) ← s0.tmmaIssue strict td ts (s.getX xa)
    s1.macroStart op s.cc.tstep.toNat

def execTmmaS (td : TReg) (xa : XReg) (ts : TReg) (s : State) : Out := s.tmma true td xa ts
def execTmmaF (td : TReg) (xa : XReg) (ts : TReg) (s : State) : Out := s.tmma false td xa ts

def execTsave (td : TReg) (xa : XReg) (s : State) : Out :=
  finish do
    needVector s
    let a := s.getX xa
    trapIf (a.toNat % 64 != 0) s cAlign a
    let s0 ← vfenceWait s
    s0.macroStart (.tsave td a) s.cc.tstep.toNat

/-- TLOAD: one that finds its tile unconfigured starts again at step 0 (R198). Alignment and the header's memory come before the
check of the tile in use (DEDUCED, log 24). -/
def execTload (td : TReg) (xa : XReg) (s : State) : Out :=
  finish do
    pushGuard s [tCode td]
    let a := s.getX xa
    trapIf (a.toNat % 64 != 0) s cAlign a
    let m := if (s.getT td).cfg.isNone then 0 else s.cc.tstep.toNat
    let s0 ← vfenceWait s
    s0.macroStart (.tload td a) m

/-- TILE_MACRO_STEP: the matrix unit takes the next context in turn after the one that it served last (R199). -/
def execTileMacroStep (core : BitVec 8) (s : State) : Out :=
  let last := (s.coreAt core.toNat).matrixRR
  let id (k : Nat) : BitVec 10 := BitVec.ofNat 10 (4 * core.toNat + (last.toNat + 1 + k) % 4)
  match ((List.range 4).map id).find? s.macroPending with
  | none => .next s
  | some c =>
    let s1 := s.modCore core.toNat fun k => { k with matrixRR := BitVec.ofNat 2 c.toNat }
    .next (s1.onCc c fun u =>
      match u.cc.macroOp with
      | none => u
      | some (op, m) => settle (State.macroRun op 1 m u))

end Sys2Proof.Machine
end

