-- ==== Sys2Proof/Machine/VPerm.lean ====
section
/-! DEFINITION. Moving elements, major opcode 0x24 (08_vector.md R173, R174). -/

namespace Sys2Proof.Machine

/-- The bits of a source element; one at vl or above reads as zero (R173). -/
def bitsBelow (d : BitVec 8192) (t : Tag) (vl k : Nat) : Nat := if k < vl then bitsOf d t k else 0

/-- The amount n of a slide, an extraction or an insertion: u(x[xb]) or imm6 (R173). -/
def amount (s : State) : Third → Nat
  | .vx xb => (s.getX xb).toNat
  | .vi imm => imm.toNat
  | .vv _ => 0

def execVslup (vd va : VReg) (b : Third) (s : State) : Out :=
  finish do
    let t ← unaryChecks s vd va isVal
    let d := (s.getV va).data
    let n := amount s b
    let es := (s.actives.filter fun i => decide (n ≤ i)).map fun i => (i, bitsBelow d t s.vlN (i - n))
    return ((s.putV vd (writeElems (s.getV vd) t s.cc.vstart.toNat s.vlN es)).takeVstart).retire

def execVsldn (vd va : VReg) (b : Third) (s : State) : Out :=
  finish do
    let t ← unaryChecks s vd va isVal
    let d := (s.getV va).data
    return s.elemwise vd t fun i => (bitsBelow d t s.vlN (i + amount s b), 0)

def execVsl1up (vd va : VReg) (xb : XReg) (s : State) : Out :=
  finish do
    let t ← unaryChecks s vd va isVal
    let d := (s.getV va).data
    return s.elemwise vd t fun i =>
      (if i = 0 then (s.getX xb).toNat % 2 ^ memBits t else bitsBelow d t s.vlN (i - 1), 0)

def execVsl1dn (vd va : VReg) (xb : XReg) (s : State) : Out :=
  finish do
    let t ← unaryChecks s vd va isVal
    let d := (s.getV va).data
    return s.elemwise vd t fun i =>
      (if i + 1 = s.vlN then (s.getX xb).toNat % 2 ^ memBits t else bitsBelow d t s.vlN (i + 1), 0)

def execVperm (vd va vb : VReg) (s : State) : Out :=
  finish do
    pushGuard s [vCode vd]
    let t := (s.getV va).tag
    let u := (s.getV vb).tag
    tagCheck (isVal t && isInt u) s t u 0
    lenCheck s [t, u]
    let d := (s.getV va).data
    let e := (s.getV vb).data
    return s.elemwise vd t fun i =>
      let k := intAt e u i
      (if k < 0 then 0 else bitsBelow d t s.vlN k.toNat, 0)

/-- VSEL writes every element from vstart to vl − 1. -/
def execVsel (vd va : VReg) (b : Third) (s : State) : Out :=
  finish do
    let t ← vecChecks s vd va b fun t => isVal t || t == tRAW
    let d := (s.getV va).data
    let m := s.activeMask
    let es := s.allFrom.map fun i =>
      (i, if m.getLsbD i then bitsOf d t i else thirdBits s s.cc.rm t b i)
    return s.joinImm b t
      (((s.putV vd (writeElems (s.getV vd) t s.cc.vstart.toNat s.vlN es)).takeVstart).retire)

/-- VEXT: an element in a scalar register, extended by the signedness of its tag. -/
def execVext (xd : XReg) (va : VReg) (b : Third) (s : State) : Out :=
  finish do
    needVector s
    let t := (s.getV va).tag
    tagCheck (isVal t) s t 0 0
    lenCheck s [t]
    let n := amount s b
    let x := bitsOf (s.getV va).data t n
    let v : Word := if s.vlN ≤ n then 0 else BitVec.ofInt 64 (intOf (isSigned t) (memBits t) x)
    return (s.setX xd v).retire

def execVins (vd : VReg) (xa : XReg) (b : Third) (s : State) : Out :=
  finish do
    pushGuard s [vCode vd]
    let t := (s.getV vd).tag
    tagCheck (isVal t) s 0 0 t
    lenCheck s [t]
    let n := amount s b
    let es := if s.actives.contains n then [(n, (s.getX xa).toNat % 2 ^ memBits t)] else []
    return ((s.putV vd (writeElems (s.getV vd) t s.cc.vstart.toNat s.vlN es)).takeVstart).retire

/-- VCOMP: not element-precise, so vstart counts as 0 and VSTART stays. -/
def execVcomp (vd va : VReg) (mb : MReg) (s : State) : Out :=
  finish do
    let t ← unaryChecks s vd va isVal
    let d := (s.getV va).data
    let m := s.getM mb
    let xs := ((List.range s.vlN).filter m.getLsbD).map fun i => bitsOf d t i
    let es := (List.range s.vlN).map fun i => (i, xs[i]?.getD 0)
    return (s.putV vd (writeElems (s.getV vd) t 0 s.vlN es)).retire

def execViota (vd : VReg) (tag : Tag) (mb : MReg) (s : State) : Out :=
  finish do
    pushGuard s [vCode vd]
    lenCheck s [tag]
    let m := s.getM mb
    let es := (s.activeFrom 0).map fun i => (i, popBelow m i % 2 ^ tagWidth tag)
    return (s.putV vd (writeElems (s.getV vd) tag 0 s.vlN es)).retire

end Sys2Proof.Machine
end

