-- ==== Sys2Proof/Machine/Dispatch.lean ====
section
/-! DEFINITION. The dispatch of every instruction to its meaning. -/

namespace Sys2Proof.Machine

/-- What an instruction does. -/
def exec (i : Instr) (s : State) : Host.Outcome State Fault Refusal :=
  match i with
  | .add xd xa xb => Sys2Proof.Machine.execAdd xd xa xb s
  | .sub xd xa xb => Sys2Proof.Machine.execSub xd xa xb s
  | .and xd xa xb => Sys2Proof.Machine.execAnd xd xa xb s
  | .or xd xa xb => Sys2Proof.Machine.execOr xd xa xb s
  | .xor xd xa xb => Sys2Proof.Machine.execXor xd xa xb s
  | .sll xd xa xb => Sys2Proof.Machine.execSll xd xa xb s
  | .srl xd xa xb => Sys2Proof.Machine.execSrl xd xa xb s
  | .sra xd xa xb => Sys2Proof.Machine.execSra xd xa xb s
  | .slt xd xa xb => Sys2Proof.Machine.execSlt xd xa xb s
  | .sltu xd xa xb => Sys2Proof.Machine.execSltu xd xa xb s
  | .min xd xa xb => Sys2Proof.Machine.execMin xd xa xb s
  | .max xd xa xb => Sys2Proof.Machine.execMax xd xa xb s
  | .minu xd xa xb => Sys2Proof.Machine.execMinu xd xa xb s
  | .maxu xd xa xb => Sys2Proof.Machine.execMaxu xd xa xb s
  | .mul xd xa xb => Sys2Proof.Machine.execMul xd xa xb s
  | .mulh xd xa xb => Sys2Proof.Machine.execMulh xd xa xb s
  | .mulhu xd xa xb => Sys2Proof.Machine.execMulhu xd xa xb s
  | .div xd xa xb => Sys2Proof.Machine.execDiv xd xa xb s
  | .divu xd xa xb => Sys2Proof.Machine.execDivu xd xa xb s
  | .rem xd xa xb => Sys2Proof.Machine.execRem xd xa xb s
  | .remu xd xa xb => Sys2Proof.Machine.execRemu xd xa xb s
  | .csel xd xa xb => Sys2Proof.Machine.execCsel xd xa xb s
  | .clz xd xa => Sys2Proof.Machine.execClz xd xa s
  | .ctz xd xa => Sys2Proof.Machine.execCtz xd xa s
  | .popc xd xa => Sys2Proof.Machine.execPopc xd xa s
  | .bswap xd xa => Sys2Proof.Machine.execBswap xd xa s
  | .addi xd xa imm => Sys2Proof.Machine.execAddi xd xa imm s
  | .andi xd xa imm => Sys2Proof.Machine.execAndi xd xa imm s
  | .ori xd xa imm => Sys2Proof.Machine.execOri xd xa imm s
  | .xori xd xa imm => Sys2Proof.Machine.execXori xd xa imm s
  | .slti xd xa imm => Sys2Proof.Machine.execSlti xd xa imm s
  | .slli xd xa n => Sys2Proof.Machine.execSlli xd xa n s
  | .srli xd xa n => Sys2Proof.Machine.execSrli xd xa n s
  | .srai xd xa n => Sys2Proof.Machine.execSrai xd xa n s
  | .sext xd xa n => Sys2Proof.Machine.execSext xd xa n s
  | .zext xd xa n => Sys2Proof.Machine.execZext xd xa n s
  | .lui xd imm => Sys2Proof.Machine.execLui xd imm s
  | .addpc xd imm => Sys2Proof.Machine.execAddpc xd imm s
  | .fadd p rm xd xa xb => Sys2Proof.Machine.execFadd p rm xd xa xb s
  | .fsub p rm xd xa xb => Sys2Proof.Machine.execFsub p rm xd xa xb s
  | .fmul p rm xd xa xb => Sys2Proof.Machine.execFmul p rm xd xa xb s
  | .fdiv p rm xd xa xb => Sys2Proof.Machine.execFdiv p rm xd xa xb s
  | .fsqrt p rm xd xa => Sys2Proof.Machine.execFsqrt p rm xd xa s
  | .fmin p xd xa xb => Sys2Proof.Machine.execFmin p xd xa xb s
  | .fmax p xd xa xb => Sys2Proof.Machine.execFmax p xd xa xb s
  | .fmac p rm xd xa xb => Sys2Proof.Machine.execFmac p rm xd xa xb s
  | .feq p xd xa xb => Sys2Proof.Machine.execFeq p xd xa xb s
  | .flt p xd xa xb => Sys2Proof.Machine.execFlt p xd xa xb s
  | .fle p xd xa xb => Sys2Proof.Machine.execFle p xd xa xb s
  | .fcvtfi p rm xd xa => Sys2Proof.Machine.execFcvtfi p rm xd xa s
  | .fcvtif p rm xd xa => Sys2Proof.Machine.execFcvtif p rm xd xa s
  | .fcvtsd p rm xd xa => Sys2Proof.Machine.execFcvtsd p rm xd xa s
  | .beq xa xb off => Sys2Proof.Machine.execBeq xa xb off s
  | .bne xa xb off => Sys2Proof.Machine.execBne xa xb off s
  | .blt xa xb off => Sys2Proof.Machine.execBlt xa xb off s
  | .bge xa xb off => Sys2Proof.Machine.execBge xa xb off s
  | .bltu xa xb off => Sys2Proof.Machine.execBltu xa xb off s
  | .bgeu xa xb off => Sys2Proof.Machine.execBgeu xa xb off s
  | .bany ma off => Sys2Proof.Machine.execBany ma off s
  | .ball ma off => Sys2Proof.Machine.execBall ma off s
  | .bnone ma off => Sys2Proof.Machine.execBnone ma off s
  | .jal xd off => Sys2Proof.Machine.execJal xd off s
  | .jalr xd xa imm => Sys2Proof.Machine.execJalr xd xa imm s
  | .ldb xd xa imm => Sys2Proof.Machine.execLdb xd xa imm s
  | .ldh xd xa imm => Sys2Proof.Machine.execLdh xd xa imm s
  | .ldw xd xa imm => Sys2Proof.Machine.execLdw xd xa imm s
  | .ldd xd xa imm => Sys2Proof.Machine.execLdd xd xa imm s
  | .ldbz xd xa imm => Sys2Proof.Machine.execLdbz xd xa imm s
  | .ldhz xd xa imm => Sys2Proof.Machine.execLdhz xd xa imm s
  | .ldwz xd xa imm => Sys2Proof.Machine.execLdwz xd xa imm s
  | .lda xd xa sc => Sys2Proof.Machine.execLda xd xa sc s
  | .stb xs xa imm => Sys2Proof.Machine.execStb xs xa imm s
  | .sth xs xa imm => Sys2Proof.Machine.execSth xs xa imm s
  | .stw xs xa imm => Sys2Proof.Machine.execStw xs xa imm s
  | .std xs xa imm => Sys2Proof.Machine.execStd xs xa imm s
  | .strel xs xa sc => Sys2Proof.Machine.execStrel xs xa sc s
  | .csrr xd csr => Sys2Proof.Machine.execCsrr xd csr s
  | .csrw xd xa csr => Sys2Proof.Machine.execCsrw xd xa csr s
  | .csrs xd xa csr => Sys2Proof.Machine.execCsrs xd xa csr s
  | .csrc xd xa csr => Sys2Proof.Machine.execCsrc xd xa csr s
  | .syscall => Sys2Proof.Machine.execSyscall s
  | .tret => Sys2Proof.Machine.execTret s
  | .brk => Sys2Proof.Machine.execBrk s
  | .idle xa => Sys2Proof.Machine.execIdle xa s
  | .yield => Sys2Proof.Machine.execYield s
  | .exit => Sys2Proof.Machine.execExit s
  | .spawn xd xa => Sys2Proof.Machine.execSpawn xd xa s
  | .uiret => Sys2Proof.Machine.execUiret s
  | .tlbinv xa xb => Sys2Proof.Machine.execTlbinv xa xb s
  | .lgset xa => Sys2Proof.Machine.execLgset xa s
  | .vadd vd va b => Sys2Proof.Machine.execVadd vd va b s
  | .vsub vd va b => Sys2Proof.Machine.execVsub vd va b s
  | .vmul vd va b => Sys2Proof.Machine.execVmul vd va b s
  | .vmulh vd va b => Sys2Proof.Machine.execVmulh vd va b s
  | .vdiv vd va b => Sys2Proof.Machine.execVdiv vd va b s
  | .vmin vd va b => Sys2Proof.Machine.execVmin vd va b s
  | .vmax vd va b => Sys2Proof.Machine.execVmax vd va b s
  | .vand vd va b => Sys2Proof.Machine.execVand vd va b s
  | .vor vd va b => Sys2Proof.Machine.execVor vd va b s
  | .vxor vd va b => Sys2Proof.Machine.execVxor vd va b s
  | .vsll vd va b => Sys2Proof.Machine.execVsll vd va b s
  | .vsrl vd va b => Sys2Proof.Machine.execVsrl vd va b s
  | .vsra vd va b => Sys2Proof.Machine.execVsra vd va b s
  | .vadds vd va b => Sys2Proof.Machine.execVadds vd va b s
  | .vsubs vd va b => Sys2Proof.Machine.execVsubs vd va b s
  | .vabsd vd va b => Sys2Proof.Machine.execVabsd vd va b s
  | .vmac vd va b => Sys2Proof.Machine.execVmac vd va b s
  | .vnmac vd va b => Sys2Proof.Machine.execVnmac vd va b s
  | .vdot4 vd va vb => Sys2Proof.Machine.execVdot4 vd va vb s
  | .vneg vd va => Sys2Proof.Machine.execVneg vd va s
  | .vabs vd va => Sys2Proof.Machine.execVabs vd va s
  | .vsqrt vd va => Sys2Proof.Machine.execVsqrt vd va s
  | .vrcp vd va => Sys2Proof.Machine.execVrcp vd va s
  | .vrsqrt vd va => Sys2Proof.Machine.execVrsqrt vd va s
  | .vexp2 vd va => Sys2Proof.Machine.execVexp2 vd va s
  | .vlog2 vd va => Sys2Proof.Machine.execVlog2 vd va s
  | .vclass vd va => Sys2Proof.Machine.execVclass vd va s
  | .vmov vd va => Sys2Proof.Machine.execVmov vd va s
  | .vbcast vd tag b => Sys2Proof.Machine.execVbcast vd tag b s
  | .vtag vd va tag => Sys2Proof.Machine.execVtag vd va tag s
  | .vsxnorm vd va => Sys2Proof.Machine.execVsxnorm vd va s
  | .vcmpeq md va b => Sys2Proof.Machine.execVcmpeq md va b s
  | .vcmpne md va b => Sys2Proof.Machine.execVcmpne md va b s
  | .vcmplt md va b => Sys2Proof.Machine.execVcmplt md va b s
  | .vcmple md va b => Sys2Proof.Machine.execVcmple md va b s
  | .vcmpgt md va b => Sys2Proof.Machine.execVcmpgt md va b s
  | .vcmpge md va b => Sys2Proof.Machine.execVcmpge md va b s
  | .vcmpun md va b => Sys2Proof.Machine.execVcmpun md va b s
  | .vcvt vd va tag rm part => Sys2Proof.Machine.execVcvt vd va tag rm part s
  | .vcvtsc vd va vb rm part => Sys2Proof.Machine.execVcvtsc vd va vb rm part s
  | .vslup vd va b => Sys2Proof.Machine.execVslup vd va b s
  | .vsldn vd va b => Sys2Proof.Machine.execVsldn vd va b s
  | .vsl1up vd va xb => Sys2Proof.Machine.execVsl1up vd va xb s
  | .vsl1dn vd va xb => Sys2Proof.Machine.execVsl1dn vd va xb s
  | .vperm vd va vb => Sys2Proof.Machine.execVperm vd va vb s
  | .vcomp vd va mb => Sys2Proof.Machine.execVcomp vd va mb s
  | .viota vd tag mb => Sys2Proof.Machine.execViota vd tag mb s
  | .vsel vd va b => Sys2Proof.Machine.execVsel vd va b s
  | .vext xd va b => Sys2Proof.Machine.execVext xd va b s
  | .vins vd xa b => Sys2Proof.Machine.execVins vd xa b s
  | .vredsumS vd va vb => Sys2Proof.Machine.execVredsumS vd va vb s
  | .vredsumF vd va vb => Sys2Proof.Machine.execVredsumF vd va vb s
  | .vredmax vd va vb => Sys2Proof.Machine.execVredmax vd va vb s
  | .vredmin vd va vb => Sys2Proof.Machine.execVredmin vd va vb s
  | .vredand vd va vb => Sys2Proof.Machine.execVredand vd va vb s
  | .vredor vd va vb => Sys2Proof.Machine.execVredor vd va vb s
  | .vredxor vd va vb => Sys2Proof.Machine.execVredxor vd va vb s
  | .vargmax xd va => Sys2Proof.Machine.execVargmax xd va s
  | .vargmin xd va => Sys2Proof.Machine.execVargmin xd va s
  | .vbestMax vv vi vcv vci => Sys2Proof.Machine.execVbestMax vv vi vcv vci s
  | .vbestMin vv vi vcv vci => Sys2Proof.Machine.execVbestMin vv vi vcv vci s
  | .mand md ma mb => Sys2Proof.Machine.execMand md ma mb s
  | .mor md ma mb => Sys2Proof.Machine.execMor md ma mb s
  | .mxor md ma mb => Sys2Proof.Machine.execMxor md ma mb s
  | .mandn md ma mb => Sys2Proof.Machine.execMandn md ma mb s
  | .mnot md ma => Sys2Proof.Machine.execMnot md ma s
  | .mmov md ma => Sys2Proof.Machine.execMmov md ma s
  | .mpopc xd ma => Sys2Proof.Machine.execMpopc xd ma s
  | .mfirst xd ma => Sys2Proof.Machine.execMfirst xd ma s
  | .msetall md => Sys2Proof.Machine.execMsetall md s
  | .mclr md => Sys2Proof.Machine.execMclr md s
  | .loop xa off => Sys2Proof.Machine.execLoop xa off s
  | .loopi xa off => Sys2Proof.Machine.execLoopi xa off s
  | .setvl xd xa w => Sys2Proof.Machine.execSetvl xd xa w s
  | .next xd off => Sys2Proof.Machine.execNext xd off s
  | .tcfg td xa => Sys2Proof.Machine.execTcfg td xa s
  | .trel td => Sys2Proof.Machine.execTrel td s
  | .tzero td => Sys2Proof.Machine.execTzero td s
  | .topa td va vb => Sys2Proof.Machine.execTopa td va vb s
  | .tops td va vb => Sys2Proof.Machine.execTops td va vb s
  | .tmv td va vd => Sys2Proof.Machine.execTmv td va vd s
  | .tmvt td va vd => Sys2Proof.Machine.execTmvt td va vd s
  | .tmmaS td xa ts => Sys2Proof.Machine.execTmmaS td xa ts s
  | .tmmaF td xa ts => Sys2Proof.Machine.execTmmaF td xa ts s
  | .trecomp td => Sys2Proof.Machine.execTrecomp td s
  | .tdense td => Sys2Proof.Machine.execTdense td s
  | .trank td xd => Sys2Proof.Machine.execTrank td xd s
  | .trdrow td vd xb => Sys2Proof.Machine.execTrdrow td vd xb s
  | .twrrow td va xb => Sys2Proof.Machine.execTwrrow td va xb s
  | .tsave td xa => Sys2Proof.Machine.execTsave td xa s
  | .tload td xa => Sys2Proof.Machine.execTload td xa s
  | .tscale td va => Sys2Proof.Machine.execTscale td va s
  | .tadd td ts => Sys2Proof.Machine.execTadd td ts s
  | .vld vr xa sc => Sys2Proof.Machine.execVld vr xa sc s
  | .vlds vr xa sc => Sys2Proof.Machine.execVlds vr xa sc s
  | .vldx vr xa vi sc => Sys2Proof.Machine.execVldx vr xa vi sc s
  | .vldff vr xa sc => Sys2Proof.Machine.execVldff vr xa sc s
  | .vst vr xa sc => Sys2Proof.Machine.execVst vr xa sc s
  | .vsts vr xa sc => Sys2Proof.Machine.execVsts vr xa sc s
  | .vstx vr xa vi sc => Sys2Proof.Machine.execVstx vr xa vi sc s
  | .vamoaddf vr xa vi sc => Sys2Proof.Machine.execVamoaddf vr xa vi sc s
  | .vsave vr xa sc => Sys2Proof.Machine.execVsave vr xa sc s
  | .vrestore vr xa sc => Sys2Proof.Machine.execVrestore vr xa sc s
  | .msave mr xa sc => Sys2Proof.Machine.execMsave mr xa sc s
  | .mrestore mr xa sc => Sys2Proof.Machine.execMrestore mr xa sc s
  | .ring xd xa xb => Sys2Proof.Machine.execRing xd xa xb s
  | .amoadd xd xa xb sz aq rl sc => Sys2Proof.Machine.execAmoadd xd xa xb sz aq rl sc s
  | .amoaddf xd xa xb sz aq rl sc => Sys2Proof.Machine.execAmoaddf xd xa xb sz aq rl sc s
  | .amoand xd xa xb sz aq rl sc => Sys2Proof.Machine.execAmoand xd xa xb sz aq rl sc s
  | .amoor xd xa xb sz aq rl sc => Sys2Proof.Machine.execAmoor xd xa xb sz aq rl sc s
  | .amoxor xd xa xb sz aq rl sc => Sys2Proof.Machine.execAmoxor xd xa xb sz aq rl sc s
  | .amomax xd xa xb sz aq rl sc => Sys2Proof.Machine.execAmomax xd xa xb sz aq rl sc s
  | .amomin xd xa xb sz aq rl sc => Sys2Proof.Machine.execAmomin xd xa xb sz aq rl sc s
  | .amomaxu xd xa xb sz aq rl sc => Sys2Proof.Machine.execAmomaxu xd xa xb sz aq rl sc s
  | .amominu xd xa xb sz aq rl sc => Sys2Proof.Machine.execAmominu xd xa xb sz aq rl sc s
  | .amoswap xd xa xb sz aq rl sc => Sys2Proof.Machine.execAmoswap xd xa xb sz aq rl sc s
  | .amocas xd xa xb sz aq rl sc => Sys2Proof.Machine.execAmocas xd xa xb sz aq rl sc s
  | .fence sc => Sys2Proof.Machine.execFence sc s
  | .vfence sc => Sys2Proof.Machine.execVfence sc s
  | .vfenceBar xd xa => Sys2Proof.Machine.execVfenceBar xd xa s
  | .barwait xa xb => Sys2Proof.Machine.execBarwait xa xb s
  | .barcfg xd xa xb => Sys2Proof.Machine.execBarcfg xd xa xb s
  | .cmst vr xa => Sys2Proof.Machine.execCmst vr xa s
  | .cmstx vr xa vi => Sys2Proof.Machine.execCmstx vr xa vi s
  | .cmzero xn xa => Sys2Proof.Machine.execCmzero xn xa s
  | .qdot xd xdesc vq xreply => Sys2Proof.Machine.execQdot xd xdesc vq xreply s
  | .qfsum xd xdesc xreply => Sys2Proof.Machine.execQfsum xd xdesc xreply s
  | .qwsum xd xdesc vq xreply => Sys2Proof.Machine.execQwsum xd xdesc vq xreply s
  | .qmax xd xdesc xreply => Sys2Proof.Machine.execQmax xd xdesc xreply s
  | .qmin xd xdesc xreply => Sys2Proof.Machine.execQmin xd xdesc xreply s
  | .qwin xd xdesc vq xreply => Sys2Proof.Machine.execQwin xd xdesc vq xreply s
  | .qbscore xd xdesc vq xreply => Sys2Proof.Machine.execQbscore xd xdesc vq xreply s
  | .qcount xd xdesc xreply => Sys2Proof.Machine.execQcount xd xdesc xreply s
  | .qcust xd xdesc vq xreply => Sys2Proof.Machine.execQcust xd xdesc vq xreply s
  | .cmmov xd xa xb => Sys2Proof.Machine.execCmmov xd xa xb s
  | .cmseal xd xa xb => Sys2Proof.Machine.execCmseal xd xa xb s
  | .cmopen xd xa xb => Sys2Proof.Machine.execCmopen xd xa xb s
  | .shpush vq vs vw => Sys2Proof.Machine.execShpush vq vs vw s
  | .shwait xd xa xb => Sys2Proof.Machine.execShwait xd xa xb s
  | .shdone xd xa => Sys2Proof.Machine.execShdone xd xa s
  | .shcfg xd xa xb => Sys2Proof.Machine.execShcfg xd xa xb s
  | .shcfgDrain xd xa => Sys2Proof.Machine.execShcfgDrain xd xa s
  | .shstat xd xa => Sys2Proof.Machine.execShstat xd xa s
  | .vsend vs va xb => Sys2Proof.Machine.execVsend vs va xb s
  | .job xd xa => Sys2Proof.Machine.execJob xd xa s
  | .jobchk xd xa => Sys2Proof.Machine.execJobchk xd xa s
  | .wait l sl c t q => Sys2Proof.Machine.execWait l sl c t q s
  | .hardPreemption cc => Sys2Proof.Machine.execHardPreemption cc s
  | .laneShapeChange core => Sys2Proof.Machine.execLaneShapeChange core s
  | .heddleGrant core heads costs => Sys2Proof.Machine.execHeddleGrant core heads costs s
  | .regionLaunch rcb rec => Sys2Proof.Machine.execRegionLaunch rcb rec s
  | .rcbCheck rcb => Sys2Proof.Machine.execRcbCheck rcb s
  | .regionPlacement rcb first => Sys2Proof.Machine.execRegionPlacement rcb first s
  | .regionRetire rcb => Sys2Proof.Machine.execRegionRetire rcb s
  | .rsTerminateRegion rcb => Sys2Proof.Machine.execRsTerminateRegion rcb s
  | .rsTerminateContext rcb ctx => Sys2Proof.Machine.execRsTerminateContext rcb ctx s
  | .rsEvict rcb => Sys2Proof.Machine.execRsEvict rcb s
  | .terminationEnd rcb => Sys2Proof.Machine.execTerminationEnd rcb s
  | .waitReturn cc => Sys2Proof.Machine.execWaitReturn cc s
  | .barwaitReturn cc => Sys2Proof.Machine.execBarwaitReturn cc s
  | .barrierStall slot => Sys2Proof.Machine.execBarrierStall slot s
  | .idleTimeout cc => Sys2Proof.Machine.execIdleTimeout cc s
  | .uiDelivery cc => Sys2Proof.Machine.execUiDelivery cc s
  | .loadComplete cc => Sys2Proof.Machine.execLoadComplete cc s
  | .storePerformed cc => Sys2Proof.Machine.execStorePerformed cc s
  | .cmStorePerformed cc => Sys2Proof.Machine.execCmStorePerformed cc s
  | .queryCompletion cc serial => Sys2Proof.Machine.execQueryCompletion cc serial s
  | .sheafAgeExpiry q => Sys2Proof.Machine.execSheafAgeExpiry q s
  | .sheafFiring cluster => Sys2Proof.Machine.execSheafFiring cluster s
  | .sheafDelivery q => Sys2Proof.Machine.execSheafDelivery q s
  | .jobStart cc token => Sys2Proof.Machine.execJobStart cc token s
  | .jobCompletion cc token => Sys2Proof.Machine.execJobCompletion cc token s
  | .tileMacroStep core => Sys2Proof.Machine.execTileMacroStep core s
  | .pageWalk cc va => Sys2Proof.Machine.execPageWalk cc va s
  | .walkComplete cluster => Sys2Proof.Machine.execWalkComplete cluster s
  | .atomicRequest cluster => Sys2Proof.Machine.execAtomicRequest cluster s
  | .dieWriteArrival die src s0 s1 s2 s3 => Sys2Proof.Machine.execDieWriteArrival die src s0 s1 s2 s3 s
  | .dieWriteDeliver die => Sys2Proof.Machine.execDieWriteDeliver die s
  | .cmInstall handle => Sys2Proof.Machine.execCmInstall handle s
  | .cmRemove handle => Sys2Proof.Machine.execCmRemove handle s
  | .cmRemoveDone => Sys2Proof.Machine.execCmRemoveDone s
  | .cmReadBack handle => Sys2Proof.Machine.execCmReadBack handle s
  | .cmmovDone handle => Sys2Proof.Machine.execCmmovDone handle s
  | .cmsealDone handle => Sys2Proof.Machine.execCmsealDone handle s
  | .cmopenDone handle => Sys2Proof.Machine.execCmopenDone handle s
  | .activation bank row => Sys2Proof.Machine.execActivation bank row s
  | .trackerWindowClear => Sys2Proof.Machine.execTrackerWindowClear s
  | .refresh bank burst => Sys2Proof.Machine.execRefresh bank burst s
  | .remapMove region => Sys2Proof.Machine.execRemapMove region s
  | .remapMoveEnd region => Sys2Proof.Machine.execRemapMoveEnd region s
  | .divisorChange d => Sys2Proof.Machine.execDivisorChange d s
  | .computeModeEntry ch => Sys2Proof.Machine.execComputeModeEntry ch s
  | .nlbExpiry ch => Sys2Proof.Machine.execNlbExpiry ch s
  | .normalModeRequest ch => Sys2Proof.Machine.execNormalModeRequest ch s
  | .normalModeDone ch => Sys2Proof.Machine.execNormalModeDone ch s
  | .meshPacket router packet => Sys2Proof.Machine.execMeshPacket router packet s
  | .tillerJob ch cc serial => Sys2Proof.Machine.execTillerJob ch cc serial s
  | .tillerDmaGo ch row ctl => Sys2Proof.Machine.execTillerDmaGo ch row ctl s
  | .tillerDmaDone ch => Sys2Proof.Machine.execTillerDmaDone ch s
  | .replypush ch data => Sys2Proof.Machine.execReplypush ch data s
  | .replyend ch v => Sys2Proof.Machine.execReplyend ch v s
  | .tillerTimeout ch => Sys2Proof.Machine.execTillerTimeout ch s
  | .tillerFwLoad ctl => Sys2Proof.Machine.execTillerFwLoad ctl s
  | .tillerFwLoadDone => Sys2Proof.Machine.execTillerFwLoadDone s
  | .flitReceive port flit => Sys2Proof.Machine.execFlitReceive port flit s
  | .ackTimer port => Sys2Proof.Machine.execAckTimer port s
  | .linkRetrain port => Sys2Proof.Machine.execLinkRetrain port s
  | .linkDown port => Sys2Proof.Machine.execLinkDown port s
  | .readRequest src tag addr units => Sys2Proof.Machine.execReadRequest src tag addr units s
  | .readResponse src tag data => Sys2Proof.Machine.execReadResponse src tag data s
  | .peerWrite src tag addr data => Sys2Proof.Machine.execPeerWrite src tag addr data s
  | .writeAcknowledgement src tag => Sys2Proof.Machine.execWriteAcknowledgement src tag s
  | .trainElements src code data => Sys2Proof.Machine.execTrainElements src code data s
  | .trainTail src tag counter count => Sys2Proof.Machine.execTrainTail src tag counter count s
  | .tailAcknowledgement src tag => Sys2Proof.Machine.execTailAcknowledgement src tag s
  | .collectiveData src tag msg => Sys2Proof.Machine.execCollectiveData src tag msg s
  | .routeWrite node v => Sys2Proof.Machine.execRouteWrite node v s
  | .routeApply node => Sys2Proof.Machine.execRouteApply node s
  | .hostMemRead off n => Sys2Proof.Machine.execHostMemRead off n s
  | .hostMemWrite off data => Sys2Proof.Machine.execHostMemWrite off data s
  | .cxlSnoop die line => Sys2Proof.Machine.execCxlSnoop die line s
  | .powerOnReset => Sys2Proof.Machine.execPowerOnReset s
  | .cxlPortReset => Sys2Proof.Machine.execCxlPortReset s
  | .bootLoad cmd => Sys2Proof.Machine.execBootLoad cmd s
  | .bootComplete => Sys2Proof.Machine.execBootComplete s
  | .verify => Sys2Proof.Machine.execVerify s
  | .keyload => Sys2Proof.Machine.execKeyload s
  | .keywipe => Sys2Proof.Machine.execKeywipe s
  | .keywipeZeroise => Sys2Proof.Machine.execKeywipeZeroise s
  | .dbgopen => Sys2Proof.Machine.execDbgopen s
  | .extend => Sys2Proof.Machine.execExtend s
  | .attest => Sys2Proof.Machine.execAttest s
  | .debugHalt cc => Sys2Proof.Machine.execDebugHalt cc s
  | .debugRegisterWrite cc w => Sys2Proof.Machine.execDebugRegisterWrite cc w s
  | .debugResume cc => Sys2Proof.Machine.execDebugResume cc s
  | .debugCmRead addr => Sys2Proof.Machine.execDebugCmRead addr s
  | .registerWrite off size acc => Sys2Proof.Machine.execRegisterWrite off size acc s
  | .notAnInstruction w => Sys2Proof.Machine.execNotAnInstruction w s
  | .linkUp port peer => Sys2Proof.Machine.execLinkUp port peer s
  | .lifecycleAdvance lcs => Sys2Proof.Machine.execLifecycleAdvance lcs s
  | .msixUnmask set => Sys2Proof.Machine.execMsixUnmask set s

end Sys2Proof.Machine
end

