-- ==== Sys2Proof/Machine/Events.lean ====
section
/-! DEFINITION. The events of the agenda: each does what the row of the opcode table that it stands for does. -/

namespace Sys2Proof.Machine

/-- What an event does. -/
def perform (e : Event) (s : State) : Out :=
  match e with
  | .hardPreemption cc => execHardPreemption cc s
  | .laneShapeChange core => execLaneShapeChange core s
  | .heddleGrant core heads costs => execHeddleGrant core heads costs s
  | .regionLaunch rcb rec => execRegionLaunch rcb rec s
  | .rcbCheck rcb => execRcbCheck rcb s
  | .regionPlacement rcb first => execRegionPlacement rcb first s
  | .regionRetire rcb => execRegionRetire rcb s
  | .rsTerminateRegion rcb => execRsTerminateRegion rcb s
  | .rsTerminateContext rcb ctx => execRsTerminateContext rcb ctx s
  | .rsEvict rcb => execRsEvict rcb s
  | .terminationEnd rcb => execTerminationEnd rcb s
  | .waitReturn cc => execWaitReturn cc s
  | .barwaitReturn cc => execBarwaitReturn cc s
  | .barrierStall slot => execBarrierStall slot s
  | .idleTimeout cc => execIdleTimeout cc s
  | .uiDelivery cc => execUiDelivery cc s
  | .loadComplete cc => execLoadComplete cc s
  | .storePerformed cc => execStorePerformed cc s
  | .cmStorePerformed cc => execCmStorePerformed cc s
  | .queryCompletion cc serial => execQueryCompletion cc serial s
  | .sheafAgeExpiry q => execSheafAgeExpiry q s
  | .sheafFiring cluster => execSheafFiring cluster s
  | .sheafDelivery q => execSheafDelivery q s
  | .jobStart cc token => execJobStart cc token s
  | .jobCompletion cc token => execJobCompletion cc token s
  | .tileMacroStep core => execTileMacroStep core s
  | .pageWalk cc va => execPageWalk cc va s
  | .walkComplete cluster => execWalkComplete cluster s
  | .atomicRequest cluster => execAtomicRequest cluster s
  | .dieWriteArrival die src s0 s1 s2 s3 => execDieWriteArrival die src s0 s1 s2 s3 s
  | .dieWriteDeliver die => execDieWriteDeliver die s
  | .cmInstall handle => execCmInstall handle s
  | .cmRemove handle => execCmRemove handle s
  | .cmRemoveDone => execCmRemoveDone s
  | .cmReadBack handle => execCmReadBack handle s
  | .cmmovDone handle => execCmmovDone handle s
  | .cmsealDone handle => execCmsealDone handle s
  | .cmopenDone handle => execCmopenDone handle s
  | .activation bank row => execActivation bank row s
  | .trackerWindowClear => execTrackerWindowClear s
  | .refresh bank burst => execRefresh bank burst s
  | .remapMove region => execRemapMove region s
  | .remapMoveEnd region => execRemapMoveEnd region s
  | .divisorChange d => execDivisorChange d s
  | .computeModeEntry ch => execComputeModeEntry ch s
  | .nlbExpiry ch => execNlbExpiry ch s
  | .normalModeRequest ch => execNormalModeRequest ch s
  | .normalModeDone ch => execNormalModeDone ch s
  | .meshPacket router packet => execMeshPacket router packet s
  | .tillerJob ch cc serial => execTillerJob ch cc serial s
  | .tillerDmaGo ch row ctl => execTillerDmaGo ch row ctl s
  | .tillerDmaDone ch => execTillerDmaDone ch s
  | .replypush ch data => execReplypush ch data s
  | .replyend ch v => execReplyend ch v s
  | .tillerTimeout ch => execTillerTimeout ch s
  | .tillerFwLoad ctl => execTillerFwLoad ctl s
  | .tillerFwLoadDone => execTillerFwLoadDone s
  | .flitReceive port flit => execFlitReceive port flit s
  | .ackTimer port => execAckTimer port s
  | .linkRetrain port => execLinkRetrain port s
  | .linkDown port => execLinkDown port s
  | .readRequest src tag addr units => execReadRequest src tag addr units s
  | .readResponse src tag data => execReadResponse src tag data s
  | .peerWrite src tag addr data => execPeerWrite src tag addr data s
  | .writeAcknowledgement src tag => execWriteAcknowledgement src tag s
  | .trainElements src code data => execTrainElements src code data s
  | .trainTail src tag counter count => execTrainTail src tag counter count s
  | .tailAcknowledgement src tag => execTailAcknowledgement src tag s
  | .collectiveData src tag msg => execCollectiveData src tag msg s
  | .routeWrite node v => execRouteWrite node v s
  | .routeApply node => execRouteApply node s
  | .hostMemRead off n => execHostMemRead off n s
  | .hostMemWrite off data => execHostMemWrite off data s
  | .cxlSnoop die line => execCxlSnoop die line s
  | .powerOnReset => execPowerOnReset s
  | .cxlPortReset => execCxlPortReset s
  | .bootLoad cmd => execBootLoad cmd s
  | .bootComplete => execBootComplete s
  | .verify => execVerify s
  | .keyload => execKeyload s
  | .keywipe => execKeywipe s
  | .keywipeZeroise => execKeywipeZeroise s
  | .dbgopen => execDbgopen s
  | .extend => execExtend s
  | .attest => execAttest s
  | .debugHalt cc => execDebugHalt cc s
  | .debugRegisterWrite cc w => execDebugRegisterWrite cc w s
  | .debugResume cc => execDebugResume cc s
  | .debugCmRead addr => execDebugCmRead addr s
  | .registerWrite off size acc => execRegisterWrite off size acc s
  | .notAnInstruction w => execNotAnInstruction w s
  | .linkUp port peer => execLinkUp port peer s
  | .lifecycleAdvance lcs => execLifecycleAdvance lcs s
  | .msixUnmask set => execMsixUnmask set s

end Sys2Proof.Machine
end

