-- ==== Sys2Proof/Machine/Skips.lean ====
section
/-! DEFINITION. The element groups that a vector instruction skips (08_vector.md R178), which performance-counter code 2
counts (16_tables.md R340). -/

namespace Sys2Proof.Machine

/-- The element width under which an instruction that skips counts its groups: that of its operands; of its
accumulator; of the wider side of a conversion; of the wider tag of best pairs. None for one that does not skip. VCLASS,
of which R178 does not say whether its source or its UI16 destination counts, takes its source's: DESIGN CHOICE, log 53. -/
def skipWidth (i : Instr) (s : State) : Option Nat :=
  let w (r : VReg) : Nat := tagWidth (s.getV r).tag
  match i with
  | .vadd _ va _ | .vsub _ va _ | .vmul _ va _ | .vmulh _ va _ | .vdiv _ va _ | .vmin _ va _ | .vmax _ va _
  | .vand _ va _ | .vor _ va _ | .vxor _ va _ | .vsll _ va _ | .vsrl _ va _ | .vsra _ va _ | .vadds _ va _
  | .vsubs _ va _ | .vabsd _ va _ => some (w va)
  | .vmac vd va _ | .vnmac vd va _ => some (max (w vd) (w va))
  | .vdot4 vd _ _ => some (w vd)
  | .vneg _ va | .vabs _ va | .vsqrt _ va | .vrcp _ va | .vrsqrt _ va | .vexp2 _ va | .vlog2 _ va | .vclass _ va
  | .vsxnorm _ va => some (w va)
  | .vcmpeq _ va _ | .vcmpne _ va _ | .vcmplt _ va _ | .vcmple _ va _ | .vcmpgt _ va _ | .vcmpge _ va _
  | .vcmpun _ va _ => some (w va)
  | .vcvt _ va tag _ _ => some (max (w va) (tagWidth tag))
  | .vcvtsc _ va _ _ _ => some (max (w va) (tagWidth (s.cc.mfmt.extractLsb' 5 5)))
  | .vbestMax vv vi _ _ | .vbestMin vv vi _ _ => some (max (w vv) (w vi))
  | _ => none

/-- Whether group g of elements of a width holds an element that the instruction processes, and no set bit of the active
mask. -/
def State.skips (s : State) (w g : Nat) : Bool :=
  let n := 512 / w
  decide (max (g * n) s.cc.vstart.toNat < min ((g + 1) * n) s.vlN) &&
    (List.range n).all fun k => !s.activeMask.getLsbD (g * n + k)

/-- The number of element groups that an instruction skips (R178); none when VMSEL is 15. -/
def State.skipped (s : State) (i : Instr) : Nat :=
  match skipWidth i s with
  | some w => if s.cc.vmsel = 15 then 0 else ((List.range 16).filter (s.skips w)).length
  | none => 0

/-- What a control core's step adds around an instruction that has taken the state u to t: a retired instruction's skipped
groups are counted (R340). -/
def State.noteSkips (u : State) (i : Instr) (t : State) : State :=
  if u.skipped i ≠ 0 ∧ t.cc.retired = u.cc.retired + 1 then t.count (coreOf u.cc.ctxid) 2 (u.skipped i) else t

end Sys2Proof.Machine
end

