-- ==== Sys2Proof/Machine/Turn.lean ====
section
/-! DEFINITION. What the device does next, and the passing of time: one step is one action and one core cycle (log 2,
log 4). -/

namespace Sys2Proof.Machine

/-! ### Time (R48, R119, R148, R287, R337) -/

/-- One core cycle at a control core: the deadline of a request counts while the context is RUNNING or WAITING, and so does
the limit of an IDLE. -/
def ControlCore.cycle (c : ControlCore) : ControlCore :=
  let counts := !c.handling && (c.run == .running || c.run.isWait)
  let req := match c.request with | some n => some (if counts && n != 0 then n - 1 else n) | none => none
  let run := match c.run with | .waitIdle (some n) => .waitIdle (some (n - 1)) | r => r
  { c with request := req, run := run }

/-- One core cycle at a barrier slot: its watchdog counts while the region is RUNNING. -/
def State.slotCycle (s : State) (t : Slot) : Slot :=
  match t.watchdog, t.bound with
  | some n, some rcb => match s.regionAt rcb with
    | some r => if r.state = .running then { t with watchdog := some (n - 1) } else t
    | none => t
  | _, _ => t

/-- Core cycles of a near-bank cycle, D ÷ 0.94 ns (R287). -/
def State.nearCycle (s : State) : Nat := 2 * (s.divisor.toNat + 1)

/-- One core cycle passes. -/
def State.passCycle (s : State) : State :=
  let turns := decide (s.nearCycle ≤ s.phase + 1)
  { s with
    clock := s.clock + 1
    tick := if (s.clock + 1) % cyclesPerTick = 0 then s.tick + 1 else s.tick
    cycles := if s.trust.bootState = 2 then s.cycles + 1 else s.cycles
    near := if turns then s.near + 1 else s.near
    phase := if turns then 0 else s.phase + 1
    cc := s.cc.cycle, others := tmap ControlCore.cycle s.others, slots := tmap s.slotCycle s.slots }

/-! ### Turns -/

/-- Whether a control core has an instruction to run. -/
def ControlCore.runs (c : ControlCore) : Bool := c.run == .running

/-- The running control core whose turn is next: the next number above the present one, else the lowest. -/
def State.nextTurn (s : State) : Option (BitVec 10) :=
  let ids := (s.others.map (·.2)).filter ControlCore.runs |>.map ControlCore.ctxid
  match ids.find? fun i => s.cc.ctxid.ult i with
  | some i => some i
  | none => ids.head?

/-- The turn passes on. -/
def State.rotate (s : State) : State :=
  match s.nextTurn with
  | some i => s.focus i
  | none => s

/-! ### What is due -/

/-- The event that is due at a control core. -/
def State.ccDue (s : State) (c : ControlCore) : Option Event :=
  if s.hardNow c.ctxid then some (.hardPreemption c.ctxid)
  else if c.halting && !s.readsDevice c.ctxid then some (.debugHalt c.ctxid)
  else if c.run == .waitIdle (some 0) then some (.idleTimeout c.ctxid)
  else if c.deliverable && !s.midLoad c.ctxid then some (.uiDelivery c.ctxid)
  else match c.run with
    | .waitCounts l st k t q => if c.out.meets l st k t q then some (.waitReturn c.ctxid) else none
    | .waitBar slot p => if (s.slotAt slot).phase != p then some (.barwaitReturn c.ctxid) else none
    | _ => none

/-- The sheaf event that is due: an expiry that has just begun, or a firing for which an engine of its cluster is free. -/
def State.sheafDue (s : State) : Option Event :=
  match s.queues.find? fun p => p.2.class1.isNone && p.2.expired s.tick with
  | some p => some (.sheafAgeExpiry (BitVec.ofNat 10 p.1))
  | none =>
    (s.queues.find? fun p => p.2.eligible s.tick && decide ((s.clusterAt (p.1 / 16)).firing.length < 4)).map fun p =>
      .sheafFiring (BitVec.ofNat 6 (p.1 / 16))

/-- Whether the scheduler can act for a READY region: the head of its priority fits, or something stands in its way that
it may evict. -/
def State.placeable (s : State) (rcb : Nat) (r : Region) (first : BitVec 10) : Bool :=
  r.state == .ready && !s.before rcb r true &&
  ((s.plan rcb r first []).isSome || !(s.toEvict rcb r first).isEmpty)

/-- The event of the region scheduler that is due: a saved region becomes READY; else, of the READY regions for which it
can act, that of the highest priority. The choice of control cores is free (R42). -/
def State.regionDue (s : State) (first : BitVec 10) : Option Event :=
  match s.regions.find? fun p => p.2.state == .saved with
  | some p => some (.regionPlacement (BitVec.ofNat 48 p.1) 0)
  | none =>
    (mostOf ((s.regions.filter fun p => s.placeable p.1 p.2 first).map fun p => (p.1, p.2.priority))).map fun rcb =>
      .regionPlacement (BitVec.ofNat 48 rcb) first

/-- The CM stores that may be performed now: of each control core the oldest alone (R270). -/
def State.cmHeads (s : State) : List CmStore :=
  s.cmStores.filter fun w => ((s.cmStores.find? fun k => k.cc == w.cc) == some w) && s.cmReady w

/-- The mode event that is due at a channel (R288 to R290): queued normal requests are served, the end of compute traffic
or the management core asks for normal mode, and a sweep for compute mode, before which a postponed refresh is made. -/
def State.chanDue (s : State) (n : Nat) (c : Chan) : Option Event :=
  let ch : BitVec 8 := BitVec.ofNat 8 n
  if c.pending then some (.normalModeDone ch)
  else if c.mode then
    if s.cmHeads.any fun w => w.chans.contains n then some (.nlbExpiry ch)
    else if c.sweeps = 0 ∨ c.wanted = true then some (.normalModeRequest ch)
    else none
  else if c.sweeps ≠ 0 ∧ c.normal = 0 then
    match s.refreshWaits n with
    | some bank => some (.refresh (BitVec.ofNat 14 bank) false)
    | none => some (.computeModeEntry ch)
  else none

/-- What is due at the units beside the scheduler, a waiting remove apart. -/
def State.unitRest (s : State) : Option Event :=
  if s.tlfw.busy && s.tillersIdle then some .tillerFwLoadDone
  else if s.wipeDue then some .keywipeZeroise
  else if s.window ≠ s.trackWindow then some .trackerWindowClear
  else
    (s.routeHeld.find? fun p => !s.outstanding p.1).map (fun p => Event.routeApply (BitVec.ofNat 8 p.1))
    <|> (s.tillers.find? fun p => p.2.job.isSome && decide (p.2.since + p.2.limit ≤ s.clock)).map
      (fun p => Event.tillerTimeout (BitVec.ofNat 8 p.1))
    <|> (s.ports.find? fun p => p.2.state == 2 && p.2.rxSince != 0).map (fun p => Event.ackTimer (BitVec.ofNat 6 p.1))
    <|> (s.clusters.find? fun p => !p.2.walks.isEmpty).map (fun p => Event.walkComplete (BitVec.ofNat 6 p.1))
    <|> s.chans.findSome? fun p => s.chanDue p.1 p.2

/-- The other units' event that is due. -/
def State.unitDue (s : State) : Option Event :=
  match s.cmRegs.removing with
  | some h => if s.cmIdle h then some .cmRemoveDone else s.unitRest
  | none => s.unitRest

/-- The event that conditions of the state make due. -/
def State.due (s : State) (first : BitVec 10) : Option Event :=
  (s.slots.find? fun p => p.2.watchdog == some 0).map (fun p => Event.barrierStall (BitVec.ofNat 12 p.1))
  <|> s.allCcs.findSome? s.ccDue
  <|> s.sheafDue
  <|> s.regionDue first
  <|> s.unitDue

/-- Whether every channel of a list runs normal traffic. -/
def State.inNormal (s : State) (chans : List Nat) : Bool := chans.all fun n => !(s.chanAt n).mode

/-- The work of the stacks and engines that can make progress: a query's completion, the oldest CM store of a control core,
a tiller core's copy, the next stripe of a move, the next row of a job card. Which of it goes on, and whether before the
next instruction, is free (log 2). -/
def State.background (s : State) : List Event :=
  (s.queries.filter s.queryDone).map (fun q => Event.queryCompletion q.cc q.serial) ++
  (s.cmHeads.filter fun w => s.inNormal w.chans).map (fun w => Event.cmStorePerformed w.cc) ++
  (s.tillers.filter fun p => p.2.busy && (s.chanAt p.1).mode).map (fun p => Event.tillerDmaDone (BitVec.ofNat 8 p.1)) ++
  (s.cmOps.filter fun p => (match p.2.kind with | .move _ => true | _ => false) && s.inNormal p.2.chans).map
    (fun p => Event.cmmovDone (BitVec.ofNat 12 p.1)) ++
  (s.jobs.filter s.rowReady).map fun j => Event.jobStart j.cc j.token

/-! ### A vector instruction stopped at an element boundary (R50, R380; log 50) -/

/-- Whether a word is pushed into the decoupling queue (R91). -/
def pushedWord (w : BitVec 32) : Bool :=
  let mop := (w.extractLsb' 0 7).toNat
  decide (0x20 ≤ mop ∧ mop ≤ 0x27) || [0x48, 0x50, 0x51, 0x5C, 0x5D, 0x65].contains mop ||
  (mop == 0x59 && (w.extractLsb' 22 3 == 1 || w.extractLsb' 22 3 == 2)) || (mop == 0x64 && w.extractLsb' 27 5 == 0)

/-- Whether a word's instruction is element-precise and may stop between elements (R158, R213, R222, R310); a store with a
scale retires whole or not at all (R218). -/
def elementPrecise (c : ControlCore) (w : BitVec 32) : Bool :=
  let mop := (w.extractLsb' 0 7).toNat
  let fn := (w.extractLsb' 27 5).toNat
  [0x20, 0x21, 0x22, 0x23, 0x26].contains mop || (mop == 0x24 && [0, 1, 2, 3, 4, 7, 9].contains fn) ||
  (mop == 0x50 && (fn != 4 || c.rawm || c.scaleMode == 0)) || (mop == 0x64 && fn == 0)

/-- Whether an instruction that has written the registers of a mask stops only where an SX block ends: it writes one, or
memory holds one (R172, R216). -/
def ControlCore.inBlocks (c : ControlCore) (w : BitVec 32) (written : BitVec 48) : Bool :=
  ((List.range 48).any fun n => written.getLsbD n && isSx ((c.v.toList[n]?).getD {}).tag) ||
  (w.extractLsb' 0 7 == 0x50 && !c.rawm && (isSx c.mtag || isSx c.rtag))

/-- The elements below k of the instruction at pc are done, and VSTART is k; none where it cannot stop there. One that writes
a register it reads is resumed with what it has written and with the new tag (R155 names no copy; DESIGN CHOICE, log 50). -/
def State.partRun (s : State) (i : Instr) (w : BitVec 32) (k : Nat) : Option State :=
  match exec i (s.modCc fun c => { c with cut := some k, vdirty := 0 }) with
  | .next t =>
    if t.cc.retired = s.cc.retired + 1 ∧ t.cc.vl = s.cc.vl ∧ (k % 16 = 0 ∨ t.cc.inBlocks w t.cc.vdirty = false) then
      some (t.modCc fun c => { c with
        pc := s.cc.pc, retired := s.cc.retired, done := s.cc.done, vstart := BitVec.ofNat 10 k, cut := none
        vdirty := s.cc.vdirty ||| c.vdirty })
    else none
  | _ => none

/-- Stops the control core that moves for a pre-emption or a halt: the instruction at pc, where it is element-precise, has
done the elements below a free number, or none of them. -/
def State.stopAt (s : State) : State :=
  let (d, s1) := s.draw
  let k := d 0
  if s.cc.run != .running || s.cc.macroOp.isSome || s.cc.fencing || s.streamHeld ||
      !decide (s.cc.vstart.toNat < k ∧ k < s.vlN) then s1
  else match s1.fetch s.cc.pc with
    | .ok (u, w) =>
      match decode w with
      | some i => if elementPrecise u.cc w then (u.partRun i w k).getD s1 else s1
      | none => s1
    | .error _ => s1

/-- What comes before an event: a hard pre-emption and a halt stop the instruction in progress. -/
def State.stopFor (s : State) : Event → State
  | .hardPreemption id => if s.hardNow id then s.onCc id State.stopAt else s
  | .debugHalt id => if s.debugMay 0 && !s.readsDevice id then s.onCc id State.stopAt else s
  | _ => s

/-! ### One action -/

/-- The instruction at pc of the control core that moves: the fetch, the decoding and the meaning. The vector stream holds
back what is pushed while a train of the context waits for a slot (R322). -/
def State.runOne (s : State) : Out :=
  match s.fetch s.cc.pc with
  | .error (.trap u t) => .next (u.raise t)
  | .error (.wait u) => .next u
  | .ok (u, w) =>
    if u.streamHeld && pushedWord w then .next u
    else match decode w with
    | some i => match exec i u with
      | .next t => .next (u.noteSkips i t)
      | .fault f => .fault f
      | .refused r => .refused r
    | none => execNotAnInstruction w u

/-- The fence of a pre-emption, before the handler's first instruction (R51). -/
def State.fenceHandler (s : State) : State :=
  if s.cc.ownDone then (s.modCc fun c => { c with fencing := false }).release 4 else s

/-- The control core that moves goes on: with the fence of its pre-emption, its macro-operation, or its next
instruction. -/
def State.move (s : State) : Out :=
  if s.cc.runs then
    if s.cc.fencing then .next s.fenceHandler
    else if s.cc.macroOp.isSome then execTileMacroStep (BitVec.ofNat 8 (coreOf s.cc.ctxid)) s
    else s.runOne
  else .next s

/-- The next action when nothing is due: a query unit starts a query, background work goes on, or the control core moves. -/
def State.goOn (s : State) : Out :=
  match s.queryWaits with
  | some core => .next (s.queryUnit core)
  | none =>
    match s.background with
    | [] => s.move
    | b =>
      let (d, s1) := s.draw
      match b[d 0 % (b.length + 1)]? with
      | some e => perform e s1
      | none => s1.move

/-- The next action: what the agenda holds, else what is due, else what goes on. -/
def State.act (s : State) : Out :=
  match s.agenda with
  | e :: r => perform e (({ s with agenda := r } : State).stopFor e)
  | [] =>
    let (d, s1) := s.draw
    match s.due (BitVec.ofNat 10 (d 0)) with
    | some e => perform e (s1.stopFor e)
    | none => s.goOn

/-- What follows an action: a cycle has passed and the turn passes on. -/
def State.after (s : State) : State := s.passCycle.rotate

end Sys2Proof.Machine
end

