-- ==== Sys2Proof/Machine/Step.lean ====
section
/-! DEFINITION. One step of the device, and the placing of a word where the next step fetches. -/

namespace Sys2Proof.Machine

/-- One step: the next action, with a core cycle passed. -/
def step (s : State) : Host.Outcome State Fault Refusal :=
  match s.act with
  | .next t => .next t.after
  | .fault f => .fault f
  | .refused r => .refused r

/-- The physical address at which `withFetchWord` stores its word. -/
def fetchPa : Nat := 0x100000

/-- A global leaf that maps a page to `fetchPa`'s at every level of privilege (R208). -/
def fetchLeaf (va : Word) : TlbEntry :=
  { asid := 0, va := va, level := 3, entry := BitVec.ofNat 64 (fetchPa + 0x183F), at_ := 0 }

/-- The state with a word where `step` fetches its next instruction: the firmware runs, a context runs at the control core
that moves, its pc is aligned and mapped to WM, nothing else is due, and memory holds the word. -/
def State.withFetchWord (s : State) (_nbits w : Nat) : State :=
  let pc := s.cc.pc &&& ~~~3#64
  let c := { s.cc with
    run := .running, pc := pc, macroOp := none, request := none, ring := none, miss := none, fencing := false
    halting := false, leaving := false, cut := none, tlb := [fetchLeaf (pc &&& ~~~0xFFFF#64)] }
  ({ s with cc := c, others := [], trust := { s.trust with bootState := 2, wipecnt := 0 }, agenda := []
            slots := [], queues := [], regions := [], cmRegs := {}, tlfw := {}, routeHeld := [], tillers := [], trackers := []
            ports := [], clusters := [], chans := [], queries := [], cmStores := [], cmOps := [], jobs := [], trains := []
            trackWindow := s.window
            stored := tdel s.stored ((fetchPa + pc.toNat % 65536) / 128) } : State).poke (fetchPa + pc.toNat % 65536) 4 w

end Sys2Proof.Machine
end

