-- ==== Sys2Proof/Safety.lean ====
section
/-! DEFINITION. What counts as a safe run, and the terms in which claims are stated: the invariant of memory, what an
instruction leaves unchanged, and what the rules give each instruction, written anew from the rules. -/

namespace Sys2Proof.Machine

/-! ### The invariants -/

/-- Memory has its canonical form. -/
def State.Canonical (s : State) : Prop := Memory.wf s.mem

/-- Every other control core stands in the table under its own number, once, and the one that moves does not. -/
def State.CoresApart (s : State) : Prop :=
  (s.others.Pairwise fun p q => p.1 < q.1) ∧ ∀ p ∈ s.others, p.2.ctxid.toNat = p.1 ∧ p.1 ≠ s.cc.ctxid.toNat

/-! ### Frames -/

/-- The instruction has retired: RETIRED has counted it (R119), and the next one is at pc. -/
structure Retires (s t : State) (pc : Word) : Prop where
  next : t.cc.pc = pc
  count : t.cc.retired = s.cc.retired + 1

/-- Every byte of memory reads as before. -/
def SameBytes (s t : State) : Prop := ∀ a, Memory.read t.mem a = Memory.read s.mem a

/-- Nothing has changed but scalar register xd, and what every retirement changes: pc, RETIRED, the STRIP counts, and the
records of the walks and of the reads sent to peers that the instruction had waited for. -/
structure FrameX (s t : State) (xd : XReg) : Prop where
  only : t = { s with
    cc := { s.cc with x := t.cc.x, pc := t.cc.pc, retired := t.cc.retired, done := t.cc.done
                      miss := t.cc.miss, held := t.cc.held }
    peerReads := t.peerReads }
  regs : ∀ n, n ≠ xd → t.getX n = s.getX n
  bytes : SameBytes s t

/-- As `FrameX`, with flags of FCSR. -/
structure FrameF (s t : State) (xd : XReg) : Prop where
  only : t = { s with
    cc := { s.cc with x := t.cc.x, fcsr := t.cc.fcsr, pc := t.cc.pc, retired := t.cc.retired, done := t.cc.done
                      miss := t.cc.miss, held := t.cc.held }
    peerReads := t.peerReads }
  regs : ∀ n, n ≠ xd → t.getX n = s.getX n
  bytes : SameBytes s t

/-- Nothing has changed but vector register vd with its VDIRTY bit, the flags of FCSR, VSTART, the draws of free values,
and what every retirement changes. -/
structure FrameV (s t : State) (vd : VReg) : Prop where
  only : t = { s with
    cc := { s.cc with v := t.cc.v, vdirty := t.cc.vdirty, fcsr := t.cc.fcsr, vstart := t.cc.vstart, pc := t.cc.pc
                      retired := t.cc.retired, done := t.cc.done, miss := t.cc.miss, held := t.cc.held }
    peerReads := t.peerReads, free := t.free }
  regs : ∀ n, n ≠ vd → t.getV n = s.getV n
  dirty : t.cc.vdirty = s.cc.vdirty ||| (1#48 <<< vd.toNat)
  bytes : SameBytes s t

/-- Nothing has changed but mask register md, the flags of FCSR, VSTART, and what every retirement changes. -/
structure FrameM (s t : State) (md : MReg) : Prop where
  only : t = { s with
    cc := { s.cc with m := t.cc.m, fcsr := t.cc.fcsr, vstart := t.cc.vstart, pc := t.cc.pc, retired := t.cc.retired
                      done := t.cc.done, miss := t.cc.miss, held := t.cc.held }
    peerReads := t.peerReads }
  regs : ∀ n, n ≠ md → t.getM n = s.getM n
  bytes : SameBytes s t

/-- Nothing has changed but tile td, the flags of FCSR, and what every retirement changes. -/
structure FrameT (s t : State) (td : TReg) : Prop where
  only : t = { s with
    cc := { s.cc with t := t.cc.t, fcsr := t.cc.fcsr, pc := t.cc.pc, retired := t.cc.retired, done := t.cc.done
                      miss := t.cc.miss, held := t.cc.held }
    peerReads := t.peerReads }
  regs : ∀ n, n ≠ td → t.getT n = s.getT n
  bytes : SameBytes s t

/-- Sticky flags have been set, and no other bit of FCSR has changed (R102). -/
def FlagsSet (s t : State) (f : Flags) : Prop := t.cc.fcsr = s.cc.fcsr ||| (f.setWidth 14 <<< 8)

/-! ### Scalar results, from R129 to R134 -/

/-- The smaller of two by an order of integers, the first of equals. -/
def leastBy (f : Word → Int) (a b : Word) : Word := if f a ≤ f b then a else b

/-- The larger of two by an order of integers, the first of equals. -/
def mostBy (f : Word → Int) (a b : Word) : Word := if f b ≤ f a then a else b

/-- An unsigned reading as an integer. -/
def unsignedOf (a : Word) : Int := a.toNat

/-- The destination and the value that R129, R130 and R132 to R134 give to an instruction that writes one scalar
register; none for any other. -/
def scalarResult (i : Instr) (s : State) : Option (XReg × Word) :=
  match i with
  | .add d a b => some (d, .ofNat 64 ((s.getX a).toNat + (s.getX b).toNat))
  | .sub d a b => some (d, .ofInt 64 ((s.getX a).toInt - (s.getX b).toInt))
  | .and d a b => some (d, .ofNat 64 ((s.getX a).toNat &&& (s.getX b).toNat))
  | .or d a b => some (d, .ofNat 64 ((s.getX a).toNat ||| (s.getX b).toNat))
  | .xor d a b => some (d, .ofNat 64 ((s.getX a).toNat ^^^ (s.getX b).toNat))
  | .sll d a b => some (d, .ofNat 64 ((s.getX a).toNat * 2 ^ ((s.getX b).toNat % 64)))
  | .srl d a b => some (d, .ofNat 64 ((s.getX a).toNat / 2 ^ ((s.getX b).toNat % 64)))
  | .sra d a b => some (d, .ofInt 64 ((s.getX a).toInt / 2 ^ ((s.getX b).toNat % 64)))
  | .slt d a b => some (d, if (s.getX a).toInt < (s.getX b).toInt then 1 else 0)
  | .sltu d a b => some (d, if (s.getX a).toNat < (s.getX b).toNat then 1 else 0)
  | .min d a b => some (d, leastBy BitVec.toInt (s.getX a) (s.getX b))
  | .max d a b => some (d, mostBy BitVec.toInt (s.getX a) (s.getX b))
  | .minu d a b => some (d, leastBy unsignedOf (s.getX a) (s.getX b))
  | .maxu d a b => some (d, mostBy unsignedOf (s.getX a) (s.getX b))
  | .mul d a b => some (d, .ofInt 64 ((s.getX a).toInt * (s.getX b).toInt))
  | .mulh d a b => some (d, .ofInt 64 ((s.getX a).toInt * (s.getX b).toInt / 2 ^ 64))
  | .mulhu d a b => some (d, .ofNat 64 ((s.getX a).toNat * (s.getX b).toNat / 2 ^ 64))
  | .div d a b => some (d, if (s.getX b).toInt = 0 then .ofInt 64 (-1) else .ofInt 64 ((s.getX a).toInt.tdiv (s.getX b).toInt))
  | .divu d a b => some (d, if (s.getX b).toNat = 0 then .ofInt 64 (-1) else .ofNat 64 ((s.getX a).toNat / (s.getX b).toNat))
  | .rem d a b => some (d, if (s.getX b).toInt = 0 then s.getX a else .ofInt 64 ((s.getX a).toInt.tmod (s.getX b).toInt))
  | .remu d a b => some (d, if (s.getX b).toNat = 0 then s.getX a else .ofNat 64 ((s.getX a).toNat % (s.getX b).toNat))
  | .csel d a b => some (d, if s.getX d = 0 then s.getX b else s.getX a)
  | .addi d a c => some (d, .ofInt 64 ((s.getX a).toInt + c.toInt))
  | .andi d a c => some (d, s.getX a &&& .ofInt 64 c.toInt)
  | .ori d a c => some (d, s.getX a ||| .ofInt 64 c.toInt)
  | .xori d a c => some (d, s.getX a ^^^ .ofInt 64 c.toInt)
  | .slti d a c => some (d, if (s.getX a).toInt < c.toInt then 1 else 0)
  | .slli d a n => some (d, .ofNat 64 ((s.getX a).toNat * 2 ^ n.toNat))
  | .srli d a n => some (d, .ofNat 64 ((s.getX a).toNat / 2 ^ n.toNat))
  | .srai d a n => some (d, .ofInt 64 ((s.getX a).toInt / 2 ^ n.toNat))
  | .sext d a n => some (d, .ofInt 64 (intOf true (n.toNat + 1) ((s.getX a).toNat % 2 ^ (n.toNat + 1))))
  | .zext d a n => some (d, .ofNat 64 ((s.getX a).toNat % 2 ^ (n.toNat + 1)))
  | .lui d c => some (d, .ofInt 64 (c.toInt * 4096))
  | .addpc d c => some (d, .ofInt 64 (s.cc.pc.toInt + c.toInt * 4096))
  | _ => none

/-- Whether a conditional branch of R139 is taken, and its offset in words; none for any other instruction. -/
def branchTaken (i : Instr) (s : State) : Option (Bool × Int) :=
  match i with
  | .beq a b off => some (decide (s.getX a = s.getX b), off.toInt)
  | .bne a b off => some (decide (s.getX a ≠ s.getX b), off.toInt)
  | .blt a b off => some (decide ((s.getX a).toInt < (s.getX b).toInt), off.toInt)
  | .bge a b off => some (decide ((s.getX b).toInt ≤ (s.getX a).toInt), off.toInt)
  | .bltu a b off => some (decide ((s.getX a).toNat < (s.getX b).toNat), off.toInt)
  | .bgeu a b off => some (decide ((s.getX b).toNat ≤ (s.getX a).toNat), off.toInt)
  | _ => none

/-- Bit i of a mask register. -/
def State.maskBit (s : State) (m : MReg) (i : Nat) : Bool := (s.getM m).getLsbD i

/-! ### Scalar floating point, from R135 to R138 -/

/-- The exact result of an instruction whose one rounding R136 and R138 describe: destination, precision, rounding field,
the exact value with the flags that are not those of the rounding. -/
def floatExact (i : Instr) (s : State) : Option (XReg × BitVec 1 × BitVec 3 × (Val × Flags)) :=
  let x (p : BitVec 1) (n : XReg) : Val := fpRead p (s.getX n)
  match i with
  | .fadd p rm d a b => some (d, p, rm, addExact (s.mode rm) (x p a) (x p b))
  | .fsub p rm d a b => some (d, p, rm, addExact (s.mode rm) (x p a) (x p b).neg)
  | .fmul p rm d a b => some (d, p, rm, mulExact (x p a) (x p b))
  | .fdiv p rm d a b => some (d, p, rm, divExact (x p a) (x p b))
  | .fsqrt p rm d a => some (d, p, rm, sqrtExact (x p a))
  | .fmac p rm d a b =>
    let (v, f) := mulExact (x p a) (x p b)
    let (r, g) := addExact (s.mode rm) v (x p d)
    some (d, p, rm, (r, f ||| g))
  | .fcvtif p rm d a => some (d, p, rm, (.ofInt (s.getX a).toInt, 0))
  | .fcvtsd p rm d a => some (d, p, rm, (x (p ^^^ 1) a, 0))
  | _ => none

/-- The bits and flags of the instructions of R137, and of FCVTFI. -/
def floatPlain (i : Instr) (s : State) : Option (XReg × Nat × Flags) :=
  let x (p : BitVec 1) (n : XReg) : Val := fpRead p (s.getX n)
  let nan (p : BitVec 1) (a b : XReg) : Bool := (x p a).isNan || (x p b).isNan
  let sig (p : BitVec 1) (a b : XReg) : Bool := (x p a).isSig || (x p b).isSig
  match i with
  | .feq p d a b => some (d, if nan p a b = false ∧ cmpVal (x p a) (x p b) = .eq then 1 else 0, flagIf (sig p a b) fNV)
  | .flt p d a b => some (d, if nan p a b = false ∧ cmpVal (x p a) (x p b) = .lt then 1 else 0, flagIf (nan p a b) fNV)
  | .fle p d a b => some (d, if nan p a b = false ∧ cmpVal (x p a) (x p b) ≠ .gt then 1 else 0, flagIf (nan p a b) fNV)
  | .fmin p d a b => some (d, fpMinMax false p (s.getX a) (s.getX b))
  | .fmax p d a b => some (d, fpMinMax true p (s.getX a) (s.getX b))
  | .fcvtfi p rm d a => some (d, roundIntTag tI64 (s.mode rm) (x p a))
  | _ => none

/-! ### Vector instructions, from R155 to R177 -/

/-- Whether VMSEL's mask has bit i: every bit when VMSEL is 15 (R122). -/
def State.member (s : State) (i : Nat) : Bool :=
  (if s.cc.vmsel = 15 then BitVec.allOnes 1024 else s.getM s.cc.vmsel).getLsbD i

/-- Whether element i below vl is active (R158): VSTART or above, and its bit of the mask that VMSEL names is set. -/
def State.activeAt (s : State) (i : Nat) : Bool := decide (s.cc.vstart.toNat ≤ i) && s.member i

/-- What an instruction gives a vector register: the tag, which elements below vl it writes and the contents of their
slots, the side band, the flags that it sets, and VSTART; with the conditions of R157 on the tags and on vl. -/
structure VecSpec where
  vd : VReg
  tag : Tag
  tagsOk : Bool
  lens : List Tag
  writes : Nat → Bool
  slot : Nat → Nat
  side : BitVec 1024
  flags : Flags := 0
  vstart : BitVec 10 := 0

/-- The instruction may run: vectors are enabled, no stop at an element is being tried (log 50: none is in any state that a
step leaves), LOOPI does not forbid the destination, and the tags and the length are those of R157. -/
structure VecReady (s : State) (p : VecSpec) : Prop where
  ven : s.cc.ven = true
  whole : s.cc.cut = none
  carry : s.cc.loopAct = true → s.cc.loopI = true → ¬ (40 ≤ p.vd.toNat)
  vd : p.vd.toNat < 48
  tags : p.tagsOk = true
  lens : ∀ t ∈ p.lens, s.vlN ≤ vlmax t

/-- What R115 and R158 leave in the destination of a vector instruction, and in everything else. -/
structure VecOut (s t : State) (p : VecSpec) : Prop where
  retires : Retires s t (s.cc.pc + 4)
  frame : FrameV s t p.vd
  tag : (t.getV p.vd).tag = p.tag
  written : ∀ i, i < s.vlN → i < vlmax p.tag → p.writes i = true →
    slotOf (t.getV p.vd).data p.tag i = p.slot i % 2 ^ tagWidth p.tag
  kept : ∀ i, i < s.vlN → i < vlmax p.tag → p.writes i = false →
    slotOf (t.getV p.vd).data p.tag i = slotOf (s.getV p.vd).data p.tag i
  tail : ∀ i, s.vlN ≤ i → i < vlmax p.tag → slotOf (t.getV p.vd).data p.tag i = 0
  side : (t.getV p.vd).side = p.side
  flags : FlagsSet s t p.flags
  vstart : t.cc.vstart = p.vstart

/-- The flags of all active elements, with those of forming an immediate operand when there is an active element
(R102, R156). -/
def State.vecFlags (s : State) (imm : Flags) (f : Nat → Nat × Flags) : Flags :=
  ((List.range s.vlN).filter s.activeAt).foldl (fun a i => a ||| (f i).2) 0 |||
    if ((List.range s.vlN).filter s.activeAt).isEmpty then 0 else imm

/-- An element-precise instruction that computes each active element of vd under a tag that is not SX. -/
def State.vecElems (s : State) (vd : VReg) (tag : Tag) (ok : Bool) (lens : List Tag) (imm : Flags)
    (f : Nat → Nat × Flags) : VecSpec :=
  { vd, tag, tagsOk := ok, lens, writes := s.activeAt, slot := fun i => fillSlot tag (f i).1
    side := sideAfter (s.getV vd).side tag s.cc.vstart.toNat s.vlN, flags := s.vecFlags imm f }

/-- As `vecElems`, for three operands of one tag that `ok` admits. -/
def State.vecThree (s : State) (vd va : VReg) (b : Third) (ok : Tag → Bool) (imm : Bool)
    (f : Tag → Nat → Nat × Flags) : VecSpec :=
  let t := (s.getV va).tag
  s.vecElems vd t (ok t && thirdTagIs s t b) [t] (if imm then thirdFlags s.cc.rm t b else 0) (f t)

/-- Integers of any sign, wrapped to the element (R163). -/
def intElem (t : Tag) (n : Int) : Nat × Flags := (wrapBits (tagWidth t) n, 0)

/-- VMAC and VNMAC: a signed product added to the accumulator (R109, R112, R165). -/
def State.macSpec (s : State) (vd va : VReg) (b : Third) (sign : Int) : VecSpec :=
  let t := (s.getV va).tag
  let dt := (s.getV vd).tag
  s.vecElems vd dt (macTags t dt && thirdTagIs s t b) [t, dt] (thirdFlags s.cc.rm t b) fun k =>
    if isInt t then
      (accInt s.cc.accsat dt (intAt (s.getV vd).data dt k + sign * (intAt (s.getV va).data t k * thirdInt s s.cc.rm t b k)), 0)
    else
      let (q, f) := mulExact (valOf (s.getV va).data t k) (thirdVal s s.cc.rm t b k)
      accDeliver s.cc.accsat s.cc.rm dt (slotOf (s.getV vd).data dt k) [(if sign = 1 then q else q.neg, f)]

/-- What R163 to R165 give an instruction of major opcode 0x20. -/
def vecArith (i : Instr) (s : State) : Option VecSpec :=
  let x (va : VReg) (t : Tag) (k : Nat) : Val := valOf (s.getV va).data t k
  let n (va : VReg) (t : Tag) (k : Nat) : Int := intAt (s.getV va).data t k
  let u (va : VReg) (t : Tag) (k : Nat) : Nat := bitsOf (s.getV va).data t k
  let y (b : Third) (t : Tag) (k : Nat) : Val := thirdVal s s.cc.rm t b k
  let m (b : Third) (t : Tag) (k : Nat) : Int := thirdInt s s.cc.rm t b k
  let w (b : Third) (t : Tag) (k : Nat) : Nat := thirdBits s s.cc.rm t b k
  let num (t : Tag) : Bool := isInt t || isFlt t
  let round (t : Tag) (e : Val × Flags) : Nat × Flags := ((roundTo t s.cc.rm e.1).1, e.2 ||| (roundTo t s.cc.rm e.1).2)
  match i with
  | .vadd d a b => some (s.vecThree d a b num true fun t k =>
      if isInt t then intElem t (n a t k + m b t k) else round t (addExact s.cc.rm (x a t k) (y b t k)))
  | .vsub d a b => some (s.vecThree d a b num true fun t k =>
      if isInt t then intElem t (n a t k - m b t k) else round t (addExact s.cc.rm (x a t k) (y b t k).neg))
  | .vmul d a b => some (s.vecThree d a b num true fun t k =>
      if isInt t then intElem t (n a t k * m b t k) else round t (mulExact (x a t k) (y b t k)))
  | .vdiv d a b => some (s.vecThree d a b num true fun t k =>
      if isInt t then intElem t (if m b t k = 0 then -1 else (n a t k).tdiv (m b t k))
      else round t (divExact (x a t k) (y b t k)))
  | .vmulh d a b => some (s.vecThree d a b isInt false fun t k => intElem t (n a t k * m b t k / (2 ^ tagWidth t : Nat)))
  | .vmin d a b => some (s.vecThree d a b num true fun t k =>
      if isInt t then (if n a t k < m b t k then u a t k else w b t k, 0) else pickElem t false (u a t k) (w b t k))
  | .vmax d a b => some (s.vecThree d a b num true fun t k =>
      if isInt t then (if n a t k < m b t k then w b t k else u a t k, 0) else pickElem t true (u a t k) (w b t k))
  | .vand d a b => some (s.vecThree d a b isInt false fun t k => (u a t k &&& w b t k, 0))
  | .vor d a b => some (s.vecThree d a b isInt false fun t k => (u a t k ||| w b t k, 0))
  | .vxor d a b => some (s.vecThree d a b isInt false fun t k => (u a t k ^^^ w b t k, 0))
  | .vsll d a b => some (s.vecThree d a b isInt false fun t k =>
      intElem t (u a t k * 2 ^ (thirdUnsigned s t b k % tagWidth t) : Nat))
  | .vsrl d a b => some (s.vecThree d a b isInt false fun t k =>
      (u a t k / 2 ^ (thirdUnsigned s t b k % tagWidth t), 0))
  | .vsra d a b => some (s.vecThree d a b isInt false fun t k =>
      intElem t (n a t k / (2 ^ (thirdUnsigned s t b k % tagWidth t) : Nat)))
  | .vadds d a b => some (s.vecThree d a b isInt false fun t k => intElem t (satTo t (n a t k + m b t k)))
  | .vsubs d a b => some (s.vecThree d a b isInt false fun t k => intElem t (satTo t (n a t k - m b t k)))
  | .vabsd d a b => some (s.vecThree d a b num true fun t k =>
      if isInt t then intElem t (satTo t (n a t k - m b t k).natAbs)
      else round t (let (r, f) := addExact s.cc.rm (x a t k) (y b t k).neg; (r.abs, f)))
  | .vmac d a b => some (s.macSpec d a b 1)
  | .vnmac d a b => some (s.macSpec d a b (-1))
  | .vdot4 d a b =>
    let t := (s.getV a).tag
    let dt := (s.getV d).tag
    some (s.vecElems d dt (isNarrow t && (s.getV b).tag == t && dt == (if isFlt t then tFP32 else tI32)) [t, dt] 0 fun k =>
      if isFlt t then
        accDeliver s.cc.accsat s.cc.rm dt (slotOf (s.getV d).data dt k)
          ((List.range 4).map fun j => mulExact (x a t (4 * k + j)) (x b t (4 * k + j)))
      else
        (accInt s.cc.accsat dt (n d dt k + ((List.range 4).map fun j => n a t (4 * k + j) * n b t (4 * k + j)).sum), 0))
  | _ => none

/-- What R166 to R168 give a single-operand instruction whose result is not an SX register. -/
def vecUnary (i : Instr) (s : State) : Option VecSpec :=
  let one (d a : VReg) (ok : Tag → Bool) (f : Tag → Nat → Nat × Flags) : VecSpec :=
    s.vecElems d (s.getV a).tag (ok (s.getV a).tag) [(s.getV a).tag] 0 (f (s.getV a).tag)
  let x (va : VReg) (t : Tag) (k : Nat) : Val := valOf (s.getV va).data t k
  let n (va : VReg) (t : Tag) (k : Nat) : Int := intAt (s.getV va).data t k
  let u (va : VReg) (t : Tag) (k : Nat) : Nat := bitsOf (s.getV va).data t k
  let round (t : Tag) (e : Val × Flags) : Nat × Flags := ((roundTo t s.cc.rm e.1).1, e.2 ||| (roundTo t s.cc.rm e.1).2)
  let num (t : Tag) : Bool := isInt t || isFlt t
  match i with
  | .vneg d a => some (one d a num fun t k =>
      if isInt t then intElem t (-(n a t k)) else signElem t (fun b => !b) (u a t k))
  | .vabs d a => some (one d a num fun t k =>
      if isInt t then intElem t (n a t k).natAbs else signElem t (fun _ => false) (u a t k))
  | .vsqrt d a => some (one d a isFlt fun t k => round t (sqrtExact (x a t k)))
  | .vrcp d a => some (one d a isFlt fun t k => round t (rcpExact (x a t k)))
  | .vrsqrt d a => some (one d a isFlt fun t k => round t (rsqrtExact (x a t k)))
  | .vexp2 d a => some (one d a isFlt fun t k => round t (exp2Exact (x a t k)))
  | .vlog2 d a => some (one d a isFlt fun t k => round t (log2Exact (x a t k)))
  | .vclass d a => some (s.vecElems d tUI16 (isFlt (s.getV a).tag) [(s.getV a).tag, tUI16] 0 fun k =>
      (2 ^ classBit (s.getV a).tag (u a (s.getV a).tag k), 0))
  | .vbcast d tag b => some (s.vecElems d tag true [tag] (thirdFlags s.cc.rm tag b) fun k => (thirdBits s s.cc.rm tag b k, 0))
  | _ => none

/-- What R173 and R174 give an instruction that moves elements into a vector register. -/
def vecMoves (i : Instr) (s : State) : Option VecSpec :=
  let u (va : VReg) (t : Tag) (k : Nat) : Nat := if k < s.vlN then bitsOf (s.getV va).data t k else 0
  let one (d a : VReg) (f : Tag → Nat → Nat) : VecSpec :=
    s.vecElems d (s.getV a).tag (isVal (s.getV a).tag) [(s.getV a).tag] 0 fun k => (f (s.getV a).tag k, 0)
  match i with
  | .vslup d a b =>
    let p := one d a fun t k => u a t (k - amount s b)
    some { p with writes := fun k => p.writes k && decide (amount s b ≤ k) }
  | .vsldn d a b => some (one d a fun t k => u a t (k + amount s b))
  | .vsl1up d a b => some (one d a fun t k => if k = 0 then (s.getX b).toNat % 2 ^ memBits t else u a t (k - 1))
  | .vsl1dn d a b => some (one d a fun t k =>
      if k + 1 = s.vlN then (s.getX b).toNat % 2 ^ memBits t else u a t (k + 1))
  | .vperm d a b =>
    let p := one d a fun t k =>
      let j := intAt (s.getV b).data (s.getV b).tag k
      if 0 ≤ j then u a t j.toNat else 0
    some { p with tagsOk := p.tagsOk && isInt (s.getV b).tag, lens := p.lens ++ [(s.getV b).tag] }
  | .vcomp d a mb =>
    let m := s.getM mb
    let p := one d a fun t k => match ((List.range s.vlN).filter m.getLsbD)[k]? with | some j => u a t j | none => 0
    some { p with writes := fun _ => true, vstart := s.cc.vstart
                  side := sideAfter (s.getV d).side (s.getV a).tag 0 s.vlN }
  | .viota d tag mb =>
    let p := s.vecElems d tag true [tag] 0 fun k => (popBelow (s.getM mb) k % 2 ^ tagWidth tag, 0)
    some { p with writes := s.member, vstart := s.cc.vstart, side := sideAfter (s.getV d).side tag 0 s.vlN }
  | .vsel d a b =>
    let p := s.vecThree d a b (fun t => isVal t || t == tRAW) true fun t k =>
      (if s.member k then bitsOf (s.getV a).data t k else thirdBits s s.cc.rm t b k, 0)
    some { p with writes := fun k => decide (s.cc.vstart.toNat ≤ k) }
  | .vins d xa b =>
    let t := (s.getV d).tag
    let p := s.vecElems d t (isVal t) [t] 0 fun _ => ((s.getX xa).toNat % 2 ^ memBits t, 0)
    some { p with writes := fun k => p.writes k && decide (k = amount s b) }
  | _ => none

/-- What R115 and R168 give VMOV and VTAG: the slots of va as they stand, and its side band. -/
def vecCopies (i : Instr) (s : State) : Option VecSpec :=
  match i with
  | .vmov d a =>
    let t := (s.getV a).tag
    some { vd := d, tag := t, tagsOk := true, lens := [t], writes := s.activeAt
           slot := fun k => slotOf (s.getV a).data t k, side := (s.vmovReg (s.getV d) (s.getV a) t).side }
  | .vtag d a tag =>
    some { vd := d, tag := tag, tagsOk := true, lens := [(s.getV a).tag, tag]
           writes := fun k => decide (s.cc.vstart.toNat ≤ k), slot := fun k => slotOf (s.getV a).data tag k
           side := sideTail tag s.vlN (copySide 64 (s.getV d).side (s.getV a).side
             (touchedGroups tag s.cc.vstart.toNat s.vlN)) }
  | _ => none

/-- The source element of a conversion of R170 and R171; none for a reserved code. -/
def convertSource (i : Instr) (s : State) (k : Nat) : Option Val :=
  match i with
  | .vcvt _ a tag _ part => elemVal (s.getV a) (s.getV a).tag (part.toNat * vlmax tag + k)
  | .vcvtsc _ a b _ part =>
    let j := part.toNat * vlmax s.cc.rtag + k
    (elemVal (s.getV a) (s.getV a).tag j).map fun x => scaleValue x (BitVec.ofNat 8 (slotOf (s.getV b).data tE8M0 (j / 32)))
  | _ => none

/-- What R170 and R171 give a conversion into a tag that is not SX. -/
def vecConvert (i : Instr) (s : State) : Option VecSpec :=
  let go (d a : VReg) (tag : Tag) (more : Bool) (lens : List Tag) (rm : BitVec 3) (part : BitVec 2) : VecSpec :=
    let t := (s.getV a).tag
    s.vecElems d tag ((isVal t || isSx t) && isVal tag && more && partOk t tag part) (t :: lens) 0 fun k =>
      roundTo tag (s.mode rm) ((convertSource i s k).getD (.nan false))
  match i with
  | .vcvt d a tag rm part => some (go d a tag true [tag] rm part)
  | .vcvtsc d a b rm part =>
    some (go d a s.cc.rtag ((s.getV b).tag == tE8M0) [(s.getV b).tag, s.cc.rtag] rm part)
  | _ => none

/-- What an instruction gives an SX register (R172): the rounding mode and the source values, with the conditions of R157. -/
structure SxSpec where
  vd : VReg
  tag : Tag
  mode : BitVec 3
  tagsOk : Bool
  lens : List Tag
  src : Nat → Option Val

/-- VSXNORM, and VCVT and VCVTSC into an SX tag (R168, R170, R171). -/
def sxResult (i : Instr) (s : State) : Option SxSpec :=
  let from_ (a : VReg) (dt : Tag) (part : BitVec 2) : Bool :=
    (isVal (s.getV a).tag || isSx (s.getV a).tag) && isSx dt && partOk (s.getV a).tag dt part
  match i with
  | .vsxnorm d a => some ⟨d, (s.getV a).tag, 0, isSx (s.getV a).tag, [(s.getV a).tag], elemVal (s.getV a) (s.getV a).tag⟩
  | .vcvt d a tag rm part => some ⟨d, tag, s.mode rm, from_ a tag part, [(s.getV a).tag, tag], convertSource i s⟩
  | .vcvtsc d a b rm part =>
    some ⟨d, s.cc.rtag, s.mode rm, from_ a s.cc.rtag part && (s.getV b).tag == tE8M0,
      [(s.getV a).tag, (s.getV b).tag, s.cc.rtag], convertSource i s⟩
  | _ => none

/-- Whether block b holds an active element. -/
def State.blockActive (s : State) (b : Nat) : Bool :=
  (List.range 16).any fun j => decide (16 * b + j < s.vlN) && s.activeAt (16 * b + j)

/-- The quantised block b: positions at or above vl and inactive ones count as zero (R106, R172). -/
def State.blockOf (s : State) (p : SxSpec) (b : Nat) : SxBlock × Flags :=
  quantiseSx (sxK p.tag) p.mode ((List.range 16).map fun j =>
    if 16 * b + j < s.vlN ∧ s.member (16 * b + j) = true then (p.src (16 * b + j)).getD (.nan false) else .fin false 0 0)

/-- The instruction may run, and no source element of a block that it handles is a reserved code. -/
structure SxReady (s : State) (p : SxSpec) : Prop where
  ven : s.cc.ven = true
  whole : s.cc.cut = none
  carry : s.cc.loopAct = true → s.cc.loopI = true → ¬ (40 ≤ p.vd.toNat)
  vd : p.vd.toNat < 48
  tags : p.tagsOk = true
  lens : ∀ t ∈ p.lens, s.vlN ≤ vlmax t
  codes : ∀ b j, j < 16 → s.blockActive b = true → 16 * b + j < s.vlN → s.member (16 * b + j) = true →
    (p.src (16 * b + j)).isSome = true

/-- What R172 leaves in an SX register: each block with an active element quantised anew, with its side band; every other
block below vl as it was; the tail, in data and side band. -/
structure SxOut (s t : State) (p : SxSpec) : Prop where
  retires : Retires s t (s.cc.pc + 4)
  frame : FrameV s t p.vd
  tag : (t.getV p.vd).tag = p.tag
  written : ∀ b, s.blockActive b = true → let q := (s.blockOf p b).1
    sxE (t.getV p.vd).side b = q.e ∧ sxMu (t.getV p.vd).side b = q.mu ∧
      ∀ j e, j < 16 → 16 * b + j < s.vlN → q.sm[j]? = some e →
        slotOf (t.getV p.vd).data p.tag (16 * b + j) = (if e.1 then 128 else 0) + e.2
  kept : ∀ b, 16 * b < s.vlN → s.blockActive b = false →
    fieldAt (t.getV p.vd).side.toNat 16 b = fieldAt (s.getV p.vd).side.toNat 16 b ∧
      ∀ j, j < 16 → 16 * b + j < s.vlN →
        slotOf (t.getV p.vd).data p.tag (16 * b + j) = slotOf (s.getV p.vd).data p.tag (16 * b + j)
  tail : (∀ i, s.vlN ≤ i → i < vlmax p.tag → slotOf (t.getV p.vd).data p.tag i = 0) ∧
    ∀ b, s.vlN ≤ 16 * b → b < 64 → fieldAt (t.getV p.vd).side.toNat 16 b = 0
  flags : FlagsSet s t (((List.range 64).filter s.blockActive).foldl (fun f b => f ||| (s.blockOf p b).2) 0)
  vstart : t.cc.vstart = 0

/-- A vector register that holds one element. -/
def State.oneElem (s : State) (vd : VReg) (tag : Tag) (ok : Bool) (len : Tag) (r : Nat × Flags) : VecSpec :=
  { vd, tag, tagsOk := ok, lens := [len], writes := fun _ => true, slot := fun k => if k = 0 then fillSlot tag r.1 else 0
    side := 0, flags := r.2, vstart := s.cc.vstart }

/-- What R175 gives the reductions into element 0 of vd. -/
def vecReduce (i : Instr) (s : State) : Option VecSpec :=
  let is := (List.range s.vlN).filter s.member
  let sum (strict : Bool) (d a b : VReg) : VecSpec :=
    let t := (s.getV a).tag
    let u := (s.getV b).tag
    let acc := slotOf (s.getV b).data u 0
    s.oneElem d u ((isFlt t || isInt t) && u == sumTag t) t
      (if is = [] then (acc, 0)
       else if isInt t then
         (accInt s.cc.accsat u (intAt (s.getV b).data u 0 + (is.map fun k => intAt (s.getV a).data t k).sum), 0)
       else sumForm strict (if strict then fun _ => 0 else s.draw.1) s.cc.accsat s.cc.rm acc
         (is.map fun k => (valOf (s.getV a).data t k, flagIf (valOf (s.getV a).data t k).isSig fNV)))
  let fold (d a b : VReg) (ok : Tag → Bool) (f : Tag → Nat → Nat → Nat × Flags) : VecSpec :=
    let t := (s.getV a).tag
    s.oneElem d t (ok t && (s.getV b).tag == t) t
      (is.foldl (fun r k => ((f t r.1 (bitsOf (s.getV a).data t k)).1, r.2 ||| (f t r.1 (bitsOf (s.getV a).data t k)).2))
        (bitsOf (s.getV b).data t 0, 0))
  let num (t : Tag) : Bool := isFlt t || isInt t
  match i with
  | .vredsumS d a b => some (sum true d a b)
  | .vredsumF d a b => some (sum false d a b)
  | .vredmax d a b => some (fold d a b num fun t x y => pickElem t true x y)
  | .vredmin d a b => some (fold d a b num fun t x y => pickElem t false x y)
  | .vredand d a b => some (fold d a b isInt fun _ x y => (x &&& y, 0))
  | .vredor d a b => some (fold d a b isInt fun _ x y => (x ||| y, 0))
  | .vredxor d a b => some (fold d a b isInt fun _ x y => (x ^^^ y, 0))
  | _ => none

/-- What an instruction gives a mask register, and the conditions of R157. -/
structure MaskSpec where
  md : MReg
  tagsOk : Bool := true
  lens : List Tag := []
  writes : Nat → Bool
  bit : Nat → Bool
  flags : Flags := 0
  vstart : BitVec 10

/-- The instruction may run. -/
structure MaskReady (s : State) (p : MaskSpec) : Prop where
  ven : s.cc.ven = true
  whole : s.cc.cut = none
  carry : s.cc.loopAct = true → s.cc.loopI = true → ¬ (8 ≤ p.md.toNat)
  md : p.md.toNat < 12
  tags : p.tagsOk = true
  lens : ∀ t ∈ p.lens, s.vlN ≤ vlmax t

/-- What R115 and R159 leave in the mask register that an instruction writes, and in everything else. -/
structure MaskOut (s t : State) (p : MaskSpec) : Prop where
  retires : Retires s t (s.cc.pc + 4)
  frame : FrameM s t p.md
  written : ∀ i, i < s.vlN → i < 1024 → p.writes i = true → t.maskBit p.md i = p.bit i
  kept : ∀ i, i < s.vlN → p.writes i = false → t.maskBit p.md i = s.maskBit p.md i
  tail : ∀ i, s.vlN ≤ i → t.maskBit p.md i = false
  flags : FlagsSet s t p.flags
  vstart : t.cc.vstart = p.vstart

/-- What R169 gives a compare. -/
def maskCompare (i : Instr) (s : State) : Option MaskSpec :=
  let go (md : MReg) (va : VReg) (b : Third) (test : Ordering → Bool) (nan quiet : Bool) : MaskSpec :=
    let t := (s.getV va).tag
    let x (k : Nat) : Val := valOf (s.getV va).data t k
    let y (k : Nat) : Val := thirdVal s s.cc.rm t b k
    let un (k : Nat) : Bool := (x k).isNan || (y k).isNan
    { md, tagsOk := isVal t && thirdTagIs s t b, lens := [t], writes := s.activeAt, vstart := 0
      bit := fun k => if un k then nan else test (cmpVal (x k) (y k))
      flags := s.vecFlags (thirdFlags s.cc.rm t b) fun k =>
        (0, if un k && (!quiet || (x k).isSig || (y k).isSig) then fNV else 0) }
  match i with
  | .vcmpeq m a b => some (go m a b (· == .eq) false true)
  | .vcmpne m a b => some (go m a b (· != .eq) true true)
  | .vcmplt m a b => some (go m a b (· == .lt) false false)
  | .vcmple m a b => some (go m a b (· != .gt) false false)
  | .vcmpgt m a b => some (go m a b (· == .gt) false false)
  | .vcmpge m a b => some (go m a b (· != .lt) false false)
  | .vcmpun m a b => some (go m a b (fun _ => false) true true)
  | _ => none

/-- What R177 gives the mask operations that write a mask. -/
def maskLogic (i : Instr) (s : State) : Option MaskSpec :=
  let go (md : MReg) (bit : Nat → Bool) : MaskSpec := { md, writes := fun _ => true, bit, vstart := s.cc.vstart }
  match i with
  | .mand d a b => some (go d fun k => s.maskBit a k && s.maskBit b k)
  | .mor d a b => some (go d fun k => s.maskBit a k || s.maskBit b k)
  | .mxor d a b => some (go d fun k => s.maskBit a k != s.maskBit b k)
  | .mandn d a b => some (go d fun k => s.maskBit a k && !s.maskBit b k)
  | .mnot d a => some (go d fun k => !s.maskBit a k)
  | .mmov d a => some (go d fun k => s.maskBit a k)
  | .msetall d => some (go d fun _ => true)
  | .mclr d => some (go d fun _ => false)
  | _ => none

/-! ### The checks of R157 -/

/-- The tags that "format tag mismatch" reports for an instruction of major opcode 0x20 to 0x27: those of va, vb and vd, with 0
for a register that it does not read (R157); for VBEST those of its four registers (R176). -/
def tagReport (i : Instr) (s : State) : Nat :=
  let g (v : VReg) : Nat := (s.getV v).tag.toNat
  let third (b : Third) : Nat := match b with | .vv v => g v | _ => 0
  match i with
  | .vadd _ a b | .vsub _ a b | .vmul _ a b | .vmulh _ a b | .vdiv _ a b | .vmin _ a b | .vmax _ a b | .vand _ a b
  | .vor _ a b | .vxor _ a b | .vsll _ a b | .vsrl _ a b | .vsra _ a b | .vadds _ a b | .vsubs _ a b | .vabsd _ a b
  | .vcmpeq _ a b | .vcmpne _ a b | .vcmplt _ a b | .vcmple _ a b | .vcmpgt _ a b | .vcmpge _ a b | .vcmpun _ a b
  | .vsel _ a b => g a + 2 ^ 8 * third b
  | .vmac d a b | .vnmac d a b => g a + 2 ^ 8 * third b + 2 ^ 16 * g d
  | .vdot4 d a b => g a + 2 ^ 8 * g b + 2 ^ 16 * g d
  | .vneg _ a | .vabs _ a | .vsqrt _ a | .vrcp _ a | .vrsqrt _ a | .vexp2 _ a | .vlog2 _ a | .vclass _ a | .vsxnorm _ a
  | .vcvt _ a _ _ _ | .vslup _ a _ | .vsldn _ a _ | .vsl1up _ a _ | .vsl1dn _ a _ | .vcomp _ a _ | .vext _ a _
  | .vargmax _ a | .vargmin _ a => g a
  | .vcvtsc _ a b _ _ | .vperm _ a b | .vredsumS _ a b | .vredsumF _ a b | .vredmax _ a b | .vredmin _ a b | .vredand _ a b
  | .vredor _ a b | .vredxor _ a b => g a + 2 ^ 8 * g b
  | .vins d _ _ => 2 ^ 16 * g d
  | .vbestMax v k c j | .vbestMin v k c j => g v + 2 ^ 8 * g c + 2 ^ 16 * g k + 2 ^ 24 * g j
  | _ => 0

/-- What R157 checks of an instruction: the codes of its destinations (R364), whether its tags are admitted, what a mismatch
reports, and the tags whose length counts. -/
structure CheckSpec where
  dsts : List Nat
  tagsOk : Bool
  report : Nat
  lens : List Tag

/-- The conditions of the entries of major opcodes 0x20 to 0x27 (R163 to R177). -/
def checkSpec (i : Instr) (s : State) : Option CheckSpec :=
  let tag (v : VReg) : Tag := (s.getV v).tag
  let vec (p : VecSpec) : CheckSpec := ⟨[p.vd.toNat], p.tagsOk, tagReport i s, p.lens⟩
  let mask (p : MaskSpec) : CheckSpec := ⟨[0x40 + p.md.toNat], p.tagsOk, tagReport i s, p.lens⟩
  let best (v k c j : VReg) : CheckSpec :=
    ⟨[v.toNat, k.toNat, c.toNat, j.toNat], (isInt (tag v) || isFlt (tag v)) && tag c == tag v && isInt (tag k) && tag j == tag k,
      tagReport i s, [tag v, tag k, tag c, tag j]⟩
  match i with
  | .vargmax _ a | .vargmin _ a => some ⟨[], isInt (tag a) || isFlt (tag a), tagReport i s, [tag a]⟩
  | .vext _ a _ => some ⟨[], isVal (tag a), tagReport i s, [tag a]⟩
  | .mpopc _ _ | .mfirst _ _ => some ⟨[], true, 0, []⟩
  | .vbestMax v k c j | .vbestMin v k c j => some (best v k c j)
  | _ =>
    match sxResult i s with
    | some q => some ⟨[q.vd.toNat], q.tagsOk || ((vecConvert i s).map VecSpec.tagsOk).getD false, tagReport i s, q.lens⟩
    | none =>
      match vecArith i s <|> vecUnary i s <|> vecMoves i s <|> vecCopies i s <|> vecReduce i s with
      | some p => some (vec p)
      | none => (maskCompare i s <|> maskLogic i s).map mask

/-- The registers that a LOOPI carries: v40 to v47, and m8 to m11 (R47). -/
def loopCarried (code : Nat) : Bool := decide (40 ≤ code ∧ code ≤ 47 ∨ 0x48 ≤ code ∧ code ≤ 0x4B)

/-- The lowest number below n with a property. -/
def Lowest (n : Nat) (p : Nat → Bool) (k : Nat) : Prop := k < n ∧ p k = true ∧ ∀ j, j < k → p j = false

/-! ### Accesses -/

/-- Whether a byte address lies in one of the pieces of an access. -/
def inPieces (ps : List Piece) (a : Nat) : Prop := ∃ p ∈ ps, p.x.pa ≤ a ∧ a < p.x.pa + p.len

/-- What a translation may change: the A and D bits of a table entry in memory, with what a write of WM brings about (the
snoop of a line that the host holds, the compression code of a block, a stamp on its way), and what the TLBs, the walk
caches, the performance counters and the leaves of the instruction's walks hold. -/
def Translates (s t : State) : Prop :=
  t = { s with
    mem := t.mem, poison := t.poison, codes := t.codes, metas := t.metas, stored := t.stored, cores := t.cores
    clusters := t.clusters
    hostHeld := t.hostHeld, outbox := t.outbox, agenda := t.agenda
    cc := { s.cc with tlb := t.cc.tlb, held := t.cc.held } }

/-- A scalar load: its destination, base, offset, bytes and whether it sign-extends (R224). -/
def loadForm (i : Instr) : Option (XReg × XReg × BitVec 12 × Nat × Bool) :=
  match i with
  | .ldb d a k => some (d, a, k, 1, true)
  | .ldh d a k => some (d, a, k, 2, true)
  | .ldw d a k => some (d, a, k, 4, true)
  | .ldd d a k => some (d, a, k, 8, false)
  | .ldbz d a k => some (d, a, k, 1, false)
  | .ldhz d a k => some (d, a, k, 2, false)
  | .ldwz d a k => some (d, a, k, 4, false)
  | _ => none

/-- A scalar store: its source, base, offset and bytes (R224). -/
def storeForm (i : Instr) : Option (XReg × XReg × BitVec 12 × Nat) :=
  match i with
  | .stb x a k => some (x, a, k, 1)
  | .sth x a k => some (x, a, k, 2)
  | .stw x a k => some (x, a, k, 4)
  | .std x a k => some (x, a, k, 8)
  | _ => none

/-- The value of n bytes in a 64-bit register. -/
def extended (signed : Bool) (n v : Nat) : Word := .ofInt 64 (intOf signed (8 * n) v)

/-! ### Traps and levels -/

/-- The state of a control core in which a trap has been taken by steps 1 to 5 of R360, before the handler is fetched (step 6),
against the state in which its instruction began. -/
structure TrapTaken (c d : ControlCore) (t : Trap) (epc : Word) : Prop where
  tepc : d.tepc = epc
  tcause : d.tcause = t.cause
  tval : d.tval = t.tval
  ppriv : Level.ofCode d.ppriv = c.level
  level : d.level = if c.level = .service then .service else .supervisor
  depth : d.depth = c.depth + 1
  pc : d.pc = c.tvec
  entering : d.entering = true
  vstart : d.vstart = t.vstart.getD c.vstart
  tstep : c.macroOp = none → d.tstep = t.tstep.getD c.tstep
  step : ∀ op m, c.macroOp = some (op, m) → d.macroOp = none ∧ d.tstep = t.tstep.getD (.ofNat 32 m)
  vectors : d.ven = c.ven ∧ d.loopAct = c.loopAct ∧ d.loopI = c.loopI
  users : d.uistatus = c.uistatus ∧ d.shadow = c.shadow
  data : d.x = c.x ∧ d.v = c.v ∧ d.m = c.m ∧ d.t = c.t

/-- The state in which the handler of a trap is to be fetched: step 1 of R360 has dropped the loads of the instruction that
were on their way to peers, which stay outstanding (R389), steps 2 to 5 have been taken, and the fence of a pre-emption (R51)
is made where the context's own loads and stores are performed, else due before the handler's first instruction. -/
def State.atHandler (s : State) (t : Trap) (epc : Word) : State :=
  let mine (r : PeerRead) : Bool := r.cc == s.cc.ctxid && r.token == 0
  let u : State := { s with
    cc := s.cc.trapEntry t epc
    peerReads := s.peerReads.filter fun r => !mine r
    strays := s.strays ++ (s.peerReads.filter fun r => mine r && r.got == .waiting).map fun r => ⟨r.cc, r.node, r.tag, false⟩ }
  if t.cause ≠ 0x0D ∧ t.cause ≠ 0x0E then u
  else if s.cc.stores = [] ∧ s.cc.loads = 0 then u.release 4
  else { u with cc := { u.cc with fencing := true } }

/-- A context has ended by a double fault (R365): its control core is free, no pre-emption request is pending, FAULT2 is
TVEC with its low byte replaced by the second cause, and TEPC, TCAUSE and TVAL are those of the original trap. -/
structure Halted (c d : ControlCore) (second : BitVec 8) : Prop where
  run : d.run = .absent
  request : d.request = none
  fault2 : d.fault2 = (c.tvec &&& ~~~0xFF#64) ||| second.setWidth 64
  original : d.tepc = c.tepc ∧ d.tcause = c.tcause ∧ d.tval = c.tval
  claim : d.claim = none ∧ d.parts = [] ∧ d.ring = none
  tiles : ∀ k, k < 8 → d.t[k]? = some ({} : Tile)

/-- The record of a fault domain's event (R339). -/
def faultRecord (code index rcb : Nat) (word : BitVec 32) (tick : Word) : List Byte :=
  leBytes 4 code ++ leBytes 2 index ++ leBytes 2 0 ++ leBytes 8 rcb ++ leBytes 4 word.toNat ++ leBytes 4 0 ++ leBytes 8 tick.toNat

/-- A region has become FAULTED (R328, R339, R365): its state word and its fault-cause word, its contexts ended, its live
children terminated, and the event of its fault domain, whose record does not lie in the RCB. -/
structure Faulted (s u : State) (rcb : Nat) (r : Region) (index : Nat) (cause : BitVec 8) : Prop where
  region : ∃ q, u.regionAt rcb = some q ∧ q.state = .faulted ∧ ∀ c ∈ q.ctxs, c = .exited
  children : ∀ p q, p ≠ rcb → s.regionAt p = some q → q.parent = some rcb → q.state.ended = false →
    ∃ k, u.regionAt p = some k ∧ k.state = .terminated
  event : let d := s.domainAt r.domain
    let slot := (d.base.extractLsb' 6 42).toNat * 64 + 32 * (d.head.toNat % 2 ^ d.size.toNat)
    let word : BitVec 32 := .ofNat 32 (65536 * index + cause.toNat)
    let room := d.size ≠ 0 ∧ (d.head - d.tail).toNat < 2 ^ d.size.toNat ∧ inWm slot 32 = true
    (slot + 32 ≤ rcb ∨ rcb + 256 ≤ slot → u.peek (rcb + 0x48) 4 = 5 ∧ u.peek (rcb + 0x4C) 4 = word.toNat) ∧
    (room → s.poisoned slot 32 = false → (u.domainAt r.domain).head = d.head + 1 ∧ u.bytes slot 32 = faultRecord 0x20 index rcb word s.tick) ∧
    (¬ room → (u.domainAt r.domain).lost = d.lost + 1 ∧ (u.domainAt r.domain).head = d.head)

/-- The clock of the die of a control core has advanced by one release at die scope or wider (R334), and no other has. -/
def ClockAdvanced (s t : State) : Prop :=
  ∀ d, t.dieAt d = if d = dieOf s.cc.ctxid then
    { s.dieAt d with vc := Vector.ofFn fun k => if k.val = d then (s.dieAt d).vc[k] + 1 else (s.dieAt d).vc[k] }
  else s.dieAt d

/-- A context has left its control core (R149, R150): the core holds none, its tiles and its counts are clear, and the fence
at device scope has been made. -/
structure Freed (s t : State) : Prop where
  run : t.cc.run = .absent
  region : t.cc.region = none
  tiles : ∀ k, k < 8 → t.cc.t[k]? = some ({} : Tile)
  counts : t.cc.out = {}
  ring : t.cc.ring = none ∧ t.cc.request = none ∧ t.cc.claim = none
  clock : ClockAdvanced s t

/-- The resume block of R367 at an address, in memory: the kind, the user-interrupt registers with the pending ring, the
inactive set of x28 to x31, TSTEP, TSCRATCH and the token serial; the hook is as it was. -/
structure ResumeBlock (s t : State) (pa : Nat) : Prop where
  kind : t.peek pa 8 = if s.cc.tcause = 0x0D then 1 else 2
  uivec : t.peek (pa + 0x08) 8 = s.cc.uivec.toNat
  uiepc : t.peek (pa + 0x10) 8 = s.cc.uiepc.toNat
  ui : t.peek (pa + 0x18) 8 = s.cc.uicause.toNat + 2 ^ 16 * s.cc.uistatus.toNat +
    match s.cc.ring with | some c => 2 ^ 24 + 2 ^ 32 * c.toNat | none => 0
  set : ∀ k : Fin 4, t.peek (pa + 0x20 + 8 * k.val) 8 = s.cc.shadow[k].toNat
  tstep : t.peek (pa + 0x40) 8 = s.cc.tstep.toNat
  hook : t.peek (pa + 0x48) 8 = s.peek (pa + 0x48) 8
  tscratch : t.peek (pa + 0x50) 8 = s.cc.tscratch.toNat
  serial : t.peek (pa + 0x58) 8 = s.cc.serial.toNat

/-- The words that need supervisor level (R88), CSR accesses apart. -/
def needsSupervisor (i : Instr) : Bool :=
  match i with
  | .tret => true
  | .yield => true
  | .tlbinv _ _ => true
  | .lgset _ => true
  | .cmmov _ _ _ => true
  | .cmseal _ _ _ => true
  | .cmopen _ _ _ => true
  | _ => false

/-- The number and the register that a CSR instruction writes its old value to; and for those that write, the new value
that they form from the old one (R144), none where xa = x0 makes no write. -/
def csrForm (i : Instr) (s : State) : Option (XReg × BitVec 12 × (Word → Option Word)) :=
  match i with
  | .csrr d n => some (d, n, fun _ => none)
  | .csrw d a n => some (d, n, fun _ => some (s.getX a))
  | .csrs d a n => some (d, n, fun old => if a = 0 then none else some (old ||| s.getX a))
  | .csrc d a n => some (d, n, fun old => if a = 0 then none else some (old &&& ~~~(s.getX a)))
  | _ => none

/-! ### Vector memory, from R213 to R221 -/

/-- An access that an entry of the control core's TLB serves with its bits set, and that no earlier write to a device-class
page of a peer holds back (R227). -/
def State.served (s : State) (a : Access) (va : Word) : Option Xlat :=
  match s.cc.tlb.find? fun (t : TlbEntry) => t.matches s.cc.asid va with
  | none => none
  | some e =>
    match s.checkLeaf a va e.entry e.level with
    | .error _ => none
    | .ok x =>
      if pteA e.entry = true ∧ (a.kind.isWrite = true → pteD e.entry = true) ∧
          (x.ic = true → a.kind ≠ .fetch → s.icPending = false) then some x else none

/-- Whether no block of a range is stored encoded (R283). -/
def State.rawAt (s : State) (pa n : Nat) : Bool := (blocksOf pa n).all fun b => (lookupT s.stored b).isNone

/-- An access reads and writes the bytes of a range as they decode: its page has compression enabled, or none of its blocks
is stored encoded (R283, R285). -/
def State.plainIn (s : State) (ce : Bool) (pa n : Nat) : Prop := ce = true ∨ s.rawAt pa n = true

/-- The same of runs of bytes on pages that agree in compression. -/
def State.plainSpans (s : State) (ps : List Span) : Prop :=
  (∀ p ∈ ps, p.ce = true) ∨ ∀ p ∈ ps, p.ce = false ∧ s.rawAt p.at_ p.n = true

/-- The same of an image and its completion word (R275). -/
def State.plainImage (s : State) (image : List Span) : Prop :=
  s.plainSpans (⟨completionAt image, 4, (image.headD ⟨0, 0, false⟩).ce⟩ :: image)

/-- An access of n bytes of WM in one page without compression or poison, no block of which is stored encoded, which the TLB
serves. -/
def State.plainLeaf (s : State) (kind : Acc) (va : Word) (n : Nat) : Option Xlat :=
  (s.served ⟨kind, true, n⟩ va).bind fun x =>
    if va.toNat % 65536 + n ≤ 65536 ∧ x.ty = 0 ∧ x.ce = false ∧ s.rawAt x.pa n = true ∧
        (kind.isWrite = false → s.poisoned x.pa n = false)
    then some x else none

/-- Its address. -/
def State.plainAt (s : State) (kind : Acc) (va : Word) (n : Nat) : Option Nat := (s.plainLeaf kind va n).map Xlat.pa

/-- Its address, on a page of idempotent class. -/
def State.quietAt (s : State) (kind : Acc) (va : Word) (n : Nat) : Option Nat :=
  (s.plainLeaf kind va n).bind fun x => if x.ic then none else some x.pa

/-- The form, the register and the base of a vector load. -/
def vecLoadForm (i : Instr) : Option (MemForm × VReg × XReg) :=
  match i with
  | .vld v a _ => some (.unit, v, a)
  | .vlds v a _ => some (.stride, v, a)
  | .vldx v a k _ => some (.index k, v, a)
  | .vldff v a _ => some (.first, v, a)
  | _ => none

/-- The form, the register and the base of a vector store. -/
def vecStoreForm (i : Instr) : Option (MemForm × VReg × XReg) :=
  match i with
  | .vst v a _ => some (.unit, v, a)
  | .vsts v a _ => some (.stride, v, a)
  | .vstx v a k _ => some (.index k, v, a)
  | _ => none

/-- The virtual address of element i of whole bytes (R213, R214): packed, at a stride, or at an offset from a vector. -/
def State.elemAddr (s : State) (form : MemForm) (base : Word) (i : Nat) : Word :=
  match form with
  | .stride => base + .ofInt 64 (i * s.cc.vstr.toInt)
  | .index k => base + .ofInt 64 (intAt (s.getV k).data (s.getV k).tag i)
  | _ => base + .ofNat 64 (i * (tagWidth s.cc.mtag / 8))

/-- MFMT asks for neither conversion nor scale, and the elements take whole bytes. -/
def State.plainFormat (s : State) : Prop :=
  s.cc.rawm = false ∧ s.cc.scaleMode = 0 ∧ s.cc.mtag = s.cc.rtag ∧ isVal s.cc.mtag = true ∧ isSub s.cc.mtag = false

/-- What a load of plain elements from memory gives its register. -/
def State.loadSpec (s : State) (form : MemForm) (vr : VReg) (base : Word) : VecSpec :=
  let n := tagWidth s.cc.rtag / 8
  s.vecElems vr s.cc.rtag true (memLens s form) 0 fun i =>
    match s.plainAt .load (s.elemAddr form base i) n with
    | some pa => (leNat ((List.range n).map fun j => Memory.read s.mem (pa + j)), 0)
    | none => (0, 0)

/-! ### Tiles, from R179 to R196 -/

/-- 1 where writes of a macro-operation to peers are still to be acknowledged, for which T waits when it is done, else 0: no
state that a step leaves has them without a macro-operation (R197, R345). -/
def ControlCore.sending (c : ControlCore) : BitVec 12 := if c.stores.any fun w => !w.counted && !w.tile then 1 else 0

/-- A tile instruction may run: vectors are enabled, and no LOOPI is open (R47, R123). -/
def State.tilesReady (s : State) : Prop := s.cc.ven = true ∧ (s.cc.loopAct = true → s.cc.loopI = false)

/-- The flags of the elements of a tile. -/
def tileFlags (rows cols : Nat) (f : Nat → Nat → Nat × Flags) : Flags :=
  (List.range rows).foldl (fun g i => (List.range cols).foldl (fun g k => g ||| (f i k).2) g) 0

/-- A dense tile has been written whole: its configuration, its elements and the flags. -/
structure DenseOut (s t : State) (td : TReg) (w : BitVec 32) (f : Nat → Nat → Nat × Flags) : Prop where
  retires : Retires s t (s.cc.pc + 4)
  frame : FrameT s t td
  cfg : (t.getT td).cfg = some w
  inUse : (t.getT td).inUse = true
  elems : ∀ i k, i < cfgRows w → k < cfgCols w → k < vlmax (cfgTag w) →
    slotOf ((t.getT td).row i).data (cfgTag w) k = fillSlot (cfgTag w) (f i k).1 % 2 ^ tagWidth (cfgTag w)
  flags : FlagsSet s t (tileFlags (cfgRows w) (cfgCols w) f)

/-- The old bits of an element of a tile. -/
def State.tileSlot (s : State) (td : TReg) (i k : Nat) : Nat := slotOf ((s.getT td).row i).data (s.getT td).tag k

/-! ### Atomics (R228) -/

/-- A scalar atomic: destination and comparand, address, operand, size, release and scope. -/
def atomForm (i : Instr) : Option (XReg × XReg × XReg × BitVec 1 × BitVec 1 × BitVec 3) :=
  match i with
  | .amoadd d a b z _ r c => some (d, a, b, z, r, c)
  | .amoaddf d a b z _ r c => some (d, a, b, z, r, c)
  | .amoand d a b z _ r c => some (d, a, b, z, r, c)
  | .amoor d a b z _ r c => some (d, a, b, z, r, c)
  | .amoxor d a b z _ r c => some (d, a, b, z, r, c)
  | .amomax d a b z _ r c => some (d, a, b, z, r, c)
  | .amomin d a b z _ r c => some (d, a, b, z, r, c)
  | .amomaxu d a b z _ r c => some (d, a, b, z, r, c)
  | .amominu d a b z _ r c => some (d, a, b, z, r, c)
  | .amoswap d a b z _ r c => some (d, a, b, z, r, c)
  | .amocas d a b z _ r c => some (d, a, b, z, r, c)
  | _ => none

/-- What an atomic leaves in memory and the flags that it sets, on w-bit operands: the old value, that of xb and that
of xd. -/
def atomResult (i : Instr) (w : Nat) (rm : BitVec 3) (old b d : Nat) : Nat × Flags :=
  let n (x : Nat) : Int := intOf true w x
  match i with
  | .amoadd .. => ((old + b) % 2 ^ w, 0)
  | .amoaddf .. =>
    let f := if w = 32 then fmtFP32 else fmtFP64
    let e := addExact rm (f.decode old) (f.decode b)
    ((f.round rm e.1).1, e.2 ||| (f.round rm e.1).2)
  | .amoand .. => (old &&& b, 0)
  | .amoor .. => (old ||| b, 0)
  | .amoxor .. => (old ^^^ b, 0)
  | .amomax .. => (if n old < n b then b else old, 0)
  | .amomin .. => (if n b < n old then b else old, 0)
  | .amomaxu .. => (if old ≤ b then b else old, 0)
  | .amominu .. => (if old ≤ b then old else b, 0)
  | .amoswap .. => (b, 0)
  | .amocas .. => (if old = d then b else old, 0)
  | _ => (old, 0)

/-- Whether an atomic on floating point delivers its old value unextended. -/
def atomFloat (i : Instr) : Bool := match i with | .amoaddf .. => true | _ => false

/-! ### Capacity memory, from R241 to R271 -/

/-- The row of a region that a CM store reaches by an access that the TLB serves: handle, region, row and offset. -/
def State.cmAt (s : State) (va : Word) : Option (Nat × CmRegion × Nat × Nat) :=
  (s.served ⟨.cmstore, true, 1⟩ va).bind fun x => s.cmOwner x.pa

/-- Element k of vs in a stored tag t that is neither SX nor scaled, with its flags (R270). -/
def State.cmElemAt (s : State) (v : VecReg) (t : Tag) (k : Nat) : Nat × Flags :=
  if v.tag = t then (bitsOf v.data t k, 0) else roundTo t s.cc.rm ((elemVal v v.tag k).getD (.nan false))

/-- The bytes of elements 0 to vl − 1 of vs in a region, with their flags (R241, R270): SX blocks, groups with their scale
codes, elements of 4 bits in pairs, or whole bytes. -/
def State.cmRun (s : State) (r : CmRegion) (v : VecReg) : List Byte × Flags :=
  let es := (List.range s.vlN).map (s.cmElemAt v r.tag)
  if isSx r.tag then cmSxBytes s v r.tag
  else if r.scale ≠ 0 then
    groupsBytes r.tag s.cc.rm (s.vlN + 1) ((List.range s.vlN).map fun i => valOf v.data v.tag i) []
      (if r.scale = 1 then 32 else max 1 s.vlN)
  else (if isSub r.tag then packNibbles (es.map (·.1)) [] else es.flatMap fun e => leBytes (memBits r.tag / 8) e.1,
    es.foldl (fun f e => f ||| e.2) 0)

/-- A CM store has retired: it stands last among the CM stores and in S, with the keys under which its checks passed (R406), and
nothing that it will write has changed. -/
structure CmPushed (s t : State) (f : Flags) (parts : List CmPart) : Prop where
  retires : Retires s t (s.cc.pc + 4)
  bytes : SameBytes s t
  regs : t.cc.x = s.cc.x ∧ t.cc.v = s.cc.v ∧ t.cc.m = s.cc.m ∧ t.cc.t = s.cc.t ∧ t.cc.vstart = s.cc.vstart
  flags : FlagsSet s t f
  table : t.cmTable = s.cmTable
  count : t.cc.out.s = s.cc.out.s + 1
  store : ∃ w, t.cmStores = s.cmStores ++ [w] ∧ w.cc = s.cc.ctxid ∧ w.serial = s.cc.serial ∧ w.orphan = false ∧
    w.parts = parts.map fun p => { p with key := (lookupT s.cmTable p.handle).bind s.regionKey }

/-! ### Queries (R253) -/

/-- A query: its kind, destination, descriptor, vq and reply address; QCUST apart. -/
def queryForm (i : Instr) : Option (QKind × XReg × XReg × VReg × XReg) :=
  match i with
  | .qdot d a v r => some (.dot, d, a, v, r)
  | .qfsum d a r => some (.fsum, d, a, 0, r)
  | .qwsum d a v r => some (.wsum, d, a, v, r)
  | .qmax d a r => some (.max, d, a, 0, r)
  | .qmin d a r => some (.min, d, a, 0, r)
  | .qwin d a v r => some (.win, d, a, v, r)
  | .qbscore d a v r => some (.bscore, d, a, v, r)
  | .qcount d a r => some (.count, d, a, 0, r)
  | _ => none

/-- A checked query with the region as it stands and the rows below its append pointer. -/
def Ready.settled (y : Ready) (u : State) : Ready :=
  { y with r := (lookupT u.cmTable y.q.handle).getD y.r
           rows := y.rows.filter fun p => decide (p.1 < ((lookupT u.cmTable y.q.handle).getD y.r).append) }

/-- The reply area of n bytes, in one page of the scratchpad of the issuing core, which the TLB serves as a store (R254). -/
def State.spadAt (s : State) (va : Word) (n : Nat) : Option Nat :=
  (s.served ⟨.store, true, max 1 n⟩ va).bind fun x =>
    if va.toNat % 65536 + max 1 n ≤ 65536 ∧ x.ty = 2 ∧ x.pa < spadAlias ∧ (x.pa - spadBase) / 0x200000 = coreOf s.cc.ctxid ∧
        (x.pa - spadBase) % 0x200000 + max 1 n ≤ spadBytes then some x.pa else none

/-- What R255 and R254 ask of a query without a block list, of its region and of its vq. -/
structure QueryFits (s : State) (kind : QKind) (q : Qd) (r : CmRegion) (v : VecReg) : Prop where
  entry : s.cmEntry q.handle = some r ∧ q.handle < 4096
  owner : r.asid = s.cc.asid ∧ s.keyHeld r.key.toNat = true
  fields : q.rsv = 0 ∧ q.opts.toNat < 8 ∧ q.status < 65536 ∧ q.listMode = false
  rows : q.count ≠ 0 ∧ q.first + q.count ≤ r.rows
  cols : q.cols ≠ 0 ∧ q.col + q.cols ≤ r.cols
  filter : q.op ≤ 6 ∧ q.fcol < r.cols ∧ (q.overBlocks kind = true ∨ kind = .cust → q.op = 0)
  k : if kind = .win then q.k % 128 ≠ 0 ∧ q.k % 128 ≤ 64 else q.k = 0
  blocks : q.overBlocks kind = true → r.granule ≠ 0
  vq : kind.hasVq = true → (if r.flt = true then isFlt v.tag = true else isInt v.tag = true ∨ v.tag = tI4) ∧
    usedElems kind q r [] ≤ vlmax v.tag

/-- The query as its unit takes it: the rows below the append pointer with their positions, and the blocks. -/
def Qd.ready (q : Qd) (kind : QKind) (r : CmRegion) (v : VecReg) : Ready :=
  { kind, q, r, vq := v, blocks := scored q r []
    rows := ((List.range q.count).map fun j => (q.first + j, j)).filter fun p => decide (p.1 < r.append) }

/-- A query has been accepted (R256): its status in the QD, its serial and token, its count in Q. -/
structure Accepted (s t : State) (xd : XReg) (qd : Nat) (q : Qd) (kind : QKind) (y : Ready) (p : Query) : Prop where
  retires : Retires s t (s.cc.pc + 4)
  token : t.getX xd = if xd = 0 then 0 else .ofNat 64 (s.cc.nextSerial.toNat * 256 + q.tag.toNat)
  regs : (∀ n, n ≠ xd → t.getX n = s.getX n) ∧ t.cc.v = s.cc.v ∧ t.cc.m = s.cc.m ∧ t.cc.t = s.cc.t
  count : t.cc.out.q = s.cc.out.q + 1 ∧ t.cc.serial = s.cc.nextSerial
  status : t.peek (qd + 0x3C) 2 = 0xFFFF
  bytes : ∀ a, (a < qd + 0x3C ∨ qd + 0x3E ≤ a) → Memory.read t.mem a = Memory.read s.mem a
  entered : t.queries = s.queries ++ [p]
  query : p.cc = s.cc.ctxid ∧ p.serial = s.cc.nextSerial ∧ p.handle = q.handle ∧ p.qd = qd ∧ p.tag = q.tag ∧
    p.notify = q.opts.getLsbD 2 ∧ p.sweeps = [] ∧
    p.held = some (if kind = .cust then 1 else max 1 ((y.touched + 4095) / 4096))

end Sys2Proof.Machine
end

