-- ==== Sys2Proof/Certificates/Slice0/Obligations.lean ====
section
/-! DEFINITION. The statements about the model, for the provers. Each says which rules of the spec it rests on. -/

open Sys2Proof Sys2Proof.Machine

/-! ### Encoding -/

/-- Decoding the word of a well-formed instruction gives the instruction back, every operand included (R76 to R86). -/
def Obligations.DecodeOfEncode : Prop :=
  ∀ (i : Instr) (w : BitVec 32), i.wf = true → encode i = some w → decode w = some i

/-- A word that decodes is the word of what it decodes to, and that is well formed: no bit is dropped, no field out of
its range is taken (R79, R80, R87). -/
def Obligations.EncodeOfDecode : Prop :=
  ∀ (w : BitVec 32) (i : Instr), decode w = some i → i.wf = true ∧ encode i = some w

/-- Words that the spec writes out, each with the instruction that it stands for. -/
def Obligations.DecodeExampleWords : Prop :=
  decode 0x2006901C = some (.csrw 0 9 3) ∧ decode 0x00108040 = some (.loop 8 8) ∧
  decode 0x400284C0 = some (.setvl 9 8 1) ∧ decode 0xFFFFA441 = some (.next 8 0xFFFFA) ∧
  decode 0x00200427 = some (.mand 2 0 1) ∧ decode 0x30019227 = some (.mpopc 9 3) ∧
  decode 0x01211025 = some (.vredsumS 8 2 9) ∧ decode 0x0000001D = some .syscall ∧ decode 0 = none

/-! ### The step -/

/-- With nothing on the agenda, nothing due and no work in the background, the control core that moves runs the
instruction that its fetch gives and that the word decodes to. A pushed word waits while a train of the context waits
for a slot (R322). That the other control cores stand still meanwhile and the turn then goes on, that a step is a core
cycle, and that the step counts the element groups that the instruction skipped, are the model's choices (logs 2, 4 and
46). -/
def Obligations.StepRunsDecodedInstruction : Prop :=
  ∀ (s u : State) (w : BitVec 32) (i : Instr), s.agenda = [] → s.due (BitVec.ofNat 10 (s.draw.1 0)) = none →
    s.queryWaits = none → s.background = [] → s.cc.run = .running → s.cc.fencing = false → s.cc.macroOp = none →
    s.fetch s.cc.pc = .ok (u, w) →
    (u.streamHeld = true → pushedWord w = true → step s = .next u.after) ∧
    (u.streamHeld = false ∨ pushedWord w = false → decode w = some i →
      step s = match exec i u with
        | .next t => .next (u.noteSkips i t).after
        | .fault f => .fault f
        | .refused r => .refused r)

/-- A fetch takes the four bytes at pc, lowest address first (R3, R76), through a translation for fetching; a word of
plain WM is what memory holds there. A pc that is no multiple of 4 traps. A word that is no instruction raises "illegal
instruction" with the word as TVAL (R87, R128); a fetch that traps raises its own trap (R360). -/
def Obligations.Fetching : Prop :=
  (∀ (s : State) (pc : Word),
    (pc.toNat % 4 ≠ 0 → s.fetch pc = .error (.trap s { cause := 0x04, tval := pc })) ∧
    ∀ (u : State) (x : Xlat), pc.toNat % 4 = 0 → s.translate ⟨.fetch, false, 4⟩ pc = .ok (u, x) → x.ty = 0 → x.ce = false →
      u.rawAt x.pa 4 = true → u.poisoned x.pa 4 = false →
      s.fetch pc = .ok ({ u with cc := { u.cc with entering := false } }, Memory.read u.mem (x.pa + 3) ++ Memory.read u.mem (x.pa + 2) ++ Memory.read u.mem (x.pa + 1) ++
        Memory.read u.mem x.pa)) ∧
  (∀ (s u : State) (w : BitVec 32), s.agenda = [] → s.due (BitVec.ofNat 10 (s.draw.1 0)) = none →
    s.queryWaits = none → s.background = [] → s.cc.run = .running → s.cc.fencing = false → s.cc.macroOp = none →
    (∀ k : Trap, s.fetch s.cc.pc = .error (.trap u k) → step s = .next (u.raise k).after) ∧
    (s.fetch s.cc.pc = .ok (u, w) → u.streamHeld = false ∨ pushedWord w = false → decode w = none →
      step s = .next (u.raise { cause := 0x01, tval := w.setWidth 64 }).after ∧
      exec (.notAnInstruction w) u = .next (u.raise { cause := 0x01, tval := w.setWidth 64 })))

/-- The values that R44, R114 and R119 give for reset, at the control core that moves: no context runs (R33). -/
def Obligations.ResetValues : Prop :=
  let c := State.reset.cc
  c.run = .absent ∧ c.x = Vector.replicate 32 0 ∧ c.v = Vector.replicate 48 { data := 0, side := 0, tag := 0 } ∧
  c.m = Vector.replicate 12 0 ∧ (∀ k : TReg, (State.reset.getT k).cfg = none ∧ (State.reset.getT k).inUse = false) ∧
  c.vl = 0 ∧ c.vstart = 0 ∧ c.vstr = 0 ∧ c.vmsel = 15 ∧ c.mfmt = 0 ∧ c.fcsr = 0 ∧ c.ttol = 0 ∧ c.issued = 0 ∧ c.done = 0 ∧
  c.tstep = 0 ∧ c.uivec = 0 ∧ c.uiepc = 0 ∧ c.uicause = 0 ∧ c.uistatus = 0 ∧ c.retired = 0 ∧ c.out = {} ∧ c.tvec = 0 ∧
  c.tcause = 0 ∧ c.tepc = 0 ∧ c.tval = 0 ∧ c.tstatus = 0 ∧ c.vdirty = 0 ∧ c.vowner = 0 ∧ c.ptbase = 0 ∧ c.asid = 0 ∧
  c.maxvl = 16 ∧ c.preempt = 65536 ∧ c.rcbptr = 0 ∧ c.fault2 = 0 ∧ c.tscratch = 0 ∧
  (State.reset.coreAt 0).heddle = 0x01010101 ∧ State.reset.cycles = 0 ∧ State.reset.nodeid = 0xFFFF ∧
  State.reset.remapFree = 256 ∧ (∀ a, Memory.read State.reset.mem a = 0)

/-- Memory of the reset state is in canonical form. -/
def Obligations.ResetMemoryCanonical : Prop := State.reset.Canonical

/-- Every step keeps the canonical form of memory: addresses rising, no entry equal to what an unlisted address reads
as. -/
def Obligations.StepKeepsMemoryCanonical : Prop :=
  ∀ s t : State, s.Canonical → step s = .next t → t.Canonical

/-- No instruction and no event is refused; the one fault is that of a region launch whose RCB lies outside WM. -/
def Obligations.EveryInstructionHasAnEffect : Prop :=
  ∀ (i : Instr) (s : State),
    (∃ t, exec i s = .next t) ∨ (∃ rcb rec, i = .regionLaunch rcb rec ∧ exec i s = .fault .rcbOutsideWm)

/-! ### Integer instructions -/

/-- An integer instruction retires with the value that its rule gives in its destination, x0 apart, and nothing else
changes: no flag, no other register, no byte of memory (R127, R129, R130, R132, R133, R134). -/
def Obligations.ScalarIntegerResults : Prop :=
  ∀ (i : Instr) (s : State) (d : XReg) (v : Word), scalarResult i s = some (d, v) →
    ∃ t, exec i s = .next t ∧ Retires s t (s.cc.pc + 4) ∧ FrameX s t d ∧ t.getX d = if d = 0 then 0 else v

/-- R130: division never traps; the results of its borderline cases. -/
def Obligations.DivisionBorderlines : Prop :=
  ∀ (s : State) (d a b : XReg), d ≠ 0 →
    (s.getX b = 0 →
      (∃ t, exec (.div d a b) s = .next t ∧ t.getX d = 0xFFFFFFFFFFFFFFFF) ∧
      (∃ t, exec (.divu d a b) s = .next t ∧ t.getX d = 0xFFFFFFFFFFFFFFFF) ∧
      (∃ t, exec (.rem d a b) s = .next t ∧ t.getX d = s.getX a) ∧
      (∃ t, exec (.remu d a b) s = .next t ∧ t.getX d = s.getX a)) ∧
    ((s.getX a).toInt = -2 ^ 63 → (s.getX b).toInt = -1 →
      (∃ t, exec (.div d a b) s = .next t ∧ (t.getX d).toInt = -2 ^ 63) ∧
      (∃ t, exec (.rem d a b) s = .next t ∧ t.getX d = 0))

/-- R131: the bit-counting operations, of major opcode 0x02 with xb zero and codes 0 to 3: the zeros above the highest
set bit, the zeros below the lowest, the set bits, and byte i at byte 7 − i. Nothing else changes. -/
def Obligations.BitCounts : Prop :=
  ∀ (s : State) (d a : XReg),
    (encode (.clz d a) = some (0#10 ++ 0#5 ++ a ++ d ++ 0x02#7) ∧ encode (.ctz d a) = some (1#10 ++ 0#5 ++ a ++ d ++ 0x02#7) ∧
      encode (.popc d a) = some (2#10 ++ 0#5 ++ a ++ d ++ 0x02#7) ∧
      encode (.bswap d a) = some (3#10 ++ 0#5 ++ a ++ d ++ 0x02#7)) ∧
    (∃ t, exec (.clz d a) s = .next t ∧ Retires s t (s.cc.pc + 4) ∧ FrameX s t d ∧ (d ≠ 0 → (t.getX d).toNat ≤ 64 ∧
      (∀ k, 64 ≤ k + (t.getX d).toNat → (s.getX a).getLsbD k = false) ∧
      ((t.getX d).toNat < 64 → (s.getX a).getLsbD (63 - (t.getX d).toNat) = true))) ∧
    (∃ t, exec (.ctz d a) s = .next t ∧ Retires s t (s.cc.pc + 4) ∧ FrameX s t d ∧ (d ≠ 0 → (t.getX d).toNat ≤ 64 ∧
      (∀ k, k < (t.getX d).toNat → (s.getX a).getLsbD k = false) ∧
      ((t.getX d).toNat < 64 → (s.getX a).getLsbD (t.getX d).toNat = true))) ∧
    (∃ t, exec (.popc d a) s = .next t ∧ Retires s t (s.cc.pc + 4) ∧ FrameX s t d ∧
      (d ≠ 0 → (t.getX d).toNat = ((List.range 64).filter fun k => (s.getX a).getLsbD k).length)) ∧
    (∃ t, exec (.bswap d a) s = .next t ∧ Retires s t (s.cc.pc + 4) ∧ FrameX s t d ∧
      (d ≠ 0 → ∀ k, k < 8 → (t.getX d).extractLsb' (8 * (7 - k)) 8 = (s.getX a).extractLsb' (8 * k) 8))

/-! ### Branches and jumps -/

/-- R139: a conditional branch goes to pc plus its offset in words when its condition holds, else to pc + 4; opcode 0x10
and conditions 0 to 5. Nothing else changes. -/
def Obligations.ConditionalBranches : Prop :=
  (∀ (i : Instr) (s : State) (taken : Bool) (off : Int), branchTaken i s = some (taken, off) →
    ∃ t, exec i s = .next t ∧ Retires s t (if taken then s.cc.pc + .ofInt 64 (4 * off) else s.cc.pc + 4) ∧ FrameX s t 0) ∧
  ∀ (a b : XReg) (off : BitVec 12) (k : Fin 6) (w : BitVec 32),
    encode ([Instr.beq a b off, .bne a b off, .blt a b off, .bge a b off, .bltu a b off, .bgeu a b off].get k) = some w →
    w.extractLsb' 0 7 = 0x10 ∧ w.extractLsb' 7 3 = BitVec.ofNat 3 k.val

/-- The branches on a mask register (R140): BANY for a set bit below VL, BALL for no clear bit, BNONE for no set bit;
"vector first use" while VEN = 0. Nothing else changes. -/
def Obligations.MaskBranches : Prop :=
  ∀ (s : State) (m : MReg) (off : BitVec 17),
    (s.cc.ven = false →
      exec (.bany m off) s = .next (s.raise { cause := 0x07 }) ∧ exec (.ball m off) s = .next (s.raise { cause := 0x07 }) ∧
      exec (.bnone m off) s = .next (s.raise { cause := 0x07 })) ∧
    (s.cc.ven = true →
      (∃ t, exec (.bany m off) s = .next t ∧ FrameX s t 0 ∧
        ((∃ k, k < s.vlN ∧ s.maskBit m k = true) → Retires s t (s.cc.pc + .ofInt 64 (4 * off.toInt))) ∧
        ((∀ k, k < s.vlN → s.maskBit m k = false) → Retires s t (s.cc.pc + 4))) ∧
      (∃ t, exec (.ball m off) s = .next t ∧ FrameX s t 0 ∧
        ((∀ k, k < s.vlN → s.maskBit m k = true) → Retires s t (s.cc.pc + .ofInt 64 (4 * off.toInt))) ∧
        ((∃ k, k < s.vlN ∧ s.maskBit m k = false) → Retires s t (s.cc.pc + 4))) ∧
      (∃ t, exec (.bnone m off) s = .next t ∧ FrameX s t 0 ∧
        ((∀ k, k < s.vlN → s.maskBit m k = false) → Retires s t (s.cc.pc + .ofInt 64 (4 * off.toInt))) ∧
        ((∃ k, k < s.vlN ∧ s.maskBit m k = true) → Retires s t (s.cc.pc + 4))))

/-- R141, R142: JAL and JALR write the link and go to their target; JALR to a target that is no multiple of 4 traps and
writes no link. Nothing else changes. -/
def Obligations.Jumps : Prop :=
  ∀ (s : State) (d a : XReg),
    (∀ off : BitVec 20, encode (.jal d off) = some (off ++ d ++ 0x12#7) ∧
      ∃ t, exec (.jal d off) s = .next t ∧ Retires s t (s.cc.pc + .ofInt 64 (4 * off.toInt)) ∧ FrameX s t d ∧
        t.getX d = if d = 0 then 0 else s.cc.pc + 4) ∧
    ∀ imm : BitVec 15, encode (.jalr d a imm) = some (imm ++ a ++ d ++ 0x13#7) ∧
      ((s.getX a + .ofInt 64 imm.toInt).toNat % 4 = 0 →
        ∃ t, exec (.jalr d a imm) s = .next t ∧ Retires s t (s.getX a + .ofInt 64 imm.toInt) ∧ FrameX s t d ∧
          t.getX d = if d = 0 then 0 else s.cc.pc + 4) ∧
      ((s.getX a + .ofInt 64 imm.toInt).toNat % 4 ≠ 0 →
        exec (.jalr d a imm) s = .next (s.raise { cause := 0x04, tval := s.getX a + .ofInt 64 imm.toInt }))

/-! ### Scalar floating point -/

/-- The instructions of R136 and R138 deliver their exact result with one rounding into the format of P, and set the
flags of the operation and of the rounding. Nothing else changes. The comparisons, the minimum and the maximum of R137,
and the conversion to an integer of R138. -/
def Obligations.ScalarFloat : Prop :=
  (∀ (i : Instr) (s : State) (d : XReg) (p : BitVec 1) (rm : BitVec 3) (e : Val × Flags),
    floatExact i s = some (d, p, rm, e) →
    ∃ t, exec i s = .next t ∧ Retires s t (s.cc.pc + 4) ∧ FrameF s t d ∧
      (t.getX d = if d = 0 then 0 else .ofNat 64 ((fmtP p).round (s.mode rm) e.1).1) ∧
      FlagsSet s t (e.2 ||| ((fmtP p).round (s.mode rm) e.1).2)) ∧
  (∀ (i : Instr) (s : State) (d : XReg) (r : Nat) (f : Flags), floatPlain i s = some (d, r, f) →
    ∃ t, exec i s = .next t ∧ Retires s t (s.cc.pc + 4) ∧ FrameF s t d ∧
      (t.getX d = if d = 0 then 0 else .ofNat 64 r) ∧ FlagsSet s t f)

/-- The rounding modes of R101 on a magnitude m · 2^e of a sign, to a multiple of 2^(e + k): toward zero, toward the
infinity of a sign, or to the nearest with a tie to the even multiple. -/
def Obligations.RoundingModes : Prop :=
  ∀ (neg : Bool) (m k : Nat) (e : Int), 
    let r (mode : BitVec 3) : Nat := (roundMag mode neg m e (e + k)).1
    r 1 = m / 2 ^ k ∧
    r 2 = (if neg then (m + 2 ^ k - 1) / 2 ^ k else m / 2 ^ k) ∧
    r 3 = (if neg then m / 2 ^ k else (m + 2 ^ k - 1) / 2 ^ k) ∧
    2 * (r 0 * 2 ^ k) ≤ 2 * m + 2 ^ k ∧ 2 * m ≤ 2 * (r 0 * 2 ^ k) + 2 ^ k ∧
    (2 * (m % 2 ^ k) = 2 ^ k → r 0 % 2 = 0) ∧
    ∀ mode : BitVec 3, (roundMag mode neg m e (e + k)).2 = true ↔ m % 2 ^ k ≠ 0

/-! ### Translation, loads and stores -/

/-- A translation that an entry of the control core's own TLB serves, with its bits set, changes nothing (R209, R211);
on a page of device class it waits for the context's writes to a peer's page of that class (R227). One that no TLB
serves and no walk has answered puts a walk of its page into motion, for which its instruction waits, and traps when
that walk has ended in a trap (R212). A leaf that a walk has given its instruction gives what the leaf's checks give;
the access sets A, and D for a write, in the leaf in memory, and no other byte of memory changes. That an instruction
which waits is tried again, and holds the leaf of its walk until it ends, are the model's choices (logs 18 and 19). What
a leaf refuses (R206, R209): user level without U, a fetch or load without R, a write without W, an access that the page
type does not admit, each as "protection" with the address; the translation has no effect then. So is an atomic on a
page of device class, as R414 is read (log 45, DEDUCED). -/
def Obligations.Translation : Prop :=
  (∀ (s : State) (a : Access) (va : Word) (x : Xlat),
    let serves (t : TlbEntry) : Bool := t.matches s.cc.asid va
    (s.served a va = some x → s.translate a va = .ok (s, x)) ∧
    (∀ e : TlbEntry, s.cc.tlb.find? serves = some e → s.checkLeaf a va e.entry e.level = .ok x → pteA e.entry = true →
      (a.kind.isWrite = true → pteD e.entry = true) → x.ic = true → a.kind ≠ .fetch → s.icPending = true →
      s.translate a va = .error (.wait s)) ∧
    (s.cc.tlb.find? serves = none → (s.coreAt (coreOf s.cc.ctxid)).l2.find? serves = none → s.cc.held.find? serves = none →
      (s.cc.miss = none → s.translate a va = .error (.wait { s with
        cc := { s.cc with miss := some ⟨s.cc.asid, va.extractLsb' 16 48, false, none⟩ }
        agenda := s.agenda ++ [.pageWalk s.cc.ctxid va] })) ∧
      (∀ c, s.cc.miss = some ⟨s.cc.asid, va.extractLsb' 16 48, false, some c⟩ →
        s.translate a va = .error (.trap s { cause := c, tval := va }))) ∧
    (∀ t : TlbEntry, s.cc.tlb.find? serves = none → (s.coreAt (coreOf s.cc.ctxid)).l2.find? serves = none →
      s.cc.held.find? serves = some t → s.checkLeaf a va t.entry t.level = .ok x → x.ic = false →
      s.peek t.at_ 8 = t.entry.toNat →
      ∃ u, s.translate a va = .ok (u, x) ∧ Translates s u ∧ u.peek t.at_ 8 = (pteTouch t.entry a.kind.isWrite).toNat ∧
        ∀ p, (p < t.at_ ∨ t.at_ + 8 ≤ p) → Memory.read u.mem p = Memory.read s.mem p)) ∧
  (∀ (s : State) (a : Access) (va : Word) (e : TlbEntry),
    (s.cc.tlb.find? fun (t : TlbEntry) => t.matches s.cc.asid va) = some e →
    (s.cc.level = .user ∧ pteU e.entry = false ∨
      (a.kind = .fetch ∨ a.kind = .load) ∧ pteRd e.entry = false ∨
      (a.kind = .store ∨ a.kind = .atomic ∨ a.kind = .cmstore) ∧ pteW e.entry = false ∨
      pteType e.entry = 0 ∧ a.kind = .cmstore ∨ pteType e.entry = 1 ∧ a.kind ≠ .cmstore ∨
      2 ≤ pteType e.entry ∧ a.kind ≠ .load ∧ a.kind ≠ .store ∨ a.kind = .atomic ∧ pteIc e.entry = true) →
    s.translate a va = .error (.trap s { cause := 0x06, tval := va }))

/-- A scalar load (R224, R225): its bytes, little-endian, sign- or zero-extended in the destination. On pages that are
no device pages they are those that the pieces of the access hold; on a device page they are those of the register read.
Nothing else changes but what translation and the reads themselves change. A scalar load through an entry of the control
core's TLB, of WM or scratchpad in one page without compression or poison, no block of it stored encoded: the register
holds the bytes of memory, and nothing else changes (R202, R224). -/
def Obligations.ScalarLoads : Prop :=
  (∀ (i : Instr) (s s1 : State) (d a : XReg) (k : BitVec 12) (n : Nat) (sx : Bool) (ps : List Piece),
    loadForm i = some (d, a, k, n, sx) → s.pieces .load false (s.getX a + .ofInt 64 k.toInt) n = .ok (s1, ps) →
    ((∀ p ∈ ps, p.x.ty ≠ 3) → ∀ (s2 : State) (bs : List Byte),
      s1.loadPieces (s.getX a + .ofInt 64 k.toInt) ps = .ok (s2, bs) → bs.length = n →
      ∃ t, exec i s = .next t ∧ Retires s2 t (s2.cc.pc + 4) ∧ FrameX s2 t d ∧
        t.getX d = if d = 0 then 0 else extended sx n (leNat bs)) ∧
    ((∀ p ∈ ps, p.x.ty = 3) →
      ∃ p t, ps = [p] ∧ exec i s = .next t ∧ Retires s1 t (s1.cc.pc + 4) ∧ FrameX s1 t d ∧
        t.getX d = if d = 0 then 0 else extended sx n (s1.devRead s1.cc.level (p.x.pa - devBase) n))) ∧
  (∀ (i : Instr) (s : State) (d a : XReg) (k : BitVec 12) (n : Nat) (sx : Bool) (x : Xlat),
    loadForm i = some (d, a, k, n, sx) →
    let va := s.getX a + .ofInt 64 k.toInt
    va.toNat % 65536 + n ≤ 65536 → s.served ⟨.load, false, n⟩ va = some x → x.ty = 0 ∨ x.ty = 2 → x.ce = false →
    s.rawAt x.pa n = true → s.poisoned x.pa n = false →
    ∃ t, exec i s = .next t ∧ Retires s t (s.cc.pc + 4) ∧ FrameX s t d ∧
      t.getX d = if d = 0 then 0 else extended sx n (leNat ((List.range n).map fun j => Memory.read s.mem (x.pa + j))))

/-- A scalar store (R224, R225): the low bytes of the source at the address, counted in OUTCNT until it is performed; no
other byte of memory changes, unless a page with CE = 0 meets a block that is stored encoded (R285). A store to a device
page writes the register. With S full the instruction waits. -/
def Obligations.ScalarStores : Prop :=
  ∀ (i : Instr) (s s1 : State) (x a : XReg) (k : BitVec 12) (n : Nat) (ps : List Piece),
    storeForm i = some (x, a, k, n) →
    (s.cc.full .s = true → exec i s = .next s.freshReads) ∧
    (s.cc.full .s = false → s.pieces .store false (s.getX a + .ofInt 64 k.toInt) n = .ok (s1, ps) →
      ((∀ p ∈ ps, p.x.ty ≠ 3) →
        ∃ t, exec i s = .next t ∧ t.cc.pc = s1.cc.pc + 4 ∧ t.cc.x = s1.cc.x ∧ t.cc.v = s1.cc.v ∧ t.cc.m = s1.cc.m ∧
          t.cc.t = s1.cc.t ∧ t.cc.fcsr = s1.cc.fcsr ∧ t.cc.out.s = s1.cc.out.s + 1 ∧
          t.mem = (s1.storePieces ps (leBytes n (s.getX x).toNat)).1.mem ∧
          (s1.plainSpans (pieceSpans ps) → (∀ p, ps = [p] → t.bytes p.x.pa n = leBytes n (s.getX x).toNat) ∧
            ∀ p, ¬ inPieces ps p → Memory.read t.mem p = Memory.read s1.mem p)) ∧
      ((∀ p ∈ ps, p.x.ty = 3) →
        ∃ p, ps = [p] ∧ exec i s = .next
          ((s1.devWrite s1.cc.level false (p.x.pa - devBase) n (s.getX x).toNat).pendStore {}).retire)) ∧
    (∀ pa, s.cc.full .s = false → s.plainAt .store (s.getX a + .ofInt 64 k.toInt) n = some pa →
      ∃ t, exec i s = .next t ∧ Retires s t (s.cc.pc + 4) ∧ t.cc.x = s.cc.x ∧ t.cc.v = s.cc.v ∧ t.cc.m = s.cc.m ∧
        t.cc.t = s.cc.t ∧ t.cc.fcsr = s.cc.fcsr ∧ t.cc.out.s = s.cc.out.s + 1 ∧ t.bytes pa n = leBytes n (s.getX x).toNat ∧
        ∀ p, (p < pa ∨ pa + n ≤ p) → Memory.read t.mem p = Memory.read s.mem p)

/-- LDA and STREL (R226): 8 bytes at a multiple of 8, else "stride or alignment". On plain WM, LDA reads them, and STREL
writes them once the context's own loads and stores are performed, until which it waits; its release advances its die's
vector clock at die scope or wider (R334), and the store is counted in S. -/
def Obligations.AcquireAndRelease : Prop :=
  ∀ (s : State) (d a : XReg) (sc : BitVec 3),
    ((s.getX a).toNat % 8 ≠ 0 →
      exec (.lda d a sc) s = .next (s.raise { cause := 0x04, tval := s.getX a }) ∧
      exec (.strel d a sc) s = .next (s.raise { cause := 0x04, tval := s.getX a })) ∧
    ((s.getX a).toNat % 8 = 0 →
      (∀ pa, s.plainAt .load (s.getX a) 8 = some pa →
        ∃ t, exec (.lda d a sc) s = .next t ∧ Retires s t (s.cc.pc + 4) ∧ FrameX s t d ∧
          t.getX d = if d = 0 then 0 else .ofNat 64 (s.peek pa 8)) ∧
      (∀ pa, s.plainAt .store (s.getX a) 8 = some pa → s.cc.full .s = false →
        (s.cc.stores ≠ [] ∨ s.cc.loads ≠ 0 → exec (.strel d a sc) s = .next s.freshReads) ∧
        (s.cc.stores = [] → s.cc.loads = 0 →
          ∃ t, exec (.strel d a sc) s = .next t ∧ Retires s t (s.cc.pc + 4) ∧ t.cc.x = s.cc.x ∧ t.cc.v = s.cc.v ∧
            t.cc.m = s.cc.m ∧ t.cc.fcsr = s.cc.fcsr ∧ t.cc.out.s = s.cc.out.s + 1 ∧ t.bytes pa 8 = leBytes 8 (s.getX d).toNat ∧
            (∀ p, (p < pa ∨ pa + 8 ≤ p) → Memory.read t.mem p = Memory.read s.mem p) ∧
            (sc.toNat < 3 → ∀ e, t.dieAt e = s.dieAt e) ∧ (3 ≤ sc.toNat → ClockAdvanced s t))) ∧
      (∀ (s1 s2 : State) (p : Piece) (bs : List Byte), s.pieces .load false (s.getX a) 8 = .ok (s1, [p]) → p.x.ty ≠ 3 →
        s1.loadPieces (s.getX a) [p] = .ok (s2, bs) →
        ∃ t, exec (.lda d a sc) s = .next t ∧ Retires s2 t (s2.cc.pc + 4) ∧ FrameX s2 t d ∧
          t.getX d = if d = 0 then 0 else .ofNat 64 (leNat bs)))

/-! ### Control and status registers -/

/-- CSRR, CSRW, CSRS and CSRC (R121, R144): with the access admitted, xd takes the old value; a write that passes puts
the new value there. CSRS and CSRC of x0 make no write, and a write to CYCLE, RETIRED, CAPS or OUTCNT has no effect. The
checks of R121 in their order: an unassigned number, a level that is too low, "vector first use" for the vector
registers while VEN = 0, a register that is not writable, and a value that is not allowed. -/
def Obligations.ControlRegisters : Prop :=
  (∀ (i : Instr) (s : State) (d : XReg) (n : BitVec 12) (f : Word → Option Word) (old : Word),
    csrForm i s = some (d, n, f) → s.csr n = some old →
    (0x100 ≤ n.toNat → s.cc.level ≠ .user) → (csrVector n = true → s.cc.ven = true) →
    (f old = none ∨ n = 0x010 ∨ n = 0x011 ∨ n = 0x013 ∨ n = 0x014 →
      ∃ t, exec i s = .next t ∧ Retires s t (s.cc.pc + 4) ∧ FrameX s t d ∧ t.getX d = if d = 0 then 0 else old) ∧
    (∀ new : Word, f old = some new → csrIgnored n = false → csrHardware n = false →
      (n = 0 → s.cc.level ≠ .user) → csrValueOk n new = true →
      ∃ t, exec i s = .next t ∧ Retires s t (s.cc.pc + 4) ∧ FrameX (s.csrPut n new) t d ∧
        t.getX d = (if d = 0 then 0 else old) ∧ (n ≠ 0x00D → t.csr n = some new))) ∧
  (∀ (i : Instr) (s : State) (d : XReg) (n : BitVec 12) (f : Word → Option Word), csrForm i s = some (d, n, f) →
    let bad : State := s.raise { cause := 0x01, tval := wordOf i }
    (s.csr n = none → exec i s = .next bad) ∧
    ∀ old, s.csr n = some old →
      (0x100 ≤ n.toNat → s.cc.level = .user → exec i s = .next bad) ∧
      ((0x100 ≤ n.toNat → s.cc.level ≠ .user) →
        (csrVector n = true → s.cc.ven = false → exec i s = .next (s.raise { cause := 0x07 })) ∧
        ((csrVector n = true → s.cc.ven = true) → csrIgnored n = false → ∀ new, f old = some new →
          csrHardware n = true ∨ (n = 0 ∧ s.cc.level = .user) ∨ csrValueOk n new = false → exec i s = .next bad)))

/-! ### Traps, levels and system instructions -/

/-- Taking a trap (R51, R360, R362): the saved registers, the level, the depth and the pc, with the data registers, VEN,
LOOPACT, LOOPI, UISTATUS and the shadows as they were; the fence of a pre-emption, and of no other trap; and no byte of
memory. That the handler's first fetch is the control core's next action is the model's choice (log 18), and so is what
it takes for the retired strips (log 20). A trap at depth 255, and a trap of the first fetch of a handler, is a double
fault (R362, R365): FAULT2 takes TVEC with its low byte replaced by the second cause, and the context does not go on. It
ends with its region: every other context of it and every live child end, the fault-cause word holds the context's index
and the original cause, the state word is FAULTED, and the fault domain's event is delivered. A context of no region,
which the firmware runs, ends alone. -/
def Obligations.TakingATrap : Prop :=
  (∀ (s : State) (t : Trap) (epc : Word), s.cc.depth ≠ 255 →
    let u := s.atHandler t epc
    s.raiseAt t epc = u ∧ (s.cc.entering = false → s.raise t = s.atHandler t s.cc.pc) ∧
      TrapTaken s.cc u.cc t epc ∧ u.cc.retired = s.cc.retired ∧ u.cc.run = .running ∧ u.others = s.others ∧ u.mem = s.mem ∧
      (t.cause ≠ 0x0D → t.cause ≠ 0x0E → u.dies = s.dies ∧ u.cc.fencing = s.cc.fencing) ∧
      (t.cause = 0x0D ∨ t.cause = 0x0E → s.cc.macroOp = none → s.cc.stores ≠ [] ∨ s.cc.loads ≠ 0 → u.cc.fencing = true)) ∧
  (∀ (s u : State) (t : Trap) (epc : Word), s.CoresApart →
    (s.cc.depth = 255 ∧ u = s.raiseAt t epc ∨ s.cc.entering = true ∧ u = s.raise t) →
      (s.cc.region = none → Halted s.cc (u.ccAt s.cc.ctxid) t.cause) ∧
      ∀ rcb r, s.cc.region = some rcb → s.regionAt rcb = some r → r.terminating = false →
        r.ctxs[s.cc.index]? = some (.resident s.cc.ctxid) →
        Halted s.cc (u.ccAt s.cc.ctxid) t.cause ∧ Faulted s u rcb r s.cc.index s.cc.tcause)

/-- R146: SYSCALL raises "system call" with TEPC its address + 4, BRK "breakpoint" with TEPC its address, both with TVAL
0. A BRK that the debug port has armed halts the context instead (R380). That RETIRED does not count them is the model's
choice (log 20). R147: TRET sets the level to PPRIV and the pc to TEPC and lowers the depth; VSTART and TSTEP stay. A
PPRIV above the current level is illegal. Nothing else changes but RETIRED, and what a later retirement counts for the
loop of the level left (log 20). At depth 0 the depth stays 0: the model's choice (log 51). -/
def Obligations.SyscallBreakAndReturn : Prop :=
  (∀ s : State, exec .syscall s = .next (s.raiseAt { cause := 0x10, tval := 0 } (s.cc.pc + 4)) ∧
    (s.cc.armed = false → exec .brk s = .next (s.raise { cause := 0x0F, tval := 0 }) ∧
      (s.cc.entering = false → exec .brk s = .next (s.raiseAt { cause := 0x0F, tval := 0 } s.cc.pc))) ∧
    (s.cc.armed = true → exec .brk s = .next { s with cc := { s.cc with run := .halted } })) ∧
  (∀ s : State, s.cc.level ≠ .user →
    (s.cc.ppriv.toNat ≤ s.cc.level.code.toNat →
      exec .tret s = .next { s with cc := { s.cc with
        level := Level.ofCode s.cc.ppriv, pc := s.cc.tepc, depth := if s.cc.depth = 0 then 0 else s.cc.depth - 1
        retired := s.cc.retired + 1
        loopDepth := if (if s.cc.depth = 0 then 0 else s.cc.depth - 1) < s.cc.loopDepth
          then (if s.cc.depth = 0 then 0 else s.cc.depth - 1) else s.cc.loopDepth } }) ∧
    (s.cc.level.code.toNat < s.cc.ppriv.toNat →
      exec .tret s = .next (s.raise { cause := 0x01, tval := 0x0040001D })))

/-- At user level the words that need supervisor level raise "illegal instruction" with the word, and have no effect
(R17, R88). -/
def Obligations.PrivilegedAtUserLevel : Prop :=
  ∀ (i : Instr) (s : State) (w : BitVec 32), needsSupervisor i = true → encode i = some w → s.cc.level = .user →
    exec i s = .next (s.raise { cause := 0x01, tval := w.setWidth 64 })

/-- IDLE, WAIT and BARWAIT (R48, R148, R233, R302): WAIT retires when every count meets its limit, 31 meaning none, and
BARWAIT when the slot's phase differs; IDLE, and else those, enter the wait. IDLE ends, with the next instruction, when
its limit has elapsed, and a BARWAIT or WAIT when what it waits for comes. A pending pre-emption request is taken at
once by a context that would enter a wait: "hard pre-emption" at the wait instruction. UIRET, TLBINV and LGSET (R37,
R117, R152 to R154): UIRET ends a user-interrupt handler at UIEPC with x28 to x31 of the interrupted context back and
UIE set; TLBINV waits for accesses that have been translated, and for the completion write of a card that a matching
entry translates, and then leaves no entry of the address and ASID in any TLB or walk cache; LGSET records a pending
lane shape and its code, or drops it when the shape is the present one. -/
def Obligations.WaitsAndControl : Prop :=
  (∀ s : State,
    let hard : State := (State.unwait { s with cc := { s.cc with request := none } }).raise { cause := 0x0E, tval := 0 }
    (∀ l st c t q : BitVec 5,
      let limits := [(l, s.cc.out.l), (st, s.cc.out.s), (c, s.cc.out.c), (t, s.cc.out.t), (q, s.cc.out.q)]
      ((∀ p ∈ limits, p.1 ≠ 31 → p.2.toNat ≤ p.1.toNat) →
        ∃ u, exec (.wait l st c t q) s = .next u ∧ Retires s u (s.cc.pc + 4) ∧ FrameX s u 0) ∧
      ((∃ p ∈ limits, p.1 ≠ 31 ∧ p.1.toNat < p.2.toNat) →
        (s.cc.request = none ∨ s.cc.depth ≠ 0 →
          exec (.wait l st c t q) s = .next { s with cc := { s.cc with run := .waitCounts l st c t q } }) ∧
        (s.cc.request ≠ none → s.cc.depth = 0 → exec (.wait l st c t q) s = .next hard))) ∧
    (∀ a : XReg,
      (s.cc.request = none ∨ s.cc.depth ≠ 0 → exec (.idle a) s = .next { s with cc := { s.cc with
        run := .waitIdle (if a = 0 then none else some (s.getX a).toNat) } }) ∧
      (s.cc.request ≠ none → s.cc.depth = 0 → exec (.idle a) s = .next hard)) ∧
    (s.cc.run = .waitIdle (some 0) → ∃ u, exec (.idleTimeout s.cc.ctxid) s = .next u ∧ Retires s u (s.cc.pc + 4) ∧
      u.cc.run = .running ∧ u.cc.x = s.cc.x ∧ u.mem = s.mem) ∧
    (∀ (a b : XReg) (p : Nat), slotIndex s (s.getX a) = .ok p →
      ((s.slotAt p).phase ≠ (s.getX b).setWidth 16 →
        ∃ u, exec (.barwait a b) s = .next u ∧ Retires s u (s.cc.pc + 4) ∧ FrameX s u 0) ∧
      ((s.slotAt p).phase = (s.getX b).setWidth 16 →
        (s.cc.request = none ∨ s.cc.depth ≠ 0 →
          exec (.barwait a b) s = .next { s with cc := { s.cc with run := .waitBar p ((s.getX b).setWidth 16) } }) ∧
        (s.cc.request ≠ none → s.cc.depth = 0 → exec (.barwait a b) s = .next hard)))) ∧
  (∀ s : State,
    (s.cc.inui = true → ∃ t, exec .uiret s = .next t ∧ Retires s t s.cc.uiepc ∧ t.cc.uistatus = 1 ∧ t.mem = s.mem ∧
      t.cc.level = s.cc.level ∧ t.cc.v = s.cc.v ∧ t.cc.m = s.cc.m ∧
      (∀ n : XReg, n.toNat < 28 → t.getX n = s.getX n) ∧
      (∀ k : Fin 4, t.cc.x[28 + k.val] = s.cc.shadow[k] ∧ t.cc.shadow[k] = s.cc.x[28 + k.val])) ∧
    (s.cc.inui = false → exec .uiret s = .next (s.raise { cause := 0x01, tval := 0x01C0001D })) ∧
    (∀ a b : XReg, s.cc.level ≠ .user →
      let gone (e : TlbEntry) : Bool := e.dropped (if a = 0 then none else some (s.getX a))
        (if b = 0 then none else some ((s.getX b).setWidth 16))
      (s.accessesPending = true ∨ (∃ j ∈ s.jobs, ∃ e, j.entry = some e ∧ gone e = true) →
        exec (.tlbinv a b) s = .next s.freshReads) ∧
      (s.accessesPending = false → (∀ j ∈ s.jobs, ∀ e, j.entry = some e → gone e = false) → ∃ t, exec (.tlbinv a b) s = .next t ∧ Retires s t (s.cc.pc + 4) ∧ t.mem = s.mem ∧
        (∀ n, t.getX n = s.getX n) ∧ t.cc.v = s.cc.v ∧ ClockAdvanced s t ∧
        t.cc.tlb = s.cc.tlb.filter (fun e => !gone e) ∧ (∀ p ∈ t.others, ∀ e ∈ p.2.tlb, gone e = false) ∧
        (∀ p ∈ t.cores, ∀ e ∈ p.2.l2, gone e = false) ∧ (∀ p ∈ t.clusters, ∀ e ∈ p.2.walkCache, gone e = false))) ∧
    (∀ a : XReg, s.cc.level ≠ .user →
      (4 ≤ (s.getX a).toNat → exec (.lgset a) s = .next (s.raise { cause := 0x01, tval := wordOf (.lgset a) })) ∧
      ((s.getX a).toNat < 4 → ∃ t, exec (.lgset a) s = .next t ∧ Retires s t (s.cc.pc + 4) ∧ t.mem = s.mem ∧
        t.cc.x = s.cc.x ∧ (∀ c, c ≠ coreOf s.cc.ctxid → t.coreAt c = s.coreAt c) ∧
        let k := s.coreAt (coreOf s.cc.ctxid)
        (t.coreAt (coreOf s.cc.ctxid)).shape = k.shape ∧
        ((s.getX a).setWidth 2 = k.shape →
          (t.coreAt (coreOf s.cc.ctxid)).pend = false ∧ (t.coreAt (coreOf s.cc.ctxid)).nextShape = k.nextShape) ∧
        ((s.getX a).setWidth 2 ≠ k.shape →
          (t.coreAt (coreOf s.cc.ctxid)).pend = true ∧ (t.coreAt (coreOf s.cc.ctxid)).nextShape = (s.getX a).setWidth 2))))

/-- YIELD (R48, R149, R367): in a handler of a pre-emption, with nothing outstanding, it writes the resume block into
the context's save area, makes the fence, and the context is SAVED and has left; its region is SAVED with the last of
its contexts, and no other byte of memory changes but the A and D bits of the leaf that maps the block (R209). With
something outstanding it waits; elsewhere it is illegal. Where the save area does not map the block, the context is
SAVED without it: the model's choice (log 35). EXIT (R150, R315, R327): with nothing outstanding the context has ended
and left, its tiles are released and the fence is made; it counts toward the retirement of its region, and as SAVED
toward its eviction. With something outstanding it waits, and a pre-emption request is dropped. The context has no job
card and no query then, so no memory changes but a state word. SPAWN (R38, R39, R151, R371): an RCB that is not aligned
traps. Where the context may write the RCB and its own loads and stores are performed, SPAWN retires with the release
made and answers 1 for an RCB that is not NEW, 2 where the parent field maps to no RCB, and 0 where it names the
context's own live region: then the scheduler has recorded the region with its fields and the register values of the
context, the RCB is the first child of its parent, and its checks are due. That 1 is answered before the parent is
looked at and for a state word of a reserved code, and that the child is linked before its launch checks, are the
model's choices (log 45). -/
def Obligations.ContextInstructions : Prop :=
  (∀ s : State, s.cc.level ≠ .user →
    (s.cc.depth = 0 ∨ s.cc.tcause ≠ 0x0D ∧ s.cc.tcause ≠ 0x0E →
      exec .yield s = .next (s.raise { cause := 0x01, tval := 0x0100001D })) ∧
    (s.cc.depth ≠ 0 → s.cc.tcause = 0x0D ∨ s.cc.tcause = 0x0E →
      (s.cc.out.idle = false → exec .yield s = .next s.freshReads) ∧
      (s.cc.out.idle = true → s.cc.region = none → ∃ t, exec .yield s = .next t ∧ Freed s t ∧ t.mem = s.mem) ∧
      ∀ (rcb : Nat) (r : Region), s.cc.out.idle = true → s.cc.region = some rcb → s.regionAt rcb = some r →
        let leaf := s.schedLeaf r.ptbase r.asid true (r.saveArea + .ofNat 64 (s.cc.index * 0xE000) + 0x160)
        let cs := r.ctxs.set s.cc.index (.saved s.cc.claim s.cc.parts)
        let apart (a n b m : Nat) : Prop := a + n ≤ b ∨ b + m ≤ a
        let saved (t : State) (q : Region) : Prop := exec .yield s = .next t ∧ Freed s t ∧ t.regionAt rcb = some q ∧ q.ctxs = cs ∧
          (r.state = .running → s.cc.index < r.ctxs.length → (∀ c ∈ cs, c.isSaved = true ∨ c = .exited) →
            q.state = .saved ∧ t.peek (rcb + 0x48) 4 = 3)
        (∀ c, leaf = .error c → ∃ t q, saved t q ∧ ∀ a, apart a 1 (rcb + 0x48) 4 → Memory.read t.mem a = Memory.read s.mem a) ∧
        ∀ (w : WalkEnd) (pa : Nat), leaf = .ok (w, pa) → (pteCe w.entry = true → s.variant.wmcomp = true) →
          s.plainIn (pteCe w.entry) pa 0x60 →
          apart pa 0x60 (rcb + 0x48) 4 → apart w.at_ 8 pa 0x60 → apart w.at_ 8 (rcb + 0x48) 4 →
          ∃ t q, saved t q ∧ ResumeBlock s t pa ∧
            (∀ a, apart a 1 pa 0x60 → apart a 1 (rcb + 0x48) 4 → apart a 1 w.at_ 8 → Memory.read t.mem a = Memory.read s.mem a) ∧
            (s.peek w.at_ 8 = w.entry.toNat → t.peek w.at_ 8 = (pteTouch w.entry true).toNat))) ∧
  (∀ s : State,
    (s.cc.out.idle = false →
      exec .exit s = .next (State.freshReads { s with cc := { s.cc with request := none, leaving := true } })) ∧
    (s.cc.out.idle = true → (∀ j ∈ s.jobs, j.cc ≠ s.cc.ctxid) → (∀ q ∈ s.queries, q.cc ≠ s.cc.ctxid) →
      (s.cc.region = none → ∃ t, exec .exit s = .next t ∧ Freed s t ∧ t.mem = s.mem) ∧
      ∀ (rcb : Nat) (r : Region), s.cc.region = some rcb → s.regionAt rcb = some r →
        let cs := r.ctxs.set s.cc.index .exited
        ∃ t q, exec .exit s = .next t ∧ Freed s t ∧ t.regionAt rcb = some q ∧ q.ctxs = cs ∧
          (∀ a, a < rcb + 0x48 ∨ rcb + 0x4C ≤ a → Memory.read t.mem a = Memory.read s.mem a) ∧
          (r.state = .running → r.terminating = false → (∀ c ∈ cs, c = .exited) → s.childrenEnded rcb = true →
            .regionRetire (.ofNat 48 rcb) ∈ t.agenda) ∧
          (r.state = .running → (∃ c ∈ cs, c.isSaved = true) → (∀ c ∈ cs, c.isSaved = true ∨ c = .exited) →
            q.state = .saved ∧ t.peek (rcb + 0x48) 4 = 3))) ∧
  (∀ (s : State) (d a : XReg),
    ((s.getX a).toNat % 256 ≠ 0 → exec (.spawn d a) s = .next (s.raise { cause := 0x04, tval := s.getX a })) ∧
    ∀ pa : Nat, s.plainAt .store (s.getX a) 256 = some pa → (s.getX a).toNat % 256 = 0 → s.cc.stores = [] → s.cc.loads = 0 →
      ∃ t, exec (.spawn d a) s = .next t ∧ Retires s t (s.cc.pc + 4) ∧ ClockAdvanced s t ∧
        (∀ n, n ≠ d → t.getX n = s.getX n) ∧
        (s.peek (pa + 0x48) 4 ≠ 0 → t.mem = s.mem ∧ t.regions = s.regions ∧ t.getX d = if d = 0 then 0 else 1) ∧
        (s.peek (pa + 0x48) 4 = 0 → s.regionAt pa = none →
          (∀ c, s.schedLeaf s.cc.ptbase s.cc.asid false (.ofNat 64 (s.peek pa 8)) = .error c →
            t.mem = s.mem ∧ t.regions = s.regions ∧ t.getX d = if d = 0 then 0 else 2) ∧
          ∀ w p q, s.schedLeaf s.cc.ptbase s.cc.asid false (.ofNat 64 (s.peek pa 8)) = .ok (w, p) → s.cc.region = some p →
            s.regionAt p = some q → q.state.ended = false →
            t.getX d = 0 ∧ t.peek (p + 0x08) 8 = (s.getX a).toNat ∧
            (pa + 0x18 ≤ p + 0x08 ∨ p + 0x10 ≤ pa + 0x10 → t.peek (pa + 0x10) 8 = s.peek (p + 0x08) 8) ∧
            (∀ x, (x < pa + 0x10 ∨ pa + 0x18 ≤ x) → (x < p + 0x08 ∨ p + 0x10 ≤ x) →
              Memory.read t.mem x = Memory.read s.mem x) ∧
            .rcbCheck (.ofNat 48 pa) ∈ t.agenda ∧
            ∃ r, t.regionAt pa = some r ∧ r.state = .accepted ∧ r.parent = some p ∧ r.service = false ∧ r.va = s.getX a ∧
              r.entry = .ofNat 64 (s.peek (pa + 0x18) 8) ∧ r.launch = .ofNat 64 (s.peek (pa + 0x20) 8) ∧
              r.saveArea = .ofNat 64 (s.peek (pa + 0x40) 8) ∧ r.tvec = s.cc.tvec ∧ r.ptbase = s.cc.ptbase ∧
              r.asid = s.cc.asid ∧ r.maxvl = s.cc.maxvl ∧ r.preempt = s.cc.preempt))

/-- R160: LOOP and LOOPI open a loop, or go to the exit when the count is zero; in an open loop they are illegal.
Nothing else changes but TSTATUS and STRIP. R161: SETVL grants min(count, 8192 / width, MAXEG · 512 / width), writes it
to VL and xd and begins a strip in a loop; an overflow of the strip count is illegal. A pending soft pre-emption is
taken first (R48, R52). R162: NEXT takes VL from the count; while elements are left it goes to its target, else it
closes the loop. With xd = x0 it closes the loop; outside a loop it is illegal. -/
def Obligations.VectorLoops : Prop :=
  (∀ (s : State) (a : XReg) (off : BitVec 12) (fn3 : Bool), s.cc.ven = true →
    let i : Instr := if fn3 then .loopi a off else .loop a off
    (s.cc.loopAct = true → exec i s = .next (s.raise { cause := 0x01, tval := wordOf i })) ∧
    (s.cc.loopAct = false → s.getX a = 0 →
      ∃ t, exec i s = .next t ∧ Retires s t (s.cc.pc + .ofInt 64 (4 * off.toInt)) ∧ FrameX s t 0) ∧
    (s.cc.loopAct = false → s.getX a ≠ 0 →
      ∃ t, exec i s = .next t ∧ Retires s t (s.cc.pc + 4) ∧ t.cc.loopAct = true ∧ t.cc.loopI = fn3 ∧ t.cc.issued = 0 ∧
        t.cc.done = 0 ∧ t.cc.ppriv = s.cc.ppriv ∧ t.cc.ven = true ∧ t.cc.x = s.cc.x ∧ t.cc.vl = s.cc.vl ∧ t.mem = s.mem)) ∧
  (∀ (s : State) (d a : XReg) (w : BitVec 2), s.cc.ven = true →
    (s.cc.request.isSome = true → s.cc.depth = 0 → s.cc.inui = false → ∃ u : State, exec (.setvl d a w) s = .next (u.preempt 0x0D) ∧
      u.cc.x = s.cc.x ∧ u.cc.vl = s.cc.vl ∧ u.mem = s.mem) ∧
    (s.cc.request = none ∨ s.cc.depth ≠ 0 ∨ s.cc.inui = true →
      (s.cc.loopAct = true → s.cc.issued = BitVec.allOnes 32 → ∃ u : State, exec (.setvl d a w) s =
        .next (u.raise { cause := 0x01, tval := wordOf (.setvl d a w) }) ∧ u.cc.x = s.cc.x ∧ u.cc.vl = s.cc.vl) ∧
      ((s.cc.loopAct = true → s.cc.issued ≠ BitVec.allOnes 32) →
        let width := 64 / 2 ^ w.toNat
        let vl := min (s.getX a).toNat (min (8192 / width) (s.cc.maxvl.toNat * (512 / width)))
        ∃ t, exec (.setvl d a w) s = .next t ∧ Retires s t (s.cc.pc + 4) ∧ t.vlN = vl ∧
          t.getX d = (if d = 0 then 0 else .ofNat 64 vl) ∧ (∀ n, n ≠ d → t.getX n = s.getX n) ∧
          t.cc.issued = (if s.cc.loopAct then s.cc.issued + 1 else s.cc.issued) ∧ t.cc.tstatus = s.cc.tstatus ∧
          t.cc.v = s.cc.v ∧ t.cc.m = s.cc.m ∧ t.mem = s.mem))) ∧
  (∀ (s : State) (d : XReg) (off : BitVec 20), s.cc.ven = true →
    (s.cc.loopAct = false → exec (.next d off) s = .next (s.raise { cause := 0x01, tval := wordOf (.next d off) })) ∧
    (s.cc.loopAct = true →
      let left := (s.getX d).toNat - s.vlN
      ∃ t, exec (.next d off) s = .next t ∧ (∀ n, n ≠ d → t.getX n = s.getX n) ∧
        t.getX d = (if d = 0 then 0 else .ofNat 64 left) ∧ t.cc.vl = s.cc.vl ∧ t.mem = s.mem ∧
        (d ≠ 0 → left ≠ 0 → Retires s t (s.cc.pc + .ofInt 64 (4 * off.toInt)) ∧ t.cc.tstatus = s.cc.tstatus) ∧
        (d = 0 ∨ left = 0 → Retires s t (s.cc.pc + 4) ∧ t.cc.loopAct = false ∧ t.cc.loopI = false ∧
          t.cc.ven = true ∧ t.cc.ppriv = s.cc.ppriv)))

/-! ### Vectors -/

/-- The instructions of major opcode 0x20 (R163 to R165), with the write of a vector register of R115, R158 and R159:
the active elements, those that keep their data, the tail, the side band, the tag, the flags and VSTART. -/
def Obligations.VectorArithmetic : Prop :=
  ∀ (i : Instr) (s : State) (p : VecSpec), vecArith i s = some p → VecReady s p →
    ∃ t, exec i s = .next t ∧ VecOut s t p

/-- The single-operand instructions of R166 and R167, VCLASS and VBCAST. The exact values that VEXP2 and VLOG2 round,
and what they flag, are as the model reads R167 (log 13). The slides, VPERM, VCOMP, VIOTA, VSEL and VINS of R173 and
R174; VMOV and VTAG of R168. The scalar or immediate b of a VSEL on RAW, the sign of VPERM's index and the side band of
VMOV are as the model reads the rules (logs 53 and 23). -/
def Obligations.VectorOneSource : Prop :=
  (∀ (i : Instr) (s : State) (p : VecSpec), vecUnary i s = some p → VecReady s p →
    ∃ t, exec i s = .next t ∧ VecOut s t p) ∧
  (∀ (i : Instr) (s : State) (p : VecSpec), vecMoves i s = some p ∨ vecCopies i s = some p → VecReady s p →
    ∃ t, exec i s = .next t ∧ VecOut s t p)

/-- The conversions VCVT and VCVTSC (R170, R171) into a tag that is not SX, where no element read is a reserved code:
each element rounded into the tag. VSXNORM, and VCVT and VCVTSC into an SX tag (R106, R168, R172): each block that holds
an active element is quantised anew with positions at or above VL and inactive ones as zero, and written with its side
band; every other block below VL keeps its data and side band; the tail is zero in both. A block with a NaN has E =
0xFF, and one of zeros E = 0, with every element zero. That a NaN in a block raises no flag, a signalling one included,
is the model's choice (log 48), and the tail of the side band is as it reads R115 (log 23). -/
def Obligations.VectorConversions : Prop :=
  (∀ (i : Instr) (s : State) (p : VecSpec), vecConvert i s = some p → VecReady s p →
    (∀ k, k < s.vlN → s.activeAt k = true → (convertSource i s k).isSome = true) →
    ∃ t, exec i s = .next t ∧ VecOut s t p) ∧
  ((∀ (i : Instr) (s : State) (p : SxSpec), sxResult i s = some p → SxReady s p → ∃ t, exec i s = .next t ∧ SxOut s t p) ∧
  ∀ (k : Nat) (mode : BitVec 3) (xs : List Val),
    (xs.any Val.isNan = true → quantiseSx k mode xs = (⟨0xFF, 0, List.replicate 16 (false, 0)⟩, 0)) ∧
    ((∀ x ∈ xs, ∃ n e, x = .fin n 0 e) → quantiseSx k mode xs = (⟨0, 0, List.replicate 16 (false, 0)⟩, 0)))

/-- The reductions into element 0 of vd (R175). -/
def Obligations.VectorReductions : Prop :=
  ∀ (i : Instr) (s : State) (p : VecSpec), vecReduce i s = some p → VecReady s p →
    ∃ t, exec i s = .next t ∧ VecOut s t p

/-- VARGMAX and VARGMIN (R175): all ones with no active element; else the lowest index of a largest or smallest element
that is no NaN, −0 below +0, and the lowest active index when all are NaN; NV for a signalling NaN. VEXT (R174), MPOPC
and MFIRST (R177): a scalar register takes an element, zero at or above VL; the number of set bits below VL; the lowest
set bit, or all ones. Nothing else changes. -/
def Obligations.VectorToScalar : Prop :=
  (∀ (s : State) (d : XReg) (a : VReg) (max : Bool), d ≠ 0 → s.cc.ven = true → s.cc.cut = none →
    isInt (s.getV a).tag || isFlt (s.getV a).tag → s.vlN ≤ vlmax (s.getV a).tag →
    let x (k : Nat) : Val := valOf (s.getV a).data (s.getV a).tag k
    let beaten (k j : Nat) : Bool := if max then ltTotal (x k) (x j) else ltTotal (x j) (x k)
    ∃ t, exec (if max then .vargmax d a else .vargmin d a) s = .next t ∧ Retires s t (s.cc.pc + 4) ∧ FrameF s t d ∧
      FlagsSet s t (if ∃ k, k < s.vlN ∧ s.member k = true ∧ (x k).isSig = true then fNV else 0) ∧
      ((∀ k, k < s.vlN → s.member k = false) → t.getX d = BitVec.allOnes 64) ∧
      (∀ k, Lowest s.vlN s.member k → (∀ j, j < s.vlN → s.member j = true → (x j).isNan = true) → (t.getX d).toNat = k) ∧
      ((∃ j, j < s.vlN ∧ s.member j = true ∧ (x j).isNan = false) →
        (t.getX d).toNat < s.vlN ∧ s.member (t.getX d).toNat = true ∧ (x (t.getX d).toNat).isNan = false ∧
        ∀ j, j < s.vlN → s.member j = true → (x j).isNan = false →
          beaten (t.getX d).toNat j = false ∧ (j < (t.getX d).toNat → beaten j (t.getX d).toNat = true))) ∧
  (∀ (s : State) (d : XReg), d ≠ 0 → s.cc.ven = true →
    (∀ (a : VReg) (b : Third), isVal (s.getV a).tag = true → s.vlN ≤ vlmax (s.getV a).tag →
      ∃ t, exec (.vext d a b) s = .next t ∧ Retires s t (s.cc.pc + 4) ∧ FrameX s t d ∧
        t.getX d = if amount s b < s.vlN then
          .ofInt 64 (intOf (isSigned (s.getV a).tag) (memBits (s.getV a).tag) (bitsOf (s.getV a).data (s.getV a).tag (amount s b)))
        else 0) ∧
    (∀ m : MReg, ∃ t, exec (.mpopc d m) s = .next t ∧ Retires s t (s.cc.pc + 4) ∧ FrameX s t d ∧
      (t.getX d).toNat = ((List.range s.vlN).filter (s.maskBit m)).length) ∧
    (∀ m : MReg, ∃ t, exec (.mfirst d m) s = .next t ∧ Retires s t (s.cc.pc + 4) ∧ FrameX s t d ∧
      ((∀ k, k < s.vlN → s.maskBit m k = false) → t.getX d = BitVec.allOnes 64) ∧
      (∀ k, Lowest s.vlN (s.maskBit m) k → (t.getX d).toNat = k)))

/-- VBEST.MAX and VBEST.MIN (R176) on four distinct registers: for each active element the better of the two pairs goes
to (vv, vi) and the other to (vcv, vci), bits and tags unchanged; the tails of all four are zero, and no flag is set but
NV for a signalling NaN among the active values. -/
def Obligations.BestPairs : Prop :=
  ∀ (s : State) (vv vi vcv vci : VReg) (max : Bool), s.cc.ven = true → s.cc.cut = none →
    (s.cc.loopAct = true → s.cc.loopI = false) → distinct4 vv vi vcv vci = true → vv.toNat < 48 → vi.toNat < 48 → vcv.toNat < 48 → vci.toNat < 48 →
    isInt (s.getV vv).tag || isFlt (s.getV vv).tag → (s.getV vcv).tag = (s.getV vv).tag → isInt (s.getV vi).tag = true →
    (s.getV vci).tag = (s.getV vi).tag → s.vlN ≤ vlmax (s.getV vv).tag → s.vlN ≤ vlmax (s.getV vi).tag →
    let t := (s.getV vv).tag
    let k := (s.getV vi).tag
    let wins (i : Nat) : Bool := s.activeAt i && better max (valOf (s.getV vcv).data t i) (intAt (s.getV vci).data k i)
      (valOf (s.getV vv).data t i) (intAt (s.getV vi).data k i)
    ∃ u, exec (if max then .vbestMax vv vi vcv vci else .vbestMin vv vi vcv vci) s = .next u ∧
      Retires s u (s.cc.pc + 4) ∧ SameBytes s u ∧
      FlagsSet s u (if ∃ i, i < s.vlN ∧ (s.activeAt i = true ∧
        ((valOf (s.getV vv).data t i).isSig = true ∨ (valOf (s.getV vcv).data t i).isSig = true)) then fNV else 0) ∧ u.cc.x = s.cc.x ∧ u.cc.m = s.cc.m ∧ u.cc.vstart = 0 ∧
      (∀ r : VReg, r ≠ vv → r ≠ vi → r ≠ vcv → r ≠ vci → u.getV r = s.getV r) ∧
      (u.getV vv).tag = t ∧ (u.getV vcv).tag = t ∧ (u.getV vi).tag = k ∧ (u.getV vci).tag = k ∧
      (∀ i, i < s.vlN →
        bitsOf (u.getV vv).data t i = bitsOf (s.getV (if wins i then vcv else vv)).data t i ∧
        bitsOf (u.getV vcv).data t i = bitsOf (s.getV (if wins i then vv else vcv)).data t i ∧
        bitsOf (u.getV vi).data k i = bitsOf (s.getV (if wins i then vci else vi)).data k i ∧
        bitsOf (u.getV vci).data k i = bitsOf (s.getV (if wins i then vi else vci)).data k i) ∧
      (∀ i, s.vlN ≤ i → i < vlmax t → slotOf (u.getV vv).data t i = 0 ∧ slotOf (u.getV vcv).data t i = 0) ∧
      (∀ i, s.vlN ≤ i → i < vlmax k → slotOf (u.getV vi).data k i = 0 ∧ slotOf (u.getV vci).data k i = 0)

/-- The compares of R169 into a mask register. The mask operations of R177 that write a mask register: bits 0 to VL − 1,
zero above, whatever VMSEL; no flag. -/
def Obligations.MaskResults : Prop :=
  (∀ (i : Instr) (s : State) (p : MaskSpec), maskCompare i s = some p → MaskReady s p →
    ∃ t, exec i s = .next t ∧ MaskOut s t p) ∧
  (∀ (i : Instr) (s : State) (p : MaskSpec), maskLogic i s = some p → MaskReady s p →
    ∃ t, exec i s = .next t ∧ MaskOut s t p)

/-- The checks of R157 in their order, for every instruction of major opcodes 0x20 to 0x27: "vector first use", "loop
carry write" with the code of the first register that LOOPI carries (R47), "format tag mismatch" with the tags that the
instruction reads, "length exceeds type" with VL. Each trap leaves the state in which the instruction began. -/
def Obligations.VectorChecks : Prop :=
  ∀ (i : Instr) (s : State) (c : CheckSpec), checkSpec i s = some c → (∀ d ∈ c.dsts, d < 48 ∨ 0x40 ≤ d ∧ d < 0x4C) →
    (s.cc.ven = false → exec i s = .next (s.raise { cause := 0x07 })) ∧
    (s.cc.ven = true → s.cc.loopAct = true → s.cc.loopI = true → ∀ d, c.dsts.find? loopCarried = some d →
      exec i s = .next (s.raise { cause := 0x13, tval := .ofNat 64 d })) ∧
    (s.cc.ven = true → (s.cc.loopAct = true → s.cc.loopI = true → ∀ d ∈ c.dsts, loopCarried d = false) →
      (c.tagsOk = false → exec i s = .next (s.raise { cause := 0x02, tval := .ofNat 64 c.report })) ∧
      (c.tagsOk = true → (∃ t ∈ c.lens, vlmax t < s.vlN) →
        exec i s = .next (s.raise { cause := 0x12, tval := .ofNat 64 s.vlN })))

/-- Skipped element groups (R178, R340). That they are counted when the instruction retires, from VSTART to VL − 1, and
the width that an accumulator has, are the model's choices (log 46). Nothing is counted when VMSEL is 15, for an
instruction that did not retire, or for one that does not skip (VMOV, VPERM, the reductions named). An instruction that
skips, as VADD, VMAC (by its accumulator), a compare and VCVT, counts in performance-counter code 2 each group of 512
bits under its element width that holds an element from VSTART to VL − 1 and whose active-mask bits are all zero. -/
def Obligations.SkippedElementGroups : Prop :=
  (∀ (u t : State) (i : Instr), u.cc.vmsel = 15 ∨ t.cc.retired ≠ u.cc.retired + 1 → u.noteSkips i t = t) ∧
  (∀ (u t : State) (vd va vb : VReg), u.noteSkips (.vmov vd va) t = t ∧ u.noteSkips (.vperm vd va vb) t = t ∧
    u.noteSkips (.vredsumS vd va vb) t = t) ∧
  ∀ (u t : State) (i : Instr) (w : Nat), u.cc.vmsel ≠ 15 → u.cc.cut = none → t.cc.retired = u.cc.retired + 1 →
    ((∃ vd va b, (i = .vadd vd va b ∨ i = .vmul vd va b ∨ i = .vdiv vd va b) ∧ w = tagWidth (u.getV va).tag) ∨
      (∃ vd va b, i = .vmac vd va b ∧ w = max (tagWidth (u.getV vd).tag) (tagWidth (u.getV va).tag)) ∨
      (∃ md va b, i = .vcmplt md va b ∧ w = tagWidth (u.getV va).tag) ∨
      ∃ vd va tag rm part, i = .vcvt vd va tag rm part ∧ w = max (tagWidth (u.getV va).tag) (tagWidth tag)) →
    let n := 512 / w
    let k := ((List.range 16).filter fun g =>
      ((List.range n).any fun j => decide (u.cc.vstart.toNat ≤ g * n + j) && decide (g * n + j < u.cc.vl.toNat)) &&
      (List.range n).all fun j => !(u.getM u.cc.vmsel).getLsbD (g * n + j)).length
    u.noteSkips i t = if k = 0 then t else t.count (coreOf u.cc.ctxid) 2 k

/-- Vector loads (R213 to R219, R221, R231). With L full, or behind a VFENCE whose accesses are not performed, the load
waits. In every form: with the checks passed, no unit absent (R32) and every byte read, the register is written, VSTART
taken and the load counted in L; a fault-only-first load that is cut sets VL. Of plain elements served by the TLB, on
idempotent pages for VLDFF, each active element is what memory holds at its address, little-endian; the rest is as a
write of a vector register leaves it. -/
def Obligations.VectorLoads : Prop :=
  ∀ (i : Instr) (s : State) (form : MemForm) (vr : VReg) (xa : XReg), vecLoadForm i = some (form, vr, xa) →
    s.cc.ven = true → s.cc.cut = none → (s.cc.loopAct = true → s.cc.loopI = true → ¬ 40 ≤ vr.toNat) → vr.toNat < 48 →
    (s.cc.full .l = true ∨ s.cc.vfence = true ∧ (s.cc.loads ≠ 0 ∨ ∃ w ∈ s.cc.stores, w.vec = true) →
      exec i s = .next s.freshReads) ∧
    (s.cc.full .l = false → s.cc.vfence = false → (∀ t ∈ memLens s form, s.vlN ≤ vlmax t) →
      memTable s form vr (s.getX xa) = .ok () →
      let first := if form = .first then
        s.actives.head?.map (fun f => if isSx s.cc.mtag && !s.cc.rawm then f / 16 * 16 else f) else none
      (∀ (u w : State) (got : List (Nat × List Byte)), s.scanItems s.cc.mb first (s.loadItems form (s.getX xa)) = .ok () →
        s.readItems s.cc.mb first (s.loadItems form (s.getX xa)) [] = (u, got, .done) → u.commitLoad vr got = (w, none) →
        exec i s = .next w.takeVstart.pendLoad.retire) ∧
      (∀ (u w : State) (got : List (Nat × List Byte)) (k : Nat),
        s.scanItems s.cc.mb first (s.loadItems form (s.getX xa)) = .ok () →
        s.readItems s.cc.mb first (s.loadItems form (s.getX xa)) [] = (u, got, .cut k) →
        (u.modCc fun c => { c with vl := .ofNat 11 k }).commitLoad vr got = (w, none) →
        exec i s = .next w.takeVstart.pendLoad.retire) ∧
      (s.plainFormat →
        (∀ k, k < s.vlN → s.activeAt k = true → let n := tagWidth s.cc.rtag / 8
          (s.plainAt .load (s.elemAddr form (s.getX xa) k) n).isSome = true ∧ (s.elemAddr form (s.getX xa) k).toNat % n = 0 ∧
          (form = .first → (s.quietAt .load (s.elemAddr form (s.getX xa) k) n).isSome = true)) →
        ∃ t, exec i s = .next t.pendLoad ∧ VecOut s t (s.loadSpec form vr (s.getX xa))))

/-- Vector stores (R213 to R220, R231). With S full, or behind a VFENCE whose accesses are not performed, the store
waits. In every form without a scale: with the checks passed and every write made, VSTART is taken and the store counted
in S; with a scale, all of the groups are written, each its scale code and then its elements. A trap at an element, a
unit's absence apart, finds the elements below it written, names it in VSTART, and leaves in S what they have sent to
peers. Of plain elements served by the TLB: the stored bytes are those at each active element's address, the highest
element's where two meet, every other byte of memory stands, and no register changes. -/
def Obligations.VectorStores : Prop :=
  ∀ (i : Instr) (s : State) (form : MemForm) (vr : VReg) (xa : XReg), vecStoreForm i = some (form, vr, xa) →
    s.cc.ven = true → s.cc.cut = none →
    (s.cc.full .s = true ∨ s.cc.vfence = true ∧ (s.cc.loads ≠ 0 ∨ ∃ w ∈ s.cc.stores, w.vec = true) →
      exec i s = .next s.freshReads) ∧
    (s.cc.full .s = false → s.cc.vfence = false → (s.cc.rawm = true ∨ (s.getV vr).tag = s.cc.rtag) →
      (∀ t ∈ (s.getV vr).tag :: memLens s form, s.vlN ≤ vlmax t) → memTable s form vr (s.getX xa) = .ok () →
      (s.cc.rawm = true ∨ s.cc.scaleMode = 0 →
        ∀ (u v : State) (items : List StoreItem) (plan : List (StoreItem × List Piece)) (ws : List PStore),
          s.storeItems form (s.getX xa) (s.getV vr) = (items, none) →
          (items.any StoreItem.keeps = true →
            s.scanItems s.cc.mb none (items.map fun it => (it.i, [(it.addr, it.n)])) = .ok ()) →
          (s.planItems s.cc.mb items = .ok (u, plan, none) → u.writeItems plan = (v, ws) →
            exec i s = .next (v.takeVstart.pendStore (joinStores ws).ofVec).retire) ∧
          ∀ (k : Nat) (t : Trap), s.planItems s.cc.mb items = .ok (u, plan, some (k, t)) → t.cause ≠ 0x11 →
            u.writeItems plan = (v, ws) →
            exec i s = .next ((v.pendSent ws).raise { t with vstart := some (.ofNat 10 k) })) ∧
      (s.cc.rawm = false → s.cc.scaleMode ≠ 0 →
        let per := if s.cc.scaleMode = 1 then 32 else max 1 s.vlN
        let n := scaledBytes s.cc.mtag per s.vlN
        ∀ pa, s.vlN ≠ 0 → s.plainAt .store (s.getX xa) n = some pa → s.poisoned pa n = false →
          let g := groupsBytes s.cc.mtag s.cc.rm (s.vlN + 1)
            ((List.range s.vlN).map fun k => valOf (s.getV vr).data s.cc.rtag k) (s.bytes pa n) per
          ∃ t, exec i s = .next t ∧ Retires s t (s.cc.pc + 4) ∧ t.cc.x = s.cc.x ∧ t.cc.v = s.cc.v ∧ t.cc.m = s.cc.m ∧
            FlagsSet s t g.2 ∧ t.cc.out.s = s.cc.out.s + 1 ∧ (g.1.length = n → t.bytes pa n = g.1 ∧
            ∀ a, (a < pa ∨ pa + n ≤ a) → Memory.read t.mem a = Memory.read s.mem a)) ∧
      (s.plainFormat →
        let n := tagWidth s.cc.rtag / 8
        let at_ (k : Nat) : Option Nat := s.plainAt .store (s.elemAddr form (s.getX xa) k) n
        (∀ k, k < s.vlN → s.activeAt k = true → (at_ k).isSome = true ∧ (s.elemAddr form (s.getX xa) k).toNat % n = 0) →
        ∃ t, exec i s = .next t ∧ t.cc.pc = s.cc.pc + 4 ∧ t.cc.x = s.cc.x ∧ t.cc.v = s.cc.v ∧ t.cc.m = s.cc.m ∧
          t.cc.fcsr = s.cc.fcsr ∧ t.cc.vstart = 0 ∧ t.cc.out.s = s.cc.out.s + 1 ∧
          (∀ a, (∀ k pa, k < s.vlN → s.activeAt k = true → at_ k = some pa → a < pa ∨ pa + n ≤ a) →
            Memory.read t.mem a = Memory.read s.mem a) ∧
          (∀ k pa, k < s.vlN → s.activeAt k = true → at_ k = some pa →
            (∀ j pj, k < j → j < s.vlN → s.activeAt j = true → at_ j = some pj → pj + n ≤ pa ∨ pa + n ≤ pj) →
            t.bytes pa n = leBytes n (bitsOf (s.getV vr).data s.cc.rtag k))))

/-- VSAVE, VRESTORE, MSAVE and MRESTORE (R223), at a multiple of 256, on idempotent WM pages: data, side band and tag of
a vector register, or a mask, at their places in the save block; a restore gives the register back whole. The bytes are
there when the TLB serves their page and no page with CE = 0 meets a block that is stored encoded (R285). -/
def Obligations.SaveAndRestore : Prop :=
  ∀ (s : State) (xa : XReg) (sc : BitVec 3), s.cc.ven = true → s.cc.vfence = false → (s.getX xa).toNat % 256 = 0 →
    (∀ (kind : Acc) (va : Word) (n pa : Nat), s.quietAt kind va n = some pa →
      ∃ q, q.x.pa = pa ∧ q.len = n ∧ s.savePieces kind va n = .ok (s, [q]) ∧
        (kind = .load → s.loadPieces va [q] = .ok (s, s.bytes pa n))) ∧
    (∀ (v : VReg) (s1 s2 : State) (p1 p2 : List Piece), s.cc.full .s = false →
      s.savePieces .store (s.getX xa + .ofNat 64 (0x1C0 + v.toNat)) 1 = .ok (s1, p1) →
      s1.savePieces .store (s.getX xa + .ofNat 64 (0x800 + 1152 * v.toNat)) 1152 = .ok (s2, p2) →
      ∃ t, exec (.vsave v xa sc) s = .next t ∧ t.cc.pc = s2.cc.pc + 4 ∧ t.cc.x = s2.cc.x ∧ t.cc.v = s2.cc.v ∧
        t.cc.out.s = s2.cc.out.s + 1 ∧
        (s2.plainSpans (pieceSpans (p1 ++ p2)) →
          (∀ a, ¬ inPieces p1 a → ¬ inPieces p2 a → Memory.read t.mem a = Memory.read s2.mem a) ∧
          ∀ q, p2 = [q] → t.bytes q.x.pa 1152 =
            leBytes 1024 (s.getV v).data.toNat ++ leBytes 128 (s.getV v).side.toNat)) ∧
    (∀ (v : VReg) (s1 s2 s3 s4 : State) (p1 p2 : List Piece) (tb bs : List Byte), v.toNat < 48 →
      (s.cc.loopAct = true → s.cc.loopI = true → ¬ 40 ≤ v.toNat) → s.cc.full .l = false →
      s.savePieces .load (s.getX xa + .ofNat 64 (0x1C0 + v.toNat)) 1 = .ok (s1, p1) →
      s1.savePieces .load (s.getX xa + .ofNat 64 (0x800 + 1152 * v.toNat)) 1152 = .ok (s2, p2) →
      s2.loadPieces (s.getX xa + .ofNat 64 (0x1C0 + v.toNat)) p1 = .ok (s3, tb) →
      s3.loadPieces (s.getX xa + .ofNat 64 (0x800 + 1152 * v.toNat)) p2 = .ok (s4, bs) → leNat tb < 0x14 →
      ∃ t, exec (.vrestore v xa sc) s = .next t.pendLoad ∧ Retires s4 t (s4.cc.pc + 4) ∧ FrameV s4 t v ∧
        t.getV v = ⟨.ofNat 8192 (leNat (bs.take 1024)), .ofNat 1024 (leNat (bs.drop 1024)), .ofNat 5 (leNat tb)⟩) ∧
    (∀ (m : MReg) (s1 : State) (ps : List Piece), s.cc.full .s = false →
      s.savePieces .store (s.getX xa + .ofNat 64 (0x200 + 128 * m.toNat)) 128 = .ok (s1, ps) →
      ∃ t, exec (.msave m xa sc) s = .next t ∧ t.cc.pc = s1.cc.pc + 4 ∧ t.cc.x = s1.cc.x ∧ t.cc.m = s1.cc.m ∧
        t.cc.out.s = s1.cc.out.s + 1 ∧
        (s1.plainSpans (pieceSpans ps) → (∀ a, ¬ inPieces ps a → Memory.read t.mem a = Memory.read s1.mem a) ∧
          ∀ q, ps = [q] → t.bytes q.x.pa 128 = leBytes 128 (s.getM m).toNat)) ∧
    (∀ (m : MReg) (s1 s2 : State) (ps : List Piece) (bs : List Byte), m.toNat < 12 →
      (s.cc.loopAct = true → s.cc.loopI = true → ¬ 8 ≤ m.toNat) → s.cc.full .l = false →
      s.savePieces .load (s.getX xa + .ofNat 64 (0x200 + 128 * m.toNat)) 128 = .ok (s1, ps) →
      s1.loadPieces (s.getX xa + .ofNat 64 (0x200 + 128 * m.toNat)) ps = .ok (s2, bs) →
      ∃ t, exec (.mrestore m xa sc) s = .next t.pendLoad ∧ Retires s2 t (s2.cc.pc + 4) ∧ FrameM s2 t m ∧
        t.getM m = .ofNat 1024 (leNat bs))

/-! ### Tiles -/

/-- TCFG, TREL, TZERO and TRANK (R179 to R185, R193): a valid configuration that fits is taken by a tile that is not in
use; a release leaves the tile unconfigured; a zeroed tile is in use with zero contents; TRANK reads rank, form, marks
and configuration. A tile destination inside a LOOPI is refused (R47). -/
def Obligations.TileConfiguration : Prop :=
  ∀ (s : State) (td : TReg),
    (s.tilesReady →
      (∀ xa : XReg, (s.getT td).inUse = false → cfgOk (s.getX xa) = true →
        s.cc.othersOccupy td + occupancy ((s.getX xa).setWidth 32) ≤ 131072 →
        ∃ t, exec (.tcfg td xa) s = .next t ∧ Retires s t (s.cc.pc + 4) ∧ FrameT s t td ∧ FlagsSet s t 0 ∧
          t.getT td = { cfg := some ((s.getX xa).setWidth 32) }) ∧
      (∃ t, exec (.trel td) s = .next t ∧ Retires s t (s.cc.pc + 4) ∧ FrameT s t td ∧ FlagsSet s t 0 ∧ t.getT td = {}) ∧
      (∀ w, (s.getT td).cfg = some w → ∃ t, exec (.tzero td) s = .next t ∧ Retires s t (s.cc.pc + 4) ∧ FrameT s t td ∧
        FlagsSet s t 0 ∧ (t.getT td).cfg = some w ∧ (t.getT td).inUse = true ∧ (t.getT td).rank = 0 ∧
        (t.getT td).scaled = false ∧ ∀ i k, slotOf ((t.getT td).row i).data (cfgTag w) k = 0)) ∧
    (s.cc.ven = true → ∀ xd : XReg, xd ≠ 0 → ∃ t, exec (.trank td xd) s = .next t ∧ Retires s t (s.cc.pc + 4) ∧
      FrameX s t xd ∧
      ((s.getT td).cfg = none → t.getX xd = 0) ∧
      (∀ w, (s.getT td).cfg = some w → (s.getT td).rank < 256 → w.toNat < 2 ^ 30 →
        (t.getX xd).extractLsb' 0 8 = .ofNat 8 (s.getT td).rank ∧ (t.getX xd).getLsbD 8 = cfgFactored w ∧
        (t.getX xd).getLsbD 9 = (s.getT td).inUse ∧ (t.getX xd).getLsbD 10 = true ∧
        (t.getX xd).getLsbD 11 = (s.getT td).scaled ∧ (t.getX xd).extractLsb' 32 32 = w)) ∧
    (s.cc.ven = true → s.cc.loopAct = true → s.cc.loopI = true → ∀ i ∈ [Instr.trel td, .tzero td, .trecomp td, .tdense td],
      exec i s = .next (s.raise { cause := 0x13, tval := .ofNat 64 (0x80 + td.toNat) }))

/-- TOPA and TOPS (R186, R187): to a dense tile each product of an element of va and one of vb is added, or taken away,
with the rounding of an accumulator; to a factored tile a pair of factors is appended, below its maximum rank. -/
def Obligations.OuterProducts : Prop :=
  ∀ (s : State) (td : TReg) (va vb : VReg) (sub : Bool) (w : BitVec 32), s.tilesReady → (s.getT td).cfg = some w →
    outerTags (s.getT td) (s.getV va).tag (s.getV vb).tag = true →
    let i : Instr := if sub then .tops td va vb else .topa td va vb
    let a (k : Nat) : Val := valOf (s.getV va).data (s.getV va).tag k
    let b (k : Nat) : Val := valOf (s.getV vb).data (s.getV vb).tag k
    (cfgFactored w = false → ∃ t, exec i s = .next t ∧ DenseOut s t td w fun r c =>
      denseAcc s.cc (cfgTag w) 0 (s.tileSlot td r c)
        [(if sub then (mulExact (a r) (b c)).1.neg else (mulExact (a r) (b c)).1, (mulExact (a r) (b c)).2)]) ∧
    (cfgFactored w = true → (s.getT td).rank ≠ cfgMaxRank w →
      ∃ t, exec i s = .next t ∧ Retires s t (s.cc.pc + 4) ∧ FrameT s t td ∧ FlagsSet s t 0 ∧ (t.getT td).inUse = true ∧
        (t.getT td).us = (s.getT td).us ++ [(List.range (cfgRows w)).map fun k => asFP32 (if sub then (a k).neg else a k)] ∧
        (t.getT td).vs = (s.getT td).vs ++ [(List.range (cfgCols w)).map fun k => asFP32 (b k)]) ∧
    (cfgFactored w = true → (s.getT td).rank = cfgMaxRank w →
      exec i s = .next (s.raise { cause := 0x09, tval := .ofNat 64 (td.toNat + 256 * (s.getT td).rank) }))

/-- TADD, TDENSE, TSCALE and TRECOMP (R188 to R191): the sum of two tiles, the dense tile of a factored one, the scale
array, and the recompressed factors. TRECOMP leaves the configuration, sets the in-use bit, and gives as many u as v, no
more than RCAP, or MAXRANK where that is 0 or less; a tile of rank 0 stays so; an infinity or a NaN leaves the factors
and sets NV. Of three tiles worked out from R188: factors in order that are exact come back as they are, with no flag;
with RCAP = 1 the larger stays, and NX tells of the one dropped; a v whose first entry is negative is turned, and its u
carries the sign. -/
def Obligations.TileOperations : Prop :=
  ∀ (s : State) (td : TReg) (w : BitVec 32), s.tilesReady → (s.getT td).cfg = some w →
    (∀ (ts : TReg) (x : BitVec 32), (s.getT ts).cfg = some x → cfgRows w = cfgRows x → cfgCols w = cfgCols x →
      (cfgFactored w = false → cfgFactored x = false → cfgTag w = tFP32 ∨ cfgTag w = tI32 → cfgTag x = cfgTag w →
        ∃ t, exec (.tadd td ts) s = .next t ∧ DenseOut s t td w fun r c =>
          addDense s.cc (cfgTag w) (s.tileSlot td r c) (s.tileSlot ts r c)) ∧
      (cfgFactored w = false → cfgFactored x = true → cfgTag w = tFP32 →
        ∃ t, exec (.tadd td ts) s = .next t ∧ DenseOut s t td w fun r c =>
          accDeliver s.cc.accsat s.cc.rm tFP32 (s.tileSlot td r c) ((s.getT ts).terms r c)) ∧
      (cfgFactored w = true → cfgFactored x = true → (s.getT td).rank + (s.getT ts).rank ≤ cfgMaxRank w →
        ∃ t, exec (.tadd td ts) s = .next t ∧ Retires s t (s.cc.pc + 4) ∧ FrameT s t td ∧ FlagsSet s t 0 ∧
          (t.getT td).us = (s.getT td).us ++ (s.getT ts).us ∧ (t.getT td).vs = (s.getT td).vs ++ (s.getT ts).vs)) ∧
    (cfgFactored w = false → ∃ t, exec (.tdense td) s = .next t ∧ Retires s t (s.cc.pc + 4) ∧ FrameX s t 0) ∧
    (cfgFactored w = true → s.cc.othersOccupy td + occupancy (w &&& 0x001FFFFF) ≤ 131072 →
      ∃ t, exec (.tdense td) s = .next t ∧ DenseOut s t td (w &&& 0x001FFFFF) fun r c => (s.getT td).entry s.cc.rm r c) ∧
    (∀ va : VReg, cfgFactored w = false → scaleTag (cfgTag w) = true → (s.getV va).tag = tE8M0 →
      ∃ t, exec (.tscale td va) s = .next t ∧ Retires s t (s.cc.pc + 4) ∧ FrameT s t td ∧ FlagsSet s t 0 ∧
        (t.getT td).scaled = true ∧ (t.getT td).inUse = true ∧ (t.getT td).rows = (s.getT td).rows ∧
        ∀ r c, r < cfgRows w → c < cfgCols w →
          (t.getT td).scaleAt r c = .ofNat 8 (slotOf (s.getV va).data tE8M0 (r / 32 * cfgCols w + c))) ∧
    (cfgFactored w = true → ((s.getT td).us ++ (s.getT td).vs).any (fun u => u.any badEntry) = false →
      ∃ t, exec (.trecomp td) s = .next t ∧ Retires s t (s.cc.pc + 4) ∧ FrameT s t td ∧
        let r := recompress s.cc.rm s.cc.ttol (s.getT td)
        let rcap := (s.cc.ttol.extractLsb' 32 8).toNat
        (t.getT td).us = r.1 ∧ (t.getT td).vs = r.2.1 ∧ FlagsSet s t r.2.2 ∧ (t.getT td).cfg = some w ∧
        (t.getT td).inUse = true ∧ r.1.length = r.2.1.length ∧
        r.1.length ≤ min (if rcap = 0 then cfgMaxRank w else rcap) (cfgMaxRank w) ∧ (∀ u ∈ r.1, u.length = cfgRows w) ∧
        ((s.getT td).us = [] → (s.getT td).vs = [] → (t.getT td).us = [] ∧ (t.getT td).vs = [])) ∧
    (cfgFactored w = true → ((s.getT td).us ++ (s.getT td).vs).any (fun u => u.any badEntry) = true →
      ∃ t, exec (.trecomp td) s = .next t ∧ Retires s t (s.cc.pc + 4) ∧ FrameT s t td ∧
        (t.getT td).us = (s.getT td).us ∧ (t.getT td).vs = (s.getT td).vs ∧ (t.getT td).cfg = some w ∧
        (t.getT td).inUse = true ∧ FlagsSet s t fNV) ∧
    let two : BitVec 32 := 0x40000000
    let one : BitVec 32 := 0x3F800000
    let tile (us vs : List (List (BitVec 32))) : Tile := { cfg := some 0x02200101, inUse := true, us := us, vs := vs }
    recompress 0 0 (tile [[two, 0], [0, one]] [[one, 0], [0, one]]) = ([[two, 0], [0, one]], [[one, 0], [0, one]], 0) ∧
    recompress 0 (1 <<< 32) (tile [[two, 0], [0, one]] [[one, 0], [0, one]]) = ([[two, 0]], [[one, 0]], fNX) ∧
    recompress 0 0 (tile [[one, 0]] [[0xBF800000, 0]]) = ([[0xBF800000, 0]], [[one, 0]], 0)

/-- TMV, TMVT, TRDROW and TWRROW (R192, R194). Of a dense tile that is not SX, element i of the product is the free sum,
or for integers the exact sum, of row or column i against va. A row read is the row, zero beyond the last; a row written
is va's, and nothing beyond the last. -/
def Obligations.TileRowsAndProducts : Prop :=
  ∀ (s : State) (td : TReg) (w : BitVec 32), s.cc.ven = true → (s.getT td).cfg = some w →
    (∀ vd : VReg, vd.toNat < 48 → (s.cc.loopAct = true → s.cc.loopI = true → ¬ 40 ≤ vd.toNat) →
      (∀ (va : VReg) (trans : Bool), cfgFactored w = false → isSx (cfgTag w) = false → (s.getV va).tag = cfgTag w →
        let m := if trans then cfgCols w else cfgRows w
        let n := if trans then cfgRows w else cfgCols w
        let int := isInt (cfgTag w) || cfgTag w == tI4
        let ps (i : Nat) : List (Val × Flags) := (List.range n).map fun k =>
          let (r, c) := if trans then (k, i) else (i, k)
          scaledProduct (decodeElem (cfgTag w) (s.tileSlot td r c)) ((s.getT td).scaleAt r c)
            (valOf (s.getV va).data (cfgTag w) k) 127
        ∃ t, exec (if trans then .tmvt td va vd else .tmv td va vd) s = .next t ∧ Retires s t (s.cc.pc + 4) ∧
          FrameV s t vd ∧ (t.getV vd).tag = (if int then tI32 else tFP32) ∧ t.cc.vstart = s.cc.vstart ∧
          (∀ i, i < m → slotOf (t.getV vd).data tFP32 i =
            (if int then denseAcc s.cc tI32 0 0 (ps i) else sumFree (subDraw s.draw.1 i) s.cc.accsat s.cc.rm 0 (ps i)).1
              % 2 ^ 32) ∧
          ∀ i, m ≤ i → i < 256 → slotOf (t.getV vd).data tFP32 i = 0) ∧
      (∀ xb : XReg, ∃ t, exec (.trdrow td vd xb) s = .next t ∧ Retires s t (s.cc.pc + 4) ∧ FrameV s t vd ∧
        (cfgRows w ≤ (s.getX xb).toNat → t.getV vd = ⟨0, 0, cfgTag w⟩) ∧
        ((s.getX xb).toNat < cfgRows w → cfgFactored w = false → t.getV vd = (s.getT td).row (s.getX xb).toNat) ∧
        ((s.getX xb).toNat < cfgRows w → cfgFactored w = true → (t.getV vd).tag = tFP32 ∧
          ∀ k, k < cfgCols w → slotOf (t.getV vd).data tFP32 k =
            ((s.getT td).entry s.cc.rm (s.getX xb).toNat k).1 % 2 ^ 32))) ∧
    (∀ (vd va : VReg) (trans : Bool), vd.toNat < 48 → (s.cc.loopAct = true → s.cc.loopI = true → ¬ 40 ≤ vd.toNat) →
      cfgFactored w = true → isFlt (s.getV va).tag = true →
      let m := if trans then cfgCols w else cfgRows w
      let n := if trans then cfgRows w else cfgCols w
      let us := if trans then (s.getT td).vs else (s.getT td).us
      let vs := if trans then (s.getT td).us else (s.getT td).vs
      let inner (j : Nat) : Nat := (sumFreeTerms (subDraw s.draw.1 j) s.cc.accsat s.cc.rm ((List.range n).map fun k =>
        mulExact (factorVal (vs[j]?.getD []) k) (valOf (s.getV va).data (s.getV va).tag k))).1
      us.length = vs.length → ∃ t, exec (if trans then .tmvt td va vd else .tmv td va vd) s = .next t ∧
        Retires s t (s.cc.pc + 4) ∧ FrameV s t vd ∧ (t.getV vd).tag = tFP32 ∧
        ∀ i, i < m → slotOf (t.getV vd).data tFP32 i =
          (sumFree (subDraw s.draw.1 (vs.length + i)) s.cc.accsat s.cc.rm 0 ((List.range us.length).map fun j =>
            mulExact (factorVal (us[j]?.getD []) i) (fmtFP32.decode (inner j)))).1 % 2 ^ 32) ∧
    (∀ (va : VReg) (xb : XReg), (s.cc.loopAct = true → s.cc.loopI = false) → cfgFactored w = false →
      (s.getV va).tag = cfgTag w →
      (cfgRows w ≤ (s.getX xb).toNat → ∃ t, exec (.twrrow td va xb) s = .next t ∧ Retires s t (s.cc.pc + 4) ∧
        FrameX s t 0) ∧
      ((s.getX xb).toNat < cfgRows w → ∃ t, exec (.twrrow td va xb) s = .next t ∧ Retires s t (s.cc.pc + 4) ∧
        FrameT s t td ∧ FlagsSet s t 0 ∧ (t.getT td).cfg = some w ∧ (t.getT td).inUse = true ∧ (t.getT td).scaled = false ∧
        (∀ i, i ≠ (s.getX xb).toNat → (t.getT td).row i = (s.getT td).row i) ∧
        (∀ k, k < cfgCols w → slotOf ((t.getT td).row (s.getX xb).toNat).data (cfgTag w) k =
          fillSlot (cfgTag w) (bitsOf (s.getV va).data (cfgTag w) k)) ∧
        ∀ b, isSx (cfgTag w) = true → 16 * b + 15 < cfgCols w →
          fieldAt ((t.getT td).row (s.getX xb).toNat).side.toNat 16 b = fieldAt (s.getV va).side.toNat 16 b))

/-- TMMA (R195 to R197) of A in plain memory, with its tag neither SX nor of 4 bits and without scale, and a fixed row
count: the shape record at a multiple of 32 gives the base, the strides and the count; a count above the bound counts as
the bound, as the model reads R195 (log 24). When the matrix unit is free, step TSTEP adds row m of A against every
column of ts into row m of td: the FP32 sum in the form of the instruction, or the exact integer sum with an
accumulator's rounding. No other row, tile, register or byte changes; the last step retires it with TSTEP 0, and an
earlier one leaves the next to TILE_MACRO_STEP. On a YL8-C the rows to come are looked at first: with all of them served
it runs as on a YL8, and an absent unit stops it with no effect (R32). TMMA, TSAVE and TLOAD are of the vector stream:
behind a VFENCE whose accesses are not performed they wait (R231). TSAVE (R197, R198): at a multiple of 64, when the
matrix unit is free, step TSTEP writes its 2,048 bytes of the tile's image, or what is left of them, and no other byte;
the last step retires it. With T full it waits, with another context's step pending it waits its turn, and a misaligned
address traps. On a YL8-C the steps to come are looked at first, as for TMMA. The image: 64 bytes of zero without
configuration; else the configuration, the rank, the marks and the length of the body, then the elements row by row, or
the factors u and v, each little-endian. TLOAD (R197, R198) of an image of one step, in plain memory at a multiple of
64, by a tile not in use, when the matrix unit is free. A header of configuration 0 leaves the tile unconfigured; one
whose mark says that its tile is not in use leaves the configuration alone; else the tile takes the configuration, the
marks, the elements or factors, and the scale codes, from where the image holds them. It retires, and nothing else
changes. That a tile in use is found only after the header has been read is the model's reading of R198 (log 24). -/
def Obligations.TileMacroOperations : Prop :=
  (∀ (s : State) (td ts : TReg) (xa : XReg) (strict : Bool) (pr : Nat) (w x : BitVec 32),
    s.tilesReady → s.cc.rawm = false → s.cc.scaleMode = 0 → (s.getT td).cfg = some w → (s.getT ts).cfg = some x →
    cfgFactored w = false → cfgFactored x = false → cfgCols w = cfgCols x → cfgTag x ≠ tI32 →
    let a := s.cc.mtag
    let size := memBits a / 8
    isVal a = true → isSub a = false → a = cfgTag x ∨ (a = tE4M3 ∨ a = tE5M2) ∧ (cfgTag x = tE4M3 ∨ cfgTag x = tE5M2) →
    cfgTag w = (if (cfgTag x).toNat = 1 then tI32 else tFP32) →
    (s.getX xa).toNat % 32 = 0 → s.plainAt .load (s.getX xa) 32 = some pr →
    let bound := s.peek (pr + 26) 2
    let n := min (s.peek (pr + 24) 2) bound
    let rs : Int := (BitVec.ofNat 32 (s.peek (pr + 8) 4)).toInt
    let es : Int := (BitVec.ofNat 32 (s.peek (pr + 12) 4)).toInt
    let m := s.cc.tstep.toNat
    s.peek (pr + 16) 8 = 0 → bound ≤ cfgRows w → 0 < bound → s.peek (pr + 28) 2 ≤ 1 → s.peek (pr + 30) 2 = 0 →
    es % size = 0 → m < n → s.cc.full .t = false → s.cc.vfence = false →
    let i : Instr := if strict then .tmmaS td xa ts else .tmmaF td xa ts
    let rest := (s.macroParts [] (.tmma strict td ts (.ofNat 64 (s.peek pr 8)) (.ofInt 32 rs) (.ofInt 32 es) n) m).flatMap pageRuns
    (∀ (u : State) (t : Trap), s.variant ≠ .yl8 → s.unitsOk .load rest = .error (.trap u t) → exec i s = .next (s.raise t)) ∧
    ((s.variant = .yl8 ∨ ∀ p ∈ rest, (s.served ⟨.load, true, p.2⟩ p.1).isSome = true) →
    (∀ k, k < 4 → s.macroPending (.ofNat 10 (4 * coreOf s.cc.ctxid + k)) = false) →
    let place (k : Nat) : Option Nat :=
      s.quietAt .load (.ofNat 64 (s.peek pr 8) + .ofInt 64 (m * rs) + .ofInt 64 (posOf a es k)) size
    (∀ k, k < cfgRows x → (place k).isSome = true) →
    let ps (c : Nat) : List (Val × Flags) := (List.range (cfgRows x)).map fun k =>
      scaledProduct (decodeElem a (s.peek ((place k).getD 0) size)) 127 (valOf ((s.getT ts).row k).data (cfgTag x) c)
        ((s.getT ts).scaleAt k c)
    let el (c : Nat) : Nat × Flags := if cfgTag w = tI32 then denseAcc s.cc tI32 (s.draw.1 c) (s.tileSlot td m c) (ps c)
      else sumForm strict (subDraw s.draw.1 c) s.cc.accsat s.cc.rm (s.tileSlot td m c) (ps c)
    ∃ t, exec i s = .next t ∧ SameBytes s t ∧ t.cc.x = s.cc.x ∧
      t.cc.v = s.cc.v ∧ t.cc.m = s.cc.m ∧ (∀ k, k ≠ td → t.getT k = s.getT k) ∧ (t.getT td).cfg = some w ∧
      (t.getT td).inUse = true ∧ (∀ i, i ≠ m → (t.getT td).row i = (s.getT td).row i) ∧
      (∀ c, c < cfgCols w → slotOf ((t.getT td).row m).data (cfgTag w) c = (el c).1 % 2 ^ 32) ∧
      FlagsSet s t ((List.range (cfgCols w)).foldl (fun f c => f ||| (el c).2) 0) ∧ t.cc.tstep = 0 ∧
      (m + 1 = n → Retires s t (s.cc.pc + 4) ∧ t.cc.macroOp = none ∧ t.cc.out.t = s.cc.out.t + s.cc.sending) ∧
      (m + 1 < n → t.cc.pc = s.cc.pc ∧ t.cc.out.t = s.cc.out.t + 1 ∧
        (t.cc.macroOp.map fun p => p.2) = some (m + 1)))) ∧
  (∀ (s : State) (td ts : TReg) (xa : XReg), s.tilesReady → (s.getX xa).toNat % 64 = 0 → s.cc.vfence = true →
    s.cc.loads ≠ 0 ∨ (∃ w ∈ s.cc.stores, w.vec = true) →
    ∀ i ∈ [Instr.tmmaS td xa ts, .tmmaF td xa ts, .tsave td xa, .tload td xa], exec i s = .next s.freshReads) ∧
  ((∀ (s : State) (td : TReg) (xa : XReg), s.cc.ven = true →
    let i : Instr := .tsave td xa
    let T := s.getT td
    let m := s.cc.tstep.toNat
    let total := (T.imageBytes + 2047) / 2048
    let chunk := (T.image.drop (2048 * m)).take 2048
    let alone : Prop := ∀ k, k < 4 → s.macroPending (.ofNat 10 (4 * coreOf s.cc.ctxid + k)) = false
    ((s.getX xa).toNat % 64 ≠ 0 → exec i s = .next (s.raise { cause := 0x04, tval := s.getX xa })) ∧
    ((s.getX xa).toNat % 64 = 0 → s.cc.full .t = true → s.cc.vfence = false → exec i s = .next s.freshReads) ∧
    ((s.getX xa).toNat % 64 = 0 → s.cc.full .t = false → s.cc.vfence = false → m < total →
      let rest := (s.macroParts [] (.tsave td (s.getX xa)) m).flatMap pageRuns
      (∀ (u : State) (t : Trap), s.variant ≠ .yl8 → s.unitsOk .store rest = .error (.trap u t) → exec i s = .next (s.raise t)) ∧
      ((s.variant = .yl8 ∨ ∀ p ∈ rest, (s.served ⟨.store, true, p.2⟩ p.1).isSome = true) →
      ∀ pa, s.plainAt .store (s.getX xa + .ofNat 64 (2048 * m)) chunk.length = some pa →
      (alone → ∃ t, exec i s = .next t ∧ t.cc.x = s.cc.x ∧ t.cc.v = s.cc.v ∧ t.cc.m = s.cc.m ∧ t.cc.t = s.cc.t ∧
        t.cc.fcsr = s.cc.fcsr ∧ t.cc.tstep = 0 ∧ t.bytes pa chunk.length = chunk ∧
        (∀ p, (p < pa ∨ pa + chunk.length ≤ p) → Memory.read t.mem p = Memory.read s.mem p) ∧
        (m + 1 = total → Retires s t (s.cc.pc + 4) ∧ t.cc.macroOp = none ∧ t.cc.out.t = s.cc.out.t + s.cc.sending) ∧
        (m + 1 < total → t.cc.pc = s.cc.pc ∧ t.cc.macroOp = some (.tsave td (s.getX xa), m + 1) ∧
          t.cc.out.t = s.cc.out.t + 1)) ∧
      (¬ alone → ∃ t, exec i s = .next t ∧ t.mem = s.mem ∧ t.cc.pc = s.cc.pc ∧
        t.cc.macroOp = some (.tsave td (s.getX xa), m) ∧ t.cc.tstep = 0 ∧ t.cc.out.t = s.cc.out.t + 1)))) ∧
  ∀ T : Tile, (T.cfg = none → T.image = List.replicate 64 0) ∧
    ∀ w, T.cfg = some w → let at_ (off n : Nat) : List Byte := (T.image.drop off).take n
      at_ 0 4 = leBytes 4 w.toNat ∧ at_ 4 1 = leBytes 1 T.us.length ∧
      at_ 5 1 = [(if T.inUse then 1 else 0) + (if T.scaled then 2 else 0)] ∧ at_ 8 4 = leBytes 4 (bodyBytes w) ∧
      (∀ r c, cfgFactored w = false → isSx (cfgTag w) = false → isSub (cfgTag w) = false → r < cfgRows w → c < cfgCols w →
        let n := tagWidth (cfgTag w) / 8
        at_ (64 + (r * cfgCols w + c) * n) n = leBytes n (slotOf (T.row r).data (cfgTag w) c)) ∧
      (∀ j k, cfgFactored w = true → j < cfgMaxRank w →
        (k < cfgRows w → at_ (64 + (j * cfgRows w + k) * 4) 4 = leBytes 4 (factorBits (T.us[j]?.getD []) k).toNat) ∧
        (k < cfgCols w → at_ (64 + (cfgMaxRank w * cfgRows w + j * cfgCols w + k) * 4) 4 =
          leBytes 4 (factorBits (T.vs[j]?.getD []) k).toNat))) ∧
  (∀ (s : State) (td : TReg) (xa : XReg) (pa : Nat), s.tilesReady → (s.getX xa).toNat % 64 = 0 → s.cc.full .t = false →
    s.cc.vfence = false → (∀ k, k < 4 → s.macroPending (.ofNat 10 (4 * coreOf s.cc.ctxid + k)) = false) →
    (s.getT td).inUse = false → (s.getT td).cfg = none ∨ s.cc.tstep = 0 →
    s.plainAt .load (s.getX xa) 64 = some pa →
    let w : BitVec 32 := .ofNat 32 (s.peek pa 4)
    let rank := s.peek (pa + 4) 1
    let marks := s.peek (pa + 5) 1
    let scaled : Bool := decide (2 ≤ marks)
    marks ≤ 3 → s.peek (pa + 6) 2 = 0 → (∀ j, 12 ≤ j → j < 64 → Memory.read s.mem (pa + j) = 0) →
    let done (t : State) : Prop := Retires s t (s.cc.pc + 4) ∧ SameBytes s t ∧ t.cc.x = s.cc.x ∧ t.cc.v = s.cc.v ∧
      t.cc.m = s.cc.m ∧ t.cc.fcsr = s.cc.fcsr ∧ (∀ k, k ≠ td → t.getT k = s.getT k) ∧ t.cc.tstep = 0 ∧
      t.cc.macroOp = none ∧ t.cc.out.t = s.cc.out.t + s.cc.sending
    (w = 0 → ∃ t, exec (.tload td xa) s = .next t ∧ done t ∧ t.getT td = {}) ∧
    (cfgOk (w.setWidth 64) = true → s.peek (pa + 8) 4 = bodyBytes w →
      (if cfgFactored w then rank ≤ cfgMaxRank w else rank = 0) → s.cc.othersOccupy td + occupancy w ≤ 131072 →
      (marks % 2 = 0 → ∃ t, exec (.tload td xa) s = .next t ∧ done t ∧ t.getT td = { cfg := some w, scaled := scaled }) ∧
      (marks % 2 = 1 →
        let n := bodyBytes w - (if cfgFactored w = false ∧ scaleTag (cfgTag w) = true ∧ scaled = false then scaleCount w else 0)
        ∀ pb, 64 + n ≤ 2048 → s.plainAt .load (s.getX xa + 64) n = some pb →
          ∃ t, exec (.tload td xa) s = .next t ∧ done t ∧
            let T := t.getT td
            T.cfg = some w ∧ T.inUse = true ∧ T.scaled = scaled ∧ T.us.length = rank ∧ T.vs.length = rank ∧
            (∀ r c, cfgFactored w = false → isSx (cfgTag w) = false → isSub (cfgTag w) = false → r < cfgRows w →
              c < cfgCols w → let k := tagWidth (cfgTag w) / 8
              slotOf (T.row r).data (cfgTag w) c = s.peek (pb + (r * cfgCols w + c) * k) k) ∧
            (∀ j k, cfgFactored w = true → j < rank →
              (k < cfgRows w → (factorBits (T.us[j]?.getD []) k).toNat = s.peek (pb + (j * cfgRows w + k) * 4) 4) ∧
              (k < cfgCols w → (factorBits (T.vs[j]?.getD []) k).toNat =
                s.peek (pb + (cfgMaxRank w * cfgRows w + j * cfgCols w + k) * 4) 4)) ∧
            (∀ k, cfgFactored w = false → scaleTag (cfgTag w) = true → scaled = true → k < scaleCount w →
              T.scales[k]? = some (Memory.read s.mem (pb + cfgRows w * rowBytes (cfgTag w) (cfgCols w) + k))))))

/-! ### Atomics, fences and barriers -/

/-- Scalar atomics (R228 to R230): at a naturally aligned address, with no request before it at its engine, the old
value goes to xd, sign-extended from 32 bits, and the function's result to memory, as one step; a release waits for the
context's own loads and stores. A misaligned address traps. -/
def Obligations.ScalarAtomics : Prop :=
  ∀ (i : Instr) (s : State) (d a b : XReg) (z rl : BitVec 1) (sc : BitVec 3), atomForm i = some (d, a, b, z, rl, sc) →
    let n := if z = 0 then 4 else 8
    ((s.getX a).toNat % n ≠ 0 → exec i s = .next (s.raise { cause := 0x04, tval := s.getX a })) ∧
    ∀ (u : State) (x : Xlat), (s.getX a).toNat % n = 0 → s.translate ⟨.atomic, false, n⟩ (s.getX a) = .ok (u, x) →
      u.poisoned x.pa n = false → (x.ce = true → u.reservedBlock x.pa n = false) → u.plainIn x.ce x.pa n →
      (rl = 1 → u.cc.stores ≠ [] ∨ u.cc.loads ≠ 0 → exec i s = .next u.freshReads) ∧
      ((rl = 1 → u.cc.stores = [] ∧ u.cc.loads = 0) → (u.clusterAt (engineOf s.cc.ctxid sc x.pa)).requests = [] →
      let old := u.peek x.pa n
      let r := atomResult i (8 * n) s.cc.rm old ((s.getX b).toNat % 2 ^ (8 * n)) ((s.getX d).toNat % 2 ^ (8 * n))
      ∃ t, exec i s = .next t ∧ Retires u t (u.cc.pc + 4) ∧ FlagsSet u t r.2 ∧
        (t.getX d = if d = 0 then 0 else if z = 1 ∨ atomFloat i = true then .ofNat 64 old else .ofInt 64 (intOf true 32 old)) ∧
        (∀ k, k ≠ d → t.getX k = u.getX k) ∧ t.cc.v = u.cc.v ∧ t.cc.m = u.cc.m ∧ t.cc.t = u.cc.t ∧
        t.bytes x.pa n = leBytes n r.1 ∧
        ∀ p, (p < x.pa ∨ x.pa + n ≤ p) → Memory.read t.mem p = Memory.read u.mem p)

/-- FENCE, VFENCE and VAMOADDF (R222, R226, R231, R334). A fence changes nothing but its die's vector clock, at die
scope or wider: FENCE once the context's own loads and stores are performed, until which it waits; VFENCE at once, and
the vector stream's next memory access waits in its stead. VAMOADDF, with its active elements at multiples of 4 in plain
memory, sends each to its engine in ascending order, is counted in S and retires; no byte changes before the engines
add. VFENCE.BAR, BARCFG and RING (R231, R232, R234, R235): an arrival adds one to the slot, or completes its phase with
the last; xd takes the phase before. BARCFG sets the participants of a slot with no arrival, and answers 1 or 2. RING
offers a cause to a context of the own region and cluster, and answers 0, or 1 where one is pending, or 2. An arrival
and a ring wait until the context's own loads and stores are performed. With xd = x0 all is as with another xd, and x0
stays zero. That BARCFG answers 1 before it looks at the count, and that a participant gone after its arrival leaves at
the next phase, are the model's readings (log 30). -/
def Obligations.FencesAndBarriers : Prop :=
  (∀ (s : State) (sc : BitVec 3),
    let fenced (t : State) : Prop := Retires s t (s.cc.pc + 4) ∧ t.mem = s.mem ∧ t.cc.x = s.cc.x ∧ t.cc.v = s.cc.v ∧
      t.cc.m = s.cc.m ∧ t.cc.stores = s.cc.stores ∧ t.cc.loads = s.cc.loads ∧
      (sc.toNat < 3 → ∀ d, t.dieAt d = s.dieAt d) ∧ (3 ≤ sc.toNat → ClockAdvanced s t)
    (s.cc.stores ≠ [] ∨ s.cc.loads ≠ 0 → exec (.fence sc) s = .next s.freshReads) ∧
    (s.cc.stores = [] → s.cc.loads = 0 → ∃ t, exec (.fence sc) s = .next t ∧ fenced t ∧ t.cc.vfence = s.cc.vfence) ∧
    (s.cc.ven = true → ∃ t, exec (.vfence sc) s = .next t ∧ fenced t ∧ t.cc.vfence = true) ∧
    (∀ (v k : VReg) (xa : XReg), s.cc.ven = true → s.cc.cut = none → s.cc.full .s = false → s.cc.vfence = false →
      (s.getV v).tag = tFP32 → isInt (s.getV k).tag = true → s.vlN ≤ 256 → s.vlN ≤ vlmax (s.getV k).tag →
      let va (i : Nat) : Word := s.getX xa + .ofInt 64 (intAt (s.getV k).data (s.getV k).tag i)
      let pa (i : Nat) : Nat := (s.plainAt .atomic (va i) 4).getD 0
      (∀ i, i < s.vlN → s.activeAt i = true →
        (s.plainAt .atomic (va i) 4).isSome = true ∧ (va i).toNat % 4 = 0 ∧ s.poisoned (pa i) 4 = false) →
      ∃ t, exec (.vamoaddf v xa k sc) s = .next t ∧ Retires s t (s.cc.pc + 4) ∧ t.mem = s.mem ∧ t.cc.x = s.cc.x ∧
        t.cc.v = s.cc.v ∧ t.cc.m = s.cc.m ∧ t.cc.vstart = 0 ∧ t.cc.out.s = s.cc.out.s + 1 ∧
        ∀ cl, (t.clusterAt cl).requests = (s.clusterAt cl).requests ++
          ((List.range s.vlN).filter fun i => s.activeAt i && engineOf s.cc.ctxid sc (pa i) == cl).map fun i =>
            { cc := s.cc.ctxid, fn := 1, size := 0, addr := pa i, b := .ofNat 64 (slotOf (s.getV v).data tFP32 i), c := 0
              rm := s.cc.rm })) ∧
  (∀ (s : State) (d a b : XReg),
    (s.cc.stores ≠ [] ∨ s.cc.loads ≠ 0 → exec (.ring d a b) s = .next s.freshReads ∧
      ∀ p, s.cc.ven = true → slotIndex s (s.getX a) = .ok p → (s.slotAt p).expected ≠ 0 →
        exec (.vfenceBar d a) s = .next s.freshReads) ∧
    (∀ p, s.cc.ven = true → slotIndex s (s.getX a) = .ok p → (s.slotAt p).expected ≠ 0 → s.cc.stores = [] → s.cc.loads = 0 →
      ∃ t, exec (.vfenceBar d a) s = .next t ∧ Retires s t (s.cc.pc + 4) ∧ t.mem = s.mem ∧
        t.getX d = (if d = 0 then 0 else (s.slotAt p).phase.setWidth 64) ∧ (∀ k, k ≠ d → t.getX k = s.getX k) ∧
        (∀ q, q ≠ p → t.slotAt q = s.slotAt q) ∧ (t.slotAt p).expected + (if (t.slotAt p).phase = (s.slotAt p).phase
          then 0 else (s.slotAt p).owed) = (s.slotAt p).expected ∧
        ((s.slotAt p).arrivals + 1 = (s.slotAt p).expected →
          (t.slotAt p).phase = (s.slotAt p).phase + 1 ∧ (t.slotAt p).arrivals = 0) ∧
        ((s.slotAt p).arrivals + 1 ≠ (s.slotAt p).expected →
          (t.slotAt p).phase = (s.slotAt p).phase ∧ (t.slotAt p).arrivals = (s.slotAt p).arrivals + 1)) ∧
    (∀ p, slotIndex s (s.getX a) = .ok p → ∃ t, exec (.barcfg d a b) s = .next t ∧ Retires s t (s.cc.pc + 4) ∧ t.mem = s.mem ∧
      (∀ k, k ≠ d → t.getX k = s.getX k) ∧
      t.getX d = (if d = 0 then 0 else if (s.slotAt p).arrivals ≠ 0 then 1 else if (s.getX b).setWidth 16 = (0 : BitVec 16) then 2 else 0) ∧
      t.slotAt p = if (s.slotAt p).arrivals = 0 ∧ (s.getX b).setWidth 16 ≠ (0 : BitVec 16) then
        { s.slotAt p with expected := (s.getX b).setWidth 16 } else s.slotAt p) ∧
    (s.cc.stores = [] → s.cc.loads = 0 → let id : BitVec 10 := (s.getX a).setWidth 10
      (1024 ≤ (s.getX a).toNat ∨ s.ringable id = false → exec (.ring d a b) s = .next (s.setX d 2).retire) ∧
      ((s.getX a).toNat < 1024 → s.ringable id = true → (s.ccAt id).ring.isSome = true →
        exec (.ring d a b) s = .next (s.setX d 1).retire) ∧
      ((s.getX a).toNat < 1024 → s.ringable id = true → (s.ccAt id).ring = none →
        exec (.ring d a b) s = .next ((s.offerRing id ((s.getX b).setWidth 16)).setX d 0).retire)))

/-! ### Capacity memory -/

/-- CMST, CMSTX and CMZERO (R243, R270, R271, R273), where the TLB serves their addresses: the store stands last among
the CM stores, with the bytes that it will write by row and offset, is counted in S and retires; no byte of memory
changes before it is performed. CMST writes a run of columns of one row, with the tail of the row where it ends there;
CMSTX its active elements; CMZERO rows of zero elements. With S full they wait. The oldest store of a control core,
performed, has written its bytes under the key that its check found (R406), raised the append pointer, and left S. That
the tail of a row is written as zero, and that CMZERO of no row makes its checks and writes nothing, is how the model
reads the rules (log 26). -/
def Obligations.CapacityStores : Prop :=
  ∀ (s : State) (xa xn : XReg) (vr vi : VReg), s.cc.ven = true →
    (s.cc.full .s = true → exec (.cmst vr xa) s = .next s.freshReads ∧ exec (.cmstx vr xa vi) s = .next s.freshReads ∧
      exec (.cmzero xn xa) s = .next s.freshReads) ∧
    (s.cc.full .s = false → s.cc.vfence = false →
      let v := s.getV vr
      (∀ (h row o c0 : Nat) (r : CmRegion), isVal v.tag || isSx v.tag → s.vlN ≤ vlmax v.tag →
        s.cmAt (s.getX xa) = some (h, r, row, o) → pairOk r.tag v.tag = true → r.colAt o = some c0 →
        r.lenOk c0 s.vlN = true → (∀ k, k < s.vlN → v.tag ≠ r.tag → (elemVal v v.tag k).isSome = true) →
        let bs := (s.cmRun r v).1
        let odd : Bool := isSub r.tag && s.vlN % 2 == 1
        let tail := if c0 + s.vlN = r.cols then r.rb - r.used else 0
        (s.getX xa).toNat % 65536 + (bs.length + tail) ≤ 65536 →
        ∃ t, exec (.cmst vr xa) s = .next t ∧ CmPushed s t (s.cmRun r v).2 (if s.vlN = 0 then [] else
          [{ handle := h, rows := [row]
             cells := rowCells row o (if odd then bs.dropLast else bs) ++ rowCells row r.used (List.replicate tail 0)
             low := if odd then bs.getLast?.map fun b => (row, o + bs.length - 1, b) else none }])) ∧
      (∀ tgt : Nat → Nat × CmRegion × Nat × Nat, isVal v.tag || isSx v.tag → isInt (s.getV vi).tag = true →
        s.vlN ≤ vlmax v.tag → s.vlN ≤ vlmax (s.getV vi).tag → s.cc.cut = none →
        (∀ i, i < s.vlN → s.activeAt i = true →
          s.cmAt (s.getX xa + .ofInt 64 (intAt (s.getV vi).data (s.getV vi).tag i)) = some (tgt i) ∧
          let r := (tgt i).2.1
          let o := (tgt i).2.2.2
          pairOk r.tag v.tag = true ∧ r.scale = 0 ∧ isSx r.tag = false ∧ isSub r.tag = false ∧ o < r.eb ∧
          8 * o % memBits r.tag = 0 ∧ (v.tag ≠ r.tag → (elemVal v v.tag i).isSome = true)) →
        let is := (List.range s.vlN).filter s.activeAt
        let el (i : Nat) : Nat × Flags := s.cmElemAt v (tgt i).2.1.tag i
        ∃ t, exec (.cmstx vr xa vi) s = .next t ∧ CmPushed s t (is.foldl (fun f i => f ||| (el i).2) 0) (is.map fun i =>
          { handle := (tgt i).1, rows := [(tgt i).2.2.1]
            cells := rowCells (tgt i).2.2.1 (tgt i).2.2.2 (leBytes (memBits (tgt i).2.1.tag / 8) (el i).1) })) ∧
      (∀ (h row : Nat) (r : CmRegion), s.cmAt (s.getX xa) = some (h, r, row, 0) → row + (s.getX xn).toNat ≤ r.rows →
        let rows := (List.range (s.getX xn).toNat).map (row + ·)
        ∃ t, exec (.cmzero xn xa) s = .next t ∧ CmPushed s t 0 (if (s.getX xn).toNat = 0 then [] else
          [{ handle := h, rows := rows, cells := rows.flatMap fun i => rowCells i 0 r.zeroRow }]))) ∧
    (∀ (w : CmStore) (rest : List CmStore) (p : CmPart) (r : CmRegion) (k : BitVec 512), s.cmStores = w :: rest → w.cc = s.cc.ctxid →
      w.orphan = false → s.cmReady w = true → w.parts = [p] → p.low = none → lookupT s.cmTable p.handle = some r →
      r.granule = 0 → p.key = some k → (p.cells.map fun c => r.rowPa c.1 + c.2.1).Nodup →
      ∃ t, exec (.cmStorePerformed w.cc) s = .next t ∧ t.cmStores = rest ∧ t.cc = s.cc.decOut .s ∧
        lookupT t.cmTable p.handle = some { r with append := p.rows.foldl (fun a i => max a (i + 1)) r.append } ∧
        t.trust = s.trust ∧ (∀ c ∈ p.cells, t.bytesUnder (some k) (r.rowPa c.1 + c.2.1) 1 = [c.2.2]) ∧
        ∀ a, (∀ c ∈ p.cells, (r.rowPa c.1 + c.2.1) / 32 ≠ a / 32) → Memory.read t.mem a = Memory.read s.mem a)

/-- Queries (R245, R253 to R256, R265 to R267). A checked query beyond the reply bound is refused with status 1, one
whose reply does not fit with status 2, both with token 0; an accepted one answers its token, is counted in Q, has
status 0xFFFF in its QD, and completes once, QD and reply written. With a descriptor in plain memory, fields that fit
and a reply area in the scratchpad the query is accepted, whatever else holds. With Q full it waits, and a QCUST while
the firmware is loaded too. That the reply is formed when the query is accepted is the model's choice (log 27), and so
is what it does with a query that its unit cannot start at once (log 52). What a query answers (R247, R253, R257, R259
to R264): a reply has the length that R253 gives its kind. Without a filter and without poison: QCOUNT the number of
rows; QDOT the sum of products of each row, QWIN those sums ranked; QFSUM and QWSUM in the strict form the sums of each
stack's rows, added in the order of the stacks; QMAX and QMIN the best value of a column and the lowest row that holds
it, or the marks of none; QBSCORE the bound of each block, rounded up. The filler of a QWIN with too few candidates, and
which partial a stripe of a moving region joins, are the model's choices (log 27). -/
def Obligations.Queries : Prop :=
  ((∀ (i : Instr) (s : State) (k : QKind) (xd xdesc xr : XReg) (vq : VReg),
    queryForm i = some (k, xd, xdesc, vq, xr) → s.cc.ven = true →
    (s.cc.full .q = true → exec i s = .next s.freshReads) ∧
    (s.cc.full .q = false → s.cc.vfence = false →
      (∀ (s0 : State) (qd : Xlat) (bs : List Byte) (y0 : Ready), s.queryChecks k xdesc vq xr = .ok (s0, qd, bs, y0) →
        let s1 := s0.cmDrain s.cc.ctxid
        let y := y0.settled s1
        ((∃ w ∈ s1.cmStores, w.cc = s.cc.ctxid ∧ w.orphan = false) → exec i s = .next s0.freshReads) ∧
        ((∀ w ∈ s1.cmStores, w.cc = s.cc.ctxid → w.orphan = true) →
          (replyBound y.touched < y.replyLen →
            exec i s = .next ((s1.rejectQuery xd qd 1).count (coreOf s.cc.ctxid) 8 1)) ∧
          (y.replyLen ≤ replyBound y.touched → y.q.cap < y.replyLen → exec i s = .next (s1.rejectQuery xd qd 2)) ∧
          (∀ (s2 : State) (area : List Nat), y.replyLen ≤ replyBound y.touched → y.replyLen ≤ y.q.cap →
            s1.replyArea (s.getX xr) y.replyLen = .ok (s2, area) →
            ∃ t q, exec i s = .next t ∧ t.cc.pc = s2.cc.pc + 4 ∧ t.queries = s2.queries ++ [q] ∧
              t.cc.out.q = s2.cc.out.q + 1 ∧
              t.getX xd = (if xd = 0 then 0 else .ofNat 64 (s.cc.nextSerial.toNat * 256 + y.q.tag.toNat)) ∧
              (∀ n, n ≠ xd → t.getX n = s2.getX n) ∧
              (s2.plainIn qd.ce qd.pa 64 → t.bytes (qd.pa + 0x3C) 2 = [0xFF, 0xFF]) ∧
              q.cc = s.cc.ctxid ∧ q.serial = s.cc.nextSerial ∧ q.handle = y.q.handle ∧ q.qd = qd.pa ∧ q.custom = none ∧
              (∀ rs, y.meetsPoison s2.draw.2 = false → y.reply s2.draw.2 s2.draw.1 = some rs →
                q.status = 0 ∧ q.reply = area.zip rs) ∧
              (y.meetsPoison s2.draw.2 = true ∨ y.reply s2.draw.2 s2.draw.1 = none → q.status = 3)))) ∧
      (∀ (qd pa : Nat) (r : CmRegion), (∀ w ∈ s.cmStores, w.cc ≠ s.cc.ctxid) → (s.getX xdesc).toNat % 64 = 0 →
        (s.getX xr).toNat % 64 = 0 → s.plainAt .load (s.getX xdesc) 64 = some qd →
        let q := Qd.ofBytes (s.bytes qd 64)
        let y := q.ready k r (s.getV vq)
        QueryFits s k q r (s.getV vq) → y.replyLen ≤ replyBound y.touched → y.replyLen ≤ q.cap →
        s.spadAt (s.getX xr) y.replyLen = some pa →
        ∃ t p, exec i s = .next t ∧ Accepted s t xd qd q k y p ∧ p.custom = none ∧
          (∀ rs, y.meetsPoison s = false → y.reply s.draw.2 s.draw.1 = some rs →
            p.status = 0 ∧ p.reply = ((List.range rs.length).map (pa + ·)).zip rs) ∧
          (y.meetsPoison s = true ∨ y.reply s.draw.2 s.draw.1 = none → p.status = 3)))) ∧
  (∀ (s : State) (xd xdesc xr : XReg) (vq : VReg), s.cc.ven = true →
    (s.variant.tiller = false → exec (.qcust xd xdesc vq xr) s = .next (s.raise { cause := 0x11 })) ∧
    (s.variant.tiller = true → s.cc.full .q = true ∨ s.tlfw.busy = true →
      exec (.qcust xd xdesc vq xr) s = .next s.freshReads) ∧
    (s.variant.tiller = true → s.cc.full .q = false → s.tlfw.busy = false → s.cc.vfence = false →
      ∀ (qd pa : Nat) (r : CmRegion), (∀ w ∈ s.cmStores, w.cc ≠ s.cc.ctxid) → (s.getX xdesc).toNat % 64 = 0 →
        (s.getX xr).toNat % 64 = 0 → s.plainAt .load (s.getX xdesc) 64 = some qd →
        let q := Qd.ofBytes (s.bytes qd 64)
        QueryFits s .cust q r (s.getV vq) → s.spadAt (s.getX xr) q.cap = some pa →
        ∃ t p c, exec (.qcust xd xdesc vq xr) s = .next t ∧ Accepted s t xd qd q .cust (q.ready .cust r (s.getV vq)) p ∧
          p.custom = some c ∧ c.qd = s.bytes qd 64 ∧ c.vq = s.getV vq ∧ c.r = r ∧
          c.area = (List.range (max 1 q.cap)).map (pa + ·) ∧ c.key = lookupT s.trust.keys r.key.toNat)) ∧
  ∀ (s : State) (cc : BitVec 10) (serial : BitVec 24) (q : Query), s.queryOf cc serial = some q → q.held = none →
    (q.custom = none → (∀ n ∈ q.sweeps, (s.chanAt n).mode = true) →
      ∃ t, exec (.queryCompletion cc serial) s = .next t ∧ t.queryOf cc serial = none ∧
        (s.plainIn q.ce (q.qd + 0x38) 6 → t.peek (q.qd + 0x3C) 2 = q.status.toNat ∧
          t.peek (q.qd + 0x38) 4 = (if q.status = 0 then q.reply.length % 2 ^ 32 else 0)) ∧
        (s.plainIn q.ce (q.qd + 0x38) 6 → q.status = 0 → (q.reply.map Prod.fst).Nodup → (∀ c ∈ q.reply, c.1 < q.qd + 0x38 ∨ q.qd + 0x3E ≤ c.1) →
          ∀ c ∈ q.reply, t.bytes c.1 1 = [c.2])) ∧
    ((∃ n ∈ q.sweeps, (s.chanAt n).mode = false) → exec (.queryCompletion cc serial) s = .next s)) ∧
  (∀ (y : Ready) (s : State) (d : Nat → Nat),
    (∀ rs, y.kind ≠ .cust → y.reply s d = some rs → rs.length = y.replyLen) ∧
    (y.kind = .count → y.q.op = 0 → y.reply s d = some (leBytes 8 y.rows.length)) ∧
    (y.kind = .count → y.q.op ≠ 0 → (∀ p ∈ y.rows, (s.cmElem y.r p.1 y.q.fcol).isSome = true) →
      y.reply s d = some (leBytes 8 (y.rows.countP fun p => y.passes ((s.cmElem y.r p.1 y.q.fcol).getD (.nan false))))) ∧
    (y.q.op = 0 → y.q.overBlocks y.kind = false →
      (∀ p ∈ y.rows, ∀ c, c < y.q.cols → (s.cmElem y.r p.1 (y.q.col + c)).isSome = true) →
      let x (i c : Nat) : Val := (s.cmElem y.r i (y.q.col + c)).getD (.nan false)
      let w (j : Nat) : Val := valOf y.vq.data y.vq.tag j
      let sub (k : Nat) : Nat → Nat := subDraws d (y.rows.length + y.q.cols) k
      let score (i : Nat) : Nat :=
        let ts := (List.range y.q.cols).map fun c => (mulExact (w c) (x i c)).1
        if y.r.flt then (sumForm y.q.strict (sub i) s.cc.accsat s.cc.rm 0 (ts.map fun v => (v, 0))).1
        else accTerms s.cc.accsat tI32 (sub i 0) 0 ts
      let strict (vs : List Val) : Nat := (sumStrict s.cc.accsat s.cc.rm 0 (vs.map fun v => (v, 0))).1
      let ofStack (k : Nat) : List (Nat × Nat) := y.rows.filter fun p => p.1 / 64 % y.r.n == k
      let none_ : Nat := if y.r.flt then 0x7FC00000 else 0x80000000
      (y.kind = .dot → y.reply s d = some (y.rows.flatMap fun p => leBytes 4 (score p.1))) ∧
      (y.kind = .win → y.reply s d = some (winReply y.r.flt (y.q.k % 128) (y.rows.map fun p => (p.1, score p.1)))) ∧
      (y.kind = .fsum → y.r.flt = true → y.q.strict = true → y.rows ≠ [] →
        y.reply s d = some ((List.range y.q.cols).flatMap fun c => leBytes 4 (strict ((List.range y.r.n).map fun k =>
          fmtFP32.decode (strict ((ofStack k).map fun p => x p.1 c)))))) ∧
      (y.kind = .wsum → y.r.flt = true → y.q.strict = true → y.rows ≠ [] →
        y.reply s d = some ((List.range y.q.cols).flatMap fun c => leBytes 4 (strict ((List.range y.r.n).map fun k =>
          fmtFP32.decode (strict ((ofStack k).map fun p => (mulExact (w p.2) (x p.1 c)).1)))))) ∧
      (y.kind = .fsum ∨ y.kind = .wsum → y.rows = [] → y.reply s d = some (List.replicate (4 * y.q.cols) 0)) ∧
      (y.kind = .max ∨ y.kind = .min → (y.rows.Pairwise fun p q => p.1 < q.1) →
        ∃ rs, y.reply s d = some rs ∧ ∀ c, c < y.q.cols →
          ((∀ p ∈ y.rows, (x p.1 c).isNan = true) → (rs.drop (8 * c)).take 8 = leBytes 4 none_ ++ leBytes 4 0xFFFFFFFF) ∧
          (∀ p ∈ y.rows, (x p.1 c).isNan = false → y.r.flt = true →
            (∀ q ∈ y.rows, (x q.1 c).isNan = false →
              (if y.kind = .max then ltTotal (x p.1 c) (x q.1 c) else ltTotal (x q.1 c) (x p.1 c)) = false ∧
              ((if y.kind = .max then ltTotal (x q.1 c) (x p.1 c) else ltTotal (x p.1 c) (x q.1 c)) = false → p.1 ≤ q.1)) →
            (rs.drop (8 * c)).take 8 = leBytes 4 (fmtFP32.round 0 (x p.1 c)).1 ++ leBytes 4 p.1))) ∧
    (∀ (fp : Bool) (k : Nat) (xs : List (Nat × Nat)), (xs.map Prod.fst).Nodup →
      ∃ top : List (Nat × Nat), top.length = min k xs.length ∧ (∀ a ∈ top, a ∈ xs) ∧
        (top.Pairwise fun a b => ranksAbove fp a.2 a.1 b.2 b.1 = true) ∧
        (∀ z ∈ xs, z ∉ top → ∀ a ∈ top, ranksAbove fp a.2 a.1 z.2 z.1 = true) ∧
        winReply fp k xs = (top ++ List.replicate (k - xs.length) (0xFFFFFFFF, if fp then 0xFF800000 else 0x80000000)).flatMap
          fun (p : Nat × Nat) => leBytes 4 p.2 ++ leBytes 4 p.1) ∧
    (y.kind = .bscore →
      (∀ b ∈ y.blocks, ∀ c, c < y.q.cols → (s.cmBound y.r b (y.q.col + c) false).isSome = true ∧
        (s.cmBound y.r b (y.q.col + c) true).isSome = true) →
      let bound (b c : Nat) (high : Bool) : Val := (s.cmBound y.r b (y.q.col + c) high).getD (.nan false)
      let term (b c : Nat) : Val :=
        let q := valOf y.vq.data y.vq.tag c
        if q.isZero then .fin false 0 0
        else if (bound b c false).isNan || (bound b c true).isNan then .nan false
        else bestTerm q (bound b c false) (bound b c true)
      y.reply s d = some (y.blocks.flatMap fun b => leBytes 4 (if y.r.append ≤ b * y.r.g then 0xFF800000
        else (fmtFP32.round 3 (sumExact 3 ((List.range y.q.cols).map (term b))).1).1))))

/-- Regions of capacity memory (R239, R240, R251, R274, R275). An install that passes its checks fills the entry of its
handle; a remove empties it once nothing holds it; a read back writes the descriptor. CMMOV, CMSEAL and CMOPEN answer
their codes, or 0 with the operation started and counted in S: a move has its new place noted in the entry, a seal and
an open have their completion word pending in the image; a trap of a seal's image, as an absent unit's (R32), is taken
with no effect. Which of several failing checks is reported, a bad ADDR and those of CMMOV and CMOPEN, is how the model
reads the rules (log 28). The ends of region operations (R251, R274, R275, R293). A move goes stripe by stripe: the rows
of the next stripe stand at the new place with their bytes, and with the last stripe the entry takes it; a stripe of
which a packet was poisoned is sent again. A seal writes its image, with a nonce that no seal has had, or ends with
status 3; an open installs the region when the image authenticates, or ends with status 9. The completion word is
written last, and the operation leaves S. The key of images and the nonces are free values, and a seal without its key
ends with 3: the model's choices (logs 8 and 28). -/
def Obligations.CapacityRegions : Prop :=
  (∀ (s : State) (h : BitVec 12),
    (∀ bs, bs = s.bytes s.cmRegs.at_ 64 → s.cmAddrOk = true →
      (s.installStatus h.toNat bs = 0 → ∃ t, exec (.cmInstall h) s = .next t ∧
        lookupT t.cmTable h.toNat = some (CmRegion.ofBytes bs) ∧ t.cmRegs.busy = false ∧ t.cmRegs.status = 0) ∧
      (s.installStatus h.toNat bs ≠ 0 → ∃ t, exec (.cmInstall h) s = .next t ∧ t.cmTable = s.cmTable ∧
        t.cmRegs.busy = false ∧ t.cmRegs.status = s.installStatus h.toNat bs)) ∧
    (s.cmAddrOk = false → ∃ t, exec (.cmInstall h) s = .next t ∧ t.cmTable = s.cmTable ∧ t.cmRegs.status = 2) ∧
    (∀ r, lookupT s.cmTable h.toNat = some r →
      exec (.cmRemove h) s = .next { s with cmRegs := { s.cmRegs with removing := some h.toNat } } ∧
      (s.cmAddrOk = true → ∃ t, exec (.cmReadBack h) s = .next t ∧ t.bytes s.cmRegs.at_ 64 = r.bytes ∧
        t.cmRegs.busy = false ∧ t.cmRegs.status = 0)) ∧
    (lookupT s.cmTable h.toNat = none → (∃ t, exec (.cmRemove h) s = .next t ∧ t.cmTable = s.cmTable ∧ t.cmRegs.status = 1) ∧
      ∃ t, exec (.cmReadBack h) s = .next t ∧ t.mem = s.mem ∧ t.cmRegs.status = 1) ∧
    (∀ n, s.cmRegs.removing = some n → s.cmIdle n = true → ∃ t, exec .cmRemoveDone s = .next t ∧
      lookupT t.cmTable n = none ∧ t.cmRegs.busy = false ∧ t.cmRegs.removing = none) ∧
    (∀ (xd xa xb : XReg), s.cc.level ≠ .user →
      (s.cc.full .s = true → exec (.cmmov xd xa xb) s = .next s.freshReads ∧ exec (.cmseal xd xa xb) s = .next s.freshReads ∧
        exec (.cmopen xd xa xb) s = .next s.freshReads) ∧
      (s.cc.full .s = false → h.toNat = (s.getX xa).toNat % 4096 →
        (s.moveStatus h.toNat ≠ 0 →
          exec (.cmmov xd xa xb) s = .next (s.setX xd ((s.moveStatus h.toNat).setWidth 64)).retire ∧
          exec (.cmseal xd xa xb) s = .next (s.setX xd ((s.moveStatus h.toNat).setWidth 64)).retire) ∧
        (∀ r, s.cmEntry h.toNat = some r → s.moveStatus h.toNat = 0 →
          (s.getX xb &&& 0xFFFF00000000FF00 ≠ 0 → exec (.cmmov xd xa xb) s = .next (s.setX xd 2).retire) ∧
          (s.getX xb &&& 0xFFFF00000000FF00 = 0 →
            let q := r.placed (((s.getX xb).extractLsb' 16 32).toNat * 65536) ((s.getX xb).setWidth 8)
            (s.placeStatus q ≠ 0 → exec (.cmmov xd xa xb) s = .next (s.setX xd ((s.placeStatus q).setWidth 64)).retire) ∧
            (s.placeStatus q = 0 → ∃ t, exec (.cmmov xd xa xb) s = .next t ∧ Retires s t (s.cc.pc + 4) ∧ t.getX xd = 0 ∧
              (∀ n, n ≠ xd → t.getX n = s.getX n) ∧ t.mem = s.mem ∧ t.cc.out.s = s.cc.out.s + 1 ∧
              (∃ o, lookupT t.cmOps h.toNat = some o ∧ o.cc = s.cc.ctxid ∧ o.live = true ∧ o.kind = .move false) ∧
              lookupT t.cmTable h.toNat = some { r with next := some (q.base, q.mask, 0) })) ∧
          ((s.getX xb).toNat % 128 ≠ 0 → exec (.cmseal xd xa xb) s = .next (s.setX xd 8).retire) ∧
          (∀ (u : State) (t : Trap), (s.getX xb).toNat % 128 = 0 →
            s.imagePieces .store (s.getX xb) (0x80 + r.append * r.rb) = .error (.trap u t) →
            exec (.cmseal xd xa xb) s = .next (s.raise t)) ∧
          (∀ (u : State) (ps : List Piece), (s.getX xb).toNat % 128 = 0 →
            s.imagePieces .store (s.getX xb) (0x80 + r.append * r.rb) = .ok (some (u, ps)) →
            ∃ t, exec (.cmseal xd xa xb) s = .next t ∧ t.cc.pc = u.cc.pc + 4 ∧ t.getX xd = 0 ∧
              ((lookupT t.cmOps h.toNat).map CmOp.kind) = some (.seal (pieceSpans ps)) ∧
              t.cc.out.s = u.cc.out.s + 1 ∧
              (u.plainImage (pieceSpans ps) → t.peek (completionAt (pieceSpans ps)) 4 = 0xFFFFFFFF)) ∧
          (let n := 0x80 + r.append * r.rb
           ∀ pa, (s.getX xb).toNat % 128 = 0 → s.plainAt .store (s.getX xb) n = some pa →
            ∃ t, exec (.cmseal xd xa xb) s = .next t ∧ Retires s t (s.cc.pc + 4) ∧ t.getX xd = 0 ∧
              (∃ o, lookupT t.cmOps h.toNat = some o ∧ o.cc = s.cc.ctxid ∧ o.live = true ∧ o.kind = .seal [⟨pa, n, false⟩]) ∧
              t.cmTable = s.cmTable ∧ t.cc.out.s = s.cc.out.s + 1 ∧ t.peek (pa + 0x1C) 4 = 0xFFFFFFFF ∧
              ∀ a, (a < pa + 0x1C ∨ pa + 0x20 ≤ a) → Memory.read t.mem a = Memory.read s.mem a)))) ∧
    (∀ (xd xa xb : XReg), s.cc.level ≠ .user → s.cc.full .s = false → h.toNat = (s.getX xd).toNat % 4096 →
      (∀ (s1 s2 s3 : State) (bs : List Byte) (hp ps : List Piece), s.loadAt (s.getX xb) 64 = .ok (s1, bs) →
        lookupT s1.cmOps h.toNat = none →
        let r := CmRegion.ofBytes bs
        (s1.installStatus h.toNat bs ≠ 0 →
          exec (.cmopen xd xa xb) s = .next (s1.setX xd ((s1.installStatus h.toNat bs).setWidth 64)).retire) ∧
        (s1.installStatus h.toNat bs = 0 → (s.getX xa).toNat % 128 = 0 →
          s1.imagePieces .load (s.getX xa) 0x80 = .ok (some (s2, hp)) → ∀ head, s2.loadPieces (s.getX xa) hp = .ok (s3, head) →
          (headerOk head r = false → exec (.cmopen xd xa xb) s = .next (s3.setX xd 8).retire) ∧
          (∀ s4, headerOk head r = true → s3.imagePieces .load (s.getX xa) (0x80 + r.append * r.rb) = .ok (some (s4, ps)) →
            ∃ t, exec (.cmopen xd xa xb) s = .next t ∧ t.cc.pc = s4.cc.pc + 4 ∧ t.getX xd = 0 ∧
              ((lookupT t.cmOps h.toNat).map CmOp.kind) = some (.open_ (pieceSpans ps) r) ∧
              (s4.plainImage (pieceSpans ps) → t.peek (completionAt (pieceSpans ps)) 4 = 0xFFFFFFFF)))) ∧
      (∀ pd pa, s.plainAt .load (s.getX xb) 64 = some pd → lookupT s.cmOps h.toNat = none →
        let bs := s.bytes pd 64
        let r := CmRegion.ofBytes bs
        let n := 0x80 + r.append * r.rb
        s.installStatus h.toNat bs = 0 → (s.getX xa).toNat % 128 = 0 → s.plainAt .load (s.getX xa) 0x80 = some pa →
        (headerOk (s.bytes pa 0x80) r = false → exec (.cmopen xd xa xb) s = .next (s.setX xd 8).retire) ∧
        (headerOk (s.bytes pa 0x80) r = true → s.plainAt .load (s.getX xa) n = some pa →
          ∃ t, exec (.cmopen xd xa xb) s = .next t ∧ Retires s t (s.cc.pc + 4) ∧ t.getX xd = 0 ∧
            (∃ o, lookupT t.cmOps h.toNat = some o ∧ o.cc = s.cc.ctxid ∧ o.live = true ∧ o.kind = .open_ [⟨pa, n, false⟩] r) ∧
            t.cmTable = s.cmTable ∧ t.cc.out.s = s.cc.out.s + 1 ∧ t.peek (pa + 0x1C) 4 = 0xFFFFFFFF)))) ∧
  (∀ (s : State) (h : BitVec 12) (o : CmOp), lookupT s.cmOps h.toNat = some o →
    (o.kind = .move true → ∀ r, lookupT s.cmTable h.toNat = some r →
      ∃ t, exec (.cmmovDone h) s = .next t ∧ t.mem = s.mem ∧ t.cmTable = s.cmTable ∧
        lookupT t.cmOps h.toNat = some { o with kind := .move false }) ∧
    (∀ (r : CmRegion) (base : Nat) (mask : BitVec 8) (p : Nat), o.kind = .move false → lookupT s.cmTable h.toNat = some r →
      r.next = some (base, mask, p) →
      let q := r.placed base mask
      ∃ t, exec (.cmmovDone h) s = .next t ∧
        (p + 1 < r.stripes → lookupT t.cmOps h.toNat = some o ∧ t.cc = s.cc ∧
          lookupT t.cmTable h.toNat = some { r with next := some (base, mask, p + 1) }) ∧
        (r.stripes ≤ p + 1 → lookupT t.cmOps h.toNat = none ∧ lookupT t.cmTable h.toNat = some q ∧
          (o.live = true → o.cc = s.cc.ctxid → t.cc = s.cc.decOut .s)) ∧
        (r.granule = 0 → s.keyHeld r.key.toNat = true →
          let here (i : Nat) : Prop := i / 64 = p ∧ i < r.rows
          (∀ i j a, here i → here j → q.rowAt i ≤ a → a < q.rowAt i + r.rb →
            (a < r.rowAt j ∨ r.rowAt j + r.rb ≤ a) ∧ (i ≠ j → a < q.rowAt j ∨ q.rowAt j + r.rb ≤ a)) →
          ∀ i, here i → t.cmBytes q (q.rowAt i) r.rb = s.cmBytes r (r.rowAt i) r.rb)) ∧
    (∀ (r : CmRegion) (image : List Span), lookupT s.cmTable h.toNat = some r → o.kind = .seal image →
      let good : Prop := s.keyHeld r.key.toNat = true ∧ ∀ i, i < r.append → s.poisoned (r.rowPa i) r.rb = false
      ∃ t, exec (.cmsealDone h) s = .next t ∧ lookupT t.cmOps h.toNat = none ∧ t.cmTable = s.cmTable ∧
        (s.plainImage image → (good → t.peek (completionAt image) 4 = 0) ∧ (¬ good → t.peek (completionAt image) 4 = 3)) ∧
        (¬ good → t.nonces = s.nonces) ∧
        (o.live = true → o.cc = s.cc.ctxid → t.cc = s.cc.decOut .s) ∧
        (good → s.nonces.length < 2 ^ 96 → ∃ n, n < 2 ^ 96 ∧ n ∉ s.nonces ∧ t.nonces = n :: s.nonces ∧
          ∀ pa, image = [⟨pa, 0x80 + r.append * r.rb, false⟩] → s.rawAt pa (0x80 + r.append * r.rb) = true → t.peek pa 4 = 0x4D434C53 ∧ t.peek (pa + 0x10) 12 = n ∧
            t.bytes (pa + 0x80) (r.append * r.rb) = gcmCrypt s.sealKey (leBytes 12 n) (s.cmBody r))) ∧
    (∀ (r : CmRegion) (image : List Span), o.kind = .open_ image r →
      let all := s.readSpans image
      let head := all.take 0x80
      let nonce := (head.drop 0x10).take 12
      let good : Prop := headerOk head r = true ∧ (head.drop 0x60).take 16 = imageTag s.sealKey head nonce (all.drop 0x80) ∧
        (∀ p ∈ image, s.poisoned p.at_ p.n = false) ∧ (s.lookSpans image).reservedSpan image = false ∧ s.keyHeld r.key.toNat = true
      ∃ t, exec (.cmopenDone h) s = .next t ∧ lookupT t.cmOps h.toNat = none ∧
        (o.live = true → o.cc = s.cc.ctxid → t.cc = s.cc.decOut .s) ∧
        (s.plainImage image → (good → t.peek (completionAt image) 4 = 0) ∧ (¬ good → t.peek (completionAt image) 4 = 9)) ∧
        (good → lookupT t.cmTable h.toNat = some r) ∧ (¬ good → t.cmTable = s.cmTable)))

/-! ### Queues, job cards and trains -/

/-- SHCFG, SHPUSH, SHWAIT, SHDONE and SHSTAT (R303 to R313), on a queue of the context's region: their codes in xd, and
the record, waiter or configuration that they leave. An index that names no queue of the region traps; SHPUSH and SHDONE
wait until the context's own loads and stores are performed. Which fields SHCFG looks at for a max sheaf of 0 is the
model's choice (log 29). SHEAF_AGE_EXPIRY, SHEAF_FIRING and SHEAF_DELIVERY (R308, R309): a queue whose oldest record has
reached the age limit enters class 1; a free engine takes the next eligible queue's oldest records; delivery gives them
to the waiter that has waited longest, with their number in its xd, and it runs on; with no waiter left they go back to
their places. The time at which a queue enters class 1 (log 29), and that the records go back (log 45), are the model's
readings. -/
def Obligations.SheafQueues : Prop :=
  (∀ (s : State) (xd xa xb : XReg),
    (∀ r, s.myRegion = some r → r.queues ≤ (s.getX xa).toNat →
      exec (.shstat xd xa) s = .next (s.raise { cause := 0x06, tval := s.getX xa }) ∧
      exec (.shcfgDrain xd xa) s = .next (s.raise { cause := 0x06, tval := s.getX xa })) ∧
    (∀ g, queueIndex s (s.getX xa) = .ok g →
      let q := s.queueAt g
      (exec (.shstat xd xa) s = .next (s.setX xd (q.stat s.tick)).retire) ∧
      (q.cfg = none → exec (.shcfgDrain xd xa) s = .next (s.setX xd 4).retire) ∧
      (q.cfg ≠ none → ∃ t, exec (.shcfgDrain xd xa) s = .next t ∧ Retires s t (s.cc.pc + 4) ∧ t.getX xd = 0 ∧
        (t.queueAt g).recs = q.recs.map fun r => { r with drain := true }) ∧
      ((s.getX xb).toNat % 16 ≠ 0 → exec (.shcfg xd xa xb) s = .next (s.raise { cause := 0x04, tval := s.getX xb })) ∧
      (∀ pb, (s.getX xb).toNat % 16 = 0 → s.plainAt .load (s.getX xb) 16 = some pb →
        let f (off n : Nat) : Nat := s.peek (pb + off) n
        let va : Word := .ofNat 64 (f 8 8)
        let ok := shFieldsOk (f 0 1) (f 1 1) (f 4 1) (s.bytes (pb + 5) 3) va.toNat
        let same : Prop := ∀ c, q.cfg = some c → c.keeps (f 1 1) (f 4 1) va = true
        let configured (pa : Nat) (ce : Bool) : Prop := ∃ t, exec (.shcfg xd xa xb) s = .next t ∧
          Retires s t (s.cc.pc + 4) ∧ t.getX xd = 0 ∧ SameBytes s t ∧ (t.queueAt g).recs = q.recs ∧
          (t.queueAt g).waiters = q.waiters ∧
          (t.queueAt g).cfg = some ⟨f 0 1, f 1 1, f 2 2, f 4 1, va, pa, s.cc.region, ce⟩
        (ok = false → exec (.shcfg xd xa xb) s = .next (s.setX xd 2).retire) ∧
        (ok = true → q.empty = false → ¬ same ∨ f 1 1 = 0 → exec (.shcfg xd xa xb) s = .next (s.setX xd 1).retire) ∧
        (ok = true → f 1 1 = 0 → q.empty = true →
          exec (.shcfg xd xa xb) s = .next ((s.modQueue g fun _ => {}).setX xd 0).retire) ∧
        (ok = true → f 1 1 ≠ 0 → q.empty = true ∨ same →
          (f 4 1 = 0 → configured 0 false) ∧
          ∀ x, f 4 1 ≠ 0 → s.served ⟨.store, false, 8⟩ va = some x →
            (x.ty = 0 → configured x.pa x.ce) ∧ (x.ty ≠ 0 → exec (.shcfg xd xa xb) s = .next (s.setX xd 3).retire))) ∧
      (s.cc.claim ≠ none → exec (.shwait xd xa xb) s = .next (s.raise { cause := 0x01, tval := wordOf (.shwait xd xa xb) })) ∧
      (∀ pa, s.cc.claim = none → (s.getX xb).toNat % 64 = 0 → s.plainAt .store (s.getX xb) 520 = some pa →
        (q.cfg = none → exec (.shwait xd xa xb) s = .next (s.setX xd 0).retire) ∧
        (q.cfg ≠ none → s.cc.request ≠ none → s.cc.depth = 0 → exec (.shwait xd xa xb) s = .next (s.preempt 0x0E)) ∧
        (q.cfg ≠ none → s.cc.request = none ∨ s.cc.depth ≠ 0 → ∃ t, exec (.shwait xd xa xb) s = .next t ∧
          t.cc.run = .waitSheaf g ∧ t.cc.pc = s.cc.pc ∧ t.cc.x = s.cc.x ∧ t.cc.v = s.cc.v ∧ t.cc.m = s.cc.m ∧ t.mem = s.mem ∧
          (t.queueAt g).recs = q.recs ∧
          (t.queueAt g).waiters = q.waiters ++ [⟨s.cc.ctxid, (s.getX xa).setWidth 32, xd, pa, false⟩]))) ∧
    (s.cc.claim = none → exec (.shdone xd xa) s = .next (s.setX xd 1).retire) ∧
    (∀ c, s.cc.claim = some c →
      let n := (s.getX xa).toNat
      (n < c.done ∨ c.count < n → exec (.shdone xd xa) s = .next (s.setX xd 2).retire) ∧
      (c.done ≤ n → n ≤ c.count → s.cc.stores ≠ [] ∨ s.cc.loads ≠ 0 → exec (.shdone xd xa) s = .next s.freshReads) ∧
      (c.done ≤ n → n ≤ c.count → s.cc.stores = [] → s.cc.loads = 0 →
        ∃ t, exec (.shdone xd xa) s = .next t ∧ Retires s t (s.cc.pc + 4) ∧ t.getX xd = 0 ∧ SameBytes s t ∧ ClockAdvanced s t ∧
          (t.queueAt c.queue).claimed = dropClaimed s.cc.who (n - c.done) (s.queueAt c.queue).claimed ∧
          t.cc.claim = if n = c.count then none else some { c with done := n })) ∧
    (∀ (vq vs vw : VReg) (r : Region), s.cc.ven = true → s.myRegion = some r →
      (s.getV vq).tag = tUI32 → (s.getV vs).tag = tUI32 → (s.getV vw).tag = tFP32 → s.vlN ≤ 256 → s.cc.cut = none →
      let is := (List.range s.vlN).filter fun i => decide (s.cc.vstart.toNat ≤ i) && s.activeAt i
      let g (i : Nat) : Nat := r.firstQ + slotOf (s.getV vq).data tUI32 i
      (∀ i ∈ is, slotOf (s.getV vq).data tUI32 i < r.queues) →
      (s.cc.stores ≠ [] ∨ s.cc.loads ≠ 0 → exec (.shpush vq vs vw) s = .next s.freshReads) ∧
      (s.cc.stores = [] → s.cc.loads = 0 → ∀ i rest, is = i :: rest → (s.queueAt (g i)).cfg = none →
        exec (.shpush vq vs vw) s = .next ((s.release 4).raise
          { cause := 0x0C, tval := .ofNat 64 (g i), vstart := some (.ofNat 10 i) })) ∧
      (s.cc.stores = [] → s.cc.loads = 0 →
        (∀ i ∈ is, (s.queueAt (g i)).cfg ≠ none ∧ (s.queueAt (g i)).onDie + is.length ≤ 63 ∧ (s.queueAt (g i)).spillCount = 0) →
        ∃ t, exec (.shpush vq vs vw) s = .next t ∧ Retires s t (s.cc.pc + 4) ∧ SameBytes s t ∧ ClockAdvanced s t ∧
          t.cc.x = s.cc.x ∧ t.cc.v = s.cc.v ∧ t.cc.m = s.cc.m ∧ t.cc.vstart = 0 ∧
          ∀ k, (t.queueAt k).recs = (s.queueAt k).recs ++ (is.filter fun i => g i == k).map fun i =>
            { bits := .ofNat 64 (slotOf (s.getV vw).data tFP32 i * 2 ^ 32 + slotOf (s.getV vs).data tUI32 i)
              arrival := s.tick, place := .onDie })) ∧
    (∀ (g : Nat) (bits : BitVec 64) (c : ShCfg), (s.queueAt g).cfg = some c →
      ((s.queueAt g).onDie < 63 → (s.queueAt g).spillCount = 0 → ∃ t, s.pushRec g bits = some t ∧ t.mem = s.mem ∧ t.cc = s.cc ∧
        (t.queueAt g).recs = (s.queueAt g).recs ++ [{ bits := bits, arrival := s.tick, place := .onDie }]) ∧
      (63 ≤ (s.queueAt g).onDie → c.spill ≠ 0 → (s.queueAt g).spillCount < 2 ^ c.spill →
        ∃ t, s.pushRec g bits = some t ∧ t.cc = s.cc ∧
          (s.plainIn c.spillCe (c.spillPa + 8 * ((s.queueAt g).spilled % 2 ^ c.spill)) 8 →
            t.bytes (c.spillPa + 8 * ((s.queueAt g).spilled % 2 ^ c.spill)) 8 = leBytes 8 bits.toNat) ∧
          (t.queueAt g).recs = (s.queueAt g).recs ++ [{ bits := bits, arrival := s.tick, place := .spill }]))) ∧
  (∀ s : State,
    (∀ g : BitVec 10, (s.queueAt g.toNat).class1 = none → (s.queueAt g.toNat).expired s.tick = true →
      ∃ t, exec (.sheafAgeExpiry g) s = .next t ∧ t.mem = s.mem ∧ t.cc = s.cc ∧
        (t.queueAt g.toNat).class1 = some (.ofNat 64 ((s.queueAt g.toNat).since s.tick)) ∧
        (t.queueAt g.toNat).recs = (s.queueAt g.toNat).recs) ∧
    (∀ (cl : BitVec 6) (g : Nat) (c : ShCfg), (s.clusterAt cl.toNat).firing.length < 4 → s.nextFiring cl.toNat = some g →
      (s.queueAt g).cfg = some c → ∃ t, exec (.sheafFiring cl) s = .next t ∧ t.mem = s.mem ∧ t.cc = s.cc ∧
        ((t.queueAt g).firing.map fun f => f.recs) =
          some (takeSheaf c.maxSheaf ((s.queueAt g).recs.filter fun r => r.place == .onDie)) ∧
        (t.clusterAt cl.toNat).firing = (s.clusterAt cl.toNat).firing ++ [g]) ∧
    (∀ (g : BitVec 10) (f : Firing) (w : Waiter) (rest : List Waiter), (s.queueAt g.toNat).firing = some f →
      (s.queueAt g.toNat).waiters = w :: rest → w.cc = s.cc.ctxid →
      ∃ t, exec (.sheafDelivery g) s = .next t ∧ t.cc.run = .running ∧ Retires s t (s.cc.pc + 4) ∧
        t.getX w.xd = (if w.xd = 0 then 0 else .ofNat 64 f.recs.length) ∧ (∀ n, n ≠ w.xd → t.getX n = s.getX n) ∧
        t.cc.claim = some ⟨g.toNat, f.recs.length, 0⟩ ∧
        (s.plainIn w.ce w.buf (16 + 8 * f.recs.length) →
          t.bytes w.buf (16 + 8 * f.recs.length) = batchBytes w.index f) ∧
        (t.queueAt g.toNat).waiters = rest ∧ (t.queueAt g.toNat).firing = none ∧
        (t.queueAt g.toNat).claimed = (s.queueAt g.toNat).claimed ++ f.recs.map fun r => (s.cc.who, r)) ∧
    (∀ (g : BitVec 10) (f : Firing), (s.queueAt g.toNat).firing = some f → (s.queueAt g.toNat).waiters = [] →
      ∃ t, exec (.sheafDelivery g) s = .next t ∧ t.mem = s.mem ∧ t.cc = s.cc ∧ (t.queueAt g.toNat).firing = none ∧
        (t.queueAt g.toNat).recs =
          (s.queueAt g.toNat).recs.take f.ahead ++ f.recs ++ (s.queueAt g.toNat).recs.drop f.ahead))

/-- JOB and JOBCHK (R316, R317, R319 to R321): a card at a multiple of 64 that is valid is entered, counted in C and
answered with its token; an invalid one gets status 7 and token 0. JOB waits for the context's own loads and stores, and
for room. The work of cards (R315, R317, R318, R320, R395). A card starts when no earlier card of its context conflicts
with it. A copy or gather in idempotent plain memory writes one row at a time, from where its strides, or its index and
extent, say, or from the fill byte; after the last row it has ended with status 0. A collective gathers the messages of
its members, and one that disagrees ends it with status 6. The completion writes the status, and the fault address with
statuses 2 and 3, once the card's writes to peers are acknowledged, and returns C. That a gather's source stride is the
field at 0x28 is the model's reading (log 31), and so are the messages of a collective (log 32). COLLECTIVE_DATA (R33,
R317, R395): before boot a message brings nothing; after it one that no card waits for is held; one that a card waits
for joins its contributions: a disagreement ends the card with status 6, of which the other members are told by a
withdrawal, and the last one writes the result, the FP32 sums in the order of the nodes or the members' data. That
messages are held, and that withdrawals tell of a mismatch, are the model's choices (log 32). -/
def Obligations.JobCards : Prop :=
  (∀ (s : State) (xd xa : XReg),
    let va := s.getX xa
    (va.toNat % 64 ≠ 0 → exec (.job xd xa) s = .next (s.raise { cause := 0x04, tval := va })) ∧
    (∀ (s1 : State) (x : Xlat), s.cardPlace va = .ok (s1, x) →
      (s.cc.stores ≠ [] ∨ s.cc.loads ≠ 0 → exec (.job xd xa) s = .next s.freshReads) ∧
      (∀ (s2 : State) (bs : List Byte) (nodes : List (BitVec 16)), s.cc.stores = [] → s.cc.loads = 0 →
        s1.readCard x va = .ok (s2, bs, nodes) →
        let token : BitVec 32 := .ofNat 32 (s2.cc.nextSerial.toNat * 256 + fieldOf bs 3 1)
        let j := { Job.ofBytes s2 x.pa token nodes bs with ce := x.ce }
        (s2.nodesAbsent nodes = true → exec (.job xd xa) s = .next ((s.release 4).raise { cause := 0x11 })) ∧
        (s2.nodesAbsent nodes = false →
          (cardOk s2.nodeid j bs = false → ∃ t, exec (.job xd xa) s = .next t ∧ t.cc.pc = s2.cc.pc + 4 ∧ t.getX xd = 0 ∧
            t.jobs = s2.jobs ∧ (s2.plainIn x.ce x.pa 64 → t.peek (x.pa + 4) 4 = 7)) ∧
          (cardOk s2.nodeid j bs = true →
            (s.jobsFull (clusterOf s.cc.ctxid) = true ∨ s.cc.full .c = true → exec (.job xd xa) s = .next s.freshReads) ∧
            (s.jobsFull (clusterOf s.cc.ctxid) = false → s.cc.full .c = false →
              ∃ t, exec (.job xd xa) s = .next t ∧ t.cc.pc = s2.cc.pc + 4 ∧
                t.getX xd = (if xd = 0 then 0 else token.setWidth 64) ∧ t.jobs = s2.jobs ++ [j] ∧
                t.cc.out.c = s2.cc.out.c + 1 ∧ (s2.plainIn x.ce x.pa 64 → t.peek (x.pa + 4) 4 = 0xFFFF)))))) ∧
    (∀ pa, va.toNat % 64 = 0 → s.plainAt .load va 64 = some pa → s.plainAt .store va 64 = some pa → s.cc.stores = [] →
      s.cc.loads = 0 →
      let bs := s.bytes pa 64
      let token : BitVec 32 := .ofNat 32 (s.cc.nextSerial.toNat * 256 + fieldOf bs 3 1)
      let j := Job.ofBytes s pa token [] bs
      fieldOf bs 0 1 ≠ 2 →
      (cardOk s.nodeid j bs = false → ∃ t, exec (.job xd xa) s = .next t ∧ Retires s t (s.cc.pc + 4) ∧ t.getX xd = 0 ∧
        (∀ n, n ≠ xd → t.getX n = s.getX n) ∧ t.jobs = s.jobs ∧ t.peek (pa + 4) 4 = 7 ∧
        ∀ a, (a < pa + 4 ∨ pa + 8 ≤ a) → Memory.read t.mem a = Memory.read s.mem a) ∧
      (cardOk s.nodeid j bs = true → s.jobsFull (clusterOf s.cc.ctxid) = false → s.cc.full .c = false →
        ∃ t, exec (.job xd xa) s = .next t ∧ Retires s t (s.cc.pc + 4) ∧
          t.getX xd = (if xd = 0 then 0 else token.setWidth 64) ∧ (∀ n, n ≠ xd → t.getX n = s.getX n) ∧
          t.jobs = s.jobs ++ [j] ∧ t.cc.out.c = s.cc.out.c + 1 ∧ t.cc.serial = s.cc.nextSerial ∧ t.peek (pa + 4) 4 = 0xFFFF ∧
          ∀ a, (a < pa + 4 ∨ pa + 8 ≤ a) → Memory.read t.mem a = Memory.read s.mem a)) ∧
    (xd ≠ 0 → ∃ t, exec (.jobchk xd xa) s = .next t ∧ Retires s t (s.cc.pc + 4) ∧ FrameX s t xd ∧
      (va = 0 → t.getX xd = 2) ∧
      (va ≠ 0 → ((∃ j ∈ s.jobs, j.cc = s.cc.ctxid ∧ j.token.setWidth 64 = va) → t.getX xd = 1) ∧
        ((∀ j ∈ s.jobs, j.cc = s.cc.ctxid → j.token.setWidth 64 ≠ va) → t.getX xd = 0)))) ∧
  (∀ (s : State) (cc : BitVec 10) (token : BitVec 32) (j : Job), s.jobOf cc token = some j →
    (j.ended = none → j.running = false → (s.earlierJobs j).any j.conflicts = true →
      exec (.jobStart cc token) s = .next s) ∧
    (j.ended = none → j.running = true ∨ (s.earlierJobs j).any j.conflicts = false →
      let k := { j with running := true }
      (j.engine = 2 → exec (.jobStart cc token) s = .next ((s.modJob j fun _ => k).startCollective k)) ∧
      (j.engine ≠ 2 → exec (.jobStart cc token) s = .next ((s.modJob j fun _ => k).asJob k fun u =>
        u.engineEnd k (u.jobRow k k.row) fun v => v.rowDone k)) ∧
      (∀ pb, (j.engine = 0 ∧ j.op.toNat ≤ 2 ∨ j.engine = 1) → j.cc = s.cc.ctxid → j.level = s.cc.level → j.rowBytes ≠ 0 →
        j.rowBytes ≤ packetMost →
        let row : Word := .ofNat 64 j.row
        let dst : Word := if j.engine = 0 ∧ j.op = 0 then j.b else if j.engine = 0 ∧ j.op = 1 then j.b + row * j.dstStride
          else j.b + .ofNat 64 (j.row * j.rowBytes)
        s.quietAt .store dst j.rowBytes = some pb →
        let moved (data : List Byte) : Prop := ∃ t, exec (.jobStart cc token) s = .next t ∧ t.cc = s.cc ∧
          t.bytes pb j.rowBytes = data ∧
          (∀ a, (a < pb ∨ pb + j.rowBytes ≤ a) → Memory.read t.mem a = Memory.read s.mem a) ∧
          t.jobOf cc token = some (if j.row + 1 < (if j.engine = 0 ∧ j.op = 0 then 1 else j.rows)
            then { k with row := j.row + 1, miss := none, held := [] }
            else { k with ended := some (0, 0), miss := none, held := [] })
        (j.engine = 0 → j.op = 2 → moved (List.replicate j.rowBytes (j.a.setWidth 8))) ∧
        (∀ pa, j.engine = 0 → j.op.toNat ≤ 1 →
          s.quietAt .load (if j.op = 0 then j.a else j.a + row * j.srcStride) j.rowBytes = some pa →
          moved (s.bytes pa j.rowBytes)) ∧
        (∀ pi pa, j.engine = 1 → s.quietAt .load (j.srcStride + .ofNat 64 (4 * j.row)) 4 = some pi →
          let off : Int := s.peek pi 4 * j.dstStride.toInt
          0 ≤ off → off + j.rowBytes ≤ j.extent.toNat → s.quietAt .load (j.a + .ofInt 64 off) j.rowBytes = some pa →
          moved (s.bytes pa j.rowBytes)))) ∧
    (∀ (status : BitVec 32) (fault : Word), j.ended = some (status, fault) →
      (j.peers ≠ [] → exec (.jobCompletion cc token) s = .next s) ∧
      (j.peers = [] → ∃ t, exec (.jobCompletion cc token) s = .next t ∧ t.jobOf cc token = none ∧
        (s.plainIn j.ce j.card 0x40 → t.peek (j.card + 4) 4 = status.toNat ∧
          (status = 2 ∨ status = 3 → t.peek (j.card + 0x38) 8 = fault.toNat)) ∧
        (j.cc = s.cc.ctxid → j.notify = false → t.cc = s.cc.decOut .c)))) ∧
  (∀ (s : State) (src tag : BitVec 16) (msg : CollMsg),
    (s.trust.bootState ≠ 2 → exec (.collectiveData src tag msg) s = .next s) ∧
    (s.trust.bootState = 2 →
      (s.jobs = [] → msg ≠ .withdraw true →
        exec (.collectiveData src tag msg) s = .next { s with collHeld := s.collHeld ++ [(src, tag, msg)] }) ∧
      ∀ j, s.jobs = [j] → s.awaits j = true → j.takes src tag msg = true →
        let k := { j with contribs := j.contribs ++ [(src, msg)] }
        ((∃ c ∈ k.contribs, j.agrees c.2 = false) → ∃ t, exec (.collectiveData src tag msg) s = .next t ∧ t.mem = s.mem ∧
          (j.cc = s.cc.ctxid → t.cc = s.cc) ∧ t.jobs = [{ k with ended := some (6, 0) }] ∧
          ((∃ c ∈ k.contribs, (∀ b, c.2 ≠ .withdraw b) ∧ j.agrees c.2 = false) → ∀ n ∈ j.nodes, n ≠ s.nodeid → 256 ≤ n.toNat →
            .ethernet n tag (.withdraw true) ∈ t.outbox)) ∧
        ((∀ c ∈ k.contribs, j.agrees c.2 = true) →
          ((∃ n ∈ j.nodes, ∀ c ∈ k.contribs, c.1 ≠ n) →
            exec (.collectiveData src tag msg) s = .next { s with jobs := [k] }) ∧
          (∀ pb, (∀ n ∈ j.nodes, ∃ c ∈ k.contribs, c.1 = n) → j.cc = s.cc.ctxid → j.level = s.cc.level → k.result ≠ [] →
            k.result.length ≤ packetMost → s.quietAt .store j.b k.result.length = some pb →
            ∃ t, exec (.collectiveData src tag msg) s = .next t ∧ t.cc = s.cc ∧ t.bytes pb k.result.length = k.result ∧
              t.jobs = [{ k with ended := some (0, 0), miss := none, held := [] }]))))

/-- VSEND and trains (R322, R394): with no active element it retires and sends nothing; else one train goes to each
node, in ascending order, with its elements, and one count is in S. With S full it waits. The receiver writes each
element to WM and drops others, adds the count to the counter, and acknowledges; the acknowledgement ends the train. -/
def Obligations.ElementTrains : Prop :=
  ∀ s : State,
    (∀ (vs va : VReg) (xb : XReg), s.cc.ven = true → isVal (s.getV vs).tag = true → isSub (s.getV vs).tag = false →
      (s.getV va).tag = tI64 ∨ (s.getV va).tag = tUI64 → s.vlN ≤ vlmax (s.getV vs).tag → s.vlN ≤ vlmax (s.getV va).tag →
      (s.cc.full .s = true → exec (.vsend vs va xb) s = .next s.freshReads) ∧
      (s.cc.full .s = false → s.cc.vfence = false →
        (s.activeFrom 0 = [] → exec (.vsend vs va xb) s = .next s.retire) ∧
        (∀ (s1 : State) (n i off : Nat), n < 256 → s.activeFrom 0 = [i] → s1.trains = [] →
          sendTargets (tagWidth (s.getV vs).tag / 8) s [(i, .ofNat 64 (slotOf (s.getV va).data (s.getV va).tag i))] =
            .ok (s1, [(n, off, i, false)]) →
          ∃ t, exec (.vsend vs va xb) s = .next t ∧ t.cc.pc = s1.cc.pc + 4 ∧ t.cc.x = s1.cc.x ∧ t.mem = s1.mem ∧
            t.cc.out.s = s1.cc.out.s + 1 ∧ t.trains.map (fun r => (r.cc, r.node)) = [(s1.cc.ctxid, .ofNat 8 n)]) ∧
        (∀ at_ : Nat → Xlat, s.cc.cut = none →
          let size := tagWidth (s.getV vs).tag / 8
          let is := (List.range s.vlN).filter s.activeAt
          is ≠ [] →
          (∀ i ∈ is, let a : Word := .ofNat 64 (slotOf (s.getV va).data (s.getV va).tag i)
            s.served ⟨.store, true, size⟩ a = some (at_ i) ∧ (at_ i).ty = 5 ∧ a.toNat % size = 0 ∧ peerBase ≤ (at_ i).pa ∧
            peerNode (at_ i).pa < 256) →
          let nodes := (List.range 256).filter fun n => is.any fun i => peerNode (at_ i).pa == n
          ∃ t ts, exec (.vsend vs va xb) s = .next t ∧ Retires s t (s.cc.pc + 4) ∧ t.mem = s.mem ∧ t.cc.x = s.cc.x ∧
            t.cc.v = s.cc.v ∧ t.cc.m = s.cc.m ∧ t.cc.out.s = s.cc.out.s + 1 ∧ t.trains = s.trains ++ ts ∧
            ts.map (fun r => (r.cc, r.live, r.node, r.group, r.count)) = nodes.map fun n =>
              (s.cc.ctxid, true, .ofNat 8 n, s.packetTag, (is.filter fun i => peerNode (at_ i).pa == n).length)))) ∧
    (∀ (src : BitVec 8) (code : BitVec 2) (a v : Nat), a < 2 ^ 64 →
      (inWm a (2 ^ code.toNat) = true → ∃ t, exec (.trainElements src code (trainElem a (2 ^ code.toNat) v)) s = .next t ∧
        t.cc = s.cc ∧ t.bytes a (2 ^ code.toNat) = leBytes (2 ^ code.toNat) v ∧
        ∀ p, (p < a ∨ a + 2 ^ code.toNat ≤ p) → Memory.read t.mem p = Memory.read s.mem p) ∧
      (inWm a (2 ^ code.toNat) = false → exec (.trainElements src code (trainElem a (2 ^ code.toNat) v)) s = .next s)) ∧
    (∀ (src : BitVec 8) (tag : BitVec 24) (counter : BitVec 64) (n : BitVec 32), inWm counter.toNat 8 = true →
      ∃ t, exec (.trainTail src tag counter n) s = .next t ∧ t.cc = s.cc ∧
        t.peek counter.toNat 8 = (s.peek counter.toNat 8 + n.toNat) % 2 ^ 64 ∧
        ∀ p, (p < counter.toNat ∨ counter.toNat + 8 ≤ p) → Memory.read t.mem p = Memory.read s.mem p) ∧
    (∀ (r : Train), s.trains = [r] → r.live = true →
      exec (.tailAcknowledgement r.node r.tag) s = .next (({ s with trains := [] } : State).complete r.cc .s))

/-! ### Events -/

/-- Launch, check, placement, retirement and the scheduler's commands (R38, R39, R42, R45, R329, R330). A launched RCB
is ACCEPTED with the values of its launch, their reserved bits zero (R6, R122), and its check due. A check that passes
makes it READY with all contexts fresh, one that fails FAULTED with the cause word. A region that fits is placed; one
that can retire is DONE. The commands answer their status, and act. That an RCB outside WM stops the model is its choice
of log 1, that the values come with the launch and an illegal MAXVL is 16 that of log 12, the die at which DONE is
released that of log 9, the plan and SAVED regions that become READY at their next placement those of log 34, and
termination by the RCB's count that of log 35. A context in its starting state (R43, R44, R371): x3 its RCB, x4 the
launch word, x5 its index, x6 the count, every other register and every tag zero, VEN set, user level but for service,
the pc at its entry. -/
def Obligations.RegionsAndContexts : Prop :=
  (∀ (s : State) (addr : BitVec 48),
    (∀ rec : Launch, let rcb := addr.toNat / 256 * 256
      (inWm rcb 256 = false → exec (.regionLaunch addr rec) s = .fault .rcbOutsideWm) ∧
      (inWm rcb 256 = true → s.trust.bootState = 2 → s.peek (rcb + 0x48) 4 = 0 → s.regionAt rcb = none →
        ∃ t r, exec (.regionLaunch addr rec) s = .next t ∧ t.mem = s.mem ∧ t.cc = s.cc ∧ t.regionAt rcb = some r ∧
          r.state = .accepted ∧ r.va = rec.va &&& ~~~0xFF#64 ∧ r.service = rec.service ∧ r.tvec = rec.tvec &&& ~~~0xFF#64 ∧
          r.ptbase = rec.ptbase &&& 0xFFFFFFFF0000#64 ∧ r.asid = rec.asid ∧ r.preempt = rec.preempt ∧ r.parent = none ∧
          r.maxvl = (if 1 ≤ rec.maxvl.toNat ∧ rec.maxvl.toNat ≤ 16 then rec.maxvl else 16) ∧
          t.agenda = s.agenda ++ [.rcbCheck (.ofNat 48 rcb)])) ∧
    (∀ r, s.regionAt addr.toNat = some r →
      let c := s.rcbFields addr.toNat r (r.parent.bind s.regionAt)
      (r.state = .accepted →
        (s.rcbChecks addr.toNat c (r.parent.bind s.regionAt) = .ok () → ∃ t q, exec (.rcbCheck addr) s = .next t ∧
          t.cc = s.cc ∧ t.regionAt addr.toNat = some q ∧ q.state = .ready ∧ q.ctxs = List.replicate c.count .fresh ∧
          t.peek (addr.toNat + 0x48) 4 = 1) ∧
        (∀ cause, s.rcbChecks addr.toNat c (r.parent.bind s.regionAt) = .error cause →
          exec (.rcbCheck addr) s = .next (s.failCheck addr.toNat c.domain cause))) ∧
      (∀ first : BitVec 10,
        (r.state = .saved → ∃ t q, exec (.regionPlacement addr first) s = .next t ∧ t.cc = s.cc ∧
          t.regionAt addr.toNat = some q ∧ q.state = .ready ∧ t.peek (addr.toNat + 0x48) 4 = 1) ∧
        (r.state = .ready → s.before addr.toNat r true = false →
          (∀ home seats, s.plan addr.toNat r first [] = some (home, seats) →
            exec (.regionPlacement addr first) s = .next (s.place1 addr.toNat r home seats)) ∧
          (s.plan addr.toNat r first [] = none →
            exec (.regionPlacement addr first) s = .next ((s.toEvict addr.toNat r first).foldl State.evict s)))) ∧
      (r.state = .running → r.terminating = true → exec (.terminationEnd addr) s =
        .next (((s.endChildren addr.toNat).endContexts addr.toNat).finishRegion addr.toNat .terminated)) ∧
      (r.state.ended = false → r.terminating = false →
        (r.state = .running → exec (.rsTerminateRegion addr) s = .next (((s.rsDone 0).modRegion addr.toNat fun q =>
          { q with terminating := true }).later (.terminationEnd addr))) ∧
        (r.state ≠ .running → exec (.rsTerminateRegion addr) s =
          .next (((s.rsDone 0).endChildren addr.toNat).finishRegion addr.toNat .terminated)) ∧
        exec (.rsEvict addr) s = .next ((s.rsDone 0).evict addr.toNat) ∧
        (∀ ctx : BitVec 16,
          (s.regionCount addr.toNat r ≤ ctx.toNat → exec (.rsTerminateContext addr ctx) s = .next (s.rsDone 2)) ∧
          (ctx.toNat < s.regionCount addr.toNat r → r.state ≠ .running → exec (.rsTerminateContext addr ctx) s =
            .next ((s.rsDone 0).modRegion addr.toNat fun q => { q with pendTerm := q.pendTerm ++ [ctx.toNat] })) ∧
          (∀ id, ctx.toNat < s.regionCount addr.toNat r → r.state = .running → r.ctxs[ctx.toNat]? = some (.resident id) →
            exec (.rsTerminateContext addr ctx) s =
              .next ((((s.rsDone 0).endContext id).checkSaved addr.toNat).checkRetire addr.toNat))))) ∧
    (∀ (r : Region) (first : BitVec 10) (p : Seat) (home : Option Nat), s.regionAt addr.toNat = some r → r.state = .ready →
      s.before addr.toNat r true = false → s.plan addr.toNat r first [] = some (home, [p]) → r.slots = 0 → r.ctxs = [.fresh] →
      r.pendTerm = [] → addr.toNat + 0x4C ≤ spadAddr (coreOf p.cc) p.off →
      ∃ t q, exec (.regionPlacement addr first) s = .next t ∧ t.ccAt p.cc = (s.ccAt p.cc).start addr.toNat r p ∧
        t.regionAt addr.toNat = some q ∧ q.state = .running ∧ q.placed = true ∧
        (p.index = 0 → q.ctxs = [.resident p.cc]) ∧ t.peek (addr.toNat + 0x48) 4 = 2 ∧
        (∀ a, spadAddr (coreOf p.cc) p.off ≤ a → a < spadAddr (coreOf p.cc) p.off + r.allot → Memory.read t.mem a = 0)) ∧
    (∀ (r : Region) (ctx : BitVec 16), s.regionAt addr.toNat = some r → r.state.ended = false → r.terminating = true →
      exec (.rsTerminateRegion addr) s = .next (s.rsDone 3) ∧ exec (.rsTerminateContext addr ctx) s = .next (s.rsDone 3) ∧
      exec (.rsEvict addr) s = .next (s.rsDone 3)) ∧
    (s.canRetire addr.toNat = true →
      exec (.regionRetire addr) s = .next ((s.releaseDie 0).finishRegion addr.toNat .done)) ∧
    (s.regionAt addr.toNat = none → ∀ ctx : BitVec 16,
      exec (.rsTerminateRegion addr) s = .next (s.rsDone 1) ∧ exec (.rsTerminateContext addr ctx) s = .next (s.rsDone 1) ∧
      exec (.rsEvict addr) s = .next (s.rsDone 1))) ∧
  (∀ (c : ControlCore) (rcb : Nat) (r : Region) (p : Seat), let d := c.start rcb r p
    (∀ n : XReg, d.getX n = if n = 3 then r.va else if n = 4 then r.launch else if n = 5 then .ofNat 64 p.index
      else if n = 6 then .ofNat 64 r.count else 0) ∧
    (∀ k : Fin 48, d.v[k] = { data := 0, side := 0, tag := 0 }) ∧ (∀ k : Fin 12, d.m[k] = 0) ∧ d.pc = r.entry ∧
    d.level = (if r.service then .service else .user) ∧ d.ven = true ∧ d.loopAct = false ∧ d.loopI = false ∧ d.depth = 0 ∧
    d.run = .running ∧ d.ctxid = c.ctxid ∧ d.vmsel = 15 ∧ d.fcsr = 0 ∧ d.mfmt = 0 ∧ d.vl = 0 ∧ d.tvec = r.tvec ∧
    d.ptbase = r.ptbase ∧ d.asid = r.asid ∧ d.maxvl = r.maxvl ∧ d.out = {} ∧ d.retired = 0 ∧ d.shadow = Vector.replicate 4 0)

/-- The events of waits, interrupts, pre-emption and arbitration (R37, R48, R51, R57 to R60, R148, R233, R302, R323,
R337), at the control core that moves: a wait whose end has come retires; a hard pre-emption and a user interrupt are
taken; a lane shape changes; a barrier stall is recorded; a grant moves nothing but credits, and counts starvation anew
where a head is not ready. The model's choices: grants start nothing (log 17), credit and starvation of more groups than
one (log 45), the handler's first fetch on the next turn (logs 18, 19), and when skipped groups are counted (log 46).
Loads, stores, atomic requests, walks, steps of macro-operations, and the writes of other dies (R196, R197, R212, R220,
R222, R230, R334, R354). A walk that ends well fills the TLBs, and the instruction that waits for it holds its leaf; one
that ends in a trap installs nothing, and the instruction meets the trap. That the instruction goes on with the leaf
that it has received is the model's reading (log 19), and so is the TLB entry that a full TLB gives up (log 19). -/
def Obligations.WaitsAndCompletions : Prop :=
  (∀ s : State,
    (∀ l st c t q, s.cc.run = .waitCounts l st c t q → s.cc.out.meets l st c t q = true →
      exec (.waitReturn s.cc.ctxid) s = .next ({ s with cc := { s.cc with run := .running } } : State).retire) ∧
    (∀ n p, s.cc.run = .waitBar n p → (s.slotAt n).phase ≠ p →
      exec (.barwaitReturn s.cc.ctxid) s = .next ({ s with cc := { s.cc with run := .running } } : State).retire) ∧
    (s.cc.run = .waitIdle (some 0) →
      exec (.idleTimeout s.cc.ctxid) s = .next ({ s with cc := { s.cc with run := .running } } : State).retire) ∧
    (∀ l st c t q, s.cc.run = .waitCounts l st c t q → s.cc.out.meets l st c t q = false →
      exec (.waitReturn s.cc.ctxid) s = .next s) ∧
    (s.cc.request = some 0 → s.cc.depth = 0 → s.cc.entering = false → s.cc.run = .running ∨ s.cc.run.isWait = true →
      s.readsDevice s.cc.ctxid = false →
      let t : Trap := { cause := 0x0E }
      let h := ({ s.unwait with cc := { s.cc with request := none } } : State).atHandler t s.cc.pc
      exec (.hardPreemption s.cc.ctxid) s = .next h ∧ TrapTaken s.cc h.cc t s.cc.pc ∧ h.cc.request = none) ∧
    (s.cc.request ≠ some 0 ∨ s.cc.depth ≠ 0 → exec (.hardPreemption s.cc.ctxid) s = .next s) ∧
    (∀ cause, s.cc.ring = some cause → s.cc.uistatus = 1 → s.cc.depth = 0 → s.cc.macroOp = none → s.cc.leaving = false →
      s.midLoad s.cc.ctxid = false → s.cc.run = .running ∨ (∃ n, s.cc.run = .waitIdle n) →
      ∃ t, exec (.uiDelivery s.cc.ctxid) s = .next t ∧ t.mem = s.mem ∧ t.cc.pc = s.cc.uivec ∧
        t.cc.uiepc = (if s.cc.run = .running then s.cc.pc else s.cc.pc + 4) ∧ t.cc.run = .running ∧
        t.cc.uicause = cause ∧ t.cc.uistatus = 2 ∧ t.cc.ring = none ∧ (∀ n : XReg, n.toNat < 28 → t.getX n = s.getX n) ∧
        ∀ k : Fin 4, t.cc.x[28 + k.val] = s.cc.shadow[k] ∧ t.cc.shadow[k] = s.cc.x[28 + k.val]) ∧
    (∀ core : BitVec 8, s.shapeReady core.toNat = true → ∃ t, exec (.laneShapeChange core) s = .next t ∧ t.cc = s.cc ∧
      t.mem = s.mem ∧ (t.coreAt core.toNat).shape = (s.coreAt core.toNat).nextShape ∧ (t.coreAt core.toNat).pend = false) ∧
    (∀ (n : BitVec 12) (rcb : Nat) (r : Region), (s.slotAt n.toNat).watchdog = some 0 → (s.slotAt n.toNat).bound = some rcb →
      s.regionAt rcb = some r → ∃ t, exec (.barrierStall n) s = .next t ∧ (t.slotAt n.toNat).watchdog = none ∧
        (t.slotAt n.toNat).phase = (s.slotAt n.toNat).phase ∧
        ((s.domainAt r.domain).size = 0 → (t.domainAt r.domain).lost = (s.domainAt r.domain).lost + 1)) ∧
    (∀ (core : BitVec 8) (h : Heads) (costs : BitVec 32),
      let id (k : Nat) : BitVec 10 := .ofNat 10 (4 * core.toNat + k)
      (∃ t, exec (.heddleGrant core h costs) s = .next t ∧ t.mem = s.mem ∧
        (∀ i : BitVec 10, { t.ccAt i with credit := 0, starved := 0 } = { s.ccAt i with credit := 0, starved := 0 }) ∧
        (∀ k, k < 4 → h.ready.getLsbD k = false → (t.ccAt (id k)).starved = 0 ∧ (t.ccAt (id k)).credit = (s.ccAt (id k)).credit) ∧
        (h.idle = 0 → ∀ k, k < 4 → h.ready.getLsbD k = true → (t.ccAt (id k)).starved = (s.ccAt (id k)).starved + 2)) ∧
      (∀ k, k < 4 → h.idle = 1 → h.ready = 1#4 <<< k →
        let cost := (costs.extractLsb' (8 * k) 8).toNat
        let weight := max 1 ((s.coreAt core.toNat).heddle.extractLsb' (8 * k) 8).toNat
        let credit := (s.ccAt (id k)).credit
        ∃ t, exec (.heddleGrant core h costs) s = .next t ∧ (t.ccAt (id k)).starved = 0 ∧
          (t.ccAt (id k)).credit = credit + (cost - credit + weight - 1) / weight * weight - cost))) ∧
  (∀ s : State,
    (s.cc.loads ≠ 0 → ∃ t, exec (.loadComplete s.cc.ctxid) s = .next t ∧ t.mem = s.mem ∧ t.cc.loads = s.cc.loads - 1 ∧
      (s.cc.out.l ≠ 0 → t.cc.out.l = s.cc.out.l - 1) ∧ t.cc.x = s.cc.x ∧ t.cc.v = s.cc.v ∧ t.cc.pc = s.cc.pc) ∧
    (∀ (w : PStore) (r : List PStore), s.cc.stores = w :: r → w.peers = [] →
      (w.adds = false ∨ (∀ p ∈ s.clusters, ∀ q ∈ p.2.requests, q.cc ≠ s.cc.ctxid) →
        ∃ t, exec (.storePerformed s.cc.ctxid) s = .next t ∧ t.mem = s.mem ∧ t.cc.stores = r ∧
          (w.counted = true → s.cc.out.s ≠ 0 → t.cc.out.s = s.cc.out.s - 1) ∧ t.cc.x = s.cc.x ∧ t.cc.pc = s.cc.pc) ∧
      (w.adds = true → (∃ p ∈ s.clusters, ∃ q ∈ p.2.requests, q.cc = s.cc.ctxid) → r = [] →
        exec (.storePerformed s.cc.ctxid) s = .next { s with agenda := s.agenda ++ [.storePerformed s.cc.ctxid] })) ∧
    (∀ (cl : BitVec 6) (q : AtomReq) (rest : List AtomReq), (s.clusterAt cl.toNat).requests = q :: rest →
      (s.clusterAt cl.toNat).lines.length < 64 → q.fn = 0 → q.size = 1 → s.plainIn q.ce q.addr 8 →
      ∃ t, exec (.atomicRequest cl) s = .next t ∧ t.cc = s.cc ∧ (t.clusterAt cl.toNat).requests = rest ∧
        t.peek q.addr 8 = (s.peek q.addr 8 + q.b.toNat) % 2 ^ 64 ∧
        ∀ p, (p < q.addr ∨ q.addr + 8 ≤ p) → Memory.read t.mem p = Memory.read s.mem p) ∧
    (∀ va : Word, s.cc.run = .running → s.tlbHas s.cc va = false →
      let counted (u : State) : State :=
        if s.again s.cc.ctxid (va.extractLsb' 16 48) then u else u.count (coreOf s.cc.ctxid) 5 1
      ((s.clusterAt (clusterOf s.cc.ctxid)).walks = [] → ∃ t, exec (.pageWalk s.cc.ctxid va) s = .next t ∧ t.mem = s.mem ∧
        t.cc = s.cc ∧ t.cores = (counted s).cores ∧
        (t.clusterAt (clusterOf s.cc.ctxid)).walks = [⟨s.cc.asid, va.extractLsb' 16 48, s.cc.ptbase, [s.cc.ctxid]⟩]) ∧
      (∀ w : Walk, (s.clusterAt (clusterOf s.cc.ctxid)).walks = [w] → w.asid = s.cc.asid → w.key = va.extractLsb' 16 48 →
        ∃ t, exec (.pageWalk s.cc.ctxid va) s = .next t ∧ t.mem = s.mem ∧ t.cc = s.cc ∧
          t.cores = (counted (s.count (coreOf s.cc.ctxid) 6 1)).cores ∧
          (t.clusterAt (clusterOf s.cc.ctxid)).walks =
            [{ w with ccs := if s.cc.ctxid ∈ w.ccs then w.ccs else w.ccs ++ [s.cc.ctxid] }])) ∧
    (∀ (cl : BitVec 6) (w : Walk), (s.clusterAt cl.toNat).walks = [w] → (s.clusterAt cl.toNat).waiting = [] →
      w.ccs = [s.cc.ctxid] → s.cc.miss = some ⟨w.asid, w.key, false, none⟩ →
      (∀ c, walk s (s.clusterAt cl.toNat).walkCache w.ptbase w.asid (w.key.setWidth 64 <<< 16) = .error c →
        ∃ t, exec (.walkComplete cl) s = .next t ∧ t.mem = s.mem ∧ t.cores = s.cores ∧ (t.clusterAt cl.toNat).walks = [] ∧
          t.cc = { s.cc with miss := some ⟨w.asid, w.key, false, some c⟩ }) ∧
      (∀ e : WalkEnd, walk s (s.clusterAt cl.toNat).walkCache w.ptbase w.asid (w.key.setWidth 64 <<< 16) = .ok e →
        ∃ t, exec (.walkComplete cl) s = .next t ∧ t.mem = s.mem ∧ (t.clusterAt cl.toNat).walks = [] ∧
          let leaf : TlbEntry := ⟨w.asid, pageBase (w.key.setWidth 64 <<< 16) e.level, e.level, e.entry, e.at_⟩
          t.cc = { s.cc with miss := none, held := leaf :: s.cc.held } ∧
          (t.coreAt (coreOf s.cc.ctxid)).l2 = tlbFill 2048 leaf (s.coreAt (coreOf s.cc.ctxid)).l2)) ∧
    (∀ (core : BitVec 8) (op : MacroOp) (m : Nat), core.toNat = coreOf s.cc.ctxid → s.cc.macroOp = some (op, m) →
      (∀ k, k < 4 → .ofNat 10 (4 * core.toNat + k) ≠ s.cc.ctxid → s.macroPending (.ofNat 10 (4 * core.toNat + k)) = false) →
      s.macroPending s.cc.ctxid = true →
      (∀ r : State, State.macroRun op 1 m (s.modCore core.toNat fun k => { k with matrixRR := .ofNat 2 s.cc.ctxid.toNat }) = .ok r →
        exec (.tileMacroStep core) s = .next r) ∧
      (∀ (td : TReg) (a : Word) (pa : Nat), op = .tsave td a →
        let total := ((s.getT td).imageBytes + 2047) / 2048
        let chunk := ((s.getT td).image.drop (2048 * m)).take 2048
        m < total → s.plainAt .store (a + .ofNat 64 (2048 * m)) chunk.length = some pa →
        ∃ t, exec (.tileMacroStep core) s = .next t ∧ t.cc.x = s.cc.x ∧ t.cc.v = s.cc.v ∧ t.cc.m = s.cc.m ∧ t.cc.t = s.cc.t ∧
          t.bytes pa chunk.length = chunk ∧
          (∀ p, (p < pa ∨ pa + chunk.length ≤ p) → Memory.read t.mem p = Memory.read s.mem p) ∧
          (m + 1 = total → Retires s t (s.cc.pc + 4) ∧ t.cc.macroOp = none ∧
            (s.cc.out.t ≠ 0 → t.cc.out.t = s.cc.out.t - 1 + s.cc.sending)) ∧
          (m + 1 < total → t.cc.pc = s.cc.pc ∧ t.cc.macroOp = some (op, m + 1)))) ∧
    (∀ (die src : BitVec 2) (s0 s1 s2 s3 : BitVec 64), die ≠ src → exec (.dieWriteArrival die src s0 s1 s2 s3) s =
      .next ((s.modDie die.toNat fun d => { d with held := d.held ++ [⟨src, #v[s0, s1, s2, s3]⟩] }).later (.dieWriteDeliver die))) ∧
    (∀ (die : BitVec 2) (w : DieWrite), (s.dieAt die.toNat).held = [w] →
      (admits (s.dieAt die.toNat).vc w = false → exec (.dieWriteDeliver die) s = .next s) ∧
      (admits (s.dieAt die.toNat).vc w = true → ∃ t, exec (.dieWriteDeliver die) s = .next t ∧ t.mem = s.mem ∧ t.cc = s.cc ∧
        (t.dieAt die.toNat).held = [] ∧ ∀ k : Fin 4, ((t.dieAt die.toNat).vc[k]).toNat =
          max ((s.dieAt die.toNat).vc[k]).toNat (w.stamp[k]).toNat)))

/-- Trackers, refresh, remapping, the divisor, the channels' modes and the mesh (R25, R278, R280 to R282, R288 to R293).
The model's choices: mesh packets and what their poison meets (log 39), and when remap moves, tracker counts, refreshes
and the edges of the modes take place (log 42). Compression of WM (R283 to R285): the sectors of a block decode to it,
whatever stands beyond them in its slot; no code under which they do takes fewer sectors, nor is one lower that takes as
many. A write through a page with CE = 1 merges into its block, which takes the code and sectors of its new bytes and
leaves the rest of the slot; one through a page with CE = 0 reaches the slot as it is, under the code that stands. -/
def Obligations.StackEvents : Prop :=
  (∀ s : State,
    (∀ m : BitVec 48,
      let co := m.toNat / 32768 * 256 + m.toNat % 256
      bankPlace none m =
        (32 * (m.extractLsb' 8 7 ^^^ m.extractLsb' 21 7).toNat + co / 1024 % 32, co / 32768)) ∧
    (∀ (bank : Option (BitVec 14)) (at_ : BitVec 48) (n : Nat), let b := (bankPlace bank at_).1
      let row : BitVec 16 := .ofNat 16 (bankPlace bank at_).2
      (bankPlace bank at_).2 < rowsOf b →
      (tget [] s.trackers b = [] → ∃ t, exec (.activation bank at_) s = .next t ∧ t.mem = s.mem ∧ t.cc = s.cc ∧
        tget [] t.trackers b = [(row, 1)] ∧ t.directed = s.directed) ∧
      (tget [] s.trackers b = [(row, n)] → ∃ t, exec (.activation bank at_) s = .next t ∧ t.mem = s.mem ∧ t.cc = s.cc ∧
        tget [] t.trackers b = [(row, if n + 1 = 1024 then 0 else n + 1)] ∧
        (n + 1 = 1024 → t.directed = neighbours b row) ∧ (n + 1 ≠ 1024 → t.directed = s.directed))) ∧
    exec .trackerWindowClear s = .next { s with trackers := [], trackWindow := s.tick.toNat / 2000 } ∧
    (∀ bank : BitVec 14, let n := tget 0 s.postponed bank.toNat
      (∃ t, exec (.refresh bank false) s = .next t ∧ t.mem = s.mem ∧ tget 0 t.postponed bank.toNat = 0) ∧
      (n < 8 → ∃ t, exec (.refresh bank true) s = .next t ∧ t.mem = s.mem ∧ tget 0 t.postponed bank.toNat = n + 1) ∧
      (8 ≤ n → ∃ t, exec (.refresh bank true) s = .next t ∧ t.mem = s.mem ∧ tget 0 t.postponed bank.toNat = 0)) ∧
    (∀ region : BitVec 17, region.toNat < 97664 → s.remapFree ≠ 0 → s.remapFree.toNat ≤ 256 →
      (∀ p ∈ s.remap, p.2.moving = false) → ∃ t r, exec (.remapMove region) s = .next t ∧ t.mem = s.mem ∧ t.cc = s.cc ∧
        lookupT t.remap region.toNat = some r ∧ r.moving = true ∧ r.dest.toNat = 97664 + (256 - s.remapFree.toNat) ∧
        t.remapFree = s.remapFree - 1 ∧ t.agenda = s.agenda ++ [.remapMoveEnd region]) ∧
    (∀ (region : BitVec 17) (r : Remap), lookupT s.remap region.toNat = some r → r.moving = true →
      ∃ t, exec (.remapMoveEnd region) s = .next t ∧ t.mem = s.mem ∧ t.cc = s.cc ∧
        lookupT t.remap region.toNat = some { moving := false, dest := 0, media := r.dest }) ∧
    (∀ d : BitVec 2, ∃ t, exec (.divisorChange d) s = .next t ∧ t.divisor = d ∧ t.mem = s.mem ∧ t.cc = s.cc ∧
      t.tillers = s.tillers ∧
      ∀ n, t.chanAt n = if (s.chanAt n).mode = true then { s.chanAt n with wanted := true } else s.chanAt n) ∧
    (∀ ch : BitVec 8, let c := s.chanAt ch.toNat
      let due := (s.refreshWaits ch.toNat).isSome
      (c.sweeps ≠ 0 → c.normal = 0 → c.mode = false → due = false →
        exec (.computeModeEntry ch) s = .next (s.modChan ch.toNat fun c => { c with mode := true })) ∧
      (c.sweeps = 0 ∨ c.normal ≠ 0 ∨ due = true → exec (.computeModeEntry ch) s = .next s) ∧
      (due = true ↔ ∃ p ∈ s.postponed, 4096 ≤ p.1 ∧ (p.1 - 4096) / 48 = ch.toNat ∧ p.2 ≠ 0) ∧
      (c.mode = true → exec (.normalModeRequest ch) s = .next (s.modChan ch.toNat fun c => { c with pending := true }) ∧
        ((∀ w ∈ s.cmStores, ch.toNat ∉ w.chans) → exec (.nlbExpiry ch) s = .next s) ∧
        (∀ w, s.cmStores = [w] → ch.toNat ∈ w.chans →
          exec (.nlbExpiry ch) s = exec (.cmStorePerformed w.cc) s ∧
          (s.cmReady w = true → ∃ t, exec (.nlbExpiry ch) s = .next t ∧ t.cmStores = []))) ∧
      (c.pending = true → exec (.normalModeDone ch) s =
        .next (s.modChan ch.toNat fun c => { c with mode := false, pending := false, wanted := false }))) ∧
    (∀ (router : BitVec 8) (p : MeshPacket), let h := p.header
      let dst := 32 * (h.extractLsb' 8 3).toNat + (h.extractLsb' 11 5).toNat
      (meshOk s.variant h = false ∨ s.variant.cmstk ≤ router.toNat / 32 →
        exec (.meshPacket router p) s = .next (s.countError 4 1)) ∧
      (meshOk s.variant h = true → router.toNat / 32 < s.variant.cmstk →
        (router.toNat = dst →
          (p.poisoned = false → exec (.meshPacket router p) s = .next s) ∧
          (p.poisoned = true → exec (.meshPacket router p) s = .next ((s.meshPoison h).countError 5 1))) ∧
        (router.toNat ≠ dst → exec (.meshPacket router p) s =
          .next (s.later (.meshPacket (.ofNat 8 (meshNext s.variant router.toNat dst)) p))))) ∧
    (∀ (h : BitVec 64), let ty := (h.extractLsb' 0 4).toNat
      let reply := (h.extractLsb' 48 16).toNat
      (∀ o, ty = 2 ∨ ty = 3 → lookupT s.cmOps reply = some o → o.kind = .move false →
        lookupT (s.meshPoison h).cmOps reply = some { o with kind := .move true }) ∧
      (∀ q, ty < 2 ∨ 5 < ty → s.queries = [q] → q.tag.toNat = reply →
        attachStack s.variant (dieOf q.cc) =
          (if h.extractLsb' 24 2 = 1 then h.extractLsb' 8 3 else h.extractLsb' 16 3).toNat →
        (s.meshPoison h).queries = [{ q with status := 3 }]))) ∧
  ((∀ (bs rest : List Byte), bs.length = 128 →
    let c := blockCode bs
    (blockSectors c bs).length = 32 * codeSectors c ∧
    (rest.length = 128 - 32 * codeSectors c → blockPlain c (blockSectors c bs ++ rest) = bs) ∧
    ∀ k : BitVec 4, k.toNat ≤ 5 → blockPlain k (blockSectors k bs ++ List.replicate (128 - 32 * codeSectors k) 0) = bs →
      codeSectors c < codeSectors k ∨ codeSectors c = codeSectors k ∧ c.toNat ≤ k.toNat) ∧
  ∀ (s : State) (pa b : Nat) (bs : List Byte), blocksOf pa bs.length = [b] →
    (let t := s.storeIn true pa bs
     let new := t.bytes (128 * b) 128
     t.bytesIn true pa bs.length = bs ∧ (∀ a, a < pa ∨ pa + bs.length ≤ a → Memory.read t.mem a = Memory.read s.mem a) ∧
     t.codeAt (t.mediaBlock b) = blockCode new ∧ (∀ a, a ≠ b → lookupT t.stored a = lookupT s.stored a) ∧
     (blockCode new = 0 → t.storedBlock b = new) ∧
     (blockCode new ≠ 0 →
       t.storedBlock b = blockSectors (blockCode new) new ++ (s.storedBlock b).drop (32 * codeSectors (blockCode new)))) ∧
    ∀ st, lookupT s.stored b = some st → st.length = 128 →
      let t := s.storeIn false pa bs
      t.bytesIn false pa bs.length = bs ∧ t.codes = s.codes ∧ t.metas = s.metas ∧
      (∀ i, i < 128 → 128 * b + i < pa ∨ pa + bs.length ≤ 128 * b + i → (t.storedBlock b)[i]? = st[i]?) ∧
      t.bytesIn true (128 * b) 128 = blockPlain (s.codeAt (s.mediaBlock b)) (t.storedBlock b))

/-- The events of the tiller cores (R265, R294 to R299, R387): jobs enter a free mailbox or wait; REPLYPUSH appends 8
bytes; REPLYEND and the time limit end the job; the DMA keeps the registers of its GO, and a copy ends in compute mode
with its bytes or its error; a core's loads and stores go by the memory map, and a misaligned one and one outside it
trap; what an instruction without an access writes is written; a firmware load ends with its status. RISC-V's register
numbers and trap causes are the family's (log 54, PRESUMED), and when a core's edges take place is the model's choice
(log 42). -/
def Obligations.TillerEvents : Prop :=
  ∀ (s : State) (ch : BitVec 8), let c := s.tillerAt ch.toNat
    (∀ (cc : BitVec 10) (serial : BitVec 24),
      (c.job.isSome = true → exec (.tillerJob ch cc serial) s =
        .next (s.modTiller ch.toNat fun t => { t with queued := t.queued ++ [(cc, serial)] })) ∧
      (∀ (q : Query) (k : Custom) (st q0 : Nat), c.job = none → s.queryOf cc serial = some q → q.custom = some k →
        ((k.r.channels q.handle).find? fun p => p.1 == ch.toNat) = some (ch.toNat, st, q0) →
        ∃ t, exec (.tillerJob ch cc serial) s = .next t ∧ t.mem = s.mem ∧ (t.tillerAt ch.toNat).job = some (cc, serial) ∧
          (t.tillerAt ch.toNat).mbstat = true ∧ (t.tillerAt ch.toNat).pushed = [] ∧
          (t.tillerAt ch.toNat).mbox = mailbox k.qd k.r k.vq st q0 ∧ (t.tillerAt ch.toNat).since = s.clock ∧
          (t.tillerAt ch.toNat).limit = 2 ^ 25 * (s.divisor.toNat + 1))) ∧
    (∀ data : BitVec 64, c.job.isSome = true →
      (c.pushed.length + 8 ≤ 65536 → ∃ t, exec (.replypush ch data) s = .next t ∧ t.mem = s.mem ∧
        (t.tillerAt ch.toNat).pushed = c.pushed ++ leBytes 8 data.toNat) ∧
      (65536 < c.pushed.length + 8 → ∃ t, exec (.replypush ch data) s = .next t ∧ t.mem = s.mem ∧
        (t.tillerAt ch.toNat).pushed = c.pushed ∧ (t.tillerAt ch.toNat).overran = true)) ∧
    (c.job.isSome = true → c.queued = [] →
      (∀ v : BitVec 64, ∃ t, exec (.replyend ch v) s = .next t ∧ t.mem = s.mem ∧ (t.tillerAt ch.toNat).job = none ∧
        (t.tillerAt ch.toNat).mbstat = false) ∧
      (∀ (v : BitVec 64) (q : Query) (k : Custom), s.tillerQuery c = some (q, k) → s.queryOf q.cc q.serial = some q →
        k.chans = [ch.toNat] → k.ended = [] → k.overran = false → c.overran = false → c.bad = false → q.status = 0 →
        v.extractLsb' 32 8 = 0 →
        let frag := c.pushed.take (v.extractLsb' 0 32).toNat
        frag.length ≤ replyBound (32 * c.moved.toNat) → frag.length ≤ k.area.length →
        ∃ t, exec (.replyend ch v) s = .next t ∧
          t.queryOf q.cc q.serial = some { q with custom := none, reply := k.area.zip frag }) ∧
      (c.since + c.limit ≤ s.clock → ∃ t, exec (.tillerTimeout ch) s = .next t ∧ t.mem = s.mem ∧
        (t.tillerAt ch.toNat).job = none ∧ (t.tillerAt ch.toNat).busy = false ∧ (t.tillerAt ch.toNat).cpu = {} ∧
        t.errors = (s.countError 7 1).errors) ∧
      (s.clock < c.since + c.limit → exec (.tillerTimeout ch) s = .next s)) ∧
    (∀ row ctl : BitVec 64, ∃ t, exec (.tillerDmaGo ch row ctl) s = .next t ∧ t.mem = s.mem ∧
      (t.tillerAt ch.toNat).dmaRow = row ∧
      (t.tillerAt ch.toNat).busy = (c.busy || ctl.getLsbD 0) ∧
      (t.tillerAt ch.toNat).going = if c.busy = false ∧ ctl.getLsbD 0 = true then (row, ctl &&& ~~~0xFF#64) else c.going) ∧
    (c.busy = true →
      ((s.chanAt ch.toNat).mode = false → exec (.tillerDmaDone ch) s = .next s) ∧
      ((s.chanAt ch.toNat).mode = true →
        (∀ e, s.tillerCopy ch.toNat c = .error e → ∃ t, exec (.tillerDmaDone ch) s = .next t ∧ t.mem = s.mem ∧
          (t.tillerAt ch.toNat).busy = false ∧ (t.tillerAt ch.toNat).err = e ∧ (t.tillerAt ch.toNat).dmem = c.dmem) ∧
        (∀ dst bs, s.tillerCopy ch.toNat c = .ok (dst, bs) → ∃ t, exec (.tillerDmaDone ch) s = .next t ∧ t.mem = s.mem ∧
          (t.tillerAt ch.toNat).busy = false ∧ (t.tillerAt ch.toNat).err = 0 ∧
          Memory.readAll (t.tillerAt ch.toNat).dmem dst bs.length = bs))) ∧
    (s.variant.tiller = true → ch.toNat / 32 < s.variant.cmstk →
      let act (a : Word) (n : BitVec 4) (op : TillerOp) : Instr := .registerWrite a n (.tiller ch op)
      let trapped (t : State) (cause : Nat) (tval : Word) : Prop := t.mem = s.mem ∧
        (t.tillerAt ch.toNat).cpu.mcause = .ofNat 64 cause ∧ (t.tillerAt ch.toNat).cpu.mtval = tval ∧
        (t.tillerAt ch.toNat).cpu.mepc = c.cpu.pc ∧ (t.tillerAt ch.toNat).cpu.pc = c.cpu.mtvec &&& ~~~3#64
      (∀ (rd : XReg) (a : Word) (n : BitVec 4), n = 1 ∨ n = 2 ∨ n = 4 ∨ n = 8 →
        (a.toNat % n.toNat ≠ 0 → ∃ t, exec (act a n (.load rd)) s = .next t ∧ trapped t 4 a) ∧
        (a.toNat % n.toNat = 0 → 0x10000 ≤ a.toNat → a.toNat + n.toNat ≤ 0x30000 → rd ≠ 0 →
          ∃ t, exec (act a n (.load rd)) s = .next t ∧ t.mem = s.mem ∧ (t.tillerAt ch.toNat).dmem = c.dmem ∧
            (t.tillerAt ch.toNat).cpu.x[rd.toNat]? =
              some (.ofNat 64 (leNat (Memory.readAll c.dmem (a.toNat - 0x10000) n.toNat)))) ∧
        (a.toNat % n.toNat = 0 → 0x33000 ≤ a.toNat → ∃ t, exec (act a n (.load rd)) s = .next t ∧ trapped t 5 a)) ∧
      (∀ (rd : XReg) (a : Word), a.toNat % 4 = 0 → 0x10000 ≤ a.toNat → a.toNat + 4 ≤ 0x30000 →
        ∃ t, exec (act a 4 (.loadF rd)) s = .next t ∧ t.mem = s.mem ∧ (t.tillerAt ch.toNat).dmem = c.dmem ∧
          (t.tillerAt ch.toNat).cpu.x = c.cpu.x ∧ (t.tillerAt ch.toNat).cpu.f[rd.toNat]? =
            some (.ofNat 64 (2 ^ 64 - 2 ^ 32 + leNat (Memory.readAll c.dmem (a.toNat - 0x10000) 4)))) ∧
      (∀ (a : Word) (n : BitVec 4) (rd : XReg) (v next : Word) (flags : BitVec 5), rd ≠ 0 →
        ∃ t, exec (act a n (.compute [.x rd v] flags next)) s = .next t ∧ t.mem = s.mem ∧
          (t.tillerAt ch.toNat).cpu.pc = next ∧ (t.tillerAt ch.toNat).cpu.x[rd.toNat]? = some v ∧
          (∀ k, k ≠ rd.toNat → (t.tillerAt ch.toNat).cpu.x[k]? = c.cpu.x[k]?) ∧
          (t.tillerAt ch.toNat).cpu.fcsr = c.cpu.fcsr ||| flags.setWidth 8) ∧
      (∀ (a : Word) (n : BitVec 4) (v : Word), n = 1 ∨ n = 2 ∨ n = 4 ∨ n = 8 →
        (a.toNat % n.toNat ≠ 0 → ∃ t, exec (act a n (.store v)) s = .next t ∧ trapped t 6 a) ∧
        (a.toNat % n.toNat = 0 → 0x10000 ≤ a.toNat → a.toNat + n.toNat ≤ 0x30000 →
          ∃ t, exec (act a n (.store v)) s = .next t ∧ t.mem = s.mem ∧ (t.tillerAt ch.toNat).cpu = c.cpu ∧
            Memory.readAll (t.tillerAt ch.toNat).dmem (a.toNat - 0x10000) n.toNat = leBytes n.toNat v.toNat) ∧
        (a.toNat % n.toNat = 0 → a.toNat < 0x10000 → ∃ t, exec (act a n (.store v)) s = .next t ∧ trapped t 7 a)) ∧
      (∀ (a : Word) (n : BitVec 4) (rd : XReg), rd ≠ 0 → ∃ t, exec (act a n (.csrRead rd 0x344)) s = .next t ∧
        (t.tillerAt ch.toNat).cpu.x[rd.toNat]? = some (if c.mbstat then 0x800 else 0)) ∧
      (c.mbstat = true → c.cpu.mstatus.getLsbD 3 = true → c.cpu.mie.getLsbD 11 = true →
        ∀ (a : Word) (n : BitVec 4), ∃ t, exec (act a n .interrupt) s = .next t ∧ trapped t (2 ^ 63 + 11) 0)) ∧
    (∀ ctl : BitVec 64, ∃ t, exec (.tillerFwLoad ctl) s = .next t ∧ t.mem = s.mem ∧ t.tlfw.len = ctl.setWidth 17 ∧
      (t.tlfw.busy = true ↔ s.tlfw.busy = true ∨ ctl.getLsbD 63 = true)) ∧
    (s.tlfw.busy = true → s.tillersIdle = true → ∃ t, exec .tillerFwLoadDone s = .next t ∧ t.mem = s.mem ∧
      t.tlfw.busy = false ∧ t.tlfw.status = s.tlfwStatus ∧ (s.tlfwStatus = 0 → t.tillers = [] ∧
        Memory.readAll t.tlfw.image 0 s.tlfw.len.toNat =
          s.bytes ((s.tlfw.addr.extractLsb' 6 42).toNat * 64) s.tlfw.len.toNat))

/-- Ports, flits, the packets of peers and routes (R33, R389 to R393). A flit resent 8 times makes its port retrain,
which then sends again what it had sent; a port that goes down drops it. The model's choices: ports come up and retrain
by events, and acknowledgements by a timer (log 39); a read that cannot be served is answered without units, which is
poison (log 14). -/
def Obligations.LinkEvents : Prop :=
  ∀ (s : State) (port : BitVec 6), let p := s.portAt port.toNat
    (∀ flit : List Byte, port.toNat < s.variant.slports → p.state = 2 →
      (flitOk flit = false → exec (.flitReceive port flit) s = .next (s.sendAck port.toNat true)) ∧
      (flitOk flit = true → fieldOf flit 0 8 / 2 ^ 24 % 4 = 0 → fieldOf flit 0 8 / 2 ^ 26 % 16 = 1 →
        exec (.flitReceive port flit) s =
          .next (s.takeFlit port.toNat (.ofNat 12 (fieldOf flit 0 8)) ((flit.drop 8).take flitPayload))) ∧
      (flitOk flit = true → fieldOf flit 0 8 / 2 ^ 24 % 4 = 1 → fieldOf flit 0 8 / 2 ^ 26 % 16 = 0 →
        exec (.flitReceive port flit) s = .next (s.acked port.toNat (.ofNat 12 (fieldOf flit 0 8 / 4096)))) ∧
      (p.rxSince ≠ 0 → ∃ t, exec (.ackTimer port) s = .next t ∧ t.mem = s.mem ∧ (t.portAt port.toNat).rxSince = 0 ∧
        t.outbox = s.outbox ++ [.flit port.toNat (ackFlit false (p.rxNext - 1))]) ∧
      ((∃ f ∈ p.unacked, 8 ≤ f.2.2) → ∃ t, exec (.linkRetrain port) s = .next t ∧ t.mem = s.mem ∧
        (t.portAt port.toNat).state = 1 ∧ (t.portAt port.toNat).unacked = p.unacked) ∧
      ((∀ f ∈ p.unacked, f.2.2 < 8) → exec (.linkRetrain port) s = .next s) ∧
      (∃ t, exec (.linkDown port) s = .next t ∧ (t.portAt port.toNat).state = 0 ∧ (t.portAt port.toNat).unacked = [])) ∧
    (p.state = 2 → 0 < p.sent → (∀ f ∈ p.unacked, f.2.2 < 8) →
      (s.resend port.toNat).portAt port.toNat = { p with
        sent := min flitWindow p.unacked.length
        unacked := ((p.unacked.take p.sent).map fun f => (f.1, f.2.1, f.2.2 + 1)) ++ p.unacked.drop p.sent
        replays := .ofNat 16 (min (p.replays.toNat + p.sent) 0xFFFF) }) ∧
    (∀ (seq : BitVec 12) (payload : List Byte), seq ≠ p.rxNext → s.takeFlit port.toNat seq payload = s) ∧
    (∃ t, s.sendAck port.toNat true = t ∧ (t.portAt port.toNat).rxSince = 0 ∧
      t.outbox = s.outbox ++ [.flit port.toNat (ackFlit true (p.rxNext - 1))]) ∧
    (∀ peer : BitVec 8, port.toNat < s.variant.slports → s.trust.bootState = 2 → p.state ≠ 2 →
      ∃ t, exec (.linkUp port peer) s = .next t ∧ t.mem = s.mem ∧ (t.portAt port.toNat).state = 2 ∧
        (t.portAt port.toNat).peer = peer ∧
        (p.state = 1 → (t.portAt port.toNat).unacked = (p.unacked.map fun f => (f.1, f.2.1, 0)) ∧
          (t.portAt port.toNat).replays = .ofNat 16 (min (p.replays.toNat + p.sent) 0xFFFF)) ∧
        (p.state ≠ 1 → (t.portAt port.toNat).unacked = [] ∧ (t.portAt port.toNat).rxNext = 0)) ∧
    (∀ peer : BitVec 8, s.trust.bootState ≠ 2 → exec (.linkUp port peer) s = .next s) ∧
    (∀ (src : BitVec 8) (tag : BitVec 24) (addr : BitVec 48),
      (∀ units : BitVec 4, inWm addr.toNat (16 * units.toNat) = true → s.poisoned addr.toNat (16 * units.toNat) = false →
        exec (.readRequest src tag addr units) s =
          .next (s.sendPacket src.toNat 2 units.toNat tag 0 (s.bytes addr.toNat (16 * units.toNat)))) ∧
      (∀ units : BitVec 4, inWm addr.toNat (16 * units.toNat) = false ∨ s.poisoned addr.toNat (16 * units.toNat) = true →
        exec (.readRequest src tag addr units) s = .next (s.sendPacket src.toNat 2 0 tag 0 [])) ∧
      (∀ data : List Byte, inWm addr.toNat data.length = true → ∃ t, exec (.peerWrite src tag addr data) s = .next t ∧
        t.cc = s.cc ∧ t.bytes addr.toNat data.length = data ∧
        ∀ q, (q < addr.toNat ∨ addr.toNat + data.length ≤ q) → Memory.read t.mem q = Memory.read s.mem q) ∧
      (∀ data : List Byte, inWm addr.toNat data.length = false →
        exec (.peerWrite src tag addr data) s = .next (s.sendPacket src.toNat 4 0 tag 0 [])) ∧
      (∀ (r : PeerRead) (data : List Byte), s.peerReads = [r] → r.node = src → r.tag = tag → r.got = .waiting → r.token = 0 →
        exec (.readResponse src tag data) s = .next { s with
          peerReads := [{ r with got := if data.length < r.n then .poisoned else .data (data.take r.n) }]
          strays := s.strays.filter fun q => !(q.node == src && q.tag == tag && !q.write) }) ∧
      (∀ w : PStore, s.cc.stores = [w] → w.peers = [(src, tag)] → w.counted = true →
        ∃ t, exec (.writeAcknowledgement src tag) s = .next t ∧ t.mem = s.mem ∧ t.cc.stores = [] ∧
          (s.cc.out.s ≠ 0 → t.cc.out.s = s.cc.out.s - 1)) ∧
      (∀ (w : PStore) (other : BitVec 8 × BitVec 24), s.cc.stores = [w] → w.peers = [(src, tag), other] → other ≠ (src, tag) →
        ∃ t, exec (.writeAcknowledgement src tag) s = .next t ∧ t.mem = s.mem ∧ t.cc.out = s.cc.out ∧
          t.cc.stores = [{ w with peers := [other] }])) ∧
    (∀ (node : BitVec 8) (v : BitVec 64), ∃ t, exec (.routeWrite node v) s = .next t ∧ t.mem = s.mem ∧ t.route = s.route ∧
      lookupT t.routeHeld node.toNat = some (v.setWidth 36)) ∧
    (∀ (node : BitVec 8) (v : BitVec 36), lookupT s.routeHeld node.toNat = some v →
      (s.outstanding node.toNat = true → exec (.routeApply node) s = .next s) ∧
      (s.outstanding node.toNat = false → ∃ t, exec (.routeApply node) s = .next t ∧ t.mem = s.mem ∧
        tget 0 t.route node.toNat = v ∧ lookupT t.routeHeld node.toNat = none))

/-- Boot and the commands of the trust unit (R400 to R409): each answers its status, and a command with status 0 has its
effect. A slot is zeroised only when no query and no store that a wipe has met is in flight (R406). That WM is zero when
the firmware runs is the model's reading (log 38), and the wipe's times in core cycles rest on the clock of log 4. -/
def Obligations.TrustEvents : Prop :=
  ∀ s : State,
    (∀ cmd : BitVec 64, cmd.getLsbD 63 = true → s.trust.bootState = 0 ∨ s.trust.bootState = 3 →
      ∃ t, exec (.bootLoad cmd) s = .next t ∧ t.mem = s.mem ∧ t.trust.bootState = 1 ∧ t.trust.bootLen = cmd.setWidth 27 ∧
        t.agenda = s.agenda ++ [.bootComplete]) ∧
    (s.trust.bootState = 1 →
      ∃ t, exec .bootComplete s = .next t ∧ match s.bootCheck with
        | some code => t.mem = s.mem ∧ t.trust.bootState = 3 ∧ t.trust.bootCode = code
        | none => t.trust.bootState = 2 ∧ t.trust.derived = true ∧
            t.trust.migKey = some (Config.migrationKey s.trust.migGroup) ∧
            (∀ p, p < wmLimit → Memory.read t.mem p = 0) ∧ t.codes = [] ∧ t.metas = [] ∧ t.stored = []) ∧
    (s.trust.cmdLow = 0 →
      (s.tuReadable s.trust.arg0 0xED4 = false → exec .verify s = .next (s.tuDone 2)) ∧
      (s.tuReadable s.trust.arg0 0xED4 = true → let bs := s.bytes s.trust.arg0.toNat 0xED4
        ∃ t, exec .verify s = .next t ∧ t.mem = s.mem ∧ t.trust.busy = false ∧ t.trust.status = s.trust.tokenStatus bs ∧
          (t.trust.tokok = true ↔ s.trust.tokenStatus bs = 0) ∧
          t.trust.tokdig = if s.trust.tokenStatus bs = 0 then digest (sha3 bs) else s.trust.tokdig) ∧
      (s.trust.arg1.toNat < 256 → s.tuReadable s.trust.arg0 64 = true → s.trust.lcs ≠ 0 → s.trust.lcs ≠ 2 →
        s.trust.isOpen = false → ∃ t, exec .keyload s = .next t ∧ t.mem = s.mem ∧ t.trust.busy = false ∧ t.trust.status = 0 ∧
          lookupT t.trust.keys s.trust.arg1.toNat = some (.ofNat 512 (s.peek s.trust.arg0.toNat 64)) ∧ t.trust.loaded = true) ∧
      (∃ t, exec .keywipe s = .next t ∧ t.trust.keys = [] ∧ t.trust.wipecnt = 256 ∧ t.trust.loaded = false ∧ t.trust.wipeAt = s.clock ∧
        t.trust.busy = false ∧ t.trust.status = 0 ∧ (∀ q ∈ t.queries, q.wiped = true) ∧ ∀ w ∈ t.cmStores, w.wiped = true) ∧
      (s.trust.isOpen = false → s.trust.tokok = true ∨ s.trust.lcs = 0 →
        (s.trust.wipecnt = 0 → s.trust.loaded = false → ∃ t, exec .dbgopen s = .next t ∧ t.mem = s.mem ∧
          t.trust.isOpen = true ∧ t.trust.status = 0 ∧ t.trust.busy = false) ∧
        (s.trust.wipecnt ≠ 0 ∨ s.trust.loaded = true → exec .dbgopen s = .next (s.tuDone 8))) ∧
      (s.trust.isOpen = false → s.trust.tokok = false → s.trust.lcs ≠ 0 → exec .dbgopen s = .next (s.tuDone 7)) ∧
      (∀ i : Fin 8, 2 ≤ i.val → s.trust.arg1 = .ofNat 64 i.val → s.tuReadable s.trust.arg0 32 = true →
        ∃ t, exec .extend s = .next t ∧ t.mem = s.mem ∧ t.trust.busy = false ∧ t.trust.status = 0 ∧
          t.trust.meas[i] = digest (sha3 (digestBytes (s.trust.meas[i]) ++ s.bytes s.trust.arg0.toNat 32)) ∧
          ∀ k : Fin 8, k ≠ i → t.trust.meas[k] = s.trust.meas[k]) ∧
      (s.tuReadable s.trust.arg0 0xAB4 = false → exec .attest s = .next (s.tuDone 2)) ∧
      (s.tuReadable s.trust.arg0 0xAB4 = true → s.tuReadable s.trust.arg1 32 = true →
        let body := s.trust.report (s.bytes s.trust.arg1.toNat 32)
        ∃ t, exec .attest s = .next t ∧ t.trust.busy = false ∧ t.trust.status = 0 ∧
          body.length = 0x140 ∧
          t.bytes s.trust.arg0.toNat 0x140 = body ∧
          Config.mldsaVerify Config.identityPublic body (t.bytes (s.trust.arg0.toNat + 0x140) 2420) = true)) ∧
    (s.trust.cmdLow ≠ 0 → exec .verify s = .next (s.tuDone 1) ∧ exec .keyload s = .next (s.tuDone 1) ∧
      exec .keywipe s = .next (s.tuDone 1) ∧ exec .dbgopen s = .next (s.tuDone 1) ∧ exec .extend s = .next (s.tuDone 1) ∧
      exec .attest s = .next (s.tuDone 1)) ∧
    (s.trust.wipecnt ≠ 0 → let due := s.trust.wipeAt + (if s.trust.wipecnt = 256 then 10 else 1) * 1880
      (due ≤ s.clock → (∀ q ∈ s.queries, q.wiped = false) → (∀ w ∈ s.cmStores, w.wiped = false) → ∃ t, exec .keywipeZeroise s = .next t ∧ t.mem = s.mem ∧
        t.trust.wipecnt = s.trust.wipecnt - 1 ∧ t.trust.wipeAt = s.clock ∧
        lookupT t.trust.keys (256 - s.trust.wipecnt.toNat) = none) ∧
      (s.clock < due ∨ (∃ q ∈ s.queries, q.wiped = true) ∨ (∃ w ∈ s.cmStores, w.wiped = true) →
        exec .keywipeZeroise s = .next s))

/-- The host's accesses and registers, and resets (R33, R358, R383 to R386, R403). The model's choices: register levels
by the host (log 37), when the host's lines are given up (log 40), what a port reset leaves (log 41), and the function
mask of MSI-X (log 43, PRESUMED). The debug port (R252, R380 to R382, R408), at the control core that moves: a context
halts and goes on only through an open port whose permissions allow it; a halted one's registers are written; a CM
sector is read as ciphertext, which is AES-256-XTS as IEEE 1619 has it (log 8, PRESUMED). When a debugger's events take
place and what halting does to an instruction that has begun is the model's choice (log 44). -/
def Obligations.HostAndDebug : Prop :=
  (∀ s : State,
    (∀ (off : BitVec 48) (n : BitVec 8), s.trust.bootState = 2 →
      (inWm off.toNat n.toNat = true → ∃ t, exec (.hostMemRead off n) s = .next t ∧ t.mem = s.mem ∧ t.cc = s.cc ∧
        t.outbox = s.outbox ++ [.hostData (if s.poisoned off.toNat n.toNat then none else some (s.bytes off.toNat n.toNat))]) ∧
      (inWm off.toNat n.toNat = false → ∃ t, exec (.hostMemRead off n) s = .next t ∧ t.mem = s.mem ∧ t.cc = s.cc ∧
        t.errors = (s.countError 1 1).errors ∧ t.outbox = (s.countError 1 1).outbox ++ [.hostData none])) ∧
    (∀ (off : BitVec 48) (data : List Byte), s.trust.bootState = 2 →
      (inWm off.toNat data.length = true → ∃ t, exec (.hostMemWrite off data) s = .next t ∧ t.cc = s.cc ∧
        t.bytes off.toNat data.length = data ∧
        ∀ p, (p < off.toNat ∨ off.toNat + data.length ≤ p) → Memory.read t.mem p = Memory.read s.mem p) ∧
      (inWm off.toNat data.length = false → exec (.hostMemWrite off data) s = .next (s.countError 1 1))) ∧
    (s.trust.bootState ≠ 2 →
      (∀ (off : BitVec 48) (n : BitVec 8), exec (.hostMemRead off n) s = .next s) ∧
      ∀ (off : BitVec 48) (data : List Byte), exec (.hostMemWrite off data) s = .next s) ∧
    (∀ (die : BitVec 2) (line : BitVec 48), let l := line.toNat / 64
      (∃ t, exec (.cxlSnoop die ⟨line, none⟩) s = .next t ∧ t.mem = s.mem ∧ t.cc = s.cc ∧
        (t.dieAt die.toNat).lines = (s.dieAt die.toNat).lines.filter fun k => k != l) ∧
      ∀ data : List Byte, hostBase ≤ l * 64 → ∃ t, exec (.cxlSnoop die ⟨line, some data⟩) s = .next t ∧ t.cc = s.cc ∧
        t.bytes (l * 64) (data.take 64).length = data.take 64 ∧
        (∀ p, (p < l * 64 ∨ l * 64 + (data.take 64).length ≤ p) → Memory.read t.mem p = Memory.read s.mem p) ∧
        ∀ d < 4, l ∉ (t.dieAt d).lines) ∧
    (∀ v : BitVec 6,
      (s.msix.fnMask = false → (∀ k < 64, k ≠ v.toNat → s.msix.pending.getLsbD k = true → s.msix.masked.getLsbD k = true) →
        (s.msix.pending.getLsbD v.toNat = true → ∃ t, exec (.msixUnmask (.unmask v)) s = .next t ∧ t.mem = s.mem ∧
          t.cc = s.cc ∧ t.outbox = s.outbox ++ [.msix v.toNat] ∧ t.msix.pending.getLsbD v.toNat = false ∧
          t.msix.masked.getLsbD v.toNat = false) ∧
        (s.msix.pending.getLsbD v.toNat = false → ∃ t, exec (.msixUnmask (.unmask v)) s = .next t ∧ t.mem = s.mem ∧
          t.cc = s.cc ∧ t.outbox = s.outbox ∧ t.msix.masked.getLsbD v.toNat = false)) ∧
      (∃ t, exec (.msixUnmask (.mask v)) s = .next t ∧ t.mem = s.mem ∧ t.cc = s.cc ∧ t.outbox = s.outbox ∧
        t.msix.masked.getLsbD v.toNat = true ∧ t.msix.pending = s.msix.pending)) ∧
    (exec (.msixUnmask (.function true)) s = .next { s with msix := { s.msix with fnMask := true } }) ∧
    (∃ t, exec (.msixUnmask (.function false)) s = .next t ∧ t.mem = s.mem ∧ t.cc = s.cc ∧ t.msix.fnMask = false ∧
      ∀ k < 64, t.msix.pending.getLsbD k = (s.msix.pending.getLsbD k && s.msix.masked.getLsbD k)) ∧
    (∃ t, exec .powerOnReset s = .next t ∧ t.mem = [] ∧ t.cc = ControlCore.reset 0 ∧ t.others = [] ∧ t.regions = [] ∧
      t.trust.bootState = 0 ∧ t.trust.devid = s.trust.devid ∧ t.trust.lcs = s.trust.lcs ∧ t.trust.keys = []) ∧
    (∃ t, exec .cxlPortReset s = .next t ∧ t.mem = s.mem ∧ t.remap = s.remap ∧ t.cc = ControlCore.reset 0 ∧ t.others = [] ∧
      t.trust.lcs = s.trust.lcs ∧ (s.trust.bootState ≠ 3 → t.trust.bootState = 0) ∧
      (s.trust.bootState = 3 → t.trust.bootState = 3 ∧ t.trust.bootCode = s.trust.bootCode)) ∧
    (∀ lcs : BitVec 2, ∃ t, exec (.lifecycleAdvance lcs) s = .next t ∧ t.mem = s.mem ∧ t.cc = s.cc ∧
      t.trust.lcs.toNat = max s.trust.lcs.toNat lcs.toNat) ∧
    (∀ (off : BitVec 64) (size : BitVec 4) (v : BitVec 64),
      let good := (size = 4 ∨ size = 8) ∧ off.toNat % size.toNat = 0
      let early := 0x90000 ≤ off.toNat ∧ off.toNat < 0x90200
      (good → s.trust.bootState = 2 ∨ early →
        exec (.registerWrite off size (.write v)) s = .next (s.devWrite .supervisor true off.toNat size.toNat v.toNat) ∧
        exec (.registerWrite off size .read) s = .next { s with outbox := s.outbox ++
          [.hostData (some (leBytes size.toNat (s.devRead .supervisor off.toNat size.toNat)))] }) ∧
      (good → s.trust.bootState ≠ 2 → ¬early →
        exec (.registerWrite off size (.write v)) s = .next s ∧
        exec (.registerWrite off size .read) s = .next { s with outbox := s.outbox ++
          [.hostData (some (leBytes size.toNat 0))] }) ∧
      (¬good →
        exec (.registerWrite off size (.write v)) s = .next { s with outbox := s.outbox ++ [.abort] } ∧
        exec (.registerWrite off size .read) s = .next { s with outbox := s.outbox ++ [.abort] }))) ∧
  (∀ s : State,
    (s.debugMay 0 = false →
      exec (.debugHalt s.cc.ctxid) s = .next s ∧ exec (.debugResume s.cc.ctxid) s = .next s ∧
      ∀ w, exec (.debugRegisterWrite s.cc.ctxid w) s = .next s) ∧
    (s.debugMay 0 = true →
      (s.cc.run = .running → s.readsDevice s.cc.ctxid = false →
        let stopped := { s.cc with run := .halted, miss := none, held := [], leaving := false, halting := false }
        (s.cc.macroOp = none →
          ∃ t, exec (.debugHalt s.cc.ctxid) s = .next t ∧ t.mem = s.mem ∧ t.cc = stopped) ∧
        ∀ op m, s.cc.macroOp = some (op, m) → ∃ t, exec (.debugHalt s.cc.ctxid) s = .next t ∧ t.mem = s.mem ∧
          t.cc.run = .halted ∧ t.cc.macroOp = none ∧ t.cc.tstep = .ofNat 32 m ∧ t.cc.pc = s.cc.pc ∧ t.cc.x = s.cc.x ∧
          t.cc.v = s.cc.v) ∧
      (s.cc.run = .running → s.readsDevice s.cc.ctxid = true →
        exec (.debugHalt s.cc.ctxid) s = .next { s with cc := { s.cc with halting := true } }) ∧
      (s.cc.run = .halted →
        exec (.debugResume s.cc.ctxid) s = .next { s with cc := { s.cc with run := .running } } ∧
        (∀ (n : XReg) (v : Word), exec (.debugRegisterWrite s.cc.ctxid (.x n v)) s = .next (s.setX n v)) ∧
        (∀ (n : VReg) (data : BitVec 8192) (side : BitVec 1024) (tag : Tag), n.toNat < 48 →
          (0x14 ≤ tag.toNat → exec (.debugRegisterWrite s.cc.ctxid (.v n data side tag)) s = .next s) ∧
          (tag.toNat < 0x14 → ∃ t, exec (.debugRegisterWrite s.cc.ctxid (.v n data side tag)) s = .next t ∧
            t.getV n = ⟨data, side, tag⟩ ∧ (∀ k, k ≠ n → t.getV k = s.getV k) ∧ t.cc.x = s.cc.x ∧ t.cc.m = s.cc.m ∧
            t.mem = s.mem)) ∧
        (∀ (n : BitVec 12) (v : Word), debugCsr n = true → csrValueOk n v = true →
          exec (.debugRegisterWrite s.cc.ctxid (.csr n v)) s = .next (s.csrPut n v)) ∧
        ∀ (n : BitVec 12) (v : Word), csrValueOk n v = false →
          exec (.debugRegisterWrite s.cc.ctxid (.csr n v)) s = .next s)) ∧
    ∀ addr : BitVec 48, let pa := addr.toNat / 32 * 32
      (s.debugMay 1 = true → inCm s.variant pa = true → exec (.debugCmRead addr) s =
        .next { s with outbox := s.outbox ++ [.debugData (if s.poisoned pa 32 then none else some (s.cipher pa))] }) ∧
      (s.debugMay 1 = false → exec (.debugCmRead addr) s = .next s))
end

