-- ==== Sys2Proof/Laws/Exec.lean ====
section
/-! SUPPORT. One arm of `exec` for each instruction: the meaning that it calls. -/

namespace Sys2Proof.Machine

@[simp] theorem exec_add (xd xa xb s) : exec (.add xd xa xb) s = execAdd xd xa xb s := rfl
@[simp] theorem exec_sub (xd xa xb s) : exec (.sub xd xa xb) s = execSub xd xa xb s := rfl
@[simp] theorem exec_and (xd xa xb s) : exec (.and xd xa xb) s = execAnd xd xa xb s := rfl
@[simp] theorem exec_or (xd xa xb s) : exec (.or xd xa xb) s = execOr xd xa xb s := rfl
@[simp] theorem exec_xor (xd xa xb s) : exec (.xor xd xa xb) s = execXor xd xa xb s := rfl
@[simp] theorem exec_sll (xd xa xb s) : exec (.sll xd xa xb) s = execSll xd xa xb s := rfl
@[simp] theorem exec_srl (xd xa xb s) : exec (.srl xd xa xb) s = execSrl xd xa xb s := rfl
@[simp] theorem exec_sra (xd xa xb s) : exec (.sra xd xa xb) s = execSra xd xa xb s := rfl
@[simp] theorem exec_slt (xd xa xb s) : exec (.slt xd xa xb) s = execSlt xd xa xb s := rfl
@[simp] theorem exec_sltu (xd xa xb s) : exec (.sltu xd xa xb) s = execSltu xd xa xb s := rfl
@[simp] theorem exec_min (xd xa xb s) : exec (.min xd xa xb) s = execMin xd xa xb s := rfl
@[simp] theorem exec_max (xd xa xb s) : exec (.max xd xa xb) s = execMax xd xa xb s := rfl
@[simp] theorem exec_minu (xd xa xb s) : exec (.minu xd xa xb) s = execMinu xd xa xb s := rfl
@[simp] theorem exec_maxu (xd xa xb s) : exec (.maxu xd xa xb) s = execMaxu xd xa xb s := rfl
@[simp] theorem exec_mul (xd xa xb s) : exec (.mul xd xa xb) s = execMul xd xa xb s := rfl
@[simp] theorem exec_mulh (xd xa xb s) : exec (.mulh xd xa xb) s = execMulh xd xa xb s := rfl
@[simp] theorem exec_mulhu (xd xa xb s) : exec (.mulhu xd xa xb) s = execMulhu xd xa xb s := rfl
@[simp] theorem exec_div (xd xa xb s) : exec (.div xd xa xb) s = execDiv xd xa xb s := rfl
@[simp] theorem exec_divu (xd xa xb s) : exec (.divu xd xa xb) s = execDivu xd xa xb s := rfl
@[simp] theorem exec_rem (xd xa xb s) : exec (.rem xd xa xb) s = execRem xd xa xb s := rfl
@[simp] theorem exec_remu (xd xa xb s) : exec (.remu xd xa xb) s = execRemu xd xa xb s := rfl
@[simp] theorem exec_csel (xd xa xb s) : exec (.csel xd xa xb) s = execCsel xd xa xb s := rfl
@[simp] theorem exec_clz (xd xa s) : exec (.clz xd xa) s = execClz xd xa s := rfl
@[simp] theorem exec_ctz (xd xa s) : exec (.ctz xd xa) s = execCtz xd xa s := rfl
@[simp] theorem exec_popc (xd xa s) : exec (.popc xd xa) s = execPopc xd xa s := rfl
@[simp] theorem exec_bswap (xd xa s) : exec (.bswap xd xa) s = execBswap xd xa s := rfl
@[simp] theorem exec_addi (xd xa imm s) : exec (.addi xd xa imm) s = execAddi xd xa imm s := rfl
@[simp] theorem exec_andi (xd xa imm s) : exec (.andi xd xa imm) s = execAndi xd xa imm s := rfl
@[simp] theorem exec_ori (xd xa imm s) : exec (.ori xd xa imm) s = execOri xd xa imm s := rfl
@[simp] theorem exec_xori (xd xa imm s) : exec (.xori xd xa imm) s = execXori xd xa imm s := rfl
@[simp] theorem exec_slti (xd xa imm s) : exec (.slti xd xa imm) s = execSlti xd xa imm s := rfl
@[simp] theorem exec_slli (xd xa n s) : exec (.slli xd xa n) s = execSlli xd xa n s := rfl
@[simp] theorem exec_srli (xd xa n s) : exec (.srli xd xa n) s = execSrli xd xa n s := rfl
@[simp] theorem exec_srai (xd xa n s) : exec (.srai xd xa n) s = execSrai xd xa n s := rfl
@[simp] theorem exec_sext (xd xa n s) : exec (.sext xd xa n) s = execSext xd xa n s := rfl
@[simp] theorem exec_zext (xd xa n s) : exec (.zext xd xa n) s = execZext xd xa n s := rfl
@[simp] theorem exec_lui (xd imm s) : exec (.lui xd imm) s = execLui xd imm s := rfl
@[simp] theorem exec_addpc (xd imm s) : exec (.addpc xd imm) s = execAddpc xd imm s := rfl
@[simp] theorem exec_fadd (p rm xd xa xb s) : exec (.fadd p rm xd xa xb) s = execFadd p rm xd xa xb s := rfl
@[simp] theorem exec_fsub (p rm xd xa xb s) : exec (.fsub p rm xd xa xb) s = execFsub p rm xd xa xb s := rfl
@[simp] theorem exec_fmul (p rm xd xa xb s) : exec (.fmul p rm xd xa xb) s = execFmul p rm xd xa xb s := rfl
@[simp] theorem exec_fdiv (p rm xd xa xb s) : exec (.fdiv p rm xd xa xb) s = execFdiv p rm xd xa xb s := rfl
@[simp] theorem exec_fsqrt (p rm xd xa s) : exec (.fsqrt p rm xd xa) s = execFsqrt p rm xd xa s := rfl
@[simp] theorem exec_fmin (p xd xa xb s) : exec (.fmin p xd xa xb) s = execFmin p xd xa xb s := rfl
@[simp] theorem exec_fmax (p xd xa xb s) : exec (.fmax p xd xa xb) s = execFmax p xd xa xb s := rfl
@[simp] theorem exec_fmac (p rm xd xa xb s) : exec (.fmac p rm xd xa xb) s = execFmac p rm xd xa xb s := rfl
@[simp] theorem exec_feq (p xd xa xb s) : exec (.feq p xd xa xb) s = execFeq p xd xa xb s := rfl
@[simp] theorem exec_flt (p xd xa xb s) : exec (.flt p xd xa xb) s = execFlt p xd xa xb s := rfl
@[simp] theorem exec_fle (p xd xa xb s) : exec (.fle p xd xa xb) s = execFle p xd xa xb s := rfl
@[simp] theorem exec_fcvtfi (p rm xd xa s) : exec (.fcvtfi p rm xd xa) s = execFcvtfi p rm xd xa s := rfl
@[simp] theorem exec_fcvtif (p rm xd xa s) : exec (.fcvtif p rm xd xa) s = execFcvtif p rm xd xa s := rfl
@[simp] theorem exec_fcvtsd (p rm xd xa s) : exec (.fcvtsd p rm xd xa) s = execFcvtsd p rm xd xa s := rfl
@[simp] theorem exec_beq (xa xb off s) : exec (.beq xa xb off) s = execBeq xa xb off s := rfl
@[simp] theorem exec_bne (xa xb off s) : exec (.bne xa xb off) s = execBne xa xb off s := rfl
@[simp] theorem exec_blt (xa xb off s) : exec (.blt xa xb off) s = execBlt xa xb off s := rfl
@[simp] theorem exec_bge (xa xb off s) : exec (.bge xa xb off) s = execBge xa xb off s := rfl
@[simp] theorem exec_bltu (xa xb off s) : exec (.bltu xa xb off) s = execBltu xa xb off s := rfl
@[simp] theorem exec_bgeu (xa xb off s) : exec (.bgeu xa xb off) s = execBgeu xa xb off s := rfl
@[simp] theorem exec_bany (ma off s) : exec (.bany ma off) s = execBany ma off s := rfl
@[simp] theorem exec_ball (ma off s) : exec (.ball ma off) s = execBall ma off s := rfl
@[simp] theorem exec_bnone (ma off s) : exec (.bnone ma off) s = execBnone ma off s := rfl
@[simp] theorem exec_jal (xd off s) : exec (.jal xd off) s = execJal xd off s := rfl
@[simp] theorem exec_jalr (xd xa imm s) : exec (.jalr xd xa imm) s = execJalr xd xa imm s := rfl
@[simp] theorem exec_ldb (xd xa imm s) : exec (.ldb xd xa imm) s = execLdb xd xa imm s := rfl
@[simp] theorem exec_ldh (xd xa imm s) : exec (.ldh xd xa imm) s = execLdh xd xa imm s := rfl
@[simp] theorem exec_ldw (xd xa imm s) : exec (.ldw xd xa imm) s = execLdw xd xa imm s := rfl
@[simp] theorem exec_ldd (xd xa imm s) : exec (.ldd xd xa imm) s = execLdd xd xa imm s := rfl
@[simp] theorem exec_ldbz (xd xa imm s) : exec (.ldbz xd xa imm) s = execLdbz xd xa imm s := rfl
@[simp] theorem exec_ldhz (xd xa imm s) : exec (.ldhz xd xa imm) s = execLdhz xd xa imm s := rfl
@[simp] theorem exec_ldwz (xd xa imm s) : exec (.ldwz xd xa imm) s = execLdwz xd xa imm s := rfl
@[simp] theorem exec_lda (xd xa sc s) : exec (.lda xd xa sc) s = execLda xd xa sc s := rfl
@[simp] theorem exec_stb (xs xa imm s) : exec (.stb xs xa imm) s = execStb xs xa imm s := rfl
@[simp] theorem exec_sth (xs xa imm s) : exec (.sth xs xa imm) s = execSth xs xa imm s := rfl
@[simp] theorem exec_stw (xs xa imm s) : exec (.stw xs xa imm) s = execStw xs xa imm s := rfl
@[simp] theorem exec_std (xs xa imm s) : exec (.std xs xa imm) s = execStd xs xa imm s := rfl
@[simp] theorem exec_strel (xs xa sc s) : exec (.strel xs xa sc) s = execStrel xs xa sc s := rfl
@[simp] theorem exec_csrr (xd csr s) : exec (.csrr xd csr) s = execCsrr xd csr s := rfl
@[simp] theorem exec_csrw (xd xa csr s) : exec (.csrw xd xa csr) s = execCsrw xd xa csr s := rfl
@[simp] theorem exec_csrs (xd xa csr s) : exec (.csrs xd xa csr) s = execCsrs xd xa csr s := rfl
@[simp] theorem exec_csrc (xd xa csr s) : exec (.csrc xd xa csr) s = execCsrc xd xa csr s := rfl
@[simp] theorem exec_syscall (s) : exec (.syscall) s = execSyscall s := rfl
@[simp] theorem exec_tret (s) : exec (.tret) s = execTret s := rfl
@[simp] theorem exec_brk (s) : exec (.brk) s = execBrk s := rfl
@[simp] theorem exec_idle (xa s) : exec (.idle xa) s = execIdle xa s := rfl
@[simp] theorem exec_yield (s) : exec (.yield) s = execYield s := rfl
@[simp] theorem exec_exit (s) : exec (.exit) s = execExit s := rfl
@[simp] theorem exec_spawn (xd xa s) : exec (.spawn xd xa) s = execSpawn xd xa s := rfl
@[simp] theorem exec_uiret (s) : exec (.uiret) s = execUiret s := rfl
@[simp] theorem exec_tlbinv (xa xb s) : exec (.tlbinv xa xb) s = execTlbinv xa xb s := rfl
@[simp] theorem exec_lgset (xa s) : exec (.lgset xa) s = execLgset xa s := rfl
@[simp] theorem exec_vadd (vd va b s) : exec (.vadd vd va b) s = execVadd vd va b s := rfl
@[simp] theorem exec_vsub (vd va b s) : exec (.vsub vd va b) s = execVsub vd va b s := rfl
@[simp] theorem exec_vmul (vd va b s) : exec (.vmul vd va b) s = execVmul vd va b s := rfl
@[simp] theorem exec_vmulh (vd va b s) : exec (.vmulh vd va b) s = execVmulh vd va b s := rfl
@[simp] theorem exec_vdiv (vd va b s) : exec (.vdiv vd va b) s = execVdiv vd va b s := rfl
@[simp] theorem exec_vmin (vd va b s) : exec (.vmin vd va b) s = execVmin vd va b s := rfl
@[simp] theorem exec_vmax (vd va b s) : exec (.vmax vd va b) s = execVmax vd va b s := rfl
@[simp] theorem exec_vand (vd va b s) : exec (.vand vd va b) s = execVand vd va b s := rfl
@[simp] theorem exec_vor (vd va b s) : exec (.vor vd va b) s = execVor vd va b s := rfl
@[simp] theorem exec_vxor (vd va b s) : exec (.vxor vd va b) s = execVxor vd va b s := rfl
@[simp] theorem exec_vsll (vd va b s) : exec (.vsll vd va b) s = execVsll vd va b s := rfl
@[simp] theorem exec_vsrl (vd va b s) : exec (.vsrl vd va b) s = execVsrl vd va b s := rfl
@[simp] theorem exec_vsra (vd va b s) : exec (.vsra vd va b) s = execVsra vd va b s := rfl
@[simp] theorem exec_vadds (vd va b s) : exec (.vadds vd va b) s = execVadds vd va b s := rfl
@[simp] theorem exec_vsubs (vd va b s) : exec (.vsubs vd va b) s = execVsubs vd va b s := rfl
@[simp] theorem exec_vabsd (vd va b s) : exec (.vabsd vd va b) s = execVabsd vd va b s := rfl
@[simp] theorem exec_vmac (vd va b s) : exec (.vmac vd va b) s = execVmac vd va b s := rfl
@[simp] theorem exec_vnmac (vd va b s) : exec (.vnmac vd va b) s = execVnmac vd va b s := rfl
@[simp] theorem exec_vdot4 (vd va vb s) : exec (.vdot4 vd va vb) s = execVdot4 vd va vb s := rfl
@[simp] theorem exec_vneg (vd va s) : exec (.vneg vd va) s = execVneg vd va s := rfl
@[simp] theorem exec_vabs (vd va s) : exec (.vabs vd va) s = execVabs vd va s := rfl
@[simp] theorem exec_vsqrt (vd va s) : exec (.vsqrt vd va) s = execVsqrt vd va s := rfl
@[simp] theorem exec_vrcp (vd va s) : exec (.vrcp vd va) s = execVrcp vd va s := rfl
@[simp] theorem exec_vrsqrt (vd va s) : exec (.vrsqrt vd va) s = execVrsqrt vd va s := rfl
@[simp] theorem exec_vexp2 (vd va s) : exec (.vexp2 vd va) s = execVexp2 vd va s := rfl
@[simp] theorem exec_vlog2 (vd va s) : exec (.vlog2 vd va) s = execVlog2 vd va s := rfl
@[simp] theorem exec_vclass (vd va s) : exec (.vclass vd va) s = execVclass vd va s := rfl
@[simp] theorem exec_vmov (vd va s) : exec (.vmov vd va) s = execVmov vd va s := rfl
@[simp] theorem exec_vbcast (vd tag b s) : exec (.vbcast vd tag b) s = execVbcast vd tag b s := rfl
@[simp] theorem exec_vtag (vd va tag s) : exec (.vtag vd va tag) s = execVtag vd va tag s := rfl
@[simp] theorem exec_vsxnorm (vd va s) : exec (.vsxnorm vd va) s = execVsxnorm vd va s := rfl
@[simp] theorem exec_vcmpeq (md va b s) : exec (.vcmpeq md va b) s = execVcmpeq md va b s := rfl
@[simp] theorem exec_vcmpne (md va b s) : exec (.vcmpne md va b) s = execVcmpne md va b s := rfl
@[simp] theorem exec_vcmplt (md va b s) : exec (.vcmplt md va b) s = execVcmplt md va b s := rfl
@[simp] theorem exec_vcmple (md va b s) : exec (.vcmple md va b) s = execVcmple md va b s := rfl
@[simp] theorem exec_vcmpgt (md va b s) : exec (.vcmpgt md va b) s = execVcmpgt md va b s := rfl
@[simp] theorem exec_vcmpge (md va b s) : exec (.vcmpge md va b) s = execVcmpge md va b s := rfl
@[simp] theorem exec_vcmpun (md va b s) : exec (.vcmpun md va b) s = execVcmpun md va b s := rfl
@[simp] theorem exec_vcvt (vd va tag rm part s) : exec (.vcvt vd va tag rm part) s = execVcvt vd va tag rm part s := rfl
@[simp] theorem exec_vcvtsc (vd va vb rm part s) : exec (.vcvtsc vd va vb rm part) s = execVcvtsc vd va vb rm part s := rfl
@[simp] theorem exec_vslup (vd va b s) : exec (.vslup vd va b) s = execVslup vd va b s := rfl
@[simp] theorem exec_vsldn (vd va b s) : exec (.vsldn vd va b) s = execVsldn vd va b s := rfl
@[simp] theorem exec_vsl1up (vd va xb s) : exec (.vsl1up vd va xb) s = execVsl1up vd va xb s := rfl
@[simp] theorem exec_vsl1dn (vd va xb s) : exec (.vsl1dn vd va xb) s = execVsl1dn vd va xb s := rfl
@[simp] theorem exec_vperm (vd va vb s) : exec (.vperm vd va vb) s = execVperm vd va vb s := rfl
@[simp] theorem exec_vcomp (vd va mb s) : exec (.vcomp vd va mb) s = execVcomp vd va mb s := rfl
@[simp] theorem exec_viota (vd tag mb s) : exec (.viota vd tag mb) s = execViota vd tag mb s := rfl
@[simp] theorem exec_vsel (vd va b s) : exec (.vsel vd va b) s = execVsel vd va b s := rfl
@[simp] theorem exec_vext (xd va b s) : exec (.vext xd va b) s = execVext xd va b s := rfl
@[simp] theorem exec_vins (vd xa b s) : exec (.vins vd xa b) s = execVins vd xa b s := rfl
@[simp] theorem exec_vredsumS (vd va vb s) : exec (.vredsumS vd va vb) s = execVredsumS vd va vb s := rfl
@[simp] theorem exec_vredsumF (vd va vb s) : exec (.vredsumF vd va vb) s = execVredsumF vd va vb s := rfl
@[simp] theorem exec_vredmax (vd va vb s) : exec (.vredmax vd va vb) s = execVredmax vd va vb s := rfl
@[simp] theorem exec_vredmin (vd va vb s) : exec (.vredmin vd va vb) s = execVredmin vd va vb s := rfl
@[simp] theorem exec_vredand (vd va vb s) : exec (.vredand vd va vb) s = execVredand vd va vb s := rfl
@[simp] theorem exec_vredor (vd va vb s) : exec (.vredor vd va vb) s = execVredor vd va vb s := rfl
@[simp] theorem exec_vredxor (vd va vb s) : exec (.vredxor vd va vb) s = execVredxor vd va vb s := rfl
@[simp] theorem exec_vargmax (xd va s) : exec (.vargmax xd va) s = execVargmax xd va s := rfl
@[simp] theorem exec_vargmin (xd va s) : exec (.vargmin xd va) s = execVargmin xd va s := rfl
@[simp] theorem exec_vbestMax (vv vi vcv vci s) : exec (.vbestMax vv vi vcv vci) s = execVbestMax vv vi vcv vci s := rfl
@[simp] theorem exec_vbestMin (vv vi vcv vci s) : exec (.vbestMin vv vi vcv vci) s = execVbestMin vv vi vcv vci s := rfl
@[simp] theorem exec_mand (md ma mb s) : exec (.mand md ma mb) s = execMand md ma mb s := rfl
@[simp] theorem exec_mor (md ma mb s) : exec (.mor md ma mb) s = execMor md ma mb s := rfl
@[simp] theorem exec_mxor (md ma mb s) : exec (.mxor md ma mb) s = execMxor md ma mb s := rfl
@[simp] theorem exec_mandn (md ma mb s) : exec (.mandn md ma mb) s = execMandn md ma mb s := rfl
@[simp] theorem exec_mnot (md ma s) : exec (.mnot md ma) s = execMnot md ma s := rfl
@[simp] theorem exec_mmov (md ma s) : exec (.mmov md ma) s = execMmov md ma s := rfl
@[simp] theorem exec_mpopc (xd ma s) : exec (.mpopc xd ma) s = execMpopc xd ma s := rfl
@[simp] theorem exec_mfirst (xd ma s) : exec (.mfirst xd ma) s = execMfirst xd ma s := rfl
@[simp] theorem exec_msetall (md s) : exec (.msetall md) s = execMsetall md s := rfl
@[simp] theorem exec_mclr (md s) : exec (.mclr md) s = execMclr md s := rfl
@[simp] theorem exec_loop (xa off s) : exec (.loop xa off) s = execLoop xa off s := rfl
@[simp] theorem exec_loopi (xa off s) : exec (.loopi xa off) s = execLoopi xa off s := rfl
@[simp] theorem exec_setvl (xd xa w s) : exec (.setvl xd xa w) s = execSetvl xd xa w s := rfl
@[simp] theorem exec_next (xd off s) : exec (.next xd off) s = execNext xd off s := rfl
@[simp] theorem exec_tcfg (td xa s) : exec (.tcfg td xa) s = execTcfg td xa s := rfl
@[simp] theorem exec_trel (td s) : exec (.trel td) s = execTrel td s := rfl
@[simp] theorem exec_tzero (td s) : exec (.tzero td) s = execTzero td s := rfl
@[simp] theorem exec_topa (td va vb s) : exec (.topa td va vb) s = execTopa td va vb s := rfl
@[simp] theorem exec_tops (td va vb s) : exec (.tops td va vb) s = execTops td va vb s := rfl
@[simp] theorem exec_tmv (td va vd s) : exec (.tmv td va vd) s = execTmv td va vd s := rfl
@[simp] theorem exec_tmvt (td va vd s) : exec (.tmvt td va vd) s = execTmvt td va vd s := rfl
@[simp] theorem exec_tmmaS (td xa ts s) : exec (.tmmaS td xa ts) s = execTmmaS td xa ts s := rfl
@[simp] theorem exec_tmmaF (td xa ts s) : exec (.tmmaF td xa ts) s = execTmmaF td xa ts s := rfl
@[simp] theorem exec_trecomp (td s) : exec (.trecomp td) s = execTrecomp td s := rfl
@[simp] theorem exec_tdense (td s) : exec (.tdense td) s = execTdense td s := rfl
@[simp] theorem exec_trank (td xd s) : exec (.trank td xd) s = execTrank td xd s := rfl
@[simp] theorem exec_trdrow (td vd xb s) : exec (.trdrow td vd xb) s = execTrdrow td vd xb s := rfl
@[simp] theorem exec_twrrow (td va xb s) : exec (.twrrow td va xb) s = execTwrrow td va xb s := rfl
@[simp] theorem exec_tsave (td xa s) : exec (.tsave td xa) s = execTsave td xa s := rfl
@[simp] theorem exec_tload (td xa s) : exec (.tload td xa) s = execTload td xa s := rfl
@[simp] theorem exec_tscale (td va s) : exec (.tscale td va) s = execTscale td va s := rfl
@[simp] theorem exec_tadd (td ts s) : exec (.tadd td ts) s = execTadd td ts s := rfl
@[simp] theorem exec_vld (vr xa sc s) : exec (.vld vr xa sc) s = execVld vr xa sc s := rfl
@[simp] theorem exec_vlds (vr xa sc s) : exec (.vlds vr xa sc) s = execVlds vr xa sc s := rfl
@[simp] theorem exec_vldx (vr xa vi sc s) : exec (.vldx vr xa vi sc) s = execVldx vr xa vi sc s := rfl
@[simp] theorem exec_vldff (vr xa sc s) : exec (.vldff vr xa sc) s = execVldff vr xa sc s := rfl
@[simp] theorem exec_vst (vr xa sc s) : exec (.vst vr xa sc) s = execVst vr xa sc s := rfl
@[simp] theorem exec_vsts (vr xa sc s) : exec (.vsts vr xa sc) s = execVsts vr xa sc s := rfl
@[simp] theorem exec_vstx (vr xa vi sc s) : exec (.vstx vr xa vi sc) s = execVstx vr xa vi sc s := rfl
@[simp] theorem exec_vamoaddf (vr xa vi sc s) : exec (.vamoaddf vr xa vi sc) s = execVamoaddf vr xa vi sc s := rfl
@[simp] theorem exec_vsave (vr xa sc s) : exec (.vsave vr xa sc) s = execVsave vr xa sc s := rfl
@[simp] theorem exec_vrestore (vr xa sc s) : exec (.vrestore vr xa sc) s = execVrestore vr xa sc s := rfl
@[simp] theorem exec_msave (mr xa sc s) : exec (.msave mr xa sc) s = execMsave mr xa sc s := rfl
@[simp] theorem exec_mrestore (mr xa sc s) : exec (.mrestore mr xa sc) s = execMrestore mr xa sc s := rfl
@[simp] theorem exec_ring (xd xa xb s) : exec (.ring xd xa xb) s = execRing xd xa xb s := rfl
@[simp] theorem exec_amoadd (xd xa xb sz aq rl sc s) : exec (.amoadd xd xa xb sz aq rl sc) s = execAmoadd xd xa xb sz aq rl sc s := rfl
@[simp] theorem exec_amoaddf (xd xa xb sz aq rl sc s) : exec (.amoaddf xd xa xb sz aq rl sc) s = execAmoaddf xd xa xb sz aq rl sc s := rfl
@[simp] theorem exec_amoand (xd xa xb sz aq rl sc s) : exec (.amoand xd xa xb sz aq rl sc) s = execAmoand xd xa xb sz aq rl sc s := rfl
@[simp] theorem exec_amoor (xd xa xb sz aq rl sc s) : exec (.amoor xd xa xb sz aq rl sc) s = execAmoor xd xa xb sz aq rl sc s := rfl
@[simp] theorem exec_amoxor (xd xa xb sz aq rl sc s) : exec (.amoxor xd xa xb sz aq rl sc) s = execAmoxor xd xa xb sz aq rl sc s := rfl
@[simp] theorem exec_amomax (xd xa xb sz aq rl sc s) : exec (.amomax xd xa xb sz aq rl sc) s = execAmomax xd xa xb sz aq rl sc s := rfl
@[simp] theorem exec_amomin (xd xa xb sz aq rl sc s) : exec (.amomin xd xa xb sz aq rl sc) s = execAmomin xd xa xb sz aq rl sc s := rfl
@[simp] theorem exec_amomaxu (xd xa xb sz aq rl sc s) : exec (.amomaxu xd xa xb sz aq rl sc) s = execAmomaxu xd xa xb sz aq rl sc s := rfl
@[simp] theorem exec_amominu (xd xa xb sz aq rl sc s) : exec (.amominu xd xa xb sz aq rl sc) s = execAmominu xd xa xb sz aq rl sc s := rfl
@[simp] theorem exec_amoswap (xd xa xb sz aq rl sc s) : exec (.amoswap xd xa xb sz aq rl sc) s = execAmoswap xd xa xb sz aq rl sc s := rfl
@[simp] theorem exec_amocas (xd xa xb sz aq rl sc s) : exec (.amocas xd xa xb sz aq rl sc) s = execAmocas xd xa xb sz aq rl sc s := rfl
@[simp] theorem exec_fence (sc s) : exec (.fence sc) s = execFence sc s := rfl
@[simp] theorem exec_vfence (sc s) : exec (.vfence sc) s = execVfence sc s := rfl
@[simp] theorem exec_vfenceBar (xd xa s) : exec (.vfenceBar xd xa) s = execVfenceBar xd xa s := rfl
@[simp] theorem exec_barwait (xa xb s) : exec (.barwait xa xb) s = execBarwait xa xb s := rfl
@[simp] theorem exec_barcfg (xd xa xb s) : exec (.barcfg xd xa xb) s = execBarcfg xd xa xb s := rfl
@[simp] theorem exec_cmst (vr xa s) : exec (.cmst vr xa) s = execCmst vr xa s := rfl
@[simp] theorem exec_cmstx (vr xa vi s) : exec (.cmstx vr xa vi) s = execCmstx vr xa vi s := rfl
@[simp] theorem exec_cmzero (xn xa s) : exec (.cmzero xn xa) s = execCmzero xn xa s := rfl
@[simp] theorem exec_qdot (xd xdesc vq xreply s) : exec (.qdot xd xdesc vq xreply) s = execQdot xd xdesc vq xreply s := rfl
@[simp] theorem exec_qfsum (xd xdesc xreply s) : exec (.qfsum xd xdesc xreply) s = execQfsum xd xdesc xreply s := rfl
@[simp] theorem exec_qwsum (xd xdesc vq xreply s) : exec (.qwsum xd xdesc vq xreply) s = execQwsum xd xdesc vq xreply s := rfl
@[simp] theorem exec_qmax (xd xdesc xreply s) : exec (.qmax xd xdesc xreply) s = execQmax xd xdesc xreply s := rfl
@[simp] theorem exec_qmin (xd xdesc xreply s) : exec (.qmin xd xdesc xreply) s = execQmin xd xdesc xreply s := rfl
@[simp] theorem exec_qwin (xd xdesc vq xreply s) : exec (.qwin xd xdesc vq xreply) s = execQwin xd xdesc vq xreply s := rfl
@[simp] theorem exec_qbscore (xd xdesc vq xreply s) : exec (.qbscore xd xdesc vq xreply) s = execQbscore xd xdesc vq xreply s := rfl
@[simp] theorem exec_qcount (xd xdesc xreply s) : exec (.qcount xd xdesc xreply) s = execQcount xd xdesc xreply s := rfl
@[simp] theorem exec_qcust (xd xdesc vq xreply s) : exec (.qcust xd xdesc vq xreply) s = execQcust xd xdesc vq xreply s := rfl
@[simp] theorem exec_cmmov (xd xa xb s) : exec (.cmmov xd xa xb) s = execCmmov xd xa xb s := rfl
@[simp] theorem exec_cmseal (xd xa xb s) : exec (.cmseal xd xa xb) s = execCmseal xd xa xb s := rfl
@[simp] theorem exec_cmopen (xd xa xb s) : exec (.cmopen xd xa xb) s = execCmopen xd xa xb s := rfl
@[simp] theorem exec_shpush (vq vs vw s) : exec (.shpush vq vs vw) s = execShpush vq vs vw s := rfl
@[simp] theorem exec_shwait (xd xa xb s) : exec (.shwait xd xa xb) s = execShwait xd xa xb s := rfl
@[simp] theorem exec_shdone (xd xa s) : exec (.shdone xd xa) s = execShdone xd xa s := rfl
@[simp] theorem exec_shcfg (xd xa xb s) : exec (.shcfg xd xa xb) s = execShcfg xd xa xb s := rfl
@[simp] theorem exec_shcfgDrain (xd xa s) : exec (.shcfgDrain xd xa) s = execShcfgDrain xd xa s := rfl
@[simp] theorem exec_shstat (xd xa s) : exec (.shstat xd xa) s = execShstat xd xa s := rfl
@[simp] theorem exec_vsend (vs va xb s) : exec (.vsend vs va xb) s = execVsend vs va xb s := rfl
@[simp] theorem exec_job (xd xa s) : exec (.job xd xa) s = execJob xd xa s := rfl
@[simp] theorem exec_jobchk (xd xa s) : exec (.jobchk xd xa) s = execJobchk xd xa s := rfl
@[simp] theorem exec_wait (l sl c t q s) : exec (.wait l sl c t q) s = execWait l sl c t q s := rfl
@[simp] theorem exec_hardPreemption (cc s) : exec (.hardPreemption cc) s = execHardPreemption cc s := rfl
@[simp] theorem exec_laneShapeChange (core s) : exec (.laneShapeChange core) s = execLaneShapeChange core s := rfl
@[simp] theorem exec_heddleGrant (core heads costs s) : exec (.heddleGrant core heads costs) s = execHeddleGrant core heads costs s := rfl
@[simp] theorem exec_regionLaunch (rcb rec s) : exec (.regionLaunch rcb rec) s = execRegionLaunch rcb rec s := rfl
@[simp] theorem exec_rcbCheck (rcb s) : exec (.rcbCheck rcb) s = execRcbCheck rcb s := rfl
@[simp] theorem exec_regionPlacement (rcb first s) : exec (.regionPlacement rcb first) s = execRegionPlacement rcb first s := rfl
@[simp] theorem exec_regionRetire (rcb s) : exec (.regionRetire rcb) s = execRegionRetire rcb s := rfl
@[simp] theorem exec_rsTerminateRegion (rcb s) : exec (.rsTerminateRegion rcb) s = execRsTerminateRegion rcb s := rfl
@[simp] theorem exec_rsTerminateContext (rcb ctx s) : exec (.rsTerminateContext rcb ctx) s = execRsTerminateContext rcb ctx s := rfl
@[simp] theorem exec_rsEvict (rcb s) : exec (.rsEvict rcb) s = execRsEvict rcb s := rfl
@[simp] theorem exec_terminationEnd (rcb s) : exec (.terminationEnd rcb) s = execTerminationEnd rcb s := rfl
@[simp] theorem exec_waitReturn (cc s) : exec (.waitReturn cc) s = execWaitReturn cc s := rfl
@[simp] theorem exec_barwaitReturn (cc s) : exec (.barwaitReturn cc) s = execBarwaitReturn cc s := rfl
@[simp] theorem exec_barrierStall (slot s) : exec (.barrierStall slot) s = execBarrierStall slot s := rfl
@[simp] theorem exec_idleTimeout (cc s) : exec (.idleTimeout cc) s = execIdleTimeout cc s := rfl
@[simp] theorem exec_uiDelivery (cc s) : exec (.uiDelivery cc) s = execUiDelivery cc s := rfl
@[simp] theorem exec_loadComplete (cc s) : exec (.loadComplete cc) s = execLoadComplete cc s := rfl
@[simp] theorem exec_storePerformed (cc s) : exec (.storePerformed cc) s = execStorePerformed cc s := rfl
@[simp] theorem exec_cmStorePerformed (cc s) : exec (.cmStorePerformed cc) s = execCmStorePerformed cc s := rfl
@[simp] theorem exec_queryCompletion (cc serial s) : exec (.queryCompletion cc serial) s = execQueryCompletion cc serial s := rfl
@[simp] theorem exec_sheafAgeExpiry (q s) : exec (.sheafAgeExpiry q) s = execSheafAgeExpiry q s := rfl
@[simp] theorem exec_sheafFiring (cluster s) : exec (.sheafFiring cluster) s = execSheafFiring cluster s := rfl
@[simp] theorem exec_sheafDelivery (q s) : exec (.sheafDelivery q) s = execSheafDelivery q s := rfl
@[simp] theorem exec_jobStart (cc token s) : exec (.jobStart cc token) s = execJobStart cc token s := rfl
@[simp] theorem exec_jobCompletion (cc token s) : exec (.jobCompletion cc token) s = execJobCompletion cc token s := rfl
@[simp] theorem exec_tileMacroStep (core s) : exec (.tileMacroStep core) s = execTileMacroStep core s := rfl
@[simp] theorem exec_pageWalk (cc va s) : exec (.pageWalk cc va) s = execPageWalk cc va s := rfl
@[simp] theorem exec_walkComplete (cluster s) : exec (.walkComplete cluster) s = execWalkComplete cluster s := rfl
@[simp] theorem exec_atomicRequest (cluster s) : exec (.atomicRequest cluster) s = execAtomicRequest cluster s := rfl
@[simp] theorem exec_dieWriteArrival (die src s0 s1 s2 s3 s) : exec (.dieWriteArrival die src s0 s1 s2 s3) s = execDieWriteArrival die src s0 s1 s2 s3 s := rfl
@[simp] theorem exec_dieWriteDeliver (die s) : exec (.dieWriteDeliver die) s = execDieWriteDeliver die s := rfl
@[simp] theorem exec_cmInstall (handle s) : exec (.cmInstall handle) s = execCmInstall handle s := rfl
@[simp] theorem exec_cmRemove (handle s) : exec (.cmRemove handle) s = execCmRemove handle s := rfl
@[simp] theorem exec_cmRemoveDone (s) : exec (.cmRemoveDone) s = execCmRemoveDone s := rfl
@[simp] theorem exec_cmReadBack (handle s) : exec (.cmReadBack handle) s = execCmReadBack handle s := rfl
@[simp] theorem exec_cmmovDone (handle s) : exec (.cmmovDone handle) s = execCmmovDone handle s := rfl
@[simp] theorem exec_cmsealDone (handle s) : exec (.cmsealDone handle) s = execCmsealDone handle s := rfl
@[simp] theorem exec_cmopenDone (handle s) : exec (.cmopenDone handle) s = execCmopenDone handle s := rfl
@[simp] theorem exec_activation (bank row s) : exec (.activation bank row) s = execActivation bank row s := rfl
@[simp] theorem exec_trackerWindowClear (s) : exec (.trackerWindowClear) s = execTrackerWindowClear s := rfl
@[simp] theorem exec_refresh (bank burst s) : exec (.refresh bank burst) s = execRefresh bank burst s := rfl
@[simp] theorem exec_remapMove (region s) : exec (.remapMove region) s = execRemapMove region s := rfl
@[simp] theorem exec_remapMoveEnd (region s) : exec (.remapMoveEnd region) s = execRemapMoveEnd region s := rfl
@[simp] theorem exec_divisorChange (d s) : exec (.divisorChange d) s = execDivisorChange d s := rfl
@[simp] theorem exec_computeModeEntry (ch s) : exec (.computeModeEntry ch) s = execComputeModeEntry ch s := rfl
@[simp] theorem exec_nlbExpiry (ch s) : exec (.nlbExpiry ch) s = execNlbExpiry ch s := rfl
@[simp] theorem exec_normalModeRequest (ch s) : exec (.normalModeRequest ch) s = execNormalModeRequest ch s := rfl
@[simp] theorem exec_normalModeDone (ch s) : exec (.normalModeDone ch) s = execNormalModeDone ch s := rfl
@[simp] theorem exec_meshPacket (router packet s) : exec (.meshPacket router packet) s = execMeshPacket router packet s := rfl
@[simp] theorem exec_tillerJob (ch cc serial s) : exec (.tillerJob ch cc serial) s = execTillerJob ch cc serial s := rfl
@[simp] theorem exec_tillerDmaGo (ch row ctl s) : exec (.tillerDmaGo ch row ctl) s = execTillerDmaGo ch row ctl s := rfl
@[simp] theorem exec_tillerDmaDone (ch s) : exec (.tillerDmaDone ch) s = execTillerDmaDone ch s := rfl
@[simp] theorem exec_replypush (ch data s) : exec (.replypush ch data) s = execReplypush ch data s := rfl
@[simp] theorem exec_replyend (ch v s) : exec (.replyend ch v) s = execReplyend ch v s := rfl
@[simp] theorem exec_tillerTimeout (ch s) : exec (.tillerTimeout ch) s = execTillerTimeout ch s := rfl
@[simp] theorem exec_tillerFwLoad (ctl s) : exec (.tillerFwLoad ctl) s = execTillerFwLoad ctl s := rfl
@[simp] theorem exec_tillerFwLoadDone (s) : exec (.tillerFwLoadDone) s = execTillerFwLoadDone s := rfl
@[simp] theorem exec_flitReceive (port flit s) : exec (.flitReceive port flit) s = execFlitReceive port flit s := rfl
@[simp] theorem exec_ackTimer (port s) : exec (.ackTimer port) s = execAckTimer port s := rfl
@[simp] theorem exec_linkRetrain (port s) : exec (.linkRetrain port) s = execLinkRetrain port s := rfl
@[simp] theorem exec_linkDown (port s) : exec (.linkDown port) s = execLinkDown port s := rfl
@[simp] theorem exec_readRequest (src tag addr units s) : exec (.readRequest src tag addr units) s = execReadRequest src tag addr units s := rfl
@[simp] theorem exec_readResponse (src tag data s) : exec (.readResponse src tag data) s = execReadResponse src tag data s := rfl
@[simp] theorem exec_peerWrite (src tag addr data s) : exec (.peerWrite src tag addr data) s = execPeerWrite src tag addr data s := rfl
@[simp] theorem exec_writeAcknowledgement (src tag s) : exec (.writeAcknowledgement src tag) s = execWriteAcknowledgement src tag s := rfl
@[simp] theorem exec_trainElements (src code data s) : exec (.trainElements src code data) s = execTrainElements src code data s := rfl
@[simp] theorem exec_trainTail (src tag counter count s) : exec (.trainTail src tag counter count) s = execTrainTail src tag counter count s := rfl
@[simp] theorem exec_tailAcknowledgement (src tag s) : exec (.tailAcknowledgement src tag) s = execTailAcknowledgement src tag s := rfl
@[simp] theorem exec_collectiveData (src tag msg s) : exec (.collectiveData src tag msg) s = execCollectiveData src tag msg s := rfl
@[simp] theorem exec_routeWrite (node v s) : exec (.routeWrite node v) s = execRouteWrite node v s := rfl
@[simp] theorem exec_routeApply (node s) : exec (.routeApply node) s = execRouteApply node s := rfl
@[simp] theorem exec_hostMemRead (off n s) : exec (.hostMemRead off n) s = execHostMemRead off n s := rfl
@[simp] theorem exec_hostMemWrite (off data s) : exec (.hostMemWrite off data) s = execHostMemWrite off data s := rfl
@[simp] theorem exec_cxlSnoop (die line s) : exec (.cxlSnoop die line) s = execCxlSnoop die line s := rfl
@[simp] theorem exec_powerOnReset (s) : exec (.powerOnReset) s = execPowerOnReset s := rfl
@[simp] theorem exec_cxlPortReset (s) : exec (.cxlPortReset) s = execCxlPortReset s := rfl
@[simp] theorem exec_bootLoad (cmd s) : exec (.bootLoad cmd) s = execBootLoad cmd s := rfl
@[simp] theorem exec_bootComplete (s) : exec (.bootComplete) s = execBootComplete s := rfl
@[simp] theorem exec_verify (s) : exec (.verify) s = execVerify s := rfl
@[simp] theorem exec_keyload (s) : exec (.keyload) s = execKeyload s := rfl
@[simp] theorem exec_keywipe (s) : exec (.keywipe) s = execKeywipe s := rfl
@[simp] theorem exec_keywipeZeroise (s) : exec (.keywipeZeroise) s = execKeywipeZeroise s := rfl
@[simp] theorem exec_dbgopen (s) : exec (.dbgopen) s = execDbgopen s := rfl
@[simp] theorem exec_extend (s) : exec (.extend) s = execExtend s := rfl
@[simp] theorem exec_attest (s) : exec (.attest) s = execAttest s := rfl
@[simp] theorem exec_debugHalt (cc s) : exec (.debugHalt cc) s = execDebugHalt cc s := rfl
@[simp] theorem exec_debugRegisterWrite (cc w s) : exec (.debugRegisterWrite cc w) s = execDebugRegisterWrite cc w s := rfl
@[simp] theorem exec_debugResume (cc s) : exec (.debugResume cc) s = execDebugResume cc s := rfl
@[simp] theorem exec_debugCmRead (addr s) : exec (.debugCmRead addr) s = execDebugCmRead addr s := rfl
@[simp] theorem exec_registerWrite (off size acc s) : exec (.registerWrite off size acc) s = execRegisterWrite off size acc s := rfl
@[simp] theorem exec_notAnInstruction (w s) : exec (.notAnInstruction w) s = execNotAnInstruction w s := rfl
@[simp] theorem exec_linkUp (port peer s) : exec (.linkUp port peer) s = execLinkUp port peer s := rfl
@[simp] theorem exec_lifecycleAdvance (lcs s) : exec (.lifecycleAdvance lcs) s = execLifecycleAdvance lcs s := rfl
@[simp] theorem exec_msixUnmask (set s) : exec (.msixUnmask set) s = execMsixUnmask set s := rfl

end Sys2Proof.Machine
end

