-- ==== Sys2Proof/Laws/Memory.lean ====
section
/-! SUPPORT. Tables and memory: reading after writing, and the canonical form, which every operation on them keeps. -/

namespace Sys2Proof.Machine

/-! ### The canonical form, once as a property of all entries -/

section
variable {α : Type} [DecidableEq α] (d : α)

theorem twf_cons (p : Nat × α) (t : Table α) :
    twf d (p :: t) = true ↔ p.2 ≠ d ∧ (∀ q ∈ t, p.1 < q.1) ∧ twf d t = true := by
  induction t generalizing p with
  | nil => simp [twf]
  | cons q r ih =>
    simp only [twf, Bool.and_eq_true, decide_eq_true_eq, ih q, List.mem_cons, forall_eq_or_imp]
    constructor
    · rintro ⟨⟨hp, hlt⟩, hq, hr, hw⟩
      exact ⟨hp, ⟨hlt, fun x hx => lt_trans hlt (hr x hx)⟩, hq, hr, hw⟩
    · rintro ⟨hp, ⟨hlt, _⟩, hq, hr, hw⟩
      exact ⟨⟨hp, hlt⟩, hq, hr, hw⟩

theorem twf_tail {p : Nat × α} {t : Table α} (h : twf d (p :: t) = true) : twf d t = true := ((twf_cons d p t).1 h).2.2

omit [DecidableEq α] in
/-- A key below every key of a table reads as the default. -/
theorem tget_of_lt (t : Table α) (k : Nat) (h : ∀ q ∈ t, k < q.1) : tget d t k = d := by
  induction t with
  | nil => rfl
  | cons p r ih =>
    have hp : p.1 ≠ k := Nat.ne_of_gt (h p (by simp))
    simp [tget, hp, ih fun q hq => h q (by simp [hq])]

/-! ### Removing a key -/

omit [DecidableEq α] in
theorem mem_tdel (t : Table α) (k : Nat) (q : Nat × α) (h : q ∈ tdel t k) : q ∈ t := by
  induction t with
  | nil => simp [tdel] at h
  | cons p r ih =>
    simp only [tdel] at h
    split at h
    · simp [ih h]
    · rcases List.mem_cons.1 h with h | h
      · simp [h]
      · simp [ih h]

theorem tdel_wf (t : Table α) (k : Nat) (h : twf d t = true) : twf d (tdel t k) = true := by
  induction t with
  | nil => rfl
  | cons p r ih =>
    obtain ⟨hp, hr, hw⟩ := (twf_cons d p r).1 h
    simp only [tdel]
    split
    · exact ih hw
    · exact (twf_cons d _ _).2 ⟨hp, fun q hq => hr q (mem_tdel r k q hq), ih hw⟩

omit [DecidableEq α] in
theorem tget_tdel (t : Table α) (k k' : Nat) :
    tget d (tdel t k) k' = if k' = k then d else tget d t k' := by
  induction t with
  | nil => simp [tdel, tget]
  | cons p r ih =>
    simp only [tdel]
    by_cases e : p.1 = k
    · subst e
      simp only [beq_self_eq_true, if_true, ih]
      by_cases e' : k' = p.1
      · simp [e']
      · have : p.1 ≠ k' := fun q => e' q.symm
        simp [e', tget, this]
    · have e1 : (p.1 == k) = false := by simp [e]
      simp only [e1, Bool.false_eq_true, if_false, tget, ih]
      by_cases e' : p.1 = k'
      · have : k' ≠ k := fun q => e (e'.trans q)
        simp [e', this]
      · simp [e']

/-! ### Setting a key -/

omit [DecidableEq α] in
theorem mem_tins (t : Table α) (k : Nat) (v : α) (q : Nat × α) (h : q ∈ tins t k v) : q = (k, v) ∨ q ∈ t := by
  induction t with
  | nil => simpa [tins] using h
  | cons p r ih =>
    simp only [tins] at h
    split at h
    · simpa using h
    · split at h
      · rcases List.mem_cons.1 h with h | h
        · exact .inl h
        · exact .inr (by simp [h])
      · rcases List.mem_cons.1 h with h | h
        · exact .inr (by simp [h])
        · rcases ih h with h | h
          · exact .inl h
          · exact .inr (by simp [h])

theorem tins_wf (t : Table α) (k : Nat) (v : α) (hv : v ≠ d) (h : twf d t = true) : twf d (tins t k v) = true := by
  induction t with
  | nil => simp [tins, twf, hv]
  | cons p r ih =>
    obtain ⟨hp, hr, hw⟩ := (twf_cons d p r).1 h
    simp only [tins]
    split
    case isTrue hk =>
      refine (twf_cons d _ _).2 ⟨hv, ?_, h⟩
      intro q hq
      rcases List.mem_cons.1 hq with e | hq
      · simpa [e] using hk
      · exact lt_trans hk (hr q hq)
    case isFalse hk =>
      split
      case isTrue e =>
        have e : p.1 = k := by simpa using e
        exact (twf_cons d _ _).2 ⟨hv, fun q hq => by simpa [← e] using hr q hq, hw⟩
      case isFalse e =>
        have e : p.1 ≠ k := by simpa using e
        refine (twf_cons d _ _).2 ⟨hp, ?_, ih hw⟩
        intro q hq
        rcases mem_tins r k v q hq with e' | hq
        · simp only [e']; omega
        · exact hr q hq

omit [DecidableEq α] in
theorem tget_tins (t : Table α) (k k' : Nat) (v : α) :
    tget d (tins t k v) k' = if k' = k then v else tget d t k' := by
  induction t with
  | nil =>
    by_cases e : k' = k
    · simp [tins, tget, e]
    · simp [tins, tget, e, Ne.symm e]
  | cons p r ih =>
    simp only [tins]
    split
    case isTrue hk =>
      by_cases e : k' = k
      · simp [tget, e]
      · simp [tget, e, Ne.symm e]
    case isFalse hk =>
      split
      case isTrue e =>
        have e : p.1 = k := by simpa using e
        by_cases e' : k' = k
        · simp [tget, e']
        · have : p.1 ≠ k' := fun q => e' (q.symm.trans e)
          simp [tget, e', Ne.symm e', this]
      case isFalse e =>
        have e : p.1 ≠ k := by simpa using e
        simp only [tget, ih]
        by_cases e' : p.1 = k'
        · have : k' ≠ k := fun q => e (e'.trans q)
          simp [e', this]
        · simp [e']

theorem tput_wf (t : Table α) (k : Nat) (v : α) (h : twf d t = true) : twf d (tput d t k v) = true := by
  unfold tput
  split
  · exact tdel_wf d t k h
  · exact tins_wf d t k v ‹_› h

/-- A table reads what was put last; every other key stands. -/
theorem tget_tput (t : Table α) (k k' : Nat) (v : α) :
    tget d (tput d t k v) k' = if k' = k then v else tget d t k' := by
  unfold tput
  split
  case isTrue e => rw [tget_tdel d t k k', e]
  case isFalse e => exact tget_tins d t k k' v

theorem filter_wf (t : Table α) (f : Nat × α → Bool) (h : twf d t = true) : twf d (t.filter f) = true := by
  induction t with
  | nil => rfl
  | cons p r ih =>
    obtain ⟨hp, hr, hw⟩ := (twf_cons d p r).1 h
    simp only [List.filter]
    split
    · exact (twf_cons d _ _).2 ⟨hp, fun q hq => hr q (List.mem_of_mem_filter hq), ih hw⟩
    · exact ih hw

end

/-! ### Memory -/

theorem Memory.write_wf (m : List Host.Cell) (a : Nat) (b : Byte) (h : Memory.wf m) : Memory.wf (Memory.write m a b) :=
  tput_wf unlisted m a b h

theorem Memory.writeAll_wf (m : List Host.Cell) (a : Nat) (bs : List Byte) (h : Memory.wf m) :
    Memory.wf (Memory.writeAll m a bs) := by
  induction bs generalizing m a with
  | nil => exact h
  | cons b r ih => exact ih _ _ (Memory.write_wf m a b h)

theorem Memory.clear_wf (m : List Host.Cell) (a n : Nat) (h : Memory.wf m) : Memory.wf (Memory.clear m a n) :=
  filter_wf unlisted m _ h

theorem Memory.read_write (m : List Host.Cell) (a a' : Nat) (b : Byte) :
    Memory.read (Memory.write m a b) a' = if a' = a then b else Memory.read m a' := tget_tput unlisted m a a' b

/-- Bytes written from an address up are the bytes read there; every other address stands. -/
theorem Memory.read_writeAll (m : List Host.Cell) (a : Nat) (bs : List Byte) (a' : Nat) :
    Memory.read (Memory.writeAll m a bs) a' =
      if a ≤ a' ∧ a' < a + bs.length then bs[a' - a]?.getD 0 else Memory.read m a' := by
  induction bs generalizing m a with
  | nil => simp [Memory.writeAll]
  | cons b r ih =>
    rw [Memory.writeAll, ih, Memory.read_write m a a' b]
    by_cases e : a' = a
    · subst e; simp
    · by_cases g : a ≤ a' ∧ a' < a + (b :: r).length
      · have h1 : a + 1 ≤ a' ∧ a' < a + 1 + r.length := by simp at g; omega
        obtain ⟨k, hk⟩ : ∃ k, a' - a = k + 1 := ⟨a' - a - 1, by omega⟩
        have hk' : a' - (a + 1) = k := by omega
        rw [if_pos h1, if_pos g, hk, hk', List.getElem?_cons_succ]
      · have h1 : ¬(a + 1 ≤ a' ∧ a' < a + 1 + r.length) := by simp at g; omega
        rw [if_neg h1, if_neg g, if_neg e]

/-! ### The memory of a state -/

theorem State.putBytes_wf (s : State) (pa : Nat) (bs : List Byte) (h : Memory.wf s.mem) : Memory.wf (s.putBytes pa bs).mem :=
  Memory.writeAll_wf s.mem pa bs h

theorem State.poke_wf (s : State) (pa n v : Nat) (h : Memory.wf s.mem) : Memory.wf (s.poke pa n v).mem :=
  Memory.writeAll_wf s.mem pa _ h

theorem State.zeroBytes_wf (s : State) (pa n : Nat) (h : Memory.wf s.mem) : Memory.wf (s.zeroBytes pa n).mem :=
  Memory.clear_wf s.mem pa n h

theorem State.reset_wf : Memory.wf State.reset.mem := rfl

theorem leBytes_length (n v : Nat) : (leBytes n v).length = n := by
  induction n generalizing v with
  | zero => rfl
  | succ n ih => simp [leBytes, ih]

/-- The number that n bytes of a number hold. -/
theorem leNat_leBytes (n v : Nat) : leNat (leBytes n v) = v % 2 ^ (8 * n) := by
  induction n generalizing v with
  | zero => simp [leBytes, leNat, Nat.mod_one]
  | succ n ih =>
    have e : 2 ^ (8 * (n + 1)) = 256 * 2 ^ (8 * n) := by rw [Nat.mul_add, Nat.pow_add, Nat.mul_comm]
    simp only [leBytes, leNat, ih, BitVec.toNat_ofNat]
    rw [e, Nat.mod_mul]

end Sys2Proof.Machine
end

