-- ==== Sys2Proof/Laws/State.lean ====
section
/-! SUPPORT. Each update of the state, field by field: what it changes and what it leaves, true by unfolding. -/

namespace Sys2Proof.Machine

/-! ### State.modCc -/

@[simp] theorem State.modCc_variant (s : State) (g : ControlCore → ControlCore) : (s.modCc g).variant = s.variant := rfl
@[simp] theorem State.modCc_others (s : State) (g : ControlCore → ControlCore) : (s.modCc g).others = s.others := rfl
@[simp] theorem State.modCc_cores (s : State) (g : ControlCore → ControlCore) : (s.modCc g).cores = s.cores := rfl
@[simp] theorem State.modCc_clusters (s : State) (g : ControlCore → ControlCore) : (s.modCc g).clusters = s.clusters := rfl
@[simp] theorem State.modCc_dies (s : State) (g : ControlCore → ControlCore) : (s.modCc g).dies = s.dies := rfl
@[simp] theorem State.modCc_mem (s : State) (g : ControlCore → ControlCore) : (s.modCc g).mem = s.mem := rfl
@[simp] theorem State.modCc_poison (s : State) (g : ControlCore → ControlCore) : (s.modCc g).poison = s.poison := rfl
@[simp] theorem State.modCc_regions (s : State) (g : ControlCore → ControlCore) : (s.modCc g).regions = s.regions := rfl
@[simp] theorem State.modCc_rs (s : State) (g : ControlCore → ControlCore) : (s.modCc g).rs = s.rs := rfl
@[simp] theorem State.modCc_slots (s : State) (g : ControlCore → ControlCore) : (s.modCc g).slots = s.slots := rfl
@[simp] theorem State.modCc_queues (s : State) (g : ControlCore → ControlCore) : (s.modCc g).queues = s.queues := rfl
@[simp] theorem State.modCc_jobs (s : State) (g : ControlCore → ControlCore) : (s.modCc g).jobs = s.jobs := rfl
@[simp] theorem State.modCc_trains (s : State) (g : ControlCore → ControlCore) : (s.modCc g).trains = s.trains := rfl
@[simp] theorem State.modCc_collHeld (s : State) (g : ControlCore → ControlCore) : (s.modCc g).collHeld = s.collHeld := rfl
@[simp] theorem State.modCc_queries (s : State) (g : ControlCore → ControlCore) : (s.modCc g).queries = s.queries := rfl
@[simp] theorem State.modCc_cmTable (s : State) (g : ControlCore → ControlCore) : (s.modCc g).cmTable = s.cmTable := rfl
@[simp] theorem State.modCc_cmStores (s : State) (g : ControlCore → ControlCore) : (s.modCc g).cmStores = s.cmStores := rfl
@[simp] theorem State.modCc_cmOps (s : State) (g : ControlCore → ControlCore) : (s.modCc g).cmOps = s.cmOps := rfl
@[simp] theorem State.modCc_cmKeys (s : State) (g : ControlCore → ControlCore) : (s.modCc g).cmKeys = s.cmKeys := rfl
@[simp] theorem State.modCc_nonces (s : State) (g : ControlCore → ControlCore) : (s.modCc g).nonces = s.nonces := rfl
@[simp] theorem State.modCc_cmRegs (s : State) (g : ControlCore → ControlCore) : (s.modCc g).cmRegs = s.cmRegs := rfl
@[simp] theorem State.modCc_domains (s : State) (g : ControlCore → ControlCore) : (s.modCc g).domains = s.domains := rfl
@[simp] theorem State.modCc_remap (s : State) (g : ControlCore → ControlCore) : (s.modCc g).remap = s.remap := rfl
@[simp] theorem State.modCc_remapFree (s : State) (g : ControlCore → ControlCore) : (s.modCc g).remapFree = s.remapFree := rfl
@[simp] theorem State.modCc_codes (s : State) (g : ControlCore → ControlCore) : (s.modCc g).codes = s.codes := rfl
@[simp] theorem State.modCc_metas (s : State) (g : ControlCore → ControlCore) : (s.modCc g).metas = s.metas := rfl
@[simp] theorem State.modCc_stored (s : State) (g : ControlCore → ControlCore) : (s.modCc g).stored = s.stored := rfl
@[simp] theorem State.modCc_trackers (s : State) (g : ControlCore → ControlCore) : (s.modCc g).trackers = s.trackers := rfl
@[simp] theorem State.modCc_trackWindow (s : State) (g : ControlCore → ControlCore) : (s.modCc g).trackWindow = s.trackWindow := rfl
@[simp] theorem State.modCc_directed (s : State) (g : ControlCore → ControlCore) : (s.modCc g).directed = s.directed := rfl
@[simp] theorem State.modCc_postponed (s : State) (g : ControlCore → ControlCore) : (s.modCc g).postponed = s.postponed := rfl
@[simp] theorem State.modCc_divisor (s : State) (g : ControlCore → ControlCore) : (s.modCc g).divisor = s.divisor := rfl
@[simp] theorem State.modCc_near (s : State) (g : ControlCore → ControlCore) : (s.modCc g).near = s.near := rfl
@[simp] theorem State.modCc_phase (s : State) (g : ControlCore → ControlCore) : (s.modCc g).phase = s.phase := rfl
@[simp] theorem State.modCc_chans (s : State) (g : ControlCore → ControlCore) : (s.modCc g).chans = s.chans := rfl
@[simp] theorem State.modCc_tillers (s : State) (g : ControlCore → ControlCore) : (s.modCc g).tillers = s.tillers := rfl
@[simp] theorem State.modCc_tlfw (s : State) (g : ControlCore → ControlCore) : (s.modCc g).tlfw = s.tlfw := rfl
@[simp] theorem State.modCc_tick (s : State) (g : ControlCore → ControlCore) : (s.modCc g).tick = s.tick := rfl
@[simp] theorem State.modCc_cycles (s : State) (g : ControlCore → ControlCore) : (s.modCc g).cycles = s.cycles := rfl
@[simp] theorem State.modCc_errors (s : State) (g : ControlCore → ControlCore) : (s.modCc g).errors = s.errors := rfl
@[simp] theorem State.modCc_nodeid (s : State) (g : ControlCore → ControlCore) : (s.modCc g).nodeid = s.nodeid := rfl
@[simp] theorem State.modCc_route (s : State) (g : ControlCore → ControlCore) : (s.modCc g).route = s.route := rfl
@[simp] theorem State.modCc_routeHeld (s : State) (g : ControlCore → ControlCore) : (s.modCc g).routeHeld = s.routeHeld := rfl
@[simp] theorem State.modCc_ports (s : State) (g : ControlCore → ControlCore) : (s.modCc g).ports = s.ports := rfl
@[simp] theorem State.modCc_ethUp (s : State) (g : ControlCore → ControlCore) : (s.modCc g).ethUp = s.ethUp := rfl
@[simp] theorem State.modCc_msix (s : State) (g : ControlCore → ControlCore) : (s.modCc g).msix = s.msix := rfl
@[simp] theorem State.modCc_trust (s : State) (g : ControlCore → ControlCore) : (s.modCc g).trust = s.trust := rfl
@[simp] theorem State.modCc_peerReads (s : State) (g : ControlCore → ControlCore) : (s.modCc g).peerReads = s.peerReads := rfl
@[simp] theorem State.modCc_strays (s : State) (g : ControlCore → ControlCore) : (s.modCc g).strays = s.strays := rfl
@[simp] theorem State.modCc_packetTag (s : State) (g : ControlCore → ControlCore) : (s.modCc g).packetTag = s.packetTag := rfl
@[simp] theorem State.modCc_outbox (s : State) (g : ControlCore → ControlCore) : (s.modCc g).outbox = s.outbox := rfl
@[simp] theorem State.modCc_hostHeld (s : State) (g : ControlCore → ControlCore) : (s.modCc g).hostHeld = s.hostHeld := rfl
@[simp] theorem State.modCc_agenda (s : State) (g : ControlCore → ControlCore) : (s.modCc g).agenda = s.agenda := rfl
@[simp] theorem State.modCc_free (s : State) (g : ControlCore → ControlCore) : (s.modCc g).free = s.free := rfl
@[simp] theorem State.modCc_clock (s : State) (g : ControlCore → ControlCore) : (s.modCc g).clock = s.clock := rfl

/-! ### State.setX -/

@[simp] theorem State.setX_variant (s : State) (n : XReg) (v : Word) : (s.setX n v).variant = s.variant := rfl
@[simp] theorem State.setX_others (s : State) (n : XReg) (v : Word) : (s.setX n v).others = s.others := rfl
@[simp] theorem State.setX_cores (s : State) (n : XReg) (v : Word) : (s.setX n v).cores = s.cores := rfl
@[simp] theorem State.setX_clusters (s : State) (n : XReg) (v : Word) : (s.setX n v).clusters = s.clusters := rfl
@[simp] theorem State.setX_dies (s : State) (n : XReg) (v : Word) : (s.setX n v).dies = s.dies := rfl
@[simp] theorem State.setX_mem (s : State) (n : XReg) (v : Word) : (s.setX n v).mem = s.mem := rfl
@[simp] theorem State.setX_poison (s : State) (n : XReg) (v : Word) : (s.setX n v).poison = s.poison := rfl
@[simp] theorem State.setX_regions (s : State) (n : XReg) (v : Word) : (s.setX n v).regions = s.regions := rfl
@[simp] theorem State.setX_rs (s : State) (n : XReg) (v : Word) : (s.setX n v).rs = s.rs := rfl
@[simp] theorem State.setX_slots (s : State) (n : XReg) (v : Word) : (s.setX n v).slots = s.slots := rfl
@[simp] theorem State.setX_queues (s : State) (n : XReg) (v : Word) : (s.setX n v).queues = s.queues := rfl
@[simp] theorem State.setX_jobs (s : State) (n : XReg) (v : Word) : (s.setX n v).jobs = s.jobs := rfl
@[simp] theorem State.setX_trains (s : State) (n : XReg) (v : Word) : (s.setX n v).trains = s.trains := rfl
@[simp] theorem State.setX_collHeld (s : State) (n : XReg) (v : Word) : (s.setX n v).collHeld = s.collHeld := rfl
@[simp] theorem State.setX_queries (s : State) (n : XReg) (v : Word) : (s.setX n v).queries = s.queries := rfl
@[simp] theorem State.setX_cmTable (s : State) (n : XReg) (v : Word) : (s.setX n v).cmTable = s.cmTable := rfl
@[simp] theorem State.setX_cmStores (s : State) (n : XReg) (v : Word) : (s.setX n v).cmStores = s.cmStores := rfl
@[simp] theorem State.setX_cmOps (s : State) (n : XReg) (v : Word) : (s.setX n v).cmOps = s.cmOps := rfl
@[simp] theorem State.setX_cmKeys (s : State) (n : XReg) (v : Word) : (s.setX n v).cmKeys = s.cmKeys := rfl
@[simp] theorem State.setX_nonces (s : State) (n : XReg) (v : Word) : (s.setX n v).nonces = s.nonces := rfl
@[simp] theorem State.setX_cmRegs (s : State) (n : XReg) (v : Word) : (s.setX n v).cmRegs = s.cmRegs := rfl
@[simp] theorem State.setX_domains (s : State) (n : XReg) (v : Word) : (s.setX n v).domains = s.domains := rfl
@[simp] theorem State.setX_remap (s : State) (n : XReg) (v : Word) : (s.setX n v).remap = s.remap := rfl
@[simp] theorem State.setX_remapFree (s : State) (n : XReg) (v : Word) : (s.setX n v).remapFree = s.remapFree := rfl
@[simp] theorem State.setX_codes (s : State) (n : XReg) (v : Word) : (s.setX n v).codes = s.codes := rfl
@[simp] theorem State.setX_metas (s : State) (n : XReg) (v : Word) : (s.setX n v).metas = s.metas := rfl
@[simp] theorem State.setX_stored (s : State) (n : XReg) (v : Word) : (s.setX n v).stored = s.stored := rfl
@[simp] theorem State.setX_trackers (s : State) (n : XReg) (v : Word) : (s.setX n v).trackers = s.trackers := rfl
@[simp] theorem State.setX_trackWindow (s : State) (n : XReg) (v : Word) : (s.setX n v).trackWindow = s.trackWindow := rfl
@[simp] theorem State.setX_directed (s : State) (n : XReg) (v : Word) : (s.setX n v).directed = s.directed := rfl
@[simp] theorem State.setX_postponed (s : State) (n : XReg) (v : Word) : (s.setX n v).postponed = s.postponed := rfl
@[simp] theorem State.setX_divisor (s : State) (n : XReg) (v : Word) : (s.setX n v).divisor = s.divisor := rfl
@[simp] theorem State.setX_near (s : State) (n : XReg) (v : Word) : (s.setX n v).near = s.near := rfl
@[simp] theorem State.setX_phase (s : State) (n : XReg) (v : Word) : (s.setX n v).phase = s.phase := rfl
@[simp] theorem State.setX_chans (s : State) (n : XReg) (v : Word) : (s.setX n v).chans = s.chans := rfl
@[simp] theorem State.setX_tillers (s : State) (n : XReg) (v : Word) : (s.setX n v).tillers = s.tillers := rfl
@[simp] theorem State.setX_tlfw (s : State) (n : XReg) (v : Word) : (s.setX n v).tlfw = s.tlfw := rfl
@[simp] theorem State.setX_tick (s : State) (n : XReg) (v : Word) : (s.setX n v).tick = s.tick := rfl
@[simp] theorem State.setX_cycles (s : State) (n : XReg) (v : Word) : (s.setX n v).cycles = s.cycles := rfl
@[simp] theorem State.setX_errors (s : State) (n : XReg) (v : Word) : (s.setX n v).errors = s.errors := rfl
@[simp] theorem State.setX_nodeid (s : State) (n : XReg) (v : Word) : (s.setX n v).nodeid = s.nodeid := rfl
@[simp] theorem State.setX_route (s : State) (n : XReg) (v : Word) : (s.setX n v).route = s.route := rfl
@[simp] theorem State.setX_routeHeld (s : State) (n : XReg) (v : Word) : (s.setX n v).routeHeld = s.routeHeld := rfl
@[simp] theorem State.setX_ports (s : State) (n : XReg) (v : Word) : (s.setX n v).ports = s.ports := rfl
@[simp] theorem State.setX_ethUp (s : State) (n : XReg) (v : Word) : (s.setX n v).ethUp = s.ethUp := rfl
@[simp] theorem State.setX_msix (s : State) (n : XReg) (v : Word) : (s.setX n v).msix = s.msix := rfl
@[simp] theorem State.setX_trust (s : State) (n : XReg) (v : Word) : (s.setX n v).trust = s.trust := rfl
@[simp] theorem State.setX_peerReads (s : State) (n : XReg) (v : Word) : (s.setX n v).peerReads = s.peerReads := rfl
@[simp] theorem State.setX_strays (s : State) (n : XReg) (v : Word) : (s.setX n v).strays = s.strays := rfl
@[simp] theorem State.setX_packetTag (s : State) (n : XReg) (v : Word) : (s.setX n v).packetTag = s.packetTag := rfl
@[simp] theorem State.setX_outbox (s : State) (n : XReg) (v : Word) : (s.setX n v).outbox = s.outbox := rfl
@[simp] theorem State.setX_hostHeld (s : State) (n : XReg) (v : Word) : (s.setX n v).hostHeld = s.hostHeld := rfl
@[simp] theorem State.setX_agenda (s : State) (n : XReg) (v : Word) : (s.setX n v).agenda = s.agenda := rfl
@[simp] theorem State.setX_free (s : State) (n : XReg) (v : Word) : (s.setX n v).free = s.free := rfl
@[simp] theorem State.setX_clock (s : State) (n : XReg) (v : Word) : (s.setX n v).clock = s.clock := rfl

/-! ### State.putV -/

@[simp] theorem State.putV_variant (s : State) (n : VReg) (r : VecReg) : (s.putV n r).variant = s.variant := rfl
@[simp] theorem State.putV_others (s : State) (n : VReg) (r : VecReg) : (s.putV n r).others = s.others := rfl
@[simp] theorem State.putV_cores (s : State) (n : VReg) (r : VecReg) : (s.putV n r).cores = s.cores := rfl
@[simp] theorem State.putV_clusters (s : State) (n : VReg) (r : VecReg) : (s.putV n r).clusters = s.clusters := rfl
@[simp] theorem State.putV_dies (s : State) (n : VReg) (r : VecReg) : (s.putV n r).dies = s.dies := rfl
@[simp] theorem State.putV_mem (s : State) (n : VReg) (r : VecReg) : (s.putV n r).mem = s.mem := rfl
@[simp] theorem State.putV_poison (s : State) (n : VReg) (r : VecReg) : (s.putV n r).poison = s.poison := rfl
@[simp] theorem State.putV_regions (s : State) (n : VReg) (r : VecReg) : (s.putV n r).regions = s.regions := rfl
@[simp] theorem State.putV_rs (s : State) (n : VReg) (r : VecReg) : (s.putV n r).rs = s.rs := rfl
@[simp] theorem State.putV_slots (s : State) (n : VReg) (r : VecReg) : (s.putV n r).slots = s.slots := rfl
@[simp] theorem State.putV_queues (s : State) (n : VReg) (r : VecReg) : (s.putV n r).queues = s.queues := rfl
@[simp] theorem State.putV_jobs (s : State) (n : VReg) (r : VecReg) : (s.putV n r).jobs = s.jobs := rfl
@[simp] theorem State.putV_trains (s : State) (n : VReg) (r : VecReg) : (s.putV n r).trains = s.trains := rfl
@[simp] theorem State.putV_collHeld (s : State) (n : VReg) (r : VecReg) : (s.putV n r).collHeld = s.collHeld := rfl
@[simp] theorem State.putV_queries (s : State) (n : VReg) (r : VecReg) : (s.putV n r).queries = s.queries := rfl
@[simp] theorem State.putV_cmTable (s : State) (n : VReg) (r : VecReg) : (s.putV n r).cmTable = s.cmTable := rfl
@[simp] theorem State.putV_cmStores (s : State) (n : VReg) (r : VecReg) : (s.putV n r).cmStores = s.cmStores := rfl
@[simp] theorem State.putV_cmOps (s : State) (n : VReg) (r : VecReg) : (s.putV n r).cmOps = s.cmOps := rfl
@[simp] theorem State.putV_cmKeys (s : State) (n : VReg) (r : VecReg) : (s.putV n r).cmKeys = s.cmKeys := rfl
@[simp] theorem State.putV_nonces (s : State) (n : VReg) (r : VecReg) : (s.putV n r).nonces = s.nonces := rfl
@[simp] theorem State.putV_cmRegs (s : State) (n : VReg) (r : VecReg) : (s.putV n r).cmRegs = s.cmRegs := rfl
@[simp] theorem State.putV_domains (s : State) (n : VReg) (r : VecReg) : (s.putV n r).domains = s.domains := rfl
@[simp] theorem State.putV_remap (s : State) (n : VReg) (r : VecReg) : (s.putV n r).remap = s.remap := rfl
@[simp] theorem State.putV_remapFree (s : State) (n : VReg) (r : VecReg) : (s.putV n r).remapFree = s.remapFree := rfl
@[simp] theorem State.putV_codes (s : State) (n : VReg) (r : VecReg) : (s.putV n r).codes = s.codes := rfl
@[simp] theorem State.putV_metas (s : State) (n : VReg) (r : VecReg) : (s.putV n r).metas = s.metas := rfl
@[simp] theorem State.putV_stored (s : State) (n : VReg) (r : VecReg) : (s.putV n r).stored = s.stored := rfl
@[simp] theorem State.putV_trackers (s : State) (n : VReg) (r : VecReg) : (s.putV n r).trackers = s.trackers := rfl
@[simp] theorem State.putV_trackWindow (s : State) (n : VReg) (r : VecReg) : (s.putV n r).trackWindow = s.trackWindow := rfl
@[simp] theorem State.putV_directed (s : State) (n : VReg) (r : VecReg) : (s.putV n r).directed = s.directed := rfl
@[simp] theorem State.putV_postponed (s : State) (n : VReg) (r : VecReg) : (s.putV n r).postponed = s.postponed := rfl
@[simp] theorem State.putV_divisor (s : State) (n : VReg) (r : VecReg) : (s.putV n r).divisor = s.divisor := rfl
@[simp] theorem State.putV_near (s : State) (n : VReg) (r : VecReg) : (s.putV n r).near = s.near := rfl
@[simp] theorem State.putV_phase (s : State) (n : VReg) (r : VecReg) : (s.putV n r).phase = s.phase := rfl
@[simp] theorem State.putV_chans (s : State) (n : VReg) (r : VecReg) : (s.putV n r).chans = s.chans := rfl
@[simp] theorem State.putV_tillers (s : State) (n : VReg) (r : VecReg) : (s.putV n r).tillers = s.tillers := rfl
@[simp] theorem State.putV_tlfw (s : State) (n : VReg) (r : VecReg) : (s.putV n r).tlfw = s.tlfw := rfl
@[simp] theorem State.putV_tick (s : State) (n : VReg) (r : VecReg) : (s.putV n r).tick = s.tick := rfl
@[simp] theorem State.putV_cycles (s : State) (n : VReg) (r : VecReg) : (s.putV n r).cycles = s.cycles := rfl
@[simp] theorem State.putV_errors (s : State) (n : VReg) (r : VecReg) : (s.putV n r).errors = s.errors := rfl
@[simp] theorem State.putV_nodeid (s : State) (n : VReg) (r : VecReg) : (s.putV n r).nodeid = s.nodeid := rfl
@[simp] theorem State.putV_route (s : State) (n : VReg) (r : VecReg) : (s.putV n r).route = s.route := rfl
@[simp] theorem State.putV_routeHeld (s : State) (n : VReg) (r : VecReg) : (s.putV n r).routeHeld = s.routeHeld := rfl
@[simp] theorem State.putV_ports (s : State) (n : VReg) (r : VecReg) : (s.putV n r).ports = s.ports := rfl
@[simp] theorem State.putV_ethUp (s : State) (n : VReg) (r : VecReg) : (s.putV n r).ethUp = s.ethUp := rfl
@[simp] theorem State.putV_msix (s : State) (n : VReg) (r : VecReg) : (s.putV n r).msix = s.msix := rfl
@[simp] theorem State.putV_trust (s : State) (n : VReg) (r : VecReg) : (s.putV n r).trust = s.trust := rfl
@[simp] theorem State.putV_peerReads (s : State) (n : VReg) (r : VecReg) : (s.putV n r).peerReads = s.peerReads := rfl
@[simp] theorem State.putV_strays (s : State) (n : VReg) (r : VecReg) : (s.putV n r).strays = s.strays := rfl
@[simp] theorem State.putV_packetTag (s : State) (n : VReg) (r : VecReg) : (s.putV n r).packetTag = s.packetTag := rfl
@[simp] theorem State.putV_outbox (s : State) (n : VReg) (r : VecReg) : (s.putV n r).outbox = s.outbox := rfl
@[simp] theorem State.putV_hostHeld (s : State) (n : VReg) (r : VecReg) : (s.putV n r).hostHeld = s.hostHeld := rfl
@[simp] theorem State.putV_agenda (s : State) (n : VReg) (r : VecReg) : (s.putV n r).agenda = s.agenda := rfl
@[simp] theorem State.putV_free (s : State) (n : VReg) (r : VecReg) : (s.putV n r).free = s.free := rfl
@[simp] theorem State.putV_clock (s : State) (n : VReg) (r : VecReg) : (s.putV n r).clock = s.clock := rfl

/-! ### State.putM -/

@[simp] theorem State.putM_variant (s : State) (n : MReg) (b : BitVec 1024) : (s.putM n b).variant = s.variant := rfl
@[simp] theorem State.putM_others (s : State) (n : MReg) (b : BitVec 1024) : (s.putM n b).others = s.others := rfl
@[simp] theorem State.putM_cores (s : State) (n : MReg) (b : BitVec 1024) : (s.putM n b).cores = s.cores := rfl
@[simp] theorem State.putM_clusters (s : State) (n : MReg) (b : BitVec 1024) : (s.putM n b).clusters = s.clusters := rfl
@[simp] theorem State.putM_dies (s : State) (n : MReg) (b : BitVec 1024) : (s.putM n b).dies = s.dies := rfl
@[simp] theorem State.putM_mem (s : State) (n : MReg) (b : BitVec 1024) : (s.putM n b).mem = s.mem := rfl
@[simp] theorem State.putM_poison (s : State) (n : MReg) (b : BitVec 1024) : (s.putM n b).poison = s.poison := rfl
@[simp] theorem State.putM_regions (s : State) (n : MReg) (b : BitVec 1024) : (s.putM n b).regions = s.regions := rfl
@[simp] theorem State.putM_rs (s : State) (n : MReg) (b : BitVec 1024) : (s.putM n b).rs = s.rs := rfl
@[simp] theorem State.putM_slots (s : State) (n : MReg) (b : BitVec 1024) : (s.putM n b).slots = s.slots := rfl
@[simp] theorem State.putM_queues (s : State) (n : MReg) (b : BitVec 1024) : (s.putM n b).queues = s.queues := rfl
@[simp] theorem State.putM_jobs (s : State) (n : MReg) (b : BitVec 1024) : (s.putM n b).jobs = s.jobs := rfl
@[simp] theorem State.putM_trains (s : State) (n : MReg) (b : BitVec 1024) : (s.putM n b).trains = s.trains := rfl
@[simp] theorem State.putM_collHeld (s : State) (n : MReg) (b : BitVec 1024) : (s.putM n b).collHeld = s.collHeld := rfl
@[simp] theorem State.putM_queries (s : State) (n : MReg) (b : BitVec 1024) : (s.putM n b).queries = s.queries := rfl
@[simp] theorem State.putM_cmTable (s : State) (n : MReg) (b : BitVec 1024) : (s.putM n b).cmTable = s.cmTable := rfl
@[simp] theorem State.putM_cmStores (s : State) (n : MReg) (b : BitVec 1024) : (s.putM n b).cmStores = s.cmStores := rfl
@[simp] theorem State.putM_cmOps (s : State) (n : MReg) (b : BitVec 1024) : (s.putM n b).cmOps = s.cmOps := rfl
@[simp] theorem State.putM_cmKeys (s : State) (n : MReg) (b : BitVec 1024) : (s.putM n b).cmKeys = s.cmKeys := rfl
@[simp] theorem State.putM_nonces (s : State) (n : MReg) (b : BitVec 1024) : (s.putM n b).nonces = s.nonces := rfl
@[simp] theorem State.putM_cmRegs (s : State) (n : MReg) (b : BitVec 1024) : (s.putM n b).cmRegs = s.cmRegs := rfl
@[simp] theorem State.putM_domains (s : State) (n : MReg) (b : BitVec 1024) : (s.putM n b).domains = s.domains := rfl
@[simp] theorem State.putM_remap (s : State) (n : MReg) (b : BitVec 1024) : (s.putM n b).remap = s.remap := rfl
@[simp] theorem State.putM_remapFree (s : State) (n : MReg) (b : BitVec 1024) : (s.putM n b).remapFree = s.remapFree := rfl
@[simp] theorem State.putM_codes (s : State) (n : MReg) (b : BitVec 1024) : (s.putM n b).codes = s.codes := rfl
@[simp] theorem State.putM_metas (s : State) (n : MReg) (b : BitVec 1024) : (s.putM n b).metas = s.metas := rfl
@[simp] theorem State.putM_stored (s : State) (n : MReg) (b : BitVec 1024) : (s.putM n b).stored = s.stored := rfl
@[simp] theorem State.putM_trackers (s : State) (n : MReg) (b : BitVec 1024) : (s.putM n b).trackers = s.trackers := rfl
@[simp] theorem State.putM_trackWindow (s : State) (n : MReg) (b : BitVec 1024) : (s.putM n b).trackWindow = s.trackWindow := rfl
@[simp] theorem State.putM_directed (s : State) (n : MReg) (b : BitVec 1024) : (s.putM n b).directed = s.directed := rfl
@[simp] theorem State.putM_postponed (s : State) (n : MReg) (b : BitVec 1024) : (s.putM n b).postponed = s.postponed := rfl
@[simp] theorem State.putM_divisor (s : State) (n : MReg) (b : BitVec 1024) : (s.putM n b).divisor = s.divisor := rfl
@[simp] theorem State.putM_near (s : State) (n : MReg) (b : BitVec 1024) : (s.putM n b).near = s.near := rfl
@[simp] theorem State.putM_phase (s : State) (n : MReg) (b : BitVec 1024) : (s.putM n b).phase = s.phase := rfl
@[simp] theorem State.putM_chans (s : State) (n : MReg) (b : BitVec 1024) : (s.putM n b).chans = s.chans := rfl
@[simp] theorem State.putM_tillers (s : State) (n : MReg) (b : BitVec 1024) : (s.putM n b).tillers = s.tillers := rfl
@[simp] theorem State.putM_tlfw (s : State) (n : MReg) (b : BitVec 1024) : (s.putM n b).tlfw = s.tlfw := rfl
@[simp] theorem State.putM_tick (s : State) (n : MReg) (b : BitVec 1024) : (s.putM n b).tick = s.tick := rfl
@[simp] theorem State.putM_cycles (s : State) (n : MReg) (b : BitVec 1024) : (s.putM n b).cycles = s.cycles := rfl
@[simp] theorem State.putM_errors (s : State) (n : MReg) (b : BitVec 1024) : (s.putM n b).errors = s.errors := rfl
@[simp] theorem State.putM_nodeid (s : State) (n : MReg) (b : BitVec 1024) : (s.putM n b).nodeid = s.nodeid := rfl
@[simp] theorem State.putM_route (s : State) (n : MReg) (b : BitVec 1024) : (s.putM n b).route = s.route := rfl
@[simp] theorem State.putM_routeHeld (s : State) (n : MReg) (b : BitVec 1024) : (s.putM n b).routeHeld = s.routeHeld := rfl
@[simp] theorem State.putM_ports (s : State) (n : MReg) (b : BitVec 1024) : (s.putM n b).ports = s.ports := rfl
@[simp] theorem State.putM_ethUp (s : State) (n : MReg) (b : BitVec 1024) : (s.putM n b).ethUp = s.ethUp := rfl
@[simp] theorem State.putM_msix (s : State) (n : MReg) (b : BitVec 1024) : (s.putM n b).msix = s.msix := rfl
@[simp] theorem State.putM_trust (s : State) (n : MReg) (b : BitVec 1024) : (s.putM n b).trust = s.trust := rfl
@[simp] theorem State.putM_peerReads (s : State) (n : MReg) (b : BitVec 1024) : (s.putM n b).peerReads = s.peerReads := rfl
@[simp] theorem State.putM_strays (s : State) (n : MReg) (b : BitVec 1024) : (s.putM n b).strays = s.strays := rfl
@[simp] theorem State.putM_packetTag (s : State) (n : MReg) (b : BitVec 1024) : (s.putM n b).packetTag = s.packetTag := rfl
@[simp] theorem State.putM_outbox (s : State) (n : MReg) (b : BitVec 1024) : (s.putM n b).outbox = s.outbox := rfl
@[simp] theorem State.putM_hostHeld (s : State) (n : MReg) (b : BitVec 1024) : (s.putM n b).hostHeld = s.hostHeld := rfl
@[simp] theorem State.putM_agenda (s : State) (n : MReg) (b : BitVec 1024) : (s.putM n b).agenda = s.agenda := rfl
@[simp] theorem State.putM_free (s : State) (n : MReg) (b : BitVec 1024) : (s.putM n b).free = s.free := rfl
@[simp] theorem State.putM_clock (s : State) (n : MReg) (b : BitVec 1024) : (s.putM n b).clock = s.clock := rfl

/-! ### State.putT -/

@[simp] theorem State.putT_variant (s : State) (n : TReg) (t : Tile) : (s.putT n t).variant = s.variant := rfl
@[simp] theorem State.putT_others (s : State) (n : TReg) (t : Tile) : (s.putT n t).others = s.others := rfl
@[simp] theorem State.putT_cores (s : State) (n : TReg) (t : Tile) : (s.putT n t).cores = s.cores := rfl
@[simp] theorem State.putT_clusters (s : State) (n : TReg) (t : Tile) : (s.putT n t).clusters = s.clusters := rfl
@[simp] theorem State.putT_dies (s : State) (n : TReg) (t : Tile) : (s.putT n t).dies = s.dies := rfl
@[simp] theorem State.putT_mem (s : State) (n : TReg) (t : Tile) : (s.putT n t).mem = s.mem := rfl
@[simp] theorem State.putT_poison (s : State) (n : TReg) (t : Tile) : (s.putT n t).poison = s.poison := rfl
@[simp] theorem State.putT_regions (s : State) (n : TReg) (t : Tile) : (s.putT n t).regions = s.regions := rfl
@[simp] theorem State.putT_rs (s : State) (n : TReg) (t : Tile) : (s.putT n t).rs = s.rs := rfl
@[simp] theorem State.putT_slots (s : State) (n : TReg) (t : Tile) : (s.putT n t).slots = s.slots := rfl
@[simp] theorem State.putT_queues (s : State) (n : TReg) (t : Tile) : (s.putT n t).queues = s.queues := rfl
@[simp] theorem State.putT_jobs (s : State) (n : TReg) (t : Tile) : (s.putT n t).jobs = s.jobs := rfl
@[simp] theorem State.putT_trains (s : State) (n : TReg) (t : Tile) : (s.putT n t).trains = s.trains := rfl
@[simp] theorem State.putT_collHeld (s : State) (n : TReg) (t : Tile) : (s.putT n t).collHeld = s.collHeld := rfl
@[simp] theorem State.putT_queries (s : State) (n : TReg) (t : Tile) : (s.putT n t).queries = s.queries := rfl
@[simp] theorem State.putT_cmTable (s : State) (n : TReg) (t : Tile) : (s.putT n t).cmTable = s.cmTable := rfl
@[simp] theorem State.putT_cmStores (s : State) (n : TReg) (t : Tile) : (s.putT n t).cmStores = s.cmStores := rfl
@[simp] theorem State.putT_cmOps (s : State) (n : TReg) (t : Tile) : (s.putT n t).cmOps = s.cmOps := rfl
@[simp] theorem State.putT_cmKeys (s : State) (n : TReg) (t : Tile) : (s.putT n t).cmKeys = s.cmKeys := rfl
@[simp] theorem State.putT_nonces (s : State) (n : TReg) (t : Tile) : (s.putT n t).nonces = s.nonces := rfl
@[simp] theorem State.putT_cmRegs (s : State) (n : TReg) (t : Tile) : (s.putT n t).cmRegs = s.cmRegs := rfl
@[simp] theorem State.putT_domains (s : State) (n : TReg) (t : Tile) : (s.putT n t).domains = s.domains := rfl
@[simp] theorem State.putT_remap (s : State) (n : TReg) (t : Tile) : (s.putT n t).remap = s.remap := rfl
@[simp] theorem State.putT_remapFree (s : State) (n : TReg) (t : Tile) : (s.putT n t).remapFree = s.remapFree := rfl
@[simp] theorem State.putT_codes (s : State) (n : TReg) (t : Tile) : (s.putT n t).codes = s.codes := rfl
@[simp] theorem State.putT_metas (s : State) (n : TReg) (t : Tile) : (s.putT n t).metas = s.metas := rfl
@[simp] theorem State.putT_stored (s : State) (n : TReg) (t : Tile) : (s.putT n t).stored = s.stored := rfl
@[simp] theorem State.putT_trackers (s : State) (n : TReg) (t : Tile) : (s.putT n t).trackers = s.trackers := rfl
@[simp] theorem State.putT_trackWindow (s : State) (n : TReg) (t : Tile) : (s.putT n t).trackWindow = s.trackWindow := rfl
@[simp] theorem State.putT_directed (s : State) (n : TReg) (t : Tile) : (s.putT n t).directed = s.directed := rfl
@[simp] theorem State.putT_postponed (s : State) (n : TReg) (t : Tile) : (s.putT n t).postponed = s.postponed := rfl
@[simp] theorem State.putT_divisor (s : State) (n : TReg) (t : Tile) : (s.putT n t).divisor = s.divisor := rfl
@[simp] theorem State.putT_near (s : State) (n : TReg) (t : Tile) : (s.putT n t).near = s.near := rfl
@[simp] theorem State.putT_phase (s : State) (n : TReg) (t : Tile) : (s.putT n t).phase = s.phase := rfl
@[simp] theorem State.putT_chans (s : State) (n : TReg) (t : Tile) : (s.putT n t).chans = s.chans := rfl
@[simp] theorem State.putT_tillers (s : State) (n : TReg) (t : Tile) : (s.putT n t).tillers = s.tillers := rfl
@[simp] theorem State.putT_tlfw (s : State) (n : TReg) (t : Tile) : (s.putT n t).tlfw = s.tlfw := rfl
@[simp] theorem State.putT_tick (s : State) (n : TReg) (t : Tile) : (s.putT n t).tick = s.tick := rfl
@[simp] theorem State.putT_cycles (s : State) (n : TReg) (t : Tile) : (s.putT n t).cycles = s.cycles := rfl
@[simp] theorem State.putT_errors (s : State) (n : TReg) (t : Tile) : (s.putT n t).errors = s.errors := rfl
@[simp] theorem State.putT_nodeid (s : State) (n : TReg) (t : Tile) : (s.putT n t).nodeid = s.nodeid := rfl
@[simp] theorem State.putT_route (s : State) (n : TReg) (t : Tile) : (s.putT n t).route = s.route := rfl
@[simp] theorem State.putT_routeHeld (s : State) (n : TReg) (t : Tile) : (s.putT n t).routeHeld = s.routeHeld := rfl
@[simp] theorem State.putT_ports (s : State) (n : TReg) (t : Tile) : (s.putT n t).ports = s.ports := rfl
@[simp] theorem State.putT_ethUp (s : State) (n : TReg) (t : Tile) : (s.putT n t).ethUp = s.ethUp := rfl
@[simp] theorem State.putT_msix (s : State) (n : TReg) (t : Tile) : (s.putT n t).msix = s.msix := rfl
@[simp] theorem State.putT_trust (s : State) (n : TReg) (t : Tile) : (s.putT n t).trust = s.trust := rfl
@[simp] theorem State.putT_peerReads (s : State) (n : TReg) (t : Tile) : (s.putT n t).peerReads = s.peerReads := rfl
@[simp] theorem State.putT_strays (s : State) (n : TReg) (t : Tile) : (s.putT n t).strays = s.strays := rfl
@[simp] theorem State.putT_packetTag (s : State) (n : TReg) (t : Tile) : (s.putT n t).packetTag = s.packetTag := rfl
@[simp] theorem State.putT_outbox (s : State) (n : TReg) (t : Tile) : (s.putT n t).outbox = s.outbox := rfl
@[simp] theorem State.putT_hostHeld (s : State) (n : TReg) (t : Tile) : (s.putT n t).hostHeld = s.hostHeld := rfl
@[simp] theorem State.putT_agenda (s : State) (n : TReg) (t : Tile) : (s.putT n t).agenda = s.agenda := rfl
@[simp] theorem State.putT_free (s : State) (n : TReg) (t : Tile) : (s.putT n t).free = s.free := rfl
@[simp] theorem State.putT_clock (s : State) (n : TReg) (t : Tile) : (s.putT n t).clock = s.clock := rfl

/-! ### State.orFlags -/

@[simp] theorem State.orFlags_variant (s : State) (f : Flags) : (s.orFlags f).variant = s.variant := rfl
@[simp] theorem State.orFlags_others (s : State) (f : Flags) : (s.orFlags f).others = s.others := rfl
@[simp] theorem State.orFlags_cores (s : State) (f : Flags) : (s.orFlags f).cores = s.cores := rfl
@[simp] theorem State.orFlags_clusters (s : State) (f : Flags) : (s.orFlags f).clusters = s.clusters := rfl
@[simp] theorem State.orFlags_dies (s : State) (f : Flags) : (s.orFlags f).dies = s.dies := rfl
@[simp] theorem State.orFlags_mem (s : State) (f : Flags) : (s.orFlags f).mem = s.mem := rfl
@[simp] theorem State.orFlags_poison (s : State) (f : Flags) : (s.orFlags f).poison = s.poison := rfl
@[simp] theorem State.orFlags_regions (s : State) (f : Flags) : (s.orFlags f).regions = s.regions := rfl
@[simp] theorem State.orFlags_rs (s : State) (f : Flags) : (s.orFlags f).rs = s.rs := rfl
@[simp] theorem State.orFlags_slots (s : State) (f : Flags) : (s.orFlags f).slots = s.slots := rfl
@[simp] theorem State.orFlags_queues (s : State) (f : Flags) : (s.orFlags f).queues = s.queues := rfl
@[simp] theorem State.orFlags_jobs (s : State) (f : Flags) : (s.orFlags f).jobs = s.jobs := rfl
@[simp] theorem State.orFlags_trains (s : State) (f : Flags) : (s.orFlags f).trains = s.trains := rfl
@[simp] theorem State.orFlags_collHeld (s : State) (f : Flags) : (s.orFlags f).collHeld = s.collHeld := rfl
@[simp] theorem State.orFlags_queries (s : State) (f : Flags) : (s.orFlags f).queries = s.queries := rfl
@[simp] theorem State.orFlags_cmTable (s : State) (f : Flags) : (s.orFlags f).cmTable = s.cmTable := rfl
@[simp] theorem State.orFlags_cmStores (s : State) (f : Flags) : (s.orFlags f).cmStores = s.cmStores := rfl
@[simp] theorem State.orFlags_cmOps (s : State) (f : Flags) : (s.orFlags f).cmOps = s.cmOps := rfl
@[simp] theorem State.orFlags_cmKeys (s : State) (f : Flags) : (s.orFlags f).cmKeys = s.cmKeys := rfl
@[simp] theorem State.orFlags_nonces (s : State) (f : Flags) : (s.orFlags f).nonces = s.nonces := rfl
@[simp] theorem State.orFlags_cmRegs (s : State) (f : Flags) : (s.orFlags f).cmRegs = s.cmRegs := rfl
@[simp] theorem State.orFlags_domains (s : State) (f : Flags) : (s.orFlags f).domains = s.domains := rfl
@[simp] theorem State.orFlags_remap (s : State) (f : Flags) : (s.orFlags f).remap = s.remap := rfl
@[simp] theorem State.orFlags_remapFree (s : State) (f : Flags) : (s.orFlags f).remapFree = s.remapFree := rfl
@[simp] theorem State.orFlags_codes (s : State) (f : Flags) : (s.orFlags f).codes = s.codes := rfl
@[simp] theorem State.orFlags_metas (s : State) (f : Flags) : (s.orFlags f).metas = s.metas := rfl
@[simp] theorem State.orFlags_stored (s : State) (f : Flags) : (s.orFlags f).stored = s.stored := rfl
@[simp] theorem State.orFlags_trackers (s : State) (f : Flags) : (s.orFlags f).trackers = s.trackers := rfl
@[simp] theorem State.orFlags_trackWindow (s : State) (f : Flags) : (s.orFlags f).trackWindow = s.trackWindow := rfl
@[simp] theorem State.orFlags_directed (s : State) (f : Flags) : (s.orFlags f).directed = s.directed := rfl
@[simp] theorem State.orFlags_postponed (s : State) (f : Flags) : (s.orFlags f).postponed = s.postponed := rfl
@[simp] theorem State.orFlags_divisor (s : State) (f : Flags) : (s.orFlags f).divisor = s.divisor := rfl
@[simp] theorem State.orFlags_near (s : State) (f : Flags) : (s.orFlags f).near = s.near := rfl
@[simp] theorem State.orFlags_phase (s : State) (f : Flags) : (s.orFlags f).phase = s.phase := rfl
@[simp] theorem State.orFlags_chans (s : State) (f : Flags) : (s.orFlags f).chans = s.chans := rfl
@[simp] theorem State.orFlags_tillers (s : State) (f : Flags) : (s.orFlags f).tillers = s.tillers := rfl
@[simp] theorem State.orFlags_tlfw (s : State) (f : Flags) : (s.orFlags f).tlfw = s.tlfw := rfl
@[simp] theorem State.orFlags_tick (s : State) (f : Flags) : (s.orFlags f).tick = s.tick := rfl
@[simp] theorem State.orFlags_cycles (s : State) (f : Flags) : (s.orFlags f).cycles = s.cycles := rfl
@[simp] theorem State.orFlags_errors (s : State) (f : Flags) : (s.orFlags f).errors = s.errors := rfl
@[simp] theorem State.orFlags_nodeid (s : State) (f : Flags) : (s.orFlags f).nodeid = s.nodeid := rfl
@[simp] theorem State.orFlags_route (s : State) (f : Flags) : (s.orFlags f).route = s.route := rfl
@[simp] theorem State.orFlags_routeHeld (s : State) (f : Flags) : (s.orFlags f).routeHeld = s.routeHeld := rfl
@[simp] theorem State.orFlags_ports (s : State) (f : Flags) : (s.orFlags f).ports = s.ports := rfl
@[simp] theorem State.orFlags_ethUp (s : State) (f : Flags) : (s.orFlags f).ethUp = s.ethUp := rfl
@[simp] theorem State.orFlags_msix (s : State) (f : Flags) : (s.orFlags f).msix = s.msix := rfl
@[simp] theorem State.orFlags_trust (s : State) (f : Flags) : (s.orFlags f).trust = s.trust := rfl
@[simp] theorem State.orFlags_peerReads (s : State) (f : Flags) : (s.orFlags f).peerReads = s.peerReads := rfl
@[simp] theorem State.orFlags_strays (s : State) (f : Flags) : (s.orFlags f).strays = s.strays := rfl
@[simp] theorem State.orFlags_packetTag (s : State) (f : Flags) : (s.orFlags f).packetTag = s.packetTag := rfl
@[simp] theorem State.orFlags_outbox (s : State) (f : Flags) : (s.orFlags f).outbox = s.outbox := rfl
@[simp] theorem State.orFlags_hostHeld (s : State) (f : Flags) : (s.orFlags f).hostHeld = s.hostHeld := rfl
@[simp] theorem State.orFlags_agenda (s : State) (f : Flags) : (s.orFlags f).agenda = s.agenda := rfl
@[simp] theorem State.orFlags_free (s : State) (f : Flags) : (s.orFlags f).free = s.free := rfl
@[simp] theorem State.orFlags_clock (s : State) (f : Flags) : (s.orFlags f).clock = s.clock := rfl

/-! ### State.takeVstart -/

@[simp] theorem State.takeVstart_variant (s : State) : (s.takeVstart).variant = s.variant := rfl
@[simp] theorem State.takeVstart_others (s : State) : (s.takeVstart).others = s.others := rfl
@[simp] theorem State.takeVstart_cores (s : State) : (s.takeVstart).cores = s.cores := rfl
@[simp] theorem State.takeVstart_clusters (s : State) : (s.takeVstart).clusters = s.clusters := rfl
@[simp] theorem State.takeVstart_dies (s : State) : (s.takeVstart).dies = s.dies := rfl
@[simp] theorem State.takeVstart_mem (s : State) : (s.takeVstart).mem = s.mem := rfl
@[simp] theorem State.takeVstart_poison (s : State) : (s.takeVstart).poison = s.poison := rfl
@[simp] theorem State.takeVstart_regions (s : State) : (s.takeVstart).regions = s.regions := rfl
@[simp] theorem State.takeVstart_rs (s : State) : (s.takeVstart).rs = s.rs := rfl
@[simp] theorem State.takeVstart_slots (s : State) : (s.takeVstart).slots = s.slots := rfl
@[simp] theorem State.takeVstart_queues (s : State) : (s.takeVstart).queues = s.queues := rfl
@[simp] theorem State.takeVstart_jobs (s : State) : (s.takeVstart).jobs = s.jobs := rfl
@[simp] theorem State.takeVstart_trains (s : State) : (s.takeVstart).trains = s.trains := rfl
@[simp] theorem State.takeVstart_collHeld (s : State) : (s.takeVstart).collHeld = s.collHeld := rfl
@[simp] theorem State.takeVstart_queries (s : State) : (s.takeVstart).queries = s.queries := rfl
@[simp] theorem State.takeVstart_cmTable (s : State) : (s.takeVstart).cmTable = s.cmTable := rfl
@[simp] theorem State.takeVstart_cmStores (s : State) : (s.takeVstart).cmStores = s.cmStores := rfl
@[simp] theorem State.takeVstart_cmOps (s : State) : (s.takeVstart).cmOps = s.cmOps := rfl
@[simp] theorem State.takeVstart_cmKeys (s : State) : (s.takeVstart).cmKeys = s.cmKeys := rfl
@[simp] theorem State.takeVstart_nonces (s : State) : (s.takeVstart).nonces = s.nonces := rfl
@[simp] theorem State.takeVstart_cmRegs (s : State) : (s.takeVstart).cmRegs = s.cmRegs := rfl
@[simp] theorem State.takeVstart_domains (s : State) : (s.takeVstart).domains = s.domains := rfl
@[simp] theorem State.takeVstart_remap (s : State) : (s.takeVstart).remap = s.remap := rfl
@[simp] theorem State.takeVstart_remapFree (s : State) : (s.takeVstart).remapFree = s.remapFree := rfl
@[simp] theorem State.takeVstart_codes (s : State) : (s.takeVstart).codes = s.codes := rfl
@[simp] theorem State.takeVstart_metas (s : State) : (s.takeVstart).metas = s.metas := rfl
@[simp] theorem State.takeVstart_stored (s : State) : (s.takeVstart).stored = s.stored := rfl
@[simp] theorem State.takeVstart_trackers (s : State) : (s.takeVstart).trackers = s.trackers := rfl
@[simp] theorem State.takeVstart_trackWindow (s : State) : (s.takeVstart).trackWindow = s.trackWindow := rfl
@[simp] theorem State.takeVstart_directed (s : State) : (s.takeVstart).directed = s.directed := rfl
@[simp] theorem State.takeVstart_postponed (s : State) : (s.takeVstart).postponed = s.postponed := rfl
@[simp] theorem State.takeVstart_divisor (s : State) : (s.takeVstart).divisor = s.divisor := rfl
@[simp] theorem State.takeVstart_near (s : State) : (s.takeVstart).near = s.near := rfl
@[simp] theorem State.takeVstart_phase (s : State) : (s.takeVstart).phase = s.phase := rfl
@[simp] theorem State.takeVstart_chans (s : State) : (s.takeVstart).chans = s.chans := rfl
@[simp] theorem State.takeVstart_tillers (s : State) : (s.takeVstart).tillers = s.tillers := rfl
@[simp] theorem State.takeVstart_tlfw (s : State) : (s.takeVstart).tlfw = s.tlfw := rfl
@[simp] theorem State.takeVstart_tick (s : State) : (s.takeVstart).tick = s.tick := rfl
@[simp] theorem State.takeVstart_cycles (s : State) : (s.takeVstart).cycles = s.cycles := rfl
@[simp] theorem State.takeVstart_errors (s : State) : (s.takeVstart).errors = s.errors := rfl
@[simp] theorem State.takeVstart_nodeid (s : State) : (s.takeVstart).nodeid = s.nodeid := rfl
@[simp] theorem State.takeVstart_route (s : State) : (s.takeVstart).route = s.route := rfl
@[simp] theorem State.takeVstart_routeHeld (s : State) : (s.takeVstart).routeHeld = s.routeHeld := rfl
@[simp] theorem State.takeVstart_ports (s : State) : (s.takeVstart).ports = s.ports := rfl
@[simp] theorem State.takeVstart_ethUp (s : State) : (s.takeVstart).ethUp = s.ethUp := rfl
@[simp] theorem State.takeVstart_msix (s : State) : (s.takeVstart).msix = s.msix := rfl
@[simp] theorem State.takeVstart_trust (s : State) : (s.takeVstart).trust = s.trust := rfl
@[simp] theorem State.takeVstart_peerReads (s : State) : (s.takeVstart).peerReads = s.peerReads := rfl
@[simp] theorem State.takeVstart_strays (s : State) : (s.takeVstart).strays = s.strays := rfl
@[simp] theorem State.takeVstart_packetTag (s : State) : (s.takeVstart).packetTag = s.packetTag := rfl
@[simp] theorem State.takeVstart_outbox (s : State) : (s.takeVstart).outbox = s.outbox := rfl
@[simp] theorem State.takeVstart_hostHeld (s : State) : (s.takeVstart).hostHeld = s.hostHeld := rfl
@[simp] theorem State.takeVstart_agenda (s : State) : (s.takeVstart).agenda = s.agenda := rfl
@[simp] theorem State.takeVstart_free (s : State) : (s.takeVstart).free = s.free := rfl
@[simp] theorem State.takeVstart_clock (s : State) : (s.takeVstart).clock = s.clock := rfl

/-! ### State.push -/

@[simp] theorem State.push_variant (s : State) (k : OpClass) : (s.push k).variant = s.variant := rfl
@[simp] theorem State.push_others (s : State) (k : OpClass) : (s.push k).others = s.others := rfl
@[simp] theorem State.push_cores (s : State) (k : OpClass) : (s.push k).cores = s.cores := rfl
@[simp] theorem State.push_clusters (s : State) (k : OpClass) : (s.push k).clusters = s.clusters := rfl
@[simp] theorem State.push_dies (s : State) (k : OpClass) : (s.push k).dies = s.dies := rfl
@[simp] theorem State.push_mem (s : State) (k : OpClass) : (s.push k).mem = s.mem := rfl
@[simp] theorem State.push_poison (s : State) (k : OpClass) : (s.push k).poison = s.poison := rfl
@[simp] theorem State.push_regions (s : State) (k : OpClass) : (s.push k).regions = s.regions := rfl
@[simp] theorem State.push_rs (s : State) (k : OpClass) : (s.push k).rs = s.rs := rfl
@[simp] theorem State.push_slots (s : State) (k : OpClass) : (s.push k).slots = s.slots := rfl
@[simp] theorem State.push_queues (s : State) (k : OpClass) : (s.push k).queues = s.queues := rfl
@[simp] theorem State.push_jobs (s : State) (k : OpClass) : (s.push k).jobs = s.jobs := rfl
@[simp] theorem State.push_trains (s : State) (k : OpClass) : (s.push k).trains = s.trains := rfl
@[simp] theorem State.push_collHeld (s : State) (k : OpClass) : (s.push k).collHeld = s.collHeld := rfl
@[simp] theorem State.push_queries (s : State) (k : OpClass) : (s.push k).queries = s.queries := rfl
@[simp] theorem State.push_cmTable (s : State) (k : OpClass) : (s.push k).cmTable = s.cmTable := rfl
@[simp] theorem State.push_cmStores (s : State) (k : OpClass) : (s.push k).cmStores = s.cmStores := rfl
@[simp] theorem State.push_cmOps (s : State) (k : OpClass) : (s.push k).cmOps = s.cmOps := rfl
@[simp] theorem State.push_cmKeys (s : State) (k : OpClass) : (s.push k).cmKeys = s.cmKeys := rfl
@[simp] theorem State.push_nonces (s : State) (k : OpClass) : (s.push k).nonces = s.nonces := rfl
@[simp] theorem State.push_cmRegs (s : State) (k : OpClass) : (s.push k).cmRegs = s.cmRegs := rfl
@[simp] theorem State.push_domains (s : State) (k : OpClass) : (s.push k).domains = s.domains := rfl
@[simp] theorem State.push_remap (s : State) (k : OpClass) : (s.push k).remap = s.remap := rfl
@[simp] theorem State.push_remapFree (s : State) (k : OpClass) : (s.push k).remapFree = s.remapFree := rfl
@[simp] theorem State.push_codes (s : State) (k : OpClass) : (s.push k).codes = s.codes := rfl
@[simp] theorem State.push_metas (s : State) (k : OpClass) : (s.push k).metas = s.metas := rfl
@[simp] theorem State.push_stored (s : State) (k : OpClass) : (s.push k).stored = s.stored := rfl
@[simp] theorem State.push_trackers (s : State) (k : OpClass) : (s.push k).trackers = s.trackers := rfl
@[simp] theorem State.push_trackWindow (s : State) (k : OpClass) : (s.push k).trackWindow = s.trackWindow := rfl
@[simp] theorem State.push_directed (s : State) (k : OpClass) : (s.push k).directed = s.directed := rfl
@[simp] theorem State.push_postponed (s : State) (k : OpClass) : (s.push k).postponed = s.postponed := rfl
@[simp] theorem State.push_divisor (s : State) (k : OpClass) : (s.push k).divisor = s.divisor := rfl
@[simp] theorem State.push_near (s : State) (k : OpClass) : (s.push k).near = s.near := rfl
@[simp] theorem State.push_phase (s : State) (k : OpClass) : (s.push k).phase = s.phase := rfl
@[simp] theorem State.push_chans (s : State) (k : OpClass) : (s.push k).chans = s.chans := rfl
@[simp] theorem State.push_tillers (s : State) (k : OpClass) : (s.push k).tillers = s.tillers := rfl
@[simp] theorem State.push_tlfw (s : State) (k : OpClass) : (s.push k).tlfw = s.tlfw := rfl
@[simp] theorem State.push_tick (s : State) (k : OpClass) : (s.push k).tick = s.tick := rfl
@[simp] theorem State.push_cycles (s : State) (k : OpClass) : (s.push k).cycles = s.cycles := rfl
@[simp] theorem State.push_errors (s : State) (k : OpClass) : (s.push k).errors = s.errors := rfl
@[simp] theorem State.push_nodeid (s : State) (k : OpClass) : (s.push k).nodeid = s.nodeid := rfl
@[simp] theorem State.push_route (s : State) (k : OpClass) : (s.push k).route = s.route := rfl
@[simp] theorem State.push_routeHeld (s : State) (k : OpClass) : (s.push k).routeHeld = s.routeHeld := rfl
@[simp] theorem State.push_ports (s : State) (k : OpClass) : (s.push k).ports = s.ports := rfl
@[simp] theorem State.push_ethUp (s : State) (k : OpClass) : (s.push k).ethUp = s.ethUp := rfl
@[simp] theorem State.push_msix (s : State) (k : OpClass) : (s.push k).msix = s.msix := rfl
@[simp] theorem State.push_trust (s : State) (k : OpClass) : (s.push k).trust = s.trust := rfl
@[simp] theorem State.push_peerReads (s : State) (k : OpClass) : (s.push k).peerReads = s.peerReads := rfl
@[simp] theorem State.push_strays (s : State) (k : OpClass) : (s.push k).strays = s.strays := rfl
@[simp] theorem State.push_packetTag (s : State) (k : OpClass) : (s.push k).packetTag = s.packetTag := rfl
@[simp] theorem State.push_outbox (s : State) (k : OpClass) : (s.push k).outbox = s.outbox := rfl
@[simp] theorem State.push_hostHeld (s : State) (k : OpClass) : (s.push k).hostHeld = s.hostHeld := rfl
@[simp] theorem State.push_agenda (s : State) (k : OpClass) : (s.push k).agenda = s.agenda := rfl
@[simp] theorem State.push_free (s : State) (k : OpClass) : (s.push k).free = s.free := rfl
@[simp] theorem State.push_clock (s : State) (k : OpClass) : (s.push k).clock = s.clock := rfl

/-! ### State.retireTo -/

@[simp] theorem State.retireTo_variant (s : State) (pc : Word) : (s.retireTo pc).variant = s.variant := rfl
@[simp] theorem State.retireTo_others (s : State) (pc : Word) : (s.retireTo pc).others = s.others := rfl
@[simp] theorem State.retireTo_cores (s : State) (pc : Word) : (s.retireTo pc).cores = s.cores := rfl
@[simp] theorem State.retireTo_clusters (s : State) (pc : Word) : (s.retireTo pc).clusters = s.clusters := rfl
@[simp] theorem State.retireTo_dies (s : State) (pc : Word) : (s.retireTo pc).dies = s.dies := rfl
@[simp] theorem State.retireTo_mem (s : State) (pc : Word) : (s.retireTo pc).mem = s.mem := rfl
@[simp] theorem State.retireTo_poison (s : State) (pc : Word) : (s.retireTo pc).poison = s.poison := rfl
@[simp] theorem State.retireTo_regions (s : State) (pc : Word) : (s.retireTo pc).regions = s.regions := rfl
@[simp] theorem State.retireTo_rs (s : State) (pc : Word) : (s.retireTo pc).rs = s.rs := rfl
@[simp] theorem State.retireTo_slots (s : State) (pc : Word) : (s.retireTo pc).slots = s.slots := rfl
@[simp] theorem State.retireTo_queues (s : State) (pc : Word) : (s.retireTo pc).queues = s.queues := rfl
@[simp] theorem State.retireTo_jobs (s : State) (pc : Word) : (s.retireTo pc).jobs = s.jobs := rfl
@[simp] theorem State.retireTo_trains (s : State) (pc : Word) : (s.retireTo pc).trains = s.trains := rfl
@[simp] theorem State.retireTo_collHeld (s : State) (pc : Word) : (s.retireTo pc).collHeld = s.collHeld := rfl
@[simp] theorem State.retireTo_queries (s : State) (pc : Word) : (s.retireTo pc).queries = s.queries := rfl
@[simp] theorem State.retireTo_cmTable (s : State) (pc : Word) : (s.retireTo pc).cmTable = s.cmTable := rfl
@[simp] theorem State.retireTo_cmStores (s : State) (pc : Word) : (s.retireTo pc).cmStores = s.cmStores := rfl
@[simp] theorem State.retireTo_cmOps (s : State) (pc : Word) : (s.retireTo pc).cmOps = s.cmOps := rfl
@[simp] theorem State.retireTo_cmKeys (s : State) (pc : Word) : (s.retireTo pc).cmKeys = s.cmKeys := rfl
@[simp] theorem State.retireTo_nonces (s : State) (pc : Word) : (s.retireTo pc).nonces = s.nonces := rfl
@[simp] theorem State.retireTo_cmRegs (s : State) (pc : Word) : (s.retireTo pc).cmRegs = s.cmRegs := rfl
@[simp] theorem State.retireTo_domains (s : State) (pc : Word) : (s.retireTo pc).domains = s.domains := rfl
@[simp] theorem State.retireTo_remap (s : State) (pc : Word) : (s.retireTo pc).remap = s.remap := rfl
@[simp] theorem State.retireTo_remapFree (s : State) (pc : Word) : (s.retireTo pc).remapFree = s.remapFree := rfl
@[simp] theorem State.retireTo_codes (s : State) (pc : Word) : (s.retireTo pc).codes = s.codes := rfl
@[simp] theorem State.retireTo_metas (s : State) (pc : Word) : (s.retireTo pc).metas = s.metas := rfl
@[simp] theorem State.retireTo_stored (s : State) (pc : Word) : (s.retireTo pc).stored = s.stored := rfl
@[simp] theorem State.retireTo_trackers (s : State) (pc : Word) : (s.retireTo pc).trackers = s.trackers := rfl
@[simp] theorem State.retireTo_trackWindow (s : State) (pc : Word) : (s.retireTo pc).trackWindow = s.trackWindow := rfl
@[simp] theorem State.retireTo_directed (s : State) (pc : Word) : (s.retireTo pc).directed = s.directed := rfl
@[simp] theorem State.retireTo_postponed (s : State) (pc : Word) : (s.retireTo pc).postponed = s.postponed := rfl
@[simp] theorem State.retireTo_divisor (s : State) (pc : Word) : (s.retireTo pc).divisor = s.divisor := rfl
@[simp] theorem State.retireTo_near (s : State) (pc : Word) : (s.retireTo pc).near = s.near := rfl
@[simp] theorem State.retireTo_phase (s : State) (pc : Word) : (s.retireTo pc).phase = s.phase := rfl
@[simp] theorem State.retireTo_chans (s : State) (pc : Word) : (s.retireTo pc).chans = s.chans := rfl
@[simp] theorem State.retireTo_tillers (s : State) (pc : Word) : (s.retireTo pc).tillers = s.tillers := rfl
@[simp] theorem State.retireTo_tlfw (s : State) (pc : Word) : (s.retireTo pc).tlfw = s.tlfw := rfl
@[simp] theorem State.retireTo_tick (s : State) (pc : Word) : (s.retireTo pc).tick = s.tick := rfl
@[simp] theorem State.retireTo_cycles (s : State) (pc : Word) : (s.retireTo pc).cycles = s.cycles := rfl
@[simp] theorem State.retireTo_errors (s : State) (pc : Word) : (s.retireTo pc).errors = s.errors := rfl
@[simp] theorem State.retireTo_nodeid (s : State) (pc : Word) : (s.retireTo pc).nodeid = s.nodeid := rfl
@[simp] theorem State.retireTo_route (s : State) (pc : Word) : (s.retireTo pc).route = s.route := rfl
@[simp] theorem State.retireTo_routeHeld (s : State) (pc : Word) : (s.retireTo pc).routeHeld = s.routeHeld := rfl
@[simp] theorem State.retireTo_ports (s : State) (pc : Word) : (s.retireTo pc).ports = s.ports := rfl
@[simp] theorem State.retireTo_ethUp (s : State) (pc : Word) : (s.retireTo pc).ethUp = s.ethUp := rfl
@[simp] theorem State.retireTo_msix (s : State) (pc : Word) : (s.retireTo pc).msix = s.msix := rfl
@[simp] theorem State.retireTo_trust (s : State) (pc : Word) : (s.retireTo pc).trust = s.trust := rfl
@[simp] theorem State.retireTo_strays (s : State) (pc : Word) : (s.retireTo pc).strays = s.strays := rfl
@[simp] theorem State.retireTo_packetTag (s : State) (pc : Word) : (s.retireTo pc).packetTag = s.packetTag := rfl
@[simp] theorem State.retireTo_outbox (s : State) (pc : Word) : (s.retireTo pc).outbox = s.outbox := rfl
@[simp] theorem State.retireTo_hostHeld (s : State) (pc : Word) : (s.retireTo pc).hostHeld = s.hostHeld := rfl
@[simp] theorem State.retireTo_agenda (s : State) (pc : Word) : (s.retireTo pc).agenda = s.agenda := rfl
@[simp] theorem State.retireTo_free (s : State) (pc : Word) : (s.retireTo pc).free = s.free := rfl
@[simp] theorem State.retireTo_clock (s : State) (pc : Word) : (s.retireTo pc).clock = s.clock := rfl

/-! ### State.later -/

@[simp] theorem State.later_variant (s : State) (e : Event) : (s.later e).variant = s.variant := rfl
@[simp] theorem State.later_cc (s : State) (e : Event) : (s.later e).cc = s.cc := rfl
@[simp] theorem State.later_others (s : State) (e : Event) : (s.later e).others = s.others := rfl
@[simp] theorem State.later_cores (s : State) (e : Event) : (s.later e).cores = s.cores := rfl
@[simp] theorem State.later_clusters (s : State) (e : Event) : (s.later e).clusters = s.clusters := rfl
@[simp] theorem State.later_dies (s : State) (e : Event) : (s.later e).dies = s.dies := rfl
@[simp] theorem State.later_mem (s : State) (e : Event) : (s.later e).mem = s.mem := rfl
@[simp] theorem State.later_poison (s : State) (e : Event) : (s.later e).poison = s.poison := rfl
@[simp] theorem State.later_regions (s : State) (e : Event) : (s.later e).regions = s.regions := rfl
@[simp] theorem State.later_rs (s : State) (e : Event) : (s.later e).rs = s.rs := rfl
@[simp] theorem State.later_slots (s : State) (e : Event) : (s.later e).slots = s.slots := rfl
@[simp] theorem State.later_queues (s : State) (e : Event) : (s.later e).queues = s.queues := rfl
@[simp] theorem State.later_jobs (s : State) (e : Event) : (s.later e).jobs = s.jobs := rfl
@[simp] theorem State.later_trains (s : State) (e : Event) : (s.later e).trains = s.trains := rfl
@[simp] theorem State.later_collHeld (s : State) (e : Event) : (s.later e).collHeld = s.collHeld := rfl
@[simp] theorem State.later_queries (s : State) (e : Event) : (s.later e).queries = s.queries := rfl
@[simp] theorem State.later_cmTable (s : State) (e : Event) : (s.later e).cmTable = s.cmTable := rfl
@[simp] theorem State.later_cmStores (s : State) (e : Event) : (s.later e).cmStores = s.cmStores := rfl
@[simp] theorem State.later_cmOps (s : State) (e : Event) : (s.later e).cmOps = s.cmOps := rfl
@[simp] theorem State.later_cmKeys (s : State) (e : Event) : (s.later e).cmKeys = s.cmKeys := rfl
@[simp] theorem State.later_nonces (s : State) (e : Event) : (s.later e).nonces = s.nonces := rfl
@[simp] theorem State.later_cmRegs (s : State) (e : Event) : (s.later e).cmRegs = s.cmRegs := rfl
@[simp] theorem State.later_domains (s : State) (e : Event) : (s.later e).domains = s.domains := rfl
@[simp] theorem State.later_remap (s : State) (e : Event) : (s.later e).remap = s.remap := rfl
@[simp] theorem State.later_remapFree (s : State) (e : Event) : (s.later e).remapFree = s.remapFree := rfl
@[simp] theorem State.later_codes (s : State) (e : Event) : (s.later e).codes = s.codes := rfl
@[simp] theorem State.later_metas (s : State) (e : Event) : (s.later e).metas = s.metas := rfl
@[simp] theorem State.later_stored (s : State) (e : Event) : (s.later e).stored = s.stored := rfl
@[simp] theorem State.later_trackers (s : State) (e : Event) : (s.later e).trackers = s.trackers := rfl
@[simp] theorem State.later_trackWindow (s : State) (e : Event) : (s.later e).trackWindow = s.trackWindow := rfl
@[simp] theorem State.later_directed (s : State) (e : Event) : (s.later e).directed = s.directed := rfl
@[simp] theorem State.later_postponed (s : State) (e : Event) : (s.later e).postponed = s.postponed := rfl
@[simp] theorem State.later_divisor (s : State) (e : Event) : (s.later e).divisor = s.divisor := rfl
@[simp] theorem State.later_near (s : State) (e : Event) : (s.later e).near = s.near := rfl
@[simp] theorem State.later_phase (s : State) (e : Event) : (s.later e).phase = s.phase := rfl
@[simp] theorem State.later_chans (s : State) (e : Event) : (s.later e).chans = s.chans := rfl
@[simp] theorem State.later_tillers (s : State) (e : Event) : (s.later e).tillers = s.tillers := rfl
@[simp] theorem State.later_tlfw (s : State) (e : Event) : (s.later e).tlfw = s.tlfw := rfl
@[simp] theorem State.later_tick (s : State) (e : Event) : (s.later e).tick = s.tick := rfl
@[simp] theorem State.later_cycles (s : State) (e : Event) : (s.later e).cycles = s.cycles := rfl
@[simp] theorem State.later_errors (s : State) (e : Event) : (s.later e).errors = s.errors := rfl
@[simp] theorem State.later_nodeid (s : State) (e : Event) : (s.later e).nodeid = s.nodeid := rfl
@[simp] theorem State.later_route (s : State) (e : Event) : (s.later e).route = s.route := rfl
@[simp] theorem State.later_routeHeld (s : State) (e : Event) : (s.later e).routeHeld = s.routeHeld := rfl
@[simp] theorem State.later_ports (s : State) (e : Event) : (s.later e).ports = s.ports := rfl
@[simp] theorem State.later_ethUp (s : State) (e : Event) : (s.later e).ethUp = s.ethUp := rfl
@[simp] theorem State.later_msix (s : State) (e : Event) : (s.later e).msix = s.msix := rfl
@[simp] theorem State.later_trust (s : State) (e : Event) : (s.later e).trust = s.trust := rfl
@[simp] theorem State.later_peerReads (s : State) (e : Event) : (s.later e).peerReads = s.peerReads := rfl
@[simp] theorem State.later_strays (s : State) (e : Event) : (s.later e).strays = s.strays := rfl
@[simp] theorem State.later_packetTag (s : State) (e : Event) : (s.later e).packetTag = s.packetTag := rfl
@[simp] theorem State.later_outbox (s : State) (e : Event) : (s.later e).outbox = s.outbox := rfl
@[simp] theorem State.later_hostHeld (s : State) (e : Event) : (s.later e).hostHeld = s.hostHeld := rfl
@[simp] theorem State.later_free (s : State) (e : Event) : (s.later e).free = s.free := rfl
@[simp] theorem State.later_clock (s : State) (e : Event) : (s.later e).clock = s.clock := rfl

/-! ### State.putBytes -/

@[simp] theorem State.putBytes_variant (s : State) (pa : Nat) (bs : List Byte) : (s.putBytes pa bs).variant = s.variant := rfl
@[simp] theorem State.putBytes_cc (s : State) (pa : Nat) (bs : List Byte) : (s.putBytes pa bs).cc = s.cc := rfl
@[simp] theorem State.putBytes_others (s : State) (pa : Nat) (bs : List Byte) : (s.putBytes pa bs).others = s.others := rfl
@[simp] theorem State.putBytes_cores (s : State) (pa : Nat) (bs : List Byte) : (s.putBytes pa bs).cores = s.cores := rfl
@[simp] theorem State.putBytes_clusters (s : State) (pa : Nat) (bs : List Byte) : (s.putBytes pa bs).clusters = s.clusters := rfl
@[simp] theorem State.putBytes_dies (s : State) (pa : Nat) (bs : List Byte) : (s.putBytes pa bs).dies = s.dies := rfl
@[simp] theorem State.putBytes_regions (s : State) (pa : Nat) (bs : List Byte) : (s.putBytes pa bs).regions = s.regions := rfl
@[simp] theorem State.putBytes_rs (s : State) (pa : Nat) (bs : List Byte) : (s.putBytes pa bs).rs = s.rs := rfl
@[simp] theorem State.putBytes_slots (s : State) (pa : Nat) (bs : List Byte) : (s.putBytes pa bs).slots = s.slots := rfl
@[simp] theorem State.putBytes_queues (s : State) (pa : Nat) (bs : List Byte) : (s.putBytes pa bs).queues = s.queues := rfl
@[simp] theorem State.putBytes_jobs (s : State) (pa : Nat) (bs : List Byte) : (s.putBytes pa bs).jobs = s.jobs := rfl
@[simp] theorem State.putBytes_trains (s : State) (pa : Nat) (bs : List Byte) : (s.putBytes pa bs).trains = s.trains := rfl
@[simp] theorem State.putBytes_collHeld (s : State) (pa : Nat) (bs : List Byte) : (s.putBytes pa bs).collHeld = s.collHeld := rfl
@[simp] theorem State.putBytes_queries (s : State) (pa : Nat) (bs : List Byte) : (s.putBytes pa bs).queries = s.queries := rfl
@[simp] theorem State.putBytes_cmTable (s : State) (pa : Nat) (bs : List Byte) : (s.putBytes pa bs).cmTable = s.cmTable := rfl
@[simp] theorem State.putBytes_cmStores (s : State) (pa : Nat) (bs : List Byte) : (s.putBytes pa bs).cmStores = s.cmStores := rfl
@[simp] theorem State.putBytes_cmOps (s : State) (pa : Nat) (bs : List Byte) : (s.putBytes pa bs).cmOps = s.cmOps := rfl
@[simp] theorem State.putBytes_cmKeys (s : State) (pa : Nat) (bs : List Byte) : (s.putBytes pa bs).cmKeys = s.cmKeys := rfl
@[simp] theorem State.putBytes_nonces (s : State) (pa : Nat) (bs : List Byte) : (s.putBytes pa bs).nonces = s.nonces := rfl
@[simp] theorem State.putBytes_cmRegs (s : State) (pa : Nat) (bs : List Byte) : (s.putBytes pa bs).cmRegs = s.cmRegs := rfl
@[simp] theorem State.putBytes_domains (s : State) (pa : Nat) (bs : List Byte) : (s.putBytes pa bs).domains = s.domains := rfl
@[simp] theorem State.putBytes_remap (s : State) (pa : Nat) (bs : List Byte) : (s.putBytes pa bs).remap = s.remap := rfl
@[simp] theorem State.putBytes_remapFree (s : State) (pa : Nat) (bs : List Byte) : (s.putBytes pa bs).remapFree = s.remapFree := rfl
@[simp] theorem State.putBytes_codes (s : State) (pa : Nat) (bs : List Byte) : (s.putBytes pa bs).codes = s.codes := rfl
@[simp] theorem State.putBytes_metas (s : State) (pa : Nat) (bs : List Byte) : (s.putBytes pa bs).metas = s.metas := rfl
@[simp] theorem State.putBytes_stored (s : State) (pa : Nat) (bs : List Byte) : (s.putBytes pa bs).stored = s.stored := rfl
@[simp] theorem State.putBytes_trackers (s : State) (pa : Nat) (bs : List Byte) : (s.putBytes pa bs).trackers = s.trackers := rfl
@[simp] theorem State.putBytes_trackWindow (s : State) (pa : Nat) (bs : List Byte) : (s.putBytes pa bs).trackWindow = s.trackWindow := rfl
@[simp] theorem State.putBytes_directed (s : State) (pa : Nat) (bs : List Byte) : (s.putBytes pa bs).directed = s.directed := rfl
@[simp] theorem State.putBytes_postponed (s : State) (pa : Nat) (bs : List Byte) : (s.putBytes pa bs).postponed = s.postponed := rfl
@[simp] theorem State.putBytes_divisor (s : State) (pa : Nat) (bs : List Byte) : (s.putBytes pa bs).divisor = s.divisor := rfl
@[simp] theorem State.putBytes_near (s : State) (pa : Nat) (bs : List Byte) : (s.putBytes pa bs).near = s.near := rfl
@[simp] theorem State.putBytes_phase (s : State) (pa : Nat) (bs : List Byte) : (s.putBytes pa bs).phase = s.phase := rfl
@[simp] theorem State.putBytes_chans (s : State) (pa : Nat) (bs : List Byte) : (s.putBytes pa bs).chans = s.chans := rfl
@[simp] theorem State.putBytes_tillers (s : State) (pa : Nat) (bs : List Byte) : (s.putBytes pa bs).tillers = s.tillers := rfl
@[simp] theorem State.putBytes_tlfw (s : State) (pa : Nat) (bs : List Byte) : (s.putBytes pa bs).tlfw = s.tlfw := rfl
@[simp] theorem State.putBytes_tick (s : State) (pa : Nat) (bs : List Byte) : (s.putBytes pa bs).tick = s.tick := rfl
@[simp] theorem State.putBytes_cycles (s : State) (pa : Nat) (bs : List Byte) : (s.putBytes pa bs).cycles = s.cycles := rfl
@[simp] theorem State.putBytes_errors (s : State) (pa : Nat) (bs : List Byte) : (s.putBytes pa bs).errors = s.errors := rfl
@[simp] theorem State.putBytes_nodeid (s : State) (pa : Nat) (bs : List Byte) : (s.putBytes pa bs).nodeid = s.nodeid := rfl
@[simp] theorem State.putBytes_route (s : State) (pa : Nat) (bs : List Byte) : (s.putBytes pa bs).route = s.route := rfl
@[simp] theorem State.putBytes_routeHeld (s : State) (pa : Nat) (bs : List Byte) : (s.putBytes pa bs).routeHeld = s.routeHeld := rfl
@[simp] theorem State.putBytes_ports (s : State) (pa : Nat) (bs : List Byte) : (s.putBytes pa bs).ports = s.ports := rfl
@[simp] theorem State.putBytes_ethUp (s : State) (pa : Nat) (bs : List Byte) : (s.putBytes pa bs).ethUp = s.ethUp := rfl
@[simp] theorem State.putBytes_msix (s : State) (pa : Nat) (bs : List Byte) : (s.putBytes pa bs).msix = s.msix := rfl
@[simp] theorem State.putBytes_trust (s : State) (pa : Nat) (bs : List Byte) : (s.putBytes pa bs).trust = s.trust := rfl
@[simp] theorem State.putBytes_peerReads (s : State) (pa : Nat) (bs : List Byte) : (s.putBytes pa bs).peerReads = s.peerReads := rfl
@[simp] theorem State.putBytes_strays (s : State) (pa : Nat) (bs : List Byte) : (s.putBytes pa bs).strays = s.strays := rfl
@[simp] theorem State.putBytes_packetTag (s : State) (pa : Nat) (bs : List Byte) : (s.putBytes pa bs).packetTag = s.packetTag := rfl
@[simp] theorem State.putBytes_outbox (s : State) (pa : Nat) (bs : List Byte) : (s.putBytes pa bs).outbox = s.outbox := rfl
@[simp] theorem State.putBytes_hostHeld (s : State) (pa : Nat) (bs : List Byte) : (s.putBytes pa bs).hostHeld = s.hostHeld := rfl
@[simp] theorem State.putBytes_agenda (s : State) (pa : Nat) (bs : List Byte) : (s.putBytes pa bs).agenda = s.agenda := rfl
@[simp] theorem State.putBytes_free (s : State) (pa : Nat) (bs : List Byte) : (s.putBytes pa bs).free = s.free := rfl
@[simp] theorem State.putBytes_clock (s : State) (pa : Nat) (bs : List Byte) : (s.putBytes pa bs).clock = s.clock := rfl

/-! ### State.zeroBytes -/

@[simp] theorem State.zeroBytes_variant (s : State) (pa n : Nat) : (s.zeroBytes pa n).variant = s.variant := rfl
@[simp] theorem State.zeroBytes_cc (s : State) (pa n : Nat) : (s.zeroBytes pa n).cc = s.cc := rfl
@[simp] theorem State.zeroBytes_others (s : State) (pa n : Nat) : (s.zeroBytes pa n).others = s.others := rfl
@[simp] theorem State.zeroBytes_cores (s : State) (pa n : Nat) : (s.zeroBytes pa n).cores = s.cores := rfl
@[simp] theorem State.zeroBytes_clusters (s : State) (pa n : Nat) : (s.zeroBytes pa n).clusters = s.clusters := rfl
@[simp] theorem State.zeroBytes_dies (s : State) (pa n : Nat) : (s.zeroBytes pa n).dies = s.dies := rfl
@[simp] theorem State.zeroBytes_regions (s : State) (pa n : Nat) : (s.zeroBytes pa n).regions = s.regions := rfl
@[simp] theorem State.zeroBytes_rs (s : State) (pa n : Nat) : (s.zeroBytes pa n).rs = s.rs := rfl
@[simp] theorem State.zeroBytes_slots (s : State) (pa n : Nat) : (s.zeroBytes pa n).slots = s.slots := rfl
@[simp] theorem State.zeroBytes_queues (s : State) (pa n : Nat) : (s.zeroBytes pa n).queues = s.queues := rfl
@[simp] theorem State.zeroBytes_jobs (s : State) (pa n : Nat) : (s.zeroBytes pa n).jobs = s.jobs := rfl
@[simp] theorem State.zeroBytes_trains (s : State) (pa n : Nat) : (s.zeroBytes pa n).trains = s.trains := rfl
@[simp] theorem State.zeroBytes_collHeld (s : State) (pa n : Nat) : (s.zeroBytes pa n).collHeld = s.collHeld := rfl
@[simp] theorem State.zeroBytes_queries (s : State) (pa n : Nat) : (s.zeroBytes pa n).queries = s.queries := rfl
@[simp] theorem State.zeroBytes_cmTable (s : State) (pa n : Nat) : (s.zeroBytes pa n).cmTable = s.cmTable := rfl
@[simp] theorem State.zeroBytes_cmStores (s : State) (pa n : Nat) : (s.zeroBytes pa n).cmStores = s.cmStores := rfl
@[simp] theorem State.zeroBytes_cmOps (s : State) (pa n : Nat) : (s.zeroBytes pa n).cmOps = s.cmOps := rfl
@[simp] theorem State.zeroBytes_cmKeys (s : State) (pa n : Nat) : (s.zeroBytes pa n).cmKeys = s.cmKeys := rfl
@[simp] theorem State.zeroBytes_nonces (s : State) (pa n : Nat) : (s.zeroBytes pa n).nonces = s.nonces := rfl
@[simp] theorem State.zeroBytes_cmRegs (s : State) (pa n : Nat) : (s.zeroBytes pa n).cmRegs = s.cmRegs := rfl
@[simp] theorem State.zeroBytes_domains (s : State) (pa n : Nat) : (s.zeroBytes pa n).domains = s.domains := rfl
@[simp] theorem State.zeroBytes_remap (s : State) (pa n : Nat) : (s.zeroBytes pa n).remap = s.remap := rfl
@[simp] theorem State.zeroBytes_remapFree (s : State) (pa n : Nat) : (s.zeroBytes pa n).remapFree = s.remapFree := rfl
@[simp] theorem State.zeroBytes_codes (s : State) (pa n : Nat) : (s.zeroBytes pa n).codes = s.codes := rfl
@[simp] theorem State.zeroBytes_metas (s : State) (pa n : Nat) : (s.zeroBytes pa n).metas = s.metas := rfl
@[simp] theorem State.zeroBytes_stored (s : State) (pa n : Nat) : (s.zeroBytes pa n).stored = s.stored := rfl
@[simp] theorem State.zeroBytes_trackers (s : State) (pa n : Nat) : (s.zeroBytes pa n).trackers = s.trackers := rfl
@[simp] theorem State.zeroBytes_trackWindow (s : State) (pa n : Nat) : (s.zeroBytes pa n).trackWindow = s.trackWindow := rfl
@[simp] theorem State.zeroBytes_directed (s : State) (pa n : Nat) : (s.zeroBytes pa n).directed = s.directed := rfl
@[simp] theorem State.zeroBytes_postponed (s : State) (pa n : Nat) : (s.zeroBytes pa n).postponed = s.postponed := rfl
@[simp] theorem State.zeroBytes_divisor (s : State) (pa n : Nat) : (s.zeroBytes pa n).divisor = s.divisor := rfl
@[simp] theorem State.zeroBytes_near (s : State) (pa n : Nat) : (s.zeroBytes pa n).near = s.near := rfl
@[simp] theorem State.zeroBytes_phase (s : State) (pa n : Nat) : (s.zeroBytes pa n).phase = s.phase := rfl
@[simp] theorem State.zeroBytes_chans (s : State) (pa n : Nat) : (s.zeroBytes pa n).chans = s.chans := rfl
@[simp] theorem State.zeroBytes_tillers (s : State) (pa n : Nat) : (s.zeroBytes pa n).tillers = s.tillers := rfl
@[simp] theorem State.zeroBytes_tlfw (s : State) (pa n : Nat) : (s.zeroBytes pa n).tlfw = s.tlfw := rfl
@[simp] theorem State.zeroBytes_tick (s : State) (pa n : Nat) : (s.zeroBytes pa n).tick = s.tick := rfl
@[simp] theorem State.zeroBytes_cycles (s : State) (pa n : Nat) : (s.zeroBytes pa n).cycles = s.cycles := rfl
@[simp] theorem State.zeroBytes_errors (s : State) (pa n : Nat) : (s.zeroBytes pa n).errors = s.errors := rfl
@[simp] theorem State.zeroBytes_nodeid (s : State) (pa n : Nat) : (s.zeroBytes pa n).nodeid = s.nodeid := rfl
@[simp] theorem State.zeroBytes_route (s : State) (pa n : Nat) : (s.zeroBytes pa n).route = s.route := rfl
@[simp] theorem State.zeroBytes_routeHeld (s : State) (pa n : Nat) : (s.zeroBytes pa n).routeHeld = s.routeHeld := rfl
@[simp] theorem State.zeroBytes_ports (s : State) (pa n : Nat) : (s.zeroBytes pa n).ports = s.ports := rfl
@[simp] theorem State.zeroBytes_ethUp (s : State) (pa n : Nat) : (s.zeroBytes pa n).ethUp = s.ethUp := rfl
@[simp] theorem State.zeroBytes_msix (s : State) (pa n : Nat) : (s.zeroBytes pa n).msix = s.msix := rfl
@[simp] theorem State.zeroBytes_trust (s : State) (pa n : Nat) : (s.zeroBytes pa n).trust = s.trust := rfl
@[simp] theorem State.zeroBytes_peerReads (s : State) (pa n : Nat) : (s.zeroBytes pa n).peerReads = s.peerReads := rfl
@[simp] theorem State.zeroBytes_strays (s : State) (pa n : Nat) : (s.zeroBytes pa n).strays = s.strays := rfl
@[simp] theorem State.zeroBytes_packetTag (s : State) (pa n : Nat) : (s.zeroBytes pa n).packetTag = s.packetTag := rfl
@[simp] theorem State.zeroBytes_outbox (s : State) (pa n : Nat) : (s.zeroBytes pa n).outbox = s.outbox := rfl
@[simp] theorem State.zeroBytes_hostHeld (s : State) (pa n : Nat) : (s.zeroBytes pa n).hostHeld = s.hostHeld := rfl
@[simp] theorem State.zeroBytes_agenda (s : State) (pa n : Nat) : (s.zeroBytes pa n).agenda = s.agenda := rfl
@[simp] theorem State.zeroBytes_free (s : State) (pa n : Nat) : (s.zeroBytes pa n).free = s.free := rfl
@[simp] theorem State.zeroBytes_clock (s : State) (pa n : Nat) : (s.zeroBytes pa n).clock = s.clock := rfl

/-! ### State.modCore -/

@[simp] theorem State.modCore_cc (s : State) (n : Nat) (f : Core → Core) : (s.modCore n f).cc = s.cc := rfl
@[simp] theorem State.modCore_others (s : State) (n : Nat) (f : Core → Core) : (s.modCore n f).others = s.others := rfl
@[simp] theorem State.modCore_mem (s : State) (n : Nat) (f : Core → Core) : (s.modCore n f).mem = s.mem := rfl
@[simp] theorem State.modCore_poison (s : State) (n : Nat) (f : Core → Core) : (s.modCore n f).poison = s.poison := rfl

/-! ### State.modCluster -/

@[simp] theorem State.modCluster_cc (s : State) (n : Nat) (f : Cluster → Cluster) : (s.modCluster n f).cc = s.cc := rfl
@[simp] theorem State.modCluster_others (s : State) (n : Nat) (f : Cluster → Cluster) : (s.modCluster n f).others = s.others := rfl
@[simp] theorem State.modCluster_mem (s : State) (n : Nat) (f : Cluster → Cluster) : (s.modCluster n f).mem = s.mem := rfl
@[simp] theorem State.modCluster_poison (s : State) (n : Nat) (f : Cluster → Cluster) : (s.modCluster n f).poison = s.poison := rfl

/-! ### State.modDie -/

@[simp] theorem State.modDie_cc (s : State) (n : Nat) (f : Die → Die) : (s.modDie n f).cc = s.cc := rfl
@[simp] theorem State.modDie_others (s : State) (n : Nat) (f : Die → Die) : (s.modDie n f).others = s.others := rfl
@[simp] theorem State.modDie_mem (s : State) (n : Nat) (f : Die → Die) : (s.modDie n f).mem = s.mem := rfl
@[simp] theorem State.modDie_poison (s : State) (n : Nat) (f : Die → Die) : (s.modDie n f).poison = s.poison := rfl

/-! ### State.modSlot -/

@[simp] theorem State.modSlot_cc (s : State) (n : Nat) (f : Slot → Slot) : (s.modSlot n f).cc = s.cc := rfl
@[simp] theorem State.modSlot_others (s : State) (n : Nat) (f : Slot → Slot) : (s.modSlot n f).others = s.others := rfl
@[simp] theorem State.modSlot_mem (s : State) (n : Nat) (f : Slot → Slot) : (s.modSlot n f).mem = s.mem := rfl
@[simp] theorem State.modSlot_poison (s : State) (n : Nat) (f : Slot → Slot) : (s.modSlot n f).poison = s.poison := rfl

/-! ### State.modQueue -/

@[simp] theorem State.modQueue_cc (s : State) (n : Nat) (f : Queue → Queue) : (s.modQueue n f).cc = s.cc := rfl
@[simp] theorem State.modQueue_others (s : State) (n : Nat) (f : Queue → Queue) : (s.modQueue n f).others = s.others := rfl
@[simp] theorem State.modQueue_mem (s : State) (n : Nat) (f : Queue → Queue) : (s.modQueue n f).mem = s.mem := rfl
@[simp] theorem State.modQueue_poison (s : State) (n : Nat) (f : Queue → Queue) : (s.modQueue n f).poison = s.poison := rfl

/-! ### State.modRegion -/

@[simp] theorem State.modRegion_cc (s : State) (pa : Nat) (f : Region → Region) : (s.modRegion pa f).cc = s.cc := rfl
@[simp] theorem State.modRegion_others (s : State) (pa : Nat) (f : Region → Region) : (s.modRegion pa f).others = s.others := rfl
@[simp] theorem State.modRegion_mem (s : State) (pa : Nat) (f : Region → Region) : (s.modRegion pa f).mem = s.mem := rfl
@[simp] theorem State.modRegion_poison (s : State) (pa : Nat) (f : Region → Region) : (s.modRegion pa f).poison = s.poison := rfl

/-! ### The control core of an updated state -/

@[simp] theorem State.modCc_cc (s : State) (g : ControlCore → ControlCore) : (s.modCc g).cc = g s.cc := rfl
@[simp] theorem State.setX_cc (s : State) (n : XReg) (v : Word) : (s.setX n v).cc = s.cc.setX n v := rfl
@[simp] theorem State.putV_cc (s : State) (n : VReg) (r : VecReg) : (s.putV n r).cc = s.cc.putV n r := rfl
@[simp] theorem State.push_cc (s : State) (k : OpClass) : (s.push k).cc = s.cc.incOut k := rfl
@[simp] theorem State.later_agenda (s : State) (e : Event) : (s.later e).agenda = s.agenda ++ [e] := rfl
@[simp] theorem State.putBytes_mem (s : State) (pa : Nat) (bs : List Byte) :
    (s.putBytes pa bs).mem = Memory.writeAll s.mem pa bs := rfl
@[simp] theorem State.poke_mem (s : State) (pa n v : Nat) : (s.poke pa n v).mem = Memory.writeAll s.mem pa (leBytes n v) := rfl
@[simp] theorem State.zeroBytes_mem (s : State) (pa n : Nat) : (s.zeroBytes pa n).mem = Memory.clear s.mem pa n := rfl
theorem State.retire_eq (s : State) : s.retire = s.retireTo (s.cc.pc + 4) := rfl

/-! ### State.putM at the control core -/

@[simp] theorem State.putM_cc_ctxid (s : State) (n : MReg) (b : BitVec 1024) : (s.putM n b).cc.ctxid = s.cc.ctxid := rfl
@[simp] theorem State.putM_cc_run (s : State) (n : MReg) (b : BitVec 1024) : (s.putM n b).cc.run = s.cc.run := rfl
@[simp] theorem State.putM_cc_level (s : State) (n : MReg) (b : BitVec 1024) : (s.putM n b).cc.level = s.cc.level := rfl
@[simp] theorem State.putM_cc_pc (s : State) (n : MReg) (b : BitVec 1024) : (s.putM n b).cc.pc = s.cc.pc := rfl
@[simp] theorem State.putM_cc_x (s : State) (n : MReg) (b : BitVec 1024) : (s.putM n b).cc.x = s.cc.x := rfl
@[simp] theorem State.putM_cc_shadow (s : State) (n : MReg) (b : BitVec 1024) : (s.putM n b).cc.shadow = s.cc.shadow := rfl
@[simp] theorem State.putM_cc_v (s : State) (n : MReg) (b : BitVec 1024) : (s.putM n b).cc.v = s.cc.v := rfl
@[simp] theorem State.putM_cc_t (s : State) (n : MReg) (b : BitVec 1024) : (s.putM n b).cc.t = s.cc.t := rfl
@[simp] theorem State.putM_cc_vl (s : State) (n : MReg) (b : BitVec 1024) : (s.putM n b).cc.vl = s.cc.vl := rfl
@[simp] theorem State.putM_cc_vstart (s : State) (n : MReg) (b : BitVec 1024) : (s.putM n b).cc.vstart = s.cc.vstart := rfl
@[simp] theorem State.putM_cc_vstr (s : State) (n : MReg) (b : BitVec 1024) : (s.putM n b).cc.vstr = s.cc.vstr := rfl
@[simp] theorem State.putM_cc_vmsel (s : State) (n : MReg) (b : BitVec 1024) : (s.putM n b).cc.vmsel = s.cc.vmsel := rfl
@[simp] theorem State.putM_cc_mfmt (s : State) (n : MReg) (b : BitVec 1024) : (s.putM n b).cc.mfmt = s.cc.mfmt := rfl
@[simp] theorem State.putM_cc_fcsr (s : State) (n : MReg) (b : BitVec 1024) : (s.putM n b).cc.fcsr = s.cc.fcsr := rfl
@[simp] theorem State.putM_cc_ttol (s : State) (n : MReg) (b : BitVec 1024) : (s.putM n b).cc.ttol = s.cc.ttol := rfl
@[simp] theorem State.putM_cc_issued (s : State) (n : MReg) (b : BitVec 1024) : (s.putM n b).cc.issued = s.cc.issued := rfl
@[simp] theorem State.putM_cc_done (s : State) (n : MReg) (b : BitVec 1024) : (s.putM n b).cc.done = s.cc.done := rfl
@[simp] theorem State.putM_cc_inStrip (s : State) (n : MReg) (b : BitVec 1024) : (s.putM n b).cc.inStrip = s.cc.inStrip := rfl
@[simp] theorem State.putM_cc_loopDepth (s : State) (n : MReg) (b : BitVec 1024) : (s.putM n b).cc.loopDepth = s.cc.loopDepth := rfl
@[simp] theorem State.putM_cc_tstep (s : State) (n : MReg) (b : BitVec 1024) : (s.putM n b).cc.tstep = s.cc.tstep := rfl
@[simp] theorem State.putM_cc_uivec (s : State) (n : MReg) (b : BitVec 1024) : (s.putM n b).cc.uivec = s.cc.uivec := rfl
@[simp] theorem State.putM_cc_uiepc (s : State) (n : MReg) (b : BitVec 1024) : (s.putM n b).cc.uiepc = s.cc.uiepc := rfl
@[simp] theorem State.putM_cc_uicause (s : State) (n : MReg) (b : BitVec 1024) : (s.putM n b).cc.uicause = s.cc.uicause := rfl
@[simp] theorem State.putM_cc_uistatus (s : State) (n : MReg) (b : BitVec 1024) : (s.putM n b).cc.uistatus = s.cc.uistatus := rfl
@[simp] theorem State.putM_cc_retired (s : State) (n : MReg) (b : BitVec 1024) : (s.putM n b).cc.retired = s.cc.retired := rfl
@[simp] theorem State.putM_cc_out (s : State) (n : MReg) (b : BitVec 1024) : (s.putM n b).cc.out = s.cc.out := rfl
@[simp] theorem State.putM_cc_tvec (s : State) (n : MReg) (b : BitVec 1024) : (s.putM n b).cc.tvec = s.cc.tvec := rfl
@[simp] theorem State.putM_cc_tcause (s : State) (n : MReg) (b : BitVec 1024) : (s.putM n b).cc.tcause = s.cc.tcause := rfl
@[simp] theorem State.putM_cc_tepc (s : State) (n : MReg) (b : BitVec 1024) : (s.putM n b).cc.tepc = s.cc.tepc := rfl
@[simp] theorem State.putM_cc_tval (s : State) (n : MReg) (b : BitVec 1024) : (s.putM n b).cc.tval = s.cc.tval := rfl
@[simp] theorem State.putM_cc_tstatus (s : State) (n : MReg) (b : BitVec 1024) : (s.putM n b).cc.tstatus = s.cc.tstatus := rfl
@[simp] theorem State.putM_cc_vdirty (s : State) (n : MReg) (b : BitVec 1024) : (s.putM n b).cc.vdirty = s.cc.vdirty := rfl
@[simp] theorem State.putM_cc_vowner (s : State) (n : MReg) (b : BitVec 1024) : (s.putM n b).cc.vowner = s.cc.vowner := rfl
@[simp] theorem State.putM_cc_ptbase (s : State) (n : MReg) (b : BitVec 1024) : (s.putM n b).cc.ptbase = s.cc.ptbase := rfl
@[simp] theorem State.putM_cc_asid (s : State) (n : MReg) (b : BitVec 1024) : (s.putM n b).cc.asid = s.cc.asid := rfl
@[simp] theorem State.putM_cc_maxvl (s : State) (n : MReg) (b : BitVec 1024) : (s.putM n b).cc.maxvl = s.cc.maxvl := rfl
@[simp] theorem State.putM_cc_preempt (s : State) (n : MReg) (b : BitVec 1024) : (s.putM n b).cc.preempt = s.cc.preempt := rfl
@[simp] theorem State.putM_cc_rcbptr (s : State) (n : MReg) (b : BitVec 1024) : (s.putM n b).cc.rcbptr = s.cc.rcbptr := rfl
@[simp] theorem State.putM_cc_fault2 (s : State) (n : MReg) (b : BitVec 1024) : (s.putM n b).cc.fault2 = s.cc.fault2 := rfl
@[simp] theorem State.putM_cc_tscratch (s : State) (n : MReg) (b : BitVec 1024) : (s.putM n b).cc.tscratch = s.cc.tscratch := rfl
@[simp] theorem State.putM_cc_depth (s : State) (n : MReg) (b : BitVec 1024) : (s.putM n b).cc.depth = s.cc.depth := rfl
@[simp] theorem State.putM_cc_serial (s : State) (n : MReg) (b : BitVec 1024) : (s.putM n b).cc.serial = s.cc.serial := rfl
@[simp] theorem State.putM_cc_ring (s : State) (n : MReg) (b : BitVec 1024) : (s.putM n b).cc.ring = s.cc.ring := rfl
@[simp] theorem State.putM_cc_request (s : State) (n : MReg) (b : BitVec 1024) : (s.putM n b).cc.request = s.cc.request := rfl
@[simp] theorem State.putM_cc_claim (s : State) (n : MReg) (b : BitVec 1024) : (s.putM n b).cc.claim = s.cc.claim := rfl
@[simp] theorem State.putM_cc_parts (s : State) (n : MReg) (b : BitVec 1024) : (s.putM n b).cc.parts = s.cc.parts := rfl
@[simp] theorem State.putM_cc_region (s : State) (n : MReg) (b : BitVec 1024) : (s.putM n b).cc.region = s.cc.region := rfl
@[simp] theorem State.putM_cc_index (s : State) (n : MReg) (b : BitVec 1024) : (s.putM n b).cc.index = s.cc.index := rfl
@[simp] theorem State.putM_cc_spadOff (s : State) (n : MReg) (b : BitVec 1024) : (s.putM n b).cc.spadOff = s.cc.spadOff := rfl
@[simp] theorem State.putM_cc_spadLen (s : State) (n : MReg) (b : BitVec 1024) : (s.putM n b).cc.spadLen = s.cc.spadLen := rfl
@[simp] theorem State.putM_cc_reached (s : State) (n : MReg) (b : BitVec 1024) : (s.putM n b).cc.reached = s.cc.reached := rfl
@[simp] theorem State.putM_cc_armed (s : State) (n : MReg) (b : BitVec 1024) : (s.putM n b).cc.armed = s.cc.armed := rfl
@[simp] theorem State.putM_cc_macroOp (s : State) (n : MReg) (b : BitVec 1024) : (s.putM n b).cc.macroOp = s.cc.macroOp := rfl
@[simp] theorem State.putM_cc_loads (s : State) (n : MReg) (b : BitVec 1024) : (s.putM n b).cc.loads = s.cc.loads := rfl
@[simp] theorem State.putM_cc_stores (s : State) (n : MReg) (b : BitVec 1024) : (s.putM n b).cc.stores = s.cc.stores := rfl
@[simp] theorem State.putM_cc_tlb (s : State) (n : MReg) (b : BitVec 1024) : (s.putM n b).cc.tlb = s.cc.tlb := rfl
@[simp] theorem State.putM_cc_miss (s : State) (n : MReg) (b : BitVec 1024) : (s.putM n b).cc.miss = s.cc.miss := rfl
@[simp] theorem State.putM_cc_held (s : State) (n : MReg) (b : BitVec 1024) : (s.putM n b).cc.held = s.cc.held := rfl
@[simp] theorem State.putM_cc_entering (s : State) (n : MReg) (b : BitVec 1024) : (s.putM n b).cc.entering = s.cc.entering := rfl
@[simp] theorem State.putM_cc_fencing (s : State) (n : MReg) (b : BitVec 1024) : (s.putM n b).cc.fencing = s.cc.fencing := rfl
@[simp] theorem State.putM_cc_vfence (s : State) (n : MReg) (b : BitVec 1024) : (s.putM n b).cc.vfence = s.cc.vfence := rfl
@[simp] theorem State.putM_cc_leaving (s : State) (n : MReg) (b : BitVec 1024) : (s.putM n b).cc.leaving = s.cc.leaving := rfl
@[simp] theorem State.putM_cc_halting (s : State) (n : MReg) (b : BitVec 1024) : (s.putM n b).cc.halting = s.cc.halting := rfl
@[simp] theorem State.putM_cc_credit (s : State) (n : MReg) (b : BitVec 1024) : (s.putM n b).cc.credit = s.cc.credit := rfl
@[simp] theorem State.putM_cc_starved (s : State) (n : MReg) (b : BitVec 1024) : (s.putM n b).cc.starved = s.cc.starved := rfl
@[simp] theorem State.putM_cc_qcredit (s : State) (n : MReg) (b : BitVec 1024) : (s.putM n b).cc.qcredit = s.cc.qcredit := rfl
@[simp] theorem State.putM_cc_cut (s : State) (n : MReg) (b : BitVec 1024) : (s.putM n b).cc.cut = s.cc.cut := rfl

/-! ### State.putT at the control core -/

@[simp] theorem State.putT_cc_ctxid (s : State) (n : TReg) (t : Tile) : (s.putT n t).cc.ctxid = s.cc.ctxid := rfl
@[simp] theorem State.putT_cc_run (s : State) (n : TReg) (t : Tile) : (s.putT n t).cc.run = s.cc.run := rfl
@[simp] theorem State.putT_cc_level (s : State) (n : TReg) (t : Tile) : (s.putT n t).cc.level = s.cc.level := rfl
@[simp] theorem State.putT_cc_pc (s : State) (n : TReg) (t : Tile) : (s.putT n t).cc.pc = s.cc.pc := rfl
@[simp] theorem State.putT_cc_x (s : State) (n : TReg) (t : Tile) : (s.putT n t).cc.x = s.cc.x := rfl
@[simp] theorem State.putT_cc_shadow (s : State) (n : TReg) (t : Tile) : (s.putT n t).cc.shadow = s.cc.shadow := rfl
@[simp] theorem State.putT_cc_v (s : State) (n : TReg) (t : Tile) : (s.putT n t).cc.v = s.cc.v := rfl
@[simp] theorem State.putT_cc_m (s : State) (n : TReg) (t : Tile) : (s.putT n t).cc.m = s.cc.m := rfl
@[simp] theorem State.putT_cc_vl (s : State) (n : TReg) (t : Tile) : (s.putT n t).cc.vl = s.cc.vl := rfl
@[simp] theorem State.putT_cc_vstart (s : State) (n : TReg) (t : Tile) : (s.putT n t).cc.vstart = s.cc.vstart := rfl
@[simp] theorem State.putT_cc_vstr (s : State) (n : TReg) (t : Tile) : (s.putT n t).cc.vstr = s.cc.vstr := rfl
@[simp] theorem State.putT_cc_vmsel (s : State) (n : TReg) (t : Tile) : (s.putT n t).cc.vmsel = s.cc.vmsel := rfl
@[simp] theorem State.putT_cc_mfmt (s : State) (n : TReg) (t : Tile) : (s.putT n t).cc.mfmt = s.cc.mfmt := rfl
@[simp] theorem State.putT_cc_fcsr (s : State) (n : TReg) (t : Tile) : (s.putT n t).cc.fcsr = s.cc.fcsr := rfl
@[simp] theorem State.putT_cc_ttol (s : State) (n : TReg) (t : Tile) : (s.putT n t).cc.ttol = s.cc.ttol := rfl
@[simp] theorem State.putT_cc_issued (s : State) (n : TReg) (t : Tile) : (s.putT n t).cc.issued = s.cc.issued := rfl
@[simp] theorem State.putT_cc_done (s : State) (n : TReg) (t : Tile) : (s.putT n t).cc.done = s.cc.done := rfl
@[simp] theorem State.putT_cc_inStrip (s : State) (n : TReg) (t : Tile) : (s.putT n t).cc.inStrip = s.cc.inStrip := rfl
@[simp] theorem State.putT_cc_loopDepth (s : State) (n : TReg) (t : Tile) : (s.putT n t).cc.loopDepth = s.cc.loopDepth := rfl
@[simp] theorem State.putT_cc_tstep (s : State) (n : TReg) (t : Tile) : (s.putT n t).cc.tstep = s.cc.tstep := rfl
@[simp] theorem State.putT_cc_uivec (s : State) (n : TReg) (t : Tile) : (s.putT n t).cc.uivec = s.cc.uivec := rfl
@[simp] theorem State.putT_cc_uiepc (s : State) (n : TReg) (t : Tile) : (s.putT n t).cc.uiepc = s.cc.uiepc := rfl
@[simp] theorem State.putT_cc_uicause (s : State) (n : TReg) (t : Tile) : (s.putT n t).cc.uicause = s.cc.uicause := rfl
@[simp] theorem State.putT_cc_uistatus (s : State) (n : TReg) (t : Tile) : (s.putT n t).cc.uistatus = s.cc.uistatus := rfl
@[simp] theorem State.putT_cc_retired (s : State) (n : TReg) (t : Tile) : (s.putT n t).cc.retired = s.cc.retired := rfl
@[simp] theorem State.putT_cc_out (s : State) (n : TReg) (t : Tile) : (s.putT n t).cc.out = s.cc.out := rfl
@[simp] theorem State.putT_cc_tvec (s : State) (n : TReg) (t : Tile) : (s.putT n t).cc.tvec = s.cc.tvec := rfl
@[simp] theorem State.putT_cc_tcause (s : State) (n : TReg) (t : Tile) : (s.putT n t).cc.tcause = s.cc.tcause := rfl
@[simp] theorem State.putT_cc_tepc (s : State) (n : TReg) (t : Tile) : (s.putT n t).cc.tepc = s.cc.tepc := rfl
@[simp] theorem State.putT_cc_tval (s : State) (n : TReg) (t : Tile) : (s.putT n t).cc.tval = s.cc.tval := rfl
@[simp] theorem State.putT_cc_tstatus (s : State) (n : TReg) (t : Tile) : (s.putT n t).cc.tstatus = s.cc.tstatus := rfl
@[simp] theorem State.putT_cc_vdirty (s : State) (n : TReg) (t : Tile) : (s.putT n t).cc.vdirty = s.cc.vdirty := rfl
@[simp] theorem State.putT_cc_vowner (s : State) (n : TReg) (t : Tile) : (s.putT n t).cc.vowner = s.cc.vowner := rfl
@[simp] theorem State.putT_cc_ptbase (s : State) (n : TReg) (t : Tile) : (s.putT n t).cc.ptbase = s.cc.ptbase := rfl
@[simp] theorem State.putT_cc_asid (s : State) (n : TReg) (t : Tile) : (s.putT n t).cc.asid = s.cc.asid := rfl
@[simp] theorem State.putT_cc_maxvl (s : State) (n : TReg) (t : Tile) : (s.putT n t).cc.maxvl = s.cc.maxvl := rfl
@[simp] theorem State.putT_cc_preempt (s : State) (n : TReg) (t : Tile) : (s.putT n t).cc.preempt = s.cc.preempt := rfl
@[simp] theorem State.putT_cc_rcbptr (s : State) (n : TReg) (t : Tile) : (s.putT n t).cc.rcbptr = s.cc.rcbptr := rfl
@[simp] theorem State.putT_cc_fault2 (s : State) (n : TReg) (t : Tile) : (s.putT n t).cc.fault2 = s.cc.fault2 := rfl
@[simp] theorem State.putT_cc_tscratch (s : State) (n : TReg) (t : Tile) : (s.putT n t).cc.tscratch = s.cc.tscratch := rfl
@[simp] theorem State.putT_cc_depth (s : State) (n : TReg) (t : Tile) : (s.putT n t).cc.depth = s.cc.depth := rfl
@[simp] theorem State.putT_cc_serial (s : State) (n : TReg) (t : Tile) : (s.putT n t).cc.serial = s.cc.serial := rfl
@[simp] theorem State.putT_cc_ring (s : State) (n : TReg) (t : Tile) : (s.putT n t).cc.ring = s.cc.ring := rfl
@[simp] theorem State.putT_cc_request (s : State) (n : TReg) (t : Tile) : (s.putT n t).cc.request = s.cc.request := rfl
@[simp] theorem State.putT_cc_claim (s : State) (n : TReg) (t : Tile) : (s.putT n t).cc.claim = s.cc.claim := rfl
@[simp] theorem State.putT_cc_parts (s : State) (n : TReg) (t : Tile) : (s.putT n t).cc.parts = s.cc.parts := rfl
@[simp] theorem State.putT_cc_region (s : State) (n : TReg) (t : Tile) : (s.putT n t).cc.region = s.cc.region := rfl
@[simp] theorem State.putT_cc_index (s : State) (n : TReg) (t : Tile) : (s.putT n t).cc.index = s.cc.index := rfl
@[simp] theorem State.putT_cc_spadOff (s : State) (n : TReg) (t : Tile) : (s.putT n t).cc.spadOff = s.cc.spadOff := rfl
@[simp] theorem State.putT_cc_spadLen (s : State) (n : TReg) (t : Tile) : (s.putT n t).cc.spadLen = s.cc.spadLen := rfl
@[simp] theorem State.putT_cc_reached (s : State) (n : TReg) (t : Tile) : (s.putT n t).cc.reached = s.cc.reached := rfl
@[simp] theorem State.putT_cc_armed (s : State) (n : TReg) (t : Tile) : (s.putT n t).cc.armed = s.cc.armed := rfl
@[simp] theorem State.putT_cc_macroOp (s : State) (n : TReg) (t : Tile) : (s.putT n t).cc.macroOp = s.cc.macroOp := rfl
@[simp] theorem State.putT_cc_loads (s : State) (n : TReg) (t : Tile) : (s.putT n t).cc.loads = s.cc.loads := rfl
@[simp] theorem State.putT_cc_stores (s : State) (n : TReg) (t : Tile) : (s.putT n t).cc.stores = s.cc.stores := rfl
@[simp] theorem State.putT_cc_tlb (s : State) (n : TReg) (t : Tile) : (s.putT n t).cc.tlb = s.cc.tlb := rfl
@[simp] theorem State.putT_cc_miss (s : State) (n : TReg) (t : Tile) : (s.putT n t).cc.miss = s.cc.miss := rfl
@[simp] theorem State.putT_cc_held (s : State) (n : TReg) (t : Tile) : (s.putT n t).cc.held = s.cc.held := rfl
@[simp] theorem State.putT_cc_entering (s : State) (n : TReg) (t : Tile) : (s.putT n t).cc.entering = s.cc.entering := rfl
@[simp] theorem State.putT_cc_fencing (s : State) (n : TReg) (t : Tile) : (s.putT n t).cc.fencing = s.cc.fencing := rfl
@[simp] theorem State.putT_cc_vfence (s : State) (n : TReg) (t : Tile) : (s.putT n t).cc.vfence = s.cc.vfence := rfl
@[simp] theorem State.putT_cc_leaving (s : State) (n : TReg) (t : Tile) : (s.putT n t).cc.leaving = s.cc.leaving := rfl
@[simp] theorem State.putT_cc_halting (s : State) (n : TReg) (t : Tile) : (s.putT n t).cc.halting = s.cc.halting := rfl
@[simp] theorem State.putT_cc_credit (s : State) (n : TReg) (t : Tile) : (s.putT n t).cc.credit = s.cc.credit := rfl
@[simp] theorem State.putT_cc_starved (s : State) (n : TReg) (t : Tile) : (s.putT n t).cc.starved = s.cc.starved := rfl
@[simp] theorem State.putT_cc_qcredit (s : State) (n : TReg) (t : Tile) : (s.putT n t).cc.qcredit = s.cc.qcredit := rfl
@[simp] theorem State.putT_cc_cut (s : State) (n : TReg) (t : Tile) : (s.putT n t).cc.cut = s.cc.cut := rfl

/-! ### State.orFlags at the control core -/

@[simp] theorem State.orFlags_cc_ctxid (s : State) (f : Flags) : (s.orFlags f).cc.ctxid = s.cc.ctxid := rfl
@[simp] theorem State.orFlags_cc_run (s : State) (f : Flags) : (s.orFlags f).cc.run = s.cc.run := rfl
@[simp] theorem State.orFlags_cc_level (s : State) (f : Flags) : (s.orFlags f).cc.level = s.cc.level := rfl
@[simp] theorem State.orFlags_cc_pc (s : State) (f : Flags) : (s.orFlags f).cc.pc = s.cc.pc := rfl
@[simp] theorem State.orFlags_cc_x (s : State) (f : Flags) : (s.orFlags f).cc.x = s.cc.x := rfl
@[simp] theorem State.orFlags_cc_shadow (s : State) (f : Flags) : (s.orFlags f).cc.shadow = s.cc.shadow := rfl
@[simp] theorem State.orFlags_cc_v (s : State) (f : Flags) : (s.orFlags f).cc.v = s.cc.v := rfl
@[simp] theorem State.orFlags_cc_m (s : State) (f : Flags) : (s.orFlags f).cc.m = s.cc.m := rfl
@[simp] theorem State.orFlags_cc_t (s : State) (f : Flags) : (s.orFlags f).cc.t = s.cc.t := rfl
@[simp] theorem State.orFlags_cc_vl (s : State) (f : Flags) : (s.orFlags f).cc.vl = s.cc.vl := rfl
@[simp] theorem State.orFlags_cc_vstart (s : State) (f : Flags) : (s.orFlags f).cc.vstart = s.cc.vstart := rfl
@[simp] theorem State.orFlags_cc_vstr (s : State) (f : Flags) : (s.orFlags f).cc.vstr = s.cc.vstr := rfl
@[simp] theorem State.orFlags_cc_vmsel (s : State) (f : Flags) : (s.orFlags f).cc.vmsel = s.cc.vmsel := rfl
@[simp] theorem State.orFlags_cc_mfmt (s : State) (f : Flags) : (s.orFlags f).cc.mfmt = s.cc.mfmt := rfl
@[simp] theorem State.orFlags_cc_ttol (s : State) (f : Flags) : (s.orFlags f).cc.ttol = s.cc.ttol := rfl
@[simp] theorem State.orFlags_cc_issued (s : State) (f : Flags) : (s.orFlags f).cc.issued = s.cc.issued := rfl
@[simp] theorem State.orFlags_cc_done (s : State) (f : Flags) : (s.orFlags f).cc.done = s.cc.done := rfl
@[simp] theorem State.orFlags_cc_inStrip (s : State) (f : Flags) : (s.orFlags f).cc.inStrip = s.cc.inStrip := rfl
@[simp] theorem State.orFlags_cc_loopDepth (s : State) (f : Flags) : (s.orFlags f).cc.loopDepth = s.cc.loopDepth := rfl
@[simp] theorem State.orFlags_cc_tstep (s : State) (f : Flags) : (s.orFlags f).cc.tstep = s.cc.tstep := rfl
@[simp] theorem State.orFlags_cc_uivec (s : State) (f : Flags) : (s.orFlags f).cc.uivec = s.cc.uivec := rfl
@[simp] theorem State.orFlags_cc_uiepc (s : State) (f : Flags) : (s.orFlags f).cc.uiepc = s.cc.uiepc := rfl
@[simp] theorem State.orFlags_cc_uicause (s : State) (f : Flags) : (s.orFlags f).cc.uicause = s.cc.uicause := rfl
@[simp] theorem State.orFlags_cc_uistatus (s : State) (f : Flags) : (s.orFlags f).cc.uistatus = s.cc.uistatus := rfl
@[simp] theorem State.orFlags_cc_retired (s : State) (f : Flags) : (s.orFlags f).cc.retired = s.cc.retired := rfl
@[simp] theorem State.orFlags_cc_out (s : State) (f : Flags) : (s.orFlags f).cc.out = s.cc.out := rfl
@[simp] theorem State.orFlags_cc_tvec (s : State) (f : Flags) : (s.orFlags f).cc.tvec = s.cc.tvec := rfl
@[simp] theorem State.orFlags_cc_tcause (s : State) (f : Flags) : (s.orFlags f).cc.tcause = s.cc.tcause := rfl
@[simp] theorem State.orFlags_cc_tepc (s : State) (f : Flags) : (s.orFlags f).cc.tepc = s.cc.tepc := rfl
@[simp] theorem State.orFlags_cc_tval (s : State) (f : Flags) : (s.orFlags f).cc.tval = s.cc.tval := rfl
@[simp] theorem State.orFlags_cc_tstatus (s : State) (f : Flags) : (s.orFlags f).cc.tstatus = s.cc.tstatus := rfl
@[simp] theorem State.orFlags_cc_vdirty (s : State) (f : Flags) : (s.orFlags f).cc.vdirty = s.cc.vdirty := rfl
@[simp] theorem State.orFlags_cc_vowner (s : State) (f : Flags) : (s.orFlags f).cc.vowner = s.cc.vowner := rfl
@[simp] theorem State.orFlags_cc_ptbase (s : State) (f : Flags) : (s.orFlags f).cc.ptbase = s.cc.ptbase := rfl
@[simp] theorem State.orFlags_cc_asid (s : State) (f : Flags) : (s.orFlags f).cc.asid = s.cc.asid := rfl
@[simp] theorem State.orFlags_cc_maxvl (s : State) (f : Flags) : (s.orFlags f).cc.maxvl = s.cc.maxvl := rfl
@[simp] theorem State.orFlags_cc_preempt (s : State) (f : Flags) : (s.orFlags f).cc.preempt = s.cc.preempt := rfl
@[simp] theorem State.orFlags_cc_rcbptr (s : State) (f : Flags) : (s.orFlags f).cc.rcbptr = s.cc.rcbptr := rfl
@[simp] theorem State.orFlags_cc_fault2 (s : State) (f : Flags) : (s.orFlags f).cc.fault2 = s.cc.fault2 := rfl
@[simp] theorem State.orFlags_cc_tscratch (s : State) (f : Flags) : (s.orFlags f).cc.tscratch = s.cc.tscratch := rfl
@[simp] theorem State.orFlags_cc_depth (s : State) (f : Flags) : (s.orFlags f).cc.depth = s.cc.depth := rfl
@[simp] theorem State.orFlags_cc_serial (s : State) (f : Flags) : (s.orFlags f).cc.serial = s.cc.serial := rfl
@[simp] theorem State.orFlags_cc_ring (s : State) (f : Flags) : (s.orFlags f).cc.ring = s.cc.ring := rfl
@[simp] theorem State.orFlags_cc_request (s : State) (f : Flags) : (s.orFlags f).cc.request = s.cc.request := rfl
@[simp] theorem State.orFlags_cc_claim (s : State) (f : Flags) : (s.orFlags f).cc.claim = s.cc.claim := rfl
@[simp] theorem State.orFlags_cc_parts (s : State) (f : Flags) : (s.orFlags f).cc.parts = s.cc.parts := rfl
@[simp] theorem State.orFlags_cc_region (s : State) (f : Flags) : (s.orFlags f).cc.region = s.cc.region := rfl
@[simp] theorem State.orFlags_cc_index (s : State) (f : Flags) : (s.orFlags f).cc.index = s.cc.index := rfl
@[simp] theorem State.orFlags_cc_spadOff (s : State) (f : Flags) : (s.orFlags f).cc.spadOff = s.cc.spadOff := rfl
@[simp] theorem State.orFlags_cc_spadLen (s : State) (f : Flags) : (s.orFlags f).cc.spadLen = s.cc.spadLen := rfl
@[simp] theorem State.orFlags_cc_reached (s : State) (f : Flags) : (s.orFlags f).cc.reached = s.cc.reached := rfl
@[simp] theorem State.orFlags_cc_armed (s : State) (f : Flags) : (s.orFlags f).cc.armed = s.cc.armed := rfl
@[simp] theorem State.orFlags_cc_macroOp (s : State) (f : Flags) : (s.orFlags f).cc.macroOp = s.cc.macroOp := rfl
@[simp] theorem State.orFlags_cc_loads (s : State) (f : Flags) : (s.orFlags f).cc.loads = s.cc.loads := rfl
@[simp] theorem State.orFlags_cc_stores (s : State) (f : Flags) : (s.orFlags f).cc.stores = s.cc.stores := rfl
@[simp] theorem State.orFlags_cc_tlb (s : State) (f : Flags) : (s.orFlags f).cc.tlb = s.cc.tlb := rfl
@[simp] theorem State.orFlags_cc_miss (s : State) (f : Flags) : (s.orFlags f).cc.miss = s.cc.miss := rfl
@[simp] theorem State.orFlags_cc_held (s : State) (f : Flags) : (s.orFlags f).cc.held = s.cc.held := rfl
@[simp] theorem State.orFlags_cc_entering (s : State) (f : Flags) : (s.orFlags f).cc.entering = s.cc.entering := rfl
@[simp] theorem State.orFlags_cc_fencing (s : State) (f : Flags) : (s.orFlags f).cc.fencing = s.cc.fencing := rfl
@[simp] theorem State.orFlags_cc_vfence (s : State) (f : Flags) : (s.orFlags f).cc.vfence = s.cc.vfence := rfl
@[simp] theorem State.orFlags_cc_leaving (s : State) (f : Flags) : (s.orFlags f).cc.leaving = s.cc.leaving := rfl
@[simp] theorem State.orFlags_cc_halting (s : State) (f : Flags) : (s.orFlags f).cc.halting = s.cc.halting := rfl
@[simp] theorem State.orFlags_cc_credit (s : State) (f : Flags) : (s.orFlags f).cc.credit = s.cc.credit := rfl
@[simp] theorem State.orFlags_cc_starved (s : State) (f : Flags) : (s.orFlags f).cc.starved = s.cc.starved := rfl
@[simp] theorem State.orFlags_cc_qcredit (s : State) (f : Flags) : (s.orFlags f).cc.qcredit = s.cc.qcredit := rfl
@[simp] theorem State.orFlags_cc_cut (s : State) (f : Flags) : (s.orFlags f).cc.cut = s.cc.cut := rfl

/-! ### State.takeVstart at the control core -/

@[simp] theorem State.takeVstart_cc_ctxid (s : State) : (s.takeVstart).cc.ctxid = s.cc.ctxid := rfl
@[simp] theorem State.takeVstart_cc_run (s : State) : (s.takeVstart).cc.run = s.cc.run := rfl
@[simp] theorem State.takeVstart_cc_level (s : State) : (s.takeVstart).cc.level = s.cc.level := rfl
@[simp] theorem State.takeVstart_cc_pc (s : State) : (s.takeVstart).cc.pc = s.cc.pc := rfl
@[simp] theorem State.takeVstart_cc_x (s : State) : (s.takeVstart).cc.x = s.cc.x := rfl
@[simp] theorem State.takeVstart_cc_shadow (s : State) : (s.takeVstart).cc.shadow = s.cc.shadow := rfl
@[simp] theorem State.takeVstart_cc_v (s : State) : (s.takeVstart).cc.v = s.cc.v := rfl
@[simp] theorem State.takeVstart_cc_m (s : State) : (s.takeVstart).cc.m = s.cc.m := rfl
@[simp] theorem State.takeVstart_cc_t (s : State) : (s.takeVstart).cc.t = s.cc.t := rfl
@[simp] theorem State.takeVstart_cc_vl (s : State) : (s.takeVstart).cc.vl = s.cc.vl := rfl
@[simp] theorem State.takeVstart_cc_vstr (s : State) : (s.takeVstart).cc.vstr = s.cc.vstr := rfl
@[simp] theorem State.takeVstart_cc_vmsel (s : State) : (s.takeVstart).cc.vmsel = s.cc.vmsel := rfl
@[simp] theorem State.takeVstart_cc_mfmt (s : State) : (s.takeVstart).cc.mfmt = s.cc.mfmt := rfl
@[simp] theorem State.takeVstart_cc_fcsr (s : State) : (s.takeVstart).cc.fcsr = s.cc.fcsr := rfl
@[simp] theorem State.takeVstart_cc_ttol (s : State) : (s.takeVstart).cc.ttol = s.cc.ttol := rfl
@[simp] theorem State.takeVstart_cc_issued (s : State) : (s.takeVstart).cc.issued = s.cc.issued := rfl
@[simp] theorem State.takeVstart_cc_done (s : State) : (s.takeVstart).cc.done = s.cc.done := rfl
@[simp] theorem State.takeVstart_cc_inStrip (s : State) : (s.takeVstart).cc.inStrip = s.cc.inStrip := rfl
@[simp] theorem State.takeVstart_cc_loopDepth (s : State) : (s.takeVstart).cc.loopDepth = s.cc.loopDepth := rfl
@[simp] theorem State.takeVstart_cc_tstep (s : State) : (s.takeVstart).cc.tstep = s.cc.tstep := rfl
@[simp] theorem State.takeVstart_cc_uivec (s : State) : (s.takeVstart).cc.uivec = s.cc.uivec := rfl
@[simp] theorem State.takeVstart_cc_uiepc (s : State) : (s.takeVstart).cc.uiepc = s.cc.uiepc := rfl
@[simp] theorem State.takeVstart_cc_uicause (s : State) : (s.takeVstart).cc.uicause = s.cc.uicause := rfl
@[simp] theorem State.takeVstart_cc_uistatus (s : State) : (s.takeVstart).cc.uistatus = s.cc.uistatus := rfl
@[simp] theorem State.takeVstart_cc_retired (s : State) : (s.takeVstart).cc.retired = s.cc.retired := rfl
@[simp] theorem State.takeVstart_cc_out (s : State) : (s.takeVstart).cc.out = s.cc.out := rfl
@[simp] theorem State.takeVstart_cc_tvec (s : State) : (s.takeVstart).cc.tvec = s.cc.tvec := rfl
@[simp] theorem State.takeVstart_cc_tcause (s : State) : (s.takeVstart).cc.tcause = s.cc.tcause := rfl
@[simp] theorem State.takeVstart_cc_tepc (s : State) : (s.takeVstart).cc.tepc = s.cc.tepc := rfl
@[simp] theorem State.takeVstart_cc_tval (s : State) : (s.takeVstart).cc.tval = s.cc.tval := rfl
@[simp] theorem State.takeVstart_cc_tstatus (s : State) : (s.takeVstart).cc.tstatus = s.cc.tstatus := rfl
@[simp] theorem State.takeVstart_cc_vdirty (s : State) : (s.takeVstart).cc.vdirty = s.cc.vdirty := rfl
@[simp] theorem State.takeVstart_cc_vowner (s : State) : (s.takeVstart).cc.vowner = s.cc.vowner := rfl
@[simp] theorem State.takeVstart_cc_ptbase (s : State) : (s.takeVstart).cc.ptbase = s.cc.ptbase := rfl
@[simp] theorem State.takeVstart_cc_asid (s : State) : (s.takeVstart).cc.asid = s.cc.asid := rfl
@[simp] theorem State.takeVstart_cc_maxvl (s : State) : (s.takeVstart).cc.maxvl = s.cc.maxvl := rfl
@[simp] theorem State.takeVstart_cc_preempt (s : State) : (s.takeVstart).cc.preempt = s.cc.preempt := rfl
@[simp] theorem State.takeVstart_cc_rcbptr (s : State) : (s.takeVstart).cc.rcbptr = s.cc.rcbptr := rfl
@[simp] theorem State.takeVstart_cc_fault2 (s : State) : (s.takeVstart).cc.fault2 = s.cc.fault2 := rfl
@[simp] theorem State.takeVstart_cc_tscratch (s : State) : (s.takeVstart).cc.tscratch = s.cc.tscratch := rfl
@[simp] theorem State.takeVstart_cc_depth (s : State) : (s.takeVstart).cc.depth = s.cc.depth := rfl
@[simp] theorem State.takeVstart_cc_serial (s : State) : (s.takeVstart).cc.serial = s.cc.serial := rfl
@[simp] theorem State.takeVstart_cc_ring (s : State) : (s.takeVstart).cc.ring = s.cc.ring := rfl
@[simp] theorem State.takeVstart_cc_request (s : State) : (s.takeVstart).cc.request = s.cc.request := rfl
@[simp] theorem State.takeVstart_cc_claim (s : State) : (s.takeVstart).cc.claim = s.cc.claim := rfl
@[simp] theorem State.takeVstart_cc_parts (s : State) : (s.takeVstart).cc.parts = s.cc.parts := rfl
@[simp] theorem State.takeVstart_cc_region (s : State) : (s.takeVstart).cc.region = s.cc.region := rfl
@[simp] theorem State.takeVstart_cc_index (s : State) : (s.takeVstart).cc.index = s.cc.index := rfl
@[simp] theorem State.takeVstart_cc_spadOff (s : State) : (s.takeVstart).cc.spadOff = s.cc.spadOff := rfl
@[simp] theorem State.takeVstart_cc_spadLen (s : State) : (s.takeVstart).cc.spadLen = s.cc.spadLen := rfl
@[simp] theorem State.takeVstart_cc_reached (s : State) : (s.takeVstart).cc.reached = s.cc.reached := rfl
@[simp] theorem State.takeVstart_cc_armed (s : State) : (s.takeVstart).cc.armed = s.cc.armed := rfl
@[simp] theorem State.takeVstart_cc_macroOp (s : State) : (s.takeVstart).cc.macroOp = s.cc.macroOp := rfl
@[simp] theorem State.takeVstart_cc_loads (s : State) : (s.takeVstart).cc.loads = s.cc.loads := rfl
@[simp] theorem State.takeVstart_cc_stores (s : State) : (s.takeVstart).cc.stores = s.cc.stores := rfl
@[simp] theorem State.takeVstart_cc_tlb (s : State) : (s.takeVstart).cc.tlb = s.cc.tlb := rfl
@[simp] theorem State.takeVstart_cc_miss (s : State) : (s.takeVstart).cc.miss = s.cc.miss := rfl
@[simp] theorem State.takeVstart_cc_held (s : State) : (s.takeVstart).cc.held = s.cc.held := rfl
@[simp] theorem State.takeVstart_cc_entering (s : State) : (s.takeVstart).cc.entering = s.cc.entering := rfl
@[simp] theorem State.takeVstart_cc_fencing (s : State) : (s.takeVstart).cc.fencing = s.cc.fencing := rfl
@[simp] theorem State.takeVstart_cc_vfence (s : State) : (s.takeVstart).cc.vfence = s.cc.vfence := rfl
@[simp] theorem State.takeVstart_cc_leaving (s : State) : (s.takeVstart).cc.leaving = s.cc.leaving := rfl
@[simp] theorem State.takeVstart_cc_halting (s : State) : (s.takeVstart).cc.halting = s.cc.halting := rfl
@[simp] theorem State.takeVstart_cc_credit (s : State) : (s.takeVstart).cc.credit = s.cc.credit := rfl
@[simp] theorem State.takeVstart_cc_starved (s : State) : (s.takeVstart).cc.starved = s.cc.starved := rfl
@[simp] theorem State.takeVstart_cc_qcredit (s : State) : (s.takeVstart).cc.qcredit = s.cc.qcredit := rfl
@[simp] theorem State.takeVstart_cc_cut (s : State) : (s.takeVstart).cc.cut = s.cc.cut := rfl

/-! ### State.retireTo at the control core -/

@[simp] theorem State.retireTo_cc_ctxid (s : State) (pc : Word) : (s.retireTo pc).cc.ctxid = s.cc.ctxid := rfl
@[simp] theorem State.retireTo_cc_run (s : State) (pc : Word) : (s.retireTo pc).cc.run = s.cc.run := rfl
@[simp] theorem State.retireTo_cc_level (s : State) (pc : Word) : (s.retireTo pc).cc.level = s.cc.level := rfl
@[simp] theorem State.retireTo_cc_x (s : State) (pc : Word) : (s.retireTo pc).cc.x = s.cc.x := rfl
@[simp] theorem State.retireTo_cc_shadow (s : State) (pc : Word) : (s.retireTo pc).cc.shadow = s.cc.shadow := rfl
@[simp] theorem State.retireTo_cc_v (s : State) (pc : Word) : (s.retireTo pc).cc.v = s.cc.v := rfl
@[simp] theorem State.retireTo_cc_m (s : State) (pc : Word) : (s.retireTo pc).cc.m = s.cc.m := rfl
@[simp] theorem State.retireTo_cc_t (s : State) (pc : Word) : (s.retireTo pc).cc.t = s.cc.t := rfl
@[simp] theorem State.retireTo_cc_vl (s : State) (pc : Word) : (s.retireTo pc).cc.vl = s.cc.vl := rfl
@[simp] theorem State.retireTo_cc_vstart (s : State) (pc : Word) : (s.retireTo pc).cc.vstart = s.cc.vstart := rfl
@[simp] theorem State.retireTo_cc_vstr (s : State) (pc : Word) : (s.retireTo pc).cc.vstr = s.cc.vstr := rfl
@[simp] theorem State.retireTo_cc_vmsel (s : State) (pc : Word) : (s.retireTo pc).cc.vmsel = s.cc.vmsel := rfl
@[simp] theorem State.retireTo_cc_mfmt (s : State) (pc : Word) : (s.retireTo pc).cc.mfmt = s.cc.mfmt := rfl
@[simp] theorem State.retireTo_cc_fcsr (s : State) (pc : Word) : (s.retireTo pc).cc.fcsr = s.cc.fcsr := rfl
@[simp] theorem State.retireTo_cc_ttol (s : State) (pc : Word) : (s.retireTo pc).cc.ttol = s.cc.ttol := rfl
@[simp] theorem State.retireTo_cc_issued (s : State) (pc : Word) : (s.retireTo pc).cc.issued = s.cc.issued := rfl
@[simp] theorem State.retireTo_cc_inStrip (s : State) (pc : Word) : (s.retireTo pc).cc.inStrip = s.cc.inStrip := rfl
@[simp] theorem State.retireTo_cc_loopDepth (s : State) (pc : Word) : (s.retireTo pc).cc.loopDepth = s.cc.loopDepth := rfl
@[simp] theorem State.retireTo_cc_tstep (s : State) (pc : Word) : (s.retireTo pc).cc.tstep = s.cc.tstep := rfl
@[simp] theorem State.retireTo_cc_uivec (s : State) (pc : Word) : (s.retireTo pc).cc.uivec = s.cc.uivec := rfl
@[simp] theorem State.retireTo_cc_uiepc (s : State) (pc : Word) : (s.retireTo pc).cc.uiepc = s.cc.uiepc := rfl
@[simp] theorem State.retireTo_cc_uicause (s : State) (pc : Word) : (s.retireTo pc).cc.uicause = s.cc.uicause := rfl
@[simp] theorem State.retireTo_cc_uistatus (s : State) (pc : Word) : (s.retireTo pc).cc.uistatus = s.cc.uistatus := rfl
@[simp] theorem State.retireTo_cc_out (s : State) (pc : Word) : (s.retireTo pc).cc.out = s.cc.out := rfl
@[simp] theorem State.retireTo_cc_tvec (s : State) (pc : Word) : (s.retireTo pc).cc.tvec = s.cc.tvec := rfl
@[simp] theorem State.retireTo_cc_tcause (s : State) (pc : Word) : (s.retireTo pc).cc.tcause = s.cc.tcause := rfl
@[simp] theorem State.retireTo_cc_tepc (s : State) (pc : Word) : (s.retireTo pc).cc.tepc = s.cc.tepc := rfl
@[simp] theorem State.retireTo_cc_tval (s : State) (pc : Word) : (s.retireTo pc).cc.tval = s.cc.tval := rfl
@[simp] theorem State.retireTo_cc_tstatus (s : State) (pc : Word) : (s.retireTo pc).cc.tstatus = s.cc.tstatus := rfl
@[simp] theorem State.retireTo_cc_vdirty (s : State) (pc : Word) : (s.retireTo pc).cc.vdirty = s.cc.vdirty := rfl
@[simp] theorem State.retireTo_cc_vowner (s : State) (pc : Word) : (s.retireTo pc).cc.vowner = s.cc.vowner := rfl
@[simp] theorem State.retireTo_cc_ptbase (s : State) (pc : Word) : (s.retireTo pc).cc.ptbase = s.cc.ptbase := rfl
@[simp] theorem State.retireTo_cc_asid (s : State) (pc : Word) : (s.retireTo pc).cc.asid = s.cc.asid := rfl
@[simp] theorem State.retireTo_cc_maxvl (s : State) (pc : Word) : (s.retireTo pc).cc.maxvl = s.cc.maxvl := rfl
@[simp] theorem State.retireTo_cc_preempt (s : State) (pc : Word) : (s.retireTo pc).cc.preempt = s.cc.preempt := rfl
@[simp] theorem State.retireTo_cc_rcbptr (s : State) (pc : Word) : (s.retireTo pc).cc.rcbptr = s.cc.rcbptr := rfl
@[simp] theorem State.retireTo_cc_fault2 (s : State) (pc : Word) : (s.retireTo pc).cc.fault2 = s.cc.fault2 := rfl
@[simp] theorem State.retireTo_cc_tscratch (s : State) (pc : Word) : (s.retireTo pc).cc.tscratch = s.cc.tscratch := rfl
@[simp] theorem State.retireTo_cc_depth (s : State) (pc : Word) : (s.retireTo pc).cc.depth = s.cc.depth := rfl
@[simp] theorem State.retireTo_cc_serial (s : State) (pc : Word) : (s.retireTo pc).cc.serial = s.cc.serial := rfl
@[simp] theorem State.retireTo_cc_ring (s : State) (pc : Word) : (s.retireTo pc).cc.ring = s.cc.ring := rfl
@[simp] theorem State.retireTo_cc_request (s : State) (pc : Word) : (s.retireTo pc).cc.request = s.cc.request := rfl
@[simp] theorem State.retireTo_cc_claim (s : State) (pc : Word) : (s.retireTo pc).cc.claim = s.cc.claim := rfl
@[simp] theorem State.retireTo_cc_parts (s : State) (pc : Word) : (s.retireTo pc).cc.parts = s.cc.parts := rfl
@[simp] theorem State.retireTo_cc_region (s : State) (pc : Word) : (s.retireTo pc).cc.region = s.cc.region := rfl
@[simp] theorem State.retireTo_cc_index (s : State) (pc : Word) : (s.retireTo pc).cc.index = s.cc.index := rfl
@[simp] theorem State.retireTo_cc_spadOff (s : State) (pc : Word) : (s.retireTo pc).cc.spadOff = s.cc.spadOff := rfl
@[simp] theorem State.retireTo_cc_spadLen (s : State) (pc : Word) : (s.retireTo pc).cc.spadLen = s.cc.spadLen := rfl
@[simp] theorem State.retireTo_cc_reached (s : State) (pc : Word) : (s.retireTo pc).cc.reached = s.cc.reached := rfl
@[simp] theorem State.retireTo_cc_armed (s : State) (pc : Word) : (s.retireTo pc).cc.armed = s.cc.armed := rfl
@[simp] theorem State.retireTo_cc_macroOp (s : State) (pc : Word) : (s.retireTo pc).cc.macroOp = s.cc.macroOp := rfl
@[simp] theorem State.retireTo_cc_loads (s : State) (pc : Word) : (s.retireTo pc).cc.loads = s.cc.loads := rfl
@[simp] theorem State.retireTo_cc_stores (s : State) (pc : Word) : (s.retireTo pc).cc.stores = s.cc.stores := rfl
@[simp] theorem State.retireTo_cc_tlb (s : State) (pc : Word) : (s.retireTo pc).cc.tlb = s.cc.tlb := rfl
@[simp] theorem State.retireTo_cc_entering (s : State) (pc : Word) : (s.retireTo pc).cc.entering = s.cc.entering := rfl
@[simp] theorem State.retireTo_cc_fencing (s : State) (pc : Word) : (s.retireTo pc).cc.fencing = s.cc.fencing := rfl
@[simp] theorem State.retireTo_cc_vfence (s : State) (pc : Word) : (s.retireTo pc).cc.vfence = s.cc.vfence := rfl
@[simp] theorem State.retireTo_cc_leaving (s : State) (pc : Word) : (s.retireTo pc).cc.leaving = s.cc.leaving := rfl
@[simp] theorem State.retireTo_cc_halting (s : State) (pc : Word) : (s.retireTo pc).cc.halting = s.cc.halting := rfl
@[simp] theorem State.retireTo_cc_credit (s : State) (pc : Word) : (s.retireTo pc).cc.credit = s.cc.credit := rfl
@[simp] theorem State.retireTo_cc_starved (s : State) (pc : Word) : (s.retireTo pc).cc.starved = s.cc.starved := rfl
@[simp] theorem State.retireTo_cc_qcredit (s : State) (pc : Word) : (s.retireTo pc).cc.qcredit = s.cc.qcredit := rfl
@[simp] theorem State.retireTo_cc_cut (s : State) (pc : Word) : (s.retireTo pc).cc.cut = s.cc.cut := rfl

@[simp] theorem State.retireTo_cc_held (s : State) (pc : Word) : (s.retireTo pc).cc.held = [] := rfl
@[simp] theorem State.retireTo_cc_miss (s : State) (pc : Word) : (s.retireTo pc).cc.miss = none := rfl
@[simp] theorem State.retireTo_cc_pc (s : State) (pc : Word) : (s.retireTo pc).cc.pc = pc := rfl
@[simp] theorem State.retireTo_cc_retired (s : State) (pc : Word) : (s.retireTo pc).cc.retired = s.cc.retired + 1 := rfl
@[simp] theorem State.takeVstart_cc_vstart (s : State) : s.takeVstart.cc.vstart = 0 := rfl
@[simp] theorem State.orFlags_cc_fcsr (s : State) (f : Flags) : (s.orFlags f).cc.fcsr = s.cc.fcsr ||| (f.setWidth 14 <<< 8) := rfl
@[simp] theorem State.putM_cc_m (s : State) (n : MReg) (b : BitVec 1024) : (s.putM n b).cc.m = s.cc.m.setIfInBounds n.toNat b := rfl
@[simp] theorem State.putT_cc_t (s : State) (n : TReg) (t : Tile) : (s.putT n t).cc.t = s.cc.t.set n.toNat t := rfl

/-! ### ControlCore.setX -/

@[simp] theorem ControlCore.setX_ctxid (c : ControlCore) (n : XReg) (v : Word) : (c.setX n v).ctxid = c.ctxid := by
  unfold ControlCore.setX; split <;> rfl
@[simp] theorem ControlCore.setX_run (c : ControlCore) (n : XReg) (v : Word) : (c.setX n v).run = c.run := by
  unfold ControlCore.setX; split <;> rfl
@[simp] theorem ControlCore.setX_level (c : ControlCore) (n : XReg) (v : Word) : (c.setX n v).level = c.level := by
  unfold ControlCore.setX; split <;> rfl
@[simp] theorem ControlCore.setX_pc (c : ControlCore) (n : XReg) (v : Word) : (c.setX n v).pc = c.pc := by
  unfold ControlCore.setX; split <;> rfl
@[simp] theorem ControlCore.setX_shadow (c : ControlCore) (n : XReg) (v : Word) : (c.setX n v).shadow = c.shadow := by
  unfold ControlCore.setX; split <;> rfl
@[simp] theorem ControlCore.setX_v (c : ControlCore) (n : XReg) (v : Word) : (c.setX n v).v = c.v := by
  unfold ControlCore.setX; split <;> rfl
@[simp] theorem ControlCore.setX_m (c : ControlCore) (n : XReg) (v : Word) : (c.setX n v).m = c.m := by
  unfold ControlCore.setX; split <;> rfl
@[simp] theorem ControlCore.setX_t (c : ControlCore) (n : XReg) (v : Word) : (c.setX n v).t = c.t := by
  unfold ControlCore.setX; split <;> rfl
@[simp] theorem ControlCore.setX_vl (c : ControlCore) (n : XReg) (v : Word) : (c.setX n v).vl = c.vl := by
  unfold ControlCore.setX; split <;> rfl
@[simp] theorem ControlCore.setX_vstart (c : ControlCore) (n : XReg) (v : Word) : (c.setX n v).vstart = c.vstart := by
  unfold ControlCore.setX; split <;> rfl
@[simp] theorem ControlCore.setX_vstr (c : ControlCore) (n : XReg) (v : Word) : (c.setX n v).vstr = c.vstr := by
  unfold ControlCore.setX; split <;> rfl
@[simp] theorem ControlCore.setX_vmsel (c : ControlCore) (n : XReg) (v : Word) : (c.setX n v).vmsel = c.vmsel := by
  unfold ControlCore.setX; split <;> rfl
@[simp] theorem ControlCore.setX_mfmt (c : ControlCore) (n : XReg) (v : Word) : (c.setX n v).mfmt = c.mfmt := by
  unfold ControlCore.setX; split <;> rfl
@[simp] theorem ControlCore.setX_fcsr (c : ControlCore) (n : XReg) (v : Word) : (c.setX n v).fcsr = c.fcsr := by
  unfold ControlCore.setX; split <;> rfl
@[simp] theorem ControlCore.setX_ttol (c : ControlCore) (n : XReg) (v : Word) : (c.setX n v).ttol = c.ttol := by
  unfold ControlCore.setX; split <;> rfl
@[simp] theorem ControlCore.setX_issued (c : ControlCore) (n : XReg) (v : Word) : (c.setX n v).issued = c.issued := by
  unfold ControlCore.setX; split <;> rfl
@[simp] theorem ControlCore.setX_done (c : ControlCore) (n : XReg) (v : Word) : (c.setX n v).done = c.done := by
  unfold ControlCore.setX; split <;> rfl
@[simp] theorem ControlCore.setX_inStrip (c : ControlCore) (n : XReg) (v : Word) : (c.setX n v).inStrip = c.inStrip := by
  unfold ControlCore.setX; split <;> rfl
@[simp] theorem ControlCore.setX_loopDepth (c : ControlCore) (n : XReg) (v : Word) : (c.setX n v).loopDepth = c.loopDepth := by
  unfold ControlCore.setX; split <;> rfl
@[simp] theorem ControlCore.setX_tstep (c : ControlCore) (n : XReg) (v : Word) : (c.setX n v).tstep = c.tstep := by
  unfold ControlCore.setX; split <;> rfl
@[simp] theorem ControlCore.setX_uivec (c : ControlCore) (n : XReg) (v : Word) : (c.setX n v).uivec = c.uivec := by
  unfold ControlCore.setX; split <;> rfl
@[simp] theorem ControlCore.setX_uiepc (c : ControlCore) (n : XReg) (v : Word) : (c.setX n v).uiepc = c.uiepc := by
  unfold ControlCore.setX; split <;> rfl
@[simp] theorem ControlCore.setX_uicause (c : ControlCore) (n : XReg) (v : Word) : (c.setX n v).uicause = c.uicause := by
  unfold ControlCore.setX; split <;> rfl
@[simp] theorem ControlCore.setX_uistatus (c : ControlCore) (n : XReg) (v : Word) : (c.setX n v).uistatus = c.uistatus := by
  unfold ControlCore.setX; split <;> rfl
@[simp] theorem ControlCore.setX_retired (c : ControlCore) (n : XReg) (v : Word) : (c.setX n v).retired = c.retired := by
  unfold ControlCore.setX; split <;> rfl
@[simp] theorem ControlCore.setX_out (c : ControlCore) (n : XReg) (v : Word) : (c.setX n v).out = c.out := by
  unfold ControlCore.setX; split <;> rfl
@[simp] theorem ControlCore.setX_tvec (c : ControlCore) (n : XReg) (v : Word) : (c.setX n v).tvec = c.tvec := by
  unfold ControlCore.setX; split <;> rfl
@[simp] theorem ControlCore.setX_tcause (c : ControlCore) (n : XReg) (v : Word) : (c.setX n v).tcause = c.tcause := by
  unfold ControlCore.setX; split <;> rfl
@[simp] theorem ControlCore.setX_tepc (c : ControlCore) (n : XReg) (v : Word) : (c.setX n v).tepc = c.tepc := by
  unfold ControlCore.setX; split <;> rfl
@[simp] theorem ControlCore.setX_tval (c : ControlCore) (n : XReg) (v : Word) : (c.setX n v).tval = c.tval := by
  unfold ControlCore.setX; split <;> rfl
@[simp] theorem ControlCore.setX_tstatus (c : ControlCore) (n : XReg) (v : Word) : (c.setX n v).tstatus = c.tstatus := by
  unfold ControlCore.setX; split <;> rfl
@[simp] theorem ControlCore.setX_vdirty (c : ControlCore) (n : XReg) (v : Word) : (c.setX n v).vdirty = c.vdirty := by
  unfold ControlCore.setX; split <;> rfl
@[simp] theorem ControlCore.setX_vowner (c : ControlCore) (n : XReg) (v : Word) : (c.setX n v).vowner = c.vowner := by
  unfold ControlCore.setX; split <;> rfl
@[simp] theorem ControlCore.setX_ptbase (c : ControlCore) (n : XReg) (v : Word) : (c.setX n v).ptbase = c.ptbase := by
  unfold ControlCore.setX; split <;> rfl
@[simp] theorem ControlCore.setX_asid (c : ControlCore) (n : XReg) (v : Word) : (c.setX n v).asid = c.asid := by
  unfold ControlCore.setX; split <;> rfl
@[simp] theorem ControlCore.setX_maxvl (c : ControlCore) (n : XReg) (v : Word) : (c.setX n v).maxvl = c.maxvl := by
  unfold ControlCore.setX; split <;> rfl
@[simp] theorem ControlCore.setX_preempt (c : ControlCore) (n : XReg) (v : Word) : (c.setX n v).preempt = c.preempt := by
  unfold ControlCore.setX; split <;> rfl
@[simp] theorem ControlCore.setX_rcbptr (c : ControlCore) (n : XReg) (v : Word) : (c.setX n v).rcbptr = c.rcbptr := by
  unfold ControlCore.setX; split <;> rfl
@[simp] theorem ControlCore.setX_fault2 (c : ControlCore) (n : XReg) (v : Word) : (c.setX n v).fault2 = c.fault2 := by
  unfold ControlCore.setX; split <;> rfl
@[simp] theorem ControlCore.setX_tscratch (c : ControlCore) (n : XReg) (v : Word) : (c.setX n v).tscratch = c.tscratch := by
  unfold ControlCore.setX; split <;> rfl
@[simp] theorem ControlCore.setX_depth (c : ControlCore) (n : XReg) (v : Word) : (c.setX n v).depth = c.depth := by
  unfold ControlCore.setX; split <;> rfl
@[simp] theorem ControlCore.setX_serial (c : ControlCore) (n : XReg) (v : Word) : (c.setX n v).serial = c.serial := by
  unfold ControlCore.setX; split <;> rfl
@[simp] theorem ControlCore.setX_ring (c : ControlCore) (n : XReg) (v : Word) : (c.setX n v).ring = c.ring := by
  unfold ControlCore.setX; split <;> rfl
@[simp] theorem ControlCore.setX_request (c : ControlCore) (n : XReg) (v : Word) : (c.setX n v).request = c.request := by
  unfold ControlCore.setX; split <;> rfl
@[simp] theorem ControlCore.setX_claim (c : ControlCore) (n : XReg) (v : Word) : (c.setX n v).claim = c.claim := by
  unfold ControlCore.setX; split <;> rfl
@[simp] theorem ControlCore.setX_parts (c : ControlCore) (n : XReg) (v : Word) : (c.setX n v).parts = c.parts := by
  unfold ControlCore.setX; split <;> rfl
@[simp] theorem ControlCore.setX_region (c : ControlCore) (n : XReg) (v : Word) : (c.setX n v).region = c.region := by
  unfold ControlCore.setX; split <;> rfl
@[simp] theorem ControlCore.setX_index (c : ControlCore) (n : XReg) (v : Word) : (c.setX n v).index = c.index := by
  unfold ControlCore.setX; split <;> rfl
@[simp] theorem ControlCore.setX_spadOff (c : ControlCore) (n : XReg) (v : Word) : (c.setX n v).spadOff = c.spadOff := by
  unfold ControlCore.setX; split <;> rfl
@[simp] theorem ControlCore.setX_spadLen (c : ControlCore) (n : XReg) (v : Word) : (c.setX n v).spadLen = c.spadLen := by
  unfold ControlCore.setX; split <;> rfl
@[simp] theorem ControlCore.setX_reached (c : ControlCore) (n : XReg) (v : Word) : (c.setX n v).reached = c.reached := by
  unfold ControlCore.setX; split <;> rfl
@[simp] theorem ControlCore.setX_armed (c : ControlCore) (n : XReg) (v : Word) : (c.setX n v).armed = c.armed := by
  unfold ControlCore.setX; split <;> rfl
@[simp] theorem ControlCore.setX_macroOp (c : ControlCore) (n : XReg) (v : Word) : (c.setX n v).macroOp = c.macroOp := by
  unfold ControlCore.setX; split <;> rfl
@[simp] theorem ControlCore.setX_loads (c : ControlCore) (n : XReg) (v : Word) : (c.setX n v).loads = c.loads := by
  unfold ControlCore.setX; split <;> rfl
@[simp] theorem ControlCore.setX_stores (c : ControlCore) (n : XReg) (v : Word) : (c.setX n v).stores = c.stores := by
  unfold ControlCore.setX; split <;> rfl
@[simp] theorem ControlCore.setX_tlb (c : ControlCore) (n : XReg) (v : Word) : (c.setX n v).tlb = c.tlb := by
  unfold ControlCore.setX; split <;> rfl
@[simp] theorem ControlCore.setX_miss (c : ControlCore) (n : XReg) (v : Word) : (c.setX n v).miss = c.miss := by
  unfold ControlCore.setX; split <;> rfl
@[simp] theorem ControlCore.setX_held (c : ControlCore) (n : XReg) (v : Word) : (c.setX n v).held = c.held := by
  unfold ControlCore.setX; split <;> rfl
@[simp] theorem ControlCore.setX_entering (c : ControlCore) (n : XReg) (v : Word) : (c.setX n v).entering = c.entering := by
  unfold ControlCore.setX; split <;> rfl
@[simp] theorem ControlCore.setX_fencing (c : ControlCore) (n : XReg) (v : Word) : (c.setX n v).fencing = c.fencing := by
  unfold ControlCore.setX; split <;> rfl
@[simp] theorem ControlCore.setX_vfence (c : ControlCore) (n : XReg) (v : Word) : (c.setX n v).vfence = c.vfence := by
  unfold ControlCore.setX; split <;> rfl
@[simp] theorem ControlCore.setX_leaving (c : ControlCore) (n : XReg) (v : Word) : (c.setX n v).leaving = c.leaving := by
  unfold ControlCore.setX; split <;> rfl
@[simp] theorem ControlCore.setX_halting (c : ControlCore) (n : XReg) (v : Word) : (c.setX n v).halting = c.halting := by
  unfold ControlCore.setX; split <;> rfl
@[simp] theorem ControlCore.setX_credit (c : ControlCore) (n : XReg) (v : Word) : (c.setX n v).credit = c.credit := by
  unfold ControlCore.setX; split <;> rfl
@[simp] theorem ControlCore.setX_starved (c : ControlCore) (n : XReg) (v : Word) : (c.setX n v).starved = c.starved := by
  unfold ControlCore.setX; split <;> rfl
@[simp] theorem ControlCore.setX_qcredit (c : ControlCore) (n : XReg) (v : Word) : (c.setX n v).qcredit = c.qcredit := by
  unfold ControlCore.setX; split <;> rfl
@[simp] theorem ControlCore.setX_cut (c : ControlCore) (n : XReg) (v : Word) : (c.setX n v).cut = c.cut := by
  unfold ControlCore.setX; split <;> rfl

/-! ### ControlCore.putV -/

@[simp] theorem ControlCore.putV_ctxid (c : ControlCore) (n : VReg) (r : VecReg) : (c.putV n r).ctxid = c.ctxid := rfl
@[simp] theorem ControlCore.putV_run (c : ControlCore) (n : VReg) (r : VecReg) : (c.putV n r).run = c.run := rfl
@[simp] theorem ControlCore.putV_level (c : ControlCore) (n : VReg) (r : VecReg) : (c.putV n r).level = c.level := rfl
@[simp] theorem ControlCore.putV_pc (c : ControlCore) (n : VReg) (r : VecReg) : (c.putV n r).pc = c.pc := rfl
@[simp] theorem ControlCore.putV_x (c : ControlCore) (n : VReg) (r : VecReg) : (c.putV n r).x = c.x := rfl
@[simp] theorem ControlCore.putV_shadow (c : ControlCore) (n : VReg) (r : VecReg) : (c.putV n r).shadow = c.shadow := rfl
@[simp] theorem ControlCore.putV_m (c : ControlCore) (n : VReg) (r : VecReg) : (c.putV n r).m = c.m := rfl
@[simp] theorem ControlCore.putV_t (c : ControlCore) (n : VReg) (r : VecReg) : (c.putV n r).t = c.t := rfl
@[simp] theorem ControlCore.putV_vl (c : ControlCore) (n : VReg) (r : VecReg) : (c.putV n r).vl = c.vl := rfl
@[simp] theorem ControlCore.putV_vstart (c : ControlCore) (n : VReg) (r : VecReg) : (c.putV n r).vstart = c.vstart := rfl
@[simp] theorem ControlCore.putV_vstr (c : ControlCore) (n : VReg) (r : VecReg) : (c.putV n r).vstr = c.vstr := rfl
@[simp] theorem ControlCore.putV_vmsel (c : ControlCore) (n : VReg) (r : VecReg) : (c.putV n r).vmsel = c.vmsel := rfl
@[simp] theorem ControlCore.putV_mfmt (c : ControlCore) (n : VReg) (r : VecReg) : (c.putV n r).mfmt = c.mfmt := rfl
@[simp] theorem ControlCore.putV_fcsr (c : ControlCore) (n : VReg) (r : VecReg) : (c.putV n r).fcsr = c.fcsr := rfl
@[simp] theorem ControlCore.putV_ttol (c : ControlCore) (n : VReg) (r : VecReg) : (c.putV n r).ttol = c.ttol := rfl
@[simp] theorem ControlCore.putV_issued (c : ControlCore) (n : VReg) (r : VecReg) : (c.putV n r).issued = c.issued := rfl
@[simp] theorem ControlCore.putV_done (c : ControlCore) (n : VReg) (r : VecReg) : (c.putV n r).done = c.done := rfl
@[simp] theorem ControlCore.putV_inStrip (c : ControlCore) (n : VReg) (r : VecReg) : (c.putV n r).inStrip = c.inStrip := rfl
@[simp] theorem ControlCore.putV_loopDepth (c : ControlCore) (n : VReg) (r : VecReg) : (c.putV n r).loopDepth = c.loopDepth := rfl
@[simp] theorem ControlCore.putV_tstep (c : ControlCore) (n : VReg) (r : VecReg) : (c.putV n r).tstep = c.tstep := rfl
@[simp] theorem ControlCore.putV_uivec (c : ControlCore) (n : VReg) (r : VecReg) : (c.putV n r).uivec = c.uivec := rfl
@[simp] theorem ControlCore.putV_uiepc (c : ControlCore) (n : VReg) (r : VecReg) : (c.putV n r).uiepc = c.uiepc := rfl
@[simp] theorem ControlCore.putV_uicause (c : ControlCore) (n : VReg) (r : VecReg) : (c.putV n r).uicause = c.uicause := rfl
@[simp] theorem ControlCore.putV_uistatus (c : ControlCore) (n : VReg) (r : VecReg) : (c.putV n r).uistatus = c.uistatus := rfl
@[simp] theorem ControlCore.putV_retired (c : ControlCore) (n : VReg) (r : VecReg) : (c.putV n r).retired = c.retired := rfl
@[simp] theorem ControlCore.putV_out (c : ControlCore) (n : VReg) (r : VecReg) : (c.putV n r).out = c.out := rfl
@[simp] theorem ControlCore.putV_tvec (c : ControlCore) (n : VReg) (r : VecReg) : (c.putV n r).tvec = c.tvec := rfl
@[simp] theorem ControlCore.putV_tcause (c : ControlCore) (n : VReg) (r : VecReg) : (c.putV n r).tcause = c.tcause := rfl
@[simp] theorem ControlCore.putV_tepc (c : ControlCore) (n : VReg) (r : VecReg) : (c.putV n r).tepc = c.tepc := rfl
@[simp] theorem ControlCore.putV_tval (c : ControlCore) (n : VReg) (r : VecReg) : (c.putV n r).tval = c.tval := rfl
@[simp] theorem ControlCore.putV_tstatus (c : ControlCore) (n : VReg) (r : VecReg) : (c.putV n r).tstatus = c.tstatus := rfl
@[simp] theorem ControlCore.putV_vowner (c : ControlCore) (n : VReg) (r : VecReg) : (c.putV n r).vowner = c.vowner := rfl
@[simp] theorem ControlCore.putV_ptbase (c : ControlCore) (n : VReg) (r : VecReg) : (c.putV n r).ptbase = c.ptbase := rfl
@[simp] theorem ControlCore.putV_asid (c : ControlCore) (n : VReg) (r : VecReg) : (c.putV n r).asid = c.asid := rfl
@[simp] theorem ControlCore.putV_maxvl (c : ControlCore) (n : VReg) (r : VecReg) : (c.putV n r).maxvl = c.maxvl := rfl
@[simp] theorem ControlCore.putV_preempt (c : ControlCore) (n : VReg) (r : VecReg) : (c.putV n r).preempt = c.preempt := rfl
@[simp] theorem ControlCore.putV_rcbptr (c : ControlCore) (n : VReg) (r : VecReg) : (c.putV n r).rcbptr = c.rcbptr := rfl
@[simp] theorem ControlCore.putV_fault2 (c : ControlCore) (n : VReg) (r : VecReg) : (c.putV n r).fault2 = c.fault2 := rfl
@[simp] theorem ControlCore.putV_tscratch (c : ControlCore) (n : VReg) (r : VecReg) : (c.putV n r).tscratch = c.tscratch := rfl
@[simp] theorem ControlCore.putV_depth (c : ControlCore) (n : VReg) (r : VecReg) : (c.putV n r).depth = c.depth := rfl
@[simp] theorem ControlCore.putV_serial (c : ControlCore) (n : VReg) (r : VecReg) : (c.putV n r).serial = c.serial := rfl
@[simp] theorem ControlCore.putV_ring (c : ControlCore) (n : VReg) (r : VecReg) : (c.putV n r).ring = c.ring := rfl
@[simp] theorem ControlCore.putV_request (c : ControlCore) (n : VReg) (r : VecReg) : (c.putV n r).request = c.request := rfl
@[simp] theorem ControlCore.putV_claim (c : ControlCore) (n : VReg) (r : VecReg) : (c.putV n r).claim = c.claim := rfl
@[simp] theorem ControlCore.putV_parts (c : ControlCore) (n : VReg) (r : VecReg) : (c.putV n r).parts = c.parts := rfl
@[simp] theorem ControlCore.putV_region (c : ControlCore) (n : VReg) (r : VecReg) : (c.putV n r).region = c.region := rfl
@[simp] theorem ControlCore.putV_index (c : ControlCore) (n : VReg) (r : VecReg) : (c.putV n r).index = c.index := rfl
@[simp] theorem ControlCore.putV_spadOff (c : ControlCore) (n : VReg) (r : VecReg) : (c.putV n r).spadOff = c.spadOff := rfl
@[simp] theorem ControlCore.putV_spadLen (c : ControlCore) (n : VReg) (r : VecReg) : (c.putV n r).spadLen = c.spadLen := rfl
@[simp] theorem ControlCore.putV_reached (c : ControlCore) (n : VReg) (r : VecReg) : (c.putV n r).reached = c.reached := rfl
@[simp] theorem ControlCore.putV_armed (c : ControlCore) (n : VReg) (r : VecReg) : (c.putV n r).armed = c.armed := rfl
@[simp] theorem ControlCore.putV_macroOp (c : ControlCore) (n : VReg) (r : VecReg) : (c.putV n r).macroOp = c.macroOp := rfl
@[simp] theorem ControlCore.putV_loads (c : ControlCore) (n : VReg) (r : VecReg) : (c.putV n r).loads = c.loads := rfl
@[simp] theorem ControlCore.putV_stores (c : ControlCore) (n : VReg) (r : VecReg) : (c.putV n r).stores = c.stores := rfl
@[simp] theorem ControlCore.putV_tlb (c : ControlCore) (n : VReg) (r : VecReg) : (c.putV n r).tlb = c.tlb := rfl
@[simp] theorem ControlCore.putV_miss (c : ControlCore) (n : VReg) (r : VecReg) : (c.putV n r).miss = c.miss := rfl
@[simp] theorem ControlCore.putV_held (c : ControlCore) (n : VReg) (r : VecReg) : (c.putV n r).held = c.held := rfl
@[simp] theorem ControlCore.putV_entering (c : ControlCore) (n : VReg) (r : VecReg) : (c.putV n r).entering = c.entering := rfl
@[simp] theorem ControlCore.putV_fencing (c : ControlCore) (n : VReg) (r : VecReg) : (c.putV n r).fencing = c.fencing := rfl
@[simp] theorem ControlCore.putV_vfence (c : ControlCore) (n : VReg) (r : VecReg) : (c.putV n r).vfence = c.vfence := rfl
@[simp] theorem ControlCore.putV_leaving (c : ControlCore) (n : VReg) (r : VecReg) : (c.putV n r).leaving = c.leaving := rfl
@[simp] theorem ControlCore.putV_halting (c : ControlCore) (n : VReg) (r : VecReg) : (c.putV n r).halting = c.halting := rfl
@[simp] theorem ControlCore.putV_credit (c : ControlCore) (n : VReg) (r : VecReg) : (c.putV n r).credit = c.credit := rfl
@[simp] theorem ControlCore.putV_starved (c : ControlCore) (n : VReg) (r : VecReg) : (c.putV n r).starved = c.starved := rfl
@[simp] theorem ControlCore.putV_qcredit (c : ControlCore) (n : VReg) (r : VecReg) : (c.putV n r).qcredit = c.qcredit := rfl
@[simp] theorem ControlCore.putV_cut (c : ControlCore) (n : VReg) (r : VecReg) : (c.putV n r).cut = c.cut := rfl

/-! ### ControlCore.incOut -/

@[simp] theorem ControlCore.incOut_ctxid (c : ControlCore) (k : OpClass) : (c.incOut k).ctxid = c.ctxid := rfl
@[simp] theorem ControlCore.incOut_run (c : ControlCore) (k : OpClass) : (c.incOut k).run = c.run := rfl
@[simp] theorem ControlCore.incOut_level (c : ControlCore) (k : OpClass) : (c.incOut k).level = c.level := rfl
@[simp] theorem ControlCore.incOut_pc (c : ControlCore) (k : OpClass) : (c.incOut k).pc = c.pc := rfl
@[simp] theorem ControlCore.incOut_x (c : ControlCore) (k : OpClass) : (c.incOut k).x = c.x := rfl
@[simp] theorem ControlCore.incOut_shadow (c : ControlCore) (k : OpClass) : (c.incOut k).shadow = c.shadow := rfl
@[simp] theorem ControlCore.incOut_v (c : ControlCore) (k : OpClass) : (c.incOut k).v = c.v := rfl
@[simp] theorem ControlCore.incOut_m (c : ControlCore) (k : OpClass) : (c.incOut k).m = c.m := rfl
@[simp] theorem ControlCore.incOut_t (c : ControlCore) (k : OpClass) : (c.incOut k).t = c.t := rfl
@[simp] theorem ControlCore.incOut_vl (c : ControlCore) (k : OpClass) : (c.incOut k).vl = c.vl := rfl
@[simp] theorem ControlCore.incOut_vstart (c : ControlCore) (k : OpClass) : (c.incOut k).vstart = c.vstart := rfl
@[simp] theorem ControlCore.incOut_vstr (c : ControlCore) (k : OpClass) : (c.incOut k).vstr = c.vstr := rfl
@[simp] theorem ControlCore.incOut_vmsel (c : ControlCore) (k : OpClass) : (c.incOut k).vmsel = c.vmsel := rfl
@[simp] theorem ControlCore.incOut_mfmt (c : ControlCore) (k : OpClass) : (c.incOut k).mfmt = c.mfmt := rfl
@[simp] theorem ControlCore.incOut_fcsr (c : ControlCore) (k : OpClass) : (c.incOut k).fcsr = c.fcsr := rfl
@[simp] theorem ControlCore.incOut_ttol (c : ControlCore) (k : OpClass) : (c.incOut k).ttol = c.ttol := rfl
@[simp] theorem ControlCore.incOut_issued (c : ControlCore) (k : OpClass) : (c.incOut k).issued = c.issued := rfl
@[simp] theorem ControlCore.incOut_done (c : ControlCore) (k : OpClass) : (c.incOut k).done = c.done := rfl
@[simp] theorem ControlCore.incOut_inStrip (c : ControlCore) (k : OpClass) : (c.incOut k).inStrip = c.inStrip := rfl
@[simp] theorem ControlCore.incOut_loopDepth (c : ControlCore) (k : OpClass) : (c.incOut k).loopDepth = c.loopDepth := rfl
@[simp] theorem ControlCore.incOut_tstep (c : ControlCore) (k : OpClass) : (c.incOut k).tstep = c.tstep := rfl
@[simp] theorem ControlCore.incOut_uivec (c : ControlCore) (k : OpClass) : (c.incOut k).uivec = c.uivec := rfl
@[simp] theorem ControlCore.incOut_uiepc (c : ControlCore) (k : OpClass) : (c.incOut k).uiepc = c.uiepc := rfl
@[simp] theorem ControlCore.incOut_uicause (c : ControlCore) (k : OpClass) : (c.incOut k).uicause = c.uicause := rfl
@[simp] theorem ControlCore.incOut_uistatus (c : ControlCore) (k : OpClass) : (c.incOut k).uistatus = c.uistatus := rfl
@[simp] theorem ControlCore.incOut_retired (c : ControlCore) (k : OpClass) : (c.incOut k).retired = c.retired := rfl
@[simp] theorem ControlCore.incOut_tvec (c : ControlCore) (k : OpClass) : (c.incOut k).tvec = c.tvec := rfl
@[simp] theorem ControlCore.incOut_tcause (c : ControlCore) (k : OpClass) : (c.incOut k).tcause = c.tcause := rfl
@[simp] theorem ControlCore.incOut_tepc (c : ControlCore) (k : OpClass) : (c.incOut k).tepc = c.tepc := rfl
@[simp] theorem ControlCore.incOut_tval (c : ControlCore) (k : OpClass) : (c.incOut k).tval = c.tval := rfl
@[simp] theorem ControlCore.incOut_tstatus (c : ControlCore) (k : OpClass) : (c.incOut k).tstatus = c.tstatus := rfl
@[simp] theorem ControlCore.incOut_vdirty (c : ControlCore) (k : OpClass) : (c.incOut k).vdirty = c.vdirty := rfl
@[simp] theorem ControlCore.incOut_vowner (c : ControlCore) (k : OpClass) : (c.incOut k).vowner = c.vowner := rfl
@[simp] theorem ControlCore.incOut_ptbase (c : ControlCore) (k : OpClass) : (c.incOut k).ptbase = c.ptbase := rfl
@[simp] theorem ControlCore.incOut_asid (c : ControlCore) (k : OpClass) : (c.incOut k).asid = c.asid := rfl
@[simp] theorem ControlCore.incOut_maxvl (c : ControlCore) (k : OpClass) : (c.incOut k).maxvl = c.maxvl := rfl
@[simp] theorem ControlCore.incOut_preempt (c : ControlCore) (k : OpClass) : (c.incOut k).preempt = c.preempt := rfl
@[simp] theorem ControlCore.incOut_rcbptr (c : ControlCore) (k : OpClass) : (c.incOut k).rcbptr = c.rcbptr := rfl
@[simp] theorem ControlCore.incOut_fault2 (c : ControlCore) (k : OpClass) : (c.incOut k).fault2 = c.fault2 := rfl
@[simp] theorem ControlCore.incOut_tscratch (c : ControlCore) (k : OpClass) : (c.incOut k).tscratch = c.tscratch := rfl
@[simp] theorem ControlCore.incOut_depth (c : ControlCore) (k : OpClass) : (c.incOut k).depth = c.depth := rfl
@[simp] theorem ControlCore.incOut_serial (c : ControlCore) (k : OpClass) : (c.incOut k).serial = c.serial := rfl
@[simp] theorem ControlCore.incOut_ring (c : ControlCore) (k : OpClass) : (c.incOut k).ring = c.ring := rfl
@[simp] theorem ControlCore.incOut_request (c : ControlCore) (k : OpClass) : (c.incOut k).request = c.request := rfl
@[simp] theorem ControlCore.incOut_claim (c : ControlCore) (k : OpClass) : (c.incOut k).claim = c.claim := rfl
@[simp] theorem ControlCore.incOut_parts (c : ControlCore) (k : OpClass) : (c.incOut k).parts = c.parts := rfl
@[simp] theorem ControlCore.incOut_region (c : ControlCore) (k : OpClass) : (c.incOut k).region = c.region := rfl
@[simp] theorem ControlCore.incOut_index (c : ControlCore) (k : OpClass) : (c.incOut k).index = c.index := rfl
@[simp] theorem ControlCore.incOut_spadOff (c : ControlCore) (k : OpClass) : (c.incOut k).spadOff = c.spadOff := rfl
@[simp] theorem ControlCore.incOut_spadLen (c : ControlCore) (k : OpClass) : (c.incOut k).spadLen = c.spadLen := rfl
@[simp] theorem ControlCore.incOut_reached (c : ControlCore) (k : OpClass) : (c.incOut k).reached = c.reached := rfl
@[simp] theorem ControlCore.incOut_armed (c : ControlCore) (k : OpClass) : (c.incOut k).armed = c.armed := rfl
@[simp] theorem ControlCore.incOut_macroOp (c : ControlCore) (k : OpClass) : (c.incOut k).macroOp = c.macroOp := rfl
@[simp] theorem ControlCore.incOut_loads (c : ControlCore) (k : OpClass) : (c.incOut k).loads = c.loads := rfl
@[simp] theorem ControlCore.incOut_stores (c : ControlCore) (k : OpClass) : (c.incOut k).stores = c.stores := rfl
@[simp] theorem ControlCore.incOut_tlb (c : ControlCore) (k : OpClass) : (c.incOut k).tlb = c.tlb := rfl
@[simp] theorem ControlCore.incOut_miss (c : ControlCore) (k : OpClass) : (c.incOut k).miss = c.miss := rfl
@[simp] theorem ControlCore.incOut_held (c : ControlCore) (k : OpClass) : (c.incOut k).held = c.held := rfl
@[simp] theorem ControlCore.incOut_entering (c : ControlCore) (k : OpClass) : (c.incOut k).entering = c.entering := rfl
@[simp] theorem ControlCore.incOut_fencing (c : ControlCore) (k : OpClass) : (c.incOut k).fencing = c.fencing := rfl
@[simp] theorem ControlCore.incOut_vfence (c : ControlCore) (k : OpClass) : (c.incOut k).vfence = c.vfence := rfl
@[simp] theorem ControlCore.incOut_leaving (c : ControlCore) (k : OpClass) : (c.incOut k).leaving = c.leaving := rfl
@[simp] theorem ControlCore.incOut_halting (c : ControlCore) (k : OpClass) : (c.incOut k).halting = c.halting := rfl
@[simp] theorem ControlCore.incOut_credit (c : ControlCore) (k : OpClass) : (c.incOut k).credit = c.credit := rfl
@[simp] theorem ControlCore.incOut_starved (c : ControlCore) (k : OpClass) : (c.incOut k).starved = c.starved := rfl
@[simp] theorem ControlCore.incOut_qcredit (c : ControlCore) (k : OpClass) : (c.incOut k).qcredit = c.qcredit := rfl
@[simp] theorem ControlCore.incOut_cut (c : ControlCore) (k : OpClass) : (c.incOut k).cut = c.cut := rfl

@[simp] theorem ControlCore.putV_v (c : ControlCore) (n : VReg) (r : VecReg) : (c.putV n r).v = c.v.setIfInBounds n.toNat r := rfl
@[simp] theorem ControlCore.putV_vdirty (c : ControlCore) (n : VReg) (r : VecReg) :
    (c.putV n r).vdirty = c.vdirty ||| (1#48 <<< n.toNat) := rfl

/-! ### Scalar registers (R114) -/

@[simp] theorem ControlCore.getX_zero (c : ControlCore) : c.getX 0 = 0 := rfl

/-- A register reads what was written last; x0 stays zero and every other register stands. -/
theorem ControlCore.getX_setX (c : ControlCore) (n m : XReg) (v : Word) :
    (c.setX n v).getX m = if m = n ∧ n ≠ 0 then v else c.getX m := by
  by_cases hn : n = 0
  · subst hn
    have : c.setX 0 v = c := if_pos rfl
    rw [this, if_neg (by simp)]
  · have e : c.setX n v = { c with x := c.x.set n.toNat v } := if_neg hn
    rw [e]
    by_cases hm : m = 0
    · subst hm
      rw [if_neg (fun h => hn h.1.symm)]
      rfl
    · rw [ControlCore.getX, if_neg hm, ControlCore.getX, if_neg hm]
      by_cases h : m = n
      · subst h
        rw [if_pos ⟨rfl, hn⟩]
        exact Vector.getElem_set_self _
      · have : n.toNat ≠ m.toNat := fun e => h (BitVec.eq_of_toNat_eq e.symm)
        rw [if_neg (fun q => h q.1)]
        exact Vector.getElem_set_ne (hi := n.isLt) m.isLt this

theorem State.getX_setX (s : State) (n m : XReg) (v : Word) :
    (s.setX n v).getX m = if m = n ∧ n ≠ 0 then v else s.getX m := ControlCore.getX_setX s.cc n m v

@[simp] theorem State.getX_zero (s : State) : s.getX 0 = 0 := rfl
@[simp] theorem State.retireTo_getX (s : State) (pc : Word) (n : XReg) : (s.retireTo pc).getX n = s.getX n := rfl
@[simp] theorem State.orFlags_getX (s : State) (f : Flags) (n : XReg) : (s.orFlags f).getX n = s.getX n := rfl
@[simp] theorem State.putV_getX (s : State) (k : VReg) (r : VecReg) (n : XReg) : (s.putV k r).getX n = s.getX n := rfl
@[simp] theorem State.putM_getX (s : State) (k : MReg) (b : BitVec 1024) (n : XReg) : (s.putM k b).getX n = s.getX n := rfl
@[simp] theorem State.takeVstart_getX (s : State) (n : XReg) : s.takeVstart.getX n = s.getX n := rfl

/-! ### Vector and mask registers -/

/-- A vector register reads what was written last; every other stands. -/
theorem State.getV_putV (s : State) (n m : VReg) (r : VecReg) (h : n.toNat < 48) :
    (s.putV n r).getV m = if m = n then r else s.getV m := by
  unfold State.putV State.getV
  by_cases e : m = n
  · subst e; simp [h]
  · have : n.toNat ≠ m.toNat := fun q => e (BitVec.eq_of_toNat_eq q.symm)
    simp [e, this]

@[simp] theorem State.retireTo_getV (s : State) (pc : Word) (n : VReg) : (s.retireTo pc).getV n = s.getV n := rfl
@[simp] theorem State.orFlags_getV (s : State) (f : Flags) (n : VReg) : (s.orFlags f).getV n = s.getV n := rfl
@[simp] theorem State.takeVstart_getV (s : State) (n : VReg) : s.takeVstart.getV n = s.getV n := rfl

/-- A mask register reads what was written last; every other stands. -/
theorem State.getM_putM (s : State) (n m : MReg) (b : BitVec 1024) (h : n.toNat < 12) :
    (s.putM n b).getM m = if m = n then b else s.getM m := by
  unfold State.putM State.getM
  by_cases e : m = n
  · subst e; simp [h]
  · have : n.toNat ≠ m.toNat := fun q => e (BitVec.eq_of_toNat_eq q.symm)
    simp [e, this]

@[simp] theorem State.retireTo_getM (s : State) (pc : Word) (n : MReg) : (s.retireTo pc).getM n = s.getM n := rfl

end Sys2Proof.Machine
end

