-- ==== Sys2Proof/Laws/Operands.lean ====
section
/-! SUPPORT. Slots of vector registers: what a write of elements leaves in each slot, and the active elements. -/

namespace Sys2Proof.Machine

/-! ### Fields of a number -/

/-- A number with one field replaced, in parts: what lies above the field, the field, what lies below it. -/
theorem setField_eq (n w i v : Nat) :
    setField n w i v = (n / 2 ^ (w * i) / 2 ^ w * 2 ^ w + v % 2 ^ w) * 2 ^ (w * i) + n % 2 ^ (w * i) := by
  unfold setField fieldAt
  simp only [Nat.shiftLeft_eq, Nat.shiftRight_eq_div_pow]
  generalize 2 ^ (w * i) = p
  generalize v % 2 ^ w = x
  generalize 2 ^ w = q
  have h1 : n / p / q * q + n / p % q = n / p := by rw [Nat.mul_comm]; exact Nat.div_add_mod _ _
  have h2 : n / p * p + n % p = n := by rw [Nat.mul_comm]; exact Nat.div_add_mod _ _
  generalize n / p / q = a at *
  generalize n / p % q = f at *
  rw [← h1] at h2
  have h3 : (a * q + f) * p = a * q * p + f * p := Nat.add_mul _ _ _
  have h4 : (a * q + x) * p = a * q * p + x * p := Nat.add_mul _ _ _
  omega

theorem fieldAt_testBit (n w i k : Nat) : (fieldAt n w i).testBit k = (decide (k < w) && n.testBit (w * i + k)) := by
  simp [fieldAt, Nat.testBit_mod_two_pow, Nat.testBit_shiftRight]

theorem setField_testBit (n w i v k : Nat) :
    (setField n w i v).testBit k =
      if w * i ≤ k ∧ k < w * i + w then v.testBit (k - w * i) else n.testBit k := by
  rw [setField_eq]
  rw [show ∀ a b p : Nat, (a + b) * p = p * (a + b) from fun a b p => Nat.mul_comm _ _]
  rw [Nat.testBit_two_pow_mul_add _ (Nat.mod_lt _ (Nat.two_pow_pos _))]
  by_cases h : k < w * i
  · have : ¬(w * i ≤ k ∧ k < w * i + w) := by omega
    simp [h, this, Nat.testBit_mod_two_pow]
  · rw [if_neg h, Nat.mul_comm _ (2 ^ w), Nat.testBit_two_pow_mul_add _ (Nat.mod_lt _ (Nat.two_pow_pos _))]
    by_cases g : k < w * i + w
    · have h1 : w * i ≤ k ∧ k < w * i + w := by omega
      have h2 : k - w * i < w := by omega
      simp [h1, h2, Nat.testBit_mod_two_pow]
    · have h1 : ¬(w * i ≤ k ∧ k < w * i + w) := by omega
      have h2 : ¬(k - w * i < w) := by omega
      rw [if_neg h1, if_neg h2, Nat.testBit_div_two_pow, Nat.testBit_div_two_pow]
      congr 1
      omega

/-- A field reads what was written into it; every other field stands. -/
theorem fieldAt_setField (n w i v j : Nat) :
    fieldAt (setField n w i v) w j = if j = i then v % 2 ^ w else fieldAt n w j := by
  apply Nat.eq_of_testBit_eq
  intro k
  rw [fieldAt_testBit, setField_testBit]
  by_cases hk : k < w
  · by_cases h : j = i
    · subst h
      have : w * j ≤ w * j + k ∧ w * j + k < w * j + w := by omega
      simp [hk, this, Nat.testBit_mod_two_pow]
    · have : ¬(w * i ≤ w * j + k ∧ w * j + k < w * i + w) := by
        rintro ⟨h1, h2⟩
        rcases Nat.lt_or_gt_of_ne h with g | g
        · have : w * (j + 1) ≤ w * i := Nat.mul_le_mul_left _ g
          rw [Nat.mul_add, Nat.mul_one] at this
          omega
        · have : w * (i + 1) ≤ w * j := Nat.mul_le_mul_left _ g
          rw [Nat.mul_add, Nat.mul_one] at this
          omega
      rw [if_neg this, if_neg h, fieldAt_testBit]
  · by_cases h : j = i
    · simp [hk, h, Nat.testBit_mod_two_pow]
    · simp [hk, h, fieldAt_testBit]

theorem fieldAt_mod (n w i m : Nat) (h : w * i + w ≤ m) : fieldAt (n % 2 ^ m) w i = fieldAt n w i := by
  apply Nat.eq_of_testBit_eq
  intro k
  rw [fieldAt_testBit, fieldAt_testBit, Nat.testBit_mod_two_pow]
  by_cases hk : k < w
  · have : w * i + k < m := by omega
    simp [hk, this]
  · simp [hk]

theorem fieldAt_mod_zero (n w i m : Nat) (h : m ≤ w * i) : fieldAt (n % 2 ^ m) w i = 0 := by
  apply Nat.eq_of_testBit_eq
  intro k
  rw [fieldAt_testBit, Nat.testBit_mod_two_pow]
  have : ¬ w * i + k < m := by omega
  simp [this]

/-- Fields written one after another, each at most once. -/
theorem fieldAt_foldl (w : Nat) (g : Nat → Nat) (es : List (Nat × Nat)) (n j : Nat) (h : (es.map (·.1)).Nodup) :
    fieldAt (es.foldl (fun n e => setField n w e.1 (g e.2)) n) w j =
      match es.find? fun e => e.1 == j with
      | some e => g e.2 % 2 ^ w
      | none => fieldAt n w j := by
  induction es generalizing n with
  | nil => rfl
  | cons e r ih =>
    simp only [List.map_cons, List.nodup_cons] at h
    rw [List.foldl_cons, ih _ h.2]
    by_cases q : e.1 = j
    · have hn : (r.find? fun e => e.1 == j) = none := by
        rw [List.find?_eq_none]
        intro x hx hxj
        exact h.1 (List.mem_map.2 ⟨x, hx, by simpa [← q] using hxj⟩)
      simp only [hn, List.find?_cons, q, beq_self_eq_true]
      rw [fieldAt_setField, if_pos rfl]
    · have : (e.1 == j) = false := by simpa using q
      simp only [List.find?_cons, this]
      rw [fieldAt_setField, if_neg (Ne.symm q)]

/-! ### Tags and lengths -/

theorem tagWidth_pos (t : Tag) : 0 < tagWidth t := by
  unfold tagWidth; split <;> decide

/-- Elements below VLMAX lie in the register. -/
theorem slot_fits (t : Tag) (i : Nat) (h : i < vlmax t) : tagWidth t * i + tagWidth t ≤ 8192 := by
  have h1 : tagWidth t * (i + 1) ≤ tagWidth t * vlmax t := Nat.mul_le_mul_left _ h
  have h2 : tagWidth t * vlmax t ≤ 8192 := Nat.mul_div_le _ _
  rw [Nat.mul_add, Nat.mul_one] at h1
  omega

/-! ### Writing elements (R115) -/

/-- What a write of elements leaves in the slots of the register. -/
theorem slotOf_writeElems (old : VecReg) (t : Tag) (vs vl : Nat) (es : List (Nat × Nat)) (i : Nat)
    (hn : (es.map (·.1)).Nodup) (hi : i < vlmax t) :
    slotOf (writeElems old t vs vl es).data t i =
      if i < vl then
        match es.find? fun e => e.1 == i with
        | some e => fillSlot t e.2 % 2 ^ tagWidth t
        | none => slotOf old.data t i
      else 0 := by
  have h8 := slot_fits t i hi
  simp only [slotOf, writeElems, tailZero, BitVec.toNat_ofNat]
  rw [fieldAt_mod _ _ _ _ h8]
  by_cases h : i < vl
  · have h1 : tagWidth t * (i + 1) ≤ tagWidth t * vl := Nat.mul_le_mul_left _ h
    rw [Nat.mul_add, Nat.mul_one] at h1
    rw [if_pos h, fieldAt_mod _ _ _ _ h1]
    exact fieldAt_foldl _ (fillSlot t) es _ i hn
  · rw [if_neg h, fieldAt_mod_zero _ _ _ _ (Nat.mul_le_mul_left _ (by omega))]

@[simp] theorem writeElems_tag (old : VecReg) (t : Tag) (vs vl : Nat) (es : List (Nat × Nat)) :
    (writeElems old t vs vl es).tag = t := rfl

/-! ### Active elements -/

theorem mem_activeFrom (s : State) (start i : Nat) :
    i ∈ s.activeFrom start ↔ i < s.vlN ∧ start ≤ i ∧ s.activeMask.getLsbD i = true := by
  simp [State.activeFrom]

theorem mem_actives (s : State) (i : Nat) :
    i ∈ s.actives ↔ i < s.vlN ∧ s.cc.vstart.toNat ≤ i ∧ s.activeMask.getLsbD i = true := mem_activeFrom s _ i

theorem activeFrom_nodup (s : State) (start : Nat) : (s.activeFrom start).Nodup := List.nodup_range.filter _

theorem actives_nodup (s : State) : s.actives.Nodup := activeFrom_nodup s _

/-- The flags that a function raises over elements. -/
def flagsOver (is : List Nat) (f : Nat → Nat × Flags) : Flags := is.foldl (fun a i => a ||| (f i).2) 0

theorem mapElems_eq (is : List Nat) (f : Nat → Nat × Flags) :
    mapElems is f = (is.map fun i => (i, (f i).1), flagsOver is f) := by
  have : ∀ (is : List Nat) (es : List (Nat × Nat)) (fl : Flags),
      is.foldl (fun acc i => let (b, fl) := f i; (acc.1 ++ [(i, b)], acc.2 ||| fl)) (es, fl) =
        (es ++ is.map fun i => (i, (f i).1), is.foldl (fun a i => a ||| (f i).2) fl) := by
    intro is
    induction is with
    | nil => simp
    | cons i r ih => intro es fl; simp [List.foldl_cons, ih]
  simpa [mapElems, flagsOver] using this is [] 0

theorem find_map_pair (is : List Nat) (g : Nat → Nat) (i : Nat) :
    ((is.map fun k => (k, g k)).find? fun e => e.1 == i) = if i ∈ is then some (i, g i) else none := by
  induction is with
  | nil => simp
  | cons k r ih =>
    by_cases h : k = i
    · simp [h]
    · have h' : ¬ i = k := fun q => h q.symm
      simp [h, h', ih]

end Sys2Proof.Machine
end

