-- ==== Sys2Proof/Laws/Ops.lean ====
section
/-! SUPPORT. The shared operations, each with what it can do: the end of an instruction, the checks before a pushed
instruction, and what a write of a scalar, vector or mask register leaves. -/

namespace Sys2Proof.Machine

/-! ### The end of an instruction -/

@[simp] theorem finish_ok (s : State) : finish (.ok s) = .next s := rfl
@[simp] theorem finish_trap (s : State) (t : Trap) : finish (.error (.trap s t)) = .next (s.raise t) := rfl
@[simp] theorem finish_wait (s : State) : finish (.error (.wait s)) = .next s.freshReads := rfl

@[simp] theorem except_bind_ok {ε α β : Type} (a : α) (f : α → Except ε β) : (Except.ok a >>= f) = f a := rfl
@[simp] theorem except_bind_error {ε α β : Type} (e : ε) (f : α → Except ε β) :
    ((Except.error e : Except ε α) >>= f) = .error e := rfl
@[simp] theorem except_pure {ε α : Type} (a : α) : (pure a : Except ε α) = .ok a := rfl

@[simp] theorem trapIf_false (s : State) (c : BitVec 8) (v : Word) : trapIf false s c v = .ok () := rfl
@[simp] theorem trapIf_true (s : State) (c : BitVec 8) (v : Word) :
    trapIf true s c v = .error (.trap s { cause := c, tval := v }) := rfl
@[simp] theorem stallIf_false (s : State) : stallIf false s = .ok () := rfl
@[simp] theorem stallIf_true (s : State) : stallIf true s = .error (.wait s) := rfl
@[simp] theorem precise_ok {α : Type} (s : State) (a : α) : precise s (.ok a) = .ok a := rfl
@[simp] theorem precise_wait {α : Type} (s u : State) : precise s (.error (.wait u) : Except Stop α) = .error (.wait u) := rfl
@[simp] theorem precise_trap {α : Type} (s u : State) (t : Trap) :
    precise s (.error (.trap u t) : Except Stop α) = .error (.trap { s with errors := u.errors } t) := rfl
@[simp] theorem withTval_ok {α : Type} (v : Word) (a : α) : withTval v (.ok a : Except Stop α) = .ok a := rfl
@[simp] theorem withTval_wait {α : Type} (v : Word) (u : State) :
    withTval v (.error (.wait u) : Except Stop α) = .error (.wait u) := rfl
@[simp] theorem withTval_trap {α : Type} (v : Word) (u : State) (t : Trap) :
    withTval v (.error (.trap u t) : Except Stop α) = .error (.trap u { t with tval := v }) := rfl

/-! ### Checks before a pushed instruction -/

theorem needVector_ok {s : State} (h : s.cc.ven = true) : needVector s = .ok () := by simp [needVector, h]

theorem needVector_trap {s : State} (h : s.cc.ven = false) :
    needVector s = .error (.trap s { cause := cVector }) := by simp [needVector, h]

theorem needSupervisor_ok {s : State} {i : Instr} (h : s.cc.level ≠ .user) : needSupervisor s i = .ok () := by
  simp [needSupervisor, h]

theorem isCarry_v (n : VReg) (h : n.toNat < 48) : isCarry (vCode n) = decide (40 ≤ n.toNat) := decide_eq_decide.2 (by unfold vCode; omega)

theorem isCarry_m (n : MReg) (h : n.toNat < 12) : isCarry (mCode n) = decide (8 ≤ n.toNat) := decide_eq_decide.2 (by unfold mCode; omega)

/-- The guard of a pushed instruction passes: vectors are enabled and no destination is a carry of an open LOOPI. -/
theorem pushGuard_ok {s : State} {ds : List Nat} (hv : s.cc.ven = true)
    (hc : s.cc.loopAct = true → s.cc.loopI = true → ∀ c ∈ ds, isCarry c = false) : pushGuard s ds = .ok () := by
  rw [pushGuard, needVector_ok hv]
  by_cases ha : s.cc.loopAct = true
  · by_cases hi : s.cc.loopI = true
    · have : ds.find? isCarry = none := by
        rw [List.find?_eq_none]; intro c hm; simp [hc ha hi c hm]
      simp [ha, hi, this]
    · simp [ha, hi]
  · simp [ha]

theorem tagCheck_ok {s : State} {ok : Bool} {a b d : Tag} (h : ok = true) : tagCheck ok s a b d = .ok () := by
  simp [tagCheck, h]

theorem lenCheck_ok {s : State} {ts : List Tag} (h : ∀ t ∈ ts, s.vlN ≤ vlmax t) : lenCheck s ts = .ok () := by
  have : (ts.any fun t => decide (vlmax t < s.cc.vl.toNat)) = false := by
    rw [List.any_eq_false]
    intro t ht
    have := h t ht
    simp only [State.vlN] at this
    simp [this]
  simp [lenCheck, this]

theorem VecReady.guard {s : State} {p : VecSpec} (h : VecReady s p) : pushGuard s [vCode p.vd] = .ok () :=
  pushGuard_ok h.ven fun ha hi c hc => by
    rw [List.mem_singleton] at hc
    rw [hc, isCarry_v _ h.vd]
    simpa using h.carry ha hi

theorem MaskReady.guard {s : State} {p : MaskSpec} (h : MaskReady s p) : pushGuard s [mCode p.md] = .ok () :=
  pushGuard_ok h.ven fun ha hi c hc => by
    rw [List.mem_singleton] at hc
    rw [hc, isCarry_m _ h.md]
    simpa using h.carry ha hi

/-! ### Writing a scalar register -/

/-- A scalar instruction that writes one register retires and changes nothing else. -/
theorem frameX_setX (s : State) (xd : XReg) (v pc : Word) : FrameX s ((s.setX xd v).retireTo pc) xd where
  only := by
    simp only [State.retireTo, State.setX, ControlCore.setX]
    split <;> rfl
  regs n hn := (State.getX_setX s xd n v).trans (if_neg fun q => hn q.1)
  bytes _ := rfl

theorem retires_to (s u : State) (pc : Word) (h : u.cc.retired = s.cc.retired) : Retires s (u.retireTo pc) pc where
  next := rfl
  count := by simp [State.retireTo, h]

/-! ### Writing a vector register -/

/-- Where no stop at an element is being tried, the active mask is that which VMSEL names. -/
theorem State.activeMask_bit {s : State} (hw : s.cc.cut = none) (i : Nat) : s.activeMask.getLsbD i = s.member i := by
  simp [State.activeMask, State.member, hw]

theorem State.activeAt_iff {s : State} (hw : s.cc.cut = none) (i : Nat) (h : i < s.vlN) :
    s.activeAt i = true ↔ i ∈ s.actives := by
  simp [State.activeAt, mem_actives, h, s.activeMask_bit hw]

theorem State.actives_eq {s : State} (hw : s.cc.cut = none) : s.actives = (List.range s.vlN).filter s.activeAt := by
  unfold State.actives State.activeFrom
  simp only [s.activeMask_bit hw]
  rfl

@[simp] theorem or_zero_flags (f : BitVec 14) : f ||| ((0 : Flags).setWidth 14 <<< 8) = f := by simp

/-- A write of a vector register, of flags and of VSTART, as the end of an instruction. -/
theorem frameV_put (s : State) (vd : VReg) (r : VecReg) (f : Flags) (pc : Word) (n : Nat) (g : State → State)
    (hg : (∀ u, g u = u.takeVstart) ∨ ∀ u, g u = u) :
    FrameV s ((g ((State.putV { s with free := n } vd r).orFlags f)).retireTo pc) vd where
  only := by rcases hg with hg | hg <;> rw [hg] <;> rfl
  regs k hk := by
    have : ∀ u : State, u.cc.v = s.cc.v.setIfInBounds vd.toNat r → u.getV k = s.getV k := by
      intro u hu
      have hne : vd.toNat ≠ k.toNat := fun q => hk (BitVec.eq_of_toNat_eq q.symm)
      simp [State.getV, hu, hne]
    apply this
    rcases hg with hg | hg <;> rw [hg] <;> rfl
  dirty := by rcases hg with hg | hg <;> rw [hg] <;> rfl
  bytes _ := by rcases hg with hg | hg <;> rw [hg] <;> rfl

theorem getV_self (s u : State) (vd : VReg) (r : VecReg) (h : vd.toNat < 48)
    (hu : u.cc.v = s.cc.v.setIfInBounds vd.toNat r) : u.getV vd = r := by
  simp [State.getV, hu, h]

theorem find_none_of_not_mem (es : List (Nat × Nat)) (i : Nat) (h : i ∉ es.map (·.1)) :
    (es.find? fun e => e.1 == i) = none := by
  rw [List.find?_eq_none]
  intro e he hi
  exact h (List.mem_map.2 ⟨e, he, by simpa using hi⟩)

theorem find_some_of_mem (es : List (Nat × Nat)) (hn : (es.map (·.1)).Nodup) (i b : Nat) (h : (i, b) ∈ es) :
    (es.find? fun e => e.1 == i) = some (i, b) := by
  induction es with
  | nil => simp at h
  | cons e r ih =>
    simp only [List.map_cons, List.nodup_cons] at hn
    rcases List.mem_cons.1 h with rfl | h'
    · simp
    · have : e.1 ≠ i := by
        intro q
        exact hn.1 (List.mem_map.2 ⟨(i, b), h', q.symm⟩)
      simp [this, ih hn.2 h']

/-- A list of elements carries out what a specification writes. -/
structure Carries (s : State) (p : VecSpec) (es : List (Nat × Nat)) : Prop where
  nodup : (es.map (·.1)).Nodup
  mem : ∀ i, i < s.vlN → p.writes i = true → ∃ b, (i, b) ∈ es ∧ fillSlot p.tag b % 2 ^ tagWidth p.tag = p.slot i % 2 ^ tagWidth p.tag
  only : ∀ i, i < s.vlN → p.writes i = false → i ∉ es.map (·.1)

/-- An instruction that writes the elements of a list into vd has the outcome of its specification. -/
theorem vecOut_put (s : State) (p : VecSpec) (es : List (Nat × Nat)) (vs : Nat) (n : Nat) (g : State → State)
    (hd : p.vd.toNat < 48) (hc : Carries s p es) (hs : p.side = sideAfter (s.getV p.vd).side p.tag vs s.vlN)
    (hg : (p.vstart = 0 ∧ ∀ u, g u = u.takeVstart) ∨ (p.vstart = s.cc.vstart ∧ ∀ u, g u = u)) :
    VecOut s (State.retire (g ((State.putV { s with free := n } p.vd
      (writeElems (s.getV p.vd) p.tag vs s.vlN es)).orFlags p.flags))) p := by
  have hg' : (∀ u, g u = u.takeVstart) ∨ ∀ u, g u = u := hg.imp (·.2) (·.2)
  have hpc : (g ((State.putV { s with free := n } p.vd (writeElems (s.getV p.vd) p.tag vs s.vlN es)).orFlags p.flags)).cc.pc
      = s.cc.pc := by rcases hg' with h | h <;> rw [h] <;> rfl
  unfold State.retire
  rw [hpc]
  have hv : ((g ((State.putV { s with free := n } p.vd (writeElems (s.getV p.vd) p.tag vs s.vlN es)).orFlags p.flags)).retireTo
      (s.cc.pc + 4)).getV p.vd = writeElems (s.getV p.vd) p.tag vs s.vlN es := by
    apply getV_self s _ _ _ hd
    rcases hg' with h | h <;> rw [h] <;> rfl
  refine ⟨retires_to _ _ _ ?_, frameV_put _ _ _ _ _ _ _ hg', ?_, ?_, ?_, ?_, ?_, ?_, ?_⟩
  · rcases hg' with h | h <;> rw [h] <;> rfl
  · rw [hv]; rfl
  · intro i hi hm hw
    obtain ⟨b, hb, he⟩ := hc.mem i hi hw
    rw [hv, slotOf_writeElems _ _ _ _ _ _ hc.nodup hm, if_pos hi, find_some_of_mem es hc.nodup i b hb]
    exact he
  · intro i hi hm hw
    rw [hv, slotOf_writeElems _ _ _ _ _ _ hc.nodup hm, if_pos hi, find_none_of_not_mem es i (hc.only i hi hw)]
  · intro i hi hm
    rw [hv, slotOf_writeElems _ _ _ _ _ _ hc.nodup hm, if_neg (by omega)]
  · rw [hv, hs]; rfl
  · unfold FlagsSet; rcases hg' with h | h <;> rw [h] <;> rfl
  · rcases hg with ⟨h0, h⟩ | ⟨h0, h⟩ <;> rw [h, h0] <;> rfl

theorem carries_actives {s : State} (hw : s.cc.cut = none) (vd : VReg) (tag : Tag) (ok : Bool) (lens : List Tag) (imm : Flags)
    (f : Nat → Nat × Flags) (es : List (Nat × Nat)) (he : es = s.actives.map fun i => (i, (f i).1)) :
    Carries s (s.vecElems vd tag ok lens imm f) es := by
  subst he
  have hm : ((s.actives.map fun i => (i, (f i).1)).map (·.1)) = s.actives := by simp [Function.comp_def]
  refine ⟨?_, ?_, ?_⟩
  · rw [hm]; exact actives_nodup s
  · intro i hi hx
    exact ⟨(f i).1, List.mem_map.2 ⟨i, (s.activeAt_iff hw i hi).1 hx, rfl⟩, rfl⟩
  · intro i hi hx
    rw [hm, ← s.activeAt_iff hw i hi]
    simpa [State.vecElems] using hx

/-- What an element-precise instruction that computes its active elements does. -/
theorem elemwise_out {s : State} (hw : s.cc.cut = none) (vd : VReg) (tag : Tag) (ok : Bool) (lens : List Tag) (f : Nat → Nat × Flags)
    (hd : vd.toNat < 48) : VecOut s (s.elemwise vd tag f) (s.vecElems vd tag ok lens 0 f) := by
  have hf : (s.vecElems vd tag ok lens 0 f).flags = (mapElems s.actives f).2 := by
    rw [mapElems_eq]
    simp [State.vecElems, State.vecFlags, flagsOver, State.actives_eq hw]
  have he : (mapElems s.actives f).1 = s.actives.map fun i => (i, (f i).1) := by rw [mapElems_eq]
  have h := vecOut_put s (s.vecElems vd tag ok lens 0 f) _ s.cc.vstart.toNat s.free State.takeVstart hd
    (carries_actives hw vd tag ok lens 0 f _ he) rfl (.inl ⟨rfl, fun _ => rfl⟩)
  rw [hf] at h
  exact h

theorem flags_or (a : BitVec 14) (f g : Flags) :
    a ||| (f.setWidth 14 <<< 8) ||| (g.setWidth 14 <<< 8) = a ||| ((f ||| g).setWidth 14 <<< 8) := by
  rw [BitVec.or_assoc, BitVec.setWidth_or, BitVec.shiftLeft_or_distrib]

/-- Further flags join those of an outcome. -/
theorem VecOut.orFlags {s t : State} {p : VecSpec} (h : VecOut s t p) (g : Flags) :
    VecOut s (t.orFlags g) { p with flags := p.flags ||| g } where
  retires := ⟨h.retires.next, h.retires.count⟩
  frame :=
    { only := by
        have e := h.frame.only
        have := congrArg (fun u : State => u.orFlags g) e
        exact this
      regs := h.frame.regs, dirty := h.frame.dirty, bytes := h.frame.bytes }
  tag := h.tag
  written := h.written
  kept := h.kept
  tail := h.tail
  side := h.side
  flags := by
    have := h.flags
    unfold FlagsSet at this ⊢
    change t.cc.fcsr ||| (g.setWidth 14 <<< 8) = _
    rw [this, flags_or]
  vstart := h.vstart

/-- As `elemwise_out`, with the flags of an immediate operand. -/
theorem elemwise_imm_out {s : State} (hw : s.cc.cut = none) (vd : VReg) (tag : Tag) (ok : Bool) (lens : List Tag) (b : Third) (k : Tag)
    (f : Nat → Nat × Flags) (hd : vd.toNat < 48) :
    VecOut s (s.joinImm b k (s.elemwise vd tag f)) (s.vecElems vd tag ok lens (thirdFlags s.cc.rm k b) f) := by
  have h := elemwise_out hw vd tag ok lens f hd
  have z : ∀ a : Flags, a ||| (if ((List.range s.vlN).filter s.activeAt).isEmpty then 0 else 0) = a := by simp
  unfold State.joinImm
  by_cases e : s.actives.isEmpty = true
  · rw [if_pos e]
    have : s.vecElems vd tag ok lens (thirdFlags s.cc.rm k b) f = s.vecElems vd tag ok lens 0 f := by
      unfold State.vecElems State.vecFlags
      rw [State.actives_eq hw] at e
      simp [e]
    rw [this]
    exact h
  · rw [if_neg e]
    have h' := h.orFlags (thirdFlags s.cc.rm k b)
    have : s.vecElems vd tag ok lens (thirdFlags s.cc.rm k b) f =
        { s.vecElems vd tag ok lens 0 f with flags := (s.vecElems vd tag ok lens 0 f).flags ||| thirdFlags s.cc.rm k b } := by
      unfold State.vecElems State.vecFlags
      rw [State.actives_eq hw] at e
      simp [e]
    rw [this]
    exact h'

end Sys2Proof.Machine
end

