-- ==== Sys2Proof/Laws/Stored.lean ====
section
/-! SUPPORT. What the writes of WM leave in memory, with compression and without (R283 to R285): which bytes they change,
that the canonical form stands, and that a range in which no block is stored encoded reads and writes as its bytes. -/

namespace Sys2Proof.Machine

@[simp] theorem State.snoopHost_mem (s : State) (pa n : Nat) : (s.snoopHost pa n).mem = s.mem := by
  unfold State.snoopHost; dsimp only; split <;> rfl
@[simp] theorem State.snoopHost_stored (s : State) (pa n : Nat) : (s.snoopHost pa n).stored = s.stored := by
  unfold State.snoopHost; dsimp only; split <;> rfl
@[simp] theorem State.touchMeta_mem (s : State) (k : Nat) : (s.touchMeta k).mem = s.mem := by
  unfold State.touchMeta; dsimp only; split <;> rfl
@[simp] theorem State.putCode_mem (s : State) (k : Nat) (c : BitVec 4) : (s.putCode k c).mem = s.mem := s.touchMeta_mem k
@[simp] theorem State.recode_mem (old : Nat → List Byte) (s : State) (b : Nat) : (State.recode old s b).mem = s.mem :=
  s.putCode_mem (s.mediaBlock b) (blockCode (s.bytes (128 * b) 128))

theorem State.recodes_mem (old : Nat → List Byte) (bs : List Nat) (s : State) : (bs.foldl (State.recode old) s).mem = s.mem := by
  induction bs generalizing s with
  | nil => rfl
  | cons b r ih => rw [List.foldl_cons, ih, State.recode_mem]

/-- A write through a page with CE = 1 changes the bytes it names and no other. -/
@[simp] theorem State.storeIn_mem (s : State) (pa : Nat) (bs : List Byte) :
    (s.storeIn true pa bs).mem = Memory.writeAll s.mem pa bs := by
  unfold State.storeIn
  simp [State.recodes_mem, State.putBytes]

/-- So does a write through no page. -/
@[simp] theorem State.storeBytes_mem (s : State) (pa : Nat) (bs : List Byte) :
    (s.storeBytes pa bs).mem = Memory.writeAll s.mem pa bs := by
  unfold State.storeBytes
  dsimp only
  split <;> simp [State.recodes_mem, State.putBytes]

theorem mem_blocksOf {pa n i : Nat} (h : i < n) : (pa + i) / 128 ∈ blocksOf pa n := by
  unfold blocksOf
  have : (n == 0) = false := by simp; omega
  rw [this]
  simp only [Bool.false_eq_true, if_false, List.mem_map, List.mem_range]
  exact ⟨(pa + i) / 128 - pa / 128, by omega, by omega⟩

theorem State.rawAt_lookup {s : State} {pa n b : Nat} (h : s.rawAt pa n = true) (hb : b ∈ blocksOf pa n) :
    lookupT s.stored b = none := by
  simpa using List.all_eq_true.1 h b hb

theorem State.storeSlots_raw (pa : Nat) (bs : List Byte) (ks : List Nat) (s : State) (h : ∀ b ∈ ks, lookupT s.stored b = none) :
    ks.foldl (State.storeSlot pa bs) s = s := by
  induction ks with
  | nil => rfl
  | cons b r ih =>
    have : State.storeSlot pa bs s b = s := by simp [State.storeSlot, h b (by simp)]
    rw [List.foldl_cons, this, ih fun b hb => h b (by simp [hb])]

/-- A write through a page with CE = 0 of blocks that are stored raw. -/
theorem State.storeIn_raw {s : State} {pa : Nat} {bs : List Byte} (h : s.rawAt pa bs.length = true) :
    s.storeIn false pa bs = (s.snoopHost pa bs.length).putBytes pa bs := by
  unfold State.storeIn
  simp only [Bool.false_eq_true, if_false]
  split
  · rfl
  · refine State.storeSlots_raw pa bs _ _ fun b hb => ?_
    simpa [State.putBytes] using State.rawAt_lookup h hb

/-- A write through a page where it decodes plainly. -/
theorem State.storeIn_plain {s : State} {ce : Bool} {pa : Nat} {bs : List Byte} (h : s.plainIn ce pa bs.length) :
    (s.storeIn ce pa bs).mem = Memory.writeAll s.mem pa bs := by
  cases ce with
  | true => exact s.storeIn_mem pa bs
  | false =>
    have h : s.rawAt pa bs.length = true := by simpa [State.plainIn] using h
    rw [State.storeIn_raw h]
    simp [State.putBytes]

@[simp] theorem State.bytesIn_true (s : State) (pa n : Nat) : s.bytesIn true pa n = s.bytes pa n := rfl

/-- A read through a page where it decodes plainly. -/
theorem State.bytesIn_plain {s : State} {ce : Bool} {pa n : Nat} (h : s.plainIn ce pa n) : s.bytesIn ce pa n = s.bytes pa n := by
  cases ce with
  | true => rfl
  | false =>
    have h : s.rawAt pa n = true := by simpa [State.plainIn] using h
    unfold State.bytesIn
    split
    · rfl
    · refine List.map_congr_left fun i hi => ?_
      rw [State.rawAt_lookup h (mem_blocksOf (List.mem_range.1 hi))]

/-! ### The canonical form -/

theorem State.storeSlot_wf (pa : Nat) (bs : List Byte) (s : State) (b : Nat) (h : Memory.wf s.mem) :
    Memory.wf (State.storeSlot pa bs s b).mem := by
  unfold State.storeSlot
  split
  · exact h
  · exact Memory.writeAll_wf _ _ _ h

theorem State.storeIn_wf (s : State) (ce : Bool) (pa : Nat) (bs : List Byte) (h : Memory.wf s.mem) :
    Memory.wf (s.storeIn ce pa bs).mem := by
  have h1 : Memory.wf ((s.snoopHost pa bs.length).putBytes pa bs).mem := State.putBytes_wf _ _ _ (by simpa using h)
  unfold State.storeIn
  dsimp only
  split
  · rw [State.recodes_mem]; exact h1
  · split
    · exact h1
    · generalize (s.snoopHost pa bs.length).putBytes pa bs = u at h1
      induction blocksOf pa bs.length generalizing u with
      | nil => exact h1
      | cons b r ih => exact ih _ (State.storeSlot_wf pa bs u b h1)

theorem State.storeBytes_wf (s : State) (pa : Nat) (bs : List Byte) (h : Memory.wf s.mem) : Memory.wf (s.storeBytes pa bs).mem := by
  rw [State.storeBytes_mem]; exact Memory.writeAll_wf _ _ _ h

end Sys2Proof.Machine
end

