-- ==== Sys2Proof/Tests/Slice0.lean ====
section
/-! SUPPORT. Tests of the model: words that the encoding tables of the spec give, small steps with results worked out by
hand from the rules, and for every statement of Certificates/Slice0/Obligations.lean states that meet its hypotheses. -/

set_option maxRecDepth 100000
set_option exponentiation.threshold 10000

namespace Sys2Proof.Tests

open Sys2Proof Sys2Proof.Machine

/-! ### Ill-formed terms -/

/-- Registers out of range (R79). -/
theorem test_wf_registers : ([Instr.vadd 48 0 (.vv 0), .vadd 0 48 (.vv 0), .vadd 0 0 (.vv 48), .mand 12 0 0, .mand 0 12 0,
    .mand 0 0 12, .vdot4 0 0 63, .bany 15 0].any Instr.wf) = false := by decide
/-- Rounding codes 5 to 7 (R84, R85), scopes 6 and 7 (R11), tags from 0x14 on (R10). -/
theorem test_wf_codes : ([Instr.fadd 0 5 1 2 3, .vcvt 0 0 1 7 0, .fence 6, .lda 1 2 7, .vtag 0 0 0x14,
    .vcvt 0 0 0x1F 0 0].any Instr.wf) = false := by decide
/-- VBCAST of RAW or an SX tag, VIOTA of a tag that is no integer, forms that the entry does not admit, and a register
named twice in VBEST (R81, R168, R174, R176). -/
theorem test_wf_forms : ([Instr.vbcast 0 0 (.vi 1), .vbcast 0 0x10 (.vi 1), .viota 0 9 0, .viota 0 0 0, .vmulh 0 0 (.vi 1),
    .vslup 0 0 (.vv 1), .vbcast 0 1 (.vv 1), .vbestMax 1 2 3 1, .vbestMin 1 1 2 3].any Instr.wf) = false := by decide
/-- SHCFG with xb = x0 is the word of its drain form (R306). -/
theorem test_wf_shcfg : Instr.wf (.shcfg 1 2 0) = false ∧ Instr.wf (.shcfgDrain 1 2) = true := by decide
/-- The limits themselves are admitted. -/
theorem test_wf_limits : ([Instr.vadd 47 47 (.vv 47), .mand 11 11 11, .fadd 1 4 31 31 31, .fence 5, .vtag 0 0 0x13,
    .vbcast 0 0x13 (.vi 63), .viota 0 8 11, .vbestMax 0 1 2 3].all Instr.wf) = true := by decide

/-! ### Words -/

/-- Each word decodes to its instruction, and is that instruction's word. -/
def decodes (l : List (BitVec 32 × Instr)) : Bool := l.all fun p => decode p.1 == some p.2 && encode p.2 == some p.1

/-- Words of major opcode 0x01, from the fields of R76 to R86 and the entries' tables. -/
theorem test_decode_integer_a : decodes [
    (0x003B2481, .add 9 18 29),
    (0x007B2481, .sub 9 18 29),
    (0x00BB2481, .and 9 18 29),
    (0x00FB2481, .or 9 18 29),
    (0x013B2481, .xor 9 18 29),
    (0x017B2481, .sll 9 18 29),
    (0x01BB2481, .srl 9 18 29),
    (0x01FB2481, .sra 9 18 29),
    (0x023B2481, .slt 9 18 29),
    (0x027B2481, .sltu 9 18 29),
    (0x02BB2481, .min 9 18 29)] = true := by decide

/-- Words of major opcode 0x01, from the fields of R76 to R86 and the entries' tables. -/
theorem test_decode_integer_b : decodes [
    (0x02FB2481, .max 9 18 29),
    (0x033B2481, .minu 9 18 29),
    (0x037B2481, .maxu 9 18 29),
    (0x03BB2481, .mul 9 18 29),
    (0x03FB2481, .mulh 9 18 29),
    (0x043B2481, .mulhu 9 18 29),
    (0x047B2481, .div 9 18 29),
    (0x04BB2481, .divu 9 18 29),
    (0x04FB2481, .rem 9 18 29),
    (0x053B2481, .remu 9 18 29),
    (0x057B2481, .csel 9 18 29)] = true := by decide

/-- Words of major opcode 0x02, from the fields of R76 to R86 and the entries' tables. -/
theorem test_decode_bitcount : decodes [
    (0x00012482, .clz 9 18),
    (0x00412482, .ctz 9 18),
    (0x00812482, .popc 9 18),
    (0x00C12482, .bswap 9 18)] = true := by decide

/-- Words of major opcode 0x08, from the fields of R76 to R86 and the entries' tables. -/
theorem test_decode_shift_imm : decodes [
    (0x00572488, .slli 9 18 43),
    (0x20572488, .srli 9 18 43),
    (0x40572488, .srai 9 18 43),
    (0x60572488, .sext 9 18 43),
    (0x80572488, .zext 9 18 43)] = true := by decide

/-- Words of major opcode 0x0B, from the fields of R76 to R86 and the entries' tables. -/
theorem test_decode_float : decodes [
    (0x8C3B248B, .fadd 1 3 9 18 29),
    (0x8C7B248B, .fsub 1 3 9 18 29),
    (0x8CBB248B, .fmul 1 3 9 18 29),
    (0x8CFB248B, .fdiv 1 3 9 18 29),
    (0x8D01248B, .fsqrt 1 3 9 18),
    (0x817B248B, .fmin 1 9 18 29),
    (0x81BB248B, .fmax 1 9 18 29),
    (0x8DFB248B, .fmac 1 3 9 18 29),
    (0x823B248B, .feq 1 9 18 29),
    (0x827B248B, .flt 1 9 18 29),
    (0x82BB248B, .fle 1 9 18 29),
    (0x8EC1248B, .fcvtfi 1 3 9 18),
    (0x8F01248B, .fcvtif 1 3 9 18),
    (0x8F41248B, .fcvtsd 1 3 9 18)] = true := by decide

/-- Words of major opcode 0x10, from the fields of R76 to R86 and the entries' tables. -/
theorem test_decode_branch : decodes [
    (0xB4B92410, .beq 9 18 0xb4b),
    (0xB4B92490, .bne 9 18 0xb4b),
    (0xB4B92510, .blt 9 18 0xb4b),
    (0xB4B92590, .bge 9 18 0xb4b),
    (0xB4B92610, .bltu 9 18 0xb4b),
    (0xB4B92690, .bgeu 9 18 0xb4b)] = true := by decide

/-- Words of major opcode 0x11, from the fields of R76 to R86 and the entries' tables. -/
theorem test_decode_mask_branch : decodes [
    (0xA5A5AC11, .bany 11 0x14b4b),
    (0xA5A5AC91, .ball 11 0x14b4b),
    (0xA5A5AD11, .bnone 11 0x14b4b)] = true := by decide

/-- Words of major opcode 0x18, from the fields of R76 to R86 and the entries' tables. -/
theorem test_decode_load : decodes [
    (0x16972498, .ldb 9 18 0xb4b),
    (0x36972498, .ldh 9 18 0xb4b),
    (0x56972498, .ldw 9 18 0xb4b),
    (0x76972498, .ldd 9 18 0xb4b),
    (0x96972498, .ldbz 9 18 0xb4b),
    (0xB6972498, .ldhz 9 18 0xb4b),
    (0xD6972498, .ldwz 9 18 0xb4b),
    (0xE00B2498, .lda 9 18 5)] = true := by decide

/-- Words of major opcode 0x19, from the fields of R76 to R86 and the entries' tables. -/
theorem test_decode_store : decodes [
    (0x16972499, .stb 9 18 0xb4b),
    (0x36972499, .sth 9 18 0xb4b),
    (0x56972499, .stw 9 18 0xb4b),
    (0x76972499, .std 9 18 0xb4b),
    (0x800B2499, .strel 9 18 5)] = true := by decide

/-- Words of major opcode 0x1C, from the fields of R76 to R86 and the entries' tables. -/
theorem test_decode_csr : decodes [
    (0x1696049C, .csrr 9 0xb4b),
    (0x3697249C, .csrw 9 18 0xb4b),
    (0x5697249C, .csrs 9 18 0xb4b),
    (0x7697249C, .csrc 9 18 0xb4b)] = true := by decide

/-- Words of major opcode 0x1D, from the fields of R76 to R86 and the entries' tables. -/
theorem test_decode_system : decodes [
    (0x0000001D, .syscall),
    (0x0040001D, .tret),
    (0x0080001D, .brk),
    (0x00C0901D, .idle 9),
    (0x0100001D, .yield),
    (0x0140001D, .exit),
    (0x0181249D, .spawn 9 18),
    (0x01C0001D, .uiret),
    (0x0224901D, .tlbinv 9 18),
    (0x0240901D, .lgset 9)] = true := by decide

/-- Words of major opcode 0x20, from the fields of R76 to R86 and the entries' tables. -/
theorem test_decode_vector_a : decodes [
    (0x01AB5220, .vadd 41 22 (.vv 13)),
    (0x09AB5220, .vsub 41 22 (.vv 13)),
    (0x11AB5220, .vmul 41 22 (.vv 13)),
    (0x19AB5220, .vmulh 41 22 (.vv 13)),
    (0x21AB5220, .vdiv 41 22 (.vv 13)),
    (0x29AB5220, .vmin 41 22 (.vv 13)),
    (0x31AB5220, .vmax 41 22 (.vv 13)),
    (0x39AB5220, .vand 41 22 (.vv 13)),
    (0x41AB5220, .vor 41 22 (.vv 13)),
    (0x49AB5220, .vxor 41 22 (.vv 13))] = true := by decide

/-- Words of major opcode 0x20, from the fields of R76 to R86 and the entries' tables. -/
theorem test_decode_vector_b : decodes [
    (0x51AB5220, .vsll 41 22 (.vv 13)),
    (0x59AB5220, .vsrl 41 22 (.vv 13)),
    (0x61AB5220, .vsra 41 22 (.vv 13)),
    (0x69AB5220, .vadds 41 22 (.vv 13)),
    (0x71AB5220, .vsubs 41 22 (.vv 13)),
    (0x79AB5220, .vabsd 41 22 (.vv 13)),
    (0x81AB5220, .vmac 41 22 (.vv 13)),
    (0x89AB5220, .vnmac 41 22 (.vv 13)),
    (0x90EB5220, .vdot4 41 22 7)] = true := by decide

/-- Words of major opcode 0x21, from the fields of R76 to R86 and the entries' tables. -/
theorem test_decode_vector_one : decodes [
    (0x000B5221, .vneg 41 22),
    (0x080B5221, .vabs 41 22),
    (0x100B5221, .vsqrt 41 22),
    (0x180B5221, .vrcp 41 22),
    (0x200B5221, .vrsqrt 41 22),
    (0x280B5221, .vexp2 41 22),
    (0x300B5221, .vlog2 41 22),
    (0x380B5221, .vclass 41 22),
    (0x400B5221, .vmov 41 22),
    (0x4A69D2A1, .vbcast 41 19 (.vx 19)),
    (0x524B5321, .vtag 41 22 18),
    (0x580B5221, .vsxnorm 41 22)] = true := by decide

/-- Words of major opcode 0x22, from the fields of R76 to R86 and the entries' tables. -/
theorem test_decode_vector_compare : decodes [
    (0x01B49622, .vcmpeq 11 41 (.vv 13)),
    (0x09B49622, .vcmpne 11 41 (.vv 13)),
    (0x11B49622, .vcmplt 11 41 (.vv 13)),
    (0x19B49622, .vcmple 11 41 (.vv 13)),
    (0x21B49622, .vcmpgt 11 41 (.vv 13)),
    (0x29B49622, .vcmpge 11 41 (.vv 13)),
    (0x31B49622, .vcmpun 11 41 (.vv 13))] = true := by decide

/-- Words of major opcode 0x24, from the fields of R76 to R86 and the entries' tables. -/
theorem test_decode_vector_move : decodes [
    (0x026B52A4, .vslup 41 22 (.vx 19)),
    (0x0A6B52A4, .vsldn 41 22 (.vx 19)),
    (0x112B52A4, .vsl1up 41 22 9),
    (0x192B52A4, .vsl1dn 41 22 9),
    (0x20EB5224, .vperm 41 22 7),
    (0x296B5224, .vcomp 41 22 11),
    (0x31635224, .viota 41 6 11),
    (0x39AB5224, .vsel 41 22 (.vv 13)),
    (0x427492A4, .vext 9 41 (.vx 19)),
    (0x4A64D2A4, .vins 41 9 (.vx 19))] = true := by decide

/-- Words of major opcode 0x25, from the fields of R76 to R86 and the entries' tables. -/
theorem test_decode_reduce : decodes [
    (0x00EB5225, .vredsumS 41 22 7),
    (0x08EB5225, .vredsumF 41 22 7),
    (0x10EB5225, .vredmax 41 22 7),
    (0x18EB5225, .vredmin 41 22 7),
    (0x20EB5225, .vredand 41 22 7),
    (0x28EB5225, .vredor 41 22 7),
    (0x30EB5225, .vredxor 41 22 7),
    (0x38149225, .vargmax 9 41),
    (0x40149225, .vargmin 9 41)] = true := by decide

/-- Words of major opcode 0x27, from the fields of R76 to R86 and the entries' tables. -/
theorem test_decode_mask : decodes [
    (0x00429627, .mand 11 5 2),
    (0x08429627, .mor 11 5 2),
    (0x10429627, .mxor 11 5 2),
    (0x18429627, .mandn 11 5 2),
    (0x20029627, .mnot 11 5),
    (0x28029627, .mmov 11 5),
    (0x30059227, .mpopc 9 11),
    (0x38059227, .mfirst 9 11),
    (0x40001627, .msetall 11),
    (0x48001627, .mclr 11)] = true := by decide

/-- Words of major opcode 0x40, from the fields of R76 to R86 and the entries' tables. -/
theorem test_decode_loop : decodes [
    (0x16969040, .loop 9 0xb4b),
    (0x36969040, .loopi 9 0xb4b),
    (0x400724C0, .setvl 9 18 3)] = true := by decide

/-- Words of major opcode 0x48, from the fields of R76 to R86 and the entries' tables. -/
theorem test_decode_tile_a : decodes [
    (0x000026C8, .tcfg 5 9),
    (0x020002C8, .trel 5),
    (0x040002C8, .tzero 5),
    (0x0616A6C8, .topa 5 41 22),
    (0x0816A6C8, .tops 5 41 22),
    (0x0A16A6C8, .tmv 5 41 22),
    (0x0C16A6C8, .tmvt 5 41 22),
    (0x0E8026C8, .tmmaS 5 9 2),
    (0x108026C8, .tmmaF 5 9 2)] = true := by decide

/-- Words of major opcode 0x48, from the fields of R76 to R86 and the entries' tables. -/
theorem test_decode_tile_b : decodes [
    (0x120002C8, .trecomp 5),
    (0x140002C8, .tdense 5),
    (0x160026C8, .trank 5 9),
    (0x1809A6C8, .trdrow 5 41 9),
    (0x1A09A6C8, .twrrow 5 41 9),
    (0x1C0026C8, .tsave 5 9),
    (0x1E0026C8, .tload 5 9),
    (0x2000A6C8, .tscale 5 41),
    (0x228002C8, .tadd 5 2)] = true := by decide

/-- Words of major opcode 0x50, from the fields of R76 to R86 and the entries' tables. -/
theorem test_decode_vector_memory : decodes [
    (0x050134D0, .vld 41 9 5),
    (0x0D0134D0, .vlds 41 9 5),
    (0x155934D0, .vldx 41 9 22 5),
    (0x1D0134D0, .vldff 41 9 5),
    (0x250134D0, .vst 41 9 5),
    (0x2D0134D0, .vsts 41 9 5),
    (0x355934D0, .vstx 41 9 22 5),
    (0x3D5934D0, .vamoaddf 41 9 22 5)] = true := by decide

/-- Words of major opcode 0x51, from the fields of R76 to R86 and the entries' tables. -/
theorem test_decode_save : decodes [
    (0x050134D1, .vsave 41 9 5),
    (0x0D0134D1, .vrestore 41 9 5),
    (0x150125D1, .msave 11 9 5),
    (0x1D0125D1, .mrestore 11 9 5)] = true := by decide

/-- Words of major opcode 0x58, from the fields of R76 to R86 and the entries' tables. -/
theorem test_decode_atomic : decodes [
    (0xBC3B24D8, .amoadd 9 18 29 1 1 1 5),
    (0xBC7B24D8, .amoaddf 9 18 29 1 1 1 5),
    (0xBCBB24D8, .amoand 9 18 29 1 1 1 5),
    (0xBCFB24D8, .amoor 9 18 29 1 1 1 5),
    (0xBD3B24D8, .amoxor 9 18 29 1 1 1 5),
    (0xBD7B24D8, .amomax 9 18 29 1 1 1 5),
    (0xBDBB24D8, .amomin 9 18 29 1 1 1 5),
    (0xBDFB24D8, .amomaxu 9 18 29 1 1 1 5),
    (0xBE3B24D8, .amominu 9 18 29 1 1 1 5),
    (0xBE7B24D8, .amoswap 9 18 29 1 1 1 5),
    (0xBEBB24D8, .amocas 9 18 29 1 1 1 5)] = true := by decide

/-- Words of major opcode 0x59, from the fields of R76 to R86 and the entries' tables. -/
theorem test_decode_fence : decodes [
    (0x0A000059, .fence 5),
    (0x0A400059, .vfence 5),
    (0x008124D9, .vfenceBar 9 18),
    (0x00E49059, .barwait 9 18),
    (0x013B24D9, .barcfg 9 18 29)] = true := by decide

/-- Words of major opcode 0x5C, from the fields of R76 to R86 and the entries' tables. -/
theorem test_decode_cm_store : decodes [
    (0x000134DC, .cmst 41 9),
    (0x085934DC, .cmstx 41 9 22),
    (0x100244DC, .cmzero 9 18)] = true := by decide

/-- Words of major opcode 0x5D, from the fields of R76 to R86 and the entries' tables. -/
theorem test_decode_query : decodes [
    (0x0ED324DD, .qdot 9 18 41 29),
    (0x1E8124DD, .qfsum 9 18 29),
    (0x2ED324DD, .qwsum 9 18 41 29),
    (0x3E8124DD, .qmax 9 18 29),
    (0x4E8124DD, .qmin 9 18 29),
    (0x5ED324DD, .qwin 9 18 41 29),
    (0x6ED324DD, .qbscore 9 18 41 29),
    (0x7E8124DD, .qcount 9 18 29),
    (0x8ED324DD, .qcust 9 18 41 29)] = true := by decide

/-- Words of major opcode 0x5E, from the fields of R76 to R86 and the entries' tables. -/
theorem test_decode_cm_region : decodes [
    (0x003B24DE, .cmmov 9 18 29),
    (0x007B24DE, .cmseal 9 18 29),
    (0x00BB24DE, .cmopen 9 18 29)] = true := by decide

/-- Words of major opcode 0x64, from the fields of R76 to R86 and the entries' tables. -/
theorem test_decode_sheaf : decodes [
    (0x00EB5264, .shpush 41 22 7),
    (0x083B24E4, .shwait 9 18 29),
    (0x100124E4, .shdone 9 18),
    (0x183B24E4, .shcfg 9 18 29),
    (0x180124E4, .shcfgDrain 9 18),
    (0x200124E4, .shstat 9 18)] = true := by decide

/-- Words of the major opcodes of one or two instructions (R77). -/
theorem test_decode_others_a : decodes [
    (0x96972483, .addi 9 18 0x4b4b),
    (0x96972484, .andi 9 18 0x4b4b),
    (0x96972485, .ori 9 18 0x4b4b),
    (0x96972486, .xori 9 18 0x4b4b),
    (0x96972487, .slti 9 18 0x4b4b),
    (0xB4B4B489, .lui 9 0xb4b4b),
    (0xB4B4B48A, .addpc 9 0xb4b4b),
    (0xB4B4B492, .jal 9 0xb4b4b),
    (0x96972493, .jalr 9 18 0x4b4b),
    (0xDA4B5323, .vcvt 41 22 18 3 3)] = true := by decide

/-- Words of the major opcodes of one or two instructions (R77). -/
theorem test_decode_others_b : decodes [
    (0xD8EB5223, .vcvtsc 41 22 7 3 3),
    (0x483AD4A6, .vbestMax 41 22 7 36),
    (0xC83AD4A6, .vbestMin 41 22 7 36),
    (0xB4B4B4C1, .next 9 0xb4b4b),
    (0x003B24D2, .ring 9 18 29),
    (0x012B52E5, .vsend 41 22 9),
    (0x000124E6, .job 9 18),
    (0x004124E6, .jobchk 9 18),
    (0xDEF7BDE8, .wait 27 27 27 27 27)] = true := by decide

/-- Forms VX and VI of the third operand: bits 8:7 hold 1 and 2 (R81). -/
theorem test_decode_forms : decodes [
    (0x002692A0, .vadd 9 13 (.vx 1)),
    (0x07E69320, .vadd 9 13 (.vi 0x3F))] = true := by decide
/-- Words that are no instruction (R79, R80, R81, R85): a reserved field that is not zero, a vector register 48, a form 3, a
rounding code 5, an opcode that no entry has. -/
theorem test_decode_illegal : ([0x083B2481, 0x00032482, 0x00006020, 0x042692A0, 0x002693A0, 0x943B248B, 0x00003011,
    0x0000007F, 0xFFFFFFFF].all
    fun w => decode w == none) = true := by decide

/-! ### States -/

/-- What an outcome or a check gives meets a condition. -/
def okWith {ε α : Type} (e : Except ε α) (p : α → Bool) : Bool :=
  match e with
  | .ok a => p a
  | .error _ => false
def nextWith (o : Out) (p : State → Bool) : Bool :=
  match o with
  | .next t => p t
  | _ => false

theorem okWith_iff {ε α : Type} (e : Except ε α) (p : α → Bool) : okWith e p = true ↔ ∃ a, e = .ok a ∧ p a = true := by
  cases e <;> simp [okWith]
theorem nextWith_iff (o : Out) (p : State → Bool) : nextWith o p = true ↔ ∃ t, o = .next t ∧ p t = true := by
  cases o <;> simp [nextWith]

/-- A leaf of one page (R208): valid, R, W, U, A and D, of a page type. -/
def leaf (va : Word) (ty pa : Nat) : TlbEntry :=
  { asid := 0, va := va, level := 3, entry := BitVec.ofNat 64 (pa + 64 * ty + 0x181F), at_ := 0 }

/-- Pages: two of WM, the second of which is not idempotent, one of CM, scratchpad, device space and a peer's WM. -/
def pages : List TlbEntry :=
  [leaf 0x10000 0 0x10000, leaf 0x20000 0 0x20000, leaf 0x30000 1 cmBase, leaf 0x40000 2 spadAlias,
    { leaf 0x50000 3 devBase with entry := (leaf 0x50000 3 devBase).entry ||| 0x200 }]

/-- A control core that runs at supervisor level with vectors enabled and VL = 4. -/
def core : ControlCore := { ControlCore.reset 0 with
  run := .running, level := .supervisor, tstatus := 0x21, vl := 4, tvec := 0x10000, pc := 0x10100, spadLen := 65536
  tlb := pages }

/-- The state with that control core, after boot. -/
def st : State := { State.reset with cc := core, trust := { State.reset.trust with bootState := 2 } }

/-- Tags of R10. -/
def tI8 : Tag := 0x01
def tUI8 : Tag := 0x02
def tSXE4M3 : Tag := 0x10

/-- Changes to the control core; a scalar register, a vector register of 32-bit slots, a mask register. -/
def on (f : ControlCore → ControlCore) (s : State) : State := { s with cc := f s.cc }
def x (n : XReg) (v : Word) (s : State) : State := s.setX n v
def v (n : VReg) (t : Tag) (l : List Nat) (s : State) : State :=
  let r : VecReg := ⟨BitVec.ofNat 8192 (l.foldr (fun e a => e + 2 ^ tagWidth t * a) 0), 0, t⟩
  { s with cc := { s.cc with v := s.cc.v.setIfInBounds n.toNat r } }
def m (n : MReg) (b : Nat) (s : State) : State := 
  { s with cc := { s.cc with m := s.cc.m.setIfInBounds n.toNat (BitVec.ofNat 1024 b) } }
/-- Bytes of memory, lowest first. -/
def mem (a : Nat) (l : List Nat) (s : State) : State := s.putBytes a (l.map (BitVec.ofNat 8))

def usr : State := st |> on fun c => { c with level := .user }
def noVec : State := st |> on fun c => { c with tstatus := 0x01 }
/-- Within a LOOPI. -/
def inLoopi : State := st |> on fun c => { c with tstatus := 0xE1 }
def inLoop : State := st |> on fun c => { c with tstatus := 0x61 }
/-- Every count of OUTCNT at its limit. -/
def fullSt : State := st |> on fun c => { c with out := ⟨4095, 4095, 4095, 4095, 4095⟩ }

/-- A running region of one context, its RCB at 0x70000, with four queues and four barrier slots. -/
def reg : Region := { va := 0x70000, parent := none, service := false, state := .running, count := 1, maxCtx := 1, queues := 4
                      slots := 4, ctxs := [.resident 0] }
def rst : State := { st with regions := [(0x70000, reg)], cc := { st.cc with region := some 0x70000 } }
/-- A table of four levels at 0x100000 to 0x130000, with a leaf for page 0x70000 of which A and D are clear. -/
def tables (s : State) : State := (((((s |> on fun c => { c with ptbase := 0x100000 }).poke 0x100000 8 0x110001).poke
  0x110000 8 0x120001).poke 0x120000 8 0x130001).poke 0x130038 8 0x7000F)
/-- `VecReady` and `MaskReady`, evaluated. -/
def ready (s : State) (p : Option VecSpec) : Bool :=
  match p with
  | none => false
  | some p => s.cc.ven && s.cc.cut.isNone && !(s.cc.loopAct && s.cc.loopI && decide (40 ≤ p.vd.toNat)) && decide (p.vd.toNat < 48) &&
      p.tagsOk && p.lens.all fun t => decide (s.vlN ≤ vlmax t)
def readyM (s : State) (p : Option MaskSpec) : Bool :=
  match p with
  | none => false
  | some p => s.cc.ven && s.cc.cut.isNone && !(s.cc.loopAct && s.cc.loopI && decide (8 ≤ p.md.toNat)) && decide (p.md.toNat < 12) &&
      p.tagsOk && p.lens.all fun t => decide (s.vlN ≤ vlmax t)

theorem ready_ready {s : State} {o : Option VecSpec} (h : ready s o = true) : ∃ p, o = some p ∧ VecReady s p := by
  cases o with
  | none => simp [ready] at h
  | some p =>
    simp only [ready, Bool.and_eq_true, Bool.not_eq_true', Bool.and_eq_false_iff, List.all_eq_true, decide_eq_true_eq,
      decide_eq_false_iff_not] at h
    obtain ⟨⟨⟨⟨⟨h1, h0⟩, h2⟩, h3⟩, h4⟩, h5⟩ := h
    exact ⟨p, rfl, h1, Option.isNone_iff_eq_none.mp h0, fun a b => by simp_all, h3, h4, h5⟩
theorem readyM_ready {s : State} {o : Option MaskSpec} (h : readyM s o = true) : ∃ p, o = some p ∧ MaskReady s p := by
  cases o with
  | none => simp [readyM] at h
  | some p =>
    simp only [readyM, Bool.and_eq_true, Bool.not_eq_true', Bool.and_eq_false_iff, List.all_eq_true, decide_eq_true_eq,
      decide_eq_false_iff_not] at h
    obtain ⟨⟨⟨⟨⟨h1, h0⟩, h2⟩, h3⟩, h4⟩, h5⟩ := h
    exact ⟨p, rfl, h1, Option.isNone_iff_eq_none.mp h0, fun a b => by simp_all, h3, h4, h5⟩

/-- A region of 64 rows of 32 elements of I8 on stack 0, under handle 5, with 2 rows appended and its key loaded. -/
def cmr : CmRegion := { base := cmBase, rows := 64, cols := 32, mask := 1, tag := tI8, scale := 0, granule := 0, stag := tI8
                        key := 0, asid := 0, append := 2 }
def cst : State := { st with cmTable := [(5, cmr)], trust := { st.trust with keys := [(0, 1)], loaded := true } }

/-- The bytes of fields, each a width and a value. -/
def fields (l : List (Nat × Nat)) : List Nat := l.flatMap fun p => (leBytes p.1 p.2).map BitVec.toNat

/-! ### Hypotheses of the statements: encoding, steps, scalar instructions -/

theorem wit_DecodeOfEncode : (Instr.vadd 47 47 (.vi 0x3F)).wf = true ∧ encode (.vadd 47 47 (.vi 0x3F)) = some 0x07F7DF20 := by
  decide
theorem wit_EncodeOfDecode : decode 0x07F7DF20 = some (.vadd 47 47 (.vi 0x3F)) := by decide

/-- ADD x3, x1, x2 at pc. -/
def atAdd : State := st |> mem 0x10100 [0x81, 0x11, 0x04, 0x00] |> x 1 5 |> x 2 7
theorem due_none (b : BitVec 10) : atAdd.due b = none := rfl
theorem wit_StepRunsDecodedInstruction : atAdd.agenda = [] ∧ atAdd.due (BitVec.ofNat 10 (atAdd.draw.1 0)) = none ∧
    atAdd.queryWaits = none ∧ atAdd.background = [] ∧ atAdd.cc.run = .running ∧ atAdd.cc.fencing = false ∧
    atAdd.cc.macroOp = none ∧ okWith (atAdd.fetch atAdd.cc.pc) (fun (u, w) => !u.streamHeld && decode w == some (.add 3 1 2)) = true :=
  ⟨rfl, due_none _, by decide, by decide, by decide, by decide, by decide, by decide⟩
/-- VADD at pc, while a train of the context waits for a slot. -/
def atPushed : State := { st with trains := [{ cc := 0, node := 3, tag := 0, group := 0, wait := some ([], 0, 0) }] } |>
  mem 0x10100 [0x20, 0, 0, 0]
theorem due_none_pushed (b : BitVec 10) : atPushed.due b = none := rfl
theorem wit_StepRunsDecodedInstruction_held : atPushed.agenda = [] ∧
    atPushed.due (BitVec.ofNat 10 (atPushed.draw.1 0)) = none ∧ atPushed.queryWaits = none ∧ atPushed.background = [] ∧
    okWith (atPushed.fetch atPushed.cc.pc) (fun (u, w) => u.streamHeld && pushedWord w) = true :=
  ⟨rfl, due_none_pushed _, by decide, by decide, by decide⟩
theorem test_step : nextWith (step atAdd) (fun t => t.cc.pc == 0x10104 && t.cc.x[3] == 12) = true := by decide

theorem wit_Fetching_misaligned : (0x10102 : Word).toNat % 4 ≠ 0 := by decide
theorem wit_Fetching_word : (0x10100 : Word).toNat % 4 = 0 ∧ okWith (atAdd.translate ⟨.fetch, false, 4⟩ 0x10100)
    (fun (u, y) => y.ty == 0 && !y.ce && u.rawAt y.pa 4 && !u.poisoned y.pa 4) = true := by decide
/-- The word of zeros, which is no instruction. -/
theorem due_none_st (b : BitVec 10) : st.due b = none := rfl
theorem wit_Fetching_illegal : st.agenda = [] ∧ st.due (BitVec.ofNat 10 (st.draw.1 0)) = none ∧ st.queryWaits = none ∧
    st.background = [] ∧ st.cc.run = .running ∧ st.cc.fencing = false ∧ st.cc.macroOp = none ∧
    okWith (st.fetch st.cc.pc) (fun (u, w) => !u.streamHeld && decode w == none) = true ∧
    (let s := st |> on fun c => { c with pc := 0x30000 }
    s.agenda = [] ∧ s.queryWaits = none ∧ s.background = [] ∧ s.cc.run = .running ∧ s.cc.fencing = false ∧ s.cc.macroOp = none ∧
      (match s.fetch s.cc.pc with | .error (.trap _ k) => k.cause == 0x06 | _ => false) = true) :=
  ⟨rfl, due_none_st _, by decide, by decide, by decide, by decide, by decide, by decide, by decide⟩

theorem wit_StepKeepsMemoryCanonical : Memory.wf atAdd.mem ∧ nextWith (step atAdd) (fun _ => true) = true := by decide

theorem wit_ScalarIntegerResults : scalarResult (.csel 0 1 2) st = some (0, 0) ∧
    scalarResult (.sra 31 1 2) (st |> x 1 (BitVec.ofNat 64 (2 ^ 63)) |> x 2 63) = some (31, BitVec.allOnes 64) := by decide
theorem wit_DivisionBorderlines : (3 : XReg) ≠ 0 ∧ st.getX 1 = 0 ∧
    let s := st |> x 1 (BitVec.ofNat 64 (2 ^ 63)) |> x 2 (BitVec.allOnes 64)
    (s.getX 1).toInt = -2 ^ 63 ∧ (s.getX 2).toInt = -1 := by decide
/-- The count of zeros of 0 is 64 and of all ones 0. -/
theorem wit_BitCounts : (3 : XReg) ≠ 0 ∧ nextWith (exec (.clz 3 1) st) (fun t => t.getX 3 == 64) = true ∧
    nextWith (exec (.ctz 3 1) st) (fun t => t.getX 3 == 64) = true ∧
    nextWith (exec (.clz 3 1) (st |> x 1 (BitVec.allOnes 64))) (fun t => t.getX 3 == 0) = true := by decide
theorem wit_ConditionalBranches : branchTaken (.bltu 1 2 0x800) (st |> x 2 1) = some (true, -2048) ∧
    branchTaken (.bge 1 2 0x7FF) (st |> x 2 1) = some (false, 2047) ∧ (encode (.bgeu 1 2 0x800)).isSome = true := by decide
/-- VEN clear; set, with the bit at VL − 1 set, with no bit set, and with all of them set. -/
theorem wit_MaskBranches : noVec.cc.ven = false ∧ st.cc.ven = true ∧
    (∃ k, k < st.vlN ∧ (st |> m 1 8).maskBit 1 k = true) ∧ (∀ k, k < st.vlN → (st |> m 1 16).maskBit 1 k = false) ∧
    (∀ k, k < st.vlN → (st |> m 1 15).maskBit 1 k = true) ∧ (∃ k, k < st.vlN ∧ (st |> m 1 7).maskBit 1 k = false) :=
  ⟨by decide, by decide, ⟨3, by decide⟩, by decide, by decide, ⟨3, by decide⟩⟩
theorem wit_Jumps : (st.getX 1 + .ofInt 64 ((0x4000 : BitVec 15).toInt)).toNat % 4 = 0 ∧
    (st.getX 1 + .ofInt 64 ((0x7FFF : BitVec 15).toInt)).toNat % 4 ≠ 0 := by decide
theorem wit_ScalarFloat : (floatExact (.fdiv 1 4 3 1 2) st).isSome = true ∧ (floatPlain (.fmin 0 3 1 2) st).isSome = true ∧
    (floatExact (.fcvtsd 0 4 3 1) st).isSome = true ∧ (floatPlain (.fcvtfi 1 1 0 1) st).isSome = true := by decide
/-- 3 · 2^0 to a multiple of 2 is a tie, which goes to 4. -/
theorem wit_RoundingModes : 2 * (3 % 2 ^ 1) = 2 ^ 1 ∧ roundMag 0 false 3 0 1 = (2, true) := by decide

def walkable : State := tables (st |> on fun c => { c with tlb := [] })
theorem wit_Translation_hit : ∃ e, (st.cc.tlb.find? fun (t : TlbEntry) => t.matches st.cc.asid 0x1FFFF) = some e ∧
    okWith (st.checkLeaf ⟨.store, false, 1⟩ 0x1FFFF e.entry e.level) (fun _ => true) = true ∧ pteA e.entry = true ∧
    pteD e.entry = true := ⟨_, rfl, by decide⟩
/-- A page that the TLB serves; a peer's page of device class behind a write to one that is not acknowledged. -/
def peerPage : State := { st with nodeid := 3, route := [(4, 1)], ports := [(0, { state := 2, peer := 4 })] } |> on fun c => { c with
  tlb := [{ leaf 0x50000 5 (peerBase + 4 * peerSpan) with entry := (leaf 0x50000 5 (peerBase + 4 * peerSpan)).entry ||| 0x200 }] }
def behind : State := peerPage |> on fun c => { c with stores := [{ peers := [(1, 7)], ic := true }] }
theorem wit_Translation_served : (st.served ⟨.store, false, 1⟩ 0x1FFFF).isSome = true ∧
    ((peerPage.served ⟨.load, false, 4⟩ 0x50000).any fun x => x.ic) = true ∧
    ∃ e, (behind.cc.tlb.find? fun (t : TlbEntry) => t.matches behind.cc.asid 0x50000) = some e ∧
      okWith (behind.checkLeaf ⟨.load, false, 4⟩ 0x50000 e.entry e.level) (fun x => x.ic) = true ∧ pteA e.entry = true ∧
      behind.icPending = true := ⟨by decide, by decide, _, rfl, by decide⟩
/-- No TLB serves the page, and the instruction holds no leaf of it: no walk of it has been asked for; one has ended in a
trap. -/
theorem wit_Translation_walk : (walkable.cc.tlb.find? fun (t : TlbEntry) => t.matches walkable.cc.asid 0x7FFFF) = none ∧
    ((walkable.coreAt (coreOf walkable.cc.ctxid)).l2.find? fun (t : TlbEntry) => t.matches walkable.cc.asid 0x7FFFF) = none ∧
    (walkable.cc.held.find? fun (t : TlbEntry) => t.matches walkable.cc.asid 0x7FFFF) = none ∧
    walkable.cc.miss = none ∧ (let u := walkable |> on fun c => { c with miss := some ⟨0, 7, false, some 5⟩ }
    u.cc.miss = some ⟨u.cc.asid, (0x7FFFF : Word).extractLsb' 16 48, false, some 5⟩) := by decide
/-- The instruction holds the leaf of its page. -/
def holds : State := walkable |> on fun c => { c with held := [⟨0, 0x70000, 3, 0x7000F, 0x130038⟩] }
theorem wit_Translation_held : (holds.cc.tlb.find? fun (t : TlbEntry) => t.matches holds.cc.asid 0x7FFFF) = none ∧
    ((holds.coreAt (coreOf holds.cc.ctxid)).l2.find? fun (t : TlbEntry) => t.matches holds.cc.asid 0x7FFFF) = none ∧
    ∃ t, (holds.cc.held.find? fun (t : TlbEntry) => t.matches holds.cc.asid 0x7FFFF) = some t ∧
      okWith (holds.checkLeaf ⟨.store, false, 1⟩ 0x7FFFF t.entry t.level) (fun x => !x.ic) = true ∧
      holds.peek t.at_ 8 = t.entry.toNat := ⟨by decide, by decide, _, rfl, by decide⟩
theorem test_walk_sets_bits : okWith (holds.translate ⟨.store, false, 1⟩ 0x7FFFF) (fun (u, y) =>
    y.pa == 0x7FFFF && u.peek 0x130038 8 == 0x7180F) = true := by decide
/-- A leaf without U, R and W at user level; a fetch, a store and a CM store that a page refuses. -/
def bare : State := usr |> on fun c => { c with tlb := [{ leaf 0x10000 0 0x10000 with entry := 0x11801 }] }
theorem wit_Translation_refused : (∃ e, (bare.cc.tlb.find? fun (t : TlbEntry) => t.matches bare.cc.asid 0x10000) = some e ∧
      bare.cc.level = .user ∧ pteU e.entry = false ∧ pteRd e.entry = false ∧ pteW e.entry = false ∧ pteType e.entry = 0) ∧
    (∃ e, (st.cc.tlb.find? fun (t : TlbEntry) => t.matches st.cc.asid 0x30000) = some e ∧ pteType e.entry = 1) ∧
    (∃ e, (st.cc.tlb.find? fun (t : TlbEntry) => t.matches st.cc.asid 0x40000) = some e ∧ 2 ≤ pteType e.entry) ∧
    ∃ e, (peerPage.cc.tlb.find? fun (t : TlbEntry) => t.matches peerPage.cc.asid 0x50000) = some e ∧ pteIc e.entry = true :=
  ⟨⟨_, rfl, by decide⟩, ⟨_, rfl, by decide⟩, ⟨_, rfl, by decide⟩, ⟨_, rfl, by decide⟩⟩

theorem wit_ScalarLoads : loadForm (.ldb 3 1 0x7FF) = some (3, 1, 0x7FF, 1, true) ∧
    let s := st |> x 1 0x1FFFE |> mem 0x1FFFE [1, 2, 3, 0x84]
    okWith (s.pieces .load false (s.getX 1 + .ofInt 64 (0 : BitVec 12).toInt) 4) (fun (s1, ps) => ps.length == 2 &&
      ps.all (fun p => p.x.ty != 3) && okWith (s1.loadPieces 0x1FFFE ps) fun (_, bs) => bs.length == 4) = true ∧
    okWith (st.pieces .load false 0x50000 8) (fun (_, ps) => ps.all fun p => p.x.ty == 3) = true := by decide
theorem test_load_crosses_page : let s := st |> x 1 0x1FFFE |> mem 0x1FFFE [1, 2, 3, 0x84]
    nextWith (exec (.ldw 3 1 0) s) (fun t => t.getX 3 == 0xFFFFFFFF84030201) = true := by decide
theorem wit_ScalarLoads_plain : let s := st |> x 1 0x1FFF8
    s.getX 1 + .ofInt 64 (0 : BitVec 12).toInt = 0x1FFF8 ∧ (0x1FFF8 : Word).toNat % 65536 + 8 ≤ 65536 ∧
    ∃ e, (s.cc.tlb.find? fun (t : TlbEntry) => t.matches s.cc.asid 0x1FFF8) = some e ∧ pteA e.entry = true ∧
      okWith (s.checkLeaf ⟨.load, false, 8⟩ 0x1FFF8 e.entry e.level) (fun y => y.ty == 0 && !y.ce && s.rawAt y.pa 8 && !s.poisoned y.pa 8) = true :=
  ⟨by decide, by decide, _, rfl, by decide⟩

theorem wit_ScalarStores : storeForm (.std 3 1 0) = some (3, 1, 0, 8) ∧ fullSt.cc.full .s = true ∧ st.cc.full .s = false ∧
    okWith (st.pieces .store false 0x1FFFE 8) (fun (_, ps) => ps.length == 2 && ps.all fun p => p.x.ty != 3) = true ∧
    okWith (st.pieces .store false 0x50008 8) (fun (_, ps) => ps.all fun p => p.x.ty == 3) = true := by decide
theorem wit_ScalarStores_plain : let s := st |> x 1 0x1FFF8
    s.cc.full .s = false ∧ s.plainAt .store (s.getX 1 + .ofInt 64 (0 : BitVec 12).toInt) 8 = some 0x1FFF8 := by decide
theorem test_store_bytes : let s := st |> x 1 0x1FFF8 |> x 3 0x1122334455667788
    nextWith (exec (.std 3 1 0) s) (fun t => t.bytes 0x1FFF8 8 == [0x88, 0x77, 0x66, 0x55, 0x44, 0x33, 0x22, 0x11] &&
      t.cc.out.s == 1) = true := by decide

theorem wit_AcquireAndRelease : (st |> x 1 0x10001).getX 1 = 0x10001 ∧ (0x10001 : Word).toNat % 8 ≠ 0 ∧
    (let s := st |> x 1 0x10008
    (s.getX 1).toNat % 8 = 0 ∧ okWith (s.pieces .load false (s.getX 1) 8) (fun (s1, ps) => ps.length == 1 &&
      ps.all (fun p => p.x.ty != 3) && okWith (s1.loadPieces (s.getX 1) ps) fun _ => true) = true ∧
    s.plainAt .load (s.getX 1) 8 = some 0x10008 ∧ s.plainAt .store (s.getX 1) 8 = some 0x10008 ∧ s.cc.full .s = false ∧
    s.cc.stores = [] ∧ s.cc.loads = 0) ∧ (2 : BitVec 3).toNat < 3 ∧ 3 ≤ (3 : BitVec 3).toNat ∧
    let s := st |> x 1 0x10008 |> on fun c => { c with stores := [{}] }
    s.plainAt .store (s.getX 1) 8 = some 0x10008 ∧ s.cc.full .s = false ∧ s.cc.stores ≠ [] := by decide

/-! ### Hypotheses of the statements: registers, traps, contexts, loops -/

theorem wit_ControlRegisters_read : csrForm (.csrr 3 0x10E) st = some (3, 0x10E, fun _ => none) ∧ (st.csr 0x10E).isSome = true ∧
    st.cc.level ≠ .user ∧ st.cc.ven = true := ⟨rfl, by decide, by decide, by decide⟩
/-- CSRS of CAPS with a register that is not x0: ignored. -/
theorem wit_ControlRegisters_ignored : (st.csr 0x013).isSome = true ∧ ¬ 0x100 ≤ (0x013 : BitVec 12).toNat ∧
    csrVector 0x013 = false := by decide
/-- A write of VL, at its highest value; and of UISTATUS. -/
theorem wit_ControlRegisters_write : let s := st |> x 1 1024
    (s.csr 0).isSome = true ∧ csrVector 0 = true ∧ s.cc.ven = true ∧ csrIgnored 0 = false ∧ csrHardware 0 = false ∧
    s.cc.level ≠ .user ∧ csrValueOk 0 (s.getX 1) = true ∧ csrValueOk 0x00D 3 = true := by decide
/-- An unassigned number; a supervisor register at user level; a vector register with VEN clear; a register of hardware,
VL at user level, and a value that is not allowed. -/
theorem wit_ControlRegisters_refused : st.csr 0x00E = none ∧ (usr.csr 0x100).isSome = true ∧ usr.cc.level = .user ∧
    csrVector 0x007 = true ∧ noVec.cc.ven = false ∧ (noVec.csr 0x007).isSome = true ∧ csrHardware 0x012 = true ∧
    (usr.csr 0).isSome = true ∧ usr.cc.ven = true ∧ csrValueOk 0 1025 = false ∧ csrValueOk 3 12 = false := by decide

theorem wit_TakingATrap : st.cc.depth ≠ 255 ∧ st.cc.entering = false ∧ (0x10 : BitVec 8) ≠ 0x0D ∧ (0x10 : BitVec 8) ≠ 0x0E ∧
    st.cc.macroOp = none ∧ (st |> on fun c => { c with loads := 1 }).cc.loads ≠ 0 := by decide
/-- A trap at depth 255, and a handler that is to be fetched from a page of CM. -/
def deep : State := st |> on fun c => { c with depth := 255 }
def lostHandler : State := st |> on fun c => { c with tvec := 0x30000, pc := 0x30000, depth := 1, entering := true, tcause := 0x10 }
theorem coresApart_one {s : State} (h : s.others = []) : s.CoresApart := by rw [State.CoresApart, h]; simp
theorem wit_TakingATrap_double : st.cc.region = none ∧ deep.CoresApart ∧ deep.cc.depth = 255 ∧ deep.cc.region = none ∧
    lostHandler.CoresApart ∧ lostHandler.cc.entering = true ∧ lostHandler.cc.region = none :=
  ⟨by decide, coresApart_one (by decide), by decide, by decide, coresApart_one (by decide), by decide⟩
theorem test_trap_of_first_fetch : nextWith (step lostHandler) (fun t => t.cc.run == .absent && t.cc.fault2 == 0x30006) = true := by
  decide
/-- The same in a region with a live child, and with a fault domain of one record, in which there is room. -/
def deepReg : State := { rst with
  regions := [(0x70000, reg), (0x71000, { reg with parent := some 0x70000, ctxs := [.fresh], state := .ready })]
  domains := [(0, { base := 0x10800, size := 1 })] } |> on fun c => { c with depth := 255 }
theorem wit_TakingATrap_region : deepReg.CoresApart ∧ deepReg.cc.depth = 255 ∧ deepReg.cc.region = some 0x70000 ∧
    deepReg.regionAt 0x70000 = some reg ∧ reg.terminating = false ∧ reg.ctxs[deepReg.cc.index]? = some (.resident deepReg.cc.ctxid) ∧
    (0x71000 : Nat) ≠ 0x70000 ∧ ((deepReg.regionAt 0x71000).map fun q => q.state.ended) = some false :=
  ⟨coresApart_one (by decide), by decide⟩
theorem test_syscall : nextWith (exec .syscall usr) (fun t => t.cc.tepc == 0x10104 && t.cc.tcause == 0x10 &&
    t.cc.level == .supervisor && t.cc.pc == 0x10000 && t.cc.depth == 1 && t.cc.ppriv == 0) = true := by decide
theorem test_trap_at_255 : nextWith (exec .syscall deep) (fun t => t.cc.run == .absent && t.cc.fault2 == 0x10010) = true := by
  decide

theorem wit_SyscallBreakAndReturn : st.cc.armed = false ∧ (st |> on fun c => { c with armed := true }).cc.armed = true ∧
    st.cc.level ≠ .user ∧ st.cc.ppriv.toNat ≤ st.cc.level.code.toNat ∧
    let s := st |> on fun c => { c with tstatus := 0x22 }
    s.cc.level ≠ .user ∧ s.cc.level.code.toNat < s.cc.ppriv.toNat := by decide
theorem test_tret : let s := st |> on fun c => { c with tstatus := 0x20, tepc := 0x20000, depth := 3 }
    nextWith (exec .tret s) (fun t => t.cc.level == .user && t.cc.pc == 0x20000 && t.cc.depth == 2) = true := by decide

theorem wit_PrivilegedAtUserLevel : needsSupervisor (.cmopen 31 31 31) = true ∧ (encode (.cmopen 31 31 31)).isSome = true ∧
    needsSupervisor .tret = true ∧ encode .tret = some 0x0040001D ∧ usr.cc.level = .user := by decide

theorem wit_WaitsAndControl_wait : let s := st |> on fun c => { c with out := { c.out with l := 30, s := 1 } }
    let limits (l : BitVec 5) : List (BitVec 5 × BitVec 12) := [(l, s.cc.out.l), (1, s.cc.out.s), (0, s.cc.out.c), (0, s.cc.out.t), (0, s.cc.out.q)]
    let met (l : BitVec 5) : Bool := (limits l).all fun p => p.1 == 31 || decide (p.2.toNat ≤ p.1.toNat)
    met 30 = true ∧ met 29 = false ∧ met 31 = true ∧ s.cc.request = none := by decide
theorem wit_WaitsAndControl_barwait : let s := rst |> x 1 3
    okWith (slotIndex s (s.getX 1)) (fun p => (s.slotAt p).phase == (s.getX 2).setWidth 16 &&
      (s.slotAt p).phase != ((s |> x 2 1).getX 2).setWidth 16) = true ∧ s.cc.request = none ∧
    okWith (slotIndex rst ((rst |> x 1 4).getX 1)) (fun _ => true) = false := by decide
theorem wit_WaitsAndControl_idle : (st |> on fun c => { c with request := some 5 }).cc.request = some 5 ∧ st.cc.depth = 0 ∧
    st.cc.request = none ∧ (st |> on fun c => { c with run := .waitIdle (some 0) }).cc.run = .waitIdle (some 0) ∧
    st.accessesPending = false ∧ st.jobs = [] ∧ (st |> on fun c => { c with loads := 1 }).accessesPending = true := by
  decide
theorem wit_WaitsAndControl_uiret : (st |> on fun c => { c with uistatus := 2 }).cc.inui = true ∧ st.cc.inui = false ∧
    st.cc.level ≠ .user ∧ 4 ≤ ((st |> x 1 4).getX 1).toNat ∧ ((st |> x 1 3).getX 1).toNat < 4 := by decide
theorem test_lgset : nextWith (exec (.lgset 1) (st |> x 1 3)) (fun t => (t.coreAt 0).pend && (t.coreAt 0).nextShape == 3) = true ∧
    nextWith (exec (.lgset 1) st) (fun t => !(t.coreAt 0).pend) = true := by decide
theorem test_tlbinv : nextWith (exec (.tlbinv 1 0) (st |> x 1 0x1ABCD)) (fun t => t.cc.tlb.length == 4 &&
    t.cc.tlb.all fun e => e.va != 0x10000) = true := by decide

/-- In a handler of a hard pre-emption, with the save area at 0x70000 of the tables, whose block for context 0 is at 0x160. -/
def yst : State := tables { rst with regions := [(0x70000, { reg with ptbase := 0x100000, saveArea := 0x70000 })] } |>
  on fun c => { c with depth := 1, tcause := 0x0E }
theorem wit_ContextInstructions_yield : yst.cc.level ≠ .user ∧ yst.cc.depth ≠ 0 ∧ yst.cc.tcause = 0x0E ∧
    yst.cc.out.idle = true ∧ yst.cc.region = some 0x70000 ∧ rst.cc.depth = 0 ∧
    ((yst.regionAt 0x70000).map fun r => decide (r.state = .running ∧ yst.cc.index < r.ctxs.length ∧
      (r.ctxs.set yst.cc.index (.saved yst.cc.claim yst.cc.parts)).all (fun c => c.isSaved || c == .exited) = true)) = some true ∧
    okWith (yst.schedLeaf 0x100000 0 true (0x70000 + .ofNat 64 (0 * 0xE000) + 0x160)) (fun (w, p) => p == 0x70160 &&
      !pteCe w.entry && yst.rawAt p 0x60 && w.at_ == 0x130038 && yst.peek w.at_ 8 == w.entry.toNat) = true ∧
    okWith (rst.schedLeaf reg.ptbase reg.asid true (reg.saveArea + .ofNat 64 (0 * 0xE000) + 0x160)) (fun _ => true) = false ∧
    (∃ p, p = 0x70160 ∧ (p + 0x60 ≤ 0x70000 + 0x48 ∨ 0x70000 + 0x4C ≤ p)) ∧
    (let s := st |> on fun c => { c with depth := 1, tcause := 0x0D }
    s.cc.out.idle = true ∧ s.cc.region = none) ∧ (yst |> on fun c => { c with out := { c.out with l := 1 } }).cc.out.idle = false :=
  ⟨by decide, by decide, by decide, by decide, by decide, by decide, by decide, by decide, by decide, ⟨_, rfl, by decide⟩,
    by decide, by decide⟩
theorem wit_ContextInstructions_exit : (st |> on fun c => { c with out := { c.out with c := 1 } }).cc.out.idle = false ∧
    st.cc.out.idle = true ∧ st.cc.region = none ∧ st.jobs = [] ∧ st.queries = [] ∧
    rst.cc.out.idle = true ∧ rst.jobs = [] ∧ rst.queries = [] ∧ rst.cc.region = some 0x70000 ∧ rst.regionAt 0x70000 = some reg ∧
    reg.state = .running ∧ reg.terminating = false ∧ (∀ c ∈ reg.ctxs.set rst.cc.index .exited, c = .exited) ∧
    rst.childrenEnded 0x70000 = true := by decide
/-- The last resident context of a region whose other one has been saved. -/
theorem wit_ContextInstructions_exit_saved : let r := { reg with ctxs := [.resident 0, .saved none []] }
    (∃ c ∈ r.ctxs.set 0 .exited, c.isSaved = true) ∧ ∀ c ∈ r.ctxs.set 0 .exited, c.isSaved = true ∨ c = .exited := by decide
/-- RCBs of a child: not aligned; not NEW; with no parent of the caller's; with the caller's region as parent. -/
def spawnSt (parent word : Nat) : State := ((tables (rst |> x 1 0x10200)).poke 0x10200 8 parent).poke 0x10248 4 word
theorem wit_ContextInstructions_spawn : ((st |> x 1 0x10201).getX 1).toNat % 256 ≠ 0 ∧ (0x10200 : Word).toNat % 256 = 0 ∧
    (let s := spawnSt 0x70000 1
    s.plainAt .store (s.getX 1) 256 = some 0x10200 ∧ s.cc.stores = [] ∧ s.cc.loads = 0 ∧ s.peek 0x10248 4 ≠ 0) ∧
    (let s := spawnSt 0x91000 0
    s.plainAt .store (s.getX 1) 256 = some 0x10200 ∧ s.peek 0x10248 4 = 0 ∧ s.regionAt 0x10200 = none ∧
      okWith (s.schedLeaf s.cc.ptbase s.cc.asid false (.ofNat 64 (s.peek 0x10200 8))) (fun _ => true) = false) ∧
    (let s := spawnSt 0x70000 0
    s.plainAt .store (s.getX 1) 256 = some 0x10200 ∧ s.peek 0x10248 4 = 0 ∧ s.regionAt 0x10200 = none ∧
      okWith (s.schedLeaf s.cc.ptbase s.cc.asid false (.ofNat 64 (s.peek 0x10200 8))) (fun p => p.2 == 0x70000) = true ∧
      s.cc.region = some 0x70000 ∧ s.regionAt 0x70000 = some reg ∧ reg.state.ended = false) := by decide
theorem test_spawn : nextWith (exec (.spawn 3 1) (spawnSt 0x70000 0)) (fun t => t.getX 3 == 0 &&
    t.peek 0x70008 8 == 0x10200 && t.agenda.getLast? == some (.rcbCheck 0x10200)) = true := by decide

theorem wit_VectorLoops_loop : st.cc.ven = true ∧ inLoop.cc.loopAct = true ∧ inLoop.cc.ven = true ∧ st.cc.loopAct = false ∧
    st.getX 1 = 0 ∧ (st |> x 1 1).getX 1 ≠ 0 := by decide
/-- SETVL with a request pending; in a loop whose strip count is full; and otherwise. -/
theorem wit_VectorLoops_setvl : (st |> on fun c => { c with request := some 9 }).cc.request.isSome = true ∧ st.cc.depth = 0 ∧
    st.cc.inui = false ∧ st.cc.request = none ∧ (let s := inLoop |> on fun c => { c with issued := BitVec.allOnes 32 }
    s.cc.loopAct = true ∧ s.cc.issued = BitVec.allOnes 32 ∧ s.cc.request = none) ∧ inLoop.cc.issued ≠ BitVec.allOnes 32 := by
  decide
theorem test_setvl : let s := inLoop |> x 1 1000
    nextWith (exec (.setvl 3 1 0) s) (fun t => t.vlN == 128 && t.getX 3 == 128 && t.cc.issued == 1) = true ∧
    nextWith (exec (.setvl 3 1 3) s) (fun t => t.vlN == 1000) = true := by decide
theorem wit_VectorLoops_next : st.cc.loopAct = false ∧ inLoop.cc.loopAct = true ∧
    ((inLoop |> x 3 5).getX 3).toNat - inLoop.vlN ≠ 0 ∧ ((inLoop |> x 3 4).getX 3).toNat - inLoop.vlN = 0 := by decide
theorem test_next : nextWith (exec (.next 3 0xFFFFF) (inLoop |> x 3 5)) (fun t => t.cc.pc == 0x100FC && t.getX 3 == 1 &&
      t.cc.loopAct) = true ∧
    nextWith (exec (.next 3 0xFFFFF) (inLoop |> x 3 4)) (fun t => t.cc.pc == 0x10104 && !t.cc.loopAct) = true := by decide

/-! ### Hypotheses of the statements: vectors -/

/-- VL = 256 with FP32 registers 46 and 47 of 1.0 and 2.0 in their first elements. -/
def wide : State := st |> v 46 tFP32 [0x3F800000, 0x40000000] |> v 47 tFP32 [0x40000000, 0x40400000] |>
  on fun c => { c with vl := 256 }
theorem wit_VectorArithmetic : ready wide (vecArith (.vadd 47 46 (.vv 47)) wide) = true ∧
    ready wide (vecArith (.vmac 46 46 (.vi 0x3F)) wide) = true ∧
    ready st (vecArith (.vmulh 0 1 (.vx 31)) (st |> v 1 tI8 [])) = true ∧
    ready st (vecArith (.vdot4 2 1 1) (st |> v 1 tI8 [] |> v 2 tI32 [])) = true := by decide
theorem test_vadd : nextWith (exec (.vadd 0 46 (.vv 47)) (wide |> on fun c => { c with vl := 2, vstart := 1 })) (fun t =>
    slotOf (t.getV 0).data tFP32 1 == 0x40A00000 && slotOf (t.getV 0).data tFP32 0 == 0 && (t.getV 0).tag == tFP32 &&
    t.cc.vstart == 0) = true := by decide
theorem test_vdot4 : nextWith (exec (.vdot4 2 1 1) (st |> v 1 tI8 [1, 2, 3, 0xFF, 4] |> v 2 tI32 [10, 20])) (fun t =>
    slotOf (t.getV 2).data tI32 0 == 25 && slotOf (t.getV 2).data tI32 1 == 36) = true := by decide
theorem test_vadds : nextWith (exec (.vadds 2 1 (.vi 1)) (st |> v 1 tI8 [0x7F, 0x80])) (fun t =>
    slotOf (t.getV 2).data tI8 0 == 0x7F && slotOf (t.getV 2).data tI8 1 == 0x81) = true := by decide

theorem wit_VectorOneSource : ready wide (vecUnary (.vrsqrt 0 47) wide) = true ∧
    ready st (vecUnary (.vbcast 0 tI8 (.vi 0x20)) st) = true ∧ ready wide (vecMoves (.vsl1dn 0 46 3) wide) = true ∧
    ready st (vecMoves (.viota 0 tUI8 11) st) = true ∧ ready wide (vecCopies (.vmov 47 46) wide) = true ∧
    ready st (vecCopies (.vtag 0 1 tRAW) st) = true := by decide
theorem test_vslup : nextWith (exec (.vslup 2 1 (.vi 1)) (st |> v 1 tI32 [1, 2, 3, 4, 5] |> v 2 tI32 [9, 9])) (fun t =>
    (List.range 5).map (slotOf (t.getV 2).data tI32) == [9, 1, 2, 3, 0]) = true := by decide
theorem test_vcomp : nextWith (exec (.vcomp 2 1 0) (st |> v 1 tI32 [1, 2, 3, 4] |> m 0 0b1010)) (fun t =>
    (List.range 4).map (slotOf (t.getV 2).data tI32) == [2, 4, 0, 0]) = true := by decide

theorem wit_VectorConversions : ready wide (vecConvert (.vcvt 0 46 tFP16 4 0) wide) = true ∧
    ((List.range 256).all fun k => (convertSource (.vcvt 0 46 tFP16 4 0) wide k).isSome) = true := by decide
/-- FP32 to a block-scaled tag, and such a register to be normalised, with an element of block 1 only active. -/
def sxs : State := st |> v 1 tFP32 [0x3F800000] |> v 2 tSXE4M3 [0x38] |> v 3 tE8M0 [0x80] |> m 0 0x20000 |> on fun c =>
  { c with mfmt := .ofNat 13 (32 * tSXE4M3.toNat), vl := 18, vmsel := 0 }
/-- `SxReady`, evaluated. -/
def readySx (s : State) (p : SxSpec) : Bool :=
  s.cc.ven && s.cc.cut.isNone && !s.cc.loopAct && decide (p.vd.toNat < 48) && p.tagsOk &&
    (p.lens.all fun t => decide (s.vlN ≤ vlmax t)) && (List.range s.vlN).all fun k => (p.src k).isSome
theorem readySx_ready {s : State} {p : SxSpec} (h : readySx s p = true) : SxReady s p := by
  simp only [readySx, Bool.and_eq_true, Bool.not_eq_true', List.all_eq_true, decide_eq_true_eq, List.mem_range] at h
  obtain ⟨⟨⟨⟨⟨⟨h1, h0⟩, h2⟩, h3⟩, h4⟩, h5⟩, h6⟩ := h
  exact ⟨h1, Option.isNone_iff_eq_none.mp h0, by simp [h2], h3, h4, h5, fun _ _ _ _ k _ => h6 _ k⟩
theorem wit_VectorConversions_sx : (∃ p, sxResult (.vsxnorm 0 2) sxs = some p ∧ SxReady sxs p) ∧
    (∃ p, sxResult (.vcvt 47 1 tSXE4M3 4 0) sxs = some p ∧ SxReady sxs p) ∧
    (∃ p, sxResult (.vcvtsc 47 1 3 4 0) sxs = some p ∧ SxReady sxs p) ∧ sxs.blockActive 1 = true ∧ sxs.blockActive 0 = false :=
  ⟨⟨_, rfl, readySx_ready (by decide)⟩, ⟨_, rfl, readySx_ready (by decide)⟩, ⟨_, rfl, readySx_ready (by decide)⟩, by decide, by decide⟩
theorem wit_VectorConversions_blocks : [Val.nan false].any Val.isNan = true ∧
    ∀ y ∈ [Val.fin true 0 3], ∃ n e, y = .fin n 0 e := ⟨by decide, fun y h => ⟨true, 3, by simpa using h⟩⟩
theorem test_vcvt_narrow : nextWith (exec (.vcvt 0 46 tFP16 4 0) (wide |> on fun c => { c with vl := 2 })) (fun t =>
    slotOf (t.getV 0).data tFP16 0 == 0x3C00 && slotOf (t.getV 0).data tFP16 1 == 0x4000) = true := by decide

theorem wit_VectorReductions : ready wide (vecReduce (.vredsumS 0 46 47) wide) = true ∧
    ready st (vecReduce (.vredxor 0 1 1) (st |> v 1 tI8 [])) = true := by decide
theorem test_vredmax : nextWith (exec (.vredmax 2 1 3) (st |> v 1 tI8 [1, 0xFF, 5, 2, 9] |> v 3 tI8 [3])) (fun t =>
    slotOf (t.getV 2).data tI8 0 == 5) = true := by decide

/-- No active element; NaNs only, of which element 2 is the first; and numbers. -/
theorem wit_VectorToScalar : let s := st |> v 1 tFP32 [0x3F800000, 0x40000000, 0x7FC00000, 0x7FC00000] |> on fun c =>
        { c with vmsel := 0 }
    s.cc.ven = true ∧ s.cc.cut = none ∧ isFlt (s.getV 1).tag = true ∧ s.vlN ≤ vlmax (s.getV 1).tag ∧
    ((List.range 4).all fun k => !s.member k) = true ∧
    (let u := s |> m 0 0b1100
    u.member 2 = true ∧ u.member 0 = false ∧ u.member 1 = false ∧
      ((List.range 4).all fun k => !u.member k || (valOf (u.getV 1).data tFP32 k).isNan) = true) ∧
    let u := s |> m 0 0b0011
    u.member 1 = true ∧ (valOf (u.getV 1).data tFP32 1).isNan = false := by decide
theorem wit_VectorToScalar_masks : Lowest st.vlN ((st |> m 1 0b11000).maskBit 1) 3 :=
  ⟨by decide, by decide, by decide⟩
theorem test_vargmax : nextWith (exec (.vargmax 3 1) (st |> v 1 tI8 [1, 0xFF, 5, 5])) (fun t => t.getX 3 == 2) = true := by decide
theorem test_vext : nextWith (exec (.vext 3 1 (.vi 1)) (st |> v 1 tI8 [1, 0xFF])) (fun t => t.getX 3 == BitVec.allOnes 64) = true ∧
    nextWith (exec (.mfirst 3 1) (st |> m 1 0b11000)) (fun t => t.getX 3 == 3) = true := by decide

def pairs : State := st |> v 0 tFP32 [0x3F800000] |> v 1 tI32 [7] |> v 2 tFP32 [0x40000000] |> v 47 tI32 [8]
theorem wit_BestPairs : pairs.cc.ven = true ∧ pairs.cc.cut = none ∧ pairs.cc.loopAct = false ∧ distinct4 0 1 2 47 = true ∧
    isFlt (pairs.getV 0).tag = true ∧ (pairs.getV 2).tag = (pairs.getV 0).tag ∧ isInt (pairs.getV 1).tag = true ∧
    (pairs.getV 47).tag = (pairs.getV 1).tag ∧ (valOf (pairs.getV 0).data tFP32 0).isSig = false ∧
    (valOf ((pairs |> v 0 tFP32 [0x7F800001]).getV 0).data tFP32 0).isSig = true ∧ pairs.vlN ≤ vlmax (pairs.getV 0).tag ∧ pairs.vlN ≤ vlmax (pairs.getV 1).tag := by
  decide
theorem test_vbest : nextWith (exec (.vbestMax 0 1 2 47) pairs) (fun t => slotOf (t.getV 0).data tFP32 0 == 0x40000000 &&
    slotOf (t.getV 1).data tI32 0 == 8 && slotOf (t.getV 2).data tFP32 0 == 0x3F800000 &&
    slotOf (t.getV 47).data tI32 0 == 7) = true := by decide

theorem wit_MaskResults : readyM wide (maskCompare (.vcmpun 11 46 (.vv 47)) wide) = true ∧
    readyM st (maskLogic (.mandn 11 11 11) st) = true := by decide
theorem test_vcmplt : nextWith (exec (.vcmplt 0 46 (.vv 47)) (wide |> on fun c => { c with vl := 2 })) (fun t =>
    t.getM 0 == 3) = true ∧
    nextWith (exec (.mnot 0 1) (st |> m 1 0b0110)) (fun t => t.getM 0 == 0b1001) = true := by decide

/-- An instruction of each major opcode from 0x20 to 0x27; destinations at the edges of what LOOPI carries. -/
theorem wit_VectorChecks : noVec.cc.ven = false ∧ ([.vadd 0 1 (.vv 2), .vneg 0 1, .vcvt 0 1 3 0 0, .vcmpeq 0 1 (.vv 2),
      .vperm 0 1 2, .vredmax 0 1 2, .vargmax 3 1, .vbestMax 0 1 2 3, .mand 0 1 2].all fun i => (checkSpec i noVec).isSome) = true ∧
    inLoopi.cc.ven = true ∧ inLoopi.cc.loopAct = true ∧ inLoopi.cc.loopI = true ∧
    ((checkSpec (.vadd 40 1 (.vv 2)) inLoopi).map fun c => c.dsts.find? loopCarried) = some (some 40) ∧
    ((checkSpec (.mand 11 1 2) inLoopi).map fun c => c.dsts.find? loopCarried) = some (some 0x4B) ∧
    ((checkSpec (.vadd 39 1 (.vv 2)) (inLoopi |> v 2 tI8 [])).map fun c => !c.tagsOk && c.dsts.all fun d => !loopCarried d) =
      some true ∧
    ((checkSpec (.vadd 39 1 (.vv 1)) (inLoopi |> v 1 tI64 [] |> on fun c => { c with vl := 129 })).map fun c =>
      c.tagsOk && c.lens.any fun t => decide (vlmax t < 129)) = some true := by decide
theorem test_mismatch : nextWith (exec (.vcmpeq 0 1 (.vv 2)) (st |> v 1 tI8 [] |> v 2 tUI8 [])) (fun t =>
    t.cc.tcause == 2 && t.cc.tval == 0x0201) = true := by decide

/-- MFMT for FP32 in memory and register; four words at 0x1FFF0. -/
def plain : State := st |> x 1 0x1FFF0 |> mem 0x1FFF0 [1, 0, 0, 0, 2, 0, 0, 0, 3, 0, 0, 0, 4, 0, 0, 0] |>
  on fun c => { c with mfmt := .ofNat 13 (33 * tFP32.toNat), vstr := 0xFFFFFFFFFFFFFFFC }
theorem wit_VectorLoads : vecLoadForm (.vldff 47 1 5) = some (.first, 47, 1) ∧ plain.cc.ven = true ∧ plain.cc.cut = none ∧
    plain.cc.loopAct = false ∧ fullSt.cc.full .l = true ∧ (let s := plain |> on fun c => { c with vfence := true, loads := 1 }
    s.cc.vfence = true ∧ s.cc.loads ≠ 0) ∧ plain.cc.full .l = false ∧ plain.cc.vfence = false ∧
    ((memLens plain .unit).all fun t => decide (plain.vlN ≤ vlmax t)) = true ∧
    okWith (memTable plain .unit 47 (plain.getX 1)) (fun _ => true) = true ∧
    okWith (memTable plain .first 47 (plain.getX 1)) (fun _ => true) = true ∧
    (match plain.readItems plain.cc.mb none (plain.loadItems .unit (plain.getX 1)) [] with
      | (u, got, .done) => (u.commitLoad 47 got).2 == none
      | _ => false) = true := by decide
/-- A fault-only-first load is cut at element 2, the walk for whose page has ended in a trap. -/
theorem wit_VectorLoads_cut : let s := st |> x 1 0x2FFF8 |> on fun c =>
        { c with mfmt := .ofNat 13 (33 * tFP32.toNat), tlb := [leaf 0x20000 0 0x20000], miss := some ⟨0, 3, false, some 5⟩ }
    okWith (memTable s .first 47 (s.getX 1)) (fun _ => true) = true ∧
    (match s.readItems s.cc.mb (s.actives.head?.map fun f => if isSx s.cc.mtag && !s.cc.rawm then f / 16 * 16 else f)
        (s.loadItems .first (s.getX 1)) [] with
      | (u, got, .cut k) => k == 2 && ((u.modCc fun c => { c with vl := .ofNat 11 k }).commitLoad 47 got).2 == none
      | _ => false) = true ∧
    nextWith (exec (.vldff 47 1 0) s) (fun t => t.cc.vl == 2) = true := by decide
theorem wit_VectorLoads_plain : plain.plainFormat ∧ tagWidth plain.cc.rtag = 32 ∧
    ((List.range 4).all fun k => (plain.plainAt .load (plain.elemAddr .unit (plain.getX 1) k) 4).isSome &&
      (plain.quietAt .load (plain.elemAddr .first (plain.getX 1) k) 4).isSome &&
      (plain.elemAddr .unit (plain.getX 1) k).toNat % 4 == 0) = true :=
  ⟨⟨by decide, by decide, by decide, by decide, by decide⟩, by decide, by decide⟩
theorem test_vlds : nextWith (exec (.vlds 0 1 0) (plain |> x 1 0x1FFFC)) (fun t =>
    (List.range 4).map (slotOf (t.getV 0).data tFP32) == [4, 3, 2, 1] && t.cc.out.l == 1) = true := by decide

theorem wit_VectorStores : let s := plain |> v 0 tFP32 [5, 6, 7, 8]
    vecStoreForm (.vstx 0 1 47 5) = some (.index 47, 0, 1) ∧ s.cc.ven = true ∧ s.cc.cut = none ∧ fullSt.cc.full .s = true ∧
    s.cc.full .s = false ∧ s.cc.vfence = false ∧ (s.getV 0).tag = s.cc.rtag ∧
    (((s.getV 0).tag :: memLens s .unit).all fun t => decide (s.vlN ≤ vlmax t)) = true ∧
    okWith (memTable s .unit 0 (s.getX 1)) (fun _ => true) = true ∧ s.cc.rawm = false ∧ s.cc.scaleMode = 0 ∧
    (s.storeItems .unit (s.getX 1) (s.getV 0)).2.isNone = true ∧
    okWith (s.planItems s.cc.mb (s.storeItems .unit (s.getX 1) (s.getV 0)).1) (fun p => p.2.2.isNone && p.2.1.length == 4) = true ∧
    s.cc.mtag = s.cc.rtag ∧ isVal s.cc.mtag = true ∧ isSub s.cc.mtag = false ∧
    ((List.range 4).all fun k => (s.plainAt .store (s.elemAddr .unit (s.getX 1) k) 4).isSome &&
      (s.elemAddr .unit (s.getX 1) k).toNat % 4 == 0) = true := by decide
/-- Elements 2 and 3 lie on a page whose walk has ended in a trap. -/
theorem wit_VectorStores_trap : let s := st |> x 1 0x2FFF8 |> v 0 tFP32 [5, 6, 7, 8] |> on fun c =>
        { c with mfmt := .ofNat 13 (33 * tFP32.toNat), tlb := [leaf 0x20000 0 0x20000], miss := some ⟨0, 3, false, some 5⟩ }
    okWith (memTable s .unit 0 (s.getX 1)) (fun _ => true) = true ∧
    ((s.storeItems .unit (s.getX 1) (s.getV 0)).1.any StoreItem.keeps) = false ∧
    okWith (s.planItems s.cc.mb (s.storeItems .unit (s.getX 1) (s.getV 0)).1) (fun p =>
      match p.2.2 with | some (k, t) => k == 2 && t.cause != 0x11 | none => false) = true ∧
    nextWith (exec (.vst 0 1 0) s) (fun t => t.cc.tepc == 0x10100 && t.cc.vstart == 2 && t.bytes 0x2FFF8 8 == [5, 0, 0, 0, 6, 0, 0, 0]) =
      true := by decide
/-- A stride of 0: one word, which is element 3's. -/
theorem test_vsts_overlap : nextWith (exec (.vsts 0 1 0) (plain |> v 0 tFP32 [5, 6, 7, 8] |> on fun c => { c with vstr := 0 }))
    (fun t => t.bytes 0x1FFF0 8 == [8, 0, 0, 0, 2, 0, 0, 0]) = true := by decide
/-- MFMT that scales FP32 elements to E4M3 in memory: one group of four elements and its code. -/
theorem wit_VectorStores_scaled : let s := plain |> v 0 tFP32 [0x3F800000, 0x40000000] |> on fun c =>
        { c with mfmt := .ofNat 13 (1024 + 32 * tFP32.toNat + tE4M3.toNat) }
    s.cc.rawm = false ∧ s.cc.scaleMode ≠ 0 ∧ okWith (memTable s .unit 0 (s.getX 1)) (fun _ => true) = true ∧ s.vlN ≠ 0 ∧
    (let n := scaledBytes s.cc.mtag 32 s.vlN
    n = 5 ∧ s.plainAt .store (s.getX 1) n = some 0x1FFF0 ∧ s.poisoned 0x1FFF0 n = false ∧
      (groupsBytes s.cc.mtag s.cc.rm (s.vlN + 1) ((List.range s.vlN).map fun k => valOf (s.getV 0).data s.cc.rtag k)
        (s.bytes 0x1FFF0 n) 32).1.length = n) := by decide
theorem test_vst : nextWith (exec (.vst 0 1 0) (plain |> v 0 tFP32 [5, 6, 7, 8])) (fun t =>
    t.bytes 0x1FFF0 16 == [5, 0, 0, 0, 6, 0, 0, 0, 7, 0, 0, 0, 8, 0, 0, 0] && t.cc.out.s == 1) = true := by decide

theorem wit_SaveAndRestore : let s := st |> x 1 0x10200
    s.cc.ven = true ∧ s.cc.vfence = false ∧ (s.getX 1).toNat % 256 = 0 ∧ s.cc.full .s = false ∧ s.cc.full .l = false ∧
    s.cc.loopAct = false ∧ s.quietAt .load (s.getX 1 + 0x800) 1152 = some 0x10A00 ∧
    okWith (s.savePieces .store (s.getX 1 + .ofNat 64 (0x1C0 + 47)) 1) (fun (u, ps) => ps.length == 1 &&
      ps.all (fun p => !p.x.ce && u.rawAt p.x.pa p.len) &&
      okWith (u.savePieces .store (s.getX 1 + .ofNat 64 (0x800 + 1152 * 47)) 1152) fun (y, qs) => qs.length == 1 &&
        (ps ++ qs).all fun p => !p.x.ce && y.rawAt p.x.pa p.len) = true ∧
    okWith (s.savePieces .load (s.getX 1 + .ofNat 64 (0x1C0 + 47)) 1) (fun (u, ps) =>
      okWith (u.savePieces .load (s.getX 1 + .ofNat 64 (0x800 + 1152 * 47)) 1152) fun (w, qs) =>
        okWith (w.loadPieces (s.getX 1 + .ofNat 64 (0x1C0 + 47)) ps) fun (y, tb) => decide (leNat tb < 0x14) &&
          okWith (y.loadPieces (s.getX 1 + .ofNat 64 (0x800 + 1152 * 47)) qs) fun _ => true) = true ∧
    okWith (s.savePieces .store (s.getX 1 + .ofNat 64 (0x200 + 128 * 11)) 128) (fun (u, ps) => ps.length == 1 &&
      ps.all fun p => !p.x.ce && u.rawAt p.x.pa p.len) = true ∧
    okWith (s.savePieces .load (s.getX 1 + .ofNat 64 (0x200 + 128 * 11)) 128) (fun (u, ps) =>
      okWith (u.loadPieces (s.getX 1 + .ofNat 64 (0x200 + 128 * 11)) ps) fun _ => true) = true := by decide
theorem test_msave : nextWith (exec (.msave 1 1 0) (st |> x 1 0x10200 |> m 1 0x8001)) (fun t =>
    t.bytes 0x10480 3 == [1, 0x80, 0]) = true := by decide

/-! ### Hypotheses of the statements: tiles, atomics, fences -/

/-- Tiles of 2 by 2: FP32 elements 1 to 4; a factored one of maximum rank 4 with one pair of factors; one of E4M3. -/
def cfgD : BitVec 32 := 0x00090101
def cfgF : BitVec 32 := 0x04290101
def dense : Tile := { cfg := some cfgD, inUse := true, rows := [(0, { data := 0x400000003F800000 }), (1, { data := 0x4080000040400000 })] }
def fact (n : Nat) : Tile := { cfg := some cfgF, inUse := true, us := List.replicate n [0x3F800000, 0x40000000]
                               vs := List.replicate n [0x40400000, 0x40800000] }
def tl (k : TReg) (t : Tile) (s : State) : State := { s with cc := { s.cc with t := s.cc.t.setIfInBounds k.toNat t } }
def tst : State := st |> tl 0 dense |> tl 1 (fact 1) |> tl 2 dense |> tl 3 (fact 4) |> tl 4 { dense with cfg := some 0x000C0101 } |>
  v 1 tFP32 [0x3F800000, 0x40000000] |> v 2 tFP32 [0x40400000, 0x40800000] |> v 3 tE8M0 [0x80, 0x81]

theorem wit_TileConfiguration : tst.cc.ven = true ∧ tst.cc.loopAct = false ∧ (tst.getT 7).inUse = false ∧ (tst.getT 7).cfg = none ∧
    cfgOk ((tst |> x 1 0x00090101).getX 1) = true ∧ tst.cc.othersOccupy 7 + occupancy cfgD ≤ 131072 ∧
    (tst.getT 1).cfg = some cfgF ∧ (tst.getT 1).rank < 256 ∧ cfgF.toNat < 2 ^ 30 ∧ inLoopi.cc.ven = true ∧
    inLoopi.cc.loopAct = true ∧ inLoopi.cc.loopI = true := by decide
/-- A configuration of 256 by 256 FP32 elements takes more than is left. -/
theorem test_tcfg_capacity : occupancy 0x0009FFFF = 262144 ∧ nextWith (exec (.tcfg 7 1) (tst |> x 1 0x0009FFFF))
    (fun t => t.cc.tcause == 0x08 && (t.getT 7).cfg == none) = true := by decide
theorem test_trank : nextWith (exec (.trank 1 3) tst) (fun t => t.getX 3 == 0x0429010100000701) = true := by decide

theorem wit_OuterProducts : outerTags (tst.getT 0) (tst.getV 1).tag (tst.getV 2).tag = true ∧
    outerTags (tst.getT 1) (tst.getV 1).tag (tst.getV 2).tag = true ∧ cfgFactored cfgD = false ∧ cfgFactored cfgF = true ∧
    (tst.getT 1).rank ≠ cfgMaxRank cfgF ∧ (tst.getT 3).rank = cfgMaxRank cfgF ∧ (tst.getT 3).cfg = some cfgF := by decide
/-- 4 + 2 · 4 = 12. -/
theorem test_topa : nextWith (exec (.topa 0 1 2) tst) (fun t => slotOf ((t.getT 0).row 1).data tFP32 1 == 0x41400000 &&
    slotOf ((t.getT 0).row 0).data tFP32 1 == 0x40C00000) = true := by decide
theorem test_topa_rank : nextWith (exec (.topa 1 1 2) tst) (fun t => (t.getT 1).rank == 2) = true ∧
    nextWith (exec (.topa 3 1 2) tst) (fun t => t.cc.tcause == 0x09 && t.cc.tval == 0x403) = true := by decide

theorem wit_TileOperations : tst.cc.ven = true ∧ tst.cc.loopAct = false ∧ (tst.getT 0).cfg = some cfgD ∧ (tst.getT 2).cfg = some cfgD ∧
    cfgTag cfgD = tFP32 ∧ (tst.getT 1).cfg = some cfgF ∧ cfgRows cfgD = cfgRows cfgF ∧ cfgCols cfgD = cfgCols cfgF ∧
    (tst.getT 1).rank + (tst.getT 1).rank ≤ cfgMaxRank cfgF ∧
    tst.cc.othersOccupy 1 + occupancy (cfgF &&& 0x001FFFFF) ≤ 131072 ∧ (tst.getT 4).cfg = some 0x000C0101 ∧
    cfgFactored 0x000C0101 = false ∧ scaleTag (cfgTag 0x000C0101) = true ∧ (tst.getV 3).tag = tE8M0 ∧
    (fact 0).us = [] ∧ (fact 0).vs = [] ∧ ((tst.getT 1).us ++ (tst.getT 1).vs).any (fun u => u.any badEntry) = false ∧
    (let t := tst |> tl 1 { fact 1 with us := [[0x7F800000, 0]] }
    ((t.getT 1).us ++ (t.getT 1).vs).any (fun u => u.any badEntry) = true) := by decide
theorem test_tadd : nextWith (exec (.tadd 0 2) tst) (fun t => slotOf ((t.getT 0).row 1).data tFP32 0 == 0x40C00000) = true ∧
    nextWith (exec (.tadd 1 1) tst) (fun t => (t.getT 1).rank == 2) = true := by decide
/-- 2 · 4 = 8 in element (1, 1). -/
theorem test_tdense : nextWith (exec (.tdense 1) tst) (fun t => (t.getT 1).cfg == some cfgD &&
    slotOf ((t.getT 1).row 1).data tFP32 1 == 0x41000000) = true := by decide

theorem wit_TileRowsAndProducts : tst.cc.ven = true ∧ (tst.getT 0).cfg = some cfgD ∧ cfgFactored cfgD = false ∧
    isSx (cfgTag cfgD) = false ∧ (tst.getV 1).tag = cfgTag cfgD ∧ (47 : VReg).toNat < 48 ∧ tst.cc.loopAct = false ∧
    cfgRows cfgD ≤ ((tst |> x 1 2).getX 1).toNat ∧ ((tst |> x 1 1).getX 1).toNat < cfgRows cfgD ∧
    (tst.getT 1).cfg = some cfgF ∧ cfgFactored cfgF = true ∧ isFlt (tst.getV 1).tag = true ∧
    (tst.getT 1).us.length = (tst.getT 1).vs.length := by decide
theorem test_trdrow : nextWith (exec (.trdrow 0 5 1) (tst |> x 1 1)) (fun t =>
    slotOf (t.getV 5).data tFP32 1 == 0x40800000 && (t.getV 5).tag == tFP32) = true ∧
    nextWith (exec (.trdrow 0 5 1) (tst |> x 1 2)) (fun t => (t.getV 5).data == 0) = true := by decide
theorem test_twrrow : nextWith (exec (.twrrow 0 1 1) (tst |> x 1 1)) (fun t =>
    slotOf ((t.getT 0).row 1).data tFP32 1 == 0x40000000 && slotOf ((t.getT 0).row 0).data tFP32 1 == 0x40000000) = true := by
  decide
/-- Integer rows: 1 · 3 + 2 · 4 = 11. -/
theorem test_tmv : let i8 : Tile := { cfg := some 0x00010101, inUse := true, rows := [(0, { data := 0x0201 })] }
    nextWith (exec (.tmv 0 1 5) (st |> tl 0 i8 |> v 1 tI8 [3, 4])) (fun t => slotOf (t.getV 5).data tI32 0 == 11 &&
      (t.getV 5).tag == tI32) = true := by decide

/-- A shape record at 0x10400: A at 0x10500, rows 8 bytes apart, elements packed, 2 rows of at most 2. -/
def mst : State := tst |> x 1 0x10400 |> mem 0x10400 ([0x00, 0x05, 1, 0, 0, 0, 0, 0, 8, 0, 0, 0, 0, 0, 0, 0] ++
  List.replicate 8 0 ++ [2, 0, 2, 0, 0, 0, 0, 0]) |> on fun c => { c with mfmt := .ofNat 13 (33 * tFP32.toNat) }
/-- No context of the core has a step that waits. -/
def alone (s : State) : Bool := (List.range 4).all fun k => !s.macroPending (.ofNat 10 (4 * coreOf s.cc.ctxid + k))
/-- Step 0 of 2 of a TMMA of FP32 elements, and its last step. -/
def mstLast : State := mst |> on fun c => { c with tstep := 1 }
theorem wit_TileMacroOperations : mst.cc.ven = true ∧ mst.cc.loopAct = false ∧ mst.cc.rawm = false ∧ mst.cc.scaleMode = 0 ∧
    (mst.getT 0).cfg = some cfgD ∧ (mst.getT 2).cfg = some cfgD ∧ cfgFactored cfgD = false ∧ cfgTag cfgD = tFP32 ∧
    cfgCols cfgD = 2 ∧ cfgRows cfgD = 2 ∧ mst.cc.mtag = tFP32 ∧ isVal tFP32 = true ∧ isSub tFP32 = false ∧ tFP32 ≠ tI32 ∧
    (mst.getX 1).toNat % 32 = 0 ∧ mst.plainAt .load (mst.getX 1) 32 = some 0x10400 ∧ mst.peek 0x10418 2 = 2 ∧
    mst.peek 0x1041A 2 = 2 ∧ mst.peek 0x10408 4 = 8 ∧ mst.peek 0x1040C 4 = 0 ∧ mst.peek 0x10410 8 = 0 ∧ mst.peek 0x1041C 4 = 0 ∧
    mst.cc.tstep.toNat < 2 ∧ mst.cc.full .t = false ∧ mst.variant = .yl8 ∧ alone mst = true ∧ mstLast.cc.tstep.toNat + 1 = 2 ∧
    mstLast.variant = .yl8 ∧ alone mstLast = true ∧
    ((List.range 4).all fun k => (mst.quietAt .load (.ofNat 64 (mst.peek 0x10400 8) + .ofInt 64 (k / 2 * 8) +
      .ofInt 64 (posOf tFP32 0 (k % 2))) 4).isSome) = true := by decide
/-- The same behind a VFENCE whose loads are not performed. On a YL8-C: with A on the record's page, which the TLB serves; and
with A on a page that is compressed. -/
def mstC : State := { mst with variant := .yl8c } |> mem 0x10402 [2] |> on fun c => { c with
  tlb := { leaf 0x20000 0 0x20000 with entry := (leaf 0x20000 0 0x20000).entry ||| 0x400 } :: pages }
theorem wit_TileMacroOperations_fenced : let s := mst |> on fun c => { c with vfence := true, loads := 1 }
    s.cc.ven = true ∧ s.cc.loopAct = false ∧ (s.getX 1).toNat % 64 = 0 ∧ s.cc.vfence = true ∧ s.cc.loads ≠ 0 := by decide
theorem wit_TileMacroOperations_units : (let s : State := { mst with variant := .yl8c }
    let rest := (s.macroParts [] (.tmma false 0 2 (.ofNat 64 (s.peek 0x10400 8)) 8 0 2) 0).flatMap pageRuns
    rest.length = 4 ∧ (rest.all fun p => (s.served ⟨.load, true, p.2⟩ p.1).isSome) = true) ∧
    (let rest := (mstC.macroParts [] (.tmma false 0 2 (.ofNat 64 (mstC.peek 0x10400 8)) 8 0 2) 0).flatMap pageRuns
    mstC.variant ≠ .yl8 ∧ mstC.plainAt .load (mstC.getX 1) 32 = some 0x10400 ∧
      (match mstC.unitsOk .load rest with | .error (.trap _ t) => t.cause == 0x11 | _ => false) = true) ∧
    (let s := mstC |> x 1 0x20800
    let rest := (s.macroParts [] (.tsave 0 (s.getX 1)) 0).flatMap pageRuns
    (s.getX 1).toNat % 64 = 0 ∧ (match s.unitsOk .store rest with | .error (.trap _ t) => t.cause == 0x11 | _ => false) = true) := by
  decide
/-- Row 0 of A is 1 and 0: the first row of td takes that of ts. A fixed count of 5 with a bound of 2 counts as 2. -/
theorem test_tmma : let s := mst |> mem 0x10500 [0, 0, 0x80, 0x3F]
    nextWith (exec (.tmmaS 0 1 2) s) (fun t => slotOf ((t.getT 0).row 0).data tFP32 1 == 0x40800000 &&
      (t.cc.macroOp.map fun p => p.2) == some 1) = true ∧
    nextWith (exec (.tmmaS 0 1 2) (mstLast |> mem 0x10418 [5])) (fun t => t.cc.macroOp == none && t.cc.pc == 0x10104) = true := by
  decide

/-- One step and the last of two; T full; another context's step pending; an address that is no multiple of 64. -/
theorem wit_TileMacroOperations_save : (let s := mst |> x 1 0x10800
    (s.getX 1).toNat % 64 = 0 ∧ fullSt.cc.full .t = true ∧ fullSt.cc.ven = true ∧ (fullSt.getX 1).toNat % 64 = 0 ∧
    ((mst |> x 1 0x10420).getX 1).toNat % 64 ≠ 0 ∧ s.cc.full .t = false ∧ s.cc.tstep = 0 ∧
    ((s.getT 0).imageBytes + 2047) / 2048 = 1 ∧ ((s.getT 0).image.take 2048).length = 80 ∧
    s.plainAt .store (s.getX 1 + .ofNat 64 (2048 * 0)) 80 = some 0x10800 ∧ alone s = true) ∧
    (let s : State := { mst with others := [(1, { ControlCore.reset 1 with run := .running, macroOp := some (.tsave 0 0, 0) })] }
    s.macroPending 1 = true ∧ s.variant = .yl8) := by decide
/-- A tile of two rows of 256 elements takes 2,112 bytes, in two steps. -/
theorem wit_TileMacroOperations_steps : let s := st |> tl 0 { cfg := some 0x0009FF01, inUse := true } |> x 1 0x10800
    ((s.getT 0).imageBytes + 2047) / 2048 = 2 ∧ s.cc.tstep.toNat < 2 ∧ s.variant = .yl8 ∧
    s.plainAt .store (s.getX 1) 2048 = some 0x10800 := by decide
/-- Images at 0x10800: of no tile; not in use; dense with two rows of E4M3 and a scale array; and factored, of rank 1. -/
def img (l : List (Nat × Nat)) : State := st |> x 1 0x10800 |> mem 0x10800 (fields l)
def imgFits (s : State) (w : BitVec 32) (rank marks : Nat) : Bool :=
  s.peek 0x10800 4 == w.toNat && s.peek 0x10804 1 == rank && s.peek 0x10805 1 == marks && decide (marks ≤ 3) &&
  s.peek 0x10806 2 == 0 && ((List.range 52).all fun j => Memory.read s.mem (0x1080C + j) == 0) && s.cc.ven && !s.cc.loopAct &&
  !s.cc.full .t && alone s && !(s.getT 7).inUse && (s.getT 7).cfg == none && s.cc.tstep == 0 &&
  s.plainAt .load (s.getX 1) 64 == some 0x10800 && cfgOk (w.setWidth 64) && s.peek 0x10808 4 == bodyBytes w &&
  (if cfgFactored w then decide (rank ≤ cfgMaxRank w) else rank == 0) && decide (s.cc.othersOccupy 7 + occupancy w ≤ 131072)
def imgScaled : State := img [(4, 0x000C0101), (2, 0x0300), (2, 0), (4, bodyBytes 0x000C0101)]
def imgFactored : State := img [(4, cfgF.toNat), (1, 1), (1, 1), (2, 0), (4, bodyBytes cfgF)]
theorem wit_TileMacroOperations_load : (img []).peek 0x10800 4 = 0 ∧
    imgFits (img [(4, cfgD.toNat), (2, 0), (2, 0), (4, bodyBytes cfgD)]) cfgD 0 0 = true ∧
    imgFits imgScaled 0x000C0101 0 3 = true ∧ imgScaled.plainAt .load 0x10840 (bodyBytes 0x000C0101) = some 0x10840 ∧
    64 + bodyBytes 0x000C0101 ≤ 2048 ∧ scaleTag (cfgTag 0x000C0101) = true ∧ scaleCount 0x000C0101 = 2 ∧
    imgFits imgFactored cfgF 1 1 = true ∧ imgFactored.plainAt .load 0x10840 (bodyBytes cfgF) = some 0x10840 ∧
    64 + bodyBytes cfgF ≤ 2048 := by decide
/-- The image of a tile without configuration, and of one with. -/
theorem wit_TileMacroOperations_image : ({} : Tile).cfg = none ∧ dense.cfg = some cfgD ∧ cfgFactored cfgD = false ∧
    isSx (cfgTag cfgD) = false ∧ isSub (cfgTag cfgD) = false ∧ 1 < cfgRows cfgD ∧ 1 < cfgCols cfgD ∧ (fact 1).cfg = some cfgF ∧
    cfgFactored cfgF = true ∧ 3 < cfgMaxRank cfgF ∧ 1 < cfgRows cfgF ∧ 1 < cfgCols cfgF := by decide
/-- The image of a dense tile: configuration, rank, marks, size of the body, then the rows. -/
theorem test_tsave : nextWith (exec (.tsave 0 1) (tst |> x 1 0x10800)) (fun t =>
    t.bytes 0x10800 12 == [0x01, 0x01, 0x09, 0, 0, 1, 0, 0, 16, 0, 0, 0] && t.bytes 0x10840 8 == [0, 0, 0x80, 0x3F, 0, 0, 0, 0x40] &&
    nextWith (exec (.tload 7 1) t) fun u => u.getT 7 == t.getT 0) = true := by decide

theorem wit_ScalarAtomics : let s := st |> x 1 0x10404
    atomForm (.amocas 3 1 2 0 1 1 5) = some (3, 1, 2, 0, 1, 5) ∧ (s.getX 1).toNat % 8 ≠ 0 ∧ (s.getX 1).toNat % 4 = 0 ∧
    okWith (s.translate ⟨.atomic, false, 4⟩ (s.getX 1)) (fun (u, y) => !u.poisoned y.pa 4 && !y.ce && u.rawAt y.pa 4 && u.cc.stores == [] &&
      u.cc.loads == 0 && (u.clusterAt (engineOf s.cc.ctxid 5 y.pa)).requests == []) = true ∧
    (s |> on fun c => { c with loads := 1 }).cc.loads ≠ 0 := by decide
theorem test_amoadd : let s := st |> x 1 0x10404 |> x 2 1 |> mem 0x10404 [0xFF, 0xFF, 0xFF, 0xFF]
    nextWith (exec (.amoadd 3 1 2 0 0 0 0) s) (fun t => t.getX 3 == BitVec.allOnes 64 && t.peek 0x10404 4 == 0) = true := by
  decide
theorem test_amocas : let s := st |> x 1 0x10408 |> x 2 9 |> x 3 7 |> mem 0x10408 [7]
    nextWith (exec (.amocas 3 1 2 1 0 0 0) s) (fun t => t.getX 3 == 7 && t.peek 0x10408 8 == 9) = true ∧
    nextWith (exec (.amocas 3 1 2 1 0 0 0) (s |> x 3 6)) (fun t => t.getX 3 == 7 && t.peek 0x10408 8 == 7) = true := by decide

theorem wit_FencesAndBarriers : (st |> on fun c => { c with loads := 1 }).cc.loads ≠ 0 ∧ st.cc.stores = [] ∧ st.cc.loads = 0 ∧
    st.cc.ven = true ∧ ¬ (2 : BitVec 3).toNat ≥ 3 ∧ 3 ≤ (3 : BitVec 3).toNat := by decide
theorem wit_FencesAndBarriers_vamoaddf : let s := st |> x 1 0x10400 |> v 1 tFP32 [0x3F800000] |> v 2 tI32 [0, 4, 8, 12]
    s.cc.full .s = false ∧ s.cc.vfence = false ∧ s.cc.cut = none ∧ (s.getV 1).tag = tFP32 ∧ isInt (s.getV 2).tag = true ∧
    s.vlN ≤ 256 ∧ s.vlN ≤ vlmax (s.getV 2).tag ∧
    ((List.range 4).all fun i => let va := s.getX 1 + .ofInt 64 (intAt (s.getV 2).data (s.getV 2).tag i)
      s.plainAt .atomic va 4 == some (0x10400 + 4 * i) && va.toNat % 4 == 0 && !s.poisoned (0x10400 + 4 * i) 4) = true := by decide
theorem test_vamoaddf : let s := st |> x 1 0x10400 |> v 1 tFP32 [0x3F800000, 0x40000000] |> v 2 tI32 [0, 4] |> on fun c =>
        { c with vl := 2 }
    nextWith (exec (.vamoaddf 1 1 2 0) s) (fun t => t.cc.out.s == 1 && t.cc.pc == 0x10104 &&
      (t.clusterAt 0).requests.map (fun r => (r.addr, r.b)) == [(0x10400, 0x3F800000), (0x10404, 0x40000000)]) = true := by decide
/-- A slot of two participants, before the first and before the last arrival. -/
def bst (n : BitVec 16) : State := { rst with slots := [(0, { expected := 2, arrivals := n })] }
theorem wit_FencesAndBarriers_bar : (3 : XReg) ≠ 0 ∧ okWith (slotIndex (bst 1) ((bst 1).getX 1)) (fun p =>
      ((bst 1).slotAt p).expected != 0 && ((bst 1).slotAt p).arrivals + 1 == ((bst 1).slotAt p).expected &&
      ((bst 0).slotAt p).arrivals + 1 != ((bst 0).slotAt p).expected) = true ∧ (bst 1).cc.ven = true ∧
    (bst 1).cc.stores = [] ∧ (bst 1).cc.loads = 0 := by decide
theorem test_bar : nextWith (exec (.vfenceBar 3 1) (bst 1)) (fun t => t.getX 3 == 0 && (t.slotAt 0).phase == 1 &&
      (t.slotAt 0).arrivals == 0) = true ∧
    nextWith (exec (.vfenceBar 3 1) (bst 0)) (fun t => (t.slotAt 0).phase == 0 && (t.slotAt 0).arrivals == 1) = true := by decide
theorem test_barcfg : nextWith (exec (.barcfg 3 1 2) (bst 1)) (fun t => t.getX 3 == 1) = true ∧
    nextWith (exec (.barcfg 3 1 2) (bst 0)) (fun t => t.getX 3 == 2) = true ∧
    nextWith (exec (.barcfg 3 1 2) (bst 0 |> x 2 5)) (fun t => t.getX 3 == 0 && (t.slotAt 0).expected == 5) = true := by decide
theorem wit_FencesAndBarriers_ring : 1024 ≤ ((rst |> x 1 1024).getX 1).toNat ∧ rst.ringable 1 = false ∧ rst.ringable 0 = true ∧
    (rst.getX 1).toNat < 1024 ∧ (rst.ccAt 0).ring = none ∧
    (let s := rst |> on fun c => { c with ring := some 7 }
    s.ringable 0 = true ∧ (s.ccAt 0).ring.isSome = true) := by decide
theorem test_ring : nextWith (exec (.ring 3 1 2) (rst |> x 2 0x12345)) (fun t => t.getX 3 == 0 && t.cc.ring == some 0x2345) = true := by
  decide

/-! ### Hypotheses of the statements: capacity memory -/

def cmd : State := cst |> x 1 0x30000 |> x 2 62 |> v 1 tI8 [1, 2, 3, 4] |> v 2 tI32 [0, 32, 64, 31]
theorem wit_CapacityStores : fullSt.cc.ven = true ∧ fullSt.cc.full .s = true ∧ cmd.cc.ven = true ∧ cmd.cc.full .s = false ∧
    cmd.cc.vfence = false ∧ cmd.cc.cut = none ∧ isVal (cmd.getV 1).tag = true ∧ isInt (cmd.getV 2).tag = true ∧
    cmd.vlN ≤ vlmax (cmd.getV 1).tag ∧ cmd.vlN ≤ vlmax (cmd.getV 2).tag ∧
    (let s := cmd |> x 1 0x3001C
    s.cmAt (s.getX 1) = some (5, cmr, 0, 28) ∧ pairOk cmr.tag tI8 = true ∧ cmr.colAt 28 = some 28 ∧ cmr.lenOk 28 s.vlN = true ∧
      (s.getV 1).tag = cmr.tag ∧ 28 + s.vlN = cmr.cols ∧ (s.cmRun cmr (s.getV 1)).1.length = 4 ∧
      (s.getX 1).toNat % 65536 + (4 + (cmr.rb - cmr.used)) ≤ 65536) ∧
    ((List.range 4).all fun i => match cmd.cmAt (cmd.getX 1 + .ofInt 64 (intAt (cmd.getV 2).data (cmd.getV 2).tag i)) with
      | some (h, r, row, o) => h == 5 && r == cmr && row == [0, 1, 2, 0].getD i 9 && o == [0, 0, 0, 31].getD i 9 &&
          decide (o < r.eb) && 8 * o % memBits r.tag == 0
      | none => false) = true ∧ cmr.scale = 0 ∧ isSx cmr.tag = false ∧ isSub cmr.tag = false ∧
    (let s := cmd |> x 1 0x30040
    s.cmAt (s.getX 1) = some (5, cmr, 2, 0) ∧ 2 + (s.getX 2).toNat ≤ cmr.rows ∧ (s.getX 2).toNat ≠ 0) := by decide
/-- A store of row 3, column 4. -/
def cmPart : CmPart := { handle := 5, cells := [(3, 4, 9)], rows := [3], key := some 1 }
def cmWaits : State := { cst with cmStores := [{ cc := 0, parts := [cmPart] }] }
theorem wit_CapacityStores_performed : cmWaits.cmStores = [{ cc := 0, parts := [cmPart] }] ∧ cmWaits.cc.ctxid = 0 ∧
    cmWaits.cmReady { cc := 0, parts := [cmPart] } = true ∧ cmPart.low = none ∧ lookupT cmWaits.cmTable 5 = some cmr ∧
    cmr.granule = 0 ∧ cmPart.key = some 1 ∧ (cmPart.cells.map fun c => cmr.rowPa c.1 + c.2.1).Nodup := by decide
theorem test_cmst : nextWith (exec (.cmst 1 1) cmd) (fun t => t.cc.out.s == 1 && t.cmStores.length == 1 &&
    nextWith (exec (.cmStorePerformed 0) t) fun u => u.cmStores.isEmpty && u.cc.out.s == 0 &&
      u.bytes cmBase 5 == [1, 2, 3, 4, 0]) = true := by decide

/-- A QD at 0x10400 for handle 5, tag 7: two rows from row 0, columns 0 to `cols` − 1, capacity `cap`. -/
def qst (cols cap : Nat) : State := cst |> x 1 0x10400 |> x 2 0x40000 |> v 1 tI8 [1, 2, 3, 4] |>
  mem 0x10400 (fields [(4, 5), (4, 7), (8, 0), (8, 2), (4, 0), (4, cols), (8, 0), (8, 0), (8, 0), (4, cap), (4, 0)])
/-- The query of `qst`, as its unit takes it. -/
def asked (k : QKind) (cols cap : Nat) : Ready :=
  (Qd.ofBytes ((qst cols cap).bytes 0x10400 64)).ready k cmr ((qst cols cap).getV 1)
theorem wit_Queries_replies : (asked .dot 4 64).q.op = 0 ∧ (asked .dot 4 64).q.overBlocks .dot = false ∧
    (asked .count 4 64).kind ≠ .cust ∧ (asked .dot 4 64).rows = [(0, 0), (1, 1)] ∧ (asked .max 4 64).rows.Pairwise (fun p q => p.1 < q.1) ∧
    ((asked .dot 4 64).rows.all fun p => (List.range 4).all fun c => ((qst 4 64).cmElem cmr p.1 c).isSome) = true ∧
    (({ asked .fsum 4 64 with rows := [] } : Ready).rows = []) ∧ ([(0, 5), (1, 5)].map Prod.fst).Nodup := by decide
/-- A filter of kind 1 on column 0; a float region in the strict form; and one with summaries of 64 rows. -/
theorem wit_Queries_replies_more : (let y := { asked .count 4 64 with q := { (asked .count 4 64).q with op := 1 } }
    y.q.op ≠ 0 ∧ (y.rows.all fun p => ((qst 4 64).cmElem y.r p.1 y.q.fcol).isSome) = true) ∧
    (let y := { asked .fsum 4 64 with r := { cmr with tag := tFP32 }, q := { (asked .fsum 4 64).q with opts := 1 } }
    y.r.flt = true ∧ y.q.strict = true ∧ y.rows ≠ [] ∧
      (y.rows.all fun p => (List.range 4).all fun c => ((qst 4 64).cmElem y.r p.1 c).isSome) = true) ∧
    (let y := { asked .bscore 4 64 with r := { cmr with granule := 1 }, blocks := [0] }
    y.kind = .bscore ∧ ((List.range 4).all fun c => ((qst 4 64).cmBound y.r 0 c false).isSome &&
      ((qst 4 64).cmBound y.r 0 c true).isSome) = true) := by decide
/-- Accepted; a reply of 256 bytes beyond its bound; one of 8 bytes with a capacity of 7; and behind a CM store that waits. -/
theorem wit_Queries : queryForm (.qdot 3 1 1 2) = some (.dot, 3, 1, 1, 2) ∧ (qst 4 64).cc.ven = true ∧
    (qst 4 64).cc.full .q = false ∧ (qst 4 64).cc.vfence = false ∧ fullSt.cc.full .q = true ∧
    okWith ((qst 4 64).queryChecks .dot 1 1 2) (fun (u, qd, _, y0) =>
      let s1 := u.cmDrain 0
      let y := y0.settled s1
      qd.pa == 0x10400 && s1.cmStores == [] && decide (y.replyLen ≤ replyBound y.touched) && decide (y.replyLen ≤ y.q.cap) &&
        okWith (s1.replyArea ((qst 4 64).getX 2) y.replyLen) fun (w, _) => !y.meetsPoison w.draw.2 && (y.reply w.draw.2 w.draw.1).isSome) = true ∧
    okWith ((qst 32 256).queryChecks .max 1 0 2) (fun (u, _, _, y0) => let y := y0.settled (u.cmDrain 0)
      y.replyLen == 256 && decide (replyBound y.touched < y.replyLen)) = true ∧
    okWith ((qst 4 7).queryChecks .dot 1 1 2) (fun (u, _, _, y0) => let y := y0.settled (u.cmDrain 0)
      decide (y.replyLen ≤ replyBound y.touched) && decide (y.q.cap < y.replyLen)) = true := by decide
theorem wit_Queries_fits : QueryFits (qst 4 64) .dot (Qd.ofBytes ((qst 4 64).bytes 0x10400 64)) cmr ((qst 4 64).getV 1) ∧
    (∀ w ∈ (qst 4 64).cmStores, w.cc ≠ (qst 4 64).cc.ctxid) ∧ ((qst 4 64).getX 1).toNat % 64 = 0 ∧
    ((qst 4 64).getX 2).toNat % 64 = 0 ∧ (qst 4 64).plainAt .load ((qst 4 64).getX 1) 64 = some 0x10400 ∧
    (asked .dot 4 64).replyLen ≤ replyBound (asked .dot 4 64).touched ∧ (asked .dot 4 64).replyLen ≤ 64 ∧
    ((qst 4 64).spadAt ((qst 4 64).getX 2) (asked .dot 4 64).replyLen).isSome = true :=
  ⟨⟨by decide, by decide, by decide, by decide, by decide, by decide, by decide, by decide, by decide⟩, by decide, by decide,
    by decide, by decide, by decide, by decide, by decide⟩
theorem wit_Queries_cust : (qst 4 64).variant.tiller = true ∧ (qst 4 64).tlfw.busy = false ∧
    QueryFits (qst 4 64) .cust (Qd.ofBytes ((qst 4 64).bytes 0x10400 64)) cmr ((qst 4 64).getV 1) ∧
    ((qst 4 64).spadAt ((qst 4 64).getX 2) 64).isSome = true ∧ ({ qst 4 64 with tlfw := { busy := true } } : State).tlfw.busy = true ∧
    ({ st with variant := .yl8c } : State).variant.tiller = false ∧ ({ st with variant := .yl8c } : State).cc.ven = true :=
  ⟨by decide, by decide, ⟨by decide, by decide, by decide, by decide, by decide, by decide, by decide, by decide, by decide⟩,
    by decide, by decide, by decide, by decide⟩
def aQuery : Query := { cc := 0, serial := 1, handle := 5, qd := 0x10400, reply := [], status := 0, notify := false, tag := 7 }
/-- Started, with a sweep in a channel that is in compute mode, and in one that is not. -/
theorem wit_Queries_completion : let s : State := { cst with queries := [{ aQuery with sweeps := [3] }] }
    s.queryOf 0 1 = some { aQuery with sweeps := [3] } ∧ aQuery.custom = none ∧ aQuery.held = none ∧ (s.chanAt 3).mode = false ∧
    (({ s with chans := [(3, { mode := true })] } : State).chanAt 3).mode = true := by
  decide
/-- Row 0 is 1, 2, 3, 4 in columns 0 to 3: 1 + 4 + 9 + 16 = 30; row 1 is zero. -/
theorem test_qdot : nextWith (exec (.qdot 3 1 1 2) (qst 4 64 |> mem cmBase [1, 2, 3, 4])) (fun t => t.getX 3 == 0x107 &&
    t.bytes 0x1043C 2 == [0xFF, 0xFF] && t.cc.out.q == 1 &&
    t.queries.map (fun q => (q.status, q.reply.map Prod.snd)) == [(0, [30, 0, 0, 0, 0, 0, 0, 0])]) = true := by decide
theorem test_query_completion : let s : State := { cst with queries := [{ aQuery with reply := [(0x10500, 30), (0x10501, 0)] }] }
    nextWith (exec (.queryCompletion 0 1) s) (fun u => u.peek 0x10438 4 == 2 && u.peek 0x1043C 2 == 0 &&
      u.bytes 0x10500 2 == [30, 0]) = true := by decide

/-- A descriptor of the shape of `cmr` at 0x10400, on stack 1 at most, and CMRTADDR there. -/
def desc (cols mask : Nat) : List Nat :=
  fields [(8, cmBase), (8, 64), (4, cols), (1, mask), (1, 1), (1, 0), (1, 1), (2, 0), (2, 0), (4, 0), (8, 2), (24, 0)]
def ist (cols mask : Nat) : State := { st with
    trust := { st.trust with keys := [(0, 1)] }, cmRegs := { addr := 0x10400, busy := true } } |> mem 0x10400 (desc cols mask)
theorem wit_CapacityRegions_install : (ist 32 1).cmAddrOk = true ∧
    (ist 32 1).installStatus 5 ((ist 32 1).bytes (ist 32 1).cmRegs.at_ 64) = 0 ∧
    (ist 0 1).installStatus 5 ((ist 0 1).bytes (ist 0 1).cmRegs.at_ 64) = 2 ∧
    (ist 32 0).installStatus 5 ((ist 32 0).bytes (ist 32 0).cmRegs.at_ 64) = 5 := by decide
theorem wit_CapacityRegions_remove : lookupT cst.cmTable 5 = some cmr ∧
    ({ cst with cmRegs := { addr := 0x10400 } } : State).cmAddrOk = true ∧
    (let s : State := { cst with cmRegs := { removing := some 5 } }
    s.cmRegs.removing = some 5 ∧ s.cmIdle 5 = true) := by decide
/-- A move to the base itself meets its own range, one to 0x1000000 above does not; reserved bits; a handle of no region. -/
theorem wit_CapacityRegions_move : let s := cst |> x 1 5 |> x 2 (.ofNat 64 (cmBase + 0x1000000 + 1))
    s.cc.level ≠ .user ∧ s.cc.full .s = false ∧ (s.getX 1).toNat % 4096 = 5 ∧ s.moveStatus 4 ≠ 0 ∧ s.cmEntry 5 = some cmr ∧
    s.moveStatus 5 = 0 ∧ s.getX 2 &&& 0xFFFF00000000FF00 = 0 ∧
    s.placeStatus { cmr with base := ((s.getX 2).extractLsb' 16 32).toNat * 65536, mask := (s.getX 2).setWidth 8 } = 0 ∧
    s.placeStatus { cmr with base := cmBase, mask := 1 } ≠ 0 := by decide
theorem wit_CapacityRegions_seal : ((cst |> x 2 0x10440).getX 2).toNat % 128 ≠ 0 ∧ (let s := cst |> x 2 0x10400
    (s.getX 2).toNat % 128 = 0 ∧ s.plainAt .store (s.getX 2) (0x80 + cmr.append * cmr.rb) = some 0x10400 ∧
    okWith (s.imagePieces .store (s.getX 2) (0x80 + cmr.append * cmr.rb)) Option.isSome = true) ∧
    (let s : State := { cst with variant := .yl8c } |> x 2 0x20000 |> on fun c => { c with
      tlb := [{ leaf 0x20000 0 0x20000 with entry := (leaf 0x20000 0 0x20000).entry ||| 0x400 }] }
    (s.getX 2).toNat % 128 = 0 ∧ (match s.imagePieces .store (s.getX 2) (0x80 + cmr.append * cmr.rb) with
      | .error (.trap _ t) => t.cause == 0x11
      | _ => false) = true) := by decide
/-- An image at 0x10800 with a header of the descriptor's shape, and one without. -/
def ost (magic : Nat) : State := { cst with cmTable := [] } |> x 1 0x10800 |> x 2 0x10400 |> x 3 5 |> mem 0x10400 (desc 32 1) |>
  mem 0x10800 (fields [(4, magic), (2, 1), (2, 0), (8, 64), (12, 0), (4, 0), (8, 0), (8, 64), (4, 32), (1, 1), (1, 1), (1, 0),
    (1, 1), (2, 0), (2, 0), (4, 0), (8, 2), (24, 0)])
theorem wit_CapacityRegions_open : (ost 0x4D434C53).cc.level ≠ .user ∧ (ost 0x4D434C53).cc.full .s = false ∧
    okWith ((ost 0x4D434C53).loadAt ((ost 0x4D434C53).getX 2) 64) (fun (u, bs) => u.installStatus 5 bs == 0 &&
      (lookupT u.cmOps 5).isNone && okWith (u.imagePieces .load 0x10800 0x80) fun r => match r with
      | some (w, hp) => okWith (w.loadPieces 0x10800 hp) fun (y, head) => headerOk head (CmRegion.ofBytes bs) &&
          okWith (y.imagePieces .load 0x10800 (0x80 + 2 * cmr.rb)) Option.isSome
      | none => false) = true ∧
    okWith ((ost 0 |> mem 0x10420 [65]).loadAt ((ost 0).getX 2) 64) (fun (u, bs) => u.installStatus 5 bs == 2) = true := by decide
theorem wit_CapacityRegions_open_plain : let s := ost 0x4D434C53
    s.plainAt .load (s.getX 2) 64 = some 0x10400 ∧ lookupT s.cmOps 5 = none ∧ (s.getX 3).toNat % 4096 = 5 ∧
    s.installStatus 5 (s.bytes 0x10400 64) = 0 ∧ (s.getX 1).toNat % 128 = 0 ∧ s.plainAt .load (s.getX 1) 0x80 = some 0x10800 ∧
    headerOk (s.bytes 0x10800 0x80) (CmRegion.ofBytes (s.bytes 0x10400 64)) = true ∧
    s.plainAt .load (s.getX 1) (0x80 + (CmRegion.ofBytes (s.bytes 0x10400 64)).append * (CmRegion.ofBytes (s.bytes 0x10400 64)).rb) =
      some 0x10800 ∧ headerOk ((ost 0).bytes 0x10800 0x80) (CmRegion.ofBytes ((ost 0).bytes 0x10400 64)) = false := by decide
def opst (k : CmOpKind) : State := { cst with cmOps := [(5, { cc := 0, kind := k })] }
/-- A move whose stripe 0 is to go, one whose last stripe is, and one with a poisoned packet; a seal; an open. -/
def moving (rows p : Nat) (k : CmOpKind) : State :=
  { opst k with cmTable := [(5, { cmr with rows := rows, next := some (cmBase + 0x1000000, 1, p) })] }
theorem wit_CapacityRegions_ends : (let s := moving 65 0 (.move false)
    lookupT s.cmOps 5 = some { cc := 0, kind := .move false } ∧
      lookupT s.cmTable 5 = some { cmr with rows := 65, next := some (cmBase + 0x1000000, 1, 0) } ∧
      0 + 1 < ({ cmr with rows := 65 } : CmRegion).stripes ∧ cmr.granule = 0 ∧ s.keyHeld cmr.key.toNat = true) ∧
    ({ cmr with rows := 65 } : CmRegion).stripes ≤ 1 + 1 ∧
    lookupT (moving 65 0 (.move true)).cmOps 5 = some { cc := 0, kind := .move true } ∧
    lookupT (opst (.seal [⟨0x10800, 192, false⟩])).cmOps 5 = some { cc := 0, kind := .seal [⟨0x10800, 192, false⟩] } ∧
    lookupT (opst (.open_ [⟨0x10800, 192, false⟩] cmr)).cmOps 5 = some { cc := 0, kind := .open_ [⟨0x10800, 192, false⟩] cmr } ∧
    lookupT cst.cmTable 5 = some cmr ∧ cst.keyHeld cmr.key.toNat = true ∧ st.keyHeld 0 = false ∧
    ((List.range cmr.append).all fun i => !cst.poisoned (cmr.rowPa i) cmr.rb) = true ∧ cst.nonces.length < 2 ^ 96 ∧
    (cst.lookSpans [⟨0x10800, 192, false⟩]).reservedSpan [⟨0x10800, 192, false⟩] = false ∧
    cst.rawAt 0x10800 192 = true ∧ cst.rawAt (completionAt [⟨0x10800, 192, false⟩]) 4 = true := by decide
def twoRows : State := { cst with cmTable := [(5, { cmr with rows := 2 })] }
theorem test_cmmov : let s := twoRows |> x 1 5 |> x 2 (.ofNat 64 (cmBase + 0x1000000 + 1)) |> mem (cmBase + 33) [9]
    nextWith (exec (.cmmov 3 1 2) s) (fun t => t.getX 3 == 0 && nextWith (exec (.cmmovDone 5) t) fun u =>
      u.cmOps.isEmpty && u.bytes (cmBase + 0x1000000 + 33) 1 == [9]) = true := by decide

/-! ### Hypotheses of the statements: queues, jobs, trains -/

/-- Queue 0 of the region configured: threshold 1, at most 4 records in a sheaf. -/
def shc : ShCfg := { threshold := 1, maxSheaf := 4, age := 0, spill := 0, spillVa := 0, spillPa := 0, region := some 0x70000 }
def sst : State := { rst with queues := [(0, { cfg := some shc })] }
theorem wit_SheafQueues_index : okWith (queueIndex rst ((rst |> x 1 3).getX 1)) (· == 3) = true ∧ (rst.queueAt 3).cfg = none ∧
    okWith (queueIndex sst (sst.getX 1)) (· == 0) = true ∧ (sst.queueAt 0).cfg ≠ none := by decide
/-- Records of SHCFG at 0x10400: with a reserved byte set; to turn a queue off that holds a record, and one that is empty;
and a configuration. -/
def cfgSt (l : List Nat) (q : Queue) : State := { rst with queues := [(0, q)] } |> x 2 0x10400 |> mem 0x10400 l
def cfgIs (s : State) (ok : Bool) (m sp : Nat) (empty : Bool) : Bool :=
  okWith (s.loadAt (s.getX 2) 16) fun (u, bs) =>
    let f (off n : Nat) : Nat := leNat ((bs.drop off).take n)
    shFieldsOk (f 0 1) (f 1 1) (f 4 1) ((bs.drop 5).take 3) (BitVec.ofNat 64 (f 8 8) : Word).toNat == ok && f 1 1 == m &&
      f 4 1 == sp && (u.queueAt 0).empty == empty
def oneRec : Rec := { bits := 1, arrival := 0, place := .onDie }
theorem wit_SheafQueues_config : (cfgSt [] {}).getX 2 = 0x10400 ∧ (cfgSt [] {}).plainAt .load 0x10400 16 = some 0x10400 ∧
    cfgIs (cfgSt [1, 4, 0, 0, 0, 1] {}) false 4 0 true = true ∧
    cfgIs (cfgSt [0, 0] { cfg := some shc, recs := [oneRec] }) true 0 0 false = true ∧ cfgIs (cfgSt [0, 0] {}) true 0 0 true = true ∧
    cfgIs (cfgSt [4, 4] {}) true 4 0 true = true ∧ cfgIs (cfgSt [5, 4] {}) false 4 0 true = true ∧
    cfgIs (cfgSt [4, 4, 0, 0, 1, 0, 0, 0, 0, 0, 2] {}) true 4 1 true = true ∧
    ((cfgSt [] {}).served ⟨.store, false, 8⟩ 0x20000).isSome = true ∧ ((cfgSt [] {}).served ⟨.store, false, 8⟩ 0x40000).isSome = true := by
  decide
theorem wit_SheafQueues_wait : let s := sst |> x 2 0x10400
    s.cc.claim = none ∧ (s.getX 2).toNat % 64 = 0 ∧ s.plainAt .store (s.getX 2) 520 = some 0x10400 ∧
    (s.queueAt 0).cfg = some shc ∧ (s.queueAt 1).cfg = none ∧ s.cc.request = none ∧ s.cc.depth = 0 ∧
    (s |> on fun c => { c with request := some 5 }).cc.request ≠ none := by decide
theorem wit_SheafQueues_done : let s := sst |> on fun c => { c with claim := some ⟨0, 2, 1⟩ }
    s.cc.claim = some ⟨0, 2, 1⟩ ∧ (s.getX 1).toNat < 1 ∧ 2 < ((s |> x 1 3).getX 1).toNat ∧ 1 ≤ ((s |> x 1 2).getX 1).toNat ∧
    ((s |> x 1 2).getX 1).toNat ≤ 2 ∧ s.cc.stores = [] ∧ s.cc.loads = 0 ∧ sst.cc.claim = none ∧
    (s |> on fun c => { c with loads := 1 }).cc.loads ≠ 0 := by decide
theorem wit_SheafQueues_push : let s := sst |> v 1 tUI32 [0, 0, 0, 0] |> v 2 tUI32 [1, 2, 3, 4] |> v 3 tFP32 [] |> on fun c =>
        { c with vl := 2 }
    s.cc.ven = true ∧ s.cc.cut = none ∧ s.myRegion = some reg ∧ (s.getV 1).tag = tUI32 ∧ (s.getV 2).tag = tUI32 ∧
    (s.getV 3).tag = tFP32 ∧ s.vlN ≤ 256 ∧ ((List.range s.vlN).filter fun i => decide (s.cc.vstart.toNat ≤ i) && s.activeAt i) = [0, 1] ∧
    (∀ i ∈ [0, 1], slotOf (s.getV 1).data tUI32 i < reg.queues) ∧ s.cc.stores = [] ∧ s.cc.loads = 0 ∧
    (∀ i ∈ [0, 1], (s.queueAt (reg.firstQ + slotOf (s.getV 1).data tUI32 i)).cfg ≠ none ∧
      (s.queueAt (reg.firstQ + slotOf (s.getV 1).data tUI32 i)).onDie + 2 ≤ 63 ∧
      (s.queueAt (reg.firstQ + slotOf (s.getV 1).data tUI32 i)).spillCount = 0) ∧
    (s |> on fun c => { c with loads := 1 }).cc.loads ≠ 0 ∧ (rst.queueAt 0).cfg = none := by decide
/-- Room on the die; and none there, with a spill area of two records. -/
theorem wit_SheafQueues_record : (sst.queueAt 0).cfg = some shc ∧ (sst.queueAt 0).onDie < 63 ∧ (sst.queueAt 0).spillCount = 0 ∧
    (let c := { shc with spill := 1, spillVa := 0x20000, spillPa := 0x20000 }
    let s : State := { rst with queues := [(0, { cfg := some c, recs := List.replicate 63 oneRec })] }
    (s.queueAt 0).cfg = some c ∧ 63 ≤ (s.queueAt 0).onDie ∧ c.spill ≠ 0 ∧ (s.queueAt 0).spillCount < 2 ^ c.spill) := by decide
def firing : Firing := { recs := [oneRec], cause := 0 }
theorem wit_SheafQueues_events : (let s : State := { rst with queues := [(0, { cfg := some { shc with age := 5 }, recs := [oneRec] })], tick := 5 }
    (s.queueAt 0).class1 = none ∧ (s.queueAt 0).expired s.tick = true) ∧
    (let s : State := { rst with queues := [(0, { cfg := some shc, recs := [oneRec], waiters := [⟨0, 1, 3, 0x10400, false⟩] })] }
    (s.clusterAt 0).firing.length < 4 ∧ s.nextFiring 0 = some 0 ∧ (s.queueAt 0).cfg = some shc) ∧
    (let s : State := { rst with queues := [(0, { cfg := some shc, firing := some firing, waiters := [⟨0, 1, 3, 0x10400, false⟩] })] }
    (s.queueAt 0).firing = some firing ∧ (s.queueAt 0).waiters = [⟨0, 1, 3, 0x10400, false⟩] ∧ s.cc.ctxid = 0) ∧
    (let s : State := { rst with queues := [(0, { cfg := some shc, firing := some firing })] }
    (s.queueAt 0).firing = some firing ∧ (s.queueAt 0).waiters = []) := by decide
theorem test_sheaf_delivery : let s : State := { rst with
      queues := [(0, { cfg := some shc, firing := some firing, waiters := [⟨0, 1, 3, 0x10400, false⟩] })] }
    nextWith (exec (.sheafDelivery 0) s) (fun t => t.getX 3 == 1 && t.cc.pc == 0x10104 &&
      t.bytes 0x10400 24 == [1, 0, 0, 0, 1, 0, 0, 0, 0, 0, 0, 0, 0, 0, 0, 0, 1, 0, 0, 0, 0, 0, 0, 0]) = true := by decide

/-- A card at 0x10400 that copies 16 bytes from 0x10500 to 0x10600, tag 9; `rows` other than 1 is invalid for a copy. -/
def jst (rows : Nat) : State := st |> x 1 0x10400 |> mem 0x10400
  (fields [(4, 0x09000000), (4, 0), (8, 0x10500), (8, 0x10600), (4, 16), (4, rows)]) |> mem 0x10500 [1, 2, 3]
def cardIs (s : State) (ok : Bool) : Bool :=
  okWith (s.translate ⟨.load, false, 64⟩ (s.getX 1)) fun (s1, _) => okWith (s1.translate ⟨.store, false, 64⟩ (s.getX 1)) fun (s2, y) =>
    y.ty == 0 && okWith ((s2.release 4).loadPiece ⟨y, 64⟩ (s.getX 1)) fun (s4, bs) => okWith (s4.peerList bs) fun (s5, nodes) =>
      !s5.nodesAbsent nodes && cardOk s5.nodeid (Job.ofBytes s5 y.pa (.ofNat 32 (s5.cc.nextSerial.toNat * 256 + fieldOf bs 3 1)) nodes bs) bs == ok
theorem wit_JobCards : ((st |> x 1 0x10420).getX 1).toNat % 64 ≠ 0 ∧ ((jst 1).getX 1).toNat % 64 = 0 ∧ (jst 1).cc.stores = [] ∧
    (jst 1).cc.loads = 0 ∧ cardIs (jst 2) false = true ∧ cardIs (jst 1) true = true ∧ (jst 1).jobsFull 0 = false ∧
    (jst 1).cc.full .c = false ∧ okWith ((jst 1).cardPlace ((jst 1).getX 1)) (fun (u, y) =>
      okWith (u.readCard y ((jst 1).getX 1)) fun (w, _, nodes) => !w.nodesAbsent nodes) = true ∧
    (fullSt.cc.full .c = true) ∧ (jst 1 |> on fun c => { c with loads := 1 }).cc.loads ≠ 0 := by decide
theorem wit_JobCards_plain : (jst 1).plainAt .load ((jst 1).getX 1) 64 = some 0x10400 ∧
    (jst 1).plainAt .store ((jst 1).getX 1) 64 = some 0x10400 ∧ fieldOf ((jst 1).bytes 0x10400 64) 0 1 ≠ 2 := by decide
def card (engine op : Nat) : Job := { cc := 0, token := 0x109, card := 0x10400, engine := .ofNat 8 engine, op := .ofNat 8 op, notify := false
                                      tag := 9, a := 0x10500, b := 0x10600, rowBytes := 16, rows := 2, srcStride := 16, dstStride := 16
                                      extent := 0, nodes := [], level := .supervisor }
def jobSt (js : List Job) : State := { st with jobs := js }
theorem wit_JobCards_work : (jobSt [card 2 0]).jobOf 0 0x109 = some (card 2 0) ∧ (card 2 0).ended = none ∧
    (card 2 0).running = false ∧ ((jobSt [card 2 0]).earlierJobs (card 2 0)).any (card 2 0).conflicts = false ∧
    (card 2 0).engine = 2 ∧ (card 1 0).engine = 1 ∧
    (let s := jobSt [{ card 0 1 with token := 0x108 }, card 0 1]
    s.jobOf 0 0x109 = some (card 0 1) ∧ (s.earlierJobs (card 0 1)).any (card 0 1).conflicts = true) := by decide
/-- Row 1 of two of a strided copy; a fill; and row 0 of a gather whose index 2 stands at 0x10700. -/
theorem wit_JobCards_rows : (let j := { card 0 1 with running := true, row := 1 }
    let s := jobSt [j]
    s.jobOf 0 0x109 = some j ∧ j.engine = 0 ∧ j.op.toNat ≤ 2 ∧ j.cc = s.cc.ctxid ∧ j.level = s.cc.level ∧ j.rowBytes ≠ 0 ∧
      j.rowBytes ≤ packetMost ∧ s.quietAt .store (j.b + .ofNat 64 j.row * j.dstStride) j.rowBytes = some 0x10610 ∧
      s.quietAt .load (j.a + .ofNat 64 j.row * j.srcStride) j.rowBytes = some 0x10510) ∧
    (jobSt []).quietAt .store (card 0 2).b 16 = some 0x10600 ∧
    (let j := { card 1 0 with srcStride := 0x10700, dstStride := 16, extent := 64 }
    let s := jobSt [j] |> mem 0x10700 [2]
    s.quietAt .load (j.srcStride + .ofNat 64 (4 * j.row)) 4 = some 0x10700 ∧
      0 ≤ (s.peek 0x10700 4 * j.dstStride.toInt : Int) ∧ (s.peek 0x10700 4 * j.dstStride.toInt : Int) + j.rowBytes ≤ j.extent.toNat ∧
      s.quietAt .load (j.a + .ofInt 64 (s.peek 0x10700 4 * j.dstStride.toInt)) j.rowBytes = some 0x10520) := by decide
/-- Two rows of a strided copy. -/
theorem test_copy_row : let j := { card 0 1 with running := true, row := 1 }
    nextWith (exec (.jobStart 0 0x109) (jobSt [j] |> mem 0x10510 [7])) (fun t => t.bytes 0x10610 1 == [7] &&
      t.jobs.map (·.ended) == [some (0, 0)]) = true := by decide
/-- A card of a collective of nodes 3 and 4 at node 3, with its own contribution; the last message, one that disagrees. -/
def coll : Job := { card 2 0 with nodes := [3, 4], running := true, rowBytes := 4, rows := 1, op := 0
                                  contribs := [(3, .contribution 0 4 [3, 4] [0, 0, 0x80, 0x3F])] }
def collSt : State := { jobSt [coll] with nodeid := 3 }
def collMsg : CollMsg := .contribution 0 4 [3, 4] [0, 0, 0, 0x40]
def collDone : Job := { coll with contribs := coll.contribs ++ [(4, collMsg)] }
theorem wit_JobCards_collective : collSt.trust.bootState = 2 ∧ State.reset.trust.bootState ≠ 2 ∧ (jobSt []).jobs = [] ∧
    CollMsg.withdraw false ≠ .withdraw true ∧ collSt.jobs = [coll] ∧ collSt.awaits coll = true ∧
    coll.takes 4 coll.collTag collMsg = true ∧ (∀ c ∈ collDone.contribs, coll.agrees c.2 = true) ∧
    (coll.nodes.all fun n => collDone.contribs.any fun c => c.1 == n) = true ∧ coll.cc = collSt.cc.ctxid ∧ coll.level = collSt.cc.level ∧
    coll.agrees (.contribution 1 4 [3, 4] []) = false ∧ (∀ b, CollMsg.contribution 1 4 [3, 4] [] ≠ .withdraw b) ∧
    (300 : BitVec 16) ∈ ({ coll with nodes := [3, 300] } : Job).nodes ∧ (300 : BitVec 16) ≠ collSt.nodeid ∧
    256 ≤ (300 : BitVec 16).toNat := by decide
/-- 1 + 2 = 3; a member of three has not contributed yet. -/
theorem wit_JobCards_collective_result : collDone.result = [0, 0, 0x40, 0x40] ∧
    collSt.quietAt .store coll.b 4 = some 0x10600 ∧ 4 ≤ packetMost ∧ (let j := { coll with nodes := [3, 4, 5] }
    j.agrees (.contribution 0 4 [3, 4, 5] [0, 0, 0, 0]) = true ∧ (j.nodes.any fun n => [(3 : BitVec 16), 4].all fun c => c != n) = true) := by
  decide
theorem wit_JobCards_end : (jobSt [{ card 0 0 with ended := some (0, 0) }]).jobOf 0 0x109 = some { card 0 0 with ended := some (0, 0) } ∧
    ({ card 0 0 with peers := [(3, 1)] } : Job).peers ≠ [] ∧ (card 0 0).peers = [] := by decide
theorem wit_JobCards_check : (3 : XReg) ≠ 0 ∧ st.getX 1 = 0 ∧ (st |> x 1 0x109).getX 1 ≠ 0 ∧
    (∃ j ∈ (jobSt [card 0 0]).jobs, j.cc = (jobSt [card 0 0]).cc.ctxid ∧ j.token.setWidth 64 = (st |> x 1 0x109).getX 1) := by decide
theorem test_job : nextWith (exec (.job 3 1) (jst 1)) (fun t => t.getX 3 == 0x109 && t.cc.out.c == 1 && t.peek 0x10404 4 == 0xFFFF) =
    true := by decide

/-- Node 3, and a page of its own memory by its number. -/
def vst : State := { st with nodeid := 3 } |> v 1 tI32 [7] |> v 2 tI64 [0x60000] |> on fun c =>
  { c with vl := 1, tlb := leaf 0x60000 5 (peerBase + 3 * peerSpan + 0x20000) :: pages }
theorem wit_ElementTrains : vst.cc.ven = true ∧ isVal (vst.getV 1).tag = true ∧ isSub (vst.getV 1).tag = false ∧ (vst.getV 2).tag = tI64 ∧
    vst.vlN ≤ vlmax (vst.getV 1).tag ∧ vst.vlN ≤ vlmax (vst.getV 2).tag ∧ vst.cc.full .s = false ∧ vst.activeFrom 0 = [0] ∧
    (vst |> on fun c => { c with vl := 0 }).activeFrom 0 = [] ∧
    okWith (sendTargets (tagWidth (vst.getV 1).tag / 8) vst [(0, .ofNat 64 (slotOf (vst.getV 2).data (vst.getV 2).tag 0))])
      (fun (u, l) => l == [(3, 0x20000, 0, false)] && u.trains == []) = true ∧ vst.cc.vfence = false ∧ vst.cc.cut = none ∧
    fullSt.cc.full .s = true := by decide
/-- The same with the page of node 4, to which port 0 leads. -/
def vst4 : State := { vst with route := [(4, 1)], ports := [(0, { state := 2, peer := 4 })] } |> on fun c =>
  { c with tlb := leaf 0x60000 5 (peerBase + 4 * peerSpan + 0x20000) :: pages }
theorem wit_ElementTrains_nodes : vst4.cc.ven = true ∧ vst4.cc.cut = none ∧ vst4.cc.vfence = false ∧ vst4.cc.full .s = false ∧
    ((List.range vst4.vlN).filter vst4.activeAt) = [0] ∧
    (match vst4.served ⟨.store, true, 4⟩ (.ofNat 64 (slotOf (vst4.getV 2).data (vst4.getV 2).tag 0)) with
      | some y => y.ty == 5 && decide (peerBase ≤ y.pa) && peerNode y.pa == 4
      | none => false) = true := by decide

/-- The last byte of WM, and the first beyond. -/
theorem wit_ElementTrains_receiver : inWm (wmLimit - 8) 8 = true ∧ inWm (wmLimit - 7) 8 = false ∧ wmLimit < 2 ^ 64 ∧
    (let r : Train := { cc := 0, node := 3, tag := 0, group := 0 }
    ({ st with trains := [r] } : State).trains = [r] ∧ r.live = true) := by decide
theorem test_train : nextWith (exec (.trainElements 3 2 ((leBytes 8 0x20000) ++ leBytes 4 7 ++ leBytes 4 0)) st)
    (fun t => t.bytes 0x20000 5 == [7, 0, 0, 0, 0]) = true ∧
    nextWith (exec (.trainTail 3 0 0x20008 2) (st |> mem 0x20008 [0xFF])) (fun t => t.bytes 0x20008 2 == [1, 1]) = true := by decide

/-! ### Hypotheses of the statements: regions, waits, completions -/

theorem wit_RegionsAndContexts_launch : inWm (0xFFFFFFFFFF00 / 256 * 256) 256 = false ∧ inWm (0x701FF / 256 * 256) 256 = true ∧
    st.trust.bootState = 2 ∧ st.peek (0x70100 + 0x48) 4 = 0 ∧ st.regionAt 0x70100 = none := by decide
/-- An RCB at 0x70000 of one context, of no more than `most`; its save area is at 0x70000 of the tables. -/
def lst (most : Nat) (r : Region) : State := tables ({ st with regions := [(0x70000, r)] } |>
  mem 0x70028 (fields [(4, 1), (4, 0), (2, most)]))
def accepted : Region := { va := 0x70000, parent := none, service := false, ptbase := 0x100000, saveArea := 0x70000 }
theorem wit_RegionsAndContexts_check : (lst 1 accepted).regionAt 0x70000 = some accepted ∧ accepted.state = .accepted ∧
    okWith ((lst 1 accepted).rcbChecks 0x70000 ((lst 1 accepted).rcbFields 0x70000 accepted none) none) (fun _ => true) = true ∧
    (match (lst 0 accepted).rcbChecks 0x70000 ((lst 0 accepted).rcbFields 0x70000 accepted none) none with
      | .error c => c == 0x01
      | .ok _ => false) = true := by decide
def readyReg : Region := { accepted with state := .ready, count := 1, maxCtx := 1, ctxs := [.fresh] }
/-- One that fits; one that needs a device slot which another region has. -/
theorem wit_RegionsAndContexts_place : (lst 1 { readyReg with state := .saved }).regionAt 0x70000 = some { readyReg with state := .saved } ∧
    (lst 1 readyReg).before 0x70000 readyReg true = false ∧ ((lst 1 readyReg).plan 0x70000 readyReg 0 []).isSome = true ∧
    (let r := { readyReg with firstSlot := 48, slots := 1 }
    let s : State := { lst 1 r with slots := [(2112, { bound := some 0x80000 })] }
    s.before 0x70000 r true = false ∧ (s.plan 0x70000 r 0 []).isNone = true) := by decide
def oneReg : Region := { readyReg with spadKib := 64 }
def seated (s : State) : Bool :=
  match s.plan 0x70000 oneReg 0 [] with
  | some (_, [p]) => p.index == 0 && decide (0x70000 + 0x4C ≤ spadAddr (coreOf p.cc) p.off)
  | _ => false
/-- One context of 64 KiB has its one seat. -/
theorem wit_RegionsAndContexts_seat : (lst 1 oneReg).regionAt 0x70000 = some oneReg ∧ (lst 1 oneReg).before 0x70000 oneReg true = false ∧
    seated (lst 1 oneReg) = true ∧ oneReg.slots = 0 ∧ oneReg.ctxs = [.fresh] ∧ oneReg.pendTerm = [] ∧ 0 < oneReg.allot ∧
    ({ rst with regions := [(0x70000, { reg with terminating := true })] } : State).regionAt 0x70000 =
      some { reg with terminating := true } := by decide
theorem wit_RegionsAndContexts_commands : rst.regionAt 0x70000 = some reg ∧ reg.state = .running ∧
    ({ reg with terminating := true } : Region).terminating = true ∧ reg.terminating = false ∧ reg.state.ended = false ∧
    readyReg.state ≠ .running ∧ readyReg.state.ended = false ∧ rst.regionCount 0x70000 reg ≤ (1 : BitVec 16).toNat ∧
    (0 : BitVec 16).toNat < rst.regionCount 0x70000 reg ∧ reg.ctxs[(0 : BitVec 16).toNat]? = some (.resident 0) ∧
    ({ rst with regions := [(0x70000, { reg with ctxs := [.exited] })] } : State).canRetire 0x70000 = true ∧
    st.regionAt 0x70000 = none := by decide
theorem test_launch_to_running : nextWith (exec (.rcbCheck 0x70000) (lst 1 accepted)) (fun t => t.peek 0x70048 4 == 1 &&
    nextWith (exec (.regionPlacement 0x70000 5) t) fun u => u.peek 0x70048 4 == 2 && (u.ccAt 5).run == .running &&
      (u.ccAt 5).x[3] == 0x70000 && (u.ccAt 5).ven) = true := by decide

theorem wit_WaitsAndCompletions_waits : (let s := st |> on fun c => { c with run := .waitCounts 31 0 0 0 0, out := { c.out with l := 9 } }
    s.cc.run = .waitCounts 31 0 0 0 0 ∧ s.cc.out.meets 31 0 0 0 0 = true) ∧
    (let s := st |> on fun c => { c with run := .waitCounts 8 0 0 0 0, out := { c.out with l := 9 } }
    s.cc.run = .waitCounts 8 0 0 0 0 ∧ s.cc.out.meets 8 0 0 0 0 = false) ∧
    (let s : State := bst 0 |> on fun c => { c with run := .waitBar 0 1 }
    s.cc.run = .waitBar 0 1 ∧ (s.slotAt 0).phase ≠ 1) ∧
    (st |> on fun c => { c with run := .waitIdle (some 0) }).cc.run = .waitIdle (some 0) := by decide
def hard : State := st |> on fun c => { c with request := some 0 }
theorem wit_WaitsAndCompletions_hard : hard.cc.request = some 0 ∧ hard.cc.depth = 0 ∧ hard.cc.run = .running ∧
    hard.readsDevice hard.cc.ctxid = false ∧ hard.cc.entering = false ∧
    (hard |> on fun c => { c with run := .waitIdle none }).cc.run.isWait = true ∧ st.cc.request ≠ some 0 := by decide
theorem wit_WaitsAndCompletions_ui : (let s := st |> on fun c => { c with ring := some 7, uistatus := 1 }
    s.cc.ring = some 7 ∧ s.cc.uistatus = 1 ∧ s.cc.depth = 0 ∧ s.cc.run = .running ∧ s.cc.macroOp = none ∧ s.cc.leaving = false ∧
      s.midLoad s.cc.ctxid = false) ∧
    (let s := st |> on fun c => { c with ring := some 7, uistatus := 1, run := .waitIdle none }
    s.cc.ring = some 7 ∧ s.cc.uistatus = 1 ∧ s.cc.depth = 0 ∧ s.cc.run = .waitIdle none ∧ s.midLoad s.cc.ctxid = false) ∧
    (let s : State := { st with cores := [(0, { nextShape := 2, pend := true })] } |> on fun c => { c with reached := true }
    s.shapeReady 0 = true) ∧
    (let s : State := { rst with slots := [(3, { watchdog := some 0, bound := some 0x70000 })] }
    (s.slotAt 3).watchdog = some 0 ∧ (s.slotAt 3).bound = some 0x70000 ∧ s.regionAt 0x70000 = some reg ∧
      (s.domainAt reg.domain).size = 0) := by decide
/-- Grants: no lane group idle, heads of contexts 0 and 2 ready; one idle, the head of context 3 alone ready. -/
theorem wit_WaitsAndCompletions_grant : (0b0101 : BitVec 4).getLsbD 1 = false ∧ (0b0101 : BitVec 4).getLsbD 2 = true ∧
    (0b1000 : BitVec 4) = 1#4 <<< 3 := by decide
def add1 : AtomReq := { cc := 0, fn := 0, size := 1, addr := 0x10400, b := 1, c := 0, rm := 0 }
theorem wit_WaitsAndCompletions_memory : (st |> on fun c => { c with loads := 1 }).cc.loads ≠ 0 ∧
    (let s := st |> on fun c => { c with stores := [{}], out := { c.out with s := 1 } }
    s.cc.stores = [{}] ∧ ({} : PStore).peers = [] ∧ ({} : PStore).adds = false ∧ ({} : PStore).counted = true) ∧
    (let s : State := { st with clusters := [(0, { requests := [add1] })] } |> on fun c => { c with stores := [{ adds := true }] }
    s.cc.stores = [{ adds := true }] ∧ (∃ p ∈ s.clusters, ∃ q ∈ p.2.requests, q.cc = s.cc.ctxid) ∧
      (s.clusterAt 0).requests = [add1] ∧ (s.clusterAt 0).lines.length < 64 ∧ add1.fn = 0 ∧ add1.size = 1) := by decide
def wst (va : Word) : State := { walkable with clusters := [(0, { walks := [⟨0, va.extractLsb' 16 48, 0x100000, [0]⟩] })] }
def waits (va : Word) (s : State) : State := s |> on fun c => { c with miss := some ⟨0, va.extractLsb' 16 48, false, none⟩ }
theorem wit_WaitsAndCompletions_walks : st.cc.run = .running ∧ st.tlbHas st.cc 0x70000 = false ∧
    (st.clusterAt (clusterOf st.cc.ctxid)).walks = [] ∧
    ((wst 0x70000).clusterAt 0).walks = [⟨0, 7, 0x100000, [0]⟩] ∧ ((wst 0x70000).clusterAt 0).waiting = [] ∧
    (waits 0x70000 (wst 0x70000)).cc.miss = some ⟨0, 7, false, none⟩ ∧
    (waits 0x80000 (wst 0x80000)).cc.miss = some ⟨0, 8, false, none⟩ ∧
    okWith (walk (wst 0x70000) [] 0x100000 0 0x70000) (fun _ => true) = true ∧
    okWith (walk (wst 0x80000) [] 0x100000 0 0x80000) (fun _ => true) = false := by decide
/-- The first step of two of a TSAVE, and its last. -/
theorem wit_WaitsAndCompletions_macro : let s := tst |> on fun c => { c with macroOp := some (.tsave 0 0x10800, 0), out := { c.out with t := 1 } }
    (∀ k, k < 4 → .ofNat 10 (4 * (0 : BitVec 8).toNat + k) ≠ s.cc.ctxid →
      s.macroPending (.ofNat 10 (4 * (0 : BitVec 8).toNat + k)) = false) ∧ s.macroPending s.cc.ctxid = true ∧
    (0 : BitVec 8).toNat = coreOf s.cc.ctxid ∧ s.cc.macroOp = some (.tsave 0 0x10800, 0) := by decide
theorem wit_WaitsAndCompletions_step : (let s := tst |> on fun c => { c with macroOp := some (.tsave 0 0x10800, 0) }
    okWith (State.macroRun (.tsave 0 0x10800) 1 0 (s.modCore 0 fun k => { k with matrixRR := .ofNat 2 s.cc.ctxid.toNat }))
      (fun r => r.cc.ctxid == s.cc.ctxid) = true) := by decide
theorem wit_WaitsAndCompletions_tsave : let total := ((tst.getT 0).imageBytes + 2047) / 2048
    0 < total ∧ total - 1 < total ∧
    (tst.plainAt .store (0x10800 + .ofNat 64 (2048 * 0)) (((tst.getT 0).image.drop (2048 * 0)).take 2048).length).isSome = true := by decide
def aWrite (n : Word) : DieWrite := { src := 1, stamp := #v[n, 1, 0, 0] }
theorem wit_WaitsAndCompletions_dies : (1 : BitVec 2) ≠ 0 ∧
    (({ st with dies := [(0, { held := [aWrite 0] })] } : State).dieAt 0).held = [aWrite 0] ∧
    admits (({ st with dies := [(0, { held := [aWrite 0] })] } : State).dieAt 0).vc (aWrite 0) = true ∧
    admits (({ st with dies := [(0, { held := [aWrite 1] })] } : State).dieAt 0).vc (aWrite 1) = false := by decide
theorem test_hard_preemption : nextWith (exec (.hardPreemption 0) hard) (fun t => t.cc.tcause == 0x0E && t.cc.tepc == 0x10100 &&
    t.cc.pc == 0x10000 && t.cc.depth == 1) = true := by decide

/-! ### Hypotheses of the statements: stacks, tillers, links, trust, host -/

theorem wit_StackEvents : (bankPlace (some 0) 5).2 < rowsOf (bankPlace (some 0) 5).1 ∧ (bankPlace (some 8191) 65535).2 < rowsOf 8191 ∧
    tget [] st.trackers (bankPlace (some 0) 5).1 = [] ∧
    tget [] ({ st with trackers := [(0, [(5, 1023)])] } : State).trackers (bankPlace (some 0) 5).1 = [(5, 1023)] ∧
    tget 0 ({ st with postponed := [(0, 8)] } : State).postponed 0 = 8 ∧ tget 0 ({ st with postponed := [(0, 7)] } : State).postponed 0 < 8 ∧
    (97663 : BitVec 17).toNat < 97664 ∧ st.remapFree ≠ 0 ∧ st.remapFree.toNat ≤ 256 ∧ (∀ p ∈ st.remap, p.2.moving = false) ∧
    (let r : Remap := { moving := true, dest := 97664, media := 0 }
    lookupT ({ st with remap := [(3, r)] } : State).remap 3 = some r ∧ r.moving = true) := by decide
/-- R278's example: stack 0, channel 27, bank 17, row 4. -/
theorem test_bankPlace : bankPlace none 0x01231234 = (32 * 27 + 17, 4) := by decide
theorem wit_StackEvents_channels : (let c := ({ st with chans := [(0, { sweeps := 1 })] } : State).chanAt 0
    c.sweeps ≠ 0 ∧ c.normal = 0 ∧ c.mode = false) ∧ (st.chanAt 0).sweeps = 0 ∧
    (({ st with chans := [(0, { sweeps := 1, normal := 1 })] } : State).chanAt 0).normal ≠ 0 ∧
    (st.refreshWaits 0).isSome = false ∧ (({ st with postponed := [(4143, 1)] } : State).refreshWaits 0).isSome = true ∧
    (let c := ({ st with chans := [(0, { mode := true, pending := true })] } : State).chanAt 0
    c.mode = true ∧ c.pending = true) := by decide
def aStore : CmStore := { cc := 0, parts := [], chans := [0] }
theorem wit_StackEvents_nlb : let s : State := { st with chans := [(0, { mode := true, normal := 1 })], cmStores := [aStore] }
    (s.chanAt 0).mode = true ∧ s.cmStores = [aStore] ∧ 0 ∈ aStore.chans ∧ s.cmReady aStore = true ∧
    (∀ w ∈ st.cmStores, 0 ∉ w.chans) := by decide
/-- From router 0 to itself, to router 5, and of a type that no packet has. -/
theorem wit_StackEvents_mesh : meshOk st.variant 0 = true ∧ meshOk st.variant 0x2800 = true ∧ meshOk st.variant 0x03000000 = false ∧
    (0 : BitVec 8).toNat / 32 < st.variant.cmstk ∧ (0x2800 : BitVec 64).extractLsb' 8 3 = 0 ∧
    (0x2800 : BitVec 64).extractLsb' 11 5 = 5 := by decide
/-- A poisoned packet of a CMMOV, and one of a query's command. -/
def sentMove : CmOp := { cc := 0, kind := .move false }
theorem wit_StackEvents_poison : (0x0007000000000002 : BitVec 64).extractLsb' 0 4 = 2 ∧
    lookupT ({ st with cmOps := [(7, sentMove)] } : State).cmOps ((0x0007000000000002 : BitVec 64).extractLsb' 48 16).toNat = some sentMove ∧
    sentMove.kind = .move false ∧
    (0x0007000000000000 : BitVec 64).extractLsb' 0 4 = 0 ∧ ({ st with queries := [aQuery] } : State).queries = [aQuery] ∧
    aQuery.tag.toNat = ((0x0007000000000000 : BitVec 64).extractLsb' 48 16).toNat ∧ (0x0007000000000000 : BitVec 64).extractLsb' 24 2 ≠ 1 ∧
    attachStack st.variant (dieOf aQuery.cc) = ((0x0007000000000000 : BitVec 64).extractLsb' 16 3).toNat := by decide

def zeros (n : Nat) : List Byte := List.replicate n 0
/-- A tiller core with a job of the query of `cst`'s region. -/
def tlr (t : Tiller) : State := { cst with tillers := [(5, t)], tlfw := { busy := true } }
def custom : Custom := { qd := [], vq := {}, r := cmr, key := some 1, area := List.range 64, chans := [5] }
def customQuery : Query := { aQuery with custom := some custom }
theorem wit_TillerEvents_job : (let s := tlr { job := some (0, 1), limit := 2 ^ 25 }
    (s.tillerAt 5).job.isSome = true ∧ (s.tillerAt 5).pushed.length + 8 ≤ 65536 ∧ (s.tillerAt 5).queued = [] ∧
      s.clock < (s.tillerAt 5).since + (s.tillerAt 5).limit) ∧
    (let s : State := { tlr { job := some (0, 1), limit := 2 ^ 25 } with clock := 2 ^ 25 }
    (s.tillerAt 5).since + (s.tillerAt 5).limit ≤ s.clock) ∧
    (let s : State := { tlr {} with queries := [customQuery] }
    (s.tillerAt 5).job = none ∧ s.queryOf 0 1 = some customQuery ∧ customQuery.custom = some custom ∧
      ((custom.r.channels customQuery.handle).find? fun p => p.1 == (5 : BitVec 8).toNat) = some ((5 : BitVec 8).toNat, 0, 0)) := by decide
/-- REPLYEND of 8 bytes that were pushed. -/
theorem wit_TillerEvents_end : let s : State := { tlr { job := some (0, 1), pushed := zeros 8 } with queries := [customQuery] }
    let c := s.tillerAt 5
    let frag := c.pushed.take ((8 : BitVec 64).extractLsb' 0 32).toNat
    c.job.isSome = true ∧ c.queued = [] ∧ s.tillerQuery c = some (customQuery, custom) ∧
    s.queryOf customQuery.cc customQuery.serial = some customQuery ∧ custom.chans = [(5 : BitVec 8).toNat] ∧ custom.ended = [] ∧
    custom.overran = false ∧ c.overran = false ∧ c.bad = false ∧ customQuery.status = 0 ∧ (8 : BitVec 64).extractLsb' 32 8 = 0 ∧
    frag.length = 8 ∧ frag.length ≤ replyBound (32 * c.moved.toNat) ∧ frag.length ≤ custom.area.length := by decide
/-- A core whose fragment is full. -/
theorem wit_TillerEvents_full : 65536 < ({ job := some (0, 1), pushed := List.replicate 65529 0 } : Tiller).pushed.length + 8 := by
  rw [List.length_replicate]; decide
/-- A copy without a job, and one of one sector of row 0. -/
theorem wit_TillerEvents_dma : ((tlr {}).tillerAt 5).busy = false ∧ (1 : BitVec 64).getLsbD 0 = true ∧
    ((tlr { busy := true }).chanAt 5).mode = false ∧
    (let s : State := { tlr { busy := true } with chans := [(5, { mode := true })] }
    (s.tillerAt 5).busy = true ∧ (s.chanAt 5).mode = true ∧
      (match s.tillerCopy 5 (s.tillerAt 5) with | .error e => e == 1 | .ok _ => false) = true) ∧
    (let s : State := { tlr { busy := true, job := some (0, 1), going := (0, 0x100) } with queries := [customQuery] }
    okWith (s.tillerCopy 5 (s.tillerAt 5)) (fun p => p.2.length == 32) = true) ∧
    (tlr {}).tlfw.busy = true ∧ (tlr {}).tillersIdle = true := by decide
/-- Accesses of a core at the edges of its memory map, and its interrupt. -/
theorem wit_TillerEvents_core : st.variant.tiller = true ∧ (5 : BitVec 8).toNat / 32 < st.variant.cmstk ∧ (8 : BitVec 4).toNat = 8 ∧
    (0x10001 : Word).toNat % (8 : BitVec 4).toNat ≠ 0 ∧ (0x10000 : Word).toNat % (8 : BitVec 4).toNat = 0 ∧
    (0x2FFF8 : Word).toNat + (8 : BitVec 4).toNat ≤ 0x30000 ∧ (0x33000 : Word).toNat % (8 : BitVec 4).toNat = 0 ∧
    0x33000 ≤ (0x33000 : Word).toNat ∧ (0xFFF8 : Word).toNat < 0x10000 ∧
    (let c := (tlr { mbstat := true, cpu := { mstatus := 8, mie := 0x800 } }).tillerAt 5
    c.mbstat = true ∧ c.cpu.mstatus.getLsbD 3 = true ∧ c.cpu.mie.getLsbD 11 = true) := by decide

/-- A flit of zeros with its check word. -/
def aFlit : List Byte := leBytes 8 (2 ^ 26) ++ zeros 244
def lkst (p : Port) : State := { st with ports := [(2, p)] }
theorem wit_LinkEvents_flit : (2 : BitVec 6).toNat < st.variant.slports ∧ ((lkst { state := 2 }).portAt 2).state = 2 ∧
    flitOk (zeros 255) = false ∧
    ((lkst { state := 2, rxSince := 1 }).portAt 2).rxSince ≠ 0 ∧
    (∃ f ∈ ((lkst { state := 2, unacked := [(0, [], 8)], sent := 1 }).portAt 2).unacked, 8 ≤ f.2.2) ∧
    (let p := (lkst { state := 2, unacked := [(0, [], 7), (1, [], 0)], sent := 1 }).portAt 2
    p.state = 2 ∧ 0 < p.sent ∧ ∀ f ∈ p.unacked, f.2.2 < 8) ∧ ((lkst { state := 1 }).portAt 2).state = 1 ∧
    (1 : BitVec 12) ≠ ((lkst { state := 2 }).portAt 2).rxNext ∧ ((lkst {}).portAt 2).state ≠ 2 ∧ st.trust.bootState = 2 ∧
    State.reset.trust.bootState ≠ 2 := by decide
theorem wit_LinkEvents_data : flitOk (aFlit ++ leBytes 4 (crc32c aFlit).toNat) = true ∧
    fieldOf (aFlit ++ leBytes 4 (crc32c aFlit).toNat) 0 8 / 2 ^ 24 % 4 = 0 ∧
    fieldOf (aFlit ++ leBytes 4 (crc32c aFlit).toNat) 0 8 / 2 ^ 26 % 16 = 1 := by decide
/-- An acknowledgement of flit 3. -/
theorem wit_LinkEvents_ack : flitOk (ackFlit false 3) = true ∧ fieldOf (ackFlit false 3) 0 8 / 2 ^ 24 % 4 = 1 ∧
    fieldOf (ackFlit false 3) 0 8 / 2 ^ 26 % 16 = 0 := by decide
def aRead : PeerRead := { cc := 0, node := 7, tag := 9, pa := 0, n := 4 }
theorem wit_LinkEvents_packets : inWm (0x10400 : BitVec 48).toNat (16 * (15 : BitVec 4).toNat) = true ∧
    st.poisoned 0x10400 (16 * (15 : BitVec 4).toNat) = false ∧ inWm (wmLimit - 2) 2 = true ∧ inWm (wmLimit - 2) 3 = false ∧
    wmLimit < 2 ^ 48 ∧ ({ st with peerReads := [aRead] } : State).peerReads = [aRead] ∧ aRead.got = .waiting ∧ aRead.token = 0 ∧
    (let w : PStore := { peers := [(7, 9)] }
    (st |> on fun c => { c with stores := [w], out := { c.out with s := 1 } }).cc.stores = [w] ∧ w.peers = [(7, 9)] ∧ w.counted = true) ∧
    (let w : PStore := { peers := [(7, 9), (8, 10)] }
    (st |> on fun c => { c with stores := [w] }).cc.stores = [w] ∧ ((8, 10) : BitVec 8 × BitVec 24) ≠ (7, 9)) := by decide
theorem wit_LinkEvents_routes : lookupT ({ st with routeHeld := [(7, 5)] } : State).routeHeld 7 = some 5 ∧
    ({ st with routeHeld := [(7, 5)] } : State).outstanding 7 = false ∧ ({ st with peerReads := [aRead] } : State).outstanding 7 = true := by
  decide
theorem test_crc32c : crc32c ((List.range 9).map fun k => BitVec.ofNat 8 (0x31 + k)) = 0xE3069283 := by decide

/-- States of the trust unit. -/
def tu (t : Trust) : State := { st with trust := t }
def locked : Trust := { st.trust with lcs := 1, arg0 := 0x10400, arg1 := 255 }
theorem wit_TrustEvents_boot : (0x8000000000001000 : BitVec 64).getLsbD 63 = true ∧ State.reset.trust.bootState = 0 ∧
    (tu { locked with bootState := 3 }).trust.bootState = 3 ∧ (tu { locked with bootState := 1 }).trust.bootState = 1 := by decide
theorem wit_TrustEvents_commands : (tu locked).trust.cmdLow = 0 ∧ (tu { locked with cmdLow := 1 }).trust.cmdLow ≠ 0 ∧
    (tu { locked with arg0 := 0x10401 }).tuReadable 0x10401 0xED4 = false ∧ (tu locked).tuReadable 0x10400 0xED4 = true ∧
    locked.arg1.toNat < 256 ∧ (tu locked).tuReadable locked.arg0 64 = true ∧ locked.lcs ≠ 0 ∧ locked.lcs ≠ 2 ∧ locked.isOpen = false ∧
    locked.tokok = false ∧ locked.wipecnt = 0 ∧ locked.loaded = false ∧ ({ locked with loaded := true } : Trust).loaded = true ∧
    (tu { locked with arg1 := .ofNat 64 (7 : Fin 8).val }).tuReadable locked.arg0 32 = true ∧ 2 ≤ (7 : Fin 8).val ∧
    (tu locked).tuReadable locked.arg0 0xAB4 = true ∧ (tu locked).tuReadable 0x10401 0xAB4 = false ∧ (tu { locked with arg1 := 0x10800 }).tuReadable 0x10800 32 = true ∧
    ({ locked with wipecnt := 1 } : Trust).wipecnt ≠ 0 ∧ (tu locked).queries = [] := by decide
/-- The last key to be wiped, at its time and before it; the first, 10 µs after the KEYWIPE. -/
theorem wit_TrustEvents_wipe : (let s : State := { tu { locked with wipecnt := 1 } with clock := 1880 }
    s.trust.wipecnt ≠ 0 ∧ s.trust.wipeAt + 1 * 1880 ≤ s.clock ∧ (∀ q ∈ s.queries, q.wiped = false) ∧
      ∀ w ∈ s.cmStores, w.wiped = false) ∧
    (let s : State := { tu { locked with wipecnt := 1 } with clock := 1880, queries := [{ aQuery with wiped := true }] }
    ∃ q ∈ s.queries, q.wiped = true) ∧
    (let s : State := { tu { locked with wipecnt := 256 } with clock := 1880 }
    s.trust.wipecnt = 256 ∧ s.clock < s.trust.wipeAt + 10 * 1880) := by decide
theorem test_keyload : nextWith (exec .keyload (tu locked |> mem 0x10400 [7])) (fun t => lookupT t.trust.keys 255 == some 7 &&
    t.trust.status == 0) = true := by decide
theorem test_dbgopen_after_keyload : nextWith (exec .dbgopen (tu { locked with tokok := true, loaded := true })) (fun t =>
    t.trust.status == 8 && !t.trust.isOpen) = true := by decide

theorem wit_HostAndDebug_host : st.trust.bootState = 2 ∧ inWm (wmLimit - 4) (4 : BitVec 8).toNat = true ∧
    inWm (wmLimit - 3) (4 : BitVec 8).toNat = false ∧ State.reset.trust.bootState ≠ 2 ∧
    (let s : State := { st with msix := { st.msix with pending := 4 } }
    s.msix.pending.getLsbD (2 : BitVec 6).toNat = true ∧ s.msix.fnMask = false ∧
      ∀ k < 64, k ≠ (2 : BitVec 6).toNat → s.msix.pending.getLsbD k = true → s.msix.masked.getLsbD k = true) ∧
    st.msix.pending.getLsbD (2 : BitVec 6).toNat = false ∧ hostBase ≤ (0xFFFFFFFFFFFF : BitVec 48).toNat / 64 * 64 := by decide
theorem wit_HostAndDebug_registers : (0x24 : BitVec 32).toNat % (4 : BitVec 4).toNat = 0 ∧ (0x24 : BitVec 32).toNat % (8 : BitVec 4).toNat ≠ 0 ∧
    0x90000 ≤ (0x901F8 : BitVec 32).toNat ∧ (0x901F8 : BitVec 32).toNat < 0x90200 ∧ ¬(0x90000 ≤ (0x24 : BitVec 32).toNat) ∧
    (tu { locked with bootState := 3 }).trust.bootState = 3 := by decide
def opened : State := { st with trust := { st.trust with isOpen := true, perm := 3 } }
theorem wit_HostAndDebug_debug : st.trust.isOpen = State.reset.trust.isOpen ∧ (tu locked).debugMay 0 = false ∧ opened.debugMay 0 = true ∧
    opened.cc.run = .running ∧ opened.cc.macroOp = none ∧ (opened |> on fun c => { c with run := .halted }).cc.run = .halted ∧
    0x14 ≤ (0x14 : Tag).toNat ∧ (0x13 : Tag).toNat < 0x14 ∧ debugCsr 0 = true ∧ csrValueOk 0 1024 = true ∧ csrValueOk 0 1025 = false ∧
    opened.debugMay 1 = true ∧ inCm opened.variant (cmBase / 32 * 32) = true ∧ (tu locked).debugMay 1 = false := by decide
theorem wit_HostAndDebug_halt : opened.readsDevice opened.cc.ctxid = false ∧
    (let s : State := { opened with peerReads := [{ aRead with ic := true }] }
    s.readsDevice s.cc.ctxid = true ∧ s.cc.run = .running ∧ s.debugMay 0 = true) ∧
    (opened |> on fun c => { c with macroOp := some (.tsave 0 0x10800, 3) }).cc.macroOp = some (.tsave 0 0x10800, 3) := by decide
theorem test_halt_and_resume : nextWith (exec (.debugHalt 0) opened) (fun t => t.cc.run == .halted &&
    nextWith (exec (.debugResume 0) t) fun u => u.cc.run == .running) = true := by decide

/-! ### Skipped element groups, and walks that are joined -/

/-- VMSEL 0, VL 40, 32-bit elements: groups 0 to 2 hold elements below VL, and m0 has bits of group 1 alone. -/
def skipSt : State := st |> v 1 0x05 [1, 2] |> m 0 0x10000 |> on fun c => { c with vmsel := 0, vl := 40 }
theorem test_skipped_groups : skipSt.skipped (.vadd 0 1 (.vv 1)) = 2 ∧ skipSt.skipped (.vmov 0 1) = 0 ∧
    (skipSt |> on fun c => { c with vmsel := 15 }).skipped (.vadd 0 1 (.vv 1)) = 0 := by decide
/-- The same with a counter that selects code 2. -/
def skipCounting : State := skipSt.modCore 0 fun c => { c with pmsel := 2 }
theorem test_skipped_groups_count :
    ((skipCounting.noteSkips (.vadd 0 1 (.vv 1)) (skipCounting.retireTo 0)).coreAt 0).pmc.toList = [2, 0, 0, 0] := by
  decide
theorem wit_SkippedElementGroups_counted : skipSt.cc.vmsel ≠ 15 ∧
    (skipSt.retireTo 0).cc.retired = skipSt.cc.retired + 1 ∧ 32 = tagWidth (skipSt.getV 1).tag := by decide
theorem wit_SkippedElementGroups_not_retired : skipSt.cc.retired ≠ skipSt.cc.retired + 1 := by decide
/-- A walk of the page 0x90000 is pending in the control core's cluster. -/
def walkSt : State := st.modCluster 0 fun k => { k with walks := [⟨0, 9, 0, [1]⟩] }
theorem wit_WaitsAndCompletions_joined : walkSt.cc.run = .running ∧ walkSt.tlbHas walkSt.cc 0x90000 = false ∧
    (walkSt.clusterAt (clusterOf walkSt.cc.ctxid)).walks = [⟨0, 9, 0, [1]⟩] ∧ walkSt.cc.asid = 0 ∧
    (0x90000 : Word).extractLsb' 16 48 = 9 := by decide
theorem test_walk_joined : nextWith (execPageWalk 0 0x90000 (walkSt.modCore 0 fun c => { c with pmsel := 0x0506 })) (fun t =>
    (t.coreAt 0).pmc.toList == [1, 1, 0, 0] && (t.clusterAt 0).walks == [⟨0, 9, 0, [1, 0]⟩]) = true := by decide

/-! ### Standards that the spec names -/

/-- FIPS 197, C.3. -/
theorem test_aes : let key := (List.range 32).map (BitVec.ofNat 8)
    let block : List Byte := (List.range 16).map fun k => BitVec.ofNat 8 (17 * k)
    let out : List Byte := [0x8E, 0xA2, 0xB7, 0xCA, 0x51, 0x67, 0x45, 0xBF, 0xEA, 0xFC, 0x49, 0x90, 0x4B, 0x49, 0x60, 0x89]
    aesEnc (aesKeys key) block = out ∧ aesDec (aesKeys key) out = block := by decide +kernel
/-- IEEE 1619, vector 10: the first two blocks. -/
theorem test_xts : let bytes (n v : Nat) : List Byte := (leBytes n v).reverse
    let key := bytes 32 0x2718281828459045235360287471352662497757247093699959574966967627 ++
      bytes 32 0x3141592653589793238462643383279502884197169399375105820974944592
    xtsEnc (.ofNat 512 (leNat key)) 0xFF ((List.range 32).map (BitVec.ofNat 8)) =
      bytes 32 0x1C3B3A102F770386E4836C99E370CF9BEA00803F5E482357A4AE12D414A3E63B := by decide +kernel

/-! ### Stored blocks -/

theorem wit_plainIn : st.plainIn true 0x10400 64 ∧ st.plainIn false 0x10400 64 := ⟨.inl rfl, .inr (by decide)⟩
theorem wit_plainImage : st.plainImage [⟨0x10800, 192, false⟩] ∧ st.plainImage [⟨0x10800, 192, true⟩] ∧
    st.plainImage (pieceSpans [⟨⟨0x10800, 0, false, false⟩, 192⟩]) :=
  ⟨.inr (by decide), .inl (by decide), .inr (by decide)⟩
/-- The words of the worked example of 14_stacks.md: 32 of 0x3F800000, and word 5 changed to 0x3F800010. -/
def fillBlock : List Byte := (List.replicate 32 [0, 0, 0x80, 0x3F]).flatten
def mergedBlock : List Byte := fillBlock.take 20 ++ [0x10, 0, 0x80, 0x3F] ++ fillBlock.drop 24
theorem wit_StackEvents_blocks : fillBlock.length = 128 ∧ blocksOf 0x40094 4 = [0x801] ∧
    (let s := st.storeIn true 0x40080 fillBlock
    (lookupT s.stored 0x801).map List.length = some 128) := by decide +kernel
theorem test_codes : blockCode (List.replicate 128 0) = 1 ∧ blockCode (List.replicate 128 0xFF) = 2 ∧
    blockCode ((List.range 32).flatMap fun j => leBytes 4 (1000 + j)) = 4 ∧
    blockCode ((List.range 16).flatMap fun j => leBytes 8 (2 ^ 32 + 8 * j)) = 3 ∧
    blockCode ((List.range 32).flatMap fun j => leBytes 4 (5000 + 30 * j)) = 5 := by decide +kernel
/-- The merge of the worked example, as a page with CE = 0 sees it: bytes 00 00 80 3F, then zeros with byte 8 = 0x10. -/
theorem test_merge : let s := (st.storeIn true 0x40080 fillBlock).storeIn true 0x40094 [0x10, 0, 0x80, 0x3F]
    s.codeAt 0x801 = 4 ∧ s.bytesIn true 0x40080 128 = mergedBlock ∧
    s.bytesIn false 0x40080 64 = [0, 0, 0x80, 0x3F, 0, 0, 0, 0, 0x10] ++ List.replicate 55 0 := by decide +kernel
/-- A store through a page with CE = 0 into the sectors of a block under code 2. -/
theorem test_storeSlot : let s := (st.storeIn true 0x40080 fillBlock).storeIn false 0x40080 [5]
    s.bytesIn false 0x40080 4 = [5, 0, 0x80, 0x3F] ∧ s.bytesIn true 0x400FC 4 = [5, 0, 0x80, 0x3F] ∧
    s.codeAt 0x801 = 2 := by decide +kernel

end Sys2Proof.Tests
end

section
/-! The entries of tables, memory written and read back, what a write of WM by the scheduler may change, and the control
cores and regions by number. -/

namespace Sys2Proof.Machine

/-! ### Tables: the entry of a key -/

section
variable {α : Type}

@[simp] theorem lookupT_nil (k : Nat) : lookupT ([] : Table α) k = none := rfl

theorem lookupT_cons (p : Nat × α) (t : Table α) (k : Nat) :
    lookupT (p :: t) k = if p.1 = k then some p.2 else lookupT t k := by
  by_cases h : p.1 = k <;> simp [lookupT, h]

/-- A table has what was put last; every other key stands. -/
theorem lookupT_tins (t : Table α) (k k' : Nat) (v : α) :
    lookupT (tins t k v) k' = if k' = k then some v else lookupT t k' := by
  induction t with
  | nil => simp [tins, lookupT_cons, eq_comm]
  | cons p r ih =>
    simp only [tins]
    split
    case isTrue => simp only [lookupT_cons, eq_comm]
    case isFalse =>
      split
      case isTrue e =>
        have e : p.1 = k := by simpa using e
        by_cases h : k' = k
        · simp [lookupT_cons, h]
        · simp [lookupT_cons, e, h, Ne.symm h]
      case isFalse e =>
        have e : p.1 ≠ k := by simpa using e
        by_cases h : p.1 = k'
        · have : k' ≠ k := fun q => e (h.trans q)
          simp [lookupT_cons, h, this]
        · simp [lookupT_cons, h, ih]

/-- A change of one key's entry reaches that entry alone. -/
theorem lookupT_map_at (t : Table α) (k k' : Nat) (f : α → α) :
    lookupT (t.map fun p => if p.1 == k then (p.1, f p.2) else p) k' =
      if k' = k then (lookupT t k').map f else lookupT t k' := by
  induction t with
  | nil => simp
  | cons p r ih =>
    rw [List.map_cons, lookupT_cons, lookupT_cons, ih]
    by_cases e : p.1 = k
    · by_cases h : k = k' <;> simp [e, h]
    · by_cases h : p.1 = k'
      · have : k' ≠ k := fun q => e (h.trans q)
        simp [h, this]
      · simp [e, h]

/-- The entries whose keys a filter drops read as the default, the others stand. -/
theorem tget_filter_key (d : α) (t : Table α) (keep : Nat → Bool) (k : Nat) :
    tget d (t.filter fun p => keep p.1) k = if keep k then tget d t k else d := by
  induction t with
  | nil => simp [tget]
  | cons p r ih =>
    by_cases e : p.1 = k
    · cases hk : keep k <;> simp [tget, e, hk, ih]
    · cases hk : keep p.1 <;> simp [tget, e, hk, ih]

end

/-! ### Memory: zeroed ranges, and a number written and read back -/

theorem Memory.read_clear (m : List Host.Cell) (a n a' : Nat) :
    Memory.read (Memory.clear m a n) a' = if a ≤ a' ∧ a' < a + n then 0 else Memory.read m a' := by
  have h := tget_filter_key unlisted m (fun k => decide (k < a ∨ a + n ≤ k)) a'
  rw [Memory.read, Memory.clear, h]
  by_cases g : a ≤ a' ∧ a' < a + n
  · rw [if_pos g, if_neg (by simp; omega)]; rfl
  · rw [if_neg g, if_pos (by simp; omega)]; rfl

theorem Memory.readAll_writeAll (m : List Host.Cell) (a : Nat) (bs : List Byte) :
    Memory.readAll (Memory.writeAll m a bs) a bs.length = bs := by
  apply List.ext_getElem
  · simp [Memory.readAll]
  · intro i h1 h2
    have hi : a ≤ a + i ∧ a + i < a + bs.length := by omega
    simp [Memory.readAll, Memory.read_writeAll, h2]

/-- A number stored in n bytes reads back as far as they hold it. -/
theorem State.peek_storeBytes (s : State) (pa n v : Nat) :
    (s.storeBytes pa (leBytes n v)).peek pa n = v % 2 ^ (8 * n) := by
  have h := Memory.readAll_writeAll s.mem pa (leBytes n v)
  rw [leBytes_length] at h
  rw [State.peek, State.bytes, State.storeBytes_mem, h, leNat_leBytes]

/-! ### What a write through no page may change -/

/-- A write of WM that the scheduler makes changes memory with its poison and codes, and what the host holds of it. -/
def WritesMemory (s t : State) : Prop :=
  t = { s with mem := t.mem, poison := t.poison, codes := t.codes, metas := t.metas, stored := t.stored
               hostHeld := t.hostHeld, outbox := t.outbox }

theorem WritesMemory.refl (s : State) : WritesMemory s s := rfl

theorem WritesMemory.trans {s t u : State} (h : WritesMemory s t) (k : WritesMemory t u) : WritesMemory s u :=
  calc u = { t with mem := u.mem, poison := u.poison, codes := u.codes, metas := u.metas, stored := u.stored
                    hostHeld := u.hostHeld, outbox := u.outbox } := k
    _ = _ := congrArg (fun x : State => { x with
          mem := u.mem, poison := u.poison, codes := u.codes, metas := u.metas, stored := u.stored
          hostHeld := u.hostHeld, outbox := u.outbox }) h

theorem WritesMemory.foldl {β : Type} {f : State → β → State} (hf : ∀ s b, WritesMemory s (f s b)) (bs : List β) (s : State) :
    WritesMemory s (bs.foldl f s) := by
  induction bs generalizing s with
  | nil => exact .refl s
  | cons b r ih => exact (hf s b).trans (ih _)

theorem WritesMemory.cc {s t : State} (h : WritesMemory s t) : t.cc = s.cc := by unfold WritesMemory at h; rw [h]
theorem WritesMemory.others {s t : State} (h : WritesMemory s t) : t.others = s.others := by unfold WritesMemory at h; rw [h]
theorem WritesMemory.regions {s t : State} (h : WritesMemory s t) : t.regions = s.regions := by unfold WritesMemory at h; rw [h]

theorem State.snoopHost_writesMemory (s : State) (pa n : Nat) : WritesMemory s (s.snoopHost pa n) := by
  unfold State.snoopHost; dsimp only; split <;> rfl

theorem State.touchMeta_writesMemory (s : State) (k : Nat) : WritesMemory s (s.touchMeta k) := by
  unfold State.touchMeta; dsimp only; split <;> rfl

theorem State.putCode_writesMemory (s : State) (k : Nat) (c : BitVec 4) : WritesMemory s (s.putCode k c) :=
  (s.touchMeta_writesMemory k).trans rfl

theorem State.recode_writesMemory (old : Nat → List Byte) (s : State) (b : Nat) : WritesMemory s (State.recode old s b) :=
  (s.putCode_writesMemory _ _).trans rfl

theorem State.storeBytes_writesMemory (s : State) (pa : Nat) (bs : List Byte) : WritesMemory s (s.storeBytes pa bs) := by
  have h : WritesMemory s ((s.snoopHost pa bs.length).putBytes pa bs) := (s.snoopHost_writesMemory pa bs.length).trans rfl
  unfold State.storeBytes
  dsimp only
  split
  · exact h
  · exact h.trans (WritesMemory.foldl (State.recode_writesMemory _) _ _)

@[simp] theorem State.storeBytes_cc (s : State) (pa : Nat) (bs : List Byte) : (s.storeBytes pa bs).cc = s.cc :=
  (s.storeBytes_writesMemory pa bs).cc
@[simp] theorem State.storeBytes_others (s : State) (pa : Nat) (bs : List Byte) : (s.storeBytes pa bs).others = s.others :=
  (s.storeBytes_writesMemory pa bs).others
@[simp] theorem State.storeBytes_regions (s : State) (pa : Nat) (bs : List Byte) : (s.storeBytes pa bs).regions = s.regions :=
  (s.storeBytes_writesMemory pa bs).regions
@[simp] theorem State.storeBytes_regionAt (s : State) (pa : Nat) (bs : List Byte) (rcb : Nat) :
    (s.storeBytes pa bs).regionAt rcb = s.regionAt rcb := congrArg (lookupT · rcb) (s.storeBytes_regions pa bs)

/-! ### Regions by RCB -/

theorem State.regionAt_modRegion (s : State) (rcb : Nat) (f : Region → Region) :
    (s.modRegion rcb f).regionAt rcb = (s.regionAt rcb).map f :=
  (lookupT_map_at s.regions rcb rcb f).trans (if_pos rfl)

theorem State.regionAt_putRegion (s : State) (rcb : Nat) (r : Region) : (s.putRegion rcb r).regionAt rcb = some r :=
  (lookupT_tins s.regions rcb rcb r).trans (if_pos rfl)

@[simp] theorem State.checkRetire_cc (s : State) (rcb : Nat) : (s.checkRetire rcb).cc = s.cc := by
  unfold State.checkRetire; split <;> rfl
@[simp] theorem State.checkRetire_others (s : State) (rcb : Nat) : (s.checkRetire rcb).others = s.others := by
  unfold State.checkRetire; split <;> rfl
@[simp] theorem State.checkRetire_mem (s : State) (rcb : Nat) : (s.checkRetire rcb).mem = s.mem := by
  unfold State.checkRetire; split <;> rfl
@[simp] theorem State.checkRetire_regions (s : State) (rcb : Nat) : (s.checkRetire rcb).regions = s.regions := by
  unfold State.checkRetire; split <;> rfl

@[simp] theorem State.checkRetire_regionAt (s : State) (rcb pa : Nat) : (s.checkRetire rcb).regionAt pa = s.regionAt pa :=
  congrArg (lookupT · pa) (s.checkRetire_regions rcb)
@[simp] theorem State.checkRetire_peek (s : State) (rcb pa n : Nat) : (s.checkRetire rcb).peek pa n = s.peek pa n := by
  simp only [State.peek, State.bytes, State.checkRetire_mem]

/-! ### Control cores by number -/

theorem State.ccAt_congr {s t : State} (hc : t.cc = s.cc) (ho : t.others = s.others) (id : BitVec 10) :
    t.ccAt id = s.ccAt id := by simp only [State.ccAt, hc, ho]

@[simp] theorem State.storeBytes_ccAt (s : State) (pa : Nat) (bs : List Byte) (id : BitVec 10) :
    (s.storeBytes pa bs).ccAt id = s.ccAt id := State.ccAt_congr (s.storeBytes_cc pa bs) (s.storeBytes_others pa bs) id
@[simp] theorem State.checkRetire_ccAt (s : State) (rcb : Nat) (id : BitVec 10) : (s.checkRetire rcb).ccAt id = s.ccAt id :=
  State.ccAt_congr (s.checkRetire_cc rcb) (s.checkRetire_others rcb) id

@[simp] theorem State.modCcAt_regions (s : State) (id : BitVec 10) (f : ControlCore → ControlCore) :
    (s.modCcAt id f).regions = s.regions := by
  unfold State.modCcAt; split <;> rfl
@[simp] theorem State.modCcAt_mem (s : State) (id : BitVec 10) (f : ControlCore → ControlCore) :
    (s.modCcAt id f).mem = s.mem := by
  unfold State.modCcAt; split <;> rfl

/-- A change of a control core that leaves its number is what is read there. -/
theorem State.ccAt_modCcAt (s : State) (id : BitVec 10) (f : ControlCore → ControlCore) (hf : (f s.cc).ctxid = s.cc.ctxid) :
    (s.modCcAt id f).ccAt id = f (s.ccAt id) := by
  by_cases h : s.cc.ctxid = id
  · have e : (f s.cc).ctxid = id := hf.trans h
    simp [State.modCcAt, State.ccAt, h, e]
  · simp [State.modCcAt, State.ccAt, h, tget_tput]

end Sys2Proof.Machine
end

section
/-! The words that need supervisor level, the fetch, and the step that follows it. -/

namespace Sys2Proof.Machine

/-! ### Words that need supervisor level (R17, R88) -/

theorem wordOf_eq {i : Instr} {w : BitVec 32} (h : encode i = some w) : wordOf i = w.setWidth 64 := by
  simp [wordOf, h]

theorem needSupervisor_trap {s : State} {i : Instr} (h : s.cc.level = .user) :
    needSupervisor s i = .error (.trap s { cause := cIllegal, tval := wordOf i }) := by
  simp [needSupervisor, illegal, h]

/-- An instruction whose first check is that of the level: at user level, nothing of what follows it takes place. -/
theorem needSupervisor_bind_user {s : State} {i : Instr} {w : BitVec 32} (hw : encode i = some w)
    (hl : s.cc.level = .user) (f : Unit → Except Stop State) :
    (needSupervisor s i >>= f) = .error (.trap s { cause := 0x01, tval := w.setWidth 64 }) := by
  rw [needSupervisor_trap hl, wordOf_eq hw, except_bind_error]
  rfl

theorem finish_needSupervisor_user {s : State} {i : Instr} {w : BitVec 32} (hw : encode i = some w)
    (hl : s.cc.level = .user) (f : Unit → Except Stop State) :
    finish (needSupervisor s i >>= f) = .next (s.raise { cause := 0x01, tval := w.setWidth 64 }) := by
  rw [needSupervisor_bind_user hw hl, finish_trap]

theorem finish_precise_needSupervisor_user {s : State} {i : Instr} {w : BitVec 32} (hw : encode i = some w)
    (hl : s.cc.level = .user) (f : Unit → Except Stop State) :
    finish (precise s (needSupervisor s i >>= f)) = .next (s.raise { cause := 0x01, tval := w.setWidth 64 }) := by
  rw [needSupervisor_bind_user hw hl, precise_trap, finish_trap]

/-- Settles O25: each of the seven instructions checks the level before anything else; CMSEAL and CMOPEN do so inside
`precise`. -/
theorem privilegedAtUserLevel : Obligations.PrivilegedAtUserLevel := by
  unfold Obligations.PrivilegedAtUserLevel
  intro i s w hi hw hl
  unfold needsSupervisor at hi
  split at hi
  case h_1 | h_2 | h_3 | h_4 | h_5 => exact finish_needSupervisor_user hw hl _
  case h_6 | h_7 => exact finish_precise_needSupervisor_user hw hl _
  case h_8 => exact absurd hi Bool.false_ne_true

/-! ### The fetch (R3, R76, R128) -/

theorem State.fetch_misaligned {s : State} {pc : Word} (h : pc.toNat % 4 ≠ 0) :
    s.fetch pc = .error (.trap s { cause := cAlign, tval := pc }) := if_pos h

theorem State.loadPiece_raw {s : State} {x : Xlat} {n : Nat} {va : Word} (ht : x.ty = 0) (hc : x.ce = false)
    (hr : s.rawAt x.pa n = true) (hp : s.poisoned x.pa n = false) :
    s.loadPiece ⟨x, n⟩ va = .ok (s, s.bytes x.pa n) := by
  simp [State.loadPiece, State.loadPieceFor, ht, hc, hp, State.bytesIn_plain (.inr hr)]

theorem toNat_append_eq_mul_add {n m : Nat} (x : BitVec n) (y : BitVec m) :
    (x ++ y).toNat = x.toNat * 2 ^ m + y.toNat := by
  rw [BitVec.toNat_append, ← Nat.shiftLeft_add_eq_or_of_lt y.isLt, Nat.shiftLeft_eq]

/-- The 32-bit word of four bytes of memory, the lowest address in the lowest bits. -/
theorem ofNat_leNat_four (b0 b1 b2 b3 : Byte) : BitVec.ofNat 32 (leNat [b0, b1, b2, b3]) = b3 ++ b2 ++ b1 ++ b0 := by
  apply BitVec.eq_of_toNat_eq
  have h0 := b0.isLt
  have h1 := b1.isLt
  have h2 := b2.isLt
  have h3 := b3.isLt
  simp only [toNat_append_eq_mul_add, BitVec.toNat_ofNat, leNat]
  omega

theorem State.fetch_raw {s u : State} {pc : Word} {x : Xlat} (ha : pc.toNat % 4 = 0)
    (hx : s.translate ⟨.fetch, false, 4⟩ pc = .ok (u, x)) (ht : x.ty = 0) (hc : x.ce = false)
    (hr : u.rawAt x.pa 4 = true) (hp : u.poisoned x.pa 4 = false) :
    s.fetch pc = .ok (u.modCc fun c => { c with entering := false },
      Memory.read u.mem (x.pa + 3) ++ Memory.read u.mem (x.pa + 2) ++ Memory.read u.mem (x.pa + 1) ++ Memory.read u.mem x.pa) := by
  have hb : u.bytes x.pa 4 = [Memory.read u.mem x.pa, Memory.read u.mem (x.pa + 1), Memory.read u.mem (x.pa + 2),
    Memory.read u.mem (x.pa + 3)] := rfl
  simp [State.fetch, ha, hx, State.loadPiece_raw ht hc hr hp, hb, ofNat_leNat_four]

/-! ### The step of a control core that runs its next instruction -/

/-- With nothing on the agenda, nothing due and no work in the background, a running control core takes its next
instruction. -/
theorem State.act_runOne {s : State} (hag : s.agenda = []) (hdue : s.due (BitVec.ofNat 10 (s.draw.1 0)) = none)
    (hq : s.queryWaits = none) (hb : s.background = []) (hrun : s.cc.run = .running) (hf : s.cc.fencing = false)
    (hm : s.cc.macroOp = none) : s.act = s.runOne := by
  have hgo : s.goOn = s.runOne := by
    simp [State.goOn, hq, hb, State.move, ControlCore.runs, hrun, hf, hm]
  rw [← hgo, State.act, hag]
  simp only [hdue]

theorem step_of_act {s t : State} (h : s.act = .next t) : step s = .next t.after := by rw [step, h]

theorem State.runOne_fetch_trap {s u : State} {k : Trap} (h : s.fetch s.cc.pc = .error (.trap u k)) :
    s.runOne = .next (u.raise k) := by rw [State.runOne, h]

theorem State.runOne_no_instruction {s u : State} {w : BitVec 32} (h : s.fetch s.cc.pc = .ok (u, w))
    (hp : u.streamHeld = false ∨ pushedWord w = false) (hd : decode w = none) :
    s.runOne = .next (u.raise { cause := cIllegal, tval := w.setWidth 64 }) := by
  have hheld : (u.streamHeld && pushedWord w) = false := Bool.and_eq_false_iff.2 hp
  simp [State.runOne, h, hheld, hd, execNotAnInstruction]

/-- Settles O5: what a fetch reads and refuses, then the step that its outcome leads to. -/
theorem fetching : Obligations.Fetching := by
  unfold Obligations.Fetching
  refine ⟨fun s pc => ⟨State.fetch_misaligned, fun u x ha hx ht hc hr hp => State.fetch_raw ha hx ht hc hr hp⟩, ?_⟩
  intro s u w hag hdue hq hb hrun hf hm
  have hact : s.act = s.runOne := State.act_runOne hag hdue hq hb hrun hf hm
  refine ⟨fun k hk => ?_, fun hw hheld hd => ⟨?_, exec_notAnInstruction w u⟩⟩
  · exact step_of_act (hact.trans (State.runOne_fetch_trap hk))
  · exact step_of_act (hact.trans (State.runOne_no_instruction hw hheld hd))

end Sys2Proof.Machine
end

section
/-! The events of the region scheduler, each with its outcomes, and the starting state of a context. -/

namespace Sys2Proof.Machine

/-! ### Launch and check (R38, R39) -/

/-- The region that a launch records: the values of the launch, and the entry, launch word and save area of its RCB. -/
def State.launchedRegion (s : State) (rcb : Nat) (l : Launch) : Region :=
  { va := l.va, parent := none, service := l.service, entry := BitVec.ofNat 64 (s.peek (rcb + 0x18) 8)
    launch := BitVec.ofNat 64 (s.peek (rcb + 0x20) 8), saveArea := BitVec.ofNat 64 (s.peek (rcb + 0x40) 8)
    tvec := l.tvec, ptbase := l.ptbase, asid := l.asid, maxvl := l.maxvl, preempt := l.preempt }

theorem execRegionLaunch_outside {addr : BitVec 48} {rec : Launch} {s : State}
    (hw : inWm (addr.toNat / 256 * 256) 256 = false) : execRegionLaunch addr rec s = .fault .rcbOutsideWm := if_pos hw

theorem execRegionLaunch_accepts {addr : BitVec 48} {rec : Launch} {s : State}
    (hw : inWm (addr.toNat / 256 * 256) 256 = true) (hboot : s.trust.bootState = 2)
    (hnew : s.peek (addr.toNat / 256 * 256 + 0x48) 4 = 0) (hnone : s.regionAt (addr.toNat / 256 * 256) = none) :
    execRegionLaunch addr rec s =
      .next ((s.putRegion (addr.toNat / 256 * 256) (s.launchedRegion (addr.toNat / 256 * 256) (legalLaunch rec))).later
        (.rcbCheck (.ofNat 48 (addr.toNat / 256 * 256)))) := by
  simp [execRegionLaunch, hw, hboot, hnew, hnone, State.launchedRegion]

theorem execRcbCheck_passes {addr : BitVec 48} {s : State} {r : Region} (hr : s.regionAt addr.toNat = some r)
    (ha : r.state = .accepted)
    (hc : s.rcbChecks addr.toNat (s.rcbFields addr.toNat r (r.parent.bind s.regionAt)) (r.parent.bind s.regionAt) = .ok ()) :
    execRcbCheck addr s =
      let c := s.rcbFields addr.toNat r (r.parent.bind s.regionAt)
      .next ((s.modRegion addr.toNat fun _ =>
        { c with state := .ready, ctxs := List.replicate c.count .fresh, readyAt := s.clock }).storeBytes
          (addr.toNat + 0x48) (leBytes 4 1)) := by
  simp [execRcbCheck, hr, ha, hc]

theorem execRcbCheck_fails {addr : BitVec 48} {s : State} {r : Region} {cause : BitVec 8}
    (hr : s.regionAt addr.toNat = some r) (ha : r.state = .accepted)
    (hc : s.rcbChecks addr.toNat (s.rcbFields addr.toNat r (r.parent.bind s.regionAt)) (r.parent.bind s.regionAt) =
      .error cause) :
    execRcbCheck addr s =
      .next (s.failCheck addr.toNat (s.rcbFields addr.toNat r (r.parent.bind s.regionAt)).domain cause) := by
  simp [execRcbCheck, hr, ha, hc]

/-- A change of a recorded region with a new state word in its RCB: the region and the word are as set, and the control core
that moves is as it was. -/
theorem State.modRegion_stateWord {s : State} {rcb : Nat} {r : Region} (hr : s.regionAt rcb = some r) (f : Region → Region)
    (code : Nat) :
    let t := (s.modRegion rcb f).storeBytes (rcb + 0x48) (leBytes 4 code)
    t.cc = s.cc ∧ t.regionAt rcb = some (f r) ∧ t.peek (rcb + 0x48) 4 = code % 2 ^ 32 := by
  refine ⟨by simp, ?_, State.peek_storeBytes _ _ _ _⟩
  rw [State.storeBytes_regionAt, State.regionAt_modRegion, hr, Option.map_some]

/-! ### Placement (R42, R43) -/

theorem execRegionPlacement_saved {addr : BitVec 48} {first : BitVec 10} {s : State} {r : Region}
    (hr : s.regionAt addr.toNat = some r) (hs : r.state = .saved) :
    execRegionPlacement addr first s =
      .next ((s.modRegion addr.toNat fun q => { q with state := .ready, readyAt := s.clock }).storeBytes
        (addr.toNat + 0x48) (leBytes 4 1)) := by
  simp [execRegionPlacement, hr, hs]

theorem execRegionPlacement_fits {addr : BitVec 48} {first : BitVec 10} {s : State} {r : Region} {home : Option Nat}
    {seats : List Seat} (hr : s.regionAt addr.toNat = some r) (hs : r.state = .ready)
    (hb : s.before addr.toNat r true = false) (hp : s.plan addr.toNat r first [] = some (home, seats)) :
    execRegionPlacement addr first s = .next (s.place1 addr.toNat r home seats) := by
  simp [execRegionPlacement, hr, hs, hb, hp]

theorem execRegionPlacement_evicts {addr : BitVec 48} {first : BitVec 10} {s : State} {r : Region}
    (hr : s.regionAt addr.toNat = some r) (hs : r.state = .ready) (hb : s.before addr.toNat r true = false)
    (hp : s.plan addr.toNat r first [] = none) :
    execRegionPlacement addr first s = .next ((s.toEvict addr.toNat r first).foldl State.evict s) := by
  simp [execRegionPlacement, hr, hs, hb, hp]

/-! ### The placement of a region of one context that starts -/

theorem ControlCore.start_ctxid (c : ControlCore) (rcb : Nat) (r : Region) (p : Seat) : (c.start rcb r p).ctxid = c.ctxid := rfl

/-- A context that was not saved is not restored. -/
theorem State.restoreSeat_not_saved {rcb : Nat} {r : Region} {s : State} {p : Seat}
    (h : ∀ claim parts, r.ctxs[p.index]? ≠ some (.saved claim parts)) : State.restoreSeat rcb r s p = s := by
  unfold State.restoreSeat
  split
  case h_1 hs => exact absurd hs (h _ _)
  case h_2 => rfl

/-- The change of a region's record when it is placed whole. -/
def Region.place (home : Option Nat) (q : Region) : Region :=
  { q with state := .running, placed := true, home := home, evicting := false, pendTerm := [] }

/-- The placement of a region of one fresh context, with no barrier slot and no termination that waits. -/
theorem State.place1_single {s : State} {rcb : Nat} {r : Region} {home : Option Nat} {p : Seat} (hslots : r.slots = 0)
    (hctx : r.ctxs = [.fresh]) (hterm : r.pendTerm = []) :
    s.place1 rcb r home [p] = ((State.seatFresh rcb r (s.modRegion rcb (Region.place home)) p).storeBytes (rcb + 0x48)
      (leBytes 4 2)).checkRetire rcb := by
  have hphys : r.physSlots home = [] := by simp [Region.physSlots, hslots]
  have hfresh : ∀ claim parts, r.ctxs[p.index]? ≠ some (.saved claim parts) := by
    intro claim parts h
    have := List.mem_of_getElem? h
    simp [hctx] at this
  simp only [State.place1, hphys, hterm, List.foldl_nil, List.foldl_cons, State.restoreSeat_not_saved hfresh]
  rfl

section
variable (rcb : Nat) (r : Region) (s : State) (p : Seat)

/-- A seat that is taken: its control core is in the starting state. -/
theorem State.ccAt_seatFresh : (State.seatFresh rcb r s p).ccAt p.cc = (s.ccAt p.cc).start rcb r p := by
  unfold State.seatFresh
  dsimp only
  refine (State.ccAt_modCcAt _ p.cc (fun c => c.start rcb r p) rfl).trans (congrArg (ControlCore.start · rcb r p) ?_)
  refine State.ccAt_congr ?_ ?_ p.cc
  · split <;> rfl
  · split <;> rfl

/-- A seat that is taken: its context is marked as resident there. -/
theorem State.regionAt_seatFresh :
    (State.seatFresh rcb r s p).regionAt rcb =
      (s.regionAt rcb).map fun q => { q with ctxs := q.ctxs.set p.index (.resident p.cc) } := by
  unfold State.seatFresh
  dsimp only
  refine (State.regionAt_modRegion _ rcb _).trans (congrArg (Option.map _) (congrArg (lookupT · rcb) ?_))
  refine (State.modCcAt_regions _ _ _).trans ?_
  split <;> rfl

/-- A seat that is taken: its allotment is zeroed, and no other byte changes. -/
theorem State.seatFresh_mem :
    (State.seatFresh rcb r s p).mem = Memory.clear s.mem (spadAddr (coreOf p.cc) p.off) r.allot := by
  unfold State.seatFresh
  dsimp only
  refine congrArg (Memory.clear · _ _) ((State.modCcAt_mem _ _ _).trans ?_)
  split <;> rfl

end

section
variable {s : State} {rcb : Nat} {r : Region} {home : Option Nat} {p : Seat} (hslots : r.slots = 0)
  (hctx : r.ctxs = [.fresh]) (hterm : r.pendTerm = [])
include hslots hctx hterm

theorem State.place1_single_ccAt : (s.place1 rcb r home [p]).ccAt p.cc = (s.ccAt p.cc).start rcb r p := by
  rw [State.place1_single hslots hctx hterm, State.checkRetire_ccAt, State.storeBytes_ccAt, State.ccAt_seatFresh]
  rfl

/-- The region is RUNNING, and its context resident on the seat. -/
theorem State.place1_single_regionAt (hr : s.regionAt rcb = some r) :
    (s.place1 rcb r home [p]).regionAt rcb =
      some { r.place home with ctxs := r.ctxs.set p.index (.resident p.cc) } := by
  rw [State.place1_single hslots hctx hterm, State.checkRetire_regionAt, State.storeBytes_regionAt,
    State.regionAt_seatFresh, State.regionAt_modRegion, hr]
  rfl

theorem State.place1_single_stateWord : (s.place1 rcb r home [p]).peek (rcb + 0x48) 4 = 2 := by
  rw [State.place1_single hslots hctx hterm, State.checkRetire_peek, State.peek_storeBytes]
  rfl

/-- The allotment, which lies above the state word, is zero. -/
theorem State.place1_single_allotment (hoff : rcb + 0x4C ≤ spadAddr (coreOf p.cc) p.off) (a : Nat)
    (hlo : spadAddr (coreOf p.cc) p.off ≤ a) (hhi : a < spadAddr (coreOf p.cc) p.off + r.allot) :
    Memory.read (s.place1 rcb r home [p]).mem a = 0 := by
  have hword : ¬(rcb + 0x48 ≤ a ∧ a < rcb + 0x48 + (leBytes 4 2).length) := by rw [leBytes_length]; omega
  rw [State.place1_single hslots hctx hterm, State.checkRetire_mem, State.storeBytes_mem, Memory.read_writeAll,
    if_neg hword, State.seatFresh_mem, Memory.read_clear, if_pos ⟨hlo, hhi⟩]

end

/-! ### The starting state of a context (R44, R371) -/

/-- x3 to x6 are distinct, so that the order in which they are set does not matter. -/
theorem ControlCore.start_getX (c : ControlCore) (rcb : Nat) (r : Region) (p : Seat) (n : XReg) :
    (c.start rcb r p).getX n = if n = 3 then r.va else if n = 4 then r.launch else if n = 5 then .ofNat 64 p.index
      else if n = 6 then .ofNat 64 r.count else 0 := by
  have hset : (c.start rcb r p).getX n = (((({ c with x := Vector.replicate 32 0 } : ControlCore).setX 3 r.va).setX 4
    r.launch).setX 5 (.ofNat 64 p.index) |>.setX 6 (.ofNat 64 r.count)).getX n := rfl
  have hzero : ({ c with x := Vector.replicate 32 0 } : ControlCore).getX n = 0 := by simp [ControlCore.getX]
  rw [hset]
  simp only [ControlCore.getX_setX, hzero]
  grind

/-- TSTATUS at the start: VEN set, no loop open; PPRIV, which no rule gives, stands. -/
theorem ControlCore.start_tstatus (c : ControlCore) (rcb : Nat) (r : Region) (p : Seat) :
    (c.start rcb r p).ven = true ∧ (c.start rcb r p).loopAct = false ∧ (c.start rcb r p).loopI = false := by
  simp [ControlCore.ven, ControlCore.loopAct, ControlCore.loopI, ControlCore.start]

/-! ### Commands about a region (R329, R330) -/

theorem State.rsLive_none {s : State} {rcb : Nat} (h : s.regionAt rcb = none) : s.rsLive rcb = .error 1 := by
  simp [State.rsLive, h]

theorem State.rsLive_terminating {s : State} {rcb : Nat} {r : Region} (h : s.regionAt rcb = some r)
    (he : r.state.ended = false) (ht : r.terminating = true) : s.rsLive rcb = .error 3 := by
  simp [State.rsLive, h, he, ht]

theorem State.rsLive_ok {s : State} {rcb : Nat} {r : Region} (h : s.regionAt rcb = some r)
    (he : r.state.ended = false) (ht : r.terminating = false) : s.rsLive rcb = .ok r := by
  simp [State.rsLive, h, he, ht]

/-- The three commands answer the status that refuses them. -/
theorem rsCommands_refused {s : State} {addr : BitVec 48} {e : BitVec 16} (h : s.rsLive addr.toNat = .error e)
    (ctx : BitVec 16) :
    execRsTerminateRegion addr s = .next (s.rsDone e) ∧ execRsTerminateContext addr ctx s = .next (s.rsDone e) ∧
      execRsEvict addr s = .next (s.rsDone e) := by
  simp [execRsTerminateRegion, execRsTerminateContext, execRsEvict, h]

section
variable {s : State} {addr : BitVec 48} {r : Region} (h : s.rsLive addr.toNat = .ok r)
include h

theorem execRsTerminateRegion_running (hr : r.state = .running) :
    execRsTerminateRegion addr s = .next (((s.rsDone 0).modRegion addr.toNat fun q =>
      { q with terminating := true }).later (.terminationEnd addr)) := by
  simp [execRsTerminateRegion, h, hr]

theorem execRsTerminateRegion_waiting (hr : r.state ≠ .running) :
    execRsTerminateRegion addr s = .next (((s.rsDone 0).endChildren addr.toNat).finishRegion addr.toNat .terminated) := by
  simp [execRsTerminateRegion, h, hr]

theorem execRsEvict_live : execRsEvict addr s = .next ((s.rsDone 0).evict addr.toNat) := by
  simp [execRsEvict, h]

theorem execRsTerminateContext_outside {ctx : BitVec 16} (hn : s.regionCount addr.toNat r ≤ ctx.toNat) :
    execRsTerminateContext addr ctx s = .next (s.rsDone 2) := by
  simp [execRsTerminateContext, h, hn]

theorem execRsTerminateContext_waiting {ctx : BitVec 16} (hn : ctx.toNat < s.regionCount addr.toNat r)
    (hr : r.state ≠ .running) :
    execRsTerminateContext addr ctx s =
      .next ((s.rsDone 0).modRegion addr.toNat fun q => { q with pendTerm := q.pendTerm ++ [ctx.toNat] }) := by
  simp [execRsTerminateContext, h, Nat.not_le.2 hn, hr]

theorem execRsTerminateContext_resident {ctx : BitVec 16} {id : BitVec 10} (hn : ctx.toNat < s.regionCount addr.toNat r)
    (hr : r.state = .running) (hc : r.ctxs[ctx.toNat]? = some (.resident id)) :
    execRsTerminateContext addr ctx s =
      .next ((((s.rsDone 0).endContext id).checkSaved addr.toNat).checkRetire addr.toNat) := by
  simp [execRsTerminateContext, h, Nat.not_le.2 hn, hr, hc, State.terminateOne]

end

theorem execTerminationEnd_running {s : State} {addr : BitVec 48} {r : Region} (h : s.regionAt addr.toNat = some r)
    (hr : r.state = .running) (ht : r.terminating = true) :
    execTerminationEnd addr s =
      .next (((s.endChildren addr.toNat).endContexts addr.toNat).finishRegion addr.toNat .terminated) := by
  simp [execTerminationEnd, h, hr, ht]

theorem execRegionRetire_can {s : State} {addr : BitVec 48} (h : s.canRetire addr.toNat = true) :
    execRegionRetire addr s = .next ((s.releaseDie 0).finishRegion addr.toNat .done) := if_pos h

/-! ### Regions and contexts -/

/-- Settles O54: each event by its lemma above, in the order of the statement; the context that starts by `start_getX`. -/
theorem regionsAndContexts : Obligations.RegionsAndContexts := by
  unfold Obligations.RegionsAndContexts
  refine ⟨fun s addr => ⟨fun rec => ⟨execRegionLaunch_outside, ?launch⟩, fun r hr => ⟨?check, ?placement, ?termination, ?live⟩,
    ?single, ?terminating, execRegionRetire_can, ?unknown⟩, fun c rcb r p => ?start⟩
  case launch =>
    intro hw hboot hnew hnone
    exact ⟨_, _, execRegionLaunch_accepts hw hboot hnew hnone, rfl, rfl, State.regionAt_putRegion s _ _, rfl, rfl, rfl, rfl,
      rfl, rfl, rfl, rfl, rfl, rfl⟩
  case check =>
    intro ha
    refine ⟨fun hc => ?_, fun cause hc => execRcbCheck_fails hr ha hc⟩
    obtain ⟨hcc, hq, hword⟩ := State.modRegion_stateWord hr (fun _ =>
      { s.rcbFields addr.toNat r (r.parent.bind s.regionAt) with
        state := .ready, ctxs := List.replicate (s.rcbFields addr.toNat r (r.parent.bind s.regionAt)).count .fresh
        readyAt := s.clock }) 1
    exact ⟨_, _, execRcbCheck_passes hr ha hc, hcc, hq, rfl, rfl, hword⟩
  case placement =>
    intro first
    refine ⟨fun hs => ?_, fun hs hb => ⟨fun home seats => execRegionPlacement_fits hr hs hb,
      execRegionPlacement_evicts hr hs hb⟩⟩
    obtain ⟨hcc, hq, hword⟩ := State.modRegion_stateWord hr (fun q => { q with state := .ready, readyAt := s.clock }) 1
    exact ⟨_, _, execRegionPlacement_saved hr hs, hcc, hq, rfl, hword⟩
  case termination => exact execTerminationEnd_running hr
  case live =>
    intro he ht
    have hl : s.rsLive addr.toNat = .ok r := State.rsLive_ok hr he ht
    exact ⟨execRsTerminateRegion_running hl, execRsTerminateRegion_waiting hl, execRsEvict_live hl, fun ctx =>
      ⟨execRsTerminateContext_outside hl, execRsTerminateContext_waiting hl, fun id => execRsTerminateContext_resident hl⟩⟩
  case single =>
    intro r first p home hr hs hb hp hslots hctx hterm hoff
    exact ⟨_, _, execRegionPlacement_fits hr hs hb hp, State.place1_single_ccAt hslots hctx hterm,
      State.place1_single_regionAt hslots hctx hterm hr, rfl, rfl, fun h0 => by simp [h0, hctx],
      State.place1_single_stateWord hslots hctx hterm, State.place1_single_allotment hslots hctx hterm hoff⟩
  case terminating =>
    intro r ctx hr he ht
    exact rsCommands_refused (State.rsLive_terminating hr he ht) ctx
  case unknown => exact fun hnone => rsCommands_refused (State.rsLive_none hnone)
  case start =>
    obtain ⟨hven, hact, hloopi⟩ := c.start_tstatus rcb r p
    exact ⟨c.start_getX rcb r p, fun k => by simp [ControlCore.start], fun k => by simp [ControlCore.start], rfl, rfl, hven,
      hact, hloopi, rfl, rfl, rfl, rfl, rfl, rfl, rfl, rfl, rfl, rfl, rfl, rfl, rfl, rfl⟩

end Sys2Proof.Machine
end

section
/-! The values at reset. -/

namespace Sys2Proof.Machine

/-- No tile register of the reset state is configured. -/
theorem State.reset_getT (k : TReg) : State.reset.getT k = {} := by
  simp [State.getT, State.reset, ControlCore.reset]

/-- Nothing is written in the memory of the reset state. -/
theorem State.reset_read (a : Nat) : Memory.read State.reset.mem a = 0 := rfl

/-- Settles O6: registers and counters as the reset state lists them; the tiles and memory by the two lemmas above. -/
theorem resetValues : Obligations.ResetValues := by
  unfold Obligations.ResetValues
  refine ⟨rfl, rfl, rfl, rfl, fun k => ?_, rfl, rfl, rfl, rfl, rfl, rfl, rfl, rfl, rfl, rfl, rfl, rfl, rfl, rfl, rfl, rfl, rfl,
    rfl, rfl, rfl, rfl, rfl, rfl, rfl, rfl, rfl, rfl, rfl, rfl, rfl, rfl, rfl, rfl, rfl, State.reset_read⟩
  rw [State.reset_getT k]
  exact ⟨rfl, rfl⟩

end Sys2Proof.Machine
end

section
/-! The host's accesses, the interrupts that it masks, resets, and the debug port. -/

namespace Sys2Proof.Machine

/-! ### Errors and interrupts (R340, R385) -/

@[simp] theorem State.raiseMsix_cc (s : State) (v : Nat) : (s.raiseMsix v).cc = s.cc := by
  unfold State.raiseMsix; split <;> [rfl; split <;> rfl]
@[simp] theorem State.raiseMsix_mem (s : State) (v : Nat) : (s.raiseMsix v).mem = s.mem := by
  unfold State.raiseMsix; split <;> [rfl; split <;> rfl]

@[simp] theorem State.countError_cc (s : State) (j : Fin 9) (k : Nat) : (s.countError j k).cc = s.cc := by
  unfold State.countError; dsimp only; split <;> simp
@[simp] theorem State.countError_mem (s : State) (j : Fin 9) (k : Nat) : (s.countError j k).mem = s.mem := by
  unfold State.countError; dsimp only; split <;> simp

/-- Of the numbers below n, those that satisfy a property of one of them alone. -/
theorem range_filter_single {n v : Nat} {p : Nat → Bool} (hv : v < n) (h : ∀ k < n, p k = true ↔ k = v) :
    (List.range n).filter p = [v] := by
  have hp : (List.range n).filter p = (List.range n).filter (· == v) :=
    List.filter_congr fun k hk => Bool.eq_iff_iff.2 ((h k (List.mem_range.1 hk)).trans (beq_iff_eq).symm)
  rw [hp, List.filter_beq, List.count_eq_one_of_mem List.nodup_range (List.mem_range.2 hv), List.replicate_one]

theorem range_filter_nil {n : Nat} {p : Nat → Bool} (h : ∀ k < n, p k = false) : (List.range n).filter p = [] :=
  List.filter_eq_nil_iff.2 fun k hk => by simp [h k (List.mem_range.1 hk)]

/-- The vectors that are masked once the mask of one is taken away. -/
theorem getLsbD_unmask (m : BitVec 64) (v : BitVec 6) {k : Nat} (hk : k < 64) :
    (m &&& ~~~(1#64 <<< v.toNat)).getLsbD k = (m.getLsbD k && decide (k ≠ v.toNat)) := by
  by_cases h : k = v.toNat
  · simp [h]
  · have : ¬(v.toNat ≤ k ∧ k - v.toNat = 0) := by omega
    simp [h, hk]
    omega

theorem getLsbD_mask (m : BitVec 64) (v : BitVec 6) : (m ||| (1#64 <<< v.toNat)).getLsbD v.toNat = true := by
  have hv : v.toNat < 64 := v.isLt
  simp [hv]

section
variable {s : State} {v : BitVec 6} (hfn : s.msix.fnMask = false)
  (hothers : ∀ k < 64, k ≠ v.toNat → s.msix.pending.getLsbD k = true → s.msix.masked.getLsbD k = true)
include hfn hothers

/-- A pending vector that is masked no longer is sent, and pends no longer. -/
theorem execMsixUnmask_pending (hp : s.msix.pending.getLsbD v.toNat = true) :
    ∃ t, execMsixUnmask (.unmask v) s = .next t ∧ t.mem = s.mem ∧ t.cc = s.cc ∧
      t.outbox = s.outbox ++ [.msix v.toNat] ∧ t.msix.pending.getLsbD v.toNat = false ∧
      t.msix.masked.getLsbD v.toNat = false := by
  have hout : (List.range 64).filter (fun n => s.msix.pending.getLsbD n &&
      !(s.msix.masked &&& ~~~(1#64 <<< v.toNat)).getLsbD n) = [v.toNat] := by
    refine range_filter_single v.isLt fun k hk => ?_
    rw [getLsbD_unmask _ _ hk]
    by_cases hkv : k = v.toNat
    · simp [hkv, hp]
    · cases hpk : s.msix.pending.getLsbD k
      · simp [hkv]
      · simp [hkv, hothers k hk hkv hpk]
  refine ⟨_, congrArg Host.Outcome.next (if_neg (by simp [hfn])), rfl, rfl, ?_, ?_, ?_⟩
  · dsimp only
    rw [hout]
    rfl
  · simp
  · simp

/-- Nothing is sent for a vector that was not pending. -/
theorem execMsixUnmask_not_pending (hp : s.msix.pending.getLsbD v.toNat = false) :
    ∃ t, execMsixUnmask (.unmask v) s = .next t ∧ t.mem = s.mem ∧ t.cc = s.cc ∧ t.outbox = s.outbox ∧
      t.msix.masked.getLsbD v.toNat = false := by
  have hout : (List.range 64).filter (fun n => s.msix.pending.getLsbD n &&
      !(s.msix.masked &&& ~~~(1#64 <<< v.toNat)).getLsbD n) = [] := by
    refine range_filter_nil fun k hk => ?_
    rw [getLsbD_unmask _ _ hk]
    by_cases hkv : k = v.toNat
    · simp [hkv, hp]
    · cases hpk : s.msix.pending.getLsbD k
      · simp
      · simp [hkv, hothers k hk hkv hpk]
  refine ⟨_, congrArg Host.Outcome.next (if_neg (by simp [hfn])), rfl, rfl, ?_, ?_⟩
  · dsimp only
    rw [hout]
    exact List.append_nil _
  · simp

end

theorem execMsixUnmask_function_off (s : State) :
    ∃ t, execMsixUnmask (.function false) s = .next t ∧ t.mem = s.mem ∧ t.cc = s.cc ∧ t.msix.fnMask = false ∧
      ∀ k < 64, t.msix.pending.getLsbD k = (s.msix.pending.getLsbD k && s.msix.masked.getLsbD k) :=
  ⟨_, rfl, rfl, rfl, rfl, fun _ _ => BitVec.getLsbD_and ..⟩

/-! ### The host's accesses to memory (R384, R386) -/

theorem State.bytes_storeBytes (s : State) (pa : Nat) (bs : List Byte) : (s.storeBytes pa bs).bytes pa bs.length = bs := by
  rw [State.bytes, State.storeBytes_mem, Memory.readAll_writeAll]

/-- A byte outside the bytes that are written stands. -/
theorem Memory.read_writeAll_outside (m : List Host.Cell) {a p : Nat} {bs : List Byte} (h : p < a ∨ a + bs.length ≤ p) :
    Memory.read (Memory.writeAll m a bs) p = Memory.read m p := by
  rw [Memory.read_writeAll, if_neg (by omega)]

section
variable {s : State} (hboot : s.trust.bootState = 2)
include hboot

theorem execHostMemRead_inWm {off : BitVec 48} {n : BitVec 8} (hw : inWm off.toNat n.toNat = true) :
    ∃ t, execHostMemRead off n s = .next t ∧ t.mem = s.mem ∧ t.cc = s.cc ∧
      t.outbox = s.outbox ++ [.hostData (if s.poisoned off.toNat n.toNat then none else some (s.bytes off.toNat n.toNat))] := by
  exact ⟨_, (if_neg (not_not.2 hboot)).trans (if_neg (by simp [hw])), rfl, rfl, rfl⟩

theorem execHostMemRead_outside {off : BitVec 48} {n : BitVec 8} (hw : inWm off.toNat n.toNat = false) :
    ∃ t, execHostMemRead off n s = .next t ∧ t.mem = s.mem ∧ t.cc = s.cc ∧ t.errors = (s.countError 1 1).errors ∧
      t.outbox = (s.countError 1 1).outbox ++ [.hostData none] := by
  exact ⟨_, (if_neg (not_not.2 hboot)).trans (if_pos hw), s.countError_mem 1 1, s.countError_cc 1 1, rfl, rfl⟩

theorem execHostMemWrite_inWm {off : BitVec 48} {data : List Byte} (hw : inWm off.toNat data.length = true) :
    ∃ t, execHostMemWrite off data s = .next t ∧ t.cc = s.cc ∧ t.bytes off.toNat data.length = data ∧
      ∀ p, (p < off.toNat ∨ off.toNat + data.length ≤ p) → Memory.read t.mem p = Memory.read s.mem p := by
  refine ⟨_, (if_neg (not_not.2 hboot)).trans (if_neg (by simp [hw])), State.storeBytes_cc .., State.bytes_storeBytes ..,
    fun p hp => ?_⟩
  dsimp only
  rw [State.storeBytes_mem, Memory.read_writeAll_outside _ hp]

theorem execHostMemWrite_outside {off : BitVec 48} {data : List Byte} (hw : inWm off.toNat data.length = false) :
    execHostMemWrite off data s = .next (s.countError 1 1) := by
  simp [execHostMemWrite, hboot, hw]

end

/-! ### Snoops of the host's lines (R358, R386) -/

@[simp] theorem State.storeBytes_dies (s : State) (pa : Nat) (bs : List Byte) : (s.storeBytes pa bs).dies = s.dies := by
  have h := s.storeBytes_writesMemory pa bs
  unfold WritesMemory at h
  rw [h]

/-- Every one of the four dies has given up a line. -/
def State.giveUpAll (s : State) (l : Nat) : State :=
  (List.range 4).foldl (fun (u : State) k => u.modDie k fun d => d.giveUp l) s

theorem execCxlSnoop_write (die : BitVec 2) (line : BitVec 48) (bs : List Byte) (s : State)
    (h : hostBase ≤ line.toNat / 64 * 64) :
    execCxlSnoop die ⟨line, some bs⟩ s =
      .next ((s.giveUpAll (line.toNat / 64)).storeBytes (line.toNat / 64 * 64) (bs.take 64)) := by
  simp only [execCxlSnoop, h, if_true, State.giveUpAll]

theorem State.dieAt_modDie (s : State) (n k : Nat) (f : Die → Die) :
    (s.modDie n f).dieAt k = if k = n then f (s.dieAt n) else s.dieAt k := tget_tput ({} : Die) s.dies n k _

theorem State.giveUpAll_eq (s : State) (l : Nat) :
    s.giveUpAll l = (((s.modDie 0 fun d => d.giveUp l).modDie 1 fun d => d.giveUp l).modDie 2 fun d => d.giveUp l).modDie 3
      fun d => d.giveUp l := by
  have hrange : List.range 4 = [0, 1, 2, 3] := rfl
  simp only [State.giveUpAll, hrange, List.foldl_cons, List.foldl_nil]

theorem State.giveUpAll_cc (s : State) (l : Nat) : (s.giveUpAll l).cc = s.cc := by
  simp only [State.giveUpAll_eq, State.modDie_cc]
theorem State.giveUpAll_mem (s : State) (l : Nat) : (s.giveUpAll l).mem = s.mem := by
  simp only [State.giveUpAll_eq, State.modDie_mem]

theorem State.giveUpAll_dieAt (s : State) (l : Nat) {d : Nat} (hd : d < 4) :
    (s.giveUpAll l).dieAt d = (s.dieAt d).giveUp l := by
  simp only [State.giveUpAll_eq, State.dieAt_modDie]
  interval_cases d <;> simp

theorem Die.not_mem_giveUp (d : Die) (l : Nat) : l ∉ (d.giveUp l).lines := by simp [Die.giveUp]

/-! ### Resets, the lifecycle, and the host's registers (R33, R384, R398, R403) -/

theorem Trust.portReset_running {t : Trust} (h : t.bootState ≠ 3) : t.portReset = t.fuses := if_neg h

theorem Trust.portReset_failed {t : Trust} (h : t.bootState = 3) :
    t.portReset = { t.fuses with bootState := 3, bootCode := t.bootCode, bootSvn := t.bootSvn } := if_pos h

theorem Trust.portReset_lcs (t : Trust) : t.portReset.lcs = t.lcs := by
  unfold Trust.portReset; split <;> rfl

theorem execLifecycleAdvance_max (lcs : BitVec 2) (s : State) :
    ∃ t, execLifecycleAdvance lcs s = .next t ∧ t.mem = s.mem ∧ t.cc = s.cc ∧
      t.trust.lcs.toNat = max s.trust.lcs.toNat lcs.toNat := by
  refine ⟨_, rfl, ?_⟩
  by_cases h : s.trust.lcs.toNat < lcs.toNat
  · rw [if_pos (BitVec.ult_iff_lt.2 h)]
    exact ⟨rfl, rfl, (max_eq_right h.le).symm⟩
  · rw [if_neg fun g => h (BitVec.ult_iff_lt.1 g)]
    exact ⟨rfl, rfl, (max_eq_left (not_lt.1 h)).symm⟩

/-- An access of a size that the register window serves, naturally aligned. -/
theorem hostAccessOk_iff (off : BitVec 64) (size : BitVec 4) :
    hostAccessOk off.toNat size.toNat = true ↔ (size = 4 ∨ size = 8) ∧ off.toNat % size.toNat = 0 := by
  have h4 : size.toNat = 4 ↔ size = 4 := ⟨fun h => BitVec.eq_of_toNat_eq h, fun h => congrArg BitVec.toNat h⟩
  have h8 : size.toNat = 8 ↔ size = 8 := ⟨fun h => BitVec.eq_of_toNat_eq h, fun h => congrArg BitVec.toNat h⟩
  simp [hostAccessOk, h4, h8]

theorem State.hostReaches_iff (s : State) (off : Nat) :
    s.hostReaches off = true ↔ s.trust.bootState = 2 ∨ 0x90000 ≤ off ∧ off < 0x90200 := by
  simp [State.hostReaches, earlyReg]

/-! ### The debug port, at the control core that moves (R252, R380 to R382) -/

@[simp] theorem State.ccAt_self (s : State) : s.ccAt s.cc.ctxid = s.cc := if_pos rfl

/-- What is done on behalf of the control core that moves is done there. -/
theorem State.onCc_self {s : State} {f : State → State} (hf : (f s).cc.ctxid = s.cc.ctxid) :
    s.onCc s.cc.ctxid f = f s := by
  have hs : s.focus s.cc.ctxid = s := if_pos rfl
  rw [State.onCc, hs]
  exact if_pos hf

theorem ControlCore.halt_idle {c : ControlCore} (h : c.macroOp = none) :
    c.halt = { c with run := .halted, miss := none, held := [], leaving := false, halting := false } := by
  unfold ControlCore.halt
  simp only [h]

/-- The end of a stepped operation changes what the core has outstanding and nothing else. -/
theorem ControlCore.endMacro_only (c : ControlCore) : c.endMacro = { c with out := c.endMacro.out, stores := c.endMacro.stores } := by
  unfold ControlCore.endMacro ControlCore.decOut
  dsimp only
  split
  · rfl
  · split <;> rfl

theorem ControlCore.halt_macroOp {c : ControlCore} {op : MacroOp} {m : Nat} (h : c.macroOp = some (op, m)) :
    ∃ out stores, c.halt = { c with run := .halted, miss := none, held := [], leaving := false, halting := false
                                    macroOp := none, tstep := .ofNat 32 m, out := out, stores := stores } := by
  unfold ControlCore.halt
  simp only [h]
  rw [ControlCore.endMacro_only]
  exact ⟨_, _, rfl⟩

theorem ControlCore.halt_ctxid (c : ControlCore) : c.halt.ctxid = c.ctxid := by
  cases h : c.macroOp with
  | none => rw [ControlCore.halt_idle h]
  | some p =>
    obtain ⟨op, m⟩ := p
    obtain ⟨out, stores, e⟩ := ControlCore.halt_macroOp h
    rw [e]

/-- A running context that a debugger halts: what it is made to be, and memory as it was. -/
theorem execDebugHalt_running {s : State} (hmay : s.debugMay 0 = true) (hrun : s.cc.run = .running)
    (hreads : s.readsDevice s.cc.ctxid = false) :
    ∃ t, execDebugHalt s.cc.ctxid s = .next t ∧ t.mem = s.mem ∧ t.cc = s.cc.halt := by
  have hself := State.onCc_self (s := s)
    (f := fun u => (u.unwait.modCc ControlCore.halt).leaveReads fun r => r.cc == s.cc.ctxid && r.token == 0) s.cc.halt_ctxid
  have hgo : ¬(s.debugMay 0 = false ∨ (s.ccAt s.cc.ctxid).run = .absent ∨ (s.ccAt s.cc.ctxid).run = .halted) := by
    simp [hmay, hrun]
  exact ⟨_, (if_neg hgo).trans ((if_neg (by simp [hreads])).trans (congrArg Host.Outcome.next hself)), rfl, rfl⟩

theorem execDebugHalt_reads {s : State} (hmay : s.debugMay 0 = true) (hrun : s.cc.run = .running)
    (hreads : s.readsDevice s.cc.ctxid = true) :
    execDebugHalt s.cc.ctxid s = .next { s with cc := { s.cc with halting := true } } := by
  simp [execDebugHalt, hmay, hrun, hreads, State.modCcAt]

theorem execDebugHalt_closed {s : State} (h : s.debugMay 0 = false) (cc : BitVec 10) : execDebugHalt cc s = .next s := by
  simp [execDebugHalt, h]

theorem execDebugResume_closed {s : State} (h : s.debugMay 0 = false) (cc : BitVec 10) : execDebugResume cc s = .next s := by
  simp [execDebugResume, h]

theorem execDebugRegisterWrite_closed {s : State} (h : s.debugMay 0 = false) (cc : BitVec 10) (w : DebugWrite) :
    execDebugRegisterWrite cc w s = .next s := by
  simp [execDebugRegisterWrite, h]

theorem State.csrPut_ctxid (s : State) (n : BitVec 12) (v : Word) : (s.csrPut n v).cc.ctxid = s.cc.ctxid := by
  unfold State.csrPut
  dsimp only
  split <;> rfl

theorem State.debugPut_ctxid (s : State) (w : DebugWrite) : (s.debugPut w).cc.ctxid = s.cc.ctxid := by
  unfold State.debugPut
  split
  · exact ControlCore.setX_ctxid ..
  · split <;> [split <;> rfl; rfl]
  · split <;> rfl
  · split <;> [exact State.csrPut_ctxid ..; rfl]
  · rfl

section
variable {s : State} (hmay : s.debugMay 0 = true) (hrun : s.cc.run = .halted)
include hmay hrun

theorem execDebugRegisterWrite_halted (w : DebugWrite) : execDebugRegisterWrite s.cc.ctxid w s = .next (s.debugPut w) := by
  have hself := State.onCc_self (s := s) (f := fun u => u.debugPut w) (s.debugPut_ctxid w)
  simp [execDebugRegisterWrite, hmay, hrun, hself]

theorem execDebugResume_halted :
    execDebugResume s.cc.ctxid s = .next { s with cc := { s.cc with run := .running } } := by
  simp [execDebugResume, hmay, hrun, State.modCcAt]

end

theorem State.debugPut_reserved_tag (s : State) (n : VReg) (data : BitVec 8192) (side : BitVec 1024) {tag : Tag}
    (h : 0x14 ≤ tag.toNat) : s.debugPut (.v n data side tag) = s := by
  simp [State.debugPut, h]

/-- A debugger's write of a vector register reaches it alone. -/
theorem State.debugPut_v {s : State} {n : VReg} (hn : n.toNat < 48) (data : BitVec 8192) (side : BitVec 1024) {tag : Tag}
    (h : tag.toNat < 0x14) :
    let t := s.debugPut (.v n data side tag)
    t.getV n = ⟨data, side, tag⟩ ∧ (∀ k, k ≠ n → t.getV k = s.getV k) ∧ t.cc.x = s.cc.x ∧ t.cc.m = s.cc.m ∧ t.mem = s.mem := by
  have hput : s.debugPut (.v n data side tag) = s.modCc fun c =>
      { c with v := c.v.set n.toNat ⟨data, side, tag⟩, vdirty := c.vdirty ||| (1#48 <<< n.toNat) } := by
    simp [State.debugPut, hn, Nat.not_le.2 h]
  have hk : ∀ k, k ≠ n → n.toNat ≠ k.toNat := fun k h e => h (BitVec.eq_of_toNat_eq e.symm)
  rw [hput]
  refine ⟨by simp [State.getV, State.modCc, hn], fun k h => ?_, rfl, rfl, rfl⟩
  simp [State.getV, State.modCc, hk k h]

theorem execDebugCmRead_open {s : State} {addr : BitVec 48} (hmay : s.debugMay 1 = true)
    (hcm : inCm s.variant (addr.toNat / 32 * 32) = true) :
    execDebugCmRead addr s = .next { s with outbox := s.outbox ++
      [.debugData (if s.poisoned (addr.toNat / 32 * 32) 32 then none else some (s.cipher (addr.toNat / 32 * 32)))] } := by
  simp [execDebugCmRead, hmay, hcm]

/-! ### The host and the debugger -/

/-- Settles O60: each event by its lemma above, in the order of the statement. -/
theorem hostAndDebug : Obligations.HostAndDebug := by
  unfold Obligations.HostAndDebug
  refine ⟨fun s => ⟨fun off n hboot => ⟨execHostMemRead_inWm hboot, execHostMemRead_outside hboot⟩,
    fun off data hboot => ⟨execHostMemWrite_inWm hboot, execHostMemWrite_outside hboot⟩,
    fun hboot => ⟨fun off n => if_pos hboot, fun off data => if_pos hboot⟩, fun die line => ⟨?giveUp, fun data hl => ?hostWrites⟩,
    fun v => ⟨fun hfn h => ⟨execMsixUnmask_pending hfn h, execMsixUnmask_not_pending hfn h⟩,
      _, rfl, rfl, rfl, rfl, getLsbD_mask _ v, rfl⟩,
    rfl, execMsixUnmask_function_off s, ⟨_, rfl, rfl, rfl, rfl, rfl, rfl, rfl, rfl, rfl⟩,
    ⟨_, rfl, rfl, rfl, rfl, rfl, s.trust.portReset_lcs, fun h => ?running, fun h => ?failed⟩,
    fun lcs => execLifecycleAdvance_max lcs s, fun off size v => ?registers⟩,
    fun s => ⟨fun hmay => ⟨execDebugHalt_closed hmay _, execDebugResume_closed hmay _, execDebugRegisterWrite_closed hmay _⟩,
    fun hmay => ⟨fun hrun hreads => ⟨fun hm => ?halts, fun op m hm => ?haltsMacro⟩, execDebugHalt_reads hmay,
      fun hrun => ?halted⟩, fun addr => ⟨execDebugCmRead_open, fun hmay => if_pos (.inl hmay)⟩⟩⟩
  case giveUp =>
    refine ⟨_, rfl, rfl, rfl, ?_⟩
    rw [State.dieAt_modDie, if_pos rfl]
    rfl
  case hostWrites =>
    refine ⟨_, execCxlSnoop_write die line data s hl, ?_, State.bytes_storeBytes .., fun p hp => ?_, fun d hd => ?_⟩
    · rw [State.storeBytes_cc, State.giveUpAll_cc]
    · rw [State.storeBytes_mem, State.giveUpAll_mem, Memory.read_writeAll_outside _ hp]
    · have hdie : tget {} (s.giveUpAll (line.toNat / 64)).dies d = (s.dieAt d).giveUp (line.toNat / 64) :=
        s.giveUpAll_dieAt _ hd
      rw [State.dieAt, State.storeBytes_dies, hdie]
      exact Die.not_mem_giveUp _ _
  case running => exact congrArg Trust.bootState (Trust.portReset_running h)
  case failed => exact ⟨congrArg (·.bootState) (Trust.portReset_failed h), congrArg (·.bootCode) (Trust.portReset_failed h)⟩
  case registers =>
    intro good early
    refine ⟨fun hg hr => ?_, fun hg hb he => ?_, fun hg => ?_⟩
    · have hok := (hostAccessOk_iff off size).2 hg
      have hreach := (s.hostReaches_iff off.toNat).2 hr
      simp [execRegisterWrite, State.hostWrite, State.hostRead, hok, hreach]
    · have hok := (hostAccessOk_iff off size).2 hg
      have hreach : s.hostReaches off.toNat = false := by
        rw [← Bool.not_eq_true, s.hostReaches_iff]
        exact not_or.2 ⟨hb, he⟩
      simp [execRegisterWrite, State.hostWrite, State.hostRead, hok, hreach]
    · have hok : hostAccessOk off.toNat size.toNat = false := by
        rw [← Bool.not_eq_true, hostAccessOk_iff]
        exact hg
      simp [execRegisterWrite, State.hostWrite, State.hostRead, hok]
  case halts =>
    obtain ⟨t, ht, hmem, hcc⟩ := execDebugHalt_running hmay hrun hreads
    exact ⟨t, ht, hmem, hcc.trans (ControlCore.halt_idle hm)⟩
  case haltsMacro =>
    obtain ⟨t, ht, hmem, hcc⟩ := execDebugHalt_running hmay hrun hreads
    obtain ⟨out, stores, hhalt⟩ := ControlCore.halt_macroOp hm
    rw [hhalt] at hcc
    exact ⟨t, ht, hmem, by rw [hcc], by rw [hcc], by rw [hcc], by rw [hcc], by rw [hcc], by rw [hcc]⟩
  case halted =>
    have hwrite : ∀ w, exec (.debugRegisterWrite s.cc.ctxid w) s = .next (s.debugPut w) :=
      execDebugRegisterWrite_halted hmay hrun
    refine ⟨execDebugResume_halted hmay hrun, fun n v => hwrite _, fun n data side tag hn => ⟨fun ht => ?_, fun ht => ?_⟩,
      fun n v hn hv => ?_, fun n v hv => ?_⟩
    · rw [hwrite, State.debugPut_reserved_tag s n data side ht]
    · exact ⟨_, hwrite _, State.debugPut_v hn data side ht⟩
    · rw [hwrite]
      simp [State.debugPut, hn, hv]
    · rw [hwrite]
      simp [State.debugPut, hv]

end Sys2Proof.Machine
end

section
/-! Accesses of WM that a TLB entry serves: their translation, their pieces, and what a load reads through them. -/

namespace Sys2Proof.Machine

/-! ### Translation by an entry with its bits set (R209, R211) -/

theorem pteStale_false {e : BitVec 64} {w : Bool} (ha : pteA e = true) (hd : w = true → pteD e = true) :
    pteStale e w = false := by
  cases w <;> simp [pteStale, ha, hd]

/-- An access that the TLB serves is translated with no effect. -/
theorem State.translate_served {s : State} {a : Access} {va : Word} {x : Xlat} (h : s.served a va = some x) :
    s.translate a va = .ok (s, x) := by
  unfold State.served at h
  split at h
  · exact absurd h nofun
  next e he =>
  split at h
  · exact absurd h nofun
  next y hy =>
  split at h
  · next hc =>
    obtain ⟨ha, hd, hi⟩ := hc
    obtain rfl : y = x := Option.some.inj h
    have hit : s.translateHit a va e = some (.ok (s, y)) := by
      simp [State.translateHit, hy, pteStale_false ha hd]
    have hgo : (y.ic && a.kind != .fetch && s.icPending) = false := by
      cases hic : y.ic
      · rfl
      · by_cases hk : a.kind = .fetch
        · simp [hk]
        · simp [hi hic hk]
    simp [State.translate, State.tlbFind, he, hit, hgo]
  · exact absurd h nofun

/-- What makes an access plain. -/
structure PlainLeaf (s : State) (kind : Acc) (va : Word) (n : Nat) (x : Xlat) : Prop where
  served : s.served ⟨kind, true, n⟩ va = some x
  page : va.toNat % 65536 + n ≤ 65536
  ty : x.ty = 0
  ce : x.ce = false
  raw : s.rawAt x.pa n = true
  clean : kind.isWrite = false → s.poisoned x.pa n = false

theorem State.plainLeaf_eq_some {s : State} {kind : Acc} {va : Word} {n : Nat} {x : Xlat} :
    s.plainLeaf kind va n = some x ↔ PlainLeaf s kind va n x := by
  simp only [State.plainLeaf, Option.bind_eq_some_iff, Option.ite_none_right_eq_some, Option.some.injEq]
  constructor
  · rintro ⟨y, hy, ⟨h1, h2, h3, h4, h5⟩, rfl⟩
    exact ⟨hy, h1, h2, h3, h4, h5⟩
  · intro h
    exact ⟨x, h.served, ⟨h.page, h.ty, h.ce, h.raw, h.clean⟩, rfl⟩

theorem State.plainAt_eq_some {s : State} {kind : Acc} {va : Word} {n pa : Nat} :
    s.plainAt kind va n = some pa ↔ ∃ x, PlainLeaf s kind va n x ∧ x.pa = pa := by
  simp [State.plainAt, Option.map_eq_some_iff, State.plainLeaf_eq_some]

theorem State.quietAt_eq_some {s : State} {kind : Acc} {va : Word} {n pa : Nat} :
    s.quietAt kind va n = some pa ↔ ∃ x, PlainLeaf s kind va n x ∧ x.ic = false ∧ x.pa = pa := by
  simp [State.quietAt, Option.bind_eq_some_iff, State.plainLeaf_eq_some]

theorem State.plainAt_isSome {s : State} {kind : Acc} {va : Word} {n : Nat} (h : (s.plainAt kind va n).isSome = true) :
    ∃ x, PlainLeaf s kind va n x ∧ s.plainAt kind va n = some x.pa := by
  obtain ⟨pa, hp⟩ := Option.isSome_iff_exists.1 h
  obtain ⟨x, hx, rfl⟩ := State.plainAt_eq_some.1 hp
  exact ⟨x, hx, hp⟩

theorem State.quietAt_isSome_plainAt {s : State} {kind : Acc} {va : Word} {n : Nat}
    (h : (s.quietAt kind va n).isSome = true) : (s.plainAt kind va n).isSome = true := by
  obtain ⟨pa, hp⟩ := Option.isSome_iff_exists.1 h
  obtain ⟨x, hx, -, rfl⟩ := State.quietAt_eq_some.1 hp
  exact Option.isSome_iff_exists.2 ⟨x.pa, State.plainAt_eq_some.2 ⟨x, hx, rfl⟩⟩

/-- A leaf is one: where the access is quiet, the page of its leaf is of idempotent class. -/
theorem PlainLeaf.quiet {s : State} {kind : Acc} {va : Word} {n : Nat} {x : Xlat} (h : PlainLeaf s kind va n x)
    (hq : (s.quietAt kind va n).isSome = true) : x.ic = false := by
  obtain ⟨pa, hp⟩ := Option.isSome_iff_exists.1 hq
  obtain ⟨y, hy, hic, -⟩ := State.quietAt_eq_some.1 hp
  obtain rfl : x = y := Option.some.inj (h.served.symm.trans hy.served)
  exact hic

section
variable {s : State} {kind : Acc} {va : Word} {n : Nat} {x : Xlat} (h : PlainLeaf s kind va n x)
include h

theorem PlainLeaf.pieces : s.pieces kind true va n = .ok (s, [⟨x, n⟩]) := by
  have hroom : n ≤ 65536 - va.toNat % 65536 := by have := h.page; omega
  simp [State.pieces, hroom, State.translate_served h.served]

end

/-! ### Reads (R225, R228) -/

section
variable {s : State} {va : Word} {n : Nat} {x : Xlat} (h : PlainLeaf s .load va n x)
include h

theorem PlainLeaf.loadPieces (at_ : Word) : s.loadPieces at_ [⟨x, n⟩] = .ok (s, s.bytes x.pa n) := by
  simp [State.loadPieces, State.loadPiece_raw h.ty h.ce h.raw (h.clean rfl)]

theorem PlainLeaf.readParts {mb : Nat} (ha : mb = 0 ∨ va.toNat % mb = 0) :
    s.readParts mb [(va, n)] = .ok (s, s.bytes x.pa n, x.ic) := by
  have hal : (mb != 0 && va.toNat % mb != 0) = false := by rcases ha with ha | ha <;> simp [ha]
  simp [State.readParts, hal, h.pieces, h.loadPieces]

theorem PlainLeaf.scanParts {mb : Nat} (ha : mb = 0 ∨ va.toNat % mb = 0) : s.scanParts mb [(va, n)] = .ok (s, x.ic) := by
  have hal : (mb != 0 && va.toNat % mb != 0) = false := by rcases ha with ha | ha <;> simp [ha]
  have hread : s.unreadable [⟨x, n⟩] = false := by simp [State.unreadable, h.ty, h.ce, h.clean rfl]
  simp [State.scanParts, hal, h.pieces, hread]

theorem PlainLeaf.devicePart : s.devicePart [(va, n)] = x.ic := by
  simp [State.devicePart, h.pieces]

end

/-! ### The items of a load, each one plain access -/

/-- Items of one plain read each, at an address and of n bytes: the first of a fault-only-first load is none, or no page is
of device class. -/
structure PlainReads (s : State) (mb n : Nat) (first : Option Nat) (addr : Nat → Word) (leaf : Nat → Xlat) (is : List Nat) :
    Prop where
  plain : ∀ i ∈ is, PlainLeaf s .load (addr i) n (leaf i)
  aligned : ∀ i ∈ is, mb = 0 ∨ (addr i).toNat % mb = 0
  quiet : first = none ∨ ∀ i ∈ is, (leaf i).ic = false
  dense : s.cc.intoSx = false

section
variable {s : State} {mb n : Nat} {first : Option Nat} {addr : Nat → Word} {leaf : Nat → Xlat}

theorem PlainReads.tail {i : Nat} {is : List Nat} (h : PlainReads s mb n first addr leaf (i :: is)) :
    PlainReads s mb n first addr leaf is :=
  ⟨fun k hk => h.plain k (.tail _ hk), fun k hk => h.aligned k (.tail _ hk),
    h.quiet.imp_right fun q k hk => q k (.tail _ hk), h.dense⟩

theorem PlainReads.readItems {is : List Nat} (h : PlainReads s mb n first addr leaf is) (got : List (Nat × List Byte)) :
    s.readItems mb first (is.map fun i => (i, [(addr i, n)])) got =
      (s, got ++ is.map fun i => (i, s.bytes (leaf i).pa n), .done) := by
  induction is generalizing got with
  | nil => simp [State.readItems]
  | cons i r ih =>
    have hi := h.plain i (.head _)
    have hread := hi.readParts (h.aligned i (.head _))
    simp only [List.map_cons, State.readItems]
    rcases h.quiet with rfl | hq
    · simp [hread, h.dense, ih h.tail]
    · simp [hread, h.dense, ih h.tail, hi.devicePart, hq i (.head _)]

theorem PlainReads.scanItems {is : List Nat} (h : PlainReads s mb n first addr leaf is) :
    s.scanItems mb first (is.map fun i => (i, [(addr i, n)])) = .ok () := by
  induction is with
  | nil => rfl
  | cons i r ih =>
    have hi := h.plain i (.head _)
    have hscan := hi.scanParts (h.aligned i (.head _))
    have hstop : (leaf i).ic = false ∨ first = none := h.quiet.symm.imp_left fun q => q i (.head _)
    simp only [List.map_cons, State.scanItems]
    rcases hstop with hic | rfl
    · simp [hscan, ih h.tail, hic]
    · simp [hscan, ih h.tail]

end

end Sys2Proof.Machine
end

section
/-! Vector loads: what comes before the reads, and what plain elements leave in the register. -/

namespace Sys2Proof.Machine

/-! ### Before the reads (R122, R215, R231) -/

theorem exec_vecLoadForm {i : Instr} {form : MemForm} {vr : VReg} {xa : XReg} (h : vecLoadForm i = some (form, vr, xa))
    (s : State) : exec i s = s.vecLoad form vr xa := by
  unfold vecLoadForm at h
  split at h
  case h_5 => exact absurd h nofun
  all_goals
    obtain ⟨rfl, rfl, rfl⟩ : _ ∧ _ ∧ _ := by simpa using h
    rfl

/-- Accesses of the vector stream before a VFENCE are not performed. -/
def ControlCore.streamBusy (c : ControlCore) : Prop := c.loads ≠ 0 ∨ ∃ w ∈ c.stores, w.vec = true

theorem vfenceWait_none {s : State} (h : s.cc.vfence = false) : vfenceWait s = .ok s := by simp [vfenceWait, h]

theorem vfenceWait_busy {s : State} (h : s.cc.vfence = true) (hb : s.cc.streamBusy) : vfenceWait s = .error (.wait s) := by
  have hbusy : (s.cc.loads != 0 || s.cc.stores.any PStore.vec) = true := by
    rcases hb with hl | ⟨w, hw, hv⟩
    · simp [hl]
    · rw [List.any_eq_true.2 ⟨w, hw, hv⟩, Bool.or_true]
  simp [vfenceWait, h, hbusy]

theorem vecGuard_ok {s : State} {vr : VReg} (hven : s.cc.ven = true) (hvr : vr.toNat < 48)
    (hcarry : s.cc.loopAct = true → s.cc.loopI = true → ¬40 ≤ vr.toNat) : pushGuard s [vCode vr] = .ok () :=
  pushGuard_ok hven fun ha hi c hc => by
    rw [List.mem_singleton.1 hc, isCarry_v _ hvr]
    simpa using hcarry ha hi

theorem State.vecLoad_waits {s : State} {form : MemForm} {vr : VReg} {xa : XReg} (hg : pushGuard s [vCode vr] = .ok ())
    (hw : s.cc.full .l = true ∨ s.cc.vfence = true ∧ s.cc.streamBusy) : s.vecLoad form vr xa = .next s.freshReads := by
  unfold State.vecLoad
  rw [hg]
  rcases hw with hl | ⟨hv, hb⟩
  · simp [hl]
  · cases hl : s.cc.full .l
    · simp [vfenceWait_busy hv hb]
    · simp

/-- The first active element of a fault-only-first load, or the start of its block (R221). -/
def State.firstItem (s : State) (form : MemForm) : Option Nat :=
  if form = .first then s.actives.head?.map fun f => if isSx s.cc.mtag && !s.cc.rawm then f / 16 * 16 else f else none

/-- A load whose checks pass, and of whose units none is absent. -/
structure LoadReady (s : State) (form : MemForm) (vr : VReg) (base : Word) : Prop where
  guard : pushGuard s [vCode vr] = .ok ()
  room : s.cc.full .l = false
  vfence : s.cc.vfence = false
  lens : ∀ t ∈ memLens s form, s.vlN ≤ vlmax t
  table : memTable s form vr base = .ok ()
  units : s.scanItems s.cc.mb (s.firstItem form) (s.loadItems form base) = .ok ()

section
variable {s : State} {form : MemForm} {vr : VReg} {xa : XReg} (h : LoadReady s form vr (s.getX xa))
include h

theorem LoadReady.done {u w : State} {got : List (Nat × List Byte)}
    (hread : s.readItems s.cc.mb (s.firstItem form) (s.loadItems form (s.getX xa)) [] = (u, got, .done))
    (hput : u.commitLoad vr got = (w, none)) : s.vecLoad form vr xa = .next w.takeVstart.pendLoad.retire := by
  have hscan := h.units
  unfold State.firstItem at hread hscan
  simp only [State.vecLoad, h.guard, h.room, stallIf_false, except_bind_ok, vfenceWait_none h.vfence, lenCheck_ok h.lens,
    h.table, hscan, precise_ok, hread, State.loadEnd, hput, finish_ok]

theorem LoadReady.cut {u w : State} {got : List (Nat × List Byte)} {k : Nat}
    (hread : s.readItems s.cc.mb (s.firstItem form) (s.loadItems form (s.getX xa)) [] = (u, got, .cut k))
    (hput : (u.modCc fun c => { c with vl := .ofNat 11 k }).commitLoad vr got = (w, none)) :
    s.vecLoad form vr xa = .next w.takeVstart.pendLoad.retire := by
  have hscan := h.units
  unfold State.firstItem at hread hscan
  simp only [State.vecLoad, h.guard, h.room, stallIf_false, except_bind_ok, vfenceWait_none h.vfence, lenCheck_ok h.lens,
    h.table, hscan, precise_ok, hread, State.loadEnd, hput, finish_ok]

end

/-- Counting a load and retiring it do not meet. -/
theorem State.pendLoad_retire (s : State) : s.pendLoad.retire = s.retire.pendLoad := rfl

/-! ### Elements of whole bytes (R213, R214) -/

theorem memBits_of_wholeBytes : ∀ t : Tag, isVal t = true → isSub t = false → memBits t = tagWidth t := by decide
theorem tagWidth_dvd_of_wholeBytes : ∀ t : Tag, isVal t = true → isSub t = false → tagWidth t % 8 = 0 := by decide
theorem isSx_of_isVal : ∀ t : Tag, isVal t = true → isSx t = false := by decide

section
variable {s : State} (h : s.plainFormat)
include h

theorem State.plainFormat.notSx : isSx s.cc.mtag = false := by
  obtain ⟨-, -, -, hval, -⟩ := h
  exact isSx_of_isVal _ hval

theorem State.plainFormat.bits : memBits s.cc.mtag = tagWidth s.cc.mtag := by
  obtain ⟨-, -, -, hval, hsub⟩ := h
  exact memBits_of_wholeBytes _ hval hsub

/-- An element takes one byte or more. -/
theorem State.plainFormat.size_pos : 0 < tagWidth s.cc.mtag / 8 := by
  obtain ⟨-, -, -, hval, hsub⟩ := h
  have := tagWidth_pos s.cc.mtag
  have := tagWidth_dvd_of_wholeBytes _ hval hsub
  omega

theorem State.plainFormat.mb : s.cc.mb = tagWidth s.cc.mtag / 8 := by
  obtain ⟨hraw, -, -, -, -⟩ := id h
  simp [ControlCore.mb, hraw, h.notSx, h.bits]

theorem State.plainFormat.intoSx : s.cc.intoSx = false := by
  obtain ⟨-, -, htag, -, -⟩ := id h
  simp [ControlCore.intoSx, ← htag, h.notSx]

/-- The bytes of an element that stand before it in a packed run. -/
theorem State.plainFormat.posOf_packed (i : Nat) : posOf s.cc.mtag 0 i = (i * (tagWidth s.cc.mtag / 8) : Nat) := by
  obtain ⟨-, -, -, hval, hsub⟩ := id h
  have hdvd : 8 ∣ tagWidth s.cc.mtag := Nat.dvd_of_mod_eq_zero (tagWidth_dvd_of_wholeBytes _ hval hsub)
  simp only [posOf, ne_eq, not_true_eq_false, if_false, h.notSx, Bool.false_eq_true, h.bits, Nat.mul_div_assoc i hdvd]

theorem State.plainFormat.itemParts (form : MemForm) (base : Word) (i : Nat) :
    s.itemParts form base i = [(s.elemAddr form base i, tagWidth s.cc.mtag / 8)] := by
  obtain ⟨hraw, hscale, -, -, -⟩ := id h
  have hn : max 1 s.cc.mb = tagWidth s.cc.mtag / 8 := by
    rw [h.mb]
    exact max_eq_right h.size_pos
  have hpacked : base + BitVec.ofInt 64 (posOf s.cc.mtag 0 i) = base + BitVec.ofNat 64 (i * (tagWidth s.cc.mtag / 8)) := by
    rw [h.posOf_packed, BitVec.ofInt_natCast]
  have hstride : BitVec.ofNat 64 i * s.cc.vstr = BitVec.ofInt 64 (i * s.cc.vstr.toInt) := by
    rw [BitVec.ofInt_mul, BitVec.ofInt_toInt, BitVec.ofInt_natCast]
  cases form with
  | unit => simp [State.itemParts, hraw, h.notSx, hn, State.elemAddr, layout, hscale, hpacked]
  | first => simp [State.itemParts, hraw, h.notSx, hn, State.elemAddr, hpacked]
  | stride => simp [State.itemParts, hraw, h.notSx, hn, State.elemAddr, hstride]
  | index vi => simp [State.itemParts, hraw, h.notSx, hn, State.elemAddr]

theorem State.plainFormat.loadItems (form : MemForm) (base : Word) :
    s.loadItems form base = s.actives.map fun i => (i, [(s.elemAddr form base i, tagWidth s.cc.mtag / 8)]) := by
  obtain ⟨hraw, -, htag, -, -⟩ := id h
  simp [State.loadItems, hraw, ← htag, h.notSx, h.itemParts]

/-- Elements of plain format enter the register as they are read, and set no flag. -/
theorem State.plainFormat.commitLoad (vr : VReg) (is : List Nat) (bytes : Nat → List Byte) :
    s.commitLoad vr (is.map fun i => (i, bytes i)) = ((s.putV vr (writeElems (s.getV vr) s.cc.rtag s.cc.vstart.toNat s.vlN
      (is.map fun i => (i, leNat (bytes i))))).orFlags 0, none) := by
  obtain ⟨hraw, hscale, htag, -, hsub⟩ := id h
  have hbits : ∀ i bs, s.cc.loadBits i bs = (leNat bs, 0) := fun i bs => by simp [ControlCore.loadBits, ← htag, hscale, hsub]
  have hfold : ∀ (es : List (Nat × Nat)) (f : Flags), (is.map fun i => (i, bytes i)).foldl
      (fun (a : List (Nat × Nat) × Flags) p => let (b, g) := s.cc.loadBits p.1 p.2; (a.1 ++ [(p.1, b)], a.2 ||| g)) (es, f) =
        (es ++ is.map fun i => (i, leNat (bytes i)), f) := by
    induction is with
    | nil => simp
    | cons i r ih =>
      intro es f
      have hor : f ||| (0 : Flags) = f := BitVec.or_zero
      simp only [List.map_cons, List.foldl_cons, hbits i (bytes i), hor, ih, List.append_assoc, List.singleton_append]
  have hnot : isSx s.cc.rtag = false := htag ▸ h.notSx
  simp only [State.commitLoad, hraw, h.notSx, hnot, Bool.false_eq_true, if_false, Bool.false_and, hfold, List.nil_append]

end

/-! ### Loads of plain elements -/

/-- Elements that raise no flag raise none together. -/
theorem State.vecFlags_zero (s : State) {f : Nat → Nat × Flags} (hf : ∀ i, (f i).2 = 0) : s.vecFlags 0 f = 0 := by
  have : ∀ l : List Nat, l.foldl (fun (a : Flags) i => a ||| (f i).2) 0 = 0 := by
    intro l
    induction l with
    | nil => rfl
    | cons i r ih => simpa [hf i] using ih
  simp only [State.vecFlags, this, ite_self]
  rfl

/-- A state whose active elements are read plainly: the leaf of each. -/
def State.elemLeaf (s : State) (form : MemForm) (base : Word) (i : Nat) : Xlat :=
  (s.plainLeaf .load (s.elemAddr form base i) (tagWidth s.cc.mtag / 8)).getD ⟨0, 0, false, false⟩

theorem State.plainReads {s : State} (hf : s.plainFormat) (hw : s.cc.cut = none) {form : MemForm} {base : Word}
    (h : ∀ k, k < s.vlN → s.activeAt k = true → let n := tagWidth s.cc.rtag / 8
      (s.plainAt .load (s.elemAddr form base k) n).isSome = true ∧ (s.elemAddr form base k).toNat % n = 0 ∧
      (form = .first → (s.quietAt .load (s.elemAddr form base k) n).isSome = true)) :
    PlainReads s s.cc.mb (tagWidth s.cc.mtag / 8) (s.firstItem form) (s.elemAddr form base) (s.elemLeaf form base)
        s.actives ∧
      ∀ i ∈ s.actives, s.plainAt .load (s.elemAddr form base i) (tagWidth s.cc.rtag / 8) = some (s.elemLeaf form base i).pa := by
  obtain ⟨-, -, htag, -, -⟩ := id hf
  rw [← htag] at h ⊢
  have hact : ∀ i ∈ s.actives, i < s.vlN ∧ s.activeAt i = true := fun i hi =>
    have hlt := ((mem_actives s i).1 hi).1
    ⟨hlt, (s.activeAt_iff hw i hlt).2 hi⟩
  have hleaf : ∀ i ∈ s.actives, PlainLeaf s .load (s.elemAddr form base i) (tagWidth s.cc.mtag / 8) (s.elemLeaf form base i) ∧
      s.plainAt .load (s.elemAddr form base i) (tagWidth s.cc.mtag / 8) = some (s.elemLeaf form base i).pa := by
    intro i hi
    obtain ⟨hlt, ha⟩ := hact i hi
    obtain ⟨x, hx, hpa⟩ := State.plainAt_isSome (h i hlt ha).1
    have : s.elemLeaf form base i = x := by simp [State.elemLeaf, State.plainLeaf_eq_some.2 hx]
    rw [this]
    exact ⟨hx, hpa⟩
  refine ⟨⟨fun i hi => (hleaf i hi).1, fun i hi => ?_, ?_, hf.intoSx⟩, fun i hi => (hleaf i hi).2⟩
  · obtain ⟨hlt, ha⟩ := hact i hi
    obtain ⟨-, hal, -⟩ := h i hlt ha
    exact .inr (by rw [hf.mb]; exact hal)
  · by_cases hfirst : form = .first
    · refine .inr fun i hi => (hleaf i hi).1.quiet ?_
      obtain ⟨hlt, ha⟩ := hact i hi
      obtain ⟨-, -, hq⟩ := h i hlt ha
      exact hq hfirst
    · exact .inl (if_neg hfirst)

/-- Settles O38: the waits, then a load in every form by how its reads end, then one of plain elements, whose reads all end
well and change nothing. -/
theorem vectorLoads : Obligations.VectorLoads := by
  unfold Obligations.VectorLoads
  intro i s form vr xa hform hven hcut hcarry hvr
  have hguard := vecGuard_ok hven hvr hcarry
  rw [exec_vecLoadForm hform]
  refine ⟨State.vecLoad_waits hguard, fun hroom hvf hlens htable => ⟨fun u w got hscan hread hput => ?_,
    fun u w got k hscan hread hput => ?_, fun hf hel => ?plain⟩⟩
  · exact LoadReady.done ⟨hguard, hroom, hvf, hlens, htable, hscan⟩ hread hput
  · exact LoadReady.cut ⟨hguard, hroom, hvf, hlens, htable, hscan⟩ hread hput
  case plain =>
    obtain ⟨hreads, hat⟩ := State.plainReads hf hcut hel
    have hscan := hreads.scanItems
    have hread := hreads.readItems []
    rw [List.nil_append] at hread
    rw [← hf.loadItems] at hscan hread
    have hgo := LoadReady.done ⟨hguard, hroom, hvf, hlens, htable, hscan⟩ hread (hf.commitLoad vr _ _)
    rw [State.pendLoad_retire] at hgo
    refine ⟨_, hgo, ?_⟩
    have hcarries := carries_actives hcut vr s.cc.rtag true (memLens s form) 0
      (fun i => match s.plainAt .load (s.elemAddr form (s.getX xa) i) (tagWidth s.cc.rtag / 8) with
        | some pa => (leNat ((List.range (tagWidth s.cc.rtag / 8)).map fun j => Memory.read s.mem (pa + j)), 0)
        | none => (0, 0)) (s.actives.map fun i => (i, leNat (s.bytes (s.elemLeaf form (s.getX xa) i).pa (tagWidth s.cc.mtag / 8))))
      (List.map_congr_left fun i hi => by
        obtain ⟨-, -, htag, -, -⟩ := id hf
        rw [hat i hi, htag]
        rfl)
    have hflags : (s.loadSpec form vr (s.getX xa)).flags = 0 := s.vecFlags_zero fun i => by split <;> rfl
    have hout := vecOut_put s (s.loadSpec form vr (s.getX xa)) _ s.cc.vstart.toNat s.free State.takeVstart hvr hcarries rfl
      (.inl ⟨rfl, fun _ => rfl⟩)
    rw [hflags] at hout
    exact hout

end Sys2Proof.Machine
end

section
/-! Vector stores: what comes before the writes, the writes of plain elements, and the store with a scale. -/

namespace Sys2Proof.Machine

/-! ### What a write through a page may change (R284, R285, R334) -/

/-- A write through the cache of a die: memory with its poison and codes, what the host holds of it, and the stamps on
their way to the other dies. -/
def WritesThrough (s t : State) : Prop :=
  t = { s with mem := t.mem, poison := t.poison, codes := t.codes, metas := t.metas, stored := t.stored
               hostHeld := t.hostHeld, outbox := t.outbox, agenda := t.agenda }

theorem State.storeSlot_writesMemory (pa : Nat) (bs : List Byte) (s : State) (b : Nat) :
    WritesMemory s (State.storeSlot pa bs s b) := by
  unfold State.storeSlot; split <;> rfl

theorem State.storeIn_writesMemory (s : State) (ce : Bool) (pa : Nat) (bs : List Byte) :
    WritesMemory s (s.storeIn ce pa bs) := by
  have h : WritesMemory s ((s.snoopHost pa bs.length).putBytes pa bs) := (s.snoopHost_writesMemory pa bs.length).trans rfl
  unfold State.storeIn
  dsimp only
  split
  · exact h.trans (WritesMemory.foldl (State.recode_writesMemory _) _ _)
  · split
    · exact h
    · exact h.trans (WritesMemory.foldl (State.storeSlot_writesMemory _ _) _ _)

theorem State.dieStore_cc (s : State) (ce : Bool) (pa : Nat) (bs : List Byte) : (s.dieStore ce pa bs).cc = s.cc :=
  (s.storeIn_writesMemory ce pa bs).cc

/-- A write of blocks that are stored raw. -/
theorem State.dieStore_raw {s : State} {pa : Nat} {bs : List Byte} (h : s.rawAt pa bs.length = true) :
    (s.dieStore false pa bs).mem = Memory.writeAll s.mem pa bs ∧ (s.dieStore false pa bs).stored = s.stored := by
  have hmem : (s.dieStore false pa bs).mem = (s.storeIn false pa bs).mem := rfl
  have hstored : (s.dieStore false pa bs).stored = (s.storeIn false pa bs).stored := rfl
  rw [hmem, hstored, State.storeIn_raw h]
  simp [State.putBytes]

theorem State.orFlags_zero (s : State) : s.orFlags 0 = s := by
  have : s.cc.fcsr ||| ((0 : Flags).setWidth 14 <<< 8) = s.cc.fcsr := or_zero_flags _
  simp only [State.orFlags, State.modCc, this]

theorem State.rawAt_congr {s u : State} (h : u.stored = s.stored) (pa n : Nat) : u.rawAt pa n = s.rawAt pa n := by
  simp only [State.rawAt, h]

/-- The write of a piece of WM on a page without compression goes through the die's cache. -/
theorem State.storePieces_wm (s : State) {x : Xlat} (hty : x.ty = 0) (hce : x.ce = false) (n : Nat) (bs : List Byte) :
    s.storePieces [⟨x, n⟩] bs = (s.dieStore false x.pa (bs.take n), [{}]) := by
  simp [State.storePieces, State.storePiece, hty, hce]

/-- The end of a store: it retires, is counted in S, and changes nothing else that a program sees. -/
structure StoreEnds (u t : State) : Prop where
  pc : t.cc.pc = u.cc.pc + 4
  retired : t.cc.retired = u.cc.retired + 1
  x : t.cc.x = u.cc.x
  v : t.cc.v = u.cc.v
  m : t.cc.m = u.cc.m
  fcsr : t.cc.fcsr = u.cc.fcsr
  vstart : t.cc.vstart = u.cc.vstart
  count : t.cc.out.s = u.cc.out.s + 1
  mem : t.mem = u.mem

theorem State.pendStore_retire (v : State) (w : PStore) : StoreEnds v (v.pendStore w).retire := by
  unfold State.pendStore
  dsimp only
  split
  · exact ⟨rfl, rfl, rfl, rfl, rfl, rfl, rfl, rfl, rfl⟩
  · exact ⟨rfl, rfl, rfl, rfl, rfl, rfl, rfl, rfl, rfl⟩

/-! ### Before the writes (R122, R215, R231) -/

theorem exec_vecStoreForm {i : Instr} {form : MemForm} {vr : VReg} {xa : XReg} (h : vecStoreForm i = some (form, vr, xa))
    (s : State) : exec i s = s.vecStore form vr xa := by
  unfold vecStoreForm at h
  split at h
  case h_4 => exact absurd h nofun
  all_goals
    obtain ⟨rfl, rfl, rfl⟩ : _ ∧ _ ∧ _ := by simpa using h
    rfl

theorem State.vecStore_waits {s : State} {form : MemForm} {vr : VReg} {xa : XReg} (hven : s.cc.ven = true)
    (hw : s.cc.full .s = true ∨ s.cc.vfence = true ∧ s.cc.streamBusy) : s.vecStore form vr xa = .next s.freshReads := by
  unfold State.vecStore
  rw [needVector_ok hven]
  rcases hw with hl | ⟨hv, hb⟩
  · simp [hl]
  · cases hl : s.cc.full .s
    · simp [vfenceWait_busy hv hb]
    · simp

/-- A check that is made in some cases and passes in those. -/
theorem precise_if_ok {α : Type} {b : Bool} {s : State} {e : Except Stop Unit} (h : b = true → e = .ok ())
    (f : Except Stop α) : (if b = true then precise s e >>= fun _ => f else f) = f := by
  cases b with
  | false => rfl
  | true => simp [h rfl]

/-- A store whose checks before any element pass. -/
structure StoreReady (s : State) (form : MemForm) (vr : VReg) (base : Word) : Prop where
  ven : s.cc.ven = true
  room : s.cc.full .s = false
  vfence : s.cc.vfence = false
  tag : s.cc.rawm = true ∨ (s.getV vr).tag = s.cc.rtag
  lens : ∀ t ∈ (s.getV vr).tag :: memLens s form, s.vlN ≤ vlmax t
  table : memTable s form vr base = .ok ()

section
variable {s : State} {form : MemForm} {vr : VReg} {xa : XReg} (h : StoreReady s form vr (s.getX xa))
include h

theorem StoreReady.tag_check : (!s.cc.rawm && (s.getV vr).tag != s.cc.rtag) = false := by
  rcases h.tag with ht | ht <;> simp [ht]

/-- What a store with a scale does is what `scaledStore` does. -/
theorem StoreReady.scaled (hraw : s.cc.rawm = false) (hscale : s.cc.scaleMode ≠ 0) :
    s.vecStore form vr xa = finish (s.scaledStore vr (s.getX xa)) := by
  have hs : (!s.cc.rawm && s.cc.scaleMode != 0) = true := by simp [hraw, hscale]
  simp only [State.vecStore, needVector_ok h.ven, h.room, stallIf_false, except_bind_ok, vfenceWait_none h.vfence,
    h.tag_check, lenCheck_ok h.lens, h.table, hs, if_true, Bool.false_eq_true, if_false, except_pure]

section
variable (hscale : s.cc.rawm = true ∨ s.cc.scaleMode = 0) {u v : State} {items : List StoreItem}
  {plan : List (StoreItem × List Piece)} {ws : List PStore}
  (hitems : s.storeItems form (s.getX xa) (s.getV vr) = (items, none))
  (hscan : items.any StoreItem.keeps = true → s.scanItems s.cc.mb none (items.map fun it => (it.i, [(it.addr, it.n)])) = .ok ())
  (hwrite : u.writeItems plan = (v, ws))
include hscale hitems hscan hwrite

theorem StoreReady.done (hplan : s.planItems s.cc.mb items = .ok (u, plan, none)) :
    s.vecStore form vr xa = .next (v.takeVstart.pendStore (joinStores ws).ofVec).retire := by
  have hs : (!s.cc.rawm && s.cc.scaleMode != 0) = false := by rcases hscale with hs | hs <;> simp [hs]
  simp only [State.vecStore, needVector_ok h.ven, h.room, stallIf_false, except_bind_ok, vfenceWait_none h.vfence,
    h.tag_check, lenCheck_ok h.lens, h.table, hs, Bool.false_eq_true, if_false, except_pure, hitems, hplan, hwrite,
    precise_if_ok hscan, finish_ok]

theorem StoreReady.trap {k : Nat} {t : Trap} (hplan : s.planItems s.cc.mb items = .ok (u, plan, some (k, t)))
    (hcause : t.cause ≠ 0x11) :
    s.vecStore form vr xa = .next ((v.pendSent ws).raise { t with vstart := some (.ofNat 10 k) }) := by
  have hs : (!s.cc.rawm && s.cc.scaleMode != 0) = false := by rcases hscale with hs | hs <;> simp [hs]
  have hc : ¬ t.cause = cUnit := hcause
  simp only [State.vecStore, needVector_ok h.ven, h.room, stallIf_false, except_bind_ok, vfenceWait_none h.vfence,
    h.tag_check, lenCheck_ok h.lens, h.table, hs, Bool.false_eq_true, if_false, except_pure, hitems, hplan, hwrite, hc,
    precise_if_ok hscan, finish_trap]

end

end

/-! ### The items of a store of plain elements -/

section
variable {s : State} {va : Word} {n : Nat} {x : Xlat} (h : PlainLeaf s .store va n x)
include h

theorem PlainLeaf.planItem {mb : Nat} (ha : mb = 0 ∨ va.toNat % mb = 0) {it : StoreItem} (hva : it.addr = va) (hn : it.n = n)
    (hk : it.keeps = false) : s.planItem mb it = .ok (s, [⟨x, n⟩]) := by
  subst hva hn
  have hal : (mb != 0 && it.addr.toNat % mb != 0) = false := by rcases ha with ha | ha <;> simp [ha]
  simp [State.planItem, hal, h.pieces, hk]

end

/-- Items of one plain write each, of n bytes at a leaf: the address, the bytes and the leaf of each. -/
structure PlainWrites (s : State) (mb n : Nat) (addr : Nat → Word) (leaf : Nat → Xlat) (is : List Nat) : Prop where
  plain : ∀ i ∈ is, PlainLeaf s .store (addr i) n (leaf i)
  aligned : ∀ i ∈ is, mb = 0 ∨ (addr i).toNat % mb = 0

/-- An item that writes given bytes, whatever stands there. -/
def plainItem (n : Nat) (addr : Nat → Word) (bytes : Nat → List Byte) (i : Nat) : StoreItem :=
  ⟨i, addr i, n, false, fun _ => bytes i, 0⟩

/-- Memory with the bytes of one element after another. -/
def Memory.writeElems (m : List Host.Cell) (at_ : Nat → Nat) (bytes : Nat → List Byte) (is : List Nat) : List Host.Cell :=
  is.foldl (fun m i => Memory.writeAll m (at_ i) (bytes i)) m

theorem Memory.read_writeElems_outside {at_ : Nat → Nat} {bytes : Nat → List Byte} {n a : Nat} {is : List Nat}
    (hn : ∀ i, (bytes i).length = n) (h : ∀ i ∈ is, a < at_ i ∨ at_ i + n ≤ a) (m : List Host.Cell) :
    Memory.read (Memory.writeElems m at_ bytes is) a = Memory.read m a := by
  induction is generalizing m with
  | nil => rfl
  | cons i r ih =>
    refine (ih (fun k hk => h k (.tail _ hk)) _).trans (Memory.read_writeAll_outside m ?_)
    rw [hn]
    exact h i (.head _)

/-- Of elements written in ascending order, one that no later one meets stands as it was written. -/
theorem Memory.readAll_writeElems {at_ : Nat → Nat} {bytes : Nat → List Byte} {n : Nat} {is : List Nat}
    (hn : ∀ i, (bytes i).length = n) (hsorted : is.Pairwise (· < ·)) {k : Nat} (hk : k ∈ is)
    (hlast : ∀ j ∈ is, k < j → at_ j + n ≤ at_ k ∨ at_ k + n ≤ at_ j) (m : List Host.Cell) :
    Memory.readAll (Memory.writeElems m at_ bytes is) (at_ k) n = bytes k := by
  induction is generalizing m with
  | nil => exact absurd hk List.not_mem_nil
  | cons i r ih =>
    obtain ⟨hlt, hr⟩ := List.pairwise_cons.1 hsorted
    rcases List.mem_cons.1 hk with rfl | hk'
    · have hlater : Memory.readAll (Memory.writeElems (Memory.writeAll m (at_ k) (bytes k)) at_ bytes r) (at_ k) n =
          Memory.readAll (Memory.writeAll m (at_ k) (bytes k)) (at_ k) n :=
        List.map_congr_left fun p hp => Memory.read_writeElems_outside hn (fun j hj => by
          have := hlast j (.tail _ hj) (hlt j hj)
          have := List.mem_range.1 hp
          omega) _
      have hself := Memory.readAll_writeAll m (at_ k) (bytes k)
      rw [hn] at hself
      exact hlater.trans hself
    · exact ih hr hk' (fun j hj => hlast j (.tail _ hj)) _

section
variable {s : State} {mb n : Nat} {addr : Nat → Word} {leaf : Nat → Xlat}

theorem PlainWrites.planItems {is : List Nat} (h : PlainWrites s mb n addr leaf is) (bytes : Nat → List Byte) :
    s.planItems mb (is.map (plainItem n addr bytes)) =
      .ok (s, is.map fun i => (plainItem n addr bytes i, [⟨leaf i, n⟩]), none) := by
  induction is with
  | nil => rfl
  | cons i r ih =>
    have hi := (h.plain i (.head _)).planItem (h.aligned i (.head _)) (it := plainItem n addr bytes i) rfl rfl rfl
    have hr := ih ⟨fun k hk => h.plain k (.tail _ hk), fun k hk => h.aligned k (.tail _ hk)⟩
    simp only [List.map_cons, State.planItems, hi, hr, except_bind_ok, except_pure]

/-- Plain elements reach memory one after another, and the control core stands. -/
theorem PlainWrites.writeItems {is : List Nat} (h : PlainWrites s mb n addr leaf is) {bytes : Nat → List Byte}
    (hn : ∀ i, (bytes i).length = n) {u : State} (hu : u.stored = s.stored) :
    let v := (u.writeItems (is.map fun i => (plainItem n addr bytes i, [⟨leaf i, n⟩]))).1
    v.cc = u.cc ∧ v.mem = Memory.writeElems u.mem (fun i => (leaf i).pa) bytes is := by
  induction is generalizing u with
  | nil => exact ⟨rfl, rfl⟩
  | cons i r ih =>
    have hi := h.plain i (.head _)
    have hraw : u.rawAt (leaf i).pa (bytes i).length = true := by rw [hn, State.rawAt_congr hu, hi.raw]
    obtain ⟨hmem, hstored⟩ := State.dieStore_raw hraw
    obtain ⟨hcc', hmem'⟩ := ih ⟨fun k hk => h.plain k (.tail _ hk), fun k hk => h.aligned k (.tail _ hk)⟩
      (u := u.dieStore false (leaf i).pa (bytes i)) (hstored.trans hu)
    have htake : (bytes i).take n = bytes i := List.take_of_length_le (hn i).le
    have hform : ∀ old, (plainItem n addr bytes i).form old = bytes i := fun _ => rfl
    have hflags : ∀ w : State, w.orFlags (plainItem n addr bytes i).flags = w := State.orFlags_zero
    simp only [List.map_cons, State.writeItems, hform, State.storePieces_wm u hi.ty hi.ce, htake, hflags]
    exact ⟨hcc'.trans (u.dieStore_cc ..), by rw [hmem', hmem]; rfl⟩

end

/-- The items of a store of elements of plain format (R216). -/
theorem State.plainFormat.storeItems {s : State} (h : s.plainFormat) (form : MemForm) (base : Word) (v : VecReg) :
    s.storeItems form base v = (s.actives.map (plainItem (tagWidth s.cc.mtag / 8) (s.elemAddr form base)
      fun i => leBytes (tagWidth s.cc.mtag / 8) (bitsOf v.data s.cc.rtag i)), none) := by
  obtain ⟨hraw, -, htag, -, hsub⟩ := id h
  have hnot : isSx s.cc.rtag = false := htag ▸ h.notSx
  have hsub' : isSub s.cc.rtag = false := htag ▸ hsub
  have hitem : ∀ i, s.elemItem form base i (s.cc.storeBits (bitsOf v.data s.cc.rtag i) (valOf v.data s.cc.rtag i)) =
      plainItem (tagWidth s.cc.mtag / 8) (s.elemAddr form base)
        (fun i => leBytes (tagWidth s.cc.mtag / 8) (bitsOf v.data s.cc.rtag i)) i := fun i => by
    simp only [State.elemItem, h.itemParts, List.headD_cons, ControlCore.storeBits, htag, if_true, hsub', Bool.false_and,
      Bool.false_eq_true, if_false, plainItem]
  simp only [State.storeItems, hraw, h.notSx, hnot, Bool.false_eq_true, if_false, Bool.false_and, hitem]

/-- The leaf of an element that is stored plainly. -/
def State.storeLeaf (s : State) (form : MemForm) (base : Word) (i : Nat) : Xlat :=
  (s.plainLeaf .store (s.elemAddr form base i) (tagWidth s.cc.mtag / 8)).getD ⟨0, 0, false, false⟩

theorem State.plainWrites {s : State} (hf : s.plainFormat) (hw : s.cc.cut = none) {form : MemForm} {base : Word}
    (h : ∀ k, k < s.vlN → s.activeAt k = true →
      (s.plainAt .store (s.elemAddr form base k) (tagWidth s.cc.rtag / 8)).isSome = true ∧
        (s.elemAddr form base k).toNat % (tagWidth s.cc.rtag / 8) = 0) :
    PlainWrites s s.cc.mb (tagWidth s.cc.mtag / 8) (s.elemAddr form base) (s.storeLeaf form base) s.actives ∧
      ∀ i ∈ s.actives, s.plainAt .store (s.elemAddr form base i) (tagWidth s.cc.mtag / 8) =
        some (s.storeLeaf form base i).pa := by
  obtain ⟨-, -, htag, -, -⟩ := id hf
  rw [← htag] at h
  have hel : ∀ i ∈ s.actives, PlainLeaf s .store (s.elemAddr form base i) (tagWidth s.cc.mtag / 8) (s.storeLeaf form base i) ∧
      s.plainAt .store (s.elemAddr form base i) (tagWidth s.cc.mtag / 8) = some (s.storeLeaf form base i).pa ∧
      (s.elemAddr form base i).toNat % (tagWidth s.cc.mtag / 8) = 0 := by
    intro i hi
    have hlt := ((mem_actives s i).1 hi).1
    obtain ⟨hsome, hal⟩ := h i hlt ((s.activeAt_iff hw i hlt).2 hi)
    obtain ⟨x, hx, hpa⟩ := State.plainAt_isSome hsome
    have : s.storeLeaf form base i = x := by simp [State.storeLeaf, State.plainLeaf_eq_some.2 hx]
    rw [this]
    exact ⟨hx, hpa, hal⟩
  refine ⟨⟨fun i hi => (hel i hi).1, fun i hi => .inr ?_⟩, fun i hi => (hel i hi).2.1⟩
  rw [hf.mb]
  exact (hel i hi).2.2

theorem actives_sorted (s : State) : s.actives.Pairwise (· < ·) := List.pairwise_lt_range.filter _

/-! ### The store with a scale (R218) -/

theorem scaledBytes_pos (t : Tag) (per : Nat) {n : Nat} (hn : n ≠ 0) : 0 < scaledBytes t per n := by
  simp only [scaledBytes, hn, if_false]
  by_cases h : n % per = 0
  · have hper : per ≠ 0 := fun h0 => hn (by simpa [h0] using h)
    have hle : per ≤ n := Nat.le_of_dvd (Nat.pos_of_ne_zero hn) (Nat.dvd_of_mod_eq_zero h)
    have hq : 0 < n / per := Nat.div_pos hle (Nat.pos_of_ne_zero hper)
    simp only [h, if_true, Nat.add_zero]
    exact Nat.mul_pos hq (by omega)
  · simp only [h, if_false]
    omega

section
variable {s : State} {va : Word} {n : Nat} {x : Xlat} (h : PlainLeaf s .store va n x)
include h

theorem PlainLeaf.piecesLong (hn : 0 < n) : s.piecesLong .store va 4 n = .ok (s, [⟨x, n⟩]) := by
  have hroom : min n (65536 - va.toNat % 65536) = n := by have := h.page; omega
  have hne : (n == 0) = false := by simpa using Nat.ne_of_gt hn
  simp [State.piecesLong, hne, hroom, State.translate_served h.served]

/-- The last byte of a run without poison is read with no effect. -/
theorem PlainLeaf.keepByte_last (hn : 0 < n) (hp : s.poisoned x.pa n = false) (at_ : Word) :
    s.keepByte ⟨{ x with pa := x.pa + n - 1 }, 1⟩ at_ = .ok s := by
  have hblock : x.pa + (n - 1) = x.pa + n - 1 := by omega
  have hraw : s.rawAt (x.pa + n - 1) 1 = true := by
    have := State.rawAt_lookup h.raw (mem_blocksOf (pa := x.pa) (i := n - 1) (by omega))
    simp [State.rawAt, blocksOf, ← hblock, this]
  have hclean : s.poisoned (x.pa + n - 1) 1 = false := by
    simp only [State.poisoned, List.any_eq_false, decide_eq_true_eq] at hp ⊢
    intro a ha
    have := hp a ha
    omega
  have hload := State.loadPiece_raw (x := { x with pa := x.pa + n - 1 }) (n := 1) (va := at_) h.ty h.ce hraw hclean
  have hwm : (x.ty == 5 && decide (peerBase ≤ x.pa + n - 1)) = false := by simp [h.ty]
  simp only [State.keepByte, hload, except_bind_ok, except_pure, hwm, Bool.false_eq_true, if_false]

end

/-- The elements of a group of a scaled store, and the bytes that all of the groups take (R214, R218). -/
def State.scaledPer (s : State) : Nat := if s.cc.scaleMode = 1 then 32 else max 1 s.vlN
def State.scaledLength (s : State) : Nat := scaledBytes s.cc.mtag s.scaledPer s.vlN

/-- The groups of a scaled store over the bytes that stand at its place. -/
def State.scaledGroups (s : State) (vr : VReg) (pa : Nat) : List Byte × Flags :=
  groupsBytes s.cc.mtag s.cc.rm (s.vlN + 1) ((List.range s.vlN).map fun k => valOf (s.getV vr).data s.cc.rtag k)
    (s.bytes pa s.scaledLength) s.scaledPer

section
variable {s : State} {base : Word} {x : Xlat} (hvl : s.vlN ≠ 0) (h : PlainLeaf s .store base s.scaledLength x)
  (hp : s.poisoned x.pa s.scaledLength = false)
include hvl h hp

theorem State.scaledStore_plain (vr : VReg) :
    s.scaledStore vr base =
      .ok ((((s.dieStore false x.pa ((s.scaledGroups vr x.pa).1.take s.scaledLength)).orFlags
        (s.scaledGroups vr x.pa).2).pendStore (joinStores [{}]).ofVec).retire) := by
  have hn : 0 < s.scaledLength := scaledBytes_pos s.cc.mtag s.scaledPer hvl
  have hold : s.oldBytes [⟨x, s.scaledLength⟩] = s.bytes x.pa s.scaledLength := by
    simp [State.oldBytes, h.ce, State.bytesIn_plain (.inr h.raw)]
  have hlong := h.piecesLong hn
  have hkeep := h.keepByte_last hn hp
  simp only [State.scaledLength, State.scaledPer] at hold hlong hkeep
  simp only [State.scaledStore, hlong, except_bind_ok, List.getLast?_singleton, hkeep, except_pure, ite_self, hold,
    State.storePieces_wm s h.ty h.ce, precise_ok, State.scaledGroups, State.scaledLength, State.scaledPer]

/-- What a store with a scale leaves: all of its groups, where they take the bytes that are theirs. -/
theorem State.scaledStore_out (vr : VReg) :
    ∃ t, finish (s.scaledStore vr base) = .next t ∧ Retires s t (s.cc.pc + 4) ∧ t.cc.x = s.cc.x ∧ t.cc.v = s.cc.v ∧
      t.cc.m = s.cc.m ∧ FlagsSet s t (s.scaledGroups vr x.pa).2 ∧ t.cc.out.s = s.cc.out.s + 1 ∧
      ((s.scaledGroups vr x.pa).1.length = s.scaledLength → t.bytes x.pa s.scaledLength = (s.scaledGroups vr x.pa).1 ∧
        ∀ a, (a < x.pa ∨ x.pa + s.scaledLength ≤ a) → Memory.read t.mem a = Memory.read s.mem a) := by
  have hcc := s.dieStore_cc false x.pa ((s.scaledGroups vr x.pa).1.take s.scaledLength)
  rw [State.scaledStore_plain hvl h hp vr, finish_ok]
  have hend := State.pendStore_retire ((s.dieStore false x.pa ((s.scaledGroups vr x.pa).1.take s.scaledLength)).orFlags
    (s.scaledGroups vr x.pa).2) (joinStores [{}]).ofVec
  refine ⟨_, rfl, ⟨hend.pc.trans ?_, hend.retired.trans ?_⟩, hend.x.trans ?_, hend.v.trans ?_, hend.m.trans ?_,
    hend.fcsr.trans ?_, hend.count.trans ?_, fun hlen => ?_⟩
  · exact congrArg (·.pc + 4) hcc
  · exact congrArg (·.retired + 1) hcc
  · exact congrArg (·.x) hcc
  · exact congrArg (·.v) hcc
  · exact congrArg (·.m) hcc
  · exact congrArg (fun c => c.fcsr ||| _) hcc
  · exact congrArg (·.out.s + 1) hcc
  · obtain ⟨hmem, -⟩ := State.dieStore_raw (s := s) (pa := x.pa) (bs := (s.scaledGroups vr x.pa).1) (hlen ▸ h.raw)
    have htake : (s.scaledGroups vr x.pa).1.take s.scaledLength = (s.scaledGroups vr x.pa).1 :=
      List.take_of_length_le hlen.le
    have hwritten := hend.mem.trans ((congrArg (fun bs => (s.dieStore false x.pa bs).mem) htake).trans hmem)
    refine ⟨?_, fun a ha => ?_⟩
    · rw [State.bytes, hwritten, ← hlen, Memory.readAll_writeAll]
    · rw [hwritten, Memory.read_writeAll_outside _ (by rwa [hlen])]

end

/-! ### Stores -/

/-- Settles O39: the waits; a store in every form by how its translations end; one with a scale; and one of plain elements,
which reach memory in ascending order. -/
theorem vectorStores : Obligations.VectorStores := by
  unfold Obligations.VectorStores
  intro i s form vr xa hform hven hcut
  rw [exec_vecStoreForm hform]
  refine ⟨State.vecStore_waits hven, fun hroom hvf htag hlens htable => ?_⟩
  have hready : StoreReady s form vr (s.getX xa) := ⟨hven, hroom, hvf, htag, hlens, htable⟩
  refine ⟨fun hscale u v items plan ws hitems hscan => ⟨fun hplan hwrite => ?_, fun k t hplan hcause hwrite => ?_⟩,
    fun hraw hscale pa hvl hpa hclean => ?scaled, fun hf hel => ?plain⟩
  · exact hready.done hscale hitems hscan hwrite hplan
  · exact hready.trap hscale hitems hscan hwrite hplan hcause
  case scaled =>
    obtain ⟨x, hx, rfl⟩ := State.plainAt_eq_some.1 hpa
    rw [hready.scaled hraw hscale]
    exact State.scaledStore_out hvl hx hclean vr
  case plain =>
    obtain ⟨-, hscale, htag', -, -⟩ := id hf
    obtain ⟨hwrites, hat⟩ := State.plainWrites hf hcut hel
    have hlen : ∀ k, (leBytes (tagWidth s.cc.mtag / 8) (bitsOf (s.getV vr).data s.cc.rtag k)).length =
      tagWidth s.cc.mtag / 8 := fun k => leBytes_length ..
    obtain ⟨hcc, hmem⟩ := hwrites.writeItems hlen (u := s) rfl
    cases hrun : s.writeItems (s.actives.map fun k => (plainItem (tagWidth s.cc.mtag / 8) (s.elemAddr form (s.getX xa))
      (fun k => leBytes (tagWidth s.cc.mtag / 8) (bitsOf (s.getV vr).data s.cc.rtag k)) k,
      [⟨s.storeLeaf form (s.getX xa) k, tagWidth s.cc.mtag / 8⟩])) with
    | mk v ws =>
    rw [hrun] at hcc hmem
    have hkeeps : ¬ (s.actives.map (plainItem (tagWidth s.cc.mtag / 8) (s.elemAddr form (s.getX xa))
        fun k => leBytes (tagWidth s.cc.mtag / 8) (bitsOf (s.getV vr).data s.cc.rtag k))).any StoreItem.keeps = true := by
      simp [plainItem]
    have hgo := hready.done (.inr hscale) (hf.storeItems form (s.getX xa) (s.getV vr)) (absurd · hkeeps) hrun
      (hwrites.planItems _)
    have hact : ∀ k, k < s.vlN → s.activeAt k = true → k ∈ s.actives := fun k hk ha => (s.activeAt_iff hcut k hk).1 ha
    have hin : ∀ k ∈ s.actives, k < s.vlN ∧ s.activeAt k = true := fun k hk =>
      have hlt := ((mem_actives s k).1 hk).1
      ⟨hlt, (s.activeAt_iff hcut k hlt).2 hk⟩
    have hend := State.pendStore_retire v.takeVstart (joinStores ws).ofVec
    have hwritten := hend.mem.trans hmem
    rw [← htag']
    refine ⟨_, hgo, hend.pc.trans ?_, hend.x.trans ?_, hend.v.trans ?_, hend.m.trans ?_, hend.fcsr.trans ?_, hend.vstart,
      hend.count.trans ?_, fun a ha => ?_, fun k pa hk ha hpa hlast => ?_⟩
    · exact congrArg (·.pc + 4) hcc
    · exact congrArg (·.x) hcc
    · exact congrArg (·.v) hcc
    · exact congrArg (·.m) hcc
    · exact congrArg (·.fcsr) hcc
    · exact congrArg (·.out.s + 1) hcc
    · rw [hwritten]
      refine Memory.read_writeElems_outside hlen (fun k hk => ?_) _
      obtain ⟨hlt, hak⟩ := hin k hk
      exact ha k _ hlt hak (hat k hk)
    · have hka := hact k hk ha
      obtain rfl : (s.storeLeaf form (s.getX xa) k).pa = pa := Option.some.inj ((hat k hka).symm.trans hpa)
      rw [State.bytes, hwritten]
      refine (Memory.readAll_writeElems hlen (actives_sorted s) hka (fun j hj hkj => ?_) _).trans ?_
      · obtain ⟨hlt, haj⟩ := hin j hj
        exact hlast j _ hkj hlt haj (hat j hj)
      · rw [htag']

end Sys2Proof.Machine
end

section
/-! The stacks below the programs: trackers, refresh, remapping, the modes of channels, and the mesh. -/

namespace Sys2Proof.Machine

/-- What every step of a fold keeps, the fold keeps. -/
theorem foldl_keeps {σ β γ : Type} {f : σ → β → σ} (g : σ → γ) (hf : ∀ s b, g (f s b) = g s) (bs : List β) (s : σ) :
    g (bs.foldl f s) = g s := by
  induction bs generalizing s with
  | nil => rfl
  | cons b r ih => exact (ih _).trans (hf s b)

theorem tget_tput_self {α : Type} [DecidableEq α] (d : α) (t : Table α) (k : Nat) (v : α) : tget d (tput d t k v) k = v := by
  rw [tget_tput, if_pos rfl]

/-! ### Row disturbance and refresh (R278, R281, R282) -/

/-- The bank and row that a WM media address selects, by its bits. -/
theorem bankPlace_none (m : BitVec 48) :
    let co := m.toNat / 32768 * 256 + m.toNat % 256
    bankPlace none m = (32 * (m.extractLsb' 8 7 ^^^ m.extractLsb' 21 7).toNat + co / 1024 % 32, co / 32768) := by
  simp [bankPlace, mediaPlace, BitVec.extractLsb'_toNat, Nat.shiftRight_eq_div_pow]

theorem trackRow_nil (row : BitVec 16) : trackRow [] row = ([(row, 1)], false) := rfl

theorem trackRow_single (row : BitVec 16) (n : Nat) :
    trackRow [(row, n)] row = ([(row, if n + 1 = 1024 then 0 else n + 1)], decide (n + 1 = 1024)) := by
  simp only [trackRow, List.find?_cons, beq_self_eq_true, drmt, List.map_cons, List.map_nil, if_true, beq_iff_eq]
  rfl

/-- An activation of a row that its bank has: the tracker, and directed refresh where its count reached the threshold. -/
theorem execActivation_row {bank : Option (BitVec 14)} {at_ : BitVec 48} {s : State}
    (h : (bankPlace bank at_).2 < rowsOf (bankPlace bank at_).1) {e : List (BitVec 16 × Nat)} {hit : Bool}
    (ht : trackRow (tget [] s.trackers (bankPlace bank at_).1) (.ofNat 16 (bankPlace bank at_).2) = (e, hit)) :
    ∃ t, execActivation bank at_ s = .next t ∧ t.mem = s.mem ∧ t.cc = s.cc ∧
      tget [] t.trackers (bankPlace bank at_).1 = e ∧
      t.directed = if hit then neighbours (bankPlace bank at_).1 (.ofNat 16 (bankPlace bank at_).2) else s.directed := by
  have hput := tget_tput_self [] s.trackers (bankPlace bank at_).1 e
  simp only [execActivation, Nat.not_le.2 h, if_false, ht]
  cases hit with
  | false => exact ⟨_, rfl, rfl, rfl, hput, rfl⟩
  | true => exact ⟨_, rfl, rfl, rfl, hput, rfl⟩

theorem execRefresh_out (bank : BitVec 14) (burst : Bool) (s : State) :
    ∃ t, execRefresh bank burst s = .next t ∧ t.mem = s.mem ∧ tget 0 t.postponed bank.toNat =
      if burst = true ∧ tget 0 s.postponed bank.toNat < 8 then tget 0 s.postponed bank.toNat + 1 else 0 := by
  refine ⟨_, rfl, rfl, ?_⟩
  dsimp only
  exact tget_tput_self ..

/-! ### Remapping (R280, R331) -/

theorem execRemapMove_starts {region : BitVec 17} {s : State} (hr : region.toNat < 97664) (hf : s.remapFree ≠ 0)
    (hm : ∀ p ∈ s.remap, p.2.moving = false) :
    execRemapMove region s = .next (({ s with
      remap := tins s.remap region.toNat ⟨true, .ofNat 17 (97664 + (256 - s.remapFree.toNat)),
        match lookupT s.remap region.toNat with | some r => r.media | none => region⟩
      remapFree := s.remapFree - 1 } : State).later (.remapMoveEnd region)) := by
  have hmoving : (s.remap.any fun p => p.2.moving) = false := by simpa using hm
  have hgo : ¬(logicalRegions ≤ region.toNat ∨ s.remapFree = 0 ∨ (s.remap.any fun p => p.2.moving) = true) := by
    rw [not_or, not_or, hmoving]
    exact ⟨Nat.not_le.2 hr, hf, Bool.false_ne_true⟩
  simp only [execRemapMove, hgo, if_false]
  rfl

theorem State.flushMetas_mem (s : State) (region : Nat) : (s.flushMetas region).mem = s.mem := by
  refine foldl_keeps State.mem ?_ _ _
  exact fun _ _ => rfl
theorem State.flushMetas_cc (s : State) (region : Nat) : (s.flushMetas region).cc = s.cc := by
  refine foldl_keeps State.cc ?_ _ _
  exact fun _ _ => rfl

theorem execRemapMoveEnd_moving {region : BitVec 17} {s : State} {r : Remap} (hr : lookupT s.remap region.toNat = some r)
    (hm : r.moving = true) :
    ∃ t, execRemapMoveEnd region s = .next t ∧ t.mem = s.mem ∧ t.cc = s.cc ∧
      lookupT t.remap region.toNat = some { moving := false, dest := 0, media := r.dest } := by
  simp only [execRemapMoveEnd, hr, hm, if_true]
  refine ⟨_, rfl, ?_, ?_, ?_⟩
  · exact (State.flushMetas_mem _ _).trans (State.flushMetas_mem _ _)
  · exact (State.flushMetas_cc _ _).trans (State.flushMetas_cc _ _)
  · exact (lookupT_tins ..).trans (if_pos rfl)

/-! ### The divisor and the channels' modes (R25, R288 to R291) -/

theorem State.chanAt_modChan (s : State) (n k : Nat) (f : Chan → Chan) :
    (s.modChan n f).chanAt k = if k = n then f (s.chanAt n) else s.chanAt k := tget_tput ({} : Chan) s.chans n k _

/-- A channel of which normal mode is wanted, if it runs compute traffic. -/
def Chan.want (c : Chan) : Chan := if c.mode then { c with wanted := true } else c

theorem Chan.want_want (c : Chan) : c.want.want = c.want := by
  unfold Chan.want
  cases h : c.mode <;> simp [h]

theorem State.wantOne_chanAt (s : State) (n k : Nat) :
    (if (s.chanAt n).mode then s.modChan n fun c => { c with wanted := true } else s).chanAt k =
      if k = n then (s.chanAt k).want else s.chanAt k := by
  by_cases hm : (s.chanAt n).mode = true
  · rw [if_pos hm, State.chanAt_modChan]
    by_cases h : k = n
    · simp [h, Chan.want, hm]
    · simp [h]
  · rw [if_neg hm]
    by_cases h : k = n
    · simp [h, Chan.want, hm]
    · simp [h]

theorem State.wantNormal_chanAt (s : State) (ns : List Nat) (k : Nat) :
    (s.wantNormal ns).chanAt k = if k ∈ ns then (s.chanAt k).want else s.chanAt k := by
  unfold State.wantNormal
  induction ns generalizing s with
  | nil => simp
  | cons n r ih =>
    rw [List.foldl_cons, ih, State.wantOne_chanAt]
    by_cases hk : k = n
    · subst hk
      by_cases hr : k ∈ r <;> simp [hr, Chan.want_want]
    · simp [hk]

/-- A key that a table does not list reads as the default. -/
theorem tget_of_not_mem {α : Type} (d : α) (t : Table α) {k : Nat} (h : k ∉ t.map (·.1)) : tget d t k = d := by
  induction t with
  | nil => rfl
  | cons p r ih =>
    rw [List.map_cons, List.mem_cons, not_or] at h
    simp [tget, Ne.symm h.1, ih h.2]

/-- Every channel is asked: one that is not listed is in normal mode. -/
theorem State.wantNormal_all (s : State) (k : Nat) : (s.wantNormal (s.chans.map (·.1))).chanAt k = (s.chanAt k).want := by
  rw [State.wantNormal_chanAt]
  by_cases h : k ∈ s.chans.map (·.1)
  · rw [if_pos h]
  · rw [if_neg h, State.chanAt, tget_of_not_mem _ _ h]
    rfl

theorem State.wantNormal_keeps {γ : Type} (g : State → γ) (hg : ∀ s n f, g (State.modChan s n f) = g s) (s : State)
    (ns : List Nat) : g (s.wantNormal ns) = g s :=
  foldl_keeps g (fun u n => by split <;> [exact hg ..; rfl]) _ _

theorem refreshWaits_isSome (s : State) (ch : Nat) :
    (s.refreshWaits ch).isSome = true ↔ ∃ p ∈ s.postponed, 4096 ≤ p.1 ∧ (p.1 - 4096) / 48 = ch ∧ p.2 ≠ 0 := by
  simp only [State.refreshWaits, Option.isSome_map, List.find?_isSome, Bool.and_eq_true, beq_iff_eq, bne_iff_ne]
  refine exists_congr fun p => and_congr_right fun _ => ?_
  by_cases h : p.1 < 4096
  · simp [cmBankChannel, h, Nat.not_le.2 h]
  · simp [cmBankChannel, h, Nat.not_lt.1 h]

theorem execComputeModeEntry_enters {s : State} {ch : BitVec 8} (hsw : (s.chanAt ch.toNat).sweeps ≠ 0)
    (hno : (s.chanAt ch.toNat).normal = 0) (hmode : (s.chanAt ch.toNat).mode = false)
    (hdue : (s.refreshWaits ch.toNat).isSome = false) :
    execComputeModeEntry ch s = .next (s.modChan ch.toNat fun c => { c with mode := true }) :=
  if_pos ⟨hsw, hno, hmode, by simpa using hdue⟩

theorem execComputeModeEntry_stays {s : State} {ch : BitVec 8}
    (h : (s.chanAt ch.toNat).sweeps = 0 ∨ (s.chanAt ch.toNat).normal ≠ 0 ∨ (s.refreshWaits ch.toNat).isSome = true) :
    execComputeModeEntry ch s = .next s := by
  refine if_neg ?_
  rintro ⟨hsw, hno, -, hdue⟩
  rcases h with h | h | h
  · exact hsw h
  · exact h hno
  · simp [Option.isNone_iff_eq_none.1 hdue] at h

/-! ### CM stores that a channel serves at the end of its unit (R243, R270, R288) -/

theorem State.cmRekey_cmStores (s : State) (r : CmRegion) (sector : Nat) : (s.cmRekey r sector).cmStores = s.cmStores := by
  unfold State.cmRekey
  split
  · rfl
  · split <;> rfl

theorem State.cmWrite_cmStores (s : State) (r : CmRegion) (cells : List (Nat × Byte)) :
    (s.cmWrite r cells).cmStores = s.cmStores := by
  unfold State.cmWrite
  refine (foldl_keeps State.cmStores ?_ _ _).trans (foldl_keeps State.cmStores ?_ _ _)
  · exact fun _ _ => rfl
  · exact fun u k => u.cmRekey_cmStores r k

theorem State.resummarise_cmStores (s : State) (r : CmRegion) (blocks : List Nat) :
    (s.resummarise r blocks).cmStores = s.cmStores := by
  unfold State.resummarise
  split
  · rfl
  · refine foldl_keeps State.cmStores (fun u b => ?_) _ _
    exact State.cmWrite_cmStores _ r _

theorem State.writePart_cmStores (s : State) (p : CmPart) : (s.writePart p).cmStores = s.cmStores := by
  unfold State.writePart
  split
  · rfl
  · exact (State.resummarise_cmStores ..).trans (State.cmWrite_cmStores ..)

theorem State.performPart_cmStores (s : State) (p : CmPart) : (s.performPart p).cmStores = s.cmStores := by
  unfold State.performPart State.underKey
  split <;> exact State.writePart_cmStores _ p

theorem State.performCm_cmStores (s : State) (w : CmStore) : (s.performCm w).cmStores = s.cmStores :=
  foldl_keeps State.cmStores State.performPart_cmStores _ _

theorem State.normalOut_cmStores (s : State) (chans : List Nat) : (s.normalOut chans).cmStores = s.cmStores := by
  refine foldl_keeps State.cmStores ?_ _ _
  exact fun _ _ => rfl

theorem State.complete_cmStores (s : State) (id : BitVec 10) (k : OpClass) : (s.complete id k).cmStores = s.cmStores := by
  unfold State.complete State.modCcAt
  split <;> rfl

/-- A CM store that is performed leaves the list of those that stand. -/
theorem State.cmFinish_cmStores (s : State) (w : CmStore) : (s.cmFinish w).cmStores = s.cmStores.erase w := by
  have h : ((s.performCm w).normalOut w.chans).cmStores = s.cmStores :=
    (State.normalOut_cmStores _ _).trans (s.performCm_cmStores w)
  unfold State.cmFinish
  dsimp only
  split
  · exact congrArg (List.erase · w) h
  · exact (State.complete_cmStores ..).trans (congrArg (List.erase · w) h)

theorem State.cmStoreDone_only {s : State} {w : CmStore} (h : s.cmStores = [w]) (hr : s.cmReady w = true) :
    (s.cmStoreDone w.cc).cmStores = [] := by
  have hold : s.cmOldest w.cc = some w := by simp [State.cmOldest, h]
  simp only [State.cmStoreDone, hold, hr, if_true, State.cmFinish_cmStores, h, List.erase_cons_head]

section
variable {s : State} {ch : BitVec 8} (hm : (s.chanAt ch.toNat).mode = true)
include hm

theorem execNlbExpiry_nothing (h : ∀ w ∈ s.cmStores, ch.toNat ∉ w.chans) : execNlbExpiry ch s = .next s := by
  have hnone : (s.cmStores.filter fun w => w.chans.contains ch.toNat) = [] :=
    List.filter_eq_nil_iff.2 fun w hw => by simpa using h w hw
  simp only [execNlbExpiry, hm, if_true, hnone, List.foldl_nil]

/-- The one CM store that stands is served, if it is queued in the channel. -/
theorem execNlbExpiry_only {w : CmStore} (h : s.cmStores = [w]) (hw : ch.toNat ∈ w.chans) :
    execNlbExpiry ch s = .next (s.cmStoreDone w.cc) := by
  have hq : (s.cmStores.filter fun w => w.chans.contains ch.toNat) = [w] := by simp [h, hw]
  have hthrough : s.cmThrough w = s.cmStoreDone w.cc := by simp [State.cmThrough, h]
  simp only [execNlbExpiry, hm, if_true, hq, List.foldl_cons, hthrough, List.foldl_nil]

theorem execNormalModeRequest_computing :
    execNormalModeRequest ch s = .next (s.modChan ch.toNat fun c => { c with pending := true }) := if_pos hm

end

/-! ### The mesh (R292, R293) -/

/-- A destination by its stack and its channel. -/
theorem meshDest_stack (h : BitVec 64) : meshDest h / 32 = (h.extractLsb' 8 3).toNat := by
  have := (h.extractLsb' 11 5).isLt
  unfold meshDest
  omega

theorem meshSource_stack (h : BitVec 64) : meshSource h / 32 = (h.extractLsb' 16 3).toNat := by
  have := (h.extractLsb' 19 5).isLt
  unfold meshSource
  omega

section
variable {s : State} {router : BitVec 8} {p : MeshPacket}

theorem execMeshPacket_bad (h : meshOk s.variant p.header = false ∨ s.variant.cmstk ≤ router.toNat / 32) :
    execMeshPacket router p s = .next (s.countError 4 1) := if_pos h

variable (hok : meshOk s.variant p.header = true) (hst : router.toNat / 32 < s.variant.cmstk)
include hok hst

theorem execMeshPacket_arrived (h : router.toNat = meshDest p.header) :
    execMeshPacket router p s = .next (if p.poisoned then (s.meshPoison p.header).countError 5 1 else s) := by
  have hgood : ¬(meshOk s.variant p.header = false ∨ s.variant.cmstk ≤ router.toNat / 32) := by simp [hok, hst]
  exact (if_neg hgood).trans (if_pos h)

theorem execMeshPacket_passed (h : router.toNat ≠ meshDest p.header) :
    execMeshPacket router p s =
      .next (s.later (.meshPacket (.ofNat 8 (meshNext s.variant router.toNat (meshDest p.header))) p)) := by
  have hgood : ¬(meshOk s.variant p.header = false ∨ s.variant.cmstk ≤ router.toNat / 32) := by simp [hok, hst]
  exact (if_neg hgood).trans (if_neg h)

end

/-- A poisoned response packet of a move has its stripe sent again. -/
theorem State.meshPoison_move {s : State} {h : BitVec 64} {o : CmOp}
    (hty : (h.extractLsb' 0 4).toNat = 2 ∨ (h.extractLsb' 0 4).toNat = 3)
    (ho : lookupT s.cmOps (h.extractLsb' 48 16).toNat = some o) (hk : o.kind = .move false) :
    lookupT (s.meshPoison h).cmOps (h.extractLsb' 48 16).toNat = some { o with kind := .move true } := by
  unfold State.meshPoison
  rcases hty with hty | hty
  all_goals
    simp only [hty, ho, hk]
    exact (lookupT_tins ..).trans (if_pos rfl)

/-- A poisoned packet of the one query in flight ends it with status 3. -/
theorem State.meshPoison_query {s : State} {h : BitVec 64} {q : Query}
    (hty : (h.extractLsb' 0 4).toNat < 2 ∨ 5 < (h.extractLsb' 0 4).toNat) (hq : s.queries = [q])
    (htag : q.tag.toNat = (h.extractLsb' 48 16).toNat)
    (hstack : attachStack s.variant (dieOf q.cc) =
      (if h.extractLsb' 24 2 = 1 then h.extractLsb' 8 3 else h.extractLsb' 16 3).toNat) :
    (s.meshPoison h).queries = [{ q with status := 3 }] := by
  have hsame : q.tag.setWidth 16 = h.extractLsb' 48 16 := BitVec.eq_of_toNat_eq (by
    rw [BitVec.toNat_setWidth, htag]
    exact Nat.mod_eq_of_lt (BitVec.isLt _))
  have hat : attachStack s.variant (dieOf q.cc) =
      (if h.extractLsb' 24 2 = 1 then meshDest h else meshSource h) / 32 := by
    rw [hstack]
    split
    · exact (meshDest_stack h).symm
    · exact (meshSource_stack h).symm
  have hfind : s.meshQuery h = some q := by simp [State.meshQuery, hq, hsame, hat]
  unfold State.meshPoison
  split
  case h_1 e | h_2 e | h_3 e | h_4 e => omega
  case h_5 => simp [hfind, State.modQuery, hq]

end Sys2Proof.Machine
end

section
/-! Compression of WM: what the sectors of a block hold, and the code that it takes (R283). -/

namespace Sys2Proof.Machine

/-! ### Bytes as words -/

theorem leBytes_leNat (bs : List Byte) : leBytes bs.length (leNat bs) = bs := by
  induction bs with
  | nil => rfl
  | cons b r ih =>
    have hb := b.isLt
    have hlow : BitVec.ofNat 8 (b.toNat + 256 * leNat r) = b := BitVec.eq_of_toNat_eq (by
      rw [BitVec.toNat_ofNat]
      omega)
    have hhigh : (b.toNat + 256 * leNat r) / 256 = leNat r := by omega
    simp only [List.length_cons, leNat, leBytes, hlow, hhigh, ih]

theorem leNat_lt (bs : List Byte) : leNat bs < 2 ^ (8 * bs.length) := by
  have h := leNat_leBytes bs.length (leNat bs)
  rw [leBytes_leNat] at h
  rw [h]
  exact Nat.mod_lt _ (Nat.two_pow_pos _)

theorem wordsOf_length (n f : Nat) (bs : List Byte) : (wordsOf n f bs).length = f := by
  induction f generalizing bs with
  | zero => rfl
  | succ f ih => simp [wordsOf, ih]

theorem wordsOf_lt {n f : Nat} {bs : List Byte} {w : Nat} (h : w ∈ wordsOf n f bs) : w < 2 ^ (8 * n) := by
  induction f generalizing bs with
  | zero => exact absurd h List.not_mem_nil
  | succ f ih =>
    rcases List.mem_cons.1 h with rfl | h
    · refine (leNat_lt _).trans_le (Nat.pow_le_pow_right two_pos (Nat.mul_le_mul_left 8 ?_))
      exact List.length_take_le n bs
    · exact ih h

/-- Words laid out in n bytes each read back as far as n bytes hold them, whatever follows. -/
theorem wordsOf_flatMap (n : Nat) (ws : List Nat) (rest : List Byte) :
    wordsOf n ws.length (ws.flatMap (leBytes n) ++ rest) = ws.map (· % 2 ^ (8 * n)) := by
  induction ws with
  | nil => rfl
  | cons w r ih =>
    have hsplit : (w :: r).flatMap (leBytes n) ++ rest = leBytes n w ++ (r.flatMap (leBytes n) ++ rest) := by simp
    rw [List.length_cons, wordsOf, hsplit, List.take_left' (leBytes_length n w), List.drop_left' (leBytes_length n w), ih,
      leNat_leBytes, List.map_cons]

/-- Bytes are their words, laid out. -/
theorem flatMap_wordsOf (n f : Nat) (bs : List Byte) (h : bs.length = n * f) :
    (wordsOf n f bs).flatMap (leBytes n) = bs := by
  induction f generalizing bs with
  | zero => exact (List.eq_nil_of_length_eq_zero h).symm
  | succ f ih =>
    have hn : (bs.take n).length = n := by
      rw [List.length_take, h, Nat.mul_succ]
      omega
    have hd : (bs.drop n).length = n * f := by
      rw [List.length_drop, h, Nat.mul_succ]
      omega
    have hw : leBytes n (leNat (bs.take n)) = bs.take n := by
      have := leBytes_leNat (bs.take n)
      rwa [hn] at this
    rw [wordsOf, List.flatMap_cons, ih _ hd, hw, List.take_append_drop]

/-- Words laid out are equal when the words are, as far as n bytes hold them. -/
theorem flatMap_leBytes_inj {n : Nat} {us ws : List Nat} (hlen : us.length = ws.length) :
    us.flatMap (leBytes n) = ws.flatMap (leBytes n) ↔ us.map (· % 2 ^ (8 * n)) = ws.map (· % 2 ^ (8 * n)) := by
  have read (l : List Nat) : wordsOf n l.length (l.flatMap (leBytes n)) = l.map (· % 2 ^ (8 * n)) := by
    simpa using wordsOf_flatMap n l []
  have lay (l : List Nat) : (l.map (· % 2 ^ (8 * n))).flatMap (leBytes n) = l.flatMap (leBytes n) := by
    rw [← read l]
    refine flatMap_wordsOf n _ _ ?_
    simp [List.length_flatMap, leBytes_length, Nat.mul_comm]
  constructor
  · intro h
    rw [← read us, ← read ws, h, hlen]
  · intro h
    rw [← lay us, ← lay ws, h]

/-! ### Deltas to the first word -/

/-- A delta kept in k bytes, widened to n bytes by its sign, and added to the first word. -/
def fromDelta (n k w0 d : Nat) : Nat := w0 + if d < 2 ^ (8 * k - 1) then d else d + 2 ^ (8 * n) - 2 ^ (8 * k)

/-- The sizes of the three codes of deltas: words of n bytes, deltas of k (R283). -/
def DeltaSizes (n k : Nat) : Prop := n = 8 ∧ k = 1 ∨ n = 4 ∧ k = 1 ∨ n = 4 ∧ k = 2

/-- A word comes back from its delta exactly where the delta lies in the signed range of k bytes. -/
theorem fromDelta_iff {n k x w0 : Nat} (hnk : DeltaSizes n k) (hx : x < 2 ^ (8 * n)) (hw : w0 < 2 ^ (8 * n)) :
    fromDelta n k w0 ((x + 2 ^ (8 * n) - w0) % 2 ^ (8 * k)) % 2 ^ (8 * n) = x ↔
      (x + 2 ^ (8 * n) - w0) % 2 ^ (8 * n) < 2 ^ (8 * k - 1) ∨
        2 ^ (8 * n) - 2 ^ (8 * k - 1) ≤ (x + 2 ^ (8 * n) - w0) % 2 ^ (8 * n) := by
  unfold fromDelta
  rcases hnk with ⟨rfl, rfl⟩ | ⟨rfl, rfl⟩ | ⟨rfl, rfl⟩
  all_goals
    norm_num at hx hw ⊢
    split <;> omega

theorem deltasFit_cons (w k w0 : Nat) (xs : List Nat) :
    deltasFit w k (w0 :: xs) = true ↔ ∀ x ∈ xs, (x + 2 ^ w - w0) % 2 ^ w < 2 ^ (k - 1) ∨
      2 ^ w - 2 ^ (k - 1) ≤ (x + 2 ^ w - w0) % 2 ^ w := by
  simp [deltasFit]

section
variable {n k : Nat} (hnk : DeltaSizes n k) {bs : List Byte} (hlen : bs.length = 128)
include hnk hlen

theorem DeltaSizes.bytes : 0 < n ∧ n ≤ 8 ∧ bs.length = n * (128 / n) ∧ 128 / n = 128 / n - 1 + 1 := by
  rcases hnk with ⟨rfl, rfl⟩ | ⟨rfl, rfl⟩ | ⟨rfl, rfl⟩ <;> simp [hlen]

/-- The words of a block: the first and the others. -/
theorem wordsOf_block : ∃ w0 xs, wordsOf n (128 / n) bs = w0 :: xs ∧ xs.length = 128 / n - 1 ∧ leNat (bs.take n) = w0 := by
  obtain ⟨-, -, -, hcount⟩ := hnk.bytes hlen
  exact ⟨_, wordsOf n (128 / n - 1) (bs.drop n), by rw [hcount]; rfl, wordsOf_length .., rfl⟩

/-- What the first word and the deltas of a block decode to, whatever follows them. -/
theorem undelta_blockDeltas (rest : List Byte) {w0 : Nat} {xs : List Nat} (hw : wordsOf n (128 / n) bs = w0 :: xs)
    (hxs : xs.length = 128 / n - 1) (h0 : leNat (bs.take n) = w0) :
    undelta n k (bs.take n ++ blockDeltas n k bs ++ rest) =
      (w0 :: xs.map fun x => fromDelta n k w0 ((x + 2 ^ (8 * n) - w0) % 2 ^ (8 * k))).flatMap (leBytes n) := by
  obtain ⟨-, hle, -, -⟩ := hnk.bytes hlen
  have hn : (bs.take n).length = n := by
    rw [List.length_take, hlen]
    omega
  have hdeltas : blockDeltas n k bs = (xs.map fun x => x + 2 ^ (8 * n) - w0).flatMap (leBytes k) := by
    simp [blockDeltas, hw, List.flatMap_map]
  have hread : wordsOf k (128 / n - 1) (blockDeltas n k bs ++ rest) = xs.map fun x => (x + 2 ^ (8 * n) - w0) % 2 ^ (8 * k) := by
    have := wordsOf_flatMap k (xs.map fun x => x + 2 ^ (8 * n) - w0) rest
    rw [List.length_map, hxs, ← hdeltas] at this
    rw [this, List.map_map]
    rfl
  unfold undelta
  rw [List.append_assoc, List.take_left' hn, List.drop_left' hn, hread, h0]
  simp only [List.flatMap_cons, List.flatMap_map]
  rfl

/-- The deltas of a block decode to it exactly where they lie in the signed range. -/
theorem undelta_blockDeltas_iff (rest : List Byte) :
    undelta n k (bs.take n ++ blockDeltas n k bs ++ rest) = bs ↔
      deltasFit (8 * n) (8 * k) (wordsOf n (128 / n) bs) = true := by
  obtain ⟨-, -, hbytes, -⟩ := hnk.bytes hlen
  obtain ⟨w0, xs, hw, hxs, h0⟩ := wordsOf_block hnk hlen
  have hall : ∀ w ∈ w0 :: xs, w < 2 ^ (8 * n) := fun w h => wordsOf_lt (hw ▸ h)
  have hself := flatMap_wordsOf n (128 / n) bs hbytes
  rw [hw] at hself
  rw [undelta_blockDeltas hnk hlen rest hw hxs h0, hw, deltasFit_cons]
  conv_lhs => rhs; rw [← hself]
  rw [flatMap_leBytes_inj (by simp), List.map_cons, List.map_cons, List.cons.injEq, List.map_map, List.map_inj_left]
  refine (and_iff_right rfl).trans (forall_congr' fun x => forall_congr' fun hx => ?_)
  rw [← fromDelta_iff hnk (hall x (.tail _ hx)) (hall w0 (.head _)), Nat.mod_eq_of_lt (hall x (.tail _ hx))]
  rfl

end

/-! ### Codes (R283) -/

/-- Whether a block can be stored under a code: the conditions of R283, none for a block that is stored raw. -/
def blockFits (c : BitVec 4) (bs : List Byte) : Bool :=
  match c.toNat with
  | 1 => bs.all (· == 0)
  | 2 => (wordsOf 4 32 bs).all (· == (wordsOf 4 32 bs).headD 0)
  | 3 => deltasFit 64 8 (wordsOf 8 16 bs)
  | 4 => deltasFit 32 8 (wordsOf 4 32 bs)
  | 5 => deltasFit 32 16 (wordsOf 4 32 bs)
  | _ => true

theorem blockCode_fits (bs : List Byte) : blockFits (blockCode bs) bs = true := by
  unfold blockCode
  dsimp only
  repeat' split
  case isFalse => rfl
  all_goals assumption

/-- The code is the first that the block fits, in the order 1 to 5, and else 0. -/
theorem blockCode_eq (bs : List Byte) :
    blockCode bs = if blockFits 1 bs then 1 else if blockFits 2 bs then 2 else if blockFits 3 bs then 3
      else if blockFits 4 bs then 4 else if blockFits 5 bs then 5 else 0 := rfl

theorem code_cases : ∀ {k : BitVec 4}, k.toNat ≤ 5 → k = 0 ∨ k = 1 ∨ k = 2 ∨ k = 3 ∨ k = 4 ∨ k = 5 := by decide

theorem blockCode_toNat_le (bs : List Byte) : (blockCode bs).toNat ≤ 5 := by
  rw [blockCode_eq]
  repeat' split
  all_goals decide

/-- Of the codes that a block fits, it takes one of the fewest sectors, and of those the lowest. -/
theorem blockCode_least {k : BitVec 4} (hk : k.toNat ≤ 5) {bs : List Byte} (h : blockFits k bs = true) :
    codeSectors (blockCode bs) < codeSectors k ∨
      codeSectors (blockCode bs) = codeSectors k ∧ (blockCode bs).toNat ≤ k.toNat := by
  rw [blockCode_eq]
  rcases code_cases hk with rfl | rfl | rfl | rfl | rfl | rfl
  case inl =>
    repeat' split
    all_goals decide
  all_goals
    simp only [h, if_true]
    repeat' split
    all_goals decide

theorem blockDeltas_length {n k : Nat} (bs : List Byte) : (blockDeltas n k bs).length = (128 / n - 1) * k := by
  simp [blockDeltas, List.length_flatMap, leBytes_length, wordsOf_length]

/-- A body padded with zeros to a length. -/
theorem padded_length {body : List Byte} {m : Nat} (h : body.length ≤ m) :
    (body ++ List.replicate (m - body.length) 0).length = m := by
  rw [List.length_append, List.length_replicate]
  omega

section
variable {bs : List Byte} (hlen : bs.length = 128)
include hlen

/-- Words all equal to the first are copies of it. -/
theorem replicate_take_iff :
    (List.replicate 32 (bs.take 4)).flatten = bs ↔ (wordsOf 4 32 bs).all (· == (wordsOf 4 32 bs).headD 0) = true := by
  have hself := flatMap_wordsOf 4 32 bs hlen
  have hfirst : bs.take 4 = leBytes 4 ((wordsOf 4 32 bs).headD 0) := by
    have := leBytes_leNat (bs.take 4)
    rw [List.length_take, hlen] at this
    exact this.symm
  have hcopies : (List.replicate 32 (bs.take 4)).flatten =
      (List.replicate 32 ((wordsOf 4 32 bs).headD 0)).flatMap (leBytes 4) := by
    rw [hfirst, List.flatMap_replicate]
  have hsmall : (wordsOf 4 32 bs).map (· % 2 ^ (8 * 4)) = wordsOf 4 32 bs :=
    (List.map_congr_left fun w hw => Nat.mod_eq_of_lt (wordsOf_lt hw)).trans (List.map_id' _)
  have hhead : (wordsOf 4 32 bs).headD 0 < 2 ^ (8 * 4) := wordsOf_lt (n := 4) (f := 32) (bs := bs) (.head _)
  rw [hcopies]
  conv_lhs => rhs; rw [← hself]
  rw [flatMap_leBytes_inj (by simp [wordsOf_length]), List.map_replicate, hsmall, Nat.mod_eq_of_lt hhead, eq_comm,
    List.eq_replicate_iff, and_iff_right (wordsOf_length ..)]
  simp

theorem blockSectors_length {c : BitVec 4} (hc : c.toNat ≤ 5) : (blockSectors c bs).length = 32 * codeSectors c := by
  refine padded_length ?_
  rcases code_cases hc with rfl | rfl | rfl | rfl | rfl | rfl
  all_goals simp [codeSectors, blockDeltas_length, hlen]

/-- The sectors of a block decode to it exactly where it fits the code. -/
theorem blockPlain_blockSectors_iff {k : BitVec 4} (hk : k.toNat ≤ 5) {rest : List Byte}
    (hrest : rest.length = 128 - 32 * codeSectors k) :
    blockPlain k (blockSectors k bs ++ rest) = bs ↔ blockFits k bs = true := by
  rcases code_cases hk with rfl | rfl | rfl | rfl | rfl | rfl
  · have h0 : rest = [] := List.eq_nil_of_length_eq_zero hrest
    have hall : bs ++ List.replicate (32 * 4 - bs.length) 0 = bs := by simp [hlen]
    rw [h0, List.append_nil]
    exact iff_of_true hall rfl
  · refine (eq_comm.trans (List.eq_replicate_iff.trans (and_iff_right hlen))).trans ?_
    simp [blockFits]
  · refine Iff.trans (Eq.congr_left ?_) (replicate_take_iff hlen)
    have : (bs.take 4 ++ List.replicate (32 * 1 - (bs.take 4).length) 0 ++ rest).take 4 = bs.take 4 := by
      rw [List.append_assoc, List.take_left' (by simp [hlen])]
    exact congrArg (fun l => (List.replicate 32 l).flatten) this
  · have := undelta_blockDeltas_iff (n := 8) (k := 1) (.inl ⟨rfl, rfl⟩) hlen
      (List.replicate (32 * 1 - (bs.take 8 ++ blockDeltas 8 1 bs).length) 0 ++ rest)
    rw [← List.append_assoc] at this
    exact this
  · have := undelta_blockDeltas_iff (n := 4) (k := 1) (.inr (.inl ⟨rfl, rfl⟩)) hlen
      (List.replicate (32 * 2 - (bs.take 4 ++ blockDeltas 4 1 bs).length) 0 ++ rest)
    rw [← List.append_assoc] at this
    exact this
  · have := undelta_blockDeltas_iff (n := 4) (k := 2) (.inr (.inr ⟨rfl, rfl⟩)) hlen
      (List.replicate (32 * 3 - (bs.take 4 ++ blockDeltas 4 2 bs).length) 0 ++ rest)
    rw [← List.append_assoc] at this
    exact this

end

end Sys2Proof.Machine
end

section
/-! Writes of WM that meet blocks that are stored encoded: the code that a block takes, and the bytes in its slot (R283 to
R285). -/

namespace Sys2Proof.Machine

/-! ### Codes in a stack's metadata cache (R276, R285) -/

theorem lookupT_tdel {α : Type} (t : Table α) (k k' : Nat) :
    lookupT (tdel t k) k' = if k' = k then none else lookupT t k' := by
  induction t with
  | nil => simp [tdel]
  | cons p r ih =>
    simp only [tdel]
    by_cases e : p.1 = k
    · by_cases h : k' = k
      · subst h
        simpa [e] using ih
      · simp [e, h, ih, lookupT_cons, Ne.symm h]
    · by_cases h : p.1 = k'
      · have : k' ≠ k := fun q => e (h.trans q)
        simp [lookupT_cons, h, this]
      · simp [e, lookupT_cons, h, ih]

/-- A line that has been touched is held, the latest. -/
theorem State.touchMeta_head (s : State) (k : Nat) :
    ∃ l ls, tget [] (s.touchMeta k).metas (blockStack k) = l :: ls ∧ l.line = k / metaBlocks := by
  unfold State.touchMeta
  dsimp only
  split
  case h_1 l hl =>
    refine ⟨l, (tget [] s.metas (blockStack k)).filter fun l => l.line != k / metaBlocks, ?_, ?_⟩
    · dsimp only
      exact tget_tput_self ([] : List MetaLine) s.metas _ _
    · simpa using List.find?_some hl
  case h_2 =>
    dsimp only
    exact ⟨_, _, tget_tput_self ([] : List MetaLine) s.metas _ _, rfl⟩

/-- The code of a block is what was set last. -/
theorem State.codeAt_putCode (s : State) (k : Nat) (c : BitVec 4) : (s.putCode k c).codeAt k = c := by
  obtain ⟨l, ls, hls, hl⟩ := s.touchMeta_head k
  have hmetas : tget [] (s.putCode k c).metas (blockStack k) =
      { l with dirty := true, codes := tput 0 l.codes k c } :: ls.map fun l =>
        if l.line == k / metaBlocks then { l with dirty := true, codes := tput 0 l.codes k c } else l := by
    refine (tget_tput_self ..).trans ?_
    rw [hls, List.map_cons, if_pos (by simp [hl])]
  have hfound : (l.line == k / metaBlocks) = true := by simp [hl]
  simp only [State.codeAt, hmetas, List.find?_cons, hfound]
  exact tget_tput_self ..

theorem State.touchMeta_remap (s : State) (k : Nat) : (s.touchMeta k).remap = s.remap := by
  unfold State.touchMeta; dsimp only; split <;> rfl

/-- A snoop changes what the host holds and what goes out to it. -/
theorem State.snoopHost_only (s : State) (pa n : Nat) :
    ∃ o h, s.snoopHost pa n = { s with outbox := o, hostHeld := h } := by
  unfold State.snoopHost
  dsimp only
  split
  · exact ⟨_, _, rfl⟩
  · exact ⟨_, _, rfl⟩

theorem State.mediaBlock_congr {s t : State} (h : t.remap = s.remap) (b : Nat) : t.mediaBlock b = s.mediaBlock b := by
  simp only [State.mediaBlock, State.mediaOf, h]

/-- A block that is encoded anew: its code is that of its bytes. -/
theorem State.codeAt_recode (old : Nat → List Byte) (s : State) (b : Nat) :
    let t := State.recode old s b
    t.codeAt (t.mediaBlock b) = blockCode (s.bytes (128 * b) 128) := by
  have hmedia : (State.recode old s b).mediaBlock b = s.mediaBlock b :=
    State.mediaBlock_congr (s.touchMeta_remap _) b
  dsimp only
  rw [hmedia]
  exact s.codeAt_putCode (s.mediaBlock b) _

/-- And its slot keeps what stood beyond its sectors. -/
theorem State.lookupT_recode (old : Nat → List Byte) (s : State) (b a : Nat) :
    lookupT (State.recode old s b).stored a =
      if a = b then
        if blockCode (s.bytes (128 * b) 128) = 0 then none
        else some (blockSectors (blockCode (s.bytes (128 * b) 128)) (s.bytes (128 * b) 128) ++
          (old b).drop (32 * codeSectors (blockCode (s.bytes (128 * b) 128))))
      else lookupT s.stored a := by
  simp only [State.recode]
  by_cases h : blockCode (s.bytes (128 * b) 128) = 0
  · simp only [h, if_true, lookupT_tdel]
  · simp only [h, if_false, lookupT_tins]

/-! ### A write through a page with CE = 1 (R284) -/

section
variable {s : State} {pa b : Nat} {bs : List Byte} (hb : blocksOf pa bs.length = [b])
include hb

/-- A write within one block encodes that block anew. -/
theorem State.storeIn_true_single :
    s.storeIn true pa bs = State.recode s.storedBlock ((s.snoopHost pa bs.length).putBytes pa bs) b := by
  simp [State.storeIn, hb]

theorem State.storeIn_true_block :
    let t := s.storeIn true pa bs
    let new := t.bytes (128 * b) 128
    t.bytesIn true pa bs.length = bs ∧ (∀ a, a < pa ∨ pa + bs.length ≤ a → Memory.read t.mem a = Memory.read s.mem a) ∧
      t.codeAt (t.mediaBlock b) = blockCode new ∧ (∀ a, a ≠ b → lookupT t.stored a = lookupT s.stored a) ∧
      (blockCode new = 0 → t.storedBlock b = new) ∧
      (blockCode new ≠ 0 →
        t.storedBlock b = blockSectors (blockCode new) new ++ (s.storedBlock b).drop (32 * codeSectors (blockCode new))) := by
  have hmem := s.storeIn_mem pa bs
  have hput : ((s.snoopHost pa bs.length).putBytes pa bs).mem = Memory.writeAll s.mem pa bs := by simp
  have hnew : ((s.snoopHost pa bs.length).putBytes pa bs).bytes (128 * b) 128 = (s.storeIn true pa bs).bytes (128 * b) 128 := by
    simp only [State.bytes, hmem, hput]
  have hcode := State.codeAt_recode s.storedBlock ((s.snoopHost pa bs.length).putBytes pa bs) b
  have hslot := State.lookupT_recode s.storedBlock ((s.snoopHost pa bs.length).putBytes pa bs) b
  rw [← State.storeIn_true_single hb, hnew] at hcode hslot
  refine ⟨?_, fun a ha => ?_, hcode, fun a ha => ?_, fun h0 => ?_, fun h0 => ?_⟩
  · rw [State.bytesIn_true, State.bytes, hmem, Memory.readAll_writeAll]
  · rw [hmem, Memory.read_writeAll_outside _ ha]
  · rw [hslot, if_neg ha]
    exact congrArg (lookupT · a) (s.snoopHost_stored pa bs.length)
  · rw [State.storedBlock, hslot, if_pos rfl, if_pos h0, Option.getD_none]
  · rw [State.storedBlock, hslot, if_pos rfl, if_neg h0, Option.getD_some]

end

/-! ### A write through a page with CE = 0 (R285) -/

/-- The slot of a block with the bytes of a write in it. -/
def mergedSlot (pa b : Nat) (bs st : List Byte) : List Byte :=
  (List.range 128).map fun i =>
    if pa ≤ 128 * b + i ∧ 128 * b + i < pa + bs.length then bs.getD (128 * b + i - pa) 0 else st.getD i 0

theorem mergedSlot_length (pa b : Nat) (bs st : List Byte) : (mergedSlot pa b bs st).length = 128 := by simp [mergedSlot]

theorem mergedSlot_getElem? (pa b : Nat) (bs st : List Byte) {i : Nat} (hi : i < 128) :
    (mergedSlot pa b bs st)[i]? =
      some (if pa ≤ 128 * b + i ∧ 128 * b + i < pa + bs.length then bs.getD (128 * b + i - pa) 0 else st.getD i 0) := by
  simp [mergedSlot, hi]

/-- A slot of 128 bytes decodes to 128 bytes under any code. -/
theorem blockPlain_length (c : BitVec 4) {st : List Byte} (h : st.length = 128) : (blockPlain c st).length = 128 := by
  unfold blockPlain
  split
  case h_6 => exact h
  all_goals simp [undelta, List.length_flatMap, leBytes_length, wordsOf_length, h]

theorem div_of_blocksOf_single {pa n b i : Nat} (hb : blocksOf pa n = [b]) (hi : i < n) : (pa + i) / 128 = b := by
  have := mem_blocksOf (pa := pa) hi
  rwa [hb, List.mem_singleton] at this

section
variable {s : State} {pa b : Nat} {bs st : List Byte} (hb : blocksOf pa bs.length = [b])
  (hst : lookupT s.stored b = some st)
include hb hst

theorem State.storeIn_false_single :
    s.storeIn false pa bs =
      { (s.snoopHost pa bs.length).putBytes pa bs with
        stored := tins s.stored b (mergedSlot pa b bs st)
        mem := Memory.writeAll (Memory.writeAll s.mem pa bs) (128 * b)
          (blockPlain (s.codeAt (s.mediaBlock b)) (mergedSlot pa b bs st)) } := by
  have hsome : s.stored.isEmpty = false := by
    cases h : s.stored with
    | nil => rw [h] at hst; exact absurd hst nofun
    | cons p r => rfl
  have hst' : lookupT ((s.snoopHost pa bs.length).putBytes pa bs).stored b = some st :=
    (congrArg (lookupT · b) (s.snoopHost_stored pa bs.length)).trans hst
  have hcode : ((s.snoopHost pa bs.length).putBytes pa bs).codeAt (((s.snoopHost pa bs.length).putBytes pa bs).mediaBlock b) =
      s.codeAt (s.mediaBlock b) := by
    obtain ⟨o, h, e⟩ := s.snoopHost_only pa bs.length
    rw [e]
    rfl
  unfold State.storeIn
  simp only [Bool.false_eq_true, if_false, hsome, hb, List.foldl_cons, List.foldl_nil, State.storeSlot, hst', hcode,
    State.putBytes_mem, State.snoopHost_mem]
  rw [← s.snoopHost_stored pa bs.length]
  rfl

theorem State.storeIn_false_block (hlen : st.length = 128) :
    let t := s.storeIn false pa bs
    t.bytesIn false pa bs.length = bs ∧ t.codes = s.codes ∧ t.metas = s.metas ∧
      (∀ i, i < 128 → 128 * b + i < pa ∨ pa + bs.length ≤ 128 * b + i → (t.storedBlock b)[i]? = st[i]?) ∧
      t.bytesIn true (128 * b) 128 = blockPlain (s.codeAt (s.mediaBlock b)) (t.storedBlock b) := by
  obtain ⟨o, h, e⟩ := s.snoopHost_only pa bs.length
  have hslot : ∀ a, lookupT (s.storeIn false pa bs).stored a =
      if a = b then some (mergedSlot pa b bs st) else lookupT s.stored a := fun a => by
    rw [State.storeIn_false_single hb hst]
    exact lookupT_tins ..
  have hstored : (s.storeIn false pa bs).storedBlock b = mergedSlot pa b bs st := by
    rw [State.storedBlock, hslot, if_pos rfl, Option.getD_some]
  have hempty : (s.storeIn false pa bs).stored.isEmpty = false := by
    cases hs : (s.storeIn false pa bs).stored with
    | nil =>
      have := hslot b
      rw [hs, if_pos rfl] at this
      exact absurd this nofun
    | cons p r => rfl
  refine ⟨?_, ?_, ?_, fun i hi hout => ?_, ?_⟩
  · unfold State.bytesIn
    simp only [Bool.false_or, hempty, Bool.false_eq_true, if_false]
    refine List.ext_getElem (by simp) fun i h1 h2 => ?_
    have hdiv := div_of_blocksOf_single hb h2
    have hmod : (pa + i) % 128 < 128 := Nat.mod_lt _ (by decide)
    have hat : 128 * b + (pa + i) % 128 = pa + i := by omega
    have hin : pa ≤ 128 * b + (pa + i) % 128 ∧ 128 * b + (pa + i) % 128 < pa + bs.length := by omega
    have hoff : 128 * b + (pa + i) % 128 - pa = i := by omega
    simp only [List.getElem_map, List.getElem_range, hdiv, hslot, if_true, List.getD_eq_getElem?_getD,
      mergedSlot_getElem? pa b bs st hmod, if_pos hin, hoff, Option.getD_some, List.getElem?_eq_getElem h2]
  · rw [State.storeIn_false_single hb hst, e]
    rfl
  · rw [State.storeIn_false_single hb hst, e]
    rfl
  · have hno : ¬(pa ≤ 128 * b + i ∧ 128 * b + i < pa + bs.length) := by omega
    rw [hstored, mergedSlot_getElem? pa b bs st hi, if_neg hno, List.getD_eq_getElem?_getD,
      List.getElem?_eq_getElem (hlen ▸ hi), Option.getD_some]
  · have hplain := blockPlain_length (s.codeAt (s.mediaBlock b)) (mergedSlot_length pa b bs st)
    have hread := Memory.readAll_writeAll (Memory.writeAll s.mem pa bs) (128 * b)
      (blockPlain (s.codeAt (s.mediaBlock b)) (mergedSlot pa b bs st))
    rw [hplain] at hread
    rw [hstored, State.bytesIn_true, State.bytes, State.storeIn_false_single hb hst]
    exact hread

end

/-! ### The stacks -/

/-- Settles O56: each event by its lemma above, in the order of the statement; then the codes of blocks, and the writes
that meet them. -/
theorem stackEvents : Obligations.StackEvents := by
  unfold Obligations.StackEvents
  refine ⟨fun s => ⟨bankPlace_none, fun bank at_ n hrow => ⟨fun hnil => ?first, fun hone => ?again⟩, rfl,
    fun bank => ⟨execRefresh_out bank false s, fun hn => ?postponed, fun hn => ?due⟩,
    fun region hr hf hle hm => ?moves, fun region r => execRemapMoveEnd_moving, fun d => ?divisor, fun ch => ?channel,
    fun router p => ⟨execMeshPacket_bad, fun hok hst => ⟨fun hat => ?arrived, execMeshPacket_passed hok hst⟩⟩,
    fun h => ⟨fun o => State.meshPoison_move, fun q => State.meshPoison_query⟩⟩, fun bs rest hlen => ?codes,
    fun s pa b bs hb => ⟨State.storeIn_true_block hb, fun st hst hlen => State.storeIn_false_block hb hst hlen⟩⟩
  case first =>
    obtain ⟨t, ht, hmem, hcc, htr, hdir⟩ := execActivation_row (s := s) hrow ((congrArg (trackRow · _) hnil).trans (trackRow_nil _))
    exact ⟨t, ht, hmem, hcc, htr, hdir⟩
  case again =>
    obtain ⟨t, ht, hmem, hcc, htr, hdir⟩ := execActivation_row (s := s) hrow ((congrArg (trackRow · _) hone).trans (trackRow_single _ n))
    exact ⟨t, ht, hmem, hcc, htr, fun h => by simpa [h] using hdir, fun h => by simpa [h] using hdir⟩
  case postponed =>
    obtain ⟨t, ht, hmem, hp⟩ := execRefresh_out bank true s
    exact ⟨t, ht, hmem, hp.trans (if_pos ⟨rfl, hn⟩)⟩
  case due =>
    obtain ⟨t, ht, hmem, hp⟩ := execRefresh_out bank true s
    exact ⟨t, ht, hmem, hp.trans (if_neg fun h => Nat.not_lt.2 hn h.2)⟩
  case moves =>
    refine ⟨_, _, execRemapMove_starts hr hf hm, rfl, rfl, (lookupT_tins ..).trans (if_pos rfl), rfl, ?_, rfl, rfl⟩
    rw [BitVec.toNat_ofNat]
    omega
  case divisor =>
    have keeps {γ : Type} (g : State → γ) (hg : ∀ s n f, g (State.modChan s n f) = g s) := State.wantNormal_keeps g hg
    refine ⟨_, rfl, keeps State.divisor (fun _ _ _ => rfl) .., keeps State.mem (fun _ _ _ => rfl) ..,
      keeps State.cc (fun _ _ _ => rfl) .., keeps State.tillers (fun _ _ _ => rfl) .., fun n => ?_⟩
    exact State.wantNormal_all { s with divisor := d } n
  case channel =>
    refine ⟨execComputeModeEntry_enters, execComputeModeEntry_stays, refreshWaits_isSome s ch.toNat,
      fun hm => ⟨execNormalModeRequest_computing hm, execNlbExpiry_nothing hm, fun w hw hch => ?_⟩, fun hp => if_pos hp⟩
    exact ⟨execNlbExpiry_only hm hw hch, fun hr => ⟨_, execNlbExpiry_only hm hw hch, State.cmStoreDone_only hw hr⟩⟩
  case arrived =>
    have hgo := execMeshPacket_arrived hok hst hat
    exact ⟨fun hp => by rw [exec_meshPacket, hgo, hp]; rfl, fun hp => by rw [exec_meshPacket, hgo, hp]; rfl⟩
  case codes =>
    have hcode := blockCode_toNat_le bs
    exact ⟨blockSectors_length hlen hcode, fun hrest => (blockPlain_blockSectors_iff hlen hcode hrest).2 (blockCode_fits bs),
      fun k hk hplain => blockCode_least hk ((blockPlain_blockSectors_iff hlen hk List.length_replicate).1 hplain)⟩

end Sys2Proof.Machine
end

section
/-! The run of a stepped operation (a TMMA, TSAVE or TLOAD): the units that it needs, its start, one step, and its end (R32,
R197, R199). -/

namespace Sys2Proof.Machine

/-! ### Units (R32) -/

theorem State.putEntry_errors (s : State) (a : Nat) (e : BitVec 64) : (s.putEntry a e).errors = s.errors := by
  have h := s.storeBytes_writesMemory a (leBytes 8 e.toNat)
  unfold WritesMemory at h
  exact (congrArg State.errors h :)

theorem State.tlbFind_errors {s u : State} {va : Word} {t : TlbEntry} (h : s.tlbFind va = some (u, t)) :
    u.errors = s.errors := by
  unfold State.tlbFind at h
  split at h
  · obtain ⟨rfl, -⟩ := Prod.mk.inj (Option.some.inj h)
    rfl
  · split at h
    · obtain ⟨rfl, -⟩ := Prod.mk.inj (Option.some.inj h)
      rfl
    · obtain ⟨_, -, he⟩ := Option.map_eq_some_iff.1 h
      obtain ⟨rfl, -⟩ := Prod.mk.inj he
      rfl

theorem State.translateHit_errors {s u : State} {a : Access} {va : Word} {t : TlbEntry} {x : Xlat}
    (h : s.translateHit a va t = some (.ok (u, x))) : u.errors = s.errors := by
  unfold State.translateHit at h
  split at h
  · exact absurd h (by simp)
  · split at h
    · split at h
      · obtain ⟨rfl, -⟩ := Prod.mk.inj (Except.ok.inj (Option.some.inj h))
        exact s.putEntry_errors _ _
      · exact absurd h nofun
    · obtain ⟨rfl, -⟩ := Prod.mk.inj (Except.ok.inj (Option.some.inj h))
      rfl

/-- A miss ends in a wait, or in the trap of its walk. -/
theorem State.translateMiss_cases (s : State) (va : Word) (again : Bool) :
    (∃ u, s.translateMiss va again = .error (.wait u)) ∨ ∃ t, s.translateMiss va again = .error (.trap s t) := by
  unfold State.translateMiss
  dsimp only
  split
  · split
    · split
      · exact .inr ⟨_, rfl⟩
      · exact .inl ⟨_, rfl⟩
    · exact .inl ⟨_, rfl⟩
  · exact .inl ⟨_, rfl⟩

theorem State.translateMiss_not_ok {s u : State} {va : Word} {again : Bool} {x : Xlat} :
    s.translateMiss va again ≠ .ok (u, x) := by
  rcases s.translateMiss_cases va again with ⟨_, h⟩ | ⟨_, h⟩ <;> rw [h] <;> exact nofun

theorem State.translateMiss_trap {s u : State} {va : Word} {again : Bool} {t : Trap}
    (h : s.translateMiss va again = .error (.trap u t)) : u = s := by
  rcases s.translateMiss_cases va again with ⟨_, e⟩ | ⟨_, e⟩ <;> rw [e] at h
  · exact absurd h nofun
  · obtain ⟨rfl, -⟩ := Stop.trap.inj (Except.error.inj h)
    rfl

theorem State.translate_errors {s u : State} {a : Access} {va : Word} {x : Xlat} (h : s.translate a va = .ok (u, x)) :
    u.errors = s.errors := by
  unfold State.translate at h
  split at h
  · exact absurd h State.translateMiss_not_ok
  next v t hfind =>
  split at h
  next p hhit =>
    split at h
    · exact absurd h nofun
    · obtain rfl := Except.ok.inj h
      exact (State.translateHit_errors hhit).trans (State.tlbFind_errors hfind)
  · exact absurd h nofun
  · exact absurd h State.translateMiss_not_ok

theorem State.translate_trap_errors {s u : State} {a : Access} {va : Word} {t : Trap}
    (h : s.translate a va = .error (.trap u t)) : u.errors = s.errors := by
  unfold State.translate at h
  split at h
  · rw [State.translateMiss_trap h]
  next v e hfind =>
  split at h
  · split at h <;> exact absurd h nofun
  · obtain ⟨rfl, -⟩ := Stop.trap.inj (Except.error.inj h)
    rfl
  · rw [State.translateMiss_trap h]
    exact (State.tlbFind_errors hfind : v.errors = s.errors)

/-- The look at the units counts no error. -/
theorem State.unitsOk_trap_errors {kind : Acc} {ps : List (Word × Nat)} {s u : State} {t : Trap}
    (h : s.unitsOk kind ps = .error (.trap u t)) : u.errors = s.errors := by
  induction ps generalizing s with
  | nil => exact absurd h nofun
  | cons p r ih =>
    unfold State.unitsOk at h
    split at h
    next v _ hv => exact (ih h).trans (State.translate_errors hv)
    · exact absurd h nofun
    next v e hv =>
      split at h
      · obtain ⟨rfl, -⟩ := Stop.trap.inj (Except.error.inj h)
        exact State.translate_trap_errors hv
      · exact absurd h nofun

/-- With every part served the units are there. -/
theorem State.unitsOk_served {s : State} {kind : Acc} {ps : List (Word × Nat)}
    (h : ∀ p ∈ ps, (s.served ⟨kind, true, p.2⟩ p.1).isSome = true) : s.unitsOk kind ps = .ok s := by
  induction ps with
  | nil => rfl
  | cons p r ih =>
    obtain ⟨x, hx⟩ := Option.isSome_iff_exists.1 (h p (.head _))
    unfold State.unitsOk
    rw [State.translate_served hx]
    exact ih fun q hq => h q (.tail _ hq)

/-! ### The start (R122, R197, R199) -/

/-- No other context of the core has a step pending. -/
def State.alone (s : State) : Bool :=
  (List.range 4).all fun k => !s.macroPending (BitVec.ofNat 10 (4 * coreOf s.cc.ctxid + k))

theorem State.alone_iff (s : State) :
    s.alone = true ↔ ∀ k, k < 4 → s.macroPending (.ofNat 10 (4 * coreOf s.cc.ctxid + k)) = false := by
  simp [State.alone]

/-- The stepped operation has issued: TSTEP is taken and it is counted in T. -/
def State.macroIssued (s : State) : State := (s.push .t).modCc fun c => { c with tstep := 0 }

/-- The matrix unit serves the context. -/
def State.macroServed (s : State) : State :=
  s.macroIssued.modCore (coreOf s.cc.ctxid) fun k => { k with matrixRR := s.cc.ctxid.setWidth 2 }

theorem State.macroStart_waits {s : State} (h : s.cc.full .t = true) (op : MacroOp) (m : Nat) :
    s.macroStart op m = .error (.wait s) := by
  simp only [State.macroStart, h, stallIf_true, except_bind_error]

section
variable {s : State} (hroom : s.cc.full .t = false) {op : MacroOp} {m : Nat} {h : List Byte} (hh : s.headerOf m op = .ok h)
include hroom hh

theorem State.macroStart_unit_trap {u : State} {t : Trap} (hv : s.variant ≠ .yl8)
    (hu : s.unitsOk op.kind ((s.macroParts h op m).flatMap pageRuns) = .error (.trap u t)) :
    s.macroStart op m = .error (.trap s t) := by
  have hkeep : ({ s with errors := u.errors } : State) = s := by rw [State.unitsOk_trap_errors hu]
  simp only [State.macroStart, hroom, stallIf_false, except_bind_ok, hv, if_false, hh, hu, precise_trap, hkeep,
    except_bind_error]

/-- What follows the start, when every unit is there. -/
theorem State.macroStart_runs
    (hu : s.variant = .yl8 ∨ s.unitsOk op.kind ((s.macroParts h op m).flatMap pageRuns) = .ok s) :
    s.macroStart op m = if s.alone then State.macroRun op 1 m s.macroServed else State.macroRun op 0 m s.macroIssued := by
  by_cases hv : s.variant = .yl8
  · simp only [State.macroStart, hroom, stallIf_false, except_bind_ok, hv, if_true, except_pure]
    rfl
  · simp only [State.macroStart, hroom, stallIf_false, except_bind_ok, hv, if_false, hh, hu.resolve_left hv, precise_ok]
    rfl

end

/-! ### The end (R197, R345) -/

theorem State.count_cc (s : State) (core : Nat) (code : BitVec 8) (k : Nat) : (s.count core code k).cc = s.cc := by
  unfold State.count; dsimp only; split <;> rfl

theorem State.count_mem (s : State) (core : Nat) (code : BitVec 8) (k : Nat) : (s.count core code k).mem = s.mem := by
  unfold State.count; dsimp only; split <;> rfl

/-- T falls, or waits for the writes to peers. -/
theorem ControlCore.endMacro_t {c : ControlCore} (h : c.out.t ≠ 0) : c.endMacro.out.t = c.out.t - 1 + c.sending := by
  have hne : (c.out.get .t == 0) = false := by simpa [OutCnt.get] using h
  unfold ControlCore.endMacro ControlCore.sending
  dsimp only
  split
  · exact (BitVec.sub_add_cancel c.out.t 1).symm
  · unfold ControlCore.decOut
    rw [hne]
    exact (BitVec.add_zero _).symm

/-- A step of the stepped operation of a control core changes its tiles and flags. -/
def MacroStepped (s u : State) : Prop := u.cc = { s.macroIssued.cc with t := u.cc.t, fcsr := u.cc.fcsr }

/-- Where a run stands after its step m of so many. -/
structure MacroLeaves (s u t : State) (op : MacroOp) (m total : Nat) : Prop where
  regs : t.cc.x = s.cc.x
  vectors : t.cc.v = s.cc.v
  masks : t.cc.m = s.cc.m
  tiles : t.cc.t = u.cc.t
  fcsr : t.cc.fcsr = u.cc.fcsr
  tstep : t.cc.tstep = 0
  mem : t.mem = u.mem
  last : m + 1 = total → Retires s t (s.cc.pc + 4) ∧ t.cc.macroOp = none ∧ t.cc.out.t = s.cc.out.t + s.cc.sending
  more : m + 1 < total → t.cc.pc = s.cc.pc ∧ t.cc.macroOp = some (op, m + 1) ∧ t.cc.out.t = s.cc.out.t + 1

/-- The state in which a stepped operation is done, and what it leaves. -/
theorem State.macroDone_cc (u : State) :
    u.macroDone.cc.x = u.cc.x ∧ u.macroDone.cc.v = u.cc.v ∧ u.macroDone.cc.m = u.cc.m ∧ u.macroDone.cc.t = u.cc.t ∧
      u.macroDone.cc.fcsr = u.cc.fcsr ∧ u.macroDone.cc.pc = u.cc.pc + 4 ∧
      u.macroDone.cc.retired = u.cc.retired + 1 ∧ u.macroDone.cc.out = u.cc.endMacro.out := by
  have h := u.cc.endMacro_only
  refine ⟨congrArg (·.x) h, congrArg (·.v) h, congrArg (·.m) h, congrArg (·.t) h, congrArg (·.fcsr) h,
    congrArg (·.pc + 4) h, congrArg (·.retired + 1) h, rfl⟩

section
variable {s u : State} (hroom : s.cc.full .t = false) (hu : MacroStepped s u)
include hu

theorem MacroStepped.done_t (hroom : s.cc.full .t = false) : u.cc.endMacro.out.t = s.cc.out.t + s.cc.sending := by
  have hout : u.cc.out.t = s.cc.out.t + 1 := congrArg (·.out.t) hu
  have hstores : u.cc.sending = s.cc.sending := congrArg (·.sending) hu
  have hne : s.cc.out.t + 1 ≠ 0 := by
    have : s.cc.out.t ≠ 4095 := by simpa [ControlCore.full, OutCnt.get] using hroom
    bv_omega
  rw [ControlCore.endMacro_t (hout ▸ hne), hout, hstores, BitVec.add_sub_cancel]

include hroom in
theorem MacroStepped.leaves (core : Nat) {op : MacroOp} {m total : Nat} :
    MacroLeaves s u
      (if m + 1 < total then (u.count core 9 1).modCc fun c => { c with macroOp := some (op, m + 1) }
        else (u.count core 9 1).macroDone) op m total := by
  have hcc := u.count_cc core 9 1
  have hfield : ∀ {α : Type} (f : ControlCore → α), f u.cc = f { s.macroIssued.cc with t := u.cc.t, fcsr := u.cc.fcsr } :=
    fun f => congrArg f hu
  split
  next hlt =>
    refine ⟨?_, ?_, ?_, ?_, ?_, ?_, u.count_mem core 9 1, fun h => absurd h (Nat.ne_of_lt hlt), fun _ => ⟨?_, rfl, ?_⟩⟩
    · exact (congrArg (·.x) hcc).trans (hfield (·.x))
    · exact (congrArg (·.v) hcc).trans (hfield (·.v))
    · exact (congrArg (·.m) hcc).trans (hfield (·.m))
    · exact congrArg (·.t) hcc
    · exact congrArg (·.fcsr) hcc
    · exact (congrArg (·.tstep) hcc).trans (hfield (·.tstep))
    · exact (congrArg (·.pc) hcc).trans (hfield (·.pc))
    · exact (congrArg (·.out.t) hcc).trans (hfield (·.out.t))
  next hge =>
    obtain ⟨hx, hv, hmm, ht, hf, hpc, hret, hout⟩ := (u.count core 9 1).macroDone_cc
    rw [hcc] at hx hv hmm ht hf hpc hret hout
    refine ⟨hx.trans (hfield (·.x)), hv.trans (hfield (·.v)), hmm.trans (hfield (·.m)), ht, hf, rfl,
      u.count_mem core 9 1, fun _ => ⟨⟨hpc.trans (hfield (·.pc + 4)), hret.trans (hfield (·.retired + 1))⟩, rfl,
        (congrArg (·.t) hout).trans (hu.done_t hroom)⟩, fun h => absurd h hge⟩

end

theorem State.getT_congr {s u : State} (h : u.cc.t = s.cc.t) (k : TReg) : u.getT k = s.getT k := by
  simp only [State.getT, h]

theorem State.macroTotal_congr {s u : State} (h : u.cc.t = s.cc.t) (op : MacroOp) : u.macroTotal op = s.macroTotal op := by
  cases op <;> simp only [State.macroTotal, State.getT_congr h]

/-- One step is made, and the rest is left to the matrix unit. -/
theorem State.macroRun_one {s u : State} {op : MacroOp} {m : Nat} (hm : m < s.macroTotal op)
    (hstep : s.macroStep op m = .ok u) :
    State.macroRun op 1 m s = .ok (if m + 1 < u.macroTotal op
      then (u.count (coreOf s.cc.ctxid) 9 1).modCc fun c => { c with macroOp := some (op, m + 1) }
      else (u.count (coreOf s.cc.ctxid) 9 1).macroDone) := by
  have htotal : (u.count (coreOf s.cc.ctxid) 9 1).macroTotal op = u.macroTotal op :=
    State.macroTotal_congr (congrArg (·.t) (u.count_cc _ _ _)) op
  simp only [State.macroRun, hm, if_true, hstep, htotal]
  split <;> rfl

/-- The step waits for its turn. -/
theorem State.macroRun_zero {s : State} {op : MacroOp} {m : Nat} (hm : m < s.macroTotal op) :
    State.macroRun op 0 m s = .ok (s.modCc fun c => { c with macroOp := some (op, m) }) := by
  simp only [State.macroRun, hm, if_true, macroStop]

/-- The start of a stepped operation that runs its step at once. -/
theorem State.macroStart_steps {s u : State} (hroom : s.cc.full .t = false) {op : MacroOp} {m : Nat} {h : List Byte}
    (hh : s.headerOf m op = .ok h)
    (hunits : s.variant = .yl8 ∨ s.unitsOk op.kind ((s.macroParts h op m).flatMap pageRuns) = .ok s)
    (halone : s.alone = true) (hm : m < s.macroTotal op) (hstep : s.macroServed.macroStep op m = .ok u)
    (hu : MacroStepped s u) :
    ∃ t, s.macroStart op m = .ok t ∧ MacroLeaves s u t op m (u.macroTotal op) := by
  refine ⟨_, ?_, hu.leaves hroom (coreOf s.cc.ctxid)⟩
  rw [State.macroStart_runs hroom hh hunits, halone, if_pos rfl]
  exact State.macroRun_one (s := s.macroServed) hm hstep

end Sys2Proof.Machine
end

section
/-! TSAVE: its steps, and the image of a tile (R197, R198). -/

namespace Sys2Proof.Machine

/-! ### Before the steps -/

theorem State.exec_tsave {s : State} (hven : s.cc.ven = true) (td : TReg) (xa : XReg) :
    exec (.tsave td xa) s = finish (do
      trapIf ((s.getX xa).toNat % 64 != 0) s cAlign (s.getX xa)
      let s0 ← vfenceWait s
      s0.macroStart (.tsave td (s.getX xa)) s.cc.tstep.toNat) := by
  show execTsave td xa s = _
  simp only [execTsave, needVector_ok hven, except_bind_ok]

theorem State.exec_tsave_misaligned {s : State} (hven : s.cc.ven = true) (td : TReg) {xa : XReg}
    (h : (s.getX xa).toNat % 64 ≠ 0) :
    exec (.tsave td xa) s = .next (s.raise { cause := 0x04, tval := s.getX xa }) := by
  have hb : ((s.getX xa).toNat % 64 != 0) = true := by simpa using h
  rw [State.exec_tsave hven, hb, trapIf_true, except_bind_error, finish_trap]
  rfl

theorem State.exec_tsave_aligned {s : State} (hven : s.cc.ven = true) (td : TReg) {xa : XReg}
    (h : (s.getX xa).toNat % 64 = 0) :
    exec (.tsave td xa) s = finish (do
      let s0 ← vfenceWait s
      s0.macroStart (.tsave td (s.getX xa)) s.cc.tstep.toNat) := by
  have hb : ((s.getX xa).toNat % 64 != 0) = false := by simp [h]
  rw [State.exec_tsave hven, hb, trapIf_false, except_bind_ok]

theorem State.exec_tsave_start {s : State} (hven : s.cc.ven = true) (hvf : s.cc.vfence = false) (td : TReg) {xa : XReg}
    (h : (s.getX xa).toNat % 64 = 0) :
    exec (.tsave td xa) s = finish (s.macroStart (.tsave td (s.getX xa)) s.cc.tstep.toNat) := by
  rw [State.exec_tsave_aligned hven td h, vfenceWait_none hvf, except_bind_ok]

/-! ### A step (R197) -/

/-- The bytes of the image that step m of a TSAVE writes. -/
def Tile.chunk (t : Tile) (m : Nat) : List Byte := (t.image.drop (2048 * m)).take 2048

/-- A step in plain memory writes its bytes there. -/
theorem State.tsaveStep_plain {s : State} {td : TReg} {addr : Word} {m : Nat} {x : Xlat}
    (h : PlainLeaf s .store (addr + BitVec.ofNat 64 (2048 * m)) ((s.getT td).chunk m).length x) :
    s.tsaveStep td addr m = .ok (s.dieStore false x.pa ((s.getT td).chunk m)) := by
  have hpieces := h.pieces
  have hstore := State.storePieces_wm s h.ty h.ce ((s.getT td).chunk m).length ((s.getT td).chunk m)
  rw [List.take_length] at hstore
  simp only [Tile.chunk] at hpieces hstore ⊢
  simp only [State.tsaveStep, hpieces, except_bind_ok, hstore]
  rfl

/-- A step that leaves the control core alone. -/
theorem MacroStepped.of_cc {s u : State} (h : u.cc = s.macroServed.cc) : MacroStepped s u := by
  unfold MacroStepped
  rw [h]
  rfl

/-- The translations of a context stand when its stepped operation has issued. -/
theorem PlainLeaf.macroServed {s : State} {kind : Acc} {va : Word} {n : Nat} {x : Xlat} (h : PlainLeaf s kind va n x) :
    PlainLeaf s.macroServed kind va n x := ⟨h.served, h.page, h.ty, h.ce, h.raw, h.clean⟩

section
variable {s : State} {td : TReg} {xa : XReg} (hven : s.cc.ven = true) (ha : (s.getX xa).toNat % 64 = 0)
  (hroom : s.cc.full .t = false) (hvf : s.cc.vfence = false)
include hven ha hroom hvf

theorem State.tsave_unit_trap {u : State} {t : Trap} (hv : s.variant ≠ .yl8)
    (hu : s.unitsOk .store ((s.macroParts [] (.tsave td (s.getX xa)) s.cc.tstep.toNat).flatMap pageRuns) =
      .error (.trap u t)) : exec (.tsave td xa) s = .next (s.raise t) := by
  rw [State.exec_tsave_start hven hvf td ha, State.macroStart_unit_trap hroom (op := .tsave td _) rfl hv hu, finish_trap]

section
variable (hm : s.cc.tstep.toNat < s.macroTotal (.tsave td (s.getX xa)))
  (hunits : s.variant = .yl8 ∨ ∀ p ∈ (s.macroParts [] (.tsave td (s.getX xa)) s.cc.tstep.toNat).flatMap pageRuns,
    (s.served ⟨.store, true, p.2⟩ p.1).isSome = true)
include hm hunits

theorem State.tsave_waits_turn (halone : ¬ s.alone = true) :
    exec (.tsave td xa) s =
      .next (s.macroIssued.modCc fun c => { c with macroOp := some (.tsave td (s.getX xa), s.cc.tstep.toNat) }) := by
  rw [State.exec_tsave_start hven hvf td ha,
    State.macroStart_runs hroom rfl (hunits.imp_right State.unitsOk_served), if_neg halone,
    State.macroRun_zero (s := s.macroIssued) hm, finish_ok]

theorem State.tsave_steps (halone : s.alone = true) {x : Xlat}
    (hx : PlainLeaf s .store (s.getX xa + BitVec.ofNat 64 (2048 * s.cc.tstep.toNat))
      ((s.getT td).chunk s.cc.tstep.toNat).length x) :
    ∃ u t, exec (.tsave td xa) s = .next t ∧ u.cc = s.macroServed.cc ∧
      u.mem = Memory.writeAll s.mem x.pa ((s.getT td).chunk s.cc.tstep.toNat) ∧
      MacroLeaves s u t (.tsave td (s.getX xa)) s.cc.tstep.toNat (s.macroTotal (.tsave td (s.getX xa))) := by
  have hstep : s.macroServed.macroStep (.tsave td (s.getX xa)) s.cc.tstep.toNat =
      .ok (s.macroServed.dieStore false x.pa ((s.getT td).chunk s.cc.tstep.toNat)) :=
    State.tsaveStep_plain (s := s.macroServed) (td := td) hx.macroServed
  have hcc := s.macroServed.dieStore_cc false x.pa ((s.getT td).chunk s.cc.tstep.toNat)
  obtain ⟨t, hgo, hleaves⟩ := State.macroStart_steps hroom (h := []) rfl (hunits.imp_right State.unitsOk_served) halone hm
    hstep (.of_cc hcc)
  have htiles := congrArg (·.t) hcc
  rw [State.macroTotal_congr (s := s.macroServed) htiles] at hleaves
  refine ⟨_, t, ?_, hcc, (State.dieStore_raw (s := s.macroServed) hx.raw).1, hleaves⟩
  rw [State.exec_tsave_start hven hvf td ha, hgo, finish_ok]

end

end

/-! ### Slices of lists -/

theorem slice_append_right {α : Type} {a b : List α} {k : Nat} (h : a.length = k) (off n : Nat) :
    ((a ++ b).drop (k + off)).take n = (b.drop off).take n := by
  rw [← h, ← List.drop_drop, List.drop_left]

/-- A slice within one of several parts of equal length. -/
theorem slice_flatMap {α : Type} {f : Nat → List α} {n : Nat} (hlen : ∀ i, (f i).length = n) (is : List Nat) (tail : List α)
    {i off m : Nat} (hi : i < is.length) (hm : off + m ≤ n) :
    ((is.flatMap f ++ tail).drop (i * n + off)).take m = ((f is[i]).drop off).take m := by
  induction is generalizing i with
  | nil => exact absurd hi (Nat.not_lt_zero i)
  | cons k r ih =>
    rw [List.flatMap_cons, List.append_assoc]
    cases i with
    | zero =>
      have hoff : off ≤ (f k).length := by rw [hlen]; omega
      have hfit : m ≤ ((f k).drop off).length := by rw [List.length_drop, hlen]; omega
      rw [Nat.zero_mul, Nat.zero_add, List.drop_append_of_le_length hoff, List.take_append_of_le_length hfit]
      rfl
    | succ j =>
      have hj : (j + 1) * n + off = n + (j * n + off) := by rw [Nat.succ_mul]; omega
      rw [hj, slice_append_right (hlen k)]
      exact ih (Nat.lt_of_succ_lt_succ hi)

theorem slice_flatMap_range {α : Type} {f : Nat → List α} {n k : Nat} (hlen : ∀ i, (f i).length = n) (tail : List α)
    {i off m : Nat} (hi : i < k) (hm : off + m ≤ n) :
    (((List.range k).flatMap f ++ tail).drop (i * n + off)).take m = ((f i).drop off).take m := by
  rw [slice_flatMap hlen (List.range k) tail (by simpa using hi) hm, List.getElem_range]

theorem length_flatMap_range {α : Type} {f : Nat → List α} {n : Nat} (hlen : ∀ i, (f i).length = n) (k : Nat) :
    ((List.range k).flatMap f).length = k * n := by
  induction k with
  | zero => simp
  | succ k ih => rw [List.range_succ, List.flatMap_append, List.length_append, ih, Nat.succ_mul]; simp [hlen]

theorem slice_leBytes (n v : Nat) : ((leBytes n v).drop 0).take n = leBytes n v :=
  List.take_of_length_le (leBytes_length n v).le

/-- The numbers of one little-endian width in a row, and what follows them. -/
theorem slice_words {k : Nat} (n : Nat) (v : Nat → Nat) (tail : List Byte) {i : Nat} (hi : i < k) :
    ((((List.range k).flatMap fun j => leBytes n (v j)) ++ tail).drop (i * n)).take n = leBytes n (v i) := by
  have h := slice_flatMap_range (fun j => leBytes_length n (v j)) tail hi (off := 0) (Nat.zero_add n).le
  rwa [Nat.add_zero, slice_leBytes] at h

/-! ### The image (R198) -/

/-- The first twelve bytes of the header of a configured tile, and the header. -/
theorem Tile.header_of_cfg {t : Tile} {w : BitVec 32} (h : t.cfg = some w) :
    t.header = leBytes 4 w.toNat ++ (leBytes 1 t.rank ++ ([(if t.inUse then 1 else 0) + (if t.scaled then 2 else 0)] ++
      (leBytes 2 0 ++ (leBytes 4 (bodyBytes w) ++ List.replicate 52 0)))) := by
  have hmark : leBytes 1 ((if t.inUse then 1 else 0) + (if t.scaled then 2 else 0)) =
      [(if t.inUse then 1 else 0) + (if t.scaled then 2 else 0)] := by
    cases t.inUse <;> cases t.scaled <;> rfl
  simp only [Tile.header, h, hmark, List.append_assoc]

theorem Tile.header_length {t : Tile} {w : BitVec 32} (h : t.cfg = some w) : t.header.length = 64 := by
  simp [Tile.header_of_cfg h, leBytes_length]

theorem Tile.image_of_cfg {t : Tile} {w : BitVec 32} (h : t.cfg = some w) : t.image = t.header ++ t.body := by
  simp [Tile.image, h]

/-- A slice of the body stands 64 bytes further in the image. -/
theorem Tile.image_body {t : Tile} {w : BitVec 32} (h : t.cfg = some w) (off n : Nat) :
    (t.image.drop (64 + off)).take n = (t.body.drop off).take n := by
  rw [Tile.image_of_cfg h, slice_append_right (Tile.header_length h)]

theorem rowToMem_plain {t : Tag} (hx : isSx t = false) (hs : isSub t = false) (cols : Nat) (v : VecReg) :
    rowToMem t cols v = (List.range cols).flatMap fun k => leBytes (tagWidth t / 8) (slotOf v.data t k) := by
  simp only [rowToMem, hx, hs, Bool.false_eq_true, if_false]

/-- The elements of a dense tile lie in its body row by row. -/
theorem Tile.body_dense {t : Tile} {w : BitVec 32} (h : t.cfg = some w) (hf : cfgFactored w = false)
    (hx : isSx (cfgTag w) = false) (hs : isSub (cfgTag w) = false) {r c : Nat} (hr : r < cfgRows w) (hc : c < cfgCols w) :
    (t.body.drop ((r * cfgCols w + c) * (tagWidth (cfgTag w) / 8))).take (tagWidth (cfgTag w) / 8) =
      leBytes (tagWidth (cfgTag w) / 8) (slotOf (t.row r).data (cfgTag w) c) := by
  have hword : t.word = w := by simp [Tile.word, h]
  have hrow : ∀ i, (rowToMem (cfgTag w) (cfgCols w) (t.row i)).length = cfgCols w * (tagWidth (cfgTag w) / 8) := fun i => by
    rw [rowToMem_plain hx hs, length_flatMap_range fun _ => leBytes_length ..]
  have hfit : c * (tagWidth (cfgTag w) / 8) + tagWidth (cfgTag w) / 8 ≤ cfgCols w * (tagWidth (cfgTag w) / 8) := by
    rw [← Nat.succ_mul]
    exact Nat.mul_le_mul_right _ hc
  have hoff : (r * cfgCols w + c) * (tagWidth (cfgTag w) / 8) =
      r * (cfgCols w * (tagWidth (cfgTag w) / 8)) + c * (tagWidth (cfgTag w) / 8) := by
    rw [Nat.add_mul, Nat.mul_assoc]
  simp only [Tile.body, Tile.factored, Tile.tag, Tile.nrows, Tile.ncols, hword, hf, Bool.false_eq_true, if_false]
  rw [hoff, slice_flatMap_range hrow _ hr hfit, rowToMem_plain hx hs]
  have hcell := slice_words (tagWidth (cfgTag w) / 8) (slotOf (t.row r).data (cfgTag w)) [] hc
  rwa [List.append_nil] at hcell

theorem factorBytes_length (n : Nat) (u : List (BitVec 32)) : (factorBytes n u).length = n * 4 :=
  length_flatMap_range (fun _ => leBytes_length ..) n

/-- The factors u of a factored tile lie in its body one after another, as many as its greatest rank, and v after them. -/
theorem Tile.body_factored {t : Tile} {w : BitVec 32} (h : t.cfg = some w) (hf : cfgFactored w = true) {j k : Nat}
    (hj : j < cfgMaxRank w) :
    (k < cfgRows w → (t.body.drop ((j * cfgRows w + k) * 4)).take 4 =
        leBytes 4 (factorBits (t.us[j]?.getD []) k).toNat) ∧
      (k < cfgCols w → (t.body.drop ((cfgMaxRank w * cfgRows w + j * cfgCols w + k) * 4)).take 4 =
        leBytes 4 (factorBits (t.vs[j]?.getD []) k).toNat) := by
  have hword : t.word = w := by simp [Tile.word, h]
  have hcell : ∀ (us : List (List (BitVec 32))) (n : Nat) (tail : List Byte), k < n →
      (((List.range (cfgMaxRank w)).flatMap (fun j => factorBytes n (us[j]?.getD [])) ++ tail).drop
        (j * (n * 4) + k * 4)).take 4 = leBytes 4 (factorBits (us[j]?.getD []) k).toNat := fun us n tail hk => by
    rw [slice_flatMap_range (fun j => factorBytes_length n (us[j]?.getD [])) tail hj (by omega)]
    have := slice_words 4 (fun i => (factorBits (us[j]?.getD []) i).toNat) [] hk
    rwa [List.append_nil] at this
  have hu : (j * cfgRows w + k) * 4 = j * (cfgRows w * 4) + k * 4 := by ring
  have hv : (cfgMaxRank w * cfgRows w + j * cfgCols w + k) * 4 =
      cfgMaxRank w * (cfgRows w * 4) + (j * (cfgCols w * 4) + k * 4) := by ring
  simp only [Tile.body, Tile.factored, Tile.nrows, Tile.ncols, hword, hf, if_true]
  refine ⟨fun hk => ?_, fun hk => ?_⟩
  · rw [hu, hcell t.us _ _ hk]
  · rw [hv, slice_append_right (length_flatMap_range (fun j => factorBytes_length _ _) _), ← hcell t.vs (cfgCols w) [] hk,
      List.append_nil]

end Sys2Proof.Machine
end

section
/-! Rules of tiles: what a tile, a row or an element reads after a write, and the fields of a range of memory. -/

namespace Sys2Proof.Machine

/-! ### Tiles, rows and elements (R35, R179) -/

theorem State.getT_putT (s : State) (n k : TReg) (t : Tile) : (s.putT n t).getT k = if k = n then t else s.getT k := by
  by_cases h : k = n
  · subst h
    simp [State.getT, State.putT, State.modCc]
  · have hne : n.toNat ≠ k.toNat := fun e => h (BitVec.eq_of_toNat_eq e.symm)
    simp [State.getT, State.putT, State.modCc, h, Vector.getElem_set_ne _ _ hne]

theorem State.getT_putT_self (s : State) (n : TReg) (t : Tile) : (s.putT n t).getT n = t := by
  rw [State.getT_putT, if_pos rfl]

theorem State.getT_putT_other (s : State) {n k : TReg} (h : k ≠ n) (t : Tile) : (s.putT n t).getT k = s.getT k := by
  rw [State.getT_putT, if_neg h]

theorem Tile.row_putRow (t : Tile) (i j : Nat) (v : VecReg) :
    (t.putRow i v).row j = if j = i then ⟨v.data, v.side, t.tag⟩ else t.row j := by
  have htag : (t.putRow i v).tag = t.tag := rfl
  simp only [Tile.row, htag]
  simp only [Tile.putRow, tget_tput]
  split <;> rfl

/-- A slot of elements packed in order. -/
theorem fieldAt_pack (w : Nat) (g : Nat → Nat) (n c : Nat) :
    fieldAt ((List.range n).foldl (fun a i => setField a w i (g i)) 0) w c = if c < n then g c % 2 ^ w else 0 := by
  induction n with
  | zero => simp [fieldAt]
  | succ n ih =>
    rw [List.range_succ, List.foldl_append, List.foldl_cons, List.foldl_nil, fieldAt_setField, ih]
    by_cases hc : c = n
    · simp [hc]
    · have : c < n + 1 ↔ c < n := by omega
      simp [hc, this]

/-- A slot of a register that elements have been packed into. -/
theorem slotOf_packElems {t : Tag} {n c : Nat} (hc : c < n) (hfit : tagWidth t * c + tagWidth t ≤ 8192) (f : Nat → Nat) :
    slotOf (packElems t n f) t c = fillSlot t (f c) % 2 ^ tagWidth t := by
  rw [slotOf, packElems, BitVec.toNat_ofNat, fieldAt_mod _ _ _ _ hfit, fieldAt_pack _ fun i => fillSlot t (f i)]
  exact if_pos hc

/-- Outside the packed formats a slot holds the bits themselves. -/
theorem fillSlot_plain : ∀ t : Tag, isSub t = false → isSx t = false → ∀ b, fillSlot t b = b := by
  intro t hsub hsx b
  obtain ⟨h1, h2⟩ : (t == tE2M1) = false ∧ (t == tI4) = false := by simpa [isSub] using hsub
  simp only [fillSlot, h1, h2, hsx, Bool.false_eq_true, if_false]

theorem cfgCols_le (w : BitVec 32) : cfgCols w ≤ 256 := by
  have := (w.extractLsb' 8 8).isLt
  unfold cfgCols
  omega

/-- The slots of a row of a tile, of 32 bits or fewer, lie within it. -/
theorem rowSlot_fits (w : BitVec 32) {t : Tag} (ht : tagWidth t ≤ 32) {c : Nat} (hc : c < cfgCols w) :
    tagWidth t * c + tagWidth t ≤ 8192 := by
  have := cfgCols_le w
  calc tagWidth t * c + tagWidth t = tagWidth t * (c + 1) := by ring
    _ ≤ 32 * 256 := Nat.mul_le_mul ht (by omega)
    _ = 8192 := rfl

/-! ### The fields of a range of memory (R210) -/

theorem State.bytes_slice (s : State) (pa : Nat) {off n k : Nat} (h : off + n ≤ k) :
    ((s.bytes pa k).drop off).take n = s.bytes (pa + off) n := by
  refine List.ext_getElem ?_ fun i h1 h2 => ?_
  · simp only [State.bytes, Memory.readAll, List.length_take, List.length_drop, List.length_map, List.length_range]
    omega
  · simp [State.bytes, Memory.readAll, Nat.add_assoc]

theorem State.leNat_slice (s : State) (pa : Nat) {off n k : Nat} (h : off + n ≤ k) :
    leNat (((s.bytes pa k).drop off).take n) = s.peek (pa + off) n := by
  rw [State.bytes_slice s pa h]
  rfl

theorem State.bytes_length (s : State) (pa n : Nat) : (s.bytes pa n).length = n := by
  simp [State.bytes, Memory.readAll]

theorem State.peek_lt (s : State) (pa n : Nat) : s.peek pa n < 2 ^ (8 * n) := by
  have := leNat_lt (s.bytes pa n)
  rwa [State.bytes_length] at this

end Sys2Proof.Machine
end

section
/-! TMMA: its checks and its shape record, one row of A, and a step (R195, R196). -/

namespace Sys2Proof.Machine

/-- An element of whole bytes takes one byte or more. -/
theorem wholeBytes_size {t : Tag} (hval : isVal t = true) (hsub : isSub t = false) :
    tagWidth t / 8 = memBits t / 8 ∧ 1 ≤ memBits t / 8 := by
  have hbits := memBits_of_wholeBytes _ hval hsub
  have hpos := tagWidth_pos t
  have hdvd := tagWidth_dvd_of_wholeBytes _ hval hsub
  rw [hbits]
  omega

/-! ### The checks (R183, R195) -/

/-- What the checks of a TMMA ask of its tiles and of MFMT, for A in whole bytes without scale. -/
structure TmmaTags (s : State) (td ts : TReg) (w x : BitVec 32) : Prop where
  ready : s.tilesReady
  rawm : s.cc.rawm = false
  scale : s.cc.scaleMode = 0
  dst : (s.getT td).cfg = some w
  src : (s.getT ts).cfg = some x
  dstDense : cfgFactored w = false
  srcDense : cfgFactored x = false
  cols : cfgCols w = cfgCols x
  notI32 : cfgTag x ≠ tI32
  val : isVal s.cc.mtag = true
  sub : isSub s.cc.mtag = false
  pair : s.cc.mtag = cfgTag x ∨ (s.cc.mtag = tE4M3 ∨ s.cc.mtag = tE5M2) ∧ (cfgTag x = tE4M3 ∨ cfgTag x = tE5M2)
  acc : cfgTag w = (if (cfgTag x).toNat = 1 then tI32 else tFP32)

theorem pushGuard_tilesReady {s : State} (h : s.tilesReady) (ds : List Nat) : pushGuard s ds = .ok () := by
  obtain ⟨hven, hloop⟩ := h
  refine pushGuard_ok hven fun ha hi => ?_
  rw [hloop ha] at hi
  exact absurd hi Bool.false_ne_true

theorem conflictIf_false (s : State) (reason : Nat) (td : TReg) : conflictIf false s reason td = .ok () := rfl

section
variable {s : State} {td ts : TReg} {w x : BitVec 32} (h : TmmaTags s td ts w x)
include h

theorem TmmaTags.dst_word : (s.getT td).word = w := by simp [Tile.word, h.dst]
theorem TmmaTags.src_word : (s.getT ts).word = x := by simp [Tile.word, h.src]
theorem TmmaTags.mtag_notSx : isSx s.cc.mtag = false := isSx_of_isVal _ h.val

theorem TmmaTags.src_notSx : isSx (cfgTag x) = false := by
  rcases h.pair with he | ⟨-, he | he⟩
  · exact he ▸ h.mtag_notSx
  · rw [he]; decide
  · rw [he]; decide

theorem TmmaTags.src_notI4 : cfgTag x ≠ tI4 := by
  have hsub := h.sub
  rcases h.pair with he | ⟨-, he | he⟩
  · intro hx
    rw [he, hx] at hsub
    exact absurd hsub (by decide)
  · rw [he]; decide
  · rw [he]; decide

/-- An accumulator has 32 bits. -/
theorem TmmaTags.dst_width : tagWidth (cfgTag w) = 32 ∧ isSub (cfgTag w) = false ∧ isSx (cfgTag w) = false := by
  rw [h.acc]
  split <;> decide

theorem TmmaTags.tag_check :
    (!(s.getT ts).factored && (s.getT ts).tag != tI32 &&
      (s.cc.mtag == (s.getT ts).tag || ((s.cc.mtag == tE4M3 || s.cc.mtag == tE5M2) &&
        ((s.getT ts).tag == tE4M3 || (s.getT ts).tag == tE5M2))) &&
      (s.getT td).tag == (if (s.getT ts).tag.toNat == 1 || (s.getT ts).tag == tI4 then tI32 else tFP32) && !s.cc.rawm) = true := by
  have hI4 : (cfgTag x == tI4) = false := by simpa using h.src_notI4
  have hI32 : (cfgTag x != tI32) = true := by simpa using h.notI32
  have hacc : (cfgTag w == (if (cfgTag x).toNat == 1 then tI32 else tFP32)) = true := by simpa using h.acc
  have hpair : (s.cc.mtag == cfgTag x || ((s.cc.mtag == tE4M3 || s.cc.mtag == tE5M2) &&
      (cfgTag x == tE4M3 || cfgTag x == tE5M2))) = true := by simpa using h.pair
  simp only [Tile.factored, Tile.tag, h.src_word, h.dst_word, h.srcDense, hI4, hI32, hpair, h.rawm, Bool.or_false, hacc,
    Bool.not_false, Bool.and_true]

theorem TmmaTags.guard : tmmaGuard s td ts = .ok () := by
  have hfind : ([td, ts].find? fun t => (s.getT t).cfg.isNone) = none := by simp [h.dst, h.src]
  have htiles : tileGuard s [tCode td] [td, ts] = .ok () := by
    simp only [tileGuard, pushGuard_tilesReady h.ready, except_bind_ok, hfind, except_pure]
  have hshape : ((s.getT td).ncols != (s.getT ts).ncols || (isSx s.cc.mtag && (s.getT ts).nrows % 16 != 0)) = false := by
    simp [Tile.ncols, h.dst_word, h.src_word, h.cols, h.mtag_notSx]
  have hdense : (s.getT td).factored = false := by simp [Tile.factored, h.dst_word, h.dstDense]
  simp only [tmmaGuard, htiles, except_bind_ok, hshape, hdense, conflictIf_false, tagCheck_ok h.tag_check]

end

/-! ### The shape record (R195) -/

/-- The row count of a record, bounded, and its strides. -/
def State.recRows (s : State) (pr : Nat) : Nat := min (s.peek (pr + 24) 2) (s.peek (pr + 26) 2)
def State.recStride (s : State) (pr off : Nat) : Int := (BitVec.ofNat 32 (s.peek (pr + off) 4)).toInt

/-- A record in plain memory with a fixed count, whose fields are in order. -/
structure TmmaRecord (s : State) (rec : Word) (pr : Nat) (w : BitVec 32) : Prop where
  aligned : rec.toNat % 32 = 0
  plain : s.plainAt .load rec 32 = some pr
  fixed : s.peek (pr + 16) 8 = 0
  bound_le : s.peek (pr + 26) 2 ≤ cfgRows w
  bound_pos : 0 < s.peek (pr + 26) 2
  flags : s.peek (pr + 28) 2 ≤ 1
  zero : s.peek (pr + 30) 2 = 0
  stride : s.recStride pr 12 % (memBits s.cc.mtag / 8 : Nat) = 0

/-- The stepped operation that a record gives. -/
def State.recOp (s : State) (strict : Bool) (td ts : TReg) (pr : Nat) : MacroOp :=
  .tmma strict td ts (.ofNat 64 (s.peek pr 8)) (.ofInt 32 (s.recStride pr 8)) (.ofInt 32 (s.recStride pr 12)) (s.recRows pr)

section
variable {s : State} {td ts : TReg} {w x : BitVec 32} (h : TmmaTags s td ts w x) {rec : Word} {pr : Nat}
  (hr : TmmaRecord s rec pr w)
include h hr

theorem TmmaRecord.strideCheck_ok : strideCheck s s.cc.mtag (BitVec.ofNat 32 (s.peek (pr + 12) 4)) = .ok () := by
  obtain ⟨hsize, -⟩ := wholeBytes_size h.val h.sub
  have hmod := hr.stride
  rw [← hsize] at hmod
  have hb : ((BitVec.ofNat 32 (s.peek (pr + 12) 4)).toInt % (tagWidth s.cc.mtag / 8 : Nat) != 0) = false := by
    simpa [State.recStride] using hmod
  simp only [strideCheck, h.sub, h.mtag_notSx, hb, Bool.or_false, Bool.and_false, trapIf_false]

theorem State.tmmaIssue_ok (strict : Bool) : s.tmmaIssue strict td ts rec = .ok (s, s.recOp strict td ts pr) := by
  obtain ⟨y, hy, rfl⟩ := State.plainAt_eq_some.1 hr.plain
  have hal : (rec.toNat % 32 != 0) = false := by simp [hr.aligned]
  have hb0 : (s.peek (y.pa + 26) 2 == 0) = false := by simpa using Nat.ne_of_gt hr.bound_pos
  have hf : decide (1 < s.peek (y.pa + 28) 2) = false := by simpa using hr.flags
  have hrows : decide ((s.getT td).nrows < s.peek (y.pa + 26) 2) = false := by
    simpa [Tile.nrows, h.dst_word] using hr.bound_le
  have hz : (s.peek (y.pa + 30) 2 != 0) = false := by simp [hr.zero]
  have hbase : leNat (((s.bytes y.pa 32).drop 0).take 8) = s.peek y.pa 8 := s.leNat_slice y.pa (by omega)
  have hstride : strideCheck s s.cc.mtag (BitVec.ofNat 32 (s.peek (y.pa + 12) 4)) = .ok () := hr.strideCheck_ok h
  have hcount : ((0 : Word) != 0 && (0 : Word).toNat % 4 != 0) = false := rfl
  have hzero : BitVec.ofNat 64 0 = 0 := rfl
  simp only [State.tmmaIssue, h.guard, except_bind_ok, hal, trapIf_false, hy.pieces, hy.loadPieces rec, hbase,
    s.leNat_slice y.pa (show 8 + 4 ≤ 32 by omega), s.leNat_slice y.pa (show 12 + 4 ≤ 32 by omega),
    s.leNat_slice y.pa (show 16 + 8 ≤ 32 by omega), s.leNat_slice y.pa (show 24 + 2 ≤ 32 by omega),
    s.leNat_slice y.pa (show 26 + 2 ≤ 32 by omega), s.leNat_slice y.pa (show 28 + 2 ≤ 32 by omega),
    s.leNat_slice y.pa (show 30 + 2 ≤ 32 by omega), hb0, hf, hrows, hz, Bool.or_false, hr.fixed, hcount, hstride, hzero,
    if_true, except_pure, precise_ok, State.recOp, State.recRows, State.recStride, BitVec.ofInt_toInt]

end

theorem State.exec_tmma {s : State} {td ts : TReg} {xa : XReg} (hvf : s.cc.vfence = false) {w x : BitVec 32}
    (h : TmmaTags s td ts w x) {pr : Nat} (hr : TmmaRecord s (s.getX xa) pr w) (strict : Bool) :
    exec (if strict then .tmmaS td xa ts else .tmmaF td xa ts) s =
      finish (s.macroStart (s.recOp strict td ts pr) s.cc.tstep.toNat) := by
  have hexec : exec (if strict then .tmmaS td xa ts else .tmmaF td xa ts) s = s.tmma strict td xa ts := by
    cases strict <;> rfl
  rw [hexec]
  simp only [State.tmma, vfenceWait_none hvf, except_bind_ok, State.tmmaIssue_ok h hr strict]

/-! ### A row of A (R195, R196) -/

theorem foldlM_keep {ε σ α : Type} {f : σ → α → Except ε σ} {s : σ} (xs : List α) (h : ∀ x ∈ xs, f s x = .ok s) :
    xs.foldlM f s = .ok s := by
  induction xs with
  | nil => rfl
  | cons x r ih =>
    rw [List.foldlM_cons, h x (.head _), except_bind_ok]
    exact ih fun y hy => h y (.tail _ hy)

/-- What a pass over a list appends for each of its items. -/
theorem foldlM_append {ε α β : Type} {f : List β → α → Except ε (List β)} {g : α → β} (xs : List α)
    (h : ∀ acc, ∀ x ∈ xs, f acc x = .ok (acc ++ [g x])) (acc : List β) : xs.foldlM f acc = .ok (acc ++ xs.map g) := by
  induction xs generalizing acc with
  | nil => simp
  | cons x r ih =>
    rw [List.foldlM_cons, h acc x (.head _), except_bind_ok, ih fun acc y hy => h acc y (.tail _ hy)]
    simp

/-- A row of A of n elements in whole bytes, each in plain memory of idempotent class. -/
structure RowOfA (s : State) (row : Word) (es : Int) (n : Nat) (leaf : Nat → Xlat) : Prop where
  scale : s.cc.scaleMode = 0
  val : isVal s.cc.mtag = true
  sub : isSub s.cc.mtag = false
  plain : ∀ k, k < n →
    PlainLeaf s .load (row + BitVec.ofInt 64 (posOf s.cc.mtag es k)) (memBits s.cc.mtag / 8) (leaf k) ∧ (leaf k).ic = false

section
variable {s : State} {row : Word} {es : Int} {n : Nat} {leaf : Nat → Xlat} (h : RowOfA s row es n leaf)
include h

theorem RowOfA.size : max 1 (memBits s.cc.mtag / 8) = memBits s.cc.mtag / 8 :=
  max_eq_right (wholeBytes_size h.val h.sub).2

theorem RowOfA.elemParts (k : Nat) :
    elemParts row s.cc.mtag s.cc.scaleMode es k =
      [(row + BitVec.ofInt 64 (posOf s.cc.mtag es k), memBits s.cc.mtag / 8)] := by
  rw [h.scale]
  simp only [Machine.elemParts, layout, isSx_of_isVal _ h.val, Bool.false_eq_true, if_false, h.size, List.nil_append]

theorem RowOfA.checkRow : s.checkRow (rowParts row s.cc.mtag s.cc.scaleMode es n) = .ok s := by
  refine foldlM_keep _ fun p hp => ?_
  simp only [rowParts, h.elemParts, List.mem_flatMap, List.mem_range, List.mem_singleton] at hp
  obtain ⟨q, ⟨k, hk, rfl⟩, hq⟩ := hp
  obtain ⟨hplain, hic⟩ := h.plain k hk
  have hroom : memBits s.cc.mtag / 8 ≤ 65536 - (row + BitVec.ofInt 64 (posOf s.cc.mtag es k)).toNat % 65536 := by
    have := hplain.page
    omega
  simp only [pageRuns, hroom, if_true, List.mem_singleton] at hq
  subst hq
  simp only [State.checkA, State.translate_served hplain.served, except_bind_ok, hic, trapIf_false, except_pure]

/-- The value of element k of the row. -/
def State.elemOfA (s : State) (leaf : Nat → Xlat) (k : Nat) : Val :=
  decodeElem s.cc.mtag (s.peek (leaf k).pa (memBits s.cc.mtag / 8))

theorem RowOfA.readElem {k : Nat} (hk : k < n) :
    s.readElem row s.cc.mtag s.cc.scaleMode es k = .ok (s, s.elemOfA leaf k, 127) := by
  obtain ⟨hplain, -⟩ := h.plain k hk
  have hval : ∀ bs, memValue s.cc.mtag 0 k bs = decodeElem s.cc.mtag (leNat bs) := fun bs => by
    simp only [memValue, if_true, h.sub, Bool.false_and, Bool.false_eq_true, if_false]
  rw [h.scale]
  simp only [State.readElem, layout, except_pure, except_bind_ok, isSx_of_isVal _ h.val, Bool.false_eq_true, if_false, h.size,
    State.readA, hplain.pieces, hplain.loadPieces, hval]
  rfl

theorem RowOfA.readRow :
    s.readRow row s.cc.mtag s.cc.scaleMode es n = .ok (s, (List.range n).map fun k => (s.elemOfA leaf k, 127)) := by
  have hgo : ∀ m, m ≤ n → s.readRow row s.cc.mtag s.cc.scaleMode es m =
      .ok (s, (List.range m).map fun k => (s.elemOfA leaf k, 127)) := by
    intro m hm
    induction m with
    | zero => rfl
    | succ m ih =>
      have hprev := ih (by omega)
      simp only [State.readRow] at hprev ⊢
      rw [List.range_succ, List.foldlM_append, hprev, except_bind_ok]
      simp only [List.foldlM_cons, h.readElem hm, List.foldlM_nil, except_bind_ok, except_pure, List.map_append,
        List.map_cons, List.map_nil]
  exact hgo n le_rfl

end

end Sys2Proof.Machine
end

section
/-! TMMA: a step (R196), and what it leaves. -/

namespace Sys2Proof.Machine

/-! ### One element, and one row -/

theorem zip_range_map {α : Type} (f : Nat → α) (n : Nat) :
    ((List.range n).map f).zip (List.range ((List.range n).map f).length) = (List.range n).map fun k => (f k, k) := by
  rw [List.length_map, List.length_range]
  exact List.ext_getElem (by simp) (by simp)

theorem useElem_plain (s : State) (v : VecReg) {t : Tag} (h : isSx t = false) (i : Nat) :
    useElem s v t i = .ok (valOf v.data t i) := by
  simp [useElem, elemVal, h]

/-- The products of a row of A with column c of a tile (R196). -/
def State.tmmaTerms (s : State) (ts : TReg) (leaf : Nat → Xlat) (c : Nat) : List (Val × Flags) :=
  (List.range (s.getT ts).nrows).map fun k =>
    scaledProduct (s.elemOfA leaf k) 127 (valOf ((s.getT ts).row k).data (s.getT ts).tag c) ((s.getT ts).scaleAt k c)

/-- Element c of row m of the destination. -/
def State.tmmaElem (s : State) (strict : Bool) (td ts : TReg) (leaf : Nat → Xlat) (m c : Nat) : Nat × Flags :=
  if (s.getT td).tag = tI32 then denseAcc s.cc tI32 (s.draw.1 c) (s.tileSlot td m c) (s.tmmaTerms ts leaf c)
  else sumForm strict (subDraw s.draw.1 c) s.cc.accsat s.cc.rm (s.tileSlot td m c) (s.tmmaTerms ts leaf c)

/-- The elements of the row, the tile that holds them, and their flags. -/
def State.tmmaElems (s : State) (strict : Bool) (td ts : TReg) (leaf : Nat → Xlat) (m : Nat) : List (Nat × Flags) :=
  (List.range (s.getT ts).ncols).map (s.tmmaElem strict td ts leaf m)

def State.tmmaTile (s : State) (strict : Bool) (td ts : TReg) (leaf : Nat → Xlat) (m : Nat) : Tile :=
  { (s.getT td).putRow m { (s.getT td).row m with
      data := packElems (s.getT td).tag (s.getT td).ncols fun c =>
        (((s.tmmaElems strict td ts leaf m)[c]?).getD (0, 0)).1 } with inUse := true }

def State.tmmaFlags (s : State) (strict : Bool) (td ts : TReg) (leaf : Nat → Xlat) (m : Nat) : Flags :=
  (List.range (s.getT ts).ncols).foldl (fun f c => f ||| (s.tmmaElem strict td ts leaf m c).2) 0

/-- The state after a step. -/
def State.tmmaAfter (s : State) (strict : Bool) (td ts : TReg) (leaf : Nat → Xlat) (m : Nat) : State :=
  (s.draw.2.putT td (s.tmmaTile strict td ts leaf m)).orFlags (s.tmmaFlags strict td ts leaf m)

section
variable {s : State} {ts : TReg} {base : Word} {rs es : BitVec 32} {m : Nat} {leaf : Nat → Xlat}
  (h : RowOfA s (base + BitVec.ofInt 64 (m * rs.toInt)) es.toInt (s.getT ts).nrows leaf)
  (hx : isSx (s.getT ts).tag = false)
include h hx

theorem State.tmmaStep_ok (strict : Bool) (td : TReg) :
    s.tmmaStep strict td ts base rs es m = .ok (s.tmmaAfter strict td ts leaf m) := by
  have hterms : ∀ c, ((List.range (s.getT ts).nrows).map fun k => ((s.elemOfA leaf k, (127 : Byte)), k)).foldlM
      (fun (qs : List (Val × Flags)) p => do
        let x ← useElem s ((s.getT ts).row p.2) (s.getT ts).tag c
        return qs ++ [scaledProduct p.1.1 p.1.2 x ((s.getT ts).scaleAt p.2 c)]) [] =
      Except.ok (s.tmmaTerms ts leaf c) := fun c => by
    rw [foldlM_append (g := fun p => scaledProduct p.1.1 p.1.2 (valOf ((s.getT ts).row p.2).data (s.getT ts).tag c)
      ((s.getT ts).scaleAt p.2 c))]
    · rw [List.map_map]
      rfl
    · intro acc p _
      simp only [useElem_plain s _ hx, except_bind_ok, except_pure]
  have hcols : (List.range (s.getT ts).ncols).foldlM (fun (acc : List (Nat × Flags)) c => do
      let ps ← ((List.range (s.getT ts).nrows).map fun k => ((s.elemOfA leaf k, (127 : Byte)), k)).foldlM
        (fun (qs : List (Val × Flags)) p => do
          let x ← useElem s ((s.getT ts).row p.2) (s.getT ts).tag c
          return qs ++ [scaledProduct p.1.1 p.1.2 x ((s.getT ts).scaleAt p.2 c)]) []
      let old := s.tileSlot td m c
      let r := if (s.getT td).tag = tI32 then denseAcc s.cc tI32 (s.draw.1 c) old ps
        else sumForm strict (subDraw s.draw.1 c) s.cc.accsat s.cc.rm old ps
      return acc ++ [r]) [] = Except.ok (s.tmmaElems strict td ts leaf m) := by
    refine (foldlM_append (g := s.tmmaElem strict td ts leaf m) _ (fun acc c _ => ?_) []).trans rfl
    rw [hterms c]
    rfl
  simp only [State.tileSlot, except_pure] at hcols
  simp only [State.tmmaStep, h.checkRow, h.readRow, except_bind_ok, zip_range_map, hcols, except_pure]
  simp only [State.tmmaAfter, State.tmmaTile, State.tmmaFlags, State.tmmaElems, List.foldl_map]

end

/-- A step adds to row m of its tile, and to no other tile, row or register. -/
theorem State.tmmaAfter_stepped (s : State) (strict : Bool) (td ts : TReg) (leaf : Nat → Xlat) (m : Nat) :
    MacroStepped s (s.macroServed.tmmaAfter strict td ts leaf m) := rfl

section
variable (s : State) (strict : Bool) (td ts : TReg) (leaf : Nat → Xlat) (m : Nat)

theorem State.tmmaAfter_other {k : TReg} (hk : k ≠ td) : (s.tmmaAfter strict td ts leaf m).getT k = s.getT k :=
  State.getT_putT_other _ hk _

theorem State.tmmaAfter_self : (s.tmmaAfter strict td ts leaf m).getT td = s.tmmaTile strict td ts leaf m :=
  State.getT_putT_self ..

theorem State.tmmaTile_row_other {i : Nat} (hi : i ≠ m) :
    (s.tmmaTile strict td ts leaf m).row i = (s.getT td).row i :=
  ((s.getT td).row_putRow m i _).trans (if_neg hi)

variable {s td ts}

theorem State.tmmaTile_slot {w x : BitVec 32} (h : TmmaTags s td ts w x) {c : Nat} (hc : c < cfgCols w) :
    slotOf ((s.tmmaTile strict td ts leaf m).row m).data (cfgTag w) c = (s.tmmaElem strict td ts leaf m c).1 % 2 ^ 32 := by
  obtain ⟨hw, hsub, hsx⟩ := h.dst_width
  have htag : (s.getT td).tag = cfgTag w := by simp [Tile.tag, h.dst_word]
  have hcols : (s.getT td).ncols = cfgCols w := by simp [Tile.ncols, h.dst_word]
  have hsrc : (s.getT ts).ncols = cfgCols w := by simp [Tile.ncols, h.src_word, h.cols]
  have hget : (((s.tmmaElems strict td ts leaf m)[c]?).getD (0, 0)) = s.tmmaElem strict td ts leaf m c := by
    simp [State.tmmaElems, hsrc, hc]
  have hrow : ((s.tmmaTile strict td ts leaf m).row m).data = packElems (cfgTag w) (cfgCols w) fun c =>
      (((s.tmmaElems strict td ts leaf m)[c]?).getD (0, 0)).1 := by
    rw [← htag, ← hcols]
    exact congrArg VecReg.data (((s.getT td).row_putRow m m _).trans (if_pos rfl))
  rw [hrow, slotOf_packElems hc (rowSlot_fits w hw.le hc), fillSlot_plain _ hsub hsx, hw, hget]

end

/-! ### The step of a TMMA that starts (R32, R196, R197) -/

/-- The leaf of element k of a row of A. -/
def State.leafOfA (s : State) (row : Word) (es : Int) (k : Nat) : Xlat :=
  (s.plainLeaf .load (row + BitVec.ofInt 64 (posOf s.cc.mtag es k)) (memBits s.cc.mtag / 8)).getD ⟨0, 0, false, false⟩

theorem State.quietAt_leafOfA {s : State} {row : Word} {es : Int} {k : Nat}
    (h : (s.quietAt .load (row + BitVec.ofInt 64 (posOf s.cc.mtag es k)) (memBits s.cc.mtag / 8)).isSome = true) :
    PlainLeaf s .load (row + BitVec.ofInt 64 (posOf s.cc.mtag es k)) (memBits s.cc.mtag / 8) (s.leafOfA row es k) ∧
      (s.leafOfA row es k).ic = false ∧
      s.quietAt .load (row + BitVec.ofInt 64 (posOf s.cc.mtag es k)) (memBits s.cc.mtag / 8) = some (s.leafOfA row es k).pa := by
  obtain ⟨pa, hpa⟩ := Option.isSome_iff_exists.1 h
  obtain ⟨y, hy, hic, rfl⟩ := State.quietAt_eq_some.1 hpa
  have hleaf : s.leafOfA row es k = y := by rw [State.leafOfA, State.plainLeaf_eq_some.2 hy]; rfl
  rw [hleaf]
  exact ⟨hy, hic, hpa⟩

theorem RowOfA.macroServed {s : State} {row : Word} {es : Int} {n : Nat} {leaf : Nat → Xlat} (h : RowOfA s row es n leaf) :
    RowOfA s.macroServed row es n leaf :=
  ⟨h.scale, h.val, h.sub, fun k hk => ⟨(h.plain k hk).1.macroServed, (h.plain k hk).2⟩⟩

/-- The row of A that step m of a TMMA reads. -/
def State.recRow (s : State) (pr m : Nat) : Word :=
  BitVec.ofNat 64 (s.peek pr 8) + BitVec.ofInt 64 (m * s.recStride pr 8)

section
variable {s : State} {td ts : TReg} {xa : XReg} {w x : BitVec 32} {pr : Nat} (hroom : s.cc.full .t = false)
  (hvf : s.cc.vfence = false) (h : TmmaTags s td ts w x) (hr : TmmaRecord s (s.getX xa) pr w) (strict : Bool)
include hroom hvf h hr

theorem State.tmma_unit_trap {u : State} {t : Trap} (hv : s.variant ≠ .yl8)
    (hu : s.unitsOk .load ((s.macroParts [] (s.recOp strict td ts pr) s.cc.tstep.toNat).flatMap pageRuns) =
      .error (.trap u t)) :
    exec (if strict then .tmmaS td xa ts else .tmmaF td xa ts) s = .next (s.raise t) := by
  rw [State.exec_tmma hvf h hr, State.macroStart_unit_trap hroom (op := s.recOp strict td ts pr) rfl hv hu, finish_trap]

theorem State.tmma_steps (hm : s.cc.tstep.toNat < s.recRows pr)
    (hunits : s.variant = .yl8 ∨ ∀ p ∈ (s.macroParts [] (s.recOp strict td ts pr) s.cc.tstep.toNat).flatMap pageRuns,
      (s.served ⟨.load, true, p.2⟩ p.1).isSome = true)
    (halone : s.alone = true) {leaf : Nat → Xlat}
    (hrow : RowOfA s (s.recRow pr s.cc.tstep.toNat) (s.recStride pr 12) (cfgRows x) leaf) :
    ∃ t, exec (if strict then .tmmaS td xa ts else .tmmaF td xa ts) s = .next t ∧
      MacroLeaves s (s.macroServed.tmmaAfter strict td ts leaf s.cc.tstep.toNat) t (s.recOp strict td ts pr)
        s.cc.tstep.toNat (s.recRows pr) := by
  have hrows : (s.getT ts).nrows = cfgRows x := by simp [Tile.nrows, h.src_word]
  have htag : isSx (s.getT ts).tag = false := by simpa [Tile.tag, h.src_word] using h.src_notSx
  have hint : ∀ off, (BitVec.ofInt 32 (s.recStride pr off)).toInt = s.recStride pr off := fun off => by
    rw [State.recStride, BitVec.ofInt_toInt]
  have hrow' : RowOfA s (BitVec.ofNat 64 (s.peek pr 8) +
      BitVec.ofInt 64 (s.cc.tstep.toNat * (BitVec.ofInt 32 (s.recStride pr 8)).toInt))
      (BitVec.ofInt 32 (s.recStride pr 12)).toInt (s.getT ts).nrows leaf := by
    rw [hint, hint, hrows]
    exact hrow
  have hstep : s.macroServed.macroStep (s.recOp strict td ts pr) s.cc.tstep.toNat =
      .ok (s.macroServed.tmmaAfter strict td ts leaf s.cc.tstep.toNat) :=
    State.tmmaStep_ok (s := s.macroServed) hrow'.macroServed htag strict td
  obtain ⟨t, hgo, hleaves⟩ := State.macroStart_steps hroom (h := []) (op := s.recOp strict td ts pr) rfl
    (hunits.imp_right State.unitsOk_served) halone hm hstep (s.tmmaAfter_stepped ..)
  exact ⟨t, by rw [State.exec_tmma hvf h hr, hgo, finish_ok], hleaves⟩

end

end Sys2Proof.Machine
end

section
/-! TLOAD: the header that it reads, the units that it needs, and its step (R198). -/

namespace Sys2Proof.Machine

/-! ### The header (R198) -/

/-- The configuration word in an image, its rank and its marks. -/
def State.imgWord (s : State) (pa : Nat) : BitVec 32 := .ofNat 32 (s.peek pa 4)
def State.imgRank (s : State) (pa : Nat) : Nat := s.peek (pa + 4) 1
def State.imgMarks (s : State) (pa : Nat) : Nat := s.peek (pa + 5) 1
def State.imgScaled (s : State) (pa : Nat) : Bool := decide (2 ≤ s.imgMarks pa)

/-- The bytes of a header whose fields are in order. -/
structure ImageHeader (s : State) (pa : Nat) : Prop where
  marks : s.imgMarks pa ≤ 3
  zero : s.peek (pa + 6) 2 = 0
  rest : ∀ j, 12 ≤ j → j < 64 → Memory.read s.mem (pa + j) = 0

/-- What the check of a configured header asks. -/
structure ImageConfig (s : State) (pa : Nat) : Prop where
  ok : cfgOk ((s.imgWord pa).setWidth 64) = true
  body : s.peek (pa + 8) 4 = bodyBytes (s.imgWord pa)
  rank : if cfgFactored (s.imgWord pa) then s.imgRank pa ≤ cfgMaxRank (s.imgWord pa) else s.imgRank pa = 0

/-- The tile that a header gives, in use, with contents of zeros. -/
def State.imgTile (s : State) (pa : Nat) : Tile :=
  { cfg := some (s.imgWord pa), inUse := true, scaled := s.imgScaled pa
    us := List.replicate (s.imgRank pa) (List.replicate (cfgRows (s.imgWord pa)) 0)
    vs := List.replicate (s.imgRank pa) (List.replicate (cfgCols (s.imgWord pa)) 0)
    scales := if s.imgScaled pa && scaleTag (cfgTag (s.imgWord pa)) then List.replicate (scaleCount (s.imgWord pa)) 0 else [] }

theorem State.imgWord_toNat (s : State) (pa : Nat) : (s.imgWord pa).toNat = s.peek pa 4 := by
  have := s.peek_lt pa 4
  rw [State.imgWord, BitVec.toNat_ofNat]
  omega

theorem State.imgWord_wide (s : State) (pa : Nat) : (s.imgWord pa).setWidth 64 = BitVec.ofNat 64 (s.peek pa 4) := by
  apply BitVec.eq_of_toNat_eq
  have := s.peek_lt pa 4
  rw [BitVec.toNat_setWidth, State.imgWord_toNat, BitVec.toNat_ofNat]

theorem State.imgWord_narrow (s : State) (pa : Nat) : (BitVec.ofNat 64 (s.peek pa 4)).setWidth 32 = s.imgWord pa := by
  rw [← State.imgWord_wide]
  exact BitVec.setWidth_setWidth_of_le _ (by omega)

theorem State.imgWord_eq_zero (s : State) (pa : Nat) : BitVec.ofNat 64 (s.peek pa 4) = 0 ↔ s.imgWord pa = 0 := by
  rw [← State.imgWord_wide]
  constructor
  · intro h
    apply BitVec.eq_of_toNat_eq
    have := congrArg BitVec.toNat h
    have hlt := (s.imgWord pa).isLt
    rw [BitVec.toNat_setWidth] at this
    simp only [BitVec.ofNat_eq_ofNat, BitVec.toNat_ofNat] at this ⊢
    omega
  · intro h
    rw [h]
    rfl

theorem cfgOk_zero : cfgOk 0 = false := by decide

section
variable {s : State} {pa : Nat} (h : ImageHeader s pa)
include h

theorem ImageHeader.rest_zero : ((s.bytes pa 64).drop 12).any (· != 0) = false := by
  have hslice : (s.bytes pa 64).drop 12 = s.bytes (pa + 12) 52 := by
    rw [← State.bytes_slice s pa (show 12 + 52 ≤ 64 by omega)]
    exact (List.take_of_length_le (by simp [State.bytes_length])).symm
  rw [hslice, State.bytes, Memory.readAll, List.any_map, List.any_eq_false]
  intro j hj
  have hread := h.rest (12 + j) (by omega) (by have := List.mem_range.1 hj; omega)
  rw [← Nat.add_assoc] at hread
  simp [hread]

/-- What the check of a header comes to, by the fields that the image holds. -/
theorem ImageHeader.tileOfHeader :
    tileOfHeader (s.bytes pa 64) =
      if s.imgWord pa = 0 then some {}
      else if !cfgOk ((s.imgWord pa).setWidth 64) ||
        !(if cfgFactored (s.imgWord pa) then decide (s.imgRank pa ≤ cfgMaxRank (s.imgWord pa)) else s.imgRank pa == 0) ||
        s.peek (pa + 8) 4 != bodyBytes (s.imgWord pa) then none
      else if s.imgMarks pa % 2 = 0 then some { cfg := some (s.imgWord pa), scaled := s.imgScaled pa }
      else some (s.imgTile pa) := by
  have hword : leNat (((s.bytes pa 64).drop 0).take 4) = s.peek pa 4 := s.leNat_slice pa (by omega)
  have hok : cfgOk (BitVec.ofNat 64 (s.peek pa 4)) = cfgOk ((s.imgWord pa).setWidth 64) := by rw [s.imgWord_wide]
  have hgood : ¬ (3 < s.peek (pa + 5) 1 ∨ s.peek (pa + 6) 2 ≠ 0 ∨ ((s.bytes pa 64).drop 12).any (· != 0) = true) := by
    rw [h.rest_zero, h.zero]
    have : s.peek (pa + 5) 1 ≤ 3 := h.marks
    simpa using this
  simp only [Machine.tileOfHeader, hword, s.leNat_slice pa (show 4 + 1 ≤ 64 by omega),
    s.leNat_slice pa (show 5 + 1 ≤ 64 by omega), s.leNat_slice pa (show 6 + 2 ≤ 64 by omega),
    s.leNat_slice pa (show 8 + 4 ≤ 64 by omega), hgood, if_false, s.imgWord_eq_zero, s.imgWord_narrow, hok]
  rfl

theorem ImageHeader.tile_zero (hw : s.imgWord pa = 0) : Machine.tileOfHeader (s.bytes pa 64) = some {} := by
  rw [h.tileOfHeader, if_pos hw]

variable (hc : ImageConfig s pa)
include hc

theorem ImageHeader.tile_config :
    Machine.tileOfHeader (s.bytes pa 64) =
      if s.imgMarks pa % 2 = 0 then some { cfg := some (s.imgWord pa), scaled := s.imgScaled pa } else some (s.imgTile pa) := by
  have hne : s.imgWord pa ≠ 0 := by
    intro h0
    have hok := hc.ok
    rw [h0] at hok
    exact absurd (hok.symm.trans cfgOk_zero) (by decide)
  have hrank : (if cfgFactored (s.imgWord pa) then decide (s.imgRank pa ≤ cfgMaxRank (s.imgWord pa))
      else s.imgRank pa == 0) = true := by
    have := hc.rank
    cases hf : cfgFactored (s.imgWord pa) <;> simpa [hf] using this
  have hbody : (s.peek (pa + 8) 4 != bodyBytes (s.imgWord pa)) = false := by simp [hc.body]
  rw [h.tileOfHeader, if_neg hne, hc.ok, hrank, hbody]
  rfl

theorem ImageHeader.tile_unused (hm : s.imgMarks pa % 2 = 0) :
    Machine.tileOfHeader (s.bytes pa 64) = some { cfg := some (s.imgWord pa), scaled := s.imgScaled pa } := by
  rw [h.tile_config hc, if_pos hm]

theorem ImageHeader.tile_used (hm : s.imgMarks pa % 2 = 1) :
    Machine.tileOfHeader (s.bytes pa 64) = some (s.imgTile pa) := by
  rw [h.tile_config hc, if_neg (by omega)]

end

/-! ### The units (R32) -/

/-- A page of WM admits an access of any length. -/
theorem State.checkLeaf_length {s : State} {a : Access} {va : Word} {e : BitVec 64} {lvl : Nat} {x : Xlat}
    (h : s.checkLeaf a va e lvl = .ok x) (hty : x.ty = 0) (n : Nat) : s.checkLeaf { a with n := n } va e lvl = .ok x := by
  have hpte : pteType e = 0 := by
    unfold State.checkLeaf at h
    repeat' split at h
    all_goals simp only [Except.ok.injEq, reduceCtorEq] at h
    subst h
    exact hty
  have hadmit : typeAdmits (pteType e) { a with n := n } va = typeAdmits (pteType e) a va := by
    rw [hpte]
    obtain ⟨kind, vec, m⟩ := a
    cases kind <;> rfl
  rw [← h]
  simp only [State.checkLeaf, hadmit]

theorem State.served_length {s : State} {kind : Acc} {va : Word} {n : Nat} {x : Xlat}
    (h : s.served ⟨kind, true, n⟩ va = some x) (hty : x.ty = 0) (k : Nat) : s.served ⟨kind, true, k⟩ va = some x := by
  unfold State.served at h ⊢
  split at h
  · exact absurd h nofun
  next e he =>
  split at h
  · exact absurd h nofun
  next y hy =>
  obtain rfl : y = x := by
    split at h
    · exact Option.some.inj h
    · exact absurd h nofun
  rw [State.checkLeaf_length hy hty k]
  exact h

/-- The parts of the one step of an image of n bytes after its header. -/
theorem imageRuns_served {s : State} {va : Word} {n : Nat} {x : Xlat} (ha : va.toNat % 64 = 0)
    (hx : PlainLeaf s .load va 64 x) (hn : n = 0 ∨ ∃ y, PlainLeaf s .load (va + 64) n y) :
    ∀ p ∈ pageRuns (va, 64 + n), (s.served ⟨.load, true, p.2⟩ p.1).isSome = true := by
  have hall : ∀ k, (s.served ⟨.load, true, k⟩ va).isSome = true := fun k => by
    rw [State.served_length hx.served hx.ty k]
    rfl
  have hpage := hx.page
  intro p hp
  unfold pageRuns at hp
  dsimp only at hp
  split at hp
  · rw [List.mem_singleton.1 hp]
    exact hall _
  next hroom =>
    obtain ⟨y, hy⟩ := hn.resolve_left (by omega)
    have hnext := hy.page
    have hsum : (va + 64).toNat % 65536 = (va.toNat % 65536 + 64) % 65536 := by
      have : (va + 64).toNat = (va.toNat + 64) % 2 ^ 64 := BitVec.toNat_add ..
      omega
    have hend : 65536 - va.toNat % 65536 = 64 := by omega
    rw [hend, Nat.add_sub_cancel_left] at hp
    rcases List.mem_cons.1 hp with rfl | hp
    · exact hall _
    · rw [List.mem_singleton.1 hp]
      exact Option.isSome_iff_exists.2 ⟨y, hy.served⟩

end Sys2Proof.Machine
end

section
/-! What a tile holds that takes its contents from a body in memory (R198). -/

namespace Sys2Proof.Machine

/-! ### The bytes of a body (R180, R198) -/

/-- The bytes of the body that an image holds: without the scale array where it attaches no scales. -/
def bodyRead (w : BitVec 32) (scaled : Bool) : Nat :=
  bodyBytes w - if cfgFactored w = false ∧ scaleTag (cfgTag w) = true ∧ scaled = false then scaleCount w else 0

theorem bodyBytes_dense {w : BitVec 32} (h : cfgFactored w = false) :
    bodyBytes w = cfgRows w * rowBytes (cfgTag w) (cfgCols w) + if scaleTag (cfgTag w) then scaleCount w else 0 := by
  simp [bodyBytes, h]

theorem bodyRead_factored {w : BitVec 32} (h : cfgFactored w = true) (scaled : Bool) :
    bodyRead w scaled = (cfgRows w + cfgCols w) * cfgMaxRank w * 4 := by
  simp [bodyRead, bodyBytes, h]

/-- The rows are read whole, and the scale codes where they are attached. -/
theorem le_bodyRead {w : BitVec 32} (h : cfgFactored w = false) (scaled : Bool) :
    cfgRows w * rowBytes (cfgTag w) (cfgCols w) + (if scaleTag (cfgTag w) = true ∧ scaled = true then scaleCount w else 0) ≤
      bodyRead w scaled := by
  rw [bodyRead, bodyBytes_dense h]
  cases scaleTag (cfgTag w) <;> cases scaled <;> simp [h]

/-- What `Tile.loadBytes` counts is the header and the bytes of the body that are read. -/
theorem Tile.loadBytes_eq {t : Tile} {w : BitVec 32} (h : t.cfg = some w) : t.loadBytes = 64 + bodyRead w t.scaled := by
  have hword : t.word = w := by simp [Tile.word, h]
  have hle : (if cfgFactored w = false ∧ scaleTag (cfgTag w) = true ∧ t.scaled = false then scaleCount w else 0) ≤
      bodyBytes w := by
    split
    next hc =>
      obtain ⟨hf, hs, -⟩ := hc
      rw [bodyBytes_dense hf, hs, if_pos rfl]
      exact Nat.le_add_left ..
    · exact Nat.zero_le _
  have hcond : (scaleTag t.tag && !t.factored && !t.scaled && t.cfg.isSome) = true ↔
      cfgFactored w = false ∧ scaleTag (cfgTag w) = true ∧ t.scaled = false := by
    simp only [Tile.tag, Tile.factored, hword, h, Option.isSome_some, Bool.and_true, Bool.and_eq_true, Bool.not_eq_true']
    tauto
  have hsub : (if scaleTag t.tag && !t.factored && !t.scaled && t.cfg.isSome then scaleCount t.word else 0) =
      if cfgFactored w = false ∧ scaleTag (cfgTag w) = true ∧ t.scaled = false then scaleCount w else 0 := by
    simp only [hcond, hword]
  rw [Tile.loadBytes, hsub, Tile.imageBytes, h, bodyRead]
  dsimp only
  omega

theorem rowBytes_dense : ∀ t : Tag, denseTag t = true → isSx t = false → isSub t = false →
    memBits t = tagWidth t ∧ tagWidth t % 8 = 0 ∧ tagWidth t ≤ 32 := by decide

theorem denseTag_of_cfgOk {w : BitVec 32} (h : cfgOk (w.setWidth 64) = true) (hf : cfgFactored w = false) :
    denseTag (cfgTag w) = true := by
  have hw : (w.setWidth 64).setWidth 32 = w :=
    (BitVec.setWidth_setWidth_of_le w (by omega)).trans (BitVec.setWidth_eq w)
  simp only [cfgOk, hw, hf, Bool.false_eq_true, if_false, Bool.and_eq_true] at h
  obtain ⟨-, ⟨hd, -⟩, -⟩ := h
  exact hd

/-! ### The slices of a body that is read and filled up -/

theorem slice_append_left {α : Type} {a : List α} (b : List α) {off n : Nat} (h : off + n ≤ a.length) :
    ((a ++ b).drop off).take n = (a.drop off).take n := by
  rw [List.drop_append_of_le_length (by omega), List.take_append_of_le_length (by rw [List.length_drop]; omega)]

/-- A field of bytes that stand in memory, and then others. -/
theorem State.leNat_body (s : State) (pa : Nat) {k off n : Nat} (tail : List Byte) (h : off + n ≤ k) :
    leNat (((s.bytes pa k ++ tail).drop off).take n) = s.peek (pa + off) n := by
  rw [slice_append_left tail (by rwa [State.bytes_length]), s.leNat_slice pa h]

/-! ### Dense tiles -/

/-- Rows put one after another. -/
def Tile.putRows (t : Tile) (f : Nat → VecReg) (n : Nat) : Tile := (List.range n).foldl (fun u i => u.putRow i (f i)) t

section
variable (t : Tile) (f : Nat → VecReg) (n : Nat)

/-- Rows put change no other field of a tile. -/
theorem Tile.putRows_keeps {γ : Type} (g : Tile → γ) (hg : ∀ u i v, g (Tile.putRow u i v) = g u) :
    g (t.putRows f n) = g t :=
  foldl_keeps (f := fun (u : Tile) i => u.putRow i (f i)) g (fun u i => hg u i (f i)) (List.range n) t

theorem Tile.putRows_row {r : Nat} (hr : r < n) : ((t.putRows f n).row r).data = (f r).data := by
  induction n with
  | zero => exact absurd hr (Nat.not_lt_zero r)
  | succ n ih =>
    have hstep : t.putRows f (n + 1) = (t.putRows f n).putRow n (f n) := by
      simp only [Tile.putRows, List.range_succ, List.foldl_append, List.foldl_cons, List.foldl_nil]
    rw [hstep, Tile.row_putRow]
    by_cases h : r = n
    · rw [if_pos h, h]
    · rw [if_neg h]
      exact ih (by omega)

end

theorem Tile.withBody_dense {t : Tile} {w : BitVec 32} (h : t.cfg = some w) (hf : cfgFactored w = false) (bs : List Byte) :
    t.withBody bs =
      let n := rowBytes (cfgTag w) (cfgCols w)
      let u := t.putRows (fun i => rowOfMem (cfgTag w) (cfgCols w) ((bs.drop (i * n)).take n)) (cfgRows w)
      if t.scaled && scaleTag (cfgTag w) then { u with scales := (bs.drop (cfgRows w * n)).take (scaleCount w) } else u := by
  have hword : t.word = w := by simp [Tile.word, h]
  simp only [Tile.withBody, Tile.factored, Tile.tag, Tile.nrows, Tile.ncols, hword, hf, Bool.false_eq_true, if_false,
    Tile.putRows]

/-- What a body leaves of a dense tile as it was. -/
theorem Tile.withBody_dense_keeps {t : Tile} {w : BitVec 32} (h : t.cfg = some w) (hf : cfgFactored w = false)
    (bs : List Byte) :
    (t.withBody bs).cfg = t.cfg ∧ (t.withBody bs).inUse = t.inUse ∧ (t.withBody bs).scaled = t.scaled ∧
      (t.withBody bs).us = t.us ∧ (t.withBody bs).vs = t.vs := by
  rw [Tile.withBody_dense h hf]
  dsimp only
  split <;> exact ⟨t.putRows_keeps _ _ Tile.cfg fun _ _ _ => rfl, t.putRows_keeps _ _ Tile.inUse fun _ _ _ => rfl,
    t.putRows_keeps _ _ Tile.scaled fun _ _ _ => rfl, t.putRows_keeps _ _ Tile.us fun _ _ _ => rfl,
    t.putRows_keeps _ _ Tile.vs fun _ _ _ => rfl⟩

theorem Tile.withBody_row {t : Tile} {w : BitVec 32} (h : t.cfg = some w) (hf : cfgFactored w = false) (bs : List Byte)
    {r : Nat} (hr : r < cfgRows w) :
    ((t.withBody bs).row r).data = (rowOfMem (cfgTag w) (cfgCols w)
      ((bs.drop (r * rowBytes (cfgTag w) (cfgCols w))).take (rowBytes (cfgTag w) (cfgCols w)))).data := by
  rw [Tile.withBody_dense h hf]
  dsimp only
  split <;> exact t.putRows_row _ _ hr

/-- An element of a row of whole bytes. -/
theorem rowOfMem_slot {t : Tag} (hx : isSx t = false) (hs : isSub t = false) (hdvd : tagWidth t % 8 = 0) {cols c : Nat}
    (hc : c < cols) (hfit : tagWidth t * c + tagWidth t ≤ 8192) (bs : List Byte) :
    slotOf (rowOfMem t cols bs).data t c = leNat ((bs.drop (c * (tagWidth t / 8))).take (tagWidth t / 8)) := by
  have hrow : (rowOfMem t cols bs).data =
      packElems t cols fun k => leNat ((bs.drop (k * (tagWidth t / 8))).take (tagWidth t / 8)) := by
    simp only [rowOfMem, hx, hs, Bool.false_eq_true, if_false]
  rw [hrow, slotOf_packElems hc hfit, fillSlot_plain t hs hx, Nat.mod_eq_of_lt]
  refine (leNat_lt _).trans_le (Nat.pow_le_pow_right two_pos ?_)
  have := List.length_take_le (tagWidth t / 8) (bs.drop (c * (tagWidth t / 8)))
  omega

/-- The element (r, c) of a dense tile whose body stands in memory. -/
theorem Tile.withBody_slot {t : Tile} {w : BitVec 32} (h : t.cfg = some w) (hok : cfgOk (w.setWidth 64) = true)
    (hf : cfgFactored w = false) (hx : isSx (cfgTag w) = false) (hs : isSub (cfgTag w) = false) (s : State) (pb : Nat)
    (tail : List Byte) {r c : Nat} (hr : r < cfgRows w) (hc : c < cfgCols w) :
    slotOf ((t.withBody (s.bytes pb (bodyRead w t.scaled) ++ tail)).row r).data (cfgTag w) c =
      s.peek (pb + (r * cfgCols w + c) * (tagWidth (cfgTag w) / 8)) (tagWidth (cfgTag w) / 8) := by
  obtain ⟨hbits, hdvd, hwidth⟩ := rowBytes_dense _ (denseTag_of_cfgOk hok hf) hx hs
  have hrow : rowBytes (cfgTag w) (cfgCols w) = cfgCols w * (tagWidth (cfgTag w) / 8) := by
    have hmul : cfgCols w * tagWidth (cfgTag w) = 8 * (cfgCols w * (tagWidth (cfgTag w) / 8)) := by
      rw [Nat.mul_left_comm, Nat.mul_div_cancel' (Nat.dvd_of_mod_eq_zero hdvd)]
    simp only [rowBytes, hx, Bool.false_eq_true, if_false, hbits, hmul]
    omega
  have hcell : c * (tagWidth (cfgTag w) / 8) + tagWidth (cfgTag w) / 8 ≤ rowBytes (cfgTag w) (cfgCols w) := by
    rw [hrow, ← Nat.succ_mul]
    exact Nat.mul_le_mul_right _ hc
  have hrows : r * rowBytes (cfgTag w) (cfgCols w) + rowBytes (cfgTag w) (cfgCols w) ≤ bodyRead w t.scaled := by
    rw [← Nat.succ_mul]
    exact (Nat.mul_le_mul_right _ hr).trans ((Nat.le_add_right ..).trans (le_bodyRead hf t.scaled))
  have hoff : (r * cfgCols w + c) * (tagWidth (cfgTag w) / 8) =
      r * rowBytes (cfgTag w) (cfgCols w) + c * (tagWidth (cfgTag w) / 8) := by rw [hrow, Nat.add_mul, Nat.mul_assoc]
  rw [Tile.withBody_row h hf _ hr, rowOfMem_slot hx hs hdvd hc (rowSlot_fits w hwidth hc), hoff, ← Nat.add_assoc,
    slice_append_left tail (by rwa [State.bytes_length]), State.bytes_slice s pb hrows, State.leNat_slice s _ hcell]

/-- The scale codes of a dense tile that has them attached. -/
theorem Tile.withBody_scales {t : Tile} {w : BitVec 32} (h : t.cfg = some w) (hf : cfgFactored w = false)
    (hs : scaleTag (cfgTag w) = true) (ht : t.scaled = true) (s : State) (pb : Nat) (tail : List Byte) {k : Nat}
    (hk : k < scaleCount w) :
    (t.withBody (s.bytes pb (bodyRead w t.scaled) ++ tail)).scales[k]? =
      some (Memory.read s.mem (pb + cfgRows w * rowBytes (cfgTag w) (cfgCols w) + k)) := by
  have hle := le_bodyRead (w := w) hf t.scaled
  rw [if_pos ⟨hs, ht⟩] at hle
  rw [Tile.withBody_dense h hf, ht, hs]
  rw [ht] at hle
  dsimp only
  rw [Bool.and_true, if_pos rfl, slice_append_left tail (by rwa [State.bytes_length]), State.bytes_slice s pb hle]
  simp [State.bytes, Memory.readAll, hk]

/-! ### Factored tiles -/

/-- Factor j of n entries from a place of a body. -/
def factorOf (bs : List Byte) (off n j : Nat) : List (BitVec 32) :=
  (List.range n).map fun i => BitVec.ofNat 32 (leNat ((bs.drop (off + (j * n + i) * 4)).take 4))

theorem Tile.withBody_factored {t : Tile} {w : BitVec 32} (h : t.cfg = some w) (hf : cfgFactored w = true)
    (bs : List Byte) :
    t.withBody bs = { t with
      us := (List.range t.rank).map (factorOf bs 0 (cfgRows w))
      vs := (List.range t.rank).map (factorOf bs (cfgRows w * cfgMaxRank w * 4) (cfgCols w)) } := by
  have hword : t.word = w := by simp [Tile.word, h]
  simp only [Tile.withBody, Tile.factored, Tile.nrows, Tile.ncols, hword, hf, if_true]
  rfl

theorem factorBits_factorOf {us : List (List (BitVec 32))} {bs : List Byte} {off n j k rank : Nat}
    (hus : us = (List.range rank).map (factorOf bs off n)) (hj : j < rank) (hk : k < n) :
    (factorBits (us[j]?.getD []) k).toNat = leNat ((bs.drop (off + (j * n + k) * 4)).take 4) := by
  have hget : us[j]?.getD [] = factorOf bs off n j := by simp [hus, hj]
  have hbits : factorBits (factorOf bs off n j) k = BitVec.ofNat 32 (leNat ((bs.drop (off + (j * n + k) * 4)).take 4)) := by
    simp [factorBits, factorOf, hk]
  rw [hget, hbits, BitVec.toNat_ofNat, Nat.mod_eq_of_lt]
  refine (leNat_lt _).trans_le (Nat.pow_le_pow_right two_pos ?_)
  have := List.length_take_le 4 (bs.drop (off + (j * n + k) * 4))
  omega

/-- Entry k of the factors j of a tile whose body stands in memory. -/
theorem Tile.withBody_factors {t : Tile} {w : BitVec 32} (h : t.cfg = some w) (hf : cfgFactored w = true)
    (hrank : t.rank ≤ cfgMaxRank w) (s : State) (pb : Nat) (tail : List Byte) {j k : Nat} (hj : j < t.rank) :
    (k < cfgRows w →
      (factorBits ((t.withBody (s.bytes pb (bodyRead w t.scaled) ++ tail)).us[j]?.getD []) k).toNat =
        s.peek (pb + (j * cfgRows w + k) * 4) 4) ∧
    (k < cfgCols w →
      (factorBits ((t.withBody (s.bytes pb (bodyRead w t.scaled) ++ tail)).vs[j]?.getD []) k).toNat =
        s.peek (pb + (cfgMaxRank w * cfgRows w + j * cfgCols w + k) * 4) 4) := by
  have hread := bodyRead_factored hf t.scaled
  have hcell : ∀ n, k < n → j * n + k + 1 ≤ cfgMaxRank w * n := fun n hk =>
    calc j * n + k + 1 ≤ j * n + n := by omega
      _ = (j + 1) * n := (Nat.succ_mul ..).symm
      _ ≤ cfgMaxRank w * n := Nat.mul_le_mul_right _ (by omega)
  have htotal : (cfgRows w + cfgCols w) * cfgMaxRank w * 4 = (cfgMaxRank w * cfgRows w + cfgMaxRank w * cfgCols w) * 4 := by ring
  have hv : cfgRows w * cfgMaxRank w * 4 + (j * cfgCols w + k) * 4 =
      (cfgMaxRank w * cfgRows w + j * cfgCols w + k) * 4 := by ring
  rw [Tile.withBody_factored h hf]
  refine ⟨fun hk => ?_, fun hk => ?_⟩
  · have := hcell _ hk
    rw [factorBits_factorOf rfl hj hk, Nat.zero_add, s.leNat_body pb tail (by omega)]
  · have := hcell _ hk
    rw [factorBits_factorOf rfl hj hk, hv, s.leNat_body pb tail (by omega)]

/-- What a body leaves of a tile as it was, of any kind. -/
theorem Tile.withBody_keeps {t : Tile} {w : BitVec 32} (h : t.cfg = some w) (bs : List Byte) (hvs : t.vs.length = t.rank) :
    (t.withBody bs).cfg = some w ∧ (t.withBody bs).inUse = t.inUse ∧ (t.withBody bs).scaled = t.scaled ∧
      (t.withBody bs).us.length = t.rank ∧ (t.withBody bs).vs.length = t.rank := by
  cases hf : cfgFactored w
  case true => simp [Tile.withBody_factored h hf, h]
  case false =>
    obtain ⟨hcfg, huse, hsc, hus, hvs'⟩ := Tile.withBody_dense_keeps h hf bs
    exact ⟨hcfg.trans h, huse, hsc, congrArg List.length hus, (congrArg List.length hvs').trans hvs⟩

end Sys2Proof.Machine
end

section
/-! TLOAD in one step (R198). -/

namespace Sys2Proof.Machine

/-! ### The start of a TLOAD -/

theorem State.exec_tload {s : State} (hready : s.tilesReady) {td : TReg} {xa : XReg} (ha : (s.getX xa).toNat % 64 = 0) :
    exec (.tload td xa) s = finish (do
      let s0 ← vfenceWait s
      s0.macroStart (.tload td (s.getX xa)) (if (s.getT td).cfg.isNone then 0 else s.cc.tstep.toNat)) := by
  have hal : ((s.getX xa).toNat % 64 != 0) = false := by simp [ha]
  show execTload td xa s = _
  simp only [execTload, pushGuard_tilesReady hready, except_bind_ok, hal, trapIf_false]

/-- The parts of an image that one step reads. -/
theorem State.tloadParts {s : State} {h : List Byte} {t : Tile} (ht : tileOfHeader h = some t) (td : TReg) (va : Word) {n : Nat}
    (hn : (if t.inUse then t.loadBytes else 64) = 64 + n) (hle : 64 + n ≤ 2048) :
    s.macroParts h (.tload td va) 0 = [(va, 64 + n)] := by
  have hone : (64 + n + 2047) / 2048 = 1 := by omega
  have hlen : stepLen (64 + n) 0 = 64 + n := by simp only [stepLen]; omega
  have hva : va + BitVec.ofNat 64 (2048 * 0) = va := BitVec.add_zero _
  simp only [State.macroParts, if_true, ht, Option.getD_some, hn, hone, List.range_one, List.drop_zero, List.map_cons,
    List.map_nil, hlen, hva]

theorem State.occupy_check {s : State} {td : TReg} {w : BitVec 32} (h : s.cc.othersOccupy td + occupancy w ≤ 131072) :
    conflictIf (decide (131072 < s.macroServed.cc.othersOccupy td + occupancy w)) s.macroServed 1 td = .ok () := by
  have hfits : decide (131072 < s.cc.othersOccupy td + occupancy w) = false := by simpa using h
  exact congrArg (fun b => conflictIf b s.macroServed 1 td) hfits

theorem State.use_check {s : State} {td : TReg} (h : (s.getT td).inUse = false) :
    conflictIf (s.macroServed.getT td).inUse s.macroServed 0 td = .ok () :=
  congrArg (fun b => conflictIf b s.macroServed 0 td) h

/-- A TLOAD of an image in plain memory that may issue, to a tile not in use, from its first step. -/
structure TloadReady (s : State) (td : TReg) (xa : XReg) (x : Xlat) : Prop where
  ready : s.tilesReady
  aligned : (s.getX xa).toNat % 64 = 0
  room : s.cc.full .t = false
  vfence : s.cc.vfence = false
  alone : s.alone = true
  unused : (s.getT td).inUse = false
  first : (s.getT td).cfg = none ∨ s.cc.tstep = 0
  leaf : PlainLeaf s .load (s.getX xa) 64 x

/-- The end of a TLOAD. -/
structure TloadDone (s t : State) (td : TReg) : Prop where
  retires : Retires s t (s.cc.pc + 4)
  bytes : SameBytes s t
  x : t.cc.x = s.cc.x
  v : t.cc.v = s.cc.v
  m : t.cc.m = s.cc.m
  fcsr : t.cc.fcsr = s.cc.fcsr
  others : ∀ k, k ≠ td → t.getT k = s.getT k
  tstep : t.cc.tstep = 0
  macroOp : t.cc.macroOp = none
  out : t.cc.out.t = s.cc.out.t + s.cc.sending

section
variable {s : State} {td : TReg} {xa : XReg} {x : Xlat} (h : TloadReady s td xa x)
include h

theorem TloadReady.exec_start : exec (.tload td xa) s = finish (s.macroStart (.tload td (s.getX xa)) 0) := by
  have hm : (if (s.getT td).cfg.isNone then 0 else s.cc.tstep.toNat) = 0 := by
    rcases h.first with hf | hf <;> simp [hf]
  rw [State.exec_tload h.ready h.aligned, vfenceWait_none h.vfence, except_bind_ok, hm]

theorem TloadReady.readHeader : s.readHeader (s.getX xa) = .ok (s, s.bytes x.pa 64) := by
  simp only [State.readHeader, h.leaf.pieces, except_bind_ok, h.leaf.loadPieces]

theorem TloadReady.headerOf : s.headerOf 0 (.tload td (s.getX xa)) = .ok (s.bytes x.pa 64) := by
  simp only [State.headerOf, ne_eq, not_true_eq_false, if_false, h.readHeader]

theorem TloadReady.units {t : Tile} (ht : tileOfHeader (s.bytes x.pa 64) = some t) {n : Nat}
    (hn : (if t.inUse then t.loadBytes else 64) = 64 + n) (hle : 64 + n ≤ 2048)
    (hbody : n = 0 ∨ ∃ y, PlainLeaf s .load (s.getX xa + 64) n y) :
    s.unitsOk .load ((s.macroParts (s.bytes x.pa 64) (.tload td (s.getX xa)) 0).flatMap pageRuns) = .ok s := by
  rw [State.tloadParts ht td _ hn hle, List.flatMap_singleton]
  exact State.unitsOk_served (imageRuns_served h.aligned h.leaf hbody)

/-- The one step of an image: it leaves a tile that needs no other, and the load retires. -/
theorem TloadReady.one_step {t T : Tile} (ht : tileOfHeader (s.bytes x.pa 64) = some t) {n : Nat}
    (hn : (if t.inUse then t.loadBytes else 64) = 64 + n) (hle : 64 + n ≤ 2048)
    (hbody : n = 0 ∨ ∃ y, PlainLeaf s .load (s.getX xa + 64) n y)
    (hstep : s.macroServed.tloadFirst td (s.getX xa) = .ok (s.macroServed.putT td T))
    (hT : (if T.inUse then (T.loadBytes + 2047) / 2048 else 1) = 1) :
    ∃ u, exec (.tload td xa) s = .next u ∧ TloadDone s u td ∧ u.getT td = T := by
  have hm : 0 < s.macroTotal (.tload td (s.getX xa)) := by simp [State.macroTotal, h.unused]
  have hafter : (s.macroServed.putT td T).macroTotal (.tload td (s.getX xa)) = 1 := by
    simp only [State.macroTotal, State.getT_putT_self, hT]
  obtain ⟨u, hgo, hleaves⟩ := State.macroStart_steps h.room h.headerOf (.inr (h.units ht hn hle hbody)) h.alone hm
    (u := s.macroServed.putT td T) hstep rfl
  rw [hafter] at hleaves
  obtain ⟨hret, hop, hout⟩ := hleaves.last rfl
  have htiles : ∀ k, u.getT k = (s.macroServed.putT td T).getT k := State.getT_congr hleaves.tiles
  refine ⟨u, by rw [h.exec_start, hgo, finish_ok], ⟨hret, fun a => ?_, hleaves.regs, hleaves.vectors, hleaves.masks,
    hleaves.fcsr, fun k hk => (htiles k).trans (State.getT_putT_other _ hk T), hleaves.tstep, hop, hout⟩,
    (htiles td).trans (State.getT_putT_self ..)⟩
  rw [hleaves.mem]
  rfl

theorem TloadReady.readHeader_served : s.macroServed.readHeader (s.getX xa) = .ok (s.macroServed, s.bytes x.pa 64) := by
  have hx := h.leaf.macroServed
  simp only [State.readHeader, hx.pieces, except_bind_ok, hx.loadPieces]
  rfl

/-- A header of configuration 0. -/
theorem TloadReady.unconfigured (ht : tileOfHeader (s.bytes x.pa 64) = some {}) :
    ∃ u, exec (.tload td xa) s = .next u ∧ TloadDone s u td ∧ u.getT td = {} := by
  refine h.one_step ht (n := 0) rfl (by omega) (.inl rfl) ?_ rfl
  simp only [State.tloadFirst, h.readHeader_served, except_bind_ok, ht, Option.isNone_none, if_true, except_pure, precise_ok]

section
variable {w : BitVec 32} (hoccupy : s.cc.othersOccupy td + occupancy w ≤ 131072)
include hoccupy

/-- A header that says that its tile is not in use. -/
theorem TloadReady.config_alone {scaled : Bool}
    (ht : tileOfHeader (s.bytes x.pa 64) = some { cfg := some w, scaled := scaled }) :
    ∃ u, exec (.tload td xa) s = .next u ∧ TloadDone s u td ∧ u.getT td = { cfg := some w, scaled := scaled } := by
  have hword : ({ cfg := some w, scaled := scaled } : Tile).word = w := rfl
  refine h.one_step ht (n := 0) rfl (by omega) (.inl rfl) ?_ rfl
  simp only [State.tloadFirst, h.readHeader_served, except_bind_ok, ht, Option.isNone_some, Bool.false_eq_true, if_false,
    hword, State.occupy_check hoccupy, State.use_check h.unused, Bool.not_false, if_true, except_pure, precise_ok]

/-- A header of a tile in use, and a body that the same step reads. -/
theorem TloadReady.contents {t : Tile} (ht : tileOfHeader (s.bytes x.pa 64) = some t) (hcfg : t.cfg = some w)
    (huse : t.inUse = true) (hvs : t.vs.length = t.rank) (hle : 64 + bodyRead w t.scaled ≤ 2048) {y : Xlat}
    (hy : PlainLeaf s .load (s.getX xa + 64) (bodyRead w t.scaled) y) :
    ∃ u, exec (.tload td xa) s = .next u ∧ TloadDone s u td ∧
      u.getT td = t.withBody (s.bytes y.pa (bodyRead w t.scaled) ++ t.body.drop (bodyRead w t.scaled)) := by
  obtain ⟨hcfg', -, hsc, -, -⟩ := Tile.withBody_keeps hcfg
    (s.bytes y.pa (bodyRead w t.scaled) ++ t.body.drop (bodyRead w t.scaled)) hvs
  have hload := Tile.loadBytes_eq hcfg
  refine h.one_step ht (by rw [huse, if_pos rfl, hload]) hle (.inr ⟨y, hy⟩) ?_ ?_
  · have hlen : stepLen (64 + bodyRead w t.scaled) 0 - 64 = bodyRead w t.scaled := by simp only [stepLen]; omega
    have hword : t.word = w := by simp [Tile.word, hcfg]
    have hsome : t.cfg.isNone = false := by simp [hcfg]
    have hleaf := hy.macroServed
    simp only [State.tloadFirst, h.readHeader_served, except_bind_ok, ht, hsome, Bool.false_eq_true, if_false, hword,
      State.occupy_check hoccupy, State.use_check h.unused, huse, Bool.not_true, hload, hlen, hleaf.pieces, hleaf.loadPieces,
      except_pure, precise_ok]
    rfl
  · rw [Tile.loadBytes_eq hcfg', hsc]
    split
    · omega
    · rfl

end

end

/-- A TLOAD of a tile in use, by the fields of its image. -/
theorem TloadReady.image {s : State} {td : TReg} {xa : XReg} {x y : Xlat} (h : TloadReady s td xa x)
    (hh : ImageHeader s x.pa) (hc : ImageConfig s x.pa) (hm : s.imgMarks x.pa % 2 = 1)
    (hoccupy : s.cc.othersOccupy td + occupancy (s.imgWord x.pa) ≤ 131072)
    (hle : 64 + bodyRead (s.imgWord x.pa) (s.imgScaled x.pa) ≤ 2048)
    (hy : PlainLeaf s .load (s.getX xa + 64) (bodyRead (s.imgWord x.pa) (s.imgScaled x.pa)) y) :
    ∃ u tail, exec (.tload td xa) s = .next u ∧ TloadDone s u td ∧
      u.getT td = (s.imgTile x.pa).withBody (s.bytes y.pa (bodyRead (s.imgWord x.pa) (s.imgTile x.pa).scaled) ++ tail) := by
  have hranks : (s.imgTile x.pa).vs.length = (s.imgTile x.pa).rank := by simp [State.imgTile, Tile.rank]
  obtain ⟨u, hgo, hdone, hT⟩ := h.contents hoccupy (hh.tile_used hc hm) rfl rfl hranks hle hy
  exact ⟨u, _, hgo, hdone, hT⟩

end Sys2Proof.Machine
end

section
/-! The stepped operations TMMA, TSAVE and TLOAD (R195 to R198). -/

namespace Sys2Proof.Machine

/-- Behind a VFENCE whose accesses are not performed, each of them waits (R231). -/
theorem State.macro_waits_vfence {s : State} (hready : s.tilesReady) {xa : XReg} (ha : (s.getX xa).toNat % 64 = 0)
    (hvf : s.cc.vfence = true) (hbusy : s.cc.streamBusy) (td ts : TReg) :
    ∀ i ∈ [Instr.tmmaS td xa ts, .tmmaF td xa ts, .tsave td xa, .tload td xa], exec i s = .next s.freshReads := by
  have hwait := vfenceWait_busy hvf hbusy
  have htmma : ∀ strict, s.tmma strict td xa ts = .next s.freshReads := fun strict => by
    rw [State.tmma, hwait, except_bind_error, finish_wait]
  intro i hi
  simp only [List.mem_cons, List.not_mem_nil, or_false] at hi
  rcases hi with rfl | rfl | rfl | rfl
  · exact htmma true
  · exact htmma false
  · rw [State.exec_tsave_aligned hready.1 td ha, hwait, except_bind_error, finish_wait]
  · rw [State.exec_tload hready ha, hwait, except_bind_error, finish_wait]

/-- The row of A of step m, from the elements that are found in plain memory. -/
theorem TmmaTags.rowOfA {s : State} {td ts : TReg} {w x : BitVec 32} (h : TmmaTags s td ts w x) {row : Word} {es : Int}
    {n : Nat}
    (hplace : ∀ k, k < n →
      (s.quietAt .load (row + BitVec.ofInt 64 (posOf s.cc.mtag es k)) (memBits s.cc.mtag / 8)).isSome = true) :
    RowOfA s row es n (s.leafOfA row es) :=
  ⟨h.scale, h.val, h.sub, fun k hk =>
    have ⟨hplain, hic, _⟩ := State.quietAt_leafOfA (hplace k hk)
    ⟨hplain, hic⟩⟩

/-- The products of column c, from the elements as the shape record places them. -/
def State.placedTerms (s : State) (ts : TReg) (x : BitVec 32) (row : Word) (es : Int) (c : Nat) : List (Val × Flags) :=
  (List.range (cfgRows x)).map fun k =>
    scaledProduct (decodeElem s.cc.mtag (s.peek
      ((s.quietAt .load (row + BitVec.ofInt 64 (posOf s.cc.mtag es k)) (memBits s.cc.mtag / 8)).getD 0)
      (memBits s.cc.mtag / 8))) 127 (valOf ((s.getT ts).row k).data (cfgTag x) c) ((s.getT ts).scaleAt k c)

/-- Element c of row m, from those products. -/
def State.placedElem (s : State) (strict : Bool) (td ts : TReg) (w x : BitVec 32) (row : Word) (es : Int) (m c : Nat) :
    Nat × Flags :=
  if cfgTag w = tI32 then denseAcc s.cc tI32 (s.draw.1 c) (s.tileSlot td m c) (s.placedTerms ts x row es c)
  else sumForm strict (subDraw s.draw.1 c) s.cc.accsat s.cc.rm (s.tileSlot td m c) (s.placedTerms ts x row es c)

section
variable {s : State} {td ts : TReg} {w x : BitVec 32} (h : TmmaTags s td ts w x) {row : Word} {es : Int}
  (hplace : ∀ k, k < cfgRows x →
    (s.quietAt .load (row + BitVec.ofInt 64 (posOf s.cc.mtag es k)) (memBits s.cc.mtag / 8)).isSome = true)
include h hplace

theorem TmmaTags.terms_eq (c : Nat) : s.tmmaTerms ts (s.leafOfA row es) c = s.placedTerms ts x row es c := by
  have hrows : (s.getT ts).nrows = cfgRows x := by simp [Tile.nrows, h.src_word]
  have htag : (s.getT ts).tag = cfgTag x := by simp [Tile.tag, h.src_word]
  rw [State.tmmaTerms, State.placedTerms, hrows, htag]
  refine List.map_congr_left fun k hk => ?_
  obtain ⟨-, -, hat⟩ := State.quietAt_leafOfA (hplace k (List.mem_range.1 hk))
  rw [hat]
  rfl

theorem TmmaTags.elem_eq (strict : Bool) (m c : Nat) :
    s.macroServed.tmmaElem strict td ts (s.leafOfA row es) m c = s.placedElem strict td ts w x row es m c := by
  have hserved : s.macroServed.tmmaElem strict td ts (s.leafOfA row es) m c =
      s.tmmaElem strict td ts (s.leafOfA row es) m c := rfl
  have htag : (s.getT td).tag = cfgTag w := by simp [Tile.tag, h.dst_word]
  rw [hserved, State.tmmaElem, State.placedElem, htag, h.terms_eq hplace]

theorem TmmaTags.flags_eq (strict : Bool) (m : Nat) :
    s.macroServed.tmmaFlags strict td ts (s.leafOfA row es) m =
      (List.range (cfgCols w)).foldl (fun f c => f ||| (s.placedElem strict td ts w x row es m c).2) 0 := by
  have hcols : (s.macroServed.getT ts).ncols = cfgCols w :=
    (congrArg cfgCols h.src_word : cfgCols (s.getT ts).word = cfgCols x).trans h.cols.symm
  simp only [State.tmmaFlags, hcols, h.elem_eq hplace]

theorem TmmaTags.slot_eq (strict : Bool) (m : Nat) {c : Nat} (hc : c < cfgCols w) :
    slotOf ((s.macroServed.tmmaTile strict td ts (s.leafOfA row es) m).row m).data (cfgTag w) c =
      (s.placedElem strict td ts w x row es m c).1 % 2 ^ 32 := by
  have hserved : TmmaTags s.macroServed td ts w x := ⟨h.ready, h.rawm, h.scale, h.dst, h.src, h.dstDense, h.srcDense, h.cols,
    h.notI32, h.val, h.sub, h.pair, h.acc⟩
  rw [State.tmmaTile_slot strict _ m hserved hc, h.elem_eq hplace]

end

/-- The image of a tile, field by field. -/
theorem Tile.image_fields {t : Tile} {w : BitVec 32} (h : t.cfg = some w) :
    (t.image.drop 0).take 4 = leBytes 4 w.toNat ∧ (t.image.drop 4).take 1 = leBytes 1 t.us.length ∧
      (t.image.drop 5).take 1 = [(if t.inUse then 1 else 0) + (if t.scaled then 2 else 0)] ∧
      (t.image.drop 8).take 4 = leBytes 4 (bodyBytes w) := by
  rw [Tile.image_of_cfg h, Tile.header_of_cfg h]
  exact ⟨rfl, rfl, rfl, rfl⟩

/-- Settles O45: each operation starts by `State.macroStart`, makes one step when the matrix unit is free, and ends or leaves
the next step to it. -/
theorem tileMacroOperations : Obligations.TileMacroOperations := by
  unfold Obligations.TileMacroOperations
  refine ⟨?tmma, ?vfence, ⟨?tsave, ?image⟩, ?tload⟩
  case vfence => exact fun s td ts xa hready ha hvf hbusy => s.macro_waits_vfence hready ha hvf hbusy td ts
  case image =>
    intro T
    refine ⟨fun hcfg => by simp [Tile.image, Tile.header, hcfg], fun w hcfg => ?_⟩
    obtain ⟨hword, hrank, hmarks, hlen⟩ := Tile.image_fields hcfg
    refine ⟨hword, hrank, hmarks, hlen, fun r c hf hx hs hr hc => ?_, fun j k hf hj => ?_⟩
    · exact (Tile.image_body hcfg ..).trans (Tile.body_dense hcfg hf hx hs hr hc)
    · obtain ⟨hu, hv⟩ := Tile.body_factored hcfg hf (k := k) hj
      exact ⟨fun hk => (Tile.image_body hcfg ..).trans (hu hk), fun hk => (Tile.image_body hcfg ..).trans (hv hk)⟩
  case tsave =>
    intro s td xa hven
    refine ⟨State.exec_tsave_misaligned hven td, fun ha hfull hvf => ?_, fun ha hroom hvf hm =>
      ⟨fun u t hv hu => s.tsave_unit_trap hven ha hroom hvf hv hu, fun hunits pa hpa => ⟨fun halone => ?_, fun hturn => ?_⟩⟩⟩
    · rw [State.exec_tsave_start hven hvf td ha, State.macroStart_waits hfull, finish_wait]
    · obtain ⟨x, hx, rfl⟩ := State.plainAt_eq_some.1 hpa
      obtain ⟨u, t, hgo, hcc, hmem, hleaves⟩ := s.tsave_steps hven ha hroom hvf hm hunits (s.alone_iff.2 halone) hx
      have hwritten := hleaves.mem.trans hmem
      refine ⟨t, hgo, hleaves.regs, hleaves.vectors, hleaves.masks, hleaves.tiles.trans (congrArg (·.t) hcc),
        hleaves.fcsr.trans (congrArg (·.fcsr) hcc), hleaves.tstep, ?_, fun p hp => ?_, hleaves.last, hleaves.more⟩
      · exact (congrArg (Memory.readAll · x.pa _) hwritten).trans (Memory.readAll_writeAll ..)
      · rw [hwritten]
        exact Memory.read_writeAll_outside _ hp
    · exact ⟨_, s.tsave_waits_turn hven ha hroom hvf hm hunits (fun h => hturn (s.alone_iff.1 h)), rfl, rfl, rfl, rfl, rfl⟩
  case tmma =>
    intro s td ts xa strict pr w x hready hraw hscale hdst hsrc hdd hds hcols hI32 a size hval hsub hpair hacc hal hpr bound n
      rs es m hfix hble hbpos hflags hzero hstride hm hroom hvf
    have htags : TmmaTags s td ts w x :=
      ⟨hready, hraw, hscale, hdst, hsrc, hdd, hds, hcols, hI32, hval, hsub, hpair, hacc⟩
    have hrec : TmmaRecord s (s.getX xa) pr w := ⟨hal, hpr, hfix, hble, hbpos, hflags, hzero, hstride⟩
    refine ⟨fun u t hv hu => State.tmma_unit_trap hroom hvf htags hrec strict hv hu, fun hunits halone hplace => ?_⟩
    have hrow : RowOfA s (s.recRow pr m) es (cfgRows x) (s.leafOfA (s.recRow pr m) es) := htags.rowOfA hplace
    obtain ⟨t, hgo, hleaves⟩ :=
      State.tmma_steps hroom hvf htags hrec strict hm hunits (s.alone_iff.2 halone) hrow
    have htiles : ∀ k, t.getT k = (s.macroServed.tmmaAfter strict td ts (s.leafOfA (s.recRow pr m) es) m).getT k :=
      State.getT_congr hleaves.tiles
    have htd := (htiles td).trans (State.tmmaAfter_self ..)
    refine ⟨t, hgo, fun p => by rw [hleaves.mem]; rfl, hleaves.regs, hleaves.vectors, hleaves.masks,
      fun k hk => (htiles k).trans (State.tmmaAfter_other _ _ _ _ _ _ hk), ?_, ?_, fun i hi => ?_, fun c hc => ?_, ?_,
      hleaves.tstep, hleaves.last, fun hlt => ?_⟩
    · exact (congrArg Tile.cfg htd).trans hdst
    · exact congrArg Tile.inUse htd
    · exact (congrArg (Tile.row · i) htd).trans (State.tmmaTile_row_other _ _ _ _ _ _ hi)
    · exact (congrArg (fun T => slotOf (Tile.row T m).data (cfgTag w) c) htd).trans (htags.slot_eq hplace strict m hc)
    · exact hleaves.fcsr.trans (congrArg (fun f : Flags => s.cc.fcsr ||| (f.setWidth 14 <<< 8)) (htags.flags_eq hplace strict m))
    · obtain ⟨hpc, hop, hout⟩ := hleaves.more hlt
      exact ⟨hpc, hout, by rw [hop]; rfl⟩
  case tload =>
    intro s td xa pa hready ha hroom hvf halone huse hfirst hpa w rank marks scaled hmarks hzero hrest done
    obtain ⟨x, hx, rfl⟩ := State.plainAt_eq_some.1 hpa
    have hstart : TloadReady s td xa x := ⟨hready, ha, hroom, hvf, s.alone_iff.2 halone, huse, hfirst, hx⟩
    have hhead : ImageHeader s x.pa := ⟨hmarks, hzero, hrest⟩
    have hdone : ∀ t, TloadDone s t td → done t := fun t h =>
      ⟨h.retires, h.bytes, h.x, h.v, h.m, h.fcsr, h.others, h.tstep, h.macroOp, h.out⟩
    refine ⟨fun hw => ?_, fun hok hbody hrank hoccupy => ?_⟩
    · obtain ⟨t, hgo, hd, hT⟩ := hstart.unconfigured (hhead.tile_zero hw)
      exact ⟨t, hgo, hdone t hd, hT⟩
    have hconf : ImageConfig s x.pa := ⟨hok, hbody, hrank⟩
    refine ⟨fun hm => ?_, fun hm pb hle hpb => ?_⟩
    · obtain ⟨t, hgo, hd, hT⟩ := hstart.config_alone hoccupy (hhead.tile_unused hconf hm)
      exact ⟨t, hgo, hdone t hd, hT⟩
    obtain ⟨y, hy, rfl⟩ := State.plainAt_eq_some.1 hpb
    obtain ⟨t, tail, hgo, hd, hT⟩ := hstart.image hhead hconf hm hoccupy hle hy
    have hus : (s.imgTile x.pa).rank = rank := List.length_replicate
    obtain ⟨hcfg, hin, hsc, hulen, hvlen⟩ := Tile.withBody_keeps (t := s.imgTile x.pa) rfl
      (s.bytes y.pa (bodyRead w (s.imgTile x.pa).scaled) ++ tail) (List.length_replicate.trans hus.symm)
    refine ⟨t, hgo, hdone t hd, ?_⟩
    rw [hT]
    refine ⟨hcfg, hin, hsc, hulen.trans hus, hvlen.trans hus, fun r c hf hsx hsub hr hc => ?_, fun j k hf hj => ?_,
      fun k hf hst hscaled hk => ?_⟩
    · exact Tile.withBody_slot rfl hok hf hsx hsub s y.pa tail hr hc
    · refine Tile.withBody_factors rfl hf ?_ s y.pa tail (hus.symm ▸ hj)
      rw [hf, if_pos rfl] at hrank
      exact hus.trans_le hrank
    · exact Tile.withBody_scales rfl hf hst hscaled s y.pa tail hk

end Sys2Proof.Machine
end

section
/-! Tile configuration: TCFG, TREL, TZERO and TRANK, and the tile destinations that an open LOOPI refuses (R47, R179 to R185,
R193). -/

namespace Sys2Proof.Machine

/-! ### Checks -/

/-- Inside a LOOPI the first destination that R47 forbids is reported. -/
theorem pushGuard_carry {s : State} {ds : List Nat} {d : Nat} (hven : s.cc.ven = true) (ha : s.cc.loopAct = true)
    (hi : s.cc.loopI = true) (hd : ds.find? isCarry = some d) :
    pushGuard s ds = .error (.trap s { cause := 0x13, tval := .ofNat 64 d }) := by
  rw [pushGuard, needVector_ok hven]
  simp [ha, hi, hd, cCarry]

theorem isCarry_t (n : TReg) : isCarry (tCode n) = true := decide_eq_true (.inr (.inr (Nat.le_add_right _ _)))

theorem pushGuard_carry_tile {s : State} (hven : s.cc.ven = true) (ha : s.cc.loopAct = true) (hi : s.cc.loopI = true) (td : TReg) :
    pushGuard s [tCode td] = .error (.trap s { cause := 0x13, tval := .ofNat 64 (0x80 + td.toNat) }) :=
  pushGuard_carry hven ha hi (List.find?_cons_of_pos (isCarry_t td))

theorem tileGuard_configured {s : State} {ds : List Nat} (hg : pushGuard s ds = .ok ()) {td : TReg} {w : BitVec 32}
    (hcfg : (s.getT td).cfg = some w) : tileGuard s ds [td] = .ok () := by
  simp [tileGuard, hg, hcfg]

theorem tileGuard_error {s : State} {ds : List Nat} {e : Stop} (hg : pushGuard s ds = .error e) (ts : List TReg) :
    tileGuard s ds ts = .error e := by
  rw [tileGuard, hg, except_bind_error]

/-! ### A write of a tile -/

/-- A tile instruction that writes its tile and retires changes nothing else. -/
theorem frameT_putT (s : State) (td : TReg) (t : Tile) (pc : Word) : FrameT s ((s.putT td t).retireTo pc) td where
  only := rfl
  regs _ hn := s.getT_putT_other hn t
  bytes _ := rfl

/-- What an instruction that only writes its tile leaves. -/
structure PutsTile (s u : State) (td : TReg) (t : Tile) : Prop where
  retires : Retires s u (s.cc.pc + 4)
  frame : FrameT s u td
  flags : FlagsSet s u 0
  tile : u.getT td = t

theorem putsTile (s : State) (td : TReg) (t : Tile) : PutsTile s (s.putT td t).retire td t where
  retires := retires_to s (s.putT td t) _ rfl
  frame := frameT_putT s td t _
  flags := (or_zero_flags s.cc.fcsr).symm
  tile := s.getT_putT_self td t

theorem exec_tcfg_free {s : State} (hready : s.tilesReady) {td : TReg} {xa : XReg} (hfree : (s.getT td).inUse = false)
    (hok : cfgOk (s.getX xa) = true) (hfit : s.cc.othersOccupy td + occupancy ((s.getX xa).setWidth 32) ≤ 131072) :
    exec (.tcfg td xa) s = .next (s.putT td { cfg := some ((s.getX xa).setWidth 32) }).retire := by
  simp [execTcfg, pushGuard_tilesReady hready, hfree, hok, Nat.not_lt.2 hfit, conflictIf_false]

theorem exec_trel_ready {s : State} (hready : s.tilesReady) (td : TReg) :
    exec (.trel td) s = .next (s.putT td {}).retire := by
  simp [execTrel, pushGuard_tilesReady hready]

theorem exec_tzero_configured {s : State} (hready : s.tilesReady) {td : TReg} {w : BitVec 32} (hcfg : (s.getT td).cfg = some w) :
    exec (.tzero td) s = .next (s.putT td { cfg := some w, inUse := true }).retire := by
  simp [execTzero, tileGuard_configured (pushGuard_tilesReady hready _) hcfg, hcfg]

/-- No row of a tile without rows holds a bit. -/
theorem slotOf_row_of_rows_nil {t : Tile} (h : t.rows = []) (tag : Tag) (i k : Nat) : slotOf (t.row i).data tag k = 0 := by
  have hdata : (t.row i).data = 0#8192 := by simp [Tile.row, h, tget]
  rw [slotOf, hdata, fieldAt, BitVec.toNat_zero, Nat.zero_shiftRight, Nat.zero_mod]

/-! ### TRANK (R193) -/

theorem State.setX_retire (s : State) (xd : XReg) (v : Word) : (s.setX xd v).retire = (s.setX xd v).retireTo (s.cc.pc + 4) := by
  simp [State.retire_eq]

/-- What an instruction that only writes a scalar register leaves. -/
theorem retires_setX (s : State) (xd : XReg) (v pc : Word) : Retires s ((s.setX xd v).retireTo pc) pc :=
  retires_to s (s.setX xd v) pc (by simp)

theorem exec_trank_ready {s : State} (hven : s.cc.ven = true) (td : TReg) (xd : XReg) :
    exec (.trank td xd) s = .next ((s.setX xd (s.getT td).rankWord).retireTo (s.cc.pc + 4)) := by
  simp [execTrank, needVector_ok hven, State.setX_retire]

theorem Tile.rankWord_unconfigured {t : Tile} (h : t.cfg = none) : t.rankWord = 0 := by simp [Tile.rankWord, h]

/-- The fields of a word that is packed as R193 packs TRANK's. -/
theorem rankFields (r w : Nat) (a b c : Bool) (hr : r < 256) :
    let x := BitVec.ofNat 64 (r + (if a then 256 else 0) + (if b then 512 else 0) + 1024 + (if c then 2048 else 0) + 2 ^ 32 * w)
    x.extractLsb' 0 8 = .ofNat 8 r ∧ x.getLsbD 8 = a ∧ x.getLsbD 9 = b ∧ x.getLsbD 10 = true ∧ x.getLsbD 11 = c ∧
      x.extractLsb' 32 32 = .ofNat 32 w := by
  refine ⟨BitVec.eq_of_toNat_eq ?_, ?_, ?_, ?_, ?_, BitVec.eq_of_toNat_eq ?_⟩
  case refine_1 => simp only [BitVec.extractLsb'_toNat, BitVec.toNat_ofNat]; split <;> split <;> split <;> omega
  case refine_6 =>
    simp only [BitVec.extractLsb'_toNat, BitVec.toNat_ofNat, Nat.shiftRight_eq_div_pow]
    split <;> split <;> split <;> omega
  all_goals
    simp only [BitVec.getLsbD_ofNat, Nat.testBit_eq_decide_div_mod_eq]
    cases a <;> cases b <;> cases c <;> simp <;> omega

theorem Tile.rankWord_fields {t : Tile} {w : BitVec 32} (hcfg : t.cfg = some w) (hr : t.rank < 256) :
    t.rankWord.extractLsb' 0 8 = .ofNat 8 t.rank ∧ t.rankWord.getLsbD 8 = cfgFactored w ∧ t.rankWord.getLsbD 9 = t.inUse ∧
      t.rankWord.getLsbD 10 = true ∧ t.rankWord.getLsbD 11 = t.scaled ∧ t.rankWord.extractLsb' 32 32 = w := by
  have hfac : t.factored = cfgFactored w := by simp [Tile.factored, Tile.word, hcfg]
  have hword : t.rankWord = BitVec.ofNat 64 (t.rank + (if cfgFactored w then 256 else 0) + (if t.inUse then 512 else 0) + 1024 +
      (if t.scaled then 2048 else 0) + 2 ^ 32 * w.toNat) := by
    simp only [Tile.rankWord, hcfg, hfac]
  have h := rankFields t.rank w.toNat (cfgFactored w) t.inUse t.scaled hr
  rwa [← hword, BitVec.ofNat_toNat, BitVec.setWidth_eq] at h

/-- Settles O41: each instruction ends in the write of its tile, or of xd, that its lemma above gives; inside a LOOPI the four
stop at the guard that they share. -/
theorem tileConfiguration : Obligations.TileConfiguration := by
  unfold Obligations.TileConfiguration
  intro s td
  refine ⟨fun hready => ⟨fun xa hfree hok hfit => ?tcfg, ?trel, fun w hcfg => ?tzero⟩, fun hven xd hxd => ?trank,
    fun hven ha hi i hmem => ?loopi⟩
  case tcfg =>
    have h := putsTile s td { cfg := some ((s.getX xa).setWidth 32) }
    exact ⟨_, exec_tcfg_free hready hfree hok hfit, h.retires, h.frame, h.flags, h.tile⟩
  case trel =>
    have h := putsTile s td {}
    exact ⟨_, exec_trel_ready hready td, h.retires, h.frame, h.flags, h.tile⟩
  case tzero =>
    have h := putsTile s td { cfg := some w, inUse := true }
    refine ⟨_, exec_tzero_configured hready hcfg, h.retires, h.frame, h.flags, ?_⟩
    rw [h.tile]
    exact ⟨rfl, rfl, rfl, rfl, slotOf_row_of_rows_nil rfl _⟩
  case trank =>
    have hx : ((s.setX xd (s.getT td).rankWord).retireTo (s.cc.pc + 4)).getX xd = (s.getT td).rankWord :=
      (s.getX_setX xd xd _).trans (if_pos ⟨rfl, hxd⟩)
    refine ⟨_, exec_trank_ready hven td xd, retires_setX s xd _ _, frameX_setX s xd _ _, fun hnone => ?_,
      fun w hcfg hr _ => ?_⟩
    · rw [hx, Tile.rankWord_unconfigured hnone]
    · rw [hx]
      exact Tile.rankWord_fields hcfg hr
  case loopi =>
    have hg := pushGuard_carry_tile hven ha hi td
    simp only [List.mem_cons, List.not_mem_nil, or_false] at hmem
    rcases hmem with rfl | rfl | rfl | rfl
    · simp [execTrel, hg]
    · simp [execTzero, tileGuard_error hg]
    · simp [execTrecomp, tileGuard_error hg]
    · simp [execTdense, tileGuard_error hg]

end Sys2Proof.Machine
end

section
/-! The element groups that a mask skips, and how a retired instruction's are counted (R35, R178, R340). -/

namespace Sys2Proof.Machine

theorem State.noteSkips_of_skipped_zero {u : State} {i : Instr} (h : u.skipped i = 0) (t : State) : u.noteSkips i t = t := by
  simp [State.noteSkips, h]

theorem State.noteSkips_not_retired {u t : State} (i : Instr) (h : t.cc.retired ≠ u.cc.retired + 1) : u.noteSkips i t = t :=
  if_neg fun q => h q.2

theorem State.noteSkips_retired {u t : State} (i : Instr) (h : t.cc.retired = u.cc.retired + 1) :
    u.noteSkips i t = if u.skipped i = 0 then t else t.count (coreOf u.cc.ctxid) 2 (u.skipped i) := by
  by_cases hk : u.skipped i = 0
  · rw [State.noteSkips_of_skipped_zero hk, if_pos hk]
  · rw [if_neg hk]
    exact if_pos ⟨hk, h⟩

/-- With VMSEL at 15 every element is active: no group is skipped. -/
theorem State.skipped_unmasked {u : State} (i : Instr) (h : u.cc.vmsel = 15) : u.skipped i = 0 := by
  unfold State.skipped
  split
  · exact if_pos h
  · rfl

theorem State.skipped_of_skipWidth_none {u : State} {i : Instr} (h : skipWidth i u = none) : u.skipped i = 0 := by
  simp [State.skipped, h]

theorem State.skipped_of_skipWidth {u : State} {i : Instr} {w : Nat} (h : skipWidth i u = some w) (hm : u.cc.vmsel ≠ 15) :
    u.skipped i = ((List.range 16).filter (u.skips w)).length := by
  rw [State.skipped, h]
  exact if_neg hm

/-- A group of n elements holds one between two bounds when the bounds leave room in it. -/
theorem group_holds_iff (g n lo hi : Nat) :
    (max (g * n) lo < min ((g + 1) * n) hi) ↔ ∃ j < n, lo ≤ g * n + j ∧ g * n + j < hi := by
  have hg : (g + 1) * n = g * n + n := Nat.succ_mul g n
  constructor
  · intro h
    exact ⟨max (g * n) lo - g * n, by omega, by omega, by omega⟩
  · rintro ⟨j, hj, hlo, hhi⟩
    omega

/-- A skipped group by its elements: one of them from VSTART to VL − 1, and each masked off. -/
theorem State.skips_eq {u : State} (hcut : u.cc.cut = none) (hm : u.cc.vmsel ≠ 15) (w g : Nat) :
    u.skips w g =
      (((List.range (512 / w)).any fun j =>
          decide (u.cc.vstart.toNat ≤ g * (512 / w) + j) && decide (g * (512 / w) + j < u.cc.vl.toNat)) &&
        (List.range (512 / w)).all fun j => !(u.getM u.cc.vmsel).getLsbD (g * (512 / w) + j)) := by
  have hmask : u.activeMask = u.getM u.cc.vmsel := by
    rw [State.activeMask, hcut]
    exact if_neg hm
  have hroom := group_holds_iff g (512 / w) u.cc.vstart.toNat u.vlN
  have hany : decide (max (g * (512 / w)) u.cc.vstart.toNat < min ((g + 1) * (512 / w)) u.vlN) =
      (List.range (512 / w)).any fun j =>
        decide (u.cc.vstart.toNat ≤ g * (512 / w) + j) && decide (g * (512 / w) + j < u.cc.vl.toNat) := by
    rw [Bool.eq_iff_iff, decide_eq_true_iff, hroom]
    simp [State.vlN]
  rw [State.skips, hany, hmask]

/-- Settles O37: nothing is counted where `State.skipped` is 0; for the instructions named, the groups that it counts are those
of their element width, each by `State.skips_eq`. -/
theorem skippedElementGroups : Obligations.SkippedElementGroups := by
  unfold Obligations.SkippedElementGroups
  refine ⟨fun u t i h => ?_, fun u t vd va vb => ?_, fun u t i w hm hcut hret hi => ?_⟩
  · rcases h with h | h
    · exact State.noteSkips_of_skipped_zero (State.skipped_unmasked i h) t
    · exact State.noteSkips_not_retired i h
  · exact ⟨State.noteSkips_of_skipped_zero (State.skipped_of_skipWidth_none rfl) t,
      State.noteSkips_of_skipped_zero (State.skipped_of_skipWidth_none rfl) t,
      State.noteSkips_of_skipped_zero (State.skipped_of_skipWidth_none rfl) t⟩
  · have hw : skipWidth i u = some w := by
      rcases hi with ⟨_, _, _, rfl | rfl | rfl, rfl⟩ | ⟨_, _, _, rfl, rfl⟩ | ⟨_, _, _, rfl, rfl⟩ | ⟨_, _, _, _, _, rfl, rfl⟩ <;> rfl
    have hk : u.skipped i = ((List.range 16).filter fun g =>
        ((List.range (512 / w)).any fun j =>
          decide (u.cc.vstart.toNat ≤ g * (512 / w) + j) && decide (g * (512 / w) + j < u.cc.vl.toNat)) &&
        (List.range (512 / w)).all fun j => !(u.getM u.cc.vmsel).getLsbD (g * (512 / w) + j)).length := by
      rw [State.skipped_of_skipWidth hw hm, funext (State.skips_eq hcut hm w)]
    rw [State.noteSkips_retired i hret, hk]

end Sys2Proof.Machine
end

section
/-! The checks of R157, for every instruction of major opcodes 0x20 to 0x27: the same four in the same order, before anything
else that the instruction does. -/

namespace Sys2Proof.Machine

/-! ### The checks -/

/-- Step 3 of R157: a condition on the tags, with what a mismatch reports. -/
def reportTags (s : State) (ok : Bool) (report : Nat) : Except Stop Unit :=
  if ok then .ok () else .error (.trap s { cause := cTag, tval := .ofNat 64 report })

/-- The checks of R157 in their order. -/
def checks157 (s : State) (c : CheckSpec) : Except Stop Unit := do
  pushGuard s c.dsts
  reportTags s c.tagsOk c.report
  lenCheck s c.lens

/-- What an instruction does begins with the checks of R157. -/
def Checked (s : State) (c : CheckSpec) {α : Type} (r : Except Stop α) : Prop := ∃ k : Unit → Except Stop α, r = checks157 s c >>= k

section
variable {s : State} {c : CheckSpec} {α β : Type}

theorem Checked.bind {r : Except Stop α} (h : Checked s c r) (f : α → Except Stop β) : Checked s c (r >>= f) := by
  obtain ⟨k, rfl⟩ := h
  exact ⟨fun a => k a >>= f, bind_assoc _ _ _⟩

theorem Checked.of_eq {c' : CheckSpec} {r : Except Stop α} (h : Checked s c' r) (e : c' = c) : Checked s c r := e ▸ h

/-- The three checks as the meanings make them: the guard, the tags, the length. -/
theorem checked_guard_tags_length (ds : List Nat) (ok : Bool) (a b d : Tag) (ts : List Tag) (k : Unit → Except Stop α) :
    Checked s ⟨ds, ok, a.toNat + 256 * b.toNat + 65536 * d.toNat, ts⟩
      (pushGuard s ds >>= fun _ => tagCheck ok s a b d >>= fun _ => lenCheck s ts >>= k) :=
  ⟨k, by simp only [checks157, reportTags, tagCheck, tagMismatch, bind_assoc]⟩

/-- The same of an instruction that admits every tag, with whatever a mismatch would report. -/
theorem checked_guard_length (ds : List Nat) (report : Nat) (ts : List Tag) (k : Unit → Except Stop α) :
    Checked s ⟨ds, true, report, ts⟩ (pushGuard s ds >>= fun _ => lenCheck s ts >>= k) :=
  ⟨k, by simp only [checks157, reportTags, if_true, except_bind_ok, bind_assoc]⟩

theorem lenCheck_nil (s : State) : lenCheck s [] = .ok () := rfl

/-- The same of an instruction that reads no vector register. -/
theorem checked_guard (ds : List Nat) (report : Nat) (k : Unit → Except Stop α) :
    Checked s ⟨ds, true, report, []⟩ (pushGuard s ds >>= k) :=
  ⟨k, by simp only [checks157, reportTags, lenCheck_nil, if_true, except_bind_ok, bind_assoc]⟩

theorem lenCheck_congr {ts us : List Tag} (h : ∀ t, t ∈ ts ↔ t ∈ us) : lenCheck s ts = lenCheck s us := by
  have : (ts.any fun t => decide (vlmax t < s.cc.vl.toNat)) = us.any fun t => decide (vlmax t < s.cc.vl.toNat) := by
    rw [Bool.eq_iff_iff, List.any_eq_true, List.any_eq_true]
    simp only [h]
  rw [lenCheck, lenCheck, this]

/-- The checks of VBEST, which reports four tags and measures them in an order of its own. -/
theorem checked_pairs {ds : List Nat} {ok : Bool} {report : Nat} {ts us : List Tag} {k : Unit → Except Stop α}
    (h : ∀ t, t ∈ us ↔ t ∈ ts) :
    Checked s ⟨ds, ok, report, us⟩ (pushGuard s ds >>= fun _ =>
      if !ok then .error (.trap s { cause := cTag, tval := .ofNat 64 report }) else lenCheck s ts >>= k) := by
  refine ⟨k, ?_⟩
  rw [checks157, lenCheck_congr h, bind_assoc]
  cases ok <;> rfl

/-- The guard of an instruction without a destination in the vector unit is its first check alone. -/
theorem pushGuard_nil (s : State) : pushGuard s [] = needVector s := by
  rw [pushGuard]
  cases needVector s with
  | error e => rfl
  | ok a => simp

/-! ### What a failing check raises -/

theorem pushGuard_off {ds : List Nat} (h : s.cc.ven = false) : pushGuard s ds = .error (.trap s { cause := 0x07 }) := by
  rw [pushGuard, needVector_trap h, except_bind_error]
  rfl

theorem lenCheck_trap {ts : List Tag} (h : ∃ t ∈ ts, vlmax t < s.vlN) :
    lenCheck s ts = .error (.trap s { cause := 0x12, tval := .ofNat 64 s.vlN }) := by
  obtain ⟨t, ht, hlt⟩ := h
  have hany : (ts.any fun t => decide (vlmax t < s.cc.vl.toNat)) = true :=
    List.any_eq_true.2 ⟨t, ht, decide_eq_true hlt⟩
  have hval : s.cc.vl.setWidth 64 = .ofNat 64 s.vlN := (BitVec.ofNat_toNat 64 s.cc.vl).symm
  rw [lenCheck, hany, trapIf_true, hval]
  rfl

theorem isCarry_loopCarried {d : Nat} (h : d < 48 ∨ 0x40 ≤ d ∧ d < 0x4C) : isCarry d = loopCarried d :=
  decide_eq_decide.2 (by omega)

theorem find_carry {ds : List Nat} (h : ∀ d ∈ ds, d < 48 ∨ 0x40 ≤ d ∧ d < 0x4C) :
    ds.find? isCarry = ds.find? loopCarried := by
  induction ds with
  | nil => rfl
  | cons d r ih =>
    rw [List.find?_cons, List.find?_cons, isCarry_loopCarried (h d (.head _)), ih fun e he => h e (.tail _ he)]

theorem Checked.finish_error {r : Except Stop State} (h : Checked s c r) {t : Trap} (he : checks157 s c = .error (.trap s t)) :
    finish r = .next (s.raise t) := by
  obtain ⟨k, rfl⟩ := h
  rw [he, except_bind_error, finish_trap]

theorem checks157_of_guard_error {e : Stop} (h : pushGuard s c.dsts = .error e) : checks157 s c = .error e := by
  rw [checks157, h, except_bind_error]

theorem checks157_tags (hg : pushGuard s c.dsts = .ok ()) (h : c.tagsOk = false) :
    checks157 s c = .error (.trap s { cause := 0x02, tval := .ofNat 64 c.report }) := by
  rw [checks157, hg, h]
  rfl

theorem checks157_length (hg : pushGuard s c.dsts = .ok ()) (h : c.tagsOk = true) (hl : ∃ t ∈ c.lens, vlmax t < s.vlN) :
    checks157 s c = .error (.trap s { cause := 0x12, tval := .ofNat 64 s.vlN }) := by
  rw [checks157, hg, h, lenCheck_trap hl]
  rfl

end

/-! ### The shared forms -/

section
variable {s : State}

/-- The conditions of an instruction that writes a vector register, as R157 checks them. -/
def VecSpec.checks (p : VecSpec) (i : Instr) (s : State) : CheckSpec := ⟨[p.vd.toNat], p.tagsOk, tagReport i s, p.lens⟩

/-- The same of a mask register. -/
def MaskSpec.checks (p : MaskSpec) (i : Instr) (s : State) : CheckSpec := ⟨[0x40 + p.md.toNat], p.tagsOk, tagReport i s, p.lens⟩

/-- The report of an instruction that reads va and a third operand. -/
def thirdReport (s : State) (va : VReg) (b : Third) : Nat := (s.getV va).tag.toNat + 256 * (thirdTag s b).toNat

theorem checked_vecChecks (vd va : VReg) (b : Third) (ok : Tag → Bool) :
    Checked s ⟨[vd.toNat], ok (s.getV va).tag && thirdTagIs s (s.getV va).tag b, thirdReport s va b, [(s.getV va).tag]⟩
      (vecChecks s vd va b ok) :=
  checked_guard_tags_length _ _ _ _ _ _ _

theorem checked_unaryChecks (vd va : VReg) (ok : Tag → Bool) :
    Checked s ⟨[vd.toNat], ok (s.getV va).tag, (s.getV va).tag.toNat, [(s.getV va).tag]⟩ (unaryChecks s vd va ok) :=
  checked_guard_tags_length _ _ _ _ _ _ _

theorem checked_redChecks (vd va vb : VReg) (ok : Tag → Tag → Bool) :
    Checked s ⟨[vd.toNat], ok (s.getV va).tag (s.getV vb).tag, (s.getV va).tag.toNat + 256 * (s.getV vb).tag.toNat,
      [(s.getV va).tag]⟩ (redChecks s vd va vb ok) :=
  checked_guard_tags_length _ _ _ _ _ _ _

/-- An instruction of vd, va and a third operand of one tag. -/
theorem checked_vecThree {i : Instr} {vd va : VReg} {b : Third} {ok ok' : Tag → Bool} {imm : Bool}
    {f : Tag → Nat → Nat × Flags} (hr : tagReport i s = thirdReport s va b) (hok : ok' (s.getV va).tag = ok (s.getV va).tag) :
    Checked s ((s.vecThree vd va b ok imm f).checks i s) (vecChecks s vd va b ok') :=
  (checked_vecChecks vd va b ok').of_eq (by rw [VecSpec.checks, hr, hok]; rfl)

end

/-! ### The instructions, by major opcode -/

/-- An instruction begins with the checks of R157. -/
def ChecksFirst (i : Instr) (s : State) (c : CheckSpec) : Prop := ∃ r, exec i s = finish r ∧ Checked s c r

theorem vecArith_checks {i : Instr} {s : State} {p : VecSpec} (h : vecArith i s = some p) : ChecksFirst i s (p.checks i s) := by
  unfold vecArith at h
  split at h
  case h_20 => exact absurd h nofun
  all_goals obtain rfl := Option.some.inj h
  case h_17 | h_18 =>
    exact ⟨_, rfl, (checked_guard_tags_length _ _ _ _ _ _ _).of_eq (by cases ‹Third› <;> rfl)⟩
  case h_19 => exact ⟨_, rfl, checked_guard_tags_length _ _ _ _ _ _ _⟩
  all_goals exact ⟨_, rfl, (checked_vecThree (by cases ‹Third› <;> rfl) (by simp)).bind _⟩

theorem vecUnary_checks {i : Instr} {s : State} {p : VecSpec} (h : vecUnary i s = some p) : ChecksFirst i s (p.checks i s) := by
  unfold vecUnary at h
  split at h
  case h_10 => exact absurd h nofun
  all_goals obtain rfl := Option.some.inj h
  case h_8 => exact ⟨_, rfl, checked_guard_tags_length _ _ _ _ _ _ _⟩
  case h_9 => exact ⟨_, rfl, checked_guard_length _ _ _ _⟩
  all_goals exact ⟨_, rfl, (checked_unaryChecks _ _ _).bind _⟩

theorem vecMoves_checks {i : Instr} {s : State} {p : VecSpec} (h : vecMoves i s = some p) : ChecksFirst i s (p.checks i s) := by
  unfold vecMoves at h
  split at h
  case h_10 => exact absurd h nofun
  all_goals obtain rfl := Option.some.inj h
  case h_5 => exact ⟨_, rfl, checked_guard_tags_length _ _ _ _ _ _ _⟩
  case h_7 => exact ⟨_, rfl, checked_guard_length _ _ _ _⟩
  case h_8 => exact ⟨_, rfl, ((checked_vecChecks _ _ _ _).bind _).of_eq (by cases ‹Third› <;> rfl)⟩
  case h_9 => exact ⟨_, rfl, (checked_guard_tags_length _ _ _ _ _ _ _).of_eq (by simp [VecSpec.checks, State.vecElems, tagReport, vCode])⟩
  all_goals exact ⟨_, rfl, (checked_unaryChecks _ _ _).bind _⟩

theorem vecCopies_checks {i : Instr} {s : State} {p : VecSpec} (h : vecCopies i s = some p) : ChecksFirst i s (p.checks i s) := by
  unfold vecCopies at h
  split at h
  case h_1 =>
    obtain rfl := Option.some.inj h
    exact ⟨_, rfl, (checked_guard_length _ _ _ _).bind _⟩
  case h_2 =>
    obtain rfl := Option.some.inj h
    exact ⟨_, rfl, checked_guard_length _ _ _ _⟩
  case h_3 => exact absurd h nofun

theorem vecReduce_checks {i : Instr} {s : State} {p : VecSpec} (h : vecReduce i s = some p) : ChecksFirst i s (p.checks i s) := by
  unfold vecReduce at h
  split at h
  case h_8 => exact absurd h nofun
  all_goals
    obtain rfl := Option.some.inj h
    exact ⟨_, rfl, (checked_redChecks _ _ _ _).bind _⟩

theorem maskCompare_checks {i : Instr} {s : State} {p : MaskSpec} (h : maskCompare i s = some p) :
    ChecksFirst i s (p.checks i s) := by
  unfold maskCompare at h
  split at h
  case h_8 => exact absurd h nofun
  all_goals
    obtain rfl := Option.some.inj h
    exact ⟨_, rfl, (checked_guard_tags_length _ _ _ _ _ _ _).of_eq (by cases ‹Third› <;> rfl)⟩

theorem maskLogic_checks {i : Instr} {s : State} {p : MaskSpec} (h : maskLogic i s = some p) :
    ChecksFirst i s (p.checks i s) := by
  unfold maskLogic at h
  split at h
  case h_9 => exact absurd h nofun
  all_goals
    obtain rfl := Option.some.inj h
    exact ⟨_, rfl, checked_guard _ _ _⟩

/-- The tags of a conversion: into an SX tag, or into one of class VAL. -/
theorem convertTags (src sx val more part : Bool) :
    (src && (val || sx) && more && part) = (src && sx && part && more || src && val && more && part) := by
  cases src <;> cases sx <;> cases val <;> cases more <;> cases part <;> rfl

/-- VSXNORM, and the conversions, whose tags may be SX or not. -/
theorem sxResult_checks {i : Instr} {s : State} {q : SxSpec} (h : sxResult i s = some q) :
    ChecksFirst i s ⟨[q.vd.toNat], q.tagsOk || ((vecConvert i s).map VecSpec.tagsOk).getD false, tagReport i s, q.lens⟩ := by
  unfold sxResult at h
  split at h
  case h_1 =>
    obtain rfl := Option.some.inj h
    exact ⟨_, rfl, ((checked_unaryChecks _ _ _).bind _).of_eq (by simp [vecConvert, tagReport])⟩
  case h_2 _ a tag _ part =>
    obtain rfl := Option.some.inj h
    refine ⟨_, rfl, (checked_guard_tags_length _ _ _ _ _ _ _).of_eq ?_⟩
    have hok := convertTags (isVal (s.getV a).tag || isSx (s.getV a).tag) (isSx tag) (isVal tag) true
      (partOk (s.getV a).tag tag part)
    simp only [Bool.and_true] at hok
    rw [hok]
    simp [vecConvert, State.vecElems, tagReport, vCode]
  case h_3 _ a b _ part =>
    obtain rfl := Option.some.inj h
    refine ⟨_, rfl, (checked_guard_tags_length _ _ _ _ _ _ _).of_eq ?_⟩
    rw [convertTags]
    simp [vecConvert, State.vecElems, tagReport, vCode]
  case h_4 => exact absurd h nofun

/-- The scalar destinations of reductions and moves, and of mask operations, have no code of R364: R47 forbids none. -/
theorem checkSpec_checks {i : Instr} {s : State} {c : CheckSpec} (h : checkSpec i s = some c) : ChecksFirst i s c := by
  unfold checkSpec at h
  split at h
  case h_8 =>
    split at h
    next q hq =>
      obtain rfl := Option.some.inj h
      exact sxResult_checks hq
    next =>
      split at h
      next p hp =>
        obtain rfl := Option.some.inj h
        simp only [Option.orElse_eq_some] at hp
        rcases hp with hp | ⟨-, hp | ⟨-, hp | ⟨-, hp | ⟨-, hp⟩⟩⟩⟩
        · exact vecArith_checks hp
        · exact vecUnary_checks hp
        · exact vecMoves_checks hp
        · exact vecCopies_checks hp
        · exact vecReduce_checks hp
      next =>
        obtain ⟨p, hp, rfl⟩ := Option.map_eq_some_iff.1 h
        rcases (Option.orElse_eq_some _ _ _).1 hp with hp | ⟨-, hp⟩
        · exact maskCompare_checks hp
        · exact maskLogic_checks hp
  all_goals obtain rfl := Option.some.inj h
  case h_1 | h_2 | h_3 =>
    refine ⟨_, rfl, ?_⟩
    rw [← pushGuard_nil]
    exact checked_guard_tags_length _ _ _ _ _ _ _
  case h_4 | h_5 =>
    refine ⟨_, rfl, ?_⟩
    rw [← pushGuard_nil]
    exact checked_guard _ _ _
  case h_6 | h_7 => exact ⟨_, rfl, checked_pairs fun t => by simp; tauto⟩

/-- Settles O36: the instruction begins with the checks of R157 (`checkSpec_checks`), and the first of them that fails raises
its trap in the state in which the instruction began. -/
theorem vectorChecks : Obligations.VectorChecks := by
  unfold Obligations.VectorChecks
  intro i s c hc hdst
  obtain ⟨r, hr, hk⟩ := checkSpec_checks hc
  rw [hr]
  refine ⟨fun hoff => hk.finish_error (checks157_of_guard_error (pushGuard_off hoff)), fun hven ha hi d hd =>
    hk.finish_error (checks157_of_guard_error (pushGuard_carry hven ha hi ((find_carry hdst).trans hd))),
    fun hven hfree => ?_⟩
  have hg : pushGuard s c.dsts = .ok () := pushGuard_ok hven fun ha hi d hd =>
    (isCarry_loopCarried (hdst d hd)).trans (hfree ha hi d hd)
  exact ⟨fun hno => hk.finish_error (checks157_tags hg hno), fun hok hl => hk.finish_error (checks157_length hg hok hl)⟩

end Sys2Proof.Machine
end

section
/-! Waits, and the instructions UIRET, TLBINV and LGSET (R37, R48, R117, R148, R152 to R154, R233, R302). -/

namespace Sys2Proof.Machine

/-! ### The end of an instruction -/

theorem retires_retire {s u : State} (hpc : u.cc.pc = s.cc.pc) (hret : u.cc.retired = s.cc.retired) :
    Retires s u.retire (s.cc.pc + 4) := hpc ▸ retires_to s u (u.cc.pc + 4) hret

/-- An instruction that only retires changes nothing. -/
theorem frameX_retireTo (s : State) (xd : XReg) (pc : Word) : FrameX s (s.retireTo pc) xd where
  only := rfl
  regs _ _ := rfl
  bytes _ := rfl

/-- A release at die scope or wider advances the clock of the die, and what leaves the dies alone does not change that. -/
theorem clockAdvanced_of_dies {s t : State} {scope : Nat} (hsc : 3 ≤ scope) (h : t.dies = (s.release scope).dies) :
    ClockAdvanced s t := by
  intro d
  have hrel : s.release scope = s.advanceDie (dieOf s.cc.ctxid) := if_neg (by omega)
  have ht : t.dieAt d = (s.advanceDie (dieOf s.cc.ctxid)).dieAt d := by rw [State.dieAt, h, hrel]; rfl
  rw [ht, State.advanceDie, State.dieAt_modDie]
  simp only [beq_iff_eq]
  split
  case isTrue e => rw [e]
  case isFalse => rfl

/-! ### Entering a wait (R48) -/

theorem State.enterWait_waits {s : State} (w : RunState) (h : s.cc.request = none ∨ s.cc.depth ≠ 0) :
    s.enterWait w = { s with cc := { s.cc with run := w } } := by
  have hno : (s.cc.request.isSome && !s.cc.handling) = false := by
    rcases h with h | h
    · simp [h]
    · simpa [ControlCore.handling] using fun _ => h
  rw [State.enterWait, hno]
  rfl

/-- A pending request is taken at once. -/
theorem State.enterWait_preempts {s : State} (w : RunState) (hreq : s.cc.request ≠ none) (hd : s.cc.depth = 0) :
    s.enterWait w = (State.unwait { s with cc := { s.cc with request := none } }).raise { cause := 0x0E, tval := 0 } := by
  have hyes : (s.cc.request.isSome && !s.cc.handling) = true := by
    simp [ControlCore.handling, hd, Option.isSome_iff_ne_none, hreq]
  rw [State.enterWait, hyes]
  rfl

/-! ### WAIT (R302) -/

/-- The counts with the limits of a WAIT, class by class. -/
def OutCnt.limits (o : OutCnt) (l s c t q : BitVec 5) : List (BitVec 5 × BitVec 12) :=
  [(l, o.l), (s, o.s), (c, o.c), (t, o.t), (q, o.q)]

theorem OutCnt.meets_iff (o : OutCnt) (l s c t q : BitVec 5) :
    o.meets l s c t q = true ↔ ∀ p ∈ o.limits l s c t q, p.1 ≠ 31 → p.2.toNat ≤ p.1.toNat := by
  have hok (lim : BitVec 5) (n : BitVec 12) :
      (lim == 31 || decide (n.toNat ≤ lim.toNat)) = true ↔ (lim ≠ 31 → n.toNat ≤ lim.toNat) := by
    rw [Bool.or_eq_true, beq_iff_eq, decide_eq_true_iff]
    tauto
  simp only [OutCnt.meets, Bool.and_eq_true, hok, OutCnt.limits, List.forall_mem_cons, List.not_mem_nil, false_imp_iff,
    implies_true, and_true, and_assoc]

theorem OutCnt.meets_false_iff (o : OutCnt) (l s c t q : BitVec 5) :
    o.meets l s c t q = false ↔ ∃ p ∈ o.limits l s c t q, p.1 ≠ 31 ∧ p.1.toNat < p.2.toNat := by
  rw [← Bool.not_eq_true, OutCnt.meets_iff]
  push Not
  rfl

theorem exec_wait_met {s : State} {l st c t q : BitVec 5} (h : s.cc.out.meets l st c t q = true) :
    exec (.wait l st c t q) s = .next s.retire := if_pos h

theorem exec_wait_unmet {s : State} {l st c t q : BitVec 5} (h : s.cc.out.meets l st c t q = false) :
    exec (.wait l st c t q) s = .next (s.enterWait (.waitCounts l st c t q)) := if_neg (by simp [h])

/-! ### BARWAIT (R233) -/

theorem exec_barwait_over {s : State} {a b : XReg} {p : Nat} (hp : slotIndex s (s.getX a) = .ok p)
    (h : (s.slotAt p).phase ≠ (s.getX b).setWidth 16) : exec (.barwait a b) s = .next s.retire := by
  simp [execBarwait, hp, h]

theorem exec_barwait_waits {s : State} {a b : XReg} {p : Nat} (hp : slotIndex s (s.getX a) = .ok p)
    (h : (s.slotAt p).phase = (s.getX b).setWidth 16) :
    exec (.barwait a b) s = .next (s.enterWait (.waitBar p ((s.getX b).setWidth 16))) := by
  simp [execBarwait, hp, h]

/-! ### The end of a wait (R59) -/

/-- A wait that ends at the control core that moves. -/
theorem State.endWait_self (s : State) :
    s.endWait s.cc.ctxid = ({ s with cc := { s.cc with run := .running } } : State).retire := State.onCc_self rfl

theorem exec_idleTimeout_elapsed {s : State} (h : s.cc.run = .waitIdle (some 0)) :
    exec (.idleTimeout s.cc.ctxid) s = .next ({ s with cc := { s.cc with run := .running } } : State).retire := by
  simp [execIdleTimeout, h, State.endWait_self]

/-! ### UIRET (R117, R152) -/

theorem ControlCore.swapShadows_getX (c : ControlCore) {n : XReg} (hn : n.toNat < 28) : c.swapShadows.getX n = c.getX n := by
  unfold ControlCore.getX ControlCore.swapShadows
  split
  · rfl
  · rw [Vector.getElem_set_ne _ _ (by omega), Vector.getElem_set_ne _ _ (by omega), Vector.getElem_set_ne _ _ (by omega),
      Vector.getElem_set_ne _ _ (by omega)]

/-- x28 to x31 and the inactive set change places. -/
theorem ControlCore.swapShadows_swaps (c : ControlCore) (k : Fin 4) :
    c.swapShadows.x[28 + k.val] = c.shadow[k] ∧ c.swapShadows.shadow[k] = c.x[28 + k.val] := by
  fin_cases k <;> simp [ControlCore.swapShadows]

theorem exec_uiret_handler {s : State} (h : s.cc.inui = true) :
    exec .uiret s = .next ((s.modCc fun c => { c.swapShadows with uistatus := 1 }).retireTo s.cc.uiepc) := by
  simp [execUiret, h]

theorem exec_uiret_elsewhere {s : State} (h : s.cc.inui = false) :
    exec .uiret s = .next (s.raise { cause := 0x01, tval := 0x01C0001D }) := by
  have hw : wordOf .uiret = 0x01C0001D := by decide
  simp [execUiret, h, illegal, hw, cIllegal]

/-! ### TLBINV (R153) -/

/-- Whether a TLBINV with registers a and b drops an entry. -/
def State.invalidates (s : State) (a b : XReg) (e : TlbEntry) : Bool :=
  e.dropped (if a = 0 then none else some (s.getX a)) (if b = 0 then none else some ((s.getX b).setWidth 16))

/-- The entries that a condition spares. -/
def sparedOf (gone : TlbEntry → Bool) (l : List TlbEntry) : List TlbEntry := l.filter fun e => !gone e

def ControlCore.spare (gone : TlbEntry → Bool) (c : ControlCore) : ControlCore :=
  { c with tlb := sparedOf gone c.tlb, held := sparedOf gone c.held }

def Core.spare (gone : TlbEntry → Bool) (c : Core) : Core := { c with l2 := sparedOf gone c.l2 }

def Cluster.spare (gone : TlbEntry → Bool) (c : Cluster) : Cluster := { c with walkCache := sparedOf gone c.walkCache }

/-- The state with every entry that a TLBINV drops gone from the TLBs and walk caches, and from what instructions and cards
hold. -/
def State.invalidated (s : State) (a b : XReg) : State :=
  let gone := s.invalidates a b
  let u := s.release 4
  { u with
    cc := u.cc.spare gone
    others := tmap (ControlCore.spare gone) u.others
    jobs := u.jobs.map fun j => { j with held := sparedOf gone j.held }
    cores := tmap (Core.spare gone) u.cores
    clusters := tmap (Cluster.spare gone) u.clusters }

theorem exec_tlbinv_supervisor {s : State} (hl : s.cc.level ≠ .user) (a b : XReg) :
    exec (.tlbinv a b) s = finish (stallIf (s.accessesPending || s.jobs.any fun j => j.entry.any (s.invalidates a b)) s >>= fun _ =>
      .ok (s.invalidated a b).retire) := by
  rw [exec_tlbinv, execTlbinv, needSupervisor_ok hl]
  rfl

theorem exec_tlbinv_waits {s : State} (hl : s.cc.level ≠ .user) {a b : XReg}
    (h : s.accessesPending = true ∨ ∃ j ∈ s.jobs, ∃ e, j.entry = some e ∧ s.invalidates a b e = true) :
    exec (.tlbinv a b) s = .next s.freshReads := by
  have hyes : (s.accessesPending || s.jobs.any fun j => j.entry.any (s.invalidates a b)) = true := by
    rw [Bool.or_eq_true, List.any_eq_true]
    simpa only [Option.any_eq_true] using h
  rw [exec_tlbinv_supervisor hl, hyes, stallIf_true, except_bind_error, finish_wait]

theorem exec_tlbinv_drops {s : State} (hl : s.cc.level ≠ .user) {a b : XReg} (hp : s.accessesPending = false)
    (hj : ∀ j ∈ s.jobs, ∀ e, j.entry = some e → s.invalidates a b e = false) :
    exec (.tlbinv a b) s = .next (s.invalidated a b).retire := by
  have hno : (s.accessesPending || s.jobs.any fun j => j.entry.any (s.invalidates a b)) = false := by
    rw [hp, Bool.false_or, List.any_eq_false]
    intro j hmem
    rw [Bool.not_eq_true, Option.any_eq_false]
    exact fun e he => by simp [hj j hmem e he]
  rw [exec_tlbinv_supervisor hl, hno, stallIf_false, except_bind_ok, finish_ok]

theorem mem_sparedOf {gone : TlbEntry → Bool} {l : List TlbEntry} {e : TlbEntry} (h : e ∈ sparedOf gone l) : gone e = false := by
  simpa using (List.mem_filter.1 h).2

/-- Every entry of a table that a function has gone over is what the function gives. -/
theorem mem_tmap {α : Type} {f : α → α} {t : Table α} {p : Nat × α} (h : p ∈ tmap f t) : ∃ q ∈ t, p.2 = f q.2 := by
  obtain ⟨q, hq, rfl⟩ := List.mem_map.1 h
  exact ⟨q, hq, rfl⟩

/-- No entry is dropped of a table whose lists of entries have been gone over. -/
theorem tmap_spared {α : Type} {gone : TlbEntry → Bool} {f : α → α} {entries : α → List TlbEntry} {old : α → List TlbEntry}
    (hf : ∀ x, entries (f x) = sparedOf gone (old x)) (t : Table α) :
    ∀ p ∈ tmap f t, ∀ e ∈ entries p.2, gone e = false := by
  intro p hp e he
  obtain ⟨q, -, hq⟩ := mem_tmap hp
  rw [hq, hf] at he
  exact mem_sparedOf he

/-! ### LGSET (R37, R154) -/

theorem State.coreAt_modCore (s : State) (n k : Nat) (f : Core → Core) :
    (s.modCore n f).coreAt k = if k = n then f (s.coreAt n) else s.coreAt k := tget_tput ({} : Core) s.cores n k _

theorem State.coreAt_retire (s : State) (k : Nat) : s.retire.coreAt k = s.coreAt k := rfl

theorem State.coreAt_unreach_retire (s : State) (core k : Nat) : (s.unreach core).retire.coreAt k = s.coreAt k := rfl

/-- A new request clears what the contexts of the core have reached, and nothing else. -/
theorem State.unreach_cc (s : State) (core : Nat) : ∃ r, (s.unreach core).cc = { s.cc with reached := r } := by
  unfold State.unreach
  dsimp only
  split
  · exact ⟨_, rfl⟩
  · exact ⟨_, rfl⟩

theorem State.unreach_pc (s : State) (core : Nat) : (s.unreach core).cc.pc = s.cc.pc := by
  obtain ⟨r, h⟩ := s.unreach_cc core
  rw [h]

theorem State.unreach_retired (s : State) (core : Nat) : (s.unreach core).cc.retired = s.cc.retired := by
  obtain ⟨r, h⟩ := s.unreach_cc core
  rw [h]

theorem State.unreach_x (s : State) (core : Nat) : (s.unreach core).cc.x = s.cc.x := by
  obtain ⟨r, h⟩ := s.unreach_cc core
  rw [h]

theorem exec_lgset_illegal {s : State} (hl : s.cc.level ≠ .user) {a : XReg} (h : 4 ≤ (s.getX a).toNat) :
    exec (.lgset a) s = .next (s.raise { cause := 0x01, tval := wordOf (.lgset a) }) := by
  simp [execLgset, needSupervisor_ok hl, h, illegal, cIllegal]

theorem exec_lgset_present {s : State} (hl : s.cc.level ≠ .user) {a : XReg} (h : (s.getX a).toNat < 4)
    (he : (s.getX a).setWidth 2 = (s.coreAt (coreOf s.cc.ctxid)).shape) :
    exec (.lgset a) s = .next (s.modCore (coreOf s.cc.ctxid) fun c => { c with pend := false }).retire := by
  simp [execLgset, needSupervisor_ok hl, Nat.not_le.2 h, he]

theorem exec_lgset_request {s : State} (hl : s.cc.level ≠ .user) {a : XReg} (h : (s.getX a).toNat < 4)
    (hne : (s.getX a).setWidth 2 ≠ (s.coreAt (coreOf s.cc.ctxid)).shape) :
    exec (.lgset a) s = .next ((s.modCore (coreOf s.cc.ctxid) fun c =>
      { c with pend := true, nextShape := (s.getX a).setWidth 2 }).unreach (coreOf s.cc.ctxid)).retire := by
  simp [execLgset, needSupervisor_ok hl, Nat.not_le.2 h, hne]

/-! ### Waits and control -/

/-- Settles O26: each wait by whether what it waits for has come, and by whether a request is pending; then UIRET, TLBINV and
LGSET by their cases. -/
theorem waitsAndControl : Obligations.WaitsAndControl := by
  unfold Obligations.WaitsAndControl
  refine ⟨fun s => ⟨fun l st c t q => ⟨fun hmet => ?met, fun hunmet => ⟨fun hreq => ?unmet, fun hreq hd => ?unmetPreempt⟩⟩,
    fun a => ⟨fun hreq => congrArg _ (State.enterWait_waits _ hreq), fun hreq hd => congrArg _ (State.enterWait_preempts _ hreq hd)⟩,
    fun hrun => ?timeout, fun a b p hp => ⟨fun hover => ?barOver, fun hsame => ⟨fun hreq => ?bar, fun hreq hd => ?barPreempt⟩⟩⟩,
    fun s => ⟨fun hin => ?uiret, exec_uiret_elsewhere, fun a b hl => ⟨exec_tlbinv_waits hl, fun hp hj => ?tlbinv⟩,
      fun a hl => ⟨exec_lgset_illegal hl, fun h4 => ?lgset⟩⟩⟩
  case met =>
    exact ⟨_, exec_wait_met ((OutCnt.meets_iff _ _ _ _ _ _).2 hmet), retires_retire rfl rfl, frameX_retireTo s 0 _⟩
  case unmet =>
    rw [exec_wait_unmet ((OutCnt.meets_false_iff _ _ _ _ _ _).2 hunmet), State.enterWait_waits _ hreq]
  case unmetPreempt =>
    rw [exec_wait_unmet ((OutCnt.meets_false_iff _ _ _ _ _ _).2 hunmet), State.enterWait_preempts _ hreq hd]
  case timeout => exact ⟨_, exec_idleTimeout_elapsed hrun, retires_retire rfl rfl, rfl, rfl, rfl⟩
  case barOver => exact ⟨_, exec_barwait_over hp hover, retires_retire rfl rfl, frameX_retireTo s 0 _⟩
  case bar => rw [exec_barwait_waits hp hsame, State.enterWait_waits _ hreq]
  case barPreempt => rw [exec_barwait_waits hp hsame, State.enterWait_preempts _ hreq hd]
  case uiret =>
    exact ⟨_, exec_uiret_handler hin, retires_to _ _ _ rfl, rfl, rfl, rfl, rfl, rfl,
      fun n hn => s.cc.swapShadows_getX hn, s.cc.swapShadows_swaps⟩
  case tlbinv =>
    exact ⟨_, exec_tlbinv_drops hl hp hj, retires_retire rfl rfl, rfl, fun _ => rfl, rfl,
      clockAdvanced_of_dies (scope := 4) (by decide) rfl, rfl,
      tmap_spared (f := ControlCore.spare (s.invalidates a b)) (entries := ControlCore.tlb) (fun _ => rfl) s.others,
      tmap_spared (f := Core.spare (s.invalidates a b)) (entries := Core.l2) (fun _ => rfl) s.cores,
      tmap_spared (f := Cluster.spare (s.invalidates a b)) (entries := Cluster.walkCache) (fun _ => rfl) s.clusters⟩
  case lgset =>
    by_cases he : (s.getX a).setWidth 2 = (s.coreAt (coreOf s.cc.ctxid)).shape
    · have hcore k := State.coreAt_modCore s (coreOf s.cc.ctxid) k fun c => { c with pend := false }
      refine ⟨_, exec_lgset_present hl h4 he, retires_retire rfl rfl, rfl, rfl, fun c hc => ?_, ?_, fun _ => ?_,
        fun hne => absurd he hne⟩
      all_goals rw [State.coreAt_retire, hcore]
      · exact if_neg hc
      · rw [if_pos rfl]
      · rw [if_pos rfl]
        exact ⟨rfl, rfl⟩
    · have hcore k := State.coreAt_modCore s (coreOf s.cc.ctxid) k fun c =>
        { c with pend := true, nextShape := (s.getX a).setWidth 2 }
      refine ⟨_, exec_lgset_request hl h4 he, retires_retire (State.unreach_pc _ _) (State.unreach_retired _ _), rfl,
        State.unreach_x _ _, fun c hc => ?_, ?_, fun heq => absurd heq he, fun _ => ?_⟩
      all_goals rw [State.coreAt_unreach_retire, hcore]
      · exact if_neg hc
      · rw [if_pos rfl]
      · rw [if_pos rfl]
        exact ⟨rfl, rfl⟩

end Sys2Proof.Machine
end

section
/-! A counterexample to the obligation about taking a trap (R51, R362, R365). -/

namespace Sys2Proof.Machine

/-- A running region with context 0 alone, at control core 0. -/
def loneRegion : Region :=
  { va := 0x70000, parent := none, service := false, state := .running, count := 1, maxCtx := 1, queues := 4, slots := 4
    ctxs := [.resident 0] }

/-- A state whose records disagree. Region 0x70000 has its context at control core 0, whose trap depth is 255. Its child
0x71000 has its context at control core 1; but that control core names the parent, and index 0, as its own. -/
def strayChild : State :=
  let base := State.reset
  { base with
    cc := { base.cc with ctxid := 0, run := .running, depth := 255, region := some 0x70000, index := 0 }
    others := [(1, { ctxid := 1, run := .running, region := some 0x70000, index := 0 })]
    regions := [(0x70000, loneRegion), (0x71000, { loneRegion with va := 0x71000, parent := some 0x70000, ctxs := [.resident 1] })] }

theorem strayChild_coresApart : strayChild.CoresApart := by
  rw [State.CoresApart]
  decide

/-- The child ends first, and with it the parent's context 0 counts as exited; so control core 0 is not ended. -/
theorem strayChild_runs_on : ((strayChild.raiseAt { cause := 0x10 } 0).ccAt 0).run = .running := by
  decide

/-- Refutes O23: nothing says that the control cores name the region and the index that the regions' records have for
them. -/
theorem not_takingATrap : ¬ Obligations.TakingATrap := by
  intro h
  obtain ⟨-, hdouble⟩ := h
  obtain ⟨-, hregion⟩ := hdouble strayChild _ { cause := 0x10 } 0 strayChild_coresApart (Or.inl ⟨rfl, rfl⟩)
  obtain ⟨hhalted, -⟩ := hregion 0x70000 loneRegion rfl rfl rfl rfl
  have hruns : ((strayChild.raiseAt { cause := 0x10 } 0).ccAt 0).run = .absent := hhalted.run
  rw [strayChild_runs_on] at hruns
  cases hruns

end Sys2Proof.Machine
end

section
/-! What happens at the control core that moves between two instructions: waits that end, pre-emption and user interrupts,
lane shapes and barrier stalls (R37, R48, R51, R60, R148, R233, R302, R323, R337). -/

namespace Sys2Proof.Machine

/-! ### Taking a trap (R51, R360) -/

/-- What a stopped macro-operation leaves of its writes counts as a store (R197). -/
theorem ControlCore.endMacro_stores_nil (c : ControlCore) : c.endMacro.stores = [] ↔ c.stores = [] := by
  unfold ControlCore.endMacro ControlCore.decOut
  dsimp only
  split
  case isTrue h =>
    refine ⟨fun hnil => absurd hnil (List.append_ne_nil_of_right_ne_nil _ (List.cons_ne_nil _ _)), fun hnil => ?_⟩
    rw [hnil] at h
    cases h
  case isFalse => split <;> rfl

/-- TSTATUS keeps its other fields when PPRIV is replaced. -/
theorem ControlCore.withPpriv_tstatus (c : ControlCore) (l : Level) :
    Level.ofCode (c.withPpriv l).ppriv = l ∧ (c.withPpriv l).ven = c.ven ∧ (c.withPpriv l).loopAct = c.loopAct ∧
      (c.withPpriv l).loopI = c.loopI := by
  have bits : ∀ w : BitVec 8, let n : BitVec 8 := (w &&& 0xFC#8) ||| l.code.setWidth 8
      Level.ofCode (n.extractLsb' 0 2) = l ∧ n.getLsbD 5 = w.getLsbD 5 ∧ n.getLsbD 6 = w.getLsbD 6 ∧ n.getLsbD 7 = w.getLsbD 7 := by
    cases l <;> decide
  exact bits c.tstatus

/-- The control core at its handler, for what its outstanding operations are once its macro-operation has stopped. -/
def ControlCore.entered (c : ControlCore) (t : Trap) (epc : Word) (out : OutCnt) (stores : List PStore) : ControlCore :=
  { c with
    tstatus := (c.withPpriv c.level).tstatus
    macroOp := none
    out := out
    stores := stores
    tepc := epc
    tcause := t.cause
    tval := t.tval
    vstart := t.vstart.getD c.vstart
    tstep := t.tstep.getD (match c.macroOp with | some (_, m) => .ofNat 32 m | none => c.tstep)
    done := if c.loopAct ∧ c.depth = c.loopDepth ∧ c.inStrip = true ∧ c.issued ≠ 0 then c.issued - 1 else c.done
    level := if c.level = .service then .service else .supervisor
    depth := c.depth + 1
    run := .running
    miss := none
    held := []
    entering := true
    pc := c.tvec }

theorem ControlCore.trapEntry_entered (c : ControlCore) (t : Trap) (epc : Word) :
    ∃ out stores, c.trapEntry t epc = c.entered t epc out stores ∧ (stores = [] ↔ c.stores = []) := by
  cases h : c.macroOp with
  | none => exact ⟨c.out, c.stores, by simp [ControlCore.trapEntry, ControlCore.entered, ControlCore.withPpriv, h], Iff.rfl⟩
  | some p =>
    refine ⟨c.endMacro.out, c.endMacro.stores, ?_, c.endMacro_stores_nil⟩
    simp only [ControlCore.trapEntry, h]
    rw [ControlCore.endMacro_only]
    simp only [ControlCore.entered, ControlCore.withPpriv, h]

theorem trapTaken_entered (c : ControlCore) (t : Trap) (epc : Word) (out : OutCnt) (stores : List PStore) (b : Bool) :
    TrapTaken c { c.entered t epc out stores with fencing := b } t epc := by
  obtain ⟨hpriv, hven, hact, hloopI⟩ := c.withPpriv_tstatus c.level
  refine ⟨rfl, rfl, rfl, hpriv, rfl, rfl, rfl, rfl, rfl, fun hm => ?_, fun op m hm => ⟨rfl, ?_⟩, ⟨hven, hact, hloopI⟩,
    ⟨rfl, rfl⟩, rfl, rfl, rfl, rfl⟩
  · simp [ControlCore.entered, hm]
  · simp [ControlCore.entered, hm]

theorem trapTaken_trapEntry (c : ControlCore) (t : Trap) (epc : Word) (b : Bool) :
    TrapTaken c { c.trapEntry t epc with fencing := b } t epc := by
  obtain ⟨out, stores, he, -⟩ := c.trapEntry_entered t epc
  rw [he]
  exact trapTaken_entered c t epc out stores b

theorem State.trapTaken_atHandler (s : State) (t : Trap) (epc : Word) : TrapTaken s.cc (s.atHandler t epc).cc t epc := by
  unfold State.atHandler
  dsimp only
  split
  · exact trapTaken_trapEntry s.cc t epc _
  · split
    · exact trapTaken_trapEntry s.cc t epc _
    · exact trapTaken_trapEntry s.cc t epc true

theorem ControlCore.trapEntry_ownDone (c : ControlCore) (t : Trap) (epc : Word) :
    (c.trapEntry t epc).ownDone = true ↔ c.stores = [] ∧ c.loads = 0 := by
  obtain ⟨out, stores, he, hnil⟩ := c.trapEntry_entered t epc
  rw [he]
  simp [ControlCore.ownDone, ControlCore.entered, hnil]

theorem State.preemptFence_done {s : State} (h : s.cc.ownDone = true) : s.preemptFence = s.release 4 := if_pos h

theorem State.preemptFence_due {s : State} (h : ¬s.cc.ownDone = true) :
    s.preemptFence = { s with cc := { s.cc with fencing := true } } := if_neg h

/-- A trap below depth 255 is taken at the handler. -/
theorem State.raiseAt_atHandler {s : State} (hd : s.cc.depth ≠ 255) (t : Trap) (epc : Word) :
    s.raiseAt t epc = s.atHandler t epc := by
  have hpre : (t.cause = cSoft ∨ t.cause = cHard) ↔ ¬(t.cause ≠ 0x0D ∧ t.cause ≠ 0x0E) := by
    simp only [cSoft, cHard]
    tauto
  unfold State.raiseAt State.atHandler
  dsimp only
  rw [if_neg hd]
  by_cases hc : t.cause ≠ 0x0D ∧ t.cause ≠ 0x0E
  · rw [if_neg (fun h => hpre.1 h hc), if_pos hc]
    rfl
  · rw [if_pos (hpre.2 hc), if_neg hc]
    by_cases hdone : s.cc.stores = [] ∧ s.cc.loads = 0
    · rw [if_pos hdone]
      exact State.preemptFence_done ((s.cc.trapEntry_ownDone t epc).2 hdone)
    · rw [if_neg hdone]
      exact State.preemptFence_due fun h => hdone ((s.cc.trapEntry_ownDone t epc).1 h)

theorem State.raise_atHandler {s : State} (hd : s.cc.depth ≠ 255) (he : s.cc.entering = false) (t : Trap) :
    s.raise t = s.atHandler t s.cc.pc := by
  rw [State.raise, he]
  exact State.raiseAt_atHandler hd t s.cc.pc

/-! ### Waits that end (R59, R148, R233, R302) -/

theorem exec_waitReturn_met {s : State} {l st c t q : BitVec 5} (hrun : s.cc.run = .waitCounts l st c t q)
    (h : s.cc.out.meets l st c t q = true) :
    exec (.waitReturn s.cc.ctxid) s = .next ({ s with cc := { s.cc with run := .running } } : State).retire := by
  simp [execWaitReturn, hrun, h, State.endWait_self]

theorem exec_waitReturn_unmet {s : State} {l st c t q : BitVec 5} (hrun : s.cc.run = .waitCounts l st c t q)
    (h : s.cc.out.meets l st c t q = false) : exec (.waitReturn s.cc.ctxid) s = .next s := by
  simp [execWaitReturn, hrun, h]

theorem exec_barwaitReturn_over {s : State} {n : Nat} {p : BitVec 16} (hrun : s.cc.run = .waitBar n p)
    (h : (s.slotAt n).phase ≠ p) :
    exec (.barwaitReturn s.cc.ctxid) s = .next ({ s with cc := { s.cc with run := .running } } : State).retire := by
  simp [execBarwaitReturn, hrun, h, State.endWait_self]

/-! ### Hard pre-emption (R48) -/

/-- The state in which the handler of a hard pre-emption is to be fetched. -/
def State.hardPreempted (s : State) : State :=
  ({ s.unwait with cc := { s.cc with request := none } } : State).atHandler { cause := 0x0E } s.cc.pc

theorem State.hardPreempted_taken (s : State) : TrapTaken s.cc s.hardPreempted.cc { cause := 0x0E } s.cc.pc := by
  have h := State.trapTaken_atHandler ({ s.unwait with cc := { s.cc with request := none } } : State) { cause := 0x0E } s.cc.pc
  exact { h with }

theorem State.atHandler_request (s : State) (t : Trap) (epc : Word) : (s.atHandler t epc).cc.request = s.cc.request := by
  obtain ⟨out, stores, he, -⟩ := s.cc.trapEntry_entered t epc
  have hreq : (s.cc.trapEntry t epc).request = s.cc.request := by rw [he]; rfl
  unfold State.atHandler
  dsimp only
  split
  · exact hreq
  · split
    · exact hreq
    · exact hreq

theorem State.atHandler_ctxid (s : State) (t : Trap) (epc : Word) : (s.atHandler t epc).cc.ctxid = s.cc.ctxid := by
  obtain ⟨out, stores, he, -⟩ := s.cc.trapEntry_entered t epc
  have hid : (s.cc.trapEntry t epc).ctxid = s.cc.ctxid := by rw [he]; rfl
  unfold State.atHandler
  dsimp only
  split
  · exact hid
  · split
    · exact hid
    · exact hid

theorem State.preempt_hard {s : State} (hd : s.cc.depth = 0) (he : s.cc.entering = false) :
    s.preempt cHard = s.hardPreempted :=
  State.raise_atHandler (s := { s.unwait with cc := { s.cc with request := none } })
    (by change s.cc.depth ≠ 255; rw [hd]; decide) he { cause := 0x0E }

theorem exec_hardPreemption_due {s : State} (hreq : s.cc.request = some 0) (hd : s.cc.depth = 0) (he : s.cc.entering = false)
    (hrun : s.cc.run = .running ∨ s.cc.run.isWait = true) (hdev : s.readsDevice s.cc.ctxid = false) :
    exec (.hardPreemption s.cc.ctxid) s = .next s.hardPreempted := by
  have hnow : s.hardNow s.cc.ctxid = true := by
    simpa [State.hardNow, hreq, ControlCore.handling, hd, hdev] using hrun
  have hself : (s.onCc s.cc.ctxid fun s => s.preempt cHard) = s.preempt cHard :=
    State.onCc_self (by rw [State.preempt_hard hd he]; exact State.atHandler_ctxid _ _ _)
  exact (if_pos hnow).trans (congrArg _ (hself.trans (State.preempt_hard hd he)))

theorem exec_hardPreemption_idle {s : State} (h : s.cc.request ≠ some 0 ∨ s.cc.depth ≠ 0) :
    exec (.hardPreemption s.cc.ctxid) s = .next s := by
  have hnow : ¬s.hardNow s.cc.ctxid = true := by
    rcases h with h | h
    · simpa [State.hardNow] using fun hreq => absurd hreq h
    · simpa [State.hardNow, ControlCore.handling] using fun _ hd => absurd hd h
  exact if_neg hnow

/-! ### User interrupts (R323) -/

/-- A pending ring whose context may take it. -/
structure RingDue (s : State) (cause : BitVec 16) : Prop where
  ring : s.cc.ring = some cause
  enabled : s.cc.uistatus = 1
  depth : s.cc.depth = 0
  between : s.cc.macroOp = none ∧ s.cc.leaving = false ∧ s.midLoad s.cc.ctxid = false
  run : s.cc.run = .running ∨ ∃ n, s.cc.run = .waitIdle n

/-- What the delivery of a ring sets. -/
structure Delivered (s t : State) (cause : BitVec 16) : Prop where
  mem : t.mem = s.mem
  pc : t.cc.pc = s.cc.uivec
  epc : t.cc.uiepc = if s.cc.run = .running then s.cc.pc else s.cc.pc + 4
  run : t.cc.run = .running
  cause : t.cc.uicause = cause
  status : t.cc.uistatus = 2
  ring : t.cc.ring = none
  low : ∀ n : XReg, n.toNat < 28 → t.getX n = s.getX n
  shadows : ∀ k : Fin 4, t.cc.x[28 + k.val] = s.cc.shadow[k] ∧ t.cc.shadow[k] = s.cc.x[28 + k.val]

/-- The context between two instructions, at which a ring finds it: an IDLE has retired. -/
structure BetweenInstructions (s u : State) : Prop where
  mem : u.mem = s.mem
  regs : u.cc.x = s.cc.x ∧ u.cc.shadow = s.cc.shadow
  pc : u.cc.pc = if s.cc.run = .running then s.cc.pc else s.cc.pc + 4
  run : u.cc.run = .running
  ring : u.cc.ring = s.cc.ring ∧ u.cc.uivec = s.cc.uivec
  id : u.cc.ctxid = s.cc.ctxid

/-- The entry of a user-interrupt handler. -/
def ControlCore.interrupted (c : ControlCore) : ControlCore :=
  { c.swapShadows with uiepc := c.pc, uicause := c.ring.getD 0, uistatus := 2, ring := none, miss := none, pc := c.uivec }

theorem State.deliver_interrupts {s : State} (h : s.cc.run = .running ∨ ∃ n, s.cc.run = .waitIdle n) :
    ∃ u, BetweenInstructions s u ∧ s.deliver = { u with cc := u.cc.interrupted } := by
  rcases h with hrun | ⟨n, hrun⟩
  · exact ⟨s, ⟨rfl, ⟨rfl, rfl⟩, by rw [if_pos hrun], hrun, ⟨rfl, rfl⟩, rfl⟩, by unfold State.deliver; rw [hrun]; rfl⟩
  · exact ⟨({ s with cc := { s.cc with run := .running } } : State).retire,
      ⟨rfl, ⟨rfl, rfl⟩, by rw [if_neg (by rw [hrun]; exact RunState.noConfusion)]; rfl, rfl, ⟨rfl, rfl⟩, rfl⟩,
      by unfold State.deliver; rw [hrun]; rfl⟩

theorem BetweenInstructions.delivered {s u : State} {cause : BitVec 16} (h : BetweenInstructions s u)
    (hring : s.cc.ring = some cause) : Delivered s { u with cc := u.cc.interrupted } cause := by
  obtain ⟨hx, hsh⟩ := h.regs
  obtain ⟨hr, hvec⟩ := h.ring
  refine ⟨h.mem, hvec, h.pc, h.run, ?_, rfl, rfl, fun n hn => ?_, fun k => ?_⟩
  · change u.cc.ring.getD 0 = cause
    rw [hr, hring]
    rfl
  · calc u.cc.swapShadows.getX n = u.cc.getX n := u.cc.swapShadows_getX hn
      _ = s.cc.getX n := by unfold ControlCore.getX; rw [hx]
  · obtain ⟨hin, hout⟩ := u.cc.swapShadows_swaps k
    rw [hsh] at hin
    simp only [hx] at hout
    exact ⟨hin, hout⟩

theorem exec_uiDelivery_due {s : State} {cause : BitVec 16} (h : RingDue s cause) :
    ∃ t, exec (.uiDelivery s.cc.ctxid) s = .next t ∧ Delivered s t cause := by
  obtain ⟨u, hu, hdel⟩ := State.deliver_interrupts h.run
  obtain ⟨hmacro, hleave, hmid⟩ := h.between
  have hdue : (s.cc.deliverable && !s.midLoad s.cc.ctxid) = true := by
    rcases h.run with hr | ⟨n, hr⟩
    · simp [ControlCore.deliverable, h.ring, ControlCore.uie, ControlCore.inui, h.enabled, ControlCore.handling, h.depth, hmacro,
        hleave, hmid, hr]
    · simp [ControlCore.deliverable, h.ring, ControlCore.uie, ControlCore.inui, h.enabled, ControlCore.handling, h.depth, hmacro,
        hleave, hmid, hr]
  have hself : s.onCc s.cc.ctxid State.deliver = s.deliver := State.onCc_self (by rw [hdel]; exact hu.id)
  refine ⟨_, ?_, hu.delivered h.ring⟩
  rw [exec_uiDelivery, execUiDelivery, State.ccAt_self, hdue, if_pos rfl, hself, hdel]

/-! ### Lane shapes (R37) -/

theorem exec_laneShapeChange_ready {s : State} {core : BitVec 8} (h : s.shapeReady core.toNat = true) :
    ∃ t, exec (.laneShapeChange core) s = .next t ∧ t.cc = s.cc ∧ t.mem = s.mem ∧
      (t.coreAt core.toNat).shape = (s.coreAt core.toNat).nextShape ∧ (t.coreAt core.toNat).pend = false := by
  have hcore := s.coreAt_modCore core.toNat core.toNat fun c => { c with shape := c.nextShape, pend := false }
  rw [if_pos rfl] at hcore
  exact ⟨_, congrArg Host.Outcome.next (if_pos h), rfl, rfl, congrArg Core.shape hcore, congrArg Core.pend hcore⟩

/-! ### Barrier stalls (R60, R337, R339) -/

theorem State.slotAt_modSlot (s : State) (n k : Nat) (f : Slot → Slot) :
    (s.modSlot n f).slotAt k = if k = n then f (s.slotAt n) else s.slotAt k := tget_tput ({} : Slot) s.slots n k _

theorem State.domainAt_modDomain (s : State) (n k : Nat) (f : Domain → Domain) :
    (s.modDomain n f).domainAt k = if k = n then f (s.domainAt n) else s.domainAt k := tget_tput ({} : Domain) s.domains n k _

theorem WritesMemory.slots {s t : State} (h : WritesMemory s t) : t.slots = s.slots := by unfold WritesMemory at h; rw [h]

@[simp] theorem State.storeBytes_slots (s : State) (pa : Nat) (bs : List Byte) : (s.storeBytes pa bs).slots = s.slots :=
  (s.storeBytes_writesMemory pa bs).slots

theorem State.raiseMsix_slots (s : State) (v : Nat) : (s.raiseMsix v).slots = s.slots := by
  unfold State.raiseMsix; split <;> [rfl; split <;> rfl]
theorem State.raiseMsix_domains (s : State) (v : Nat) : (s.raiseMsix v).domains = s.domains := by
  unfold State.raiseMsix; split <;> [rfl; split <;> rfl]

theorem State.modCcAt_slots (s : State) (id : BitVec 10) (f : ControlCore → ControlCore) : (s.modCcAt id f).slots = s.slots := by
  unfold State.modCcAt; split <;> rfl
theorem State.modCcAt_domains (s : State) (id : BitVec 10) (f : ControlCore → ControlCore) :
    (s.modCcAt id f).domains = s.domains := by
  unfold State.modCcAt; split <;> rfl

/-- The notices of a fault domain's event: the ring that its context is offered, and its interrupt (R339). -/
def State.noticed (s : State) (f : Nat) (ctx : BitVec 12) (code : Nat) : State :=
  let s2 := if ctx.getLsbD 10 then s.offerRing (ctx.setWidth 10) (BitVec.ofNat 16 (0x8200 + code)) else s
  if ctx.getLsbD 11 then s2.raiseMsix (8 + f % 56) else s2

theorem State.noticed_slots (s : State) (f : Nat) (ctx : BitVec 12) (code : Nat) : (s.noticed f ctx code).slots = s.slots := by
  unfold State.noticed State.offerRing
  dsimp only
  split <;> split
  · rw [State.raiseMsix_slots, State.modCcAt_slots]
  · rw [State.raiseMsix_slots]
  · rw [State.modCcAt_slots]
  · rfl

theorem State.noticed_domains (s : State) (f : Nat) (ctx : BitVec 12) (code : Nat) : (s.noticed f ctx code).domains = s.domains := by
  unfold State.noticed State.offerRing
  dsimp only
  split <;> split
  · rw [State.raiseMsix_domains, State.modCcAt_domains]
  · rw [State.raiseMsix_domains]
  · rw [State.modCcAt_domains]
  · rfl

theorem State.faultEvent_slots (s : State) (f code index rcb : Nat) (word : BitVec 32) :
    (s.faultEvent f code index rcb word).slots = s.slots := by
  refine (State.noticed_slots _ f (s.domainAt f).ctx code).trans ?_
  split
  · exact State.storeBytes_slots _ _ _
  · rfl

theorem State.faultEvent_slotAt (s : State) (f code index rcb : Nat) (word : BitVec 32) (n : Nat) :
    (s.faultEvent f code index rcb word).slotAt n = s.slotAt n := by rw [State.slotAt, State.faultEvent_slots]; rfl

/-- A domain of no records loses its event. -/
theorem State.faultEvent_lost {s : State} {f : Nat} (h : (s.domainAt f).size = 0) (code index rcb : Nat) (word : BitVec 32) :
    ((s.faultEvent f code index rcb word).domainAt f).lost = (s.domainAt f).lost + 1 := by
  have hdom : (s.faultEvent f code index rcb word).domains = (s.modDomain f fun d => { d with lost := d.lost + 1 }).domains := by
    refine (State.noticed_domains _ f (s.domainAt f).ctx code).trans ?_
    rw [if_neg (fun hroom => hroom.1 h)]
  rw [State.domainAt, hdom]
  exact congrArg Domain.lost ((s.domainAt_modDomain f f _).trans (if_pos rfl))

theorem exec_barrierStall_due {s : State} {n : BitVec 12} {rcb : Nat} {r : Region} (hw : (s.slotAt n.toNat).watchdog = some 0)
    (hb : (s.slotAt n.toNat).bound = some rcb) (hr : s.regionAt rcb = some r) :
    ∃ t, exec (.barrierStall n) s = .next t ∧ (t.slotAt n.toNat).watchdog = none ∧
      (t.slotAt n.toNat).phase = (s.slotAt n.toNat).phase ∧
      ((s.domainAt r.domain).size = 0 → (t.domainAt r.domain).lost = (s.domainAt r.domain).lost + 1) := by
  have hexec : exec (.barrierStall n) s = .next ((s.modSlot n.toNat fun t => { t with watchdog := none }).faultEvent r.domain 0x15
      ((r.physSlots r.home).findIdx (· == n.toNat)) rcb ((s.slotAt n.toNat).phase.setWidth 32)) := by
    simp [execBarrierStall, hw, hb, hr]
  have hslot := s.slotAt_modSlot n.toNat n.toNat fun t => { t with watchdog := none }
  rw [if_pos rfl] at hslot
  refine ⟨_, hexec, ?_, ?_, fun hsize => State.faultEvent_lost (s := s.modSlot n.toNat _) hsize _ _ _ _⟩
  · rw [State.faultEvent_slotAt, hslot]
  · rw [State.faultEvent_slotAt, hslot]

end Sys2Proof.Machine
end

section
/-! The heddle arbiter: a grant moves nothing but credits and starvation counts (R57, R58). -/

namespace Sys2Proof.Machine

/-! ### Control cores by number, after a change at one of them -/

theorem tget_eq_lookupT {α : Type} (d : α) (t : Table α) (k : Nat) : tget d t k = (lookupT t k).getD d := by
  induction t with
  | nil => rfl
  | cons p r ih =>
    rw [lookupT_cons, tget, ih]
    by_cases h : p.1 = k
    · simp [h]
    · simp [h]

theorem lookupT_tput_ne {α : Type} [DecidableEq α] (d : α) (t : Table α) {k k' : Nat} (v : α) (h : k' ≠ k) :
    lookupT (tput d t k v) k' = lookupT t k' := by
  unfold tput
  split
  · rw [lookupT_tdel, if_neg h]
  · rw [lookupT_tins, if_neg h]

theorem State.ccAt_modCcAt_ne (s : State) {id i : BitVec 10} {f : ControlCore → ControlCore} (hf : ∀ c, (f c).ctxid = c.ctxid)
    (h : i ≠ id) : (s.modCcAt id f).ccAt i = s.ccAt i := by
  have hnat : i.toNat ≠ id.toNat := fun e => h (BitVec.eq_of_toNat_eq e)
  unfold State.modCcAt
  split
  case isTrue hid => simp [State.ccAt, hf, hid, h.symm]
  case isFalse => simp only [State.ccAt, tget_eq_lookupT, lookupT_tput_ne _ _ _ hnat]

theorem State.modCcAt_cores (s : State) (id : BitVec 10) (f : ControlCore → ControlCore) : (s.modCcAt id f).cores = s.cores := by
  unfold State.modCcAt; split <;> rfl

/-! ### What the arbiter may change -/

/-- A control core without what the arbiter keeps of it. -/
def ControlCore.unarbited (c : ControlCore) : ControlCore := { c with credit := 0, starved := 0 }

/-- Credits and starvation counts have changed, of the control cores in a list, and nothing else that is seen. -/
structure Arbitrated (ids : List (BitVec 10)) (s t : State) : Prop where
  mem : t.mem = s.mem
  cores : t.cores = s.cores
  rest : ∀ i, (t.ccAt i).unarbited = (s.ccAt i).unarbited
  apart : ∀ i, i ∉ ids → t.ccAt i = s.ccAt i

theorem Arbitrated.refl (ids : List (BitVec 10)) (s : State) : Arbitrated ids s s := ⟨rfl, rfl, fun _ => rfl, fun _ _ => rfl⟩

theorem Arbitrated.trans {ids : List (BitVec 10)} {s t u : State} (h : Arbitrated ids s t) (k : Arbitrated ids t u) :
    Arbitrated ids s u :=
  ⟨k.mem.trans h.mem, k.cores.trans h.cores, fun i => (k.rest i).trans (h.rest i), fun i hi => (k.apart i hi).trans (h.apart i hi)⟩

theorem Arbitrated.mono {ids jds : List (BitVec 10)} {s t : State} (h : Arbitrated ids s t) (hsub : ids ⊆ jds) :
    Arbitrated jds s t := ⟨h.mem, h.cores, h.rest, fun i hi => h.apart i fun hmem => hi (hsub hmem)⟩

/-- A change at one control core of what the arbiter keeps of it. -/
theorem Arbitrated.modCcAt {ids : List (BitVec 10)} (s : State) {id : BitVec 10} (hid : id ∈ ids)
    {f : ControlCore → ControlCore} (hf : ∀ c, (f c).unarbited = c.unarbited) : Arbitrated ids s (s.modCcAt id f) := by
  have hctx (c : ControlCore) : (f c).ctxid = c.ctxid := by
    have he : (f c).unarbited.ctxid = c.unarbited.ctxid := by rw [hf]
    exact he
  refine ⟨s.modCcAt_mem id f, s.modCcAt_cores id f, fun i => ?_, fun i hi => s.ccAt_modCcAt_ne hctx fun e => hi (e ▸ hid)⟩
  by_cases h : i = id
  · rw [h, s.ccAt_modCcAt id f (hctx s.cc), hf]
  · rw [s.ccAt_modCcAt_ne hctx h]

theorem Arbitrated.foldl {ids : List (BitVec 10)} {f : State → Nat → State} {ks : List Nat}
    (hf : ∀ k ∈ ks, ∀ s, Arbitrated ids s (f s k)) (s : State) : Arbitrated ids s (ks.foldl f s) := by
  induction ks generalizing s with
  | nil => exact .refl ids s
  | cons k r ih => exact (hf k (by simp) s).trans (ih (fun j hj => hf j (by simp [hj])) _)

/-! ### The grants -/

/-- The number of the control core at a place of a core. -/
def placeId (core k : Nat) : BitVec 10 := .ofNat 10 (4 * core + k)

theorem mostOf_mem {α : Type} {l : List (α × Nat)} {a : α} (h : mostOf l = some a) : ∃ n, (a, n) ∈ l := by
  have most : ∀ (r : List (α × Nat)) (p : α × Nat), r.foldl (fun b q => if b.2 < q.2 then q else b) p ∈ p :: r := by
    intro r
    induction r with
    | nil => simp
    | cons q r ih =>
      intro p
      rw [List.foldl_cons]
      split
      · exact List.mem_cons_of_mem _ (ih q)
      · rcases List.mem_cons.1 (ih p) with e | hmem
        · simp [e]
        · simp [hmem]
  cases l with
  | nil => cases h
  | cons p r =>
    obtain rfl := Option.some.inj h
    exact ⟨_, most r p⟩

/-- A grant goes to one of the control cores that take part. -/
theorem chooseGrant_mem {cs : List (Nat × ControlCore × Nat)} {k : Nat} (h : chooseGrant cs = some k) : ∃ p ∈ cs, p.1 = k := by
  have one {keep : Nat × ControlCore × Nat → Bool} {rank : Nat × ControlCore × Nat → Nat}
      (hk : mostOf ((cs.filter keep).map fun p => (p.1, rank p)) = some k) : ∃ p ∈ cs, p.1 = k := by
    obtain ⟨n, hn⟩ := mostOf_mem hk
    obtain ⟨p, hp, he⟩ := List.mem_map.1 hn
    exact ⟨p, List.mem_of_mem_filter hp, congrArg Prod.fst he⟩
  unfold chooseGrant at h
  split at h
  case h_1 n hn => exact one (hn.trans h)
  case h_2 => exact one h

def ControlCore.earns (n : Nat) (c : ControlCore) : ControlCore := { c with credit := c.credit + n }
def ControlCore.pays (n : Nat) (c : ControlCore) : ControlCore := { c with credit := c.credit - n, starved := 0 }
def ControlCore.starves (ready : Bool) (c : ControlCore) : ControlCore :=
  { c with starved := if ready then c.starved + 2 else 0 }

/-- What the queue head at a place costs. -/
def headCost (costs : BitVec 32) (k : Nat) : Nat := (costs.extractLsb' (8 * k) 8).toNat

/-- The credit rounds that a grant to one of some places takes. -/
def State.rounds (s : State) (core : Nat) (costs : BitVec 32) (ks : List Nat) : Nat :=
  creditRounds (ks.map fun k => ((s.ccAt (placeId core k)).credit, headCost costs k, s.heddleWeight core k))

/-- The state after those rounds. -/
def State.credited (s : State) (core : Nat) (costs : BitVec 32) (ks : List Nat) : State :=
  ks.foldl (fun u k => u.modCcAt (placeId core k) (ControlCore.earns (s.rounds core costs ks * s.heddleWeight core k))) s

theorem State.grantOne_eq (s : State) (core : Nat) (costs : BitVec 32) (ks : List Nat) :
    s.grantOne core costs ks =
      (chooseGrant (ks.map fun k => (k, (s.credited core costs ks).ccAt (placeId core k), headCost costs k))).map fun k =>
        (k, (s.credited core costs ks).modCcAt (placeId core k) (ControlCore.pays (headCost costs k))) := rfl

theorem State.credited_arbitrated (s : State) (core : Nat) (costs : BitVec 32) (ks : List Nat) :
    Arbitrated (ks.map (placeId core)) s (s.credited core costs ks) :=
  .foldl (fun _ hk u => .modCcAt u (List.mem_map_of_mem hk) (f := ControlCore.earns _) fun _ => rfl) s

theorem State.grantOne_arbitrated {s t : State} {core k : Nat} {costs : BitVec 32} {ks : List Nat}
    (h : s.grantOne core costs ks = some (k, t)) : Arbitrated (ks.map (placeId core)) s t := by
  rw [State.grantOne_eq] at h
  obtain ⟨j, hj, he⟩ := Option.map_eq_some_iff.1 h
  obtain ⟨p, hp, rfl⟩ := chooseGrant_mem hj
  obtain ⟨i, hi, rfl⟩ := List.mem_map.1 hp
  obtain ⟨-, rfl⟩ := Prod.mk.inj he
  exact (s.credited_arbitrated core costs ks).trans (.modCcAt _ (List.mem_map_of_mem hi) fun _ => rfl)

theorem State.grantAll_arbitrated (core : Nat) (spread : BitVec 4) (costs : BitVec 32) (n : Nat) (ks : List Nat) (s : State) :
    Arbitrated (ks.map (placeId core)) s (State.grantAll core spread costs n ks s) := by
  induction n generalizing ks s with
  | zero => exact .refl _ s
  | succ n ih =>
    rw [State.grantAll]
    split
    · exact .refl _ s
    · next k t h =>
      refine (State.grantOne_arbitrated h).trans ((ih _ t).mono (List.map_subset _ ?_))
      split
      · exact List.Subset.refl ks
      · exact List.filter_subset_self ks

/-! ### One cycle of a core -/

/-- The starvation counts of a cycle, before its grants, at some places. -/
def State.starve (s : State) (core : Nat) (ready : BitVec 4) (ks : List Nat) : State :=
  ks.foldl (fun u k => u.modCcAt (placeId core k) (ControlCore.starves (ready.getLsbD k))) s

theorem exec_heddleGrant_starve (core : BitVec 8) (h : Heads) (costs : BitVec 32) (s : State) :
    exec (.heddleGrant core h costs) s = .next (State.grantAll core.toNat h.spread costs h.idle.toNat
      ((List.range 4).filter fun k => h.ready.getLsbD k) (s.starve core.toNat h.ready (List.range 4))) := rfl

theorem State.starve_arbitrated (s : State) (core : Nat) (ready : BitVec 4) (ks : List Nat) :
    Arbitrated (ks.map (placeId core)) s (s.starve core ready ks) :=
  .foldl (fun _ hk u => .modCcAt u (List.mem_map_of_mem hk) (f := ControlCore.starves _) fun _ => rfl) s

theorem placeId_inj {core : BitVec 8} {j k : Nat} (hj : j < 4) (hk : k < 4) (h : placeId core.toNat j = placeId core.toNat k) :
    j = k := by
  have e := congrArg BitVec.toNat h
  simp only [placeId, BitVec.toNat_ofNat] at e
  omega

/-- Each place is counted once. -/
theorem State.starve_ccAt {core : BitVec 8} (ready : BitVec 4) {ks : List Nat} (hlt : ∀ k ∈ ks, k < 4) (hnd : ks.Nodup)
    (s : State) {k : Nat} (hk : k ∈ ks) :
    (s.starve core.toNat ready ks).ccAt (placeId core.toNat k) =
      (s.ccAt (placeId core.toNat k)).starves (ready.getLsbD k) := by
  induction ks generalizing s with
  | nil => cases hk
  | cons j r ih =>
    obtain ⟨hj, hr⟩ := List.nodup_cons.1 hnd
    have hlt' : ∀ i ∈ r, i < 4 := fun i hi => hlt i (List.mem_cons_of_mem _ hi)
    have hstep : s.starve core.toNat ready (j :: r) =
        (s.modCcAt (placeId core.toNat j) (ControlCore.starves (ready.getLsbD j))).starve core.toNat ready r := rfl
    rw [hstep]
    rcases List.mem_cons.1 hk with rfl | hmem
    · rw [(State.starve_arbitrated _ core.toNat ready r).apart]
      · exact s.ccAt_modCcAt _ _ rfl
      · intro hin
        obtain ⟨i, hi, he⟩ := List.mem_map.1 hin
        exact hj (placeId_inj (hlt' i hi) (hlt k (by simp)) he ▸ hi)
    · rw [ih hlt' hr _ hmem, s.ccAt_modCcAt_ne (f := ControlCore.starves _) (fun _ => rfl)]
      exact fun e => hj (placeId_inj (hlt' k hmem) (hlt j (by simp)) e ▸ hmem)

/-- What one cycle leaves of every control core, and what it does to those that are not granted. -/
theorem exec_heddleGrant_moves (s : State) (core : BitVec 8) (h : Heads) (costs : BitVec 32) :
    ∃ t, exec (.heddleGrant core h costs) s = .next t ∧ t.mem = s.mem ∧ (∀ i, (t.ccAt i).unarbited = (s.ccAt i).unarbited) ∧
      (∀ k, k < 4 → h.ready.getLsbD k = false →
        t.ccAt (placeId core.toNat k) = (s.ccAt (placeId core.toNat k)).starves false) ∧
      (h.idle = 0 → ∀ k, k < 4 →
        t.ccAt (placeId core.toNat k) = (s.ccAt (placeId core.toNat k)).starves (h.ready.getLsbD k)) := by
  have hstarve := s.starve_arbitrated core.toNat h.ready (List.range 4)
  have hgrant := State.grantAll_arbitrated core.toNat h.spread costs h.idle.toNat
    ((List.range 4).filter fun k => h.ready.getLsbD k) (s.starve core.toNat h.ready (List.range 4))
  have hplace {k : Nat} (hk : k < 4) := State.starve_ccAt (core := core) h.ready (fun _ => List.mem_range.1) List.nodup_range s
    (List.mem_range.2 hk)
  refine ⟨_, exec_heddleGrant_starve core h costs s, hgrant.mem.trans hstarve.mem,
    fun i => (hgrant.rest i).trans (hstarve.rest i), fun k hk hready => ?_, fun hidle k hk => ?_⟩
  · rw [hgrant.apart, hplace hk, hready]
    intro hin
    obtain ⟨j, hj, he⟩ := List.mem_map.1 hin
    obtain ⟨hjlt, hjready⟩ := List.mem_filter.1 hj
    obtain rfl := placeId_inj (List.mem_range.1 hjlt) hk he
    rw [hready] at hjready
    cases hjready
  · rw [hidle]
    exact hplace hk

/-! ### One lane group and one queue head that is ready (R57) -/

theorem chooseGrant_one {k cost : Nat} {c : ControlCore} (h : 128 ≤ c.starved ∨ cost ≤ c.credit) :
    chooseGrant [(k, c, cost)] = some k := by
  by_cases hst : 128 ≤ c.starved
  · simp [chooseGrant, mostOf, hst]
  · simp [chooseGrant, mostOf, hst, h.resolve_left hst]

/-- The rounds for one head cover its cost. -/
theorem le_credit_add_rounds {credit cost weight : Nat} (hw : 0 < weight) :
    cost ≤ credit + (cost - credit + weight - 1) / weight * weight := by
  have hdiv := Nat.div_add_mod (cost - credit + weight - 1) weight
  have hmod := Nat.mod_lt (cost - credit + weight - 1) hw
  rw [Nat.mul_comm] at hdiv
  omega

/-- One lane group goes to the only head that is ready, after the rounds that its cost takes. -/
theorem State.grantAll_one (u : State) (core k : Nat) (spread : BitVec 4) (costs : BitVec 32) :
    (State.grantAll core spread costs 1 [k] u).ccAt (placeId core k) =
      ((u.ccAt (placeId core k)).earns (u.rounds core costs [k] * u.heddleWeight core k)).pays (headCost costs k) := by
  have hat : (u.credited core costs [k]).ccAt (placeId core k) =
      (u.ccAt (placeId core k)).earns (u.rounds core costs [k] * u.heddleWeight core k) := u.ccAt_modCcAt _ _ rfl
  have hcovers : headCost costs k ≤ ((u.credited core costs [k]).ccAt (placeId core k)).credit := by
    rw [hat]
    exact le_credit_add_rounds (Nat.lt_of_lt_of_le Nat.zero_lt_one (Nat.le_max_left _ _))
  have hgrant : u.grantOne core costs [k] = some (k, (u.credited core costs [k]).modCcAt (placeId core k)
      (ControlCore.pays (headCost costs k))) := by
    rw [State.grantOne_eq, List.map_cons, List.map_nil, chooseGrant_one (Or.inr hcovers)]
    rfl
  rw [State.grantAll, hgrant, ← hat]
  exact State.ccAt_modCcAt _ _ _ rfl

theorem exec_heddleGrant_one (s : State) {core : BitVec 8} {h : Heads} (costs : BitVec 32) {k : Nat} (hk : k < 4)
    (hidle : h.idle = 1) (hready : h.ready = 1#4 <<< k) :
    ∃ t, exec (.heddleGrant core h costs) s = .next t ∧ (t.ccAt (placeId core.toNat k)).starved = 0 ∧
      (t.ccAt (placeId core.toNat k)).credit = (s.ccAt (placeId core.toNat k)).credit +
        (headCost costs k - (s.ccAt (placeId core.toNat k)).credit + s.heddleWeight core.toNat k - 1) /
          s.heddleWeight core.toNat k * s.heddleWeight core.toNat k - headCost costs k := by
  have hone : ((List.range 4).filter fun j => h.ready.getLsbD j) = [k] := by
    rw [hready]
    interval_cases k <;> decide
  have hplace := State.starve_ccAt (core := core) h.ready (fun _ => List.mem_range.1) List.nodup_range s (List.mem_range.2 hk)
  have hstarve := s.starve_arbitrated core.toNat h.ready (List.range 4)
  have hexec := exec_heddleGrant_starve core h costs s
  rw [hone, show h.idle.toNat = 1 by rw [hidle]; rfl] at hexec
  generalize s.starve core.toNat h.ready (List.range 4) = u at hplace hstarve hexec
  have hweight : u.heddleWeight core.toNat k = s.heddleWeight core.toNat k := by
    simp only [State.heddleWeight, State.coreAt, hstarve.cores]
  have hcredit : (u.ccAt (placeId core.toNat k)).credit = (s.ccAt (placeId core.toNat k)).credit := by rw [hplace]; rfl
  refine ⟨_, hexec, ?_⟩
  rw [State.grantAll_one, ← hweight, ← hcredit]
  exact ⟨rfl, rfl⟩

end Sys2Proof.Machine
end

section
/-! The number of the control core that moves, through the steps of a macro-operation (R196, R197). -/

namespace Sys2Proof.Machine

/-- What ends well ends at the control core of a number. -/
def EndsAt {α : Type} (id : BitVec 10) (get : α → State) (r : Except Stop α) : Prop := ∀ a, r = .ok a → (get a).cc.ctxid = id

section
variable {α β : Type} {id : BitVec 10} {get : α → State} {get' : β → State}

theorem endsAt_ok {a : α} (h : (get a).cc.ctxid = id) : EndsAt id get (.ok a) := by
  rintro b hb
  obtain rfl := Except.ok.inj hb
  exact h

theorem endsAt_error (e : Stop) : EndsAt id get (.error e) := fun _ h => nomatch h

/-- A state is handed on. -/
theorem EndsAt.bind {r : Except Stop α} {f : α → Except Stop β} (hr : EndsAt id get r)
    (hf : ∀ a, (get a).cc.ctxid = id → EndsAt id get' (f a)) : EndsAt id get' (r >>= f) := by
  cases r with
  | error e => exact endsAt_error e
  | ok a => exact hf a (hr a rfl)

/-- A check, or a value, that hands on no state. -/
theorem endsAt_bind {r : Except Stop α} {f : α → Except Stop β} (hf : ∀ a, EndsAt id get' (f a)) : EndsAt id get' (r >>= f) := by
  cases r with
  | error e => exact endsAt_error e
  | ok a => exact hf a

theorem EndsAt.foldlM {f : α → β → Except Stop α} (hf : ∀ a b, (get a).cc.ctxid = id → EndsAt id get (f a b)) (bs : List β) {a : α}
    (ha : (get a).cc.ctxid = id) : EndsAt id get (bs.foldlM f a) := by
  induction bs generalizing a with
  | nil => exact endsAt_ok ha
  | cons b r ih => exact (hf a b ha).bind fun c hc => ih hc

theorem EndsAt.precise {s : State} {r : Except Stop α} (h : EndsAt id get r) : EndsAt id get (precise s r) := by
  unfold Sys2Proof.Machine.precise
  split
  · exact endsAt_error _
  · exact h

end

/-! ### Translation (R209) -/

theorem State.tlbFind_ctxid {s u : State} {va : Word} {t : TlbEntry} (h : s.tlbFind va = some (u, t)) :
    u.cc.ctxid = s.cc.ctxid := by
  unfold State.tlbFind at h
  split at h
  · obtain ⟨rfl, -⟩ := Prod.mk.inj (Option.some.inj h)
    rfl
  · split at h
    · obtain ⟨rfl, -⟩ := Prod.mk.inj (Option.some.inj h)
      rfl
    · obtain ⟨e, -, he⟩ := Option.map_eq_some_iff.1 h
      obtain ⟨rfl, -⟩ := Prod.mk.inj he
      rfl

theorem State.dieBytes_cc (s : State) (pa : Nat) (bs : List Byte) : (s.dieBytes pa bs).cc = s.cc := s.storeBytes_cc pa bs

theorem State.putEntry_fillTlb_ctxid (s : State) (pa : Nat) (e : BitVec 64) (t : TlbEntry) :
    ((s.putEntry pa e).fillTlb t).cc.ctxid = s.cc.ctxid := by
  have hput : (s.putEntry pa e).cc.ctxid = s.cc.ctxid := by rw [State.putEntry, State.dieBytes_cc]
  exact hput

theorem State.translateHit_ctxid {s u : State} {a : Access} {va : Word} {t : TlbEntry} {x : Xlat}
    (h : s.translateHit a va t = some (.ok (u, x))) : u.cc.ctxid = s.cc.ctxid := by
  unfold State.translateHit at h
  split at h
  · cases h
  · split at h
    · split at h
      · obtain ⟨rfl, -⟩ := Prod.mk.inj (Except.ok.inj (Option.some.inj h))
        exact s.putEntry_fillTlb_ctxid _ _ _
      · cases h
    · obtain ⟨rfl, -⟩ := Prod.mk.inj (Except.ok.inj (Option.some.inj h))
      rfl

section
variable {id : BitVec 10} {s : State} (hs : s.cc.ctxid = id)
include hs

theorem State.translate_endsAt (a : Access) (va : Word) : EndsAt id Prod.fst (s.translate a va) := by
  rintro ⟨u, x⟩ h
  unfold State.translate at h
  split at h
  · exact absurd h State.translateMiss_not_ok
  · next s1 t hfind =>
    split at h
    · next p hhit =>
      split at h
      · cases h
      · obtain rfl := Except.ok.inj h
        exact ((State.translateHit_ctxid hhit).trans (State.tlbFind_ctxid hfind)).trans hs
    · cases h
    · exact absurd h State.translateMiss_not_ok

theorem State.pieces_endsAt (kind : Acc) (vec : Bool) (va : Word) (n : Nat) :
    EndsAt id Prod.fst (s.pieces kind vec va n) := by
  unfold State.pieces
  dsimp only
  split
  · exact (State.translate_endsAt hs _ va).bind fun p hp => endsAt_ok hp
  · refine (State.translate_endsAt hs _ va).bind fun p hp => ?_
    exact (State.translate_endsAt hp _ _).bind fun q hq => endsAt_bind fun _ => endsAt_ok hq

/-! ### The bytes of an access -/

theorem State.holdLines_ctxid (pa n : Nat) : (s.holdLines pa n).cc.ctxid = id := by
  unfold State.holdLines
  dsimp only
  split
  · exact hs
  · exact hs

omit hs in
theorem State.readCodes_writesMemory (s : State) (pa n : Nat) : WritesMemory s (s.readCodes pa n) :=
  WritesMemory.foldl (fun u _ => u.touchMeta_writesMemory _) _ s

theorem State.readCodes_ctxid (pa n : Nat) : (s.readCodes pa n).cc.ctxid = id := by
  rw [(s.readCodes_writesMemory pa n).cc, hs]

theorem State.loadPiece_endsAt (p : Piece) (va : Word) : EndsAt id Prod.fst (s.loadPiece p va) := by
  unfold State.loadPiece State.loadPieceFor
  split
  · unfold State.peerLoad
    dsimp only
    split
    · split
      · exact endsAt_error _
      · exact endsAt_error _
      · exact endsAt_ok hs
    · exact endsAt_error _
  · split
    · exact endsAt_error _
    · split
      · exact endsAt_error _
      · refine endsAt_ok ?_
        dsimp only
        split
        · exact State.holdLines_ctxid hs _ _
        · split
          · exact State.readCodes_ctxid hs _ _
          · exact hs

end

theorem State.loadPieces_endsAt (va : Word) (ps : List Piece) {id : BitVec 10} {s : State} (hs : s.cc.ctxid = id) :
    EndsAt id Prod.fst (s.loadPieces va ps) := by
  induction ps generalizing s with
  | nil => exact endsAt_ok hs
  | cons p r ih => exact (State.loadPiece_endsAt hs p va).bind fun q hq => (ih hq).bind fun w hw => endsAt_ok hw

section
variable {id : BitVec 10} {s : State} (hs : s.cc.ctxid = id)
include hs

omit hs in
theorem State.pump_cc (s : State) (port : Nat) : (s.pump port).cc = s.cc := by
  unfold State.pump
  dsimp only
  split
  · rfl
  · rfl

omit hs in
theorem State.sendPacket_cc (s : State) (node ty units : Nat) (tag : BitVec 24) (hi : Nat) (payload : List Byte) :
    (s.sendPacket node ty units tag hi payload).cc = s.cc := by
  unfold State.sendPacket
  split
  · unfold State.sendStream
    dsimp only
    split
    · rfl
    · rw [State.pump_cc]
      rfl
  · rfl

theorem State.sendWrites_ctxid (node fuel off : Nat) (bs : List Byte) : (s.sendWrites node fuel off bs).1.cc.ctxid = id := by
  induction fuel generalizing s off bs with
  | zero => exact hs
  | succ fuel ih =>
    unfold State.sendWrites
    split
    · exact hs
    · have hp := congrArg (fun c : ControlCore => c.ctxid) (s.sendPacket_cc node 3 (((bs.take packetMost).length + 15) / 16)
        s.packetTag (off + 2 ^ 48 * ((16 - (bs.take packetMost).length % 16) % 16)) (padUnits (bs.take packetMost)))
      have hrest := ih (s := { s.sendPacket node 3 (((bs.take packetMost).length + 15) / 16) s.packetTag
        (off + 2 ^ 48 * ((16 - (bs.take packetMost).length % 16) % 16)) (padUnits (bs.take packetMost)) with
          packetTag := s.packetTag + 1 }) (hp.trans hs) (off + packetMost) (bs.drop packetMost)
      exact hrest

theorem State.storePiece_ctxid (p : Piece) (bs : List Byte) : (s.storePiece p bs).1.cc.ctxid = id := by
  unfold State.storePiece
  split
  · have hw := State.sendWrites_ctxid hs (peerNode p.x.pa) (bs.length + 1) (peerOff p.x.pa) bs
    exact hw
  · split
    · exact hs
    · dsimp only
      rw [State.dieStore_cc]
      split
      · exact State.holdLines_ctxid hs _ _
      · exact hs

theorem State.storePieces_ctxid (ps : List Piece) (bs : List Byte) : (s.storePieces ps bs).1.cc.ctxid = id := by
  induction ps generalizing s bs with
  | nil => exact hs
  | cons p r ih => exact ih (State.storePiece_ctxid hs p _) _

/-! ### The steps -/

theorem State.tsaveStep_endsAt (td : TReg) (addr : Word) (m : Nat) : EndsAt id (fun u => u) (s.tsaveStep td addr m) := by
  refine (State.pieces_endsAt hs _ _ _ _).bind fun p hp => ?_
  have hst := State.storePieces_ctxid hp p.2 (((s.getT td).image.drop (2048 * m)).take 2048)
  dsimp only
  split
  · exact endsAt_ok hst
  · exact endsAt_ok hst

theorem State.readA_endsAt (a : Word) (n : Nat) : EndsAt id Prod.fst (s.readA a n) :=
  (State.pieces_endsAt hs _ _ _ _).bind fun p hp => State.loadPieces_endsAt a p.2 hp

theorem State.tloadFirst_endsAt (td : TReg) (addr : Word) : EndsAt id (fun u => u) (s.tloadFirst td addr) := by
  refine EndsAt.precise ?_
  refine (EndsAt.bind (get := Prod.fst) ((State.pieces_endsAt hs _ _ _ _).bind fun p hp => State.loadPieces_endsAt addr p.2 hp)
    fun h hh => ?_)
  dsimp only
  split
  · exact endsAt_error _
  · split
    · exact endsAt_ok hh
    · refine endsAt_bind fun _ => endsAt_bind fun _ => ?_
      split
      · exact endsAt_ok hh
      · refine (State.pieces_endsAt hh _ _ _ _).bind fun q hq => ?_
        exact (State.loadPieces_endsAt _ q.2 hq).bind fun w hw => endsAt_ok hw

theorem State.tloadStep_endsAt (td : TReg) (addr : Word) (m : Nat) : EndsAt id (fun u => u) (s.tloadStep td addr m) :=
  (State.pieces_endsAt hs _ _ _ _).bind fun p hp => (State.loadPieces_endsAt _ p.2 hp).bind fun _ hw => endsAt_ok hw

theorem State.checkA_endsAt (p : Word × Nat) : EndsAt id (fun u => u) (s.checkA p) :=
  (State.translate_endsAt hs _ _).bind fun _ hq => endsAt_bind fun _ => endsAt_ok hq

omit hs in
/-- An element of a row of A after its scale code. -/
def State.elemFrom (p : State × Byte) (at_ : Word) (t : Tag) (k : Nat) : Except Stop (State × Val × Byte) :=
  if isSx t then do
    let (s2, bs) ← p.1.readA at_ (sxBytes t)
    match sxMemElem t (sxOfMem t bs) (k % 16) with
    | .ok x => return (s2, x, p.2)
    | .error slot => reservedCode s2 k slot
  else do
    let (s2, bs) ← p.1.readA at_ (max 1 (memBits t / 8))
    return (s2, memValue t 0 k bs, p.2)

omit hs in
theorem State.elemFrom_endsAt {p : State × Byte} (hp : p.1.cc.ctxid = id) (at_ : Word) (t : Tag) (k : Nat) :
    EndsAt id Prod.fst (State.elemFrom p at_ t k) := by
  unfold State.elemFrom
  split
  · refine (State.readA_endsAt hp _ _).bind fun q hq => ?_
    dsimp only
    split
    · exact endsAt_ok hq
    · exact endsAt_error _
  · exact (State.readA_endsAt hp _ _).bind fun _ hq => endsAt_ok hq

theorem State.readElem_endsAt (row : Word) (t : Tag) (scale : Nat) (stride : Int) (k : Nat) :
    EndsAt id Prod.fst (s.readElem row t scale stride k) := by
  unfold State.readElem
  dsimp only
  split
  · exact (State.readA_endsAt hs _ _).bind fun q hq => State.elemFrom_endsAt (p := (q.1, q.2.headD 127)) hq _ t k
  · exact State.elemFrom_endsAt (p := (s, 127)) hs _ t k

theorem State.readRow_endsAt (row : Word) (t : Tag) (scale : Nat) (stride : Int) (n : Nat) :
    EndsAt id Prod.fst (s.readRow row t scale stride n) := by
  refine EndsAt.foldlM (get := Prod.fst) (fun acc k ha => ?_) _ hs
  exact (State.readElem_endsAt ha row t scale stride k).bind fun _ hq => endsAt_ok hq

theorem State.tmmaStep_endsAt (strict : Bool) (td ts : TReg) (base : Word) (rs es : BitVec 32) (m : Nat) :
    EndsAt id (fun u => u) (s.tmmaStep strict td ts base rs es m) := by
  refine EndsAt.bind (get := fun u => u) (EndsAt.foldlM (fun _ _ ha => State.checkA_endsAt ha _) _ hs) fun u hu => ?_
  refine (State.readRow_endsAt hu _ _ _ _ _).bind fun p hp => ?_
  exact endsAt_bind fun _ => endsAt_ok hp

theorem State.macroStep_endsAt (op : MacroOp) (m : Nat) : EndsAt id (fun u => u) (s.macroStep op m) := by
  cases op with
  | tmma => exact State.tmmaStep_endsAt hs _ _ _ _ _ _ m
  | tsave => exact State.tsaveStep_endsAt hs _ _ m
  | tload td addr =>
    unfold State.macroStep
    dsimp only
    split
    · exact State.tloadFirst_endsAt hs td addr
    · exact State.tloadStep_endsAt hs td addr m

/-! ### A run of steps -/

theorem State.macroDone_ctxid : s.macroDone.cc.ctxid = id := by
  have h : s.cc.endMacro.ctxid = id := by rw [ControlCore.endMacro_only]; exact hs
  exact h

end

theorem State.macroStop_endsAt {id : BitVec 10} {r : Except Stop State} (h : EndsAt id (fun u => u) r) (op : MacroOp) (m : Nat) :
    EndsAt id (fun u => u) (macroStop op m r) := by
  match r with
  | .ok s => exact endsAt_ok (h s rfl)
  | .error (.wait s) => exact endsAt_error _
  | .error (.trap s t) => exact endsAt_error _

theorem State.macroRun_endsAt (op : MacroOp) (fuel m : Nat) {id : BitVec 10} {s : State} (hs : s.cc.ctxid = id) :
    EndsAt id (fun u => u) (State.macroRun op fuel m s) := by
  induction fuel generalizing m s with
  | zero =>
    unfold State.macroRun
    split
    · exact State.macroStop_endsAt (endsAt_ok hs) op m
    · exact endsAt_ok (State.macroDone_ctxid hs)
  | succ fuel ih =>
    unfold State.macroRun
    split
    · have hstep := State.macroStep_endsAt hs op m
      split
      · next u hu => exact ih (m + 1) ((congrArg (fun c : ControlCore => c.ctxid) (u.count_cc ..)).trans (hstep u hu))
      · exact State.macroStop_endsAt hstep op m
    · exact endsAt_ok (State.macroDone_ctxid hs)

end Sys2Proof.Machine
end

section
/-! What completes behind the core: loads, stores and atomic requests, and the writes of other dies (R220, R222, R230, R334,
R354). -/

namespace Sys2Proof.Machine

/-! ### Loads and stores (R220, R222) -/

theorem ControlCore.decOut_only (c : ControlCore) (k : OpClass) : c.decOut k = { c with out := (c.decOut k).out } := by
  unfold ControlCore.decOut
  split <;> rfl

theorem ControlCore.decOut_l {c : ControlCore} (h : c.out.l ≠ 0) : (c.decOut .l).out.l = c.out.l - 1 := by
  have hne : ¬(c.out.get .l == 0) = true := by simpa [OutCnt.get] using h
  rw [ControlCore.decOut, if_neg hne]
  rfl

theorem ControlCore.decOut_s {c : ControlCore} (h : c.out.s ≠ 0) : (c.decOut .s).out.s = c.out.s - 1 := by
  have hne : ¬(c.out.get .s == 0) = true := by simpa [OutCnt.get] using h
  rw [ControlCore.decOut, if_neg hne]
  rfl

/-- A change at the control core that moves. -/
theorem State.modCcAt_self (s : State) (f : ControlCore → ControlCore) : s.modCcAt s.cc.ctxid f = { s with cc := f s.cc } := if_pos rfl

theorem exec_loadComplete_due {s : State} (h : s.cc.loads ≠ 0) :
    ∃ t, exec (.loadComplete s.cc.ctxid) s = .next t ∧ t.mem = s.mem ∧ t.cc.loads = s.cc.loads - 1 ∧
      (s.cc.out.l ≠ 0 → t.cc.out.l = s.cc.out.l - 1) ∧ t.cc.x = s.cc.x ∧ t.cc.v = s.cc.v ∧ t.cc.pc = s.cc.pc := by
  have hexec : exec (.loadComplete s.cc.ctxid) s = .next { s with cc := { s.cc.decOut .l with loads := s.cc.loads - 1 } } := by
    rw [exec_loadComplete, execLoadComplete, State.ccAt_self, if_neg h, State.modCcAt_self]
  rw [ControlCore.decOut_only] at hexec
  exact ⟨_, hexec, rfl, rfl, ControlCore.decOut_l, rfl, rfl, rfl⟩

theorem State.addsLeft_iff (s : State) (id : BitVec 10) :
    s.addsLeft id = true ↔ ∃ p ∈ s.clusters, ∃ q ∈ p.2.requests, q.cc = id := by
  simp [State.addsLeft]

theorem State.storeReady_iff (s : State) (id : BitVec 10) (w : PStore) :
    s.storeReady id w = true ↔ w.peers = [] ∧ (w.adds = false ∨ ∀ p ∈ s.clusters, ∀ q ∈ p.2.requests, q.cc ≠ id) := by
  rw [State.storeReady, Bool.and_eq_true, List.isEmpty_iff, Bool.not_eq_true', Bool.and_eq_false_iff, ← Bool.not_eq_true (s.addsLeft id),
    State.addsLeft_iff]
  push Not
  rfl

/-- The control core when a store is performed. -/
def ControlCore.performed (c : ControlCore) (w : PStore) (r : List PStore) : ControlCore :=
  { (if w.counted then c.decOut .s else c) with stores := r }

theorem ControlCore.performed_only (c : ControlCore) (w : PStore) (r : List PStore) :
    c.performed w r = { c with stores := r, out := (c.performed w r).out } := by
  unfold ControlCore.performed
  split
  · rw [ControlCore.decOut_only]
  · rfl

theorem ControlCore.performed_x (c : ControlCore) (w : PStore) (r : List PStore) : (c.performed w r).x = c.x := by
  rw [ControlCore.performed_only]
theorem ControlCore.performed_pc (c : ControlCore) (w : PStore) (r : List PStore) : (c.performed w r).pc = c.pc := by
  rw [ControlCore.performed_only]

theorem ControlCore.performed_s {c : ControlCore} {w : PStore} (r : List PStore) (hw : w.counted = true) (h : c.out.s ≠ 0) :
    (c.performed w r).out.s = c.out.s - 1 := by
  rw [ControlCore.performed, if_pos hw]
  exact ControlCore.decOut_s h

theorem exec_storePerformed_ready {s : State} {w : PStore} {r : List PStore} (hst : s.cc.stores = w :: r)
    (hready : s.storeReady s.cc.ctxid w = true) :
    ∃ t, exec (.storePerformed s.cc.ctxid) s = .next t ∧ t.mem = s.mem ∧ t.cc.stores = r ∧
      (w.counted = true → s.cc.out.s ≠ 0 → t.cc.out.s = s.cc.out.s - 1) ∧ t.cc.x = s.cc.x ∧ t.cc.pc = s.cc.pc := by
  have hexec : exec (.storePerformed s.cc.ctxid) s = .next { s with cc := s.cc.performed w r } := by
    simp only [exec_storePerformed, execStorePerformed, State.ccAt_self, hst, takeStore, hready, if_true, State.modCcAt_self,
      ControlCore.performed]
  exact ⟨_, hexec, rfl, rfl, ControlCore.performed_s r, s.cc.performed_x w r, s.cc.performed_pc w r⟩

/-- A store whose adds an engine has still to serve is due again. -/
theorem exec_storePerformed_again {s : State} {w : PStore} (hst : s.cc.stores = [w]) (hpeers : w.peers = [])
    (hleft : ¬s.storeReady s.cc.ctxid w = true) :
    exec (.storePerformed s.cc.ctxid) s = .next { s with agenda := s.agenda ++ [.storePerformed s.cc.ctxid] } := by
  simp [execStorePerformed, hst, takeStore, hleft, hpeers, State.later]

/-! ### Atomic requests (R230) -/

theorem State.clusterAt_modCluster (s : State) (n k : Nat) (f : Cluster → Cluster) :
    (s.modCluster n f).clusterAt k = if k = n then f (s.clusterAt n) else s.clusterAt k :=
  tget_tput ({} : Cluster) s.clusters n k _

/-- An engine with a line to spare takes the request that came first. -/
theorem Cluster.nextReq_head {k : Cluster} {q : AtomReq} {rest : List AtomReq} (hreq : k.requests = q :: rest)
    (hroom : k.lines.length < 64) : k.nextReq = some q := by
  have hhold : (k.hold (q.addr / 64)).isSome = true := by
    unfold Cluster.hold
    split
    · rfl
    · rw [if_pos (show k.lines.length < atomLines from hroom)]
      rfl
  have hin : k.input = q :: rest.take 255 := by
    rw [Cluster.input, hreq]
    rfl
  rw [Cluster.nextReq, hin, List.find?_cons, hhold]

/-- An addition to eight bytes of memory that decode plainly. -/
theorem State.serve_add {s : State} (cl : Nat) {q : AtomReq} (hfn : q.fn = 0) (hsz : q.size = 1) (hp : s.plainIn q.ce q.addr 8) :
    (s.serve cl q).1 = ((s.storeIn q.ce q.addr (leBytes 8 ((s.peek q.addr 8 + q.b.toNat) % 2 ^ 64))).sendStamp (dieOf q.cc)).modCluster
      cl fun c => { c with lines := (c.hold (q.addr / 64)).getD c.lines } := by
  have hold : leNat (s.bytesIn q.ce q.addr 8) = s.peek q.addr 8 := congrArg leNat (State.bytesIn_plain hp)
  have hb : q.b.toNat % 2 ^ (8 * 8) = q.b.toNat := Nat.mod_eq_of_lt q.b.isLt
  have hfn' : atomFn q.fn.toNat 1 q.rm (s.peek q.addr 8) q.b.toNat (q.c.toNat % 2 ^ (8 * 8)) =
      (some ((s.peek q.addr 8 + q.b.toNat) % 2 ^ 64), 0) := by rw [hfn]; rfl
  unfold State.serve
  rw [hsz]
  dsimp only
  rw [if_neg (by decide), hold, hb, hfn']

theorem WritesMemory.clusters {s t : State} (h : WritesMemory s t) : t.clusters = s.clusters := by
  unfold WritesMemory at h; rw [h]

theorem exec_atomicRequest_add {s : State} {cl : BitVec 6} {q : AtomReq} {rest : List AtomReq}
    (hreq : (s.clusterAt cl.toNat).requests = q :: rest) (hroom : (s.clusterAt cl.toNat).lines.length < 64) (hfn : q.fn = 0)
    (hsz : q.size = 1) (hp : s.plainIn q.ce q.addr 8) :
    ∃ t, exec (.atomicRequest cl) s = .next t ∧ t.cc = s.cc ∧ (t.clusterAt cl.toNat).requests = rest ∧
      t.peek q.addr 8 = (s.peek q.addr 8 + q.b.toNat) % 2 ^ 64 ∧
      ∀ p, (p < q.addr ∨ q.addr + 8 ≤ p) → Memory.read t.mem p = Memory.read s.mem p := by
  have hexec : exec (.atomicRequest cl) s = .next ((s.serve cl.toNat q).1.modCluster cl.toNat fun c =>
      { c with requests := c.requests.erase q }) := by
    rw [exec_atomicRequest, execAtomicRequest, State.serveHead, Cluster.nextReq_head hreq hroom]
  rw [State.serve_add cl.toNat hfn hsz hp] at hexec
  generalize hv : (s.peek q.addr 8 + q.b.toNat) % 2 ^ 64 = v at hexec
  have hw := s.storeIn_writesMemory q.ce q.addr (leBytes 8 v)
  have hmem : (s.storeIn q.ce q.addr (leBytes 8 v)).mem = Memory.writeAll s.mem q.addr (leBytes 8 v) :=
    State.storeIn_plain (by rw [leBytes_length]; exact hp)
  generalize s.storeIn q.ce q.addr (leBytes 8 v) = u at hw hmem hexec
  have hcl : (u.sendStamp (dieOf q.cc)).clusterAt cl.toNat = s.clusterAt cl.toNat := congrArg (tget ({} : Cluster) · cl.toNat) hw.clusters
  refine ⟨_, hexec, hw.cc, ?_, ?_, fun p hout => ?_⟩
  · rw [State.clusterAt_modCluster, if_pos rfl, State.clusterAt_modCluster, if_pos rfl, hcl]
    change (s.clusterAt cl.toNat).requests.erase q = rest
    rw [hreq, List.erase_cons_head]
  · have hread := Memory.readAll_writeAll s.mem q.addr (leBytes 8 v)
    rw [leBytes_length, ← hmem] at hread
    calc leNat (Memory.readAll u.mem q.addr 8) = v % 2 ^ (8 * 8) := by rw [hread, leNat_leBytes]
      _ = v := Nat.mod_eq_of_lt (by rw [← hv]; exact Nat.mod_lt _ (by decide))
  · change Memory.read u.mem p = _
    rw [hmem]
    exact Memory.read_writeAll_outside s.mem (by rw [leBytes_length]; exact hout)

/-! ### Writes of other dies (R334, R354) -/

theorem exec_dieWriteDeliver_refused {s : State} {die : BitVec 2} {w : DieWrite} (hheld : (s.dieAt die.toNat).held = [w])
    (h : admits (s.dieAt die.toNat).vc w = false) : exec (.dieWriteDeliver die) s = .next s := by
  simp [execDieWriteDeliver, hheld, takeAdmitted, h]

theorem mergeClock_max (vc stamp : Vector Word 4) (k : Fin 4) :
    ((mergeClock vc stamp)[k]).toNat = max (vc[k]).toNat (stamp[k]).toNat := by
  have hk : (mergeClock vc stamp)[k] = if vc[k].toNat < stamp[k].toNat then stamp[k] else vc[k] := by
    simp [mergeClock]
  rw [hk]
  split
  · next h => exact (max_eq_right h.le).symm
  · next h => exact (max_eq_left (not_lt.1 h)).symm

theorem exec_dieWriteDeliver_admitted {s : State} {die : BitVec 2} {w : DieWrite} (hheld : (s.dieAt die.toNat).held = [w])
    (h : admits (s.dieAt die.toNat).vc w = true) :
    ∃ t, exec (.dieWriteDeliver die) s = .next t ∧ t.mem = s.mem ∧ t.cc = s.cc ∧ (t.dieAt die.toNat).held = [] ∧
      ∀ k : Fin 4, ((t.dieAt die.toNat).vc[k]).toNat = max ((s.dieAt die.toNat).vc[k]).toNat (w.stamp[k]).toNat := by
  have hexec : exec (.dieWriteDeliver die) s = .next (s.modDie die.toNat fun d =>
      { d with vc := mergeClock d.vc w.stamp, held := [] }) := by
    simp [execDieWriteDeliver, hheld, takeAdmitted, h]
  have hdie := s.dieAt_modDie die.toNat die.toNat fun d => { d with vc := mergeClock d.vc w.stamp, held := [] }
  rw [if_pos rfl] at hdie
  refine ⟨_, hexec, rfl, rfl, by rw [hdie], fun k => ?_⟩
  rw [hdie]
  exact mergeClock_max _ _ k

end Sys2Proof.Machine
end

section
/-! The walk table of a cluster (R212), and what the counters take of it (R340). -/

namespace Sys2Proof.Machine

/-! ### Counting and the walk table -/

theorem State.count_clusters (s : State) (core : Nat) (code : BitVec 8) (k : Nat) : (s.count core code k).clusters = s.clusters := by
  unfold State.count; dsimp only; split <;> rfl

/-- What is counted depends on the cores alone. -/
theorem State.count_cores {s u : State} (h : u.cores = s.cores) (core : Nat) (code : BitVec 8) (k : Nat) :
    (u.count core code k).cores = (s.count core code k).cores := by
  have hcore : u.coreAt core = s.coreAt core := by rw [State.coreAt, h]; rfl
  unfold State.count State.modCore
  dsimp only
  rw [hcore, h]
  split
  · rfl
  · exact h

/-- A miss at the control core that moves changes the table of its cluster, and counters. -/
structure Misses (s t : State) (k : Cluster) : Prop where
  mem : t.mem = s.mem
  cc : t.cc = s.cc
  table : t.clusterAt (clusterOf s.cc.ctxid) = k

theorem Misses.count {s t : State} {k : Cluster} (h : Misses s t k) (core : Nat) (code : BitVec 8) (n : Nat) :
    Misses s (t.count core code n) k := by
  refine ⟨(t.count_mem core code n).trans h.mem, (t.count_cc core code n).trans h.cc, ?_⟩
  rw [State.clusterAt, State.count_clusters]
  exact h.table

theorem misses_modCluster (s : State) (va : Word) :
    Misses s (s.modCluster (clusterOf s.cc.ctxid) fun k => k.miss s.cc va)
      ((s.clusterAt (clusterOf s.cc.ctxid)).miss s.cc va) :=
  ⟨rfl, rfl, (s.clusterAt_modCluster _ _ _).trans (if_pos rfl)⟩

theorem State.missWalk_starts {s : State} {va : Word} (h : (s.clusterAt (clusterOf s.cc.ctxid)).joins s.cc va = false) :
    s.missWalk s.cc.ctxid va = s.modCluster (clusterOf s.cc.ctxid) fun k => k.miss s.cc va := by
  simp [State.missWalk, h]

theorem State.missWalk_joins {s : State} {va : Word} (h : (s.clusterAt (clusterOf s.cc.ctxid)).joins s.cc va = true) :
    s.missWalk s.cc.ctxid va =
      (s.modCluster (clusterOf s.cc.ctxid) fun k => k.miss s.cc va).count (coreOf s.cc.ctxid) 6 1 := by
  simp [State.missWalk, h]

/-- A miss is counted, unless it walks again a page that the TLBs held (R209, R340). -/
def State.countMiss (s : State) (va : Word) (u : State) : State :=
  if s.again s.cc.ctxid (va.extractLsb' 16 48) then u else u.count (coreOf s.cc.ctxid) 5 1

theorem exec_pageWalk_misses {s : State} {va : Word} (hrun : s.cc.run = .running) (hno : s.tlbHas s.cc va = false) :
    exec (.pageWalk s.cc.ctxid va) s = .next (s.countMiss va (s.missWalk s.cc.ctxid va)) := by
  have hpresent : ¬(s.cc.run = .absent) := by rw [hrun]; exact RunState.noConfusion
  rw [exec_pageWalk, execPageWalk, State.ccAt_self, if_neg hpresent, hno, if_neg (by decide), State.countMiss]
  split
  · rfl
  · rfl

theorem Misses.countMiss {s t : State} {k : Cluster} (h : Misses s t k) (va : Word) : Misses s (s.countMiss va t) k := by
  unfold State.countMiss
  split
  · exact h
  · exact h.count _ _ _

theorem State.countMiss_cores {s t u : State} (h : u.cores = t.cores) (va : Word) :
    (s.countMiss va u).cores = (s.countMiss va t).cores := by
  unfold State.countMiss
  split
  · exact h
  · exact State.count_cores h _ _ _

theorem exec_pageWalk_starts {s : State} {va : Word} (hrun : s.cc.run = .running) (hno : s.tlbHas s.cc va = false)
    (hfree : (s.clusterAt (clusterOf s.cc.ctxid)).walks = []) :
    ∃ t, exec (.pageWalk s.cc.ctxid va) s = .next t ∧ t.mem = s.mem ∧ t.cc = s.cc ∧ t.cores = (s.countMiss va s).cores ∧
      (t.clusterAt (clusterOf s.cc.ctxid)).walks = [⟨s.cc.asid, va.extractLsb' 16 48, s.cc.ptbase, [s.cc.ctxid]⟩] := by
  have hjoins : (s.clusterAt (clusterOf s.cc.ctxid)).joins s.cc va = false := by simp [Cluster.joins, hfree]
  have hmiss := (misses_modCluster s va).countMiss va
  rw [← State.missWalk_starts hjoins] at hmiss
  refine ⟨_, exec_pageWalk_misses hrun hno, hmiss.mem, hmiss.cc, ?_, ?_⟩
  · rw [State.missWalk_starts hjoins]
    exact State.countMiss_cores (u := s.modCluster _ _) (t := s) rfl va
  · rw [hmiss.table]
    simp [Cluster.miss, hjoins, hfree, walkSlots]

theorem exec_pageWalk_joins {s : State} {va : Word} (hrun : s.cc.run = .running) (hno : s.tlbHas s.cc va = false) {w : Walk}
    (hw : (s.clusterAt (clusterOf s.cc.ctxid)).walks = [w]) (hasid : w.asid = s.cc.asid) (hkey : w.key = va.extractLsb' 16 48) :
    ∃ t, exec (.pageWalk s.cc.ctxid va) s = .next t ∧ t.mem = s.mem ∧ t.cc = s.cc ∧
      t.cores = (s.countMiss va (s.count (coreOf s.cc.ctxid) 6 1)).cores ∧
      (t.clusterAt (clusterOf s.cc.ctxid)).walks =
        [{ w with ccs := if s.cc.ctxid ∈ w.ccs then w.ccs else w.ccs ++ [s.cc.ctxid] }] := by
  have hjoins : (s.clusterAt (clusterOf s.cc.ctxid)).joins s.cc va = true := by simp [Cluster.joins, hw, hasid, hkey]
  have hmiss := ((misses_modCluster s va).count (coreOf s.cc.ctxid) 6 1).countMiss va
  rw [← State.missWalk_joins hjoins] at hmiss
  refine ⟨_, exec_pageWalk_misses hrun hno, hmiss.mem, hmiss.cc, ?_, ?_⟩
  · rw [State.missWalk_joins hjoins]
    exact State.countMiss_cores (State.count_cores (u := s.modCluster _ _) (s := s) rfl _ _ _) va
  · rw [hmiss.table]
    by_cases hin : s.cc.ctxid ∈ w.ccs
    · simp [Cluster.miss, hjoins, hw, hin]
    · simp [Cluster.miss, hjoins, hw, hasid, hkey, hin]

/-! ### The end of a walk (R211, R212) -/

/-- A walk's result at the control core that moves. -/
theorem State.walked_self (s : State) (r : WalkResult) :
    ∃ jobs agenda, s.walked r s.cc.ctxid = { s with cc := s.cc.walked r, jobs := jobs, agenda := agenda } := by
  have later : ∀ (js : List Job) (u : State),
      ∃ agenda, js.foldl (fun u j => u.later (.jobStart j.cc j.token)) u = { u with agenda := agenda } := by
    intro js
    induction js with
    | nil => exact fun u => ⟨u.agenda, rfl⟩
    | cons j js ih =>
      intro u
      obtain ⟨agenda, h⟩ := ih (u.later (.jobStart j.cc j.token))
      exact ⟨agenda, h⟩
  unfold State.walked
  rw [State.modCcAt_self]
  obtain ⟨agenda, h⟩ := later (s.jobs.filter fun j => j.cc == s.cc.ctxid && j.miss.any fun m => m.joined r)
    { s with cc := s.cc.walked r, jobs := s.jobs.map fun j => if j.cc == s.cc.ctxid then j.walked r else j }
  exact ⟨_, agenda, h⟩

theorem ControlCore.walked_joined {c : ControlCore} {m : Miss} {r : WalkResult} (hm : c.miss = some m) (hj : m.joined r = true) :
    c.walked r = { c with miss := m.after r, held := r.leaf.toList ++ c.held } := by
  simp [ControlCore.walked, hm, hj]

theorem State.startWaiting_none {s : State} {cl : Nat} (h : (s.clusterAt cl).waiting = []) : s.startWaiting cl = s := by
  rw [State.startWaiting, h, State.startMisses]

/-- The walk that began first is over. -/
def State.walkOver (s : State) (cl : Nat) : State := s.modCluster cl fun k => { k with walks := [] }

/-- The end of a cluster's only walk, which only the control core that moves has joined, and for which no miss waits. -/
structure OnlyWalk (s : State) (cl : Nat) (w : Walk) : Prop where
  walks : (s.clusterAt cl).walks = [w]
  waiting : (s.clusterAt cl).waiting = []
  joined : w.ccs = [s.cc.ctxid]
  miss : s.cc.miss = some ⟨w.asid, w.key, false, none⟩

/-- The virtual address that a walk is for. -/
def Walk.va (w : Walk) : Word := w.key.setWidth 64 <<< 16

/-- The leaf of a walk that has ended well. -/
def Walk.leaf (w : Walk) (e : WalkEnd) : TlbEntry := ⟨w.asid, pageBase w.va e.level, e.level, e.entry, e.at_⟩

/-- The pointer entries that a walk has read are cached. -/
def State.walkCached (s : State) (cl : Nat) (e : WalkEnd) : State :=
  if e.ptrs.isEmpty then s else s.modCluster cl fun k => { k with walkCache := (e.ptrs ++ k.walkCache).take 512 }

theorem State.walkCached_only (s : State) (cl : Nat) (e : WalkEnd) :
    ∃ clusters, s.walkCached cl e = { s with clusters := clusters } ∧
      ((s.walkCached cl e).clusterAt cl).walks = (s.clusterAt cl).walks ∧
      ((s.walkCached cl e).clusterAt cl).waiting = (s.clusterAt cl).waiting := by
  unfold State.walkCached
  split
  · exact ⟨_, rfl, rfl, rfl⟩
  · refine ⟨_, rfl, ?_, ?_⟩
    · rw [State.clusterAt_modCluster, if_pos rfl]
    · rw [State.clusterAt_modCluster, if_pos rfl]

/-- The leaf of a walk fills the L2 TLB of a core. -/
def State.l2Filled (s : State) (core : Nat) (leaf : TlbEntry) : State := s.modCore core fun c => { c with l2 := tlbFill 2048 leaf c.l2 }

/-- The result at the control core that moves, when no miss waits for a slot of the table. -/
theorem State.tell_self {s u : State} {cl : Nat} {r : WalkResult} (hcc : u.cc = s.cc) (hwaits : (u.clusterAt cl).waiting = []) :
    ∃ jobs agenda, (u.walked r s.cc.ctxid).startWaiting cl = { u with cc := u.cc.walked r, jobs := jobs, agenda := agenda } := by
  obtain ⟨jobs, agenda, h⟩ := u.walked_self r
  rw [hcc] at h ⊢
  rw [h]
  exact ⟨jobs, agenda, State.startWaiting_none hwaits⟩

section
variable {s : State} {cl : BitVec 6} {w : Walk} (h : OnlyWalk s cl.toNat w)
include h

theorem exec_walkComplete_trap {c : BitVec 8} (hwalk : walk s (s.clusterAt cl.toNat).walkCache w.ptbase w.asid w.va = .error c) :
    ∃ t, exec (.walkComplete cl) s = .next t ∧ t.mem = s.mem ∧ t.cores = s.cores ∧ (t.clusterAt cl.toNat).walks = [] ∧
      t.cc = { s.cc with miss := some ⟨w.asid, w.key, false, some c⟩ } := by
  have hover := s.clusterAt_modCluster cl.toNat cl.toNat fun k => { k with walks := [] }
  rw [if_pos rfl] at hover
  have hexec : exec (.walkComplete cl) s =
      .next (((s.walkOver cl.toNat).walked { asid := w.asid, key := w.key, cause := some c } s.cc.ctxid).startWaiting cl.toNat) := by
    rw [Walk.va] at hwalk
    simp only [exec_walkComplete, execWalkComplete, h.walks, h.joined, hwalk, List.foldl_cons, List.foldl_nil]
    rfl
  obtain ⟨jobs, agenda, ht⟩ := State.tell_self (s := s) (u := s.walkOver cl.toNat) (cl := cl.toNat)
    (r := { asid := w.asid, key := w.key, cause := some c }) rfl (by rw [State.walkOver, hover]; exact h.waiting)
  rw [ht] at hexec
  refine ⟨_, hexec, rfl, rfl, congrArg Cluster.walks hover, ?_⟩
  exact ControlCore.walked_joined h.miss (by simp [Miss.joined])

theorem exec_walkComplete_leaf {e : WalkEnd} (hwalk : walk s (s.clusterAt cl.toNat).walkCache w.ptbase w.asid w.va = .ok e) :
    ∃ t, exec (.walkComplete cl) s = .next t ∧ t.mem = s.mem ∧ (t.clusterAt cl.toNat).walks = [] ∧
      t.cc = { s.cc with miss := none, held := w.leaf e :: s.cc.held } ∧
      (t.coreAt (coreOf s.cc.ctxid)).l2 = tlbFill 2048 (w.leaf e) (s.coreAt (coreOf s.cc.ctxid)).l2 := by
  have hover := s.clusterAt_modCluster cl.toNat cl.toNat fun k => { k with walks := [] }
  rw [if_pos rfl] at hover
  have hexec : exec (.walkComplete cl) s = .next (((((s.walkOver cl.toNat).walkCached cl.toNat e).l2Filled (coreOf s.cc.ctxid)
      (w.leaf e)).walked { asid := w.asid, key := w.key, leaf := some (w.leaf e) } s.cc.ctxid).startWaiting cl.toNat) := by
    have hone : (List.map coreOf [s.cc.ctxid]).eraseDups = [coreOf s.cc.ctxid] := rfl
    rw [Walk.va] at hwalk
    simp only [exec_walkComplete, execWalkComplete, h.walks, h.joined, hwalk, List.foldl_cons, List.foldl_nil, hone]
    rfl
  obtain ⟨clusters, hu, hwalks, hwaiting⟩ := (s.walkOver cl.toNat).walkCached_only cl.toNat e
  generalize (s.walkOver cl.toNat).walkCached cl.toNat e = u at hu hwalks hwaiting hexec
  have hcc : u.cc = s.cc := by rw [hu]; rfl
  have hmem : u.mem = s.mem := by rw [hu]; rfl
  have hcores : u.cores = s.cores := by rw [hu]; rfl
  have hl2 := u.coreAt_modCore (coreOf s.cc.ctxid) (coreOf s.cc.ctxid) fun c => { c with l2 := tlbFill 2048 (w.leaf e) c.l2 }
  rw [if_pos rfl] at hl2
  obtain ⟨jobs, agenda, ht⟩ := State.tell_self (s := s) (u := u.l2Filled (coreOf s.cc.ctxid) (w.leaf e)) (cl := cl.toNat)
    (r := { asid := w.asid, key := w.key, leaf := some (w.leaf e) }) hcc
    (hwaiting.trans (by rw [State.walkOver, hover]; exact h.waiting))
  rw [ht] at hexec
  refine ⟨_, hexec, hmem, ?_, ?_, ?_⟩
  · exact hwalks.trans (congrArg Cluster.walks hover)
  · have hmiss : u.cc.miss = some ⟨w.asid, w.key, false, none⟩ := by rw [hcc]; exact h.miss
    rw [← hcc]
    exact ControlCore.walked_joined hmiss (by simp [Miss.joined])
  · have hcore : u.coreAt (coreOf s.cc.ctxid) = s.coreAt (coreOf s.cc.ctxid) := by rw [State.coreAt, hcores]; rfl
    rw [← hcore]
    exact congrArg Core.l2 hl2

end

end Sys2Proof.Machine
end

section
/-! The matrix unit takes a context's next step (R197, R199); and the waits and completions together. -/

namespace Sys2Proof.Machine

/-! ### The turn (R199) -/

/-- The only entry of a list that meets a condition is found. -/
theorem find?_only {α : Type} {p : α → Bool} {l : List α} {a : α} (hmem : a ∈ l) (ha : p a = true)
    (hrest : ∀ b ∈ l, b ≠ a → p b = false) : l.find? p = some a := by
  induction l with
  | nil => cases hmem
  | cons b r ih =>
    by_cases hb : b = a
    · rw [List.find?_cons, hb, ha]
    · rw [List.find?_cons, hrest b (by simp) hb]
      exact ih ((List.mem_cons.1 hmem).resolve_left (Ne.symm hb)) fun c hc => hrest c (by simp [hc])

/-- The control cores of a core in the order of their turns. -/
def turns (core : Nat) (last : BitVec 2) : List (BitVec 10) :=
  (List.range 4).map fun k => placeId core ((last.toNat + 1 + k) % 4)

theorem mem_turns {core : BitVec 8} {id : BitVec 10} (h : core.toNat = coreOf id) (last : BitVec 2) : id ∈ turns core.toNat last := by
  have hlast := last.isLt
  have hid : placeId core.toNat (id.toNat % 4) = id := by
    apply BitVec.eq_of_toNat_eq
    simp only [placeId, h, coreOf, BitVec.toNat_ofNat]
    omega
  refine List.mem_map.2 ⟨(id.toNat + 7 - last.toNat) % 4, List.mem_range.2 (Nat.mod_lt _ (by decide)), ?_⟩
  have hk : (last.toNat + 1 + (id.toNat + 7 - last.toNat) % 4) % 4 = id.toNat % 4 := by omega
  rw [hk, hid]

/-- The context of the control core that moves is the only one of its core with a step pending. -/
structure OnlyPending (s : State) (core : BitVec 8) (op : MacroOp) (m : Nat) : Prop where
  at_ : core.toNat = coreOf s.cc.ctxid
  op : s.cc.macroOp = some (op, m)
  others : ∀ k, k < 4 → placeId core.toNat k ≠ s.cc.ctxid → s.macroPending (placeId core.toNat k) = false
  pending : s.macroPending s.cc.ctxid = true

/-- The matrix unit has turned to the control core that moves. -/
def State.turned (s : State) (core : Nat) : State := s.modCore core fun k => { k with matrixRR := .ofNat 2 s.cc.ctxid.toNat }

/-- The step of a context whose turn it is. -/
def State.stepOnce (u : State) : State :=
  match u.cc.macroOp with
  | none => u
  | some (op, m) => settle (State.macroRun op 1 m u)

section
variable {s : State} {core : BitVec 8} {op : MacroOp} {m : Nat} (h : OnlyPending s core op m)
include h

theorem exec_tileMacroStep_runs {r : State} (hr : State.macroRun op 1 m (s.turned core.toNat) = .ok r) :
    exec (.tileMacroStep core) s = .next r := by
  have hfind : (turns core.toNat (s.coreAt core.toNat).matrixRR).find? s.macroPending = some s.cc.ctxid := by
    refine find?_only (mem_turns h.at_ _) h.pending fun b hb hne => ?_
    obtain ⟨k, -, rfl⟩ := List.mem_map.1 hb
    exact h.others _ (Nat.mod_lt _ (by decide)) hne
  have hid : r.cc.ctxid = s.cc.ctxid := State.macroRun_endsAt op 1 m (s := s.turned core.toNat) rfl r hr
  have hstep : (s.turned core.toNat).stepOnce = r := by
    have hop : (s.turned core.toNat).cc.macroOp = some (op, m) := h.op
    rw [State.stepOnce, hop]
    exact congrArg settle hr
  have hself : (s.turned core.toNat).onCc s.cc.ctxid State.stepOnce = r :=
    (State.onCc_self (s := s.turned core.toNat) (by rw [hstep]; exact hid)).trans hstep
  have hgo : exec (.tileMacroStep core) s = .next ((s.turned core.toNat).onCc s.cc.ctxid State.stepOnce) := by
    have hlist : (List.range 4).map (fun k => BitVec.ofNat 10 (4 * core.toNat + ((s.coreAt core.toNat).matrixRR.toNat + 1 + k) % 4)) =
        turns core.toNat (s.coreAt core.toNat).matrixRR := rfl
    simp only [exec_tileMacroStep, execTileMacroStep, hlist, hfind]
    rfl
  rw [hgo, hself]

end

/-- The translations of a context stand when the matrix unit has turned to it. -/
theorem PlainLeaf.turned {s : State} {kind : Acc} {va : Word} {n : Nat} {x : Xlat} (h : PlainLeaf s kind va n x) (core : Nat) :
    PlainLeaf (s.turned core) kind va n x := ⟨h.served, h.page, h.ty, h.ce, h.raw, h.clean⟩

/-- What a step of a TSAVE leaves, for the bytes that it writes and the steps that there are. -/
structure Saved (s t : State) (op : MacroOp) (m total pa : Nat) (chunk : List Byte) : Prop where
  regs : t.cc.x = s.cc.x ∧ t.cc.v = s.cc.v ∧ t.cc.m = s.cc.m ∧ t.cc.t = s.cc.t
  mem : t.mem = Memory.writeAll s.mem pa chunk
  last : m + 1 = total → Retires s t (s.cc.pc + 4) ∧ t.cc.macroOp = none ∧
    (s.cc.out.t ≠ 0 → t.cc.out.t = s.cc.out.t - 1 + s.cc.sending)
  more : m + 1 < total → t.cc.pc = s.cc.pc ∧ t.cc.macroOp = some (op, m + 1)

/-- A step after which there are more. -/
theorem saved_more {s u : State} {op : MacroOp} {m total pa : Nat} {chunk : List Byte} (hcc : u.cc = s.cc)
    (hmem : u.mem = Memory.writeAll s.mem pa chunk) (hlt : m + 1 < total) :
    Saved s (u.modCc fun c => { c with macroOp := some (op, m + 1) }) op m total pa chunk := by
  have field {α : Type} (f : ControlCore → α) : f u.cc = f s.cc := congrArg f hcc
  exact ⟨⟨field (·.x), field (·.v), field (·.m), field (·.t)⟩, hmem, fun h => absurd h (Nat.ne_of_lt hlt),
    fun _ => ⟨field (·.pc), rfl⟩⟩

/-- The last step. -/
theorem saved_done {s u : State} {op : MacroOp} {m total pa : Nat} {chunk : List Byte} (hcc : u.cc = s.cc)
    (hmem : u.mem = Memory.writeAll s.mem pa chunk) (hge : ¬m + 1 < total) : Saved s u.macroDone op m total pa chunk := by
  obtain ⟨hx, hv, hmm, ht, -, hpc, hret, hout⟩ := u.macroDone_cc
  rw [hcc] at hx hv hmm ht hpc hret hout
  exact ⟨⟨hx, hv, hmm, ht⟩, hmem, fun _ => ⟨⟨hpc, hret⟩, rfl, fun hne => by rw [hout, ControlCore.endMacro_t hne]⟩,
    fun h => absurd h hge⟩

theorem exec_tileMacroStep_saves {s : State} {core : BitVec 8} {td : TReg} {a : Word} {m pa : Nat}
    (h : OnlyPending s core (.tsave td a) m) (hm : m < s.macroTotal (.tsave td a))
    (hpa : s.plainAt .store (a + .ofNat 64 (2048 * m)) ((s.getT td).chunk m).length = some pa) :
    ∃ t, exec (.tileMacroStep core) s = .next t ∧
      Saved s t (.tsave td a) m (s.macroTotal (.tsave td a)) pa ((s.getT td).chunk m) := by
  obtain ⟨x, hx, rfl⟩ := State.plainAt_eq_some.1 hpa
  have hx' := hx.turned core.toNat
  have hstep : (s.turned core.toNat).macroStep (.tsave td a) m =
      .ok ((s.turned core.toNat).dieStore false x.pa ((s.getT td).chunk m)) := State.tsaveStep_plain (s := s.turned core.toNat) hx'
  obtain ⟨hmem, -⟩ := State.dieStore_raw hx'.raw
  have hcc : ((s.turned core.toNat).dieStore false x.pa ((s.getT td).chunk m)).cc = s.cc := State.dieStore_cc _ _ _ _
  generalize (s.turned core.toNat).dieStore false x.pa ((s.getT td).chunk m) = u at hstep hmem hcc
  have hcount := (u.count_cc (coreOf s.cc.ctxid) 9 1).trans hcc
  have hcmem := (u.count_mem (coreOf s.cc.ctxid) 9 1).trans hmem
  have hrun := State.macroRun_one (s := s.turned core.toNat) hm hstep
  rw [State.macroTotal_congr (s := s) (congrArg (fun c : ControlCore => c.t) hcc)] at hrun
  refine ⟨_, exec_tileMacroStep_runs h hrun, ?_⟩
  split
  case isTrue hlt => exact saved_more hcount hcmem hlt
  case isFalse hge => exact saved_done hcount hcmem hge

/-! ### Waits and completions -/

/-- Settles O55: each event by its lemma, in the order of the statement. -/
theorem waitsAndCompletions : Obligations.WaitsAndCompletions := by
  unfold Obligations.WaitsAndCompletions
  refine ⟨fun s => ⟨fun l st c t q hrun => exec_waitReturn_met hrun, fun n p hrun => exec_barwaitReturn_over hrun,
    exec_idleTimeout_elapsed, fun l st c t q hrun => exec_waitReturn_unmet hrun, fun hreq hd he hrun hdev => ?hard,
    exec_hardPreemption_idle, fun cause hring hst hd hmac hleave hmid hrun => ?ring, fun core => exec_laneShapeChange_ready,
    fun n rcb r => exec_barrierStall_due, fun core h costs => ⟨?grant, fun k hk hidle hready => ?grantOne⟩⟩,
    fun s => ⟨exec_loadComplete_due, fun w r hst hpeers => ⟨fun hready => ?performed, fun hadds hleft hr => ?again⟩,
    fun cl q rest => exec_atomicRequest_add, fun va hrun hno => ⟨exec_pageWalk_starts hrun hno, fun w => exec_pageWalk_joins hrun hno⟩,
    fun cl w hw hwaits hjoined hmiss => ⟨fun c => exec_walkComplete_trap ⟨hw, hwaits, hjoined, hmiss⟩,
      fun e => exec_walkComplete_leaf ⟨hw, hwaits, hjoined, hmiss⟩⟩,
    fun core op m hcore hop hothers hpend => ⟨fun r => exec_tileMacroStep_runs ⟨hcore, hop, hothers, hpend⟩,
      fun td a pa hsave => ?save⟩,
    fun die src s0 s1 s2 s3 hne => if_neg hne,
    fun die w hheld => ⟨exec_dieWriteDeliver_refused hheld, exec_dieWriteDeliver_admitted hheld⟩⟩⟩
  case hard =>
    exact ⟨exec_hardPreemption_due hreq hd he hrun hdev, s.hardPreempted_taken, State.atHandler_request _ _ _⟩
  case ring =>
    obtain ⟨t, hexec, hdel⟩ := exec_uiDelivery_due (s := s) ⟨hring, hst, hd, ⟨hmac, hleave, hmid⟩, hrun⟩
    exact ⟨t, hexec, hdel.mem, hdel.pc, hdel.epc, hdel.run, hdel.cause, hdel.status, hdel.ring, hdel.low, hdel.shadows⟩
  case grant =>
    obtain ⟨t, hexec, hmem, hrest, hidle, hnone⟩ := exec_heddleGrant_moves s core h costs
    refine ⟨t, hexec, hmem, hrest, fun k hk hready => ?_, fun hz k hk hready => ?_⟩
    · have hk' : t.ccAt (.ofNat 10 (4 * core.toNat + k)) = _ := hidle k hk hready
      rw [hk']
      exact ⟨rfl, rfl⟩
    · have hk' : t.ccAt (.ofNat 10 (4 * core.toNat + k)) = _ := hnone hz k hk
      rw [hk', hready]
      rfl
  case grantOne => exact exec_heddleGrant_one s costs hk hidle hready
  case performed => exact exec_storePerformed_ready hst ((s.storeReady_iff s.cc.ctxid w).2 ⟨hpeers, hready⟩)
  case again =>
    refine exec_storePerformed_again (hr ▸ hst) hpeers fun hready => ?_
    obtain ⟨-, hno⟩ := (s.storeReady_iff s.cc.ctxid w).1 hready
    obtain ⟨p, hp, q, hq, hcc⟩ := hleft
    rcases hno with h | h
    · rw [hadds] at h
      cases h
    · exact h p hp q hq hcc
  case save =>
    subst hsave
    intro total chunk hm hpa
    obtain ⟨t, hexec, hs⟩ := exec_tileMacroStep_saves ⟨hcore, hop, hothers, hpend⟩ hm hpa
    obtain ⟨hx, hv, hmm, ht⟩ := hs.regs
    refine ⟨t, hexec, hx, hv, hmm, ht, ?_, fun p hp => ?_, hs.last, hs.more⟩
    · rw [State.bytes, hs.mem]
      exact Memory.readAll_writeAll s.mem pa _
    · rw [hs.mem]
      exact Memory.read_writeAll_outside s.mem hp

end Sys2Proof.Machine
end

section
/-! A context leaves its control core: what YIELD and EXIT do at their end (R48, R149, R150, R315, R327). -/

namespace Sys2Proof.Machine

/-! ### The control core is free -/

/-- A context has left: the control core is released, and nothing else that a program or a region sees changes but what is due. -/
structure LeavesCore (s t : State) : Prop where
  cc : t.cc = s.cc.release
  mem : t.mem = s.mem
  regions : t.regions = s.regions
  dies : t.dies = s.dies

theorem State.leaveCore_leaves (s : State) : LeavesCore s s.leaveCore := by
  unfold State.leaveCore State.checkShape
  dsimp only
  split
  · exact ⟨rfl, rfl, rfl, rfl⟩
  · exact ⟨rfl, rfl, rfl, rfl⟩

/-- A control core that has been released, after a release at device scope. -/
theorem freed_of_release {s t : State} {c : ControlCore} (hcc : t.cc = c.release) (hdies : t.dies = (s.release 4).dies) :
    Freed s t := by
  have field {α : Type} (f : ControlCore → α) : f t.cc = f c.release := congrArg f hcc
  refine ⟨field (·.run), field (·.region), fun k hk => ?_, field (·.out), ⟨field (·.ring), field (·.request), field (·.claim)⟩,
    clockAdvanced_of_dies (scope := 4) (by decide) hdies⟩
  have ht : t.cc.t = Vector.replicate 8 {} := field (·.t)
  rw [ht]
  interval_cases k <;> rfl

/-! ### A region that is being evicted (R48) -/

/-- What counting a context as saved or exited may do: the region becomes SAVED with its last. -/
structure CountsSaved (s t : State) (rcb : Nat) (r : Region) : Prop where
  cc : t.cc = s.cc
  dies : t.dies = s.dies
  frame : ∀ a, a < rcb + 0x48 ∨ rcb + 0x4C ≤ a → Memory.read t.mem a = Memory.read s.mem a
  region : ∃ q, t.regionAt rcb = some q ∧ q.ctxs = r.ctxs ∧
    (r.state = .running → (∃ c ∈ r.ctxs, c.isSaved = true) → (∀ c ∈ r.ctxs, c.isSaved = true ∨ c = .exited) →
      q.state = .saved ∧ t.peek (rcb + 0x48) 4 = 3)

/-- Whether a region is SAVED once its last context is. -/
def Region.lastSaved (r : Region) : Bool :=
  r.state == .running && r.ctxs.any CtxStatus.isSaved && r.ctxs.all (fun c => c.isSaved || c == .exited)

theorem Region.lastSaved_iff (r : Region) :
    r.lastSaved = true ↔ r.state = .running ∧ (∃ c ∈ r.ctxs, c.isSaved = true) ∧ ∀ c ∈ r.ctxs, c.isSaved = true ∨ c = .exited := by
  simp [Region.lastSaved, and_assoc]

theorem State.checkSaved_counts {s : State} {rcb : Nat} {r : Region} (hr : s.regionAt rcb = some r) :
    CountsSaved s (s.checkSaved rcb) rcb r := by
  have hcheck : s.checkSaved rcb = if r.lastSaved then
      (s.modRegion rcb fun r => { r with state := .saved, placed := false, evicting := false }).storeBytes (rcb + 0x48) (leBytes 4 3)
      else s := by
    rw [State.checkSaved, hr]
    rfl
  by_cases hlast : r.lastSaved = true
  · rw [hcheck, if_pos hlast]
    refine ⟨State.storeBytes_cc _ _ _, State.storeBytes_dies _ _ _, fun a ha => ?_, ?_⟩
    · rw [State.storeBytes_mem]
      exact Memory.read_writeAll_outside _ ha
    · refine ⟨{ r with state := .saved, placed := false, evicting := false }, ?_, rfl, fun _ _ _ => ⟨rfl, ?_⟩⟩
      · rw [State.storeBytes_regionAt, State.regionAt_modRegion, hr]
        rfl
      · rw [State.peek_storeBytes]
        rfl
  · rw [hcheck, if_neg hlast]
    exact ⟨rfl, rfl, fun _ _ => rfl, r, hr, rfl, fun hrun hsome hall => absurd (r.lastSaved_iff.2 ⟨hrun, hsome, hall⟩) hlast⟩

theorem State.regionAt_markCtx {s : State} {rcb : Nat} {r : Region} (hr : s.regionAt rcb = some r) (index : Nat) (c : CtxStatus) :
    (s.markCtx rcb index c).regionAt rcb = some { r with ctxs := r.ctxs.set index c } := by
  rw [State.markCtx, State.regionAt_modRegion, hr]
  rfl

/-- A context is marked, leaves, and is counted. -/
theorem State.leaves_counted {s : State} {rcb : Nat} {r : Region} (hr : s.regionAt rcb = some r) (index : Nat) (c : CtxStatus) :
    CountsSaved { s with cc := s.cc.release } (((s.markCtx rcb index c).leaveCore).checkSaved rcb) rcb
      { r with ctxs := r.ctxs.set index c } := by
  have hleave := (s.markCtx rcb index c).leaveCore_leaves
  have hat : (s.markCtx rcb index c).leaveCore.regionAt rcb = some { r with ctxs := r.ctxs.set index c } := by
    rw [State.regionAt, hleave.regions]
    exact State.regionAt_markCtx hr index c
  have h := State.checkSaved_counts hat
  refine ⟨h.cc.trans hleave.cc, h.dies.trans hleave.dies, fun a ha => (h.frame a ha).trans ?_, h.region⟩
  rw [hleave.mem]
  rfl

/-! ### EXIT (R150, R315, R327) -/

/-- What a claim or a share in barriers leaves behind is seen in queues and slots alone. -/
structure EndsQuietly (s t : State) : Prop where
  cc : t.cc = s.cc
  mem : t.mem = s.mem
  regions : t.regions = s.regions
  dies : t.dies = s.dies
  work : t.jobs = s.jobs ∧ t.queries = s.queries

theorem EndsQuietly.refl (s : State) : EndsQuietly s s := ⟨rfl, rfl, rfl, rfl, rfl, rfl⟩

theorem EndsQuietly.trans {s t u : State} (h : EndsQuietly s t) (k : EndsQuietly t u) : EndsQuietly s u :=
  ⟨k.cc.trans h.cc, k.mem.trans h.mem, k.regions.trans h.regions, k.dies.trans h.dies,
    k.work.1.trans h.work.1, k.work.2.trans h.work.2⟩

theorem State.returnRecords_quiet (s : State) (who : Nat × Nat) (c : Option Claim) : EndsQuietly s (s.returnRecords who c) := by
  cases c with
  | none => exact .refl s
  | some c => exact ⟨rfl, rfl, rfl, rfl, rfl, rfl⟩

theorem State.withdrawAll_quiet (s : State) (parts : Table (Option (BitVec 16))) : EndsQuietly s (s.withdrawAll parts) := by
  induction parts generalizing s with
  | nil => exact .refl s
  | cons p r ih => exact EndsQuietly.trans (t := s.modSlot p.1 fun t => t.withdraw p.2) ⟨rfl, rfl, rfl, rfl, rfl, rfl⟩ (ih _)

/-- The context of the control core that moves has no card and no query. -/
structure NoWork (s : State) : Prop where
  jobs : ∀ j ∈ s.jobs, j.cc ≠ s.cc.ctxid
  queries : ∀ q ∈ s.queries, q.cc ≠ s.cc.ctxid

theorem filter_cc_nil {α : Type} {l : List α} {cc : α → BitVec 10} {id : BitVec 10} (h : ∀ a ∈ l, cc a ≠ id) :
    l.filter (fun a => cc a == id) = [] := by
  simpa [List.filter_eq_nil_iff] using h

theorem State.cancelWork_none {s : State} (h : NoWork s) :
    s.cancelWork = { s with queries := s.queries.filter fun q => q.cc != s.cc.ctxid } := by
  unfold State.cancelWork
  dsimp only
  rw [filter_cc_nil (cc := Job.cc) h.jobs, List.foldl_nil, filter_cc_nil (cc := Query.cc) h.queries, List.foldl_nil]

/-- The end of a context's claim and shares, where it has no work. -/
structure ClaimEnds (s t : State) : Prop where
  cc : t.cc = { s.cc with claim := none, parts := [] }
  mem : t.mem = s.mem
  regions : t.regions = s.regions
  dies : t.dies = s.dies

theorem State.claimEnd_ends {s : State} (h : NoWork s) : ClaimEnds s s.claimEnd := by
  have hq := (s.returnRecords_quiet s.cc.who s.cc.claim).trans
    (State.withdrawAll_quiet (s.returnRecords s.cc.who s.cc.claim) s.cc.parts)
  unfold State.claimEnd
  generalize (s.returnRecords s.cc.who s.cc.claim).withdrawAll s.cc.parts = u at hq
  have hu : NoWork u := by
    refine ⟨fun j hj => ?_, fun q hq' => ?_⟩
    · rw [hq.cc]
      exact h.jobs j (hq.work.1 ▸ hj)
    · rw [hq.cc]
      exact h.queries q (hq.work.2 ▸ hq')
  rw [State.cancelWork_none hu]
  refine ⟨?_, hq.mem, hq.regions, hq.dies⟩
  rw [← hq.cc]
  rfl

theorem exec_exit_waits {s : State} (h : s.cc.out.idle = false) :
    exec .exit s = .next (State.freshReads { s with cc := { s.cc with request := none, leaving := true } }) := by
  simp only [exec_exit, execExit, h, Bool.not_false, stallIf_true, except_bind_error, finish_wait]
  rfl

theorem exec_exit_firmware {s : State} (hidle : s.cc.out.idle = true) (hwork : NoWork s) (hreg : s.cc.region = none) :
    ∃ t, exec .exit s = .next t ∧ Freed s t ∧ t.mem = s.mem := by
  have hend := State.claimEnd_ends (s := s.release 4) ⟨hwork.jobs, hwork.queries⟩
  have hregion : (s.release 4).claimEnd.cc.region = none := by rw [hend.cc]; exact hreg
  have hexec : exec .exit s = .next (s.release 4).claimEnd.leaveCore := by
    simp only [exec_exit, execExit, hidle, Bool.not_true, stallIf_false, except_bind_ok, hregion]
    rfl
  have hleave := (s.release 4).claimEnd.leaveCore_leaves
  refine ⟨_, hexec, freed_of_release (c := s.cc) ?_ (hleave.dies.trans hend.dies), hleave.mem.trans hend.mem⟩
  rw [hleave.cc, hend.cc]
  rfl

/-- Marking a context changes neither parents nor states. -/
theorem State.childrenEnded_markCtx (s : State) (rcb index : Nat) (c : CtxStatus) (k : Nat) :
    (s.markCtx rcb index c).childrenEnded k = s.childrenEnded k := by
  unfold State.childrenEnded State.markCtx State.modRegion
  rw [List.all_map]
  congr 1
  funext p
  simp only [Function.comp_apply]
  split
  · rfl
  · rfl

theorem State.childrenEnded_congr {s t : State} (h : t.regions = s.regions) (k : Nat) : t.childrenEnded k = s.childrenEnded k := by
  rw [State.childrenEnded, h]
  rfl

theorem State.checkRetire_dies (s : State) (rcb : Nat) : (s.checkRetire rcb).dies = s.dies := by
  unfold State.checkRetire; split <;> rfl

theorem State.checkRetire_retires {s : State} {rcb : Nat} (h : s.canRetire rcb = true) :
    .regionRetire (.ofNat 48 rcb) ∈ (s.checkRetire rcb).agenda := by
  rw [State.checkRetire, if_pos h]
  exact List.mem_append_right _ (List.mem_singleton_self _)

/-- The last context of a region whose children have ended makes it retire. -/
theorem State.exits_retire {s : State} {rcb : Nat} {r : Region} (hr : s.regionAt rcb = some r) {index : Nat} (hrun : r.state = .running)
    (hterm : r.terminating = false) (hall : ∀ c ∈ r.ctxs.set index .exited, c = .exited) (hch : s.childrenEnded rcb = true) :
    .regionRetire (.ofNat 48 rcb) ∈
      ((((s.markCtx rcb index .exited).leaveCore).checkSaved rcb).checkRetire rcb).agenda := by
  have hleave := (s.markCtx rcb index .exited).leaveCore_leaves
  have hat : (s.markCtx rcb index .exited).leaveCore.regionAt rcb = some { r with ctxs := r.ctxs.set index .exited } := by
    rw [State.regionAt, hleave.regions]
    exact State.regionAt_markCtx hr index .exited
  have hsaved : ((s.markCtx rcb index .exited).leaveCore).checkSaved rcb = (s.markCtx rcb index .exited).leaveCore := by
    have hno : ¬(({ r with ctxs := r.ctxs.set index .exited } : Region).lastSaved = true) := by
      rw [Region.lastSaved_iff]
      rintro ⟨-, ⟨c, hc, hs⟩, -⟩
      rw [hall c hc] at hs
      cases hs
    rw [State.checkSaved, hat]
    exact if_neg hno
  rw [hsaved]
  refine State.checkRetire_retires ?_
  have hkids : (s.markCtx rcb index .exited).leaveCore.childrenEnded rcb = true := by
    rw [State.childrenEnded_congr hleave.regions, State.childrenEnded_markCtx, hch]
  rw [State.canRetire, hat]
  simp only [hrun, hterm, hkids, List.all_eq_true, beq_iff_eq, Bool.and_eq_true, Bool.not_false, and_true, true_and, beq_self_eq_true]
  exact hall

/-- What EXIT does to the region of a context. -/
theorem exec_exit_region {s : State} (hidle : s.cc.out.idle = true) (hwork : NoWork s) {rcb : Nat} {r : Region}
    (hreg : s.cc.region = some rcb) (hr : s.regionAt rcb = some r) :
    ∃ t q, exec .exit s = .next t ∧ Freed s t ∧ t.regionAt rcb = some q ∧ q.ctxs = r.ctxs.set s.cc.index .exited ∧
      (∀ a, a < rcb + 0x48 ∨ rcb + 0x4C ≤ a → Memory.read t.mem a = Memory.read s.mem a) ∧
      (r.state = .running → r.terminating = false → (∀ c ∈ r.ctxs.set s.cc.index .exited, c = .exited) →
        s.childrenEnded rcb = true → .regionRetire (.ofNat 48 rcb) ∈ t.agenda) ∧
      (r.state = .running → (∃ c ∈ r.ctxs.set s.cc.index .exited, c.isSaved = true) →
        (∀ c ∈ r.ctxs.set s.cc.index .exited, c.isSaved = true ∨ c = .exited) → q.state = .saved ∧ t.peek (rcb + 0x48) 4 = 3) := by
  have hend := State.claimEnd_ends (s := s.release 4) ⟨hwork.jobs, hwork.queries⟩
  generalize hu : (s.release 4).claimEnd = u at hend
  have hregion : u.cc.region = some rcb := by rw [hend.cc]; exact hreg
  have hindex : u.cc.index = s.cc.index := by rw [hend.cc]; rfl
  have hat : u.regionAt rcb = some r := by
    rw [State.regionAt, hend.regions]
    exact hr
  have hexec : exec .exit s =
      .next ((((u.markCtx rcb s.cc.index .exited).leaveCore).checkSaved rcb).checkRetire rcb) := by
    simp only [exec_exit, execExit, hidle, Bool.not_true, stallIf_false, except_bind_ok, hu, hregion, hindex]
    rfl
  have hcount := State.leaves_counted hat s.cc.index .exited
  obtain ⟨q, hq, hctxs, hsaved⟩ := hcount.region
  refine ⟨_, q, hexec, freed_of_release (c := u.cc) ?_ ?_, ?_, hctxs, fun a ha => ?_, fun hrun hterm hall hch => ?_,
    fun hrun hsome hall => ?_⟩
  · rw [State.checkRetire_cc]
    exact hcount.cc
  · rw [State.checkRetire_dies]
    exact hcount.dies.trans hend.dies
  · rw [State.checkRetire_regionAt]
    exact hq
  · rw [State.checkRetire_mem]
    exact (hcount.frame a ha).trans (congrArg (Memory.read · a) hend.mem)
  · exact State.exits_retire hat hrun hterm hall ((State.childrenEnded_congr hend.regions rcb).trans hch)
  · rw [State.checkRetire_peek]
    exact hsaved hrun hsome hall

end Sys2Proof.Machine
end

section
/-! The resume block of a context that YIELD saves (R149, R209, R367). -/

namespace Sys2Proof.Machine

/-! ### Twelve words in memory -/

/-- Words of eight bytes in a row, read back. -/
theorem State.peek_words {t : State} {pa : Nat} {ws : List Nat} (h : t.bytes pa (8 * ws.length) = ws.flatMap (leBytes 8)) {i : Nat}
    (hi : i < ws.length) : t.peek (pa + 8 * i) 8 = ws[i] % 2 ^ (8 * 8) := by
  have hslice := slice_flatMap (f := leBytes 8) (leBytes_length 8) ws [] hi (off := 0) (m := 8) (by omega)
  rw [List.append_nil, ← h, slice_leBytes, Nat.add_zero, Nat.mul_comm] at hslice
  rw [← State.leNat_slice t pa (show 8 * i + 8 ≤ 8 * ws.length by omega), hslice, leNat_leBytes]

/-- The word of a resume block with the user-interrupt cause, status and pending ring. -/
def ControlCore.resumeUi (c : ControlCore) : Nat :=
  c.uicause.toNat + 2 ^ 16 * c.uistatus.toNat + (match c.ring with | some r => 2 ^ 24 + 2 ^ 32 * r.toNat | none => 0)

def ControlCore.resumeWords (c : ControlCore) (hook : Nat) : List Nat :=
  [if c.tcause = 0x0D then 1 else 2, c.uivec.toNat, c.uiepc.toNat, c.resumeUi, c.shadow[0].toNat, c.shadow[1].toNat,
    c.shadow[2].toNat, c.shadow[3].toNat, c.tstep.toNat, hook, c.tscratch.toNat, c.serial.toNat]

theorem Vector.toList_four (v : Vector Word 4) : v.toList = [v[0], v[1], v[2], v[3]] := by
  refine List.ext_getElem (by simp) fun i h1 h2 => ?_
  have hi : i < 4 := by simpa using h1
  interval_cases i <;> simp

theorem ControlCore.resume_words (c : ControlCore) {hook : List Byte} (hlen : hook.length = 8) :
    c.resume hook = (c.resumeWords (leNat hook)).flatMap (leBytes 8) := by
  have hhook : leBytes 8 (leNat hook) = hook := hlen ▸ leBytes_leNat hook
  simp only [ControlCore.resume, ControlCore.resumeWords, Vector.toList_four, List.flatMap_cons, List.flatMap_nil, hhook,
    List.append_assoc, List.append_nil]
  rfl

theorem ControlCore.resumeUi_lt (c : ControlCore) : c.resumeUi < 2 ^ 64 := by
  have hcause := c.uicause.isLt
  have hstatus := c.uistatus.isLt
  unfold ControlCore.resumeUi
  split
  · next r _ =>
    have := r.isLt
    omega
  · omega

/-- A resume block that stands in memory. -/
theorem resumeBlock_of_bytes {s t : State} {pa : Nat} {hook : List Byte} (hlen : hook.length = 8)
    (hhook : leNat hook = s.peek (pa + 0x48) 8) (h : t.bytes pa 0x60 = s.cc.resume hook) : ResumeBlock s t pa := by
  rw [ControlCore.resume_words s.cc hlen, hhook] at h
  have word {i : Nat} (hi : i < 12) := State.peek_words (ws := s.cc.resumeWords (s.peek (pa + 0x48) 8)) h hi
  have small {n : Nat} (x : BitVec n) (hn : n ≤ 64) : x.toNat % 2 ^ (8 * 8) = x.toNat :=
    Nat.mod_eq_of_lt (Nat.lt_of_lt_of_le x.isLt (Nat.pow_le_pow_right (by decide) hn))
  refine ⟨?_, ?_, ?_, ?_, ?_, ?_, ?_, ?_, ?_⟩
  · refine (word (i := 0) (by decide)).trans ?_
    change (if s.cc.tcause = 0x0D then 1 else 2) % 2 ^ (8 * 8) = _
    split
    · rfl
    · rfl
  · exact (word (i := 1) (by decide)).trans (small _ (by decide))
  · exact (word (i := 2) (by decide)).trans (small _ (by decide))
  · refine (word (i := 3) (by decide)).trans ((Nat.mod_eq_of_lt s.cc.resumeUi_lt).trans ?_)
    rfl
  · intro k
    have haddr : pa + 0x20 + 8 * k.val = pa + 8 * (4 + k.val) := by omega
    rw [haddr, word (by omega)]
    fin_cases k
    · exact small _ (by decide)
    · exact small _ (by decide)
    · exact small _ (by decide)
    · exact small _ (by decide)
  · exact (word (i := 8) (by decide)).trans (small _ (by decide))
  · exact (word (i := 9) (by decide)).trans (Nat.mod_eq_of_lt (s.peek_lt _ 8))
  · exact (word (i := 10) (by decide)).trans (small _ (by decide))
  · exact (word (i := 11) (by decide)).trans (small _ (by decide))

/-! ### Writes next to blocks that are stored raw (R283) -/

theorem State.recode_lookup (old : Nat → List Byte) (s : State) {b k : Nat} (h : b ≠ k) :
    lookupT (State.recode old s b).stored k = lookupT s.stored k := by
  have hstored : (s.putCode (s.mediaBlock b) (blockCode (s.bytes (128 * b) 128))).stored = s.stored := by
    unfold State.putCode State.touchMeta
    dsimp only
    split
    · rfl
    · rfl
  unfold State.recode
  dsimp only
  split
  · rw [lookupT_tdel, if_neg h.symm]
  · rw [lookupT_tins, if_neg h.symm]

/-- A write through no page leaves the blocks raw that are. -/
theorem State.storeBytes_lookup (s : State) (pa : Nat) (bs : List Byte) {k : Nat} (h : lookupT s.stored k = none) :
    lookupT (s.storeBytes pa bs).stored k = none := by
  have hraw : ∀ (ks : List Nat) (u : State), k ∉ ks → lookupT u.stored k = none →
      lookupT (ks.foldl (State.recode s.storedBlock) u).stored k = none := by
    intro ks
    induction ks with
    | nil => exact fun _ _ hu => hu
    | cons b r ih =>
      intro u hk hu
      have hb : b ≠ k := fun e => hk (e ▸ List.mem_cons_self)
      exact ih _ (fun hr => hk (List.mem_cons_of_mem _ hr)) ((State.recode_lookup _ u hb).trans hu)
  have hfirst : lookupT ((s.snoopHost pa bs.length).putBytes pa bs).stored k = none := by
    rw [State.putBytes_stored, State.snoopHost_stored, h]
  unfold State.storeBytes
  dsimp only
  split
  · exact hfirst
  · refine hraw _ _ (fun hmem => ?_) hfirst
    have := (List.mem_filter.1 hmem).2
    rw [h] at this
    cases this

theorem State.rawAt_iff (s : State) (pa n : Nat) : s.rawAt pa n = true ↔ ∀ b ∈ blocksOf pa n, lookupT s.stored b = none := by
  simp [State.rawAt]

theorem State.storeBytes_plainIn {s : State} {ce : Bool} {pa n : Nat} (h : s.plainIn ce pa n) (at_ : Nat) (bs : List Byte) :
    (s.storeBytes at_ bs).plainIn ce pa n := by
  refine h.imp_right fun hraw => ?_
  rw [State.rawAt_iff] at hraw ⊢
  exact fun b hb => s.storeBytes_lookup at_ bs (hraw b hb)

/-! ### The leaf that maps the block (R209) -/

theorem pteTouch_touched {e : BitVec 64} (h : pteStale e true = false) : pteTouch e true = e := by
  obtain ⟨ha, hd⟩ : pteA e = true ∧ pteD e = true := by simpa [pteStale] using h
  have hother : ∀ i < 64, i ≠ 11 → i ≠ 12 → (0x1800#64).getLsbD i = false := by decide
  refine BitVec.eq_of_getLsbD_eq fun i hi => ?_
  change (e ||| 0x1800#64).getLsbD i = _
  rw [BitVec.getLsbD_or]
  by_cases h11 : i = 11
  · rw [h11, show e.getLsbD 11 = true from ha]
    rfl
  · by_cases h12 : i = 12
    · rw [h12, show e.getLsbD 12 = true from hd]
      rfl
    · rw [hother i hi h11 h12, Bool.or_false]

/-- The state in which the leaf's A and D bits are set, if they were not. -/
def State.leafTouched (s : State) (w : WalkEnd) : State :=
  if pteStale w.entry true then s.putEntry w.at_ (pteTouch w.entry true) else s

/-- What setting a leaf's A and D bits may change. -/
structure TouchesLeaf (s u : State) (w : WalkEnd) : Prop where
  cc : u.cc = s.cc
  regions : u.regions = s.regions
  dies : u.dies = s.dies
  frame : ∀ a, a + 1 ≤ w.at_ ∨ w.at_ + 8 ≤ a → Memory.read u.mem a = Memory.read s.mem a
  entry : s.peek w.at_ 8 = w.entry.toNat → u.peek w.at_ 8 = (pteTouch w.entry true).toNat
  plain : ∀ ce pa n, s.plainIn ce pa n → u.plainIn ce pa n

theorem State.leafTouched_touches (s : State) (w : WalkEnd) : TouchesLeaf s (s.leafTouched w) w := by
  unfold State.leafTouched
  split
  case isTrue hstale =>
    have hmem : (s.putEntry w.at_ (pteTouch w.entry true)).mem = Memory.writeAll s.mem w.at_ (leBytes 8 (pteTouch w.entry true).toNat) :=
      s.storeBytes_mem _ _
    refine ⟨s.dieBytes_cc _ _, s.storeBytes_regions _ _, s.storeBytes_dies _ _, fun a ha => ?_, fun _ => ?_,
      fun ce pa n hp => State.storeBytes_plainIn hp _ _⟩
    · rw [hmem]
      exact Memory.read_writeAll_outside _ (by rw [leBytes_length]; omega)
    · exact (State.peek_storeBytes s w.at_ 8 _).trans (Nat.mod_eq_of_lt (pteTouch w.entry true).isLt)
  case isFalse hfresh =>
    refine ⟨rfl, rfl, rfl, fun _ _ => rfl, fun he => ?_, fun _ _ _ hp => hp⟩
    rw [pteTouch_touched (by simpa using hfresh)]
    exact he

theorem WritesMemory.dies {s t : State} (h : WritesMemory s t) : t.dies = s.dies := by unfold WritesMemory at h; rw [h]

/-! ### The block is written (R149, R367) -/

/-- A part of a range that decodes plainly. -/
theorem State.bytesIn_part {s : State} {ce : Bool} {pa n off m : Nat} (h : s.plainIn ce pa n) (hle : off + m ≤ n) :
    s.bytesIn ce (pa + off) m = s.bytes (pa + off) m := by
  cases ce with
  | true => rfl
  | false =>
    have hraw : s.rawAt pa n = true := by simpa [State.plainIn] using h
    unfold State.bytesIn
    split
    · rfl
    · refine List.map_congr_left fun i hi => ?_
      have hin : off + i < n := by have := List.mem_range.1 hi; omega
      rw [Nat.add_assoc pa off i, State.rawAt_lookup hraw (mem_blocksOf hin)]

theorem State.bytes_congr {s t : State} {pa n : Nat} (h : ∀ i, i < n → Memory.read t.mem (pa + i) = Memory.read s.mem (pa + i)) :
    t.bytes pa n = s.bytes pa n :=
  List.map_congr_left fun i hi => h i (List.mem_range.1 hi)

theorem State.schedTranslate_error {s : State} {ptbase va : Word} {asid : BitVec 16} {write : Bool} {c : BitVec 8}
    (h : s.schedLeaf ptbase asid write va = .error c) :
    s.schedTranslate ptbase asid write va = .error (.trap s { cause := c, tval := va }) := by
  rw [State.schedTranslate, h]

theorem State.schedTranslate_leaf {s : State} {ptbase va : Word} {asid : BitVec 16} {w : WalkEnd} {pa : Nat}
    (h : s.schedLeaf ptbase asid true va = .ok (w, pa)) (hcomp : pteCe w.entry = true → s.variant.wmcomp = true) :
    s.schedTranslate ptbase asid true va = .ok (s.leafTouched w, ⟨pa, 0, pteIc w.entry, pteCe w.entry⟩) := by
  have hgo : ¬(pteCe w.entry && !s.variant.wmcomp) = true := by
    cases hce : pteCe w.entry with
    | false => simp
    | true => simp [hcomp hce]
  rw [State.schedTranslate, h]
  exact if_neg hgo

/-- The address of the resume block of the context that moves, in its region's space. -/
def State.resumeVa (s : State) (r : Region) : Word := r.csa s.cc.index + 0x160

/-- Nothing is written where the save area does not map the block (log 35). -/
theorem State.writeResume_unmapped {s : State} {rcb : Nat} {r : Region} (hreg : s.cc.region = some rcb) (hr : s.regionAt rcb = some r)
    {c : BitVec 8} (hleaf : s.schedLeaf r.ptbase r.asid true (s.resumeVa r) = .error c) : s.writeResume = s := by
  have hmine : s.myRegion = some r := by rw [State.myRegion, hreg]; exact hr
  rw [State.writeResume, hmine]
  dsimp only
  rw [← State.resumeVa, State.schedTranslate_error hleaf]

/-- The resume block of a context has been written, where the save area maps it. -/
structure ResumeWritten (s u : State) (w : WalkEnd) (pa : Nat) : Prop where
  cc : u.cc = s.cc
  regions : u.regions = s.regions
  dies : u.dies = s.dies
  block : ∃ hook : List Byte, hook.length = 8 ∧ leNat hook = s.peek (pa + 0x48) 8 ∧ u.bytes pa 0x60 = s.cc.resume hook
  frame : ∀ a, a + 1 ≤ pa ∨ pa + 0x60 ≤ a → a + 1 ≤ w.at_ ∨ w.at_ + 8 ≤ a → Memory.read u.mem a = Memory.read s.mem a
  entry : s.peek w.at_ 8 = w.entry.toNat → u.peek w.at_ 8 = (pteTouch w.entry true).toNat

theorem ControlCore.resume_length (c : ControlCore) {hook : List Byte} (h : hook.length = 8) : (c.resume hook).length = 0x60 := by
  rw [c.resume_words h]
  simp [ControlCore.resumeWords, leBytes_length]

theorem State.writeResume_written {s : State} {rcb : Nat} {r : Region} (hreg : s.cc.region = some rcb)
    (hr : s.regionAt rcb = some r) {w : WalkEnd} {pa : Nat} (hleaf : s.schedLeaf r.ptbase r.asid true (s.resumeVa r) = .ok (w, pa))
    (hcomp : pteCe w.entry = true → s.variant.wmcomp = true) (hplain : s.plainIn (pteCe w.entry) pa 0x60)
    (hapart : w.at_ + 8 ≤ pa ∨ pa + 0x60 ≤ w.at_) : ResumeWritten s s.writeResume w pa := by
  have htouch := s.leafTouched_touches w
  have hmine : s.myRegion = some r := by rw [State.myRegion, hreg]; exact hr
  have hwrite : s.writeResume = (s.leafTouched w).dieStore (pteCe w.entry) pa
      (s.cc.resume ((s.leafTouched w).bytesIn (pteCe w.entry) (pa + 0x48) 8)) := by
    rw [State.writeResume, hmine]
    dsimp only
    rw [← State.resumeVa, State.schedTranslate_leaf hleaf hcomp]
  rw [hwrite]
  generalize s.leafTouched w = v at htouch
  have hp := htouch.plain _ _ _ hplain
  rw [State.bytesIn_part hp (by decide)]
  have hlen := v.bytes_length (pa + 0x48) 8
  have hhook : v.bytes (pa + 0x48) 8 = s.bytes (pa + 0x48) 8 := State.bytes_congr fun i hi => htouch.frame _ (by omega)
  have hblock := s.cc.resume_length hlen
  have hst := v.storeIn_writesMemory (pteCe w.entry) pa (s.cc.resume (v.bytes (pa + 0x48) 8))
  have hmem : (v.dieStore (pteCe w.entry) pa (s.cc.resume (v.bytes (pa + 0x48) 8))).mem =
      Memory.writeAll v.mem pa (s.cc.resume (v.bytes (pa + 0x48) 8)) := State.storeIn_plain (by rw [hblock]; exact hp)
  have hdies : (v.dieStore (pteCe w.entry) pa (s.cc.resume (v.bytes (pa + 0x48) 8))).dies = v.dies := by
    exact hst.dies
  refine ⟨hst.cc.trans htouch.cc, hst.regions.trans htouch.regions, hdies.trans htouch.dies, ⟨_, hlen, congrArg leNat hhook, ?_⟩,
    fun a ha hw => ?_, fun he => ?_⟩
  · have hread := Memory.readAll_writeAll v.mem pa (s.cc.resume (v.bytes (pa + 0x48) 8))
    rw [hblock, ← hmem] at hread
    exact hread
  · rw [hmem, Memory.read_writeAll_outside _ (by rw [hblock]; omega)]
    exact htouch.frame a hw
  · refine (congrArg leNat (State.bytes_congr fun i hi => ?_)).trans (htouch.entry he)
    rw [hmem, Memory.read_writeAll_outside _ (by rw [hblock]; omega)]

/-! ### YIELD (R48, R149) -/

section
variable {s : State} (hl : s.cc.level ≠ .user)
include hl

theorem exec_yield_illegal (h : s.cc.depth = 0 ∨ s.cc.tcause ≠ 0x0D ∧ s.cc.tcause ≠ 0x0E) :
    exec .yield s = .next (s.raise { cause := 0x01, tval := 0x0100001D }) := by
  have hw : wordOf .yield = 0x0100001D := by decide
  have hno : (!s.cc.handling || (s.cc.tcause != cSoft && s.cc.tcause != cHard)) = true := by
    rcases h with hd | ⟨h1, h2⟩
    · simp [ControlCore.handling, hd]
    · simpa [cSoft, cHard] using Or.inr ⟨h1, h2⟩
  simp only [exec_yield, execYield, needSupervisor_ok hl, except_bind_ok, hno, if_true, illegal, hw, cIllegal, finish_trap]

variable (hd : s.cc.depth ≠ 0) (hcause : s.cc.tcause = 0x0D ∨ s.cc.tcause = 0x0E)
include hd hcause

theorem exec_yield_handler :
    exec .yield s = finish (stallIf (!s.cc.out.idle) s >>= fun _ => .ok s.saveContext) := by
  have hyes : (!s.cc.handling || (s.cc.tcause != cSoft && s.cc.tcause != cHard)) = false := by
    have hh : s.cc.handling = true := by simpa [ControlCore.handling] using hd
    rcases hcause with h | h
    · simp [hh, h, cSoft]
    · simp [hh, h, cHard]
  simp only [exec_yield, execYield, needSupervisor_ok hl, except_bind_ok, hyes]
  rfl

theorem exec_yield_waits (hidle : s.cc.out.idle = false) : exec .yield s = .next s.freshReads := by
  rw [exec_yield_handler hl hd hcause, hidle, Bool.not_false, stallIf_true, except_bind_error, finish_wait]

theorem exec_yield_saves (hidle : s.cc.out.idle = true) : exec .yield s = .next s.saveContext := by
  rw [exec_yield_handler hl hd hcause, hidle, Bool.not_true, stallIf_false, except_bind_ok, finish_ok]

end

theorem State.saveContext_firmware {s : State} (h : s.cc.region = none) : Freed s s.saveContext ∧ s.saveContext.mem = s.mem := by
  have hwrite : s.writeResume = s := by
    have hmine : s.myRegion = none := by rw [State.myRegion, h]; rfl
    rw [State.writeResume, hmine]
  have hsave : s.saveContext = (s.release 4).leaveCore := by
    have hreg : (s.release 4).cc.region = none := h
    rw [State.saveContext, hwrite, hreg]
  have hleave := (s.release 4).leaveCore_leaves
  rw [hsave]
  exact ⟨freed_of_release hleave.cc hleave.dies, hleave.mem⟩

theorem State.release_dies_congr {s u : State} (hcc : u.cc = s.cc) (hdies : u.dies = s.dies) (scope : Nat) :
    (u.release scope).dies = (s.release scope).dies := by
  unfold State.release State.advanceDie State.modDie
  rw [hcc, hdies]
  split
  · exact hdies
  · rfl

/-- What a context leaves when it is saved: the region's record, and memory but for the state word as its resume block was
written. -/
structure ContextSaved (s u t : State) (rcb : Nat) (r : Region) : Prop where
  freed : Freed s t
  frame : ∀ a, a + 1 ≤ rcb + 0x48 ∨ rcb + 0x4C ≤ a → Memory.read t.mem a = Memory.read u.mem a
  region : ∃ q, t.regionAt rcb = some q ∧ q.ctxs = r.ctxs.set s.cc.index (.saved s.cc.claim s.cc.parts) ∧
    (r.state = .running → s.cc.index < r.ctxs.length →
      (∀ c ∈ r.ctxs.set s.cc.index (.saved s.cc.claim s.cc.parts), c.isSaved = true ∨ c = .exited) →
      q.state = .saved ∧ t.peek (rcb + 0x48) 4 = 3)

theorem State.saveContext_saved {s : State} {rcb : Nat} {r : Region} (hreg : s.cc.region = some rcb) (hr : s.regionAt rcb = some r)
    (hcc : s.writeResume.cc = s.cc) (hregions : s.writeResume.regions = s.regions) (hdies : s.writeResume.dies = s.dies) :
    ContextSaved s s.writeResume s.saveContext rcb r := by
  have hsave : s.saveContext = ((((s.writeResume).release 4).markCtx rcb s.cc.index (.saved s.cc.claim s.cc.parts)).leaveCore).checkSaved
      rcb := by
    have hrelease : ((s.writeResume).release 4).cc = s.cc := hcc
    rw [State.saveContext, hrelease, hreg]
  have hat : ((s.writeResume).release 4).regionAt rcb = some r := (congrArg (lookupT · rcb) hregions).trans hr
  have hcount := State.leaves_counted hat s.cc.index (.saved s.cc.claim s.cc.parts)
  rw [← hsave] at hcount
  obtain ⟨q, hq, hctxs, hlast⟩ := hcount.region
  refine ⟨freed_of_release (c := s.cc) (hcount.cc.trans (congrArg ControlCore.release hcc)) (hcount.dies.trans ?_),
    hcount.frame, q, hq, hctxs, fun hrun hlt hall => hlast hrun ⟨_, List.mem_set hlt _, rfl⟩ hall⟩
  exact State.release_dies_congr hcc hdies 4

end Sys2Proof.Machine
end

section
/-! SPAWN (R38, R39, R151, R371): its answers, and what the scheduler records. -/

namespace Sys2Proof.Machine

/-! ### The scheduler's walk (R371) -/

/-- A walk sees memory and its poison alone. -/
theorem walkFrom_congr {s t : State} (hmem : t.mem = s.mem) (hpoison : t.poison = s.poison) (cache : List TlbEntry) (asid : BitVec 16)
    (va : Word) (lvls : List Nat) (a : Nat) (ptrs : List TlbEntry) :
    walkFrom t cache asid va lvls a ptrs = walkFrom s cache asid va lvls a ptrs := by
  have hpeek (pa n : Nat) : t.peek pa n = s.peek pa n := by rw [State.peek, State.bytes, hmem]; rfl
  have hpois (pa n : Nat) : t.poisoned pa n = s.poisoned pa n := by rw [State.poisoned, hpoison]; rfl
  induction lvls generalizing a ptrs with
  | nil => rfl
  | cons lvl rest ih => simp only [walkFrom, hpeek, hpois, ih]

theorem State.schedLeaf_congr {s t : State} (hmem : t.mem = s.mem) (hpoison : t.poison = s.poison) (ptbase : Word) (asid : BitVec 16)
    (write : Bool) (va : Word) : t.schedLeaf ptbase asid write va = s.schedLeaf ptbase asid write va := by
  simp only [State.schedLeaf, walk, walkFrom_congr hmem hpoison]

/-! ### The store's translation (R206) -/

/-- A page of WM admits an access of the scalar unit as it does one of the vector unit. -/
theorem State.checkLeaf_vec {s : State} {a : Access} {va : Word} {e : BitVec 64} {lvl : Nat} {x : Xlat}
    (h : s.checkLeaf a va e lvl = .ok x) (hty : x.ty = 0) (v : Bool) : s.checkLeaf { a with vec := v } va e lvl = .ok x := by
  have hpte : pteType e = 0 := by
    unfold State.checkLeaf at h
    repeat' split at h
    all_goals simp only [Except.ok.injEq, reduceCtorEq] at h
    subst h
    exact hty
  have hadmit : typeAdmits (pteType e) { a with vec := v } va = typeAdmits (pteType e) a va := by
    rw [hpte]
    obtain ⟨kind, vec, m⟩ := a
    cases kind <;> rfl
  rw [← h]
  simp only [State.checkLeaf, hadmit]

theorem State.served_scalar {s : State} {kind : Acc} {va : Word} {n : Nat} {x : Xlat} (h : s.served ⟨kind, true, n⟩ va = some x)
    (hty : x.ty = 0) : s.served ⟨kind, false, n⟩ va = some x := by
  unfold State.served at h ⊢
  split at h
  · exact absurd h nofun
  next e he =>
  split at h
  · exact absurd h nofun
  next y hy =>
  obtain rfl : y = x := by
    split at h
    · exact Option.some.inj h
    · exact absurd h nofun
  rw [State.checkLeaf_vec hy hty false]
  exact h

/-! ### The answers (R151) -/

theorem exec_spawn_misaligned {s : State} (d : XReg) {a : XReg} (h : (s.getX a).toNat % 256 ≠ 0) :
    exec (.spawn d a) s = .next (s.raise { cause := 0x04, tval := s.getX a }) := by
  have hb : ((s.getX a).toNat % 256 != 0) = true := by simpa using h
  simp only [exec_spawn, execSpawn, hb, trapIf_true, except_bind_error, precise_trap, finish_trap]
  rfl

/-- The answer of SPAWN for an RCB, and the state in which it is given. -/
def State.spawned (s : State) (pa : Nat) (va : Word) : State × Word :=
  let u := s.release 4
  if !u.rcbIsNew pa then (u, 1)
  else match u.spawnParent pa with
    | none => (u, 2)
    | some p => (((u.acceptRegion pa va (some p)).linkChild p pa va).later (.rcbCheck (.ofNat 48 pa)), 0)

theorem exec_spawn_answers {s : State} (d : XReg) {a : XReg} {x : Xlat} (hx : PlainLeaf s .store (s.getX a) 256 x)
    (ha : (s.getX a).toNat % 256 = 0) (hst : s.cc.stores = []) (hld : s.cc.loads = 0) :
    exec (.spawn d a) s =
      .next (((s.spawned x.pa (s.getX a)).1.setX d (s.spawned x.pa (s.getX a)).2).retire) := by
  have hb : ((s.getX a).toNat % 256 != 0) = false := by simp [ha]
  have hown : waitOwn s = .ok () := by simp [waitOwn, ControlCore.ownDone, hst, hld]
  have htr := State.translate_served (State.served_scalar hx.served hx.ty)
  cases hnew : (s.release 4).rcbIsNew x.pa with
  | false =>
    simp only [exec_spawn, execSpawn, hb, trapIf_false, except_bind_ok, htr, hown, State.spawned, hnew, Bool.not_false, if_true] <;> rfl
  | true =>
    cases hp : (s.release 4).spawnParent x.pa with
    | none =>
      simp only [exec_spawn, execSpawn, hb, trapIf_false, except_bind_ok, htr, hown, State.spawned, hnew, hp, Bool.not_true,
        Bool.false_eq_true, if_false] <;> rfl
    | some p =>
      simp only [exec_spawn, execSpawn, hb, trapIf_false, except_bind_ok, htr, hown, State.spawned, hnew, hp, Bool.not_true,
        Bool.false_eq_true, if_false] <;> rfl

theorem State.dieBytes_dies (s : State) (pa : Nat) (bs : List Byte) : (s.dieBytes pa bs).dies = s.dies := s.storeBytes_dies pa bs
theorem State.dieBytes_regions (s : State) (pa : Nat) (bs : List Byte) : (s.dieBytes pa bs).regions = s.regions :=
  s.storeBytes_regions pa bs
theorem State.dieBytes_mem (s : State) (pa : Nat) (bs : List Byte) : (s.dieBytes pa bs).mem = Memory.writeAll s.mem pa bs :=
  s.storeBytes_mem pa bs

/-- A child that the scheduler has accepted and linked. -/
def State.adopted (u : State) (pa : Nat) (va : Word) (p : Nat) : State := (u.acceptRegion pa va (some p)).linkChild p pa va

/-- What SPAWN leaves in every case. -/
structure SpawnKeeps (s u : State) : Prop where
  cc : u.cc = s.cc
  dies : u.dies = (s.release 4).dies

theorem State.adopted_keeps (s : State) (pa : Nat) (va : Word) (p : Nat) : SpawnKeeps s ((s.release 4).adopted pa va p) :=
  ⟨(State.dieBytes_cc _ _ _).trans (State.dieBytes_cc _ _ _), (State.dieBytes_dies _ _ _).trans (State.dieBytes_dies _ _ _)⟩

theorem State.spawned_keeps (s : State) (pa : Nat) (va : Word) : SpawnKeeps s (s.spawned pa va).1 := by
  unfold State.spawned
  dsimp only
  split
  · exact ⟨rfl, rfl⟩
  · split
    · exact ⟨rfl, rfl⟩
    · next p _ =>
      have h := s.adopted_keeps pa va p
      exact ⟨h.cc, h.dies⟩

/-- The registers, the clock and the end of a SPAWN. -/
structure SpawnEnds (s t : State) (d : XReg) (answer : Word) : Prop where
  retires : Retires s t (s.cc.pc + 4)
  clock : ClockAdvanced s t
  others : ∀ n, n ≠ d → t.getX n = s.getX n
  answer : t.getX d = if d = 0 then 0 else answer

theorem SpawnKeeps.ends {s u : State} (h : SpawnKeeps s u) (d : XReg) (k : Word) : SpawnEnds s (u.setX d k).retire d k := by
  have hx (n : XReg) : (u.setX d k).retire.getX n = if n = d ∧ d ≠ 0 then k else s.getX n := by
    have hs : u.getX n = s.getX n := by rw [State.getX, h.cc]; rfl
    rw [← hs]
    exact u.getX_setX d n k
  have hpc : (u.setX d k).cc.pc = s.cc.pc := by simp [h.cc]
  refine ⟨retires_retire hpc (by simp [h.cc]), clockAdvanced_of_dies (scope := 4) (by decide) h.dies, fun n hn => ?_, ?_⟩
  · rw [hx, if_neg fun hc => hn hc.1]
  · rw [hx]
    by_cases hd : d = 0
    · rw [hd]
      rfl
    · rw [if_pos ⟨rfl, hd⟩, if_neg hd]

/-! ### The cases (R38, R39) -/

theorem State.spawned_old {s : State} {pa : Nat} (va : Word) (h : s.peek (pa + 0x48) 4 ≠ 0) : s.spawned pa va = (s.release 4, 1) := by
  have hnew : (s.release 4).rcbIsNew pa = false := by
    have hpeek : (s.release 4).peek (pa + 0x48) 4 = s.peek (pa + 0x48) 4 := rfl
    simp [State.rcbIsNew, hpeek, h]
  simp [State.spawned, hnew]

theorem State.rcbIsNew_of {s : State} {pa : Nat} (h : s.peek (pa + 0x48) 4 = 0) (hnone : s.regionAt pa = none) :
    (s.release 4).rcbIsNew pa = true := by
  have hpeek : (s.release 4).peek (pa + 0x48) 4 = 0 := h
  have hat : (s.release 4).regionAt pa = none := hnone
  simp [State.rcbIsNew, hpeek, hat]

/-- The leaf of the parent's address in an RCB. -/
def State.parentLeaf (s : State) (pa : Nat) : Except (BitVec 8) (WalkEnd × Nat) :=
  s.schedLeaf s.cc.ptbase s.cc.asid false (.ofNat 64 (s.peek pa 8))

theorem State.parentLeaf_release (s : State) (pa : Nat) : (s.release 4).parentLeaf pa = s.parentLeaf pa :=
  State.schedLeaf_congr rfl rfl _ _ _ _

theorem State.spawned_lost {s : State} {pa : Nat} (va : Word) (h : s.peek (pa + 0x48) 4 = 0) (hnone : s.regionAt pa = none)
    {c : BitVec 8} (hleaf : s.parentLeaf pa = .error c) : s.spawned pa va = (s.release 4, 2) := by
  have hparent : (s.release 4).spawnParent pa = none := by
    have hl := (s.parentLeaf_release pa).trans hleaf
    rw [State.parentLeaf] at hl
    rw [State.spawnParent, hl]
    split
    · next he => cases he
    · rfl
  simp [State.spawned, State.rcbIsNew_of h hnone, hparent]

/-- A region stands in its own tree. -/
theorem State.mem_subtree (s : State) (n rcb : Nat) : rcb ∈ s.subtree n rcb := by
  cases n with
  | zero => simp [State.subtree]
  | succ n => simp [State.subtree]

theorem State.spawned_child {s : State} {pa : Nat} (va : Word) (h : s.peek (pa + 0x48) 4 = 0) (hnone : s.regionAt pa = none)
    {w : WalkEnd} {p : Nat} (hleaf : s.parentLeaf pa = .ok (w, p)) (hmine : s.cc.region = some p) {q : Region}
    (hq : s.regionAt p = some q) (hlive : q.state.ended = false) :
    s.spawned pa va = (((s.release 4).adopted pa va p).later (.rcbCheck (.ofNat 48 pa)), 0) := by
  have hparent : (s.release 4).spawnParent pa = some p := by
    have hl := (s.parentLeaf_release pa).trans hleaf
    have hregion : (s.release 4).cc.region = some p := hmine
    have hat : (s.release 4).regionAt p = some q := hq
    rw [State.parentLeaf] at hl
    rw [State.spawnParent, hl, hregion]
    simp [State.mem_subtree, hat, hlive]
  simp only [State.spawned, State.rcbIsNew_of h hnone, hparent]
  rfl

end Sys2Proof.Machine
end

section
/-! A child that SPAWN hands to the scheduler (R16, R38, R151); and YIELD, EXIT and SPAWN together. -/

namespace Sys2Proof.Machine

/-- The record of a region that the scheduler accepts from a context. -/
def State.acceptedRegion (s : State) (pa : Nat) (va : Word) (p : Nat) : Region :=
  { va := va, parent := some p, service := false, entry := .ofNat 64 (s.peek (pa + 0x18) 8)
    launch := .ofNat 64 (s.peek (pa + 0x20) 8), saveArea := .ofNat 64 (s.peek (pa + 0x40) 8)
    tvec := s.cc.tvec, ptbase := s.cc.ptbase, asid := s.cc.asid, maxvl := s.cc.maxvl, preempt := s.cc.preempt }

/-- What adopting a child does to memory and to the record of its RCB. -/
structure Adopts (s t : State) (pa : Nat) (va : Word) (p : Nat) : Prop where
  child : t.peek (p + 0x08) 8 = va.toNat
  sibling : pa + 0x18 ≤ p + 0x08 ∨ p + 0x10 ≤ pa + 0x10 → t.peek (pa + 0x10) 8 = s.peek (p + 0x08) 8
  frame : ∀ x, (x < pa + 0x10 ∨ pa + 0x18 ≤ x) → (x < p + 0x08 ∨ p + 0x10 ≤ x) → Memory.read t.mem x = Memory.read s.mem x
  region : t.regionAt pa = some (s.acceptedRegion pa va p)

theorem State.adopted_adopts (s : State) (pa : Nat) (va : Word) (p : Nat) : Adopts s ((s.release 4).adopted pa va p) pa va p := by
  have hfirst := s.bytes_length (p + 0x08) 8
  have hmem : ((s.release 4).adopted pa va p).mem =
      Memory.writeAll (Memory.writeAll s.mem (pa + 0x10) (s.bytes (p + 0x08) 8)) (p + 0x08) (leBytes 8 va.toNat) := by
    refine (State.dieBytes_mem _ _ _).trans (congrArg (Memory.writeAll · (p + 0x08) (leBytes 8 va.toNat)) ?_)
    exact State.dieBytes_mem _ _ _
  refine ⟨?_, fun hapart => ?_, fun x hpa hp => ?_, ?_⟩
  · have hread := Memory.readAll_writeAll (Memory.writeAll s.mem (pa + 0x10) (s.bytes (p + 0x08) 8)) (p + 0x08) (leBytes 8 va.toNat)
    rw [leBytes_length, ← hmem] at hread
    rw [State.peek, State.bytes, hread, leNat_leBytes]
    exact Nat.mod_eq_of_lt va.isLt
  · have hread := Memory.readAll_writeAll s.mem (pa + 0x10) (s.bytes (p + 0x08) 8)
    rw [hfirst] at hread
    refine congrArg leNat (Eq.trans ?_ hread)
    refine List.map_congr_left fun i hi => ?_
    have hlt := List.mem_range.1 hi
    rw [hmem]
    exact Memory.read_writeAll_outside _ (by rw [leBytes_length]; omega)
  · rw [hmem, Memory.read_writeAll_outside _ (by rw [leBytes_length]; omega)]
    exact Memory.read_writeAll_outside _ (by rw [hfirst]; omega)
  · have hregions : ((s.release 4).adopted pa va p).regions = ((s.release 4).acceptRegion pa va (some p)).regions :=
      (State.dieBytes_regions _ _ _).trans (State.dieBytes_regions _ _ _)
    rw [State.regionAt, hregions]
    exact State.regionAt_putRegion (s.release 4) pa _

/-- The same at the end of the instruction. -/
theorem State.spawned_adopted (s : State) (pa : Nat) (va : Word) (p : Nat) (d : XReg) :
    Adopts s (((((s.release 4).adopted pa va p).later (.rcbCheck (.ofNat 48 pa))).setX d 0).retire) pa va p := by
  obtain ⟨hchild, hsibling, hframe, hregion⟩ := s.adopted_adopts pa va p
  generalize (s.release 4).adopted pa va p = u at hchild hsibling hframe hregion
  exact ⟨hchild, hsibling, hframe, hregion⟩

theorem State.spawned_due (u : State) (e : Event) (k : Word) (d : XReg) : e ∈ ((u.later e).setX d k).retire.agenda :=
  List.mem_append_right _ (List.mem_singleton_self _)

theorem SpawnEnds.answer_zero {s t : State} {d : XReg} (h : SpawnEnds s t d 0) : t.getX d = 0 := h.answer.trans (ite_self 0)

/-! ### YIELD, EXIT and SPAWN -/

/-- Settles O27: YIELD by what its save area maps, EXIT by its region, SPAWN by its answers. -/
theorem contextInstructions : Obligations.ContextInstructions := by
  unfold Obligations.ContextInstructions
  refine ⟨fun s hl => ⟨exec_yield_illegal hl, fun hd hcause => ⟨exec_yield_waits hl hd hcause, fun hidle hnone => ?firmware,
    fun rcb r hidle hreg hr => ⟨fun c hleaf => ?unmapped, fun w pa hleaf hcomp hplain hstate hpte hword => ?mapped⟩⟩⟩,
    fun s => ⟨exec_exit_waits, fun hidle hjobs hqueries => ⟨exec_exit_firmware hidle ⟨hjobs, hqueries⟩,
      fun rcb r => exec_exit_region hidle ⟨hjobs, hqueries⟩⟩⟩,
    fun s d a => ⟨exec_spawn_misaligned d, fun pa hpa ha hst hld => ?spawn⟩⟩
  case firmware =>
    obtain ⟨hfreed, hmem⟩ := State.saveContext_firmware hnone
    exact ⟨_, exec_yield_saves hl hd hcause hidle, hfreed, hmem⟩
  case unmapped =>
    have hwrite := State.writeResume_unmapped hreg hr hleaf
    have hs := State.saveContext_saved hreg hr (by rw [hwrite]) (by rw [hwrite]) (by rw [hwrite])
    obtain ⟨q, hq, hctxs, hlast⟩ := hs.region
    refine ⟨_, q, ⟨exec_yield_saves hl hd hcause hidle, hs.freed, hq, hctxs, hlast⟩, fun x hx => ?_⟩
    rw [hs.frame x hx, hwrite]
  case mapped =>
    have hw := State.writeResume_written hreg hr hleaf hcomp hplain hpte
    have hs := State.saveContext_saved hreg hr hw.cc hw.regions hw.dies
    obtain ⟨q, hq, hctxs, hlast⟩ := hs.region
    obtain ⟨hook, hlen, hhook, hblock⟩ := hw.block
    have hkept : s.saveContext.bytes pa 0x60 = s.writeResume.bytes pa 0x60 := State.bytes_congr fun i hi => hs.frame _ (by omega)
    refine ⟨_, q, ⟨exec_yield_saves hl hd hcause hidle, hs.freed, hq, hctxs, hlast⟩,
      resumeBlock_of_bytes hlen hhook (hkept.trans hblock), fun x hx hxs hxw => ?_, fun he => ?_⟩
    · exact (hs.frame x hxs).trans (hw.frame x hx hxw)
    · exact (congrArg leNat (State.bytes_congr fun i hi => hs.frame _ (by omega))).trans (hw.entry he)
  case spawn =>
    obtain ⟨x, hx, rfl⟩ := State.plainAt_eq_some.1 hpa
    have hends := (s.spawned_keeps x.pa (s.getX a)).ends d (s.spawned x.pa (s.getX a)).2
    refine ⟨_, exec_spawn_answers d hx ha hst hld, hends.retires, hends.clock, hends.others, fun hold => ?_,
      fun hnew hnone => ⟨fun c hleaf => ?_, fun w p q hleaf hmine hq hlive => ?_⟩⟩
    · rw [State.spawned_old _ hold] at hends ⊢
      exact ⟨rfl, rfl, hends.answer⟩
    · rw [State.spawned_lost _ hnew hnone hleaf] at hends ⊢
      exact ⟨rfl, rfl, hends.answer⟩
    · rw [State.spawned_child _ hnew hnone hleaf hmine hq hlive] at hends ⊢
      have had := State.spawned_adopted s x.pa (s.getX a) p d
      refine ⟨hends.answer_zero, had.child, had.sibling, had.frame, State.spawned_due _ _ _ d, _, had.region, rfl, rfl, rfl, rfl,
        rfl, rfl, rfl, rfl, rfl, rfl, rfl, rfl⟩

end Sys2Proof.Machine
end

section
/-! The decoder and the encoder: a word is an instruction's encoding exactly when each of its fields is the instruction's, so
that reading the fields back gives the instruction, and writing back the fields that were read gives the word. -/

namespace Sys2Proof
open BitVec

/-! ### Fields of a word (R77 to R82) -/

/-- A word in two parts, by what its upper and its lower bits are; of a word in several parts, every field in turn. -/
theorem append_eq_iff_extractLsb' {n m : Nat} {x : BitVec n} {y : BitVec m} {w : BitVec (n + m)} :
    x ++ y = w ↔ x = w.extractLsb' m n ∧ y = w.extractLsb' 0 m := by
  constructor
  · rintro rfl
    exact ⟨extractLsb'_append_eq_left.symm, extractLsb'_append_eq_right.symm⟩
  · rintro ⟨rfl, rfl⟩
    exact extractLsb'_append_extractLsb'

/-- A field of a field. -/
theorem extractLsb'_extractLsb' {n s l a b : Nat} {w : BitVec n} (h : a + b ≤ l) :
    (w.extractLsb' s l).extractLsb' a b = w.extractLsb' (s + a) b := by
  ext i hi
  have : a + i < l := by omega
  simp [this, Nat.add_assoc]

/-- The third operand that a word holds is the one whose bits 26:21 and form stand there (R81). -/
theorem thirdOf_eq_some_iff {w : BitVec 32} {t : Third} :
    thirdOf w = some t ↔ t.bits = w.extractLsb' 21 6 ∧ t.form = w.extractLsb' 7 2 := by
  have hvx (xb : XReg) :
      (0#1 ++ xb : BitVec 6) = w.extractLsb' 21 6 ↔ 0#1 = w.extractLsb' 26 1 ∧ xb = w.extractLsb' 21 5 := by
    rw [append_eq_iff_extractLsb', extractLsb'_extractLsb' (by decide), extractLsb'_extractLsb' (by decide)]
  have hform : ∀ f : BitVec 2, f = 0#2 ∨ f = 1#2 ∨ f = 2#2 ∨ f = 3#2 := by decide
  rcases hform (w.extractLsb' 7 2) with hf | hf | hf | hf
  all_goals cases t <;> simp [thirdOf, hf, Third.bits, Third.form, hvx, eq_comm (a := w.extractLsb' _ _)]

/-! ### Decoding an encoding -/

/-- The configuring form of SHCFG has an xb other than 0, which stands for the draining form (R306). -/
theorem ne_of_wf_shcfg {xd xa xb : XReg} (h : (Instr.shcfg xd xa xb).wf = true) : xb ≠ 0#5 := bne_iff_ne.1 h

/-- The fields of an instruction's word are the instruction's own, its opcode and its function code among them; the decoder
of that opcode reads them back. -/
theorem decodeFields_of_encode {i : Instr} {v w : BitVec 32} (hwf : i.wf = true) (hi : encode i = some v) (h : v = w) :
    decodeFields w = some i := by
  unfold decodeFields
  cases i
  all_goals cases hi
  all_goals simp -index only [append_eq_iff_extractLsb', extractLsb'_extractLsb', Nat.reduceAdd, Nat.reduceLeDiff] at h
  -- the last field is the opcode, which chooses the decoder
  all_goals rw [← h.2]
  case addi | andi | ori | xori | slti | lui | addpc | jal | jalr | next | wait =>
    simp [← h]
  case add | sub | and | or | xor | sll | srl | sra | slt | sltu | min | max | minu | maxu | mul | mulh | mulhu | div
      | divu | rem | remu | csel =>
    change decodeIntReg w = _
    simp [decodeIntReg, ← h]
  case clz | ctz | popc | bswap =>
    change decodeBits w = _
    simp [decodeBits, ← h]
  case slli | srli | srai | sext | zext =>
    change decodeShift w = _
    simp [decodeShift, ← h]
  case fadd | fsub | fmul | fdiv | fsqrt | fmin | fmax | fmac | feq | flt | fle | fcvtfi | fcvtif | fcvtsd =>
    change decodeFp w = _
    simp [decodeFp, ← h]
  case beq | bne | blt | bge | bltu | bgeu =>
    change decodeBranch w = _
    simp [decodeBranch, ← h]
  case bany | ball | bnone =>
    change decodeMaskBranch w = _
    simp [decodeMaskBranch, ← h]
  case ldb | ldh | ldw | ldd | ldbz | ldhz | ldwz | lda =>
    change decodeLoad w = _
    simp [decodeLoad, ← h]
  case stb | sth | stw | std | strel =>
    change decodeStore w = _
    simp [decodeStore, ← h]
  case csrr | csrw | csrs | csrc =>
    change decodeCsr w = _
    simp [decodeCsr, ← h]
  case syscall | tret | brk | idle | yield | exit | spawn | uiret | tlbinv | lgset =>
    change decodeSystem w = _
    simp [decodeSystem, ← h]
  case vadd | vsub | vmul | vmulh | vdiv | vmin | vmax | vand | vor | vxor | vsll | vsrl | vsra | vadds | vsubs |
      vabsd | vmac | vnmac | vdot4 =>
    change decodeVArith w = _
    simp [decodeVArith, thirdOf_eq_some_iff, ← h]
  case vneg | vabs | vsqrt | vrcp | vrsqrt | vexp2 | vlog2 | vclass | vmov | vbcast | vtag | vsxnorm =>
    change decodeVUnary w = _
    simp [decodeVUnary, thirdOf_eq_some_iff, ← h]
  case vcmpeq | vcmpne | vcmplt | vcmple | vcmpgt | vcmpge | vcmpun =>
    change decodeVCmp w = _
    simp [decodeVCmp, thirdOf_eq_some_iff, ← h]
  case vcvt | vcvtsc =>
    change decodeVCvt w = _
    simp [decodeVCvt, ← h]
  case vslup | vsldn | vsl1up | vsl1dn | vperm | vcomp | viota | vsel | vext | vins =>
    change decodeVPerm w = _
    simp [decodeVPerm, thirdOf_eq_some_iff, ← h]
  case vredsumS | vredsumF | vredmax | vredmin | vredand | vredor | vredxor | vargmax | vargmin =>
    change decodeVRed w = _
    simp [decodeVRed, ← h]
  case vbestMax | vbestMin =>
    change decodeVBest w = _
    simp [decodeVBest, ← h]
  case mand | mor | mxor | mandn | mnot | mmov | mpopc | mfirst | msetall | mclr =>
    change decodeMask w = _
    simp [decodeMask, ← h]
  case loop | loopi | setvl =>
    change decodeLoop w = _
    simp [decodeLoop, ← h]
  case tcfg | trel | tzero | topa | tops | tmv | tmvt | tmmaS | tmmaF | trecomp | tdense | trank | trdrow | twrrow |
      tsave | tload | tscale | tadd =>
    change decodeTile w = _
    simp [decodeTile, ← h]
  case vld | vlds | vldx | vldff | vst | vsts | vstx | vamoaddf =>
    change decodeVMem w = _
    simp [decodeVMem, ← h]
  case vsave | vrestore | msave | mrestore =>
    change decodeVSave w = _
    simp [decodeVSave, ← h]
  case ring =>
    change decodeRing w = _
    simp [decodeRing, ← h]
  case amoadd | amoaddf | amoand | amoor | amoxor | amomax | amomin | amomaxu | amominu | amoswap | amocas =>
    change decodeAmo w = _
    simp [decodeAmo, ← h]
  case fence | vfence | vfenceBar | barwait | barcfg =>
    change decodeFence w = _
    simp [decodeFence, ← h]
  case cmst | cmstx | cmzero =>
    change decodeCmStore w = _
    simp [decodeCmStore, ← h]
  case qdot | qfsum | qwsum | qmax | qmin | qwin | qbscore | qcount | qcust =>
    change decodeQuery w = _
    simp [decodeQuery, ← h]
  case cmmov | cmseal | cmopen =>
    change decodeCmMove w = _
    simp [decodeCmMove, ← h]
  case shpush | shwait | shdone | shcfgDrain | shstat =>
    change decodeSheaf w = _
    simp [decodeSheaf, ← h]
  case shcfg =>
    have hxb := ne_of_wf_shcfg hwf
    change decodeSheaf w = _
    simp [decodeSheaf, ← h, hxb]
  case vsend =>
    change decodeVSend w = _
    simp [decodeVSend, ← h]
  case job | jobchk =>
    change decodeJob w = _
    simp [decodeJob, ← h]

/-- Settles O1: the fields are read back, and the checks of `decode` are those of `Instr.wf`. -/
theorem decodeOfEncode : Obligations.DecodeOfEncode := by
  unfold Obligations.DecodeOfEncode
  intro i w hwf h
  rw [decode, decodeFields_of_encode hwf h rfl, Option.filter_some, if_pos hwf]

/-! ### Encoding what was decoded -/

/-- What a decoder answers for a word, if anything, has that word as its encoding. -/
def EncodesTo (w : BitVec 32) (o : Option Instr) : Prop := ∀ i, o = some i → encode i = some w

theorem encodesTo_none {w : BitVec 32} : EncodesTo w none ↔ True := by simp [EncodesTo]

theorem encodesTo_some {w : BitVec 32} {i : Instr} : EncodesTo w (some i) ↔ encode i = some w := by simp [EncodesTo]

theorem encodesTo_map_thirdOf {w : BitVec 32} {f : Third → Instr} :
    EncodesTo w ((thirdOf w).map f) ↔
      ∀ t : Third, t.bits = w.extractLsb' 21 6 → t.form = w.extractLsb' 7 2 → encode (f t) = some w := by
  simp only [EncodesTo, Option.map_eq_some_iff, thirdOf_eq_some_iff]
  exact ⟨fun h t hb hf => h (f t) ⟨t, ⟨hb, hf⟩, rfl⟩, fun h i ⟨t, ⟨hb, hf⟩, hi⟩ => hi ▸ h t hb hf⟩

/-- An answer stands under its opcode, its function code and the check of the bits that it does not use, and its operands are
fields of the word: together they are every field of its encoding. -/
theorem encodesTo_decodeFields (w : BitVec 32) : EncodesTo w (decodeFields w) := by
  unfold decodeFields decodeIntReg decodeBits decodeShift decodeFp decodeBranch decodeMaskBranch decodeLoad
    decodeStore decodeCsr decodeSystem decodeVArith decodeVUnary decodeVCmp decodeVCvt decodeVPerm decodeVRed
    decodeVBest decodeMask decodeLoop decodeTile decodeVMem decodeVSave decodeRing decodeAmo decodeFence decodeCmStore
    decodeQuery decodeCmMove decodeSheaf decodeVSend decodeJob
  -- the opcode, the function code and the reserved bits, each a hypothesis about a field
  repeat' split
  all_goals simp only [encodesTo_none, encodesTo_some, encodesTo_map_thirdOf]
  all_goals intros; refine congrArg some ?_
  -- the word against the encoding, field by field
  all_goals simp -index only [append_eq_iff_extractLsb', extractLsb'_extractLsb', Nat.reduceAdd, Nat.reduceLeDiff]
  all_goals simp_all [← BitVec.toNat_inj, -extractLsb'_toNat]

/-- Settles O2: the word is put together again from its fields, and what `decode` lets through is well formed. -/
theorem encodeOfDecode : Obligations.EncodeOfDecode := by
  unfold Obligations.EncodeOfDecode
  intro w i h
  obtain ⟨hfields, hwf⟩ := Option.filter_eq_some_iff.1 h
  exact ⟨hwf, encodesTo_decodeFields w i hfields⟩

end Sys2Proof

/-! ### A step that runs the instruction at pc (R76, R127, R128) -/

namespace Sys2Proof.Machine

theorem State.runOne_held {s u : State} {w : BitVec 32} (h : s.fetch s.cc.pc = .ok (u, w)) (hs : u.streamHeld = true)
    (hp : pushedWord w = true) : s.runOne = .next u := by
  simp [State.runOne, h, hs, hp]

/-- Settles O4: the action is the control core's next instruction; a pushed word is held back, and any other is run. -/
theorem stepRunsDecodedInstruction : Obligations.StepRunsDecodedInstruction := by
  unfold Obligations.StepRunsDecodedInstruction
  intro s u w i hag hdue hq hb hrun hf hm hfetch
  have hact : s.act = s.runOne := State.act_runOne hag hdue hq hb hrun hf hm
  refine ⟨fun hs hp => step_of_act (hact.trans (State.runOne_held hfetch hs hp)), fun hgoes hd => ?_⟩
  have hheld : (u.streamHeld && pushedWord w) = false := Bool.and_eq_false_iff.2 hgoes
  rw [step, hact]
  cases hexec : exec i u <;> simp [State.runOne, hfetch, hheld, hd, hexec]

end Sys2Proof.Machine
end

section
/-! Rounding a magnitude (R101), and scalar floating point (R135 to R138). -/

namespace Sys2Proof.Machine

/-! ### Rounding a magnitude (R101) -/

/-- The quotient of a magnitude, one more where the mode rounds up: what `roundMag` answers (`roundMag_add`). -/
def divRound (mode : BitVec 3) (neg : Bool) (m d : Nat) : Nat :=
  m / d + (roundsUp mode neg (m / d) (decide (d < 2 * (m % d))) (decide (2 * (m % d) = d)) (m % d != 0)).toNat

/-- What is a multiple already stands in every mode. -/
theorem roundsUp_exact (mode : BitVec 3) (neg : Bool) (n : Nat) : roundsUp mode neg n false false false = false := by
  unfold roundsUp
  split <;> rfl

theorem roundMag_add (mode : BitVec 3) (neg : Bool) (m k : Nat) (e : Int) :
    roundMag mode neg m e (e + k) = (divRound mode neg m (2 ^ k), m % 2 ^ k != 0) := by
  unfold roundMag divRound
  rcases Nat.eq_zero_or_pos k with rfl | hk
  · simp [Nat.mod_one, roundsUp_exact]
  · rw [if_neg (by omega), add_sub_cancel_left, Int.toNat_natCast]
    dsimp only
    cases roundsUp .. <;> rfl

/-- A quotient rounded up is one more than the quotient, unless the division is exact. -/
theorem ceil_div_eq {d : Nat} (hd : 0 < d) (m : Nat) : (m + d - 1) / d = m / d + (m % d != 0).toNat := by
  have hm := Nat.div_add_mod m d
  have hr := Nat.mod_lt m hd
  rcases Nat.eq_zero_or_pos (m % d) with h | h
  · have hsum : m + d - 1 = d * (m / d) + (d - 1) := by omega
    rw [hsum, Nat.mul_add_div hd, Nat.div_eq_of_lt (Nat.sub_one_lt_of_lt hd), h]
    rfl
  · have hsum : m + d - 1 = d * (m / d + 1) + (m % d - 1) := by rw [Nat.mul_add]; omega
    rw [hsum, Nat.mul_add_div hd, Nat.div_eq_of_lt (a := m % d - 1) (by omega), bne_iff_ne.2 h.ne']
    rfl

theorem divRound_towardZero (neg : Bool) (m d : Nat) : divRound 1 neg m d = m / d := rfl

/-- RDN rounds the magnitude of a negative number up, and RUP that of a positive one. -/
theorem divRound_down {d : Nat} (hd : 0 < d) (neg : Bool) (m : Nat) :
    divRound 2 neg m d = if neg then (m + d - 1) / d else m / d := by
  cases neg <;> simp [divRound, roundsUp, ceil_div_eq hd]

theorem divRound_up {d : Nat} (hd : 0 < d) (neg : Bool) (m : Nat) :
    divRound 3 neg m d = if neg then m / d else (m + d - 1) / d := by
  cases neg <;> simp [divRound, roundsUp, ceil_div_eq hd]

/-- To the nearest: the chosen multiple lies within half a unit, and is even in a tie. -/
theorem divRound_nearest {d : Nat} (hd : 0 < d) (neg : Bool) (m : Nat) :
    2 * (divRound 0 neg m d * d) ≤ 2 * m + d ∧ 2 * m ≤ 2 * (divRound 0 neg m d * d) + d ∧
      (2 * (m % d) = d → divRound 0 neg m d % 2 = 0) := by
  have hm := Nat.div_add_mod' m d
  have hr := Nat.mod_lt m hd
  simp only [divRound, roundsUp]
  generalize m / d = q at *
  generalize m % d = r at *
  rcases Nat.lt_trichotomy (2 * r) d with h | h | h
  · simp [Nat.lt_asymm h, h.ne]; omega
  · rcases Nat.mod_two_eq_zero_or_one q with hq | hq
    · simp [h, hq]; omega
    · simp [h, hq, Nat.add_mul]; omega
  · simp [h, h.ne', Nat.add_mul]; omega

/-- Settles O17: what is rounded to a multiple of 2^(e + k) is the quotient by 2^k, and `divRound` is known in each mode. -/
theorem roundingModes : Obligations.RoundingModes := by
  unfold Obligations.RoundingModes
  intro neg m k e
  have hd : 0 < 2 ^ k := Nat.two_pow_pos k
  obtain ⟨hle, hge, htie⟩ := divRound_nearest hd neg m
  simp only [roundMag_add]
  exact ⟨divRound_towardZero neg m _, divRound_down hd neg m, divRound_up hd neg m, hle, hge, htie, fun _ => bne_iff_ne⟩

/-! ### The write of a floating-point result (R127, R135) -/

/-- What `fpWrite` leaves: its result in xd, its flags, and nothing else. -/
structure WritesFp (s t : State) (xd : XReg) (r : Nat × Flags) : Prop where
  retires : Retires s t (s.cc.pc + 4)
  frame : FrameF s t xd
  result : t.getX xd = if xd = 0 then 0 else .ofNat 64 r.1
  flags : FlagsSet s t r.2

theorem writesFp (s : State) (xd : XReg) (r : Nat × Flags) :
    WritesFp s ((s.setX xd (.ofNat 64 r.1)).orFlags r.2).retire xd r where
  retires := retires_retire (by simp) (by simp)
  frame :=
    { only := by
        simp only [State.retire, State.retireTo, State.orFlags, State.modCc, State.setX, ControlCore.setX]
        split <;> rfl
      regs := fun n hn => (State.getX_setX s xd n _).trans (if_neg fun q => hn q.1)
      bytes := fun _ => rfl }
  result := by
    have hx : (s.setX xd (.ofNat 64 r.1)).getX xd = _ := State.getX_setX s xd xd _
    rw [State.retire_eq, State.retireTo_getX, State.orFlags_getX, hx]
    rcases eq_or_ne xd 0 with rfl | h
    · rfl
    · rw [if_pos ⟨rfl, h⟩, if_neg h]
  flags := by simp [FlagsSet, State.retire_eq]

/-- The instructions of R136 and R138 round their exact result once. -/
theorem exec_floatExact {i : Instr} {s : State} {xd : XReg} {p : BitVec 1} {rm : BitVec 3} {e : Val × Flags}
    (h : floatExact i s = some (xd, p, rm, e)) : exec i s = s.fpDeliver p rm xd e := by
  unfold floatExact at h
  split at h <;> cases h <;> rfl

theorem Val.isSig_of_not_nan {v : Val} (h : v.isNan = false) : v.isSig = false := by
  cases v with
  | nan sig => cases h
  | inf neg => rfl
  | fin neg m e => rfl

/-- A comparison of R137: 0 for NaN operands, else whether the order of the two passes the test. -/
theorem fpCompare_eq (quiet : Bool) (test : Ordering → Bool) (a b : Val) :
    fpCompare quiet test a b =
      (if (a.isNan || b.isNan) = false ∧ test (cmpVal a b) = true then 1 else 0,
        flagIf (if quiet then a.isSig || b.isSig else a.isNan || b.isNan) fNV) := by
  unfold fpCompare
  cases hn : a.isNan || b.isNan
  · obtain ⟨ha, hb⟩ := Bool.or_eq_false_iff.1 hn
    simp [Val.isSig_of_not_nan ha, Val.isSig_of_not_nan hb, flagIf]
  · cases quiet <;> simp

/-- The comparisons, FMIN, FMAX and FCVTFI write what their rule gives them. -/
theorem exec_floatPlain {i : Instr} {s : State} {xd : XReg} {r : Nat × Flags} (h : floatPlain i s = some (xd, r)) :
    exec i s = s.fpWrite xd r := by
  unfold floatPlain at h
  split at h <;> cases h
  case h_1 | h_2 | h_3 => simp [execFeq, execFlt, execFle, fpCompare_eq]
  all_goals rfl

/-- Settles O16: the instruction ends in the write of its rounded result, or of the one that its rule gives outright. -/
theorem scalarFloat : Obligations.ScalarFloat := by
  unfold Obligations.ScalarFloat
  refine ⟨fun i s xd p rm e h => ?_, fun i s xd r f h => ?_⟩
  · obtain ⟨hret, hframe, hres, hflags⟩ :=
      writesFp s xd (((fmtP p).round (s.mode rm) e.1).1, e.2 ||| ((fmtP p).round (s.mode rm) e.1).2)
    exact ⟨_, exec_floatExact h, hret, hframe, hres, hflags⟩
  · obtain ⟨hret, hframe, hres, hflags⟩ := writesFp s xd (r, f)
    exact ⟨_, exec_floatPlain h, hret, hframe, hres, hflags⟩

end Sys2Proof.Machine
end

section
/-! CSRR, CSRW, CSRS and CSRC (R121, R144): the checks of an access in their order, and what the registers read after a write. -/

namespace Sys2Proof.Machine

/-! ### The access (R121, R374) -/

section
variable {s : State} {i : Instr} {n : BitVec 12} {old : Word}

theorem csrAccess_unassigned (h : s.csr n = none) : csrAccess s i n = illegal s i := by
  rw [csrAccess, h]

theorem csrAccess_lowLevel (h : s.csr n = some old) (hn : 0x100 ≤ n.toNat) (hl : s.cc.level = .user) :
    csrAccess s i n = illegal s i := by
  rw [csrAccess, h]
  exact if_pos ⟨hn, hl⟩

theorem csrAccess_firstUse (h : s.csr n = some old) (hl : 0x100 ≤ n.toNat → s.cc.level ≠ .user)
    (hv : csrVector n = true) (hoff : s.cc.ven = false) : csrAccess s i n = .error (.trap s { cause := cVector }) := by
  rw [csrAccess, h]
  dsimp only
  rw [if_neg fun hlow => hl hlow.1 hlow.2, if_pos (by simp [hv, hoff])]

theorem csrAccess_ok (h : s.csr n = some old) (hl : 0x100 ≤ n.toNat → s.cc.level ≠ .user)
    (hv : csrVector n = true → s.cc.ven = true) : csrAccess s i n = .ok old := by
  rw [csrAccess, h]
  dsimp only
  rw [if_neg fun hlow => hl hlow.1 hlow.2, if_neg (by simpa using hv)]

end

/-! ### The write (R121, R144) -/

/-- What an admitted access does with the new value that the instruction forms, if it forms one. -/
def csrEnd (s : State) (i : Instr) (xd : XReg) (n : BitVec 12) (old : Word) : Option Word → Except Stop State
  | none => .ok (s.setX xd old).retire
  | some new =>
    if csrIgnored n then .ok (s.setX xd old).retire
    else if !csrWritable s n || !csrValueOk n new then illegal s i
    else .ok ((s.csrPut n new).setX xd old).retire

theorem csrWrite_eq (s : State) (i : Instr) (xd : XReg) (n : BitVec 12) (reads : Bool) (new : Word → Word) :
    csrWrite s i xd n reads new =
      csrAccess s i n >>= fun old => csrEnd s i xd n old (if reads then none else some (new old)) := by
  unfold csrWrite
  cases reads <;> rfl

/-- The four instructions are one access, and the end that their new value gives it. -/
theorem exec_csrForm {i : Instr} {s : State} {xd : XReg} {n : BitVec 12} {f : Word → Option Word}
    (h : csrForm i s = some (xd, n, f)) :
    exec i s = finish (csrAccess s i n >>= fun old => csrEnd s i xd n old (f old)) := by
  unfold csrForm at h
  split at h <;> cases h
  case h_1 => rfl
  case h_2 => exact congrArg finish (csrWrite_eq ..)
  case h_3 | h_4 => simp [execCsrs, execCsrc, csrWrite_eq]

section
variable {s : State} {i : Instr} {xd : XReg} {n : BitVec 12} {old new : Word}

theorem csrEnd_ignored (h : csrIgnored n = true) (new : Option Word) :
    csrEnd s i xd n old new = .ok (s.setX xd old).retire := by
  cases new with
  | none => rfl
  | some v => exact if_pos h

theorem csrEnd_refused (hi : csrIgnored n = false)
    (h : csrHardware n = true ∨ (n = 0 ∧ s.cc.level = .user) ∨ csrValueOk n new = false) :
    csrEnd s i xd n old (some new) = illegal s i := by
  have hno : (!csrWritable s n || !csrValueOk n new) = true := by
    rcases h with h | ⟨rfl, h⟩ | h <;> simp [csrWritable, h]
  rw [csrEnd, hi, hno]
  rfl

theorem csrEnd_write (hi : csrIgnored n = false) (hh : csrHardware n = false) (hl : n = 0 → s.cc.level ≠ .user)
    (hv : csrValueOk n new = true) :
    csrEnd s i xd n old (some new) = .ok ((s.csrPut n new).setX xd old).retire := by
  have hok : (!csrWritable s n || !csrValueOk n new) = false := by
    simpa [csrWritable, hh, hv] using hl
  rw [csrEnd, hi, hok]
  rfl

end

/-! ### The registers after a write -/

theorem State.csrPut_pc (s : State) (n : BitVec 12) (v : Word) : (s.csrPut n v).cc.pc = s.cc.pc := by
  unfold State.csrPut
  dsimp only
  split <;> rfl

theorem State.csrPut_retired (s : State) (n : BitVec 12) (v : Word) : (s.csrPut n v).cc.retired = s.cc.retired := by
  unfold State.csrPut
  dsimp only
  split <;> rfl

/-- No scalar register is a control and status register. -/
theorem State.csr_setX (s : State) (xd : XReg) (v : Word) (n : BitVec 12) : (s.setX xd v).csr n = s.csr n := by
  simp only [State.setX, ControlCore.setX]
  split <;> rfl

/-- A retirement moves RETIRED and STRIP, which no write reaches. -/
theorem State.csr_retire (s : State) {n : BitVec 12} (hi : csrIgnored n = false) (hh : csrHardware n = false) :
    s.retire.csr n = s.csr n := by
  have hstrip : n.toNat ≠ 0x007 := fun e => by
    rw [BitVec.eq_of_toNat_eq (y := 0x007#12) e] at hh
    exact absurd hh (by decide)
  have hretired : n.toNat ≠ 0x011 := fun e => by
    rw [BitVec.eq_of_toNat_eq (y := 0x011#12) e] at hi
    exact absurd hi (by decide)
  unfold State.csr
  dsimp only
  split
  case h_8 he => exact absurd he hstrip
  case h_16 he => exact absurd he hretired
  all_goals rfl

theorem eq_ofNat_of_toNat {w : Nat} {n : BitVec w} {k : Nat} (h : n.toNat = k) : n = BitVec.ofNat w k := by
  rw [← h, BitVec.ofNat_toNat, BitVec.setWidth_eq]

/-- A register narrower than 64 bits holds every word whose upper bits are zero. -/
theorem setWidth_setWidth_of_lt {w : Nat} {v : Word} (h : v.toNat < 2 ^ w) : (v.setWidth w).setWidth 64 = v := by
  apply BitVec.eq_of_toNat_eq
  simp only [BitVec.toNat_setWidth, Nat.mod_eq_of_lt h, Nat.mod_eq_of_lt v.isLt]

/-- A register reads the value that is allowed and was written last; UISTATUS keeps its bit 1. -/
theorem State.csr_csrPut {s : State} {n : BitVec 12} {old new : Word} (h : s.csr n = some old) (hi : csrIgnored n = false)
    (hh : csrHardware n = false) (hv : csrValueOk n new = true) (hn : n ≠ 0x00D) : (s.csrPut n new).csr n = some new := by
  unfold State.csr at h
  dsimp only at h
  split at h
  case h_35 => exact absurd h nofun
  all_goals
    rename_i hk
    obtain rfl := eq_ofNat_of_toNat hk
  -- STRIP, LGSHAPE, UICAUSE, CTXID and RCBPTR; then CYCLE, RETIRED, CAPS and OUTCNT; then UISTATUS
  case h_8 | h_9 | h_12 | h_17 | h_31 => exact absurd hh (by decide)
  case h_15 | h_16 | h_18 | h_19 => exact absurd hi (by decide)
  case h_14 => exact absurd rfl hn
  -- HEDDLE stands in the core
  case h_34 =>
    change some (((s.modCore _ _).coreAt (coreOf s.cc.ctxid)).heddle.setWidth 64) = _
    rw [State.coreAt_modCore, if_pos rfl]
    exact congrArg some (setWidth_setWidth_of_lt (of_decide_eq_true hv))
  -- the registers of 64 bits; then the narrower ones, whose check bounds the value
  case h_3 | h_11 | h_13 | h_20 | h_22 | h_23 | h_26 | h_27 | h_32 | h_33 => rfl
  all_goals
    have hbound := of_decide_eq_true hv
    refine congrArg some (setWidth_setWidth_of_lt ?_)
    omega

/-! ### The old value in xd (R144) -/

/-- What the end of an instruction leaves that gives xd a value and has changed no other part of a state `u`. -/
theorem setX_retire_out {s u : State} (xd : XReg) (old : Word) (hpc : u.cc.pc = s.cc.pc) (hret : u.cc.retired = s.cc.retired) :
    let t := (u.setX xd old).retire
    Retires s t (s.cc.pc + 4) ∧ FrameX u t xd ∧ t.getX xd = if xd = 0 then 0 else old := by
  refine ⟨retires_retire (by simp [hpc]) (by simp [hret]), frameX_setX u xd old _, ?_⟩
  have hx : (u.setX xd old).retire.getX xd = _ := State.getX_setX u xd xd old
  rw [hx]
  rcases eq_or_ne xd 0 with rfl | hne
  · rfl
  · rw [if_pos ⟨rfl, hne⟩, if_neg hne]

/-- Settles O22: every form is one access and the end of `csrEnd`, whose checks stand in the order of R121. -/
theorem controlRegisters : Obligations.ControlRegisters := by
  unfold Obligations.ControlRegisters
  refine ⟨fun i s d n f old hform hcsr hlevel hven => ⟨fun hread => ?reads, fun new hf hi hh hvl hv => ?writes⟩,
    fun i s d n f hform => ⟨fun hcsr => ?unassigned, fun old hcsr =>
      ⟨fun hn hl => ?lowLevel, fun hlevel => ⟨fun hvec hoff => ?firstUse,
        fun hven hi new hf hbad => ?refused⟩⟩⟩⟩
  all_goals rw [exec_csrForm hform]
  case reads =>
    have hend : csrEnd s i d n old (f old) = .ok (s.setX d old).retire := by
      rcases hread with hnone | hn
      · rw [hnone]; rfl
      · exact csrEnd_ignored (by rcases hn with rfl | rfl | rfl | rfl <;> rfl) _
    rw [csrAccess_ok hcsr hlevel hven, except_bind_ok, hend]
    exact ⟨_, rfl, setX_retire_out d old rfl rfl⟩
  case writes =>
    rw [csrAccess_ok hcsr hlevel hven, except_bind_ok, hf, csrEnd_write hi hh hvl hv, finish_ok]
    obtain ⟨hret, hframe, hx⟩ := setX_retire_out d old (s.csrPut_pc n new) (s.csrPut_retired n new)
    refine ⟨_, rfl, hret, hframe, hx, fun hn => ?_⟩
    rw [State.csr_retire _ hi hh, State.csr_setX, State.csr_csrPut hcsr hi hh hv hn]
  case unassigned => rw [csrAccess_unassigned hcsr]; rfl
  case lowLevel => rw [csrAccess_lowLevel hcsr hn hl]; rfl
  case firstUse => rw [csrAccess_firstUse hcsr hlevel hvec hoff]; rfl
  case refused => rw [csrAccess_ok hcsr hlevel hven, except_bind_ok, hf, csrEnd_refused hi hbad]; rfl

end Sys2Proof.Machine
end

section
/-! The instructions of major opcode 0x20 (R163 to R165): past the checks of R157 each is one element function over the
active elements, and that function is the one that the rules give. -/

namespace Sys2Proof.Machine

/-! ### Tags of class INT (R97, R98, R156) -/

theorem isFlt_of_isInt : ∀ t : Tag, isInt t = true → isFlt t = false := by decide
theorem ne_E8M0_of_isInt : ∀ t : Tag, isInt t = true → (t == tE8M0) = false := by decide
theorem isSub_of_isInt : ∀ t : Tag, isInt t = true → isSub t = false := by decide
theorem intBits_of_isInt : ∀ t : Tag, isInt t = true → intBits t = tagWidth t := by decide

section
variable {t : Tag} (ht : isInt t = true)
include ht

/-- An integer that is the immediate is formed without a flag. -/
theorem thirdFlags_of_isInt (mode : BitVec 3) (b : Third) : thirdFlags mode t b = 0 := by
  cases b with
  | vi imm => simp [thirdFlags, isFlt_of_isInt t ht, ne_E8M0_of_isInt t ht]
  | vv vb => rfl
  | vx xb => rfl

theorem bitsOf_of_isInt (data : BitVec 8192) (i : Nat) : bitsOf data t i = slotOf data t i := by
  simp [bitsOf, isSub_of_isInt t ht]

/-- An integer element is its raw bits read under its tag. -/
theorem intAt_of_isInt (data : BitVec 8192) (i : Nat) :
    intAt data t i = intOf (isSigned t) (tagWidth t) (bitsOf data t i) := by
  have hlt : slotOf data t i < 2 ^ tagWidth t := Nat.mod_lt _ (Nat.two_pow_pos _)
  rw [intAt, intBits_of_isInt t ht, bitsOf_of_isInt ht, Nat.mod_eq_of_lt hlt]

end

/-- An element's value is that of its raw bits: a sub-byte slot counts by its low four bits in both. -/
theorem decodeElem_bitsOf (data : BitVec 8192) (t : Tag) (i : Nat) : decodeElem t (bitsOf data t i) = valOf data t i := by
  unfold valOf bitsOf
  split
  next hsub =>
    unfold decodeElem
    rcases (by simpa [isSub] using hsub : t = tE2M1 ∨ t = tI4) with rfl | rfl
    · exact congrArg (fmtOf tE2M1).decode (Nat.mod_mod _ 16)
    · exact congrArg (fun n => Val.ofInt (intOf (isSigned tI4) (intBits tI4) n)) (Nat.mod_mod _ 16)
  next => rfl

theorem intElem_natCast (t : Tag) (n : Nat) : intElem t (n : Int) = (n % 2 ^ tagWidth t, 0) := by
  simp only [intElem, wrapBits]
  norm_cast

/-! ### The shared forms -/

/-- Past the checks of R157 an instruction that is ready goes on. -/
theorem VecReady.checks_ok {s : State} {p : VecSpec} (h : VecReady s p) {α : Type} (a b d : Tag) (k : Unit → Except Stop α) :
    (pushGuard s [vCode p.vd] >>= fun _ => tagCheck p.tagsOk s a b d >>= fun _ => lenCheck s p.lens >>= k) = k () := by
  rw [h.guard, tagCheck_ok h.tags, lenCheck_ok h.lens]
  rfl

section
variable {s : State} {vd va : VReg} {b : Third} {ok ok' : Tag → Bool} {imm : Bool} {f F : Tag → Nat → Nat × Flags}

theorem vecChecks_ok (hr : VecReady s (s.vecThree vd va b ok imm f)) (hok : ∀ t, ok' t = ok t) :
    vecChecks s vd va b ok' = .ok (s.getV va).tag := by
  obtain rfl : ok' = ok := funext hok
  exact hr.checks_ok _ _ _ _

theorem VecReady.tag_ok (hr : VecReady s (s.vecThree vd va b ok imm f)) : ok (s.getV va).tag = true :=
  (Bool.and_eq_true_iff.1 hr.tags).1

/-- An instruction of three operands of one tag computes its active elements; the flags of an immediate join them. -/
theorem vecThree_out (hr : VecReady s (s.vecThree vd va b ok imm f)) (hok : ∀ t, ok' t = ok t)
    (himm : imm = false → ∀ t, ok t = true → isInt t = true) (hf : ∀ t k, ok t = true → F t k = f t k) :
    ∃ u, finish (vecChecks s vd va b ok' >>= fun t => .ok (s.joinImm b t (s.elemwise vd t (F t)))) = .next u ∧
      VecOut s u (s.vecThree vd va b ok imm f) := by
  refine ⟨_, by rw [vecChecks_ok hr hok, except_bind_ok, finish_ok], ?_⟩
  have hflags : (if imm then thirdFlags s.cc.rm (s.getV va).tag b else 0) = thirdFlags s.cc.rm (s.getV va).tag b := by
    cases imm with
    | true => rfl
    | false => exact (thirdFlags_of_isInt (himm rfl _ hr.tag_ok) ..).symm
  have hF : F (s.getV va).tag = f (s.getV va).tag := funext fun k => hf _ k hr.tag_ok
  rw [hF, State.vecThree, hflags]
  exact elemwise_imm_out hr.whole vd _ _ _ b _ _ hr.vd

/-- The same of an instruction on integers that forms no immediate in a rounding. -/
theorem vecBits_out {g : Tag → Nat → Nat → Nat} {third : Tag → Nat → Nat}
    (hr : VecReady s (s.vecThree vd va b isInt false f))
    (hf : ∀ t k, isInt t = true → (g t (bitsOf (s.getV va).data t k) (third t k), 0) = f t k) :
    ∃ u, s.vecBits vd va b g third = .next u ∧ VecOut s u (s.vecThree vd va b isInt false f) := by
  refine ⟨_, by rw [State.vecBits, vecChecks_ok hr fun _ => rfl, except_bind_ok, except_pure, finish_ok], ?_⟩
  rw [funext fun k => hf _ k hr.tag_ok]
  exact elemwise_out hr.whole vd _ _ _ _ hr.vd

end

section
variable {s : State} {vd va : VReg} {b : Third} {fi : Tag → Int → Int → Int}

/-- An instruction on integers and on floating point: the integer wrapped, or the exact result rounded once. -/
theorem vecBinary_out {ff : BitVec 3 → Val → Val → Val × Flags} {f : Tag → Nat → Nat × Flags}
    (hf : f = fun t k => if isInt t then intElem t (fi t (intAt (s.getV va).data t k) (thirdInt s s.cc.rm t b k))
      else fltElem t s.cc.rm (ff s.cc.rm (valOf (s.getV va).data t k) (thirdVal s s.cc.rm t b k)))
    (hr : VecReady s (s.vecThree vd va b (fun t => isInt t || isFlt t) true f)) :
    ∃ u, s.vecBinary vd va b fi (some ff) = .next u ∧ VecOut s u (s.vecThree vd va b (fun t => isInt t || isFlt t) true f) := by
  refine vecThree_out hr (by simp) nofun fun t k _ => ?_
  rw [hf]
  dsimp only
  cases ht : isInt t <;> rfl

/-- An instruction on integers alone. -/
theorem vecBinary_int_out
    (hr : VecReady s (s.vecThree vd va b isInt false fun t k =>
      intElem t (fi t (intAt (s.getV va).data t k) (thirdInt s s.cc.rm t b k)))) :
    ∃ u, s.vecBinary vd va b fi none = .next u ∧ VecOut s u (s.vecThree vd va b isInt false fun t k =>
      intElem t (fi t (intAt (s.getV va).data t k) (thirdInt s s.cc.rm t b k))) := by
  refine vecThree_out hr (by simp) (fun _ _ ht => ht) fun t k ht => ?_
  rw [ht]
  rfl

end

/-! ### Minimum and maximum (R137, R163) -/

section
variable {s : State} {vd va : VReg} {b : Third} {f : Tag → Nat → Nat × Flags}

/-- VMIN and VMAX take the bits of one operand: that which `pickElem` picks, and of integers the lesser or the greater. -/
theorem vecMinMax_out (max : Bool)
    (hint : ∀ t k, isInt t = true → f t k =
      (if intAt (s.getV va).data t k < thirdInt s s.cc.rm t b k
        then if max then thirdBits s s.cc.rm t b k else bitsOf (s.getV va).data t k
        else if max then bitsOf (s.getV va).data t k else thirdBits s s.cc.rm t b k, 0))
    (hflt : ∀ t k, isInt t = false →
      f t k = pickElem t max (bitsOf (s.getV va).data t k) (thirdBits s s.cc.rm t b k))
    (hr : VecReady s (s.vecThree vd va b (fun t => isInt t || isFlt t) true f)) :
    ∃ u, s.vecMinMax max vd va b = .next u ∧ VecOut s u (s.vecThree vd va b (fun t => isInt t || isFlt t) true f) := by
  refine vecThree_out hr (fun _ => rfl) nofun fun t k _ => ?_
  cases ht : isInt t with
  | true =>
    rw [hint t k ht]
    by_cases hlt : intAt (s.getV va).data t k < thirdInt s s.cc.rm t b k <;> cases max <;> simp [hlt]
  | false => rw [hflt t k ht, pickElem, ht, decodeElem_bitsOf]; rfl

end

/-! ### Multiply-accumulate (R109, R112, R165) -/

section
variable {s : State} {vd va : VReg} {b : Third}

/-- VMAC adds the product to the accumulator and VNMAC takes it away. -/
theorem vecMac_out (sub : Bool) (hr : VecReady s (s.macSpec vd va b (if sub then -1 else 1))) :
    ∃ u, s.vecMac vd va b sub = .next u ∧ VecOut s u (s.macSpec vd va b (if sub then -1 else 1)) := by
  refine ⟨_, congrArg finish (hr.checks_ok _ _ _ _), ?_⟩
  have h (f : Nat → Nat × Flags) := elemwise_imm_out hr.whole vd (s.getV vd).tag
    (macTags (s.getV va).tag (s.getV vd).tag && thirdTagIs s (s.getV va).tag b) [(s.getV va).tag, (s.getV vd).tag]
    b (s.getV va).tag f hr.vd
  cases sub <;> simpa [State.macSpec, settle] using h _

theorem execVdot4_out {vb : VReg} {p : VecSpec} (h : vecArith (.vdot4 vd va vb) s = some p) (hr : VecReady s p) :
    ∃ u, execVdot4 vd va vb s = .next u ∧ VecOut s u p := by
  obtain rfl := Option.some.inj h
  exact ⟨_, congrArg finish (hr.checks_ok _ _ _ _), elemwise_out hr.whole vd _ _ _ _ hr.vd⟩

end

/-- Settles O29: each instruction is one of the shared forms, whose outcomes are known, with the element function of its
rule. -/
theorem vectorArithmetic : Obligations.VectorArithmetic := by
  unfold Obligations.VectorArithmetic
  intro i s p h hr
  unfold vecArith at h
  split at h
  case h_20 => exact absurd h nofun
  case h_19 => exact execVdot4_out h hr
  all_goals obtain rfl := Option.some.inj h
  -- VADD, VSUB, VMUL, VDIV and VMULH
  case h_1 => exact vecBinary_out (fi := fun _ x y => x + y) (ff := addExact) rfl hr
  case h_2 => exact vecBinary_out (fi := fun _ x y => x - y) (ff := fun m x y => addExact m x y.neg) rfl hr
  case h_3 => exact vecBinary_out (fi := fun _ x y => x * y) (ff := fun _ => mulExact) rfl hr
  case h_4 => exact vecBinary_out (fi := fun _ => divElem) (ff := fun _ => divExact) rfl hr
  case h_5 => exact vecBinary_int_out (fi := fun t x y => x * y / (2 ^ tagWidth t : Nat)) hr
  -- VMIN and VMAX
  case h_6 => exact vecMinMax_out false (fun t k ht => by simp [ht]) (fun t k ht => by simp [ht]) hr
  case h_7 => exact vecMinMax_out true (fun t k ht => by simp [ht]) (fun t k ht => by simp [ht]) hr
  -- VAND, VOR, VXOR and VSRL; then VSLL and VSRA
  case h_8 | h_9 | h_10 | h_12 => exact vecBits_out hr fun _ _ _ => rfl
  case h_11 =>
    exact vecBits_out (g := fun t x y => x * 2 ^ (y % tagWidth t) % 2 ^ tagWidth t) hr fun t _ _ => by rw [intElem_natCast]
  case h_13 =>
    exact vecBits_out
      (g := fun t x y => wrapBits (tagWidth t) (intOf (isSigned t) (tagWidth t) x / (2 ^ (y % tagWidth t) : Nat)))
      hr fun t _ ht => by simp only [intAt_of_isInt ht, intElem]
  -- VADDS, VSUBS and VABSD
  case h_14 => exact vecBinary_int_out (fi := fun t x y => satTo t (x + y)) hr
  case h_15 => exact vecBinary_int_out (fi := fun t x y => satTo t (x - y)) hr
  case h_16 =>
    exact vecBinary_out (fi := fun t x y => satTo t (x - y).natAbs)
      (ff := fun m x y => ((addExact m x y.neg).1.abs, (addExact m x y.neg).2)) rfl hr
  -- VMAC and VNMAC
  case h_17 => exact vecMac_out false hr
  case h_18 => exact vecMac_out true hr

end Sys2Proof.Machine
end

section
/-! The integer instructions (R129, R130, R132 to R134): operations on words as arithmetic on the numbers that they hold, and the
value that each instruction writes. -/

namespace Sys2Proof.Machine

/-! ### Words as numbers -/

section
variable {w : Nat}

theorem ofInt_toInt_sub (a b : BitVec w) : BitVec.ofInt w (a.toInt - b.toInt) = a - b := by
  rw [Int.sub_eq_add_neg, BitVec.ofInt_add, BitVec.ofInt_neg, BitVec.ofInt_toInt, BitVec.ofInt_toInt, BitVec.sub_eq_add_neg]

theorem ofInt_toInt_mul (a b : BitVec w) : BitVec.ofInt w (a.toInt * b.toInt) = a * b := by
  rw [BitVec.ofInt_mul, BitVec.ofInt_toInt, BitVec.ofInt_toInt]

theorem add_ofInt (a : BitVec w) (z : Int) : a + BitVec.ofInt w z = BitVec.ofInt w (a.toInt + z) := by
  rw [BitVec.ofInt_add, BitVec.ofInt_toInt]

/-- A shift to the left multiplies, of naturals and of integers. -/
theorem shiftLeft_eq_ofNat (a : BitVec w) (k : Nat) : a <<< k = BitVec.ofNat w (a.toNat * 2 ^ k) := by
  apply BitVec.eq_of_toNat_eq
  simp [Nat.shiftLeft_eq]

theorem ofInt_shiftLeft (z : Int) (k : Nat) : BitVec.ofInt w z <<< k = BitVec.ofInt w (z * 2 ^ k) := by
  have hpow : BitVec.ofInt w (2 ^ k) = BitVec.twoPow w k := by
    rw [← Nat.cast_ofNat, ← Nat.cast_pow, BitVec.ofInt_natCast]
    exact BitVec.eq_of_toNat_eq (by rw [BitVec.toNat_ofNat, BitVec.toNat_twoPow])
  rw [BitVec.shiftLeft_eq_mul_twoPow, BitVec.ofInt_mul, hpow]

/-- A shift to the right divides, of naturals and of integers. -/
theorem ushiftRight_eq_ofNat (a : BitVec w) (k : Nat) : a >>> k = BitVec.ofNat w (a.toNat / 2 ^ k) := by
  rw [← Nat.shiftRight_eq_div_pow, ← BitVec.toNat_ushiftRight, BitVec.ofNat_toNat, BitVec.setWidth_eq]

theorem sshiftRight_eq_ofInt (a : BitVec w) (k : Nat) : a.sshiftRight k = BitVec.ofInt w (a.toInt / 2 ^ k) := by
  rw [BitVec.sshiftRight_eq, Int.shiftRight_eq_div_pow, Nat.cast_pow, Nat.cast_ofNat]

/-- Shifted to the top and back, only the low bits are left, with zeros or the highest of them above (R133). -/
theorem shiftLeft_toNat_top (a : BitVec w) {n k : Nat} (hw : w = n + k) :
    (a <<< k).toNat = a.toNat % 2 ^ n * 2 ^ k := by
  have hpow : 2 ^ w = 2 ^ n * 2 ^ k := by rw [hw, Nat.pow_add]
  rw [BitVec.toNat_shiftLeft, Nat.shiftLeft_eq, hpow, Nat.mul_mod_mul_right]

theorem shiftLeft_ushiftRight (a : BitVec w) {n k : Nat} (hw : w = n + k) :
    (a <<< k) >>> k = BitVec.ofNat w (a.toNat % 2 ^ n) := by
  rw [ushiftRight_eq_ofNat, shiftLeft_toNat_top a hw, Nat.mul_div_cancel _ (Nat.two_pow_pos k)]

theorem shiftLeft_toInt_top (a : BitVec w) {n k : Nat} (hw : w = n + 1 + k) :
    (a <<< k).toInt = intOf true (n + 1) (a.toNat % 2 ^ (n + 1)) * 2 ^ k := by
  have hpow : 2 ^ w = 2 ^ (n + 1) * 2 ^ k := by rw [hw, Nat.pow_add]
  have hlt : 2 * (a.toNat % 2 ^ (n + 1) * 2 ^ k) < 2 ^ w ↔ ¬ 2 ^ n ≤ a.toNat % 2 ^ (n + 1) := by
    rw [hpow, Nat.pow_succ', Nat.mul_assoc, Nat.mul_lt_mul_left Nat.two_pos, Nat.mul_lt_mul_right (Nat.two_pow_pos k), not_le]
  rw [BitVec.toInt_eq_toNat_cond, shiftLeft_toNat_top a hw, intOf, Bool.true_and, Nat.add_sub_cancel]
  by_cases h : 2 ^ n ≤ a.toNat % 2 ^ (n + 1)
  · rw [if_neg fun q => hlt.1 q h, if_pos (decide_eq_true h), hpow]
    push_cast
    ring
  · rw [if_pos (hlt.2 h), if_neg (by simpa using h)]
    push_cast
    rfl

theorem shiftLeft_sshiftRight (a : BitVec w) {n k : Nat} (hw : w = n + 1 + k) :
    (a <<< k).sshiftRight k = BitVec.ofInt w (intOf true (n + 1) (a.toNat % 2 ^ (n + 1))) := by
  rw [sshiftRight_eq_ofInt, shiftLeft_toInt_top a hw, Int.mul_ediv_cancel _ (by positivity)]

end

/-- The truth of a signed comparison in a register. -/
theorem boolWord_slt (a b : Word) : boolWord (a.slt b) = if a.toInt < b.toInt then 1 else 0 := by
  simp [boolWord, BitVec.slt_eq_decide]

theorem boolWord_ult (a b : Word) : boolWord (a.ult b) = if a.toNat < b.toNat then 1 else 0 := by
  simp [boolWord, BitVec.ult_eq_decide]

/-- The choice by a strict comparison is the choice by the order that it decides, the first of equals. -/
theorem ite_lt_eq_leastBy {f : Word → Int} {a b : Word} {lt : Bool} (h : lt = decide (f b < f a)) :
    (if lt then b else a) = leastBy f a b := by
  by_cases hlt : f b < f a
  · rw [leastBy, if_neg (not_le.2 hlt), h, if_pos (decide_eq_true hlt)]
  · rw [leastBy, if_pos (not_lt.1 hlt), h, if_neg (by simpa using hlt)]

theorem ite_lt_eq_mostBy {f : Word → Int} {a b : Word} {lt : Bool} (h : lt = decide (f a < f b)) :
    (if lt then b else a) = mostBy f a b := by
  by_cases hlt : f a < f b
  · rw [mostBy, if_neg (not_le.2 hlt), h, if_pos (decide_eq_true hlt)]
  · rw [mostBy, if_pos (not_lt.1 hlt), h, if_neg (by simpa using hlt)]

theorem ult_eq_unsignedOf (a b : Word) : a.ult b = decide (unsignedOf a < unsignedOf b) := by
  simp [BitVec.ult_eq_decide, unsignedOf]

/-! ### Division (R130) -/

theorem toInt_eq_zero_iff (b : Word) : b.toInt = 0 ↔ b = 0 := BitVec.toInt_inj (y := 0)

theorem toNat_eq_zero_iff (b : Word) : b.toNat = 0 ↔ b = 0 := BitVec.toNat_inj (y := 0)

theorem divS_zero (a : Word) : divS a 0 = 0xFFFFFFFFFFFFFFFF := rfl
theorem divU_zero (a : Word) : divU a 0 = 0xFFFFFFFFFFFFFFFF := rfl
theorem remS_zero (a : Word) : remS a 0 = a := rfl
theorem remU_zero (a : Word) : remU a 0 = a := rfl

/-- The least integer by −1: the quotient is that of R130, though 2^63 is no word. -/
theorem divS_overflow {a b : Word} (ha : a.toInt = -2 ^ 63) (hb : b.toInt = -1) : (divS a b).toInt = -2 ^ 63 := by
  have h0 : b ≠ 0 := fun h => by rw [h] at hb; exact absurd hb (by decide)
  rw [divS, if_neg h0, ha, hb]
  decide

theorem remS_overflow {a b : Word} (hb : b.toInt = -1) : remS a b = 0 := by
  have h0 : b ≠ 0 := fun h => by rw [h] at hb; exact absurd hb (by decide)
  rw [remS, if_neg h0, hb, Int.tmod_neg, Int.tmod_one]
  rfl

/-! ### Results (R129, R130, R132 to R134) -/

theorem upperImm_eq_ofInt (c : BitVec 20) : upperImm c = .ofInt 64 (c.toInt * 4096) := ofInt_shiftLeft c.toInt 12

/-- An integer instruction writes the value that its rule gives. -/
theorem exec_scalarResult {i : Instr} {s : State} {d : XReg} {v : Word} (h : scalarResult i s = some (d, v)) :
    exec i s = s.writeX d v := by
  unfold scalarResult at h
  split at h
  case h_35 => cases h
  all_goals obtain ⟨rfl, rfl⟩ := Prod.mk.inj (Option.some.inj h)
  -- ADD, MULH, MULHU, ANDI, ORI and XORI: the meaning is the rule's formula
  case h_1 | h_16 | h_17 | h_24 | h_25 | h_26 => rfl
  all_goals refine congrArg (s.writeX _) ?_
  -- SUB, MUL and ADDI
  case h_2 => exact (ofInt_toInt_sub _ _).symm
  case h_15 => exact (ofInt_toInt_mul _ _).symm
  case h_23 => exact add_ofInt _ _
  -- AND, OR and XOR
  case h_3 => rw [BitVec.ofNat_and, BitVec.ofNat_toNat, BitVec.ofNat_toNat, BitVec.setWidth_eq, BitVec.setWidth_eq]
  case h_4 => rw [BitVec.ofNat_or, BitVec.ofNat_toNat, BitVec.ofNat_toNat, BitVec.setWidth_eq, BitVec.setWidth_eq]
  case h_5 => rw [BitVec.ofNat_xor, BitVec.ofNat_toNat, BitVec.ofNat_toNat, BitVec.setWidth_eq, BitVec.setWidth_eq]
  -- the shifts, by a register and by an immediate
  case h_6 | h_28 => exact shiftLeft_eq_ofNat _ _
  case h_7 | h_29 => exact ushiftRight_eq_ofNat _ _
  case h_8 | h_30 => exact sshiftRight_eq_ofInt _ _
  -- SLT, SLTU and SLTI
  case h_9 => exact boolWord_slt _ _
  case h_10 => exact boolWord_ult _ _
  case h_27 => rw [boolWord_slt, BitVec.toInt_signExtend_of_le (by decide)]
  -- MIN, MAX, MINU and MAXU
  case h_11 => exact ite_lt_eq_leastBy BitVec.slt_eq_decide
  case h_12 => exact ite_lt_eq_mostBy BitVec.slt_eq_decide
  case h_13 => exact ite_lt_eq_leastBy (ult_eq_unsignedOf _ _)
  case h_14 => exact ite_lt_eq_mostBy (ult_eq_unsignedOf _ _)
  -- DIV, DIVU, REM and REMU
  case h_18 | h_20 => simp only [toInt_eq_zero_iff]; rfl
  case h_19 | h_21 => simp only [toNat_eq_zero_iff]; rfl
  case h_22 => exact ite_not _ _ _
  -- SEXT and ZEXT
  case h_31 => exact shiftLeft_sshiftRight _ (by omega)
  case h_32 => exact shiftLeft_ushiftRight _ (by omega)
  -- LUI and ADDPC
  case h_33 => exact upperImm_eq_ofInt _
  case h_34 => rw [upperImm_eq_ofInt, add_ofInt]

/-- The end of an instruction that writes one scalar register: it retires, and that register alone has changed. -/
theorem writeX_out (s : State) (d : XReg) (v : Word) : ∃ t, s.writeX d v = .next t ∧
    Retires s t (s.cc.pc + 4) ∧ FrameX s t d ∧ t.getX d = if d = 0 then 0 else v :=
  ⟨_, rfl, setX_retire_out d v rfl rfl⟩

/-- Settles O10: the value is that of `exec_scalarResult`, and the end of the instruction writes it. -/
theorem scalarIntegerResults : Obligations.ScalarIntegerResults := by
  unfold Obligations.ScalarIntegerResults
  intro i s d v h
  rw [exec_scalarResult h]
  exact writeX_out s d v

/-- Where the destination is not x0, the register reads the value written. -/
theorem writeX_getX (s : State) {d : XReg} (hd : d ≠ 0) (v : Word) : ∃ t, s.writeX d v = .next t ∧ t.getX d = v := by
  obtain ⟨t, hexec, -, -, hval⟩ := writeX_out s d v
  exact ⟨t, hexec, hval.trans (if_neg hd)⟩

/-- Settles O11: by a divisor of zero each result is a branch of its definition; else by `divS_overflow` and
`remS_overflow`. -/
theorem divisionBorderlines : Obligations.DivisionBorderlines := by
  unfold Obligations.DivisionBorderlines
  intro s d a b hd
  refine ⟨fun hb => ?byZero, fun ha hb => ?overflow⟩
  case byZero =>
    simp only [exec_div, exec_divu, exec_rem, exec_remu, execDiv, execDivu, execRem, execRemu, hb, divS_zero, divU_zero,
      remS_zero, remU_zero]
    exact ⟨writeX_getX s hd _, writeX_getX s hd _, writeX_getX s hd _, writeX_getX s hd _⟩
  case overflow =>
    obtain ⟨t, hquot, hval⟩ := writeX_getX s hd (divS (s.getX a) (s.getX b))
    refine ⟨⟨t, hquot, hval ▸ divS_overflow ha hb⟩, ?_⟩
    rw [exec_rem, execRem, remS_overflow hb]
    exact writeX_getX s hd 0

end Sys2Proof.Machine
end

section
/-! The bit-counting operations (R131): what bits each count tells of, and the bytes in reverse order. -/

namespace Sys2Proof.Machine

/-! ### The counts -/

theorem log2_lt_64 {a : Word} (ha : a ≠ 0) : Nat.log2 a.toNat < 64 :=
  (Nat.log2_lt fun h => ha ((toNat_eq_zero_iff a).1 h)).2 a.isLt

/-- n zeros stand above the highest set bit, or 64 where no bit is set. -/
def ZerosAbove (a : Word) (n : Nat) : Prop :=
  n ≤ 64 ∧ (∀ k, 64 ≤ k + n → a.getLsbD k = false) ∧ (n < 64 → a.getLsbD (63 - n) = true)

/-- n zeros stand below the lowest set bit, or 64 where no bit is set. -/
def ZerosBelow (a : Word) (n : Nat) : Prop :=
  n ≤ 64 ∧ (∀ k, k < n → a.getLsbD k = false) ∧ (n < 64 → a.getLsbD n = true)

theorem zerosAbove_clzN (a : Word) : ZerosAbove a (clzN a) := by
  by_cases ha : a = 0
  · have hclz : clzN a = 64 := if_pos ha
    rw [hclz]
    exact ⟨le_rfl, fun k _ => by simp [ha], fun h => absurd h (lt_irrefl 64)⟩
  · have hclz : clzN a = 63 - Nat.log2 a.toNat := if_neg ha
    have hlog := log2_lt_64 ha
    rw [hclz]
    refine ⟨by omega, fun k hk => ?above, fun _ => ?highest⟩
    case above => exact Nat.testBit_lt_two_pow (Nat.lt_log2_self.trans_le (Nat.pow_le_pow_right Nat.two_pos (by omega)))
    case highest =>
      rw [Nat.sub_sub_self (by omega)]
      exact Nat.testBit_log2 fun h => ha ((toNat_eq_zero_iff a).1 h)

theorem zerosBelow_ctzN (a : Word) : ZerosBelow a (ctzN a) := by
  unfold ctzN
  cases h : (List.range 64).find? fun i => a.getLsbD i with
  | none =>
    exact ⟨le_rfl, fun k hk => by simpa using List.find?_range_eq_none.1 h k hk, fun hlt => absurd hlt (lt_irrefl 64)⟩
  | some n =>
    obtain ⟨hbit, hmem, hlow⟩ := List.find?_range_eq_some.1 h
    exact ⟨(List.mem_range.1 hmem).le, fun k hk => by simpa using hlow k hk, fun _ => hbit⟩

theorem popcN_le (a : Word) : popcN a ≤ 64 := (List.length_filter_le _ _).trans (List.length_range).le

/-- A count in a register is the count. -/
theorem toNat_ofNat_count {n : Nat} (h : n ≤ 64) : (BitVec.ofNat 64 n).toNat = n :=
  Nat.mod_eq_of_lt (by omega)

/-! ### Bytes in reverse order -/

/-- Byte i of a number laid out, and of bytes read as a number. -/
theorem leBytes_getElem (n v i : Nat) (hi : i < (leBytes n v).length) :
    (leBytes n v)[i] = BitVec.ofNat 8 (v / 2 ^ (8 * i)) := by
  induction n generalizing v i with
  | zero => exact absurd hi (Nat.not_lt_zero i)
  | succ n ih =>
    cases i with
    | zero => simp [leBytes]
    | succ i =>
      simp only [leBytes, List.getElem_cons_succ]
      rw [ih, Nat.div_div_eq_div_mul, Nat.mul_succ, Nat.add_comm, Nat.pow_add]

theorem getElem_eq_ofNat_leNat (bs : List Byte) (i : Nat) (hi : i < bs.length) :
    bs[i] = BitVec.ofNat 8 (leNat bs / 2 ^ (8 * i)) := by
  rw [← leBytes_getElem bs.length _ i (by rwa [leBytes_length])]
  simp only [leBytes_leNat]

theorem extractLsb'_byte (a : Word) (k : Nat) : a.extractLsb' (8 * k) 8 = BitVec.ofNat 8 (a.toNat / 2 ^ (8 * k)) := by
  rw [← Nat.shiftRight_eq_div_pow]
  rfl

theorem bswapW_byte (a : Word) {k : Nat} (hk : k < 8) :
    (bswapW a).extractLsb' (8 * (7 - k)) 8 = a.extractLsb' (8 * k) 8 := by
  have hlen : (leBytes 8 a.toNat).reverse.length = 8 := by rw [List.length_reverse, leBytes_length]
  have hlt : leNat (leBytes 8 a.toNat).reverse < 2 ^ 64 := by simpa [hlen] using leNat_lt (leBytes 8 a.toNat).reverse
  have hrev := getElem_eq_ofNat_leNat (leBytes 8 a.toNat).reverse (7 - k) (by omega)
  rw [List.getElem_reverse, leBytes_getElem, leBytes_length] at hrev
  rw [extractLsb'_byte, extractLsb'_byte, bswapW, BitVec.toNat_ofNat, Nat.mod_eq_of_lt hlt, ← hrev]
  congr 4
  omega

/-! ### The operations -/

/-- What the register of a count reads, where it is not x0. -/
theorem writeX_count (s : State) (d : XReg) {n : Nat} {P : Nat → Prop} (hn : n ≤ 64) (hP : P n) :
    ∃ t, s.writeX d (BitVec.ofNat 64 n) = .next t ∧ Retires s t (s.cc.pc + 4) ∧ FrameX s t d ∧
      (d ≠ 0 → P (t.getX d).toNat) := by
  obtain ⟨t, hexec, hret, hframe, hval⟩ := writeX_out s d (.ofNat 64 n)
  refine ⟨t, hexec, hret, hframe, fun hd => ?_⟩
  rwa [hval, if_neg hd, toNat_ofNat_count hn]

/-- Settles O12: each count has the bits that its rule says, and the end of the instruction writes it. -/
theorem bitCounts : Obligations.BitCounts := by
  unfold Obligations.BitCounts
  intro s d a
  refine ⟨⟨rfl, rfl, rfl, rfl⟩, ?clz, ?ctz, ?popc, ?bswap⟩
  case clz => exact writeX_count s d (zerosAbove_clzN _).1 (zerosAbove_clzN (s.getX a))
  case ctz => exact writeX_count s d (zerosBelow_ctzN _).1 (zerosBelow_ctzN (s.getX a))
  case popc => exact writeX_count s d (P := (· = popcN (s.getX a))) (popcN_le _) rfl
  case bswap =>
    obtain ⟨t, hexec, hret, hframe, hval⟩ := writeX_out s d (bswapW (s.getX a))
    exact ⟨t, hexec, hret, hframe, fun hd k hk => by rw [hval, if_neg hd, bswapW_byte _ hk]⟩

end Sys2Proof.Machine
end

section
/-! Branches, jumps, and the system instructions SYSCALL, BRK and TRET (R139 to R142, R146, R147). -/

namespace Sys2Proof.Machine

/-! ### Branches on scalar registers (R139) -/

theorem wordsOff_eq_ofInt {n : Nat} (off : BitVec n) : wordsOff off = .ofInt 64 (4 * off.toInt) := by
  rw [Int.mul_comm]
  exact ofInt_shiftLeft off.toInt 2

/-- The end of a branch: it retires at its target or at the next instruction, and nothing else changes. -/
theorem branch_out {n : Nat} (s : State) (taken : Bool) (off : BitVec n) : ∃ t, s.branch taken (wordsOff off) = .next t ∧
    Retires s t (if taken then s.cc.pc + .ofInt 64 (4 * off.toInt) else s.cc.pc + 4) ∧ FrameX s t 0 := by
  rw [← wordsOff_eq_ofInt]
  cases taken
  · exact ⟨_, rfl, retires_to s s _ rfl, frameX_retireTo s 0 _⟩
  · exact ⟨_, rfl, retires_to s s _ rfl, frameX_retireTo s 0 _⟩

/-- The outcome of a branch by the condition of its rule. -/
theorem branch_out_of_eq {n : Nat} (s : State) {cond taken : Bool} (off : BitVec n) (h : cond = taken) :
    ∃ t, s.branch cond (wordsOff off) = .next t ∧
      Retires s t (if taken then s.cc.pc + .ofInt 64 (4 * off.toInt) else s.cc.pc + 4) ∧ FrameX s t 0 :=
  h ▸ branch_out s cond off

/-- The branch of a condition, 0 to 5. -/
def condBranch (a b : XReg) (off : BitVec 12) (k : Fin 6) : Instr :=
  [Instr.beq a b off, .bne a b off, .blt a b off, .bge a b off, .bltu a b off, .bgeu a b off].get k

theorem encode_condBranch (a b : XReg) (off : BitVec 12) (k : Fin 6) :
    encode (condBranch a b off k) = some (off ++ b ++ a ++ BitVec.ofNat 3 k.val ++ 0x10#7) := by
  fin_cases k <;> rfl

/-- Settles O13: the comparison of each meaning is that of its rule, and the end of a branch follows it. -/
theorem conditionalBranches : Obligations.ConditionalBranches := by
  unfold Obligations.ConditionalBranches
  refine ⟨fun i s taken off h => ?outcome, fun a b off k w h => ?word⟩
  case outcome =>
    unfold branchTaken at h
    split at h
    case h_7 => cases h
    all_goals
      obtain ⟨rfl, rfl⟩ := Prod.mk.inj (Option.some.inj h)
      refine branch_out_of_eq s _ ?_
    case h_1 => exact beq_eq_decide _ _
    case h_2 => exact (congrArg (!·) (beq_eq_decide _ _)).trans decide_not.symm
    case h_3 => exact BitVec.slt_eq_decide
    case h_4 => rw [BitVec.slt_eq_decide, ← decide_not, decide_eq_decide, not_lt]
    case h_5 => exact BitVec.ult_eq_decide
    case h_6 => rw [BitVec.ult_eq_decide, ← decide_not, decide_eq_decide, not_lt]
  case word =>
    have hword := Option.some.inj ((encode_condBranch a b off k).symm.trans h)
    obtain ⟨hupper, hopcode⟩ := append_eq_iff_extractLsb'.1 hword
    obtain ⟨-, hcond⟩ := append_eq_iff_extractLsb'.1 hupper
    rw [extractLsb'_extractLsb' (by decide)] at hcond
    exact ⟨hopcode.symm, hcond.symm⟩

/-! ### Branches on mask registers (R140) -/

section
variable (s : State) (m : MReg)

/-- The set bits of a mask below VL. -/
theorem maskCount_eq : s.maskCount m = ((List.range s.vlN).filter (s.maskBit m)).length := rfl

theorem maskCount_pos_iff : 0 < s.maskCount m ↔ ∃ k, k < s.vlN ∧ s.maskBit m k = true := by
  rw [maskCount_eq, List.length_filter_pos_iff]
  simp only [List.mem_range]

theorem maskCount_zero_iff : s.maskCount m = 0 ↔ ∀ k, k < s.vlN → s.maskBit m k = false := by
  rw [maskCount_eq, List.length_eq_zero_iff, List.filter_eq_nil_iff]
  simp only [List.mem_range, Bool.not_eq_true]

theorem maskCount_full_iff : s.maskCount m = s.vlN ↔ ∀ k, k < s.vlN → s.maskBit m k = true := by
  have hlen : (List.range s.vlN).length = s.vlN := List.length_range
  rw [maskCount_eq]
  nth_rw 2 [← hlen]
  rw [List.length_filter_eq_length_iff]
  simp only [List.mem_range]

end

/-- A branch whose condition is `P` or its negation `Q`. -/
theorem branch_out_of_iff {n : Nat} {s : State} {cond : Bool} {P Q : Prop} (off : BitVec n) (hP : P → cond = true)
    (hQ : Q → cond = false) : ∃ t, s.branch cond (wordsOff off) = .next t ∧ FrameX s t 0 ∧
      (P → Retires s t (s.cc.pc + .ofInt 64 (4 * off.toInt))) ∧ (Q → Retires s t (s.cc.pc + 4)) := by
  obtain ⟨t, hexec, hret, hframe⟩ := branch_out s cond off
  exact ⟨t, hexec, hframe, fun h => by simpa [hP h] using hret, fun h => by simpa [hQ h] using hret⟩

/-- Settles O14: the condition is about how many bits below VL are set. -/
theorem maskBranches : Obligations.MaskBranches := by
  unfold Obligations.MaskBranches
  intro s m off
  refine ⟨fun hoff => ?off, fun hven => ?on⟩
  case off =>
    have hoff' : ¬ s.cc.ven = true := by simp [hoff]
    exact ⟨if_neg hoff', if_neg hoff', if_neg hoff'⟩
  case on =>
    have hpos := maskCount_pos_iff s m
    have hzero := maskCount_zero_iff s m
    have hfull := maskCount_full_iff s m
    have hclear : (∃ k, k < s.vlN ∧ s.maskBit m k = false) → s.maskCount m ≠ s.vlN := fun ⟨k, hk, hbit⟩ h =>
      Bool.false_ne_true (hbit.symm.trans (hfull.1 h k hk))
    refine ⟨?any, ?all, ?none⟩
    case any =>
      rw [exec_bany, execBany, if_pos hven]
      exact branch_out_of_iff off (fun h => decide_eq_true (hpos.2 h)) fun h => decide_eq_false (by simp [hzero.2 h])
    case all =>
      rw [exec_ball, execBall, if_pos hven]
      exact branch_out_of_iff off (fun h => beq_iff_eq.2 (hfull.2 h)) fun h => beq_eq_false_iff_ne.2 (hclear h)
    case none =>
      rw [exec_bnone, execBnone, if_pos hven]
      exact branch_out_of_iff off (fun h => beq_iff_eq.2 (hzero.2 h)) fun h =>
        beq_eq_false_iff_ne.2 (Nat.pos_iff_ne_zero.1 (hpos.2 h))

/-! ### JAL and JALR (R141, R142) -/

/-- The end of a jump: the link is written, and the next instruction is at the target. -/
theorem link_out (s : State) (d : XReg) (target : Word) :
    let t := (s.setX d (s.cc.pc + 4)).retireTo target
    Retires s t target ∧ FrameX s t d ∧ t.getX d = if d = 0 then 0 else s.cc.pc + 4 := by
  obtain ⟨-, -, hval⟩ := setX_retire_out (s := s) d (s.cc.pc + 4) rfl rfl
  exact ⟨retires_to s _ _ (by simp), frameX_setX s d _ _, hval⟩

/-- Settles O15: the target of JALR decides between the trap, before any write, and the end of a jump. -/
theorem jumps : Obligations.Jumps := by
  unfold Obligations.Jumps
  intro s d a
  refine ⟨fun off => ⟨rfl, ?jal⟩, fun imm => ⟨rfl, fun halign => ?jalr, fun hmis => ?misaligned⟩⟩
  case jal =>
    rw [← wordsOff_eq_ofInt]
    exact ⟨_, rfl, link_out s d _⟩
  case jalr => exact ⟨_, if_neg (not_not.2 halign), link_out s d _⟩
  case misaligned => exact if_pos hmis

/-! ### SYSCALL, BRK and TRET (R146, R147) -/

theorem exec_tret_lowers {s : State} (hl : s.cc.level ≠ .user) (hp : s.cc.ppriv.toNat ≤ s.cc.level.code.toNat) :
    exec .tret s = .next s.trapReturn := by
  rw [exec_tret, execTret, needSupervisor_ok hl, except_bind_ok, if_neg]
  · rfl
  · simpa [BitVec.ult_eq_decide] using hp

theorem exec_tret_above {s : State} (hl : s.cc.level ≠ .user) (hp : s.cc.level.code.toNat < s.cc.ppriv.toNat) :
    exec .tret s = .next (s.raise { cause := 0x01, tval := 0x0040001D }) := by
  have hw : wordOf .tret = 0x0040001D := by decide
  rw [exec_tret, execTret, needSupervisor_ok hl, except_bind_ok, if_pos, illegal, hw]
  · rfl
  · simpa [BitVec.ult_eq_decide] using hp

/-- Settles O24: each trap with its cause, and TRET by whether PPRIV is above the level. -/
theorem syscallBreakAndReturn : Obligations.SyscallBreakAndReturn := by
  unfold Obligations.SyscallBreakAndReturn
  refine ⟨fun s => ⟨rfl, fun hoff => ?brk, fun harmed => if_pos harmed⟩,
    fun s hl => ⟨fun hp => ?returns, exec_tret_above hl⟩⟩
  case brk =>
    have hbrk : exec .brk s = .next (s.raise { cause := 0x0F, tval := 0 }) := if_neg (by simp [hoff])
    exact ⟨hbrk, fun henter => by rw [hbrk, State.raise, if_neg (by simp [henter])]⟩
  case returns =>
    rw [exec_tret_lowers hl hp]
    simp [State.trapReturn, State.modCc, BitVec.ult_eq_decide, BitVec.lt_def]

end Sys2Proof.Machine
end

section
/-! Every instruction and event has a next state (R127, R128), but for the launch of a region whose RCB lies outside WM
(R38): each meaning is a tree of conditions whose leaves are next states. -/

namespace Sys2Proof.Machine

/-! ### Outcomes that are a next state -/

/-- The outcome is a next state. -/
def Acts (o : Out) : Prop := ∃ t, o = .next t

theorem acts_next (t : State) : Acts (.next t) := ⟨t, rfl⟩

section
variable {c : Prop} [Decidable c]

theorem acts_ite {a b : Out} (ha : Acts a) (hb : Acts b) : Acts (if c then a else b) := by
  split
  · exact ha
  · exact hb

/-- A meaning of two branches. -/
theorem acts_branch {t u : State} : Acts (if c then .next t else .next u) := acts_ite (acts_next t) (acts_next u)

/-- A meaning that ends at once under a condition, and goes on otherwise. -/
theorem acts_guard {t : State} {b : Out} (hb : Acts b) : Acts (if c then .next t else b) := acts_ite (acts_next t) hb

end

/-! ### Regions, barriers and walks (R39, R42, R212, R330, R337) -/

theorem execRcbCheck_acts (addr : BitVec 48) (s : State) : Acts (execRcbCheck addr s) := by
  simp only [execRcbCheck]
  split
  · exact acts_next _
  · refine acts_guard ?_
    split
    · exact acts_next _
    · exact acts_next _

theorem execRegionPlacement_acts (addr : BitVec 48) (first : BitVec 10) (s : State) :
    Acts (execRegionPlacement addr first s) := by
  simp only [execRegionPlacement]
  split
  · exact acts_next _
  · split
    · exact acts_next _
    · refine acts_guard ?_
      split
      · exact acts_next _
      · exact acts_next _
    · exact acts_next _

theorem execRsTerminateContext_acts (addr : BitVec 48) (ctx : BitVec 16) (s : State) :
    Acts (execRsTerminateContext addr ctx s) := by
  simp only [execRsTerminateContext]
  split
  · exact acts_next _
  · exact acts_guard acts_branch

theorem execBarrierStall_acts (slot : BitVec 12) (s : State) : Acts (execBarrierStall slot s) := by
  simp only [execBarrierStall]
  split
  · split
    · exact acts_next _
    · exact acts_next _
  · exact acts_next _

theorem execWalkComplete_acts (cluster : BitVec 6) (s : State) : Acts (execWalkComplete cluster s) := by
  simp only [execWalkComplete]
  split
  · exact acts_next _
  · split
    · exact acts_next _
    · exact acts_next _

/-! ### Job cards and collectives (R315, R345, R395) -/

theorem execJobStart_acts (cc : BitVec 10) (token : BitVec 32) (s : State) : Acts (execJobStart cc token s) := by
  simp only [execJobStart]
  split
  · exact acts_next _
  · exact acts_guard acts_branch

theorem execJobCompletion_acts (cc : BitVec 10) (token : BitVec 32) (s : State) : Acts (execJobCompletion cc token s) := by
  simp only [execJobCompletion]
  split
  · exact acts_next _
  · split
    · exact acts_next _
    · exact acts_branch

theorem execCollectiveData_acts (src tag : BitVec 16) (msg : CollMsg) (s : State) :
    Acts (execCollectiveData src tag msg s) := by
  simp only [execCollectiveData]
  refine acts_guard ?_
  split
  · exact acts_branch
  · exact acts_next _

/-! ### Moves, seals and opens of regions (R274, R275) -/

theorem execCmmovDone_acts (handle : BitVec 12) (s : State) : Acts (execCmmovDone handle s) := by
  simp only [execCmmovDone]
  split
  · split
    · exact acts_next _
    · exact acts_branch
    · exact acts_next _
  · exact acts_next _

theorem execCmsealDone_acts (handle : BitVec 12) (s : State) : Acts (execCmsealDone handle s) := by
  simp only [execCmsealDone]
  split
  · split
    · exact acts_branch
    · exact acts_next _
  · exact acts_next _

theorem execCmopenDone_acts (handle : BitVec 12) (s : State) : Acts (execCmopenDone handle s) := by
  simp only [execCmopenDone]
  split
  · split
    · exact acts_branch
    · exact acts_next _
  · exact acts_next _

/-! ### Tiller copies, links and boot (R33, R288) -/

theorem execTillerDmaDone_acts (ch : BitVec 8) (s : State) : Acts (execTillerDmaDone ch s) := by
  simp only [execTillerDmaDone]
  refine acts_guard ?_
  split
  · exact acts_next _
  · exact acts_next _

theorem execLinkUp_acts (port : BitVec 6) (peer : BitVec 8) (s : State) : Acts (execLinkUp port peer s) := by
  simp only [execLinkUp]
  refine acts_guard ?_
  split
  · exact acts_next _
  · exact acts_guard acts_branch

theorem execLinkDown_acts (port : BitVec 6) (s : State) : Acts (execLinkDown port s) := by
  simp only [execLinkDown]
  split
  · exact acts_next _
  · exact acts_branch

theorem execWriteAcknowledgement_acts (src : BitVec 8) (tag : BitVec 24) (s : State) :
    Acts (execWriteAcknowledgement src tag s) := by
  simp only [execWriteAcknowledgement]
  split
  · exact acts_next _
  · split
    · exact acts_next _
    · exact acts_next _

theorem execBootComplete_acts (s : State) : Acts (execBootComplete s) := by
  simp only [execBootComplete]
  refine acts_guard ?_
  split
  · exact acts_next _
  · exact acts_next _

/-! ### Launch (R38) -/

/-- A launch stops only at an RCB outside WM. -/
theorem execRegionLaunch_acts_or_fault (addr : BitVec 48) (l : Launch) (s : State) :
    Acts (execRegionLaunch addr l s) ∨ execRegionLaunch addr l s = .fault .rcbOutsideWm := by
  by_cases hwm : inWm (addr.toNat / 256 * 256) 256 = false
  · exact .inr (if_pos hwm)
  · refine .inl ?_
    have hstart : execRegionLaunch addr l s = _ := if_neg hwm
    rw [hstart]
    exact acts_guard (acts_guard (acts_guard acts_branch))

/-! ### All instructions and events -/

theorem exec_acts {i : Instr} (s : State) (hlaunch : ∀ rcb rec, i ≠ .regionLaunch rcb rec) : Acts (exec i s) := by
  cases i
  case regionLaunch rcb rec => exact absurd rfl (hlaunch rcb rec)
  case rcbCheck => exact execRcbCheck_acts _ _
  case regionPlacement => exact execRegionPlacement_acts _ _ _
  case rsTerminateContext => exact execRsTerminateContext_acts _ _ _
  case barrierStall => exact execBarrierStall_acts _ _
  case walkComplete => exact execWalkComplete_acts _ _
  case jobStart => exact execJobStart_acts _ _ _
  case jobCompletion => exact execJobCompletion_acts _ _ _
  case collectiveData => exact execCollectiveData_acts _ _ _ _
  case cmmovDone => exact execCmmovDone_acts _ _
  case cmsealDone => exact execCmsealDone_acts _ _
  case cmopenDone => exact execCmopenDone_acts _ _
  case tillerDmaDone => exact execTillerDmaDone_acts _ _
  case linkUp => exact execLinkUp_acts _ _ _
  case linkDown => exact execLinkDown_acts _ _
  case writeAcknowledgement => exact execWriteAcknowledgement_acts _ _ _
  case bootComplete => exact execBootComplete_acts _
  -- one condition
  case bany | ball | bnone | jalr | brk | wait | hardPreemption | regionRetire | uiDelivery | loadComplete | dieWriteArrival
      | cmRemove | computeModeEntry | nlbExpiry | normalModeRequest | normalModeDone | tillerJob | replypush | replyend
      | tillerTimeout | tillerFwLoadDone | ackTimer | linkRetrain | keywipe | keywipeZeroise | bootLoad
      | debugRegisterWrite | debugResume | debugCmRead | remapMove | activation => exact acts_branch
  -- chains of two, three and four conditions
  case meshPacket | flitReceive | hostMemRead | hostMemWrite | debugHalt | attest | cmInstall => exact acts_guard acts_branch
  case verify | keyload | extend | pageWalk => exact acts_guard (acts_guard acts_branch)
  case dbgopen => exact acts_guard (acts_guard (acts_guard acts_branch))
  -- one case distinction; then one whose first case, or whose last, has a condition
  case tailAcknowledgement | tileMacroStep | dieWriteDeliver | cxlSnoop | rsEvict | idleTimeout | storePerformed
      | registerWrite | msixUnmask =>
    simp only [exec_tailAcknowledgement, execTailAcknowledgement, exec_tileMacroStep, execTileMacroStep,
      exec_dieWriteDeliver, execDieWriteDeliver, exec_cxlSnoop, execCxlSnoop, exec_rsEvict, execRsEvict, exec_idleTimeout,
      execIdleTimeout, exec_storePerformed, execStorePerformed, exec_registerWrite, execRegisterWrite, exec_msixUnmask,
      execMsixUnmask]
    split <;> exact acts_next _
  case queryCompletion | cmRemoveDone | terminationEnd | remapMoveEnd | routeApply | waitReturn | barwaitReturn =>
    simp only [exec_queryCompletion, execQueryCompletion, exec_cmRemoveDone, execCmRemoveDone, exec_terminationEnd,
      execTerminationEnd, exec_remapMoveEnd, execRemapMoveEnd, exec_routeApply, execRouteApply, exec_waitReturn,
      execWaitReturn, exec_barwaitReturn, execBarwaitReturn]
    split
    · exact acts_branch
    · exact acts_next _
  case cmReadBack | rsTerminateRegion =>
    simp only [exec_cmReadBack, execCmReadBack, exec_rsTerminateRegion, execRsTerminateRegion]
    split
    · exact acts_next _
    · exact acts_branch
  -- every other meaning is one next state, or ends by `finish`
  all_goals exact acts_next _

/-- Settles O9: a launch by `execRegionLaunch_acts_or_fault`, and everything else by `exec_acts`. -/
theorem everyInstructionHasAnEffect : Obligations.EveryInstructionHasAnEffect := by
  unfold Obligations.EveryInstructionHasAnEffect
  intro i s
  by_cases hlaunch : ∃ rcb rec, i = .regionLaunch rcb rec
  · obtain ⟨rcb, rec, rfl⟩ := hlaunch
    exact (execRegionLaunch_acts_or_fault rcb rec s).imp_right fun hfault => ⟨rcb, rec, rfl, hfault⟩
  · exact .inl (exec_acts s fun rcb rec h => hlaunch ⟨rcb, rec, h⟩)

end Sys2Proof.Machine
end

section
/-! The words that the spec writes out (R144, R146, R160 to R162, R175, R177). -/

namespace Sys2Proof.Machine

/-- Settles O3: the decoder, run on each word. -/
theorem decodeExampleWords : Obligations.DecodeExampleWords := by
  unfold Obligations.DecodeExampleWords
  exact ⟨rfl, rfl, rfl, rfl, rfl, rfl, rfl, rfl, rfl⟩

end Sys2Proof.Machine
end

section
/-! Compares (R169) and mask operations (R177): what a write of a mask register leaves, bit by bit. -/

namespace Sys2Proof.Machine

/-! ### Flags of an immediate operand (R102, R156) -/

/-- The flags that an immediate operand adds: none where no element is active. -/
def State.immFlags (s : State) (b : Third) (t : Tag) : Flags := if s.actives.isEmpty then 0 else thirdFlags s.cc.rm t b

theorem State.joinImm_eq (s u : State) (b : Third) (t : Tag) : s.joinImm b t u = u.orFlags (s.immFlags b t) := by
  unfold State.joinImm State.immFlags
  split
  · rw [State.orFlags_zero]
  · rfl

theorem State.vecFlags_eq {s : State} (hw : s.cc.cut = none) (b : Third) (t : Tag) (f : Nat → Nat × Flags) :
    s.vecFlags (thirdFlags s.cc.rm t b) f = flagsOver s.actives f ||| s.immFlags b t := by
  rw [State.vecFlags, State.immFlags, State.actives_eq hw, flagsOver]

theorem flagsOver_congr {f g : Nat → Nat × Flags} (h : ∀ i, (f i).2 = (g i).2) (is : List Nat) :
    flagsOver is f = flagsOver is g := by
  simp only [flagsOver, h]

/-- Flags that join those of an element-precise instruction as it ends. -/
theorem State.orFlags_precise_end (u : State) (f g : Flags) :
    ((u.orFlags f).takeVstart.retire).orFlags g = (u.orFlags (f ||| g)).takeVstart.retire := by
  have h : ((u.orFlags f).takeVstart.retire).orFlags g = ((u.orFlags f).orFlags g).takeVstart.retire := rfl
  rw [h]
  simp only [State.orFlags, State.modCc, flags_or]

/-! ### The bits of a mask (R115, R159) -/

theorem lowMask_getLsbD (n i : Nat) : (lowMask n).getLsbD i = (decide (i < 1024) && decide (i < n)) := by
  rw [lowMask, BitVec.getLsbD_ofNat, Nat.testBit_two_pow_sub_one]

theorem fieldAt_one (n i : Nat) : fieldAt n 1 i = (n.testBit i).toNat := by
  rw [fieldAt, Nat.one_mul, Nat.pow_one, Nat.shiftRight_eq_div_pow, Nat.toNat_testBit]

/-- A bit of a mask into which the bits of some elements have been written. -/
theorem writeMask_getLsbD (old : BitVec 1024) (vl : Nat) {is : List Nat} (hn : is.Nodup) (f : Nat → Nat) {i : Nat}
    (hi : i < 1024) :
    (writeMask old vl ((is.map fun k => (k, f k)).map fun e => (e.1, e.2 == 1))).getLsbD i =
      (decide (i < vl) && if i ∈ is then f i == 1 else old.getLsbD i) := by
  have hnodup : ((is.map fun k => (k, f k)).map (·.1)).Nodup := by simpa [Function.comp_def] using hn
  have hbit := fieldAt_foldl 1 (fun b => if (b == 1) = true then 1 else 0) _ old.toNat i hnodup
  rw [find_map_pair] at hbit
  rw [writeMask, BitVec.getLsbD_ofNat, Nat.testBit_mod_two_pow, List.foldl_map, decide_eq_true hi, Bool.true_and]
  congr 1
  have toNat_inj : ∀ a b : Bool, a.toNat = b.toNat → a = b := by decide
  refine toNat_inj _ _ ?_
  rw [← fieldAt_one]
  refine hbit.trans ?_
  by_cases hm : i ∈ is
  · rw [if_pos hm, if_pos hm]
    cases h : f i == 1 <;> simp [h]
  · rw [if_neg hm, if_neg hm, fieldAt_one]
    rfl

/-! ### Writing a mask register (R115, R159) -/

/-- A write of a mask register, of flags and of VSTART, as the end of an instruction. -/
theorem frameM_put (s : State) {md : MReg} (hd : md.toNat < 12) (b : BitVec 1024) (f : Flags) (pc : Word) (g : State → State)
    (hg : (∀ u, g u = u.takeVstart) ∨ ∀ u, g u = u) : FrameM s ((g ((s.putM md b).orFlags f)).retireTo pc) md where
  only := by rcases hg with hg | hg <;> rw [hg] <;> rfl
  regs k hk := by
    have hput : (s.putM md b).getM k = s.getM k := by rw [State.getM_putM s md k b hd, if_neg hk]
    rcases hg with hg | hg <;> rw [hg] <;> exact hput
  bytes _ := by rcases hg with hg | hg <;> rw [hg] <;> rfl

/-- The bits that a specification gives its mask register. -/
structure MaskBits (s : State) (p : MaskSpec) (b : BitVec 1024) : Prop where
  written : ∀ i, i < s.vlN → i < 1024 → p.writes i = true → b.getLsbD i = p.bit i
  kept : ∀ i, i < s.vlN → i < 1024 → p.writes i = false → b.getLsbD i = s.maskBit p.md i
  tail : ∀ i, s.vlN ≤ i → i < 1024 → b.getLsbD i = false

/-- An instruction that writes these bits has the outcome of its specification. -/
theorem maskOut_put {s : State} {p : MaskSpec} (hd : p.md.toNat < 12) {b : BitVec 1024} (hb : MaskBits s p b)
    (g : State → State)
    (hg : (p.vstart = 0 ∧ ∀ u, g u = u.takeVstart) ∨ (p.vstart = s.cc.vstart ∧ ∀ u, g u = u)) :
    MaskOut s (g ((s.putM p.md b).orFlags p.flags)).retire p := by
  have hg' : (∀ u, g u = u.takeVstart) ∨ ∀ u, g u = u := hg.imp (·.2) (·.2)
  have hpc : (g ((s.putM p.md b).orFlags p.flags)).cc.pc = s.cc.pc := by rcases hg' with h | h <;> rw [h] <;> rfl
  rw [State.retire_eq, hpc]
  have hbit : ∀ i, ((g ((s.putM p.md b).orFlags p.flags)).retireTo (s.cc.pc + 4)).maskBit p.md i = b.getLsbD i := by
    intro i
    have hput : (s.putM p.md b).getM p.md = b := by rw [State.getM_putM s p.md p.md b hd, if_pos rfl]
    rw [State.maskBit]
    refine congrArg (fun m : BitVec 1024 => m.getLsbD i) ?_
    rcases hg' with h | h <;> rw [h] <;> exact hput
  have high : ∀ (m : BitVec 1024) (i : Nat), ¬ i < 1024 → m.getLsbD i = false := fun m i h =>
    BitVec.getLsbD_of_ge m i (by omega)
  refine ⟨retires_to s _ _ ?_, frameM_put s hd b _ _ g hg', fun i hi hlt hw => ?_, fun i hi hw => ?_, fun i hi => ?_, ?_, ?_⟩
  · rcases hg' with h | h <;> rw [h] <;> rfl
  · rw [hbit, hb.written i hi hlt hw]
  · by_cases hlt : i < 1024
    · rw [hbit, hb.kept i hi hlt hw]
    · rw [State.maskBit, State.maskBit, high _ i hlt, high _ i hlt]
  · by_cases hlt : i < 1024
    · rw [hbit, hb.tail i hi hlt]
    · rw [State.maskBit, high _ i hlt]
  · unfold FlagsSet
    rcases hg' with h | h <;> rw [h] <;> rfl
  · rcases hg with ⟨h0, h⟩ | ⟨h0, h⟩ <;> rw [h, h0] <;> rfl

/-! ### Mask operations (R177) -/

/-- A mask operation writes the bits of a value below VL. -/
theorem maskOp_out {s : State} {md : MReg} {b : BitVec 1024} {bit : Nat → Bool}
    (hr : MaskReady s { md, writes := fun _ => true, bit, vstart := s.cc.vstart })
    (hbit : ∀ k, k < 1024 → b.getLsbD k = bit k) :
    ∃ t, s.maskOp md b = .next t ∧ MaskOut s t { md, writes := fun _ => true, bit, vstart := s.cc.vstart } := by
  have hbits : MaskBits s { md, writes := fun _ => true, bit, vstart := s.cc.vstart } (b &&& lowMask s.vlN) := by
    refine ⟨fun i hi hlt _ => ?_, fun _ _ _ hw => Bool.noConfusion hw, fun i hi _ => ?_⟩
    · rw [BitVec.getLsbD_and, lowMask_getLsbD, hbit i hlt, decide_eq_true hi, decide_eq_true hlt, Bool.and_true, Bool.and_true]
    · rw [BitVec.getLsbD_and, lowMask_getLsbD, decide_eq_false (Nat.not_lt.2 hi), Bool.and_false, Bool.and_false]
  have hput := maskOut_put hr.md hbits id (.inr ⟨rfl, fun _ => rfl⟩)
  have hflags : (0 : Flags) = (({ md, writes := fun _ => true, bit, vstart := s.cc.vstart } : MaskSpec)).flags := rfl
  rw [← hflags, State.orFlags_zero] at hput
  refine ⟨_, ?_, hput⟩
  rw [State.maskOp, hr.guard, except_bind_ok, except_pure, finish_ok]
  rfl

theorem maskLogic_out {i : Instr} {s : State} {p : MaskSpec} (h : maskLogic i s = some p) (hr : MaskReady s p) :
    ∃ t, exec i s = .next t ∧ MaskOut s t p := by
  unfold maskLogic at h
  split at h
  case h_9 => cases h
  all_goals
    obtain rfl := Option.some.inj h
    refine maskOp_out hr fun k hk => ?_
  case h_1 => exact BitVec.getLsbD_and
  case h_2 => exact BitVec.getLsbD_or
  case h_3 => exact BitVec.getLsbD_xor
  case h_4 => simp [hk, State.maskBit]
  case h_5 => simp [hk, State.maskBit]
  case h_6 => rfl
  case h_7 => exact (BitVec.getLsbD_allOnes ..).trans (decide_eq_true hk)
  case h_8 => exact BitVec.getLsbD_zero

/-! ### Compares (R169) -/

/-- A compare by what its rule says of ordered and of unordered values. -/
def State.compareSpec (s : State) (md : MReg) (va : VReg) (b : Third) (test : Ordering → Bool) (nan quiet : Bool) : MaskSpec :=
  let t := (s.getV va).tag
  let x (k : Nat) : Val := valOf (s.getV va).data t k
  let y (k : Nat) : Val := thirdVal s s.cc.rm t b k
  let un (k : Nat) : Bool := (x k).isNan || (y k).isNan
  { md, tagsOk := isVal t && thirdTagIs s t b, lens := [t], writes := s.activeAt, vstart := 0
    bit := fun k => if un k then nan else test (cmpVal (x k) (y k))
    flags := s.vecFlags (thirdFlags s.cc.rm t b) fun k =>
      (0, if un k && (!quiet || (x k).isSig || (y k).isSig) then fNV else 0) }

/-- What a compare answers of two values, 0 or 1, and its flags. -/
def compareElem (test : Ordering → Bool) (nan quiet : Bool) (x y : Val) : Nat × Flags :=
  if x.isNan || y.isNan then (if nan then 1 else 0, flagIf (!quiet || x.isSig || y.isSig) fNV)
  else (if test (cmpVal x y) then 1 else 0, 0)

theorem compareElem_bit (test : Ordering → Bool) (nan quiet : Bool) (x y : Val) :
    ((compareElem test nan quiet x y).1 == 1) = if x.isNan || y.isNan then nan else test (cmpVal x y) := by
  unfold compareElem
  split
  · cases nan <;> rfl
  · cases test (cmpVal x y) <;> rfl

theorem compareElem_flags (test : Ordering → Bool) (nan quiet : Bool) (x y : Val) :
    (compareElem test nan quiet x y).2 =
      if (x.isNan || y.isNan) && (!quiet || x.isSig || y.isSig) then fNV else 0 := by
  unfold compareElem
  cases x.isNan || y.isNan <;> rfl

/-- Past the checks of R157 an instruction that is ready goes on. -/
theorem MaskReady.checks_ok {s : State} {p : MaskSpec} (h : MaskReady s p) {α : Type} (a b d : Tag)
    (k : Unit → Except Stop α) :
    (pushGuard s [mCode p.md] >>= fun _ => tagCheck p.tagsOk s a b d >>= fun _ => lenCheck s p.lens >>= k) = k () := by
  rw [h.guard, tagCheck_ok h.tags, lenCheck_ok h.lens]
  rfl

/-- The element function of a compare. -/
def State.compareAt (s : State) (va : VReg) (b : Third) (test : Ordering → Bool) (nan quiet : Bool) (k : Nat) : Nat × Flags :=
  compareElem test nan quiet (valOf (s.getV va).data (s.getV va).tag k) (thirdVal s s.cc.rm (s.getV va).tag b k)

section
variable {s : State} {md : MReg} {va : VReg} {b : Third} {test : Ordering → Bool} {nan quiet : Bool}
  (hr : MaskReady s (s.compareSpec md va b test nan quiet))
include hr

theorem compareSpec_bits : MaskBits s (s.compareSpec md va b test nan quiet) (writeMask (s.getM md) s.vlN
    ((s.actives.map fun k => (k, (s.compareAt va b test nan quiet k).1)).map fun e => (e.1, e.2 == 1))) := by
  have hbit := fun i (hlt : i < 1024) =>
    writeMask_getLsbD (s.getM md) s.vlN (actives_nodup s) (fun k => (s.compareAt va b test nan quiet k).1) hlt
  refine ⟨fun i hi hlt hw => ?_, fun i hi hlt hw => ?_, fun i hi hlt => ?_⟩
  · have hm : i ∈ s.actives := (s.activeAt_iff hr.whole i hi).1 hw
    rw [hbit i hlt, if_pos hm, decide_eq_true hi, Bool.true_and, State.compareAt, compareElem_bit]
    rfl
  · have hm : i ∉ s.actives := fun hm => Bool.false_ne_true (hw.symm.trans ((s.activeAt_iff hr.whole i hi).2 hm))
    rw [hbit i hlt, if_neg hm, decide_eq_true hi, Bool.true_and]
    rfl
  · rw [hbit i hlt, decide_eq_false (by omega), Bool.false_and]

theorem compareSpec_flags : (s.compareSpec md va b test nan quiet).flags =
    flagsOver s.actives (s.compareAt va b test nan quiet) ||| s.immFlags b (s.getV va).tag := by
  rw [State.compareSpec, s.vecFlags_eq hr.whole]
  refine congrArg (· ||| s.immFlags b (s.getV va).tag) (flagsOver_congr (fun k => ?_) _)
  exact (compareElem_flags test nan quiet (valOf (s.getV va).data (s.getV va).tag k)
    (thirdVal s s.cc.rm (s.getV va).tag b k)).symm

theorem vecCompare_out :
    ∃ t, s.vecCompare md va b test nan quiet = .next t ∧ MaskOut s t (s.compareSpec md va b test nan quiet) := by
  have hput := maskOut_put hr.md (compareSpec_bits hr) State.takeVstart (.inl ⟨rfl, fun _ => rfl⟩)
  rw [compareSpec_flags hr, ← State.orFlags_precise_end, ← State.joinImm_eq] at hput
  refine ⟨_, congrArg finish (hr.checks_ok _ _ _ _), ?_⟩
  change MaskOut s (match mapElems s.actives (s.compareAt va b test nan quiet) with
    | (es, fl) => s.joinImm b (s.getV va).tag
      ((s.putM md (writeMask (s.getM md) s.vlN (es.map fun e => (e.1, e.2 == 1)))).orFlags fl).takeVstart.retire) _
  rw [mapElems_eq]
  exact hput

end

theorem maskCompare_out {i : Instr} {s : State} {p : MaskSpec} (h : maskCompare i s = some p) (hr : MaskReady s p) :
    ∃ t, exec i s = .next t ∧ MaskOut s t p := by
  unfold maskCompare at h
  split at h
  case h_8 => cases h
  all_goals obtain rfl := Option.some.inj h
  case h_1 => exact vecCompare_out (test := (· == .eq)) (nan := false) (quiet := true) hr
  case h_2 => exact vecCompare_out (test := (· != .eq)) (nan := true) (quiet := true) hr
  case h_3 => exact vecCompare_out (test := (· == .lt)) (nan := false) (quiet := false) hr
  case h_4 => exact vecCompare_out (test := (· != .gt)) (nan := false) (quiet := false) hr
  case h_5 => exact vecCompare_out (test := (· == .gt)) (nan := false) (quiet := false) hr
  case h_6 => exact vecCompare_out (test := (· != .lt)) (nan := false) (quiet := false) hr
  case h_7 => exact vecCompare_out (test := fun _ => false) (nan := true) (quiet := true) hr

/-- Settles O35: a mask that is written holds the bits of its rule below VL, whether it is made by a compare or by a mask
operation. -/
theorem maskResults : Obligations.MaskResults := by
  unfold Obligations.MaskResults
  exact ⟨fun _ _ _ h hr => maskCompare_out h hr, fun _ _ _ h hr => maskLogic_out h hr⟩

end Sys2Proof.Machine
end

section
/-! Single-operand instructions, moves and copies (R166 to R168, R173, R174): what a register that is written outright must
hold, and each instruction by the elements that it writes. -/

namespace Sys2Proof.Machine

/-! ### A vector register that is written outright (R115) -/

/-- A register holds what a specification gives its destination. -/
structure Holds (s : State) (p : VecSpec) (r : VecReg) : Prop where
  tag : r.tag = p.tag
  written : ∀ i, i < s.vlN → i < vlmax p.tag → p.writes i = true → slotOf r.data p.tag i = p.slot i % 2 ^ tagWidth p.tag
  kept : ∀ i, i < s.vlN → i < vlmax p.tag → p.writes i = false →
    slotOf r.data p.tag i = slotOf (s.getV p.vd).data p.tag i
  tail : ∀ i, s.vlN ≤ i → i < vlmax p.tag → slotOf r.data p.tag i = 0
  side : r.side = p.side

/-- An instruction that writes such a register has the outcome of its specification. -/
theorem vecOut_reg {s : State} {p : VecSpec} (hd : p.vd.toNat < 48) {r : VecReg} (h : Holds s p r) (n : Nat) (g : State → State)
    (hg : (p.vstart = 0 ∧ ∀ u, g u = u.takeVstart) ∨ (p.vstart = s.cc.vstart ∧ ∀ u, g u = u)) :
    VecOut s (g ((State.putV { s with free := n } p.vd r).orFlags p.flags)).retire p := by
  have hg' : (∀ u, g u = u.takeVstart) ∨ ∀ u, g u = u := hg.imp (·.2) (·.2)
  have hpc : (g ((State.putV { s with free := n } p.vd r).orFlags p.flags)).cc.pc = s.cc.pc := by
    rcases hg' with h | h <;> rw [h] <;> rfl
  rw [State.retire_eq, hpc]
  have hv : ((g ((State.putV { s with free := n } p.vd r).orFlags p.flags)).retireTo (s.cc.pc + 4)).getV p.vd = r := by
    apply getV_self s _ _ _ hd
    rcases hg' with h | h <;> rw [h] <;> rfl
  refine ⟨retires_to _ _ _ ?_, frameV_put _ _ _ _ _ _ _ hg', ?_, ?_, ?_, ?_, ?_, ?_, ?_⟩
  · rcases hg' with h | h <;> rw [h] <;> rfl
  · rw [hv]; exact h.tag
  · rw [hv]; exact h.written
  · rw [hv]; exact h.kept
  · rw [hv]; exact h.tail
  · rw [hv]; exact h.side
  · unfold FlagsSet; rcases hg' with h | h <;> rw [h] <;> rfl
  · rcases hg with ⟨h0, h⟩ | ⟨h0, h⟩ <;> rw [h, h0] <;> rfl

/-- The same of an instruction that sets no flag: one that takes VSTART, and one that leaves it. -/
theorem vecOut_precise {s : State} {p : VecSpec} (hd : p.vd.toNat < 48) (hf : p.flags = 0) (hv : p.vstart = 0) {r : VecReg}
    (h : Holds s p r) : VecOut s (s.putV p.vd r).takeVstart.retire p := by
  have := vecOut_reg hd h s.free State.takeVstart (.inl ⟨hv, fun _ => rfl⟩)
  rwa [hf, State.orFlags_zero] at this

theorem vecOut_whole {s : State} {p : VecSpec} (hd : p.vd.toNat < 48) (hf : p.flags = 0) (hv : p.vstart = s.cc.vstart)
    {r : VecReg} (h : Holds s p r) : VecOut s (s.putV p.vd r).retire p := by
  have := vecOut_reg hd h s.free id (.inr ⟨hv, fun _ => rfl⟩)
  rwa [hf, State.orFlags_zero] at this

/-- A register into which elements have been written holds what a specification of just these elements gives. -/
theorem holds_writeElems {s : State} {p : VecSpec} {vs : Nat} {is : List Nat} {bits : Nat → Nat} (hn : is.Nodup)
    (hw : ∀ i, i < s.vlN → (p.writes i = true ↔ i ∈ is))
    (hs : ∀ i, i < s.vlN → i ∈ is → p.slot i = fillSlot p.tag (bits i))
    (hside : p.side = sideAfter (s.getV p.vd).side p.tag vs s.vlN) :
    Holds s p (writeElems (s.getV p.vd) p.tag vs s.vlN (is.map fun i => (i, bits i))) := by
  have hnodup : ((is.map fun i => (i, bits i)).map (·.1)).Nodup := by simpa [Function.comp_def] using hn
  have hslot := fun i (hi : i < vlmax p.tag) => slotOf_writeElems (s.getV p.vd) p.tag vs s.vlN _ i hnodup hi
  simp only [find_map_pair] at hslot
  refine ⟨rfl, fun i hi hm hx => ?_, fun i hi hm hx => ?_, fun i hi hm => ?_, hside.symm⟩
  · have hmem : i ∈ is := (hw i hi).1 hx
    rw [hslot i hm, if_pos hi, if_pos hmem, hs i hi hmem]
  · have hmem : i ∉ is := fun h => Bool.false_ne_true (hx.symm.trans ((hw i hi).2 h))
    rw [hslot i hm, if_pos hi, if_neg hmem]
  · rw [hslot i hm, if_neg (Nat.not_lt.2 hi)]

/-! ### Single-operand instructions (R166 to R168) -/

section
variable {s : State} {vd va : VReg}

/-- Past the checks of R157 an instruction of one operand goes on with its tag. -/
theorem unaryChecks_bind {p : VecSpec} (hr : VecReady s p) {ok : Tag → Bool} (hvd : p.vd = vd)
    (hok : p.tagsOk = ok (s.getV va).tag) (hlens : p.lens = [(s.getV va).tag]) {α : Type} (k : Tag → Except Stop α) :
    (unaryChecks s vd va ok >>= k) = k (s.getV va).tag := by
  have h := hr.checks_ok (s.getV va).tag 0 0 fun _ => Except.ok (s.getV va).tag
  rw [hvd, hok, hlens] at h
  have hchecks : unaryChecks s vd va ok = .ok (s.getV va).tag := h
  rw [hchecks, except_bind_ok]

/-- The specification of an instruction of one operand whose tag `ok` admits. -/
def State.vecOne (s : State) (vd va : VReg) (ok : Tag → Bool) (f : Tag → Nat → Nat × Flags) : VecSpec :=
  s.vecElems vd (s.getV va).tag (ok (s.getV va).tag) [(s.getV va).tag] 0 (f (s.getV va).tag)

/-- An instruction of one operand computes its active elements. -/
theorem vecOne_out {ok : Tag → Bool} {f F : Tag → Nat → Nat × Flags} (hr : VecReady s (s.vecOne vd va ok f))
    (hF : F (s.getV va).tag = f (s.getV va).tag) :
    ∃ u, finish (unaryChecks s vd va ok >>= fun t => .ok (s.elemwise vd t (F t))) = .next u ∧
      VecOut s u (s.vecOne vd va ok f) := by
  refine ⟨_, congrArg finish (unaryChecks_bind (va := va) (ok := ok) hr rfl rfl rfl _), ?_⟩
  have hout := elemwise_out hr.whole vd (s.getV va).tag (ok (s.getV va).tag) [(s.getV va).tag] (F (s.getV va).tag) hr.vd
  rw [State.vecOne, ← hF]
  exact hout

/-- VNEG and VABS: an integer by `fi`, wrapped; a floating-point code by its sign. -/
theorem vecSign_out {fi : Int → Int} {g : Bool → Bool} {p : VecSpec}
    (h : s.vecOne vd va (fun t => isInt t || isFlt t) (fun t k =>
      if isInt t then intElem t (fi (intAt (s.getV va).data t k)) else signElem t g (bitsOf (s.getV va).data t k)) = p)
    (hr : VecReady s p) : ∃ u, s.vecSign vd va fi g = .next u ∧ VecOut s u p := by
  subst h
  exact vecOne_out hr rfl

/-- The functions of R167: the exact result, rounded once. -/
theorem vecFunc_out {g : Val → Val × Flags} {p : VecSpec}
    (h : s.vecOne vd va isFlt (fun t k => fltElem t s.cc.rm (g (valOf (s.getV va).data t k))) = p)
    (hr : VecReady s p) : ∃ u, s.vecFunc vd va g = .next u ∧ VecOut s u p := by
  subst h
  exact vecOne_out hr rfl

end

/-- VCLASS gives each active element the bit of its class. -/
theorem execVclass_out {s : State} {vd va : VReg} {p : VecSpec} (h : vecUnary (.vclass vd va) s = some p) (hr : VecReady s p) :
    ∃ t, execVclass vd va s = .next t ∧ VecOut s t p := by
  obtain rfl := Option.some.inj h
  have hout := elemwise_out hr.whole vd tUI16 (isFlt (s.getV va).tag) [(s.getV va).tag, tUI16]
    (fun k => (2 ^ classBit (s.getV va).tag (bitsOf (s.getV va).data (s.getV va).tag k), 0)) hr.vd
  exact ⟨_, congrArg finish (hr.checks_ok _ _ _ _), hout⟩

/-- VBCAST gives each active element the third operand. -/
theorem execVbcast_out {s : State} {vd : VReg} {tag : Tag} {b : Third} {p : VecSpec}
    (h : vecUnary (.vbcast vd tag b) s = some p) (hr : VecReady s p) :
    ∃ t, execVbcast vd tag b s = .next t ∧ VecOut s t p := by
  obtain rfl := Option.some.inj h
  have hout := elemwise_imm_out hr.whole vd tag true [tag] b tag (fun k => (thirdBits s s.cc.rm tag b k, 0)) hr.vd
  exact ⟨_, congrArg finish (hr.checks_ok 0 0 0 _), hout⟩

theorem vecUnary_out {i : Instr} {s : State} {p : VecSpec} (h : vecUnary i s = some p) (hr : VecReady s p) :
    ∃ t, exec i s = .next t ∧ VecOut s t p := by
  unfold vecUnary at h
  split at h
  case h_10 => cases h
  case h_8 => exact execVclass_out h hr
  case h_9 => exact execVbcast_out h hr
  all_goals replace h := Option.some.inj h
  -- VNEG and VABS
  case h_1 => exact vecSign_out (fi := fun a => -a) (g := fun n => !n) h hr
  case h_2 => exact vecSign_out (fi := fun a => a.natAbs) (g := fun _ => false) h hr
  -- the functions of R167
  case h_3 => exact vecFunc_out (g := sqrtExact) h hr
  case h_4 => exact vecFunc_out (g := rcpExact) h hr
  case h_5 => exact vecFunc_out (g := rsqrtExact) h hr
  case h_6 => exact vecFunc_out (g := exp2Exact) h hr
  case h_7 => exact vecFunc_out (g := log2Exact) h hr

/-! ### Moves (R173, R174) -/

section
variable {s : State} {vd va : VReg}

/-- VSLUP writes the active elements from the amount up. -/
theorem execVslup_out {b : Third} {p : VecSpec} (h : vecMoves (.vslup vd va b) s = some p) (hr : VecReady s p) :
    ∃ t, execVslup vd va b s = .next t ∧ VecOut s t p := by
  obtain rfl := Option.some.inj h
  refine ⟨_, congrArg finish (unaryChecks_bind (va := va) (ok := isVal) hr rfl rfl rfl _),
    vecOut_precise hr.vd (s.vecFlags_zero fun _ => rfl) rfl (holds_writeElems ((actives_nodup s).filter _) (fun i hi => ?_)
      (fun i _ _ => rfl) rfl)⟩
  rw [List.mem_filter, ← s.activeAt_iff hr.whole i hi]
  exact Bool.and_eq_true_iff

theorem execVsldn_out {b : Third} {p : VecSpec} (h : vecMoves (.vsldn vd va b) s = some p) (hr : VecReady s p) :
    ∃ t, execVsldn vd va b s = .next t ∧ VecOut s t p := by
  obtain rfl := Option.some.inj h
  exact vecOne_out (f := fun t i => (bitsBelow (s.getV va).data t s.vlN (i + amount s b), 0)) (ok := isVal) hr rfl

theorem execVsl1up_out {xb : XReg} {p : VecSpec} (h : vecMoves (.vsl1up vd va xb) s = some p) (hr : VecReady s p) :
    ∃ t, execVsl1up vd va xb s = .next t ∧ VecOut s t p := by
  obtain rfl := Option.some.inj h
  exact vecOne_out (f := fun t i => (if i = 0 then (s.getX xb).toNat % 2 ^ memBits t
    else bitsBelow (s.getV va).data t s.vlN (i - 1), 0)) (ok := isVal) hr rfl

theorem execVsl1dn_out {xb : XReg} {p : VecSpec} (h : vecMoves (.vsl1dn vd va xb) s = some p) (hr : VecReady s p) :
    ∃ t, execVsl1dn vd va xb s = .next t ∧ VecOut s t p := by
  obtain rfl := Option.some.inj h
  exact vecOne_out (f := fun t i => (if i + 1 = s.vlN then (s.getX xb).toNat % 2 ^ memBits t
    else bitsBelow (s.getV va).data t s.vlN (i + 1), 0)) (ok := isVal) hr rfl

/-- VPERM reads the element that its index names, and zero for an index outside vl. -/
theorem execVperm_out {vb : VReg} {p : VecSpec} (h : vecMoves (.vperm vd va vb) s = some p) (hr : VecReady s p) :
    ∃ t, execVperm vd va vb s = .next t ∧ VecOut s t p := by
  obtain rfl := Option.some.inj h
  have hout := elemwise_out hr.whole vd (s.getV va).tag (isVal (s.getV va).tag && isInt (s.getV vb).tag)
    ([(s.getV va).tag] ++ [(s.getV vb).tag]) (fun i => (if 0 ≤ intAt (s.getV vb).data (s.getV vb).tag i
      then bitsBelow (s.getV va).data (s.getV va).tag s.vlN (intAt (s.getV vb).data (s.getV vb).tag i).toNat else 0, 0)) hr.vd
  refine ⟨_, ?_, hout⟩
  simp only [← not_lt, ite_not]
  exact congrArg finish (hr.checks_ok _ _ _ _)

/-- VCOMP writes every element: those whose mask bits are set, in order, then zeros. -/
theorem execVcomp_out {mb : MReg} {p : VecSpec} (h : vecMoves (.vcomp vd va mb) s = some p) (hr : VecReady s p) :
    ∃ t, execVcomp vd va mb s = .next t ∧ VecOut s t p := by
  obtain rfl := Option.some.inj h
  refine ⟨_, congrArg finish (unaryChecks_bind (va := va) (ok := isVal) hr rfl rfl rfl _),
    vecOut_whole hr.vd (s.vecFlags_zero fun _ => rfl) rfl (holds_writeElems List.nodup_range (fun i hi => ?_)
      (fun i hi _ => congrArg (fillSlot (s.getV va).tag) ?_) rfl)⟩
  · exact iff_of_true rfl (List.mem_range.2 hi)
  · rw [List.getElem?_map]
    dsimp only
    cases hj : ((List.range s.vlN).filter (s.getM mb).getLsbD)[i]? with
    | none => rfl
    | some j =>
      have hlt : j < s.vlN := List.mem_range.1 (List.mem_filter.1 (List.mem_of_getElem? hj)).1
      exact if_pos hlt

/-- VIOTA writes every element that the mask selects, whatever VSTART. -/
theorem execViota_out {tag : Tag} {mb : MReg} {p : VecSpec} (h : vecMoves (.viota vd tag mb) s = some p) (hr : VecReady s p) :
    ∃ t, execViota vd tag mb s = .next t ∧ VecOut s t p := by
  obtain rfl := Option.some.inj h
  refine ⟨_, congrArg finish (hr.checks_ok 0 0 0 _),
    vecOut_whole hr.vd (s.vecFlags_zero fun _ => rfl) rfl (holds_writeElems (activeFrom_nodup s 0) (fun i hi => ?_)
      (fun i _ _ => rfl) rfl)⟩
  rw [mem_activeFrom, s.activeMask_bit hr.whole]
  exact ⟨fun h => ⟨hi, Nat.zero_le i, h⟩, fun h => h.2.2⟩

/-- VINS writes one element, where it is active. -/
theorem execVins_out {xa : XReg} {b : Third} {p : VecSpec} (h : vecMoves (.vins vd xa b) s = some p) (hr : VecReady s p) :
    ∃ t, execVins vd xa b s = .next t ∧ VecOut s t p := by
  obtain rfl := Option.some.inj h
  have hes : (if s.actives.contains (amount s b) then [(amount s b, (s.getX xa).toNat % 2 ^ memBits (s.getV vd).tag)] else []) =
      (if s.actives.contains (amount s b) then [amount s b] else []).map
        fun i => (i, (s.getX xa).toNat % 2 ^ memBits (s.getV vd).tag) := by split <;> rfl
  have hmem : ∀ i, i ∈ (if s.actives.contains (amount s b) then [amount s b] else []) ↔
      i ∈ s.actives ∧ i = amount s b := by
    intro i
    split
    next h =>
      rw [List.mem_singleton, iff_and_self]
      rintro rfl
      exact List.contains_iff_mem.1 h
    next h =>
      refine iff_of_false List.not_mem_nil ?_
      rintro ⟨hi, rfl⟩
      exact h (List.contains_iff_mem.2 hi)
  refine ⟨_, ?_, vecOut_precise hr.vd (s.vecFlags_zero fun _ => rfl) rfl (holds_writeElems
    (is := if s.actives.contains (amount s b) then [amount s b] else [])
    (bits := fun _ => (s.getX xa).toNat % 2 ^ memBits (s.getV vd).tag) ?_ (fun i hi => ?_) (fun i _ _ => rfl) rfl)⟩
  · rw [← hes]
    exact congrArg finish (hr.checks_ok _ _ _ _)
  · split
    · exact List.nodup_singleton _
    · exact List.nodup_nil
  · rw [hmem, ← s.activeAt_iff hr.whole i hi]
    exact Bool.and_eq_true_iff.trans (and_congr_right' decide_eq_true_iff)

/-- The elements from VSTART to vl − 1. -/
theorem mem_allFrom (hw : s.cc.cut = none) (i : Nat) : i ∈ s.allFrom ↔ i < s.vlN ∧ s.cc.vstart.toNat ≤ i := by
  simp [State.allFrom, hw]

theorem allFrom_nodup : s.allFrom.Nodup := List.nodup_range.filter _

/-- What R173 gives VSEL: every element from VSTART, by the mask that VMSEL names. -/
def State.selSpec (s : State) (vd va : VReg) (b : Third) : VecSpec :=
  { s.vecThree vd va b (fun t => isVal t || t == tRAW) true fun t k =>
      (if s.member k then bitsOf (s.getV va).data t k else thirdBits s s.cc.rm t b k, 0) with
    writes := fun k => decide (s.cc.vstart.toNat ≤ k) }

theorem flagsOver_zero {f : Nat → Nat × Flags} (hf : ∀ i, (f i).2 = 0) (is : List Nat) : flagsOver is f = 0 := by
  induction is with
  | nil => rfl
  | cons i r ih => simpa [flagsOver, hf i] using ih

theorem selSpec_flags (hw : s.cc.cut = none) (b : Third) : (s.selSpec vd va b).flags = 0 ||| s.immFlags b (s.getV va).tag := by
  refine (s.vecFlags_eq hw b (s.getV va).tag _).trans (congrArg (· ||| s.immFlags b (s.getV va).tag) ?_)
  exact flagsOver_zero (fun _ => rfl) _

/-- VSEL writes every element from VSTART, and forms its immediate where one is active. -/
theorem execVsel_out {b : Third} (hr : VecReady s (s.selSpec vd va b)) :
    ∃ t, execVsel vd va b s = .next t ∧ VecOut s t (s.selSpec vd va b) := by
  have hchecks : vecChecks s vd va b (fun t => isVal t || t == tRAW) = .ok (s.getV va).tag := hr.checks_ok _ _ _ _
  have hholds := holds_writeElems (p := s.selSpec vd va b) (vs := s.cc.vstart.toNat) (is := s.allFrom) allFrom_nodup
    (fun i hi => by rw [mem_allFrom hr.whole]; simp [State.selSpec, hi]) (fun i _ _ => rfl) rfl
  have hout := vecOut_reg hr.vd hholds s.free State.takeVstart (.inl ⟨rfl, fun _ => rfl⟩)
  rw [selSpec_flags hr.whole, ← State.orFlags_precise_end, State.orFlags_zero, ← State.joinImm_eq] at hout
  refine ⟨_, ?_, hout⟩
  rw [execVsel, hchecks]
  simp only [s.activeMask_bit hr.whole]
  rfl

end

/-! ### Copies (R115, R168) -/

/-- A slot of a register into which slots of another have been copied. -/
theorem slotOf_copySlots (old src : BitVec 8192) (t : Tag) (vl : Nat) {is : List Nat} (hn : is.Nodup) {i : Nat}
    (hi : i < vlmax t) : slotOf (tailZero (copySlots (tagWidth t) old src is) (tagWidth t) vl) t i =
      if i < vl then if i ∈ is then slotOf src t i % 2 ^ tagWidth t else slotOf old t i else 0 := by
  have hfit := slot_fits t i hi
  have hnodup : ((is.map fun k => (k, slotOf src t k)).map (·.1)).Nodup := by simpa [Function.comp_def] using hn
  have hfold := fieldAt_foldl (tagWidth t) id _ old.toNat i hnodup
  rw [List.foldl_map, find_map_pair] at hfold
  rw [slotOf, tailZero, BitVec.toNat_ofNat, fieldAt_mod _ _ _ _ hfit]
  by_cases h : i < vl
  · have hbelow : tagWidth t * (i + 1) ≤ tagWidth t * vl := Nat.mul_le_mul_left _ h
    rw [Nat.mul_add, Nat.mul_one] at hbelow
    rw [if_pos h, fieldAt_mod _ _ _ _ hbelow]
    refine hfold.trans ?_
    by_cases hm : i ∈ is
    · rw [if_pos hm, if_pos hm]
      rfl
    · rw [if_neg hm, if_neg hm]
      rfl
  · rw [if_neg h, fieldAt_mod_zero _ _ _ _ (Nat.mul_le_mul_left _ (Nat.not_lt.1 h))]

/-- A register into which slots have been copied holds what a specification of just these slots gives. -/
theorem holds_copySlots {s : State} {p : VecSpec} {is : List Nat} {src r : VecReg} (hn : is.Nodup)
    (hdata : r.data = tailZero (copySlots (tagWidth p.tag) (s.getV p.vd).data src.data is) (tagWidth p.tag) s.vlN)
    (htag : r.tag = p.tag) (hside : r.side = p.side) (hw : ∀ i, i < s.vlN → (p.writes i = true ↔ i ∈ is))
    (hs : ∀ i, p.slot i = slotOf src.data p.tag i) : Holds s p r := by
  have hslot := fun i (hi : i < vlmax p.tag) => slotOf_copySlots (s.getV p.vd).data src.data p.tag s.vlN hn hi
  rw [← hdata] at hslot
  refine ⟨htag, fun i hi hm hx => ?_, fun i hi hm hx => ?_, fun i hi hm => ?_, hside⟩
  · rw [hslot i hm, if_pos hi, if_pos ((hw i hi).1 hx), hs i]
  · have hmem : i ∉ is := fun h => Bool.false_ne_true (hx.symm.trans ((hw i hi).2 h))
    rw [hslot i hm, if_pos hi, if_neg hmem]
  · rw [hslot i hm, if_neg (Nat.not_lt.2 hi)]

theorem vmovReg_data (s : State) (old src : VecReg) (t : Tag) : (s.vmovReg old src t).data =
    tailZero (copySlots (tagWidth t) old.data src.data s.actives) (tagWidth t) s.vlN := by
  unfold State.vmovReg
  split <;> rfl

theorem vmovReg_tag (s : State) (old src : VecReg) (t : Tag) : (s.vmovReg old src t).tag = t := by
  unfold State.vmovReg
  split <;> rfl

theorem vecCopies_out {i : Instr} {s : State} {p : VecSpec} (h : vecCopies i s = some p) (hr : VecReady s p) :
    ∃ t, exec i s = .next t ∧ VecOut s t p := by
  unfold vecCopies at h
  split at h
  case h_3 => cases h
  all_goals obtain rfl := Option.some.inj h
  case h_1 d a =>
    exact ⟨_, congrArg finish (unaryChecks_bind (va := a) (ok := fun _ => true) hr rfl rfl rfl _),
      vecOut_precise hr.vd rfl rfl (holds_copySlots (actives_nodup s) (vmovReg_data s _ _ _) (vmovReg_tag s _ _ _) rfl
        (fun i hi => s.activeAt_iff hr.whole i hi) fun _ => rfl)⟩
  case h_2 d a tag =>
    refine ⟨_, congrArg finish (hr.checks_ok 0 0 0 _),
      vecOut_precise hr.vd rfl rfl (holds_copySlots (src := s.getV a) allFrom_nodup rfl rfl rfl (fun i hi => ?_) fun _ => rfl)⟩
    rw [mem_allFrom hr.whole]
    simp [hi]

theorem vecMoves_out {i : Instr} {s : State} {p : VecSpec} (h : vecMoves i s = some p) (hr : VecReady s p) :
    ∃ t, exec i s = .next t ∧ VecOut s t p := by
  unfold vecMoves at h
  split at h
  case h_1 => exact execVslup_out h hr
  case h_2 => exact execVsldn_out h hr
  case h_3 => exact execVsl1up_out h hr
  case h_4 => exact execVsl1dn_out h hr
  case h_5 => exact execVperm_out h hr
  case h_6 => exact execVcomp_out h hr
  case h_7 => exact execViota_out h hr
  case h_8 =>
    obtain rfl := Option.some.inj h
    exact execVsel_out hr
  case h_9 => exact execVins_out h hr
  case h_10 => cases h

/-- Settles O30: each instruction computes its active elements, or writes the elements that its rule names, or copies slots. -/
theorem vectorOneSource : Obligations.VectorOneSource := by
  unfold Obligations.VectorOneSource
  exact ⟨fun _ _ _ h hr => vecUnary_out h hr, fun _ _ _ h hr => h.elim (vecMoves_out · hr) (vecCopies_out · hr)⟩

end Sys2Proof.Machine
end

section
/-! Reductions (R175): the register that holds one element, the bounds of what is reduced, and each reduction. -/

namespace Sys2Proof.Machine

/-! ### Bounds of elements (R96, R97) -/

theorem slotOf_lt (data : BitVec 8192) (t : Tag) (i : Nat) : slotOf data t i < 2 ^ tagWidth t :=
  Nat.mod_lt _ (Nat.two_pow_pos _)

theorem bitsOf_lt (data : BitVec 8192) (t : Tag) (i : Nat) : bitsOf data t i < 2 ^ tagWidth t := by
  unfold bitsOf
  split
  · exact (Nat.mod_le _ _).trans_lt (slotOf_lt data t i)
  · exact slotOf_lt data t i

theorem wrapBits_lt (w : Nat) (n : Int) : wrapBits w n < 2 ^ w := by
  have hpos : (0 : Int) < (2 ^ w : Nat) := by positivity
  have := Int.emod_lt_of_pos n hpos
  have := Int.emod_nonneg n hpos.ne'
  unfold wrapBits
  omega

theorem accInt_lt (accsat : Bool) (t : Tag) (n : Int) : accInt accsat t n < 2 ^ tagWidth t := wrapBits_lt _ _

theorem Fmt.code_lt {f : Fmt} {mag : Nat} (h : mag < 2 ^ (f.eb + f.mb)) (neg : Bool) :
    f.code neg mag < 2 ^ (f.eb + f.mb + 1) := by
  rw [Nat.pow_succ, Fmt.code]
  split <;> omega

/-- A code that a rounding delivers fits its format. -/
theorem Fmt.round_lt {f : Fmt} (htop : f.top + 1 < 2 ^ (f.eb + f.mb)) (hnan : f.cnan.getD 0 < 2 ^ (f.eb + f.mb + 1))
    (mode : BitVec 3) (v : Val) : (f.round mode v).1 < 2 ^ (f.eb + f.mb + 1) := by
  have hmax : ∀ neg, f.maxCode neg < 2 ^ (f.eb + f.mb + 1) := Fmt.code_lt (by omega)
  have hinf : ∀ neg, f.infCode neg < 2 ^ (f.eb + f.mb + 1) := fun neg => by
    unfold Fmt.infCode
    split
    · exact Fmt.code_lt htop neg
    · exact hmax neg
  have hover : ∀ neg, f.overflow mode neg < 2 ^ (f.eb + f.mb + 1) := fun neg => by
    unfold Fmt.overflow
    split
    · exact hmax neg
    · cases neg
      · exact hmax false
      · exact hinf true
    · cases neg
      · exact hinf false
      · exact hmax true
    · exact hinf neg
  cases v with
  | nan sig =>
    cases hc : f.cnan with
    | none => simp [Fmt.round, hc]
    | some c => simpa [Fmt.round, hc] using hnan
  | inf neg =>
    rw [Fmt.round]
    split
    · exact hinf neg
    · exact hmax neg
  | fin neg m e =>
    rw [Fmt.round]
    split
    · exact Fmt.code_lt (Nat.two_pow_pos _) neg
    · dsimp only
      split
      · exact hover neg
      · exact Fmt.code_lt (by omega) neg

theorem accRound_lt (accsat : Bool) (mode : BitVec 3) (v : Val) : (accRound accsat mode v).1 < 2 ^ 32 := by
  have hround := Fmt.round_lt (f := fmtFP32) (by decide) (by decide) mode v
  have hmax : ∀ neg, fmtFP32.maxCode neg < 2 ^ 32 := by decide
  unfold accRound
  cases v with
  | nan sig => exact hround
  | inf neg => exact hround
  | fin neg m e =>
    dsimp only
    split
    · exact hmax neg
    · exact hround

/-- A sum in FP32 has 32 bits, in the strict and in the free form. -/
theorem sumForm_lt (strict : Bool) (draw : Nat → Nat) (accsat : Bool) (mode : BitVec 3) {acc : Nat} (hacc : acc < 2 ^ 32)
    (ps : List (Val × Flags)) : (sumForm strict draw accsat mode acc ps).1 < 2 ^ 32 := by
  cases strict with
  | false => exact accRound_lt _ _ _
  | true =>
    have hfold : ∀ a : Nat × Flags, a.1 < 2 ^ 32 → (ps.foldl (accAdd accsat mode) a).1 < 2 ^ 32 := by
      induction ps with
      | nil => exact fun _ h => h
      | cons p r ih => exact fun a _ => ih _ (accRound_lt _ _ _)
    exact hfold _ hacc

theorem cnan_lt : ∀ t : Tag, isFlt t = true → (fmtOf t).cnan.getD 0 < 2 ^ tagWidth t := by decide

/-- The better of two elements is one of them, or the canonical NaN. -/
theorem pickElem_lt {t : Tag} (ht : (isFlt t || isInt t) = true) (max : Bool) {x y : Nat}
    (hx : x < 2 ^ tagWidth t) (hy : y < 2 ^ tagWidth t) :
    (pickElem t max x y).1 < 2 ^ tagWidth t := by
  unfold pickElem
  cases hi : isInt t with
  | true =>
    rw [if_pos rfl]
    dsimp only
    split
    · exact hy
    · exact hx
  | false =>
    rw [if_neg Bool.false_ne_true]
    dsimp only
    split
    · exact hx
    · exact hy
    · exact cnan_lt t (by simpa [hi] using ht)

theorem fillSlot_lt (t : Tag) {b : Nat} (h : b < 2 ^ tagWidth t) : fillSlot t b < 2 ^ tagWidth t := by
  have hsub : isSub t = true → tagWidth t = 8 := (by decide : ∀ t : Tag, isSub t = true → tagWidth t = 8) t
  have hsx : isSx t = true → tagWidth t = 8 ∧ 2 ^ sxK t ≤ 128 :=
    (by decide : ∀ t : Tag, isSx t = true → tagWidth t = 8 ∧ 2 ^ sxK t ≤ 128) t
  unfold fillSlot
  split
  next h4 =>
    rw [hsub (by simp [isSub, h4])]
    split <;> omega
  next h4 =>
    split
    next h2 =>
      rw [hsub (by simp [isSub, h2])]
      omega
    next h2 =>
      split
      next h =>
        obtain ⟨hwidth, hk⟩ := hsx h
        have := Nat.mod_lt b (Nat.two_pow_pos (sxK t))
        rw [hwidth]
        omega
      next => exact h

/-! ### A register that holds one element -/

theorem slotOf_firstOnly {t : Tag} (vl : Nat) {b : Nat} (hb : b < 2 ^ tagWidth t) {i : Nat} (hi : i < vlmax t) :
    slotOf (firstOnly t vl b).data t i = if vl = 0 then 0 else if i = 0 then fillSlot t b else 0 := by
  have hfill := fillSlot_lt t hb
  have hfit := slot_fits t i hi
  unfold firstOnly
  by_cases hvl : vl = 0
  · simp [hvl, slotOf, fieldAt]
  · have hlt : fillSlot t b < 2 ^ 8192 := hfill.trans_le (Nat.pow_le_pow_right Nat.two_pos (by omega))
    rw [if_neg hvl, if_neg hvl, slotOf, BitVec.toNat_ofNat, Nat.mod_eq_of_lt hlt, fieldAt, Nat.shiftRight_eq_div_pow]
    by_cases h0 : i = 0
    · rw [if_pos h0, h0, Nat.mul_zero, Nat.pow_zero, Nat.div_one, Nat.mod_eq_of_lt hfill]
    · have hle : tagWidth t ≤ tagWidth t * i := Nat.le_mul_of_pos_right _ (Nat.pos_of_ne_zero h0)
      rw [if_neg h0, Nat.div_eq_of_lt (hfill.trans_le (Nat.pow_le_pow_right Nat.two_pos hle)), Nat.zero_mod]

theorem oneElem_out {s : State} {vd : VReg} {tag : Tag} {ok : Bool} {len : Tag} {r : Nat × Flags} (hd : vd.toNat < 48)
    (hr : r.1 < 2 ^ tagWidth tag) (n : Nat) :
    VecOut s (((State.putV { s with free := n } vd (firstOnly tag s.vlN r.1)).orFlags r.2).retire)
      (s.oneElem vd tag ok len r) := by
  have hslot := fun i (hi : i < vlmax tag) => slotOf_firstOnly s.vlN hr hi
  have hholds : Holds s (s.oneElem vd tag ok len r) (firstOnly tag s.vlN r.1) := by
    refine ⟨rfl, fun i hi hm _ => ?_, fun _ _ _ hw => Bool.noConfusion hw, fun i hi hm => ?_, rfl⟩
    · have hlt : (if i = 0 then fillSlot tag r.1 else 0) < 2 ^ tagWidth tag := by
        split
        · exact fillSlot_lt tag hr
        · exact Nat.two_pow_pos _
      exact ((hslot i hm).trans (if_neg (Nat.ne_zero_of_lt hi))).trans (Nat.mod_eq_of_lt hlt).symm
    · refine (hslot i hm).trans ?_
      split
      · rfl
      next hvl => exact if_neg (by omega)
  exact vecOut_reg hd hholds n id (.inr ⟨rfl, fun _ => rfl⟩)

/-! ### The reductions (R111, R112, R175) -/

/-- The terms of a reduction are the elements below vl that the mask selects. -/
theorem State.terms_eq {s : State} (hw : s.cc.cut = none) : s.terms = (List.range s.vlN).filter s.member := by
  simp only [State.terms, State.activeFrom, s.activeMask_bit hw, Nat.zero_le, decide_true, Bool.true_and]

section
variable {s : State} {vd va vb : VReg} {p : VecSpec}

theorem redChecks_ok (hr : VecReady s p) {ok : Tag → Tag → Bool} (hvd : p.vd = vd)
    (hok : p.tagsOk = ok (s.getV va).tag (s.getV vb).tag) (hlens : p.lens = [(s.getV va).tag]) :
    redChecks s vd va vb ok = .ok ((s.getV va).tag, (s.getV vb).tag) := by
  have h := hr.checks_ok (s.getV va).tag (s.getV vb).tag 0 fun _ => Except.ok ((s.getV va).tag, (s.getV vb).tag)
  rw [hvd, hok, hlens] at h
  exact h

/-- What VREDSUM.S and VREDSUM.F deliver: the accumulator alone without a term, an integer sum, or a sum in FP32. -/
def State.sumResult (s : State) (strict : Bool) (va vb : VReg) : Nat × Flags :=
  let t := (s.getV va).tag
  let u := (s.getV vb).tag
  let acc := slotOf (s.getV vb).data u 0
  let is := (List.range s.vlN).filter s.member
  if is = [] then (acc, 0)
  else if isInt t then
    (accInt s.cc.accsat u (intAt (s.getV vb).data u 0 + (is.map fun k => intAt (s.getV va).data t k).sum), 0)
  else sumForm strict (if strict then fun _ => 0 else s.draw.1) s.cc.accsat s.cc.rm acc
    (is.map fun k => (valOf (s.getV va).data t k, flagIf (valOf (s.getV va).data t k).isSig fNV))

theorem State.sumResult_lt {strict : Bool} (ht : ((isFlt (s.getV va).tag || isInt (s.getV va).tag) &&
    (s.getV vb).tag == sumTag (s.getV va).tag) = true) : (s.sumResult strict va vb).1 < 2 ^ tagWidth (s.getV vb).tag := by
  unfold State.sumResult
  dsimp only
  split
  · exact slotOf_lt _ _ _
  · split
    · exact accInt_lt _ _ _
    next hi =>
      have hu : (s.getV vb).tag = tFP32 := by
        obtain ⟨hnum, hsum⟩ := Bool.and_eq_true_iff.1 ht
        rw [eq_of_beq hsum, sumTag, if_pos (by simpa [hi] using hnum)]
      rw [hu]
      exact sumForm_lt _ _ _ _ (slotOf_lt _ tFP32 _) _

/-- Past its checks a sum writes its result; only the free form of a sum in FP32 draws a free value. -/
theorem vecSum_eq {strict : Bool} (hw : s.cc.cut = none) (hchecks : redChecks s vd va vb
      (fun t u => (isFlt t || isInt t) && u == sumTag t) = .ok ((s.getV va).tag, (s.getV vb).tag)) :
    ∃ n, s.vecSum strict vd va vb = .next (((State.putV { s with free := n } vd
      (firstOnly (s.getV vb).tag s.vlN (s.sumResult strict va vb).1)).orFlags (s.sumResult strict va vb).2).retire) := by
  rw [State.vecSum, hchecks, State.sumResult, State.terms_eq hw]
  simp only [except_bind_ok, List.isEmpty_iff]
  by_cases hnone : (List.range s.vlN).filter s.member = []
  · rw [if_pos hnone, if_pos hnone]
    simp only [State.orFlags_zero]
    exact ⟨s.free, rfl⟩
  · rw [if_neg hnone, if_neg hnone]
    by_cases hi : isInt (s.getV va).tag = true
    · rw [if_pos hi, if_pos hi]
      simp only [State.orFlags_zero]
      exact ⟨s.free, rfl⟩
    · rw [if_neg hi, if_neg hi]
      cases strict with
      | true => exact ⟨s.free, rfl⟩
      | false => exact ⟨s.free + 1, rfl⟩

theorem vecSum_out {strict : Bool} (h : s.oneElem vd (s.getV vb).tag ((isFlt (s.getV va).tag || isInt (s.getV va).tag) &&
      (s.getV vb).tag == sumTag (s.getV va).tag) (s.getV va).tag (s.sumResult strict va vb) = p) (hr : VecReady s p) :
    ∃ t, s.vecSum strict vd va vb = .next t ∧ VecOut s t p := by
  subst h
  obtain ⟨n, hexec⟩ := vecSum_eq (strict := strict) hr.whole (redChecks_ok hr rfl rfl rfl)
  exact ⟨_, hexec, oneElem_out hr.vd (State.sumResult_lt hr.tags) n⟩

/-! ### Folds of elements under one tag -/

/-- The fold of a reduction whose terms and accumulator have one tag, with the flags of each step. -/
def State.foldResult (s : State) (va vb : VReg) (f : Tag → Nat → Nat → Nat × Flags) : Nat × Flags :=
  let t := (s.getV va).tag
  ((List.range s.vlN).filter s.member).foldl
    (fun r k => ((f t r.1 (bitsOf (s.getV va).data t k)).1, r.2 ||| (f t r.1 (bitsOf (s.getV va).data t k)).2))
    (bitsOf (s.getV vb).data t 0, 0)

theorem State.foldResult_lt {f : Tag → Nat → Nat → Nat × Flags} (hf : ∀ x y, x < 2 ^ tagWidth (s.getV va).tag →
    y < 2 ^ tagWidth (s.getV va).tag → (f (s.getV va).tag x y).1 < 2 ^ tagWidth (s.getV va).tag) :
    (s.foldResult va vb f).1 < 2 ^ tagWidth (s.getV va).tag := by
  have hfold : ∀ (is : List Nat) (a : Nat × Flags), a.1 < 2 ^ tagWidth (s.getV va).tag →
      (is.foldl (fun r k => ((f (s.getV va).tag r.1 (bitsOf (s.getV va).data (s.getV va).tag k)).1,
        r.2 ||| (f (s.getV va).tag r.1 (bitsOf (s.getV va).data (s.getV va).tag k)).2)) a).1 < 2 ^ tagWidth (s.getV va).tag := by
    intro is
    induction is with
    | nil => exact fun _ h => h
    | cons k r ih => exact fun a h => ih _ (hf _ _ h (bitsOf_lt _ _ _))
  exact hfold _ _ (bitsOf_lt _ _ _)

/-- A fold whose steps raise no flag is a fold of the bits alone. -/
theorem State.foldResult_plain (g : Nat → Nat → Nat) : s.foldResult va vb (fun _ x y => (g x y, 0)) =
    (((List.range s.vlN).filter s.member).foldl (fun a k => g a (bitsOf (s.getV va).data (s.getV va).tag k))
      (bitsOf (s.getV vb).data (s.getV va).tag 0), 0) := by
  have hfold : ∀ (is : List Nat) (a : Nat), is.foldl (fun (r : Nat × Flags) k =>
      (g r.1 (bitsOf (s.getV va).data (s.getV va).tag k), r.2 ||| (0 : Flags))) (a, 0) =
        (is.foldl (fun a k => g a (bitsOf (s.getV va).data (s.getV va).tag k)) a, 0) := by
    intro is
    induction is with
    | nil => exact fun _ => rfl
    | cons k r ih =>
      intro a
      have hor : (0 : Flags) ||| 0 = 0 := rfl
      rw [List.foldl_cons, List.foldl_cons, hor]
      exact ih _
  exact hfold _ _

/-- The specification of such a reduction. -/
def State.foldSpec (s : State) (vd va vb : VReg) (ok : Tag → Bool) (f : Tag → Nat → Nat → Nat × Flags) : VecSpec :=
  s.oneElem vd (s.getV va).tag (ok (s.getV va).tag && (s.getV vb).tag == (s.getV va).tag) (s.getV va).tag (s.foldResult va vb f)

theorem vecBest_out {max : Bool}
    (h : s.foldSpec vd va vb (fun t => isFlt t || isInt t) (fun t x y => pickElem t max x y) = p) (hr : VecReady s p) :
    ∃ t, s.vecBest max vd va vb = .next t ∧ VecOut s t p := by
  subst h
  have hchecks : redChecks s vd va vb (fun t u => (isFlt t || isInt t) && u == t) = _ := redChecks_ok hr rfl rfl rfl
  refine ⟨_, ?_, oneElem_out hr.vd (State.foldResult_lt fun x y => pickElem_lt (Bool.and_eq_true_iff.1 hr.tags).1 max) s.free⟩
  rw [State.vecBest, hchecks, State.terms_eq hr.whole]
  rfl

theorem vecLogic_out {g : Nat → Nat → Nat} (hg : ∀ w x y, x < 2 ^ w → y < 2 ^ w → g x y < 2 ^ w)
    (h : s.foldSpec vd va vb isInt (fun _ x y => (g x y, 0)) = p) (hr : VecReady s p) :
    ∃ t, s.vecLogic g vd va vb = .next t ∧ VecOut s t p := by
  subst h
  have hchecks : redChecks s vd va vb (fun t u => isInt t && u == t) = _ := redChecks_ok hr rfl rfl rfl
  refine ⟨_, ?_, oneElem_out hr.vd (State.foldResult_lt fun x y => hg _ x y) s.free⟩
  rw [State.vecLogic, hchecks, State.terms_eq hr.whole, State.foldResult_plain, State.orFlags_zero]
  rfl

end

/-- Settles O32: each reduction writes one element, which is a sum or a fold over the terms. -/
theorem vectorReductions : Obligations.VectorReductions := by
  unfold Obligations.VectorReductions
  intro i s p h hr
  unfold vecReduce at h
  split at h
  case h_8 => cases h
  all_goals replace h := Option.some.inj h
  -- VREDSUM.S and VREDSUM.F
  case h_1 => exact vecSum_out (strict := true) h hr
  case h_2 => exact vecSum_out (strict := false) h hr
  -- VREDMAX and VREDMIN
  case h_3 => exact vecBest_out (max := true) h hr
  case h_4 => exact vecBest_out (max := false) h hr
  -- VREDAND, VREDOR and VREDXOR
  case h_5 => exact vecLogic_out (g := fun x y => x &&& y) (fun _ x _ _ hy => Nat.and_lt_two_pow x hy) h hr
  case h_6 => exact vecLogic_out (g := fun x y => x ||| y) (fun _ _ _ => Nat.or_lt_two_pow) h hr
  case h_7 => exact vecLogic_out (g := fun x y => x ^^^ y) (fun _ _ _ => Nat.xor_lt_two_pow) h hr

end Sys2Proof.Machine
end

section
/-! VBEST.MAX and VBEST.MIN (R176): four registers, two of which hold the pairs that win and two the others; the elements
where the candidate is better change places. -/

namespace Sys2Proof.Machine

theorem flagIf_eq_ite {b : Bool} {P : Prop} [Decidable P] (h : b = true ↔ P) (f : Flags) : flagIf b f = if P then f else 0 := by
  by_cases hb : b = true
  · rw [flagIf, if_pos hb, if_pos (h.1 hb)]
  · rw [flagIf, if_neg hb, if_neg fun hP => hb (h.2 hP)]

theorem State.any_actives {s : State} (hw : s.cc.cut = none) {p : Nat → Bool} {P : Nat → Prop}
    (h : ∀ i, p i = true ↔ P i) :
    s.actives.any p = true ↔ ∃ i, i < s.vlN ∧ (s.activeAt i = true ∧ P i) := by
  rw [List.any_eq_true]
  constructor
  · rintro ⟨i, hi, hp⟩
    have hlt := ((mem_actives s i).1 hi).1
    exact ⟨i, hlt, (s.activeAt_iff hw i hlt).2 hi, (h i).1 hp⟩
  · rintro ⟨i, hlt, ha, hP⟩
    exact ⟨i, (s.activeAt_iff hw i hlt).1 ha, (h i).2 hP⟩

/-! ### Elements that are copied bit for bit -/

/-- The bits that stand in a slot, from the slot. -/
theorem bitsOf_eq_of_slot {data data' : BitVec 8192} {t : Tag} {i : Nat} (h : slotOf data t i = slotOf data' t i) :
    bitsOf data t i = bitsOf data' t i := by
  rw [bitsOf, bitsOf, h]

/-- A slot filled with the bits of an element holds these bits. -/
theorem bitsOf_of_fillSlot {t : Tag} (hsx : isSx t = false) {data src : BitVec 8192} {i j : Nat}
    (h : slotOf data t i = fillSlot t (bitsOf src t j) % 2 ^ tagWidth t) : bitsOf data t i = bitsOf src t j := by
  have hlt := bitsOf_lt src t j
  cases hsub : isSub t with
  | false =>
    rw [fillSlot_plain t hsub hsx, Nat.mod_eq_of_lt hlt] at h
    rw [bitsOf, if_neg (by simp [hsub]), h]
  | true =>
    have hwidth : tagWidth t = 8 := (by decide : ∀ t : Tag, isSub t = true → tagWidth t = 8) t hsub
    have hnibble : bitsOf src t j < 16 := by
      rw [bitsOf, if_pos hsub]
      exact Nat.mod_lt _ (by decide)
    have hfill : fillSlot t (bitsOf src t j) % 16 = bitsOf src t j := by
      unfold fillSlot
      split
      · split <;> omega
      · rw [if_pos (by simpa [isSub, *] using hsub)]
        omega
    rw [hwidth] at h
    rw [bitsOf, if_pos hsub, h]
    omega

/-- A register with some elements of another under a tag. -/
def State.exchanged (s : State) (is : List Nat) (old src : VecReg) (t : Tag) : VecReg :=
  writeElems old t s.cc.vstart.toNat s.vlN (is.map fun i => (i, bitsOf src.data t i))

section
variable {s : State} {is : List Nat} {old src : VecReg} {t : Tag}

theorem exchanged_bits (hn : is.Nodup) (hsx : isSx t = false) {i : Nat} (hi : i < s.vlN) (hm : i < vlmax t) :
    bitsOf (s.exchanged is old src t).data t i = bitsOf (if i ∈ is then src else old).data t i := by
  have hnodup : ((is.map fun i => (i, bitsOf src.data t i)).map (·.1)).Nodup := by simpa [Function.comp_def] using hn
  have hslot := slotOf_writeElems old t s.cc.vstart.toNat s.vlN _ i hnodup hm
  rw [if_pos hi, find_map_pair] at hslot
  by_cases h : i ∈ is
  · rw [if_pos h] at hslot ⊢
    exact bitsOf_of_fillSlot hsx hslot
  · rw [if_neg h] at hslot ⊢
    exact bitsOf_eq_of_slot hslot

theorem exchanged_tail (hn : is.Nodup) {i : Nat} (hi : s.vlN ≤ i) (hm : i < vlmax t) :
    slotOf (s.exchanged is old src t).data t i = 0 := by
  have hnodup : ((is.map fun i => (i, bitsOf src.data t i)).map (·.1)).Nodup := by simpa [Function.comp_def] using hn
  exact (slotOf_writeElems old t s.cc.vstart.toNat s.vlN _ i hnodup hm).trans (if_neg (Nat.not_lt.2 hi))

end

/-! ### The exchange of the pairs -/

/-- The elements where the candidate (vcv, vci) is better than (vv, vi). -/
def State.pairSwaps (s : State) (max : Bool) (vv vi vcv vci : VReg) : List Nat :=
  s.actives.filter fun i => better max (valOf (s.getV vcv).data (s.getV vv).tag i) (intAt (s.getV vci).data (s.getV vi).tag i)
    (valOf (s.getV vv).data (s.getV vv).tag i) (intAt (s.getV vi).data (s.getV vi).tag i)

/-- The four registers after the exchange. -/
def State.swapped (s : State) (is : List Nat) (vv vi vcv vci : VReg) : State :=
  (((s.putV vv (s.exchanged is (s.getV vv) (s.getV vcv) (s.getV vv).tag)).putV vi
    (s.exchanged is (s.getV vi) (s.getV vci) (s.getV vi).tag)).putV vcv
    (s.exchanged is (s.getV vcv) (s.getV vv) (s.getV vv).tag)).putV vci
    (s.exchanged is (s.getV vci) (s.getV vi) (s.getV vi).tag)

section
variable {s : State} {vv vi vcv vci : VReg}

/-- Four distinct registers of vectors. -/
structure FourRegs (vv vi vcv vci : VReg) : Prop where
  vv_vi : vv ≠ vi
  vv_vcv : vv ≠ vcv
  vv_vci : vv ≠ vci
  vi_vcv : vi ≠ vcv
  vi_vci : vi ≠ vci
  vcv_vci : vcv ≠ vci
  vv : vv.toNat < 48
  vi : vi.toNat < 48
  vcv : vcv.toNat < 48
  vci : vci.toNat < 48

theorem swapped_getV (h : FourRegs vv vi vcv vci) (is : List Nat) (r : VReg) :
    (s.swapped is vv vi vcv vci).getV r =
      if r = vci then s.exchanged is (s.getV vci) (s.getV vi) (s.getV vi).tag
      else if r = vcv then s.exchanged is (s.getV vcv) (s.getV vv) (s.getV vv).tag
      else if r = vi then s.exchanged is (s.getV vi) (s.getV vci) (s.getV vi).tag
      else if r = vv then s.exchanged is (s.getV vv) (s.getV vcv) (s.getV vv).tag
      else s.getV r := by
  rw [State.swapped, State.getV_putV _ _ _ _ h.vci, State.getV_putV _ _ _ _ h.vcv, State.getV_putV _ _ _ _ h.vi,
    State.getV_putV _ _ _ _ h.vv]

/-- Nothing but vector registers changes in the exchange. -/
structure KeepsButVectors (s u : State) : Prop where
  pc : u.cc.pc = s.cc.pc
  retired : u.cc.retired = s.cc.retired
  x : u.cc.x = s.cc.x
  m : u.cc.m = s.cc.m
  fcsr : u.cc.fcsr = s.cc.fcsr
  mem : u.mem = s.mem

theorem swapped_keeps (is : List Nat) : KeepsButVectors s (s.swapped is vv vi vcv vci) := by
  constructor <;> simp [State.swapped]

/-- Past its checks VBEST exchanges the pairs, and flags a signalling NaN among the active values. -/
theorem vecPairs_eq {max : Bool} (hg : pushGuard s [vCode vv, vCode vi, vCode vcv, vCode vci] = .ok ())
    (hval : (isInt (s.getV vv).tag || isFlt (s.getV vv).tag) = true) (hcv : (s.getV vcv).tag = (s.getV vv).tag)
    (hidx : isInt (s.getV vi).tag = true) (hci : (s.getV vci).tag = (s.getV vi).tag)
    (hv : s.vlN ≤ vlmax (s.getV vv).tag) (hi : s.vlN ≤ vlmax (s.getV vi).tag) :
    s.vecPairs max vv vi vcv vci = .next (((s.swapped (s.pairSwaps max vv vi vcv vci) vv vi vcv vci).orFlags
      (flagIf (s.actives.any fun i => (valOf (s.getV vcv).data (s.getV vv).tag i).isSig ||
        (valOf (s.getV vv).data (s.getV vv).tag i).isSig) fNV)).takeVstart.retire) := by
  have hlen : lenCheck s [(s.getV vv).tag, (s.getV vv).tag, (s.getV vi).tag, (s.getV vi).tag] = .ok () :=
    lenCheck_ok (by simp [hv, hi])
  simp only [State.vecPairs, hg, hcv, hci, hval, hidx, hlen, except_bind_ok, beq_self_eq_true, Bool.and_self, Bool.not_true,
    Bool.false_eq_true, if_false]
  rfl

theorem mem_pairSwaps (hw : s.cc.cut = none) (max : Bool) {i : Nat} (hi : i < s.vlN) :
    i ∈ s.pairSwaps max vv vi vcv vci ↔ (s.activeAt i && better max (valOf (s.getV vcv).data (s.getV vv).tag i)
      (intAt (s.getV vci).data (s.getV vi).tag i) (valOf (s.getV vv).data (s.getV vv).tag i)
      (intAt (s.getV vi).data (s.getV vi).tag i)) = true := by
  rw [State.pairSwaps, List.mem_filter, ← s.activeAt_iff hw i hi, Bool.and_eq_true_iff]

theorem pairSwaps_nodup (max : Bool) : (s.pairSwaps max vv vi vcv vci).Nodup := (actives_nodup s).filter _

/-- Bits of the one register or the other, by whether an element is listed. -/
theorem bitsOf_ite {P : Prop} [Decidable P] {c : Bool} (h : P ↔ c = true) (a b : VReg) (t : Tag) (i : Nat) :
    bitsOf (if P then s.getV a else s.getV b).data t i = bitsOf (s.getV (if c then a else b)).data t i := by
  by_cases hP : P
  · rw [if_pos hP, if_pos (h.1 hP)]
  · rw [if_neg hP, if_neg fun hc => hP (h.2 hc)]

end

/-- Settles O34: what VBEST writes is the exchange of the elements where the candidate is better. -/
theorem bestPairs : Obligations.BestPairs := by
  unfold Obligations.BestPairs
  intro s vv vi vcv vci max hven hcut hcarry hdist hvv hvi hvcv hvci hval hcv hidx hci hv hi
  obtain ⟨⟨⟨⟨⟨h1, h2⟩, h3⟩, h4⟩, h5⟩, h6⟩ : ((((vv ≠ vi ∧ vv ≠ vcv) ∧ vv ≠ vci) ∧ vi ≠ vcv) ∧ vi ≠ vci) ∧ vcv ≠ vci := by
    simpa [distinct4] using hdist
  have hregs : FourRegs vv vi vcv vci := ⟨h1, h2, h3, h4, h5, h6, hvv, hvi, hvcv, hvci⟩
  have hg : pushGuard s [vCode vv, vCode vi, vCode vcv, vCode vci] = .ok () :=
    pushGuard_ok hven fun ha hl => absurd hl (by simp [hcarry ha])
  have hexec : exec (if max then .vbestMax vv vi vcv vci else .vbestMin vv vi vcv vci) s = s.vecPairs max vv vi vcv vci := by
    cases max <;> rfl
  dsimp only
  rw [hexec, vecPairs_eq hg hval hcv hidx hci hv hi]
  have hget := swapped_getV (s := s) hregs (s.pairSwaps max vv vi vcv vci)
  obtain ⟨hpc, hret, hx, hm, hfcsr, hmem⟩ :=
    swapped_keeps (s := s) (vv := vv) (vi := vi) (vcv := vcv) (vci := vci) (s.pairSwaps max vv vi vcv vci)
  generalize s.swapped (s.pairSwaps max vv vi vcv vci) vv vi vcv vci = w at hget hpc hret hx hm hfcsr hmem ⊢
  refine ⟨_, rfl, retires_retire hpc hret, ?bytes, ?flags, hx, hm, rfl, ?others, ?tags⟩
  case bytes => exact fun a => congrArg (Memory.read · a) hmem
  case flags =>
    have hsig := State.any_actives hcut (p := fun i => (valOf (s.getV vcv).data (s.getV vv).tag i).isSig ||
      (valOf (s.getV vv).data (s.getV vv).tag i).isSig) fun i => Bool.or_eq_true_iff.trans or_comm
    rw [FlagsSet, ← hfcsr, ← flagIf_eq_ite hsig]
    rfl
  case others =>
    intro r hr1 hr2 hr3 hr4
    exact (hget r).trans (by rw [if_neg hr4, if_neg hr3, if_neg hr2, if_neg hr1])
  case tags =>
    have hsxv : isSx (s.getV vv).tag = false :=
      (by decide : ∀ t : Tag, (isInt t || isFlt t) = true → isSx t = false) _ hval
    have hsxi : isSx (s.getV vi).tag = false := (by decide : ∀ t : Tag, isInt t = true → isSx t = false) _ hidx
    have hnodup := pairSwaps_nodup (s := s) (vv := vv) (vi := vi) (vcv := vcv) (vci := vci) max
    have hread : ∀ r, (((w.orFlags (flagIf (s.actives.any fun i => (valOf (s.getV vcv).data (s.getV vv).tag i).isSig ||
        (valOf (s.getV vv).data (s.getV vv).tag i).isSig) fNV)).takeVstart).retire).getV r = w.getV r := fun _ => rfl
    simp only [hread, hget, if_neg h1, if_neg h2, if_neg h3, if_neg h4, if_neg h5, if_neg h6, if_true]
    refine ⟨rfl, rfl, rfl, rfl, fun i hlt => ?_,
      fun i hge hlt => ⟨exchanged_tail hnodup hge hlt, exchanged_tail hnodup hge hlt⟩,
      fun i hge hlt => ⟨exchanged_tail hnodup hge hlt, exchanged_tail hnodup hge hlt⟩⟩
    have hwins := mem_pairSwaps (vv := vv) (vi := vi) (vcv := vcv) (vci := vci) hcut max hlt
    rw [exchanged_bits hnodup hsxv hlt (hlt.trans_le hv), exchanged_bits hnodup hsxv hlt (hlt.trans_le hv),
      exchanged_bits hnodup hsxi hlt (hlt.trans_le hi), exchanged_bits hnodup hsxi hlt (hlt.trans_le hi)]
    exact ⟨bitsOf_ite hwins .., bitsOf_ite hwins .., bitsOf_ite hwins .., bitsOf_ite hwins ..⟩

end Sys2Proof.Machine
end

section
/-! The order of values that are no NaN, −0 below +0 (R137, R175): it is the order of keys, so it is linear. -/

namespace Sys2Proof.Machine

/-- The number that a finite value stands for. -/
def ratOf (neg : Bool) (m : Nat) (e : Int) : ℚ := (if neg then -(m : ℚ) else m) * 2 ^ e

/-- The key of a value in the order: infinities at the ends, then the number, then the sign of a zero. -/
def Val.key : Val → ℤ ×ₗ ℚ ×ₗ ℤ
  | .nan _ => toLex (0, toLex (0, 0))
  | .inf neg => toLex (if neg then -1 else 1, toLex (0, 0))
  | .fin neg m e => toLex (0, toLex (ratOf neg m e, if m = 0 ∧ neg = false then 1 else 0))

theorem dyAt_ratOf {e0 : Int} {neg : Bool} {m : Nat} {e : Int} (h : e0 ≤ e) :
    (dyAt e0 neg m e : ℚ) * 2 ^ e0 = ratOf neg m e := by
  have hexp : ((e - e0).toNat : ℤ) = e - e0 := Int.toNat_of_nonneg (by omega)
  have hpow : (2 : ℚ) ^ (e - e0).toNat * 2 ^ e0 = 2 ^ e := by
    rw [← zpow_natCast, hexp, ← zpow_add₀ two_ne_zero, sub_add_cancel]
  cases neg <;> simp [dyAt, ratOf, mul_assoc, hpow]

/-- Mantissas over a common exponent compare as the numbers do. -/
theorem dyAt_lt_iff {e0 : Int} {n n' : Bool} {m m' : Nat} {e e' : Int} (h : e0 ≤ e) (h' : e0 ≤ e') :
    dyAt e0 n m e < dyAt e0 n' m' e' ↔ ratOf n m e < ratOf n' m' e' := by
  rw [← dyAt_ratOf h, ← dyAt_ratOf h', mul_lt_mul_iff_left₀ (zpow_pos two_pos e0), Int.cast_lt]

theorem dyAt_eq_iff {e0 : Int} {n n' : Bool} {m m' : Nat} {e e' : Int} (h : e0 ≤ e) (h' : e0 ≤ e') :
    dyAt e0 n m e = dyAt e0 n' m' e' ↔ ratOf n m e = ratOf n' m' e' := by
  rw [← dyAt_ratOf h, ← dyAt_ratOf h', mul_left_inj' (zpow_ne_zero e0 two_ne_zero), Int.cast_inj]

theorem ratOf_eq_zero_iff {neg : Bool} {m : Nat} {e : Int} : ratOf neg m e = 0 ↔ m = 0 := by
  have : (2 : ℚ) ^ e ≠ 0 := zpow_ne_zero e two_ne_zero
  cases neg <;> simp [ratOf, this]

theorem ltTotal_fin_iff (n n' : Bool) (m m' : Nat) (e e' : Int) :
    ltTotal (.fin n m e) (.fin n' m' e') = true ↔ (Val.fin n m e).key < (Val.fin n' m' e').key := by
  have hlt := dyAt_lt_iff (n := n) (n' := n') (m := m) (m' := m') (min_le_left e e') (min_le_right e e')
  have heq := dyAt_eq_iff (n := n) (n' := n') (m := m) (m' := m') (min_le_left e e') (min_le_right e e')
  have hgt := dyAt_lt_iff (n := n') (n' := n) (m := m') (m' := m) (min_le_right e e') (min_le_left e e')
  simp only [Val.key, Prod.Lex.toLex_lt_toLex, lt_self_iff_false, true_and, false_or]
  rcases lt_trichotomy (dyAt (min e e') n m e) (dyAt (min e e') n' m' e') with h | h | h
  · have hcmp : cmpVal (.fin n m e) (.fin n' m' e') = .lt := compare_lt_iff_lt.2 h
    have hq := hlt.1 h
    simp [ltTotal, cmpTotal, hcmp, hq]
  · have hcmp : cmpVal (.fin n m e) (.fin n' m' e') = .eq := compare_eq_iff_eq.2 h
    have hq := heq.1 h
    have hz : m = 0 ↔ m' = 0 := by rw [← ratOf_eq_zero_iff (neg := n) (e := e), hq, ratOf_eq_zero_iff]
    simp only [ltTotal, cmpTotal, hcmp, hq, lt_self_iff_false, true_and, false_or, Val.isZero, Val.sign]
    by_cases hm : m = 0
    · have hm' := hz.1 hm
      subst hm hm'
      cases n <;> cases n' <;> simp
    · have hm' : m' ≠ 0 := fun h => hm (hz.2 h)
      simp [hm, hm']
  · have hcmp : cmpVal (.fin n m e) (.fin n' m' e') = .gt := compare_gt_iff_gt.2 h
    have hq := hgt.1 h
    simp [ltTotal, cmpTotal, hcmp, hq.not_gt, hq.ne']

/-- Values that are no NaN are ordered as their keys. -/
theorem ltTotal_iff {a b : Val} (ha : a.isNan = false) (hb : b.isNan = false) : ltTotal a b = true ↔ a.key < b.key := by
  cases a with
  | nan sig => cases ha
  | inf n =>
    cases b with
    | nan sig => cases hb
    | inf n' => cases n <;> cases n' <;> simp [ltTotal, cmpTotal, cmpVal, Val.key, Val.isZero, Prod.Lex.toLex_lt_toLex]
    | fin n' m' e' => cases n <;> simp [ltTotal, cmpTotal, cmpVal, Val.key, Prod.Lex.toLex_lt_toLex]
  | fin n m e =>
    cases b with
    | nan sig => cases hb
    | inf n' => cases n' <;> simp [ltTotal, cmpTotal, cmpVal, Val.key, Prod.Lex.toLex_lt_toLex]
    | fin n' m' e' => exact ltTotal_fin_iff n n' m m' e e'

/-! ### The first of the best (R175) -/

/-- What `List.argmax` takes of ascending indices is better than every index before it. -/
theorem lt_of_argmax_of_lt {β : Type} [LinearOrder β] {κ : Nat → β} {is : List Nat} (hs : is.Pairwise (· < ·)) {k j : Nat}
    (hk : k ∈ is.argmax κ) (hj : j ∈ is) (hlt : j < k) : κ j < κ k := by
  by_contra hle
  have hidx := List.index_of_argmax hk hj (not_lt.1 hle)
  have hj' := List.idxOf_lt_length_of_mem hj
  have hk' := List.idxOf_lt_length_of_mem (List.argmax_mem hk)
  have hmono := (List.pairwise_iff_getElem.1 hs) _ _ hk' hj'
  rw [List.getElem_idxOf, List.getElem_idxOf] at hmono
  rcases hidx.lt_or_eq with h | h
  · exact absurd (hmono h) (by omega)
  · exact hlt.ne ((List.idxOf_inj hj).1 h.symm)

/-- One step of `argBest`: the candidate takes the place of what has been found where it is better. -/
def argStep (max : Bool) (a : Option (Nat × Val)) (p : Nat × Val) : Option (Nat × Val) :=
  match a with
  | none => some p
  | some q => if (if max then ltTotal q.2 p.2 else ltTotal p.2 q.2) then some p else some q

theorem argBest_fold (max : Bool) (xs : List (Nat × Val)) :
    argBest max xs = ((xs.filter fun p => !p.2.isNan).foldl (argStep max) none).map (·.1) := rfl

section
variable {β : Type} [LinearOrder β] {κ : Nat → β} {max : Bool} {x : Nat → Val}
  (hκ : ∀ i j, (x i).isNan = false → (x j).isNan = false →
    ((if max then ltTotal (x i) (x j) else ltTotal (x j) (x i)) = true ↔ κ i < κ j))
include hκ

theorem foldl_argStep {is : List Nat} (his : ∀ i ∈ is, (x i).isNan = false) (a : Option Nat)
    (ha : ∀ i ∈ a, (x i).isNan = false) :
    ((is.map fun i => (i, x i)).foldl (argStep max) (a.map fun i => (i, x i))).map (·.1) =
      is.foldl (List.argAux fun i j => κ j < κ i) a := by
  induction is generalizing a with
  | nil => cases a <;> rfl
  | cons i r ih =>
    have hi : (x i).isNan = false := his i (.head _)
    have htail := ih fun j hj => his j (.tail _ hj)
    have hhead := htail (some i) fun j hj => Option.mem_some_iff.1 hj ▸ hi
    cases a with
    | none => exact hhead
    | some q =>
      have hq : (x q).isNan = false := ha q rfl
      have hbetter := hκ q i hq hi
      simp only [List.map_cons, List.foldl_cons, Option.map_some, argStep, List.argAux]
      by_cases hlt : κ q < κ i
      · rw [if_pos (hbetter.2 hlt), if_pos hlt]
        exact hhead
      · rw [if_neg fun h => hlt (hbetter.1 h), if_neg hlt]
        exact htail (some q) ha

/-- Of some values `argBest` takes the first of the best that are no NaN, in the order of their keys. -/
theorem argBest_eq (is : List Nat) :
    argBest max (is.map fun i => (i, x i)) = (is.filter fun i => !(x i).isNan).argmax κ := by
  rw [argBest_fold, List.filter_map]
  exact foldl_argStep hκ (fun i hi => by simpa using (List.mem_filter.1 hi).2) none nofun

end

end Sys2Proof.Machine
end

section
/-! Vector instructions that write a scalar register (R174, R175, R177). -/

namespace Sys2Proof.Machine

theorem vlN_lt (s : State) : s.vlN < 2048 := s.cc.vl.isLt

theorem toNat_ofNat_index {k : Nat} (h : k < 2048) : (BitVec.ofNat 64 k).toNat = k := Nat.mod_eq_of_lt (by omega)

/-- Past its checks an instruction that reads a vector register into a scalar one goes on. -/
theorem scalarChecks_ok {s : State} (hven : s.cc.ven = true) {ok : Bool} (hok : ok = true) {t : Tag} (hlen : s.vlN ≤ vlmax t)
    {α : Type} (a b d : Tag) (k : Unit → Except Stop α) :
    (needVector s >>= fun _ => tagCheck ok s a b d >>= fun _ => lenCheck s [t] >>= k) = k () := by
  have hl : lenCheck s [t] = .ok () := lenCheck_ok (by simpa using hlen)
  rw [needVector_ok hven, tagCheck_ok hok, hl]
  rfl

/-! ### VARGMAX and VARGMIN (R175) -/

section
variable {s : State} {a : VReg}

/-- The value of element k of a register. -/
def State.elemVal (s : State) (a : VReg) (k : Nat) : Val := valOf (s.getV a).data (s.getV a).tag k

/-- The index that VARGMAX and VARGMIN deliver; all ones where there is no term. -/
def State.argIndex (s : State) (max : Bool) (a : VReg) : Word :=
  match s.terms with
  | [] => BitVec.allOnes 64
  | k :: _ => BitVec.ofNat 64 ((argBest max (s.terms.map fun i => (i, s.elemVal a i))).getD k)

/-- NV where a term is a signalling NaN. -/
def State.argFlags (s : State) (a : VReg) : Flags := flagIf (s.terms.any fun i => (s.elemVal a i).isSig) fNV

theorem mem_terms (hw : s.cc.cut = none) (i : Nat) : i ∈ s.terms ↔ i < s.vlN ∧ s.member i = true := by
  rw [State.terms_eq hw, List.mem_filter, List.mem_range]

theorem terms_sorted (hw : s.cc.cut = none) : s.terms.Pairwise (· < ·) := by
  rw [State.terms_eq hw]
  exact List.pairwise_lt_range.filter _

theorem vecArg_eq {max : Bool} {d : XReg} (hven : s.cc.ven = true) (ht : (isInt (s.getV a).tag || isFlt (s.getV a).tag) = true)
    (hlen : s.vlN ≤ vlmax (s.getV a).tag) :
    s.vecArg max d a = .next ((s.setX d (s.argIndex max a)).orFlags (s.argFlags a)).retire := by
  refine (congrArg finish (scalarChecks_ok hven ht hlen _ _ _ _)).trans ?_
  rw [State.argIndex, State.argFlags]
  simp only [List.any_map]
  cases s.terms <;> rfl

theorem argIndex_none {max : Bool} (hw : s.cc.cut = none) (h : ∀ k, k < s.vlN → s.member k = false) :
    s.argIndex max a = BitVec.allOnes 64 := by
  have hnil : s.terms = [] := List.eq_nil_iff_forall_not_mem.2 fun k hk =>
    Bool.false_ne_true ((h k ((mem_terms hw k).1 hk).1).symm.trans ((mem_terms hw k).1 hk).2)
  rw [State.argIndex, hnil]

theorem argIndex_allNan {max : Bool} (hw : s.cc.cut = none) {k : Nat} (hk : Lowest s.vlN s.member k)
    (hnan : ∀ j, j < s.vlN → s.member j = true → (s.elemVal a j).isNan = true) : (s.argIndex max a).toNat = k := by
  obtain ⟨hlt, hm, hlow⟩ := hk
  have hnone : argBest max (s.terms.map fun i => (i, s.elemVal a i)) = none := by
    have hfilter : (s.terms.map fun i => (i, s.elemVal a i)).filter (fun p => !p.2.isNan) = [] := by
      rw [List.filter_eq_nil_iff]
      intro p hp
      obtain ⟨i, hi, rfl⟩ := List.mem_map.1 hp
      obtain ⟨hil, him⟩ := (mem_terms hw i).1 hi
      simp [hnan i hil him]
    rw [argBest_fold, hfilter]
    rfl
  have hmem : k ∈ s.terms := (mem_terms hw k).2 ⟨hlt, hm⟩
  have hsorted := terms_sorted hw
  rw [State.argIndex, hnone]
  cases hterms : s.terms with
  | nil => simp [hterms] at hmem
  | cons j r =>
    have hj := (mem_terms hw j).1 (hterms ▸ List.mem_cons_self)
    have hjk : j ≤ k := by
      rw [hterms] at hmem hsorted
      rcases List.mem_cons.1 hmem with rfl | h
      · exact le_rfl
      · exact ((List.pairwise_cons.1 hsorted).1 k h).le
    have hkj : ¬ j < k := fun h => Bool.false_ne_true ((hlow j h).symm.trans hj.2)
    have hjk' : j = k := by omega
    exact (toNat_ofNat_index (hjk' ▸ hlt.trans (vlN_lt s))).trans hjk'

/-- The index delivered is the first of the best of the terms that are no NaN. -/
theorem argIndex_best {β : Type} [LinearOrder β] {κ : Nat → β} {max : Bool} (hw : s.cc.cut = none)
    (hκ : ∀ i j, (s.elemVal a i).isNan = false → (s.elemVal a j).isNan = false →
      ((if max then ltTotal (s.elemVal a i) (s.elemVal a j) else ltTotal (s.elemVal a j) (s.elemVal a i)) = true ↔ κ i < κ j))
    (hex : ∃ j, j < s.vlN ∧ s.member j = true ∧ (s.elemVal a j).isNan = false) :
    ∃ k, (s.argIndex max a).toNat = k ∧ k < s.vlN ∧ s.member k = true ∧ (s.elemVal a k).isNan = false ∧
      ∀ j, j < s.vlN → s.member j = true → (s.elemVal a j).isNan = false → ¬ κ k < κ j ∧ (j < k → κ j < κ k) := by
  have hmem : ∀ j, j ∈ s.terms.filter (fun i => !(s.elemVal a i).isNan) ↔
      j < s.vlN ∧ s.member j = true ∧ (s.elemVal a j).isNan = false := fun j => by
    rw [List.mem_filter, mem_terms hw, Bool.not_eq_true', and_assoc]
  obtain ⟨j0, hj0⟩ := hex
  cases hbest : (s.terms.filter fun i => !(s.elemVal a i).isNan).argmax κ with
  | none =>
    rw [List.argmax_eq_none] at hbest
    exact absurd ((hmem j0).2 hj0) (by simp [hbest])
  | some k =>
    have hk := (hmem k).1 (List.argmax_mem hbest)
    have hlt2048 := vlN_lt s
    have hindex : s.argIndex max a = BitVec.ofNat 64 k := by
      rw [State.argIndex, argBest_eq hκ, hbest]
      cases hterms : s.terms with
      | nil => simp [hterms] at hbest
      | cons i r => rfl
    refine ⟨k, by rw [hindex, toNat_ofNat_index (by omega)], hk.1, hk.2.1, hk.2.2, fun j hj hm hn => ?_⟩
    have hjm := (hmem j).2 ⟨hj, hm, hn⟩
    exact ⟨List.not_lt_of_mem_argmax hjm hbest, lt_of_argmax_of_lt ((terms_sorted hw).filter _) hbest hjm⟩

/-- The order of VARGMAX, and that of VARGMIN, is that of some keys. -/
theorem exists_argKey (max : Bool) (x : Nat → Val) : ∃ (β : Type) (_ : LinearOrder β) (κ : Nat → β),
    ∀ i j, (x i).isNan = false → (x j).isNan = false →
      ((if max then ltTotal (x i) (x j) else ltTotal (x j) (x i)) = true ↔ κ i < κ j) := by
  cases max with
  | true => exact ⟨_, inferInstance, fun i => (x i).key, fun i j hi hj => ltTotal_iff hi hj⟩
  | false =>
    exact ⟨_, inferInstance, fun i => OrderDual.toDual (x i).key, fun i j hi hj =>
      (ltTotal_iff hj hi).trans OrderDual.toDual_lt_toDual.symm⟩

/-- The same in the order of R175 itself, for VARGMAX and for VARGMIN. -/
theorem argIndex_first {max : Bool} (hw : s.cc.cut = none)
    (hex : ∃ j, j < s.vlN ∧ s.member j = true ∧ (s.elemVal a j).isNan = false) :
    ∃ k, (s.argIndex max a).toNat = k ∧ k < s.vlN ∧ s.member k = true ∧ (s.elemVal a k).isNan = false ∧
      ∀ j, j < s.vlN → s.member j = true → (s.elemVal a j).isNan = false →
        (if max then ltTotal (s.elemVal a k) (s.elemVal a j) else ltTotal (s.elemVal a j) (s.elemVal a k)) = false ∧
        (j < k → (if max then ltTotal (s.elemVal a j) (s.elemVal a k) else ltTotal (s.elemVal a k) (s.elemVal a j)) = true) := by
  obtain ⟨β, hβ, κ, hκ⟩ := exists_argKey max (s.elemVal a)
  obtain ⟨k, hk, hlt, hm, hn, hbest⟩ := argIndex_best hw hκ hex
  refine ⟨k, hk, hlt, hm, hn, fun j hj hmj hnj => ?_⟩
  rw [← Bool.not_eq_true, hκ k j hn hnj, hκ j k hnj hn]
  exact hbest j hj hmj hnj

theorem argFlags_eq (hw : s.cc.cut = none) :
    s.argFlags a = if ∃ k, k < s.vlN ∧ s.member k = true ∧ (s.elemVal a k).isSig = true then fNV else 0 := by
  refine flagIf_eq_ite ?_ fNV
  simp only [List.any_eq_true, mem_terms hw, and_assoc]

end

/-! ### VEXT, MPOPC and MFIRST (R174, R177) -/

/-- An instruction that gives a scalar register a value retires and changes nothing else. -/
theorem scalar_out (s : State) {d : XReg} (hd : d ≠ 0) (v : Word) :
    Retires s (s.setX d v).retire (s.cc.pc + 4) ∧ FrameX s (s.setX d v).retire d ∧ (s.setX d v).retire.getX d = v := by
  obtain ⟨hret, hframe, hval⟩ := setX_retire_out (s := s) d v rfl rfl
  exact ⟨hret, hframe, hval.trans (if_neg hd)⟩

section
variable {s : State} {d : XReg}

theorem exec_vext_out (hd : d ≠ 0) (hven : s.cc.ven = true) {a : VReg} (b : Third) (ht : isVal (s.getV a).tag = true)
    (hlen : s.vlN ≤ vlmax (s.getV a).tag) :
    ∃ t, exec (.vext d a b) s = .next t ∧ Retires s t (s.cc.pc + 4) ∧ FrameX s t d ∧
      t.getX d = if amount s b < s.vlN then
        .ofInt 64 (intOf (isSigned (s.getV a).tag) (memBits (s.getV a).tag) (bitsOf (s.getV a).data (s.getV a).tag (amount s b)))
      else 0 := by
  obtain ⟨hret, hframe, hval⟩ := scalar_out s hd (if s.vlN ≤ amount s b then 0 else
    .ofInt 64 (intOf (isSigned (s.getV a).tag) (memBits (s.getV a).tag) (bitsOf (s.getV a).data (s.getV a).tag (amount s b))))
  refine ⟨_, congrArg finish (scalarChecks_ok hven ht hlen _ _ _ _), hret, hframe, hval.trans ?_⟩
  simp only [← not_lt, ite_not]

theorem exec_mpopc_out (hd : d ≠ 0) (hven : s.cc.ven = true) (m : MReg) :
    ∃ t, exec (.mpopc d m) s = .next t ∧ Retires s t (s.cc.pc + 4) ∧ FrameX s t d ∧
      (t.getX d).toNat = ((List.range s.vlN).filter (s.maskBit m)).length := by
  obtain ⟨hret, hframe, hval⟩ := scalar_out s hd (.ofNat 64 (popBelow (s.getM m) s.vlN))
  have hle : popBelow (s.getM m) s.vlN ≤ s.vlN := (List.length_filter_le _ _).trans List.length_range.le
  refine ⟨_, by rw [exec_mpopc, execMpopc, needVector_ok hven]; rfl, hret, hframe, ?_⟩
  rw [hval, toNat_ofNat_index (hle.trans_lt (vlN_lt s))]
  rfl

/-- The lowest bit of a mask below vl, or all ones. -/
def State.firstBit (s : State) (m : MReg) : Word :=
  match (List.range s.vlN).find? (s.maskBit m) with
  | some i => BitVec.ofNat 64 i
  | none => BitVec.allOnes 64

theorem exec_mfirst_out (hd : d ≠ 0) (hven : s.cc.ven = true) (m : MReg) :
    ∃ t, exec (.mfirst d m) s = .next t ∧ Retires s t (s.cc.pc + 4) ∧ FrameX s t d ∧
      ((∀ k, k < s.vlN → s.maskBit m k = false) → t.getX d = BitVec.allOnes 64) ∧
      (∀ k, Lowest s.vlN (s.maskBit m) k → (t.getX d).toNat = k) := by
  obtain ⟨hret, hframe, hval⟩ := scalar_out s hd (s.firstBit m)
  refine ⟨_, by rw [exec_mfirst, execMfirst, needVector_ok hven]; rfl, hret, hframe, fun hnone => ?_, fun k hk => ?_⟩
  · have hfind : (List.range s.vlN).find? (s.maskBit m) = none :=
      List.find?_range_eq_none.2 fun k hk => by simp [hnone k hk]
    rw [hval, State.firstBit, hfind]
  · obtain ⟨hlt, hbit, hlow⟩ := hk
    have hfind : (List.range s.vlN).find? (s.maskBit m) = some k :=
      List.find?_range_eq_some.2 ⟨hbit, List.mem_range.2 hlt, fun j hj => by simp [hlow j hj]⟩
    rw [hval, State.firstBit, hfind]
    exact toNat_ofNat_index (hlt.trans (vlN_lt s))

end

/-- Settles O33: VARGMAX and VARGMIN deliver the first of the best of the terms; an element, a count or a bit is written as it
stands. -/
theorem vectorToScalar : Obligations.VectorToScalar := by
  unfold Obligations.VectorToScalar
  refine ⟨fun s d a max hd hven hw ht hlen => ?arg, fun s d hd hven => ⟨fun a b ht hlen => exec_vext_out hd hven b ht hlen,
    exec_mpopc_out hd hven, exec_mfirst_out hd hven⟩⟩
  case arg =>
    have hexec : exec (if max then .vargmax d a else .vargmin d a) s = s.vecArg max d a := by cases max <;> rfl
    obtain ⟨hret, hframe, hval, hflags⟩ := writesFp s d ((s.argIndex max a).toNat, s.argFlags a)
    rw [BitVec.ofNat_toNat, BitVec.setWidth_eq] at hret hframe hval hflags
    replace hval := hval.trans (if_neg hd)
    refine ⟨_, hexec.trans (vecArg_eq hven ht hlen), hret, hframe, ?_, fun hnone => ?_, fun k hk hnan => ?_, fun hex => ?_⟩
    · rw [argFlags_eq hw] at hflags ⊢
      exact hflags
    · exact hval.trans (argIndex_none hw hnone)
    · rw [hval]
      exact argIndex_allNan hw hk hnan
    · rw [hval]
      obtain ⟨k, rfl, hbest⟩ := argIndex_first (max := max) hw hex
      exact hbest

end Sys2Proof.Machine
end

section
/-! Conversions (R170, R171) and SX destinations (R106, R172): a run past no reserved code, the fields of a register into
which blocks have been written, and what a quantised block holds. -/

namespace Sys2Proof.Machine

/-! ### Elements none of which is a reserved code (R100) -/

/-- Elements that all have values are computed as those of a tag without reserved codes. -/
theorem runElems_ok {is : List Nat} {f : Nat → Except Nat (Nat × Flags)} {g : Nat → Nat × Flags}
    (h : ∀ i ∈ is, f i = .ok (g i)) :
    runElems is f = { es := is.map fun i => (i, (g i).1), flags := flagsOver is g } := by
  induction is using List.reverseRecOn with
  | nil => rfl
  | append_singleton is i ih =>
    have hrun := ih fun j hj => h j (List.mem_append_left _ hj)
    have hi := h i (List.mem_append_right _ (List.mem_singleton_self i))
    unfold runElems at hrun ⊢
    rw [List.foldl_append, hrun]
    simp [hi, flagsOver]

theorem elemwiseE_ok {s : State} {vd : VReg} {t : Tag} {f : Nat → Except Nat (Nat × Flags)} {g : Nat → Nat × Flags}
    (h : ∀ i ∈ s.actives, f i = .ok (g i)) : s.elemwiseE vd t f = .ok (s.elemwise vd t g) := by
  rw [State.elemwiseE, runElems_ok h, State.elemwise, mapElems_eq]

/-- A source of values answers as a partial function wherever that is defined. -/
def Answers (src : Nat → Except Nat Val) (val : Nat → Option Val) : Prop := ∀ i x, val i = some x → src i = .ok x

theorem elemOr_answers (v : VecReg) (t : Tag) : Answers (elemOr v t) (elemVal v t) := fun i x h => by
  rw [elemOr, h]

/-- The source of VCVTSC: an element with its scale. -/
theorem scaled_answers (v : VecReg) (t : Tag) (n : Nat) (scale : Nat → Byte) :
    Answers (fun i => match elemOr v t (n + i) with
      | .ok x => .ok (scaleValue x (scale (n + i)))
      | .error slot => .error slot)
    fun i => (elemVal v t (n + i)).map fun x => scaleValue x (scale (n + i)) := by
  intro i x h
  obtain ⟨y, hy, rfl⟩ := Option.map_eq_some_iff.1 h
  simp only [elemOr_answers v t _ y hy]

theorem checks_pass {s : State} {vd : VReg} {ok : Bool} {lens : List Tag} (hguard : pushGuard s [vCode vd] = .ok ())
    (hok : ok = true) (hlens : ∀ t ∈ lens, s.vlN ≤ vlmax t) {α : Type} (a b d : Tag) (k : Unit → Except Stop α) :
    (pushGuard s [vCode vd] >>= fun _ => tagCheck ok s a b d >>= fun _ => lenCheck s lens >>= k) = k () := by
  rw [hguard, tagCheck_ok hok, lenCheck_ok hlens]
  rfl

/-- Past its checks VCVT converts element for element. -/
theorem execVcvt_eq {s : State} {d a : VReg} {tag : Tag} {part : BitVec 2} (rm : BitVec 3)
    (hguard : pushGuard s [vCode d] = .ok ())
    (htags : ((isVal (s.getV a).tag || isSx (s.getV a).tag) && (isVal tag || isSx tag) && partOk (s.getV a).tag tag part) = true)
    (hlens : ∀ t ∈ [(s.getV a).tag, tag], s.vlN ≤ vlmax t) :
    execVcvt d a tag rm part s =
      finish (s.convert d tag (s.mode rm) fun i => elemOr (s.getV a) (s.getV a).tag (part.toNat * vlmax tag + i)) :=
  congrArg finish (checks_pass hguard htags hlens _ _ _ _)

/-- Past its checks VCVTSC converts element for element, each with the scale of its group. -/
theorem execVcvtsc_eq {s : State} {d a b : VReg} {part : BitVec 2} (rm : BitVec 3)
    (hguard : pushGuard s [vCode d] = .ok ())
    (htags : ((isVal (s.getV a).tag || isSx (s.getV a).tag) && (isVal s.cc.rtag || isSx s.cc.rtag) &&
      (s.getV b).tag == tE8M0 && partOk (s.getV a).tag s.cc.rtag part) = true)
    (hlens : ∀ t ∈ [(s.getV a).tag, (s.getV b).tag, s.cc.rtag], s.vlN ≤ vlmax t) :
    execVcvtsc d a b rm part s = finish (s.convert d s.cc.rtag (s.mode rm) fun i =>
      match elemOr (s.getV a) (s.getV a).tag (part.toNat * vlmax s.cc.rtag + i) with
      | .ok x => .ok (scaleValue x (BitVec.ofNat 8 (slotOf (s.getV b).data tE8M0 ((part.toNat * vlmax s.cc.rtag + i) / 32))))
      | .error slot => .error slot) :=
  congrArg finish (checks_pass hguard htags hlens _ _ _ _)

/-! ### Conversions into a tag that is not SX (R170, R171) -/

/-- A conversion of active elements that all have values rounds each into the tag. -/
theorem convert_out {s : State} {vd : VReg} {tag : Tag} {ok : Bool} {lens : List Tag} {mode : BitVec 3}
    {src : Nat → Except Nat Val} {val : Nat → Option Val}
    (hr : VecReady s (s.vecElems vd tag ok lens 0 fun k => roundTo tag mode ((val k).getD (.nan false))))
    (htag : isVal tag = true) (hsrc : Answers src val)
    (hval : ∀ k, k < s.vlN → s.activeAt k = true → (val k).isSome = true) :
    ∃ t, s.convert vd tag mode src = .ok t ∧
      VecOut s t (s.vecElems vd tag ok lens 0 fun k => roundTo tag mode ((val k).getD (.nan false))) := by
  have helems : s.convert vd tag mode src =
      .ok (s.elemwise vd tag fun k => roundTo tag mode ((val k).getD (.nan false))) := by
    rw [State.convert, isSx_of_isVal tag htag]
    refine elemwiseE_ok fun i hi => ?_
    have hlt : i < s.vlN := ((mem_actives s i).1 hi).1
    obtain ⟨x, hx⟩ := Option.isSome_iff_exists.1 (hval i hlt ((s.activeAt_iff hr.whole i hlt).2 hi))
    simp only [hsrc i x hx, hx, Option.getD_some]
  exact ⟨_, helems, elemwise_out hr.whole vd tag ok lens _ hr.vd⟩

/-- The tags of VCVT, which has no further condition. -/
theorem vcvtTags (src sx val part : Bool) : (src && (val || sx) && part) = (src && sx && part || src && val && part) := by
  simpa using convertTags src sx val true part

theorem execVcvt_out {s : State} {d a : VReg} {tag : Tag} {rm : BitVec 3} {part : BitVec 2} {p : VecSpec}
    (h : vecConvert (.vcvt d a tag rm part) s = some p) (hr : VecReady s p)
    (hval : ∀ k, k < s.vlN → s.activeAt k = true → (convertSource (.vcvt d a tag rm part) s k).isSome = true) :
    ∃ t, execVcvt d a tag rm part s = .next t ∧ VecOut s t p := by
  obtain rfl := Option.some.inj h
  have htags : ((isVal (s.getV a).tag || isSx (s.getV a).tag) && isVal tag && true && partOk (s.getV a).tag tag part) = true :=
    hr.tags
  obtain ⟨⟨⟨-, htag⟩, -⟩, -⟩ : ((_ ∧ isVal tag = true) ∧ _) ∧ _ := by simpa only [Bool.and_eq_true] using htags
  obtain ⟨t, ht, hout⟩ := convert_out hr htag (fun i => elemOr_answers _ _ (part.toNat * vlmax tag + i)) hval
  refine ⟨t, (execVcvt_eq rm hr.guard ?_ hr.lens).trans (congrArg finish ht), hout⟩
  rw [Bool.and_true] at htags
  rw [vcvtTags, htags, Bool.or_true]

theorem execVcvtsc_out {s : State} {d a b : VReg} {rm : BitVec 3} {part : BitVec 2} {p : VecSpec}
    (h : vecConvert (.vcvtsc d a b rm part) s = some p) (hr : VecReady s p)
    (hval : ∀ k, k < s.vlN → s.activeAt k = true → (convertSource (.vcvtsc d a b rm part) s k).isSome = true) :
    ∃ t, execVcvtsc d a b rm part s = .next t ∧ VecOut s t p := by
  obtain rfl := Option.some.inj h
  have htags : ((isVal (s.getV a).tag || isSx (s.getV a).tag) && isVal s.cc.rtag && (s.getV b).tag == tE8M0 &&
      partOk (s.getV a).tag s.cc.rtag part) = true := hr.tags
  obtain ⟨⟨⟨-, htag⟩, -⟩, -⟩ : ((_ ∧ isVal s.cc.rtag = true) ∧ _) ∧ _ := by
    simpa only [Bool.and_eq_true] using htags
  obtain ⟨t, ht, hout⟩ := convert_out hr htag (scaled_answers (s.getV a) (s.getV a).tag (part.toNat * vlmax s.cc.rtag)
    fun j => BitVec.ofNat 8 (slotOf (s.getV b).data tE8M0 (j / 32))) hval
  refine ⟨t, (execVcvtsc_eq rm hr.guard ?_ hr.lens).trans (congrArg finish ht), hout⟩
  rw [convertTags, htags, Bool.or_true]

/-- A conversion into a tag that is not SX rounds its active elements. -/
theorem vecConvert_out {i : Instr} {s : State} {p : VecSpec} (h : vecConvert i s = some p) (hr : VecReady s p)
    (hval : ∀ k, k < s.vlN → s.activeAt k = true → (convertSource i s k).isSome = true) :
    ∃ t, exec i s = .next t ∧ VecOut s t p := by
  cases i with
  | vcvt => exact execVcvt_out h hr hval
  | vcvtsc => exact execVcvtsc_out h hr hval
  | _ => cases h

end Sys2Proof.Machine
end

section
/-! SX destinations (R99, R106, R172): what a quantised block holds, the fields of a register into which blocks have been
written, and the instructions that write one. -/

namespace Sys2Proof.Machine

/-! ### Quantised blocks (R106) -/

theorem magLt_of_zero (a : Nat × Int) (e : Int) : magLt a (0, e) = false := by simp [magLt]

/-- Values that are all zero have the largest magnitude zero. -/
theorem magMax_zero {xs : List Val} (h : ∀ x ∈ xs, ∃ n e, x = .fin n 0 e) : magMax xs = (0, 0) := by
  refine List.foldlRecOn xs _ (motive := fun a => a = (0, 0)) rfl fun a ha x hx => ?_
  obtain ⟨n, e, rfl⟩ := h x hx
  rw [magOf, magLt_of_zero]
  exact ha

theorem quantiseSx_nan (k : Nat) (mode : BitVec 3) {xs : List Val} (h : xs.any Val.isNan = true) :
    quantiseSx k mode xs = (⟨0xFF, 0, List.replicate 16 (false, 0)⟩, 0) := if_pos h

theorem quantiseSx_zero (k : Nat) (mode : BitVec 3) {xs : List Val} (h : ∀ x ∈ xs, ∃ n e, x = .fin n 0 e) :
    quantiseSx k mode xs = (⟨0, 0, List.replicate 16 (false, 0)⟩, 0) := by
  have hnan : ¬ xs.any Val.isNan = true := by
    rw [List.any_eq_true]
    rintro ⟨x, hx, hn⟩
    obtain ⟨n, e, rfl⟩ := h x hx
    cases hn
  unfold quantiseSx
  rw [if_neg hnan, magMax_zero h]
  rfl

/-- The mantissas of a quantised block have k bits. -/
theorem quantiseSx_mantissa (k : Nat) (mode : BitVec 3) (xs : List Val) :
    ∀ e ∈ (quantiseSx k mode xs).1.sm, e.2 ≤ 2 ^ k - 1 := by
  have clamp : ∀ q : Nat, (if 2 ^ k - 1 < q then 2 ^ k - 1 else q) ≤ 2 ^ k - 1 := fun q => by split <;> omega
  have zeros : ∀ e ∈ List.replicate 16 (false, 0), e.2 ≤ 2 ^ k - 1 := fun e he => by
    rw [(List.mem_replicate.1 he).2]
    exact Nat.zero_le _
  unfold quantiseSx
  split
  · exact zeros
  · dsimp only
    split
    · exact zeros
    · refine List.foldlRecOn xs _ (motive := fun st : List (Bool × Nat) × Flags × Nat => ∀ e ∈ st.1, e.2 ≤ 2 ^ k - 1)
        (fun _ he => absurd he List.not_mem_nil) fun st hst x _ e he => ?_
      rcases List.mem_append.1 he with he | he
      · exact hst e he
      · rw [List.mem_singleton.1 he]
        exact clamp _

/-! ### The fields of a register of SX blocks (R99, R172) -/

/-- The slot of element j of a block. -/
def SxBlock.code (k : SxBlock) (j : Nat) : Nat := (k.sm[j]?.getD (false, 0)).2 + if (k.sm[j]?.getD (false, 0)).1 then 128 else 0

/-- The side band of a block. -/
def SxBlock.band (k : SxBlock) : Nat := k.e.toNat + 256 * k.mu.toNat

theorem putSxBlock_side (v : VecReg) (b : Nat) (k : SxBlock) {c : Nat} (hc : c < 64) :
    fieldAt (putSxBlock v b k).side.toNat 16 c = if c = b then k.band else fieldAt v.side.toNat 16 c := by
  have hband : k.band < 2 ^ 16 := by
    have := k.e.isLt
    have := k.mu.isLt
    unfold SxBlock.band
    omega
  have hfit : 16 * c + 16 ≤ 1024 := by omega
  rw [putSxBlock, BitVec.toNat_ofNat, fieldAt_mod _ _ _ _ hfit, fieldAt_setField]
  exact if_congr Iff.rfl (Nat.mod_eq_of_lt hband) rfl

/-- The slots of a block, by the indices of their elements. -/
def SxBlock.slots (b : Nat) (k : SxBlock) : List (Nat × Nat) := (List.range' (16 * b) 16).map fun i => (i, k.code (i - 16 * b))

theorem putSxBlock_data_eq (v : VecReg) (b : Nat) (k : SxBlock) : (putSxBlock v b k).data =
    BitVec.ofNat 8192 ((k.slots b).foldl (fun n e => setField n 8 e.1 (id e.2)) v.data.toNat) := by
  rw [SxBlock.slots, List.range'_eq_map_range, List.map_map, List.foldl_map]
  simp only [Function.comp_apply, Nat.add_sub_cancel_left]
  rfl

theorem putSxBlock_data (v : VecReg) (b : Nat) (k : SxBlock) {i : Nat} (hi : i < 1024) :
    fieldAt (putSxBlock v b k).data.toNat 8 i = if i / 16 = b then k.code (i % 16) % 2 ^ 8 else fieldAt v.data.toNat 8 i := by
  have hfit : 8 * i + 8 ≤ 8192 := by omega
  have hnodup : ((k.slots b).map (·.1)).Nodup := by
    simpa [SxBlock.slots, Function.comp_def] using List.nodup_range'
  rw [putSxBlock_data_eq, BitVec.toNat_ofNat, fieldAt_mod _ _ _ _ hfit, fieldAt_foldl _ _ _ _ _ hnodup,
    SxBlock.slots, find_map_pair]
  by_cases h : i / 16 = b
  · have hmem : i ∈ List.range' (16 * b) 16 := by
      rw [List.mem_range'_1]
      omega
    rw [if_pos hmem, if_pos h, show i - 16 * b = i % 16 by omega]
    rfl
  · have hmem : i ∉ List.range' (16 * b) 16 := by
      rw [List.mem_range'_1]
      omega
    rw [if_neg hmem, if_neg h]

/-- A register into which blocks have been written one after another. -/
def putBlocks (q : Nat → SxBlock) (bs : List Nat) (v : VecReg) : VecReg := bs.foldl (fun v b => putSxBlock v b (q b)) v

theorem putBlocks_side (q : Nat → SxBlock) (bs : List Nat) (v : VecReg) {c : Nat} (hc : c < 64) :
    fieldAt (putBlocks q bs v).side.toNat 16 c = if c ∈ bs then (q c).band else fieldAt v.side.toNat 16 c := by
  induction bs using List.reverseRecOn with
  | nil => rfl
  | append_singleton bs b ih =>
    have hstep : putBlocks q (bs ++ [b]) v = putSxBlock (putBlocks q bs v) b (q b) := List.foldl_append
    rw [hstep, putSxBlock_side _ _ _ hc, ih]
    by_cases hb : c = b
    · simp [hb]
    · simp [hb]

theorem putBlocks_data (q : Nat → SxBlock) (bs : List Nat) (v : VecReg) {i : Nat} (hi : i < 1024) :
    fieldAt (putBlocks q bs v).data.toNat 8 i =
      if i / 16 ∈ bs then (q (i / 16)).code (i % 16) % 2 ^ 8 else fieldAt v.data.toNat 8 i := by
  induction bs using List.reverseRecOn with
  | nil => rfl
  | append_singleton bs b ih =>
    have hstep : putBlocks q (bs ++ [b]) v = putSxBlock (putBlocks q bs v) b (q b) := List.foldl_append
    rw [hstep, putSxBlock_data _ _ _ hi, ih]
    by_cases hb : i / 16 = b
    · simp [hb]
    · simp [hb]

/-- The tail of an SX register: zero in data and side band. -/
theorem sxTail_data (v : VecReg) (t : Tag) (vl : Nat) {i : Nat} (hi : i < 1024) :
    fieldAt (sxTail v t vl).data.toNat 8 i = if i < vl then fieldAt v.data.toNat 8 i else 0 := by
  have hfit : 8 * i + 8 ≤ 8192 := by omega
  rw [sxTail, tailZero, BitVec.toNat_ofNat, fieldAt_mod _ _ _ _ hfit]
  split
  · exact fieldAt_mod _ _ _ _ (by omega)
  · exact fieldAt_mod_zero _ _ _ _ (by omega)

theorem sxTail_side (v : VecReg) (t : Tag) (vl : Nat) {c : Nat} (hc : c < 64) :
    fieldAt (sxTail v t vl).side.toNat 16 c = if 16 * c < vl then fieldAt v.side.toNat 16 c else 0 := by
  have hfit : 16 * c + 16 ≤ 1024 := by omega
  rw [sxTail, BitVec.toNat_ofNat, fieldAt_mod _ _ _ _ hfit]
  split
  · exact fieldAt_mod _ _ _ _ (by omega)
  · exact fieldAt_mod_zero _ _ _ _ (by omega)

/-! ### A run over the blocks (R172) -/

theorem foldlM_append_ok {α β ε : Type} {step : List β → α → Except ε (List β)} {g : α → β} {l : List α}
    (h : ∀ acc, ∀ a ∈ l, step acc a = .ok (acc ++ [g a])) (acc : List β) : l.foldlM step acc = .ok (acc ++ l.map g) := by
  induction l generalizing acc with
  | nil => simp
  | cons a l ih =>
    rw [List.foldlM_cons, h acc a List.mem_cons_self, except_bind_ok, ih fun acc b hb => h acc b (List.mem_cons_of_mem _ hb)]
    simp

section
variable {s : State} {p : SxSpec} {src : Nat → Except Nat Val}

/-- The values of a block as R106 counts them: zero for a position at or above vl and an inactive one. -/
def State.blockVals (s : State) (p : SxSpec) (b : Nat) : List Val :=
  (List.range 16).map fun j =>
    if 16 * b + j < s.vlN ∧ s.member (16 * b + j) = true then (p.src (16 * b + j)).getD (.nan false) else .fin false 0 0

theorem State.sxMember_iff (hw : s.cc.cut = none) (i : Nat) : s.sxMember i = true ↔ i < s.vlN ∧ s.member i = true := by
  rw [State.sxMember, s.activeMask_bit hw, Bool.and_eq_true, decide_eq_true_iff]

theorem sxSource_ok (hr : SxReady s p) (hsrc : Answers src p.src) {b : Nat} (hb : s.blockActive b = true) :
    s.sxSource b src = .ok (s.blockVals p b) := by
  unfold State.sxSource State.blockVals
  rw [← List.nil_append ((List.range 16).map _)]
  refine foldlM_append_ok (fun acc j hj => ?_) []
  have hmem := State.sxMember_iff hr.whole (16 * b + j)
  by_cases h : 16 * b + j < s.vlN ∧ s.member (16 * b + j) = true
  · obtain ⟨x, hx⟩ := Option.isSome_iff_exists.1 (hr.codes b j (List.mem_range.1 hj) hb h.1 h.2)
    simp only [hmem.2 h, h, hsrc _ x hx, hx, Option.getD_some, and_self, if_true]
  · simp only [hmem, h, if_false]

theorem sxRun_ok (hr : SxReady s p) (hsrc : Answers src p.src) {bs : List Nat} (hbs : ∀ b ∈ bs, s.blockActive b = true)
    (v : VecReg) (f : Flags) : s.sxRun p.tag p.mode src bs v f =
      (putBlocks (fun b => (s.blockOf p b).1) bs v, bs.foldl (fun f b => f ||| (s.blockOf p b).2) f, none) := by
  induction bs generalizing v f with
  | nil => rfl
  | cons b bs ih =>
    rw [State.sxRun, sxSource_ok hr hsrc (hbs b List.mem_cons_self)]
    exact ih (fun c hc => hbs c (List.mem_cons_of_mem _ hc)) _ _

theorem State.sxBlocks_eq (hw : s.cc.cut = none) (hvl : s.vlN ≤ 1024) : s.sxBlocks = (List.range 64).filter s.blockActive := by
  have hactive : ∀ b, ((List.range 16).any fun j => decide (s.cc.vstart.toNat ≤ 16 * b + j) && s.sxMember (16 * b + j)) =
      s.blockActive b := fun b => by
    refine congrArg (List.range 16).any (funext fun j => ?_)
    rw [State.sxMember, s.activeMask_bit hw, State.activeAt, Bool.and_left_comm]
  have hhigh : ∀ b, s.vlN ≤ 16 * b → s.blockActive b = false := fun b hb => by
    refine List.any_eq_false.2 fun j _ => ?_
    have : ¬ 16 * b + j < s.vlN := by omega
    simp [this]
  have hsplit : 64 = (s.vlN + 15) / 16 + (64 - (s.vlN + 15) / 16) := by omega
  have hrest : ((List.range (64 - (s.vlN + 15) / 16)).map ((s.vlN + 15) / 16 + ·)).filter s.blockActive = [] := by
    refine List.filter_eq_nil_iff.2 fun b hb => ?_
    obtain ⟨c, -, rfl⟩ := List.mem_map.1 hb
    rw [hhigh _ (by omega)]
    exact Bool.false_ne_true
  rw [State.sxBlocks, funext hactive, hsplit, List.range_add, List.filter_append, hrest, List.append_nil]

/-! ### What a write of an SX register leaves (R172) -/

theorem tagWidth_sx : ∀ t : Tag, isSx t = true → tagWidth t = 8 := by decide
theorem sxK_le : ∀ t : Tag, sxK t ≤ 7 := by decide

theorem vlmax_sx {t : Tag} (h : isSx t = true) : vlmax t = 1024 := by rw [vlmax, tagWidth_sx t h]

theorem slotOf_sx {t : Tag} (h : isSx t = true) (d : BitVec 8192) (i : Nat) : slotOf d t i = fieldAt d.toNat 8 i := by
  rw [slotOf, tagWidth_sx t h]

theorem SxBlock.band_e (k : SxBlock) : BitVec.ofNat 8 k.band = k.e := by
  apply BitVec.eq_of_toNat_eq
  have := k.e.isLt
  rw [BitVec.toNat_ofNat, SxBlock.band]
  omega

theorem SxBlock.band_mu (k : SxBlock) : BitVec.ofNat 8 (k.band / 256) = k.mu := by
  apply BitVec.eq_of_toNat_eq
  have := k.e.isLt
  have := k.mu.isLt
  rw [BitVec.toNat_ofNat, SxBlock.band]
  omega

/-- The slot of an element of a quantised block: its sign above a mantissa of at most seven bits. -/
theorem blockOf_code (s : State) (p : SxSpec) (b : Nat) {j : Nat} {e : Bool × Nat} (he : (s.blockOf p b).1.sm[j]? = some e) :
    (s.blockOf p b).1.code j % 2 ^ 8 = (if e.1 then 128 else 0) + e.2 := by
  have hmant : e.2 ≤ 2 ^ sxK p.tag - 1 := quantiseSx_mantissa _ _ _ e (List.mem_of_getElem? he)
  have hpow : 2 ^ sxK p.tag ≤ 2 ^ 7 := Nat.pow_le_pow_right (by decide) (sxK_le p.tag)
  rw [SxBlock.code, he, Option.getD_some]
  split <;> omega

theorem lt_of_blockActive {b : Nat} (h : s.blockActive b = true) : 16 * b < s.vlN := by
  obtain ⟨j, -, hj⟩ := List.any_eq_true.1 h
  have := decide_eq_true_iff.1 (Bool.and_eq_true_iff.1 hj).1
  omega

/-- The register that an SX destination becomes: the blocks that hold an active element written, and its tail zero. -/
def State.sxReg (s : State) (p : SxSpec) : VecReg :=
  sxTail (putBlocks (fun b => (s.blockOf p b).1) ((List.range 64).filter s.blockActive) (s.getV p.vd)) p.tag s.vlN

section
variable (hvl : s.vlN ≤ 1024)
include hvl

theorem mem_activeBlocks {b : Nat} : b ∈ (List.range 64).filter s.blockActive ↔ s.blockActive b = true := by
  rw [List.mem_filter, List.mem_range]
  refine ⟨fun h => h.2, fun h => ⟨?_, h⟩⟩
  have := lt_of_blockActive h
  omega

theorem sxReg_side {b : Nat} (hb : 16 * b < s.vlN) : fieldAt (s.sxReg p).side.toNat 16 b =
    if s.blockActive b = true then (s.blockOf p b).1.band else fieldAt (s.getV p.vd).side.toNat 16 b := by
  have hlt : b < 64 := by omega
  rw [State.sxReg, sxTail_side _ _ _ hlt, if_pos hb, putBlocks_side _ _ _ hlt]
  exact if_congr (mem_activeBlocks hvl) rfl rfl

theorem sxReg_data {b j : Nat} (hj : j < 16) (hi : 16 * b + j < s.vlN) : fieldAt (s.sxReg p).data.toNat 8 (16 * b + j) =
    if s.blockActive b = true then (s.blockOf p b).1.code j % 2 ^ 8
    else fieldAt (s.getV p.vd).data.toNat 8 (16 * b + j) := by
  have hlt : 16 * b + j < 1024 := by omega
  have hdiv : (16 * b + j) / 16 = b := by omega
  have hmod : (16 * b + j) % 16 = j := by omega
  rw [State.sxReg, sxTail_data _ _ _ hlt, if_pos hi, putBlocks_data _ _ _ hlt, hdiv, hmod]
  exact if_congr (mem_activeBlocks hvl) rfl rfl

/-- A state in which this register, the flags and VSTART are written has the outcome of R172. -/
theorem sxOut_put (hd : p.vd.toNat < 48) (hsx : isSx p.tag = true) :
    SxOut s ((s.putV p.vd (s.sxReg p)).orFlags
      (((List.range 64).filter s.blockActive).foldl (fun f b => f ||| (s.blockOf p b).2) 0)).takeVstart.retire p := by
  generalize hf : ((List.range 64).filter s.blockActive).foldl (fun f b => f ||| (s.blockOf p b).2) 0 = f
  have hv : ((s.putV p.vd (s.sxReg p)).orFlags f).takeVstart.retire.getV p.vd = s.sxReg p := getV_self s _ _ _ hd rfl
  have hframe := frameV_put s p.vd (s.sxReg p) f (s.cc.pc + 4) s.free State.takeVstart (.inl fun _ => rfl)
  refine ⟨retires_to s _ _ rfl, hframe, ?_, fun b hb => ?_, fun b hb hact => ?_,
    ⟨fun i hi hmax => ?_, fun b hb hlt => ?_⟩, ?_, rfl⟩
  · rw [hv]; rfl
  · have hside := sxReg_side (p := p) hvl (lt_of_blockActive hb)
    rw [if_pos hb] at hside
    rw [hv, sxE, sxMu, hside]
    refine ⟨SxBlock.band_e _, SxBlock.band_mu _, fun j e hj hi he => ?_⟩
    rw [slotOf_sx hsx, sxReg_data hvl hj hi, if_pos hb]
    exact blockOf_code s p b he
  · have hact' : ¬ s.blockActive b = true := by rw [hact]; exact Bool.false_ne_true
    rw [hv, sxReg_side hvl hb, if_neg hact']
    refine ⟨rfl, fun j hj hi => ?_⟩
    rw [slotOf_sx hsx, slotOf_sx hsx, sxReg_data hvl hj hi, if_neg hact']
  · rw [vlmax_sx hsx] at hmax
    rw [hv, slotOf_sx hsx, State.sxReg, sxTail_data _ _ _ hmax, if_neg (Nat.not_lt.2 hi)]
  · rw [hv, State.sxReg, sxTail_side _ _ _ hlt, if_neg (Nat.not_lt.2 hb)]
  · rw [hf]; rfl

end

/-- An instruction that writes an SX register from values does as R172 says. -/
theorem sxwise_out (hr : SxReady s p) (hsrc : Answers src p.src) (hsx : isSx p.tag = true) (hmem : p.tag ∈ p.lens) :
    ∃ t, s.sxwise p.vd p.tag p.mode src = .ok t ∧ SxOut s t p := by
  have hvl : s.vlN ≤ 1024 := vlmax_sx hsx ▸ hr.lens p.tag hmem
  refine ⟨_, ?_, sxOut_put hvl hr.vd hsx⟩
  have hbs : ∀ b ∈ (List.range 64).filter s.blockActive, s.blockActive b = true := fun b hb => (List.mem_filter.1 hb).2
  rw [State.sxwise, State.sxBlocks_eq hr.whole hvl, sxRun_ok hr hsrc hbs]
  rfl

theorem SxReady.guard (hr : SxReady s p) : pushGuard s [vCode p.vd] = .ok () := vecGuard_ok hr.ven hr.vd hr.carry

/-- A conversion into an SX tag quantises. -/
theorem convert_sx_out (hr : SxReady s p) (hsrc : Answers src p.src) (hsx : isSx p.tag = true) (hmem : p.tag ∈ p.lens) :
    ∃ t, s.convert p.vd p.tag p.mode src = .ok t ∧ SxOut s t p := by
  rw [State.convert, if_pos hsx]
  exact sxwise_out hr hsrc hsx hmem

end

section
variable {s : State} {d a b : VReg} {p : SxSpec}

/-- Past its checks VSXNORM quantises its source anew. -/
theorem execVsxnorm_eq (hguard : pushGuard s [vCode d] = .ok ()) (hsx : isSx (s.getV a).tag = true)
    (hlens : ∀ t ∈ [(s.getV a).tag], s.vlN ≤ vlmax t) :
    execVsxnorm d a s = finish (s.sxwise d (s.getV a).tag 0 (elemOr (s.getV a) (s.getV a).tag)) := by
  have hchecks : unaryChecks s d a isSx = .ok (s.getV a).tag :=
    checks_pass hguard hsx hlens (s.getV a).tag 0 0 fun _ => .ok (s.getV a).tag
  rw [execVsxnorm, hchecks, except_bind_ok]

theorem execVsxnorm_out (h : sxResult (.vsxnorm d a) s = some p) (hr : SxReady s p) :
    ∃ t, execVsxnorm d a s = .next t ∧ SxOut s t p := by
  obtain rfl := Option.some.inj h
  obtain ⟨t, ht, hout⟩ := sxwise_out hr (elemOr_answers _ _) hr.tags List.mem_cons_self
  exact ⟨t, (execVsxnorm_eq hr.guard hr.tags hr.lens).trans (congrArg finish ht), hout⟩

theorem execVcvt_sx_out {tag : Tag} {rm : BitVec 3} {part : BitVec 2} (h : sxResult (.vcvt d a tag rm part) s = some p)
    (hr : SxReady s p) : ∃ t, execVcvt d a tag rm part s = .next t ∧ SxOut s t p := by
  obtain rfl := Option.some.inj h
  have htags : ((isVal (s.getV a).tag || isSx (s.getV a).tag) && isSx tag && partOk (s.getV a).tag tag part) = true := hr.tags
  obtain ⟨⟨-, hsx⟩, -⟩ : (_ ∧ isSx tag = true) ∧ _ := by simpa only [Bool.and_eq_true] using htags
  obtain ⟨t, ht, hout⟩ := convert_sx_out hr (fun i => elemOr_answers _ _ (part.toNat * vlmax tag + i)) hsx
    (List.mem_cons_of_mem _ List.mem_cons_self)
  refine ⟨t, (execVcvt_eq rm hr.guard ?_ hr.lens).trans (congrArg finish ht), hout⟩
  rw [vcvtTags, htags, Bool.true_or]

theorem execVcvtsc_sx_out {rm : BitVec 3} {part : BitVec 2} (h : sxResult (.vcvtsc d a b rm part) s = some p)
    (hr : SxReady s p) : ∃ t, execVcvtsc d a b rm part s = .next t ∧ SxOut s t p := by
  obtain rfl := Option.some.inj h
  have htags : ((isVal (s.getV a).tag || isSx (s.getV a).tag) && isSx s.cc.rtag && partOk (s.getV a).tag s.cc.rtag part &&
      (s.getV b).tag == tE8M0) = true := hr.tags
  obtain ⟨⟨⟨-, hsx⟩, -⟩, -⟩ : ((_ ∧ isSx s.cc.rtag = true) ∧ _) ∧ _ := by
    simpa only [Bool.and_eq_true] using htags
  obtain ⟨t, ht, hout⟩ := convert_sx_out hr (scaled_answers (s.getV a) (s.getV a).tag (part.toNat * vlmax s.cc.rtag)
    fun j => BitVec.ofNat 8 (slotOf (s.getV b).data tE8M0 (j / 32))) hsx
    (List.mem_cons_of_mem _ (List.mem_cons_of_mem _ List.mem_cons_self))
  refine ⟨t, (execVcvtsc_eq rm hr.guard ?_ hr.lens).trans (congrArg finish ht), hout⟩
  rw [convertTags, htags, Bool.true_or]

end

/-- VSXNORM, and the conversions into an SX tag, write the blocks that hold an active element. -/
theorem sxResult_out {i : Instr} {s : State} {p : SxSpec} (h : sxResult i s = some p) (hr : SxReady s p) :
    ∃ t, exec i s = .next t ∧ SxOut s t p := by
  cases i with
  | vsxnorm => exact execVsxnorm_out h hr
  | vcvt => exact execVcvt_sx_out h hr
  | vcvtsc => exact execVcvtsc_sx_out h hr
  | _ => cases h

/-- Settles O31: a conversion rounds its active elements, or quantises the blocks that hold one; a block with a NaN, and one
of zeros, by the first two branches of quantise_sx. -/
theorem vectorConversions : Obligations.VectorConversions := by
  unfold Obligations.VectorConversions
  exact ⟨fun _ _ _ h hr hval => vecConvert_out h hr hval, fun _ _ _ h hr => sxResult_out h hr,
    fun k mode _ => ⟨quantiseSx_nan k mode, quantiseSx_zero k mode⟩⟩

end Sys2Proof.Machine
end

section
/-! Vector loops (R124, R160 to R162): the fields of TSTATUS that opening and closing a loop write, and each instruction past
its checks. -/

namespace Sys2Proof.Machine

/-! ### TSTATUS with a loop opened or closed (R122, R160) -/

section
variable (c : ControlCore) (act loopi : Bool)

@[simp] theorem ControlCore.loopAct_withLoop : (c.withLoop act loopi).loopAct = act := by
  cases act <;> cases loopi <;> simp [ControlCore.loopAct, ControlCore.withLoop]

@[simp] theorem ControlCore.loopI_withLoop : (c.withLoop act loopi).loopI = loopi := by
  cases act <;> cases loopi <;> simp [ControlCore.loopI, ControlCore.withLoop]

@[simp] theorem ControlCore.ven_withLoop : (c.withLoop act loopi).ven = c.ven := by
  cases act <;> cases loopi <;> simp [ControlCore.ven, ControlCore.withLoop]

@[simp] theorem ControlCore.ppriv_withLoop : (c.withLoop act loopi).ppriv = c.ppriv := by
  cases act <;> cases loopi <;> simp [ControlCore.ppriv, ControlCore.withLoop, BitVec.extractLsb'_or, BitVec.extractLsb'_and] <;>
    exact BitVec.and_allOnes

end

/-! ### LOOP and LOOPI (R160) -/

section
variable {s : State} {i : Instr} {loopi : Bool} {a : XReg} {off : BitVec 12} (hven : s.cc.ven = true)
include hven

theorem openLoop_open (h : s.cc.loopAct = true) :
    finish (s.openLoop i loopi a off) = .next (s.raise { cause := 0x01, tval := wordOf i }) := by
  rw [State.openLoop, needVector_ok hven, except_bind_ok, if_pos h]
  rfl

theorem openLoop_exit (h : s.cc.loopAct = false) (ha : s.getX a = 0) : ∃ t, finish (s.openLoop i loopi a off) = .next t ∧
    Retires s t (s.cc.pc + .ofInt 64 (4 * off.toInt)) ∧ FrameX s t 0 := by
  refine ⟨s.retireTo (s.cc.pc + wordsOff off), ?_, ?_, frameX_retireTo s 0 _⟩
  · rw [State.openLoop, needVector_ok hven, except_bind_ok, h, if_neg Bool.false_ne_true, if_pos ha]
    rfl
  · rw [wordsOff_eq_ofInt]
    exact retires_to s s _ rfl

/-- The state with a loop opened. -/
def State.loopOpened (s : State) (loopi : Bool) : State :=
  s.modCc fun c => { c.withLoop true loopi with issued := 0, done := 0, inStrip := false, loopDepth := c.depth }

theorem openLoop_opens (h : s.cc.loopAct = false) (ha : s.getX a ≠ 0) : ∃ t, finish (s.openLoop i loopi a off) = .next t ∧
    Retires s t (s.cc.pc + 4) ∧ t.cc.loopAct = true ∧ t.cc.loopI = loopi ∧ t.cc.issued = 0 ∧
      t.cc.done = 0 ∧ t.cc.ppriv = s.cc.ppriv ∧ t.cc.ven = true ∧ t.cc.x = s.cc.x ∧ t.cc.vl = s.cc.vl ∧ t.mem = s.mem := by
  have hdone : (s.loopOpened loopi).retire.cc.done = 0 := ite_self _
  refine ⟨(s.loopOpened loopi).retire, ?_, retires_to s _ _ rfl, s.cc.loopAct_withLoop true loopi,
    s.cc.loopI_withLoop true loopi, rfl, hdone, s.cc.ppriv_withLoop true loopi, (s.cc.ven_withLoop true loopi).trans hven, rfl, rfl, rfl⟩
  rw [State.openLoop, needVector_ok hven, except_bind_ok, h, if_neg Bool.false_ne_true, if_neg ha]
  rfl

end

/-! ### SETVL (R48, R52, R161) -/

/-- The state in which SETVL has been reached: a change of shape that was due has been made (R37). -/
def State.setvlReached (s : State) : State :=
  (s.modCc fun c => { c with reached := true }).applyShape (coreOf s.cc.ctxid)

theorem State.setvlReached_cc (s : State) : s.setvlReached.cc = { s.cc with reached := true } := by
  unfold State.setvlReached State.applyShape
  split <;> rfl

/-- What a function of the control core that does not look at this mark sees. -/
theorem State.setvlReached_field (s : State) {α : Type} (f : ControlCore → α)
    (hf : ∀ c, f { c with reached := true } = f c) :
    f s.setvlReached.cc = f s.cc := by rw [s.setvlReached_cc, hf]

theorem State.setvlReached_softPoint (s : State) : s.setvlReached.cc.softPoint = s.cc.softPoint :=
  s.setvlReached_field ControlCore.softPoint fun _ => rfl

theorem State.setvlReached_mem (s : State) : s.setvlReached.mem = s.mem := by
  unfold State.setvlReached State.applyShape
  split <;> rfl

/-- A vector length granted, in VL, the strip count and xd. -/
def State.granted (s : State) (d : XReg) (vl : Nat) : State :=
  (s.modCc fun c =>
    { c with vl := BitVec.ofNat 11 vl, issued := if c.loopAct then c.issued + 1 else c.issued
             inStrip := c.loopAct }).setX d (BitVec.ofNat 64 vl)

/-- SETVL past its checks. -/
theorem execSetvl_eq {s : State} (hven : s.cc.ven = true) (d a : XReg) (w : BitVec 2) : execSetvl d a w s =
    if s.setvlReached.cc.softPoint then .next (s.setvlReached.preempt 0x0D)
    else if s.setvlReached.cc.loopAct && s.setvlReached.cc.issued == BitVec.allOnes 32 then
      .next (s.raise { cause := 0x01, tval := wordOf (.setvl d a w) })
    else .next (s.setvlReached.granted d (grantVl (s.setvlReached.getX a).toNat w s.setvlReached.cc.maxvl)).retire := by
  rw [execSetvl, needVector_ok hven, except_bind_ok]
  change finish (if s.setvlReached.cc.softPoint then _ else _) = _
  rw [apply_ite finish, apply_ite finish]
  rfl

theorem softPoint_iff (c : ControlCore) : c.softPoint = true ↔ c.request.isSome = true ∧ c.depth = 0 ∧ c.inui = false := by
  simp [ControlCore.softPoint, ControlCore.handling, and_assoc]

theorem not_softPoint {s : State} (h : s.cc.request = none ∨ s.cc.depth ≠ 0 ∨ s.cc.inui = true) :
    ¬ s.setvlReached.cc.softPoint = true := by
  rw [s.setvlReached_softPoint, softPoint_iff]
  rintro ⟨hreq, hdepth, hinui⟩
  rcases h with h | h | h
  · rw [h] at hreq; cases hreq
  · exact h hdepth
  · rw [h] at hinui; cases hinui

theorem grantVl_eq (n : Nat) (w : BitVec 2) (maxeg : BitVec 5) : grantVl n w maxeg =
    min n (min (8192 / (64 / 2 ^ w.toNat)) (maxeg.toNat * (512 / (64 / 2 ^ w.toNat)))) := by
  rw [grantVl, Nat.shiftRight_eq_div_pow]

theorem grantVl_lt (n : Nat) (w : BitVec 2) (maxeg : BitVec 5) : grantVl n w maxeg < 2 ^ 11 := by
  have hwidth : ∀ w : BitVec 2, 8192 / (64 / 2 ^ w.toNat) ≤ 1024 := by decide
  have := hwidth w
  rw [grantVl_eq]
  omega

/-- What a grant leaves. -/
theorem granted_out (s : State) (d : XReg) {vl : Nat} (hvl : vl < 2 ^ 11) :
    (s.granted d vl).retire.vlN = vl ∧ (s.granted d vl).retire.getX d = (if d = 0 then 0 else .ofNat 64 vl) ∧
      ∀ n, n ≠ d → (s.granted d vl).retire.getX n = s.getX n := by
  refine ⟨?_, ?_, fun n hn => ?_⟩
  · have hcc : (s.granted d vl).cc.vl = BitVec.ofNat 11 vl := ControlCore.setX_vl _ _ _
    exact (congrArg BitVec.toNat hcc).trans (Nat.mod_eq_of_lt hvl)
  · rw [State.retire_eq, State.retireTo_getX, State.granted, State.getX_setX]
    by_cases hd : d = 0
    · rw [if_neg fun h => h.2 hd, if_pos hd, hd]
      rfl
    · rw [if_pos ⟨rfl, hd⟩, if_neg hd]
  · rw [State.retire_eq, State.retireTo_getX, State.granted, State.getX_setX, if_neg fun h => hn h.1]
    rfl

/-- The fields other than VL and x that a grant leaves, with its retirement. -/
theorem granted_fields (s : State) (d : XReg) (vl : Nat) : Retires s (s.granted d vl).retire (s.cc.pc + 4) ∧
    (s.granted d vl).retire.cc.issued = (if s.cc.loopAct then s.cc.issued + 1 else s.cc.issued) ∧
    (s.granted d vl).retire.cc.tstatus = s.cc.tstatus ∧ (s.granted d vl).retire.cc.v = s.cc.v ∧
    (s.granted d vl).retire.cc.m = s.cc.m := by
  have hpc : (s.granted d vl).cc.pc = s.cc.pc := ControlCore.setX_pc _ _ _
  refine ⟨?_, ControlCore.setX_issued _ _ _, ControlCore.setX_tstatus _ _ _, ControlCore.setX_v _ _ _,
    ControlCore.setX_m _ _ _⟩
  rw [State.retire_eq, hpc]
  exact retires_to s _ _ (ControlCore.setX_retired _ _ _)

section
variable {s : State} (hven : s.cc.ven = true) (d a : XReg) (w : BitVec 2)
include hven

theorem execSetvl_soft (hreq : s.cc.request.isSome = true) (hdepth : s.cc.depth = 0) (hinui : s.cc.inui = false) :
    ∃ u : State, execSetvl d a w s = .next (u.preempt 0x0D) ∧ u.cc.x = s.cc.x ∧ u.cc.vl = s.cc.vl ∧ u.mem = s.mem := by
  have hsoft : s.setvlReached.cc.softPoint = true :=
    s.setvlReached_softPoint.trans ((softPoint_iff _).2 ⟨hreq, hdepth, hinui⟩)
  refine ⟨s.setvlReached, ?_, s.setvlReached_field (·.x) fun _ => rfl, s.setvlReached_field (·.vl) fun _ => rfl,
    s.setvlReached_mem⟩
  rw [execSetvl_eq hven, if_pos hsoft]

theorem execSetvl_overflow (h : s.cc.request = none ∨ s.cc.depth ≠ 0 ∨ s.cc.inui = true) (hact : s.cc.loopAct = true)
    (hissued : s.cc.issued = BitVec.allOnes 32) :
    execSetvl d a w s = .next (s.raise { cause := 0x01, tval := wordOf (.setvl d a w) }) := by
  have hfull : (s.setvlReached.cc.loopAct && s.setvlReached.cc.issued == BitVec.allOnes 32) = true := by
    rw [s.setvlReached_cc]
    exact Bool.and_eq_true_iff.2 ⟨hact, beq_iff_eq.2 hissued⟩
  rw [execSetvl_eq hven, if_neg (not_softPoint h), if_pos hfull]

theorem execSetvl_grants (h : s.cc.request = none ∨ s.cc.depth ≠ 0 ∨ s.cc.inui = true)
    (hissued : s.cc.loopAct = true → s.cc.issued ≠ BitVec.allOnes 32) : execSetvl d a w s =
      .next (s.setvlReached.granted d (grantVl (s.getX a).toNat w s.cc.maxvl)).retire := by
  have hfull : ¬ (s.setvlReached.cc.loopAct && s.setvlReached.cc.issued == BitVec.allOnes 32) = true := by
    rw [s.setvlReached_cc]
    exact fun h => hissued (Bool.and_eq_true_iff.1 h).1 (beq_iff_eq.1 (Bool.and_eq_true_iff.1 h).2)
  rw [execSetvl_eq hven, if_neg (not_softPoint h), if_neg hfull, State.getX, s.setvlReached_cc]
  rfl

end

/-! ### NEXT (R162) -/

/-- The state with the count that NEXT leaves. -/
def State.counted (s : State) (d : XReg) (n : Nat) : State :=
  (s.setX d (BitVec.ofNat 64 n)).modCc fun c => { c with inStrip := false }

/-- The state with the loop closed. -/
def State.loopClosed (s : State) : State := s.modCc fun c => { c.withLoop false false with loopDepth := 0 }

theorem nextCount_eq (n vl : Nat) : nextCount n vl = n - vl := by
  unfold nextCount
  split <;> omega

theorem State.getX_counted (s : State) (d n : XReg) (k : Nat) :
    (s.counted d k).getX n = if n = d ∧ d ≠ 0 then BitVec.ofNat 64 k else s.getX n := s.getX_setX d n (BitVec.ofNat 64 k)

section
variable {s : State} (hven : s.cc.ven = true) (d : XReg) (off : BitVec 20)
include hven

theorem execNext_outside (hact : s.cc.loopAct = false) :
    execNext d off s = .next (s.raise { cause := 0x01, tval := wordOf (.next d off) }) := by
  rw [execNext, needVector_ok hven, except_bind_ok, hact]
  rfl

theorem execNext_eq (hact : s.cc.loopAct = true) : execNext d off s =
    .next (if (s.counted d ((s.getX d).toNat - s.vlN)).getX d ≠ 0 then
      (s.counted d ((s.getX d).toNat - s.vlN)).retireTo (s.cc.pc + .ofInt 64 (4 * off.toInt))
    else (s.counted d ((s.getX d).toNat - s.vlN)).loopClosed.retire) := by
  rw [execNext, needVector_ok hven, except_bind_ok, hact, nextCount_eq, wordsOff_eq_ofInt]
  change finish (if (s.counted d ((s.getX d).toNat - s.vlN)).getX d ≠ 0 then _ else _) = _
  split <;> rfl

/-- NEXT takes VL from the count, and goes on while elements are left. -/
theorem execNext_out (hact : s.cc.loopAct = true) : let left := (s.getX d).toNat - s.vlN
    ∃ t, execNext d off s = .next t ∧ (∀ n, n ≠ d → t.getX n = s.getX n) ∧
      t.getX d = (if d = 0 then 0 else .ofNat 64 left) ∧ t.cc.vl = s.cc.vl ∧ t.mem = s.mem ∧
      (d ≠ 0 → left ≠ 0 → Retires s t (s.cc.pc + .ofInt 64 (4 * off.toInt)) ∧ t.cc.tstatus = s.cc.tstatus) ∧
      (d = 0 ∨ left = 0 → Retires s t (s.cc.pc + 4) ∧ t.cc.loopAct = false ∧ t.cc.loopI = false ∧
        t.cc.ven = true ∧ t.cc.ppriv = s.cc.ppriv) := by
  intro left
  have hexec := execNext_eq hven d off hact
  have hlt : left < 2 ^ 64 := (Nat.sub_le _ _).trans_lt (s.getX d).isLt
  change _ = Host.Outcome.next (if (s.counted d left).getX d ≠ 0 then _ else (s.counted d left).loopClosed.retire) at hexec
  have hother : ∀ n, n ≠ d → (s.counted d left).getX n = s.getX n := fun n hn => by
    rw [s.getX_counted, if_neg fun h => hn h.1]
  have hcount : (s.counted d left).getX d = if d = 0 then 0 else .ofNat 64 left := by
    rw [s.getX_counted]
    by_cases hd : d = 0
    · rw [if_neg fun h => h.2 hd, if_pos hd, hd]
      rfl
    · rw [if_pos ⟨rfl, hd⟩, if_neg hd]
  have hvl : (s.counted d left).cc.vl = s.cc.vl := ControlCore.setX_vl _ _ _
  have hstatus : (s.counted d left).cc.tstatus = s.cc.tstatus := ControlCore.setX_tstatus _ _ _
  have hpc : (s.counted d left).cc.pc = s.cc.pc := ControlCore.setX_pc _ _ _
  have hretired : (s.counted d left).cc.retired = s.cc.retired := ControlCore.setX_retired _ _ _
  have hmem : (s.counted d left).mem = s.mem := rfl
  generalize s.counted d left = u at *
  by_cases hgo : d ≠ 0 ∧ left ≠ 0
  · have hne : u.getX d ≠ 0 := by
      rw [hcount, if_neg hgo.1]
      intro h
      have := congrArg BitVec.toNat h
      rw [BitVec.toNat_ofNat, Nat.mod_eq_of_lt hlt] at this
      exact hgo.2 this
    rw [if_pos hne] at hexec
    refine ⟨_, hexec, hother, hcount, hvl, hmem, fun _ _ => ⟨retires_to s u _ hretired, hstatus⟩, fun h => ?_⟩
    exact absurd hgo (not_and_or.2 (h.imp not_not.2 not_not.2))
  · have hend : d = 0 ∨ left = 0 := (not_and_or.1 hgo).imp not_not.1 not_not.1
    have hzero : ¬ u.getX d ≠ 0 := by
      rw [hcount]
      rcases hend with hd | hl
      · simp [hd]
      · simp [hl]
    rw [if_neg hzero] at hexec
    refine ⟨_, hexec, hother, hcount, hvl, hmem, fun hd hl => absurd ⟨hd, hl⟩ hgo, fun _ => ⟨?_, ?_, ?_, ?_, ?_⟩⟩
    · rw [← hpc]
      exact retires_to s u.loopClosed _ hretired
    · exact u.cc.loopAct_withLoop false false
    · exact u.cc.loopI_withLoop false false
    · refine (u.cc.ven_withLoop false false).trans ?_
      rw [ControlCore.ven, hstatus]
      exact hven
    · refine (u.cc.ppriv_withLoop false false).trans ?_
      rw [ControlCore.ppriv, hstatus]
      rfl

end

/-- Settles O28: each of LOOP, SETVL and NEXT by the branches that it takes past its first-use check. -/
theorem vectorLoops : Obligations.VectorLoops := by
  unfold Obligations.VectorLoops
  refine ⟨fun s a off fn3 hven => ?loop, fun s d a w hven => ?setvl, fun s d off hven =>
    ⟨execNext_outside hven d off, execNext_out hven d off⟩⟩
  case loop =>
    intro i
    have hexec : exec i s = finish (s.openLoop i fn3 a off) := by cases fn3 <;> rfl
    rw [hexec]
    exact ⟨openLoop_open hven, openLoop_exit hven, openLoop_opens hven⟩
  case setvl =>
    refine ⟨execSetvl_soft hven d a w, fun hno => ⟨fun hact hissued => ?_, fun hissued => ?_⟩⟩
    · exact ⟨s, execSetvl_overflow hven d a w hno hact hissued, rfl, rfl⟩
    · intro width vl
      have hvl : grantVl (s.getX a).toNat w s.cc.maxvl = vl := grantVl_eq _ _ _
      have hexec := execSetvl_grants hven d a w hno hissued
      obtain ⟨hlen, hd, hother⟩ := granted_out s.setvlReached d
        (hvl ▸ grantVl_lt (s.getX a).toNat w s.cc.maxvl : vl < 2 ^ 11)
      obtain ⟨hret, hissue, hstatus, hv, hm⟩ := granted_fields s.setvlReached d vl
      rw [hvl] at hexec
      have hpc := s.setvlReached_field (·.pc) fun _ => rfl
      have hretired := s.setvlReached_field (·.retired) fun _ => rfl
      refine ⟨_, hexec, ⟨hret.next.trans (by rw [hpc]), hret.count.trans (by rw [hretired])⟩, hlen, hd, fun n hn =>
        (hother n hn).trans (s.setvlReached_field (·.getX n) fun _ => rfl),
        hissue.trans (s.setvlReached_field (fun c => if c.loopAct then c.issued + 1 else c.issued) fun _ => rfl),
        hstatus.trans (s.setvlReached_field (·.tstatus) fun _ => rfl), hv.trans (s.setvlReached_field (·.v) fun _ => rfl),
        hm.trans (s.setvlReached_field (·.m) fun _ => rfl), s.setvlReached_mem⟩

end Sys2Proof.Machine
end

section
/-! What a tile instruction leaves that writes its tile: a dense tile made anew row by row, and the flags of its elements. -/

namespace Sys2Proof.Machine

/-! ### The fields of a configured tile (R179) -/

section
variable {t : Tile} {w : BitVec 32} (h : t.cfg = some w)
include h

theorem Tile.word_of_cfg : t.word = w := by simp [Tile.word, h]
theorem Tile.nrows_of_cfg : t.nrows = cfgRows w := by rw [Tile.nrows, Tile.word_of_cfg h]
theorem Tile.ncols_of_cfg : t.ncols = cfgCols w := by rw [Tile.ncols, Tile.word_of_cfg h]
theorem Tile.tag_of_cfg : t.tag = cfgTag w := by rw [Tile.tag, Tile.word_of_cfg h]
theorem Tile.factored_of_cfg : t.factored = cfgFactored w := by rw [Tile.factored, Tile.word_of_cfg h]

end

theorem cfgRows_le (w : BitVec 32) : cfgRows w ≤ 256 := by
  have := (w.extractLsb' 0 8).isLt
  unfold cfgRows
  omega

/-! ### The end of a tile instruction -/

/-- What an instruction leaves that writes its tile, sets flags and retires. -/
structure WritesTile (s u : State) (td : TReg) (t : Tile) (f : Flags) : Prop where
  retires : Retires s u (s.cc.pc + 4)
  frame : FrameT s u td
  flags : FlagsSet s u f
  tile : u.getT td = t

theorem writesTile (s : State) (td : TReg) (t : Tile) (f : Flags) :
    WritesTile s ((s.putT td t).orFlags f).retire td t f where
  retires := retires_to s ((s.putT td t).orFlags f) _ rfl
  frame := ⟨rfl, fun _ hn => s.getT_putT_other hn t, fun _ => rfl⟩
  flags := rfl
  tile := s.getT_putT_self td t

/-! ### A dense tile made anew -/

theorem Tile.putRows_succ (t : Tile) (f : Nat → VecReg) (n : Nat) :
    t.putRows f (n + 1) = (t.putRows f n).putRow n (f n) := by
  simp only [Tile.putRows, List.range_succ, List.foldl_append, List.foldl_cons, List.foldl_nil]

/-- Row i with every element made anew from its old bits. -/
def Tile.newRow (t : Tile) (g : Nat → Nat → Nat → Nat × Flags) (i : Nat) : VecReg :=
  { t.row i with data := packElems t.tag t.ncols fun k => (g i k (slotOf (t.row i).data t.tag k)).1 }

/-- Rows that have not been put yet are as they were. -/
theorem Tile.putRows_row_later (t : Tile) (f : Nat → VecReg) {n r : Nat} (hr : n ≤ r) : (t.putRows f n).row r = t.row r := by
  induction n with
  | zero => rfl
  | succ n ih =>
    rw [Tile.putRows_succ, Tile.row_putRow, if_neg (by omega), ih (by omega)]

/-- What is packed depends on the elements alone. -/
theorem packElems_congr {t : Tag} {n : Nat} {f g : Nat → Nat} (h : ∀ k, k < n → f k = g k) :
    packElems t n f = packElems t n g :=
  congrArg (BitVec.ofNat 8192) (List.foldl_ext _ _ _ fun _ k hk => by rw [h k (List.mem_range.1 hk)])

/-- `Tile.mapDense` puts the new rows one after another; each is made from a row that stands as it was. -/
theorem Tile.mapDense_eq (t : Tile) (g : Nat → Nat → Nat → Nat × Flags) :
    t.mapDense g = (t.putRows (t.newRow g) t.nrows,
      tileFlags t.nrows t.ncols fun i k => g i k (slotOf (t.row i).data t.tag k)) := by
  unfold Tile.mapDense tileFlags
  induction t.nrows with
  | zero => rfl
  | succ n ih =>
    have hrow : (t.putRows (t.newRow g) n).row n = t.row n := t.putRows_row_later _ le_rfl
    have hpack : (packElems t.tag t.ncols fun k =>
        ((((List.range t.ncols).map fun k => g n k (slotOf (t.row n).data t.tag k))[k]?).getD (0, 0)).1) =
        (t.newRow g n).data := packElems_congr fun k hk => by simp [hk]
    rw [List.range_succ, List.foldl_append, List.foldl_append, ih, Tile.putRows_succ]
    simp only [List.foldl_cons, List.foldl_nil, List.foldl_map, hrow, hpack]
    rfl

theorem Tile.mapDense_inUse (t : Tile) (g : Nat → Nat → Nat → Nat × Flags) : (t.mapDense g).1.inUse = t.inUse := by
  rw [Tile.mapDense_eq]
  exact t.putRows_keeps _ _ Tile.inUse fun _ _ _ => rfl

/-! ### The outcome of an instruction that writes a dense tile whole -/

/-- A tile in use whose elements are packed from new ones, written with their flags. -/
theorem denseOut_write {s : State} {td : TReg} {u : Tile} {w : BitVec 32} {f : Nat → Nat → Nat × Flags}
    (hcfg : u.cfg = some w) (huse : u.inUse = true)
    (hrows : ∀ i, i < cfgRows w → (u.row i).data = packElems (cfgTag w) (cfgCols w) fun k => (f i k).1) :
    DenseOut s ((s.putT td u).orFlags (tileFlags (cfgRows w) (cfgCols w) f)).retire td w f := by
  have h := writesTile s td u (tileFlags (cfgRows w) (cfgCols w) f)
  refine ⟨h.retires, h.frame, ?_, ?_, fun i k hi hk hfit => ?_, h.flags⟩
  · rw [h.tile, hcfg]
  · rw [h.tile, huse]
  · rw [h.tile, hrows i hi, slotOf_packElems hk (slot_fits _ k hfit)]

/-- A dense tile that `Tile.mapDense` makes anew, written with its flags. -/
theorem denseOut_mapDense (s : State) (td : TReg) {t : Tile} {w : BitVec 32} (hcfg : t.cfg = some w)
    (g : Nat → Nat → Nat → Nat × Flags) :
    DenseOut s ((s.putT td { (t.mapDense g).1 with inUse := true }).orFlags (t.mapDense g).2).retire td w
      fun i k => g i k (slotOf (t.row i).data (cfgTag w) k) := by
  rw [Tile.mapDense_eq, Tile.nrows_of_cfg hcfg, Tile.ncols_of_cfg hcfg, Tile.tag_of_cfg hcfg]
  refine denseOut_write ((t.putRows_keeps _ _ Tile.cfg fun _ _ _ => rfl).trans hcfg) rfl fun i hi => ?_
  refine (t.putRows_row (t.newRow g) _ hi).trans ?_
  rw [Tile.newRow, Tile.ncols_of_cfg hcfg, Tile.tag_of_cfg hcfg]

/-- The tile of a register made anew by `Tile.mapDense`, each element from its old bits. -/
theorem denseOut_mapTile {s : State} {td : TReg} {w : BitVec 32} (hcfg : (s.getT td).cfg = some w)
    (g : Nat → Nat → Nat → Nat × Flags) :
    DenseOut s ((s.putT td { ((s.getT td).mapDense g).1 with inUse := true }).orFlags ((s.getT td).mapDense g).2).retire td w
      fun i k => g i k (s.tileSlot td i k) := by
  simp only [State.tileSlot, Tile.tag_of_cfg hcfg]
  exact denseOut_mapDense s td hcfg g

end Sys2Proof.Machine
end

section
/-! TOPA and TOPS (R186, R187). -/

namespace Sys2Proof.Machine

section
variable {s : State} (hready : s.tilesReady) {td : TReg} {va vb : VReg} {w : BitVec 32} (hcfg : (s.getT td).cfg = some w)
  (htags : outerTags (s.getT td) (s.getV va).tag (s.getV vb).tag = true) (sub : Bool)
include hready hcfg htags

/-- To a dense tile the product of each pair of elements is added, or taken away. -/
theorem State.outer_dense (hdense : cfgFactored w = false) :
    ∃ t, s.outer sub td va vb = .next t ∧ DenseOut s t td w fun r c =>
      let p := mulExact (valOf (s.getV va).data (s.getV va).tag r) (valOf (s.getV vb).data (s.getV vb).tag c)
      denseAcc s.cc (cfgTag w) 0 (s.tileSlot td r c) [(if sub then p.1.neg else p.1, p.2)] := by
  refine ⟨_, ?_, denseOut_mapTile hcfg fun i k old =>
    let p := mulExact (valOf (s.getV va).data (s.getV va).tag i) (valOf (s.getV vb).data (s.getV vb).tag k)
    denseAcc s.cc (cfgTag w) 0 old [(if sub then p.1.neg else p.1, p.2)]⟩
  simp [State.outer, tileGuard_configured (pushGuard_tilesReady hready _) hcfg, tagCheck_ok htags,
    Tile.factored_of_cfg hcfg, Tile.tag_of_cfg hcfg, hdense]

/-- To a factored tile below its maximum rank a pair of factors is appended. -/
theorem State.outer_factored (hfac : cfgFactored w = true) (hrank : (s.getT td).rank ≠ cfgMaxRank w) :
    s.outer sub td va vb = .next (s.putT td { s.getT td with
      us := (s.getT td).us ++ [(List.range (cfgRows w)).map fun k =>
        let a := valOf (s.getV va).data (s.getV va).tag k
        asFP32 (if sub then a.neg else a)]
      vs := (s.getT td).vs ++ [(List.range (cfgCols w)).map fun k => asFP32 (valOf (s.getV vb).data (s.getV vb).tag k)]
      inUse := true }).retire := by
  simp [State.outer, tileGuard_configured (pushGuard_tilesReady hready _) hcfg, tagCheck_ok htags,
    Tile.factored_of_cfg hcfg, Tile.word_of_cfg hcfg, Tile.nrows_of_cfg hcfg, Tile.ncols_of_cfg hcfg, hfac, hrank]

/-- A factored tile at its maximum rank takes no further pair. -/
theorem State.outer_full (hfac : cfgFactored w = true) (hrank : (s.getT td).rank = cfgMaxRank w) :
    s.outer sub td va vb = .next (s.raise { cause := 0x09, tval := .ofNat 64 (td.toNat + 256 * (s.getT td).rank) }) := by
  simp [State.outer, tileGuard_configured (pushGuard_tilesReady hready _) hcfg, tagCheck_ok htags,
    Tile.factored_of_cfg hcfg, Tile.word_of_cfg hcfg, hfac, hrank, cRank]

end

theorem exec_outer (s : State) (td : TReg) (va vb : VReg) (sub : Bool) :
    exec (if sub then .tops td va vb else .topa td va vb) s = s.outer sub td va vb := by cases sub <;> rfl

/-- Settles O42: TOPA and TOPS are `State.outer`, which has one outcome for a dense tile and two for a factored one. -/
theorem outerProducts : Obligations.OuterProducts := by
  unfold Obligations.OuterProducts
  intro s td va vb sub w hready hcfg htags i a b
  have hexec : exec i s = s.outer sub td va vb := exec_outer s td va vb sub
  rw [hexec]
  refine ⟨State.outer_dense hready hcfg htags sub, fun hfac hrank => ?below, State.outer_full hready hcfg htags sub⟩
  case below =>
    have h := putsTile s td { s.getT td with
      us := (s.getT td).us ++ [(List.range (cfgRows w)).map fun k => asFP32 (if sub then (a k).neg else a k)]
      vs := (s.getT td).vs ++ [(List.range (cfgCols w)).map fun k => asFP32 (b k)]
      inUse := true }
    refine ⟨_, State.outer_factored hready hcfg htags sub hfac hrank, h.retires, h.frame, h.flags, ?_, ?_, ?_⟩
    · rw [h.tile]
    · rw [h.tile]
    · rw [h.tile]

end Sys2Proof.Machine
end

section
/-! TADD, TDENSE and TSCALE (R189 to R191). -/

namespace Sys2Proof.Machine

theorem Tile.inUse_eta {t : Tile} (h : t.inUse = true) : { t with inUse := true } = t := by rw [← h]

/-! ### TADD (R190) -/

theorem tileGuard_both {s : State} {ds : List Nat} (hg : pushGuard s ds = .ok ()) {td ts : TReg} {w x : BitVec 32}
    (hd : (s.getT td).cfg = some w) (hs : (s.getT ts).cfg = some x) : tileGuard s ds [td, ts] = .ok () := by
  simp [tileGuard, hg, hd, hs]

/-- Two tiles of one shape, of which a TADD adds the second to the first. -/
structure TaddTiles (s : State) (td ts : TReg) (w x : BitVec 32) : Prop where
  ready : s.tilesReady
  dst : (s.getT td).cfg = some w
  src : (s.getT ts).cfg = some x
  rows : cfgRows w = cfgRows x
  cols : cfgCols w = cfgCols x

section
variable {s : State} {td ts : TReg} {w x : BitVec 32} (h : TaddTiles s td ts w x)
include h

/-- TADD past the checks of its tiles and their shapes. -/
theorem TaddTiles.execTadd_eq (hforms : (cfgFactored w && !cfgFactored x ||
      !cfgFactored w && cfgFactored x && cfgTag w != tFP32) = false)
    (htags : (cfgFactored w || cfgFactored x || (cfgTag w == tFP32 || cfgTag w == tI32) && cfgTag x == cfgTag w) = true) :
    execTadd td ts s = finish (
      if cfgFactored w then
        if cfgMaxRank w < (s.getT td).rank + (s.getT ts).rank then
          .error (.trap s { cause := cRank, tval := BitVec.ofNat 64 (td.toNat + 256 * (s.getT td).rank) })
        else return (s.putT td { s.getT td with
          us := (s.getT td).us ++ (s.getT ts).us, vs := (s.getT td).vs ++ (s.getT ts).vs, inUse := true }).retire
      else
        let r := (s.getT td).mapDense fun i k old =>
          if cfgFactored x then accDeliver s.cc.accsat s.cc.rm tFP32 old ((s.getT ts).terms i k)
          else addDense s.cc (cfgTag w) old (s.tileSlot ts i k)
        return ((s.putT td { r.1 with inUse := true }).orFlags r.2).retire) := by
  have hshape : (cfgRows w != cfgRows x || cfgCols w != cfgCols x) = false := by simp [h.rows, h.cols]
  simp only [execTadd, tileGuard_both (pushGuard_tilesReady h.ready _) h.dst h.src, Tile.nrows_of_cfg h.dst,
    Tile.nrows_of_cfg h.src, Tile.ncols_of_cfg h.dst, Tile.ncols_of_cfg h.src, Tile.tag_of_cfg h.dst, Tile.tag_of_cfg h.src,
    Tile.factored_of_cfg h.dst, Tile.factored_of_cfg h.src, Tile.word_of_cfg h.dst, hshape, hforms, conflictIf_false,
    tagCheck_ok htags, except_bind_ok, State.tileSlot]

/-- The sum of two dense tiles of one tag. -/
theorem TaddTiles.dense_dense (hw : cfgFactored w = false) (hx : cfgFactored x = false)
    (hacc : cfgTag w = tFP32 ∨ cfgTag w = tI32) (htag : cfgTag x = cfgTag w) :
    ∃ t, exec (.tadd td ts) s = .next t ∧ DenseOut s t td w fun r c =>
      addDense s.cc (cfgTag w) (s.tileSlot td r c) (s.tileSlot ts r c) := by
  rw [exec_tadd, h.execTadd_eq (by simp [hw, hx]) (by simpa [hw, hx, htag] using hacc)]
  simp only [hw, hx, Bool.false_eq_true, if_false]
  exact ⟨_, rfl, denseOut_mapTile h.dst fun i k old => addDense s.cc (cfgTag w) old (s.tileSlot ts i k)⟩

/-- The exact terms of a factored tile, added to a dense one of FP32 elements. -/
theorem TaddTiles.dense_factored (hw : cfgFactored w = false) (hx : cfgFactored x = true) (htag : cfgTag w = tFP32) :
    ∃ t, exec (.tadd td ts) s = .next t ∧ DenseOut s t td w fun r c =>
      accDeliver s.cc.accsat s.cc.rm tFP32 (s.tileSlot td r c) ((s.getT ts).terms r c) := by
  rw [exec_tadd, h.execTadd_eq (by simp [hw, hx, htag]) (by simp [hw, hx])]
  simp only [hw, hx, Bool.false_eq_true, if_false, if_true]
  exact ⟨_, rfl, denseOut_mapTile h.dst fun i k old => accDeliver s.cc.accsat s.cc.rm tFP32 old ((s.getT ts).terms i k)⟩

/-- The factors of two factored tiles, one after the other. -/
theorem TaddTiles.factored_factored (hw : cfgFactored w = true) (hx : cfgFactored x = true)
    (hrank : (s.getT td).rank + (s.getT ts).rank ≤ cfgMaxRank w) :
    exec (.tadd td ts) s = .next (s.putT td { s.getT td with
      us := (s.getT td).us ++ (s.getT ts).us, vs := (s.getT td).vs ++ (s.getT ts).vs, inUse := true }).retire := by
  rw [exec_tadd, h.execTadd_eq (by simp [hw, hx]) (by simp [hw])]
  simp [hw, Nat.not_lt.2 hrank]

end

/-! ### TDENSE and TSCALE (R189, R191) -/

section
variable {s : State} (hready : s.tilesReady) {td : TReg} {w : BitVec 32} (hcfg : (s.getT td).cfg = some w)
include hready hcfg

theorem exec_tdense_dense (hdense : cfgFactored w = false) : exec (.tdense td) s = .next s.retire := by
  simp [execTdense, tileGuard_configured (pushGuard_tilesReady hready _) hcfg, Tile.factored_of_cfg hcfg, hdense]

/-- The dense tile of a factored one, which has its rows, columns and tag. -/
theorem exec_tdense_factored (hfac : cfgFactored w = true)
    (hfit : s.cc.othersOccupy td + occupancy (w &&& 0x001FFFFF) ≤ 131072) :
    ∃ t, exec (.tdense td) s = .next t ∧ DenseOut s t td (w &&& 0x001FFFFF) fun r c => (s.getT td).entry s.cc.rm r c := by
  have hroom : decide (131072 < s.cc.othersOccupy td + occupancy (w &&& 0x001FFFFF#32)) = false := by
    simpa using hfit
  have hout := denseOut_mapDense s td (t := { cfg := some (w &&& 0x001FFFFF), inUse := true }) rfl
    fun i k _ => (s.getT td).entry s.cc.rm i k
  rw [Tile.inUse_eta (Tile.mapDense_inUse _ _)] at hout
  refine ⟨_, ?_, hout⟩
  simp only [exec_tdense, execTdense, tileGuard_configured (pushGuard_tilesReady hready _) hcfg, except_bind_ok,
    Tile.factored_of_cfg hcfg, Tile.word_of_cfg hcfg, hfac, hroom, conflictIf_false]
  rfl

/-- TSCALE attaches a scale array and marks the tile as in use. -/
theorem exec_tscale_dense {va : VReg} (hdense : cfgFactored w = false) (hscale : scaleTag (cfgTag w) = true)
    (htag : (s.getV va).tag = tE8M0) :
    exec (.tscale td va) s = .next (s.putT td { s.getT td with
      scales := (List.range (scaleCount w)).map fun i => BitVec.ofNat 8 (slotOf (s.getV va).data tE8M0 i)
      scaled := true, inUse := true }).retire := by
  simp [execTscale, tileGuard_configured (pushGuard_tilesReady hready _) hcfg, Tile.factored_of_cfg hcfg,
    Tile.tag_of_cfg hcfg, Tile.word_of_cfg hcfg, hdense, hscale, htag, conflictIf_false, tagCheck_ok]

end

/-- The scale codes of a row of a column lie in the array. -/
theorem scaleIndex_lt {w : BitVec 32} {r c : Nat} (hr : r < cfgRows w) (hc : c < cfgCols w) :
    r / 32 * cfgCols w + c < scaleCount w :=
  calc r / 32 * cfgCols w + c < (r / 32 + 1) * cfgCols w := by rw [Nat.succ_mul]; omega
    _ ≤ scaleCount w := Nat.mul_le_mul_right _ (by omega)

theorem Tile.scaleAt_withScales {t : Tile} {w : BitVec 32} (hcfg : t.cfg = some w) (g : Nat → Byte) {r c : Nat}
    (hr : r < cfgRows w) (hc : c < cfgCols w) :
    ({ t with scales := (List.range (scaleCount w)).map g, scaled := true, inUse := true } : Tile).scaleAt r c =
      g (r / 32 * cfgCols w + c) := by
  have hcols : ∀ cs, ({ t with scales := cs, scaled := true, inUse := true } : Tile).ncols = cfgCols w :=
    fun _ => Tile.ncols_of_cfg hcfg
  simp [Tile.scaleAt, hcols, scaleIndex_lt hr hc]

end Sys2Proof.Machine
end

section
/-! TRECOMP (R188): the shape of what it delivers, and three tiles worked out from the rule. -/

namespace Sys2Proof.Machine

/-! ### As many u as v, and no more than RCAP allows -/

section
variable (mode : BitVec 3) (ttol : BitVec 40) (t : Tile)

theorem recompress_lengths : (recompress mode ttol t).1.length = (recompress mode ttol t).2.1.length := by
  simp only [recompress, List.length_map]

theorem recompress_length_le : (recompress mode ttol t).1.length ≤
    min (if (ttol.extractLsb' 32 8).toNat = 0 then cfgMaxRank t.word else (ttol.extractLsb' 32 8).toNat) (cfgMaxRank t.word) := by
  simp only [recompress, List.length_map, List.length_take]
  exact (min_le_left _ _).trans (min_le_right _ _)

theorem recompress_length_u : ∀ u ∈ (recompress mode ttol t).1, u.length = t.nrows := by
  simp only [recompress, List.map_map, List.mem_map]
  rintro _ ⟨v, -, rfl⟩
  simp

end

/-! ### A tile of rank 0 -/

theorem peval_one (x : Dyad) : peval [1] x = 1 := by
  simp [peval, ptrim]

/-- The polynomial 1, which is its own Sturm sequence, has no root. -/
theorem isolate_one (f : Nat) (lo hi : Dyad) : isolate [1] [[1]] f lo hi = [] := by
  have hvar : ∀ x, variationsAt [[1]] x = 0 := fun x => by
    rw [variationsAt, List.map_singleton, peval_one]
    decide
  cases f with
  | zero => rfl
  | succ f => simp [isolate, hvar]

theorem recompress_empty (mode : BitVec 3) (ttol : BitVec 40) {t : Tile} (hus : t.us = []) (hvs : t.vs = []) :
    (recompress mode ttol t).1 = [] ∧ (recompress mode ttol t).2.1 = [] := by
  have hpoly : ptrim (charpoly (imul [] [] 0) 0) = [1] := by decide
  have hfree : psquarefree [1] = [1] := by decide
  have hsturm : sturm 2 [1] (pderiv [1]) = [[1]] := by decide
  simp [recompress, hus, hvs, hpoly, hfree, hsturm, isolate_one]

/-! ### Three tiles worked out from R188 -/

/-- A factored tile of two rows and two columns, with no more than two pairs of FP32 factors. -/
def pairTile (us vs : List (List (BitVec 32))) : Tile := { cfg := some 0x02200101, inUse := true, us, vs }

/-- Factors in order that are exact come back as they are. -/
theorem recompress_ordered :
    recompress 0 0 (pairTile [[0x40000000, 0], [0, 0x3F800000]] [[0x3F800000, 0], [0, 0x3F800000]]) =
      ([[0x40000000, 0], [0, 0x3F800000]], [[0x3F800000, 0], [0, 0x3F800000]], 0) := by decide +kernel

/-- With RCAP = 1 the larger pair stays, and the dropped one sets NX. -/
theorem recompress_capped :
    recompress 0 (1 <<< 32) (pairTile [[0x40000000, 0], [0, 0x3F800000]] [[0x3F800000, 0], [0, 0x3F800000]]) =
      ([[0x40000000, 0]], [[0x3F800000, 0]], fNX) := by decide +kernel

/-- A v whose first entry is negative is turned, and its u carries the sign. -/
theorem recompress_turned : recompress 0 0 (pairTile [[0x3F800000, 0]] [[0xBF800000, 0]]) =
    ([[0xBF800000, 0]], [[0x3F800000, 0]], 0) := by decide +kernel

/-! ### The instruction -/

section
variable {s : State} (hready : s.tilesReady) {td : TReg} {w : BitVec 32} (hcfg : (s.getT td).cfg = some w)
  (hfac : cfgFactored w = true)
include hready hcfg hfac

/-- An infinity or a NaN leaves the factors and sets NV. -/
theorem exec_trecomp_bad (hbad : ((s.getT td).us ++ (s.getT td).vs).any (fun u => u.any badEntry) = true) :
    exec (.trecomp td) s = .next ((s.putT td { s.getT td with inUse := true }).orFlags fNV).retire := by
  simp only [exec_trecomp, execTrecomp, tileGuard_configured (pushGuard_tilesReady hready _) hcfg, except_bind_ok,
    Tile.factored_of_cfg hcfg, hfac, Bool.not_true, conflictIf_false, hbad, if_true, except_pure, finish_ok]

theorem exec_trecomp_finite (hfin : ((s.getT td).us ++ (s.getT td).vs).any (fun u => u.any badEntry) = false) :
    let r := recompress s.cc.rm s.cc.ttol (s.getT td)
    exec (.trecomp td) s =
      .next ((s.putT td { s.getT td with us := r.1, vs := r.2.1, inUse := true }).orFlags r.2.2).retire := by
  simp only [exec_trecomp, execTrecomp, tileGuard_configured (pushGuard_tilesReady hready _) hcfg, except_bind_ok,
    Tile.factored_of_cfg hcfg, hfac, Bool.not_true, conflictIf_false, hfin, Bool.false_eq_true, if_false, except_pure,
    finish_ok]

end

/-- Settles O43: each instruction ends in the write of its tile that its lemma above gives; what TRECOMP delivers has the shape
that `recompress` gives it, and the three tiles are evaluated. -/
theorem tileOperations : Obligations.TileOperations := by
  unfold Obligations.TileOperations
  intro s td w hready hcfg
  refine ⟨fun ts x hsrc hrows hcols => ?tadd, fun hdense => ?plain, exec_tdense_factored hready hcfg,
    fun va hdense hscale htag => ?tscale, fun hfac hfin => ?finite, fun hfac hbad => ?bad,
    recompress_ordered, recompress_capped, recompress_turned⟩
  case tadd =>
    have h : TaddTiles s td ts w x := ⟨hready, hcfg, hsrc, hrows, hcols⟩
    refine ⟨h.dense_dense, h.dense_factored, fun hw hx hrank => ?_⟩
    have hput := putsTile s td { s.getT td with
      us := (s.getT td).us ++ (s.getT ts).us, vs := (s.getT td).vs ++ (s.getT ts).vs, inUse := true }
    refine ⟨_, h.factored_factored hw hx hrank, hput.retires, hput.frame, hput.flags, ?_, ?_⟩ <;> rw [hput.tile]
  case plain =>
    exact ⟨_, exec_tdense_dense hready hcfg hdense, retires_retire rfl rfl, frameX_retireTo s 0 _⟩
  case tscale =>
    have hput := putsTile s td { s.getT td with
      scales := (List.range (scaleCount w)).map fun i => BitVec.ofNat 8 (slotOf (s.getV va).data tE8M0 i)
      scaled := true, inUse := true }
    refine ⟨_, exec_tscale_dense hready hcfg hdense hscale htag, hput.retires, hput.frame, hput.flags, ?_⟩
    rw [hput.tile]
    exact ⟨rfl, rfl, rfl, fun r c hr hc => Tile.scaleAt_withScales hcfg _ hr hc⟩
  case finite =>
    have hexec := exec_trecomp_finite hready hcfg hfac hfin
    have hpairs := recompress_lengths s.cc.rm s.cc.ttol (s.getT td)
    have hcap := recompress_length_le s.cc.rm s.cc.ttol (s.getT td)
    have hlen := recompress_length_u s.cc.rm s.cc.ttol (s.getT td)
    have hempty := recompress_empty s.cc.rm s.cc.ttol (t := s.getT td)
    rw [Tile.word_of_cfg hcfg] at hcap
    rw [Tile.nrows_of_cfg hcfg] at hlen
    generalize recompress s.cc.rm s.cc.ttol (s.getT td) = r at *
    have hput := writesTile s td { s.getT td with us := r.1, vs := r.2.1, inUse := true } r.2.2
    refine ⟨_, hexec, hput.retires, hput.frame, ?_⟩
    rw [hput.tile]
    exact ⟨rfl, rfl, hput.flags, hcfg, rfl, hpairs, hcap, hlen, hempty⟩
  case bad =>
    have hput := writesTile s td { s.getT td with inUse := true } fNV
    refine ⟨_, exec_trecomp_bad hready hcfg hfac hbad, hput.retires, hput.frame, ?_⟩
    rw [hput.tile]
    exact ⟨rfl, rfl, hcfg, rfl, hput.flags⟩

end Sys2Proof.Machine
end

section
/-! TMV, TMVT, TRDROW and TWRROW (R192, R194): what they write into a vector register or a row. -/

namespace Sys2Proof.Machine

/-! ### Elements packed into a register or a row -/

theorem fieldAt_ofNat {m w i : Nat} (h : w * i + w ≤ m) (n : Nat) : fieldAt (BitVec.ofNat m n).toNat w i = fieldAt n w i := by
  rw [BitVec.toNat_ofNat, fieldAt_mod _ _ _ _ h]

theorem fieldAt_beyond {m w i : Nat} (x : BitVec m) (h : m ≤ w * i) : fieldAt x.toNat w i = 0 := by
  rw [← Nat.mod_eq_of_lt x.isLt, fieldAt_mod_zero _ _ _ _ h]

/-- The elements of the vector destination of a tile instruction, of 32 bits each, and zero above them. -/
theorem slotOf_tileVec {t : Tag} (ht : t = tFP32 ∨ t = tI32) (es : List Nat) {i : Nat} (hi : i < 256) :
    slotOf (tileVec t es).data tFP32 i = es[i]?.getD 0 % 2 ^ 32 := by
  obtain ⟨hwidth, hfill⟩ : tagWidth t = tagWidth tFP32 ∧ ∀ b, fillSlot t b = b := by
    rcases ht with rfl | rfl
    · exact ⟨rfl, fillSlot_plain _ rfl rfl⟩
    · exact ⟨rfl, fillSlot_plain _ rfl rfl⟩
  have hfit : tagWidth tFP32 * i + tagWidth tFP32 ≤ 8192 := by
    change 32 * i + 32 ≤ 8192
    omega
  rw [slotOf, tileVec, packElems, fieldAt_ofNat hfit, hwidth,
    fieldAt_pack _ fun i => fillSlot t (es[i]?.getD 0), hfill]
  split
  · rfl
  next h => simp [Nat.le_of_not_lt h]

/-- The elements of a register, packed again: each has its bits, and those that lie beyond the register are zero. -/
theorem slotOf_packElems_bitsOf (data : BitVec 8192) (t : Tag) {n i : Nat} (hi : i < n) :
    slotOf (packElems t n fun k => bitsOf data t k) t i = fillSlot t (bitsOf data t i) := by
  by_cases h : i < vlmax t
  · rw [slotOf_packElems hi (slot_fits t i h), Nat.mod_eq_of_lt (fillSlot_lt t (bitsOf_lt data t i))]
  · have hmax : tagWidth t * vlmax t = 8192 := (by decide : ∀ t : Tag, tagWidth t * vlmax t = 8192) t
    have hbeyond : 8192 ≤ tagWidth t * i := hmax ▸ Nat.mul_le_mul_left _ (Nat.le_of_not_lt h)
    have hzero : fillSlot t 0 = 0 := (by decide : ∀ t : Tag, fillSlot t 0 = 0) t
    have hslot : ∀ d, slotOf d t i = 0 := fun d => fieldAt_beyond d hbeyond
    simp [hslot, bitsOf, hzero]

/-! ### The end of an instruction that writes a vector register -/

/-- What an instruction leaves that writes a vector register and retires, with or without flags and a free value. -/
structure WritesVec (s u : State) (vd : VReg) (r : VecReg) : Prop where
  retires : Retires s u (s.cc.pc + 4)
  frame : FrameV s u vd
  reg : u.getV vd = r
  vstart : u.cc.vstart = s.cc.vstart

theorem writesVec_flags (s : State) {vd : VReg} (hvd : vd.toNat < 48) (r : VecReg) (f : Flags) (n : Nat) :
    WritesVec s ((State.putV { s with free := n } vd r).orFlags f).retire vd r where
  retires := retires_retire rfl rfl
  frame := frameV_put s vd r f _ n id (.inr fun _ => rfl)
  reg := getV_self s _ vd r hvd rfl
  vstart := rfl

theorem writesVec (s : State) {vd : VReg} (hvd : vd.toNat < 48) (r : VecReg) : WritesVec s (s.putV vd r).retire vd r := by
  have h := writesVec_flags s hvd r 0 s.free
  rwa [State.orFlags_zero] at h

end Sys2Proof.Machine
end

section
/-! TMV and TMVT (R192): of a dense tile, and of a factored one. -/

namespace Sys2Proof.Machine

theorem exec_tileVecMul (s : State) (td : TReg) (va vd : VReg) (trans : Bool) :
    exec (if trans then .tmvt td va vd else .tmv td va vd) s = s.tileVecMul trans td va vd := by cases trans <;> rfl

/-! ### A dense tile -/

/-- The products of row i of a dense tile, or with `trans` of column i, with the n elements of a register under its tag. -/
def State.lineProducts (s : State) (td : TReg) (va : VReg) (w : BitVec 32) (trans : Bool) (n i : Nat) : List (Val × Flags) :=
  (List.range n).map fun k =>
    let (r, c) := if trans then (k, i) else (i, k)
    scaledProduct (decodeElem (cfgTag w) (s.tileSlot td r c)) ((s.getT td).scaleAt r c)
      (valOf (s.getV va).data (cfgTag w) k) 127

/-- Element i of the product with a dense tile: the exact sum for integers, else a free sum. -/
def State.lineSum (s : State) (td : TReg) (va : VReg) (w : BitVec 32) (trans : Bool) (n i : Nat) : Nat × Flags :=
  if isInt (cfgTag w) || cfgTag w == tI4 then denseAcc s.cc tI32 0 0 (s.lineProducts td va w trans n i)
  else sumFree (subDraw s.draw.1 i) s.cc.accsat s.cc.rm 0 (s.lineProducts td va w trans n i)

section
variable {s : State} {td : TReg} {va : VReg} {w : BitVec 32} (hcfg : (s.getT td).cfg = some w)
  (hx : isSx (cfgTag w) = false) (htag : (s.getV va).tag = cfgTag w) (trans : Bool)
include hcfg hx htag

/-- No element of a tile that is not SX has a reserved code. -/
theorem denseTerms_plain (n i : Nat) :
    denseTerms s (s.getT td) trans (s.getV va) i n = .ok (s.lineProducts td va w trans n i) := by
  rw [denseTerms, Tile.tag_of_cfg hcfg, htag]
  refine (foldlM_append _ (fun acc k _ => ?_) []).trans (congrArg _ (List.nil_append _))
  simp only [useElem_plain s _ hx, except_bind_ok, except_pure, State.tileSlot, Tile.tag_of_cfg hcfg]
  rfl

theorem State.tileVecMul_dense {vd : VReg} (hg : pushGuard s [vCode vd] = .ok ()) (hdense : cfgFactored w = false) :
    let m := if trans then cfgCols w else cfgRows w
    let n := if trans then cfgRows w else cfgCols w
    let int := isInt (cfgTag w) || cfgTag w == tI4
    ∃ f, s.tileVecMul trans td va vd = .next ((s.draw.2.putV vd (tileVec (if int then tI32 else tFP32)
      ((List.range m).map fun i => (s.lineSum td va w trans n i).1))).orFlags f).retire := by
  intro m n int
  have hsums : ∀ xs : List Nat, xs.foldlM (fun (acc : List (Nat × Flags)) i => do
      let ps ← denseTerms s (s.getT td) trans (s.getV va) i n
      return acc ++ [if int then denseAcc s.cc tI32 0 0 ps else sumFree (subDraw s.draw.1 i) s.cc.accsat s.cc.rm 0 ps]) [] =
      Except.ok (xs.map (s.lineSum td va w trans n)) := fun xs => by
    refine (foldlM_append (g := s.lineSum td va w trans n) xs (fun acc i _ => ?_) []).trans rfl
    rw [denseTerms_plain hcfg hx htag trans n i]
    rfl
  have hok : ((s.getV va).tag == cfgTag w) = true := by simp [htag]
  refine ⟨((List.range m).map (s.lineSum td va w trans n)).foldl (fun (a : Flags) r => a ||| r.2) 0, ?_⟩
  simp only [State.tileVecMul, tileGuard_configured hg hcfg, except_bind_ok, Tile.factored_of_cfg hcfg, hdense,
    Tile.tag_of_cfg hcfg, Bool.false_eq_true, if_false, tagCheck_ok hok, Tile.nrows_of_cfg hcfg, Tile.ncols_of_cfg hcfg]
  rw [hsums]
  simp only [except_bind_ok, except_pure, precise_ok, finish_ok, List.map_map]
  rfl

end

/-! ### A factored tile -/

/-- Two lists of one length, of which the second is computed from a third with the places of its elements. -/
theorem zip_map_zip_range {α β γ δ : Type} (us : List α) (vs : List β) (du : α) (dv : β) (f : β × Nat → γ) (g : α × γ → δ)
    (h : us.length = vs.length) : (us.zip ((vs.zip (List.range vs.length)).map f)).map g =
      (List.range us.length).map fun j => g (us[j]?.getD du, f (vs[j]?.getD dv, j)) := by
  refine List.ext_getElem (by simp [h]) fun j hj _ => ?_
  have hu : j < us.length := by simp [h] at hj; omega
  simp [hu, h ▸ hu]

/-- The inner sum of factor j of n entries with the elements of a register, which is rounded to FP32. -/
def State.innerSum (s : State) (va : VReg) (vs : List (List (BitVec 32))) (n j : Nat) : Nat :=
  (sumFreeTerms (subDraw s.draw.1 j) s.cc.accsat s.cc.rm ((List.range n).map fun k =>
    mulExact (factorVal (vs[j]?.getD []) k) (valOf (s.getV va).data (s.getV va).tag k))).1

/-- Element i of the product with a factored tile: a free sum over the inner sums. -/
def State.factorSum (s : State) (va : VReg) (us vs : List (List (BitVec 32))) (n i : Nat) : Nat × Flags :=
  sumFree (subDraw s.draw.1 (vs.length + i)) s.cc.accsat s.cc.rm 0 ((List.range us.length).map fun j =>
    mulExact (factorVal (us[j]?.getD []) i) (fmtFP32.decode (s.innerSum va vs n j)))

theorem State.tileVecMul_factored {s : State} {td : TReg} {va vd : VReg} {w : BitVec 32} (hcfg : (s.getT td).cfg = some w)
    (hfac : cfgFactored w = true) (hflt : isFlt (s.getV va).tag = true) (hg : pushGuard s [vCode vd] = .ok ()) (trans : Bool) :
    let m := if trans then cfgCols w else cfgRows w
    let n := if trans then cfgRows w else cfgCols w
    let us := if trans then (s.getT td).vs else (s.getT td).us
    let vs := if trans then (s.getT td).us else (s.getT td).vs
    us.length = vs.length → ∃ f, s.tileVecMul trans td va vd =
      .next ((s.draw.2.putV vd (tileVec tFP32 ((List.range m).map fun i => (s.factorSum va us vs n i).1))).orFlags f).retire := by
  intro m n us vs hlen
  have hsum : ∀ i, s.factorSum va us vs n i = sumFree (subDraw s.draw.1 (vs.length + i)) s.cc.accsat s.cc.rm 0
      ((us.zip ((vs.zip (List.range vs.length)).map fun p => sumFreeTerms (subDraw s.draw.1 p.2) s.cc.accsat s.cc.rm
        ((List.range n).map fun k => mulExact (factorVal p.1 k) (valOf (s.getV va).data (s.getV va).tag k)))).map fun p =>
          mulExact (factorVal p.1 i) (fmtFP32.decode p.2.1)) := fun i => by
    rw [zip_map_zip_range us vs [] [] _ _ hlen]
    rfl
  simp only [State.tileVecMul, tileGuard_configured hg hcfg, except_bind_ok, Tile.factored_of_cfg hcfg, hfac, if_true,
    tagCheck_ok hflt, Tile.nrows_of_cfg hcfg, Tile.ncols_of_cfg hcfg, hsum, except_pure, precise_ok, finish_ok, List.map_map]
  exact ⟨_, rfl⟩

/-! ### The outcome of both -/

theorem lineCount_le (w : BitVec 32) (trans : Bool) : (if trans then cfgCols w else cfgRows w) ≤ 256 := by
  cases trans
  · exact cfgRows_le w
  · exact cfgCols_le w

/-- A product written into a vector register: its elements, and zero above them. -/
theorem tileVec_out (s : State) {vd : VReg} (hvd : vd.toNat < 48) {t : Tag} (ht : t = tFP32 ∨ t = tI32) {m : Nat} (hm : m ≤ 256)
    (e : Nat → Nat) (f : Flags) :
    let u := ((s.draw.2.putV vd (tileVec t ((List.range m).map e))).orFlags f).retire
    Retires s u (s.cc.pc + 4) ∧ FrameV s u vd ∧ (u.getV vd).tag = t ∧ u.cc.vstart = s.cc.vstart ∧
      (∀ i, i < m → slotOf (u.getV vd).data tFP32 i = e i % 2 ^ 32) ∧
      ∀ i, m ≤ i → i < 256 → slotOf (u.getV vd).data tFP32 i = 0 := by
  intro u
  obtain ⟨hret, hframe, hreg, hvstart⟩ : WritesVec s u vd _ := writesVec_flags s hvd _ f (s.free + 1)
  rw [hreg]
  refine ⟨hret, hframe, rfl, hvstart, fun i hi => ?_, fun i hi hmax => ?_⟩
  · rw [slotOf_tileVec ht _ (by omega)]
    simp [hi]
  · rw [slotOf_tileVec ht _ hmax]
    simp [hi]

end Sys2Proof.Machine
end

section
/-! TRDROW and TWRROW (R194). -/

namespace Sys2Proof.Machine

/-! ### TRDROW -/

section
variable {s : State} {td : TReg} {vd : VReg} {xb : XReg} {w : BitVec 32} (hcfg : (s.getT td).cfg = some w)
  (hg : pushGuard s [vCode vd] = .ok ())
include hcfg hg

theorem execTrdrow_beyond (hrow : cfgRows w ≤ (s.getX xb).toNat) :
    execTrdrow td vd xb s = .next (s.putV vd ⟨0, 0, cfgTag w⟩).retire := by
  simp [execTrdrow, tileGuard_configured hg hcfg, Tile.nrows_of_cfg hcfg, Tile.tag_of_cfg hcfg, hrow]

theorem execTrdrow_dense (hrow : (s.getX xb).toNat < cfgRows w) (hdense : cfgFactored w = false) :
    execTrdrow td vd xb s = .next (s.putV vd ((s.getT td).row (s.getX xb).toNat)).retire := by
  simp [execTrdrow, tileGuard_configured hg hcfg, Tile.nrows_of_cfg hcfg, Tile.factored_of_cfg hcfg, hdense,
    Nat.not_le.2 hrow]

theorem execTrdrow_factored (hrow : (s.getX xb).toNat < cfgRows w) (hfac : cfgFactored w = true) :
    ∃ f, execTrdrow td vd xb s = .next ((s.putV vd (tileVec tFP32 ((List.range (cfgCols w)).map fun k =>
      ((s.getT td).entry s.cc.rm (s.getX xb).toNat k).1))).orFlags f).retire := by
  refine ⟨((List.range (cfgCols w)).map fun k => (s.getT td).entry s.cc.rm (s.getX xb).toNat k).foldl
    (fun (a : Flags) r => a ||| r.2) 0, ?_⟩
  simp [execTrdrow, tileGuard_configured hg hcfg, Tile.nrows_of_cfg hcfg, Tile.ncols_of_cfg hcfg, Tile.factored_of_cfg hcfg,
    hfac, Nat.not_le.2 hrow, Function.comp_def]

end

/-- A row read is the row, zero beyond the last, or the entries of a factored tile. -/
theorem trdrow_out {s : State} {td : TReg} {vd : VReg} {w : BitVec 32} (hcfg : (s.getT td).cfg = some w)
    (hg : pushGuard s [vCode vd] = .ok ()) (hvd : vd.toNat < 48) (xb : XReg) :
    ∃ t, exec (.trdrow td vd xb) s = .next t ∧ Retires s t (s.cc.pc + 4) ∧ FrameV s t vd ∧
      (cfgRows w ≤ (s.getX xb).toNat → t.getV vd = ⟨0, 0, cfgTag w⟩) ∧
      ((s.getX xb).toNat < cfgRows w → cfgFactored w = false → t.getV vd = (s.getT td).row (s.getX xb).toNat) ∧
      ((s.getX xb).toNat < cfgRows w → cfgFactored w = true → (t.getV vd).tag = tFP32 ∧
        ∀ k, k < cfgCols w → slotOf (t.getV vd).data tFP32 k =
          ((s.getT td).entry s.cc.rm (s.getX xb).toNat k).1 % 2 ^ 32) := by
  by_cases hrow : cfgRows w ≤ (s.getX xb).toNat
  · have h := writesVec s hvd ⟨0, 0, cfgTag w⟩
    exact ⟨_, execTrdrow_beyond hcfg hg hrow, h.retires, h.frame, fun _ => h.reg, fun hlt => absurd hrow (Nat.not_le.2 hlt),
      fun hlt => absurd hrow (Nat.not_le.2 hlt)⟩
  have hlt : (s.getX xb).toNat < cfgRows w := Nat.lt_of_not_le hrow
  cases hfac : cfgFactored w with
  | false =>
    have h := writesVec s hvd ((s.getT td).row (s.getX xb).toNat)
    exact ⟨_, execTrdrow_dense hcfg hg hlt hfac, h.retires, h.frame, fun h => absurd h hrow, fun _ _ => h.reg,
      fun _ h => absurd h Bool.false_ne_true⟩
  | true =>
    obtain ⟨f, hexec⟩ := execTrdrow_factored hcfg hg hlt hfac
    have h := writesVec_flags s hvd (tileVec tFP32 ((List.range (cfgCols w)).map fun k =>
      ((s.getT td).entry s.cc.rm (s.getX xb).toNat k).1)) f s.free
    refine ⟨_, hexec, h.retires, h.frame, fun h => absurd h hrow, fun _ h => absurd h.symm Bool.false_ne_true,
      fun _ _ => ?_⟩
    rw [h.reg]
    refine ⟨rfl, fun k hk => ?_⟩
    rw [slotOf_tileVec (.inl rfl) _ (hk.trans_le (cfgCols_le w))]
    simp [hk]

/-! ### TWRROW -/

/-- The register that a row takes from va: the elements of the tile's columns, and of an SX tile their side band. -/
def State.rowFrom (s : State) (va : VReg) (w : BitVec 32) : VecReg :=
  ⟨packElems (cfgTag w) (cfgCols w) fun k => bitsOf (s.getV va).data (cfgTag w) k,
    if isSx (cfgTag w) then BitVec.ofNat 1024 ((s.getV va).side.toNat % 2 ^ cfgCols w) else 0, cfgTag w⟩

/-- The tile with a row written, in use and without scales. -/
def Tile.withRow (t : Tile) (n : Nat) (v : VecReg) : Tile :=
  { t.putRow n v with inUse := true, scaled := false, scales := [] }

theorem Tile.withRow_row (t : Tile) (n i : Nat) (v : VecReg) :
    (t.withRow n v).row i = if i = n then ⟨v.data, v.side, t.tag⟩ else t.row i := t.row_putRow n i v

section
variable {s : State} (hready : s.tilesReady) {td : TReg} {va : VReg} {xb : XReg} {w : BitVec 32}
  (hcfg : (s.getT td).cfg = some w) (hdense : cfgFactored w = false) (htag : (s.getV va).tag = cfgTag w)
include hready hcfg hdense htag

theorem exec_twrrow_eq : exec (.twrrow td va xb) s = .next (if cfgRows w ≤ (s.getX xb).toNat then s.retire
    else (s.putT td ((s.getT td).withRow (s.getX xb).toNat (s.rowFrom va w))).retire) := by
  have hok : ((s.getV va).tag == cfgTag w) = true := by simp [htag]
  simp only [exec_twrrow, execTwrrow, tileGuard_configured (pushGuard_tilesReady hready _) hcfg, except_bind_ok,
    Tile.factored_of_cfg hcfg, hdense, conflictIf_false, Tile.tag_of_cfg hcfg, tagCheck_ok hok, Tile.nrows_of_cfg hcfg,
    Tile.ncols_of_cfg hcfg]
  split <;> rfl

end

/-- The side band of block b, of which a row takes one bit for each column. -/
theorem rowFrom_side (s : State) (va : VReg) {w : BitVec 32} (hsx : isSx (cfgTag w) = true) {b : Nat}
    (hb : 16 * b + 15 < cfgCols w) : fieldAt (s.rowFrom va w).side.toNat 16 b = fieldAt (s.getV va).side.toNat 16 b := by
  have := cfgCols_le w
  simp only [State.rowFrom, hsx, if_true]
  rw [fieldAt_ofNat (by omega), fieldAt_mod _ _ _ _ (by omega)]

/-- Settles O44: the products by `tileVec_out`, a row read by `trdrow_out`, and a row written by the write of the tile that
TWRROW ends in. -/
theorem tileRowsAndProducts : Obligations.TileRowsAndProducts := by
  unfold Obligations.TileRowsAndProducts
  intro s td w hven hcfg
  refine ⟨fun vd hvd hcarry => ⟨fun va trans hdense hx htag => ?dense, trdrow_out hcfg (vecGuard_ok hven hvd hcarry) hvd⟩,
    fun vd va trans hvd hcarry hfac hflt => ?factored, fun va xb hloop hdense htag => ⟨fun hrow => ?beyond, fun hrow => ?row⟩⟩
  case dense =>
    intro m n int ps
    obtain ⟨f, hexec⟩ := State.tileVecMul_dense hcfg hx htag trans (vecGuard_ok hven hvd hcarry) hdense
    have ht : (if int then tI32 else tFP32) = tFP32 ∨ (if int then tI32 else tFP32) = tI32 := by
      cases int
      · exact .inl rfl
      · exact .inr rfl
    exact ⟨_, (exec_tileVecMul ..).trans hexec,
      tileVec_out s hvd ht (lineCount_le w trans) (fun i => (s.lineSum td va w trans n i).1) f⟩
  case factored =>
    intro m n us vs inner hlen
    obtain ⟨f, hexec⟩ := State.tileVecMul_factored hcfg hfac hflt (vecGuard_ok hven hvd hcarry) trans hlen
    obtain ⟨hret, hframe, htag, -, helems, -⟩ :=
      tileVec_out s hvd (.inl rfl) (lineCount_le w trans) (fun i => (s.factorSum va us vs n i).1) f
    exact ⟨_, (exec_tileVecMul ..).trans hexec, hret, hframe, htag, helems⟩
  case beyond =>
    refine ⟨s.retire, ?_, retires_retire rfl rfl, frameX_retireTo s 0 _⟩
    rw [exec_twrrow_eq ⟨hven, hloop⟩ hcfg hdense htag, if_pos hrow]
  case row =>
    have hput := putsTile s td ((s.getT td).withRow (s.getX xb).toNat (s.rowFrom va w))
    have hself : ((s.getT td).withRow (s.getX xb).toNat (s.rowFrom va w)).row (s.getX xb).toNat =
        ⟨(s.rowFrom va w).data, (s.rowFrom va w).side, (s.getT td).tag⟩ := (Tile.withRow_row ..).trans (if_pos rfl)
    refine ⟨_, ?_, hput.retires, hput.frame, hput.flags, ?_⟩
    · rw [exec_twrrow_eq ⟨hven, hloop⟩ hcfg hdense htag, if_neg (Nat.not_le.2 hrow)]
    · rw [hput.tile, hself]
      exact ⟨hcfg, rfl, rfl, fun i hi => (Tile.withRow_row ..).trans (if_neg hi), fun k hk => slotOf_packElems_bitsOf _ _ hk,
        fun b hsx hb => rowFrom_side s va hsx hb⟩

end Sys2Proof.Machine
end

section
/-! SUPPORT. Operations that leave memory as it is: every access to memory that a step makes is elsewhere. -/

namespace Sys2Proof.Machine

/-- A sequence of operations that leave memory as it is does so too. -/
theorem foldl_mem {α : Type} {f : State → α → State} (hf : ∀ u a, (f u a).mem = u.mem) (l : List α) (s : State) :
    (l.foldl f s).mem = s.mem := by
  induction l generalizing s with
  | nil => rfl
  | cons a r ih => rw [List.foldl_cons, ih, hf]

section
variable (s : State)

@[simp] theorem State.focus_mem (id) : (s.focus id).mem = s.mem := by unfold State.focus; split <;> rfl
@[simp] theorem State.onCc_mem (id) {f : State → State} (h : ∀ u, (f u).mem = u.mem) : (s.onCc id f).mem = s.mem := by
  rw [State.onCc, State.focus_mem, h, State.focus_mem]
@[simp] theorem State.modDomain_mem (n f) : (s.modDomain n f).mem = s.mem := rfl
@[simp] theorem State.modChan_mem (n f) : (s.modChan n f).mem = s.mem := rfl
@[simp] theorem State.modTiller_mem (n f) : (s.modTiller n f).mem = s.mem := rfl
@[simp] theorem State.modPort_mem (n f) : (s.modPort n f).mem = s.mem := rfl
@[simp] theorem State.putRegion_mem (pa r) : (s.putRegion pa r).mem = s.mem := rfl
@[simp] theorem State.draw_mem : s.draw.2.mem = s.mem := rfl
@[simp] theorem State.complete_mem (id k) : (s.complete id k).mem = s.mem := by simp [State.complete]
@[simp] theorem State.retire_mem : s.retire.mem = s.mem := rfl
@[simp] theorem State.offerRing_mem (id cause) : (s.offerRing id cause).mem = s.mem := by simp [State.offerRing]
@[simp] theorem State.sendFlits_mem (port fs) : (s.sendFlits port fs).mem = s.mem := rfl
@[simp] theorem State.pump_mem (port) : (s.pump port).mem = s.mem := by unfold State.pump; dsimp only; split <;> simp
@[simp] theorem State.sendStream_mem (port bytes) : (s.sendStream port bytes).mem = s.mem := by
  unfold State.sendStream; dsimp only; split <;> simp
@[simp] theorem State.sendPacket_mem (node ty units tag hi payload) :
    (s.sendPacket node ty units tag hi payload).mem = s.mem := by
  unfold State.sendPacket; split <;> simp
@[simp] theorem State.sendRead_mem (node tag off n) : (s.sendRead node tag off n).mem = s.mem := by
  simp [State.sendRead]
@[simp] theorem State.sendChunks_mem (node ty tag fuel bs) : (s.sendChunks node ty tag fuel bs).mem = s.mem := by
  induction fuel generalizing s bs with
  | zero => rfl
  | succ fuel ih => unfold State.sendChunks; split <;> simp [ih]
@[simp] theorem State.readCodes_mem (pa n) : (s.readCodes pa n).mem = s.mem := foldl_mem (fun _ _ => by simp) _ s
@[simp] theorem State.sendStamp_mem (d) : (s.sendStamp d).mem = s.mem := rfl
@[simp] theorem State.fillTlb_mem (t) : (s.fillTlb t).mem = s.mem := rfl
@[simp] theorem State.dropTlb_mem (t) : (s.dropTlb t).mem = s.mem := rfl
theorem State.tlbFind_mem {va} {p : State × TlbEntry} (h : s.tlbFind va = some p) : p.1.mem = s.mem := by
  unfold State.tlbFind at h
  split at h
  · cases h; rfl
  · split at h
    · cases h; rfl
    · obtain ⟨_, _, rfl⟩ := Option.map_eq_some_iff.1 h; rfl
@[simp] theorem State.holdLines_mem (pa n) : (s.holdLines pa n).mem = s.mem := by
  unfold State.holdLines; dsimp only; split <;> simp
@[simp] theorem State.freshReads_mem : s.freshReads.mem = s.mem := rfl
@[simp] theorem State.sendWrites_mem (node fuel off bs) : (s.sendWrites node fuel off bs).1.mem = s.mem := by
  induction fuel generalizing s off bs with
  | zero => rfl
  | succ fuel ih => unfold State.sendWrites; split <;> simp [ih]
@[simp] theorem State.pendStore_mem (w) : (s.pendStore w).mem = s.mem := by unfold State.pendStore; split <;> rfl
@[simp] theorem State.pendLoad_mem : s.pendLoad.mem = s.mem := rfl
@[simp] theorem State.advanceDie_mem (d) : (s.advanceDie d).mem = s.mem := rfl
@[simp] theorem State.releaseDie_mem (d) : (s.releaseDie d).mem = s.mem := rfl
@[simp] theorem State.release_mem (scope) : (s.release scope).mem = s.mem := by unfold State.release; split <;> rfl
@[simp] theorem State.leaveReads_mem (p) : (s.leaveReads p).mem = s.mem := rfl
@[simp] theorem State.leaveWrites_mem (cc peers) : (s.leaveWrites cc peers).mem = s.mem := rfl
@[simp] theorem State.sendColl_mem (nodes tag m) : (s.sendColl nodes tag m).mem = s.mem :=
  foldl_mem (fun u n => by split <;> simp) _ s
@[simp] theorem State.endSweeps_mem (chans) : (s.endSweeps chans).mem = s.mem := foldl_mem (fun _ _ => by rfl) _ s
@[simp] theorem State.returnRecords_mem (who c) : (s.returnRecords who c).mem = s.mem := by
  unfold State.returnRecords; split <;> rfl
@[simp] theorem State.withdrawAll_mem (parts) : (s.withdrawAll parts).mem = s.mem := foldl_mem (fun _ _ => by rfl) _ s
@[simp] theorem State.orphanWork_mem : s.orphanWork.mem = s.mem := rfl
@[simp] theorem State.checkShape_mem (core) : (s.checkShape core).mem = s.mem := by
  unfold State.checkShape; split <;> rfl
@[simp] theorem State.leaveCore_mem : s.leaveCore.mem = s.mem := by simp [State.leaveCore]
@[simp] theorem State.markCtx_mem (rcb index c) : (s.markCtx rcb index c).mem = s.mem := rfl
@[simp] theorem State.endSaved_mem (rcb) : (s.endSaved rcb).mem = s.mem := by
  unfold State.endSaved
  split
  · rfl
  · exact foldl_mem (fun u p => by split <;> simp) _ s
@[simp] theorem State.preemptFence_mem : s.preemptFence.mem = s.mem := by unfold State.preemptFence; split <;> rfl
@[simp] theorem State.trapReturn_mem : s.trapReturn.mem = s.mem := rfl
@[simp] theorem State.elemwise_mem (vd t f) : (s.elemwise vd t f).mem = s.mem := rfl
@[simp] theorem State.joinImm_mem (b t) (s' : State) : (s.joinImm b t s').mem = s'.mem := by
  unfold State.joinImm; split <;> rfl
@[simp] theorem State.commitLoad_mem (vr got part) : (s.commitLoad vr got part).1.mem = s.mem := by
  unfold State.commitLoad; dsimp only; (repeat' split) <;> simp
@[simp] theorem State.pendSent_mem (ws) : (s.pendSent ws).mem = s.mem := by
  unfold State.pendSent; dsimp only; split <;> simp
@[simp] theorem State.sendAdd_mem (sc x bits) : (s.sendAdd sc x bits).mem = s.mem := by
  simp [State.sendAdd, State.count_mem]
@[simp] theorem State.csrPut_mem (n v) : (s.csrPut n v).mem = s.mem := by unfold State.csrPut; split <;> rfl
@[simp] theorem State.unwait_mem : s.unwait.mem = s.mem := rfl
@[simp] theorem State.acceptRegion_mem (pa va parent) : (s.acceptRegion pa va parent).mem = s.mem := rfl
@[simp] theorem State.applyShape_mem (core) : (s.applyShape core).mem = s.mem := by
  unfold State.applyShape; split <;> rfl
@[simp] theorem State.unreach_mem (core) : (s.unreach core).mem = s.mem := rfl
@[simp] theorem State.refill_mem (g) : (s.refill g).mem = s.mem := by unfold State.refill; split <;> rfl
@[simp] theorem State.noteClass1_mem (g) : (s.noteClass1 g).mem = s.mem := rfl
@[simp] theorem State.fire_mem (cl) : (s.fire cl).mem = s.mem := by
  unfold State.fire; dsimp only; (repeat' split) <;> simp
@[simp] theorem State.normalIn_mem (chans) : (s.normalIn chans).mem = s.mem := foldl_mem (fun _ _ => by rfl) _ s
@[simp] theorem State.normalOut_mem (chans) : (s.normalOut chans).mem = s.mem := foldl_mem (fun _ _ => by rfl) _ s
@[simp] theorem State.pushCm_mem (parts) : (s.pushCm parts).mem = s.mem := by simp [State.pushCm]
@[simp] theorem State.modQuery_mem (cc serial f) : (s.modQuery cc serial f).mem = s.mem := rfl
@[simp] theorem State.startQuery_mem (q) : (s.startQuery q).mem = s.mem := by
  unfold State.startQuery
  dsimp only
  split
  · exact (foldl_mem (fun _ _ => State.later_mem ..) _ _).trans (foldl_mem (fun _ _ => State.modChan_mem ..) _ _)
  · exact foldl_mem (fun _ _ => State.modChan_mem ..) _ _
@[simp] theorem State.queryUnit_mem (core) : (s.queryUnit core).mem = s.mem := by
  unfold State.queryUnit
  dsimp only
  split
  · exact ((State.startQuery_mem ..).trans (State.modCcAt_mem ..)).trans (foldl_mem (fun _ _ => State.modCcAt_mem ..) _ _)
  · exact foldl_mem (fun _ _ => State.modCcAt_mem ..) _ _
@[simp] theorem State.cmAdmit_mem : s.cmAdmit.mem = s.mem := foldl_mem (fun u _ => by simp) _ s
@[simp] theorem State.cmCommandDone_mem (status) : (s.cmCommandDone status).mem = s.mem := by simp [State.cmCommandDone]
@[simp] theorem State.startCmOp_mem (h : ℕ) (chans k) : (s.startCmOp h chans k).mem = s.mem := by simp [State.startCmOp]
@[simp] theorem State.wantNormal_mem (chans) : (s.wantNormal chans).mem = s.mem :=
  foldl_mem (fun u n => by split <;> rfl) chans s
@[simp] theorem State.startMove_mem (h : ℕ) (r base mask) : (s.startMove h r base mask).mem = s.mem := by
  simp [State.startMove]
@[simp] theorem State.lookSpans_mem (ps) : (s.lookSpans ps).mem = s.mem := by
  have hcodes (u : State) (p : Span) : (if p.ce then u.readCodes p.at_ p.n else u).mem = u.mem := by split <;> simp
  unfold State.lookSpans; dsimp only; split <;> simp [foldl_mem hcodes]
@[simp] theorem State.endCmOp_mem (h : ℕ) (o) : (s.endCmOp h o).mem = s.mem := by unfold State.endCmOp; split <;> simp
@[simp] theorem State.modJob_mem (j f) : (s.modJob j f).mem = s.mem := rfl
@[simp] theorem State.jobFinished_mem (j status fault) : (s.jobFinished j status fault).mem = s.mem := rfl
@[simp] theorem State.walksDone_mem : s.walksDone.mem = s.mem := rfl
@[simp] theorem State.takeHeld_mem (j) : (s.takeHeld j).1.mem = s.mem := by
  unfold State.takeHeld
  generalize s.collHeld = l
  induction l generalizing s j with
  | nil => rfl
  | cons m r ih => rw [List.foldl_cons]; dsimp only; split <;> exact ih ..
@[simp] theorem State.rowDone_mem (j) : (s.rowDone j).mem = s.mem := by unfold State.rowDone; split <;> rfl
@[simp] theorem State.sendElems_mem (node tag bytes fuel es) : (s.sendElems node tag bytes fuel es).mem = s.mem := by
  induction fuel generalizing s es with
  | zero => rfl
  | succ fuel ih => unfold State.sendElems; dsimp only; (repeat' split) <;> simp [ih]
@[simp] theorem State.sendTrain_mem (node tag bytes counter es) : (s.sendTrain node tag bytes counter es).mem = s.mem := by
  unfold State.sendTrain; split <;> simp
@[simp] theorem State.addTrain_mem (node bytes group counter ic es) :
    (s.addTrain node bytes group counter ic es).mem = s.mem := by
  unfold State.addTrain; split <;> simp
@[simp] theorem State.ackTo_mem (src ty tag own) : (s.ackTo src ty tag own).mem = s.mem := by
  unfold State.ackTo; split <;> simp
@[simp] theorem State.sendWaiting_mem (core) : (s.sendWaiting core).mem = s.mem := by
  unfold State.sendWaiting; dsimp only; (repeat' split) <;> simp
@[simp] theorem State.endTrain_mem (t) : (s.endTrain t).mem = s.mem := by
  unfold State.endTrain; dsimp only; split <;> simp
@[simp] theorem State.modTrust_mem (f) : (s.modTrust f).mem = s.mem := rfl
@[simp] theorem State.bootEnds_mem (st) : (s.bootEnds st).mem = s.mem := by simp [State.bootEnds]
@[simp] theorem State.tuDone_mem (status) : (s.tuDone status).mem = s.mem := rfl
@[simp] theorem State.bindSlot_mem (rcb count p) : (State.bindSlot rcb count s p).mem = s.mem := by
  unfold State.bindSlot; split <;> rfl
@[simp] theorem State.rsDone_mem (status) : (s.rsDone status).mem = s.mem := by simp [State.rsDone]
theorem State.grantOne_mem {core costs ks} {p : Nat × State} (h : s.grantOne core costs ks = some p) : p.2.mem = s.mem := by
  obtain ⟨_, _, rfl⟩ := Option.map_eq_some_iff.1 h
  exact (State.modCcAt_mem ..).trans (foldl_mem (fun _ _ => State.modCcAt_mem ..) _ _)
@[simp] theorem State.grantAll_mem (core spread costs n ks) : (State.grantAll core spread costs n ks s).mem = s.mem := by
  induction n generalizing s ks with
  | zero => rfl
  | succ n ih =>
    unfold State.grantAll
    split
    · rfl
    · next h => rw [ih, s.grantOne_mem h]
@[simp] theorem State.endWait_mem (id) : (s.endWait id).mem = s.mem := s.onCc_mem id fun _ => rfl
@[simp] theorem State.deliver_mem : s.deliver.mem = s.mem := by unfold State.deliver; split <;> rfl
@[simp] theorem State.missWalk_mem (id va) : (s.missWalk id va).mem = s.mem := by
  unfold State.missWalk; dsimp only; split <;> simp [State.count_mem]
@[simp] theorem State.walked_mem (w id) : (s.walked w id).mem = s.mem :=
  (foldl_mem (fun _ _ => State.later_mem ..) _ _).trans (s.modCcAt_mem id _)
@[simp] theorem State.startMisses_mem (cl ms) : (State.startMisses cl ms s).mem = s.mem := by
  induction ms generalizing s with
  | nil => rfl
  | cons m r ih => unfold State.startMisses; split <;> simp [ih]
@[simp] theorem State.startWaiting_mem (cl) : (s.startWaiting cl).mem = s.mem := by simp [State.startWaiting]
@[simp] theorem State.meshPoison_mem (h) : (s.meshPoison h).mem = s.mem := by
  unfold State.meshPoison; (repeat' split) <;> rfl
@[simp] theorem State.startTiller_mem (ch job) : (s.startTiller ch job).mem = s.mem := by
  unfold State.startTiller; (repeat' split) <;> rfl
@[simp] theorem State.tillerEnded_mem (q c ch frag status moved overran) :
    (s.tillerEnded q c ch frag status moved overran).mem = s.mem := by
  unfold State.tillerEnded; dsimp only; (repeat' split) <;> simp [State.count_mem]
@[simp] theorem State.endTiller_mem (ch keep status) : (s.endTiller ch keep status).mem = s.mem := by
  unfold State.endTiller; dsimp only; (repeat' split) <;> simp
theorem nextOf_mem {s : State} {o : Out} (h : ∀ t, o = .next t → t.mem = s.mem) : (nextOf s o).mem = s.mem := by
  cases o with
  | next t => exact h t rfl
  | fault | refused => rfl
theorem State.execReplypush_mem {ch data} {t : State} (h : execReplypush ch data s = .next t) : t.mem = s.mem := by
  unfold execReplypush at h; split at h <;> cases h <;> rfl
theorem State.execReplyend_mem {ch v} {t : State} (h : execReplyend ch v s = .next t) : t.mem = s.mem := by
  unfold execReplyend at h; split at h <;> cases h <;> simp
theorem State.tillerWrite_mem {ch a n v} {t : State} (h : s.tillerWrite ch a n v = some t) : t.mem = s.mem := by
  unfold State.tillerWrite at h
  (repeat' split at h) <;> cases h <;> simp [nextOf_mem fun _ => s.execReplypush_mem, nextOf_mem fun _ => s.execReplyend_mem]
@[simp] theorem State.modCpu_mem (ch f) : (s.modCpu ch f).mem = s.mem := rfl
@[simp] theorem State.tillerAct_mem (ch a n op) : (s.tillerAct ch a n op).mem = s.mem := by
  unfold State.tillerAct
  dsimp only
  split
  · rfl
  · cases op with
    | store v =>
      dsimp only
      split
      · rfl
      · split
        · next hw => exact s.tillerWrite_mem hw
        · rfl
    | load | loadF | fetch | compute | csr | csrRead | trap | interrupt | mret => dsimp only; (repeat' split) <;> rfl
@[simp] theorem State.tlfwWrite_mem (ctl) : (s.tlfwWrite ctl).mem = s.mem := rfl
@[simp] theorem State.collPart_mem (port src bs) : (s.collPart port src bs).mem = s.mem := by
  unfold State.collPart; dsimp only; split <;> simp
@[simp] theorem State.packet_mem (port) (h : List Byte) (body) : (s.packet port h body).mem = s.mem := by
  unfold State.packet; dsimp only; (repeat' split) <;> simp
@[simp] theorem State.takePackets_mem (port fuel) : (State.takePackets port fuel s).mem = s.mem := by
  induction fuel generalizing s with
  | zero => rfl
  | succ fuel ih => unfold State.takePackets; dsimp only; split <;> simp [ih]
@[simp] theorem State.acked_mem (port ack) : (s.acked port ack).mem = s.mem := by
  unfold State.acked; dsimp only; split <;> simp
@[simp] theorem State.replay_mem (port) : (s.replay port).mem = s.mem := by simp [State.replay]
@[simp] theorem State.resend_mem (port) : (s.resend port).mem = s.mem := by
  unfold State.resend; dsimp only; (repeat' split) <;> simp
@[simp] theorem State.sendAck_mem (port nak) : (s.sendAck port nak).mem = s.mem := rfl
@[simp] theorem State.takeFlit_mem (port seq payload) : (s.takeFlit port seq payload).mem = s.mem := by
  unfold State.takeFlit; dsimp only; (repeat' split) <;> simp
@[simp] theorem State.linkState_mem (port st) : (s.linkState port st).mem = s.mem := by
  unfold State.linkState; split <;> simp
@[simp] theorem State.ethSet_mem (k up) : (s.ethSet k up).mem = s.mem := rfl
@[simp] theorem State.lose_mem (port n) : (s.lose port n).mem = s.mem := rfl
@[simp] theorem State.answerJob_mem (j hit) : (s.answerJob j hit).mem = s.mem := by
  unfold State.answerJob; dsimp only; split <;> simp
@[simp] theorem State.dropStores_mem (port id) : (State.dropStores port s id).mem = s.mem := by
  unfold State.dropStores; dsimp only; split <;> simp
@[simp] theorem State.dropCard_mem (port j) : (State.dropCard port s j).mem = s.mem := by
  unfold State.dropCard; dsimp only; split <;> simp
@[simp] theorem State.dropStrays_mem (port) : (s.dropStrays port).mem = s.mem := by
  unfold State.dropStrays; dsimp only; split <;> simp
@[simp] theorem State.dropTrains_mem (port) : (s.dropTrains port).mem = s.mem := by
  unfold State.dropTrains
  dsimp only
  split
  · exact (foldl_mem (fun _ _ => State.sendWaiting_mem ..) _ _).trans (foldl_mem (fun _ _ => State.complete_mem ..) _ _)
  · exact (State.lose_mem ..).trans ((foldl_mem (fun _ _ => State.sendWaiting_mem ..) _ _).trans
      (foldl_mem (fun _ _ => State.complete_mem ..) _ _))
@[simp] theorem State.dropReads_mem (port) : (s.dropReads port).mem = s.mem := foldl_mem (fun _ _ => State.later_mem ..) _ _
@[simp] theorem State.cmCommand_mem (w m) : (s.cmCommand w m).mem = s.mem := by
  unfold State.cmCommand; dsimp only; (repeat' split) <;> simp
@[simp] theorem State.rsCommand_mem (w m) : (s.rsCommand w m).mem = s.mem := by
  unfold State.rsCommand; dsimp only; (repeat' split) <;> simp
@[simp] theorem State.tuCommand_mem (w m) : (s.tuCommand w m).mem = s.mem := by
  unfold State.tuCommand; dsimp only; (repeat' split) <;> simp
theorem State.execRouteWrite_mem {node v} {t : State} (h : execRouteWrite node v s = .next t) : t.mem = s.mem := by
  cases h; rfl
theorem State.execBootLoad_mem {cmd} {t : State} (h : execBootLoad cmd s = .next t) : t.mem = s.mem := by
  unfold execBootLoad at h; dsimp only at h; split at h <;> cases h <;> rfl
@[simp] theorem State.supervisorPut_mem (host r w m) : (s.supervisorPut host r w m).mem = s.mem := by
  unfold State.supervisorPut
  dsimp only
  split
  · exact s.modDomain_mem ..
  · split
    · split
      · exact s.modCore_mem ..
      · rfl
    · (repeat' split) <;> simp [nextOf_mem fun _ => s.execRouteWrite_mem, nextOf_mem fun _ => s.execBootLoad_mem]
@[simp] theorem State.servicePut_mem (r w m) : (s.servicePut r w m).mem = s.mem := by
  unfold State.servicePut; dsimp only; (repeat' split) <;> simp
@[simp] theorem State.errorPut_mem (j w m) : (s.errorPut j w m).mem = s.mem := rfl
@[simp] theorem State.devPut_mem (lv host r w m) : (s.devPut lv host r w m).mem = s.mem := by
  unfold State.devPut; (repeat' split)
  exacts [rfl, s.servicePut_mem .., rfl, s.errorPut_mem .., rfl, s.supervisorPut_mem ..]
@[simp] theorem State.devWrite_mem (lv host off n v) : (s.devWrite lv host off n v).mem = s.mem := by
  simp [State.devWrite]
@[simp] theorem State.hostWrite_mem (off size v) : (s.hostWrite off size v).mem = s.mem := by
  unfold State.hostWrite; (repeat' split) <;> simp
@[simp] theorem State.hostRead_mem (off size) : (s.hostRead off size).mem = s.mem := by
  unfold State.hostRead; split <;> rfl
@[simp] theorem State.sendPending_mem : s.sendPending.mem = s.mem := by unfold State.sendPending; split <;> rfl
@[simp] theorem State.debugPut_mem (w) : (s.debugPut w).mem = s.mem := by
  cases w <;> unfold State.debugPut <;> dsimp only <;> (repeat' split) <;> simp
@[simp] theorem State.macroDone_mem : s.macroDone.mem = s.mem := rfl
@[simp] theorem State.noteSkips_mem (i t) : (s.noteSkips i t).mem = t.mem := by
  unfold State.noteSkips; split <;> simp [State.count_mem]
@[simp] theorem State.passCycle_mem : s.passCycle.mem = s.mem := rfl
@[simp] theorem State.rotate_mem : s.rotate.mem = s.mem := by unfold State.rotate; split <;> simp
@[simp] theorem State.fenceHandler_mem : s.fenceHandler.mem = s.mem := by unfold State.fenceHandler; split <;> rfl
@[simp] theorem State.after_mem : s.after.mem = s.mem := by simp [State.after]

end

end Sys2Proof.Machine
end

section
/-! SUPPORT. The canonical form of memory through checks, translation and accesses: whatever way an attempt ends, it is kept. -/

namespace Sys2Proof.Machine

/-- Memory has its canonical form: `State.Canonical`, unfolded, as the laws of memory state it. -/
abbrev State.Wf (s : State) : Prop := Memory.wf s.mem

@[simp] theorem State.wf_iff (s : State) : s.Wf ↔ twf unlisted s.mem = true := .rfl

/-- The same of the state of a pair. -/
@[simp] abbrev FirstWf {β : Type} (p : State × β) : Prop := p.1.Wf

/-- Whatever way an attempt ends, memory is canonical: in the state in which it stops, or by P of what it gives. -/
def EndsWf {α : Type} (P : α → Prop) : Except Stop α → Prop
  | .ok a => P a
  | .error (.trap s _) => s.Wf
  | .error (.wait s) => s.Wf

/-- So it is for a check, which gives no state. -/
abbrev ChecksWf {α : Type} (r : Except Stop α) : Prop := EndsWf (fun _ => True) r

/-- Memory is canonical in the next state, if there is one. -/
def NextWf : Out → Prop
  | .next t => t.Wf
  | _ => True

section
variable {α β : Type} {P : α → Prop} {Q : β → Prop}

@[simp] theorem endsWf_ok {a : α} : EndsWf P (.ok a) ↔ P a := .rfl
@[simp] theorem endsWf_pure {a : α} : EndsWf P (pure a) ↔ P a := .rfl
@[simp] theorem endsWf_trap {s : State} {t : Trap} : EndsWf P (.error (.trap s t)) ↔ s.Wf := .rfl
@[simp] theorem endsWf_wait {s : State} : EndsWf P (.error (.wait s)) ↔ s.Wf := .rfl

theorem EndsWf.of_ok {r : Except Stop α} {a : α} (h : EndsWf P r) (e : r = .ok a) : P a := by rwa [e] at h
theorem EndsWf.of_trap {r : Except Stop α} {s : State} {t : Trap} (h : EndsWf P r) (e : r = .error (.trap s t)) : s.Wf := by
  rwa [e] at h
theorem EndsWf.of_wait {r : Except Stop α} {s : State} (h : EndsWf P r) (e : r = .error (.wait s)) : s.Wf := by rwa [e] at h

theorem EndsWf.bind {r : Except Stop α} {k : α → Except Stop β} (h : EndsWf P r) (hk : ∀ a, P a → EndsWf Q (k a)) :
    EndsWf Q (r >>= k) := by
  match r, h with
  | .ok a, h => exact hk a h
  | .error (.trap _ _), h => exact h
  | .error (.wait _), h => exact h

end
theorem foldl_wf {α : Type} {f : State → α → State} (hf : ∀ u a, u.Wf → (f u a).Wf) (l : List α) {s : State} (h : s.Wf) :
    (l.foldl f s).Wf := by
  induction l generalizing s with
  | nil => exact h
  | cons a r ih => exact ih (hf s a h)

section
variable {s : State} (h : s.Wf)
include h

/-! ### Checks -/

theorem trapIf_ends (b cause tval) : ChecksWf (trapIf b s cause tval) := by unfold trapIf; split <;> simp [h]
theorem stallIf_ends (b) : ChecksWf (stallIf b s) := by unfold stallIf; split <;> simp [h]
theorem waitOwn_ends : ChecksWf (waitOwn s) := stallIf_ends h _
theorem illegal_ends {α : Type} {P : α → Prop} (i) : EndsWf P (illegal s i) := h
theorem needSupervisor_ends (i) : ChecksWf (needSupervisor s i) := by
  unfold needSupervisor; split
  · exact h
  · trivial
theorem needVector_ends : ChecksWf (needVector s) := trapIf_ends h ..
theorem pushGuard_ends (dsts) : ChecksWf (pushGuard s dsts) := (needVector_ends h).bind fun _ _ => by
  split
  · split; exacts [trapIf_ends h .., trivial]
  · trivial
theorem tagCheck_ends (ok a b d) : ChecksWf (tagCheck ok s a b d) := by
  unfold tagCheck; split
  · trivial
  · exact h
theorem lenCheck_ends (ts) : ChecksWf (lenCheck s ts) := trapIf_ends h ..
theorem vfenceWait_ends : EndsWf State.Wf (vfenceWait s) := by unfold vfenceWait; (repeat' split) <;> simp [h]

/-! ### Translation and accesses -/

@[simp] theorem State.dieBytes_wf (pa bs) : (s.dieBytes pa bs).Wf := by simp [State.dieBytes, Memory.writeAll_wf, h]
@[simp] theorem State.dieStore_wf (ce pa bs) : (s.dieStore ce pa bs).Wf := by simp [State.dieStore, State.storeIn_wf, h]
@[simp] theorem State.putEntry_wf (at_ e) : (s.putEntry at_ e).Wf := State.dieBytes_wf h ..

theorem State.translateMiss_ends (va again) : EndsWf FirstWf (s.translateMiss va again) := by
  unfold State.translateMiss; dsimp only; (repeat' split) <;> simp [h]

theorem State.translateHit_wf {a va t} {p : State × Xlat} (hp : s.translateHit a va t = some (.ok p)) : p.1.Wf := by
  unfold State.translateHit at hp
  (repeat' split at hp) <;> cases hp <;> simp [h]

theorem State.translate_ends (a va) : EndsWf FirstWf (s.translate a va) := by
  unfold State.translate
  split
  · exact State.translateMiss_ends h va false
  · next s1 _ hf =>
    have h1 : s1.Wf := by simpa [← s.tlbFind_mem hf] using h
    split
    · next hp => split <;> simp [h, State.translateHit_wf h1 hp]
    · exact h
    · exact State.translateMiss_ends (by simpa using h1) va true

theorem State.pieces_ends (kind vec va n) : EndsWf FirstWf (s.pieces kind vec va n) := by
  unfold State.pieces
  dsimp only
  split
  · exact (State.translate_ends h ..).bind fun _ h1 => h1
  · exact (State.translate_ends h ..).bind fun _ h1 => (State.translate_ends h1 ..).bind fun _ h2 =>
      (trapIf_ends h ..).bind fun _ _ => h2

theorem State.piecesLong_ends (kind va fuel n) : EndsWf FirstWf (s.piecesLong kind va fuel n) := by
  induction fuel generalizing s va n with
  | zero => exact h
  | succ fuel ih =>
    unfold State.piecesLong
    split
    · exact h
    · exact (State.translate_ends h ..).bind fun _ h1 => (ih h1 ..).bind fun _ h2 => h2

theorem State.peerLoad_ends (token x n va) : EndsWf FirstWf (s.peerLoad token x n va) := by
  unfold State.peerLoad; dsimp only; (repeat' split) <;> simp [h]

theorem State.loadPieceFor_ends (token p va) : EndsWf FirstWf (s.loadPieceFor token p va) := by
  unfold State.loadPieceFor
  split
  · exact State.peerLoad_ends h ..
  · dsimp only; (repeat' split) <;> simp [h]

theorem State.loadPiece_ends (p va) : EndsWf FirstWf (s.loadPiece p va) := State.loadPieceFor_ends h ..

theorem State.loadPieces_ends (va ps) : EndsWf FirstWf (s.loadPieces va ps) := by
  induction ps generalizing s with
  | nil => exact h
  | cons p r ih => exact (State.loadPiece_ends h ..).bind fun _ h1 => (ih h1).bind fun _ h2 => h2

theorem State.loadAt_ends (va n) : EndsWf FirstWf (s.loadAt va n) :=
  (State.pieces_ends h ..).bind fun _ h1 => State.loadPieces_ends h1 ..

@[simp] theorem State.storePiece_wf (p bs) : (s.storePiece p bs).1.Wf := by
  unfold State.storePiece
  dsimp only
  (repeat' split) <;> simp [h, Memory.writeAll_wf]

@[simp] theorem State.storePieces_wf (ps bs) : (s.storePieces ps bs).1.Wf := by
  induction ps generalizing s bs with
  | nil => exact h
  | cons p r ih => exact ih (State.storePiece_wf h ..) _

theorem State.schedTranslate_ends (ptbase asid write va) : EndsWf FirstWf (s.schedTranslate ptbase asid write va) := by
  unfold State.schedTranslate; dsimp only; (repeat' split) <;> simp [h]

theorem State.schedRead_ends (ptbase asid fuel va n) : EndsWf FirstWf (s.schedRead ptbase asid fuel va n) := by
  induction fuel generalizing s va n with
  | zero => exact h
  | succ fuel ih =>
    unfold State.schedRead
    split
    · exact h
    · exact (State.schedTranslate_ends h ..).bind fun _ h1 => (State.loadPiece_ends h1 ..).bind fun _ h2 =>
        (ih h2 ..).bind fun _ h3 => h3

end

end Sys2Proof.Machine
end

section
/-! SUPPORT. The canonical form of memory through ends of contexts and regions, traps and fetches. -/

namespace Sys2Proof.Machine
theorem State.onCc_wf (id) {f : State → State} (hf : ∀ u, u.Wf → (f u).Wf) {s : State} (h : s.Wf) : (s.onCc id f).Wf := by
  have := hf (s.focus id) (by simpa using h)
  simpa [State.onCc] using this

section
variable {s : State} (h : s.Wf)
include h

/-! ### Ends of work, contexts and regions -/

@[simp] theorem State.faultEvent_wf (f code index rcb word) : (s.faultEvent f code index rcb word).Wf := by
  unfold State.faultEvent; dsimp only; (repeat' split) <;> simp [h, Memory.writeAll_wf]

@[simp] theorem State.endJob_wf (j status fault) : (s.endJob j status fault).Wf := by
  have h1 := (s.releaseDie (dieOf j.cc)).storeIn_wf j.ce (j.card + 4) (leBytes 4 status.toNat) h
  unfold State.endJob; dsimp only; (repeat' split) <;> simp [h1, State.storeIn_wf]

@[simp] theorem State.cancelJob_wf (j) : (s.cancelJob j).Wf := by
  unfold State.cancelJob; dsimp only; split <;> simp [h]

@[simp] theorem State.cancelQuery_wf (q) : (s.cancelQuery q).Wf :=
  State.storeIn_wf _ _ _ _ (State.storeIn_wf _ _ _ _ (by simp [h]))

@[simp] theorem State.cancelWork_wf : s.cancelWork.Wf :=
  foldl_wf (fun _ q hu => State.cancelQuery_wf hu q) _ (foldl_wf (fun _ j hu => State.cancelJob_wf hu j) _ h)

@[simp] theorem State.claimEnd_wf : s.claimEnd.Wf := by simp [State.claimEnd, h]

@[simp] theorem State.checkSaved_wf (rcb) : (s.checkSaved rcb).Wf := by
  unfold State.checkSaved; (repeat' split) <;> simp [h, Memory.writeAll_wf]

@[simp] theorem State.endContext_wf (id) : (s.endContext id).Wf :=
  State.onCc_wf id (fun u hu => by dsimp only; split <;> simp [hu]) h

@[simp] theorem State.endContexts_wf (rcb) : (s.endContexts rcb).Wf := by
  unfold State.endContexts
  split
  · exact foldl_wf (fun _ id hu => State.endContext_wf hu id) _ h
  · exact h

@[simp] theorem State.finishRegion_wf (rcb st) : (s.finishRegion rcb st).Wf := by
  unfold State.finishRegion
  split
  · exact h
  · have hw : ∀ bs, Memory.wf (Memory.writeAll (Memory.writeAll s.mem (rcb + 0x60) bs) (rcb + 0x48) (leBytes 4 st.code)) :=
      fun bs => Memory.writeAll_wf _ _ _ (Memory.writeAll_wf _ _ _ h)
    dsimp only
    split <;> simp [-List.reduceReplicate, hw]

@[simp] theorem State.endChildren_wf (rcb) : (s.endChildren rcb).Wf :=
  foldl_wf (fun _ p hu => State.finishRegion_wf (State.endContexts_wf hu p) p .terminated) _ h

@[simp] theorem State.faultRegion_wf (rcb index cause) : (s.faultRegion rcb index cause).Wf := by
  have h1 := State.endContexts_wf (State.endChildren_wf h rcb) rcb
  unfold State.faultRegion
  dsimp only
  (repeat' split)
  · exact h
  · exact State.finishRegion_wf h1 ..
  · exact State.faultEvent_wf (State.finishRegion_wf (State.storeBytes_wf _ _ _ h1) ..) ..

/-! ### Traps, and the end of an instruction -/

@[simp] theorem State.doubleFault_wf (second) : (s.doubleFault second).Wf := by
  unfold State.doubleFault; dsimp only; split <;> simp [h]

@[simp] theorem State.raiseAt_wf (t epc) : (s.raiseAt t epc).Wf := by
  unfold State.raiseAt; dsimp only; (repeat' split) <;> simp [h]

@[simp] theorem State.raise_wf (t) : (s.raise t).Wf := by unfold State.raise; split <;> simp [h]

theorem State.fetch_ends (pc) : EndsWf FirstWf (s.fetch pc) := by
  unfold State.fetch
  split
  · exact h
  · exact (State.translate_ends h ..).bind fun _ h1 => (State.loadPiece_ends h1 ..).bind fun _ h2 => h2

omit h in
theorem precise_ends {α : Type} {P : α → Prop} (h : s.Wf) {r : Except Stop α} (hr : EndsWf P r) :
    EndsWf P (precise s r) := by
  match r, hr with
  | .ok _, hr => exact hr
  | .error (.trap _ _), _ => exact h
  | .error (.wait _), hr => exact hr

end

theorem withTval_ends {α : Type} {P : α → Prop} (v) {r : Except Stop α} (hr : EndsWf P r) : EndsWf P (withTval v r) := by
  match r, hr with
  | .ok _, hr => exact hr
  | .error (.trap _ _), hr => exact hr
  | .error (.wait _), hr => exact hr

theorem settle_wf {r : Except Stop State} (hr : EndsWf State.Wf r) : (settle r).Wf := by
  match r, hr with
  | .ok _, hr => exact hr
  | .error (.trap _ t), hr => exact State.raise_wf hr t
  | .error (.wait _), hr => exact hr

theorem finish_wf {r : Except Stop State} (hr : EndsWf State.Wf r) : NextWf (finish r) := settle_wf hr

end Sys2Proof.Machine
end

section
/-! SUPPORT. The canonical form of memory through results in registers, vector loads and vector stores. -/

namespace Sys2Proof.Machine

/-- A check made on a condition, before what follows it. -/
theorem EndsWf.guard {β : Type} {Q : β → Prop} {c : Prop} {_ : Decidable c} {r : Except Stop Unit} {k : Unit → Except Stop β}
    (hr : ChecksWf r) (hk : ∀ x, EndsWf Q (k x)) : EndsWf Q (if c then r >>= k else k ()) := by
  split
  · exact hr.bind fun x _ => hk x
  · exact hk ()

theorem EndsWf.foldlM {α : Type} {f : State → α → Except Stop State} (hf : ∀ u a, u.Wf → EndsWf State.Wf (f u a)) (l : List α)
    {s : State} (h : s.Wf) : EndsWf State.Wf (l.foldlM f s) := by
  induction l generalizing s with
  | nil => exact h
  | cons a r ih => rw [List.foldlM_cons]; exact (hf s a h).bind fun _ h1 => ih h1

section
variable {s : State} (h : s.Wf)
include h

/-! ### Results of scalar and vector instructions -/

theorem State.writeX_wf (xd v) : NextWf (s.writeX xd v) := h
theorem State.branch_wf (taken off) : NextWf (s.branch taken off) := by
  unfold State.branch; cases taken <;> exact h
theorem State.fpWrite_wf (xd r) : NextWf (s.fpWrite xd r) := h
theorem State.fpDeliver_wf (p rm xd e) : NextWf (s.fpDeliver p rm xd e) := h

theorem State.elemwiseE_ends (vd t f) : EndsWf State.Wf (s.elemwiseE vd t f) := by
  unfold State.elemwiseE; dsimp only; split <;> exact h
theorem State.sxwise_ends (vd t mode src) : EndsWf State.Wf (s.sxwise vd t mode src) := by
  unfold State.sxwise; dsimp only; split <;> exact h
theorem State.convert_ends (vd dt mode src) : EndsWf State.Wf (s.convert vd dt mode src) := by
  unfold State.convert; split
  · exact State.sxwise_ends h ..
  · exact State.elemwiseE_ends h ..

theorem State.vecCompare_wf (md va b test nan quiet) : NextWf (s.vecCompare md va b test nan quiet) :=
  finish_wf <| (pushGuard_ends h _).bind fun _ _ => (tagCheck_ends h ..).bind fun _ _ => (lenCheck_ends h _).bind fun _ _ => by
    simpa using h

/-! ### Vector loads and stores -/

theorem memMismatch_ends {α : Type} {P : α → Prop} (m r g) : EndsWf P (memMismatch s m r g) := h

theorem memTable_ends (form vr base) : ChecksWf (memTable s form vr base) := by
  unfold memTable
  refine EndsWf.guard (memMismatch_ends h ..) fun _ => ?_
  have htail : ∀ a b d e g va vb vd ve vg, ChecksWf (do
      trapIf a s cAlign va; trapIf b s cAlign vb; trapIf d s cAlign vd; trapIf e s cAlign ve; trapIf g s cAlign vg) :=
    fun _ _ _ _ _ _ _ _ _ _ => (trapIf_ends h ..).bind fun _ _ => (trapIf_ends h ..).bind fun _ _ =>
      (trapIf_ends h ..).bind fun _ _ => (trapIf_ends h ..).bind fun _ _ => trapIf_ends h ..
  cases form with
  | index vi => exact EndsWf.guard (memMismatch_ends h ..) fun _ => htail ..
  | _ => exact htail ..

theorem State.readParts_ends (mb ps) : EndsWf FirstWf (s.readParts mb ps) := by
  induction ps generalizing s with
  | nil => exact h
  | cons p r ih => exact (trapIf_ends h ..).bind fun _ _ => (State.pieces_ends h ..).bind fun _ h1 =>
      (State.loadPieces_ends h1 ..).bind fun _ h2 => (ih h2).bind fun _ h3 => h3

theorem State.readItems_wf (mb first items got) : (s.readItems mb first items got).1.Wf := by
  induction items generalizing s got with
  | nil => exact h
  | cons p r ih =>
    have hr := State.readParts_ends h mb p.2
    unfold State.readItems
    refine iteInduction (motive := FirstWf) (fun _ => h) fun _ => iteInduction (motive := FirstWf) (fun _ => ih h _) fun _ => ?_
    split
    · next e => exact iteInduction (motive := FirstWf) (fun _ => hr.of_ok e) fun _ => ih (hr.of_ok e) _
    · next e => exact hr.of_wait e
    · next e => exact iteInduction (motive := FirstWf) (fun _ => hr.of_trap e) fun _ => hr.of_trap e

theorem State.scanParts_ends (mb ps) : EndsWf FirstWf (s.scanParts mb ps) := by
  induction ps generalizing s with
  | nil => exact h
  | cons p r ih => exact (trapIf_ends h ..).bind fun _ _ => (State.pieces_ends h ..).bind fun _ h1 =>
      (trapIf_ends h1 ..).bind fun _ _ => (ih h1).bind fun _ h2 => h2

theorem State.scanItems_ends (mb first items) : ChecksWf (s.scanItems mb first items) := by
  induction items generalizing s with
  | nil => trivial
  | cons p r ih =>
    have hr := State.scanParts_ends h mb p.2
    unfold State.scanItems
    refine iteInduction (motive := ChecksWf) (fun _ => trivial) fun _ => ?_
    split
    · next e => split; exacts [trivial, ih (hr.of_ok e)]
    · next e => exact hr.of_wait e
    · next e => split; exacts [hr.of_trap e, trivial]

theorem State.loadEnd_ends (vr first cut got) : EndsWf State.Wf (s.loadEnd vr first cut got) := by
  unfold State.loadEnd; dsimp only; (repeat' split) <;> simp [reservedCode, h]

theorem State.vecLoad_wf (form vr xa) : NextWf (s.vecLoad form vr xa) :=
  finish_wf <| (pushGuard_ends h _).bind fun _ _ => (stallIf_ends h _).bind fun _ _ => (vfenceWait_ends h).bind fun u hu =>
    (lenCheck_ends hu _).bind fun _ _ => (memTable_ends hu ..).bind fun _ _ =>
    (precise_ends h (State.scanItems_ends hu ..)).bind fun _ _ => by
      have h1 := fun mb first items got => State.readItems_wf hu mb first items got
      dsimp only
      split
      · exact State.loadEnd_ends (h1 ..) ..
      · exact State.loadEnd_ends (h1 ..) ..
      · exact h1 ..
      · split
        · exact h
        · split <;> simpa [reservedCode] using h1 ..

theorem State.keepByte_ends (p va) : EndsWf State.Wf (s.keepByte p va) :=
  (State.loadPiece_ends h ..).bind fun _ h1 => by
    dsimp only
    split
    · exact Memory.writeAll_wf _ _ _ h1
    · exact h1

theorem State.planItem_ends (mb it) : EndsWf FirstWf (s.planItem mb it) :=
  (trapIf_ends h ..).bind fun _ _ => (State.pieces_ends h ..).bind fun _ h1 => by
    dsimp only
    split
    · exact (EndsWf.foldlM (fun _ p hu => State.keepByte_ends hu p _) _ h1).bind fun _ h2 => h2
    · exact h1

theorem State.planItems_ends (mb items) : EndsWf FirstWf (s.planItems mb items) := by
  induction items generalizing s with
  | nil => exact h
  | cons it r ih =>
    have hr := State.planItem_ends h mb it
    unfold State.planItems
    split
    · next e => exact hr.of_wait e
    · next e => exact hr.of_trap e
    · next e => exact (ih (hr.of_ok e)).bind fun _ h2 => h2

theorem State.writeItems_wf (plan) : (s.writeItems plan).1.Wf := by
  induction plan generalizing s with
  | nil => exact h
  | cons p r ih => exact ih (State.storePieces_wf h ..)

theorem State.scaledStore_ends (vr base) : EndsWf State.Wf (s.scaledStore vr base) := by
  refine precise_ends h ((State.piecesLong_ends h ..).bind fun p h1 => ?_)
  dsimp only
  split
  · split
    · exact (State.keepByte_ends h1 ..).bind fun _ h2 => by simp [h2]
    · simp [h1]
  · simp [h1]

theorem State.vecStore_wf (form vr xa) : NextWf (s.vecStore form vr xa) := by
  refine finish_wf <| (needVector_ends h).bind fun _ _ => (stallIf_ends h _).bind fun _ _ => (vfenceWait_ends h).bind fun u hu =>
    EndsWf.guard (memMismatch_ends hu ..) fun _ => (lenCheck_ends hu _).bind fun _ _ => (memTable_ends hu ..).bind fun _ _ => ?_
  split
  · exact State.scaledStore_ends hu ..
  · refine EndsWf.guard (precise_ends h (State.scanItems_ends hu ..)) fun _ => (State.planItems_ends hu ..).bind fun p h1 => ?_
    have h2 := State.writeItems_wf h1 p.2.1
    dsimp only
    split
    · split
      · exact h
      · simpa using h2
    · simpa [reservedCode] using h2
    · simpa using h2
end

end Sys2Proof.Machine
end

section
/-! SUPPORT. The canonical form of memory through saves, atomics, system instructions, fences, barriers and sheaf queues. -/

namespace Sys2Proof.Machine

section
variable {s : State} (h : s.Wf)
include h

/-! ### Registers saved and restored, and atomics -/

theorem State.savePieces_ends (kind va n) : EndsWf FirstWf (s.savePieces kind va n) :=
  (State.pieces_ends h ..).bind fun _ h1 => (trapIf_ends h ..).bind fun _ _ => h1

theorem execVsave_wf (vr xa sc) : NextWf (execVsave vr xa sc s) :=
  finish_wf <| precise_ends h <| (needVector_ends h).bind fun _ _ => (stallIf_ends h _).bind fun _ _ =>
    (vfenceWait_ends h).bind fun _ hu => (trapIf_ends hu ..).bind fun _ _ => (State.savePieces_ends hu ..).bind fun _ h1 =>
    (State.savePieces_ends h1 ..).bind fun _ h2 => by simp [State.storePieces_wf h2]

theorem execVrestore_wf (vr xa sc) : NextWf (execVrestore vr xa sc s) :=
  finish_wf <| precise_ends h <| (pushGuard_ends h _).bind fun _ _ => (stallIf_ends h _).bind fun _ _ =>
    (vfenceWait_ends h).bind fun _ hu => (trapIf_ends hu ..).bind fun _ _ => (State.savePieces_ends hu ..).bind fun _ h1 =>
    (State.savePieces_ends h1 ..).bind fun _ h2 => (State.loadPieces_ends h2 ..).bind fun _ h3 =>
    (State.loadPieces_ends h3 ..).bind fun _ h4 => (trapIf_ends hu ..).bind fun _ _ => by simpa using h4

theorem execMsave_wf (mr xa sc) : NextWf (execMsave mr xa sc s) :=
  finish_wf <| precise_ends h <| (needVector_ends h).bind fun _ _ => (stallIf_ends h _).bind fun _ _ =>
    (vfenceWait_ends h).bind fun _ hu => (trapIf_ends hu ..).bind fun _ _ => (State.savePieces_ends hu ..).bind fun _ h1 => by
      simp [h1]

theorem execMrestore_wf (mr xa sc) : NextWf (execMrestore mr xa sc s) :=
  finish_wf <| precise_ends h <| (pushGuard_ends h _).bind fun _ _ => (stallIf_ends h _).bind fun _ _ =>
    (vfenceWait_ends h).bind fun _ hu => (trapIf_ends hu ..).bind fun _ _ => (State.savePieces_ends hu ..).bind fun _ h1 =>
    (State.loadPieces_ends h1 ..).bind fun _ h2 => by simpa using h2

theorem State.serve_wf (cl r) : (s.serve cl r).1.Wf := by
  unfold State.serve; dsimp only; split <;> simp [h, State.storeIn_wf]

@[simp] theorem State.serveHead_wf (cl) : (s.serveHead cl).Wf := by
  unfold State.serveHead
  split
  · exact h
  · exact State.serve_wf (cl := cl) h _

theorem State.serveAll_wf (cl) : (s.serveAll cl).Wf := foldl_wf (fun _ _ hu => State.serveHead_wf hu cl) _ h

theorem State.atomic_wf (fn xd xa xb sz aq rl sc) : NextWf (s.atomic fn xd xa xb sz aq rl sc) := by
  refine finish_wf <| precise_ends h <| (trapIf_ends h ..).bind fun _ _ => (State.translate_ends h ..).bind fun p h1 =>
    (trapIf_ends h1 ..).bind fun _ _ => (trapIf_ends (by simpa using h1) ..).bind fun _ _ =>
    EndsWf.guard (waitOwn_ends h1) fun _ => ?_
  have h2 : (if rl = 1 then p.1.release sc.toNat else p.1).Wf := by split <;> simpa using h1
  have h3 := fun cl r => State.serve_wf (cl := cl) (r := r) (s := State.count _ (coreOf s.cc.ctxid) 7 1)
    (by simpa [State.count_mem] using State.serveAll_wf h2 cl)
  exact h3 ..

theorem State.planAdd_ends (a) : EndsWf FirstWf (s.planAdd a) :=
  (trapIf_ends h ..).bind fun _ _ => (State.translate_ends h ..).bind fun _ h1 => (trapIf_ends h1 ..).bind fun _ _ =>
    (trapIf_ends (by simpa using h1) ..).bind fun _ _ => h1

theorem State.planAdds_ends (items) : EndsWf FirstWf (s.planAdds items) := by
  induction items generalizing s with
  | nil => exact h
  | cons it r ih =>
    have hr := State.planAdd_ends h it.2.1
    unfold State.planAdds
    split
    · next e => exact hr.of_wait e
    · next e => exact hr.of_trap e
    · next e => exact (ih (hr.of_ok e)).bind fun _ h2 => h2

theorem execVamoaddf_wf (vr xa vi sc) : NextWf (execVamoaddf vr xa vi sc s) := by
  refine finish_wf <| (needVector_ends h).bind fun _ _ => (stallIf_ends h _).bind fun _ _ => (vfenceWait_ends h).bind fun u hu =>
    EndsWf.guard (memMismatch_ends hu ..) fun _ => (lenCheck_ends hu _).bind fun _ _ =>
    EndsWf.guard (memMismatch_ends hu ..) fun _ => (State.planAdds_ends hu _).bind fun p h1 => ?_
  have h2 := foldl_mem (fun u (q : Xlat × Nat) => u.sendAdd_mem sc q.1 q.2) p.2.1 p.1
  dsimp only
  (repeat' split) <;> simp [h2, h1, h]

/-! ### Control registers and system instructions -/

theorem csrAccess_ends (i n) : ChecksWf (csrAccess s i n) := by
  unfold csrAccess; (repeat' split) <;> simp [illegal, h]

theorem csrWrite_ends (i xd n reads new) : EndsWf State.Wf (csrWrite s i xd n reads new) :=
  (csrAccess_ends h ..).bind fun _ _ => by (repeat' split) <;> simp [illegal, h]

@[simp] theorem State.preempt_wf (cause) : (s.preempt cause).Wf :=
  State.raise_wf (s := s.unwait.modCc _) h _
@[simp] theorem State.enterWait_wf (w) : (s.enterWait w).Wf := by unfold State.enterWait; split <;> simp [h]

theorem State.writeResume_wf : s.writeResume.Wf := by
  unfold State.writeResume
  split
  · exact h
  · next r _ =>
    have hr := State.schedTranslate_ends h r.ptbase r.asid true (r.csa s.cc.index + 0x160)
    split
    · exact h
    · next e => exact State.dieStore_wf (hr.of_ok e) ..

@[simp] theorem State.saveContext_wf : s.saveContext.Wf := by
  have h1 := State.writeResume_wf h
  unfold State.saveContext; dsimp only; split <;> simp [h1]

theorem execTret_wf : NextWf (execTret s) := finish_wf <| (needSupervisor_ends h _).bind fun _ _ => by
  split <;> simp [illegal, h]

theorem execYield_wf : NextWf (execYield s) := finish_wf <| (needSupervisor_ends h _).bind fun _ _ => by
  split
  · exact h
  · exact (stallIf_ends h _).bind fun _ _ => State.saveContext_wf h

theorem execExit_wf : NextWf (execExit s) := finish_wf <| (stallIf_ends (by simpa using h) _).bind fun _ _ => by
  have h1 : (s.release 4).claimEnd.Wf := by simp [h]
  dsimp only
  split <;> simp [h1]

@[simp] theorem State.linkChild_wf (parentPa childPa childVa) : (s.linkChild parentPa childPa childVa).Wf := by
  simp [State.linkChild, h]

theorem execSpawn_wf (xd xa) : NextWf (execSpawn xd xa s) :=
  finish_wf <| precise_ends h <| (trapIf_ends h ..).bind fun _ _ => (State.translate_ends h ..).bind fun p h1 =>
    (waitOwn_ends h1).bind fun _ _ => by dsimp only; (repeat' split) <;> simp [h1]

theorem execUiret_wf : NextWf (execUiret s) := finish_wf <| by split <;> simp [illegal, h]

theorem execTlbinv_wf (xa xb) : NextWf (execTlbinv xa xb s) :=
  finish_wf <| (needSupervisor_ends h _).bind fun _ _ => (stallIf_ends h _).bind fun _ _ => by simp [h]

theorem execLgset_wf (xa) : NextWf (execLgset xa s) := finish_wf <| (needSupervisor_ends h _).bind fun _ _ => by
  dsimp only; (repeat' split) <;> simp [illegal, h]

/-! ### Fences, barriers and doorbells -/

theorem execFence_wf (sc) : NextWf (execFence sc s) := finish_wf <| (waitOwn_ends h).bind fun _ _ => by simp [h]
theorem execVfence_wf (sc) : NextWf (execVfence sc s) := finish_wf <| (needVector_ends h).bind fun _ _ => by simp [h]

theorem slotIndex_ends (v) : ChecksWf (slotIndex s v) := by
  unfold slotIndex; (repeat' split) <;> simp [h]

theorem execVfenceBar_wf (xd xa) : NextWf (execVfenceBar xd xa s) :=
  finish_wf <| (needVector_ends h).bind fun _ _ => (slotIndex_ends h _).bind fun _ _ => (trapIf_ends h ..).bind fun _ _ =>
    (waitOwn_ends h).bind fun _ _ => by simp [h]

theorem execBarwait_wf (xa xb) : NextWf (execBarwait xa xb s) := finish_wf <| (slotIndex_ends h _).bind fun _ _ => by
  dsimp only; split <;> simp [h]

theorem execBarcfg_wf (xd xa xb) : NextWf (execBarcfg xd xa xb s) := finish_wf <| (slotIndex_ends h _).bind fun _ _ => by
  dsimp only; (repeat' split) <;> simp [h]

theorem execRing_wf (xd xa xb) : NextWf (execRing xd xa xb s) := finish_wf <| (waitOwn_ends h).bind fun _ _ => by
  dsimp only; (repeat' split) <;> simp [h]

/-! ### Sheaf queues -/

theorem State.deliverSheaf_wf (g) : (s.deliverSheaf g).Wf := by
  unfold State.deliverSheaf
  dsimp only
  split
  · exact h
  · split
    · exact h
    · simp only [State.wf_iff, State.modQueue_mem]
      exact State.onCc_wf _ (fun _ hu => by simpa using hu) (by simpa using State.storeIn_wf _ _ _ _ (by simpa using h))

theorem queueIndex_ends (v) : ChecksWf (queueIndex s v) := by
  unfold queueIndex; (repeat' split) <;> simp [h]

theorem execShcfg_wf (xd xa xb) : NextWf (execShcfg xd xa xb s) := by
  refine finish_wf <| precise_ends h <| (queueIndex_ends h _).bind fun _ _ => (trapIf_ends h ..).bind fun _ _ =>
    (withTval_ends _ (State.loadAt_ends h ..)).bind fun p h1 => ?_
  refine iteInduction (motive := EndsWf State.Wf) (fun _ => h1) fun _ => iteInduction (motive := EndsWf State.Wf) (fun _ => h1)
    fun _ => iteInduction (motive := EndsWf State.Wf) (fun _ => h1) fun _ => iteInduction (motive := EndsWf State.Wf)
    (fun _ => h1) fun _ => ?_
  split
  · next e =>
    have h2 := (State.translate_ends h1 ..).of_ok e
    exact iteInduction (motive := EndsWf State.Wf) (fun _ => h2) fun _ => h2
  · next e =>
    have h2 := (State.translate_ends h1 ..).of_trap e
    exact h2
  · next e => exact (State.translate_ends h1 ..).of_wait e

theorem execShcfgDrain_wf (xd xa) : NextWf (execShcfgDrain xd xa s) := finish_wf <| (queueIndex_ends h _).bind fun _ _ => by
  split <;> simp [h]

theorem State.pushRec_wf {g bits} {t : State} (ht : s.pushRec g bits = some t) : t.Wf := by
  unfold State.pushRec at ht
  dsimp only at ht
  (repeat' split at ht) <;> cases ht <;> simp [h]

theorem State.pushRecs_wf (items) : (s.pushRecs items).1.Wf := by
  induction items generalizing s with
  | nil => exact h
  | cons it r ih =>
    unfold State.pushRecs
    split
    · next e => exact ih (State.pushRec_wf h e)
    · exact h

theorem execShpush_wf (vq vs vw) : NextWf (execShpush vq vs vw s) := by
  refine finish_wf <| (needVector_ends h).bind fun _ _ => (tagCheck_ends h ..).bind fun _ _ =>
    (lenCheck_ends h _).bind fun _ _ => ?_
  have hrest : ∀ items, EndsWf State.Wf (do
      waitOwn s
      let (s1, stop) := (s.release 4).pushRecs items
      match stop with
      | some (i, g) =>
        .error (.trap s1 { cause := cSpill, tval := BitVec.ofNat 64 g, vstart := some (BitVec.ofNat 10 i) })
      | none => return (s1.takeVstart).retire) := fun items => (waitOwn_ends h).bind fun _ _ => by
    have h1 : ((s.release 4).pushRecs items).1.Wf := State.pushRecs_wf (by simpa using h) _
    dsimp only
    split <;> exact h1
  dsimp only
  split
  · exact (trapIf_ends h ..).bind fun _ _ => hrest _
  · exact hrest _

theorem execShwait_wf (xd xa xb) : NextWf (execShwait xd xa xb s) :=
  finish_wf <| precise_ends h <| (queueIndex_ends h _).bind fun _ _ => EndsWf.guard (illegal_ends h _) fun _ =>
    (trapIf_ends h ..).bind fun _ _ => (withTval_ends _ (State.pieces_ends h ..)).bind fun _ h1 =>
    (trapIf_ends h1 ..).bind fun _ _ => by (repeat' split) <;> simp [h1]

theorem execShdone_wf (xd xa) : NextWf (execShdone xd xa s) := finish_wf <| by
  split
  · exact h
  · exact iteInduction (motive := EndsWf State.Wf) (fun _ => h) fun _ => (waitOwn_ends h).bind fun _ _ => by simp [h]

theorem execShstat_wf (xd xa) : NextWf (execShstat xd xa s) := finish_wf <| (queueIndex_ends h _).bind fun _ _ => h

end

end Sys2Proof.Machine
end

section
/-! SUPPORT. The canonical form of memory through stores into capacity memory, queries and moves of regions. -/

namespace Sys2Proof.Machine

theorem EndsWf.mapM {α β : Type} {f : α → Except Stop β} (hf : ∀ a, ChecksWf (f a)) (l : List α) : ChecksWf (l.mapM f) := by
  induction l with
  | nil => trivial
  | cons a r ih => rw [List.mapM_cons]; exact (hf a).bind fun _ _ => ih.bind fun _ _ => trivial

theorem State.underKey_wf (slot key) {f : State → State} (hf : ∀ u, u.Wf → (f u).Wf) {s : State} (h : s.Wf) :
    (s.underKey slot key f).Wf := by
  cases key with
  | none => exact hf s h
  | some k => exact hf { s with trust := _ } h

section
variable {s : State} (h : s.Wf)
include h

/-! ### Capacity memory -/

@[simp] theorem State.cmRekey_wf (r sector) : (s.cmRekey r sector).Wf := by
  unfold State.cmRekey; (repeat' split) <;> simp [h, Memory.writeAll_wf]

@[simp] theorem State.cmWrite_wf (r cells) : (s.cmWrite r cells).Wf :=
  foldl_wf (fun _ _ hu => State.putBytes_wf _ _ _ hu) _ (foldl_wf (fun _ k hu => State.cmRekey_wf hu r k) _ h)

@[simp] theorem State.resummarise_wf (r blocks) : (s.resummarise r blocks).Wf := by
  unfold State.resummarise
  split
  · exact h
  · exact foldl_wf (fun _ _ hu => by simp [hu]) _ h

theorem State.cmTarget_ends (va) : EndsWf FirstWf (s.cmTarget va) :=
  (State.translate_ends h ..).bind fun _ h1 => by dsimp only; split <;> exact h1

theorem State.writePart_wf (p) : (s.writePart p).Wf := by
  unfold State.writePart
  split
  · exact h
  · simp [h]

@[simp] theorem State.performPart_wf (p) : (s.performPart p).Wf :=
  State.underKey_wf _ _ (fun _ hu => State.writePart_wf hu p) h

@[simp] theorem State.performCm_wf (w) : (s.performCm w).Wf := foldl_wf (fun _ p hu => State.performPart_wf hu p) _ h

@[simp] theorem State.cmFinish_wf (w) : (s.cmFinish w).Wf := by unfold State.cmFinish; dsimp only; split <;> simp [h]

@[simp] theorem State.cmStoreDone_wf (id) : (s.cmStoreDone id).Wf := by
  unfold State.cmStoreDone; (repeat' split) <;> simp [h]

@[simp] theorem State.cmDrain_wf (id) : (s.cmDrain id).Wf := foldl_wf (fun _ _ hu => State.cmStoreDone_wf hu id) _ h

theorem cmTagCheck_ends (ok m r) : ChecksWf (cmTagCheck ok s m r) := by
  unfold cmTagCheck; split
  · trivial
  · exact h

theorem cmElemBits_ends (v t i) : ChecksWf (cmElemBits s v t i) := by
  unfold cmElemBits; (repeat' split) <;> simp [reservedCode, h]

theorem cmRowBytes_ends (r v) : ChecksWf (cmRowBytes s r v) := by
  unfold cmRowBytes
  split
  · trivial
  split
  · trivial
  · exact (EndsWf.mapM (fun i => cmElemBits_ends h v r.tag i) _).bind fun _ _ => by dsimp only; split <;> trivial

theorem execCmst_wf (vr xa) : NextWf (execCmst vr xa s) := by
  refine finish_wf <| precise_ends h <| (needVector_ends h).bind fun _ _ => (stallIf_ends h _).bind fun _ _ =>
    (vfenceWait_ends h).bind fun u hu => (cmTagCheck_ends hu ..).bind fun _ _ => (lenCheck_ends hu _).bind fun _ _ =>
    (State.cmTarget_ends hu _).bind fun p h1 => (cmTagCheck_ends h1 ..).bind fun _ _ => ?_
  split
  · exact (trapIf_ends h1 ..).bind fun _ _ => h1
  · refine (trapIf_ends h1 ..).bind fun _ _ => (cmRowBytes_ends h1 ..).bind fun _ _ => ?_
    refine iteInduction (motive := EndsWf State.Wf) (fun _ => ?_) fun _ => ?_
    · exact (State.cmTarget_ends h1 _).bind fun _ h2 => (trapIf_ends h2 ..).bind fun _ _ => by simpa using h2
    · simpa using h1

theorem cmScatter_ends (v items) : EndsWf FirstWf (cmScatter v s items) := by
  induction items generalizing s with
  | nil => exact h
  | cons it r ih => exact (State.cmTarget_ends h _).bind fun _ h1 => (cmTagCheck_ends h1 ..).bind fun _ _ =>
      (trapIf_ends h1 ..).bind fun _ _ => (cmElemBits_ends h1 ..).bind fun _ _ => (ih h1).bind fun _ h2 => h2

theorem execCmstx_wf (vr xa vi) : NextWf (execCmstx vr xa vi s) :=
  finish_wf <| precise_ends h <| (needVector_ends h).bind fun _ _ => (stallIf_ends h _).bind fun _ _ =>
    (vfenceWait_ends h).bind fun _ hu => (cmTagCheck_ends hu ..).bind fun _ _ => (cmTagCheck_ends hu ..).bind fun _ _ =>
    (lenCheck_ends hu _).bind fun _ _ => (cmScatter_ends hu ..).bind fun _ h1 => by simpa using h1

theorem execCmzero_wf (xn xa) : NextWf (execCmzero xn xa s) :=
  finish_wf <| precise_ends h <| (needVector_ends h).bind fun _ _ => (stallIf_ends h _).bind fun _ _ =>
    (vfenceWait_ends h).bind fun _ hu => (State.cmTarget_ends hu _).bind fun _ h1 => (trapIf_ends h1 ..).bind fun _ _ =>
    (trapIf_ends h1 ..).bind fun _ _ => by simpa using h1

/-! ### Queries -/

theorem State.unitRead_ends (va n) : EndsWf FirstWf (s.unitRead va n) :=
  (State.piecesLong_ends h ..).bind fun _ h1 => (trapIf_ends h1 ..).bind fun _ _ => (State.loadPieces_ends h1 ..).bind
    fun _ h2 => h2

theorem queryTail_ends {β : Type} (x : β) (a b : Bool) (c : Prop) [Decidable c] (ok cause tval cause' tval' t d e) :
    EndsWf FirstWf (do
    trapIf a s cause tval
    if c then do
      tagCheck ok s t d e
      trapIf b s cause' tval'
      pure (s, x)
    else pure (s, x)) :=
  (trapIf_ends h ..).bind fun _ _ => iteInduction (motive := EndsWf FirstWf)
    (fun _ => (tagCheck_ends h ..).bind fun _ _ => (trapIf_ends h ..).bind fun _ _ => h) fun _ => h

theorem State.queryChecks_ends (kind xdesc vq xreply) : EndsWf FirstWf (s.queryChecks kind xdesc vq xreply) := by
  refine (trapIf_ends h ..).bind fun _ _ => (trapIf_ends h ..).bind fun _ _ => (State.unitRead_ends h ..).bind fun p h1 =>
    (trapIf_ends h1 ..).bind fun _ _ => ?_
  dsimp only
  split
  · exact (State.unitRead_ends h1 ..).bind fun _ h2 => queryTail_ends h2 ..
  · exact queryTail_ends h1 ..

theorem State.replyArea_ends (va n) : EndsWf FirstWf (s.replyArea va n) := by
  have hr := State.piecesLong_ends h .store va (n / 65536 + 2) (max 1 n)
  unfold State.replyArea
  dsimp only
  split
  · next e => exact hr.of_wait e
  · exact h
  · next e => split; exacts [hr.of_ok e, h]

@[simp] theorem State.rejectQuery_wf (xd qd status) : (s.rejectQuery xd qd status).Wf := by simp [State.rejectQuery, h]
@[simp] theorem State.acceptQuery_wf (xd q) : (s.acceptQuery xd q).Wf := by simp [State.acceptQuery, h]

theorem State.query_wf (kind xd xdesc vq xreply) : NextWf (s.query kind xd xdesc vq xreply) := by
  refine finish_wf <| precise_ends h <| (needVector_ends h).bind fun _ _ => (trapIf_ends h ..).bind fun _ _ =>
    (stallIf_ends h _).bind fun _ _ => (vfenceWait_ends h).bind fun u hu => (State.queryChecks_ends hu ..).bind fun p h0 =>
    (stallIf_ends h0 _).bind fun _ _ => ?_
  have h1 : (p.1.cmDrain u.cc.ctxid).Wf := State.cmDrain_wf h0 _
  dsimp only
  split
  · exact (State.replyArea_ends h1 ..).bind fun _ h2 => State.acceptQuery_wf h2 ..
  split
  · simp [State.count_mem, h1]
  split
  · simp [h1]
  · exact (State.replyArea_ends h1 ..).bind fun _ h2 => State.acceptQuery_wf (s := State.draw _ |>.2) h2 ..

theorem State.completeQuery_wf (q) : (s.completeQuery q).Wf := by
  have h1 : (if q.status = 0 then q.reply.foldl (fun u c => u.putBytes c.1 [c.2]) s else s).Wf := by
    split
    · exact foldl_wf (fun _ _ hu => State.putBytes_wf _ _ _ hu) _ h
    · exact h
  have h2 := fun a b c d e f => State.storeIn_wf (State.releaseDie _ (dieOf q.cc)) d e f (State.storeIn_wf _ a b c h1)
  unfold State.completeQuery
  dsimp only
  split <;> simpa using h2 ..

/-! ### The region table and the moves of regions -/

@[simp] theorem State.installRegion_wf (i r) : (s.installRegion i r).Wf := by simp [State.installRegion, h]

theorem execCmInstall_wf (handle) : NextWf (execCmInstall handle s) := by
  unfold execCmInstall; dsimp only; (repeat' split) <;> simp [NextWf, h]

theorem execCmReadBack_wf (handle) : NextWf (execCmReadBack handle s) := by
  unfold execCmReadBack; (repeat' split) <;> simp [NextWf, Memory.writeAll_wf, h]

theorem execCmmov_wf (xd xa xb) : NextWf (execCmmov xd xa xb s) :=
  finish_wf <| (needSupervisor_ends h _).bind fun _ _ => (stallIf_ends h _).bind fun _ _ => by
    dsimp only
    split
    · simp [h]
    · exact iteInduction (motive := EndsWf State.Wf) (fun _ => by simp [h]) fun _ => by simp [h]

theorem State.imagePieces_ends (kind va n) :
    EndsWf (fun o => ∀ p, o = some p → p.1.Wf) (s.imagePieces kind va n) := by
  have hr := State.piecesLong_ends h kind va (n / 65536 + 2) n
  unfold State.imagePieces
  split
  · next e =>
    intro p hp
    have h1 := hr.of_ok e
    split at hp
    · cases hp; exact h1
    · cases hp
  · next e =>
    split
    · exact hr.of_trap e
    · intro p hp; cases hp
  · next e => exact hr.of_wait e

@[simp] theorem State.writeSpans_wf (ps bs) : (s.writeSpans ps bs).Wf := by
  induction ps generalizing s bs with
  | nil => exact h
  | cons p r ih => exact ih (State.storeIn_wf _ _ _ _ h) _

@[simp] theorem State.putCompletion_wf (image v) : (s.putCompletion image v).Wf := State.storeIn_wf _ _ _ _ h
@[simp] theorem State.publish_wf (o image v) : (s.publish o image v).Wf :=
  State.putCompletion_wf (s := s.releaseDie (dieOf o.cc)) h image v

theorem execCmseal_wf (xd xa xb) : NextWf (execCmseal xd xa xb s) := by
  refine finish_wf <| precise_ends h <| (needSupervisor_ends h _).bind fun _ _ => (stallIf_ends h _).bind fun _ _ => ?_
  dsimp only
  split
  · simp [h]
  split
  · simp [h]
  split
  · simp [h]
  refine (State.imagePieces_ends h ..).bind fun o ho => ?_
  split
  · simp [h]
  · next p _ => simp [ho _ rfl]

theorem execCmopen_wf (xd xa xb) : NextWf (execCmopen xd xa xb s) := by
  refine finish_wf <| precise_ends h <| (needSupervisor_ends h _).bind fun _ _ => (stallIf_ends h _).bind fun _ _ =>
    (State.loadAt_ends h ..).bind fun p h1 => ?_
  refine iteInduction (motive := EndsWf State.Wf) (fun _ => by simpa using h1) fun _ =>
    iteInduction (motive := EndsWf State.Wf) (fun _ => by simpa using h1) fun _ =>
    (State.imagePieces_ends h1 ..).bind fun o ho => ?_
  split
  · simpa using h1
  refine (State.loadPieces_ends (ho _ rfl) ..).bind fun q h2 =>
    iteInduction (motive := EndsWf State.Wf) (fun _ => by simpa using h2) fun _ =>
    (State.imagePieces_ends h2 ..).bind fun o' ho' => ?_
  split
  · simpa using h2
  · simp [ho' _ rfl]

@[simp] theorem State.cmCopy_wf (r r' src dst n) : (s.cmCopy r r' src dst n).Wf := by
  unfold State.cmCopy; dsimp only; split <;> simp [h]

@[simp] theorem State.moveStripe_wf (r r' p) : (s.moveStripe r r' p).Wf :=
  foldl_wf (fun _ _ hu => State.cmCopy_wf hu ..) _ (foldl_wf (fun _ _ hu => State.cmCopy_wf hu ..) _ h)

theorem execCmmovDone_wf (handle) : NextWf (execCmmovDone handle s) := by
  unfold execCmmovDone; dsimp only; (repeat' split) <;> simp [NextWf, h]

theorem execCmsealDone_wf (handle) : NextWf (execCmsealDone handle s) := by
  unfold execCmsealDone; dsimp only; (repeat' split) <;> simp [NextWf, h]

@[simp] theorem State.cmFill_wf (r body) : (s.cmFill r body).Wf := foldl_wf (fun _ _ hu => State.cmWrite_wf hu ..) _ h

/-- A completion word written, and the operation ended. -/
theorem State.openEnd_wf (o image v i) : NextWf (.next ((s.publish o image v).endCmOp i o)) := by
  simp [NextWf, h]

theorem execCmopenDone_wf (handle) : NextWf (execCmopenDone handle s) := by
  have hs : ∀ ps, (s.lookSpans ps).Wf := fun _ => by simpa using h
  unfold execCmopenDone
  dsimp only
  split
  · split
    · split
      · exact State.openEnd_wf (State.installRegion_wf (State.cmFill_wf (hs _) ..) ..) ..
      · refine State.openEnd_wf ?_ ..
        split
        · exact State.cmFill_wf (hs _) ..
        · exact hs _
    · exact h
  · exact h

end

end Sys2Proof.Machine
end

section
/-! SUPPORT. The canonical form of memory through jobs, trains, resets, the trust unit and the region scheduler. -/

namespace Sys2Proof.Machine

theorem State.asJob_wf (j) {f : State → State} (hf : ∀ u, u.Wf → (f u).Wf) {s : State} (h : s.Wf) : (s.asJob j f).Wf :=
  State.onCc_wf _ (fun u hu => by simpa using hf (u.modCc _) hu) h

theorem State.engineEnd_wf {s : State} (h : s.Wf) (j) {r : Except Stop State} (hr : EndsWf State.Wf r) {good : State → State}
    (hg : ∀ u, u.Wf → (good u).Wf) : (s.engineEnd j r good).Wf := by
  unfold State.engineEnd
  split
  · next u => exact hg _ hr
  · exact hr
  · (repeat' split)
    · exact h
    · exact h
    · simpa using h
    · exact h
    · simpa using h

theorem nextOf_wf {s : State} (h : s.Wf) {o : Out} (ho : NextWf o) : (nextOf s o).Wf := by
  cases o with
  | next t => exact ho
  | fault | refused => exact h

section
variable {s : State} (h : s.Wf)
include h

/-! ### Jobs -/

theorem State.peerList_ends (bs) : EndsWf FirstWf (s.peerList bs) :=
  iteInduction (motive := EndsWf FirstWf) (fun _ => (State.pieces_ends h ..).bind fun _ h1 => (trapIf_ends h1 ..).bind
    fun _ _ => (State.loadPieces_ends h1 ..).bind fun _ h2 => h2) fun _ => h

theorem State.cardPlace_ends (a) : EndsWf FirstWf (s.cardPlace a) :=
  (trapIf_ends h ..).bind fun _ _ => (State.translate_ends h ..).bind fun _ h1 => (State.translate_ends h1 ..).bind
    fun _ h2 => (trapIf_ends h2 ..).bind fun _ _ => h2

theorem State.readCard_ends (x a) : EndsWf FirstWf (s.readCard x a) :=
  (State.loadPiece_ends h ..).bind fun _ h1 => (State.peerList_ends h1 _).bind fun _ h2 => h2

@[simp] theorem State.cardStatus_wf (x status) : (s.cardStatus x status).Wf := State.storePiece_wf h ..

theorem execJob_wf (xd xa) : NextWf (execJob xd xa s) :=
  finish_wf <| (precise_ends h (State.cardPlace_ends h _)).bind fun _ h1 => (waitOwn_ends h).bind fun _ _ =>
    have hr : (s.release 4).Wf := by simpa using h
    (precise_ends hr (State.readCard_ends h1 ..)).bind fun _ h2 => (trapIf_ends hr ..).bind fun _ _ =>
    iteInduction (motive := EndsWf State.Wf) (fun _ => by simp [h2]) fun _ => (stallIf_ends h _).bind fun _ _ => by simp [h2]

theorem execJobchk_wf (xd xa) : NextWf (execJobchk xd xa s) := h

theorem State.jobRead_ends (token va n) : EndsWf FirstWf (s.jobRead token va n) :=
  (State.translate_ends h ..).bind fun _ h1 => (trapIf_ends h1 ..).bind fun _ _ => State.loadPieceFor_ends h1 ..

theorem State.jobWrite_ends (token va bs) : EndsWf State.Wf (s.jobWrite token va bs) :=
  (State.translate_ends h ..).bind fun p h1 => (trapIf_ends h1 ..).bind fun _ _ => by
    have h2 := State.storePiece_wf h1 ⟨p.2, bs.length⟩ bs
    dsimp only
    split <;> exact h2

theorem State.jobReadAll_ends (token fuel va n) : EndsWf FirstWf (State.jobReadAll token fuel s va n) := by
  induction fuel generalizing s va n with
  | zero => exact h
  | succ fuel ih =>
    exact iteInduction (motive := EndsWf FirstWf) (fun _ => h) fun _ => (State.jobRead_ends h ..).bind fun _ h1 =>
      (ih h1 ..).bind fun _ h2 => h2

theorem State.jobWriteAll_ends (token fuel va bs) : EndsWf State.Wf (State.jobWriteAll token fuel s va bs) := by
  induction fuel generalizing s va bs with
  | zero => exact h
  | succ fuel ih =>
    exact iteInduction (motive := EndsWf State.Wf) (fun _ => h) fun _ => (State.jobWrite_ends h ..).bind fun _ h1 => ih h1 ..

theorem State.jobCopy_ends (token fuel src dst n) : EndsWf State.Wf (State.jobCopy token fuel s src dst n) := by
  induction fuel generalizing s src dst n with
  | zero => exact h
  | succ fuel ih =>
    exact iteInduction (motive := EndsWf State.Wf) (fun _ => h) fun _ => (State.jobRead_ends h ..).bind fun _ h1 =>
      (State.jobWrite_ends h1 ..).bind fun _ h2 => ih h2 ..

theorem State.gatherRow_ends (j r) : EndsWf State.Wf (s.gatherRow j r) :=
  (State.jobReadAll_ends h ..).bind fun _ h1 => (trapIf_ends h1 ..).bind fun _ _ => State.jobCopy_ends h1 ..

theorem State.jobRow_ends (j r) : EndsWf State.Wf (s.jobRow j r) := by
  unfold State.jobRow
  dsimp only
  (repeat' split)
  exacts [State.gatherRow_ends h .., State.jobCopy_ends h .., State.jobCopy_ends h .., State.jobWriteAll_ends h ..]

theorem State.tryCollective_wf (j) : (s.tryCollective j).Wf := by
  unfold State.tryCollective
  dsimp only
  (repeat' split)
  · exact h
  · simp [h]
  · simpa using h
  · exact State.asJob_wf _ (fun _ hu => State.engineEnd_wf hu _ (State.jobWriteAll_ends hu ..) fun _ hv => by simpa using hv) h
  · exact h

theorem State.beginCollective_wf (j : Job) (node : State → BitVec 16) (tag) (m : List Byte → CollMsg) :
    (s.asJob j fun u => match State.jobReadAll j.token (j.rowBytes + 1) u j.a j.rowBytes with
      | .ok (v, data) =>
        let (v1, k) := (v.walksDone.sendColl j.nodes tag (m data)).takeHeld { j with contribs := [(node u, m data)] }
        v1.modJob j fun _ => k
      | .error e => u.engineEnd j (.error e) id).Wf :=
  State.asJob_wf _ (fun u hu => by
    have hr := State.jobReadAll_ends hu j.token (j.rowBytes + 1) j.a j.rowBytes
    split
    · next e => simpa using hr.of_ok e
    · next e =>
      refine State.engineEnd_wf hu _ ?_ fun _ hv => hv
      rw [e] at hr
      cases ‹Stop› <;> exact hr) h

theorem State.startCollective_wf (j) : (s.startCollective j).Wf := by
  have h1 := State.beginCollective_wf h j State.nodeid j.collTag fun data =>
    .contribution j.op (BitVec.ofNat 32 j.rowBytes) j.nodes data
  unfold State.startCollective
  refine iteInduction (motive := State.Wf) (fun _ => State.tryCollective_wf h j) fun _ => ?_
  dsimp only
  split
  · exact iteInduction (motive := State.Wf) (fun _ => State.tryCollective_wf h1 _) fun _ => h1
  · exact h1

theorem execJobStart_wf (cc token) : NextWf (execJobStart cc token s) := by
  unfold execJobStart
  dsimp only
  (repeat' split)
  · exact h
  · exact h
  · exact State.startCollective_wf (s := s.modJob _ _) h _
  · exact State.asJob_wf _ (fun u hu => State.engineEnd_wf hu _ (State.jobRow_ends hu ..) fun _ hv => by simpa using hv) h

theorem execJobCompletion_wf (cc token) : NextWf (execJobCompletion cc token s) := by
  unfold execJobCompletion
  dsimp only
  (repeat' split)
  · exact h
  · exact h
  · exact h
  · exact foldl_wf (fun u k hu => by simpa using hu) _ (State.endJob_wf h ..)

theorem execCollectiveData_wf (src tag msg) : NextWf (execCollectiveData src tag msg s) := by
  unfold execCollectiveData
  dsimp only
  (repeat' split)
  · exact h
  · exact h
  · exact h
  · exact State.tryCollective_wf (s := s.modJob _ _) h _

/-! ### Sends of vectors to peers -/

theorem sendTargets_ends (bytes ts) : EndsWf FirstWf (sendTargets bytes s ts) := by
  induction ts generalizing s with
  | nil => exact h
  | cons t r ih => exact (State.translate_ends h ..).bind fun _ h1 => (trapIf_ends h1 ..).bind fun _ _ =>
      (trapIf_ends h1 ..).bind fun _ _ => (ih h1).bind fun _ h2 => h2

theorem execVsend_wf (vs va xb) : NextWf (execVsend vs va xb s) :=
  finish_wf <| precise_ends h <| (needVector_ends h).bind fun _ _ => (tagCheck_ends h ..).bind fun _ _ =>
    (lenCheck_ends h _).bind fun _ _ => (stallIf_ends h _).bind fun _ _ => (vfenceWait_ends h).bind fun _ hu =>
    (sendTargets_ends hu ..).bind fun p h1 => iteInduction (motive := EndsWf State.Wf) (fun _ => h1) fun _ =>
    foldl_wf (s := p.1.push .s) (fun _ _ hv => by simpa using hv) _ h1

theorem State.performElems_wf (bytes fuel bs) : (State.performElems s bytes fuel bs).Wf := by
  induction fuel generalizing s bs with
  | zero => exact h
  | succ fuel ih =>
    unfold State.performElems
    dsimp only
    split
    · exact h
    · split
      · exact ih (State.storeBytes_wf _ _ _ h) _
      · exact ih h _

theorem execTrainTail_wf (src tag counter count) : NextWf (execTrainTail src tag counter count s) := by
  unfold execTrainTail; dsimp only; split <;> simp [NextWf, h, Memory.writeAll_wf]

theorem execTailAcknowledgement_wf (src tag) : NextWf (execTailAcknowledgement src tag s) := by
  unfold execTailAcknowledgement; split <;> simp [NextWf, h]

/-! ### Resets, boot and the trust unit -/

omit h in
theorem execPowerOnReset_wf : NextWf (execPowerOnReset s) := State.reset_wf

theorem execCxlPortReset_wf : NextWf (execCxlPortReset s) := h

theorem execLifecycleAdvance_wf (lcs) : NextWf (execLifecycleAdvance lcs s) := by
  unfold execLifecycleAdvance; split <;> exact h

theorem execBootLoad_wf (cmd) : NextWf (execBootLoad cmd s) := by
  unfold execBootLoad; dsimp only; split <;> exact h

@[simp] theorem State.zeroWm_wf : s.zeroWm.Wf := State.zeroBytes_wf _ 0 wmLimit h

theorem execBootComplete_wf : NextWf (execBootComplete s) := by
  have h1 : ∀ f, (s.modTrust f).zeroWm.Wf := fun _ => State.zeroWm_wf h
  unfold execBootComplete
  dsimp only
  (repeat' split) <;> simp [NextWf, h, h1]

theorem execVerify_wf : NextWf (execVerify s) := by
  unfold execVerify
  dsimp only
  generalize s.trust.tokenStatus _ = st
  (repeat' split) <;> simp [NextWf, h]

theorem execKeyload_wf : NextWf (execKeyload s) := by
  unfold execKeyload; dsimp only; (repeat' split) <;> exact h

theorem State.settleOp_wf (p) : (s.settleOp p).Wf := by
  unfold State.settleOp
  dsimp only
  split
  · exact foldl_wf (fun _ _ hu => nextOf_wf hu (execCmmovDone_wf hu _)) _ h
  · exact nextOf_wf h (execCmsealDone_wf h _)
  · exact nextOf_wf h (execCmopenDone_wf h _)

theorem State.cmSettle_wf : s.cmSettle.Wf :=
  foldl_wf (fun _ _ hu => State.cmStoreDone_wf hu _) _ (foldl_wf (fun _ p hu => State.settleOp_wf hu p) _ h)

theorem execKeywipe_wf : NextWf (execKeywipe s) := by
  unfold execKeywipe; split; exacts [h, State.cmSettle_wf h]

theorem execKeywipeZeroise_wf : NextWf (execKeywipeZeroise s) := by
  unfold execKeywipeZeroise; split <;> exact h

theorem execDbgopen_wf : NextWf (execDbgopen s) := by
  unfold execDbgopen; dsimp only; (repeat' split) <;> exact h

theorem execExtend_wf : NextWf (execExtend s) := by
  unfold execExtend; dsimp only; (repeat' split) <;> exact h

theorem execAttest_wf : NextWf (execAttest s) := by
  unfold execAttest
  dsimp only
  (repeat' split)
  · exact h
  · exact h
  · exact State.storeBytes_wf _ _ _ h

/-! ### The region scheduler -/

@[simp] theorem State.failCheck_wf (rcb domain cause) : (s.failCheck rcb domain cause).Wf :=
  State.faultEvent_wf (State.finishRegion_wf (State.storeBytes_wf _ _ _ h) ..) ..

@[simp] theorem State.checkRetire_wf (rcb) : (s.checkRetire rcb).Wf := by unfold State.checkRetire; split <;> exact h

theorem execRegionLaunch_wf (addr rec) : NextWf (execRegionLaunch addr rec s) := by
  unfold execRegionLaunch
  dsimp only
  refine iteInduction (motive := NextWf) (fun _ => trivial) fun _ => iteInduction (motive := NextWf) (fun _ => h) fun _ =>
    iteInduction (motive := NextWf) (fun _ => h) fun _ => iteInduction (motive := NextWf) (fun _ => h) fun _ =>
    iteInduction (motive := NextWf) (fun _ => ?_) fun _ => ?_
  · exact State.failCheck_wf (by simpa using h) ..
  · simpa [NextWf] using h

theorem execRcbCheck_wf (addr) : NextWf (execRcbCheck addr s) := by
  unfold execRcbCheck
  dsimp only
  split
  · exact h
  · split
    · exact h
    · split
      · exact State.failCheck_wf h ..
      · exact State.storeBytes_wf _ _ _ h

theorem State.schedGet_ends (r : Region) (va : Word) (n) :
    EndsWf FirstWf (State.schedRead r.ptbase r.asid 3 s va n) := State.schedRead_ends h ..

theorem State.restore_ends (r index id claim parts) : EndsWf State.Wf (s.restore r index id claim parts) :=
  (State.schedGet_ends h ..).bind fun _ h1 => (trapIf_ends h1 ..).bind fun _ _ => (State.schedGet_ends h1 ..).bind fun _ h2 =>
    (State.schedGet_ends h2 ..).bind fun _ h3 => (State.schedTranslate_ends h3 ..).bind fun _ h4 =>
    State.storeIn_wf _ _ _ _ (by simpa using h4)

theorem State.restoreSeat_wf (rcb r p) : (State.restoreSeat rcb r s p).Wf := by
  unfold State.restoreSeat
  split
  · split
    · exact h
    · have hr := fun a b c d => State.restore_ends h r a b c d
      split
      · next e => exact (hr ..).of_ok e
      · next e => exact State.faultRegion_wf ((hr ..).of_trap e) ..
      · next e => exact (hr ..).of_wait e
  · exact h

theorem State.endPending_wf (rcb i) : (State.endPending rcb s i).Wf := by
  unfold State.endPending; split; exacts [State.endContext_wf h _, h]

theorem State.seatFresh_wf (rcb r p) : (State.seatFresh rcb r s p).Wf := by
  unfold State.seatFresh; dsimp only; split <;> simp [h, Memory.clear_wf]

theorem State.place1_wf (rcb r home seats) : (s.place1 rcb r home seats).Wf := by
  have h1 : ((r.physSlots home).foldl (State.bindSlot rcb r.count) s).Wf := foldl_wf (fun _ _ hu => by simpa using hu) _ h
  exact State.checkRetire_wf (foldl_wf (fun _ i hu => State.endPending_wf hu rcb i) _
    (foldl_wf (fun _ p hu => State.restoreSeat_wf hu rcb r p) _ (State.storeBytes_wf _ _ _
      (foldl_wf (s := State.modRegion _ rcb _) (fun _ p hu => State.seatFresh_wf hu rcb r p) _ h1)))) rcb

theorem State.postRequest_wf (id) : (s.postRequest id).Wf := by
  unfold State.postRequest
  dsimp only
  (repeat' split)
  · exact h
  · exact State.onCc_wf _ (fun _ hu => State.preempt_wf hu _) h
  · simpa using h

theorem State.evict_wf (rcb) : (s.evict rcb).Wf := by
  unfold State.evict
  split
  · split
    · exact foldl_wf (s := s.modRegion rcb _) (fun _ id hu => State.postRequest_wf hu id) _ h
    · exact h
  · exact h

theorem execRegionPlacement_wf (addr first) : NextWf (execRegionPlacement addr first s) := by
  unfold execRegionPlacement
  dsimp only
  split
  · exact h
  · split
    · exact State.storeBytes_wf _ _ _ h
    · refine iteInduction (motive := NextWf) (fun _ => h) fun _ => ?_
      split
      · exact State.place1_wf h ..
      · exact foldl_wf (fun _ rcb hu => State.evict_wf hu rcb) _ h
    · exact h

theorem execRegionRetire_wf (addr) : NextWf (execRegionRetire addr s) := by
  unfold execRegionRetire; dsimp only; split; exacts [State.finishRegion_wf (s := s.releaseDie 0) h .., h]

theorem execRsTerminateRegion_wf (addr) : NextWf (execRsTerminateRegion addr s) := by
  unfold execRsTerminateRegion; dsimp only; (repeat' split) <;> simp [NextWf, h]

@[simp] theorem State.terminateOne_wf (rcb i c) : (s.terminateOne rcb i c).Wf := by
  unfold State.terminateOne; split <;> simp [h]

theorem execRsTerminateContext_wf (addr ctx) : NextWf (execRsTerminateContext addr ctx s) := by
  have h1 : (s.rsDone 0).Wf := by simpa using h
  have h2 := fun rcb i c => State.checkSaved_wf (State.terminateOne_wf h1 rcb i c) rcb
  unfold execRsTerminateContext
  dsimp only
  (repeat' split)
  · simpa [NextWf] using h
  · simpa [NextWf] using h
  · exact State.checkRetire_wf (h2 ..) _
  · exact h1

theorem execRsEvict_wf (addr) : NextWf (execRsEvict addr s) := by
  have h1 : ∀ e, (s.rsDone e).Wf := fun _ => by simpa using h
  unfold execRsEvict; split; exacts [h1 _, State.evict_wf (h1 _) _]

theorem execTerminationEnd_wf (addr) : NextWf (execTerminationEnd addr s) := by
  unfold execTerminationEnd
  dsimp only
  split
  · split
    · exact State.finishRegion_wf (State.endContexts_wf (State.endChildren_wf h _) _) ..
    · exact h
  · exact h

theorem execHardPreemption_wf (cc) : NextWf (execHardPreemption cc s) := by
  unfold execHardPreemption; split; exacts [State.onCc_wf _ (fun _ hu => State.preempt_wf hu _) h, h]

end

end Sys2Proof.Machine
end

section
/-! SUPPORT. The canonical form of memory through completions, stacks, tillers, links, scalar accesses, the host and loops. -/

namespace Sys2Proof.Machine

section
variable {s : State} (h : s.Wf)
include h

/-! ### Ends of waits, deliveries and completions -/

theorem execLaneShapeChange_wf (core) : NextWf (execLaneShapeChange core s) := by simpa [NextWf, execLaneShapeChange] using h

theorem execHeddleGrant_wf (core heads costs) : NextWf (execHeddleGrant core heads costs s) := by
  simpa [NextWf, execHeddleGrant] using foldl_wf (fun _ _ hu => by simpa using hu) _ h

theorem execWaitReturn_wf (cc) : NextWf (execWaitReturn cc s) := by
  unfold execWaitReturn; (repeat' split) <;> simp [NextWf, h]

theorem execBarwaitReturn_wf (cc) : NextWf (execBarwaitReturn cc s) := by
  unfold execBarwaitReturn; (repeat' split) <;> simp [NextWf, h]

theorem execIdleTimeout_wf (cc) : NextWf (execIdleTimeout cc s) := by
  unfold execIdleTimeout; split <;> simp [NextWf, h]

theorem execBarrierStall_wf (slot) : NextWf (execBarrierStall slot s) := by
  unfold execBarrierStall; dsimp only; (repeat' split) <;> simp [NextWf, h]

theorem execUiDelivery_wf (cc) : NextWf (execUiDelivery cc s) := by
  unfold execUiDelivery; split <;> simp [NextWf, h]

theorem execLoadComplete_wf (cc) : NextWf (execLoadComplete cc s) := by
  unfold execLoadComplete; split <;> simp [NextWf, h]

theorem execStorePerformed_wf (cc) : NextWf (execStorePerformed cc s) := by
  unfold execStorePerformed; (repeat' split) <;> simp [NextWf, h]

theorem execPageWalk_wf (cc va) : NextWf (execPageWalk cc va s) := by
  unfold execPageWalk; dsimp only; (repeat' split) <;> simp [NextWf, State.count_mem, h]

theorem State.tellAll_wf (r) (ccs : List (BitVec 10)) : (ccs.foldl (State.walked · r) s).Wf :=
  foldl_wf (fun _ _ hu => by simpa using hu) _ h

theorem execWalkComplete_wf (cluster) : NextWf (execWalkComplete cluster s) := by
  unfold execWalkComplete
  dsimp only
  split
  · exact h
  · split
    · simpa [NextWf] using State.tellAll_wf (s := s.modCluster _ _) h ..
    · have h1 : ∀ {u : State}, u.Wf → ∀ (l : List ℕ) t,
          (l.foldl (fun s n => s.modCore n fun c => { c with l2 := tlbFill 2048 t c.l2 }) u).Wf :=
        fun hu l t => foldl_wf (fun v _ hv => by simpa using hv) l hu
      simp only [NextWf, State.wf_iff, State.startWaiting_mem]
      exact State.tellAll_wf (h1 (by split <;> exact h) ..) ..

theorem execDieWriteArrival_wf (die src s0 s1 s2 s3) : NextWf (execDieWriteArrival die src s0 s1 s2 s3 s) := by
  unfold execDieWriteArrival; split <;> exact h

theorem execDieWriteDeliver_wf (die) : NextWf (execDieWriteDeliver die s) := by
  unfold execDieWriteDeliver
  dsimp only
  split
  · exact h
  · exact iteInduction (motive := State.Wf) (fun _ => h) fun _ => h

/-! ### Stacks of memory, and the mesh -/

theorem execActivation_wf (bank row) : NextWf (execActivation bank row s) := by
  unfold execActivation; dsimp only; (repeat' split) <;> simp [NextWf, h]

theorem execTrackerWindowClear_wf : NextWf (execTrackerWindowClear s) := h
theorem execRefresh_wf (bank burst) : NextWf (execRefresh bank burst s) := h

theorem execRemapMove_wf (region) : NextWf (execRemapMove region s) := by
  unfold execRemapMove; dsimp only; split <;> exact h

theorem execRemapMoveEnd_wf (region) : NextWf (execRemapMoveEnd region s) := by
  unfold execRemapMoveEnd; (repeat' split) <;> simp [NextWf, State.flushMetas_mem, h]

theorem execDivisorChange_wf (d) : NextWf (execDivisorChange d s) := by simpa [NextWf, execDivisorChange] using h

theorem execComputeModeEntry_wf (ch) : NextWf (execComputeModeEntry ch s) := by
  unfold execComputeModeEntry; dsimp only; split <;> exact h

theorem State.cmThrough_wf (w) : (s.cmThrough w).Wf := foldl_wf (fun _ _ hu => State.cmStoreDone_wf hu _) _ h

theorem execNlbExpiry_wf (ch) : NextWf (execNlbExpiry ch s) := by
  unfold execNlbExpiry; split; exacts [foldl_wf (fun _ w hu => State.cmThrough_wf hu w) _ h, h]

theorem execNormalModeRequest_wf (ch) : NextWf (execNormalModeRequest ch s) := by
  unfold execNormalModeRequest; split <;> exact h

theorem execNormalModeDone_wf (ch) : NextWf (execNormalModeDone ch s) := by
  unfold execNormalModeDone; split <;> exact h

theorem execMeshPacket_wf (router packet) : NextWf (execMeshPacket router packet s) := by
  unfold execMeshPacket; dsimp only; (repeat' split) <;> simp [NextWf, h]

/-! ### The tillers -/

theorem execTillerJob_wf (ch cc serial) : NextWf (execTillerJob ch cc serial s) := by
  unfold execTillerJob; split <;> simp [NextWf, h]

theorem execReplypush_wf (ch data) : NextWf (execReplypush ch data s) := by
  unfold execReplypush; split <;> exact h

theorem execReplyend_wf (ch v) : NextWf (execReplyend ch v s) := by
  unfold execReplyend; split <;> simp [NextWf, h]

theorem execTillerTimeout_wf (ch) : NextWf (execTillerTimeout ch s) := by
  unfold execTillerTimeout; dsimp only; split <;> simp [NextWf, h]

theorem execTillerDmaGo_wf (ch row ctl) : NextWf (execTillerDmaGo ch row ctl s) := h

theorem execTillerDmaDone_wf (ch) : NextWf (execTillerDmaDone ch s) := by
  unfold execTillerDmaDone; dsimp only; (repeat' split) <;> exact h

theorem execTillerFwLoad_wf (ctl) : NextWf (execTillerFwLoad ctl s) := h

theorem execTillerFwLoadDone_wf : NextWf (execTillerFwLoadDone s) := by
  unfold execTillerFwLoadDone; dsimp only; (repeat' split) <;> simp [NextWf, h]

/-! ### Links and peers -/

theorem execFlitReceive_wf (port flit) : NextWf (execFlitReceive port flit s) := by
  unfold execFlitReceive
  dsimp only
  (repeat' split) <;> simp [NextWf, h]

theorem execAckTimer_wf (port) : NextWf (execAckTimer port s) := by
  unfold execAckTimer; split <;> simp [NextWf, h]

theorem execLinkRetrain_wf (port) : NextWf (execLinkRetrain port s) := by
  unfold execLinkRetrain; dsimp only; split <;> simp [NextWf, h]

theorem execLinkUp_wf (port peer) : NextWf (execLinkUp port peer s) := by
  unfold execLinkUp; dsimp only; (repeat' split) <;> simp [NextWf, h]

theorem execLinkDown_wf (port) : NextWf (execLinkDown port s) := by
  have h1 : ∀ n (l : List (BitVec 10)), (l.foldl (State.dropStores n) s).Wf := fun n l =>
    foldl_wf (fun _ _ hu => by simpa using hu) l h
  have h2 : ∀ n l (js : List Job), (js.foldl (State.dropCard n) ((l : List (BitVec 10)).foldl (State.dropStores n) s)).Wf :=
    fun n l js => foldl_wf (fun _ _ hu => by simpa using hu) js (h1 n l)
  unfold execLinkDown
  dsimp only
  (repeat' split) <;> simp [NextWf, h, h2]

theorem execReadRequest_wf (src tag addr units) : NextWf (execReadRequest src tag addr units s) := by
  simpa [NextWf, execReadRequest] using h

theorem execReadResponse_wf (src tag data) : NextWf (execReadResponse src tag data s) :=
  foldl_wf (s := { s with peerReads := _, strays := _ }) (fun _ _ hu => by simpa using hu) _ h

theorem execPeerWrite_wf (src tag addr data) : NextWf (execPeerWrite src tag addr data s) := by
  unfold execPeerWrite; dsimp only; split <;> simp [NextWf, h, Memory.writeAll_wf]

theorem execWriteAcknowledgement_wf (src tag) : NextWf (execWriteAcknowledgement src tag s) := by
  unfold execWriteAcknowledgement; dsimp only; (repeat' split) <;> simp [NextWf, h]

theorem execRouteWrite_wf (node v) : NextWf (execRouteWrite node v s) := h

theorem execRouteApply_wf (node) : NextWf (execRouteApply node s) := by
  unfold execRouteApply; (repeat' split) <;> exact h

/-! ### Scalar loads and stores -/

theorem State.scalarLoad_ends (a n) : EndsWf FirstWf (s.scalarLoad a n) :=
  withTval_ends _ <| precise_ends h <| (State.pieces_ends h ..).bind fun _ h1 => by
    dsimp only
    split
    · split
      · exact h1
      · exact (State.loadPieces_ends h1 ..).bind fun _ h2 => h2
    · exact (State.loadPieces_ends h1 ..).bind fun _ h2 => h2

theorem State.scalarStore_ends (a n v) : EndsWf State.Wf (s.scalarStore a n v) :=
  withTval_ends _ <| precise_ends h <| (stallIf_ends h _).bind fun _ _ => (State.pieces_ends h ..).bind fun _ h1 => by
    dsimp only
    split
    · split
      · simpa using h1
      · simpa using State.storePieces_wf h1 ..
    · simpa using State.storePieces_wf h1 ..

theorem State.load_wf (xd xa imm n signed) : NextWf (s.load xd xa imm n signed) :=
  finish_wf <| (State.scalarLoad_ends h ..).bind fun _ h1 => h1

theorem State.store_wf (xs xa imm n) : NextWf (s.store xs xa imm n) :=
  finish_wf <| (State.scalarStore_ends h ..).bind fun _ h1 => h1

theorem execLda_wf (xd xa sc) : NextWf (execLda xd xa sc s) :=
  finish_wf <| (trapIf_ends h ..).bind fun _ _ => (State.scalarLoad_ends h ..).bind fun _ h1 => h1

theorem execStrel_wf (xs xa sc) : NextWf (execStrel xs xa sc s) :=
  finish_wf <| (trapIf_ends h ..).bind fun _ _ => (State.scalarStore_ends h ..).bind fun _ _ => (waitOwn_ends h).bind
    fun _ _ => (State.scalarStore_ends (by simpa using h) ..).bind fun _ h1 => h1

/-! ### The host and the debug port -/

theorem execHostMemRead_wf (off n) : NextWf (execHostMemRead off n s) := by
  unfold execHostMemRead; dsimp only; (repeat' split) <;> simp [NextWf, h]

theorem execHostMemWrite_wf (off data) : NextWf (execHostMemWrite off data s) := by
  unfold execHostMemWrite; dsimp only; (repeat' split) <;> simp [NextWf, h, Memory.writeAll_wf]

theorem execCxlSnoop_wf (die line) : NextWf (execCxlSnoop die line s) := by
  have h1 : ∀ l, ((List.range 4).foldl (fun (u : State) k => u.modDie k fun d => d.giveUp l) s).Wf := fun _ =>
    foldl_wf (fun u _ hu => by simpa using hu) _ h
  unfold execCxlSnoop
  dsimp only
  split
  · exact h
  · simp only [NextWf]
    split
    · exact State.storeBytes_wf _ _ _ (h1 _)
    · exact h1 _

theorem execRegisterWrite_wf (off size acc) : NextWf (execRegisterWrite off size acc s) := by
  cases acc <;> simp [execRegisterWrite, NextWf, h]

theorem execMsixUnmask_wf (set) : NextWf (execMsixUnmask set s) := by
  cases set <;> simp [execMsixUnmask, NextWf, h]

theorem execDebugHalt_wf (cc) : NextWf (execDebugHalt cc s) := by
  unfold execDebugHalt
  dsimp only
  (repeat' split)
  · exact h
  · simpa [NextWf] using h
  · exact State.onCc_wf _ (fun _ hu => by simpa using hu) h

theorem execDebugRegisterWrite_wf (cc w) : NextWf (execDebugRegisterWrite cc w s) := by
  unfold execDebugRegisterWrite
  exact iteInduction (motive := NextWf) (fun _ => h) fun _ => State.onCc_wf _ (fun _ hu => by simpa using hu) h

theorem execDebugResume_wf (cc) : NextWf (execDebugResume cc s) := by
  unfold execDebugResume; split <;> simp [NextWf, h]

theorem execDebugCmRead_wf (addr) : NextWf (execDebugCmRead addr s) := by
  unfold execDebugCmRead; dsimp only; split <;> exact h

/-! ### Loops -/

theorem execNotAnInstruction_wf (w) : NextWf (execNotAnInstruction w s) := State.raise_wf h _

theorem State.openLoop_ends (i loopi xa off) : EndsWf State.Wf (s.openLoop i loopi xa off) :=
  (needVector_ends h).bind fun _ _ => by (repeat' split) <;> exact h

theorem execSetvl_wf (xd xa w) : NextWf (execSetvl xd xa w s) := finish_wf <| (needVector_ends h).bind fun _ _ => by
  have h1 : ∀ f core, ((s.modCc f).applyShape core).Wf := fun _ _ => by simpa using h
  dsimp only
  split
  · exact State.preempt_wf (h1 ..) _
  · split
    · exact illegal_ends h _
    · exact h1 ..

theorem execNext_wf (xd off) : NextWf (execNext xd off s) := finish_wf <| (needVector_ends h).bind fun _ _ => by
  split
  · exact h
  · exact iteInduction (motive := EndsWf State.Wf) (fun _ => h) fun _ => h

end

end Sys2Proof.Machine
end

section
/-! SUPPORT. The canonical form of memory through vector, mask and tile instructions. -/

namespace Sys2Proof.Machine

section
variable {s : State} (h : s.Wf)
include h

/-! ### Branches on masks, traps asked for, and waits -/

theorem State.maskBranch_wf {c : Prop} {_ : Decidable c} (taken off t) :
    NextWf (if c then s.branch taken off else .next (s.raise t)) := by
  split
  · exact State.branch_wf h ..
  · exact State.raise_wf h _

theorem execJalr_wf (xd xa imm) : NextWf (execJalr xd xa imm s) := by
  unfold execJalr; dsimp only; split; exacts [State.raise_wf h _, h]

theorem execCsrr_wf (xd n) : NextWf (execCsrr xd n s) := finish_wf <| (csrAccess_ends h ..).bind fun _ _ => h

theorem execBrk_wf : NextWf (execBrk s) := by unfold execBrk; split; exacts [h, State.raise_wf h _]

theorem execWait_wf (l s' c t q) : NextWf (execWait l s' c t q s) := by
  unfold execWait; split; exacts [h, State.enterWait_wf h _]

theorem execQueryCompletion_wf (cc serial) : NextWf (execQueryCompletion cc serial s) := by
  unfold execQueryCompletion
  split
  · split; exacts [State.completeQuery_wf h _, h]
  · exact h

theorem execCmRemove_wf (handle) : NextWf (execCmRemove handle s) := by
  unfold execCmRemove; split <;> simp [NextWf, h]

theorem execCmRemoveDone_wf : NextWf (execCmRemoveDone s) := by
  unfold execCmRemoveDone; (repeat' split) <;> simp [NextWf, h]

theorem execSheafAgeExpiry_wf (q) : NextWf (execSheafAgeExpiry q s) := by simpa [NextWf, execSheafAgeExpiry] using h
theorem execSheafFiring_wf (cluster) : NextWf (execSheafFiring cluster s) := by simpa [NextWf, execSheafFiring] using h

/-! ### Vectors and masks -/

theorem vecChecks_ends (vd va b ok) : ChecksWf (vecChecks s vd va b ok) :=
  (pushGuard_ends h _).bind fun _ _ => (tagCheck_ends h ..).bind fun _ _ => (lenCheck_ends h _).bind fun _ _ => trivial

theorem unaryChecks_ends (vd va ok) : ChecksWf (unaryChecks s vd va ok) :=
  (pushGuard_ends h _).bind fun _ _ => (tagCheck_ends h ..).bind fun _ _ => (lenCheck_ends h _).bind fun _ _ => trivial

theorem redChecks_ends (vd va vb ok) : ChecksWf (redChecks s vd va vb ok) :=
  (pushGuard_ends h _).bind fun _ _ => (tagCheck_ends h ..).bind fun _ _ => (lenCheck_ends h _).bind fun _ _ => trivial

theorem State.joinElem_ends (b t vd t' f) : EndsWf State.Wf (.ok (s.joinImm b t (s.elemwise vd t' f))) := by simpa using h

theorem State.maskOp_wf (md b) : NextWf (s.maskOp md b) := finish_wf <| (pushGuard_ends h _).bind fun _ _ => h

theorem execMpopc_wf (xd ma) : NextWf (execMpopc xd ma s) := finish_wf <| (needVector_ends h).bind fun _ _ => h
theorem execMfirst_wf (xd ma) : NextWf (execMfirst xd ma s) := finish_wf <| (needVector_ends h).bind fun _ _ => h

theorem State.vecBinary_wf (vd va b fi ff) : NextWf (s.vecBinary vd va b fi ff) :=
  finish_wf <| (vecChecks_ends h ..).bind fun _ _ => State.joinElem_ends h ..
theorem State.vecMinMax_wf (max vd va b) : NextWf (s.vecMinMax max vd va b) :=
  finish_wf <| (vecChecks_ends h ..).bind fun _ _ => State.joinElem_ends h ..
theorem State.vecBits_wf (vd va b g third) : NextWf (s.vecBits vd va b g third) :=
  finish_wf <| (vecChecks_ends h ..).bind fun _ _ => by simpa using h
theorem State.vecSat_wf (vd va b g) : NextWf (s.vecSat vd va b g) := State.vecBinary_wf h ..
theorem State.vecMac_wf (vd va b sub) : NextWf (s.vecMac vd va b sub) :=
  finish_wf <| (pushGuard_ends h _).bind fun _ _ => (tagCheck_ends h ..).bind fun _ _ => (lenCheck_ends h _).bind fun _ _ =>
    State.joinElem_ends h ..
theorem execVdot4_wf (vd va vb) : NextWf (execVdot4 vd va vb s) :=
  finish_wf <| (pushGuard_ends h _).bind fun _ _ => (tagCheck_ends h ..).bind fun _ _ => (lenCheck_ends h _).bind fun _ _ => by
    simpa using h

theorem State.vecSign_wf (vd va fi g) : NextWf (s.vecSign vd va fi g) :=
  finish_wf <| (unaryChecks_ends h ..).bind fun _ _ => by simpa using h
theorem State.vecFunc_wf (vd va g) : NextWf (s.vecFunc vd va g) :=
  finish_wf <| (unaryChecks_ends h ..).bind fun _ _ => by simpa using h
theorem execVclass_wf (vd va) : NextWf (execVclass vd va s) :=
  finish_wf <| (pushGuard_ends h _).bind fun _ _ => (tagCheck_ends h ..).bind fun _ _ => (lenCheck_ends h _).bind fun _ _ => by
    simpa using h
theorem execVmov_wf (vd va) : NextWf (execVmov vd va s) := finish_wf <| (unaryChecks_ends h ..).bind fun _ _ => h
theorem execVbcast_wf (vd tag b) : NextWf (execVbcast vd tag b s) :=
  finish_wf <| (pushGuard_ends h _).bind fun _ _ => (lenCheck_ends h _).bind fun _ _ => State.joinElem_ends h ..
theorem execVtag_wf (vd va tag) : NextWf (execVtag vd va tag s) :=
  finish_wf <| (pushGuard_ends h _).bind fun _ _ => (lenCheck_ends h _).bind fun _ _ => h
theorem execVsxnorm_wf (vd va) : NextWf (execVsxnorm vd va s) :=
  finish_wf <| (unaryChecks_ends h ..).bind fun _ _ => State.sxwise_ends h ..
theorem execVcvt_wf (vd va tag rm part) : NextWf (execVcvt vd va tag rm part s) :=
  finish_wf <| (pushGuard_ends h _).bind fun _ _ => (tagCheck_ends h ..).bind fun _ _ => (lenCheck_ends h _).bind fun _ _ =>
    State.convert_ends h ..
theorem execVcvtsc_wf (vd va vb rm part) : NextWf (execVcvtsc vd va vb rm part s) :=
  finish_wf <| (pushGuard_ends h _).bind fun _ _ => (tagCheck_ends h ..).bind fun _ _ => (lenCheck_ends h _).bind fun _ _ =>
    State.convert_ends h ..

theorem State.vecSum_wf (strict vd va vb) : NextWf (s.vecSum strict vd va vb) :=
  finish_wf <| (redChecks_ends h ..).bind fun _ _ => iteInduction (motive := EndsWf State.Wf) (fun _ => h) fun _ =>
    iteInduction (motive := EndsWf State.Wf) (fun _ => h) fun _ => by cases strict <;> exact h
theorem State.vecBest_wf (max vd va vb) : NextWf (s.vecBest max vd va vb) :=
  finish_wf <| (redChecks_ends h ..).bind fun _ _ => h
theorem State.vecLogic_wf (g vd va vb) : NextWf (s.vecLogic g vd va vb) :=
  finish_wf <| (redChecks_ends h ..).bind fun _ _ => h
theorem State.vecArg_wf (max xd va) : NextWf (s.vecArg max xd va) :=
  finish_wf <| (needVector_ends h).bind fun _ _ => (tagCheck_ends h ..).bind fun _ _ => (lenCheck_ends h _).bind fun _ _ => h
theorem State.vecPairs_wf (max vv vi vcv vci) : NextWf (s.vecPairs max vv vi vcv vci) :=
  finish_wf <| (pushGuard_ends h _).bind fun _ _ => iteInduction (motive := EndsWf State.Wf) (fun _ => h) fun _ =>
    (lenCheck_ends h _).bind fun _ _ => by simp [h]

theorem execVslup_wf (vd va b) : NextWf (execVslup vd va b s) := finish_wf <| (unaryChecks_ends h ..).bind fun _ _ => h
theorem execVsldn_wf (vd va b) : NextWf (execVsldn vd va b s) :=
  finish_wf <| (unaryChecks_ends h ..).bind fun _ _ => by simpa using h
theorem execVsl1up_wf (vd va xb) : NextWf (execVsl1up vd va xb s) :=
  finish_wf <| (unaryChecks_ends h ..).bind fun _ _ => by simpa using h
theorem execVsl1dn_wf (vd va xb) : NextWf (execVsl1dn vd va xb s) :=
  finish_wf <| (unaryChecks_ends h ..).bind fun _ _ => by simpa using h
theorem execVperm_wf (vd va vb) : NextWf (execVperm vd va vb s) :=
  finish_wf <| (pushGuard_ends h _).bind fun _ _ => (tagCheck_ends h ..).bind fun _ _ => (lenCheck_ends h _).bind fun _ _ => by
    simpa using h
theorem execVsel_wf (vd va b) : NextWf (execVsel vd va b s) :=
  finish_wf <| (vecChecks_ends h ..).bind fun _ _ => by simpa using h
theorem execVext_wf (xd va b) : NextWf (execVext xd va b s) :=
  finish_wf <| (needVector_ends h).bind fun _ _ => (tagCheck_ends h ..).bind fun _ _ => (lenCheck_ends h _).bind fun _ _ => h
theorem execVins_wf (vd xa b) : NextWf (execVins vd xa b s) :=
  finish_wf <| (pushGuard_ends h _).bind fun _ _ => (tagCheck_ends h ..).bind fun _ _ => (lenCheck_ends h _).bind fun _ _ => h
theorem execVcomp_wf (vd va mb) : NextWf (execVcomp vd va mb s) := finish_wf <| (unaryChecks_ends h ..).bind fun _ _ => h
theorem execViota_wf (vd tag mb) : NextWf (execViota vd tag mb s) :=
  finish_wf <| (pushGuard_ends h _).bind fun _ _ => (lenCheck_ends h _).bind fun _ _ => h

/-! ### Tiles -/

theorem conflictIf_ends (b reason td) : ChecksWf (conflictIf b s reason td) := by
  unfold conflictIf; split; exacts [h, trivial]
theorem tileGuard_ends (dsts tiles) : ChecksWf (tileGuard s dsts tiles) := (pushGuard_ends h _).bind fun _ _ => by
  split; exacts [h, trivial]
theorem useElem_ends (v t i) : ChecksWf (useElem s v t i) := by
  unfold useElem; split; exacts [trivial, h]

omit h in
theorem ChecksWf.foldlM {α β : Type} {f : β → α → Except Stop β} (hf : ∀ b a, ChecksWf (f b a)) (l : List α) (b : β) :
    ChecksWf (l.foldlM f b) := by
  induction l generalizing b with
  | nil => trivial
  | cons a r ih => rw [List.foldlM_cons]; exact (hf b a).bind fun _ _ => ih _

theorem denseTerms_ends (t trans x i n) : ChecksWf (denseTerms s t trans x i n) :=
  ChecksWf.foldlM (fun _ k => (useElem_ends h ..).bind fun _ _ => (useElem_ends h ..).bind fun _ _ => by trivial) _ _

theorem execTcfg_wf (td xa) : NextWf (execTcfg td xa s) :=
  finish_wf <| (pushGuard_ends h _).bind fun _ _ => (conflictIf_ends h ..).bind fun _ _ =>
    (conflictIf_ends h ..).bind fun _ _ => (conflictIf_ends h ..).bind fun _ _ => h
theorem execTrel_wf (td) : NextWf (execTrel td s) := finish_wf <| (pushGuard_ends h _).bind fun _ _ => h
theorem execTzero_wf (td) : NextWf (execTzero td s) := finish_wf <| (tileGuard_ends h ..).bind fun _ _ => h
theorem execTrank_wf (td xd) : NextWf (execTrank td xd s) := finish_wf <| (needVector_ends h).bind fun _ _ => h

theorem State.outer_wf (sub td va vb) : NextWf (s.outer sub td va vb) :=
  finish_wf <| (tileGuard_ends h ..).bind fun _ _ => (tagCheck_ends h ..).bind fun _ _ =>
    iteInduction (motive := EndsWf State.Wf)
      (fun _ => iteInduction (motive := EndsWf State.Wf) (fun _ => h) fun _ => h) fun _ => h

theorem execTdense_wf (td) : NextWf (execTdense td s) :=
  finish_wf <| (tileGuard_ends h ..).bind fun _ _ => iteInduction (motive := EndsWf State.Wf) (fun _ => h) fun _ =>
    (conflictIf_ends h ..).bind fun _ _ => h

theorem execTadd_wf (td ts) : NextWf (execTadd td ts s) :=
  finish_wf <| (tileGuard_ends h ..).bind fun _ _ => (conflictIf_ends h ..).bind fun _ _ => (conflictIf_ends h ..).bind
    fun _ _ => (tagCheck_ends h ..).bind fun _ _ => iteInduction (motive := EndsWf State.Wf)
      (fun _ => iteInduction (motive := EndsWf State.Wf) (fun _ => h) fun _ => h) fun _ => h

theorem execTscale_wf (td va) : NextWf (execTscale td va s) :=
  finish_wf <| (tileGuard_ends h ..).bind fun _ _ => (conflictIf_ends h ..).bind fun _ _ =>
    (tagCheck_ends h ..).bind fun _ _ => h

theorem State.tileVecMul_wf (trans td va vd) : NextWf (s.tileVecMul trans td va vd) :=
  finish_wf <| precise_ends h <| (tileGuard_ends h ..).bind fun _ _ => (tagCheck_ends h ..).bind fun _ _ =>
    iteInduction (motive := EndsWf State.Wf) (fun _ => h) fun _ =>
      EndsWf.bind (ChecksWf.foldlM (fun _ _ => (denseTerms_ends h ..).bind fun _ _ => by trivial) _ _) fun _ _ => h

theorem execTrdrow_wf (td vd xb) : NextWf (execTrdrow td vd xb s) :=
  finish_wf <| (tileGuard_ends h ..).bind fun _ _ => iteInduction (motive := EndsWf State.Wf) (fun _ => h) fun _ =>
    iteInduction (motive := EndsWf State.Wf) (fun _ => h) fun _ => h

theorem execTwrrow_wf (td va xb) : NextWf (execTwrrow td va xb s) :=
  finish_wf <| (tileGuard_ends h ..).bind fun _ _ => (conflictIf_ends h ..).bind fun _ _ => (tagCheck_ends h ..).bind fun _ _ =>
    iteInduction (motive := EndsWf State.Wf) (fun _ => h) fun _ => h

theorem execTrecomp_wf (td) : NextWf (execTrecomp td s) :=
  finish_wf <| (tileGuard_ends h ..).bind fun _ _ => (conflictIf_ends h ..).bind fun _ _ =>
    iteInduction (motive := EndsWf State.Wf) (fun _ => h) fun _ => h

/-! ### Tile operations of many steps -/

theorem tmmaGuard_ends (td ts) : ChecksWf (tmmaGuard s td ts) :=
  (tileGuard_ends h ..).bind fun _ _ => (conflictIf_ends h ..).bind fun _ _ => (conflictIf_ends h ..).bind fun _ _ =>
    tagCheck_ends h ..
theorem strideCheck_ends (t e) : ChecksWf (strideCheck s t e) := trapIf_ends h ..

/-- Pieces of memory, found and read: `State.readA`, as the model also writes it out. -/
theorem State.readA_ends (a n) : EndsWf FirstWf (s.readA a n) :=
  (State.pieces_ends h ..).bind fun _ h1 => State.loadPieces_ends h1 ..

theorem State.tmmaIssue_ends (strict td ts rec) : EndsWf FirstWf (s.tmmaIssue strict td ts rec) :=
  precise_ends h <| (tmmaGuard_ends h ..).bind fun _ _ => (trapIf_ends h ..).bind fun _ _ => (State.pieces_ends h ..).bind
    fun _ h1 => (State.loadPieces_ends h1 ..).bind fun _ h2 => (trapIf_ends h ..).bind fun _ _ => (trapIf_ends h ..).bind
    fun _ _ => (strideCheck_ends h ..).bind fun _ _ => iteInduction (motive := EndsWf FirstWf) (fun _ => h2) fun _ =>
    (State.pieces_ends h2 ..).bind fun _ h3 => (State.loadPieces_ends h3 ..).bind fun _ h4 =>
    iteInduction (motive := EndsWf FirstWf) (fun _ => h4) fun _ =>
    iteInduction (motive := EndsWf FirstWf) (fun _ => h) fun _ => h4

theorem State.checkA_ends (p) : EndsWf State.Wf (s.checkA p) :=
  (State.translate_ends h ..).bind fun _ h1 => (trapIf_ends h1 ..).bind fun _ _ => h1
theorem State.checkRow_ends (ps) : EndsWf State.Wf (s.checkRow ps) :=
  EndsWf.foldlM (fun _ p hu => State.checkA_ends hu p) _ h

theorem State.elemOfRow_ends (row : Word) (t : Tag) (o : ℤ) (k) (e : Byte) : EndsWf FirstWf (do
    if isSx t then
      let (s2, bs) ← s.readA (row + BitVec.ofInt 64 o) (sxBytes t)
      match sxMemElem t (sxOfMem t bs) (k % 16) with
      | .ok x => return (s2, x, e)
      | .error slot => reservedCode s2 k slot
    else
      let (s2, bs) ← s.readA (row + BitVec.ofInt 64 o) (max 1 (memBits t / 8))
      return (s2, memValue t 0 k bs, e)) :=
  iteInduction (motive := EndsWf FirstWf)
    (fun _ => (State.readA_ends h ..).bind fun _ h1 => by dsimp only; split <;> exact h1)
    fun _ => (State.readA_ends h ..).bind fun _ h1 => h1

theorem State.readElem_ends (row t scale stride k) : EndsWf FirstWf (s.readElem row t scale stride k) := by
  unfold State.readElem
  dsimp only
  split
  · exact (State.readA_ends h ..).bind fun _ h1 => State.elemOfRow_ends h1 ..
  · exact State.elemOfRow_ends h ..

omit h in
theorem EndsWf.foldlM_first {α β : Type} {f : State × β → α → Except Stop (State × β)}
    (hf : ∀ u a, u.1.Wf → EndsWf FirstWf (f u a)) (l : List α) {p : State × β} (h : p.1.Wf) :
    EndsWf FirstWf (l.foldlM f p) := by
  induction l generalizing p with
  | nil => exact h
  | cons a r ih => rw [List.foldlM_cons]; exact (hf p a h).bind fun _ h1 => ih h1

theorem State.readRow_ends (row t scale stride n) : EndsWf FirstWf (s.readRow row t scale stride n) :=
  EndsWf.foldlM_first (fun _ _ hu => (State.readElem_ends hu ..).bind fun _ h1 => by exact h1) _ h

theorem State.tmmaStep_ends (strict td ts base rowStride elemStride m) :
    EndsWf State.Wf (s.tmmaStep strict td ts base rowStride elemStride m) :=
  (State.checkRow_ends h _).bind fun _ h0 => (State.readRow_ends h0 ..).bind fun _ h1 =>
    EndsWf.bind (ChecksWf.foldlM (fun _ _ => EndsWf.bind (ChecksWf.foldlM
      (fun _ _ => (useElem_ends h1 ..).bind fun _ _ => by trivial) _ _)
      fun _ _ => by trivial) _ _) fun _ _ => h1

theorem State.tsaveStep_ends (td addr m) : EndsWf State.Wf (s.tsaveStep td addr m) :=
  (State.pieces_ends h ..).bind fun p h1 => by
    have h2 := fun bs => State.storePieces_wf h1 p.2 bs
    dsimp only
    split <;> exact h2 _

theorem State.readHeader_ends (addr) : EndsWf FirstWf (s.readHeader addr) := State.readA_ends h ..

theorem State.tloadFirst_ends (td addr) : EndsWf State.Wf (s.tloadFirst td addr) :=
  precise_ends h <| (State.readHeader_ends h _).bind fun _ h2 => by
    dsimp only
    split
    · exact h
    · split
      · exact h2
      · exact (conflictIf_ends h ..).bind fun _ _ => (conflictIf_ends h ..).bind fun _ _ =>
          iteInduction (motive := EndsWf State.Wf) (fun _ => h2) fun _ => (State.pieces_ends h2 ..).bind fun _ h3 =>
            (State.loadPieces_ends h3 ..).bind fun _ h4 => h4

theorem State.tloadStep_ends (td addr m) : EndsWf State.Wf (s.tloadStep td addr m) :=
  (State.pieces_ends h ..).bind fun _ h1 => (State.loadPieces_ends h1 ..).bind fun _ h2 => h2

theorem State.macroStep_ends (op m) : EndsWf State.Wf (s.macroStep op m) := by
  cases op with
  | tmma strict td ts base rs es rows => exact State.tmmaStep_ends h ..
  | tsave td addr => exact State.tsaveStep_ends h ..
  | tload td addr =>
    exact iteInduction (motive := EndsWf State.Wf) (fun _ => State.tloadFirst_ends h ..) fun _ => State.tloadStep_ends h ..

omit h in
theorem macroStop_ends (op m) {r : Except Stop State} (hr : EndsWf State.Wf r) : EndsWf State.Wf (macroStop op m r) := by
  match r, hr with
  | .ok _, hr => exact hr
  | .error (.trap _ _), hr => exact hr
  | .error (.wait _), hr => exact hr

theorem State.macroRun_ends (op fuel m) : EndsWf State.Wf (State.macroRun op fuel m s) := by
  induction fuel generalizing s m with
  | zero => exact iteInduction (motive := EndsWf State.Wf) (fun _ => macroStop_ends _ _ h) fun _ => h
  | succ fuel ih =>
    have hr := State.macroStep_ends h op m
    unfold State.macroRun
    split
    · split
      · next e => exact ih (by simpa [State.count_mem] using hr.of_ok e) _
      · exact macroStop_ends _ _ hr
    · exact h

theorem State.unitsOk_ends (kind ps) : EndsWf State.Wf (s.unitsOk kind ps) := by
  induction ps generalizing s with
  | nil => exact h
  | cons p r ih =>
    have hr := State.translate_ends h ⟨kind, true, p.2⟩ p.1
    unfold State.unitsOk
    split
    · next e => exact ih (hr.of_ok e)
    · next e => exact hr.of_wait e
    · next e => split <;> exact hr.of_trap e

theorem State.headerOf_ends (m op) : ChecksWf (s.headerOf m op) := by
  unfold State.headerOf
  split
  · split
    · trivial
    · split
      · trivial
      · next e => exact (State.readHeader_ends h _).of_wait e
      · trivial
  · trivial

theorem State.macroBegin_ends (c : Prop) [Decidable c] (f k n op m) : EndsWf State.Wf
    (if c then State.macroRun op 1 m (((s.push .t).modCc f).modCore n k) else State.macroRun op 0 m ((s.push .t).modCc f)) :=
  iteInduction (motive := EndsWf State.Wf) (fun _ => State.macroRun_ends (by simpa using h) ..) fun _ =>
    State.macroRun_ends (by simpa using h) ..

theorem State.macroStart_ends (op m) : EndsWf State.Wf (s.macroStart op m) := (stallIf_ends h _).bind fun _ _ => by
  dsimp only
  split
  · exact State.macroBegin_ends h ..
  · exact (State.headerOf_ends h ..).bind fun _ _ => (precise_ends h (State.unitsOk_ends h ..)).bind fun _ h1 =>
      State.macroBegin_ends h1 ..

theorem State.tmma_wf (strict td xa ts) : NextWf (s.tmma strict td xa ts) :=
  finish_wf <| (vfenceWait_ends h).bind fun _ h0 => (State.tmmaIssue_ends h0 ..).bind fun _ h1 => State.macroStart_ends h1 ..

theorem execTsave_wf (td xa) : NextWf (execTsave td xa s) :=
  finish_wf <| (needVector_ends h).bind fun _ _ => (trapIf_ends h ..).bind fun _ _ => (vfenceWait_ends h).bind fun _ h0 =>
    State.macroStart_ends h0 ..

theorem execTload_wf (td xa) : NextWf (execTload td xa s) :=
  finish_wf <| (pushGuard_ends h _).bind fun _ _ => (trapIf_ends h ..).bind fun _ _ => (vfenceWait_ends h).bind fun _ h0 =>
    State.macroStart_ends h0 ..

theorem execTileMacroStep_wf (core) : NextWf (execTileMacroStep core s) := by
  unfold execTileMacroStep
  dsimp only
  split
  · exact h
  · exact State.onCc_wf _ (fun u hu => by split; exacts [hu, settle_wf (State.macroRun_ends hu ..)]) (s := s.modCore _ _) h

end

end Sys2Proof.Machine
end

section
/-! SUPPORT. The canonical form of memory through every instruction and every event. -/

namespace Sys2Proof.Machine

section
variable {s : State} (h : s.Wf)
include h

/-! ### Every instruction and event, and the step -/

/-- By the meaning each instruction and event has: those that share one share its lemma. -/
theorem exec_wf (i : Instr) : NextWf (exec i s) := by
  cases i with
  | add | sub | and | or | xor | sll | srl | sra | slt | sltu | min | max | minu | maxu | mul | mulh | mulhu | div
    | divu | rem | remu | csel | clz | ctz | popc | bswap | addi | andi | ori | xori | slti | slli | srli | srai
    | sext | zext | lui | addpc => exact State.writeX_wf h ..
  | fadd | fsub | fmul | fdiv | fsqrt | fmac | fcvtif | fcvtsd =>
    simp only [exec_fadd, exec_fsub, exec_fmul, exec_fdiv, exec_fsqrt, exec_fmac, exec_fcvtif, exec_fcvtsd]
    exact State.fpDeliver_wf h ..
  | fmin | fmax | feq | flt | fle | fcvtfi =>
    simp only [exec_fmin, exec_fmax, exec_feq, exec_flt, exec_fle, exec_fcvtfi]
    exact State.fpWrite_wf h ..
  | beq | bne | blt | bge | bltu | bgeu => exact State.branch_wf h ..
  | bany | ball | bnone => exact State.maskBranch_wf h ..
  | jal => exact h
  | jalr => exact execJalr_wf h ..
  | ldb | ldh | ldw | ldd | ldbz | ldhz | ldwz => exact State.load_wf h ..
  | lda => rw [exec_lda]; exact execLda_wf h ..
  | stb | sth | stw | std => exact State.store_wf h ..
  | strel => exact execStrel_wf h ..
  | csrr => exact execCsrr_wf h ..
  | csrw | csrs | csrc => exact finish_wf (csrWrite_ends h ..)
  | syscall => exact State.raiseAt_wf h ..
  | tret => exact execTret_wf h ..
  | brk => exact execBrk_wf h ..
  | idle => exact State.enterWait_wf h ..
  | yield => exact execYield_wf h ..
  | exit => exact execExit_wf h ..
  | spawn => exact execSpawn_wf h ..
  | uiret => exact execUiret_wf h ..
  | tlbinv => exact execTlbinv_wf h ..
  | lgset => exact execLgset_wf h ..
  | vadd | vsub | vmul | vmulh | vdiv | vabsd =>
    simp only [exec_vadd, exec_vsub, exec_vmul, exec_vmulh, exec_vdiv, exec_vabsd]
    exact State.vecBinary_wf h ..
  | vmin | vmax =>
    simp only [exec_vmin, exec_vmax]
    exact State.vecMinMax_wf h ..
  | vand | vor | vxor | vsll | vsrl | vsra =>
    simp only [exec_vand, exec_vor, exec_vxor, exec_vsll, exec_vsrl, exec_vsra]
    exact State.vecBits_wf h ..
  | vadds | vsubs =>
    simp only [exec_vadds, exec_vsubs]
    exact State.vecSat_wf h ..
  | vmac | vnmac =>
    simp only [exec_vmac, exec_vnmac]
    exact State.vecMac_wf h ..
  | vdot4 => exact execVdot4_wf h ..
  | vneg | vabs =>
    simp only [exec_vneg, exec_vabs]
    exact State.vecSign_wf h ..
  | vsqrt | vrcp | vrsqrt | vexp2 | vlog2 =>
    simp only [exec_vsqrt, exec_vrcp, exec_vrsqrt, exec_vexp2, exec_vlog2]
    exact State.vecFunc_wf h ..
  | vclass => exact execVclass_wf h ..
  | vmov => exact execVmov_wf h ..
  | vbcast => exact execVbcast_wf h ..
  | vtag => exact execVtag_wf h ..
  | vsxnorm => exact execVsxnorm_wf h ..
  | vcmpeq | vcmpne | vcmplt | vcmple | vcmpgt | vcmpge | vcmpun =>
    simp only [exec_vcmpeq, exec_vcmpne, exec_vcmplt, exec_vcmple, exec_vcmpgt, exec_vcmpge, exec_vcmpun]
    exact State.vecCompare_wf h ..
  | vcvt => exact execVcvt_wf h ..
  | vcvtsc => exact execVcvtsc_wf h ..
  | vslup => exact execVslup_wf h ..
  | vsldn => exact execVsldn_wf h ..
  | vsl1up => exact execVsl1up_wf h ..
  | vsl1dn => exact execVsl1dn_wf h ..
  | vperm => exact execVperm_wf h ..
  | vcomp => exact execVcomp_wf h ..
  | viota => exact execViota_wf h ..
  | vsel => exact execVsel_wf h ..
  | vext => exact execVext_wf h ..
  | vins => exact execVins_wf h ..
  | vredsumS | vredsumF =>
    simp only [exec_vredsumS, exec_vredsumF]
    exact State.vecSum_wf h ..
  | vredmax | vredmin =>
    simp only [exec_vredmax, exec_vredmin]
    exact State.vecBest_wf h ..
  | vredand | vredor | vredxor =>
    simp only [exec_vredand, exec_vredor, exec_vredxor]
    exact State.vecLogic_wf h ..
  | vargmax | vargmin =>
    simp only [exec_vargmax, exec_vargmin]
    exact State.vecArg_wf h ..
  | vbestMax | vbestMin =>
    simp only [exec_vbestMax, exec_vbestMin]
    exact State.vecPairs_wf h ..
  | mand | mor | mxor | mandn | mnot | mmov | msetall | mclr => exact State.maskOp_wf h ..
  | mpopc => exact execMpopc_wf h ..
  | mfirst => exact execMfirst_wf h ..
  | loop | loopi => exact finish_wf (State.openLoop_ends h ..)
  | setvl => exact execSetvl_wf h ..
  | next => exact execNext_wf h ..
  | tcfg => exact execTcfg_wf h ..
  | trel => exact execTrel_wf h ..
  | tzero => exact execTzero_wf h ..
  | topa | tops => exact State.outer_wf h ..
  | tmv | tmvt => exact State.tileVecMul_wf h ..
  | tmmaS | tmmaF => exact State.tmma_wf h ..
  | trecomp => exact execTrecomp_wf h ..
  | tdense => exact execTdense_wf h ..
  | trank => exact execTrank_wf h ..
  | trdrow => exact execTrdrow_wf h ..
  | twrrow => exact execTwrrow_wf h ..
  | tsave => exact execTsave_wf h ..
  | tload => exact execTload_wf h ..
  | tscale => exact execTscale_wf h ..
  | tadd => exact execTadd_wf h ..
  | vld | vlds | vldx | vldff =>
    simp only [exec_vld, exec_vlds, exec_vldx, exec_vldff]
    exact State.vecLoad_wf h ..
  | vst | vsts | vstx =>
    simp only [exec_vst, exec_vsts, exec_vstx]
    exact State.vecStore_wf h ..
  | vamoaddf => exact execVamoaddf_wf h ..
  | vsave => rw [exec_vsave]; exact execVsave_wf h ..
  | vrestore => rw [exec_vrestore]; exact execVrestore_wf h ..
  | msave => rw [exec_msave]; exact execMsave_wf h ..
  | mrestore => rw [exec_mrestore]; exact execMrestore_wf h ..
  | ring => exact execRing_wf h ..
  | amoadd | amoaddf | amoand | amoor | amoxor | amomax | amomin | amomaxu | amominu | amoswap | amocas =>
    simp only [exec_amoadd, exec_amoaddf, exec_amoand, exec_amoor, exec_amoxor, exec_amomax, exec_amomin, exec_amomaxu,
      exec_amominu, exec_amoswap, exec_amocas]
    exact State.atomic_wf h ..
  | fence => exact execFence_wf h ..
  | vfence => exact execVfence_wf h ..
  | vfenceBar => exact execVfenceBar_wf h ..
  | barwait => exact execBarwait_wf h ..
  | barcfg => exact execBarcfg_wf h ..
  | cmst => exact execCmst_wf h ..
  | cmstx => exact execCmstx_wf h ..
  | cmzero => exact execCmzero_wf h ..
  | qdot | qfsum | qwsum | qmax | qmin | qwin | qbscore | qcount | qcust => exact State.query_wf h ..
  | cmmov => exact execCmmov_wf h ..
  | cmseal => exact execCmseal_wf h ..
  | cmopen => exact execCmopen_wf h ..
  | shpush => exact execShpush_wf h ..
  | shwait => exact execShwait_wf h ..
  | shdone => exact execShdone_wf h ..
  | shcfg => exact execShcfg_wf h ..
  | shcfgDrain => exact execShcfgDrain_wf h ..
  | shstat => exact execShstat_wf h ..
  | vsend => exact execVsend_wf h ..
  | job => exact execJob_wf h ..
  | jobchk => exact execJobchk_wf h ..
  | wait => exact execWait_wf h ..
  | hardPreemption => exact execHardPreemption_wf h ..
  | laneShapeChange => exact execLaneShapeChange_wf h ..
  | heddleGrant => exact execHeddleGrant_wf h ..
  | regionLaunch => exact execRegionLaunch_wf h ..
  | rcbCheck => exact execRcbCheck_wf h ..
  | regionPlacement => exact execRegionPlacement_wf h ..
  | regionRetire => exact execRegionRetire_wf h ..
  | rsTerminateRegion => exact execRsTerminateRegion_wf h ..
  | rsTerminateContext => exact execRsTerminateContext_wf h ..
  | rsEvict => exact execRsEvict_wf h ..
  | terminationEnd => exact execTerminationEnd_wf h ..
  | waitReturn => exact execWaitReturn_wf h ..
  | barwaitReturn => exact execBarwaitReturn_wf h ..
  | barrierStall => exact execBarrierStall_wf h ..
  | idleTimeout => exact execIdleTimeout_wf h ..
  | uiDelivery => exact execUiDelivery_wf h ..
  | loadComplete => exact execLoadComplete_wf h ..
  | storePerformed => exact execStorePerformed_wf h ..
  | cmStorePerformed => exact State.cmStoreDone_wf h ..
  | queryCompletion => exact execQueryCompletion_wf h ..
  | sheafAgeExpiry => exact execSheafAgeExpiry_wf h ..
  | sheafFiring => exact execSheafFiring_wf h ..
  | sheafDelivery => exact State.deliverSheaf_wf h ..
  | jobStart => exact execJobStart_wf h ..
  | jobCompletion => exact execJobCompletion_wf h ..
  | tileMacroStep => exact execTileMacroStep_wf h ..
  | pageWalk => exact execPageWalk_wf h ..
  | walkComplete => exact execWalkComplete_wf h ..
  | atomicRequest => exact State.serveHead_wf h ..
  | dieWriteArrival => exact execDieWriteArrival_wf h ..
  | dieWriteDeliver => exact execDieWriteDeliver_wf h ..
  | cmInstall => exact execCmInstall_wf h ..
  | cmRemove => exact execCmRemove_wf h ..
  | cmRemoveDone => exact execCmRemoveDone_wf h ..
  | cmReadBack => exact execCmReadBack_wf h ..
  | cmmovDone => exact execCmmovDone_wf h ..
  | cmsealDone => exact execCmsealDone_wf h ..
  | cmopenDone => exact execCmopenDone_wf h ..
  | activation => exact execActivation_wf h ..
  | trackerWindowClear => exact execTrackerWindowClear_wf h ..
  | refresh => exact execRefresh_wf h ..
  | remapMove => exact execRemapMove_wf h ..
  | remapMoveEnd => exact execRemapMoveEnd_wf h ..
  | divisorChange => exact execDivisorChange_wf h ..
  | computeModeEntry => exact execComputeModeEntry_wf h ..
  | nlbExpiry => exact execNlbExpiry_wf h ..
  | normalModeRequest => exact execNormalModeRequest_wf h ..
  | normalModeDone => exact execNormalModeDone_wf h ..
  | meshPacket => exact execMeshPacket_wf h ..
  | tillerJob => exact execTillerJob_wf h ..
  | tillerDmaGo => exact execTillerDmaGo_wf h ..
  | tillerDmaDone => exact execTillerDmaDone_wf h ..
  | replypush => exact execReplypush_wf h ..
  | replyend => exact execReplyend_wf h ..
  | tillerTimeout => exact execTillerTimeout_wf h ..
  | tillerFwLoad => exact execTillerFwLoad_wf h ..
  | tillerFwLoadDone => exact execTillerFwLoadDone_wf h ..
  | flitReceive => exact execFlitReceive_wf h ..
  | ackTimer => exact execAckTimer_wf h ..
  | linkRetrain => exact execLinkRetrain_wf h ..
  | linkDown => exact execLinkDown_wf h ..
  | readRequest => exact execReadRequest_wf h ..
  | readResponse => exact execReadResponse_wf h ..
  | peerWrite => exact execPeerWrite_wf h ..
  | writeAcknowledgement => exact execWriteAcknowledgement_wf h ..
  | trainElements => exact State.performElems_wf h ..
  | trainTail => exact execTrainTail_wf h ..
  | tailAcknowledgement => exact execTailAcknowledgement_wf h ..
  | collectiveData => exact execCollectiveData_wf h ..
  | routeWrite => exact execRouteWrite_wf h ..
  | routeApply => exact execRouteApply_wf h ..
  | hostMemRead => exact execHostMemRead_wf h ..
  | hostMemWrite => exact execHostMemWrite_wf h ..
  | cxlSnoop => exact execCxlSnoop_wf h ..
  | powerOnReset => exact execPowerOnReset_wf
  | cxlPortReset => exact execCxlPortReset_wf h ..
  | bootLoad => exact execBootLoad_wf h ..
  | bootComplete => exact execBootComplete_wf h ..
  | verify => exact execVerify_wf h ..
  | keyload => exact execKeyload_wf h ..
  | keywipe => exact execKeywipe_wf h ..
  | keywipeZeroise => exact execKeywipeZeroise_wf h ..
  | dbgopen => exact execDbgopen_wf h ..
  | extend => exact execExtend_wf h ..
  | attest => exact execAttest_wf h ..
  | debugHalt => exact execDebugHalt_wf h ..
  | debugRegisterWrite => exact execDebugRegisterWrite_wf h ..
  | debugResume => exact execDebugResume_wf h ..
  | debugCmRead => exact execDebugCmRead_wf h ..
  | registerWrite => exact execRegisterWrite_wf h ..
  | notAnInstruction => exact execNotAnInstruction_wf h ..
  | linkUp => exact execLinkUp_wf h ..
  | lifecycleAdvance => exact execLifecycleAdvance_wf h ..
  | msixUnmask => exact execMsixUnmask_wf h ..

theorem perform_wf (e : Event) : NextWf (perform e s) := by
  cases e with
  | hardPreemption => exact execHardPreemption_wf h ..
  | laneShapeChange => exact execLaneShapeChange_wf h ..
  | heddleGrant => exact execHeddleGrant_wf h ..
  | regionLaunch => exact execRegionLaunch_wf h ..
  | rcbCheck => exact execRcbCheck_wf h ..
  | regionPlacement => exact execRegionPlacement_wf h ..
  | regionRetire => exact execRegionRetire_wf h ..
  | rsTerminateRegion => exact execRsTerminateRegion_wf h ..
  | rsTerminateContext => exact execRsTerminateContext_wf h ..
  | rsEvict => exact execRsEvict_wf h ..
  | terminationEnd => exact execTerminationEnd_wf h ..
  | waitReturn => exact execWaitReturn_wf h ..
  | barwaitReturn => exact execBarwaitReturn_wf h ..
  | barrierStall => exact execBarrierStall_wf h ..
  | idleTimeout => exact execIdleTimeout_wf h ..
  | uiDelivery => exact execUiDelivery_wf h ..
  | loadComplete => exact execLoadComplete_wf h ..
  | storePerformed => exact execStorePerformed_wf h ..
  | cmStorePerformed => exact State.cmStoreDone_wf h ..
  | queryCompletion => exact execQueryCompletion_wf h ..
  | sheafAgeExpiry => exact execSheafAgeExpiry_wf h ..
  | sheafFiring => exact execSheafFiring_wf h ..
  | sheafDelivery => exact State.deliverSheaf_wf h ..
  | jobStart => exact execJobStart_wf h ..
  | jobCompletion => exact execJobCompletion_wf h ..
  | tileMacroStep => exact execTileMacroStep_wf h ..
  | pageWalk => exact execPageWalk_wf h ..
  | walkComplete => exact execWalkComplete_wf h ..
  | atomicRequest => exact State.serveHead_wf h ..
  | dieWriteArrival => exact execDieWriteArrival_wf h ..
  | dieWriteDeliver => exact execDieWriteDeliver_wf h ..
  | cmInstall => exact execCmInstall_wf h ..
  | cmRemove => exact execCmRemove_wf h ..
  | cmRemoveDone => exact execCmRemoveDone_wf h ..
  | cmReadBack => exact execCmReadBack_wf h ..
  | cmmovDone => exact execCmmovDone_wf h ..
  | cmsealDone => exact execCmsealDone_wf h ..
  | cmopenDone => exact execCmopenDone_wf h ..
  | activation => exact execActivation_wf h ..
  | trackerWindowClear => exact execTrackerWindowClear_wf h ..
  | refresh => exact execRefresh_wf h ..
  | remapMove => exact execRemapMove_wf h ..
  | remapMoveEnd => exact execRemapMoveEnd_wf h ..
  | divisorChange => exact execDivisorChange_wf h ..
  | computeModeEntry => exact execComputeModeEntry_wf h ..
  | nlbExpiry => exact execNlbExpiry_wf h ..
  | normalModeRequest => exact execNormalModeRequest_wf h ..
  | normalModeDone => exact execNormalModeDone_wf h ..
  | meshPacket => exact execMeshPacket_wf h ..
  | tillerJob => exact execTillerJob_wf h ..
  | tillerDmaGo => exact execTillerDmaGo_wf h ..
  | tillerDmaDone => exact execTillerDmaDone_wf h ..
  | replypush => exact execReplypush_wf h ..
  | replyend => exact execReplyend_wf h ..
  | tillerTimeout => exact execTillerTimeout_wf h ..
  | tillerFwLoad => exact execTillerFwLoad_wf h ..
  | tillerFwLoadDone => exact execTillerFwLoadDone_wf h ..
  | flitReceive => exact execFlitReceive_wf h ..
  | ackTimer => exact execAckTimer_wf h ..
  | linkRetrain => exact execLinkRetrain_wf h ..
  | linkDown => exact execLinkDown_wf h ..
  | readRequest => exact execReadRequest_wf h ..
  | readResponse => exact execReadResponse_wf h ..
  | peerWrite => exact execPeerWrite_wf h ..
  | writeAcknowledgement => exact execWriteAcknowledgement_wf h ..
  | trainElements => exact State.performElems_wf h ..
  | trainTail => exact execTrainTail_wf h ..
  | tailAcknowledgement => exact execTailAcknowledgement_wf h ..
  | collectiveData => exact execCollectiveData_wf h ..
  | routeWrite => exact execRouteWrite_wf h ..
  | routeApply => exact execRouteApply_wf h ..
  | hostMemRead => exact execHostMemRead_wf h ..
  | hostMemWrite => exact execHostMemWrite_wf h ..
  | cxlSnoop => exact execCxlSnoop_wf h ..
  | powerOnReset => exact execPowerOnReset_wf
  | cxlPortReset => exact execCxlPortReset_wf h ..
  | bootLoad => exact execBootLoad_wf h ..
  | bootComplete => exact execBootComplete_wf h ..
  | verify => exact execVerify_wf h ..
  | keyload => exact execKeyload_wf h ..
  | keywipe => exact execKeywipe_wf h ..
  | keywipeZeroise => exact execKeywipeZeroise_wf h ..
  | dbgopen => exact execDbgopen_wf h ..
  | extend => exact execExtend_wf h ..
  | attest => exact execAttest_wf h ..
  | debugHalt => exact execDebugHalt_wf h ..
  | debugRegisterWrite => exact execDebugRegisterWrite_wf h ..
  | debugResume => exact execDebugResume_wf h ..
  | debugCmRead => exact execDebugCmRead_wf h ..
  | registerWrite => exact execRegisterWrite_wf h ..
  | notAnInstruction => exact execNotAnInstruction_wf h ..
  | linkUp => exact execLinkUp_wf h ..
  | lifecycleAdvance => exact execLifecycleAdvance_wf h ..
  | msixUnmask => exact execMsixUnmask_wf h ..

end

end Sys2Proof.Machine
end

section
/-! The canonical form of memory through the step, which is built of instructions and events. -/

namespace Sys2Proof.Machine

section
variable {s : State} (h : s.Wf)
include h

/-! ### The step -/

omit h in
theorem NextWf.map {o : Out} (ho : NextWf o) {f : State → State} (hf : ∀ u, u.Wf → (f u).Wf) :
    NextWf (match o with
      | .next t => .next (f t)
      | .fault e => .fault e
      | .refused r => .refused r) := by
  cases o with
  | next t => exact hf t ho
  | fault | refused => trivial

theorem State.partRun_wf {i w k} {t : State} (ht : s.partRun i w k = some t) : t.Wf := by
  have he := exec_wf (s := s.modCc fun c => { c with cut := some k, vdirty := 0 }) h i
  unfold State.partRun at ht
  split at ht
  · next u e =>
    rw [e] at he
    split at ht
    · cases ht; exact he
    · cases ht
  · cases ht

theorem State.stopAt_wf : s.stopAt.Wf := by
  have hf := State.fetch_ends (s := s.draw.2) h s.cc.pc
  unfold State.stopAt
  refine iteInduction (motive := State.Wf) (fun _ => h) fun _ => ?_
  split
  · next u w e =>
    split
    · refine iteInduction (motive := State.Wf) (fun _ => ?_) fun _ => h
      have hp := fun i k t => State.partRun_wf (t := t) (hf.of_ok e) (i := i) (w := w) (k := k)
      cases hc : u.partRun _ w _ with
      | none => exact h
      | some t => exact hp _ _ t hc
    · exact h
  · exact h

theorem State.stopFor_wf (e) : (s.stopFor e).Wf := by
  unfold State.stopFor
  split
  · split; exacts [State.onCc_wf _ (fun _ hu => State.stopAt_wf hu) h, h]
  · split; exacts [State.onCc_wf _ (fun _ hu => State.stopAt_wf hu) h, h]
  · exact h

theorem State.runOne_wf : NextWf s.runOne := by
  have hf := State.fetch_ends h s.cc.pc
  unfold State.runOne
  split
  · next e => exact State.raise_wf (hf.of_trap e) _
  · next e => exact hf.of_wait e
  · next u w e =>
    have hu : u.Wf := hf.of_ok e
    refine iteInduction (motive := NextWf) (fun _ => hu) fun _ => ?_
    split
    · next i _ => exact (exec_wf hu i).map fun t ht => by simpa using ht
    · exact execNotAnInstruction_wf hu w

theorem State.move_wf : NextWf s.move := by
  unfold State.move
  (repeat' split)
  · simpa [NextWf] using h
  · exact execTileMacroStep_wf h _
  · exact State.runOne_wf h
  · exact h

theorem State.goOn_wf : NextWf s.goOn := by
  unfold State.goOn
  split
  · simpa [NextWf] using h
  · split
    · exact State.move_wf h
    · dsimp only
      split
      · exact perform_wf (s := s.draw.2) h _
      · exact State.move_wf (s := s.draw.2) h

theorem State.act_wf : NextWf s.act := by
  unfold State.act
  split
  · next e r _ => exact perform_wf (State.stopFor_wf (s := { s with agenda := r }) h e) e
  · dsimp only
    split
    · next e _ => exact perform_wf (State.stopFor_wf (s := s.draw.2) h e) e
    · exact State.goOn_wf h

theorem step_wf : NextWf (step s) := (State.act_wf h).map fun t ht => by simpa using ht

end

/-- Settles O8: every operation of a step keeps the canonical form, since it writes memory by the laws' own writes alone. -/
theorem stepKeepsMemoryCanonical : Obligations.StepKeepsMemoryCanonical := by
  unfold Obligations.StepKeepsMemoryCanonical
  intro s t hs ht
  have h := step_wf (s := s) hs
  rw [ht] at h
  exact h

/-- Settles O7: the memory of reset is empty. -/
theorem resetMemoryCanonical : Obligations.ResetMemoryCanonical := State.reset_wf

end Sys2Proof.Machine
end

section
/-! Translation (R206, R209, R211, R212, R227): which entry an access finds, what a leaf gives or refuses it, and what setting
its A and D bits changes. -/

namespace Sys2Proof.Machine

/-! ### The entry that an access finds (R211, R212) -/

section
variable {s : State} {va : Word}

theorem State.tlbFind_own {e : TlbEntry} (h : (s.cc.tlb.find? fun t => t.matches s.cc.asid va) = some e) :
    s.tlbFind va = some (s, e) := by
  simp [State.tlbFind, h]

/-- Where no TLB serves it, it is the leaf that a walk gave to the instruction. -/
theorem State.tlbFind_held (h1 : (s.cc.tlb.find? fun t => t.matches s.cc.asid va) = none)
    (h2 : ((s.coreAt (coreOf s.cc.ctxid)).l2.find? fun t => t.matches s.cc.asid va) = none) :
    s.tlbFind va = (s.cc.held.find? fun t => t.matches s.cc.asid va).map fun t => (s, t) := by
  simp [State.tlbFind, h1, h2]

/-! ### A miss (R212) -/

theorem State.translateMiss_first (again : Bool) (h : s.cc.miss = none) :
    s.translateMiss va again = .error (.wait { s with
      cc := { s.cc with miss := some ⟨s.cc.asid, va.extractLsb' 16 48, again, none⟩ }
      agenda := s.agenda ++ [.pageWalk s.cc.ctxid va] }) := by
  simp [State.translateMiss, h, State.modCc, State.later]

theorem State.translateMiss_walkTrap {again again' : Bool} {c : BitVec 8}
    (h : s.cc.miss = some ⟨s.cc.asid, va.extractLsb' 16 48, again', some c⟩) :
    s.translateMiss va again = .error (.trap s { cause := c, tval := va }) := by
  simp [State.translateMiss, h]

/-! ### What the leaf that is found gives (R209, R227) -/

variable {a : Access} {t : TlbEntry}

theorem State.translate_hit {u : State} {x : Xlat} (hf : s.tlbFind va = some (s, t))
    (hh : s.translateHit a va t = some (.ok (u, x))) (hgo : (x.ic && a.kind != .fetch && s.icPending) = false) :
    s.translate a va = .ok (u, x) := by
  simp [State.translate, hf, hh, hgo]

theorem State.translate_behind {u : State} {x : Xlat} (hf : s.tlbFind va = some (s, t))
    (hh : s.translateHit a va t = some (.ok (u, x))) (hgo : (x.ic && a.kind != .fetch && s.icPending) = true) :
    s.translate a va = .error (.wait s) := by
  simp [State.translate, hf, hh, hgo]

theorem State.translate_refused {c : BitVec 8} (hf : s.tlbFind va = some (s, t))
    (hc : s.checkLeaf a va t.entry t.level = .error c) :
    s.translate a va = .error (.trap s { cause := c, tval := va }) := by
  simp [State.translate, hf, State.translateHit, hc]

theorem State.translate_miss (hf : s.tlbFind va = none) : s.translate a va = s.translateMiss va false := by
  simp [State.translate, hf]

theorem State.translateHit_set {x : Xlat} (hc : s.checkLeaf a va t.entry t.level = .ok x)
    (hs : pteStale t.entry a.kind.isWrite = false) : s.translateHit a va t = some (.ok (s, x)) := by
  simp [State.translateHit, hc, hs]

/-- The state in which an entry has taken its A and D bits, in its table and in the TLBs. -/
def State.touched (s : State) (t : TlbEntry) (write : Bool) : State :=
  (s.putEntry t.at_ (pteTouch t.entry write)).fillTlb { t with entry := pteTouch t.entry write }

theorem State.translateHit_touched {x : Xlat} (hc : s.checkLeaf a va t.entry t.level = .ok x)
    (hs : pteStale t.entry a.kind.isWrite = true) (hp : s.peek t.at_ 8 = t.entry.toNat) :
    s.translateHit a va t = some (.ok (s.touched t a.kind.isWrite, x)) := by
  simp [State.translateHit, hc, hs, hp, State.touched]

end

/-! ### The bits of a leaf (R209) -/

/-- A leaf whose bits are set is left as it is. -/
theorem pteTouch_of_not_stale {e : BitVec 64} {w : Bool} (h : pteStale e w = false) : pteTouch e w = e := by
  cases w with
  | true => exact pteTouch_touched h
  | false =>
    have ha : e.getLsbD 11 = true := by simpa [pteStale, pteA] using h
    have hother : ∀ i < 64, i ≠ 11 → (0x800#64).getLsbD i = false := by decide
    refine BitVec.eq_of_getLsbD_eq fun i hi => ?_
    change (e ||| 0x800#64).getLsbD i = _
    rw [BitVec.getLsbD_or]
    by_cases h11 : i = 11
    · rw [h11, ha]
      rfl
    · rw [hother i hi h11, Bool.or_false]

section
variable (s : State) (t : TlbEntry) (write : Bool)

theorem State.touched_mem :
    (s.touched t write).mem = Memory.writeAll s.mem t.at_ (leBytes 8 (pteTouch t.entry write).toNat) :=
  s.storeBytes_mem ..

theorem State.touched_peek : (s.touched t write).peek t.at_ 8 = (pteTouch t.entry write).toNat := by
  have h := s.peek_storeBytes t.at_ 8 (pteTouch t.entry write).toNat
  rwa [Nat.mod_eq_of_lt (BitVec.isLt _)] at h

theorem State.touched_elsewhere {p : Nat} (hp : p < t.at_ ∨ t.at_ + 8 ≤ p) :
    Memory.read (s.touched t write).mem p = Memory.read s.mem p := by
  rw [State.touched_mem]
  exact Memory.read_writeAll_outside _ (by rwa [leBytes_length])

/-- Setting the bits changes what a translation may change. -/
theorem State.touched_translates : Translates s (s.touched t write) := by
  have h := s.storeBytes_writesMemory t.at_ (leBytes 8 (pteTouch t.entry write).toNat)
  unfold WritesMemory at h
  simp only [State.touched, State.putEntry, State.dieBytes, State.fillTlb]
  rw [h]
  rfl

end

/-- A leaf that a walk has given gives what its checks give, with its bits set in memory. -/
theorem State.translate_held {s : State} {a : Access} {va : Word} {t : TlbEntry} {x : Xlat} (hf : s.tlbFind va = some (s, t))
    (hc : s.checkLeaf a va t.entry t.level = .ok x) (hic : x.ic = false) (hp : s.peek t.at_ 8 = t.entry.toNat) :
    ∃ u, s.translate a va = .ok (u, x) ∧ Translates s u ∧ u.peek t.at_ 8 = (pteTouch t.entry a.kind.isWrite).toNat ∧
      ∀ p, (p < t.at_ ∨ t.at_ + 8 ≤ p) → Memory.read u.mem p = Memory.read s.mem p := by
  have hgo : (x.ic && a.kind != .fetch && s.icPending) = false := by simp [hic]
  cases hs : pteStale t.entry a.kind.isWrite with
  | true => exact ⟨_, State.translate_hit hf (State.translateHit_touched hc hs hp) hgo, s.touched_translates t _,
      s.touched_peek t _, fun _ => s.touched_elsewhere t _⟩
  | false => exact ⟨s, State.translate_hit hf (State.translateHit_set hc hs) hgo, rfl, by rw [hp, pteTouch_of_not_stale hs],
      fun _ _ => rfl⟩

/-! ### What a leaf refuses (R206, R209, R414) -/

/-- A page type that does not admit the kind of an access. -/
theorem typeAdmits_false {ty : Nat} {a : Access} {va : Word}
    (h : ty = 0 ∧ a.kind = .cmstore ∨ ty = 1 ∧ a.kind ≠ .cmstore ∨ 2 ≤ ty ∧ a.kind ≠ .load ∧ a.kind ≠ .store) :
    typeAdmits ty a va = false := by
  obtain ⟨rfl, hk⟩ | ⟨rfl, hk⟩ | ⟨hty, hl, hs⟩ := h
  · simp [typeAdmits, hk]
  · simp [typeAdmits, hk]
  · match ty, hty with
    | 2, _ | 3, _ | 4, _ | 5, _ => simp [typeAdmits, hl, hs]
    | _ + 6, _ => simp [typeAdmits]

/-- Each of the refusals ends in "protection": no check with another cause precedes it. -/
theorem State.checkLeaf_refused {s : State} {a : Access} {va : Word} {e : BitVec 64} (lvl : Nat)
    (h : s.cc.level = .user ∧ pteU e = false ∨
      (a.kind = .fetch ∨ a.kind = .load) ∧ pteRd e = false ∨
      (a.kind = .store ∨ a.kind = .atomic ∨ a.kind = .cmstore) ∧ pteW e = false ∨
      typeAdmits (pteType e) a va = false ∨ a.kind = .atomic ∧ pteIc e = true) :
    s.checkLeaf a va e lvl = .error cProt := by
  unfold State.checkLeaf
  refine ite_eq_left_iff.2 fun hu => ite_eq_left_iff.2 fun hr => ite_eq_left_iff.2 fun hw => ite_eq_left_iff.2 fun ht =>
    ite_eq_left_iff.2 fun hi => absurd h ?_
  rintro (h | ⟨hk, h⟩ | ⟨hk, h⟩ | h | ⟨hk, h⟩)
  · exact hu h
  · exact hr (by rcases hk with hk | hk <;> simp [hk, h])
  · exact hw (by rcases hk with hk | hk | hk <;> simp [Acc.isWrite, hk, h])
  · exact ht (by simp [h])
  · exact hi (by simp [hk, h])

/-- Settles O18: the entry is found, its checks are made, and its bits are set where they are not. -/
theorem translation : Obligations.Translation := by
  unfold Obligations.Translation
  refine ⟨fun s a va x => ⟨State.translate_served, ?_, fun h1 h2 h3 => ?_, ?_⟩, ?_⟩
  · intro e he hc ha hd hic hk hp
    exact State.translate_behind (State.tlbFind_own he) (State.translateHit_set hc (pteStale_false ha hd)) (by simp [hic, hk, hp])
  · have hf : s.tlbFind va = none := by rw [State.tlbFind_held h1 h2, h3]; rfl
    exact ⟨fun hm => (State.translate_miss hf).trans (State.translateMiss_first _ hm),
      fun c hm => (State.translate_miss hf).trans (State.translateMiss_walkTrap hm)⟩
  · intro t h1 h2 h3 hc hic hp
    exact State.translate_held (by rw [State.tlbFind_held h1 h2, h3]; rfl) hc hic hp
  · intro s a va e he h
    refine State.translate_refused (State.tlbFind_own he) (State.checkLeaf_refused e.level ?_)
    obtain h | h | h | h | h | h | h := h
    · exact .inl h
    · exact .inr (.inl h)
    · exact .inr (.inr (.inl h))
    · exact .inr (.inr (.inr (.inl (typeAdmits_false (.inl h)))))
    · exact .inr (.inr (.inr (.inl (typeAdmits_false (.inr (.inl h))))))
    · exact .inr (.inr (.inr (.inl (typeAdmits_false (.inr (.inr h))))))
    · exact .inr (.inr (.inr (.inr h)))

end Sys2Proof.Machine
end

section
/-! Scalar loads (R202, R224, R225): which bytes an access gives, and how they stand in the destination. -/

namespace Sys2Proof.Machine

/-! ### The value in the destination (R224) -/

theorem toInt_ofNat_eq_intOf {w v : Nat} (hw : 0 < w) (hv : v < 2 ^ w) : (BitVec.ofNat w v).toInt = intOf true w v := by
  obtain ⟨k, rfl⟩ : ∃ k, w = k + 1 := ⟨w - 1, by omega⟩
  rw [BitVec.toInt_eq_toNat_cond, BitVec.toNat_ofNat, Nat.mod_eq_of_lt hv]
  have hk : 2 ^ (k + 1) = 2 ^ k * 2 := Nat.pow_succ ..
  simp only [intOf, Nat.add_sub_cancel, Bool.true_and, decide_eq_true_eq]
  by_cases hb : 2 ^ k ≤ v
  · rw [if_neg (by omega), if_pos hb]
  · rw [if_pos (by omega), if_neg hb]

theorem loadValue_eq_extended {n v : Nat} (sx : Bool) (hn : 0 < n) (hv : v < 2 ^ (8 * n)) :
    (if sx then (BitVec.ofNat (8 * n) v).signExtend 64 else BitVec.ofNat 64 v) = extended sx n v := by
  cases sx with
  | true => exact congrArg (BitVec.ofInt 64) (toInt_ofNat_eq_intOf (by omega) hv)
  | false => exact (BitVec.ofInt_natCast ..).symm

/-- The scalar loads of R224 are one operation. -/
theorem exec_loadForm {i : Instr} {d a : XReg} {k : BitVec 12} {n : Nat} {sx : Bool}
    (h : loadForm i = some (d, a, k, n, sx)) (s : State) : exec i s = s.load d a k n sx ∧ 0 < n := by
  unfold loadForm at h
  split at h <;> cases h <;> exact ⟨rfl, by decide⟩

/-- A load whose bytes have come ends as any write of a scalar register does. -/
theorem State.load_of_scalarLoad {s u : State} {a : XReg} {k : BitVec 12} {n v : Nat} (d : XReg) (sx : Bool) (hn : 0 < n)
    (hv : v < 2 ^ (8 * n)) (h : s.scalarLoad (s.getX a + .ofInt 64 k.toInt) n = .ok (u, v)) :
    s.load d a k n sx = u.writeX d (extended sx n v) := by
  have h : s.scalarLoad (s.memAddr a k) n = .ok (u, v) := h
  simp only [State.load, h, except_bind_ok, loadValue_eq_extended sx hn hv]
  rfl

/-! ### The pieces of an access (R225) -/

section
variable {s s1 : State} {va : Word} {n : Nat}

/-- An access of which every piece lies on a device page lies in one page. -/
theorem State.pieces_device {kind : Acc} {vec : Bool} {ps : List Piece} (h : s.pieces kind vec va n = .ok (s1, ps))
    (hd : ∀ p ∈ ps, p.x.ty = 3) : ∃ p, ps = [p] := by
  unfold State.pieces at h
  cases hx : s.translate ⟨kind, vec, n⟩ va with
  | error e => simp only [hx, except_bind_error, ite_self] at h; cases h
  | ok u =>
    simp only [hx, except_bind_ok] at h
    split at h
    · cases h; exact ⟨_, rfl⟩
    · cases hy : u.1.translate ⟨kind, vec, n⟩ (va + BitVec.ofNat 64 (65536 - va.toNat % 65536)) with
      | error e => rw [hy] at h; cases h
      | ok w =>
        by_cases hw : w.2.ty = 3
        · simp only [hy, except_bind_ok, except_bind_error, hw, BEq.rfl, trapIf_true] at h; cases h
        · simp only [hy, except_bind_ok, beq_false_of_ne hw, trapIf_false] at h
          cases h
          exact absurd (hd _ (List.mem_cons_of_mem _ List.mem_cons_self)) hw

theorem State.scalarLoad_bytes {ps : List Piece} (h : s.pieces .load false va n = .ok (s1, ps)) (hd : ∀ p ∈ ps, p.x.ty ≠ 3)
    {s2 : State} {bs : List Byte} (hl : s1.loadPieces va ps = .ok (s2, bs)) : s.scalarLoad va n = .ok (s2, leNat bs) := by
  simp only [State.scalarLoad, h, except_bind_ok]
  match ps, hd, hl with
  | [], _, hl => simp only [hl, except_bind_ok]; rfl
  | [p], hd, hl => simp only [hd p List.mem_cons_self, if_false, hl, except_bind_ok]; rfl
  | _ :: _ :: _, _, hl => simp only [hl, except_bind_ok]; rfl

theorem State.scalarLoad_device {p : Piece} (h : s.pieces .load false va n = .ok (s1, [p])) (hd : p.x.ty = 3) :
    s.scalarLoad va n = .ok (s1, s1.devRead s1.cc.level (p.x.pa - devBase) n) := by
  simp only [State.scalarLoad, h, except_bind_ok, hd, if_true]
  rfl

/-- A scalar access in one page that the TLB serves has one piece. -/
theorem State.pieces_served {kind : Acc} {vec : Bool} {x : Xlat} (hp : va.toNat % 65536 + n ≤ 65536)
    (hx : s.served ⟨kind, vec, n⟩ va = some x) : s.pieces kind vec va n = .ok (s, [⟨x, n⟩]) := by
  have hroom : n ≤ 65536 - va.toNat % 65536 := by omega
  simp [State.pieces, hroom, State.translate_served hx]

/-- Of WM or scratchpad without compression or poison, with no block stored encoded, it is the bytes of memory. -/
theorem State.loadPieces_plain {x : Xlat} (hty : x.ty = 0 ∨ x.ty = 2) (hce : x.ce = false) (hraw : s.rawAt x.pa n = true)
    (hp : s.poisoned x.pa n = false) : s.loadPieces va [⟨x, n⟩] = .ok (s, s.bytes x.pa n) := by
  have hpiece : s.loadPiece ⟨x, n⟩ va = .ok (s, s.bytes x.pa n) := by
    rcases hty with ht | ht <;>
      simp [State.loadPiece, State.loadPieceFor, ht, hce, hp, State.bytesIn_plain (.inr hraw)]
  simp [State.loadPieces, hpiece]

end

theorem State.devRead_lt (s : State) (lv : Level) (off n : Nat) : s.devRead lv off n < 2 ^ (8 * n) :=
  Nat.mod_lt _ (by positivity)

/-- Settles O19: the load is that of its pieces, or of the one register on a device page. -/
theorem scalarLoads : Obligations.ScalarLoads := by
  unfold Obligations.ScalarLoads
  refine ⟨fun i s s1 d a k n sx ps hi hps => ⟨fun hd s2 bs hl hlen => ?_, fun hd => ?_⟩,
    fun i s d a k n sx x hi => fun hpage hx hty hce hraw hpois => ?_⟩
  · obtain ⟨hexec, hn⟩ := exec_loadForm hi s
    rw [hexec, State.load_of_scalarLoad d sx hn (hlen ▸ leNat_lt bs) (State.scalarLoad_bytes hps hd hl)]
    exact writeX_out ..
  · obtain ⟨hexec, hn⟩ := exec_loadForm hi s
    obtain ⟨p, rfl⟩ := State.pieces_device hps hd
    have hload := State.scalarLoad_device hps (hd p List.mem_cons_self)
    obtain ⟨t, ht⟩ := writeX_out s1 d (extended sx n (s1.devRead s1.cc.level (p.x.pa - devBase) n))
    exact ⟨p, t, rfl, by rw [hexec, State.load_of_scalarLoad d sx hn (s1.devRead_lt ..) hload]; exact ht⟩
  · obtain ⟨hexec, hn⟩ := exec_loadForm hi s
    have hload := State.scalarLoad_bytes (State.pieces_served hpage hx)
      (by rcases hty with ht | ht <;> simp [ht]) (State.loadPieces_plain hty hce hraw hpois)
    rw [hexec, State.load_of_scalarLoad d sx hn (by simpa [s.bytes_length] using leNat_lt (s.bytes x.pa n)) hload]
    exact writeX_out ..

end Sys2Proof.Machine
end
